-- ==== Sys2Proof/Word.lean ====
section
/-! DEFINITION. The word types of the module: 64-bit words, bytes, register numbers, and the plainest arithmetic on them. -/

namespace Sys2Proof

/-- A 64-bit word: the contents of an x register, a CSR or a configuration register. -/
abbrev Word := BitVec 64

/-- A byte of memory. -/
abbrev Byte := BitVec 8

/-- A register field of an encoding (R64): an x, f or v register number. -/
abbrev Reg := BitVec 5

/-- One 8,192-bit vector register (R134). -/
abbrev VReg := BitVec 8192

/-- One 128-byte line, as a little-endian number (R178). -/
abbrev LineData := BitVec 1024

/-- Bits [hi:lo] of a word, as a natural number (the manual's `x[hi:lo]`). -/
def bits {n : Nat} (x : BitVec n) (hi lo : Nat) : Nat := (x.toNat >>> lo) % 2 ^ (hi + 1 - lo)

/-- One bit of a word. -/
def bit {n : Nat} (x : BitVec n) (i : Nat) : Bool := x.getLsbD i

/-- A word from a natural number, cut to 64 bits. -/
def word (n : Nat) : Word := BitVec.ofNat 64 n

/-- A Boolean as a 0/1 number. -/
def bnat (b : Bool) : Nat := if b then 1 else 0

/-- The all-ones word, which several entries return for "none". -/
def allOnes : Word := BitVec.allOnes 64

end Sys2Proof
end

