-- ==== Sys2Proof/Syntax.lean ====
section
/-! DEFINITION. The syntax of the machine's steps: one constructor of `Instr` for every row of the opcode table. A row with
an encoding carries the fields of that encoding, raw; a base-ISA row carries the sub-operation it covers; an event row
stands for a step that no instruction word names (what a host, firmware, a debugger or an engine does), and its operands are
`EventArgs`. -/

namespace Sys2Proof

/-- The scalar loads (R62, RV64I, F, D). -/
inductive LoadKind | lb | lh | lw | ld | lbu | lhu | lwu | flw | fld
  deriving DecidableEq, Repr

/-- The scalar stores. -/
inductive StoreKind | sb | sh | sw | sd | fsw | fsd
  deriving DecidableEq, Repr

/-- The base AMO operations (RV64A). -/
inductive AmoOp | swap | add | xor | and | or | min | max | minu | maxu
  deriving DecidableEq, Repr

/-- Division and remainder (RV64M). -/
inductive DivOp | div | divu | rem | remu
  deriving DecidableEq, Repr

/-- The Zicsr operations; the immediate forms are marked beside. -/
inductive CsrOp | rw | rs | rc
  deriving DecidableEq, Repr

/-- Register-immediate operations on 64 bits. -/
inductive ImmOp | addi | slti | sltiu | xori | ori | andi
  deriving DecidableEq, Repr

/-- Shifts. -/
inductive ShiftOp | sll | srl | sra
  deriving DecidableEq, Repr

/-- Register-register operations on 64 bits. -/
inductive RegOp | add | sub | sll | slt | sltu | xor | srl | sra | or | and
  deriving DecidableEq, Repr

/-- Register-register operations on 32 bits. -/
inductive RegOpW | addw | subw | sllw | srlw | sraw
  deriving DecidableEq, Repr

/-- Multiplications (RV64M). -/
inductive MulOp | mul | mulh | mulhsu | mulhu | mulw
  deriving DecidableEq, Repr

/-- INTEGER_ARITHMETIC: RV64I arithmetic, LUI, AUIPC and the RV64M multiplies. -/
inductive IntOp
  | imm (k : ImmOp) (rd rs1 : Reg) (imm : BitVec 12)
  | shift (k : ShiftOp) (rd rs1 : Reg) (sh : BitVec 6)
  | addiw (rd rs1 : Reg) (imm : BitVec 12)
  | shiftW (k : ShiftOp) (rd rs1 : Reg) (sh : BitVec 5)
  | reg (k : RegOp) (rd rs1 rs2 : Reg)
  | regW (k : RegOpW) (rd rs1 rs2 : Reg)
  | mul (k : MulOp) (rd rs1 rs2 : Reg)
  | lui (rd : Reg) (imm : BitVec 20)
  | auipc (rd : Reg) (imm : BitVec 20)
  deriving DecidableEq, Repr

/-- The conditional branches. -/
inductive BranchOp | beq | bne | blt | bge | bltu | bgeu
  deriving DecidableEq, Repr

/-- JAL and JALR. -/
inductive JumpOp
  | jal (rd : Reg) (imm : BitVec 21)
  | jalr (rd rs1 : Reg) (imm : BitVec 12)
  deriving DecidableEq, Repr

/-- Two-operand F and D arithmetic with a rounding mode. -/
inductive FpArith | add | sub | mul | div
  deriving DecidableEq, Repr
/-- The fused forms. -/
inductive FpFma | madd | msub | nmsub | nmadd
  deriving DecidableEq, Repr
/-- Sign injection. -/
inductive FpSgn | sgnj | sgnjn | sgnjx
  deriving DecidableEq, Repr
/-- Comparison. -/
inductive FpCmp | le | lt | eq
  deriving DecidableEq, Repr
/-- Integer types of a conversion. -/
inductive FpInt | w | wu | l | lu
  deriving DecidableEq, Repr

/-- FP_ARITHMETIC: a scalar F or D instruction that accesses no memory. -/
inductive FpOp
  | arith (k : FpArith) (dbl : Bool) (rm : BitVec 3) (rd rs1 rs2 : Reg)
  | sqrt (dbl : Bool) (rm : BitVec 3) (rd rs1 : Reg)
  | fma (k : FpFma) (dbl : Bool) (rm : BitVec 3) (rd rs1 rs2 rs3 : Reg)
  | sgn (k : FpSgn) (dbl : Bool) (rd rs1 rs2 : Reg)
  | minmax (max : Bool) (dbl : Bool) (rd rs1 rs2 : Reg)
  | cmp (k : FpCmp) (dbl : Bool) (rd rs1 rs2 : Reg)
  | toInt (t : FpInt) (dbl : Bool) (rm : BitVec 3) (rd rs1 : Reg)
  | ofInt (t : FpInt) (dbl : Bool) (rm : BitVec 3) (rd rs1 : Reg)
  | cvt (toDbl : Bool) (rm : BitVec 3) (rd rs1 : Reg)
  | mvToX (dbl : Bool) (rd rs1 : Reg)
  | mvFromX (dbl : Bool) (rd rs1 : Reg)
  | fclass (dbl : Bool) (rd rs1 : Reg)
  deriving DecidableEq, Repr

/-- What bring-up finds and what firmware chooses in it (R385, R394, R396): which panels' images verify and what is measured,
whether every UCIe link repairs, the die fused off at test, the IEEE 1588 epoch if port 0 holds lock, the ports that run CXL,
the module ID, the peers with a route, whether firmware enables debug, and the fuses: the alarm policy and the configuration that slot 0 reports. -/
structure Bringup where
  imagesOk : BitVec 4
  measurements : List (BitVec 256)
  linksOk : Bool
  absent : Option (BitVec 4)
  epoch : Option Word
  cxl : BitVec 2
  moduleId : BitVec 12
  peers : List Nat
  debug : Bool
  policy : BitVec 2
  fuses : BitVec 256
  deriving DecidableEq, Repr

/-- The operands of an event row. An event is no word of memory, so it has no operand fields; the machine's state holds the
operands of the event being carried out (`State.ev`), and each event constructor's docstring says what they name. A context
number is global core × 12 + context. -/
structure EventArgs where
  a : Nat
  b : Nat
  c : Nat
  n : Nat
  v : Word
  flag : Bool
  flag2 : Bool
  list : List Nat
  mask : BitVec 128
  data : LineData
  rate : Int
  bring : Bringup
  deriving DecidableEq, Repr

/-- One constructor per row of the opcode table. The event rows stand last and carry no fields. -/
inductive Instr
  /-- LOAD (R100). -/
  | load (k : LoadKind) (rd rs1 : Reg) (imm : BitVec 12)
  /-- STORE (R99). -/
  | store (k : StoreKind) (rs1 rs2 : Reg) (imm : BitVec 12)
  /-- LR (R102). -/
  | lr (dbl aq rl : Bool) (rd rs1 : Reg)
  /-- SC (R102). -/
  | sc (dbl aq rl : Bool) (rd rs1 rs2 : Reg)
  /-- AMO (R101). -/
  | amo (op : AmoOp) (dbl aq rl : Bool) (rd rs1 rs2 : Reg)
  /-- INTEGER_DIVIDE (R98). -/
  | integerDivide (op : DivOp) (word : Bool) (rd rs1 rs2 : Reg)
  /-- CSR_ACCESS (R74). -/
  | csrAccess (op : CsrOp) (isImm : Bool) (rd src : Reg) (csr : BitVec 12)
  /-- FENCE (R22). -/
  | fence (fm pred succ : BitVec 4) (rd rs1 : Reg)
  /-- FENCE_TSO (R22). -/
  | fenceTso (rd rs1 : Reg)
  /-- FENCE_I (R103). -/
  | fenceI (imm : BitVec 12) (rd rs1 : Reg)
  /-- WFI (R103). -/
  | wfi
  /-- ECALL (R103). -/
  | ecall
  /-- EBREAK (R103). -/
  | ebreak
  /-- SFENCE_VMA (R191). -/
  | sfenceVma (rs1 rs2 : Reg)
  /-- WRS_NTO (R103). -/
  | wrsNto
  /-- WRS_STO (R103). -/
  | wrsSto
  /-- LDO (R198). -/
  | ldo (rd : Reg) (rs1 : Reg) (scope : BitVec 3) (op : BitVec 2) (w : BitVec 2)
  /-- STO (R198). -/
  | sto (rs1 : Reg) (rs2 : Reg) (scope : BitVec 3) (op : BitVec 2) (w : BitVec 2)
  /-- WBR (R201). -/
  | wbr (rs1 : Reg) (rs2 : Reg)
  /-- INVR (R201). -/
  | invr (rs1 : Reg) (rs2 : Reg)
  /-- WBINVR (R201). -/
  | wbinvr (rs1 : Reg) (rs2 : Reg)
  /-- DISCT (R202). -/
  | disct (rs1 : Reg)
  /-- FENCE_S (R199). -/
  | fenceS (pred : Reg) (succ : Reg) (scope : BitVec 3)
  /-- QSFENCE (R192). -/
  | qsfence (icache : Bool) (scope : BitVec 3) (rs1 : Reg) (rs2 : Reg)
  /-- PGMIG (R194). -/
  | pgmig (rd : Reg) (rs1 : Reg) (rs2 : Reg)
  /-- TDECL (R218). -/
  | tdecl (rs1 : Reg)
  /-- TFREE (R219). -/
  | tfree (rs1 : Reg)
  /-- TACQ (R220). -/
  | tacq (rs1 : Reg) (scope : BitVec 3) (excl : Bool)
  /-- TREL (R221). -/
  | trel (rs1 : Reg) (scope : BitVec 3)
  /-- TFWD (R222). -/
  | tfwd (rel : Bool) (rs1 : Reg) (rs2 : Reg)
  /-- TSTAT (R224). -/
  | tstat (rd : Reg) (rs1 : Reg)
  /-- ACC_F (R233). -/
  | accF (vs : Reg) (rs1 : Reg)
  /-- ACC_X (R233). -/
  | accX (vs : Reg) (rs1 : Reg) (rs2 : Reg)
  /-- ACC_I (R233). -/
  | accI (vs : Reg) (rs1 : Reg)
  /-- FLRES (R245). -/
  | flres (rs1 : Reg) (rs2 : Reg)
  /-- AMOS (R200). -/
  | amos (rd : Reg) (rs1 : Reg) (rs2 : Reg) (scope : BitVec 3) (op : BitVec 4)
  /-- CPY (R285). -/
  | cpy (rd : Reg) (rs1 : Reg) (rs2 : Reg) (rs3 : Reg)
  /-- CPY_DC (R285). -/
  | cpyDc (rd : Reg) (rs1 : Reg) (rs2 : Reg) (rs3 : Reg)
  /-- CPY_PH (R285). -/
  | cpyPh (rd : Reg) (rs1 : Reg) (rs2 : Reg) (rs3 : Reg)
  /-- CPY_DC_PH (R285). -/
  | cpyDcPh (rd : Reg) (rs1 : Reg) (rs2 : Reg) (rs3 : Reg)
  /-- CPSTEP (R293). -/
  | cpstep (rs1 : Reg)
  /-- BHWAIT (R289). -/
  | bhwait (rd : Reg) (rs1 : Reg) (rs2 : Reg)
  /-- BHSET (R290). -/
  | bhset (rs1 : Reg) (rs2 : Reg)
  /-- STGREQ (R294). -/
  | stgreq (rs1 : Reg) (rs2 : Reg)
  /-- HSGATH (R299). -/
  | hsgath (rs1 : Reg) (rs2 : Reg)
  /-- HSRED (R299). -/
  | hsred (rs1 : Reg) (rs2 : Reg)
  /-- HSCONV (R299). -/
  | hsconv (rs1 : Reg) (rs2 : Reg)
  /-- HSGEMV (R299). -/
  | hsgemv (rs1 : Reg) (rs2 : Reg)
  /-- HSTART (R106). -/
  | hstart (rd : Reg) (rs1 : Reg) (rs2 : Reg)
  /-- HEXIT (R107). -/
  | hexit (rs1 : Reg)
  /-- HJOIN (R108). -/
  | hjoin (rd : Reg) (rs1 : Reg)
  /-- FALIGN (R109). -/
  | falign (rs1 : Reg)
  /-- LOOP_SET (R111). -/
  | loopSet (rs1 : Reg) (imm : BitVec 12)
  /-- LOOP_CLR (R111). -/
  | loopClr
  /-- SPAWN (R333). -/
  | spawn (rd : Reg) (rs1 : Reg)
  /-- TNEXT (R334). -/
  | tnext (rd : Reg)
  /-- TARM (R335). -/
  | tarm (rs1 : Reg) (rs2 : Reg)
  /-- LAUNCH (R336). -/
  | launch (rd : Reg) (rs1 : Reg) (rs2 : Reg)
  /-- TRESUME (R337). -/
  | tresume (rs1 : Reg)
  /-- TKILL (R337). -/
  | tkill (rs1 : Reg)
  /-- PHREG (R346). -/
  | phreg (rd : Reg) (rs1 : Reg) (mode : BitVec 2)
  /-- PHDEREG (R346). -/
  | phdereg (rd : Reg) (rs1 : Reg) (mode : BitVec 2)
  /-- PHARV (R346). -/
  | pharv (rd : Reg) (rs1 : Reg) (wait : Bool) (flush : Bool)
  /-- PHWAIT (R346). -/
  | phwait (rs1 : Reg) (rs2 : Reg)
  /-- PHBYTES (R346). -/
  | phbytes (rs1 : Reg) (rs2 : Reg)
  /-- MBEAT (R352). -/
  | mbeat (rs1 : Reg) (rs2 : Reg)
  /-- MSEND (R352). -/
  | msend (rs1 : Reg) (rs2 : Reg)
  /-- MPOST (R352). -/
  | mpost (rd : Reg) (rs1 : Reg)
  /-- MRECV (R352). -/
  | mrecv (rd : Reg) (rs1 : Reg)
  /-- MPROBE (R352). -/
  | mprobe (rd : Reg) (rs1 : Reg)
  /-- MCANCEL (R352). -/
  | mcancel (rd : Reg) (rs1 : Reg)
  /-- QPUSH (R356). -/
  | qpush (rs1 : Reg) (rs2 : Reg)
  /-- QPOP (R356). -/
  | qpop (rd : Reg) (rs1 : Reg)
  /-- QTRYPOP (R356). -/
  | qtrypop (rd : Reg) (rs1 : Reg)
  /-- QFLUSH (R356). -/
  | qflush (rs1 : Reg)
  /-- EVPOP (R360). -/
  | evpop (rd : Reg) (rs1 : Reg)
  /-- EVWAIT (R360). -/
  | evwait (rd : Reg) (rs1 : Reg)
  /-- CPMARK (R365). -/
  | cpmark (rs1 : Reg)
  /-- CPDUMP (R366). -/
  | cpdump (rd : Reg) (rs1 : Reg) (rs2 : Reg)
  /-- TRACE (R365). -/
  | trace (rs1 : Reg) (rs2 : Reg)
  /-- VADD_VV (R148). -/
  | vaddVv (vd : Reg) (vs1 : Reg) (vs2 : Reg) (mk : BitVec 3)
  /-- VSUB_VV (R148). -/
  | vsubVv (vd : Reg) (vs1 : Reg) (vs2 : Reg) (mk : BitVec 3)
  /-- VMUL_VV (R148). -/
  | vmulVv (vd : Reg) (vs1 : Reg) (vs2 : Reg) (mk : BitVec 3)
  /-- VMULH_VV (R148). -/
  | vmulhVv (vd : Reg) (vs1 : Reg) (vs2 : Reg) (mk : BitVec 3)
  /-- VMULHU_VV (R148). -/
  | vmulhuVv (vd : Reg) (vs1 : Reg) (vs2 : Reg) (mk : BitVec 3)
  /-- VMIN_VV (R148). -/
  | vminVv (vd : Reg) (vs1 : Reg) (vs2 : Reg) (mk : BitVec 3)
  /-- VMINU_VV (R148). -/
  | vminuVv (vd : Reg) (vs1 : Reg) (vs2 : Reg) (mk : BitVec 3)
  /-- VMAX_VV (R148). -/
  | vmaxVv (vd : Reg) (vs1 : Reg) (vs2 : Reg) (mk : BitVec 3)
  /-- VMAXU_VV (R148). -/
  | vmaxuVv (vd : Reg) (vs1 : Reg) (vs2 : Reg) (mk : BitVec 3)
  /-- VAND_VV (R148). -/
  | vandVv (vd : Reg) (vs1 : Reg) (vs2 : Reg) (mk : BitVec 3)
  /-- VOR_VV (R148). -/
  | vorVv (vd : Reg) (vs1 : Reg) (vs2 : Reg) (mk : BitVec 3)
  /-- VXOR_VV (R148). -/
  | vxorVv (vd : Reg) (vs1 : Reg) (vs2 : Reg) (mk : BitVec 3)
  /-- VSLL_VV (R148). -/
  | vsllVv (vd : Reg) (vs1 : Reg) (vs2 : Reg) (mk : BitVec 3)
  /-- VSRL_VV (R148). -/
  | vsrlVv (vd : Reg) (vs1 : Reg) (vs2 : Reg) (mk : BitVec 3)
  /-- VSRA_VV (R148). -/
  | vsraVv (vd : Reg) (vs1 : Reg) (vs2 : Reg) (mk : BitVec 3)
  /-- VMERGE_VV (R148). -/
  | vmergeVv (vd : Reg) (vs1 : Reg) (vs2 : Reg) (mk : BitVec 3)
  /-- VADD_VX (R148). -/
  | vaddVx (vd : Reg) (rs1 : Reg) (vs2 : Reg) (mk : BitVec 3)
  /-- VSUB_VX (R148). -/
  | vsubVx (vd : Reg) (rs1 : Reg) (vs2 : Reg) (mk : BitVec 3)
  /-- VMUL_VX (R148). -/
  | vmulVx (vd : Reg) (rs1 : Reg) (vs2 : Reg) (mk : BitVec 3)
  /-- VMULH_VX (R148). -/
  | vmulhVx (vd : Reg) (rs1 : Reg) (vs2 : Reg) (mk : BitVec 3)
  /-- VMULHU_VX (R148). -/
  | vmulhuVx (vd : Reg) (rs1 : Reg) (vs2 : Reg) (mk : BitVec 3)
  /-- VMIN_VX (R148). -/
  | vminVx (vd : Reg) (rs1 : Reg) (vs2 : Reg) (mk : BitVec 3)
  /-- VMINU_VX (R148). -/
  | vminuVx (vd : Reg) (rs1 : Reg) (vs2 : Reg) (mk : BitVec 3)
  /-- VMAX_VX (R148). -/
  | vmaxVx (vd : Reg) (rs1 : Reg) (vs2 : Reg) (mk : BitVec 3)
  /-- VMAXU_VX (R148). -/
  | vmaxuVx (vd : Reg) (rs1 : Reg) (vs2 : Reg) (mk : BitVec 3)
  /-- VAND_VX (R148). -/
  | vandVx (vd : Reg) (rs1 : Reg) (vs2 : Reg) (mk : BitVec 3)
  /-- VOR_VX (R148). -/
  | vorVx (vd : Reg) (rs1 : Reg) (vs2 : Reg) (mk : BitVec 3)
  /-- VXOR_VX (R148). -/
  | vxorVx (vd : Reg) (rs1 : Reg) (vs2 : Reg) (mk : BitVec 3)
  /-- VSLL_VX (R148). -/
  | vsllVx (vd : Reg) (rs1 : Reg) (vs2 : Reg) (mk : BitVec 3)
  /-- VSRL_VX (R148). -/
  | vsrlVx (vd : Reg) (rs1 : Reg) (vs2 : Reg) (mk : BitVec 3)
  /-- VSRA_VX (R148). -/
  | vsraVx (vd : Reg) (rs1 : Reg) (vs2 : Reg) (mk : BitVec 3)
  /-- VMERGE_VX (R148). -/
  | vmergeVx (vd : Reg) (rs1 : Reg) (vs2 : Reg) (mk : BitVec 3)
  /-- VFADD_VV (R149). -/
  | vfaddVv (vd : Reg) (vs1 : Reg) (vs2 : Reg) (mk : BitVec 3)
  /-- VFSUB_VV (R149). -/
  | vfsubVv (vd : Reg) (vs1 : Reg) (vs2 : Reg) (mk : BitVec 3)
  /-- VFMUL_VV (R149). -/
  | vfmulVv (vd : Reg) (vs1 : Reg) (vs2 : Reg) (mk : BitVec 3)
  /-- VFDIV_VV (R149). -/
  | vfdivVv (vd : Reg) (vs1 : Reg) (vs2 : Reg) (mk : BitVec 3)
  /-- VFMIN_VV (R149). -/
  | vfminVv (vd : Reg) (vs1 : Reg) (vs2 : Reg) (mk : BitVec 3)
  /-- VFMAX_VV (R149). -/
  | vfmaxVv (vd : Reg) (vs1 : Reg) (vs2 : Reg) (mk : BitVec 3)
  /-- VFMA_VV (R149). -/
  | vfmaVv (vd : Reg) (vs1 : Reg) (vs2 : Reg) (mk : BitVec 3)
  /-- VFMS_VV (R149). -/
  | vfmsVv (vd : Reg) (vs1 : Reg) (vs2 : Reg) (mk : BitVec 3)
  /-- VFNMA_VV (R149). -/
  | vfnmaVv (vd : Reg) (vs1 : Reg) (vs2 : Reg) (mk : BitVec 3)
  /-- VFSQRT (R149). -/
  | vfsqrt (vd : Reg) (vs2 : Reg) (mk : BitVec 3)
  /-- VFCLASS (R149). -/
  | vfclass (vd : Reg) (vs2 : Reg) (mk : BitVec 3)
  /-- VFADD_VF (R149). -/
  | vfaddVf (vd : Reg) (rs1 : Reg) (vs2 : Reg) (mk : BitVec 3)
  /-- VFSUB_VF (R149). -/
  | vfsubVf (vd : Reg) (rs1 : Reg) (vs2 : Reg) (mk : BitVec 3)
  /-- VFMUL_VF (R149). -/
  | vfmulVf (vd : Reg) (rs1 : Reg) (vs2 : Reg) (mk : BitVec 3)
  /-- VFDIV_VF (R149). -/
  | vfdivVf (vd : Reg) (rs1 : Reg) (vs2 : Reg) (mk : BitVec 3)
  /-- VFMIN_VF (R149). -/
  | vfminVf (vd : Reg) (rs1 : Reg) (vs2 : Reg) (mk : BitVec 3)
  /-- VFMAX_VF (R149). -/
  | vfmaxVf (vd : Reg) (rs1 : Reg) (vs2 : Reg) (mk : BitVec 3)
  /-- VFMA_VF (R149). -/
  | vfmaVf (vd : Reg) (rs1 : Reg) (vs2 : Reg) (mk : BitVec 3)
  /-- VFMS_VF (R149). -/
  | vfmsVf (vd : Reg) (rs1 : Reg) (vs2 : Reg) (mk : BitVec 3)
  /-- VFNMA_VF (R149). -/
  | vfnmaVf (vd : Reg) (rs1 : Reg) (vs2 : Reg) (mk : BitVec 3)
  /-- VCMP_EQ (R150). -/
  | vcmpEq (vd : BitVec 3) (vs1 : Reg) (vs2 : Reg) (mk : BitVec 3)
  /-- VCMP_NE (R150). -/
  | vcmpNe (vd : BitVec 3) (vs1 : Reg) (vs2 : Reg) (mk : BitVec 3)
  /-- VCMP_LT (R150). -/
  | vcmpLt (vd : BitVec 3) (vs1 : Reg) (vs2 : Reg) (mk : BitVec 3)
  /-- VCMP_LTU (R150). -/
  | vcmpLtu (vd : BitVec 3) (vs1 : Reg) (vs2 : Reg) (mk : BitVec 3)
  /-- VCMP_LE (R150). -/
  | vcmpLe (vd : BitVec 3) (vs1 : Reg) (vs2 : Reg) (mk : BitVec 3)
  /-- VCMP_LEU (R150). -/
  | vcmpLeu (vd : BitVec 3) (vs1 : Reg) (vs2 : Reg) (mk : BitVec 3)
  /-- VFCMP_EQ (R150). -/
  | vfcmpEq (vd : BitVec 3) (vs1 : Reg) (vs2 : Reg) (mk : BitVec 3)
  /-- VFCMP_LT (R150). -/
  | vfcmpLt (vd : BitVec 3) (vs1 : Reg) (vs2 : Reg) (mk : BitVec 3)
  /-- VFCMP_LE (R150). -/
  | vfcmpLe (vd : BitVec 3) (vs1 : Reg) (vs2 : Reg) (mk : BitVec 3)
  /-- VFCMP_UN (R150). -/
  | vfcmpUn (vd : BitVec 3) (vs1 : Reg) (vs2 : Reg) (mk : BitVec 3)
  /-- VMAND (R150). -/
  | vmand (vd : BitVec 3) (vs1 : BitVec 3) (vs2 : BitVec 3) (mk : BitVec 3)
  /-- VMOR (R150). -/
  | vmor (vd : BitVec 3) (vs1 : BitVec 3) (vs2 : BitVec 3) (mk : BitVec 3)
  /-- VMXOR (R150). -/
  | vmxor (vd : BitVec 3) (vs1 : BitVec 3) (vs2 : BitVec 3) (mk : BitVec 3)
  /-- VMNOT (R150). -/
  | vmnot (vd : BitVec 3) (vs2 : BitVec 3) (mk : BitVec 3)
  /-- VPOPC (R150). -/
  | vpopc (rd : Reg) (vs2 : BitVec 3) (mk : BitVec 3)
  /-- VFIRST (R150). -/
  | vfirst (rd : Reg) (vs2 : BitVec 3) (mk : BitVec 3)
  /-- VPERM (R151). -/
  | vperm (vd : Reg) (vs1 : Reg) (vs2 : Reg) (mk : BitVec 3)
  /-- VSLIDEUP (R151). -/
  | vslideup (vd : Reg) (rs1 : Reg) (vs2 : Reg) (mk : BitVec 3)
  /-- VSLIDEDN (R151). -/
  | vslidedn (vd : Reg) (rs1 : Reg) (vs2 : Reg) (mk : BitVec 3)
  /-- VBCAST (R151). -/
  | vbcast (vd : Reg) (rs1 : Reg) (mk : BitVec 3)
  /-- VCOMPRESS (R151). -/
  | vcompress (vd : Reg) (vs1 : Reg) (vs2 : Reg) (mk : BitVec 3)
  /-- VID (R151). -/
  | vid (vd : Reg) (mk : BitVec 3)
  /-- VCLMUL (R151). -/
  | vclmul (vd : Reg) (vs1 : Reg) (vs2 : Reg) (mk : BitVec 3)
  /-- VCLMULH (R151). -/
  | vclmulh (vd : Reg) (vs1 : Reg) (vs2 : Reg) (mk : BitVec 3)
  /-- VCVT (R172). -/
  | vcvt (vd : Reg) (code : Reg) (vs2 : Reg) (mk : BitVec 3)
  /-- VAMAX (R173). -/
  | vamax (vd : Reg) (vs2 : Reg) (mk : BitVec 3)
  /-- VSCALE (R174). -/
  | vscale (vd : Reg) (fmt : Reg) (vs2 : Reg) (mk : BitVec 3)
  /-- VQLNS (R175). -/
  | vqlns (vd : Reg) (vs1 : Reg) (vs2 : Reg) (mk : BitVec 3)
  /-- VDQLNS (R175). -/
  | vdqlns (vd : Reg) (vs1 : Reg) (vs2 : Reg) (mk : BitVec 3)
  /-- VQFP8 (R175). -/
  | vqfp8 (vd : Reg) (vs1 : Reg) (vs2 : Reg) (mk : BitVec 3)
  /-- VDQFP8 (R175). -/
  | vdqfp8 (vd : Reg) (vs1 : Reg) (vs2 : Reg) (mk : BitVec 3)
  /-- VQSPLIT (R176). -/
  | vqsplit (vd : Reg) (rs1 : Reg) (vs2 : Reg) (mk : BitVec 3)
  /-- VREDSUM (R152). -/
  | vredsum (vd : Reg) (vs1 : Reg) (vs2 : Reg) (mk : BitVec 3)
  /-- VREDMAX (R152). -/
  | vredmax (vd : Reg) (vs1 : Reg) (vs2 : Reg) (mk : BitVec 3)
  /-- VREDMIN (R152). -/
  | vredmin (vd : Reg) (vs1 : Reg) (vs2 : Reg) (mk : BitVec 3)
  /-- VREDMAXU (R152). -/
  | vredmaxu (vd : Reg) (vs1 : Reg) (vs2 : Reg) (mk : BitVec 3)
  /-- VREDMINU (R152). -/
  | vredminu (vd : Reg) (vs1 : Reg) (vs2 : Reg) (mk : BitVec 3)
  /-- VFREDSUM (R152). -/
  | vfredsum (vd : Reg) (vs1 : Reg) (vs2 : Reg) (mk : BitVec 3)
  /-- VFREDMAX (R152). -/
  | vfredmax (vd : Reg) (vs1 : Reg) (vs2 : Reg) (mk : BitVec 3)
  /-- VFREDMIN (R152). -/
  | vfredmin (vd : Reg) (vs1 : Reg) (vs2 : Reg) (mk : BitVec 3)
  /-- VLD (R162). -/
  | vld (vd : Reg) (rs1 : Reg) (mk : BitVec 3)
  /-- VLD_ST (R162). -/
  | vldSt (vd : Reg) (rs1 : Reg) (rs2 : Reg) (mk : BitVec 3)
  /-- VLD_IX (R162). -/
  | vldIx (vd : Reg) (rs1 : Reg) (vs2 : Reg) (mk : BitVec 3)
  /-- VLD_BC (R162). -/
  | vldBc (vd : Reg) (rs1 : Reg) (mk : BitVec 3)
  /-- VST (R162). -/
  | vst (vs3 : Reg) (rs1 : Reg) (mk : BitVec 3)
  /-- VST_ST (R162). -/
  | vstSt (vs3 : Reg) (rs1 : Reg) (rs2 : Reg) (mk : BitVec 3)
  /-- VST_IX (R162). -/
  | vstIx (vs3 : Reg) (rs1 : Reg) (vs2 : Reg) (mk : BitVec 3)
  /-- VST_BC (R162). -/
  | vstBc (vs3 : Reg) (rs1 : Reg) (mk : BitVec 3)
  /-- VMOVI (R167). -/
  | vmovi (vd : Reg) (vs2 : Reg)
  /-- VMOVIW (R167). -/
  | vmoviw (vs3 : Reg) (vs2 : Reg)
  /-- VRDX (R168). -/
  | vrdx (vd : Reg) (rs1 : Reg)
  /-- VWRX (R168). -/
  | vwrx (vs3 : Reg) (rs1 : Reg)
  /-- VSETL (R145). -/
  | vsetl (rd : Reg) (rs1 : Reg) (etype : Reg)
  /-- VEXTRACT (R169). -/
  | vextract (rd : Reg) (rs1 : Reg) (vs2 : Reg)
  /-- VINSERT (R169). -/
  | vinsert (vd : Reg) (rs1 : Reg) (rs2 : Reg)
  /-- MXCFG (R267). -/
  | mxcfg (rs1 : Reg) (target : Reg)
  /-- MXGRANT (R268). -/
  | mxgrant (rs1 : Reg)
  /-- MXLD (R269). -/
  | mxld (buf : BitVec 2) (rs1 : Reg) (target : Reg)
  /-- MXMAC (R270). -/
  | mxmac (acc : BitVec 3) (bufA : BitVec 2) (bufB : BitVec 2) (target : Reg)
  /-- MXMACS (R270). -/
  | mxmacs (acc : BitVec 3) (bufA : BitVec 2) (bufB : BitVec 2) (target : Reg)
  /-- MXST (R271). -/
  | mxst (acc : BitVec 3) (rs1 : Reg) (target : Reg)
  /-- MXZERO (R272). -/
  | mxzero (acc : BitVec 3) (target : Reg)
  /-- MXDUP (R273). -/
  | mxdup (rs1 : Reg) (target : Reg)
  /-- MXSYNC (R274). -/
  | mxsync (target : Reg)
  /-- INTEGER_ARITHMETIC (R97). -/
  | integerArithmetic (op : IntOp)
  /-- BRANCH (R111). -/
  | branch (op : BranchOp) (rs1 rs2 : Reg) (imm : BitVec 13)
  /-- JUMP (R61). -/
  | jump (op : JumpOp)
  /-- FP_ARITHMETIC (R87). -/
  | fpArithmetic (op : FpOp)
  /-- XRET (R113). -/
  | xret (machine : Bool)
  /-- ILLEGAL_INSTRUCTION_WORD (R62). -/
  | illegalInstructionWord (w : BitVec 32)
  /-- REGISTER_WRITE (R400). Operands: a: 0 a CSR of context b, 1 configuration space at address b with n bytes; n is the CSR number when a = 0; v: the value. -/
  | registerWrite
  /-- QVTYPE_WRITE (R140). Operands: a: context; v: the value. -/
  | qvtypeWrite
  /-- QVWIN_WRITE (R141). Operands: a: context; v: the value. -/
  | qvwinWrite
  /-- QVSTAT_ACCESS (R89). Operands: a: context; flag: whether it writes; v: the value written. -/
  | qvstatAccess
  /-- CSPART_WRITE (R178). Operands: a: cluster; v: the value. -/
  | cspartWrite
  /-- CSPART_CHANGE_END (R178). Operands: a: cluster; list: lines that replacement placed in the passing ways. -/
  | cspartChangeEnd
  /-- QMQUOTA_WRITE (R237). Operands: v: the value. -/
  | qmquotaWrite
  /-- QUOTA_REACH_SLICE (R237). Operands: a: slice. -/
  | quotaReachSlice
  /-- DOORBELL (R311). Operands: a: die; v: the value written; b: the host port that rings it (R363). -/
  | doorbell
  /-- PREEMPT (R310). Operands: a: die; v: the value written. -/
  | preempt
  /-- HALT (R376). Operands: a: die; b: context. -/
  | dbgHalt
  /-- FHALT (R376). Operands: a: die; b: context. -/
  | dbgFhalt
  /-- RESUME (R376). Operands: a: die; b: context. -/
  | dbgResume
  /-- STEP (R376). Operands: a: die; b: context. -/
  | dbgStep
  /-- READ (R376). Operands: a: die; b: context; n: offset in 8-byte units. -/
  | dbgRead
  /-- WRITE (R376). Operands: a: die; b: context; n: offset in 8-byte units. -/
  | dbgWrite
  /-- DUMP (R376). Operands: a: die; b: context. -/
  | dbgDump
  /-- ATTACH (R376). Operands: a: die; b: context. -/
  | dbgAttach
  /-- DETACH (R376). Operands: a: die; b: context. -/
  | dbgDetach
  /-- TT_ENABLE_WRITE (R312). Operands: a: entry; v: the value of word +0x18. -/
  | ttEnableWrite
  /-- SAMPCTL_WRITE (R379). Operands: v: the value. -/
  | sampctlWrite
  /-- SESSION_WRITE (R389). Operands: a: session; b: byte offset of the word; v: the value; or with flag, firmware's key for key slot a: data. -/
  | sessionWrite
  /-- HOST_BAR2_REQUEST (R386). Operands: a: port; b: address; n: bytes; v: value; flag: a write; flag2: IDE-protected with the locked stream; c: 0
  through BAR2, 1 through BAR0 (b: the offset there), 2 SPDM GET_MEASUREMENTS (R394). -/
  | hostBar2Request
  /-- HOST_CXL_MEM_ACCESS (R24, R387). Operands: n: who accesses: 0 the host over CXL.mem at port a, 1 peer a to device HBM, 2 a host agent
  to host memory, 3 an agent of peer a to that peer's memory; b: physical line number; flag: a write; mask, data: the bytes written. -/
  | hostCxlMemAccess
  /-- CONTEXT_REINSERTION (R98). Operands: a: context. -/
  | contextReinsertion
  /-- STORE_BUFFER_ENTRY_PERFORM (R99). Operands: a: core; b: place in the store buffer. -/
  | storeBufferEntryPerform
  /-- LANE_GROUP_GRANT (R138). Operands: a: cluster; b: lane group. -/
  | laneGroupGrant
  /-- HOME_REQUEST_ARRIVAL (R181). Operands: a: cluster; b: place among its staging fills on their way; or with flag, the demand request of context a. -/
  | homeRequestArrival
  /-- MISS_BUFFER_SLOT_ENTRY (R181). Operands: a: slice. -/
  | missBufferSlotEntry
  /-- WRITEBACK_MERGE (R180). Operands: a: cluster; b: physical line number of the line evicted. -/
  | writebackMerge
  /-- REMOTE_SCRATCHPAD_ACCESS (R190). Operands: a: core; b: place among its posted messages. -/
  | remoteScratchpadAccess
  /-- ACC_SEND_ARRIVAL (R236). Operands: a: place among the sends in flight. -/
  | accSendArrival
  /-- ACC_APPLY (R235). Operands: a: slice. -/
  | accApply
  /-- ACC_REFUSAL_RETURN (R241). Operands: a: place among the answers in flight. -/
  | accRefusalReturn
  /-- ACC_ACCEPT_RETURN (R240). Operands: a: place among the answers in flight. -/
  | accAcceptReturn
  /-- RESIDUAL_TIMER_FLUSH (R242). Operands: a: core; b: place in the hem. -/
  | residualTimerFlush
  /-- QUOTA_WINDOW_REFILL (R236). Operands: a: slice. -/
  | quotaWindowRefill
  /-- TILE_HOME_REQUEST (R213). Operands: a: cluster; b: physical base of the tile; n: tensor ID of the request; v: the task that issued
  it; flag: for M. -/
  | tileHomeRequest
  /-- TILE_FORWARD_START (R222). Operands: a: core; b: place in the store buffer. -/
  | tileForwardStart
  /-- TILE_PUSH_ARRIVAL (R223). Operands: b: physical base of the tile; flag: every line can be allocated. -/
  | tilePushArrival
  /-- COPY_COMPLETE (R287). Operands: a: cluster; b: place in the copy queue. -/
  | copyComplete
  /-- PHASER_BYTES_DECREMENT (R344). Operands: flag: a stack engine, else a copy engine; a: unit; b: place in its list; n: bytes of a copy, or units of a stack command, that are performed. -/
  | phaserBytesDecrement
  /-- COPY_FAULT_END (R301). Operands: flag: a stack engine, else a copy engine; a: unit; b: place in its list. -/
  | copyFaultEnd
  /-- STACK_COMMAND_COMPLETE (R300). Operands: a: stack; b: place in its list. -/
  | stackCommandComplete
  /-- MX_CONFIG_QUERY (R402). Operands: a: context. -/
  | mxConfigQuery
  /-- MX_COMMAND_ARRIVAL (R264). Operands: a: context. -/
  | mxCommandArrival
  /-- MX_COMMAND_START (R275). Operands: a: cluster; b: place in the queue. -/
  | mxCommandStart
  /-- MX_COMMAND_COMPLETE (R278). Operands: a: cluster; b: place in the queue. -/
  | mxCommandComplete
  /-- MX_COMMAND_FAULT (R277). Operands: a: cluster; b: place in the queue. -/
  | mxCommandFault
  /-- PACKET_ARRIVAL (R351). Operands: a: sending context. -/
  | packetArrival
  /-- SHUTTLE_BATCH_TIMEOUT (R355). Operands: a: cluster; b: place among its shadows. -/
  | shuttleBatchTimeout
  /-- SHUTTLE_BATCH_ARRIVAL (R355). Operands: a: cluster; b: place among its shadows; or with flag, a batch of peer a (R392): b: the queue header's
  address; n: entries, up to 4; data: their 32 bytes each (value, pusher's task, time, code). -/
  | shuttleBatchArrival
  /-- LAUNCH_SLOT_TAKE (R306). Operands: a: die; b: place among the queues it serves. -/
  | launchSlotTake
  /-- LAUNCH_START (R307). Operands: a: launch. -/
  | launchStart
  /-- TASK_DISPATCH (R318, R322): a stolen task on its way to the slot starts first. Operands: a: context. -/
  | taskDispatch
  /-- STEAL (R319): the task claims the slot, and starts with its TASK_DISPATCH. Operands: a: context of the thief. -/
  | steal
  /-- COUNTER_DECREMENT (R320). Operands: a: die; b: place among its decrements. -/
  | counterDecrement
  /-- PRIORITY_DISPLACEMENT (R310). Operands: a: die; b: place among its ready tasks. -/
  | priorityDisplacement
  /-- STAGING_ADMIT (R328). Operands: a: die; b: place among its stagings. -/
  | stagingAdmit
  /-- STAGING_ENTRY_COMPLETE (R329). Operands: a: die; b: place among its stagings; n: entry. -/
  | stagingEntryComplete
  /-- STAGING_DEADLINE (R329). Operands: a: die; b: place among its stagings. -/
  | stagingDeadline
  /-- STGREQ_ADMIT_TIMEOUT (R294). Operands: a: die; b: place among its stagings. -/
  | stgreqAdmitTimeout
  /-- CONTEXT_SAVE (R115). Operands: a: context. -/
  | contextSave
  /-- CONTEXT_RESTORE (R310). Operands: a: place among the saved contexts. -/
  | contextRestore
  /-- PARK (R332). Operands: a: context. -/
  | park
  /-- DEFERRED_PARK (R332). Operands: a: context. -/
  | deferredPark
  /-- WRS_TIMEOUT (R103). Operands: a: context. -/
  | wrsTimeout
  /-- FALIGN_BUDGET_EXPIRY (R109). Operands: a: context. -/
  | falignBudgetExpiry
  /-- REQUEST_TIMEOUT (R196). Operands: n: what waits: 0 context a, 1 posted message b of core a, 2 accumulate send a, 3 copy b of cluster a, 4 stack
  command b of stack a, 5 matrix command b of cluster a, 6 write-back b of cluster a, 7 store-buffer entry b of core a; flag: the message, write-back
  or store was performed; c: the physical address that the request of an engine or of a range operation named. With n 8 nothing times out: the link of
  peer a stops answering (flag), or answers again. -/
  | requestTimeout
  /-- SNOOP_HOST_TIMEOUT (R399). Operands: b: physical line number. -/
  | snoopHostTimeout
  /-- TT_SLOT_FIRE (R313). Operands: a: entry. -/
  | ttSlotFire
  /-- HOLD_TIMEOUT (R377). Operands: a: context. -/
  | holdTimeout
  /-- SAMPLING_PULSE (R380). Operands: no operands. -/
  | samplingPulse
  /-- COMPARE_ENTRY (R382). Operands: a: stack of partition A. -/
  | compareEntry
  /-- SEALED_COPY_END (R390). Operands: a: cluster; b: place in the copy queue. -/
  | sealedCopyEnd
  /-- CLUSTER_POWER_GATING (R397). Operands: a: cluster. -/
  | clusterPowerGating
  /-- DIE_CLOCK_STEP (R397). Operands: a: die. -/
  | dieClockStep
  /-- DIE_THERMAL_STOP (R397). Operands: a: die; b: the policy that firmware has raised the fused one to: 0 log, 1 lock, 2 erase. -/
  | dieThermalStop
  /-- SECURITY_ALARM (R394). Operands: a: the policy that firmware has raised the fused one to: 0 log, 1 lock, 2 erase. -/
  | securityAlarm
  /-- PTP_MASTER_LOSS (R393). Operands: no operands. -/
  | ptpMasterLoss
  /-- MODULE_RESET (R396). Operands: bring: what bring-up finds. -/
  | moduleReset
  /-- POWER_GATING_WAKE (R397). Operands: a: cluster. -/
  | powerGatingWake
  /-- TDI_LOCK (R389). Operands: a: port; flag: lock. -/
  | tdiLock
  /-- IEEE_1588_DISCIPLINE (R393). Operands: rate: the slew in ppm. -/
  | ieee1588Discipline
  deriving DecidableEq, Repr

end Sys2Proof
end

