-- ==== Sys2Proof/WellFormed.lean ====
section
/-! DEFINITION. Which syntax an encoding can express: the codes that the opcode map assigns to each field. `Instr.wf` is what
the round trip of the encoder needs; an event row has no encoding and is well formed as it stands. -/

namespace Sys2Proof

/-- A scope of R21; 110 and 111 are reserved (R22). -/
def scopeCode (s : BitVec 3) : Bool := s.toNat < 6
/-- A scope QSFENCE takes (R67). -/
def qsScope (s : BitVec 3) : Bool := s == 2 || s == 3 || s == 4
/-- An ordering LDO takes: relaxed or acquire (R66). -/
def ldoOrder (o : BitVec 2) : Bool := o == 0 || o == 1
/-- An ordering STO takes: relaxed or release (R66). -/
def stoOrder (o : BitVec 2) : Bool := o == 0 || o == 2
/-- An AMOS operation; 11 to 15 are reserved (R67). -/
def amosOp (o : BitVec 4) : Bool := o.toNat < 11
/-- An element-type code (R54). -/
def etypeCode (e : BitVec 5) : Bool := e.toNat < 4 || (8 ≤ e.toNat && e.toNat < 15)
/-- A conversion code of VCVT (R71). -/
def cvtCode (c : BitVec 5) : Bool := c.toNat < 18
/-- A format of VSCALE: e4m3, e5m2 or lns6 (R171). -/
def scaleFmt (f : BitVec 5) : Bool := 12 ≤ f.toNat && f.toNat < 15
/-- A rounding-mode field of a scalar instruction; 101 and 110 are reserved (R87). -/
def rmCode (r : BitVec 3) : Bool := r != 5 && r != 6

/-- The rounding-mode field of a scalar F or D instruction, where it has one. -/
def FpOp.rm (o : FpOp) : Option (BitVec 3) :=
  match o with
  | .arith _ _ rm _ _ _ => some rm
  | .sqrt _ rm _ _ => some rm
  | .fma _ _ rm _ _ _ _ => some rm
  | .toInt _ _ rm _ _ => some rm
  | .ofInt _ _ rm _ _ => some rm
  | .cvt _ rm _ _ => some rm
  | .sgn _ _ _ _ _ | .minmax _ _ _ _ _ | .cmp _ _ _ _ _ | .mvToX _ _ _ | .mvFromX _ _ _ | .fclass _ _ _ => none

/-- Whether every field of the instruction holds a code that its encoding assigns. ILLEGAL_INSTRUCTION_WORD stands for the
words that are no instruction, so it is the encoding of nothing. -/
def Instr.wf (i : Instr) : Bool :=
  match i with
  | .fence fm pr su _ _ => !(fm == 8 && pr == 3 && su == 3)
  | .ldo _ _ s o _ => scopeCode s && ldoOrder o
  | .sto _ _ s o _ => scopeCode s && stoOrder o
  | .fenceS _ _ s => scopeCode s
  | .qsfence _ s _ _ => qsScope s
  | .tacq _ s _ => scopeCode s
  | .trel _ s => scopeCode s
  | .amos _ _ _ s o => scopeCode s && amosOp o
  | .loopSet _ x => x != 0
  | .phreg _ _ m => m != 0
  | .phdereg _ _ m => m != 0
  | .vcvt _ c _ _ => cvtCode c
  | .vscale _ f _ _ => scaleFmt f
  | .vsetl _ _ e => etypeCode e
  | .branch _ _ _ x => !x.getLsbD 0
  | .jump (.jal _ x) => !x.getLsbD 0
  | .fpArithmetic o => (o.rm.map rmCode).getD true
  | .illegalInstructionWord _ => false
  | _ => true

/-- The event rows of the table: what the module, a host, a debugger or firmware does, outside any instruction stream. -/
def Instr.isEvent (i : Instr) : Bool :=
  match i with
  | .registerWrite | .qvtypeWrite | .qvwinWrite | .qvstatAccess | .cspartWrite | .cspartChangeEnd
  | .qmquotaWrite | .quotaReachSlice | .doorbell | .preempt | .dbgHalt | .dbgFhalt
  | .dbgResume | .dbgStep | .dbgRead | .dbgWrite | .dbgDump | .dbgAttach
  | .dbgDetach | .ttEnableWrite | .sampctlWrite | .sessionWrite | .hostBar2Request | .hostCxlMemAccess
  | .contextReinsertion | .storeBufferEntryPerform | .laneGroupGrant | .homeRequestArrival | .missBufferSlotEntry | .writebackMerge
  | .remoteScratchpadAccess | .accSendArrival | .accApply | .accRefusalReturn | .accAcceptReturn | .residualTimerFlush
  | .quotaWindowRefill | .tileHomeRequest | .tileForwardStart | .tilePushArrival | .copyComplete | .phaserBytesDecrement
  | .copyFaultEnd | .stackCommandComplete | .mxConfigQuery | .mxCommandArrival | .mxCommandStart | .mxCommandComplete
  | .mxCommandFault | .packetArrival | .shuttleBatchTimeout | .shuttleBatchArrival | .launchSlotTake | .launchStart
  | .taskDispatch | .steal | .counterDecrement | .priorityDisplacement | .stagingAdmit | .stagingEntryComplete
  | .stagingDeadline | .stgreqAdmitTimeout | .contextSave | .contextRestore | .park | .deferredPark
  | .wrsTimeout | .falignBudgetExpiry | .requestTimeout | .snoopHostTimeout | .ttSlotFire | .holdTimeout
  | .samplingPulse | .compareEntry | .sealedCopyEnd | .clusterPowerGating | .dieClockStep | .dieThermalStop
  | .securityAlarm | .ptpMasterLoss | .moduleReset | .powerGatingWake | .tdiLock | .ieee1588Discipline => true
  | _ => false

end Sys2Proof
end

