-- ==== Sys2Proof/Decode.lean ====
section
/-! DEFINITION. The decoder: total on any 32-bit word, rejecting by name; and the encoder, written from the same encoding
tables (R61 to R71, and the ratified RV64G encodings for the base rows). -/

namespace Sys2Proof

/-- Why a word is not an instruction. Every one of these raises the illegal-instruction exception (R61 to R71). -/
inductive Reject
  /-- bits [1:0] are not 0b11 (R61) -/
  | compressed
  /-- bits [4:2] are 0b111 (R61) -/
  | longer
  /-- a major opcode that R62 does not list -/
  | reservedMajor
  /-- a funct value that the opcode map does not assign (R62, R67 to R70) -/
  | unassigned
  /-- a non-zero must-be-zero field (R65) -/
  | mustBeZero
  /-- scope 110 or 111, or a scope QSFENCE does not take (R22, R67) -/
  | reservedScope
  /-- an ordering code that LDO or STO does not take (R22, R66) -/
  | reservedOrdering
  /-- an AMOS operation 11 to 15 (R67) -/
  | reservedOp
  /-- a conversion, format or element-type code that is not listed (R70, R71, R171) -/
  | reservedCode
  /-- mode 00 of PHREG or PHDEREG (R68) -/
  | reservedMode
  /-- a rounding mode 101 or 110 in a scalar F or D instruction -/
  | reservedRounding
  deriving DecidableEq, Repr

/-- The six fields of the QR format (R64), which every other 32-bit format regroups. -/
structure Fields where
  f7 : BitVec 7
  b : BitVec 5
  a : BitVec 5
  f3 : BitVec 3
  d : BitVec 5
  op : BitVec 7
  deriving DecidableEq, Repr

/-- The fields of a word, at the bit positions of R64. -/
def split (w : BitVec 32) : Fields :=
  ⟨w.extractLsb' 25 7, w.extractLsb' 20 5, w.extractLsb' 15 5, w.extractLsb' 12 3, w.extractLsb' 7 5, w.extractLsb' 0 7⟩

/-- The word with the given fields. -/
def Fields.join (f : Fields) : BitVec 32 := f.f7 ++ f.b ++ f.a ++ f.f3 ++ f.d ++ f.op

/-- Answer `r` unless a must-be-zero field is non-zero (R65). -/
def mbz (c : Bool) (r : Except Reject Instr) : Except Reject Instr := if c then r else .error .mustBeZero

/-- Answer `i` unless the scope is reserved (R22). -/
def withScope (s : BitVec 3) (i : Instr) : Except Reject Instr := if scopeCode s then .ok i else .error .reservedScope

/-- The 12-bit immediate of the I format. -/
def Fields.immI (f : Fields) : BitVec 12 := f.f7 ++ f.b
/-- The 12-bit immediate of the S format. -/
def Fields.immS (f : Fields) : BitVec 12 := f.f7 ++ f.d
/-- The 13-bit offset of the B format; bit 0 is zero. -/
def Fields.immB (f : Fields) : BitVec 13 :=
  f.f7.extractLsb' 6 1 ++ f.d.extractLsb' 0 1 ++ f.f7.extractLsb' 0 6 ++ f.d.extractLsb' 1 4 ++ 0#1
/-- The 20-bit immediate of the U format. -/
def Fields.immU (f : Fields) : BitVec 20 := f.f7 ++ f.b ++ f.a ++ f.f3
/-- The 21-bit offset of the J format; bit 0 is zero. -/
def Fields.immJ (f : Fields) : BitVec 21 :=
  f.f7.extractLsb' 6 1 ++ f.a ++ f.f3 ++ f.b.extractLsb' 0 1 ++ f.f7.extractLsb' 0 6 ++ f.b.extractLsb' 1 4 ++ 0#1

/-- LOAD and LOAD-FP. -/
def decodeLoad (f : Fields) (fp : Bool) : Except Reject Instr :=
  match fp, f.f3 with
  | false, 0#3 => .ok (.load .lb f.d f.a f.immI)
  | false, 1#3 => .ok (.load .lh f.d f.a f.immI)
  | false, 2#3 => .ok (.load .lw f.d f.a f.immI)
  | false, 3#3 => .ok (.load .ld f.d f.a f.immI)
  | false, 4#3 => .ok (.load .lbu f.d f.a f.immI)
  | false, 5#3 => .ok (.load .lhu f.d f.a f.immI)
  | false, 6#3 => .ok (.load .lwu f.d f.a f.immI)
  | true, 2#3 => .ok (.load .flw f.d f.a f.immI)
  | true, 3#3 => .ok (.load .fld f.d f.a f.immI)
  | _, _ => .error .unassigned

/-- STORE and STORE-FP. -/
def decodeStore (f : Fields) (fp : Bool) : Except Reject Instr :=
  match fp, f.f3 with
  | false, 0#3 => .ok (.store .sb f.a f.b f.immS)
  | false, 1#3 => .ok (.store .sh f.a f.b f.immS)
  | false, 2#3 => .ok (.store .sw f.a f.b f.immS)
  | false, 3#3 => .ok (.store .sd f.a f.b f.immS)
  | true, 2#3 => .ok (.store .fsw f.a f.b f.immS)
  | true, 3#3 => .ok (.store .fsd f.a f.b f.immS)
  | _, _ => .error .unassigned

/-- MISC-MEM: FENCE, FENCE.TSO and FENCE.I. -/
def decodeMisc (f : Fields) : Except Reject Instr :=
  match f.f3 with
  | 0#3 =>
    let fm := f.f7.extractLsb' 3 4
    let pr : BitVec 4 := f.f7.extractLsb' 0 3 ++ f.b.extractLsb' 4 1
    let su := f.b.extractLsb' 0 4
    if fm == 8#4 && pr == 3#4 && su == 3#4 then .ok (.fenceTso f.d f.a) else .ok (.fence fm pr su f.d f.a)
  | 1#3 => .ok (.fenceI f.immI f.d f.a)
  | _ => .error .unassigned

/-- OP-IMM. -/
def decodeOpImm (f : Fields) : Except Reject Instr :=
  let sh : BitVec 6 := f.f7.extractLsb' 0 1 ++ f.b
  let top := f.f7.extractLsb' 1 6
  match f.f3 with
  | 0#3 => .ok (.integerArithmetic (.imm .addi f.d f.a f.immI))
  | 1#3 => if top == 0#6 then .ok (.integerArithmetic (.shift .sll f.d f.a sh)) else .error .unassigned
  | 2#3 => .ok (.integerArithmetic (.imm .slti f.d f.a f.immI))
  | 3#3 => .ok (.integerArithmetic (.imm .sltiu f.d f.a f.immI))
  | 4#3 => .ok (.integerArithmetic (.imm .xori f.d f.a f.immI))
  | 5#3 =>
    if top == 0#6 then .ok (.integerArithmetic (.shift .srl f.d f.a sh))
    else if top == 16#6 then .ok (.integerArithmetic (.shift .sra f.d f.a sh)) else .error .unassigned
  | 6#3 => .ok (.integerArithmetic (.imm .ori f.d f.a f.immI))
  | _ => .ok (.integerArithmetic (.imm .andi f.d f.a f.immI))

/-- OP-IMM-32. -/
def decodeOpImm32 (f : Fields) : Except Reject Instr :=
  match f.f3 with
  | 0#3 => .ok (.integerArithmetic (.addiw f.d f.a f.immI))
  | 1#3 => if f.f7 == 0#7 then .ok (.integerArithmetic (.shiftW .sll f.d f.a f.b)) else .error .unassigned
  | 5#3 =>
    if f.f7 == 0#7 then .ok (.integerArithmetic (.shiftW .srl f.d f.a f.b))
    else if f.f7 == 32#7 then .ok (.integerArithmetic (.shiftW .sra f.d f.a f.b)) else .error .unassigned
  | _ => .error .unassigned

/-- OP. -/
def decodeOp (f : Fields) : Except Reject Instr :=
  let r (k : RegOp) : Except Reject Instr := .ok (.integerArithmetic (.reg k f.d f.a f.b))
  let m (k : MulOp) : Except Reject Instr := .ok (.integerArithmetic (.mul k f.d f.a f.b))
  let v (k : DivOp) : Except Reject Instr := .ok (.integerDivide k false f.d f.a f.b)
  match f.f7, f.f3 with
  | 0#7, 0#3 => r .add
  | 0#7, 1#3 => r .sll
  | 0#7, 2#3 => r .slt
  | 0#7, 3#3 => r .sltu
  | 0#7, 4#3 => r .xor
  | 0#7, 5#3 => r .srl
  | 0#7, 6#3 => r .or
  | 0#7, 7#3 => r .and
  | 32#7, 0#3 => r .sub
  | 32#7, 5#3 => r .sra
  | 1#7, 0#3 => m .mul
  | 1#7, 1#3 => m .mulh
  | 1#7, 2#3 => m .mulhsu
  | 1#7, 3#3 => m .mulhu
  | 1#7, 4#3 => v .div
  | 1#7, 5#3 => v .divu
  | 1#7, 6#3 => v .rem
  | 1#7, 7#3 => v .remu
  | _, _ => .error .unassigned

/-- OP-32. -/
def decodeOp32 (f : Fields) : Except Reject Instr :=
  let r (k : RegOpW) : Except Reject Instr := .ok (.integerArithmetic (.regW k f.d f.a f.b))
  let v (k : DivOp) : Except Reject Instr := .ok (.integerDivide k true f.d f.a f.b)
  match f.f7, f.f3 with
  | 0#7, 0#3 => r .addw
  | 0#7, 1#3 => r .sllw
  | 0#7, 5#3 => r .srlw
  | 32#7, 0#3 => r .subw
  | 32#7, 5#3 => r .sraw
  | 1#7, 0#3 => .ok (.integerArithmetic (.mul .mulw f.d f.a f.b))
  | 1#7, 4#3 => v .div
  | 1#7, 5#3 => v .divu
  | 1#7, 6#3 => v .rem
  | 1#7, 7#3 => v .remu
  | _, _ => .error .unassigned

/-- AMO: LR, SC and the AMOs, .W and .D. -/
def decodeAmo (f : Fields) : Except Reject Instr :=
  let aq := f.f7.getLsbD 1
  let rl := f.f7.getLsbD 0
  let dbl := f.f3 == 3#3
  let m (k : AmoOp) : Except Reject Instr := .ok (.amo k dbl aq rl f.d f.a f.b)
  if f.f3 == 2#3 || f.f3 == 3#3 then
    match f.f7.extractLsb' 2 5 with
    | 2#5 => if f.b == 0 then .ok (.lr dbl aq rl f.d f.a) else .error .unassigned
    | 3#5 => .ok (.sc dbl aq rl f.d f.a f.b)
    | 0#5 => m .add
    | 1#5 => m .swap
    | 4#5 => m .xor
    | 8#5 => m .or
    | 12#5 => m .and
    | 16#5 => m .min
    | 20#5 => m .max
    | 24#5 => m .minu
    | 28#5 => m .maxu
    | _ => .error .unassigned
  else .error .unassigned

/-- An F or D instruction with a rounding-mode field: 101 and 110 are reserved. -/
def rounded (rm : BitVec 3) (o : FpOp) : Except Reject Instr :=
  if rmCode rm then .ok (.fpArithmetic o) else .error .reservedRounding

/-- The fused forms: funct2 00 is S and 01 is D. -/
def decodeFma (f : Fields) (k : FpFma) : Except Reject Instr :=
  let rs3 := f.f7.extractLsb' 2 5
  match f.f7.extractLsb' 0 2 with
  | 0#2 => rounded f.f3 (.fma k false f.f3 f.d f.a f.b rs3)
  | 1#2 => rounded f.f3 (.fma k true f.f3 f.d f.a f.b rs3)
  | _ => .error .unassigned

/-- The integer type named by the rs2 field of a conversion. -/
def fpInt (b : BitVec 5) : Option FpInt :=
  match b with
  | 0#5 => some .w
  | 1#5 => some .wu
  | 2#5 => some .l
  | 3#5 => some .lu
  | _ => none

/-- OP-FP. -/
def decodeFp (f : Fields) : Except Reject Instr :=
  let dbl := f.f7.getLsbD 0
  let ok (o : FpOp) : Except Reject Instr := .ok (.fpArithmetic o)
  if f.f7.extractLsb' 1 1 == 1#1 then .error .unassigned else
  match f.f7.extractLsb' 2 5 with
  | 0#5 => rounded f.f3 (.arith .add dbl f.f3 f.d f.a f.b)
  | 1#5 => rounded f.f3 (.arith .sub dbl f.f3 f.d f.a f.b)
  | 2#5 => rounded f.f3 (.arith .mul dbl f.f3 f.d f.a f.b)
  | 3#5 => rounded f.f3 (.arith .div dbl f.f3 f.d f.a f.b)
  | 11#5 => if f.b == 0 then rounded f.f3 (.sqrt dbl f.f3 f.d f.a) else .error .unassigned
  | 4#5 =>
    match f.f3 with
    | 0#3 => ok (.sgn .sgnj dbl f.d f.a f.b)
    | 1#3 => ok (.sgn .sgnjn dbl f.d f.a f.b)
    | 2#3 => ok (.sgn .sgnjx dbl f.d f.a f.b)
    | _ => .error .unassigned
  | 5#5 =>
    match f.f3 with
    | 0#3 => ok (.minmax false dbl f.d f.a f.b)
    | 1#3 => ok (.minmax true dbl f.d f.a f.b)
    | _ => .error .unassigned
  | 8#5 =>
    if dbl then (if f.b == 0 then rounded f.f3 (.cvt true f.f3 f.d f.a) else .error .unassigned)
    else (if f.b == 1 then rounded f.f3 (.cvt false f.f3 f.d f.a) else .error .unassigned)
  | 20#5 =>
    match f.f3 with
    | 0#3 => ok (.cmp .le dbl f.d f.a f.b)
    | 1#3 => ok (.cmp .lt dbl f.d f.a f.b)
    | 2#3 => ok (.cmp .eq dbl f.d f.a f.b)
    | _ => .error .unassigned
  | 24#5 => match fpInt f.b with
    | some t => rounded f.f3 (.toInt t dbl f.f3 f.d f.a)
    | none => .error .unassigned
  | 26#5 => match fpInt f.b with
    | some t => rounded f.f3 (.ofInt t dbl f.f3 f.d f.a)
    | none => .error .unassigned
  | 28#5 =>
    if f.b == 0 then
      match f.f3 with
      | 0#3 => ok (.mvToX dbl f.d f.a)
      | 1#3 => ok (.fclass dbl f.d f.a)
      | _ => .error .unassigned
    else .error .unassigned
  | 30#5 => if f.b == 0 && f.f3 == 0 then ok (.mvFromX dbl f.d f.a) else .error .unassigned
  | _ => .error .unassigned

/-- BRANCH. -/
def decodeBranch (f : Fields) : Except Reject Instr :=
  match f.f3 with
  | 0#3 => .ok (.branch .beq f.a f.b f.immB)
  | 1#3 => .ok (.branch .bne f.a f.b f.immB)
  | 4#3 => .ok (.branch .blt f.a f.b f.immB)
  | 5#3 => .ok (.branch .bge f.a f.b f.immB)
  | 6#3 => .ok (.branch .bltu f.a f.b f.immB)
  | 7#3 => .ok (.branch .bgeu f.a f.b f.immB)
  | _ => .error .unassigned

/-- SYSTEM: ECALL, EBREAK, xRET, WFI, SFENCE.VMA, Zicsr and Zawrs (R62). -/
def decodeSystem (f : Fields) : Except Reject Instr :=
  let csr (o : CsrOp) (i : Bool) : Except Reject Instr := .ok (.csrAccess o i f.d f.a f.immI)
  match f.f3 with
  | 0#3 =>
    if f.d == 0 then
      match f.f7 with
      | 9#7 => .ok (.sfenceVma f.a f.b)
      | 0#7 => if f.a == 0 then
          (match f.b with
           | 0#5 => .ok .ecall
           | 1#5 => .ok .ebreak
           | 13#5 => .ok .wrsNto
           | 29#5 => .ok .wrsSto
           | _ => .error .unassigned) else .error .unassigned
      | 8#7 => if f.a == 0 then
          (match f.b with
           | 2#5 => .ok (.xret false)
           | 5#5 => .ok .wfi
           | _ => .error .unassigned) else .error .unassigned
      | 24#7 => if f.a == 0 && f.b == 2 then .ok (.xret true) else .error .unassigned
      | _ => .error .unassigned
    else .error .unassigned
  | 1#3 => csr .rw false
  | 2#3 => csr .rs false
  | 3#3 => csr .rc false
  | 5#3 => csr .rw true
  | 6#3 => csr .rs true
  | 7#3 => csr .rc true
  | _ => .error .unassigned

/-- LDO and STO (R66). -/
def decodeOrdered (f : Fields) (isStore : Bool) : Except Reject Instr :=
  let w := f.f7.extractLsb' 5 2
  let o := f.f7.extractLsb' 3 2
  let s := f.f7.extractLsb' 0 3
  if isStore then
    mbz (f.d == 0) (if stoOrder o then withScope s (.sto f.a f.b s o w) else .error .reservedOrdering)
  else
    mbz (f.b == 0) (if ldoOrder o then withScope s (.ldo f.d f.a s o w) else .error .reservedOrdering)

/-- custom-0 funct3 010: range operations, DISCT, FENCE.S, QSFENCE and PGMIG (R67). -/
def decodeCustom0_2 (f : Fields) : Except Reject Instr :=
  match f.f7 with
  | 0x00#7 => mbz (f.d == 0) (.ok (.wbr f.a f.b))
  | 0x01#7 => mbz (f.d == 0) (.ok (.invr f.a f.b))
  | 0x02#7 => mbz (f.d == 0) (.ok (.wbinvr f.a f.b))
  | 0x08#7 => mbz (f.d == 0 && f.b == 0) (.ok (.disct f.a))
  | 0x40#7 => mbz (f.d.extractLsb' 4 1 == 0)
      (if qsScope (f.d.extractLsb' 1 3) then .ok (.qsfence (f.d.getLsbD 0) (f.d.extractLsb' 1 3) f.a f.b) else .error .reservedScope)
  | 0x41#7 => .ok (.pgmig f.d f.a f.b)
  | _ =>
    if f.f7.extractLsb' 5 2 == 1#2 && f.f7.extractLsb' 0 2 == 0#2 then
      mbz (f.d == 0) (withScope (f.f7.extractLsb' 2 3) (.fenceS f.a f.b (f.f7.extractLsb' 2 3)))
    else .error .unassigned

/-- AMOS (R66, R67). -/
def decodeAmos (f : Fields) : Except Reject Instr :=
  let o := f.f7.extractLsb' 3 4
  let s := f.f7.extractLsb' 0 3
  if amosOp o then withScope s (.amos f.d f.a f.b s o) else .error .reservedOp

/-- CPY (R67, R285). -/
def decodeCpy (f : Fields) : Except Reject Instr :=
  let c := f.f7.extractLsb' 2 5
  match f.f7.extractLsb' 0 2 with
  | 0#2 => .ok (.cpy f.d f.a f.b c)
  | 1#2 => .ok (.cpyDc f.d f.a f.b c)
  | 2#2 => .ok (.cpyPh f.d f.a f.b c)
  | _ => .ok (.cpyDcPh f.d f.a f.b c)

/-- LOOP.SET and LOOP.CLR (R68). -/
def decodeLoop (f : Fields) : Except Reject Instr :=
  if f.d == 0 then
    if f.immI == 0 then (if f.a == 0 then .ok .loopClr else .error .mustBeZero) else .ok (.loopSet f.a f.immI)
  else .error .mustBeZero

/-- Custom0 funct3 011. -/
def decodeCustom0_3 (f : Fields) : Except Reject Instr :=
  match f.f7 with
  | 0x0#7 => mbz (f.d == 0 && f.b == 0) (.ok (.tdecl f.a))
  | 0x1#7 => mbz (f.d == 0 && f.b == 0) (.ok (.tfree f.a))
  | 0x2#7 => mbz (f.d == 0 && f.b.extractLsb' 3 1 == 0) (withScope (f.b.extractLsb' 0 3) (.tacq f.a (f.b.extractLsb' 0 3) (f.b.getLsbD 4)))
  | 0x3#7 => mbz (f.d == 0 && f.b.extractLsb' 3 2 == 0) (withScope (f.b.extractLsb' 0 3) (.trel f.a (f.b.extractLsb' 0 3)))
  | 0x4#7 => mbz (f.d.extractLsb' 1 4 == 0) (.ok (.tfwd (f.d.getLsbD 0) f.a f.b))
  | 0x5#7 => mbz (f.b == 0) (.ok (.tstat f.d f.a))
  | _ => .error .unassigned

/-- Custom0 funct3 100. -/
def decodeCustom0_4 (f : Fields) : Except Reject Instr :=
  match f.f7 with
  | 0x0#7 => mbz (f.b == 0) (.ok (.accF f.d f.a))
  | 0x1#7 => .ok (.accX f.d f.a f.b)
  | 0x2#7 => mbz (f.b == 0) (.ok (.accI f.d f.a))
  | 0x10#7 => mbz (f.d == 0) (.ok (.flres f.a f.b))
  | _ => .error .unassigned

/-- Custom0 funct3 111. -/
def decodeCustom0_7 (f : Fields) : Except Reject Instr :=
  match f.f7 with
  | 0x0#7 => mbz (f.d == 0 && f.b == 0) (.ok (.cpstep f.a))
  | 0x1#7 => .ok (.bhwait f.d f.a f.b)
  | 0x2#7 => mbz (f.d == 0) (.ok (.bhset f.a f.b))
  | 0x3#7 => mbz (f.d == 0) (.ok (.stgreq f.a f.b))
  | 0x10#7 => mbz (f.d == 0) (.ok (.hsgath f.a f.b))
  | 0x11#7 => mbz (f.d == 0) (.ok (.hsred f.a f.b))
  | 0x12#7 => mbz (f.d == 0) (.ok (.hsconv f.a f.b))
  | 0x13#7 => mbz (f.d == 0) (.ok (.hsgemv f.a f.b))
  | _ => .error .unassigned

/-- Custom1 funct3 000. -/
def decodeCustom1_0 (f : Fields) : Except Reject Instr :=
  match f.f7 with
  | 0x0#7 => .ok (.hstart f.d f.a f.b)
  | 0x1#7 => mbz (f.d == 0 && f.b == 0) (.ok (.hexit f.a))
  | 0x2#7 => mbz (f.b == 0) (.ok (.hjoin f.d f.a))
  | 0x3#7 => mbz (f.d == 0 && f.b == 0) (.ok (.falign f.a))
  | _ => .error .unassigned

/-- Custom1 funct3 010. -/
def decodeCustom1_2 (f : Fields) : Except Reject Instr :=
  match f.f7 with
  | 0x0#7 => mbz (f.b == 0) (.ok (.spawn f.d f.a))
  | 0x1#7 => mbz (f.a == 0 && f.b == 0) (.ok (.tnext f.d))
  | 0x2#7 => mbz (f.d == 0) (.ok (.tarm f.a f.b))
  | 0x3#7 => .ok (.launch f.d f.a f.b)
  | 0x8#7 => mbz (f.d == 0 && f.b == 0) (.ok (.tresume f.a))
  | 0x9#7 => mbz (f.d == 0 && f.b == 0) (.ok (.tkill f.a))
  | _ => .error .unassigned

/-- Custom1 funct3 011. -/
def decodeCustom1_3 (f : Fields) : Except Reject Instr :=
  match f.f7 with
  | 0x0#7 => mbz (f.b.extractLsb' 2 3 == 0) (if f.b.extractLsb' 0 2 == 0 then .error .reservedMode else .ok (.phreg f.d f.a (f.b.extractLsb' 0 2)))
  | 0x1#7 => mbz (f.b.extractLsb' 2 3 == 0) (if f.b.extractLsb' 0 2 == 0 then .error .reservedMode else .ok (.phdereg f.d f.a (f.b.extractLsb' 0 2)))
  | 0x2#7 => mbz (f.b.extractLsb' 2 3 == 0) (.ok (.pharv f.d f.a (f.b.getLsbD 0) (f.b.getLsbD 1)))
  | 0x3#7 => mbz (f.d == 0) (.ok (.phwait f.a f.b))
  | 0x4#7 => mbz (f.d == 0) (.ok (.phbytes f.a f.b))
  | _ => .error .unassigned

/-- Custom1 funct3 100. -/
def decodeCustom1_4 (f : Fields) : Except Reject Instr :=
  match f.f7 with
  | 0x0#7 => mbz (f.d == 0) (.ok (.mbeat f.a f.b))
  | 0x1#7 => mbz (f.d == 0) (.ok (.msend f.a f.b))
  | 0x2#7 => mbz (f.b == 0) (.ok (.mpost f.d f.a))
  | 0x3#7 => mbz (f.b == 0) (.ok (.mrecv f.d f.a))
  | 0x4#7 => mbz (f.b == 0) (.ok (.mprobe f.d f.a))
  | 0x5#7 => mbz (f.b == 0) (.ok (.mcancel f.d f.a))
  | _ => .error .unassigned

/-- Custom1 funct3 101. -/
def decodeCustom1_5 (f : Fields) : Except Reject Instr :=
  match f.f7 with
  | 0x0#7 => mbz (f.d == 0) (.ok (.qpush f.a f.b))
  | 0x1#7 => mbz (f.b == 0) (.ok (.qpop f.d f.a))
  | 0x2#7 => mbz (f.b == 0) (.ok (.qtrypop f.d f.a))
  | 0x3#7 => mbz (f.d == 0 && f.b == 0) (.ok (.qflush f.a))
  | _ => .error .unassigned

/-- Custom1 funct3 110. -/
def decodeCustom1_6 (f : Fields) : Except Reject Instr :=
  match f.f7 with
  | 0x0#7 => mbz (f.b == 0) (.ok (.evpop f.d f.a))
  | 0x1#7 => mbz (f.b == 0) (.ok (.evwait f.d f.a))
  | 0x2#7 => mbz (f.d == 0 && f.b == 0) (.ok (.cpmark f.a))
  | 0x3#7 => .ok (.cpdump f.d f.a f.b)
  | 0x4#7 => mbz (f.d == 0) (.ok (.trace f.a f.b))
  | _ => .error .unassigned

/-- Custom2 funct3 000. -/
def decodeCustom2_0 (f : Fields) : Except Reject Instr :=
  match f.f7.extractLsb' 0 4 with
  | 0x0#4 => .ok (.vaddVv f.d f.a f.b (f.f7.extractLsb' 4 3))
  | 0x1#4 => .ok (.vsubVv f.d f.a f.b (f.f7.extractLsb' 4 3))
  | 0x2#4 => .ok (.vmulVv f.d f.a f.b (f.f7.extractLsb' 4 3))
  | 0x3#4 => .ok (.vmulhVv f.d f.a f.b (f.f7.extractLsb' 4 3))
  | 0x4#4 => .ok (.vmulhuVv f.d f.a f.b (f.f7.extractLsb' 4 3))
  | 0x5#4 => .ok (.vminVv f.d f.a f.b (f.f7.extractLsb' 4 3))
  | 0x6#4 => .ok (.vminuVv f.d f.a f.b (f.f7.extractLsb' 4 3))
  | 0x7#4 => .ok (.vmaxVv f.d f.a f.b (f.f7.extractLsb' 4 3))
  | 0x8#4 => .ok (.vmaxuVv f.d f.a f.b (f.f7.extractLsb' 4 3))
  | 0x9#4 => .ok (.vandVv f.d f.a f.b (f.f7.extractLsb' 4 3))
  | 0xa#4 => .ok (.vorVv f.d f.a f.b (f.f7.extractLsb' 4 3))
  | 0xb#4 => .ok (.vxorVv f.d f.a f.b (f.f7.extractLsb' 4 3))
  | 0xc#4 => .ok (.vsllVv f.d f.a f.b (f.f7.extractLsb' 4 3))
  | 0xd#4 => .ok (.vsrlVv f.d f.a f.b (f.f7.extractLsb' 4 3))
  | 0xe#4 => .ok (.vsraVv f.d f.a f.b (f.f7.extractLsb' 4 3))
  | _ => .ok (.vmergeVv f.d f.a f.b (f.f7.extractLsb' 4 3))

/-- Custom2 funct3 001. -/
def decodeCustom2_1 (f : Fields) : Except Reject Instr :=
  match f.f7.extractLsb' 0 4 with
  | 0x0#4 => .ok (.vaddVx f.d f.a f.b (f.f7.extractLsb' 4 3))
  | 0x1#4 => .ok (.vsubVx f.d f.a f.b (f.f7.extractLsb' 4 3))
  | 0x2#4 => .ok (.vmulVx f.d f.a f.b (f.f7.extractLsb' 4 3))
  | 0x3#4 => .ok (.vmulhVx f.d f.a f.b (f.f7.extractLsb' 4 3))
  | 0x4#4 => .ok (.vmulhuVx f.d f.a f.b (f.f7.extractLsb' 4 3))
  | 0x5#4 => .ok (.vminVx f.d f.a f.b (f.f7.extractLsb' 4 3))
  | 0x6#4 => .ok (.vminuVx f.d f.a f.b (f.f7.extractLsb' 4 3))
  | 0x7#4 => .ok (.vmaxVx f.d f.a f.b (f.f7.extractLsb' 4 3))
  | 0x8#4 => .ok (.vmaxuVx f.d f.a f.b (f.f7.extractLsb' 4 3))
  | 0x9#4 => .ok (.vandVx f.d f.a f.b (f.f7.extractLsb' 4 3))
  | 0xa#4 => .ok (.vorVx f.d f.a f.b (f.f7.extractLsb' 4 3))
  | 0xb#4 => .ok (.vxorVx f.d f.a f.b (f.f7.extractLsb' 4 3))
  | 0xc#4 => .ok (.vsllVx f.d f.a f.b (f.f7.extractLsb' 4 3))
  | 0xd#4 => .ok (.vsrlVx f.d f.a f.b (f.f7.extractLsb' 4 3))
  | 0xe#4 => .ok (.vsraVx f.d f.a f.b (f.f7.extractLsb' 4 3))
  | _ => .ok (.vmergeVx f.d f.a f.b (f.f7.extractLsb' 4 3))

/-- Custom2 funct3 010. -/
def decodeCustom2_2 (f : Fields) : Except Reject Instr :=
  match f.f7.extractLsb' 0 4 with
  | 0x0#4 => .ok (.vfaddVv f.d f.a f.b (f.f7.extractLsb' 4 3))
  | 0x1#4 => .ok (.vfsubVv f.d f.a f.b (f.f7.extractLsb' 4 3))
  | 0x2#4 => .ok (.vfmulVv f.d f.a f.b (f.f7.extractLsb' 4 3))
  | 0x3#4 => .ok (.vfdivVv f.d f.a f.b (f.f7.extractLsb' 4 3))
  | 0x4#4 => .ok (.vfminVv f.d f.a f.b (f.f7.extractLsb' 4 3))
  | 0x5#4 => .ok (.vfmaxVv f.d f.a f.b (f.f7.extractLsb' 4 3))
  | 0x6#4 => .ok (.vfmaVv f.d f.a f.b (f.f7.extractLsb' 4 3))
  | 0x7#4 => .ok (.vfmsVv f.d f.a f.b (f.f7.extractLsb' 4 3))
  | 0x8#4 => .ok (.vfnmaVv f.d f.a f.b (f.f7.extractLsb' 4 3))
  | 0x9#4 => mbz (f.a == 0) (.ok (.vfsqrt f.d f.b (f.f7.extractLsb' 4 3)))
  | 0xa#4 => mbz (f.a == 0) (.ok (.vfclass f.d f.b (f.f7.extractLsb' 4 3)))
  | _ => .error .unassigned

/-- Custom2 funct3 011. -/
def decodeCustom2_3 (f : Fields) : Except Reject Instr :=
  match f.f7.extractLsb' 0 4 with
  | 0x0#4 => .ok (.vfaddVf f.d f.a f.b (f.f7.extractLsb' 4 3))
  | 0x1#4 => .ok (.vfsubVf f.d f.a f.b (f.f7.extractLsb' 4 3))
  | 0x2#4 => .ok (.vfmulVf f.d f.a f.b (f.f7.extractLsb' 4 3))
  | 0x3#4 => .ok (.vfdivVf f.d f.a f.b (f.f7.extractLsb' 4 3))
  | 0x4#4 => .ok (.vfminVf f.d f.a f.b (f.f7.extractLsb' 4 3))
  | 0x5#4 => .ok (.vfmaxVf f.d f.a f.b (f.f7.extractLsb' 4 3))
  | 0x6#4 => .ok (.vfmaVf f.d f.a f.b (f.f7.extractLsb' 4 3))
  | 0x7#4 => .ok (.vfmsVf f.d f.a f.b (f.f7.extractLsb' 4 3))
  | 0x8#4 => .ok (.vfnmaVf f.d f.a f.b (f.f7.extractLsb' 4 3))
  | _ => .error .unassigned

/-- Custom2 funct3 100. -/
def decodeCustom2_4 (f : Fields) : Except Reject Instr :=
  match f.f7.extractLsb' 0 4 with
  | 0x0#4 => mbz (f.d.extractLsb' 3 2 == 0) (.ok (.vcmpEq (f.d.extractLsb' 0 3) f.a f.b (f.f7.extractLsb' 4 3)))
  | 0x1#4 => mbz (f.d.extractLsb' 3 2 == 0) (.ok (.vcmpNe (f.d.extractLsb' 0 3) f.a f.b (f.f7.extractLsb' 4 3)))
  | 0x2#4 => mbz (f.d.extractLsb' 3 2 == 0) (.ok (.vcmpLt (f.d.extractLsb' 0 3) f.a f.b (f.f7.extractLsb' 4 3)))
  | 0x3#4 => mbz (f.d.extractLsb' 3 2 == 0) (.ok (.vcmpLtu (f.d.extractLsb' 0 3) f.a f.b (f.f7.extractLsb' 4 3)))
  | 0x4#4 => mbz (f.d.extractLsb' 3 2 == 0) (.ok (.vcmpLe (f.d.extractLsb' 0 3) f.a f.b (f.f7.extractLsb' 4 3)))
  | 0x5#4 => mbz (f.d.extractLsb' 3 2 == 0) (.ok (.vcmpLeu (f.d.extractLsb' 0 3) f.a f.b (f.f7.extractLsb' 4 3)))
  | 0x6#4 => mbz (f.d.extractLsb' 3 2 == 0) (.ok (.vfcmpEq (f.d.extractLsb' 0 3) f.a f.b (f.f7.extractLsb' 4 3)))
  | 0x7#4 => mbz (f.d.extractLsb' 3 2 == 0) (.ok (.vfcmpLt (f.d.extractLsb' 0 3) f.a f.b (f.f7.extractLsb' 4 3)))
  | 0x8#4 => mbz (f.d.extractLsb' 3 2 == 0) (.ok (.vfcmpLe (f.d.extractLsb' 0 3) f.a f.b (f.f7.extractLsb' 4 3)))
  | 0x9#4 => mbz (f.d.extractLsb' 3 2 == 0) (.ok (.vfcmpUn (f.d.extractLsb' 0 3) f.a f.b (f.f7.extractLsb' 4 3)))
  | 0xa#4 => mbz (f.d.extractLsb' 3 2 == 0 && f.a.extractLsb' 3 2 == 0 && f.b.extractLsb' 3 2 == 0) (.ok (.vmand (f.d.extractLsb' 0 3) (f.a.extractLsb' 0 3) (f.b.extractLsb' 0 3) (f.f7.extractLsb' 4 3)))
  | 0xb#4 => mbz (f.d.extractLsb' 3 2 == 0 && f.a.extractLsb' 3 2 == 0 && f.b.extractLsb' 3 2 == 0) (.ok (.vmor (f.d.extractLsb' 0 3) (f.a.extractLsb' 0 3) (f.b.extractLsb' 0 3) (f.f7.extractLsb' 4 3)))
  | 0xc#4 => mbz (f.d.extractLsb' 3 2 == 0 && f.a.extractLsb' 3 2 == 0 && f.b.extractLsb' 3 2 == 0) (.ok (.vmxor (f.d.extractLsb' 0 3) (f.a.extractLsb' 0 3) (f.b.extractLsb' 0 3) (f.f7.extractLsb' 4 3)))
  | 0xd#4 => mbz (f.d.extractLsb' 3 2 == 0 && f.a == 0 && f.b.extractLsb' 3 2 == 0) (.ok (.vmnot (f.d.extractLsb' 0 3) (f.b.extractLsb' 0 3) (f.f7.extractLsb' 4 3)))
  | 0xe#4 => mbz (f.a == 0 && f.b.extractLsb' 3 2 == 0) (.ok (.vpopc f.d (f.b.extractLsb' 0 3) (f.f7.extractLsb' 4 3)))
  | _ => mbz (f.a == 0 && f.b.extractLsb' 3 2 == 0) (.ok (.vfirst f.d (f.b.extractLsb' 0 3) (f.f7.extractLsb' 4 3)))

/-- Custom2 funct3 101. -/
def decodeCustom2_5 (f : Fields) : Except Reject Instr :=
  match f.f7.extractLsb' 0 4 with
  | 0x0#4 => .ok (.vperm f.d f.a f.b (f.f7.extractLsb' 4 3))
  | 0x1#4 => .ok (.vslideup f.d f.a f.b (f.f7.extractLsb' 4 3))
  | 0x2#4 => .ok (.vslidedn f.d f.a f.b (f.f7.extractLsb' 4 3))
  | 0x3#4 => mbz (f.b == 0) (.ok (.vbcast f.d f.a (f.f7.extractLsb' 4 3)))
  | 0x4#4 => .ok (.vcompress f.d f.a f.b (f.f7.extractLsb' 4 3))
  | 0x5#4 => mbz (f.a == 0 && f.b == 0) (.ok (.vid f.d (f.f7.extractLsb' 4 3)))
  | 0x6#4 => .ok (.vclmul f.d f.a f.b (f.f7.extractLsb' 4 3))
  | 0x7#4 => .ok (.vclmulh f.d f.a f.b (f.f7.extractLsb' 4 3))
  | _ => .error .unassigned

/-- Custom2 funct3 110. -/
def decodeCustom2_6 (f : Fields) : Except Reject Instr :=
  match f.f7.extractLsb' 0 4 with
  | 0x0#4 => if cvtCode f.a then .ok (.vcvt f.d f.a f.b (f.f7.extractLsb' 4 3)) else .error .reservedCode
  | 0x1#4 => mbz (f.a == 0) (.ok (.vamax f.d f.b (f.f7.extractLsb' 4 3)))
  | 0x2#4 => if scaleFmt f.a then .ok (.vscale f.d f.a f.b (f.f7.extractLsb' 4 3)) else .error .reservedCode
  | 0x3#4 => .ok (.vqlns f.d f.a f.b (f.f7.extractLsb' 4 3))
  | 0x4#4 => .ok (.vdqlns f.d f.a f.b (f.f7.extractLsb' 4 3))
  | 0x5#4 => .ok (.vqfp8 f.d f.a f.b (f.f7.extractLsb' 4 3))
  | 0x6#4 => .ok (.vdqfp8 f.d f.a f.b (f.f7.extractLsb' 4 3))
  | 0x7#4 => .ok (.vqsplit f.d f.a f.b (f.f7.extractLsb' 4 3))
  | _ => .error .unassigned

/-- Custom2 funct3 111. -/
def decodeCustom2_7 (f : Fields) : Except Reject Instr :=
  match f.f7.extractLsb' 0 4 with
  | 0x0#4 => .ok (.vredsum f.d f.a f.b (f.f7.extractLsb' 4 3))
  | 0x1#4 => .ok (.vredmax f.d f.a f.b (f.f7.extractLsb' 4 3))
  | 0x2#4 => .ok (.vredmin f.d f.a f.b (f.f7.extractLsb' 4 3))
  | 0x3#4 => .ok (.vredmaxu f.d f.a f.b (f.f7.extractLsb' 4 3))
  | 0x4#4 => .ok (.vredminu f.d f.a f.b (f.f7.extractLsb' 4 3))
  | 0x5#4 => .ok (.vfredsum f.d f.a f.b (f.f7.extractLsb' 4 3))
  | 0x6#4 => .ok (.vfredmax f.d f.a f.b (f.f7.extractLsb' 4 3))
  | 0x7#4 => .ok (.vfredmin f.d f.a f.b (f.f7.extractLsb' 4 3))
  | _ => .error .unassigned

/-- Custom3 funct3 000. -/
def decodeCustom3_0 (f : Fields) : Except Reject Instr :=
  match f.f7.extractLsb' 0 4 with
  | 0x0#4 => mbz (f.b == 0) (.ok (.vld f.d f.a (f.f7.extractLsb' 4 3)))
  | 0x1#4 => .ok (.vldSt f.d f.a f.b (f.f7.extractLsb' 4 3))
  | 0x2#4 => .ok (.vldIx f.d f.a f.b (f.f7.extractLsb' 4 3))
  | 0x3#4 => mbz (f.b == 0) (.ok (.vldBc f.d f.a (f.f7.extractLsb' 4 3)))
  | _ => .error .unassigned

/-- Custom3 funct3 001. -/
def decodeCustom3_1 (f : Fields) : Except Reject Instr :=
  match f.f7.extractLsb' 0 4 with
  | 0x0#4 => mbz (f.b == 0) (.ok (.vst f.d f.a (f.f7.extractLsb' 4 3)))
  | 0x1#4 => .ok (.vstSt f.d f.a f.b (f.f7.extractLsb' 4 3))
  | 0x2#4 => .ok (.vstIx f.d f.a f.b (f.f7.extractLsb' 4 3))
  | 0x3#4 => mbz (f.b == 0) (.ok (.vstBc f.d f.a (f.f7.extractLsb' 4 3)))
  | _ => .error .unassigned

/-- Custom3 funct3 010. -/
def decodeCustom3_2 (f : Fields) : Except Reject Instr :=
  match f.f7 with
  | 0x0#7 => mbz (f.a == 0) (.ok (.vmovi f.d f.b))
  | 0x1#7 => mbz (f.a == 0) (.ok (.vmoviw f.d f.b))
  | 0x2#7 => mbz (f.b == 0) (.ok (.vrdx f.d f.a))
  | 0x3#7 => mbz (f.b == 0) (.ok (.vwrx f.d f.a))
  | _ => .error .unassigned

/-- Custom3 funct3 011. -/
def decodeCustom3_3 (f : Fields) : Except Reject Instr :=
  match f.f7 with
  | 0x0#7 => if etypeCode f.b then .ok (.vsetl f.d f.a f.b) else .error .reservedCode
  | 0x1#7 => .ok (.vextract f.d f.a f.b)
  | 0x2#7 => .ok (.vinsert f.d f.a f.b)
  | _ => .error .unassigned

/-- Custom3 funct3 111. -/
def decodeCustom3_7 (f : Fields) : Except Reject Instr :=
  match f.f7 with
  | 0x0#7 => mbz (f.d == 0) (.ok (.mxcfg f.a f.b))
  | 0x1#7 => mbz (f.d == 0 && f.b == 0) (.ok (.mxgrant f.a))
  | 0x2#7 => mbz (f.d.extractLsb' 2 3 == 0) (.ok (.mxld (f.d.extractLsb' 0 2) f.a f.b))
  | 0x3#7 => mbz (f.d.extractLsb' 3 2 == 0 && f.a.extractLsb' 4 1 == 0) (.ok (.mxmac (f.d.extractLsb' 0 3) (f.a.extractLsb' 0 2) (f.a.extractLsb' 2 2) f.b))
  | 0x4#7 => mbz (f.d.extractLsb' 3 2 == 0 && f.a.extractLsb' 4 1 == 0) (.ok (.mxmacs (f.d.extractLsb' 0 3) (f.a.extractLsb' 0 2) (f.a.extractLsb' 2 2) f.b))
  | 0x5#7 => mbz (f.d.extractLsb' 3 2 == 0) (.ok (.mxst (f.d.extractLsb' 0 3) f.a f.b))
  | 0x6#7 => mbz (f.d.extractLsb' 3 2 == 0 && f.a == 0) (.ok (.mxzero (f.d.extractLsb' 0 3) f.b))
  | 0x7#7 => mbz (f.d == 0) (.ok (.mxdup f.a f.b))
  | 0x8#7 => mbz (f.d == 0 && f.a == 0) (.ok (.mxsync f.b))
  | _ => .error .unassigned

/-- custom-0 (R67). -/
def decodeCustom0 (f : Fields) : Except Reject Instr :=
  match f.f3 with
  | 0#3 => decodeOrdered f false
  | 1#3 => decodeOrdered f true
  | 2#3 => decodeCustom0_2 f
  | 3#3 => decodeCustom0_3 f
  | 4#3 => decodeCustom0_4 f
  | 5#3 => decodeAmos f
  | 6#3 => decodeCpy f
  | _ => decodeCustom0_7 f

/-- custom-1 (R68); funct3 111 is reserved in full. -/
def decodeCustom1 (f : Fields) : Except Reject Instr :=
  match f.f3 with
  | 0#3 => decodeCustom1_0 f
  | 1#3 => decodeLoop f
  | 2#3 => decodeCustom1_2 f
  | 3#3 => decodeCustom1_3 f
  | 4#3 => decodeCustom1_4 f
  | 5#3 => decodeCustom1_5 f
  | 6#3 => decodeCustom1_6 f
  | _ => .error .unassigned

/-- custom-2 (R69). -/
def decodeCustom2 (f : Fields) : Except Reject Instr :=
  match f.f3 with
  | 0#3 => decodeCustom2_0 f
  | 1#3 => decodeCustom2_1 f
  | 2#3 => decodeCustom2_2 f
  | 3#3 => decodeCustom2_3 f
  | 4#3 => decodeCustom2_4 f
  | 5#3 => decodeCustom2_5 f
  | 6#3 => decodeCustom2_6 f
  | _ => decodeCustom2_7 f

/-- custom-3 (R70); funct3 100, 101 and 110 are reserved. -/
def decodeCustom3 (f : Fields) : Except Reject Instr :=
  match f.f3 with
  | 0#3 => decodeCustom3_0 f
  | 1#3 => decodeCustom3_1 f
  | 2#3 => decodeCustom3_2 f
  | 3#3 => decodeCustom3_3 f
  | 7#3 => decodeCustom3_7 f
  | _ => .error .unassigned

/-- The instruction with the given fields, by its major opcode (R61, R62). -/
def decodeFields (f : Fields) : Except Reject Instr :=
  match f.op with
  | 0x03#7 => decodeLoad f false
  | 0x07#7 => decodeLoad f true
  | 0x0B#7 => decodeCustom0 f
  | 0x0F#7 => decodeMisc f
  | 0x13#7 => decodeOpImm f
  | 0x17#7 => .ok (.integerArithmetic (.auipc f.d f.immU))
  | 0x1B#7 => decodeOpImm32 f
  | 0x23#7 => decodeStore f false
  | 0x27#7 => decodeStore f true
  | 0x2B#7 => decodeCustom1 f
  | 0x2F#7 => decodeAmo f
  | 0x33#7 => decodeOp f
  | 0x37#7 => .ok (.integerArithmetic (.lui f.d f.immU))
  | 0x3B#7 => decodeOp32 f
  | 0x43#7 => decodeFma f .madd
  | 0x47#7 => decodeFma f .msub
  | 0x4B#7 => decodeFma f .nmsub
  | 0x4F#7 => decodeFma f .nmadd
  | 0x53#7 => decodeFp f
  | 0x5B#7 => decodeCustom2 f
  | 0x63#7 => decodeBranch f
  | 0x67#7 => if f.f3 == 0 then .ok (.jump (.jalr f.d f.a f.immI)) else .error .unassigned
  | 0x6F#7 => .ok (.jump (.jal f.d f.immJ))
  | 0x73#7 => decodeSystem f
  | 0x7B#7 => decodeCustom3 f
  | _ =>
    if f.op.extractLsb' 0 2 == 3#2 then
      (if f.op.extractLsb' 2 3 == 7#3 then .error .longer else .error .reservedMajor)
    else .error .compressed

/-- The decoder: every 32-bit word is an instruction or is rejected by name. -/
def decode (w : BitVec 32) : Except Reject Instr := decodeFields (split w)

/-- The instruction a fetched word stands for: a word that `decode` rejects stands for ILLEGAL_INSTRUCTION_WORD. -/
def decodeWord (w : BitVec 32) : Instr :=
  match decode w with
  | .ok i => i
  | .error _ => .illegalInstructionWord w

/-- What the decoder reads from an instruction whose bits are `w` (every Q6 instruction is one 32-bit little-endian word, so
the table's numbering is the word's own). -/
def decodeTableWord (_nbits w : Nat) : Option Instr :=
  match decode (BitVec.ofNat 32 w) with
  | .ok i => some i
  | .error _ => none

/-- funct3 of a load. -/
def loadFunct (k : LoadKind) : BitVec 3 × BitVec 7 :=
  match k with
  | .lb => (0, 0x03) | .lh => (1, 0x03) | .lw => (2, 0x03) | .ld => (3, 0x03) | .lbu => (4, 0x03) | .lhu => (5, 0x03)
  | .lwu => (6, 0x03) | .flw => (2, 0x07) | .fld => (3, 0x07)

/-- funct3 of a store. -/
def storeFunct (k : StoreKind) : BitVec 3 × BitVec 7 :=
  match k with
  | .sb => (0, 0x23) | .sh => (1, 0x23) | .sw => (2, 0x23) | .sd => (3, 0x23) | .fsw => (2, 0x27) | .fsd => (3, 0x27)

/-- funct5 of an AMO. -/
def amoFunct (k : AmoOp) : BitVec 5 :=
  match k with
  | .add => 0 | .swap => 1 | .xor => 4 | .or => 8 | .and => 12 | .min => 16 | .max => 20 | .minu => 24 | .maxu => 28

/-- funct3 of a division. -/
def divFunct (k : DivOp) : BitVec 3 :=
  match k with
  | .div => 4 | .divu => 5 | .rem => 6 | .remu => 7

/-- The fields of an integer-arithmetic instruction. -/
def encodeInt (o : IntOp) : Fields :=
  let i7 (x : BitVec 12) : BitVec 7 := x.extractLsb' 5 7
  let i5 (x : BitVec 12) : BitVec 5 := x.extractLsb' 0 5
  match o with
  | .imm k d a x =>
    let f3 : BitVec 3 := match k with
      | .addi => 0 | .slti => 2 | .sltiu => 3 | .xori => 4 | .ori => 6 | .andi => 7
    ⟨i7 x, i5 x, a, f3, d, 0x13⟩
  | .shift k d a sh =>
    let t : BitVec 3 × BitVec 6 := match k with
      | .sll => (1, 0) | .srl => (5, 0) | .sra => (5, 16)
    ⟨t.2 ++ sh.extractLsb' 5 1, sh.extractLsb' 0 5, a, t.1, d, 0x13⟩
  | .addiw d a x => ⟨i7 x, i5 x, a, 0, d, 0x1B⟩
  | .shiftW k d a sh =>
    let t : BitVec 3 × BitVec 7 := match k with
      | .sll => (1, 0) | .srl => (5, 0) | .sra => (5, 32)
    ⟨t.2, sh, a, t.1, d, 0x1B⟩
  | .reg k d a b =>
    let t : BitVec 7 × BitVec 3 := match k with
      | .add => (0, 0) | .sll => (0, 1) | .slt => (0, 2) | .sltu => (0, 3) | .xor => (0, 4) | .srl => (0, 5) | .or => (0, 6)
      | .and => (0, 7) | .sub => (32, 0) | .sra => (32, 5)
    ⟨t.1, b, a, t.2, d, 0x33⟩
  | .regW k d a b =>
    let t : BitVec 7 × BitVec 3 := match k with
      | .addw => (0, 0) | .sllw => (0, 1) | .srlw => (0, 5) | .subw => (32, 0) | .sraw => (32, 5)
    ⟨t.1, b, a, t.2, d, 0x3B⟩
  | .mul k d a b =>
    let t : BitVec 3 × BitVec 7 := match k with
      | .mul => (0, 0x33) | .mulh => (1, 0x33) | .mulhsu => (2, 0x33) | .mulhu => (3, 0x33) | .mulw => (0, 0x3B)
    ⟨1, b, a, t.1, d, t.2⟩
  | .lui d x => ⟨x.extractLsb' 13 7, x.extractLsb' 8 5, x.extractLsb' 3 5, x.extractLsb' 0 3, d, 0x37⟩
  | .auipc d x => ⟨x.extractLsb' 13 7, x.extractLsb' 8 5, x.extractLsb' 3 5, x.extractLsb' 0 3, d, 0x17⟩

/-- The rs2 code of an integer type in a conversion. -/
def fpIntCode (t : FpInt) : BitVec 5 :=
  match t with
  | .w => 0 | .wu => 1 | .l => 2 | .lu => 3

/-- The fields of a scalar F or D instruction. -/
def encodeFp (o : FpOp) : Fields :=
  let f7 (x : BitVec 5) (dbl : Bool) : BitVec 7 := x ++ 0#1 ++ BitVec.ofBool dbl
  match o with
  | .arith k dbl rm d a b =>
    let x : BitVec 5 := match k with
      | .add => 0 | .sub => 1 | .mul => 2 | .div => 3
    ⟨f7 x dbl, b, a, rm, d, 0x53⟩
  | .sqrt dbl rm d a => ⟨f7 11 dbl, 0, a, rm, d, 0x53⟩
  | .fma k dbl rm d a b c =>
    let x : BitVec 7 := match k with
      | .madd => 0x43 | .msub => 0x47 | .nmsub => 0x4B | .nmadd => 0x4F
    ⟨c ++ 0#1 ++ BitVec.ofBool dbl, b, a, rm, d, x⟩
  | .sgn k dbl d a b =>
    let x : BitVec 3 := match k with
      | .sgnj => 0 | .sgnjn => 1 | .sgnjx => 2
    ⟨f7 4 dbl, b, a, x, d, 0x53⟩
  | .minmax mx dbl d a b => ⟨f7 5 dbl, b, a, (if mx then 1 else 0), d, 0x53⟩
  | .cmp k dbl d a b =>
    let x : BitVec 3 := match k with
      | .le => 0 | .lt => 1 | .eq => 2
    ⟨f7 20 dbl, b, a, x, d, 0x53⟩
  | .toInt t dbl rm d a => ⟨f7 24 dbl, fpIntCode t, a, rm, d, 0x53⟩
  | .ofInt t dbl rm d a => ⟨f7 26 dbl, fpIntCode t, a, rm, d, 0x53⟩
  | .cvt toDbl rm d a => ⟨f7 8 toDbl, (if toDbl then 0 else 1), a, rm, d, 0x53⟩
  | .mvToX dbl d a => ⟨f7 28 dbl, 0, a, 0, d, 0x53⟩
  | .mvFromX dbl d a => ⟨f7 30 dbl, 0, a, 0, d, 0x53⟩
  | .fclass dbl d a => ⟨f7 28 dbl, 0, a, 1, d, 0x53⟩

/-- The fields of an instruction that has an encoding; an event row has none. -/
def encodeFields (i : Instr) : Option Fields :=
  match i with
  | .load k d a x => some ⟨x.extractLsb' 5 7, x.extractLsb' 0 5, a, (loadFunct k).1, d, (loadFunct k).2⟩
  | .store k a b x => some ⟨x.extractLsb' 5 7, b, a, (storeFunct k).1, x.extractLsb' 0 5, (storeFunct k).2⟩
  | .lr dbl aq rl d a => some ⟨2#5 ++ BitVec.ofBool aq ++ BitVec.ofBool rl, 0, a, (if dbl then 3 else 2), d, 0x2F⟩
  | .sc dbl aq rl d a b => some ⟨3#5 ++ BitVec.ofBool aq ++ BitVec.ofBool rl, b, a, (if dbl then 3 else 2), d, 0x2F⟩
  | .amo k dbl aq rl d a b => some ⟨amoFunct k ++ BitVec.ofBool aq ++ BitVec.ofBool rl, b, a, (if dbl then 3 else 2), d, 0x2F⟩
  | .integerDivide k wd d a b => some ⟨1, b, a, divFunct k, d, (if wd then 0x3B else 0x33)⟩
  | .csrAccess o im d a x =>
    let f3 : BitVec 3 := match o with
      | .rw => 1 | .rs => 2 | .rc => 3
    some ⟨x.extractLsb' 5 7, x.extractLsb' 0 5, a, (if im then f3 + 4 else f3), d, 0x73⟩
  | .fence fm pr su d a => some ⟨fm ++ pr.extractLsb' 1 3, pr.extractLsb' 0 1 ++ su, a, 0, d, 0x0F⟩
  | .fenceTso d a => some ⟨8#4 ++ 1#3, 1#1 ++ 3#4, a, 0, d, 0x0F⟩
  | .fenceI x d a => some ⟨x.extractLsb' 5 7, x.extractLsb' 0 5, a, 1, d, 0x0F⟩
  | .wfi => some ⟨8, 5, 0, 0, 0, 0x73⟩
  | .ecall => some ⟨0, 0, 0, 0, 0, 0x73⟩
  | .ebreak => some ⟨0, 1, 0, 0, 0, 0x73⟩
  | .sfenceVma a b => some ⟨9, b, a, 0, 0, 0x73⟩
  | .wrsNto => some ⟨0, 13, 0, 0, 0, 0x73⟩
  | .wrsSto => some ⟨0, 29, 0, 0, 0, 0x73⟩
  | .ldo d a s o w => some ⟨w ++ o ++ s, 0, a, 0, d, 0x0B⟩
  | .sto a b s o w => some ⟨w ++ o ++ s, b, a, 1, 0, 0x0B⟩
  | .fenceS a b s => some ⟨1#2 ++ s ++ 0#2, b, a, 2, 0, 0x0B⟩
  | .qsfence ic s a b => some ⟨0x40, b, a, 2, 0#1 ++ s ++ BitVec.ofBool ic, 0x0B⟩
  | .amos d a b s o => some ⟨o ++ s, b, a, 5, d, 0x0B⟩
  | .cpy d a b c => some ⟨c ++ 0#2, b, a, 6, d, 0x0B⟩
  | .cpyDc d a b c => some ⟨c ++ 1#2, b, a, 6, d, 0x0B⟩
  | .cpyPh d a b c => some ⟨c ++ 2#2, b, a, 6, d, 0x0B⟩
  | .cpyDcPh d a b c => some ⟨c ++ 3#2, b, a, 6, d, 0x0B⟩
  | .loopSet a x => some ⟨x.extractLsb' 5 7, x.extractLsb' 0 5, a, 1, 0, 0x2B⟩
  | .loopClr => some ⟨0, 0, 0, 1, 0, 0x2B⟩
  | .wbr rs1 rs2 => some ⟨0x0#7, rs2, rs1, 0x2#3, 0x0#5, 0xb#7⟩
  | .invr rs1 rs2 => some ⟨0x1#7, rs2, rs1, 0x2#3, 0x0#5, 0xb#7⟩
  | .wbinvr rs1 rs2 => some ⟨0x2#7, rs2, rs1, 0x2#3, 0x0#5, 0xb#7⟩
  | .disct rs1 => some ⟨0x8#7, 0x0#5, rs1, 0x2#3, 0x0#5, 0xb#7⟩
  | .pgmig rd rs1 rs2 => some ⟨0x41#7, rs2, rs1, 0x2#3, rd, 0xb#7⟩
  | .tdecl rs1 => some ⟨0x0#7, 0x0#5, rs1, 0x3#3, 0x0#5, 0xb#7⟩
  | .tfree rs1 => some ⟨0x1#7, 0x0#5, rs1, 0x3#3, 0x0#5, 0xb#7⟩
  | .tacq rs1 scope excl => some ⟨0x2#7, ((BitVec.ofBool excl) ++ 0x0#1 ++ scope), rs1, 0x3#3, 0x0#5, 0xb#7⟩
  | .trel rs1 scope => some ⟨0x3#7, (0x0#2 ++ scope), rs1, 0x3#3, 0x0#5, 0xb#7⟩
  | .tfwd rel rs1 rs2 => some ⟨0x4#7, rs2, rs1, 0x3#3, (0x0#4 ++ (BitVec.ofBool rel)), 0xb#7⟩
  | .tstat rd rs1 => some ⟨0x5#7, 0x0#5, rs1, 0x3#3, rd, 0xb#7⟩
  | .accF vs rs1 => some ⟨0x0#7, 0x0#5, rs1, 0x4#3, vs, 0xb#7⟩
  | .accX vs rs1 rs2 => some ⟨0x1#7, rs2, rs1, 0x4#3, vs, 0xb#7⟩
  | .accI vs rs1 => some ⟨0x2#7, 0x0#5, rs1, 0x4#3, vs, 0xb#7⟩
  | .flres rs1 rs2 => some ⟨0x10#7, rs2, rs1, 0x4#3, 0x0#5, 0xb#7⟩
  | .cpstep rs1 => some ⟨0x0#7, 0x0#5, rs1, 0x7#3, 0x0#5, 0xb#7⟩
  | .bhwait rd rs1 rs2 => some ⟨0x1#7, rs2, rs1, 0x7#3, rd, 0xb#7⟩
  | .bhset rs1 rs2 => some ⟨0x2#7, rs2, rs1, 0x7#3, 0x0#5, 0xb#7⟩
  | .stgreq rs1 rs2 => some ⟨0x3#7, rs2, rs1, 0x7#3, 0x0#5, 0xb#7⟩
  | .hsgath rs1 rs2 => some ⟨0x10#7, rs2, rs1, 0x7#3, 0x0#5, 0xb#7⟩
  | .hsred rs1 rs2 => some ⟨0x11#7, rs2, rs1, 0x7#3, 0x0#5, 0xb#7⟩
  | .hsconv rs1 rs2 => some ⟨0x12#7, rs2, rs1, 0x7#3, 0x0#5, 0xb#7⟩
  | .hsgemv rs1 rs2 => some ⟨0x13#7, rs2, rs1, 0x7#3, 0x0#5, 0xb#7⟩
  | .hstart rd rs1 rs2 => some ⟨0x0#7, rs2, rs1, 0x0#3, rd, 0x2b#7⟩
  | .hexit rs1 => some ⟨0x1#7, 0x0#5, rs1, 0x0#3, 0x0#5, 0x2b#7⟩
  | .hjoin rd rs1 => some ⟨0x2#7, 0x0#5, rs1, 0x0#3, rd, 0x2b#7⟩
  | .falign rs1 => some ⟨0x3#7, 0x0#5, rs1, 0x0#3, 0x0#5, 0x2b#7⟩
  | .spawn rd rs1 => some ⟨0x0#7, 0x0#5, rs1, 0x2#3, rd, 0x2b#7⟩
  | .tnext rd => some ⟨0x1#7, 0x0#5, 0x0#5, 0x2#3, rd, 0x2b#7⟩
  | .tarm rs1 rs2 => some ⟨0x2#7, rs2, rs1, 0x2#3, 0x0#5, 0x2b#7⟩
  | .launch rd rs1 rs2 => some ⟨0x3#7, rs2, rs1, 0x2#3, rd, 0x2b#7⟩
  | .tresume rs1 => some ⟨0x8#7, 0x0#5, rs1, 0x2#3, 0x0#5, 0x2b#7⟩
  | .tkill rs1 => some ⟨0x9#7, 0x0#5, rs1, 0x2#3, 0x0#5, 0x2b#7⟩
  | .phreg rd rs1 mode => some ⟨0x0#7, (0x0#3 ++ mode), rs1, 0x3#3, rd, 0x2b#7⟩
  | .phdereg rd rs1 mode => some ⟨0x1#7, (0x0#3 ++ mode), rs1, 0x3#3, rd, 0x2b#7⟩
  | .pharv rd rs1 wait flush => some ⟨0x2#7, (0x0#3 ++ (BitVec.ofBool flush) ++ (BitVec.ofBool wait)), rs1, 0x3#3, rd, 0x2b#7⟩
  | .phwait rs1 rs2 => some ⟨0x3#7, rs2, rs1, 0x3#3, 0x0#5, 0x2b#7⟩
  | .phbytes rs1 rs2 => some ⟨0x4#7, rs2, rs1, 0x3#3, 0x0#5, 0x2b#7⟩
  | .mbeat rs1 rs2 => some ⟨0x0#7, rs2, rs1, 0x4#3, 0x0#5, 0x2b#7⟩
  | .msend rs1 rs2 => some ⟨0x1#7, rs2, rs1, 0x4#3, 0x0#5, 0x2b#7⟩
  | .mpost rd rs1 => some ⟨0x2#7, 0x0#5, rs1, 0x4#3, rd, 0x2b#7⟩
  | .mrecv rd rs1 => some ⟨0x3#7, 0x0#5, rs1, 0x4#3, rd, 0x2b#7⟩
  | .mprobe rd rs1 => some ⟨0x4#7, 0x0#5, rs1, 0x4#3, rd, 0x2b#7⟩
  | .mcancel rd rs1 => some ⟨0x5#7, 0x0#5, rs1, 0x4#3, rd, 0x2b#7⟩
  | .qpush rs1 rs2 => some ⟨0x0#7, rs2, rs1, 0x5#3, 0x0#5, 0x2b#7⟩
  | .qpop rd rs1 => some ⟨0x1#7, 0x0#5, rs1, 0x5#3, rd, 0x2b#7⟩
  | .qtrypop rd rs1 => some ⟨0x2#7, 0x0#5, rs1, 0x5#3, rd, 0x2b#7⟩
  | .qflush rs1 => some ⟨0x3#7, 0x0#5, rs1, 0x5#3, 0x0#5, 0x2b#7⟩
  | .evpop rd rs1 => some ⟨0x0#7, 0x0#5, rs1, 0x6#3, rd, 0x2b#7⟩
  | .evwait rd rs1 => some ⟨0x1#7, 0x0#5, rs1, 0x6#3, rd, 0x2b#7⟩
  | .cpmark rs1 => some ⟨0x2#7, 0x0#5, rs1, 0x6#3, 0x0#5, 0x2b#7⟩
  | .cpdump rd rs1 rs2 => some ⟨0x3#7, rs2, rs1, 0x6#3, rd, 0x2b#7⟩
  | .trace rs1 rs2 => some ⟨0x4#7, rs2, rs1, 0x6#3, 0x0#5, 0x2b#7⟩
  | .vaddVv vd vs1 vs2 mk => some ⟨(mk ++ 0x0#4), vs2, vs1, 0x0#3, vd, 0x5b#7⟩
  | .vsubVv vd vs1 vs2 mk => some ⟨(mk ++ 0x1#4), vs2, vs1, 0x0#3, vd, 0x5b#7⟩
  | .vmulVv vd vs1 vs2 mk => some ⟨(mk ++ 0x2#4), vs2, vs1, 0x0#3, vd, 0x5b#7⟩
  | .vmulhVv vd vs1 vs2 mk => some ⟨(mk ++ 0x3#4), vs2, vs1, 0x0#3, vd, 0x5b#7⟩
  | .vmulhuVv vd vs1 vs2 mk => some ⟨(mk ++ 0x4#4), vs2, vs1, 0x0#3, vd, 0x5b#7⟩
  | .vminVv vd vs1 vs2 mk => some ⟨(mk ++ 0x5#4), vs2, vs1, 0x0#3, vd, 0x5b#7⟩
  | .vminuVv vd vs1 vs2 mk => some ⟨(mk ++ 0x6#4), vs2, vs1, 0x0#3, vd, 0x5b#7⟩
  | .vmaxVv vd vs1 vs2 mk => some ⟨(mk ++ 0x7#4), vs2, vs1, 0x0#3, vd, 0x5b#7⟩
  | .vmaxuVv vd vs1 vs2 mk => some ⟨(mk ++ 0x8#4), vs2, vs1, 0x0#3, vd, 0x5b#7⟩
  | .vandVv vd vs1 vs2 mk => some ⟨(mk ++ 0x9#4), vs2, vs1, 0x0#3, vd, 0x5b#7⟩
  | .vorVv vd vs1 vs2 mk => some ⟨(mk ++ 0xa#4), vs2, vs1, 0x0#3, vd, 0x5b#7⟩
  | .vxorVv vd vs1 vs2 mk => some ⟨(mk ++ 0xb#4), vs2, vs1, 0x0#3, vd, 0x5b#7⟩
  | .vsllVv vd vs1 vs2 mk => some ⟨(mk ++ 0xc#4), vs2, vs1, 0x0#3, vd, 0x5b#7⟩
  | .vsrlVv vd vs1 vs2 mk => some ⟨(mk ++ 0xd#4), vs2, vs1, 0x0#3, vd, 0x5b#7⟩
  | .vsraVv vd vs1 vs2 mk => some ⟨(mk ++ 0xe#4), vs2, vs1, 0x0#3, vd, 0x5b#7⟩
  | .vmergeVv vd vs1 vs2 mk => some ⟨(mk ++ 0xf#4), vs2, vs1, 0x0#3, vd, 0x5b#7⟩
  | .vaddVx vd rs1 vs2 mk => some ⟨(mk ++ 0x0#4), vs2, rs1, 0x1#3, vd, 0x5b#7⟩
  | .vsubVx vd rs1 vs2 mk => some ⟨(mk ++ 0x1#4), vs2, rs1, 0x1#3, vd, 0x5b#7⟩
  | .vmulVx vd rs1 vs2 mk => some ⟨(mk ++ 0x2#4), vs2, rs1, 0x1#3, vd, 0x5b#7⟩
  | .vmulhVx vd rs1 vs2 mk => some ⟨(mk ++ 0x3#4), vs2, rs1, 0x1#3, vd, 0x5b#7⟩
  | .vmulhuVx vd rs1 vs2 mk => some ⟨(mk ++ 0x4#4), vs2, rs1, 0x1#3, vd, 0x5b#7⟩
  | .vminVx vd rs1 vs2 mk => some ⟨(mk ++ 0x5#4), vs2, rs1, 0x1#3, vd, 0x5b#7⟩
  | .vminuVx vd rs1 vs2 mk => some ⟨(mk ++ 0x6#4), vs2, rs1, 0x1#3, vd, 0x5b#7⟩
  | .vmaxVx vd rs1 vs2 mk => some ⟨(mk ++ 0x7#4), vs2, rs1, 0x1#3, vd, 0x5b#7⟩
  | .vmaxuVx vd rs1 vs2 mk => some ⟨(mk ++ 0x8#4), vs2, rs1, 0x1#3, vd, 0x5b#7⟩
  | .vandVx vd rs1 vs2 mk => some ⟨(mk ++ 0x9#4), vs2, rs1, 0x1#3, vd, 0x5b#7⟩
  | .vorVx vd rs1 vs2 mk => some ⟨(mk ++ 0xa#4), vs2, rs1, 0x1#3, vd, 0x5b#7⟩
  | .vxorVx vd rs1 vs2 mk => some ⟨(mk ++ 0xb#4), vs2, rs1, 0x1#3, vd, 0x5b#7⟩
  | .vsllVx vd rs1 vs2 mk => some ⟨(mk ++ 0xc#4), vs2, rs1, 0x1#3, vd, 0x5b#7⟩
  | .vsrlVx vd rs1 vs2 mk => some ⟨(mk ++ 0xd#4), vs2, rs1, 0x1#3, vd, 0x5b#7⟩
  | .vsraVx vd rs1 vs2 mk => some ⟨(mk ++ 0xe#4), vs2, rs1, 0x1#3, vd, 0x5b#7⟩
  | .vmergeVx vd rs1 vs2 mk => some ⟨(mk ++ 0xf#4), vs2, rs1, 0x1#3, vd, 0x5b#7⟩
  | .vfaddVv vd vs1 vs2 mk => some ⟨(mk ++ 0x0#4), vs2, vs1, 0x2#3, vd, 0x5b#7⟩
  | .vfsubVv vd vs1 vs2 mk => some ⟨(mk ++ 0x1#4), vs2, vs1, 0x2#3, vd, 0x5b#7⟩
  | .vfmulVv vd vs1 vs2 mk => some ⟨(mk ++ 0x2#4), vs2, vs1, 0x2#3, vd, 0x5b#7⟩
  | .vfdivVv vd vs1 vs2 mk => some ⟨(mk ++ 0x3#4), vs2, vs1, 0x2#3, vd, 0x5b#7⟩
  | .vfminVv vd vs1 vs2 mk => some ⟨(mk ++ 0x4#4), vs2, vs1, 0x2#3, vd, 0x5b#7⟩
  | .vfmaxVv vd vs1 vs2 mk => some ⟨(mk ++ 0x5#4), vs2, vs1, 0x2#3, vd, 0x5b#7⟩
  | .vfmaVv vd vs1 vs2 mk => some ⟨(mk ++ 0x6#4), vs2, vs1, 0x2#3, vd, 0x5b#7⟩
  | .vfmsVv vd vs1 vs2 mk => some ⟨(mk ++ 0x7#4), vs2, vs1, 0x2#3, vd, 0x5b#7⟩
  | .vfnmaVv vd vs1 vs2 mk => some ⟨(mk ++ 0x8#4), vs2, vs1, 0x2#3, vd, 0x5b#7⟩
  | .vfsqrt vd vs2 mk => some ⟨(mk ++ 0x9#4), vs2, 0x0#5, 0x2#3, vd, 0x5b#7⟩
  | .vfclass vd vs2 mk => some ⟨(mk ++ 0xa#4), vs2, 0x0#5, 0x2#3, vd, 0x5b#7⟩
  | .vfaddVf vd rs1 vs2 mk => some ⟨(mk ++ 0x0#4), vs2, rs1, 0x3#3, vd, 0x5b#7⟩
  | .vfsubVf vd rs1 vs2 mk => some ⟨(mk ++ 0x1#4), vs2, rs1, 0x3#3, vd, 0x5b#7⟩
  | .vfmulVf vd rs1 vs2 mk => some ⟨(mk ++ 0x2#4), vs2, rs1, 0x3#3, vd, 0x5b#7⟩
  | .vfdivVf vd rs1 vs2 mk => some ⟨(mk ++ 0x3#4), vs2, rs1, 0x3#3, vd, 0x5b#7⟩
  | .vfminVf vd rs1 vs2 mk => some ⟨(mk ++ 0x4#4), vs2, rs1, 0x3#3, vd, 0x5b#7⟩
  | .vfmaxVf vd rs1 vs2 mk => some ⟨(mk ++ 0x5#4), vs2, rs1, 0x3#3, vd, 0x5b#7⟩
  | .vfmaVf vd rs1 vs2 mk => some ⟨(mk ++ 0x6#4), vs2, rs1, 0x3#3, vd, 0x5b#7⟩
  | .vfmsVf vd rs1 vs2 mk => some ⟨(mk ++ 0x7#4), vs2, rs1, 0x3#3, vd, 0x5b#7⟩
  | .vfnmaVf vd rs1 vs2 mk => some ⟨(mk ++ 0x8#4), vs2, rs1, 0x3#3, vd, 0x5b#7⟩
  | .vcmpEq vd vs1 vs2 mk => some ⟨(mk ++ 0x0#4), vs2, vs1, 0x4#3, (0x0#2 ++ vd), 0x5b#7⟩
  | .vcmpNe vd vs1 vs2 mk => some ⟨(mk ++ 0x1#4), vs2, vs1, 0x4#3, (0x0#2 ++ vd), 0x5b#7⟩
  | .vcmpLt vd vs1 vs2 mk => some ⟨(mk ++ 0x2#4), vs2, vs1, 0x4#3, (0x0#2 ++ vd), 0x5b#7⟩
  | .vcmpLtu vd vs1 vs2 mk => some ⟨(mk ++ 0x3#4), vs2, vs1, 0x4#3, (0x0#2 ++ vd), 0x5b#7⟩
  | .vcmpLe vd vs1 vs2 mk => some ⟨(mk ++ 0x4#4), vs2, vs1, 0x4#3, (0x0#2 ++ vd), 0x5b#7⟩
  | .vcmpLeu vd vs1 vs2 mk => some ⟨(mk ++ 0x5#4), vs2, vs1, 0x4#3, (0x0#2 ++ vd), 0x5b#7⟩
  | .vfcmpEq vd vs1 vs2 mk => some ⟨(mk ++ 0x6#4), vs2, vs1, 0x4#3, (0x0#2 ++ vd), 0x5b#7⟩
  | .vfcmpLt vd vs1 vs2 mk => some ⟨(mk ++ 0x7#4), vs2, vs1, 0x4#3, (0x0#2 ++ vd), 0x5b#7⟩
  | .vfcmpLe vd vs1 vs2 mk => some ⟨(mk ++ 0x8#4), vs2, vs1, 0x4#3, (0x0#2 ++ vd), 0x5b#7⟩
  | .vfcmpUn vd vs1 vs2 mk => some ⟨(mk ++ 0x9#4), vs2, vs1, 0x4#3, (0x0#2 ++ vd), 0x5b#7⟩
  | .vmand vd vs1 vs2 mk => some ⟨(mk ++ 0xa#4), (0x0#2 ++ vs2), (0x0#2 ++ vs1), 0x4#3, (0x0#2 ++ vd), 0x5b#7⟩
  | .vmor vd vs1 vs2 mk => some ⟨(mk ++ 0xb#4), (0x0#2 ++ vs2), (0x0#2 ++ vs1), 0x4#3, (0x0#2 ++ vd), 0x5b#7⟩
  | .vmxor vd vs1 vs2 mk => some ⟨(mk ++ 0xc#4), (0x0#2 ++ vs2), (0x0#2 ++ vs1), 0x4#3, (0x0#2 ++ vd), 0x5b#7⟩
  | .vmnot vd vs2 mk => some ⟨(mk ++ 0xd#4), (0x0#2 ++ vs2), 0x0#5, 0x4#3, (0x0#2 ++ vd), 0x5b#7⟩
  | .vpopc rd vs2 mk => some ⟨(mk ++ 0xe#4), (0x0#2 ++ vs2), 0x0#5, 0x4#3, rd, 0x5b#7⟩
  | .vfirst rd vs2 mk => some ⟨(mk ++ 0xf#4), (0x0#2 ++ vs2), 0x0#5, 0x4#3, rd, 0x5b#7⟩
  | .vperm vd vs1 vs2 mk => some ⟨(mk ++ 0x0#4), vs2, vs1, 0x5#3, vd, 0x5b#7⟩
  | .vslideup vd rs1 vs2 mk => some ⟨(mk ++ 0x1#4), vs2, rs1, 0x5#3, vd, 0x5b#7⟩
  | .vslidedn vd rs1 vs2 mk => some ⟨(mk ++ 0x2#4), vs2, rs1, 0x5#3, vd, 0x5b#7⟩
  | .vbcast vd rs1 mk => some ⟨(mk ++ 0x3#4), 0x0#5, rs1, 0x5#3, vd, 0x5b#7⟩
  | .vcompress vd vs1 vs2 mk => some ⟨(mk ++ 0x4#4), vs2, vs1, 0x5#3, vd, 0x5b#7⟩
  | .vid vd mk => some ⟨(mk ++ 0x5#4), 0x0#5, 0x0#5, 0x5#3, vd, 0x5b#7⟩
  | .vclmul vd vs1 vs2 mk => some ⟨(mk ++ 0x6#4), vs2, vs1, 0x5#3, vd, 0x5b#7⟩
  | .vclmulh vd vs1 vs2 mk => some ⟨(mk ++ 0x7#4), vs2, vs1, 0x5#3, vd, 0x5b#7⟩
  | .vcvt vd code vs2 mk => some ⟨(mk ++ 0x0#4), vs2, code, 0x6#3, vd, 0x5b#7⟩
  | .vamax vd vs2 mk => some ⟨(mk ++ 0x1#4), vs2, 0x0#5, 0x6#3, vd, 0x5b#7⟩
  | .vscale vd fmt vs2 mk => some ⟨(mk ++ 0x2#4), vs2, fmt, 0x6#3, vd, 0x5b#7⟩
  | .vqlns vd vs1 vs2 mk => some ⟨(mk ++ 0x3#4), vs2, vs1, 0x6#3, vd, 0x5b#7⟩
  | .vdqlns vd vs1 vs2 mk => some ⟨(mk ++ 0x4#4), vs2, vs1, 0x6#3, vd, 0x5b#7⟩
  | .vqfp8 vd vs1 vs2 mk => some ⟨(mk ++ 0x5#4), vs2, vs1, 0x6#3, vd, 0x5b#7⟩
  | .vdqfp8 vd vs1 vs2 mk => some ⟨(mk ++ 0x6#4), vs2, vs1, 0x6#3, vd, 0x5b#7⟩
  | .vqsplit vd rs1 vs2 mk => some ⟨(mk ++ 0x7#4), vs2, rs1, 0x6#3, vd, 0x5b#7⟩
  | .vredsum vd vs1 vs2 mk => some ⟨(mk ++ 0x0#4), vs2, vs1, 0x7#3, vd, 0x5b#7⟩
  | .vredmax vd vs1 vs2 mk => some ⟨(mk ++ 0x1#4), vs2, vs1, 0x7#3, vd, 0x5b#7⟩
  | .vredmin vd vs1 vs2 mk => some ⟨(mk ++ 0x2#4), vs2, vs1, 0x7#3, vd, 0x5b#7⟩
  | .vredmaxu vd vs1 vs2 mk => some ⟨(mk ++ 0x3#4), vs2, vs1, 0x7#3, vd, 0x5b#7⟩
  | .vredminu vd vs1 vs2 mk => some ⟨(mk ++ 0x4#4), vs2, vs1, 0x7#3, vd, 0x5b#7⟩
  | .vfredsum vd vs1 vs2 mk => some ⟨(mk ++ 0x5#4), vs2, vs1, 0x7#3, vd, 0x5b#7⟩
  | .vfredmax vd vs1 vs2 mk => some ⟨(mk ++ 0x6#4), vs2, vs1, 0x7#3, vd, 0x5b#7⟩
  | .vfredmin vd vs1 vs2 mk => some ⟨(mk ++ 0x7#4), vs2, vs1, 0x7#3, vd, 0x5b#7⟩
  | .vld vd rs1 mk => some ⟨(mk ++ 0x0#4), 0x0#5, rs1, 0x0#3, vd, 0x7b#7⟩
  | .vldSt vd rs1 rs2 mk => some ⟨(mk ++ 0x1#4), rs2, rs1, 0x0#3, vd, 0x7b#7⟩
  | .vldIx vd rs1 vs2 mk => some ⟨(mk ++ 0x2#4), vs2, rs1, 0x0#3, vd, 0x7b#7⟩
  | .vldBc vd rs1 mk => some ⟨(mk ++ 0x3#4), 0x0#5, rs1, 0x0#3, vd, 0x7b#7⟩
  | .vst vs3 rs1 mk => some ⟨(mk ++ 0x0#4), 0x0#5, rs1, 0x1#3, vs3, 0x7b#7⟩
  | .vstSt vs3 rs1 rs2 mk => some ⟨(mk ++ 0x1#4), rs2, rs1, 0x1#3, vs3, 0x7b#7⟩
  | .vstIx vs3 rs1 vs2 mk => some ⟨(mk ++ 0x2#4), vs2, rs1, 0x1#3, vs3, 0x7b#7⟩
  | .vstBc vs3 rs1 mk => some ⟨(mk ++ 0x3#4), 0x0#5, rs1, 0x1#3, vs3, 0x7b#7⟩
  | .vmovi vd vs2 => some ⟨0x0#7, vs2, 0x0#5, 0x2#3, vd, 0x7b#7⟩
  | .vmoviw vs3 vs2 => some ⟨0x1#7, vs2, 0x0#5, 0x2#3, vs3, 0x7b#7⟩
  | .vrdx vd rs1 => some ⟨0x2#7, 0x0#5, rs1, 0x2#3, vd, 0x7b#7⟩
  | .vwrx vs3 rs1 => some ⟨0x3#7, 0x0#5, rs1, 0x2#3, vs3, 0x7b#7⟩
  | .vsetl rd rs1 etype => some ⟨0x0#7, etype, rs1, 0x3#3, rd, 0x7b#7⟩
  | .vextract rd rs1 vs2 => some ⟨0x1#7, vs2, rs1, 0x3#3, rd, 0x7b#7⟩
  | .vinsert vd rs1 rs2 => some ⟨0x2#7, rs2, rs1, 0x3#3, vd, 0x7b#7⟩
  | .mxcfg rs1 target => some ⟨0x0#7, target, rs1, 0x7#3, 0x0#5, 0x7b#7⟩
  | .mxgrant rs1 => some ⟨0x1#7, 0x0#5, rs1, 0x7#3, 0x0#5, 0x7b#7⟩
  | .mxld buf rs1 target => some ⟨0x2#7, target, rs1, 0x7#3, (0x0#3 ++ buf), 0x7b#7⟩
  | .mxmac acc bufA bufB target => some ⟨0x3#7, target, (0x0#1 ++ bufB ++ bufA), 0x7#3, (0x0#2 ++ acc), 0x7b#7⟩
  | .mxmacs acc bufA bufB target => some ⟨0x4#7, target, (0x0#1 ++ bufB ++ bufA), 0x7#3, (0x0#2 ++ acc), 0x7b#7⟩
  | .mxst acc rs1 target => some ⟨0x5#7, target, rs1, 0x7#3, (0x0#2 ++ acc), 0x7b#7⟩
  | .mxzero acc target => some ⟨0x6#7, target, 0x0#5, 0x7#3, (0x0#2 ++ acc), 0x7b#7⟩
  | .mxdup rs1 target => some ⟨0x7#7, target, rs1, 0x7#3, 0x0#5, 0x7b#7⟩
  | .mxsync target => some ⟨0x8#7, target, 0x0#5, 0x7#3, 0x0#5, 0x7b#7⟩
  | .integerArithmetic o => some (encodeInt o)
  | .branch k a b x =>
    let f3 : BitVec 3 := match k with
      | .beq => 0 | .bne => 1 | .blt => 4 | .bge => 5 | .bltu => 6 | .bgeu => 7
    some ⟨x.extractLsb' 12 1 ++ x.extractLsb' 5 6, b, a, f3, x.extractLsb' 1 4 ++ x.extractLsb' 11 1, 0x63⟩
  | .jump (.jal d x) =>
    some ⟨x.extractLsb' 20 1 ++ x.extractLsb' 5 6, x.extractLsb' 1 4 ++ x.extractLsb' 11 1, x.extractLsb' 15 5,
      x.extractLsb' 12 3, d, 0x6F⟩
  | .jump (.jalr d a x) => some ⟨x.extractLsb' 5 7, x.extractLsb' 0 5, a, 0, d, 0x67⟩
  | .fpArithmetic o => some (encodeFp o)
  | .xret m => some ⟨(if m then 24 else 8), 2, 0, 0, 0, 0x73⟩
  | .illegalInstructionWord w => some (split w)
  | .registerWrite | .qvtypeWrite | .qvwinWrite | .qvstatAccess | .cspartWrite | .cspartChangeEnd
  | .qmquotaWrite | .quotaReachSlice | .doorbell | .preempt | .dbgHalt | .dbgFhalt
  | .dbgResume | .dbgStep | .dbgRead | .dbgWrite | .dbgDump | .dbgAttach
  | .dbgDetach | .ttEnableWrite | .sampctlWrite | .sessionWrite | .hostBar2Request | .hostCxlMemAccess
  | .contextReinsertion | .storeBufferEntryPerform | .laneGroupGrant | .homeRequestArrival | .missBufferSlotEntry | .writebackMerge
  | .remoteScratchpadAccess | .accSendArrival | .accApply | .accRefusalReturn | .accAcceptReturn | .residualTimerFlush
  | .quotaWindowRefill | .tileHomeRequest | .tileForwardStart | .tilePushArrival | .copyComplete | .phaserBytesDecrement
  | .copyFaultEnd | .stackCommandComplete | .mxConfigQuery | .mxCommandArrival | .mxCommandStart | .mxCommandComplete
  | .mxCommandFault | .packetArrival | .shuttleBatchTimeout | .shuttleBatchArrival | .launchSlotTake | .launchStart
  | .taskDispatch | .steal | .counterDecrement | .priorityDisplacement | .stagingAdmit | .stagingEntryComplete
  | .stagingDeadline | .stgreqAdmitTimeout | .contextSave | .contextRestore | .park | .deferredPark
  | .wrsTimeout | .falignBudgetExpiry | .requestTimeout | .snoopHostTimeout | .ttSlotFire | .holdTimeout
  | .samplingPulse | .compareEntry | .sealedCopyEnd | .clusterPowerGating | .dieClockStep | .dieThermalStop
  | .securityAlarm | .ptpMasterLoss | .moduleReset | .powerGatingWake | .tdiLock | .ieee1588Discipline => none

/-- The encoder: the word of an instruction that has one. -/
def encode (i : Instr) : Option (BitVec 32) := (encodeFields i).map Fields.join

/-- The word of an instruction, as a trap value (R76: for cause 2, stval holds the instruction word). -/
def wordOf (i : Instr) : Word := ((encode i).getD 0).setWidth 64

end Sys2Proof
end

