-- ==== Sys2Proof/Config.lean ====
section
/-! DEFINITION. What an implementation fixes and the values the spec leaves open. Every opaque constant here is a FREE
VALUE: it has no body, so no proof can learn it, and a claim about it holds whatever it is. -/

namespace Sys2Proof.Config

/-- How many nanoseconds of the timebase one machine step takes, when the schedule names none (R401 fixes no such time).
DESIGN CHOICE, log entry 5: the free value is applied to the step counter. -/
opaque freeNs : Nat → Nat

/-- How many 3.0 GHz arithmetic cycles one machine step takes, when the schedule names none (R401). DESIGN CHOICE, log entry 5. -/
opaque freeCycles : Nat → Nat

/-- The set of an L2 that a line maps to (R178 gives 16 ways and no index function), taken modulo the 4,096 sets. DESIGN CHOICE, log
entry 12. -/
opaque freeSet : Nat → Nat

/-- Which of the free ways of its set a fill takes, applied to the line (R178: software cannot predict which lines lie in the ways that
pass to the scratchpad). DESIGN CHOICE, log entry 20. -/
opaque freeWay : Nat → Nat

/-- Which host port serves a line of the host window, where the two ports differ in running CXL.cache (R36 speaks of a host port and gives
no map). DESIGN CHOICE, log entry 62. -/
opaque freePort : Nat → Bool

/-- How the mask of up to 128 bytes that differ is held in the one 64-bit word that a divergence event has for it (R383 gives no such
packing). DESIGN CHOICE, log entry 19. -/
opaque freeDiffMask : BitVec 128 → Word

/-- The address of the exit stub that ra holds at a thread's start: R127 names the stub and gives no address. DESIGN CHOICE, log
entry 17. -/
opaque exitStub : Word

/-- Which of several results that apply an instruction gives, where the spec does not order them: an index, applied to the free-value
counter. DESIGN CHOICE, log entry 21. -/
opaque freePick : Nat → Nat

/-- The cause that a matrix-fault record names where R277 gives an accepted command an end without giving its cause: 0 a bad sparsity byte,
1 a disabled alias, 2 an alias format that fails R270. DESIGN CHOICE, log entry 24. -/
opaque freeMxCause : Nat → Nat

/-- The reason that a sealed copy's failure record holds where its source stops answering (R391 names none). DESIGN CHOICE, log entry 26. -/
opaque freeReason : Nat → BitVec 4

/-- How far the timebase's own oscillator is off while no master disciplines it; R393 gives only the bound of 5 ppm. DESIGN CHOICE, log
entry 27. -/
opaque freeDrift : Nat → Nat

/-- The MODE bit of a loop that M mode arms: R110 gives MODE a value for U and S only. DESIGN CHOICE, log entry 23. -/
opaque freeLoopMode : Bool

/-- Entries of one core's store buffer (R99). -/
def storeBufferSize : Nat := 16
/-- Entries of one core's vector queue (R135). -/
def vectorQueueSize : Nat := 16
/-- Hem entries of one core (R240). -/
def hemSize : Nat := 16
/-- Operations the copy queue of a cluster holds (R286). -/
def copyQueueSize : Nat := 64
/-- Commands a matrix engine's queue holds (R254). -/
def mxQueueSize : Nat := 32
/-- Units of one event queue (R357). -/
def eventQueueUnits : Nat := 64
/-- Posted-receive slots of one core (R351). -/
def slotCount : Nat := 64
/-- Packets the overflow queue of a cluster holds (R351). -/
def overflowSize : Nat := 256
/-- Queues a shuttle shadows at once, and entries of one shadow (R355). -/
def shadowCount : Nat := 8
def shadowSize : Nat := 128
/-- Hardware entries of one bobbin (R316). -/
def bobbinSize : Nat := 32
/-- Sets of one cluster's L2: 8 MiB in 16 ways of 128-byte lines (R178), and the most keep lines of a set (R187). -/
def l2Sets : Nat := 4096
def keepWays : Nat := 12
/-- Tile entries, and stitch pointers with seam records, of one slice (R211). -/
def tileEntries : Nat := 8192
def tilePointers : Nat := 65536
/-- Request slots of one home slice, and entries of one cluster's miss buffer (R181). -/
def requestSlots : Nat := 16
def missBufferSize : Nat := 64

/-- Counts of R6: cores, clusters, dies, home slices and HBM4E stacks of the full module. -/
def coreCount : Nat := 8192
def clusterCount : Nat := 2048
def dieCount : Nat := 16
def sliceCount : Nat := 64
def stackCount : Nat := 32

end Sys2Proof.Config
end

