-- ==== Sys2Proof/Machine/State.lean ====
section
/-! DEFINITION. The state of the whole module, as plain data: every context, core, cluster, die, slice and stack engine, the
memory, and what is on its way between them. Tables that are indexed by a unit number are lists of (number, value) pairs in
rising order; a number that is not listed has the unit's reset value (`Ctx.reset`, `Core.reset` and so on). -/

namespace Sys2Proof.Machine

/-- A table from a unit number to a value, in rising order of number. -/
abbrev Table (α : Type) := List (Nat × α)

/-- Home memory: the bytes that differ from what an unlisted address reads as, in rising order of address. -/
abbrev Memory := List Host.Cell

/-- The privilege modes (R112). -/
inductive Priv | u | s | m
  deriving DecidableEq, Repr

/-- The states of a context (R95). -/
inductive CtxStatus | idle | running | waiting | frozen | reserved
  deriving DecidableEq, Repr

/-- The memory types (R24). -/
inductive MemType | scratch | hbm | sw | peer | host | io
  deriving DecidableEq, Repr

/-- A translation as an access captures it: the physical address, the memory type, the home fields HDIE and IL of the leaf PTE
(R182, R183), the T bit, whether the mapping grants write permission, the log2 of the page size and the address of the PTE. -/
structure Xlat where
  va : Nat
  pa : Nat
  mt : MemType
  hdie : BitVec 4
  il : BitVec 2
  tile : Bool
  writable : Bool
  lg : Nat
  pteAddr : Nat
  deriving DecidableEq, Repr

/-- A translation a cluster's TLBs hold (R191): the page's virtual base and log2 size, its ASID and G bit, and the leaf PTE. -/
structure TlbEntry where
  va : Nat
  lg : Nat
  asid : Nat
  glob : Bool
  pte : Word
  pteAddr : Nat
  deriving DecidableEq, Repr

/-- The translations of an operation, one per page, captured when it is issued (R191). -/
abbrev Pages := List Xlat

/-- A line in a cluster's L2 (R179, R180, R214): its data, the sectors that are valid, the bytes that are dirty, its tensor
tag (R186), whether it was filled as SW memory, which no other cluster's coherence reaches (R35), and the slice that homed its fill
(R184). Its allocation class as the fill took it (R187), a stamp that is higher the more recently the line was used, and the way it
lies in (R178). -/
structure L2Line where
  data : LineData
  valid : BitVec 8
  dirty : BitVec 128
  tid : BitVec 12
  sw : Bool
  home : Nat
  cls : BitVec 2
  used : Int
  way : Nat
  deriving DecidableEq, Repr

/-- A line that replacement has taken from an L2 and whose dirty bytes are on their way home (R180), with the context and task that
a timeout of the write-back names (R196), and when it left. -/
structure Victim where
  line : Nat
  l : L2Line
  cid : Nat
  task : Word
  since : Nat
  deriving DecidableEq, Repr

/-- Why a context is out of the rotation (R17, R98, R116). `reply` is a wait for a reply (R98), which is not a blocking wait. -/
inductive WaitKind
  | phwait | pharvW | mrecv | qpop | bhwait | hjoin | evwait | wrsNto | wrsSto | falign | hexit | reply
  deriving DecidableEq, Repr

/-- A wait that has begun: its kind, its operands as the save record holds them (R116), the register its result goes to, the
translated object it waits on, and the moment a time limit ends it. -/
structure Wait where
  kind : WaitKind
  op0 : Word
  op1 : Word
  rd : Reg
  obj : Xlat
  since : Nat
  deadline : Option Nat
  deriving DecidableEq, Repr

/-- The arrival that ended a wait (R17, R19): its producer's task and code (R363), its time, and the value it brings. -/
structure Wake where
  task : Word
  code : BitVec 32
  arrival : Nat
  value : Word
  timedOut : Bool
  deriving DecidableEq, Repr

/-- An LR reservation (R102): the address the LR named, its size, and the reserving cluster. -/
structure Reservation where
  pa : Nat
  size : Nat
  deriving DecidableEq, Repr

/-- One breakpoint register: its three words (R372). -/
structure Breakpoint where
  addr : Word
  ctl : Word
  mask : Word
  deriving DecidableEq, Repr

/-- A task entry: a task record (R314) with its identity, the index it has reached, its launch, and what its start record
names (R364). Bobbins, ready queues and dispatched contexts all hold task entries. -/
structure TaskEntry where
  id : Word
  recVa : Word
  entry : Word
  arg0 : Word
  arg1 : Word
  cur : Nat
  hi : Nat
  grain : Nat
  ctl : BitVec 32
  ws : Word
  succ : Word
  satp : Word
  launch : Nat
  running : Option Nat
  stack : Option Nat
  tReady : Nat
  /-- producer task, producer code and arrival of its next start record, and its RTYPE (11 or 12), or 0 where its next start makes none (R364) -/
  prodTask : Word
  prodCode : BitVec 32
  prodAt : Nat
  rtype : Nat
  /-- when it was dispatched (R310: oldest dispatch first) -/
  dispatched : Nat
  /-- the key of its saved context, if it was pre-empted or parked -/
  saved : Option Nat
  /-- staging status as qtstg shows it (R329) -/
  stg : Word
  /-- set when a steal took it: it is not staged again (R330) -/
  stolen : Bool
  deriving DecidableEq, Repr

/-- A pre-emption request a context is stopping for (R114, R310); a displacement names the waiting task it is made for. -/
structure StopReq where
  hold : Bool
  gang : Bool
  forTask : Option Word
  /-- the context is to end without a save (R313, R337) -/
  kill : Bool
  deriving DecidableEq, Repr

/-- An exception that froze a context: under hold (R377), or a park that waits for room (R332). -/
structure Held where
  cause : Nat
  stval : Word
  since : Nat
  parking : Bool
  deriving DecidableEq, Repr

/-- The forms of an accumulate (R233). -/
inductive AccForm | f | x | i
  deriving DecidableEq, Repr

/-- An accumulate send (R233, R236): its sender (98,304 + 48 × host port for one of another module), destination, addends, carried flags (XNV XOV FNV
FOF FUF FNX, as SACCST numbers them), age, t0, whether it is forced, and when it was sent. -/
structure AccSend where
  cid : Nat
  form : AccForm
  dst : Xlat
  data : LineData
  flags : BitVec 6
  age : Nat
  t0 : Nat
  forced : Bool
  asid : Nat
  tid : BitVec 12
  task : Word
  sent : Nat
  deriving DecidableEq, Repr

/-- A hem entry (R240). `out` counts its unforced sends that have no answer yet. -/
structure HemEntry where
  cid : Nat
  form : AccForm
  dst : Xlat
  residual : Option LineData
  flags : BitVec 6
  age : Nat
  t0 : Nat
  asid : Nat
  out : Nat
  tid : BitVec 12
  task : Word
  deriving DecidableEq, Repr

/-- An accumulate captured in a vector queue (R233): the destination, the scale and the addends as the register stands at its
place in program order. -/
structure AccOp where
  form : AccForm
  dst : Xlat
  data : LineData
  scale : Int
  asid : Nat
  tid : BitVec 12
  task : Word
  deriving DecidableEq, Repr

/-- An entry of a core's vector queue (R135, R137): the lane groups whose portion has not started, the arithmetic cycle at which its
started portions have finished, its cost, whether it is cross-lane, the accumulate it carries, if it is one, and the window that it was
issued with (R141). -/
structure VEntry where
  cid : Nat
  todo : BitVec 8
  ends : Nat
  cost : Nat
  cross : Bool
  acc : Option AccOp
  base : Nat
  size : Nat
  deriving DecidableEq, Repr

/-- One lane group's arbiter (R138), and the arithmetic cycle at which the group frees. -/
structure LaneGroup where
  ptr : Nat
  fresh : Bool
  d0 : Nat
  d1 : Nat
  d2 : Nat
  d3 : Nat
  busy : Nat
  deriving DecidableEq, Repr

/-- What a store-buffer entry does when it is performed (R99). -/
inductive SBKind
  /-- a store of `n` bytes at `x` -/
  | store (x : Xlat) (n : Nat) (data : Word)
  /-- WBR, INVR or WBINVR over the pieces of its range (R201): (translation, bytes) -/
  | range (inv : Bool) (pieces : List (Xlat × Nat))
  /-- the rest of such an operation, whose write-backs of these lines are on their way to a peer that does not answer (R196, R201) -/
  | written (lines : List Nat)
  /-- DISCT of a tensor ID (R202) -/
  | disct (t : BitVec 12)
  /-- TREL of the tile at `pa` (R221) -/
  | trel (pa : Nat)
  /-- TFWD of the tile at `pa`, named `va` and homed at a slice, to a core (R222); `started` once its push is on its way (R231) -/
  | tfwd (pa home : Nat) (va : Word) (dst : Nat) (started : Bool)
  /-- CPSTEP to a stage of a launch's pattern (R293) -/
  | cpstep (launch : Nat) (stage : Nat)
  /-- CPMARK of a step (R365) -/
  | cpmark (step : BitVec 32)
  /-- TRACE of a user record (R365) -/
  | trace (w0 w1 : Word)
  deriving DecidableEq, Repr

/-- A store-buffer entry: its context, whether it is a release that waits for the context's earlier events, its issuer, and since when a
posted request of it is on its way (R196). `vec` is of an element of a vector store: the key of its instruction and the element (R164). -/
structure SBEntry where
  cid : Nat
  rel : Bool
  kind : SBKind
  pc : Word
  task : Word
  tid : BitVec 12
  since : Nat
  vec : Option (Nat × Nat)
  deriving DecidableEq, Repr

/-- A vector store whose posted elements are on their way (R164): its key, its issuer, the failed elements so far (element, cause, physical
address), and how many elements are still to be performed or to fail. -/
structure VecStore where
  key : Nat
  cid : Nat
  task : Word
  pc : Word
  fails : List (Nat × Nat × Nat)
  left : Nat
  deriving DecidableEq, Repr

/-- An event-queue record (R357, R358) with the producer an EVWAIT edge names for it (R360). -/
structure EvRecord where
  typ : Nat
  cause : Nat
  time : Nat
  task : Word
  words : List Word
  prodTask : Word
  prodCode : BitVec 32
  deriving DecidableEq, Repr

/-- A message packet (R349). -/
structure Packet where
  beats : List (BitVec 128)
  tag : BitVec 32
  sender : Nat
  task : Word
  dst : Nat
  deriving DecidableEq, Repr

/-- A posted-receive slot (R350, R351): its owner, its match fields, the captured translations of its buffer and descriptor,
its place in posting order, and what it received. -/
structure Slot where
  owner : Nat
  seq : Nat
  tag : BitVec 32
  tagMask : BitVec 32
  src : BitVec 17
  srcMask : BitVec 17
  buf : Pages
  bufVa : Nat
  desc : Xlat
  /-- the tensor ID of the context that posted it (R186) -/
  tid : BitVec 12
  beats : Option Nat
  sender : Nat
  task : Word
  time : Nat
  deriving DecidableEq, Repr

/-- An entry of a shuttle's shadow (R355): value, pusher, push time and producer code. -/
structure ShadowEntry where
  v : Word
  task : Word
  time : Nat
  code : BitVec 32
  deriving DecidableEq, Repr

/-- A shuttle's shadow of one queue (R355); `sent` is how many of its oldest entries are in a batch on its way. -/
structure Shadow where
  queue : Xlat
  entries : List ShadowEntry
  sent : Nat
  deriving DecidableEq, Repr

/-- A handle of the buffer table (R284), with the engine or task that last changed it and when (R289), and the bytes of the scratchpad that a sealed
copy hides while it fills (R390). -/
structure Handle where
  st : BitVec 2
  err : Bool
  task : Word
  code : BitVec 32
  time : Nat
  veil : List (Nat × Nat)
  deriving DecidableEq, Repr

/-- Where an operation reports its completion (R15): a handle of a cluster, or a phaser. -/
inductive Target
  | handle (g h : Nat) (w : Word)
  | phaser (x : Xlat)
  deriving DecidableEq, Repr

/-- An operation of a copy engine (R285 to R287): `done` destination bytes performed, `off` source bytes consumed (.dc). A
sealed copy names its session (R390) and its turn there (R391); a pattern entry names its launch (R291). `since` is when it was accepted. -/
structure CopyOp where
  src : Word
  dst : Word
  n : Nat
  dc : Bool
  target : Target
  srcPages : Pages
  dstPages : Pages
  cid : Nat
  task : Word
  pc : Word
  tid : BitVec 12
  done : Nat
  off : Nat
  sealedBy : Option Nat
  failed : Option Nat
  launch : Option Nat
  since : Nat
  turn : Nat
  deriving DecidableEq, Repr

/-- The four stack-engine commands (R295). -/
inductive StackOp | gath | red | conv | gemv
  deriving DecidableEq, Repr

/-- A stack-engine command: its descriptor, HSRED's source addresses and the captured translations (R298), the address space and mode under which
HSGATH's rows translate, the units (rows, elements or blocks) and bytes performed, the flags so far (R296), and when it was sent. `rows` are the
translations of the table rows that it has read (R191, R298). -/
structure StackCmd where
  op : StackOp
  desc : BitVec 512
  descAt : Xlat
  target : Target
  srcs : List Nat
  pages : Pages
  satp : Word
  priv : Priv
  sum : Bool
  mxr : Bool
  cid : Nat
  task : Word
  pc : Word
  units : Nat
  done : Nat
  flags : BitVec 7
  since : Nat
  rows : Pages
  deriving DecidableEq, Repr

/-- A loaded operand buffer (R254, R258): each row's format, with the stored code and scale code of each of its positions; a position that
sparsity leaves out holds a zero (R261). `view` marks a load through an alias view. `fault` is set when the load that should have filled
it failed (R277). -/
structure MxBuf where
  view : Bool
  rows : List (BitVec 5 × List (Nat × Nat))
  fault : Option (Nat × Nat)
  deriving DecidableEq, Repr

/-- The matrix commands (R266). -/
inductive MxOp
  | cfg (block : BitVec 512)
  | grant (key : Word)
  | ld (buf : Nat) (ea : Word)
  | mac (sparse : Bool) (acc bufA bufB : Nat)
  | st (acc : Nat) (ea : Word)
  | zero (acc : Nat)
  | dup (map : List (List Nat))
  | sync
  deriving DecidableEq, Repr

/-- A matrix command: what it does, the configuration and translations it was checked under (R402), its issuer, whether
it has started (R275), and when it was sent. In a context's request `started` marks an MXSYNC that has been accepted and whose answer is
still to come (R274). -/
structure MxCmd where
  op : MxOp
  cfg : BitVec 512
  gen : Nat
  pages : Pages
  cid : Nat
  task : Word
  pc : Word
  tid : BitVec 12
  started : Bool
  since : Nat
  deriving DecidableEq, Repr

/-- A matrix engine (R254, R276, R402). -/
structure Mx where
  cfg : BitVec 512
  gen : Nat
  /-- element (row × 64 + column) of accumulator d at key d × 4096 + that; unlisted elements are +0 -/
  acc : Table (BitVec 64)
  bufs : Table MxBuf
  map : List (List Nat)
  key : Word
  queue : List MxCmd
  /-- MXFLAGS NV OF UF NX -/
  flags : BitVec 4
  deriving DecidableEq, Repr

/-- A matrix instruction that first asks for the target's configuration (R402), with its address. -/
inductive MxAsk
  | ld (buf : Nat) (ea : Word)
  | st (acc : Nat) (ea : Word)
  | dup (ea : Word)
  deriving DecidableEq, Repr

/-- A request that a context's instruction has sent and waits on (R98): a matrix query, a matrix command, or a packet. -/
inductive Request
  | mxQuery (target : Nat) (cap : Word) (ask : MxAsk)
  | mxCmd (target : Nat) (cap : Word) (cmd : MxCmd)
  | packet (p : Packet)
  /-- a memory request whose home does not answer: it can end only by timeout (R196) -/
  | mute (pa : Nat) (die : Nat)
  /-- an instruction of R98 that has left the rotation: the address of its memory request, if it has one, and the home slice that this goes to;
  once the context runs again the instruction retires -/
  | access (i : Instr) (pa : Option Nat) (home : Option Nat)
  /-- a QPUSH that waits for room in a shadow, or a QFLUSH that waits until `left` more entries are valid at home (R356); the wait's object is the
  queue -/
  | room (i : Instr) (left : Nat)
  deriving DecidableEq, Repr

/-- A context (R94, R112, R116): its registers, CSRs, vector state that is its own, and what it is waiting for. -/
structure Ctx where
  status : CtxStatus
  priv : Priv
  pc : Word
  x : Vector Word 32
  f : Vector Word 32
  fflags : BitVec 5
  frm : BitVec 3
  mstatus : Word
  stvec : Word
  sscratch : Word
  sepc : Word
  scause : Word
  stval : Word
  satp : Word
  scounteren : BitVec 32
  senvcfg : Word
  mtvec : Word
  medeleg : Word
  mideleg : Word
  mscratch : Word
  mepc : Word
  mcause : Word
  mtval : Word
  mcounteren : BitVec 32
  menvcfg : Word
  mcountinhibit : BitVec 32
  pmpcfg : Vector Byte 16
  pmpaddr : Vector Word 16
  instret : Word
  qtid : Word
  qvtype : Word
  qvwin : Word
  qvrot : Word
  qmxcap : Word
  qtensid : Word
  qvstat : Word
  qloop : Word
  loopStart : Word
  qprio : Word
  /-- the PRIO that qprio may not exceed (R324) -/
  prioMax : BitVec 3
  qfdisp : Word
  qtstg : Word
  /-- m1 to m7; m0 is not stored (R144) -/
  masks : Vector (BitVec 1024) 7
  bp : Vector Breakpoint 4
  reservation : Option Reservation
  /-- who ended the last reservation, and when: the producer of a WRS edge (R103) -/
  lostBy : Option Wake
  /-- the open packet, oldest beat first (R349) -/
  packet : Option (List (BitVec 128))
  /-- the launch it runs for, by key; 0 when none -/
  launch : Nat
  /-- its rank in the placement (control contexts) -/
  rank : Nat
  /-- the dispatched task it runs -/
  task : Option TaskEntry
  hstarted : Bool
  wait : Option Wait
  wake : Option Wake
  request : Option Request
  stop : Option StopReq
  /-- a debugger's drain halt is pending (R118), or one instruction is to be stepped (R376) -/
  haltReq : Bool
  stepReq : Bool
  claimed : Bool
  held : Option Held
  /-- the halt record's mark that a result was lost or an outcome is unknown (R119) -/
  lost : Bool
  deriving DecidableEq, Repr

/-- The state of a core that its contexts share. -/
structure Core where
  storeBuffer : List SBEntry
  /-- posted messages to remote scratchpad on their way (R34), and the vector stores that some of them belong to -/
  posted : List SBEntry
  vecStores : List VecStore
  icache : Table LineData
  /-- unread exit latches, by context (R108) -/
  latches : Table Word
  qcsave : Word
  qswin : Vector Word 4
  qdeqbase : Word
  qdeqsize : Word
  /-- the bobbin's hardware entries, oldest first (R316) -/
  bobbin : List TaskEntry
  /-- what the core keeps beside the records of its overflow ring, oldest first (launch, start record), and the satp under which the ring
  was last written (R317) -/
  ring : List TaskEntry
  ringSatp : Word
  evq : List EvRecord
  evLost : BitVec 32
  slots : Table Slot
  slotSeq : Nat
  hem : List HemEntry
  refused : BitVec 32
  vq : List VEntry
  /-- the next slot of the rotation (R97) -/
  turn : Nat
  /-- when a helper slot last became Idle (R310) -/
  freed : Nat
  /-- stolen tasks on their way to a helper slot of the core, which each has claimed (R318, R319): (context, task) -/
  arriving : List (Nat × TaskEntry)
  deriving DecidableEq, Repr

/-- The state of a cluster that its cores share. -/
structure Cluster where
  spways : BitVec 4
  busy : Bool
  nextWays : BitVec 4
  aliascfg : Vector Word 8
  handles : Table Handle
  l2 : Table L2Line
  /-- dirty lines that replacement took, on their way home, oldest first -/
  victims : List Victim
  tlb : List TlbEntry
  vreg : Table VReg
  qmvwt : Word
  groups : Vector LaneGroup 8
  mx : Mx
  copies : List CopyOp
  overflow : List Packet
  shadows : List Shadow
  /-- staging fills on their way to a home (R328, R294): (line, translation, tensor ID, exclusive) -/
  fills : List (Xlat × BitVec 12 × Bool)
  gated : Bool
  /-- since when every context has been Idle, for power gating (R397) -/
  idleSince : Nat
  /-- the core of the cluster whose stagings come next (R328) -/
  stageTurn : Nat
  deriving DecidableEq, Repr

/-- A counter decrement that a dispatcher is to perform (R320). -/
structure Decrement where
  counter : Word
  satp : Word
  task : Word
  core : Nat
  launch : Nat
  deriving DecidableEq, Repr

/-- One entry of a working-set declaration as it is staged (R327, R328); `evict` marks one in flight whose staging was cancelled: its lines go in
first to evict (R330). -/
structure StageEntry where
  x : Xlat
  len : Nat
  write : Bool
  scratch : Bool
  spoff : Nat
  pages : Pages
  started : Bool
  done : Bool
  cancelled : Bool
  evict : Bool
  deriving DecidableEq, Repr

/-- A staging: a task's working set, or a STGREQ (R294, R328, R329), and when its last entry was fetched or cancelled. -/
structure Staging where
  core : Nat
  task : Option Word
  entries : List StageEntry
  tid : BitVec 12
  since : Nat
  deadline : Nat
  admitted : Bool
  expired : Bool
  ended : Option Nat
  deriving DecidableEq, Repr

/-- A launch queue that a die serves: its header's translation (R308, R311), when its last doorbell was performed and by which host port (R363), and
the notices that LAUNCH sent with the slots it wrote (R336): slot count, issuer, moment of enqueue, and the issuer's task. -/
structure ServedQueue where
  header : Nat
  hdie : BitVec 4
  il : BitVec 2
  rung : Nat
  port : Nat
  notices : List (Nat × Nat × Nat × Word)
  deriving DecidableEq, Repr

/-- The state of a die's dispatcher, recording unit and debug block. -/
structure Die where
  fqbase : Word
  fqsize : BitVec 16
  fqhead : BitVec 16
  fqtail : BitVec 16
  kcore : BitVec 13
  dropped : BitVec 32
  queues : List ServedQueue
  ready : List TaskEntry
  decrements : List Decrement
  stagings : List Staging
  rbbase : Word
  logn : BitVec 5
  en : Bool
  wrap : Bool
  tail : BitVec 32
  head : BitVec 32
  zerowait : Word
  recDropped : BitVec 32
  step : BitVec 32
  t0 : Word
  data : Word
  dbgBusy : Option Nat
  result : BitVec 3
  den : Bool
  holdtmo : BitVec 40
  dumpbase : Word
  dumpsize : BitVec 16
  dumpnext : BitVec 16
  hitctx : BitVec 17
  hit : Bool
  lbp : Vector Breakpoint 4
  lbpsel : Word
  mhz : Nat
  stopped : Bool
  /-- the cycle count at the last change of clock, and the 3.0 GHz cycle at which it was taken -/
  cycBase : Nat
  cycAt : Nat
  deriving DecidableEq, Repr

/-- A request at a home slice (R181): its cluster, its context if it is a demand request, and the fill if it is one of working-set staging. `elem`
marks the element read of a vector load that has retired (R204). -/
structure SlotReq where
  g : Nat
  cid : Nat
  fill : Option (Xlat × BitVec 12 × Bool)
  elem : Bool
  deriving DecidableEq, Repr

/-- The state of a home slice (R181, R185, R236 to R239). A source of the token bucket is a cluster, or 2048 + host port. -/
structure Slice where
  /-- requests in the request slots -/
  held : List SlotReq
  /-- requests that wait for a slot in a cluster's miss buffer, oldest first -/
  waiting : List SlotReq
  peak : BitVec 5
  waits : BitVec 32
  accst : BitVec 6
  refusals : BitVec 32
  /-- tokens each source has used in the current window -/
  used : Table Nat
  q : BitVec 8
  w : BitVec 16
  d : BitVec 4
  /-- the quota values that have not reached this slice, with when they were written, and a Q that waits for the window boundary (R237) -/
  unreached : List (Nat × Word)
  nextQ : Option (BitVec 8)
  /-- the moment for which the buckets were last brought up to date -/
  window : Nat
  /-- accepted sends not yet applied, in order of acceptance; forced ones that wait for a reserved slot (R239) -/
  pend : List AccSend
  forcedWait : List AccSend
  deriving DecidableEq, Repr

/-- The states of a tile (R212). -/
inductive TileState | h | s | e | m | f
  deriving DecidableEq, Repr

/-- A declared tile (R208, R209): its descriptor, the translations of its pages, the sectors it covers per line, its home
slice, its state and who holds it. `flight` is what a forward carries while the tile is in F (R223). -/
structure Tile where
  pa : Nat
  va : Word
  rows : Nat
  rowBytes : Nat
  pitch : Nat
  fmt : BitVec 5
  tensor : BitVec 12
  keep : Bool
  pages : Pages
  sectors : Table (BitVec 8)
  home : Nat
  st : TileState
  holders : List Nat
  dst : Nat
  /-- the core whose TFWD entry holds the forward (R231), and the task that issued it, with its tensor ID at issue (R216) -/
  fwdCore : Nat
  fwdTask : Word
  fwdTid : BitVec 12
  flight : Table L2Line
  deriving DecidableEq, Repr

/-- A launch that a dispatcher has taken (R305 to R307): its record, where it came from, its gang, and how it stands. -/
structure Launch where
  lseq : Nat
  recVa : Word
  satp : Word
  record : List Word
  die : Nat
  /-- the context that executed LAUNCH, if one did -/
  issuer : Option Nat
  tt : Option Nat
  queue : Option Nat
  /-- the slot index in that queue, the task that executed LAUNCH, and the completion record that the launch event names -/
  slot : Nat
  issTask : Word
  evVa : Word
  /-- the keys of its gang's members, member 0 first; empty when it is no gang -/
  gang : List Nat
  running : Bool
  /-- tasks live (R307) -/
  live : Nat
  /-- exit values of the control contexts that have executed HEXIT, by rank -/
  exits : Table Word
  /-- TSEQ counters, by die (R315) -/
  tseq : Table Nat
  /-- task stacks in use -/
  stacksUsed : List Nat
  /-- the copy pattern's unreleased entries: (index, the four words), its stage counter and its cluster (R291, R292) -/
  pattern : Table (List Word)
  stage : Nat
  patCluster : Option Nat
  /-- the root task record, in task mode -/
  root : Option TaskEntry
  /-- enqueue time and L terms of R331: 6h + 48k for its path -/
  enqueued : Nat
  path : Nat
  /-- the host port whose doorbell it was taken from, where no LAUNCH enqueued it (R363) -/
  port : Nat
  /-- its contexts are being stopped and ended (R313) -/
  stopping : Bool
  deriving DecidableEq, Repr

/-- A pattern entry that has been released and waits for a place of its cluster's copy queue (R286, R292): its launch's key, its cluster, the launch as
it stood, and the entry's words. -/
structure Released where
  key : Nat
  g : Nat
  launch : Launch
  words : List Word
  deriving DecidableEq, Repr

/-- A saved or parked context, or a parked record that never ran (R114 to R116, R332, R337). The save record itself stands in
memory; this is what the dispatcher and service slot keep beside it: where it was written, what it may resume as, and what
the record has no field for. -/
structure Saved where
  key : Nat
  cid : Nat
  fixedAt : Nat
  memAt : Nat
  launch : Nat
  rank : Nat
  task : Option TaskEntry
  hstarted : Bool
  hasCtx : Bool
  scounteren : BitVec 32
  senvcfg : Word
  /-- its pending wait, with the translated object and destination that the record has no field for -/
  wait : Option Wait
  wake : Option Wake
  lost : Bool
  claimed : Bool
  prioMax : BitVec 3
  /-- the fault-queue entry that names it -/
  fq : Option Nat
  /-- it may be restored now -/
  wants : Bool
  gang : Bool
  /-- the TRESUME that resumes it, as its start record names it -/
  resume : Option Wake
  /-- qtstg of its thread (R329) -/
  stg : Word
  /-- the task whose TKILL ended this control context, while helpers of its core are still to end (R337) -/
  ending : Option Word
  deriving DecidableEq, Repr

/-- A time-triggered entry (R312, R313): its words, whether a launch waits under OVR = queue, and the clusters of its placement. -/
structure TTEntry where
  record : Word
  period : BitVec 40
  phase : BitVec 40
  en : Bool
  ovr : BitVec 2
  die : BitVec 4
  skips : BitVec 40
  satp : Word
  waiting : Bool
  last : Option Nat
  placed : List Nat
  /-- when it last fired -/
  fired : Option Nat
  deriving DecidableEq, Repr

/-- A sealed session (R389). -/
structure Session where
  valid : Bool
  port : Bool
  kslot : BitVec 6
  owner : Word
  iv : BitVec 96
  sbase : Word
  slimit : Word
  deriving DecidableEq, Repr

/-- An entry of a compared write stream (R382): the A-relative line, the bytes written, and the writer. -/
structure StreamEntry where
  line : Nat
  settle : Bool
  mask : BitVec 128
  data : LineData
  task : Word
  launch : Nat
  deriving DecidableEq, Repr

/-- Replay compare mode (R381 to R383): the streams of each stack of A and of its twin, the entry counts per line, and the lines
that accepted accumulates have left to settle. -/
structure Replay where
  cmp : Bool
  haltdiv : Bool
  divseen : Bool
  streamA : Table (List StreamEntry)
  streamB : Table (List StreamEntry)
  counts : Table Nat
  /-- lines that an accepted accumulate has left to settle, with the task of the last one -/
  unsettled : Table Word
  reported : List Nat
  /-- the contexts that HALTDIV has halted (R383) -/
  halted : List Nat
  deriving DecidableEq, Repr

/-- What a host request through BAR2 was answered (R386). -/
inductive HostReply
  | none
  | data (v : Word)
  | unsupported
  | line (d : LineData)
  /-- SPDM GET_MEASUREMENTS (R394): slot 0 with the fuse configuration and the harvest map, then slots 1 to 4 -/
  | report (fuses : BitVec 256) (absent : Option (BitVec 4)) (slots : List (BitVec 256))
  deriving DecidableEq, Repr

/-- The host side, the firmware's secrets and the bring-up results (R385 to R396). -/
structure HostSide where
  up : Bool
  absent : Option (BitVec 4)
  moduleId : BitVec 12
  measurements : List (BitVec 256)
  cxl : BitVec 2
  tdi : BitVec 2
  refuseBar2 : Bool
  keys : Table (BitVec 256)
  peers : List Nat
  /-- peers and routes that do not answer: their requests end by timeout (R196, R392) -/
  mutePeers : List Nat
  /-- lines of device HBM of which a host holds a copy, each with the port through which it does -/
  hostLines : List (Nat × Nat)
  /-- the ports that have been reported to firmware (R399) -/
  reported : List Nat
  fwLog : Nat
  alarms : Nat
  ppm : Int
  freeRun : Bool
  /-- what the slew has gathered, in millionths of a nanosecond -/
  drift : Int
  /-- the alarm policy in force (R394): 0 log, 1 lock, 2 erase -/
  policy : Nat
  fuses : BitVec 256
  /-- the mailboxes of the ports (R386): a port's stands at 65,536 × port -/
  mailbox : Memory
  reply : HostReply
  deriving DecidableEq, Repr

/-- Who acts in a turn of the schedule. -/
inductive Actor
  /-- the instruction at a context's pc issues, or the one retires that had left the rotation -/
  | ctx (cid : Nat)
  /-- the instruction at a context's pc issues and leaves the rotation until its reply, its divider or the end of its wait (R98) -/
  | ctxAway (cid : Nat)
  /-- an event row of the table happens, with its operands -/
  | event (i : Instr) (a : EventArgs)
  /-- a core's L1 I-cache loses a line, or a cluster's TLBs lose a page: replacement, which the spec leaves to hardware -/
  | evictI (core line : Nat)
  | evictTlb (g va : Nat)
  deriving DecidableEq, Repr

/-- One turn of the schedule: how long the timebase and the arithmetic clock run before it, and who acts. -/
structure Turn where
  ns : Nat
  cycles : Nat
  actor : Actor
  deriving DecidableEq, Repr

/-- The state of the module. `agenda` is the schedule: the order in which agents act, which the spec leaves open, held as plain
data (log entry 6); with an empty agenda the barrel of the current core issues. -/
structure State where
  ctxs : Table Ctx
  cores : Table Core
  clusters : Table Cluster
  dies : Table Die
  slices : Table Slice
  stackCmds : Table (List StackCmd)
  mem : Memory
  tiles : List Tile
  launches : Table Launch
  /-- pattern entries that have been released and wait to run, oldest first (R292) -/
  released : List Released
  /-- the launch sequence that the next launch takes, and the next key of a launch and of a saved context -/
  lseq : Nat
  nextKey : Nat
  saved : List Saved
  tt : Table TTEntry
  sessions : Table Session
  classes : Table (BitVec 2)
  sampctl : BitVec 40
  pulses : Nat
  /-- when the last pulse fell (R379) -/
  pulsed : Option Nat
  replay : Replay
  qmstage : Word
  qmquota : Word
  qmtmo : Word
  qmaging : Word
  qmresid : Word
  sends : List AccSend
  /-- answers on their way back to a core: accepted or refused -/
  answers : List (Bool × AccSend)
  host : HostSide
  /-- the timebase in ns since reset, with the epoch firmware stepped it by (R12) -/
  now : Nat
  /-- arithmetic cycles at 3.0 GHz since reset -/
  arith : Nat
  /-- the context that is issuing, as global core × 12 + context -/
  cur : Nat
  /-- the operands of the event being carried out -/
  ev : EventArgs
  agenda : List Turn
  /-- the model's own counter, to which free values are applied (log entry 5) -/
  free : Nat
  deriving DecidableEq, Repr

/-- No translation: what a wait that has no translated object holds. -/
def Xlat.none : Xlat := ⟨0, 0, .io, 0, 0, false, false, 0, 0⟩

/-- A breakpoint register at reset (R372). -/
def Breakpoint.off : Breakpoint := ⟨0, 0, 0⟩

/-- The reset value of qfdisp (R113). -/
def qfdispReset : Word := 0x0015555500005555#64

/-- qvtype of every new thread: VILL set, ETYPE and VL 0 (R140). -/
def qvtypeReset : Word := 0x8000000000000000#64

/-- m1 all ones, m2 to m7 zero (R144). -/
def masksReset : Vector (BitVec 1024) 7 := #v[BitVec.allOnes 1024, 0, 0, 0, 0, 0, 0]

/-- A context after module reset. The device CSRs have the values the spec states; every other register is at the value log
entries 1 and 3 name (zero, an RV64 mstatus, delegation of every cause but ECALL from S, and one PMP entry open to all). -/
def Ctx.reset : Ctx where
  status := .idle
  priv := .u
  pc := 0
  x := Vector.replicate 32 0
  f := Vector.replicate 32 0
  fflags := 0
  frm := 0
  mstatus := 0x0000000A00000000#64
  stvec := 0
  sscratch := 0
  sepc := 0
  scause := 0
  stval := 0
  satp := 0
  scounteren := 0
  senvcfg := 0
  mtvec := 0
  medeleg := 0x00070000FF00B1FF#64
  mideleg := 0
  mscratch := 0
  mepc := 0
  mcause := 0
  mtval := 0
  mcounteren := 7
  menvcfg := 0x4000000000000000#64
  mcountinhibit := 0
  pmpcfg := #v[0x1F, 0, 0, 0, 0, 0, 0, 0, 0, 0, 0, 0, 0, 0, 0, 0]
  pmpaddr := #v[0x003FFFFFFFFFFFFF, 0, 0, 0, 0, 0, 0, 0, 0, 0, 0, 0, 0, 0, 0, 0]
  instret := 0
  qtid := 0
  qvtype := qvtypeReset
  qvwin := 0
  qvrot := 0
  qmxcap := 0
  qtensid := 0
  qvstat := 0
  qloop := 0
  loopStart := 0
  qprio := 0
  prioMax := 0
  qfdisp := qfdispReset
  qtstg := 0
  masks := masksReset
  bp := #v[Breakpoint.off, Breakpoint.off, Breakpoint.off, Breakpoint.off]
  reservation := none
  lostBy := none
  packet := none
  launch := 0
  rank := 0
  task := none
  hstarted := false
  wait := none
  wake := none
  request := none
  stop := none
  haltReq := false
  stepReq := false
  claimed := false
  held := none
  lost := false

/-- A core after module reset. qcsave is "undefined" at reset (R116); it is 0 here, log entry 2. -/
def Core.reset : Core where
  storeBuffer := []
  posted := []
  vecStores := []
  icache := []
  latches := []
  qcsave := 0
  qswin := #v[0, 0, 0, 0]
  qdeqbase := 0
  qdeqsize := 0
  bobbin := []
  ring := []
  ringSatp := 0
  evq := []
  evLost := 0
  slots := []
  slotSeq := 0
  hem := []
  refused := 0
  vq := []
  turn := 0
  freed := 0
  arriving := []

/-- A lane group at reset (R138). -/
def LaneGroup.reset : LaneGroup := ⟨0, true, 0, 0, 0, 0, 0⟩

/-- A matrix engine at reset (R254). -/
def Mx.reset : Mx := ⟨0, 0, [], [], [], 0, [], 0⟩

/-- A cluster after module reset. -/
def Cluster.reset : Cluster where
  spways := 0
  busy := false
  nextWays := 0
  aliascfg := #v[0, 0, 0, 0, 0, 0, 0, 0]
  handles := []
  l2 := []
  victims := []
  tlb := []
  vreg := []
  qmvwt := 0x01010101#64
  groups := Vector.replicate 8 LaneGroup.reset
  mx := Mx.reset
  copies := []
  overflow := []
  shadows := []
  fills := []
  gated := false
  idleSince := 0
  stageTurn := 0

/-- A die after module reset. -/
def Die.reset : Die where
  fqbase := 0
  fqsize := 0
  fqhead := 0
  fqtail := 0
  kcore := 0
  dropped := 0
  queues := []
  ready := []
  decrements := []
  stagings := []
  rbbase := 0
  logn := 8
  en := false
  wrap := false
  tail := 0
  head := 0
  zerowait := 0
  recDropped := 0
  step := 0
  t0 := 0
  data := 0
  dbgBusy := none
  result := 0
  den := false
  holdtmo := 30000000000
  dumpbase := 0
  dumpsize := 0
  dumpnext := 0
  hitctx := 0
  hit := false
  lbp := #v[Breakpoint.off, Breakpoint.off, Breakpoint.off, Breakpoint.off]
  lbpsel := 0
  mhz := 3000
  stopped := false
  cycBase := 0
  cycAt := 0

/-- A home slice after module reset; its quota values are those of qmquota's reset (R237). -/
def Slice.reset : Slice := ⟨[], [], 0, 0, 0, 0, [], 8, 256, 4, [], none, 0, [], []⟩

/-- A time-triggered entry at reset (R312). -/
def TTEntry.reset : TTEntry := ⟨0, 0, 0, false, 0, 0, 0, 0, false, none, [], none⟩

/-- A sealed session at reset (R389). -/
def Session.reset : Session := ⟨false, false, 0, 0, 0, 0, 0⟩

/-- A handle at reset (R284). -/
def Handle.reset : Handle := ⟨0, false, 0, 0, 0, []⟩

/-- Bring-up with nothing found. -/
def Bringup.blank : Bringup := ⟨0, [], false, none, none, 0, 0, [], false, 0, 0⟩

/-- Event operands before any event. -/
def EventArgs.blank : EventArgs := ⟨0, 0, 0, 0, 0, false, false, [], 0, 0, 0, Bringup.blank⟩

/-- Replay compare mode at reset (R381). -/
def Replay.reset : Replay := ⟨false, true, false, [], [], [], [], [], []⟩

/-- The host side at reset: bring-up has not run (R396). -/
def HostSide.reset : HostSide := ⟨false, none, 0, [], 0, 0, false, [], [], [], [], [], 0, 0, 0, false, 0, 0, 0, [], .none⟩

/-- The module right after module reset (R3, R396): no context runs, no doorbell is accepted, memory lists nothing. MODULE_RESET
then runs the bring-up steps. -/
def State.reset : State where
  ctxs := []
  cores := []
  clusters := []
  dies := []
  slices := []
  stackCmds := []
  mem := []
  tiles := []
  launches := []
  released := []
  lseq := 1
  nextKey := 1
  saved := []
  tt := []
  sessions := []
  classes := []
  sampctl := 0
  pulses := 0
  pulsed := none
  replay := Replay.reset
  qmstage := 0x000000007D040024#64
  qmquota := 0x0000000004010008#64
  qmtmo := 20000
  qmaging := 20000
  qmresid := 10000
  sends := []
  answers := []
  host := HostSide.reset
  now := 0
  arith := 0
  cur := 0
  ev := EventArgs.blank
  agenda := []
  free := 0

/-- Why the machine stops: it never does. Everything the spec calls an error is a state of the module (an exception taken, an operation
ended, a module that stays in reset), so this type has no constructor. -/
inductive Fault
  deriving DecidableEq, Repr

/-- Why an instruction has no meaning here. -/
inductive Refusal
  /-- Raised by an arm of `exec` whose instruction the model has not reached. Safe: the run stops. -/
  | notModelled (mnemonic : String)
  deriving DecidableEq, Repr

end Sys2Proof.Machine
end

