-- ==== Sys2Proof/Machine/Maps.lean ====
section
/-! DEFINITION. Tables by unit number, home memory by address, and the accessors of the state's units. Every read of a unit that
is not listed gives the unit's reset value. -/

namespace Sys2Proof.Machine

/-- The value listed for `k`. -/
def tfind {α : Type} (m : Table α) (k : Nat) : Option α :=
  match m with
  | [] => none
  | (a, v) :: t => if a = k then some v else tfind t k

/-- The table with `v` at `k`, in rising order of keys. -/
def tput {α : Type} (m : Table α) (k : Nat) (v : α) : Table α :=
  match m with
  | [] => [(k, v)]
  | (a, w) :: t => if a = k then (k, v) :: t else if k < a then (k, v) :: (a, w) :: t else (a, w) :: tput t k v

/-- The table with nothing at `k`. -/
def tdel {α : Type} (m : Table α) (k : Nat) : Table α := m.filter (fun p => p.1 ≠ k)

/-- The keys of a list of pairs rise strictly. -/
def risingFrom {α : Type} (lo : Nat) (m : Table α) : Bool :=
  match m with
  | [] => true
  | (a, _) :: t => lo ≤ a && risingFrom (a + 1) t

/-- What an unlisted byte of memory reads as: HBM is zeroed at bring-up (R396 step 4) and scratchpad ways are cleared when they
change hands (R178); for host and peer memory this is DESIGN CHOICE, log entry 4. -/
def unlistedByte : Byte := 0

/-- The byte at a physical address. -/
def mget (m : Memory) (a : Nat) : Byte := (tfind m a).getD unlistedByte

/-- Memory with byte `b` at `a`; a byte equal to what an unlisted address reads as is not listed. -/
def mset (m : Memory) (a : Nat) (b : Byte) : Memory := if b = unlistedByte then tdel m a else tput m a b

/-- The canonical form of memory: addresses rise strictly, and no entry equals what an unlisted address reads as. -/
def Memory.wf (m : Memory) : Bool := risingFrom 0 m && m.all (fun c => c.2 != unlistedByte)

/-- `n` bytes at `a`, little-endian. -/
def mread (m : Memory) (a : Nat) (n : Nat) : Nat :=
  match n with
  | 0 => 0
  | k + 1 => (mget m a).toNat + 256 * mread m (a + 1) k

/-- Memory with the low `n` bytes of `v` at `a`, little-endian. -/
def mwrite (m : Memory) (a : Nat) (n : Nat) (v : Nat) : Memory :=
  match n with
  | 0 => m
  | k + 1 => mwrite (mset m a (BitVec.ofNat 8 v)) (a + 1) k (v / 256)

/-- Memory with the bytes of `v` at `a` that `mask` selects, from byte `i` on for `n` bytes. -/
def mmerge (m : Memory) (a : Nat) (n : Nat) (mask v : Nat) : Memory :=
  match n with
  | 0 => m
  | k + 1 => mmerge (if mask % 2 = 1 then mset m a (BitVec.ofNat 8 v) else m) (a + 1) k (mask / 2) (v / 256)

/-- Number of bytes in a line. -/
def lineBytes : Nat := 128

/-- The line of home memory with number `l`. -/
def mline (m : Memory) (l : Nat) : LineData := BitVec.ofNat 1024 (mread m (l * lineBytes) lineBytes)

/-- A context, by its number. -/
def State.ctx (s : State) (cid : Nat) : Ctx := (tfind s.ctxs cid).getD Ctx.reset
/-- The state with a context replaced. -/
def State.setCtx (s : State) (cid : Nat) (c : Ctx) : State := { s with ctxs := tput s.ctxs cid c }
/-- The state with a context changed. -/
def State.modCtx (s : State) (cid : Nat) (g : Ctx → Ctx) : State := s.setCtx cid (g (s.ctx cid))
/-- A core, by its global number. -/
def State.core (s : State) (k : Nat) : Core := (tfind s.cores k).getD Core.reset
def State.setCore (s : State) (k : Nat) (c : Core) : State := { s with cores := tput s.cores k c }
def State.modCore (s : State) (k : Nat) (g : Core → Core) : State := s.setCore k (g (s.core k))
/-- A cluster, by its global number. -/
def State.cluster (s : State) (g : Nat) : Cluster := (tfind s.clusters g).getD Cluster.reset
def State.setCluster (s : State) (g : Nat) (c : Cluster) : State := { s with clusters := tput s.clusters g c }
def State.modCluster (s : State) (g : Nat) (h : Cluster → Cluster) : State := s.setCluster g (h (s.cluster g))
/-- A die. -/
def State.die (s : State) (d : Nat) : Die := (tfind s.dies d).getD Die.reset
def State.setDie (s : State) (d : Nat) (x : Die) : State := { s with dies := tput s.dies d x }
def State.modDie (s : State) (d : Nat) (h : Die → Die) : State := s.setDie d (h (s.die d))
/-- A home slice. -/
def State.slice (s : State) (k : Nat) : Slice := (tfind s.slices k).getD Slice.reset
def State.setSlice (s : State) (k : Nat) (x : Slice) : State := { s with slices := tput s.slices k x }
def State.modSlice (s : State) (k : Nat) (h : Slice → Slice) : State := s.setSlice k (h (s.slice k))
/-- The commands of a stack engine, oldest first. -/
def State.stackList (s : State) (k : Nat) : List StackCmd := (tfind s.stackCmds k).getD []
def State.setStack (s : State) (k : Nat) (x : List StackCmd) : State := { s with stackCmds := tput s.stackCmds k x }
/-- A launch, by its key. -/
def State.launchAt (s : State) (k : Nat) : Option Launch := tfind s.launches k
def State.setLaunch (s : State) (k : Nat) (l : Launch) : State := { s with launches := tput s.launches k l }
def State.modLaunch (s : State) (k : Nat) (h : Launch → Launch) : State :=
  match s.launchAt k with
  | some l => s.setLaunch k (h l)
  | none => s
/-- A time-triggered entry. -/
def State.ttEntry (s : State) (i : Nat) : TTEntry := (tfind s.tt i).getD TTEntry.reset
def State.setTT (s : State) (i : Nat) (e : TTEntry) : State := { s with tt := tput s.tt i e }
/-- A sealed session. -/
def State.session (s : State) (j : Nat) : Session := (tfind s.sessions j).getD Session.reset
def State.setSession (s : State) (j : Nat) (e : Session) : State := { s with sessions := tput s.sessions j e }
/-- A handle of a cluster's buffer table. -/
def State.handle (s : State) (g h : Nat) : Handle := (tfind (s.cluster g).handles h).getD Handle.reset
def State.setHandle (s : State) (g h : Nat) (x : Handle) : State :=
  s.modCluster g fun c => { c with handles := tput c.handles h x }

/-- Unit numbers from a context number (R6). -/
def coreOf (cid : Nat) : Nat := cid / 12
def ctxNum (cid : Nat) : Nat := cid % 12
def clusterOf (cid : Nat) : Nat := cid / 48
def dieOf (cid : Nat) : Nat := cid / 6144
def clusterOfCore (k : Nat) : Nat := k / 4
def dieOfCore (k : Nat) : Nat := k / 512
def dieOfCluster (g : Nat) : Nat := g / 128
/-- The control context of a core. -/
def controlOf (k : Nat) : Nat := k * 12

/-- Whether a die is live: not the die fused off (R2). -/
def State.dieLive (s : State) (d : Nat) : Bool :=
  d < Config.dieCount && (match s.host.absent with
    | some a => a.toNat != d
    | none => true)
/-- Whether a global cluster is live (R2, R7). -/
def State.clusterLive (s : State) (g : Nat) : Bool := g < Config.clusterCount && s.dieLive (dieOfCluster g)
/-- Whether a global core is live (R2, R7). -/
def State.coreLive (s : State) (k : Nat) : Bool := k < Config.coreCount && s.dieLive (dieOfCore k)

/-- The x register `r`: x0 reads zero. -/
def Ctx.getX (c : Ctx) (r : Reg) : Word := if r = 0 then 0 else c.x[r.toNat]'(r.isLt)
/-- The context with x register `r` written; a write of x0 is discarded. -/
def Ctx.setX (c : Ctx) (r : Reg) (v : Word) : Ctx := if r = 0 then c else { c with x := c.x.set r.toNat v r.isLt }
/-- The f register `r`. -/
def Ctx.getF (c : Ctx) (r : Reg) : Word := c.f[r.toNat]'(r.isLt)
/-- The context with f register `r` written. -/
def Ctx.setF (c : Ctx) (r : Reg) (v : Word) : Ctx := { c with f := c.f.set r.toNat v r.isLt }

/-- The context that is issuing. -/
def State.me (s : State) : Ctx := s.ctx s.cur
/-- x register `r` of the issuing context. -/
def State.xr (s : State) (r : Reg) : Word := s.me.getX r
/-- The state with x register `r` of the issuing context written. -/
def State.setXr (s : State) (r : Reg) (v : Word) : State := s.modCtx s.cur (fun c => c.setX r v)
/-- The timebase as qtime shows it: 64 bits, wrapping (R12). -/
def State.time (s : State) : Word := BitVec.ofNat 64 s.now

/-- List update at an index. -/
def lset {α : Type} (l : List α) (i : Nat) (v : α) : List α := l.set i v
/-- List without its element at an index. -/
def ldel {α : Type} (l : List α) (i : Nat) : List α := l.eraseIdx i

end Sys2Proof.Machine
end

