-- ==== Sys2Proof/Machine/Num.lean ====
section
/-! DEFINITION. Number formats and arithmetic (R79 to R93): codes to exact values and back, one rounding function, and the helper
functions of R90. Flags are numbered as qvstat numbers them (R88). -/

namespace Sys2Proof.Machine

/-- The binary floating-point formats (R79). -/
inductive Fmt | f64 | f32 | f16 | bf16 | e5m2 | e4m3
  deriving DecidableEq, Repr

/-- Bits, fraction bits and bias of a format (R79). -/
def Fmt.width (F : Fmt) : Nat := match F with
  | .f64 => 64 | .f32 => 32 | .f16 => 16 | .bf16 => 16 | .e5m2 => 8 | .e4m3 => 8
def Fmt.frac (F : Fmt) : Nat := match F with
  | .f64 => 52 | .f32 => 23 | .f16 => 10 | .bf16 => 7 | .e5m2 => 2 | .e4m3 => 3
def Fmt.bias (F : Fmt) : Nat := match F with
  | .f64 => 1023 | .f32 => 127 | .f16 => 15 | .bf16 => 127 | .e5m2 => 15 | .e4m3 => 7
/-- Bits of the exponent field. -/
def Fmt.expBits (F : Fmt) : Nat := F.width - 1 - F.frac
/-- The canonical NaN (R79). -/
def Fmt.nan (F : Fmt) : Nat := match F with
  | .f64 => 0x7FF8000000000000 | .f32 => 0x7FC00000 | .f16 => 0x7E00 | .bf16 => 0x7FC0 | .e5m2 => 0x7E | .e4m3 => 0x7F
/-- The code of the largest finite magnitude (R79, R81). -/
def Fmt.maxCode (F : Fmt) : Nat := match F with
  | .f64 => 0x7FEFFFFFFFFFFFFF | .f32 => 0x7F7FFFFF | .f16 => 0x7BFF | .bf16 => 0x7F7F | .e5m2 => 0x7B | .e4m3 => 0x7E
/-- The code of +∞; E4M3 has none, and saturates (R81). -/
def Fmt.infCode (F : Fmt) : Nat := match F with
  | .f64 => 0x7FF0000000000000 | .f32 => 0x7F800000 | .f16 => 0x7C00 | .bf16 => 0x7F80 | .e5m2 => 0x7C | .e4m3 => 0x7E

/-- A value: NaN (and whether it is signalling), an infinity, or (−1)^neg · m · 2^e, with signed zero as m = 0. -/
inductive Val
  | nan (sig : Bool)
  | inf (neg : Bool)
  | fin (neg : Bool) (m : Nat) (e : Int)
  deriving DecidableEq, Repr

/-- A set of flags: NX, UF, OF, DZ, NV, QSAT, SCUF from bit 0 (R88). -/
abbrev Flags := BitVec 7
def fNX : Flags := 1
def fUF : Flags := 2
def fOF : Flags := 4
def fDZ : Flags := 8
def fNV : Flags := 16
def fQSAT : Flags := 32
def fSCUF : Flags := 64

/-- The rounding modes (R87); a code above 4 never reaches the arithmetic. -/
inductive RM | rne | rtz | rdn | rup | rmm
  deriving DecidableEq, Repr

/-- The mode of a valid rounding code. -/
def rmOf (c : Nat) : RM := match c with
  | 0 => .rne | 1 => .rtz | 2 => .rdn | 3 => .rup | _ => .rmm

/-- decode(bits, F) of R90. -/
def unpack (F : Fmt) (x : Nat) : Val :=
  let neg := x >>> (F.width - 1) % 2 == 1
  let ex := x >>> F.frac % 2 ^ F.expBits
  let fr := x % 2 ^ F.frac
  let qmin : Int := 1 - F.bias - F.frac
  if ex = 2 ^ F.expBits - 1 ∧ F ≠ .e4m3 then
    if fr = 0 then .inf neg
    else .nan (F ≠ .e5m2 ∧ fr >>> (F.frac - 1) = 0)
  else if F = .e4m3 ∧ x % 128 = 127 then .nan false
  else if ex = 0 then .fin neg fr qmin
  else .fin neg (2 ^ F.frac + fr) (qmin + (ex - 1 : Nat))

/-- Whether a magnitude with remainder `r` against half-unit `h` rounds away, in the given mode. -/
def roundsUp (rm : RM) (neg odd : Bool) (r h : Nat) : Bool :=
  match rm with
  | .rne => h < r || (r == h && odd)
  | .rtz => false
  | .rdn => neg && r != 0
  | .rup => !neg && r != 0
  | .rmm => h ≤ r

/-- m · 2^e rounded to a multiple of 2^q: the multiple and whether it is inexact. -/
def roundAt (rm : RM) (neg : Bool) (m : Nat) (e q : Int) : Nat × Bool :=
  if q ≤ e then (m <<< (e - q).toNat, false)
  else
    let sh := (q - e).toNat
    let k := m >>> sh
    let r := m % 2 ^ sh
    let h := 2 ^ (sh - 1)
    (k + bnat (roundsUp rm neg (k % 2 == 1) r h), r != 0)

/-- Place a sign over a magnitude code. -/
def signed (F : Fmt) (neg : Bool) (c : Nat) : Nat := bnat neg * 2 ^ (F.width - 1) + c

/-- The exact value (−1)^neg · (m + ε) · 2^e, with ε strictly between 0 and 1 when `sticky`, rounded to F: the code and flags
(R80, R81, R87). `sat` asks for saturation in place of overflow (sat_round). A sticky value must carry at least two bits below
F's precision. Here a value saturates where it rounds above F's largest finite value, as R81 says of E4M3. -/
def roundTo (F : Fmt) (rm : RM) (sat : Bool) (neg : Bool) (m0 : Nat) (e0 : Int) (sticky : Bool) : Nat × Flags :=
  let m := if sticky then 4 * m0 + 1 else m0
  let e := if sticky then e0 - 2 else e0
  if m = 0 then (signed F neg 0, 0)
  else
    let top : Int := Nat.log2 m + e
    let emin : Int := 1 - F.bias
    let qmin : Int := emin - F.frac
    let q0 : Int := top - F.frac
    let q := max q0 qmin
    let (k, inexact) := roundAt rm neg m e q
    -- tininess after rounding: the result as rounded with an unbounded exponent range
    let (ku, _) := roundAt rm neg m e q0
    let tiny := decide ((Nat.log2 ku : Int) + q0 < emin)
    let nx : Flags := if inexact then fNX else 0
    let uf : Flags := if inexact && tiny then fUF else 0
    if k = 0 then (signed F neg 0, nx ||| uf)
    else
      let topk : Int := Nat.log2 k + q
      let biased : Int := topk + F.bias
      let code : Nat := if topk < emin then k
        else (biased.toNat) * 2 ^ F.frac + (if (Nat.log2 k) ≤ F.frac then k <<< (F.frac - Nat.log2 k) else k >>> (Nat.log2 k - F.frac)) - 2 ^ F.frac
      if code > F.maxCode then
        if sat || F = .e4m3 then (signed F neg F.maxCode, fQSAT ||| fNX)
        else
          let toMax := match rm with
            | .rtz => true
            | .rdn => !neg
            | .rup => neg
            | _ => false
          (signed F neg (if toMax then F.maxCode else F.infCode), fOF ||| fNX)
      else (signed F neg code, nx ||| uf)

/-- Whether the magnitude m × 2^e lies above F's largest finite value. -/
def aboveMax (F : Fmt) (m : Nat) (e : Int) : Bool := match unpack F F.maxCode with
  | .fin _ k q => decide (k * 2 ^ (q - min e q).toNat < m * 2 ^ (e - min e q).toNat)
  | _ => false

/-- round(v, F, rm) and sat_round(v, F) of R90: the second sets QSAT for every magnitude above F's largest finite value, one that rounds to it
among them, which R81 leaves open of E4M3 (DEDUCED, log entry 75). -/
def roundVal (F : Fmt) (rm : RM) (sat : Bool) (v : Val) : Nat × Flags :=
  match v with
  | .nan s => (F.nan, if s then fNV else 0)
  | .inf n => if sat || F = .e4m3 then (signed F n F.maxCode, fQSAT ||| fNX) else (signed F n F.infCode, 0)
  | .fin n m e => if sat && aboveMax F m e then (signed F n F.maxCode, fQSAT ||| fNX) else roundTo F rm sat n m e false

def Val.isNan (v : Val) : Bool := match v with
  | .nan _ => true | _ => false
def Val.isSig (v : Val) : Bool := match v with
  | .nan s => s | _ => false
def Val.isInf (v : Val) : Bool := match v with
  | .inf _ => true | _ => false
def Val.isZero (v : Val) : Bool := match v with
  | .fin _ m _ => m == 0 | _ => false
def Val.neg? (v : Val) : Bool := match v with
  | .nan _ => false | .inf n => n | .fin n _ _ => n

/-- The value with its sign changed. -/
def Val.negate (v : Val) : Val := match v with
  | .nan s => .nan s | .inf n => .inf (!n) | .fin n m e => .fin (!n) m e

/-- The value of a signed integer times a power of two. -/
def ofIntExp (i : Int) (e : Int) (zeroNeg : Bool) : Val :=
  if i = 0 then .fin zeroNeg 0 e else .fin (i < 0) i.natAbs e

/-- Exact sum of two finite values as an integer and an exponent. -/
def sumInt (n1 : Bool) (m1 : Nat) (e1 : Int) (n2 : Bool) (m2 : Nat) (e2 : Int) : Int × Int :=
  let e := min e1 e2
  let a : Int := m1 <<< (e1 - e).toNat
  let b : Int := m2 <<< (e2 - e).toNat
  ((if n1 then -a else a) + (if n2 then -b else b), e)

/-- Exact product; ∞ × 0 is an invalid operation, shown by the flag. -/
def mulV (a b : Val) : Val × Flags :=
  match a, b with
  | .nan s, y => (.nan false, if s || y.isSig then fNV else 0)
  | x, .nan s => (.nan false, if s || x.isSig then fNV else 0)
  | .inf n, y => if y.isZero then (.nan false, fNV) else (.inf (n != y.neg?), 0)
  | x, .inf n => if x.isZero then (.nan false, fNV) else (.inf (n != x.neg?), 0)
  | .fin n m e, .fin n' m' e' => (.fin (n != n') (m * m') (e + e'), 0)

/-- Exact sum; ∞ − ∞ is an invalid operation. A zero sum of opposite signs is −0 only when rounding down. -/
def addV (rm : RM) (a b : Val) : Val × Flags :=
  match a, b with
  | .nan s, y => (.nan false, if s || y.isSig then fNV else 0)
  | x, .nan s => (.nan false, if s || x.isSig then fNV else 0)
  | .inf n, .inf n' => if n = n' then (.inf n, 0) else (.nan false, fNV)
  | .inf n, .fin _ _ _ => (.inf n, 0)
  | .fin _ _ _, .inf n => (.inf n, 0)
  | .fin n m e, .fin n' m' e' =>
    if m = 0 ∧ m' = 0 then (.fin (if n = n' then n else rm = .rdn) 0 (min e e'), 0)
    else
      let (i, x) := sumInt n m e n' m' e'
      (ofIntExp i x (rm = .rdn), 0)

/-- Round an exact result, adding its own flags. -/
def finishV (F : Fmt) (rm : RM) (r : Val × Flags) : Nat × Flags :=
  let (c, f) := roundVal F rm false r.1
  (c, f ||| r.2)

/-- a + b, a − b, a × b, rounded once. -/
def fAdd (F : Fmt) (rm : RM) (a b : Nat) : Nat × Flags := finishV F rm (addV rm (unpack F a) (unpack F b))
def fSub (F : Fmt) (rm : RM) (a b : Nat) : Nat × Flags := finishV F rm (addV rm (unpack F a) (unpack F b).negate)
def fMul (F : Fmt) (rm : RM) (a b : Nat) : Nat × Flags := finishV F rm (mulV (unpack F a) (unpack F b))

/-- (±a × b) + (±c), rounded once; ∞ × 0 raises NV whatever the addend is (R149). -/
def fFma (F : Fmt) (rm : RM) (negProd negAdd : Bool) (a b c : Nat) : Nat × Flags :=
  let va := unpack F a
  let vb := unpack F b
  let vc := unpack F c
  let (p, f) := mulV va vb
  let p := if negProd then p.negate else p
  let z := if negAdd then vc.negate else vc
  let (r, f') := addV rm p z
  finishV F rm (r, f ||| f')

/-- a / b, rounded once. -/
def fDiv (F : Fmt) (rm : RM) (a b : Nat) : Nat × Flags :=
  match unpack F a, unpack F b with
  | .nan s, y => (F.nan, if s || y.isSig then fNV else 0)
  | _, .nan s => (F.nan, if s || (unpack F a).isSig then fNV else 0)
  | .inf _, .inf _ => (F.nan, fNV)
  | .inf n, y => (signed F (n != y.neg?) F.infCode, 0)
  | x, .inf n => (signed F (n != x.neg?) 0, 0)
  | .fin n m e, .fin n' m' e' =>
    if m' = 0 then (if m = 0 then (F.nan, fNV) else (signed F (n != n') F.infCode, fDZ))
    else if m = 0 then (signed F (n != n') 0, 0)
    else
      let sh := F.frac + 4 + Nat.log2 m'
      let num := m <<< sh
      roundTo F rm false (n != n') (num / m') (e - e' - sh) (num % m' != 0)

/-- Integer square root, by bits from `k` down. -/
def isqrt (k n r : Nat) : Nat :=
  match k with
  | 0 => r
  | j + 1 =>
    let c := r + 2 ^ j
    isqrt j n (if c * c ≤ n then c else r)

/-- sqrt(a), rounded once. -/
def fSqrt (F : Fmt) (rm : RM) (a : Nat) : Nat × Flags :=
  match unpack F a with
  | .nan s => (F.nan, if s then fNV else 0)
  | .inf n => if n then (F.nan, fNV) else (F.infCode, 0)
  | .fin n m e =>
    if m = 0 then (signed F n 0, 0)
    else if n then (F.nan, fNV)
    else
      -- an even exponent, and enough bits for the root to carry two below the precision
      let sh := 2 * (F.frac + 4) + bnat (e % 2 != 0)
      let num := m <<< sh
      let r := isqrt (F.frac + 6 + Nat.log2 m) num 0
      roundTo F rm false false r ((e - sh) / 2) (r * r != num)

/-- Order of two values that are not NaN: −0 equals +0. -/
def cmpV (a b : Val) : Ordering :=
  match a, b with
  | .inf n, .inf n' => if n = n' then .eq else if n then .lt else .gt
  | .inf n, _ => if n then .lt else .gt
  | _, .inf n => if n then .gt else .lt
  | .fin n m e, .fin n' m' e' => compare (sumInt n m e (!n') m' e').1 0
  | _, _ => .eq

/-- Minimum or maximum of R80: one NaN gives the other operand, two give the canonical NaN; −0 orders below +0. -/
def fMinMax (F : Fmt) (mx : Bool) (a b : Nat) : Nat × Flags :=
  let va := unpack F a
  let vb := unpack F b
  let fl : Flags := if va.isSig || vb.isSig then fNV else 0
  if va.isNan && vb.isNan then (F.nan, fl)
  else if va.isNan then (b, fl)
  else if vb.isNan then (a, fl)
  else
    let aLess := match cmpV va vb with
      | .lt => true
      | .gt => false
      | .eq => va.neg? && !vb.neg?
    (if aLess != mx then a else b, fl)

/-- Comparisons: equal (quiet), less, less or equal (signalling), unordered (quiet). -/
inductive FCmp | eq | lt | le | un
  deriving DecidableEq, Repr
def fCompare (F : Fmt) (k : FCmp) (a b : Nat) : Bool × Flags :=
  let va := unpack F a
  let vb := unpack F b
  let sig := va.isSig || vb.isSig
  let nan := va.isNan || vb.isNan
  match k with
  | .un => (nan, if sig then fNV else 0)
  | .eq => (!nan && cmpV va vb == .eq, if sig then fNV else 0)
  | .lt => (!nan && cmpV va vb == .lt, if nan then fNV else 0)
  | .le => (!nan && cmpV va vb != .gt, if nan then fNV else 0)

/-- FCLASS and VFCLASS: one bit set (R149). -/
def fClass (F : Fmt) (a : Nat) : Nat :=
  let sub := a >>> F.frac % 2 ^ F.expBits = 0
  match unpack F a with
  | .inf n => if n then 1 else 128
  | .nan s => if s then 256 else 512
  | .fin n m _ =>
    if m = 0 then (if n then 8 else 16)
    else if sub then (if n then 4 else 32)
    else (if n then 2 else 64)

/-- A finite value rounded to an integer: the integer and whether it is inexact. -/
def toIntExact (rm : RM) (n : Bool) (m : Nat) (e : Int) : Int × Bool :=
  let (k, ix) := roundAt rm n m e 0
  (if n then -(k : Int) else k, ix)

/-- The bounds of an n-bit integer type. -/
def intLo (n : Nat) (u : Bool) : Int := if u then 0 else -(2 ^ (n - 1) : Nat)
def intHi (n : Nat) (u : Bool) : Int := if u then (2 ^ n : Nat) - 1 else (2 ^ (n - 1) : Nat) - 1

/-- to_int(x, n, rm) of R90: clamped, with QSAT; NaN gives 0 with NV. -/
def toInt (n : Nat) (rm : RM) (v : Val) : Int × Flags :=
  match v with
  | .nan _ => (0, fNV)
  | .inf s => (if s then intLo n false else intHi n false, fQSAT)
  | .fin s m e =>
    let (i, _) := toIntExact rm s m e
    if i < intLo n false then (intLo n false, fQSAT)
    else if intHi n false < i then (intHi n false, fQSAT) else (i, 0)

/-- Scalar FCVT to an integer (F and D specifications): out of range saturates with NV, and NaN gives the largest. -/
def fcvtToInt (n : Nat) (u : Bool) (rm : RM) (v : Val) : Int × Flags :=
  match v with
  | .nan _ => (intHi n u, fNV)
  | .inf s => (if s then intLo n u else intHi n u, fNV)
  | .fin s m e =>
    let (i, ix) := toIntExact rm s m e
    if i < intLo n u then (intLo n u, fNV)
    else if intHi n u < i then (intHi n u, fNV) else (i, if ix then fNX else 0)

/-- An integer rounded to F. -/
def ofInt (F : Fmt) (rm : RM) (i : Int) : Nat × Flags := roundVal F rm false (ofIntExp i 0 false)

/-- x[n−1:0] of an integer, as a number. -/
def wrapInt (n : Nat) (i : Int) : Nat := (i % (2 ^ n : Nat)).toNat
/-- The signed reading of an n-bit number. -/
def signedOf (n : Nat) (x : Nat) : Int := if x < 2 ^ (n - 1) then x else (x : Int) - (2 ^ n : Nat)
/-- sat(x, n) of R90, and whether it clamped. -/
def satInt (n : Nat) (i : Int) : Int × Bool :=
  if i < intLo n false then (intLo n false, true)
  else if intHi n false < i then (intHi n false, true) else (i, false)

/-- A value multiplied by 2^k, exactly. -/
def scaleV (v : Val) (k : Int) : Val := match v with
  | .fin n m e => .fin n m (e + k)
  | w => w

/-- The table T of R85: 2^(k/4) in Q1.11. -/
def lnsT (k : Nat) : Nat := match k with
  | 0 => 2048 | 1 => 2435 | 2 => 2896 | _ => 3444

/-- The signed exponent of an LNS6 code (R84). -/
def lnsExp (c : Nat) : Int := if c % 32 < 16 then (c % 32 : Nat) else ((c % 32 : Nat) : Int) - 32
/-- The sign of an LNS6 code. -/
def lnsNeg (c : Nat) : Bool := c / 32 % 2 == 1
/-- Zero and NaR. -/
def lnsZero (c : Nat) : Bool := c % 64 == 0x10
def lnsNaR (c : Nat) : Bool := c % 64 == 0x30

/-- decode of an LNS6 code: lns_val (R85); NaR is shown as NaN. -/
def lnsVal (c : Nat) : Val :=
  if lnsNaR c then .nan false
  else if lnsZero c then .fin false 0 0
  else
    let e := lnsExp c
    .fin (lnsNeg c) (lnsT (e % 4).toNat) (e / 4 - 11)

/-- thr(k) = round(2^((k + 0.5)/4), FP32, RNE) (R90), as mantissa and exponent: 2^((2j+1)/8) in FP32 for j = k mod 4. -/
def thrMant (j : Nat) : Nat := match j with
  | 0 => 9147842 | 1 => 10878679 | 2 => 12937002 | _ => 15384775
def thr (k : Int) : Nat × Int := (thrMant (k % 4).toNat, k / 4 - 23)

/-- |v| < thr(k) for a finite magnitude. -/
def belowThr (m : Nat) (e : Int) (k : Int) : Bool :=
  let (t, te) := thr k
  (sumInt false m e true t te).1 < 0

/-- The smallest k in −15..14 with a < thr(k), counting up from `k`; 15 when there is none. -/
def lnsFind (fuel : Nat) (m : Nat) (e : Int) (k : Int) : Int :=
  match fuel with
  | 0 => k
  | f + 1 => if belowThr m e k then k else lnsFind f m e (k + 1)

/-- lns_q(x) of R90; x is already divided by its scale. -/
def lnsQ (v : Val) : Nat × Flags :=
  match v with
  | .nan _ => (0x30, fNV)
  | .inf _ => (0x30, fNV)
  | .fin n m e =>
    if belowThr m e (-16) then (0x10, 0)
    else if belowThr m e 14 then
      let k := lnsFind 30 m e (-15)
      (bnat n * 32 + wrapInt 5 k, 0)
    else (bnat n * 32 + 15, if belowThr m e 15 then 0 else fQSAT)

/-- The formats a block may be quantised to (R90). -/
inductive QFmt | lns6 | e4m3 | e5m2
  deriving DecidableEq, Repr

/-- scale_code(amax, F) of R90; amax is an FP32 code. -/
def scaleCode (F : QFmt) (amax : Nat) : Nat × Flags :=
  match unpack .f32 amax with
  | .nan _ => (255, 0)
  | .inf _ => (255, 0)
  | .fin _ m e =>
    if m = 0 then (0, 0)
    else
      let E : Int := Nat.log2 m + e
      let s := E - (match F with
        | .lns6 => 3 | .e4m3 => 8 | .e5m2 => 15)
      if s < -127 then (0, fSCUF) else ((s + 127).toNat, 0)

/-- The exponent of an E8M0 scale code that is not 255 (R83). -/
def e8m0Exp (c : Nat) : Int := (c : Int) - 127

/-- Quantise an FP32 value to an FP8 format under scale code c (R90). -/
def qFp8 (F : Fmt) (c : Nat) (x : Nat) : Nat × Flags :=
  if c = 255 then (F.nan, fNV)
  else
    match unpack .f32 x with
    | .nan _ => (F.nan, fNV)
    | v => roundVal F .rne true (scaleV v (-(e8m0Exp c)))

/-- Quantise an FP32 value to LNS6 under scale code c (R90, R175). -/
def qLns (c : Nat) (x : Nat) : Nat × Flags :=
  if c = 255 then (0x30, fNV) else lnsQ (scaleV (unpack .f32 x) (-(e8m0Exp c)))

/-- Dequantise an LNS6 code to FP32 (R175). -/
def dqLns (c code : Nat) : Nat × Flags :=
  if c = 255 then (Fmt.f32.nan, if lnsNaR code then fNV else 0)
  else if lnsNaR code then (Fmt.f32.nan, fNV)
  else roundVal .f32 .rne false (scaleV (lnsVal code) (e8m0Exp c))

/-- Dequantise an FP8 code to FP32 (R175). -/
def dqFp8 (F : Fmt) (c code : Nat) : Nat × Flags :=
  if c = 255 then (Fmt.f32.nan, 0)
  else
    match unpack F code with
    | .nan _ => (Fmt.f32.nan, 0)
    | v => roundVal .f32 .rne false (scaleV v (e8m0Exp c))

/-- fx_from(x, σ) of R93: the integer, NV and OV. -/
def fxFrom (x : Nat) (σ : Int) : Int × Bool × Bool :=
  match unpack .f32 x with
  | .nan _ => (0, true, false)
  | .inf n => (if n then intLo 64 false else intHi 64 false, false, true)
  | v =>
    let (i, f) := toInt 64 .rne (scaleV v (-σ))
    (i, false, f &&& fQSAT != 0)

/-- One level of the tree of R91 over pairs. -/
def treeLevel (F : Fmt) (xs : List Nat) : List Nat × Flags :=
  match xs with
  | a :: b :: t =>
    let (c, f) := fAdd F .rne a b
    let (r, f') := treeLevel F t
    (c :: r, f ||| f')
  | [a] => ([a], 0)
  | [] => ([], 0)

/-- sum_tree of R91 over a list whose length is a power of two. -/
def sumTree (F : Fmt) (fuel : Nat) (xs : List Nat) : Nat × Flags :=
  match fuel with
  | 0 => (xs.headD (signed F true 0), 0)
  | k + 1 =>
    match xs with
    | [] => (signed F true 0, 0)
    | [a] => (a, 0)
    | _ =>
      let (ys, f) := treeLevel F xs
      let (r, f') := sumTree F k ys
      (r, f ||| f')

/-- Carry-less product (R151): bit n is the XOR over p + q = n. -/
def clmulNat (w a b : Nat) : Nat :=
  (List.range w).foldl (fun acc i => if a >>> i % 2 = 1 then acc ^^^ (b <<< i) else acc) 0

/-- The value of one element of a matrix operand (R92): FP16, BF16, FP64, an FP8, or LNS6. -/
def blockFinish (S : Int) (e : Int) (neg0 : Bool) : Nat × Flags := roundVal .f32 .rne false (ofIntExp S e neg0)

end Sys2Proof.Machine
end

