-- ==== Sys2Proof/Machine/Phys.lean ====
section
/-! DEFINITION. Physical memory: the address map (R10, R11, R405), alias windows (R188, R189), the L2s and their coherence with
home memory (R179, R180, R30 to R35), and the tile directory's movement of tiles between clusters and home (R210 to R216). -/

namespace Sys2Proof.Machine

/-- The ranges of R10. -/
inductive Region
  | hbm
  | scratch (alias_ g off : Nat)
  | host
  | cfg
  | peer (p off : Nat)
  | none
  deriving DecidableEq, Repr

def scratchBase : Nat := 0x100000000000
def hostBase : Nat := 0x200000000000
def cfgBase : Nat := 0x400000000000
def peerBase : Nat := 0x80000000000000

/-- The range a physical address lies in (R10). -/
def regionOf (pa : Nat) : Region :=
  if pa < 0x40000000000 then .hbm
  else if scratchBase ≤ pa ∧ pa < scratchBase + 0x2000000000 then
    let o := pa - scratchBase
    .scratch (o >>> 34) (o >>> 23 % 2048) (o % 2 ^ 23)
  else if hostBase ≤ pa ∧ pa < hostBase + 2 ^ 44 then .host
  else if cfgBase ≤ pa ∧ pa < cfgBase + 2 ^ 40 then .cfg
  else if peerBase ≤ pa ∧ pa < 2 ^ 56 then .peer ((pa - peerBase) >>> 44) (pa % 2 ^ 44)
  else .none

def isHbm (pa : Nat) : Bool := pa < 0x40000000000

/-- The physical address of a scratchpad offset through alias 0. -/
def scratchAddr (g off : Nat) : Nat := scratchBase + (g <<< 23) + off

/-- A cluster's scratchpad size in bytes (R178). -/
def Cluster.spSize (c : Cluster) : Nat := c.spways.toNat * 0x80000

/-- The fields of ALIASCFG (R188). -/
structure AliasCfg where
  en : Bool
  fmt : Nat
  smode : Nat
  raw : Nat
  st : Nat
  deriving DecidableEq, Repr

def Cluster.aliasOf (c : Cluster) (a : Nat) : AliasCfg :=
  let w := (c.aliascfg.toList.getD a 0)
  ⟨bit w 0, bits w 5 1, bits w 7 6, bits w 26 16 * 4096, bits w 44 32 * 1024⟩

/-- Raw byte offsets that element `e` of an alias view needs (R189): the first raw byte, and how many. -/
def AliasCfg.rawAt (k : AliasCfg) (e : Nat) : Nat × Nat :=
  if k.fmt = 14 then
    let b := 6 * (e % 16)
    (k.raw + 12 * (e / 16) + b / 8, if b % 8 > 2 then 2 else 1)
  else (k.raw + e, 1)

/-- The scale byte's offset for element `e`, where there is one. -/
def AliasCfg.scaleAt (k : AliasCfg) (e : Nat) : Option Nat :=
  match k.smode with
  | 1 => some (k.st + e / 32)
  | 2 => some k.st
  | _ => none

/-- Whether view element `e` and all it needs lie inside the scratchpad (R189). -/
def AliasCfg.fits (k : AliasCfg) (size e : Nat) : Bool :=
  let (r, n) := k.rawAt e
  2 * e + 1 < size && r + n ≤ size && (match k.scaleAt e with
    | some t => t < size
    | none => true)

/-- The raw code of view element `e` in cluster `g`. -/
def State.aliasCode (s : State) (g : Nat) (k : AliasCfg) (e : Nat) : Nat :=
  let (r, n) := k.rawAt e
  if k.fmt = 14 then (mread s.mem (scratchAddr g r) n >>> (6 * (e % 16) % 8)) % 64
  else mread s.mem (scratchAddr g r) 1

/-- The scale code of view element `e`: 127 (scale 1) under SMODE 00. -/
def State.aliasScale (s : State) (g : Nat) (k : AliasCfg) (e : Nat) : Nat :=
  match k.scaleAt e with
  | some t => mread s.mem (scratchAddr g t) 1
  | none => 127

/-- A stored code of an element format, as a value (R85, R188): 12 E4M3, 13 E5M2, 14 LNS6. -/
def codeVal (fmt code : Nat) : Val :=
  if fmt = 14 then lnsVal code else if fmt = 13 then unpack .e5m2 code else unpack .e4m3 code

/-- The BF16 a read of view element `e` returns (R189). -/
def State.aliasRead (s : State) (g : Nat) (k : AliasCfg) (e : Nat) : Nat :=
  let c := s.aliasScale g k e
  if c = 255 then Fmt.bf16.nan
  else match codeVal k.fmt (s.aliasCode g k e) with
    | .nan _ => Fmt.bf16.nan
    | v => (roundVal .bf16 .rne false (scaleV v (e8m0Exp c))).1

/-- Home memory with view element `e` written as BF16 `y` (R189): only the element's raw bits change. -/
def State.aliasWrite (s : State) (g : Nat) (k : AliasCfg) (e y : Nat) : State :=
  let c := s.aliasScale g k e
  let v := unpack .bf16 y
  let q : Nat :=
    if k.fmt = 14 then (if c = 255 then 0x30 else (lnsQ (scaleV v (-(e8m0Exp c)))).1)
    else
      let F : Fmt := if k.fmt = 13 then .e5m2 else .e4m3
      if c = 255 then F.nan else (roundVal F .rne true (scaleV v (-(e8m0Exp c)))).1
  let (r, n) := k.rawAt e
  let a := scratchAddr g r
  if k.fmt = 14 then
    let sh := 6 * (e % 16) % 8
    let old := mread s.mem a n
    let new := old - ((old >>> sh) % 64) <<< sh + (q % 64) <<< sh
    { s with mem := mwrite s.mem a n new }
  else { s with mem := mwrite s.mem a 1 q }

/-- Bytes of a read through an alias view, from view offset `o`, `n` bytes. -/
def State.aliasBytes (s : State) (g : Nat) (k : AliasCfg) (o n : Nat) : Nat :=
  match n with
  | 0 => 0
  | j + 1 => (s.aliasRead g k (o / 2) >>> (8 * (o % 2))) % 256 + 256 * s.aliasBytes g k (o + 1) j

/-- A write of whole view elements from an even view offset, `n` elements. -/
def State.aliasStore (s : State) (g : Nat) (k : AliasCfg) (o n v : Nat) : State :=
  match n with
  | 0 => s
  | j + 1 => (s.aliasWrite g k (o / 2) (v % 65536)).aliasStore g k (o + 2) j (v / 65536)

/-- The blocks of configuration space (R405). -/
inductive CfgBlock
  | cluster (g off : Nat)
  | slice (k off : Nat)
  | dispatcher (d off : Nat)
  | tt (i off : Nat)
  | recording (d off : Nat)
  | sampctl (off : Nat)
  | replay (off : Nat)
  | classes (off : Nat)
  | debug (d off : Nat)
  | session (j off : Nat)
  deriving DecidableEq, Repr

/-- The block of a live unit that holds a configuration address, if one does (R405). -/
def State.cfgBlock (s : State) (pa : Nat) : Option CfgBlock :=
  let o := pa - cfgBase
  if pa < cfgBase then none
  else if o < 2048 * 0x10000 then (if s.clusterLive (o >>> 16) then some (.cluster (o >>> 16) (o % 0x10000)) else none)
  else if 0x8000000000 ≤ o ∧ o < 0x8000000000 + 64 * 0x10000 then
    some (.slice ((o - 0x8000000000) >>> 16) (o % 0x10000))
  else if 0x9000000000 ≤ o ∧ o < 0x9000000000 + 16 * 0x10000 then
    (let d := (o - 0x9000000000) >>> 16
     if s.dieLive d then some (.dispatcher d (o % 0x10000)) else none)
  else if 0xA000000000 ≤ o ∧ o < 0xA000000000 + 0x8000 then
    some (.tt ((o - 0xA000000000) / 64) (o % 64))
  else if 0xB000000000 ≤ o ∧ o < 0xB000000000 + 16 * 0x10000 then
    (let d := (o - 0xB000000000) >>> 16
     if s.dieLive d then some (.recording d (o % 0x10000)) else none)
  else if 0xB100000000 ≤ o ∧ o < 0xB100000000 + 0x10000 then some (.sampctl (o % 0x10000))
  else if 0xB200000000 ≤ o ∧ o < 0xB200000000 + 0x10000 then some (.replay (o % 0x10000))
  else if 0xC000000000 ≤ o ∧ o < 0xC000000000 + 0x1000 then some (.classes (o % 0x1000))
  else if 0xD000000000 ≤ o ∧ o < 0xD000000000 + 16 * 0x10000 then
    (let d := (o - 0xD000000000) >>> 16
     if s.dieLive d then some (.debug d (o % 0x10000)) else none)
  else if 0xE000000000 ≤ o ∧ o < 0xE000000000 + 0x1000 then
    some (.session ((o - 0xE000000000) / 64) (o % 64))
  else none

/-- What kind of access a check is made for. -/
inductive AccKind | read | write | atomic | fetch
  deriving DecidableEq, Repr

/-- Whether an access of `n` bytes at `pa` passes the access check of R11, R188, R189, R388, R400 and R405. -/
def State.accessOk (s : State) (k : AccKind) (pa n : Nat) : Bool :=
  match regionOf pa with
  | .hbm => isHbm (pa + n - 1)
  | .scratch a g off =>
    let c := s.cluster g
    s.clusterLive g && off + n ≤ 2 ^ 23 &&
    (if a = 0 then off + n ≤ c.spSize
     else
      let w := c.aliasOf a
      w.en &&
      (match k with
       | .atomic => false
       | .write => off % 2 == 0 && n % 2 == 0 && w.fits c.spSize ((off + n - 1) / 2) && w.fits c.spSize (off / 2)
       | _ => w.fits c.spSize ((off + n - 1) / 2) && w.fits c.spSize (off / 2)))
  | .host => regionOf (pa + n - 1) == .host
  | .cfg => (n = 1 ∨ n = 2 ∨ n = 4 ∨ n = 8) && pa % n == 0 && (s.cfgBlock pa).isSome
  | .peer p off => s.host.peers.contains p && off + n ≤ 0x40000000000
  | .none => false

/-- XOR of the `n`-bit groups of pa[54:7] (R183). -/
def fold (pa n : Nat) : Nat :=
  (List.range (48 / n)).foldl (fun v j => v ^^^ ((pa >>> (7 + n * j)) % 2 ^ n)) 0

/-- The home slice of a line (R183). -/
def homeSlice (pa : Nat) (hdie : BitVec 4) (il : BitVec 2) : Nat :=
  let d := hdie.toNat
  match il.toNat with
  | 0 => d / 4 * 16 + fold pa 4
  | 1 => fold pa 6
  | _ => d / 4 * 16 + 4 * (d % 4) + fold pa 2

/-- The stack that stores a line (R183). -/
def storageStack (pa : Nat) : Nat := (pa >>> 40) % 4 * 8 + fold pa 3

def Xlat.slice (x : Xlat) : Nat := homeSlice x.pa x.hdie x.il

/-- Spread a sector mask to a byte mask over 128 bytes (R209). -/
def sectorBytes (m : BitVec 8) : BitVec 128 :=
  BitVec.ofNat 128 ((List.range 8).foldl (fun a k => if m.getLsbD k then a + 0xFFFF <<< (16 * k) else a) 0)

/-- Spread a byte mask to a bit mask over a line. -/
def byteBits (m : BitVec 128) : LineData :=
  BitVec.ofNat 1024 ((List.range 128).foldl (fun a k => if m.getLsbD k then a + 0xFF <<< (8 * k) else a) 0)

/-- `new` where the byte mask is set, `old` elsewhere. -/
def mergeLine (old new : LineData) (m : BitVec 128) : LineData :=
  let b := byteBits m
  (old &&& ~~~b) ||| (new &&& b)

/-- The sectors that bytes [o, o+n) of a line lie in. -/
def sectorsOf (o n : Nat) : BitVec 8 :=
  BitVec.ofNat 8 ((List.range 8).foldl (fun a k => if 16 * k < o + n ∧ o < 16 * k + 16 then a + 2 ^ k else a) 0)

/-- The mask of bytes [o, o+n) of a line. -/
def bytesOf (o n : Nat) : BitVec 128 := BitVec.ofNat 128 ((2 ^ n - 1) <<< o)

/-- Byte `o` of a line. -/
def lineByte (d : LineData) (o : Nat) : Byte := d.extractLsb' (8 * o) 8

/-- Bytes [o, o+n) of a line, as a number. -/
def lineRead (d : LineData) (o n : Nat) : Nat := (d.toNat >>> (8 * o)) % 2 ^ (8 * n)

/-- A tile's sectors of a line. -/
def Tile.mask (t : Tile) (line : Nat) : BitVec 8 := (tfind t.sectors line).getD 0
/-- The lines that hold sectors of a tile. -/
def Tile.lines (t : Tile) : List Nat := t.sectors.map (·.1)

/-- The home slice of a line under a translation's fields (R183). -/
def Xlat.homeOf (x : Xlat) (line : Nat) : Nat := homeSlice (line * lineBytes) x.hdie x.il

/-- The home slice of a line that lies in captured pages (R183). -/
def lineHome (ps : Pages) (line : Nat) : Nat :=
  match ps.find? (fun x => x.pa / 4096 == line / 32) with
  | some x => x.homeOf line
  | none => homeSlice (line * lineBytes) 0 0

/-- Whether a tile's sectors of a line are tracked at a home slice, or at any: the home of a line through another mapping knows nothing of it
(R184, R210). -/
def Tile.at_ (t : Tile) (home : Option Nat) (line : Nat) : Bool := home.all (· == lineHome t.pages line)

/-- The sectors of a line that some tile covers at a home slice, or at any (R210). -/
def State.tileMask (s : State) (home : Option Nat) (line : Nat) : BitVec 8 :=
  s.tiles.foldl (fun m t => if t.at_ home line then m ||| t.mask line else m) 0

/-- Replace a tile, named by its physical base. -/
def State.setTile (s : State) (t : Tile) : State := { s with tiles := s.tiles.map fun u => if u.pa = t.pa then t else u }

/-- A tile by its physical base. -/
def State.tileAt (s : State) (pa : Nat) : Option Tile := s.tiles.find? (·.pa = pa)

/-- The tiles that bytes [pa, pa + n) touch, at a home slice or at any. -/
def State.tilesAt (s : State) (home : Option Nat) (pa n : Nat) : List Tile :=
  let line := pa / lineBytes
  let m := sectorsOf (pa % lineBytes) n
  s.tiles.filter fun t => t.at_ home line && t.mask line &&& m ≠ 0

/-- A memory request that gets no answer: to a silent peer (R392), or to a scratchpad of a stopped die (R397). -/
def State.silent (s : State) (pa : Nat) : Bool :=
  match regionOf pa with
  | .peer p _ => s.host.mutePeers.contains p
  | .scratch _ h _ => (s.die (dieOfCluster h)).stopped
  | _ => false

/-- Count `n` requests that arrive at a home slice while none of them has left (R185, R204): PEAK and WAITS follow. -/
def State.countReads (s : State) (slice n : Nat) : State :=
  if n = 0 then s
  else s.modSlice slice fun k =>
    let occ := k.held.length
    let top := min 16 (occ + n)
    { k with peak := if k.peak.toNat < top then BitVec.ofNat 5 top else k.peak
             waits := k.waits + BitVec.ofNat 32 (occ + n - 16) }

/-- Count one request for a line, which only device HBM has a home slice for. -/
def State.countLine (s : State) (slice line : Nat) : State := if isHbm (line * lineBytes) then s.countReads slice 1 else s

/-- The producer that a tile transfer or a line's leaving its L2 names (R103): kind 10, the home slice, with the task that issued the
transfer, or task 0 where no transfer was issued. -/
def State.sliceWake (s : State) (task : Word) (slice : Nat) : Wake := ⟨task, BitVec.ofNat 32 (10 * 2 ^ 28 + slice), s.now, 0, false⟩
def State.lineLeft (s : State) (slice : Nat) : Wake := s.sliceWake 0 slice

/-- LR reservations that `p` selects are lost (R102): their contexts remember who ended them, and a WRS waiter is woken. -/
def State.loseIf (s : State) (p : Nat → Reservation → Bool) (w : Wake) : State :=
  { s with ctxs := s.ctxs.map fun (cid, c) =>
      match c.reservation with
      | some r =>
        if p cid r then
          let c := { c with reservation := none, lostBy := some w }
          (cid, match c.wait with
            | some wt => if (wt.kind = .wrsNto ∨ wt.kind = .wrsSto) ∧ c.wake = none then { c with wake := some w } else c
            | none => c)
        else (cid, c)
      | none => (cid, c) }

/-- A write to a line ends every reservation of it but that of context `keep`; `only` limits this to one cluster. -/
def State.loseReservations (s : State) (line : Nat) (keep : Option Nat) (only : Option Nat) (w : Wake) : State :=
  s.loseIf (fun cid r => r.pa / lineBytes = line ∧ some cid ≠ keep ∧ (only = none ∨ only = some (clusterOf cid))) w

/-- The lines that bytes [pa, pa + n) lie in. -/
def linesFrom (pa n : Nat) : List Nat := (List.range ((pa + n - 1) / lineBytes + 1 - pa / lineBytes)).map (pa / lineBytes + ·)

/-- The stored bytes that an access of [pa, pa + n) touches, first and count: through an alias view its raw bytes (R189). -/
def State.storedSpan (s : State) (pa n : Nat) : Nat × Nat :=
  match regionOf pa with
  | .scratch a h off =>
    if a = 0 then (pa, n)
    else
      let k := (s.cluster h).aliasOf a
      let first := k.rawAt (off / 2)
      let last := k.rawAt ((off + n - 1) / 2)
      (scratchAddr h first.1, last.1 + last.2 - first.1)
  | _ => (pa, n)

/-- The lines those bytes lie in. -/
def State.storedLines (s : State) (pa n : Nat) : List Nat := linesFrom (s.storedSpan pa n).1 (s.storedSpan pa n).2

/-- All the stored bytes that a read of [pa, pa + n) needs: through an alias view its raw bytes and its scale bytes (R189). -/
def State.storedPieces (s : State) (pa n : Nat) : List (Nat × Nat) :=
  s.storedSpan pa n :: match regionOf pa with
    | .scratch a h off =>
      if a = 0 then []
      else
        let k := (s.cluster h).aliasOf a
        match k.scaleAt (off / 2), k.scaleAt ((off + n - 1) / 2) with
        | some i, some j => [(scratchAddr h i, j + 1 - i)]
        | _, _ => []
    | _ => []

/-- A store to [pa, pa + n) ends every other context's reservation of a line it writes (R102), and the writer's own where it writes the
reserved bytes: its SC would else follow a write between it and its LR (R31; log entry 66). -/
def State.loseAt (s : State) (pa n : Nat) (keep : Option Nat) (w : Wake) : State :=
  let q := s.storedSpan pa n
  s.loseIf (fun cid r => (linesFrom q.1 q.2).contains (r.pa / lineBytes) ∧
    (some cid ≠ keep ∨ (q.1 < r.pa + r.size ∧ r.pa < q.1 + q.2))) w

/-- Remove the sectors of `m` of a cluster's line; a line with no valid sector is gone. -/
def State.dropSectors (s : State) (g line : Nat) (m : BitVec 8) : State :=
  match tfind (s.cluster g).l2 line with
  | none => s
  | some l =>
    let v := l.valid &&& ~~~m
    s.modCluster g fun c =>
      { c with l2 := if v = 0 then tdel c.l2 line
          else tput c.l2 line { l with valid := v, dirty := l.dirty &&& sectorBytes v } }

/-- The sectors of `m` of a line leave a cluster's L2, and with them the reservations on bytes that they hold (R102, R216). -/
def State.leaveSectors (s : State) (g line : Nat) (m : BitVec 8) (w : Wake) : State :=
  match tfind (s.cluster g).l2 line with
  | none => s
  | some l =>
    (s.dropSectors g line m).loseIf (fun cid r => clusterOf cid = g ∧ r.pa / lineBytes = line ∧
      sectorsOf (r.pa % lineBytes) r.size &&& (m &&& l.valid) ≠ 0) w

/-- The context and task that a write-back is counted to where it times out (R196 names the issuing core; replacement has none, so the
model takes the context that was issuing, or the cluster's first: log entry 63). -/
def State.writer (s : State) (g : Nat) : Nat := if clusterOf s.cur = g then s.cur else g * 48

/-- Dirty bytes of a line set out for home (R180): they land when WRITEBACK_MERGE or a request for the line merges them. -/
def State.sendVictim (s : State) (g line : Nat) (l : L2Line) : State :=
  if l.dirty = 0 then s
  else s.modCluster g fun c => { c with victims := c.victims ++ [⟨line, l, s.writer g, (s.ctx (s.writer g)).qtid, s.now⟩] }

/-- Merge the dirty bytes of a line at home, byte by byte (R180). -/
def State.mergeHome (s : State) (line : Nat) (l : L2Line) : State :=
  { s with mem := mmerge s.mem (line * lineBytes) lineBytes l.dirty.toNat l.data.toNat }.countLine l.home line

/-- Write back the dirty bytes of a cluster's line within the sectors of `m`, and mark them clean (R180). A write-back to a silent peer
is on its way until it times out (R196). -/
def State.writeBack (s : State) (g line : Nat) (m : BitVec 8) : State :=
  match tfind (s.cluster g).l2 line with
  | none => s
  | some l =>
    let d := l.dirty &&& sectorBytes m
    if d = 0 then s
    else
      let s := if s.silent (line * lineBytes) then s.sendVictim g line { l with dirty := d } else s.mergeHome line { l with dirty := d }
      s.modCluster g fun c => { c with l2 := tput c.l2 line { l with dirty := l.dirty &&& ~~~d } }

/-- Whether a victim is merged before a request of cluster `own` for its line is served: coherence reaches every victim but those of SW
memory, which only their own cluster's requests meet (R35). -/
def State.lands (s : State) (own : Option Nat) (line g : Nat) (v : Victim) : Bool :=
  v.line == line && (!v.l.sw || own == some g) && !s.silent (line * lineBytes)

/-- Merge the victims of a line that are on their way home before a request for it is served there. -/
def State.landVictims (s : State) (own : Option Nat) (line : Nat) : State :=
  let vs := s.clusters.flatMap fun (g, c) => c.victims.filter (s.lands own line g)
  if vs = [] then s
  else
    let s := { s with clusters := s.clusters.map fun (g, c) => (g, { c with victims := c.victims.filter fun v => !s.lands own line g v }) }
    vs.foldl (fun s v => s.mergeHome v.line v.l) s

/-- The victim at place `i` of a cluster is merged at home (R180). -/
def State.mergeVictim (s : State) (g i : Nat) : State :=
  match (s.cluster g).victims[i]? with
  | none => s
  | some v =>
    if s.silent (v.line * lineBytes) then s
    else (s.modCluster g fun c => { c with victims := c.victims.eraseIdx i }).mergeHome v.line v.l

/-- The clusters that hold a copy of a line that coherence reaches: not copies of SW memory (R35), and where the accesses of one home are
meant, only copies that this home filled (R184). -/
def State.holdersOf (s : State) (home : Option Nat) (line : Nat) : List Nat :=
  s.clusters.filterMap fun (g, c) => match tfind c.l2 line with
    | some l => if l.sw || (home.isSome && home != some l.home) then none else some g
    | none => none

/-- Write back and remove the sectors of `m` of a line from one cluster; a reservation it takes along names the line's home. -/
def State.evictSectors (s : State) (g line : Nat) (m : BitVec 8) : State :=
  match tfind (s.cluster g).l2 line with
  | none => s
  | some l => (s.writeBack g line m).leaveSectors g line m (s.lineLeft l.home)

/-- Write back the sectors of `m` of a line from every cluster but `g` that coherence reaches. -/
def State.recallDirty (s : State) (home g : Option Nat) (line : Nat) (m : BitVec 8) : State :=
  (s.holdersOf home line).foldl (fun s h => if some h = g then s else s.writeBack h line m) (s.landVictims g line)

/-- Write back and remove the sectors of `m` of a line from every cluster but `g` that coherence reaches. -/
def State.recallAll (s : State) (home g : Option Nat) (line : Nat) (m : BitVec 8) : State :=
  (s.holdersOf home line).foldl (fun s h => if some h = g then s else s.evictSectors h line m) (s.landVictims g line)

/-- Host copies of a line are back-invalidated (R213, R235). -/
def State.backInvalidate (s : State) (line : Nat) : State :=
  if s.host.hostLines.any fun p => p.1 == line then { s with host := { s.host with hostLines := s.host.hostLines.filter fun p => p.1 ≠ line } } else s

/-- Accepted accumulates of a line that a read or an owner at home waits for are applied first (R235): their values were placed
at acceptance (R246), so what is left is their flags and their places in the pending queue. -/
def State.applyPending (s : State) (line : Nat) : State :=
  { s with slices := s.slices.map fun (i, k) =>
      let (now, later) := k.pend.partition fun a => a.dst.pa / lineBytes == line
      (i, { k with pend := later, accst := now.foldl (fun f a => f ||| a.flags) k.accst }) }

/-- Every line of a tile written back and dropped by one holder (R213). -/
def State.tileDrop (s : State) (t : Tile) (g : Nat) (w : Wake) : State :=
  t.sectors.foldl (fun s (line, m) => (s.writeBack g line m).leaveSectors g line m w) s

/-- One holder gives a tile up (R213): H if it was the only one, else S without it. -/
def State.releaseFrom (s : State) (t : Tile) (g : Nat) (w : Wake) : State :=
  let hs := t.holders.filter (· ≠ g)
  (s.tileDrop t g w).setTile { t with st := if hs = [] then .h else .s, holders := hs }

/-- Recall a tile to H (R213, R216): holders write back and drop. -/
def State.tileRecall (s : State) (t : Tile) (w : Wake) : State :=
  (t.holders.foldl (fun s g => s.tileDrop t g w) s).setTile { t with st := .h, holders := [], dst := 0 }

/-- The ways of a cluster's L2 (R178), its lines in the set of a line, and the stamps of its most and least recently used line. -/
def Cluster.ways (c : Cluster) : Nat := 16 - c.spways.toNat
def Cluster.setOf (c : Cluster) (line : Nat) : Table L2Line :=
  c.l2.filter fun p => Config.freeSet p.1 % Config.l2Sets == Config.freeSet line % Config.l2Sets
def Cluster.newest (c : Cluster) : Int := c.l2.foldl (fun m p => max m p.2.used) 0
def Cluster.oldest (c : Cluster) : Int := c.l2.foldl (fun m p => min m p.2.used) 0

/-- The line that replacement takes from a full set (R187): the least recently used of those of a class other than keep, and of the keep
lines only where the set holds no other. Lines of a tile under fill (`avoid`) are never taken (R214). -/
def Cluster.victim (c : Cluster) (line : Nat) (avoid : List Nat) : Option Nat :=
  let cands := (c.setOf line).filter fun p => !avoid.contains p.1
  let other := cands.filter fun p => p.2.cls ≠ 1
  ((if other = [] then cands else other).foldl (fun (o : Option (Nat × L2Line)) p => match o with
    | none => some p
    | some q => if p.2.used < q.2.used then some p else some q) none).map (·.1)

/-- A line leaves an L2 by replacement: a tile with a sector in it is released whole (R213), and its dirty bytes set out for home. -/
def State.evictLine (s : State) (g line : Nat) : State :=
  let s := (s.tiles.filter fun t => t.mask line ≠ 0 && t.holders.contains g && t.st ≠ .f).foldl (fun s t => s.releaseFrom t g (s.lineLeft t.home)) s
  match tfind (s.cluster g).l2 line with
  | none => s
  | some l => (s.leaveSectors g line 255 (s.lineLeft l.home)).sendVictim g line l

/-- Whether a line can be placed with no line leaving: its set has a free way. -/
def Cluster.hasWay (c : Cluster) (line : Nat) : Bool := decide (c.l2.length < c.ways) || decide ((c.setOf line).length < c.ways)

/-- Make room for a line that an L2 does not hold (R178, R187). -/
def State.makeWay (s : State) (g line : Nat) (avoid : List Nat) : State :=
  if (tfind (s.cluster g).l2 line).isSome || (s.cluster g).hasWay line then s
  else match (s.cluster g).victim line avoid with
    | some v => s.evictLine g v
    | none => s

/-- Whether an L2 cannot allocate every line of a tile at once (R214): some set has fewer ways than the tile has lines in it. -/
def State.declines (s : State) (t : Tile) (g : Nat) : Bool :=
  let ways := (s.cluster g).ways
  decide (ways < t.sectors.length) && t.lines.any fun l =>
    decide (ways < (t.lines.filter fun k => Config.freeSet k % Config.l2Sets == Config.freeSet l % Config.l2Sets).length)

/-- The allocation class of a tensor ID (R187). -/
def State.classOf (s : State) (tid : BitVec 12) : BitVec 2 := (tfind s.classes tid.toNat).getD 0

/-- A line as a fill first places it (R187): keep beyond 12 ways of the set is normal, and stream and no-allocate go in least recently
used. -/
def Cluster.newLine (c : Cluster) (line : Nat) (tid : BitVec 12) (sw : Bool) (home : Nat) (cls : BitVec 2) : L2Line :=
  let keeps := c.l2.filter fun p => p.2.cls = 1
  let full := decide (Config.keepWays ≤ keeps.length) && decide (Config.keepWays ≤ ((c.setOf line).filter fun p => p.2.cls = 1).length)
  let free := (List.range 16).filter fun w => decide (c.spways.toNat ≤ w) && !((c.setOf line).any fun p => p.2.way = w)
  ⟨0, 0, 0, tid, sw, home, if cls = 1 ∧ full then 0 else cls, if cls.toNat < 2 then c.newest + 1 else c.oldest - 1,
    free.getD (Config.freeWay line % free.length) 0⟩

/-- Place or find a line in an L2 and change it by `f`; `avoid` are lines that must stay. A line that the L2 holds keeps the tag and the class of its
first allocation (R186), a seam line of a KEEP tile too, of which R208 does not say when it turns to the keep class (DESIGN CHOICE, log entry
91). -/
def State.putLine (s : State) (g line : Nat) (tid : BitVec 12) (sw : Bool) (home : Nat) (cls : BitVec 2) (avoid : List Nat)
    (f : L2Line → L2Line) : State :=
  (s.makeWay g line avoid).modCluster g fun c =>
    { c with l2 := tput c.l2 line (f ((tfind c.l2 line).getD (c.newLine line tid sw home cls))) }

/-- Fill the sectors of `m` of a line from home into a cluster's L2 (R179); sectors already valid keep their bytes. -/
def State.fill (s : State) (g line : Nat) (m : BitVec 8) (tid : BitVec 12) (sw : Bool) (home : Nat) (cls : BitVec 2) (avoid : List Nat) : State :=
  let h := mline s.mem line
  s.putLine g line tid sw home cls avoid fun l =>
    { l with data := mergeLine l.data h (sectorBytes (m &&& ~~~l.valid)), valid := l.valid ||| m }

/-- A use makes a line the most recently used (R187). -/
def State.touch (s : State) (g line : Nat) : State :=
  match tfind (s.cluster g).l2 line with
  | none => s
  | some l =>
    if l.used = (s.cluster g).newest then s
    else s.modCluster g fun c => { c with l2 := tput c.l2 line { l with used := c.newest + 1 } }

/-- Mark a line as the first that its L2 evicts (R330). -/
def State.firstOut (s : State) (g line : Nat) : State :=
  match tfind (s.cluster g).l2 line with
  | none => s
  | some l => s.modCluster g fun c => { c with l2 := tput c.l2 line { l with used := c.oldest - 1 } }

/-- The tag and class of a tile's line (R208, R216): lines wholly of the tile take its tensor, seam lines the tag `tid`. -/
def Tile.tag (t : Tile) (m : BitVec 8) (tid : BitVec 12) : BitVec 12 := if m = 255 then t.tensor else tid
def State.tileClass (s : State) (t : Tile) (tag : BitVec 12) : BitVec 2 := if t.keep then 1 else s.classOf tag

/-- The kinds of home write a compared stream records (R382): device HBM lines of either partition. -/
def aRelative (pa : Nat) : Nat := pa % 2 ^ 41

/-- Record a write to a line's home in its stack's stream (R382). Partition B is panels 2 and 3. -/
def State.streamWrite (s : State) (line : Nat) (settle : Bool) (mask : BitVec 128) (data : LineData) (task : Word) (launch : Nat) : State :=
  if !s.replay.cmp || !isHbm (line * lineBytes) then s
  else
    let pa := line * lineBytes
    let e : StreamEntry := ⟨aRelative pa / lineBytes, settle, mask, data, task, launch⟩
    let st := storageStack pa % 16
    let r := s.replay
    let r' : Replay :=
      if pa < 2 ^ 41 then { r with streamA := tput r.streamA st ((tfind r.streamA st).getD [] ++ [e]) }
      else { r with streamB := tput r.streamB st ((tfind r.streamB st).getD [] ++ [e]) }
    { s with replay := r' }

/-- The key of the launch that a task ID names by its LSEQ (R315), or 0. -/
def State.taskLaunch (s : State) (task : Word) : Nat := ((s.launches.find? fun q => q.2.lseq == bits task 51 32).map (·.1)).getD 0

/-- The settle that the first other access to a line inserts after accepted accumulates (R382), whose writer is that of the last of them. -/
def State.settleLine (s : State) (line : Nat) : State :=
  match (if s.replay.cmp then tfind s.replay.unsettled line else none) with
  | some task =>
    let s := s.streamWrite line true (BitVec.allOnes 128) (mline s.mem line) task (s.taskLaunch task)
    { s with replay := { s.replay with unsettled := tdel s.replay.unsettled line } }
  | none => s

/-- Every line of a tile filled into a cluster's L2 (R214), accepted accumulates applied first (R235). -/
def State.tileFill (s : State) (t : Tile) (g : Nat) (tid : BitVec 12) : State :=
  t.sectors.foldl (fun s (line, m) =>
    ((s.applyPending line).settleLine line).fill g line m (t.tag m tid) false (lineHome t.pages line) (s.tileClass t (t.tag m tid)) t.lines) s

/-- Take a tile's sectors out of a holder's L2 with their dirty masks, as a transfer carries them. -/
def State.takeTile (s : State) (t : Tile) (g : Nat) (w : Wake) : State × Table L2Line :=
  t.sectors.foldl (fun (s, fl) (line, m) => match tfind (s.cluster g).l2 line with
    | none => (s, fl)
    | some l => (s.leaveSectors g line m w, tput fl line { l with valid := l.valid &&& m, dirty := l.dirty &&& sectorBytes m })) (s, [])

/-- Place sectors that a transfer carries in a cluster's L2, dirty masks and all (R213, R223); a seam line that it allocates takes the tensor ID of
the context whose request it serves, or whose TFWD it is (R216). -/
def State.placeTile (s : State) (t : Tile) (g : Nat) (tid : BitVec 12) (fl : Table L2Line) : State :=
  t.sectors.foldl (fun s (line, m) => match tfind fl line with
    | none => s
    | some x =>
      let tag := t.tag m tid
      let bm := sectorBytes m
      s.putLine g line tag false (lineHome t.pages line) (s.tileClass t tag) t.lines fun l =>
        { l with data := mergeLine l.data x.data bm, valid := l.valid ||| x.valid, dirty := (l.dirty &&& ~~~bm) ||| x.dirty }) s

/-- A forward in flight ends (R223, R230): at M in the destination's L2 with the pushed dirty masks, or at H with the dirty bytes written
back. It ends at H where that L2 cannot allocate every line, or (`evicted`) where it evicts a line of the tile while the push arrives,
which takes an L2 with a set that is full. -/
def State.tilePush (s : State) (t : Tile) (evicted : Bool) : State :=
  if t.st ≠ .f then s
  else
    let fl := t.flight
    let allocated := !s.declines t t.dst && !(evicted && decide ((s.cluster t.dst).ways ≤ (s.cluster t.dst).l2.length + t.sectors.length))
    let s := if allocated then s.placeTile t t.dst t.fwdTid fl else fl.foldl (fun s (line, l) => s.mergeHome line l) s
    let s := s.setTile (if allocated then { t with st := .m, holders := [t.dst], flight := [] }
      else { t with st := .h, holders := [], dst := 0, flight := [] })
    -- the TFWD entry that started it is performed (R231)
    s.modCore t.fwdCore fun k => { k with storeBuffer := k.storeBuffer.filter fun e => match e.kind with
      | .tfwd pa _ _ _ true => pa ≠ t.pa
      | _ => true }

/-- Every tile with a sector of `m` in a line, at a home slice or at any, is recalled to H; a forward in flight ends first (R216, R230). -/
def State.recallTiles (s : State) (home : Option Nat) (line : Nat) (m : BitVec 8) (w : Wake) : State :=
  (s.tiles.filter fun t => t.at_ home line && t.mask line &&& m ≠ 0).foldl (fun s t =>
    match s.tileAt t.pa with
    | some t =>
      let s := s.tilePush t false
      (match s.tileAt t.pa with
       | some t => s.tileRecall t w
       | none => s)
    | none => s) s

/-- Serve a request for a tile by cluster `g`, issued for `task`, at the tile home (R213): a read or TACQ.S (`excl` false), or a write, LR
or TACQ.M. A request that meets F waits for it to end, here by sinking the push (R230). Where the L2 cannot allocate every line at once
the tile stays in, or returns to, H (R214). -/
def State.tileRequest (s : State) (t0 : Tile) (g : Nat) (excl : Bool) (tid : BitVec 12) (task : Word) : State :=
  let s := s.tilePush t0 false
  match s.tileAt t0.pa with
  | none => s
  | some t =>
    let held := t.holders.contains g
    let w := s.sliceWake task t.home
    if held && (!excl || t.st = .m) then s
    else if held && t.st = .e then s.setTile { t with st := .m }
    else
      let s := s.countReads t.home 1
      if s.declines t g && !held then s.tileRecall t w
      else
        let s := t.lines.foldl (fun s line => s.backInvalidate line) s
        if excl then
          match t.st, t.holders with
          | .m, [d] | .e, [d] =>
            -- the holder's sectors pass in one transaction
            let (s, fl) := s.takeTile t d w
            (s.placeTile t g tid fl).setTile { t with st := .m, holders := [g] }
          | _, hs =>
            let s := hs.foldl (fun s h => if h = g then s else s.tileDrop t h w) s
            (s.tileFill t g tid).setTile { t with st := .m, holders := [g] }
        else match t.st with
          | .h => (s.tileFill t g tid).setTile { t with st := .e, holders := [g] }
          | _ =>
            let s := t.holders.foldl (fun s h => t.sectors.foldl (fun s (line, m) => s.writeBack h line m) s) s
            (s.tileFill t g tid).setTile { t with st := .s, holders := t.holders ++ [g] }

/-- A fresh free value: the counter it is applied to, and the state with the counter advanced (log entry 5). -/
def State.tick (s : State) : Nat × State := (s.free, { s with free := s.free + 1 })

/-- Make cluster `g` able to read (or, with `excl`, write) the tile bytes of an access of a task: one request for each tile it touches. -/
def State.tileAccess (s : State) (g : Nat) (x : Xlat) (n : Nat) (excl : Bool) (tid : BitVec 12) (task : Word) : State :=
  (s.tilesAt (some x.slice) x.pa n).foldl (fun s t =>
    match s.tileAt t.pa with
    | some t => s.tileRequest t g excl tid task
    | none => s) s

/-- Whether a cluster's L2 holds every sector that bytes [pa, pa+n) need. -/
def State.l2Has (s : State) (g pa n : Nat) : Bool :=
  match tfind (s.cluster g).l2 (pa / lineBytes) with
  | some l => l.valid &&& sectorsOf (pa % lineBytes) n == sectorsOf (pa % lineBytes) n
  | none => false

/-- Whether an access goes through the issuing cluster's L2: host memory bypasses it where its host port runs no CXL.cache (R36; which
port serves an address is open where they differ, log entry 62), and I/O memory is never cached (R37). -/
def State.cached (s : State) (x : Xlat) : Bool :=
  match x.mt with
  | .hbm => true
  | .sw => true
  | .peer => true
  | .host => s.host.cxl != 0 && (s.host.cxl == 3 || Config.freePort (x.pa / lineBytes))
  | .scratch => false
  | .io => false

/-- Bring a line's free sectors into cluster `g`'s L2 for a read (`excl` false) or a write, coherently unless it is SW memory
(R30, R35, R179, R206). A request that reaches the home slice is counted there. -/
def State.acquireLine (s : State) (g : Nat) (x : Xlat) (excl : Bool) (tid : BitVec 12) : State :=
  let line := x.pa / lineBytes
  let free := ~~~(s.tileMask (some x.slice) line)
  let sw := x.mt = .sw
  let miss := match tfind (s.cluster g).l2 line with
    | some l => l.valid &&& free != free
    | none => true
  let shared := (s.holdersOf (some x.slice) line).any (· != g)
  let s := if sw then (if miss then s.landVictims (some g) line else s)
    else if excl then (s.recallAll (some x.slice) (some g) line free).backInvalidate line
    else if miss then s.recallDirty (some x.slice) (some g) line free else s
  if miss then (((s.applyPending line).settleLine line).fill g line free tid sw x.slice (s.classOf tid) []).countLine x.slice line
  else if excl && !sw && shared then s.countLine x.slice line else s

/-- The bytes of a cluster's scratchpad that sealed copies hide while their handles fill (R390), as offsets and lengths: from every thread, or from
all but `task`. -/
def State.veils (s : State) (h : Nat) (task : Option Word) : List (Nat × Nat) :=
  (s.cluster h).handles.flatMap fun q => if q.2.st = 1 && task != some q.2.task then q.2.veil else []

/-- The state as a thread's reads of scratchpad `h` see it: zeros where a sealed copy hides the bytes (R390). -/
def State.veiled (s : State) (h : Nat) (task : Word) : State :=
  match s.veils h (some task) with
  | [] => s
  | vs => { s with mem := s.mem.filter fun p => !(vs.any fun (o, n) => decide (scratchAddr h o ≤ p.1) && decide (p.1 < scratchAddr h o + n)) }

/-- Read `n` bytes (within one line) as cluster `g` does for a task, with the caches' effects. -/
def State.readMem (s : State) (g : Nat) (tid : BitVec 12) (task : Word) (x : Xlat) (n : Nat) : State × Nat :=
  match regionOf x.pa with
  | .scratch a h off =>
    let v := s.veiled h task
    if a = 0 then (s, mread v.mem (scratchAddr h off) n)
    else (s, v.aliasBytes h ((s.cluster h).aliasOf a) off n)
  | _ =>
    if s.cached x then
      let line := x.pa / lineBytes
      let o := x.pa % lineBytes
      let s := if s.l2Has g x.pa n then s.touch g line else s
      let s := s.tileAccess g x n false tid task
      let need := sectorsOf o n
      let s := if need &&& ~~~(s.tileMask (some x.slice) line) ≠ 0 then s.acquireLine g x false tid else s
      match tfind (s.cluster g).l2 line with
      | some l =>
        -- a declined tile's sectors are read at home (R214)
        if l.valid &&& need = need then (s, lineRead l.data o n) else (s, lineRead (mergeLine (mline s.mem line) l.data (sectorBytes l.valid)) o n)
      | none => (s, mread s.mem x.pa n)
    else
      let s := s.recallDirty none none (x.pa / lineBytes) 255
      (s, mread s.mem x.pa n)

/-- Write `n` bytes (within one line) as cluster `g` does, with the caches' effects; `w` names the writer to contexts whose
reservation it ends. -/
def State.writeMem (s : State) (g : Nat) (tid : BitVec 12) (x : Xlat) (n v : Nat) (keep : Option Nat) (w : Wake) (launch : Nat) : State :=
  let s := s.loseAt x.pa n keep w
  match regionOf x.pa with
  | .scratch a h off =>
    if a = 0 then { s with mem := mwrite s.mem (scratchAddr h off) n v }
    else s.aliasStore h ((s.cluster h).aliasOf a) off (n / 2) v
  | _ =>
    let line := x.pa / lineBytes
    let o := x.pa % lineBytes
    if s.cached x then
      let s := s.settleLine line
      let s := if s.l2Has g x.pa n then s.touch g line else s
      let s := s.tileAccess g x n true tid w.task
      let need := sectorsOf o n
      let s := if need &&& ~~~(s.tileMask (some x.slice) line) ≠ 0 then s.acquireLine g x true tid else s
      let bm := bytesOf o n
      let data : LineData := BitVec.ofNat 1024 ((v % 2 ^ (8 * n)) <<< (8 * o))
      match tfind (s.cluster g).l2 line with
      | some l =>
        let here := bm &&& sectorBytes l.valid
        let s := s.modCluster g fun c => { c with l2 := tput c.l2 line { l with data := mergeLine l.data data here, dirty := l.dirty ||| here } }
        -- sectors of a declined tile are written at home (R214)
        let s := { s with mem := mmerge s.mem (line * lineBytes) lineBytes (bm &&& ~~~here).toNat data.toNat }
        -- in compare mode device HBM is written through (R382)
        if s.replay.cmp && isHbm x.pa then (s.writeBack g line 255).streamWrite line false bm data w.task launch else s
      | none =>
        let s := { s with mem := mwrite s.mem x.pa n v }
        s.streamWrite line false bm data w.task launch
    else
      let s := (s.recallAll none none line 255).backInvalidate line
      { s with mem := mwrite s.mem x.pa n v }

/-- The home slice of an access: that of the mapping it used, or of the fields 0 where a unit names a physical address, for which R183 has none
(DESIGN CHOICE, log entry 92). -/
def homeOr (home : Option Nat) (line : Nat) : Nat := home.getD (homeSlice (line * lineBytes) 0 0)

/-- Make home the only holder of the sectors of `m` of a line for the accesses of one home slice, or of every one (R216, R235): tiles with
such a sector recalled, free sectors written back and removed from every L2, host copies back-invalidated. -/
def State.homeTake (s : State) (home : Option Nat) (line : Nat) (m : BitVec 8) (task : Word) : State :=
  let s := s.recallTiles home line m (s.sliceWake task (homeOr home line))
  let free := ~~~(s.tileMask home line)
  (if m &&& free ≠ 0 then s.recallAll home none line free else s.landVictims none line).backInvalidate line

/-- As `homeTake`, with the line's accepted accumulates applied and, in compare mode, settled first. -/
def State.homeOwnAt (s : State) (home : Option Nat) (line : Nat) (m : BitVec 8) (task : Word) : State :=
  ((s.applyPending line).homeTake home line m task).settleLine line

/-- Make home the only holder of a whole line (R297, R387). -/
def State.homeOwn (s : State) (line : Nat) : State := s.homeOwnAt none line 255 0

/-- A read of `n` bytes at home (atomics, engines of R297, dispatchers of R404, hosts): copies of SW lines are not consulted. The request is
counted at its home slice (R185). -/
def State.homeReadAt (s : State) (home : Option Nat) (pa n : Nat) (task : Word) : State × Nat :=
  match regionOf pa with
  | .scratch a h off =>
    if a = 0 then (s, mread s.mem (scratchAddr h off) n) else (s, s.aliasBytes h ((s.cluster h).aliasOf a) off n)
  | _ =>
    let line := pa / lineBytes
    let s := (s.homeOwnAt home line (sectorsOf (pa % lineBytes) n) task).countLine (homeOr home line) line
    (s, mread s.mem pa n)
/-- A read at a physical address that no mapping gives a home. -/
def State.homeRead (s : State) (pa n : Nat) : State × Nat := s.homeReadAt none pa n 0
/-- A read at the home of a translated address, `off` bytes on. -/
def State.homeReadX (s : State) (x : Xlat) (off n : Nat) : State × Nat :=
  s.homeReadAt (some (x.homeOf ((x.pa + off) / lineBytes))) (x.pa + off) n 0

/-- A write of `n` bytes (within one line) at home. -/
def State.homeWriteAt (s : State) (home : Option Nat) (pa n v : Nat) (w : Wake) (launch : Nat) : State :=
  let s := s.loseAt pa n none w
  match regionOf pa with
  | .scratch a h off =>
    if a = 0 then { s with mem := mwrite s.mem (scratchAddr h off) n v } else s.aliasStore h ((s.cluster h).aliasOf a) off (n / 2) v
  | _ =>
    let line := pa / lineBytes
    let s := (s.homeOwnAt home line (sectorsOf (pa % lineBytes) n) w.task).countLine (homeOr home line) line
    let s := { s with mem := mwrite s.mem pa n v }
    s.streamWrite line false (bytesOf (pa % lineBytes) n) (BitVec.ofNat 1024 ((v % 2 ^ (8 * n)) <<< (8 * (pa % lineBytes)))) w.task launch
/-- A write at a physical address that no mapping gives a home. -/
def State.homeWrite (s : State) (pa n v : Nat) (w : Wake) (launch : Nat) : State := s.homeWriteAt none pa n v w launch
/-- A write at the home of a translated address, `off` bytes on. -/
def State.homeWriteX (s : State) (x : Xlat) (off n v : Nat) (w : Wake) (launch : Nat) : State :=
  s.homeWriteAt (some (x.homeOf ((x.pa + off) / lineBytes))) (x.pa + off) n v w launch

/-- The line, on its way between L2s and home, that holds byte `o` of a line: a tile in F, or a victim of cluster `g` or one that coherence
reaches. -/
def State.flying (s : State) (g line o : Nat) : Option L2Line :=
  ((s.tiles.filterMap fun t => (tfind t.flight line).filter fun l => l.valid.getLsbD (o / 16)) ++
   s.clusters.flatMap fun (h, c) => (c.victims.filter fun v => v.line == line && v.l.dirty.getLsbD o && (h == g || !v.l.sw)).map (·.l)).getLast?

/-- The byte cluster `g` would read at a physical address, with no effect on any cache: its own L2's, else a dirty byte of another
cluster that coherence reaches, else home's. -/
def State.peekByte (s : State) (g pa : Nat) : Byte :=
  match regionOf pa with
  | .scratch a h off =>
    if a = 0 then mget s.mem (scratchAddr h off) else BitVec.ofNat 8 (s.aliasBytes h ((s.cluster h).aliasOf a) off 1)
  | _ =>
    let line := pa / lineBytes
    let o := pa % lineBytes
    let own := (tfind (s.cluster g).l2 line).filter fun l => l.valid.getLsbD (o / 16)
    let other := (s.clusters.filterMap fun (_, c) => (tfind c.l2 line).filter fun l => !l.sw && l.dirty.getLsbD o).head?
    match (own.or other).or (s.flying g line o) with
    | some l => lineByte l.data o
    | none => mget s.mem pa

/-- `n` bytes as `peekByte` gives them, little-endian. -/
def State.peek (s : State) (g pa n : Nat) : Nat :=
  match n with
  | 0 => 0
  | k + 1 => (s.peekByte g pa).toNat + 256 * s.peek g (pa + 1) k

end Sys2Proof.Machine
end

