-- ==== Sys2Proof/Machine/Record.lean ====
section
/-! DEFINITION. The recording units (R361 to R364), the event queues of the control contexts (R357 to R359), and the waking of
contexts whose awaited condition has come about (R17, R19). -/

namespace Sys2Proof.Machine

/-- A producer code (R363). -/
def pcode (kind unit : Nat) : BitVec 32 := BitVec.ofNat 32 (kind * 2 ^ 28 + unit)

/-- In replay compare mode a unit of partition B reports its twin's number (R381): cores of panels 2 and 3 are 4,096 above. -/
def State.reportCore (s : State) (k : Nat) : Nat := if s.replay.cmp && 4096 ≤ k then k - 4096 else k
def State.reportCluster (s : State) (g : Nat) : Nat := if s.replay.cmp && 1024 ≤ g then g - 1024 else g

def State.reportDie (s : State) (d : Nat) : Nat := if s.replay.cmp && 8 ≤ d then d - 8 else d
/-- A producer code with the twin's number in it, whatever kind of unit it names (R363, R381). -/
def State.reportCode (s : State) (c : BitVec 32) : BitVec 32 :=
  let unit := bits c 27 0
  let twin (half : Nat) : BitVec 32 := if half ≤ unit then c - BitVec.ofNat 32 half else c
  if !s.replay.cmp then c
  else match bits c 31 28 with
    | 0 => twin 4096
    | 1 | 7 | 9 => twin 1024
    | 2 => twin 16
    | 3 | 10 => twin 32
    | 8 | 11 => twin 8
    | _ => c
/-- A physical address as B's programs see it (R381). -/
def State.reportPa (s : State) (pa : Nat) : Nat :=
  if !s.replay.cmp then pa
  else match regionOf pa with
    | .hbm => aRelative pa
    | .scratch _ h _ => if 1024 ≤ h then pa - 1024 * 2 ^ 23 else pa
    | _ => pa
/-- A physical address that software gives a unit of a die: in partition B it names the twin's byte (R381). -/
def State.ownPa (s : State) (d pa : Nat) : Nat := if s.replay.cmp && 8 ≤ d && isHbm pa then aRelative pa + 2 ^ 41 else pa
/-- A core that software names to a unit of a die, likewise. -/
def State.ownCoreOf (s : State) (d k : Nat) : Nat := if s.replay.cmp && 8 ≤ d && decide (k < 4096) then k + 4096 else k
/-- A context that software names to a unit of a die, as global core × 12 + context, likewise. -/
def State.ownCtx (s : State) (d cid : Nat) : Nat := s.ownCoreOf d (cid / 12) * 12 + cid % 12
/-- The core whose control context receives a die's events (R309). -/
def State.kcoreOf (s : State) (d : Nat) : Nat := s.ownCoreOf d (s.die d).kcore.toNat

/-- One 32-byte record on a die's recording buffer (R361): counted in DROPPED where it is not written. -/
def State.putRecord (s : State) (d : Nat) (w0 w1 w2 w3 : Word) : State :=
  let x := s.die d
  let cap := 2 ^ x.logn.toNat
  let full := cap ≤ (x.tail - x.head).toNat
  let a := s.ownPa d x.rbbase.toNat + 32 * (x.tail.toNat % cap)
  if !x.en || (full && !x.wrap) || !isHbm (a + 31) then s.modDie d fun x => { x with recDropped := x.recDropped + 1 }
  else
    let v := w0.toNat + w1.toNat * 2 ^ 64 + w2.toNat * 2 ^ 128 + w3.toNat * 2 ^ 192
    let s := s.homeWrite a 32 v ⟨0, pcode 8 d, s.now, 0, false⟩ 0
    s.modDie d fun x => { x with tail := x.tail + 1, head := if full then x.head + 1 else x.head }

/-- An edge record (R362, R364) whose producer and arrival a wake names; LAG is counted on the 64-bit timebase (R12) and saturates. -/
def State.edge (s : State) (d : Nat) (waiter : Word) (w : Wake) (rtype : Nat) : State :=
  let lag := min ((s.now % 2 ^ 64 + 2 ^ 64 - w.arrival % 2 ^ 64) % 2 ^ 64) (2 ^ 28 - 1)
  s.putRecord d waiter w.task s.time (word ((s.reportCode w.code).toNat + rtype * 2 ^ 32 + lag * 2 ^ 36))

/-- A zero-wait edge is counted, not recorded (R17, R361). -/
def State.zeroWait (s : State) (d : Nat) : State := s.modDie d fun x => { x with zerowait := x.zerowait + 1 }

/-- Latch an arrival into every waiting context, live or saved, whose wait satisfies `p` (R17, R19). -/
def State.wakeIf (s : State) (p : Nat → Wait → Bool) (w : Wake) : State :=
  { s with
    ctxs := s.ctxs.map fun (cid, c) =>
      match c.wait, c.wake with
      | some wt, none => if p cid wt then (cid, { c with wake := some w }) else (cid, c)
      | _, _ => (cid, c)
    saved := s.saved.map fun v =>
      match v.wait, v.wake with
      | some wt, none => if p v.cid wt then { v with wake := some w } else v
      | _, _ => v }

/-- Units in use of an event queue (R357). -/
def Core.evUnits (k : Core) : Nat := (k.evq.map fun e => 1 + e.words.length / 2).sum

/-- The further words of an event of a type with the physical address among them as B's programs see it (R358, R381). -/
def State.reportWords (s : State) (typ : Nat) (ws : List Word) : List Word :=
  let at_ := if typ = 0x0E then 0 else 1
  if s.replay.cmp && (typ == 3 || typ == 4 || typ == 6 || typ == 7 || typ == 9 || typ == 0x0A || typ == 0x0B || typ == 0x0D || typ == 0x0E) then
    ws.mapIdx fun i v => if i = at_ then word (s.reportPa v.toNat) else v
  else ws

/-- Write an event whole to a core's event queue, or drop it and raise LOST (R357). A waiting EVWAIT is woken. -/
def State.putEvent (s : State) (core typ cause : Nat) (task : Word) (words : List Word) (prodTask : Word) (code : BitVec 32) : State :=
  let k := s.core core
  if Config.eventQueueUnits < k.evUnits + 1 + words.length / 2 then s.setCore core { k with evLost := k.evLost + 1 }
  else
    let e : EvRecord := ⟨typ, cause, s.now, task, s.reportWords typ words, prodTask, code⟩
    (s.setCore core { k with evq := k.evq ++ [e] }).wakeIf
      (fun cid w => cid = controlOf core && w.kind = .evwait) ⟨prodTask, code, s.now, 0, false⟩

/-- The two units that word 0 and word 1 of an event fill, then its further words (R357). -/
def EvRecord.bytes (e : EvRecord) : Nat :=
  let nx := e.words.length / 2
  let w0 := e.typ + nx * 2 ^ 8 + e.cause * 2 ^ 16 + (e.time % 2 ^ 40) * 2 ^ 24
  let tail := (e.words.zipIdx.map fun (w, i) => w.toNat * 2 ^ (128 + 64 * i)).sum
  w0 + e.task.toNat * 2 ^ 64 + tail
/-- How many bytes that is. -/
def EvRecord.size (e : EvRecord) : Nat := 16 * (e.words.length / 2 + 1)

/-- The wake that a context's own act gives (R363 kind 0). -/
def State.byCtx (s : State) (cid : Nat) : Wake :=
  ⟨(s.ctx cid).qtid, pcode 0 (s.reportCore (coreOf cid)), s.now, 0, false⟩

end Sys2Proof.Machine
end

