-- ==== Sys2Proof/Machine/Vm.lean ====
section
/-! DEFINITION. Translation (R182, R191), physical memory protection (R75), and the issue checks of a memory access with the
causes of R76 to R78. -/

namespace Sys2Proof.Machine

/-- How an instruction ends other than by completing at the next pc. -/
inductive Stop
  /-- an exception of R76: its cause and stval -/
  | exc (cause : Nat) (tval : Word)
  /-- a watch match with ACT = 1, or a claimed EBREAK, halts the context (R373) -/
  | halt
  /-- it completes and redirects pc itself -/
  | jump (s : State) (pc : Word)
  /-- it has left the rotation, ended its context or must be presented again: the state as it stands -/
  | left (s : State)

/-- The outcome of a meaning before pc advances. -/
abbrev Res := Except Stop State

/-- Permissions an access needs. -/
structure Need where
  r : Bool
  w : Bool
  x : Bool
  deriving DecidableEq, Repr
def needR : Need := ⟨true, false, false⟩
def needW : Need := ⟨false, true, false⟩
def needRW : Need := ⟨true, true, false⟩
def needX : Need := ⟨false, false, true⟩

/-- Why a translation fails. -/
inductive XErr | page | access
  deriving DecidableEq, Repr

/-- The classes of cause (R77): fetch, load and store/AMO. -/
inductive Cls | fetch | load | store
  deriving DecidableEq, Repr
def Cls.page (c : Cls) : Nat := match c with
  | .fetch => 12 | .load => 13 | .store => 15
def Cls.access (c : Cls) : Nat := match c with
  | .fetch => 1 | .load => 5 | .store => 7
def Cls.misaligned (c : Cls) : Nat := match c with
  | .fetch => 0 | .load => 4 | .store => 6
def Cls.err (c : Cls) (e : XErr) (va : Nat) : Stop := .exc (match e with
  | .page => c.page
  | .access => c.access) (word va)

/-- Under what an address is translated: the cluster whose TLBs serve (2,048 + die for a dispatcher), satp, mode, SUM and MXR, and
the context whose PMP entries apply. -/
structure View where
  g : Nat
  satp : Word
  priv : Priv
  sum : Bool
  mxr : Bool
  pmp : Option Nat
  deriving DecidableEq, Repr

/-- Trailing ones of a number, up to `fuel`. -/
def trailingOnes (fuel n : Nat) : Nat :=
  match fuel with
  | 0 => 0
  | k + 1 => if n % 2 = 1 then 1 + trailingOnes k (n / 2) else 0

/-- The range [lo, hi) of PMP entry `i`, if it is on. -/
def Ctx.pmpRange (c : Ctx) (i : Nat) : Option (Nat × Nat) :=
  let a (j : Nat) : Nat := bits (c.pmpaddr.toList.getD j 0) 53 0
  match bits (c.pmpcfg.toList.getD i 0) 4 3 with
  | 1 => some (if i = 0 then 0 else a (i - 1) * 4, a i * 4)
  | 2 => some (a i * 4, a i * 4 + 4)
  | 3 =>
    let k := trailingOnes 54 (a i)
    let base := (a i >>> (k + 1)) <<< (k + 1)
    some (base * 4, base * 4 + 2 ^ (k + 3))
  | _ => none

/-- The PMP check of bytes [pa, pa + n) (R75: 16 entries a context; the lowest entry that matches a byte decides). -/
def Ctx.pmpOk (c : Ctx) (p : Priv) (need : Need) (pa n : Nat) : Bool :=
  let hit := (List.range 16).find? fun i => match c.pmpRange i with
    | some (lo, hi) => lo < pa + n && pa < hi
    | none => false
  match hit with
  | none => p = .m
  | some i =>
    let f := c.pmpcfg.toList.getD i 0
    (match c.pmpRange i with
     | some (lo, hi) => lo ≤ pa && pa + n ≤ hi
     | none => false) &&
    ((p = .m && !bit f 7) || ((!need.r || bit f 0) && (!need.w || bit f 1) && (!need.x || bit f 2)))

def State.pmpOk (s : State) (v : View) (p : Priv) (need : Need) (pa n : Nat) : Bool :=
  match v.pmp with
  | some cid => (s.ctx cid).pmpOk p need pa n
  | none => true

/-- The twin of a configuration address: blocks of clusters, slices and dies have twins, the module-wide ones have none (R381). -/
def twinCfg (pa : Nat) : Nat :=
  let o := pa - cfgBase
  if o < 1024 * 0x10000 then pa + 1024 * 0x10000
  else if 0x8000000000 ≤ o ∧ o < 0x8000000000 + 32 * 0x10000 then pa + 32 * 0x10000
  else if (0x9000000000 ≤ o ∧ o < 0x9000000000 + 8 * 0x10000) ∨ (0xB000000000 ≤ o ∧ o < 0xB000000000 + 8 * 0x10000) ∨
      (0xD000000000 ≤ o ∧ o < 0xD000000000 + 8 * 0x10000) then pa + 8 * 0x10000
  else pa

/-- In compare mode the agents of partition B reach their own partition through A's addresses (R381). -/
def State.twinPa (s : State) (v : View) (pa : Nat) : Nat :=
  let isB := s.replay.cmp && ((1024 ≤ v.g && v.g < 2048) || 2056 ≤ v.g)
  if !isB then pa
  else match regionOf pa with
    | .hbm => if pa < 2 ^ 41 then pa + 2 ^ 41 else pa
    | .scratch _ g _ => if g < 1024 then pa + 1024 * 2 ^ 23 else pa
    | .cfg => twinCfg pa
    | _ => pa
def State.twinHdie (s : State) (v : View) (h : BitVec 4) : BitVec 4 :=
  if s.replay.cmp && ((1024 ≤ v.g && v.g < 2048) || 2056 ≤ v.g) then h + 8 else h

/-- The leaf that a Sv48 walk reaches: PTE, its address and the log2 of the page size (R182, R191). A leaf of 512 GiB is no page
of the Q6. -/
def State.walk (s : State) (v : View) (fuel : Nat) (level table va : Nat) : Except XErr (Word × Nat × Nat) :=
  match fuel with
  | 0 => .error .page
  | k + 1 =>
    let a := s.twinPa v (table + 8 * ((va >>> (12 + 9 * level)) % 512))
    if !(s.accessOk .read a 8) || (regionOf a == .cfg) || !(s.pmpOk v .s needR a 8) then .error .access
    else
      let p := word (s.peek v.g a 8)
      if !bit p 0 || (!bit p 1 && bit p 2) then .error .page
      else if bit p 1 || bit p 3 then
        if level = 3 then .error .page
        else if bit p 63 then
          (if level = 0 ∧ bits p 13 10 = 8 then .ok (p, a, 16) else .error .page)
        else if bits p 53 10 % 2 ^ (9 * level) ≠ 0 then .error .page
        else .ok (p, a, 12 + 9 * level)
      else if bits p 63 54 ≠ 0 || level = 0 then .error .page
      else s.walk v k (level - 1) (bits p 53 10 * 4096) va

/-- The memory type of a physical address under a PBMT (R24); configuration space is I/O whatever the PBMT. -/
def memTypeOf (pa pbmt : Nat) : MemType :=
  if pbmt = 2 then .io
  else match regionOf pa with
    | .hbm => if pbmt = 1 then .sw else .hbm
    | .scratch _ _ _ => .scratch
    | .host => .host
    | .peer _ _ => .peer
    | _ => .io

/-- Whether PBMT fields count for a view (Svpbmt): PBMTE of the context's menvcfg; a dispatcher has none, and reads them always. -/
def State.pbmte (s : State) (v : View) : Bool := match v.pmp with
  | some cid => bit (s.ctx cid).menvcfg 62
  | none => true

/-- The permission and R182 checks of a leaf, and the translation it gives: HDIE and IL count for device HBM only. -/
def State.leaf (s : State) (v : View) (need : Need) (va : Nat) (p : Word) (pteAddr lg : Nat) : Except XErr Xlat :=
  let ppn := if lg = 16 then bits p 53 10 / 16 * 16 else bits p 53 10
  let pa0 := ppn * 4096 + va % 2 ^ lg
  let pa := s.twinPa v pa0
  let pbmt := bits p 62 61
  let hdie : BitVec 4 := BitVec.ofNat 4 (bits p 60 57)
  let il : BitVec 2 := BitVec.ofNat 2 (bits p 56 55)
  let hb := isHbm pa0
  let readable := bit p 1 || (v.mxr && bit p 3)
  let userOk := match v.priv with
    | .u => bit p 4
    | _ => !bit p 4 || (v.sum && !need.x)
  if !userOk || (need.r && !readable) || (need.w && !bit p 2) || (need.x && !bit p 3) then .error .page
  else if !bit p 6 || (need.w && !bit p 7) then .error .page
  else if pbmt = 3 || (pbmt = 1 && !hb) || (pbmt ≠ 0 && !s.pbmte v) then .error .page
  else if hb && (il = 3 || !(s.dieLive (s.twinHdie v hdie).toNat)) then .error .page
  else if bit p 54 && !(hb && pbmt = 0) then .error .page
  else .ok ⟨va, pa, memTypeOf pa pbmt, if hb then s.twinHdie v hdie else 0, if hb then il else 0, bit p 54, bit p 2, lg, pteAddr⟩

/-- A translation that the cluster's TLBs hold for an address (R191). -/
def State.tlbHit (s : State) (v : View) (va : Nat) : Option TlbEntry :=
  (s.cluster v.g).tlb.find? fun e => e.va >>> e.lg == va >>> e.lg && (e.glob || e.asid == bits v.satp 59 44)

/-- Translate an address, using and filling the cluster's TLBs. With translation off the address is physical. -/
def State.xlate (s : State) (v : View) (need : Need) (va : Nat) : Except XErr (State × Xlat) :=
  if v.priv = .m || bits v.satp 63 60 = 0 then
    if 2 ^ 56 ≤ va then .error .access
    else
      let pa := s.twinPa v va
      .ok (s, ⟨va, pa, memTypeOf pa 0, 0, 0, false, true, 12, 0⟩)
  else if va >>> 47 ≠ 0 ∧ va >>> 47 ≠ 2 ^ 17 - 1 then .error .page
  else
    let fresh : Except XErr (State × Xlat) := do
      let (p, a, lg) ← s.walk v 4 3 (bits v.satp 43 0 * 4096) va
      let x ← s.leaf v need va p a lg
      let e : TlbEntry := ⟨va >>> lg <<< lg, lg, bits v.satp 59 44, bit p 5, p, a⟩
      if v.g < Config.clusterCount then .ok (s.modCluster v.g fun c => { c with tlb := e :: c.tlb.filter (fun t => !(t.va == e.va && t.asid == e.asid)) }, x)
      else .ok (s, x)
    match s.tlbHit v va with
    | some e => (match s.leaf v need va e.pte e.pteAddr e.lg with
      | .ok x => .ok (s, x)
      | .error _ => fresh)
    | none => fresh

/-- mstatus fields. -/
def Ctx.sum (c : Ctx) : Bool := bit c.mstatus 18
def Ctx.mxr (c : Ctx) : Bool := bit c.mstatus 19
def Ctx.fsOff (c : Ctx) : Bool := bits c.mstatus 14 13 == 0
/-- The privilege mode of a two-bit code. -/
def privOf (n : Nat) : Priv := match n with
  | 0 => .u | 3 => .m | _ => .s
def Priv.code (p : Priv) : Nat := match p with
  | .u => 0 | .s => 1 | .m => 3

/-- How a context's data accesses translate: MPRV makes M mode use MPP. -/
def State.view (s : State) (cid : Nat) : View :=
  let c := s.ctx cid
  let p := if c.priv = .m && bit c.mstatus 17 then privOf (bits c.mstatus 12 11) else c.priv
  ⟨clusterOf cid, c.satp, p, c.sum, c.mxr, some cid⟩

/-- How a dispatcher translates the addresses of a launch's records: user pages, and supervisor pages too (log entry 14). -/
def dispView (die : Nat) (satp : Word) : View := ⟨2048 + die, satp, .s, true, false, none⟩

/-- A physical address used as it is, as PREEMPT, fault queues and TRESUME name addresses. -/
def physXlat (pa : Nat) : Xlat := ⟨pa, pa, memTypeOf pa 0, 0, 0, false, true, 12, 0⟩

/-- Translate and check an access of `n` bytes (R11, R78): page fault, then access fault. -/
def State.accessV (s : State) (v : View) (cls : Cls) (need : Need) (k : AccKind) (va n : Nat) : Except Stop (State × Xlat) :=
  match s.xlate v need va with
  | .error e => .error (cls.err e va)
  | .ok (s, x) =>
    -- accesses of a cluster whose SPWAYS is changing are held (R178)
    if (s.cluster v.g).busy && x.mt ≠ .io && k ≠ .fetch then .error (.left s)
    else if s.accessOk k x.pa n && s.pmpOk v v.priv need x.pa n && !(k = .atomic && x.mt = .io) then .ok (s, x)
    else .error (cls.err .access va)

/-- The issuing context leaves the rotation in a wait (R17, R98). -/
def State.leave (s : State) (k : WaitKind) (op0 op1 : Word) (rd : Reg) (obj : Xlat) (deadline : Option Nat) : State :=
  s.modCtx s.cur fun c => { c with status := .waiting, wait := some ⟨k, op0, op1, rd, obj, s.now, deadline⟩, wake := none }

/-- A request that does not answer: the context waits for its reply, as a load does or as an AMO does, until the tracker times it out
(R196). -/
def State.mute {α : Type} (s : State) (pa : Nat) (amo : Bool) : Except Stop α :=
  .error (.left ((s.leave .reply (word (bnat amo)) 0 0 Xlat.none none).modCtx s.cur fun c => { c with request := some (.mute pa (dieOf s.cur)) }))

/-- Whether an address lies in the scratchpad of a cluster whose SPWAYS is changing (R178). -/
def State.changing (s : State) (pa : Nat) : Bool := match regionOf pa with
  | .scratch _ h _ => (s.cluster h).busy
  | _ => false

/-- Whether an engine of cluster `g` is held by a change of SPWAYS (R178): its own cluster's, or that of one whose scratchpad it uses. -/
def State.engineHeld (s : State) (g : Nat) (ps : Pages) : Bool := (s.cluster g).busy || ps.any fun x => s.changing x.pa

/-- As `accessV`, for the issuing context. An access to the scratchpad of another cluster whose SPWAYS is changing waits at the bank units
for its reply, and a store there is posted (R178). -/
def State.access (s : State) (cls : Cls) (need : Need) (k : AccKind) (va n : Nat) : Except Stop (State × Xlat) := do
  let (s, x) ← s.accessV (s.view s.cur) cls need k va n
  if s.changing x.pa && (k = .read || k = .atomic) then s.mute x.pa (k = .atomic) else .ok (s, x)

/-- Translate every page of [va, stop), lowest first, with the first access fault beside (R78 puts every page fault before it). A
page fault is precise at once. `noIo` makes I/O memory an access fault. `fuel` bounds the pages. -/
def State.scanPages (s : State) (v : View) (cls : Cls) (need : Need) (noIo : Bool) (fuel va stop : Nat) :
    Except Stop (State × Pages × Option Stop) :=
  match fuel with
  | 0 => .ok (s, [], none)
  | k + 1 =>
    if stop ≤ va then .ok (s, [], none)
    else
      let next := min stop ((va / 4096 + 1) * 4096)
      let bad : Stop := cls.err .access va
      match s.xlate v need va with
      | .error .page => .error (cls.err .page va)
      | .error .access => do
        let (s, xs, _) ← s.scanPages v cls need noIo k next stop
        .ok (s, xs, some bad)
      | .ok (s, x) => if (s.cluster v.g).busy && x.mt ≠ .io then .error (.left s) else do
        let ok := s.accessOk (if need.w then .write else .read) x.pa (next - va) && s.pmpOk v v.priv need x.pa (next - va) &&
          !(noIo && x.mt = .io)
        let (s, xs, e) ← s.scanPages v cls need noIo k next stop
        .ok (s, x :: xs, if ok then e else some bad)

/-- Every page of a range: page faults, then access faults. -/
def State.accessPages (s : State) (v : View) (cls : Cls) (need : Need) (fuel va stop : Nat) : Except Stop (State × Pages) := do
  let (s, xs, e) ← s.scanPages v cls need false fuel va stop
  match e with
  | some e => .error e
  | none => .ok (s, xs)

/-- Pages of a range (R191): one translation per 4 KiB of it. -/
def State.pages (s : State) (cls : Cls) (need : Need) (va n : Nat) : Except Stop (State × Pages) :=
  s.accessPages (s.view s.cur) cls need (n / 4096 + 2) va (va + n)

/-- The captured translation of an address inside a list of pages. -/
def pageAt (ps : Pages) (va : Nat) : Option Xlat :=
  match ps.find? fun x => x.va / 4096 == va / 4096 with
  | some x => some { x with va := va, pa := x.pa / 4096 * 4096 + va % 4096 }
  | none => none

/-- Whether the bank units let cluster `g` make an access of a kind to a scratchpad: the selvedge check (R190), and the refusal of remote reads that
a sealed copy's destination makes (R390). Local accesses are never checked; an alias access is checked at its raw offsets. -/
def State.selvedgeOk (s : State) (g : Nat) (k : AccKind) (pa n : Nat) : Bool :=
  match regionOf pa with
  | .scratch a h off =>
    if h = g then true
    else
      let wins := (List.range 4).flatMap fun j => (s.core (h * 4 + j)).qswin.toList
      let grants (w : Word) : Bool := match k with
        | .write => bit w 34
        | .atomic => bit w 35
        | _ => bit w 33
      let covered (b : Nat) : Bool := wins.any fun w => grants w && bits w 15 0 ≤ b / 128 && b / 128 < bits w 32 16
      let raw : List Nat :=
        if a = 0 then (List.range n).map (off + ·)
        else
          let w := (s.cluster h).aliasOf a
          (List.range ((off + n + 1) / 2 - off / 2)).flatMap fun j =>
            let (r, m) := w.rawAt (off / 2 + j)
            (List.range m).map (r + ·)
      -- a sealed copy's destination refuses remote reads while its handle fills (R390)
      raw.all covered && (k == .write || raw.all fun b => !((s.veils h none).any fun (o, m) => decide (o ≤ b) && decide (b < o + m)))
  | _ => true

/-- The physical address of the first 16-byte unit of a captured range whose write is refused (R76, R190). -/
def State.refusedUnit (s : State) (ps : Pages) (va n : Nat) : Option Nat :=
  (List.range ((n + 15) / 16)).findSome? fun i => match pageAt ps (va + 16 * i) with
    | some x => if s.selvedgeOk (clusterOf s.cur) .write x.pa (min 16 (n - 16 * i)) then none else some x.pa
    | none => none

end Sys2Proof.Machine
end

