-- ==== Sys2Proof/Machine/Hem.lean ====
section
/-! DEFINITION. Accumulates: the hem of a core (R240 to R243), the token buckets and pending queues of the home slices (R235 to
R239), and the lane groups' arbiter, through which an accumulate's portion runs (R137, R138). -/

namespace Sys2Proof.Machine

/-- Element `i` of width `w` of a line. -/
def lineElem (d : LineData) (w i : Nat) : Nat := (d.toNat >>> (w * i)) % 2 ^ w
/-- A line from its elements of width `w`, lowest first. -/
def lineOf (w : Nat) (xs : List Nat) : LineData :=
  BitVec.ofNat 1024 (xs.foldr (fun x a => x % 2 ^ w + a * 2 ^ w) 0)

/-- FP32 flags in the places of SACCST (R238): FNV 2, FOF 3, FUF 4, FNX 5. -/
def accFlags (f : Flags) : BitVec 6 :=
  BitVec.ofNat 6 (bnat (bit f 4) * 4 + bnat (bit f 2) * 8 + bnat (bit f 1) * 16 + bnat (bit f 0) * 32)

/-- merge of R241, which is also the element update of R235. -/
def accMerge (form : AccForm) (e a : LineData) : LineData × BitVec 6 :=
  match form with
  | .f =>
    let rs := (List.range 32).map fun i => fAdd .f32 .rne (lineElem e 32 i) (lineElem a 32 i)
    (lineOf 32 (rs.map (·.1)), accFlags (rs.foldl (fun f r => f ||| r.2) 0))
  | .x =>
    let rs := (List.range 16).map fun i => satInt 64 (signedOf 64 (lineElem e 64 i) + signedOf 64 (lineElem a 64 i))
    (lineOf 64 (rs.map fun r => wrapInt 64 r.1), if rs.any (·.2) then 2 else 0)
  | .i => (lineOf 32 ((List.range 32).map fun i => lineElem e 32 i + lineElem a 32 i), 0)

/-- The addends of an accumulate's portion (R233), with the flags of fx_from. -/
def AccOp.addends (o : AccOp) : LineData × BitVec 6 :=
  match o.form with
  | .x =>
    let rs := (List.range 16).map fun i => fxFrom (lineElem o.data 32 i) o.scale
    (lineOf 64 (rs.map fun r => wrapInt 64 r.1),
      BitVec.ofNat 6 (bnat (rs.any fun r => r.2.1) + 2 * bnat (rs.any fun r => r.2.2)))
  | _ => (o.data, 0)

/-- Whether a hem entry has the key (context, physical destination, form). -/
def HemEntry.is (e : HemEntry) (cid pa : Nat) (form : AccForm) : Bool := e.cid == cid && e.dst.pa == pa && e.form == form
/-- An entry with no residual and no outstanding send is free (R240). -/
def HemEntry.isFree (e : HemEntry) : Bool := e.residual.isNone && e.out == 0

/-- TRES of qmresid (R242). -/
def State.tres (s : State) : Nat := bits s.qmresid 31 0

/-- Change the hem of a core; entries that have become free leave it. -/
def State.modHem (s : State) (k : Nat) (f : List HemEntry → List HemEntry) : State :=
  s.modCore k fun c => { c with hem := (f c.hem).filter fun e => !e.isFree }

/-- Force-flush a hem entry (R242): its residual is sent forced and the entry freed. -/
def State.flushEntry (s : State) (k : Nat) (e : HemEntry) : State :=
  match e.residual with
  | none => s
  | some d =>
    let a : AccSend := ⟨e.cid, e.form, e.dst, d, e.flags, e.age, e.t0, true, e.asid, e.tid, e.task, s.now⟩
    let s := { s with sends := s.sends ++ [a] }
    s.modHem k fun h => h.map fun x => if x.is e.cid e.dst.pa e.form then { x with residual := none, flags := 0, age := 0 } else x

/-- Force-flush every entry of a core that satisfies `p`. -/
def State.flushWhere (s : State) (k : Nat) (p : HemEntry → Bool) : State :=
  ((s.core k).hem.filter p).foldl (fun s e => s.flushEntry k e) s

/-- A residual-holding entry with the lowest t0 (R240): of several, the one that has stood in the hem longest, which the spec leaves open (DESIGN
CHOICE, log entry 103). -/
def oldestResidual (h : List HemEntry) : Option HemEntry :=
  h.foldl (fun b e => if e.residual.isNone then b else match b with
    | none => some e
    | some x => if e.t0 < x.t0 then some e else b) none

/-- Flush residuals, lowest t0 first, until an entry is free or none holds a residual (R240): an entry whose key still has an unforced send
outstanding stays reserved when its residual has left. -/
def State.hemRoom (s : State) (k fuel : Nat) : State :=
  match fuel with
  | 0 => s
  | n + 1 =>
    if (s.core k).hem.length < Config.hemSize then s
    else match oldestResidual (s.core k).hem with
      | some r => (s.flushEntry k r).hemRoom k n
      | none => s

/-- Run an accumulate's portion (R233, R240): none while no hem entry can be had. A send that needs a reservation flushes residuals for it, lowest t0
first. -/
def State.accPortion (s : State) (cid : Nat) (o : AccOp) : Option State :=
  let k := coreOf cid
  let (a, fl) := o.addends
  let e := (s.core k).hem.find? (·.is cid o.dst.pa o.form)
  let send : AccSend := match e with
    | some e => (match e.residual with
      | some r =>
        let (m, mf) := accMerge o.form r a
        ⟨cid, o.form, o.dst, m, fl ||| e.flags ||| mf, e.age, e.t0, false, o.asid, o.tid, o.task, s.now⟩
      | none => ⟨cid, o.form, o.dst, a, fl, 0, s.now, false, o.asid, o.tid, o.task, s.now⟩)
    | none => ⟨cid, o.form, o.dst, a, fl, 0, s.now, false, o.asid, o.tid, o.task, s.now⟩
  let forced := 3 ≤ send.age || send.t0 + s.tres ≤ s.now
  let send := { send with forced := forced }
  let go (s : State) : State :=
    let s := { s with sends := s.sends ++ [send] }
    s.modHem k fun h =>
      let h := if h.any (·.is cid o.dst.pa o.form) then h
        else h ++ [⟨cid, o.form, o.dst, none, 0, 0, s.now, o.asid, 0, o.tid, o.task⟩]
      h.map fun x => if x.is cid o.dst.pa o.form then
        { x with residual := none, flags := 0, age := 0, out := x.out + (if forced then 0 else 1) } else x
  let s := if e.isSome || forced then s else s.hemRoom k Config.hemSize
  if e.isSome || forced || (s.core k).hem.length < Config.hemSize then some (go s) else none

/-- A slice's buckets after the boundaries up to a moment (R236): any boundary since they were last looked at refills them, to a Q that has
waited for it. -/
def Slice.passed (k : Slice) (now : Nat) : Slice :=
  let w := max 1 k.w.toNat
  if now / w = k.window / w then { k with window := now } else { k with window := now, used := [], q := k.nextQ.getD k.q, nextQ := none }

/-- The oldest written quota value that is on its way reaches a slice at a moment (R237): a new W and D act at once, a new Q at the next window
boundary. Boundaries up to then are those of the old W. -/
def Slice.reach (k : Slice) (now : Nat) : Slice :=
  match k.unreached with
  | [] => k
  | (_, v) :: rest =>
    { k.passed now with unreached := rest, nextQ := some (BitVec.ofNat 8 (bits v 7 0)), w := BitVec.ofNat 16 (bits v 23 8)
                        d := BitVec.ofNat 4 (bits v 27 24) }
def State.quotaReach (s : State) (i : Nat) : State := s.modSlice i fun k => k.reach s.now

/-- A slice with the values that have been on their way for 1 µs, each from that moment on (R237), and its buckets up to now. -/
def Slice.upTo (k : Slice) (now fuel : Nat) : Slice :=
  match fuel, k.unreached with
  | n + 1, (t, _) :: _ => if t + 1000 ≤ now then (k.reach (max k.window (t + 1000))).upTo now n else k.passed now
  | _, _ => k.passed now

/-- Bring a slice's buckets up to now (R236, R237): a written value reaches it within 1 µs, and a passed boundary refills. -/
def State.refill (s : State) (i : Nat) : State := s.modSlice i fun k => k.upTo s.now k.unreached.length

/-- Apply an accepted send's addends to its destination at home (R235, R246): the line is taken exclusively, then the sums, and the flags its
adds raise. Sends accepted before it stay pending. -/
def State.applySend (s : State) (a : AccSend) : State × BitVec 6 :=
  let line := a.dst.pa / lineBytes
  let s := s.loseReservations line none none ⟨a.task, pcode 3 a.dst.slice, s.now, 0, false⟩
  let s := s.homeTake (some a.dst.slice) line 255 a.task
  let (d, f) := accMerge a.form (mline s.mem line) a.data
  let s := { s with mem := mwrite s.mem (line * lineBytes) lineBytes d.toNat }
  let s := if s.replay.cmp && isHbm (line * lineBytes) then { s with replay := { s.replay with unsettled := tput s.replay.unsettled line a.task } } else s
  (s, f)

/-- Contexts of this module; a send numbered above them comes from another module through a host port. -/
def AccSend.foreign (a : AccSend) : Bool := 12 * Config.coreCount ≤ a.cid

/-- The decision on an unforced send starts its way back; one to another module leaves this model there. -/
def State.sendAnswer (s : State) (ok : Bool) (a : AccSend) : State :=
  if a.forced || a.foreign then s else { s with answers := s.answers ++ [(ok, a)] }

/-- Accept a send at a slice: it joins the pending queue (R235). Its own flags go to SACCST at once, those its adds raise when it is applied. -/
def State.acceptSend (s : State) (i : Nat) (a : AccSend) : State :=
  let (s, f) := s.applySend a
  (s.modSlice i fun k => { k with accst := k.accst ||| a.flags, pend := k.pend ++ [{ a with flags := f }] }).sendAnswer true a

/-- The die whose reserved slots a forced send takes (R239): its own. Of one from another module the rule gives none, and here it takes those of
die 0 at host port 0 and of die 8 at port 1 (DESIGN CHOICE, log entry 102). -/
def AccSend.slotDie (a : AccSend) : Nat := if a.foreign then (a.cid - 12 * Config.coreCount) / 48 % 2 * 8 else dieOf a.cid

/-- Forced sends that hold a die's reserved slots (R239). -/
def Slice.forcedOf (k : Slice) (die : Nat) : Nat := (k.pend.filter fun a => a.forced && a.slotDie == die).length

/-- A forced send that waits is accepted where its die has a reserved slot free (R239), the oldest that can be first. -/
def State.promote (s : State) (i fuel : Nat) : State :=
  match fuel with
  | 0 => s
  | n + 1 =>
    let k := s.slice i
    match k.forcedWait.find? (fun b => decide (k.forcedOf b.slotDie < 2)) with
    | some b => ((s.setSlice i { k with forcedWait := k.forcedWait.erase b }).acceptSend i b).promote i n
    | none => s

/-- Decide a send that has reached its home slice (R236, R239). -/
def State.decideAt (s : State) (i : Nat) (a : AccSend) : State :=
  let s := ((s.refill i).promote i 32).countLine i (a.dst.pa / lineBytes)
  let k := s.slice i
  if a.forced = true then
    if k.forcedOf a.slotDie < 2 then s.acceptSend i a
    else s.setSlice i { k with forcedWait := k.forcedWait ++ [a] }
  else
    let src := clusterOf a.cid
    let used := (tfind k.used src).getD 0
    let pending := (k.pend.filter fun p => p.dst.pa == a.dst.pa).length
    if k.q.toNat ≤ used || k.d.toNat ≤ pending then (s.setSlice i { k with refusals := k.refusals + 1 }).sendAnswer false a
    else (s.setSlice i { k with used := tput k.used src (used + 1) }).acceptSend i a

/-- A tile in F that a send meets is waited for and recalled before the send is decided (R230, R251). -/
def State.meetTiles (s : State) (a : AccSend) : State :=
  ((s.tilesAt (some a.dst.slice) a.dst.pa lineBytes).filter (·.st = .f)).foldl (fun s t =>
    let s := s.tilePush t false
    match s.tileAt t.pa with
    | some t => s.tileRecall t (s.sliceWake a.task t.home)
    | none => s) s

/-- Whether the send at a place of the request channel may arrive: sends of one context to one destination keep their order (R247), and one to
a silent peer never does. -/
def State.sendMay (s : State) (idx : Nat) : Bool :=
  match s.sends[idx]? with
  | none => false
  | some a => !s.silent a.dst.pa && (s.sends.take idx).all fun b => !(b.cid == a.cid && b.dst.pa == a.dst.pa)

/-- A send arrives at its home (R236): accepted or refused, or a forced one waits for a reserved slot. A peer's home decides in the same way
out of sight: `refuses` says that it refuses an unforced send. -/
def State.sendArrives (s : State) (idx : Nat) (refuses : Bool) : State :=
  match s.sends[idx]? with
  | none => s
  | some a =>
    if !s.sendMay idx then s
    else
      let s := { s with sends := s.sends.eraseIdx idx }.meetTiles a
      match regionOf a.dst.pa with
      | .peer _ _ => if refuses && !a.forced then s.sendAnswer false a else (s.applySend a).1.sendAnswer true a
      | _ => s.decideAt a.dst.slice a

/-- Apply the oldest accepted send of a slice (R235); forced sends that wait for a freed slot are then accepted (R239). -/
def State.accApplyAt (s : State) (i : Nat) : State :=
  let k := s.slice i
  (match k.pend with
   | [] => s
   | a :: t => s.setSlice i { k with pend := t, accst := k.accst ||| a.flags }).promote i 32

/-- A refusal reaches its core (R241). The entry keeps the address and address space of the addends it held first (log entry 64). -/
def State.refusalReturns (s : State) (a : AccSend) : State :=
  let k := coreOf a.cid
  let s := s.modCore k fun c => { c with refused := c.refused + 1 }
  let s := s.modHem k fun h => h.map fun e =>
    if e.is a.cid a.dst.pa a.form then
      match e.residual with
      | some r =>
        let (d, f) := accMerge a.form r a.data
        { e with residual := some d, flags := e.flags ||| a.flags ||| f, age := min 3 (max e.age (a.age + 1)), t0 := min e.t0 a.t0, out := e.out - 1 }
      | none => { e with residual := some a.data, flags := e.flags ||| a.flags, age := min 3 (max e.age (a.age + 1)), t0 := a.t0, out := e.out - 1,
                         dst := a.dst, asid := a.asid, tid := a.tid, task := a.task }
    else e
  match (s.core k).hem.find? (·.is a.cid a.dst.pa a.form) with
  | some e =>
    let c := s.ctx a.cid
    let ended := c.status = .idle || c.status = .reserved || c.qtid ≠ a.task
    if ended || e.t0 + s.tres ≤ s.now then s.flushEntry k e else s
  | none => s

/-- An acceptance reaches its core: one send of the key is answered (R240). -/
def State.acceptanceReturns (s : State) (a : AccSend) : State :=
  s.modHem (coreOf a.cid) fun h => h.map fun e => if e.is a.cid a.dst.pa a.form then { e with out := e.out - 1 } else e

/-- An answer on its way reaches its core. -/
def State.answerReturns (s : State) (idx : Nat) : State :=
  match s.answers[idx]? with
  | none => s
  | some (ok, a) =>
    let s := { s with answers := s.answers.eraseIdx idx }
    if ok then s.acceptanceReturns a else s.refusalReturns a

/-- Every send of core `k` that can be decided is decided and answered, up to `fuel` times. -/
def State.decideSends (s : State) (k fuel : Nat) : State :=
  match fuel with
  | 0 => s
  | n + 1 =>
    match s.answers.findIdx? (fun p => coreOf p.2.cid == k) with
    | some i => (s.answerReturns i).decideSends k n
    | none =>
      match (List.range s.sends.length).find? (fun i => s.sendMay i && (s.sends[i]?.any fun a => coreOf a.cid == k)) with
      | some i => (s.sendArrives i false).decideSends k n
      | none =>
        match s.slices.find? (fun p => p.2.forcedWait.any fun a => coreOf a.cid == k) with
        | some (i, _) => (s.accApplyAt i).decideSends k n
        | none => s

/-- Steps enough to decide all that is on its way: each send takes at most a decision and an answer, then one forced send. -/
def State.sendFuel (s : State) : Nat :=
  8 * (s.sends.length + s.answers.length + Config.hemSize + 1) + (s.slices.map fun p => 2 * p.2.pend.length + 8 * p.2.forcedWait.length).sum

/-- The oldest entry of a core's queue with a portion for lane group `j`, its place and cost, if it may start (R137). -/
def State.readyPortion (s : State) (k j : Nat) : Option (Nat × Nat) :=
  let q := (s.core k).vq
  match q.findIdx? (fun e => e.todo.getLsbD j) with
  | none => none
  | some i =>
    match q[i]? with
    | none => none
    | some e =>
      let before := q.take i
      match e.acc with
      | some o => if (before.all fun x => x.todo = 0) && (s.accPortion e.cid o).isSome then some (i, e.cost) else none
      | none =>
        -- a cross-lane portion starts only after every earlier portion of its core has finished
        if e.cross then (if before.all fun x => x.todo = 0 ∧ x.ends ≤ s.arith then some (i, 8 * e.cost) else none)
        else some (i, e.cost)

/-- Whether a core has any portion pending for a lane group. -/
def State.pendingPortion (s : State) (k j : Nat) : Bool := (s.core k).vq.any fun e => e.todo.getLsbD j

/-- Entries at the head of a vector queue whose portions have all finished by a moment have left the queue (R137). -/
def leaveQueue (now : Nat) (q : List VEntry) : List VEntry := q.dropWhile fun e => e.todo = 0 ∧ e.ends ≤ now

/-- A core's vector queue without the entries that have left it by now. -/
def State.liveQueue (s : State) (k : Nat) : List VEntry := leaveQueue s.arith (s.core k).vq

/-- The vector queues of a cluster's cores without the entries that have left them. -/
def State.trimQueues (s : State) (g : Nat) : State :=
  (List.range 4).foldl (fun s j => s.modCore (g * 4 + j) fun c => { c with vq := leaveQueue s.arith c.vq }) s

/-- Start the portion at place `i` of core `k`'s queue on lane group `j` of cluster `g` (R137): it holds its group for its cost, and a cross-lane
portion then holds each other group as that group frees. -/
def State.startPortion (s : State) (g j k i : Nat) : State :=
  match (s.core k).vq[i]? with
  | none => s
  | some e =>
    let s := match e.acc with
      | some o => (s.accPortion e.cid o).getD s
      | none => s
    let busy (n : Nat) (x : LaneGroup) : Nat :=
      if n = j then s.arith + e.cost else if e.cross then max x.busy s.arith + e.cost else x.busy
    let ends := ((s.cluster g).groups.toList.mapIdx fun n x => if n = j || e.cross then busy n x else 0).foldl max e.ends
    let s := s.modCore k fun c => { c with vq := c.vq.set i { e with todo := e.todo &&& ~~~(1#8 <<< j), ends := ends } }
    s.modCluster g fun c => { c with groups := c.groups.mapIdx fun n x => { x with busy := busy n x } }

def LaneGroup.def_ (x : LaneGroup) (k : Nat) : Nat := match k with
  | 0 => x.d0 | 1 => x.d1 | 2 => x.d2 | _ => x.d3
def LaneGroup.setDef (x : LaneGroup) (k v : Nat) : LaneGroup := match k with
  | 0 => { x with d0 := v } | 1 => { x with d1 := v } | 2 => { x with d2 := v } | _ => { x with d3 := v }

/-- Whether a lane group is free (R138). -/
def State.groupFree (s : State) (g j : Nat) : Bool := decide (((s.cluster g).groups.toList.getD j LaneGroup.reset).busy ≤ s.arith)

/-- The arbiter of R138 for lane group `j` of cluster `g`, in a cycle in which it is free, until it grants a portion or no core is ready. -/
def State.arbitrate (s : State) (g j fuel : Nat) : State :=
  match fuel with
  | 0 => s
  | n + 1 =>
    if !s.groupFree g j || (List.range 4).all fun m => (s.readyPortion (g * 4 + m) j).isNone then s
    else
      let x := (s.cluster g).groups.toList.getD j LaneGroup.reset
      let k := x.ptr
      let put (s : State) (y : LaneGroup) : State :=
        s.modCluster g fun c => { c with groups := c.groups.mapIdx fun m z => if m = j then y else z }
      let weight := max 1 (bits (s.cluster g).qmvwt (8 * k + 7) (8 * k))
      match s.readyPortion (g * 4 + k) j with
      | some (i, cost) =>
        let x := if x.fresh then { x.setDef k (x.def_ k + weight) with fresh := false } else x
        if cost ≤ x.def_ k then ((put s (x.setDef k (x.def_ k - cost))).startPortion g j (g * 4 + k) i)
        else (put s { x with ptr := (k + 1) % 4, fresh := true }).arbitrate g j n
      | none =>
        let x := if s.pendingPortion (g * 4 + k) j then x else x.setDef k 0
        (put s { x with ptr := (k + 1) % 4, fresh := true }).arbitrate g j n

/-- Visits that suffice for one grant: a cross-lane portion charges at most 64, at one weight a round of four. -/
def arbitrateFuel : Nat := 600

/-- An accumulate at the head of a core's queue that needs a hem entry, with none free, has the core flush residuals for it (R240). -/
def State.headRoom (s : State) (k : Nat) : State :=
  match (s.core k).vq.find? fun e => e.todo != 0 with
  | none => s
  | some e => match e.acc with
    | some o => if (s.core k).hem.any (·.is e.cid o.dst.pa o.form) then s else s.hemRoom k Config.hemSize
    | none => s

/-- The next arithmetic cycle at which a lane group of a cluster frees. -/
def State.nextFree (s : State) (g : Nat) : Nat :=
  ((s.cluster g).groups.toList.filterMap fun x => if s.arith < x.busy then some x.busy else none).foldl min (s.arith + 64)

/-- Grants of every lane group of a cluster, in one cycle; where none is possible a waiting context lets the cycles pass. -/
def State.vectorRound (s : State) (g : Nat) : State :=
  let s := (List.range 4).foldl (fun s j => s.headRoom (g * 4 + j)) s
  let t := ((List.range 8).foldl (fun s j => s.arbitrate g j arbitrateFuel) s).trimQueues g
  if (List.range 4).any fun j => (t.core (g * 4 + j)).vq ≠ (s.core (g * 4 + j)).vq then t else { t with arith := t.nextFree g }.trimQueues g

/-- Run the lane groups of a cluster until core `k`'s queue holds no entry of context `cid`. -/
def State.drainVector (s : State) (cid fuel : Nat) : State :=
  match fuel with
  | 0 => s
  | n + 1 =>
    let k := coreOf cid
    if !((s.core k).vq.any fun e => e.cid == cid) then s
    else ((s.decideSends k s.sendFuel).vectorRound (clusterOf cid)).drainVector cid n

/-- Rounds that suffice to empty a queue: each grants a portion of each group to some core of the cluster, or frees a group. -/
def drainFuel : Nat := 1200

/-- TMO of qmtmo (R196). -/
def State.tmo (s : State) : Nat := bits s.qmtmo 39 0

/-- A posted request of a context times out (R196): a TYPE 0x07 event reaches the issuing core's control context. -/
def State.postedTimeout (s : State) (cid : Nat) (task : Word) (pa : Nat) : State :=
  s.putEvent (coreOf cid) 7 28 task [0, word pa] task (pcode 11 (dieOf cid))

/-- A send that times out is lost, with its addends (R234). -/
def State.sendTimeout (s : State) (idx : Nat) : State :=
  match s.sends[idx]? with
  | none => s
  | some a =>
    let s := { s with sends := s.sends.eraseIdx idx }
    let s := if a.forced then s else s.acceptanceReturns a
    s.postedTimeout a.cid a.task a.dst.pa

/-- A wait for sends to a silent peer ends when they time out (R196): TMO passes, and each is reported. -/
def State.expireWhere (s : State) (p : AccSend → Bool) (fuel : Nat) : State :=
  match fuel with
  | 0 => s
  | n + 1 =>
    match s.sends.findIdx? (fun a => p a && s.silent a.dst.pa) with
    | some i => ({ s with now := max s.now ((s.sends[i]?).elim 0 AccSend.sent + s.tmo) }.sendTimeout i).expireWhere p n
    | none => s
def State.expireSends (s : State) (cid fuel : Nat) : State := s.expireWhere (fun a => a.cid == cid) fuel

/-- Every accumulate of a context runs its portion, and each of its sends is accepted or refused (R199 class A, R247). Sends to a silent peer
can keep the hem full until they time out, those of the core's other contexts too (R240), so the wait goes on after that while an accumulate is
left. -/
def State.settleAcc (s : State) (cid : Nat) : State := settleRounds s cid 17
where
  settleRounds (s : State) (cid : Nat) (fuel : Nat) : State :=
    match fuel with
    | 0 => s
    | n + 1 =>
      let s := s.drainVector cid drainFuel
      let s := s.decideSends (coreOf cid) s.sendFuel
      let s := s.expireSends cid s.sends.length
      if (s.core (coreOf cid)).vq.any fun e => e.cid == cid then
        settleRounds (s.expireWhere (fun a => coreOf a.cid == coreOf cid) s.sends.length) cid n
      else s

/-- Force-flush every entry of a context (R242 trigger 4), without waiting. -/
def State.flushCtx (s : State) (cid : Nat) : State := s.flushWhere (coreOf cid) fun e => e.cid == cid

/-- FLRES over a range of a context's residuals (R245): flush them and wait until each forced send is accepted. -/
def State.flushRange (s : State) (cid base stop asid : Nat) : State :=
  let s := s.settleAcc cid
  let s := s.flushWhere (coreOf cid) fun e =>
    e.cid == cid && e.asid == asid && decide (e.dst.va < stop) && decide (base < e.dst.va + lineBytes)
  let s := s.decideSends (coreOf cid) s.sendFuel
  s.expireSends cid s.sends.length

end Sys2Proof.Machine
end

