-- ==== Sys2Proof/Machine/Engine.lean ====
section
/-! DEFINITION. What the copy engines, the buffer tables and the phasers do (R283 to R293, R301, R341 to R344), apart from the
instructions that command them. -/

namespace Sys2Proof.Machine

/-- The word that a handle reads as (R284). -/
def Handle.word (h : Handle) : Word := BitVec.ofNat 64 (h.st.toNat + 4 * bnat h.err)

/-- A handle changes (R284): waiters whose set the new state satisfies, and every waiter when ERR is set, are woken (R289). What a failed sealed copy
hides stays hidden (R390). -/
def State.changeHandle (s : State) (g h : Nat) (st : BitVec 2) (err : Bool) (task : Word) (code : BitVec 32) : State :=
  let x : Handle := ⟨st, err, task, code, s.now, if err then (s.handle g h).veil else []⟩
  (s.setHandle g h x).wakeIf
    (fun _ w => w.kind = .bhwait && w.obj.pa == g * 256 + h && (err || bit w.op1 st.toNat))
    ⟨task, code, s.now, x.word, false⟩

/-- The fields of a phaser (R341). -/
structure Phaser where
  phase : Nat
  pend : Nat
  under : Bool
  sig : Nat
  arr : Nat
  wait : Nat
  nxsig : Nat
  nxwait : Nat
  lastid : Nat
  lastcode : Nat
  lasttime : Nat
  ctime : Nat
  reservedClear : Bool
  deriving DecidableEq, Repr

/-- A phaser from its 64 bytes. -/
def Phaser.ofNat (v : Nat) : Phaser :=
  let w (i : Nat) : Nat := v >>> (64 * i) % 2 ^ 64
  { phase := w 0 % 2 ^ 32, pend := w 0 >>> 32 % 2 ^ 24, under := w 0 >>> 56 % 2 == 1
    sig := w 1 % 2 ^ 14, arr := w 1 >>> 16 % 2 ^ 14, wait := w 1 >>> 32 % 2 ^ 14
    nxsig := w 2 % 2 ^ 14, nxwait := w 2 >>> 16 % 2 ^ 14
    lastid := w 3, lastcode := w 4 % 2 ^ 32, lasttime := w 5, ctime := w 6
    reservedClear := w 0 >>> 57 == 0 && w 1 >>> 14 % 4 == 0 && w 1 >>> 30 % 4 == 0 && w 1 >>> 46 == 0 &&
      w 2 >>> 14 % 4 == 0 && w 2 >>> 30 == 0 && w 4 >>> 32 == 0 && w 7 == 0 }
/-- The 64 bytes of a phaser. -/
def Phaser.toNat (p : Phaser) : Nat :=
  (p.phase % 2 ^ 32 + p.pend * 2 ^ 32 + bnat p.under * 2 ^ 56) +
  (p.sig + p.arr * 2 ^ 16 + p.wait * 2 ^ 32) * 2 ^ 64 +
  (p.nxsig + p.nxwait * 2 ^ 16) * 2 ^ 128 +
  p.lastid * 2 ^ 192 + p.lastcode * 2 ^ 256 + p.lasttime * 2 ^ 320 + p.ctime * 2 ^ 384

/-- The completion rule of R342; the last phase that can complete is 0xFFFF_FFFE (R348). -/
def Phaser.rule (p : Phaser) (now : Nat) : Phaser × Bool :=
  if p.arr = p.sig ∧ p.pend = 0 ∧ p.phase < 2 ^ 32 - 1 then
    ({ p with ctime := now % 2 ^ 64, phase := p.phase + 1, arr := 0, sig := p.nxsig, wait := p.nxwait }, true)
  else (p, false)

/-- The phaser at an address, read at its home. -/
def State.phaser (s : State) (x : Xlat) : State × Phaser :=
  let (s, v) := s.homeReadX x 0 64
  (s, Phaser.ofNat v)

/-- The home stores a phaser, and releases the contexts that wait for a phase below PHASE if one completed (R342). -/
def State.putPhaser (s : State) (x : Xlat) (p : Phaser) (completed : Bool) (w : Wake) : State :=
  let s := s.homeWriteX x 0 64 p.toNat w 0
  if completed then
    s.wakeIf (fun _ t => (t.kind = .phwait || t.kind = .pharvW) && t.obj.pa == x.pa && decide (t.op1.toNat % 2 ^ 32 < p.phase))
      ⟨word p.lastid, BitVec.ofNat 32 p.lastcode, p.lasttime, 0, false⟩
  else s

/-- A decrement of a phaser's pending bytes by an engine, with the underflow rule (R344). The producer of a phase that this completes
is the engine (R347). -/
def State.phaserDecrement (s : State) (x : Xlat) (n : Nat) (task : Word) (code : BitVec 32) (core : Nat) : State :=
  if n = 0 then s
  else
    let (s, p) := s.phaser x
    let under := p.pend < n
    let p1 := { p with pend := p.pend - n, under := p.under || under }
    let (p2, c) := p1.rule s.now
    let p3 := if c then { p2 with lastid := task.toNat, lastcode := (s.reportCode code).toNat, lasttime := s.now % 2 ^ 64 } else p2
    let s := s.putPhaser x p3 c ⟨task, code, s.now, 0, false⟩
    if under then s.putEvent core 4 31 task [1, word x.pa] task (pcode 8 (dieOfCore core)) else s

/-- The phaser that an operation completes into, if it does. -/
def Target.phaserAt (t : Target) : Option Xlat := match t with
  | .handle _ _ _ => none
  | .phaser x => some x

/-- The phasers that their homes know to be in use: contexts, live or saved, wait at them, or operations of the copy and stack engines complete
into them (DESIGN CHOICE, log entry 28). -/
def State.phasersInUse (s : State) : List Xlat :=
  let at_ (w : Option Wait) : Option Xlat := w.bind fun t => if t.kind = .phwait || t.kind = .pharvW then some t.obj else none
  ((s.ctxs.filterMap fun q => at_ q.2.wait) ++ (s.saved.filterMap fun v => at_ v.wait) ++
    (s.clusters.flatMap fun q => q.2.copies.filterMap fun c => c.target.phaserAt) ++
    (s.stackCmds.flatMap fun q => q.2.filterMap fun c => c.target.phaserAt)).pwFilter fun x y => x.pa ≠ y.pa

/-- Read `n` bytes, within one line, at the home of a queue. -/
def State.queueRead (s : State) (x : Xlat) (off n : Nat) : State × Nat := s.homeReadX x off n
/-- Write them. -/
def State.queueWrite (s : State) (x : Xlat) (off n v : Nat) (w : Wake) : State := s.homeWriteX x off n v w 0

/-- A queue's words SIZE, TAIL and HEAD, where its header is valid (R354, R356). -/
def State.queueWords (s : State) (x : Xlat) : State × Option (Nat × Nat × Nat) :=
  let (s, v) := s.queueRead x 0 64
  let size := v % 2 ^ 32
  (s, if v >>> 32 % 2 ^ 32 = 0 && v >>> 192 = 0 && 8 ≤ size && size ≤ 2 ^ 20 && size == 2 ^ size.log2 then
    some (size, v >>> 64 % 2 ^ 64, v >>> 128 % 2 ^ 64) else none)

/-- The slot of index `i` of a queue, as an offset from its header (R354). -/
def queueSlot (size i : Nat) : Nat := 64 + 32 * (i % size)
/-- The lap of an index. -/
def queueLap (size i : Nat) : Nat := (i / size + 1) % 2 ^ 32

/-- Take the entry at HEAD, if its slot is valid (R356): value, pusher's task and code. -/
def State.queueTake (s : State) (x : Xlat) (w : Wake) : State × Option (Word × Word × BitVec 32) :=
  match s.queueWords x with
  | (s, none) => (s, none)
  | (s, some (size, _, head)) =>
    let (s, e) := s.queueRead x (queueSlot size head) 32
    if e >>> 192 % 2 ^ 32 ≠ queueLap size head then (s, none)
    else (s.queueWrite x 0x10 8 ((head + 1) % 2 ^ 64) w, some (word e, word (e >>> 64), BitVec.ofNat 32 (e >>> 224)))

/-- The contexts that wait in a QPOP, with their waits. -/
def State.popWaits (s : State) : List (Nat × Wait) :=
  let live := s.ctxs.filterMap fun q => match q.2.wait, q.2.wake with
    | some w, none => some (q.1, w)
    | _, _ => none
  let parked := s.saved.filterMap fun v => match v.wait, v.wake with
    | some w, none => some (v.cid, w)
    | _, _ => none
  (live ++ parked).filter fun p => p.2.kind = .qpop

/-- A context in a QPOP on a queue that has waited longest, with its wait. -/
def State.popWaiter (s : State) (pa : Nat) : Option (Nat × Wait) :=
  (s.popWaits.filter fun p => p.2.obj.pa == pa).foldl (fun b p => match b with
    | none => some p
    | some q => if p.2.since < q.2.since then some p else b) none

/-- Hand valid entries to the contexts that wait for them, up to `n` (R356). -/
def State.feedPops (s : State) (x : Xlat) (n : Nat) : State :=
  match n with
  | 0 => s
  | k + 1 =>
    match s.popWaiter x.pa with
    | none => s
    | some (cid, t) =>
      match s.queueTake x (s.byCtx cid) with
      | (s, none) => s
      | (s, some (v, task, code)) =>
        (s.wakeIf (fun d w => d == cid && w == t) ⟨task, code, s.now, v, false⟩).feedPops x k

/-- A plain store to an object in use makes its home look at it again: a phaser in use follows the rule (R341), and a queue on which a QPOP waits
may hold a valid entry (R356). -/
def State.restorePhaser (s : State) (pa n : Nat) : State :=
  let s := (s.phasersInUse.filter fun x => decide (x.pa < pa + n) && decide (pa < x.pa + 64)).foldl (fun s a =>
    let (s, p) := s.phaser a
    let (p, c) := p.rule s.now
    if c then s.putPhaser a p c ⟨0, 0, s.now, 0, false⟩ else s) s
  (s.popWaits.filter fun p => decide (p.2.obj.pa < pa + n) && decide (pa < p.2.obj.pa + queueSlot 1048576 1048575 + 32)).foldl (fun s p =>
    s.feedPops p.2.obj 1) s

/-- The physical pieces of a virtual range over its captured pages. -/
def physPieces (ps : Pages) (va n : Nat) : List (Nat × Nat) :=
  ps.map fun x =>
    let lo := max va (x.va / 4096 * 4096)
    let hi := min (va + n) (x.va / 4096 * 4096 + 4096)
    (x.pa / 4096 * 4096 + lo % 4096, hi - lo)

/-- Read `n` bytes from virtual address `va` of an operation's captured pages, as cluster `g` does; a refused or unanswered byte gives
its cause and physical address (R190, R301). -/
def State.readSpan (s : State) (g : Nat) (tid : BitVec 12) (task : Word) (ps : Pages) (fuel va n : Nat) : State × Except (Nat × Nat) Nat :=
  match fuel with
  | 0 => (s, .ok 0)
  | k + 1 =>
    if n = 0 then (s, .ok 0)
    else match pageAt ps va with
      | none => (s, .error (13, va))
      | some x =>
        let m := min n (128 - va % 128)
        if !(s.selvedgeOk g .read x.pa m) then (s, .error (25, x.pa))
        else if s.silent x.pa then (s, .error (28, x.pa))
        else
          let (s, v) := s.readMem g tid task x m
          match s.readSpan g tid task ps k (va + m) (n - m) with
          | (s, .ok r) => (s, .ok (v + r * 2 ^ (8 * m)))
          | (s, .error e) => (s, .error e)

/-- Write `n` bytes at virtual address `va` of an operation's captured pages; the bytes before a failure stand. The result names how
many were written. -/
def State.writeSpan (s : State) (g : Nat) (tid : BitVec 12) (ps : Pages) (w : Wake) (launch : Nat) (fuel va n v : Nat) :
    State × Nat × Option (Nat × Nat) :=
  match fuel with
  | 0 => (s, 0, none)
  | k + 1 =>
    if n = 0 then (s, 0, none)
    else match pageAt ps va with
      | none => (s, 0, some (15, va))
      | some x =>
        let m := min n (128 - va % 128)
        if !(s.selvedgeOk g .write x.pa m) then (s, 0, some (25, x.pa))
        else if s.silent x.pa then (s, 0, some (28, x.pa))
        else
          let s := s.writeMem g tid x m (v % 2 ^ (8 * m)) none w launch
          let (s, r, e) := s.writeSpan g tid ps w launch k (va + m) (n - m) (v >>> (8 * m))
          (s, m + r, e)

/-- Decode `n` zero-elided chunks of 512 bytes (R288): the words, and the payload bytes used. -/
def elided (n p used : Nat) : List Nat × Nat :=
  match n with
  | 0 => ([], used)
  | k + 1 =>
    let bm := p % 2 ^ 64
    let (ws, q, u) := (List.range 64).foldl (fun (ws, q, u) j =>
      if bm.testBit j then (q % 2 ^ 64 :: ws, q >>> 64, u + 8) else (0 :: ws, q, u)) ([], p >>> 64, used + 8)
    let (rest, u') := elided k q u
    (ws.reverse ++ rest, u')

/-- 64-bit words as one number, lowest first. -/
def ofWords (ws : List Nat) : Nat := ws.foldr (fun w a => w + a * 2 ^ 64) 0

/-- A decoded block of 4,096 bytes, or none where the block is malformed (R288). `p` holds the payload's bytes. -/
def decodeBlock (hdr p : Nat) : Option Nat :=
  let method := hdr % 16
  let clen := hdr >>> 8 % 2 ^ 13
  if hdr >>> 4 % 16 ≠ 0 || hdr >>> 21 ≠ 0 || 4096 < clen then none
  else match method with
    | 0 => if clen = 4096 then some (p % 2 ^ 32768) else none
    | 1 =>
      let (ws, u) := elided 8 p 0
      if u = clen then some (ofWords ws) else none
    | 2 =>
      let (ws, u) := elided 8 p 0
      if u = clen then
        let lo := ofWords (ws.take 256)
        let hi := ofWords (ws.drop 256)
        some ((List.range 2048).foldr (fun e a =>
          (lo >>> (8 * e) % 256) + (hi >>> (8 * e) % 256) * 256 + a * 65536) 0)
      else none
    | _ => none

/-- Whether pages lie in an alias view (R189). -/
def onAlias (ps : Pages) : Bool := ps.any fun x => match regionOf x.pa with
  | .scratch a _ _ => a != 0
  | _ => false

/-- The wake that a copy's write gives. -/
def CopyOp.wake (c : CopyOp) (now g : Nat) : Wake := ⟨c.task, pcode 1 g, now, 0, false⟩

/-- Perform up to `limit` destination bytes of a copy (R287): the operation as it then stands, and its failure if it met one. -/
def State.copyRun (s : State) (g : Nat) (fuel : Nat) (c : CopyOp) (limit : Nat) : State × CopyOp × Option (Nat × Nat) :=
  match fuel with
  | 0 => (s, c, none)
  | k + 1 =>
    if limit = 0 ∨ c.n ≤ c.done then (s, c, none)
    else
      let w := c.wake s.now g
      let l := c.launch.getD 0
      let dst := c.dst.toNat + c.done
      if c.dc then
        match s.readSpan g c.tid c.task c.srcPages 4 (c.src.toNat + c.off) 8 with
        | (s, .error e) => (s, c, some e)
        | (s, .ok hdr) =>
          let clen := min 4096 (hdr >>> 8 % 2 ^ 13)
          match s.readSpan g c.tid c.task c.srcPages 40 (c.src.toNat + c.off + 8) clen with
          | (s, .error e) => (s, c, some e)
          | (s, .ok p) =>
            match decodeBlock hdr p with
            | none => (s, c, some (29, ((pageAt c.srcPages (c.src.toNat + c.off)).map (·.pa)).getD 0))
            | some v =>
              let (s, m, e) := s.writeSpan g c.tid c.dstPages w l 40 dst 4096 v
              let c := { c with done := c.done + m, off := c.off + (8 + clen + 15) / 16 * 16 }
              match e with
              | some e => (s, c, some e)
              | none => s.copyRun g k c (limit - 4096)
      else
        -- a write through an alias view is of whole elements (R189)
        let m0 := min limit (min (c.n - c.done) (128 - dst % 128))
        let m := if onAlias c.dstPages then m0 / 2 * 2 else m0
        if m = 0 then (s, c, none)
        else match s.readSpan g c.tid c.task c.srcPages 3 (c.src.toNat + c.done) m with
        | (s, .error e) => (s, c, some e)
        | (s, .ok v) =>
          let (s, j, e) := s.writeSpan g c.tid c.dstPages w l 2 dst m v
          let c := { c with done := c.done + j }
          match e with
          | some e => (s, c, some e)
          | none => s.copyRun g k c (limit - m)

/-- The core whose control context a copy's records go to: the issuing core, or for a pattern entry the core that the launch came from
(R301), which its `cid` then names. -/
def CopyOp.owner (c : CopyOp) : Nat := coreOf c.cid

/-- The core that a launch came from: the one that executed LAUNCH, else that of its record. -/
def Launch.source (l : Launch) : Nat := match l.issuer with
  | some i => coreOf i
  | none => bits (l.record.getD 3 0) 13 0

/-- The completion target as a record names it. -/
def Target.asWord (t : Target) : Word := match t with
  | .handle _ _ w => w
  | .phaser x => word x.va

/-- Replace or remove the operation at place `i` of a copy queue. -/
def State.setCopy (s : State) (g i : Nat) (c : Option CopyOp) : State :=
  s.modCluster g fun k => { k with copies := match c with
    | some c => k.copies.set i c
    | none => k.copies.eraseIdx i }

/-- Whether two lists of physical ranges overlap. -/
def rangesOverlap (a b : List (Nat × Nat)) : Bool :=
  a.any fun (p, n) => b.any fun (q, m) => p < q + m && q < p + n

/-- Whether a write through an alias view has an odd destination or length (R189, R286). -/
def oddAlias (ps : Pages) (va n : Nat) : Bool := (va % 2 == 1 || n % 2 == 1) && onAlias ps

/-- The source bytes a copy of `n` bytes reads (R286). -/
def copySrcLen (dc : Bool) (n : Nat) : Nat := if dc then 4112 * (n / 4096) else n

/-- The memory checks of R286 for a copy under a view: the pages of both ranges, with the first access fault beside, since every page fault
of the instruction goes before it (R78). -/
def State.copyScan (s : State) (v : View) (dc : Bool) (dst src n : Nat) : Except Stop (State × Pages × Pages × Option Stop) := do
  let sl := copySrcLen dc n
  let (s, dp, de) ← s.scanPages v .store needW true (n / 4096 + 2) dst (dst + n)
  let (s, sp, se) ← s.scanPages v .load needR true (sl / 4096 + 2) src (src + sl)
  .ok (s, dp, sp, (if oddAlias dp dst n then some (Cls.err .store .access dst) else de).or se)

/-- An access fault that was put off is raised now. -/
def raiseLate (e : Option Stop) : Except Stop Unit := match e with
  | some e => .error e
  | none => .ok ()

/-- The valid session whose region holds a physical address, if one does (R390). -/
def State.sessionAt (s : State) (pa : Nat) : Option Nat :=
  (s.sessions.find? fun q => q.2.valid && q.2.sbase.toNat ≤ pa && pa < q.2.slimit.toNat).map (·.1)

/-- The extra issue checks of a sealed copy (R390): the owner, the form, the length, the destination through alias 0 of the own scratchpad, and
the source range inside the region. -/
def State.sealedOk (s : State) (j g : Nat) (task : Word) (plain : Bool) (n : Nat) (dst src : List (Nat × Nat)) : Bool :=
  let e := s.session j
  e.owner == task && plain && n % 16 == 0 && n ≤ 2 ^ 24 &&
  (dst.all fun p => match regionOf p.1 with
    | .scratch a h _ => a == 0 && h == g
    | _ => false) &&
  src.all fun p => decide (e.sbase.toNat ≤ p.1) && decide (p.1 + p.2 ≤ e.slimit.toNat)

/-- The source pages of a copy (R390), with the first access fault beside: a source that starts in a sealed region has a header and a tag beside
its `n` bytes. -/
def State.sealedScan (s : State) (v : View) (sp : Pages) (dc : Bool) (src n : Nat) : Except Stop (State × Pages × Option Nat × Option Stop) :=
  let at_ := if n = 0 then (match s.xlate v needR src with
    | .ok (_, x) => some x
    | .error _ => none) else pageAt sp src
  let j := at_.bind fun x => s.sessionAt x.pa
  if j.isSome && !dc then do
    let (s, sp, e) ← s.scanPages v .load needR true ((n + 32) / 4096 + 2) src (src + n + 32)
    .ok (s, sp, j, e)
  else .ok (s, sp, j, none)

/-- The place of a new copy in its session's order of acceptance (R391), over every cluster's queue. -/
def State.sealedTurn (s : State) (j : Option Nat) : Nat :=
  if j.isNone then 0 else (s.clusters.flatMap fun q => (q.2.copies.filter fun c => c.sealedBy == j).map (·.turn)).foldl max 0 + 1

/-- A sealed copy's handle hides the destination while it fills (R390). -/
def State.veil (s : State) (j : Option Nat) (t : Target) (dp : Pages) (dst n : Nat) : State :=
  match j, t with
  | some _, .handle g h _ => s.setHandle g h { s.handle g h with veil := (physPieces dp dst n).map fun (pa, m) => match regionOf pa with
      | .scratch _ _ off => (off, m)
      | _ => (0, 0) }
  | _, _ => s

/-- The checks of a sealed copy, and the overlap check of every copy (R286, R390). -/
def State.copyRangesOk (s : State) (j : Option Nat) (g : Nat) (task : Word) (dc ph : Bool) (dp sp : Pages) (dst src n : Nat) : Bool :=
  let d := physPieces dp dst n
  let r := physPieces sp src (if j.isSome && !dc then n + 32 else copySrcLen dc n)
  (match j with
   | some j => s.sealedOk j g task (!dc && !ph) n d r
   | none => true) && !(rangesOverlap d r)

/-- The entries of a staging that hold a place of their cluster's copy queue (R286, R328): admitted ones until they are fetched. -/
def Staging.load (t : Staging) : Nat := if t.admitted then (t.entries.filter fun e => !e.done && !e.cancelled).length else 0

/-- Operations that hold a place of a cluster's copy queue (R286): copies, and the entries of its stagings. -/
def State.copyLoad (s : State) (g : Nat) : Nat :=
  (s.cluster g).copies.length + (s.dies.map fun q => ((q.2.stagings.filter fun t => clusterOfCore t.core == g).map Staging.load).sum).sum

/-- Release a pattern entry (R292): it is checked and run as a plain CPY with a handle. A check that fails leaves the record of R301, whose
cause for it is 29; its physical address is that of the first failure, or 0 where there is none (log entry 65). -/
def State.releaseEntry (s : State) (key g : Nat) (l : Launch) (ws : List Word) : State :=
  let src := ws.getD 0 0
  let dst := ws.getD 1 0
  let n := bits (ws.getD 2 0) 31 0
  let h := bits (ws.getD 2 0) 39 32
  let task := word (l.lseq * 2 ^ 32 + s.host.moduleId.toNat * 2 ^ 52)
  let code := pcode 1 (s.reportCluster g)
  let base : CopyOp := ⟨src, dst, n, false, .handle g h (word h), [], [], controlOf l.source, task, l.recVa, 0, 0, 0, none, none, some key, s.now, 0⟩
  let fail (s : State) (pa : Nat) : State := s.putEvent base.owner 0x0A 29 task [l.recVa, word pa, word h, 0] task code
  let v : View := { dispView l.die l.satp with g := g }
  let checked : Except Stop (State × Pages × Pages × Option Nat) := do
    let (s, dp, sp, late) ← s.copyScan v false dst.toNat src.toNat n
    let (s, sp, j, late2) ← s.sealedScan v sp false src.toNat n
    raiseLate (late.or late2)
    .ok (s, dp, sp, j)
  match checked with
  | .error (.exc _ va) => fail s (match s.xlate v needR va.toNat with
      | .ok (_, x) => x.pa
      | .error _ => 0)
  | .error _ => s
  | .ok (s', dp, sp, j) =>
    if !(s'.copyRangesOk j g task false false dp sp dst.toNat src.toNat n) || (s.handle g h).st ≠ 0 then
      fail s (((pageAt dp dst.toNat).map (·.pa)).getD 0)
    else
      let s := (s'.changeHandle g h 1 false task code).veil j base.target dp dst.toNat n
      let op : CopyOp := { base with srcPages := sp, dstPages := dp, sealedBy := j, turn := s.sealedTurn j }
      s.modCluster g fun k => { k with copies := k.copies ++ [op] }

/-- Release the entries of a launch's pattern whose stage its counter has reached, in entry order (R292). -/
def State.releasePattern (s : State) (key : Nat) : State :=
  match s.launchAt key with
  | none => s
  | some l => match l.patCluster with
    | none => s
    | some g =>
      let (now, later) := l.pattern.partition fun p => decide (bits (p.2.getD 2 0) 47 40 ≤ l.stage)
      { s.setLaunch key { l with pattern := later } with released := s.released ++ now.map fun p => ⟨key, g, l, p.2⟩ }

/-- The released entries of a cluster run, oldest first, while its copy queue has a place and no change of SPWAYS holds it (R286, R292); the others
stay until it has, and outlive their launch. -/
def State.pumpReleased (s : State) (g fuel : Nat) : State :=
  match fuel with
  | 0 => s
  | m + 1 =>
    if (s.cluster g).busy || Config.copyQueueSize ≤ s.copyLoad g then s
    else match s.released.findIdx? (·.g == g) with
      | none => s
      | some i => match s.released[i]? with
        | none => s
        | some r =>
          let t : State := { s with released := s.released.eraseIdx i }
          (t.releaseEntry r.key g r.launch r.words).pumpReleased g m

/-- A cluster's copy queue or its scratchpad frees: what waits for it goes on. -/
def State.pumpCluster (s : State) (g : Nat) : State := s.pumpReleased g s.released.length

/-- A copy ends without completing (R16, R301): its handle takes ERR, and a copy-fault record goes to its owner. -/
def State.copyFails (s : State) (g i : Nat) (c : CopyOp) (cause pa : Nat) : State :=
  let s := s.setCopy g i none
  let s := match c.target with
    | .handle h n _ => s.changeHandle h n 1 true c.task (pcode 1 (s.reportCluster g))
    | .phaser _ => s
  (s.putEvent c.owner 0x0A cause c.task [c.pc, word pa, c.target.asWord, word c.done] c.task (pcode 1 (s.reportCluster g))).pumpCluster g

/-- Perform `n` more bytes of the copy at place `i` of cluster `g`, with the phaser's decrements, and complete it when every byte is
performed (R287). -/
def State.copyAdvance (s : State) (g i n : Nat) : State :=
  match (s.cluster g).copies[i]? with
  | none => s
  | some c =>
    -- a sealed copy runs in its own way (R390), and a change of SPWAYS holds the engine (R178)
    if c.sealedBy.isSome || s.engineHeld g (c.srcPages ++ c.dstPages) then s
    else
      let (s, c', e) := s.copyRun g (c.n - c.done + 1) c n
      let code := pcode 1 (s.reportCluster g)
      let s := match c.target with
        | .phaser x => s.phaserDecrement x (c'.done - c.done) c.task code c.owner
        | .handle _ _ _ => s
      match e with
      | some (cause, pa) => s.copyFails g i c' cause pa
      | none =>
        if c'.n ≤ c'.done then
          let s := s.setCopy g i none
          (match c.target with
           | .handle h m _ => s.changeHandle h m 2 false c.task code
           | .phaser _ => s).pumpCluster g
        else s.setCopy g i (some c')

/-- The stage counter of a launch advances to at least `c` (R292, R293). -/
def State.patternStep (s : State) (key c : Nat) : State :=
  match s.launchAt key with
  | none => s
  | some l => match l.patCluster with
    | none => s
    | some g => ((s.setLaunch key { l with stage := max l.stage c }).releasePattern key).pumpCluster g

end Sys2Proof.Machine
end

