-- ==== Sys2Proof/Machine/SBuf.lean ====
section
/-! DEFINITION. The store buffer (R99): the order in which a context's entries may be performed, what each kind of entry does when it
is performed (R34, R201, R202, R221 to R223, R231, R293, R365), and the waits for a context's earlier events (R98, R199). -/

namespace Sys2Proof.Machine

/-- WBR, INVR and WBINVR over one physical piece in cluster `g` (R201): tile sectors are skipped. The L1 copies that go with a removed line are
taken to be those of the L1 I-caches too (log entry 67). -/
def State.rangePiece (s : State) (g : Nat) (inv : Bool) (x : Xlat) (n : Nat) : State :=
  if n = 0 || x.mt = .scratch || x.mt = .io then s
  else (linesFrom x.pa n).foldl (fun s line =>
    let free := ~~~(s.tileMask (some (x.homeOf line)) line)
    if inv then
      let s := s.evictSectors g line free
      let s := if s.silent x.pa then s else s.landVictims (some g) line
      (List.range 4).foldl (fun s j => s.modCore (g * 4 + j) fun c => { c with icache := tdel c.icache line }) s
    else
      let s := s.writeBack g line free
      if s.silent x.pa then s else s.landVictims (some g) line) s

/-- A line leaves an L2 without write-back (R202): every tile with a sector in it that the cluster holds loses the line, and so is released. -/
def State.discardLine (s : State) (g line : Nat) : State :=
  match tfind (s.cluster g).l2 line with
  | none => s
  | some l =>
    let s := s.leaveSectors g line 255 (s.lineLeft l.home)
    (s.tiles.filter fun t => t.mask line ≠ 0 && t.holders.contains g && t.st ≠ .f).foldl (fun s t => s.releaseFrom t g (s.lineLeft t.home)) s

/-- DISCT of a tensor (R202, R216, R230): every line tagged with it goes, without write-back, from every L2; its tiles go to H. Dirty bytes in
flight are not discarded. -/
def State.discard (s : State) (t : BitVec 12) : State :=
  if t = 0 then s
  else
    let s := (s.tiles.filter fun u => u.tensor = t).foldl (fun s u =>
      let s := s.tilePush u false
      match s.tileAt u.pa with
      | none => s
      | some u =>
        let s := u.holders.foldl (fun s g => u.sectors.foldl (fun s (line, m) => s.leaveSectors g line m (s.lineLeft u.home)) s) s
        s.setTile { u with st := .h, holders := [], dst := 0 }) s
    s.clusters.foldl (fun s (g, c) => (c.l2.filter fun (_, l) => l.tid = t).foldl (fun s (line, _) => s.discardLine g line) s) s

/-- TREL as performed (R221), for the task that issued it. -/
def State.releaseTile (s : State) (g pa : Nat) (task : Word) : State :=
  match s.tileAt pa with
  | none => s
  | some t => if !t.holders.contains g || t.st = .f then s else s.releaseFrom t g (s.sliceWake task t.home)

/-- A user or step record on the issuer's die (R365). -/
def State.traceRecord (s : State) (cid : Nat) (task w0 w1 : Word) : State :=
  s.putRecord (dieOf cid) task w0 w1
    (word (s.now % 2 ^ 32 + 14 * 2 ^ 32 + (s.now >>> 32 % 2 ^ 28) * 2 ^ 36))
def State.stepMark (s : State) (cid : Nat) (task : Word) (step : BitVec 32) : State :=
  let s := s.putRecord (dieOf cid) task (step.setWidth 64) s.time (word (13 * 2 ^ 32))
  (List.range Config.dieCount).foldl (fun s d => s.modDie d fun x => { x with step := step, t0 := s.time }) s

/-- Remove the entry at place `i` of a store buffer. -/
def State.dropEntry (s : State) (k i : Nat) : State := s.modCore k fun c => { c with storeBuffer := c.storeBuffer.eraseIdx i }

/-- The entry a tile forward of core `k` holds starts its push, or is dropped (R222, R223). The tile's sectors leave the cluster and travel. -/
def State.startForward (s : State) (k i : Nat) : State :=
  match (s.core k).storeBuffer[i]? with
  | some ⟨cid, rel, .tfwd pa home va dst false, pc, task, tid, since, vec⟩ =>
    let g := clusterOf cid
    if clusterOfCore dst = g then s.dropEntry k i
    else
      match s.tileAt pa with
      | some t =>
        if (t.st = .e || t.st = .m) && t.holders = [g] then
          let (s, fl) := s.takeTile t g (s.sliceWake task t.home)
          let s := s.setTile { t with st := .f, dst := clusterOfCore dst, fwdCore := k, fwdTask := task, fwdTid := tid, flight := fl }
          s.modCore k fun c => { c with storeBuffer := c.storeBuffer.set i ⟨cid, rel, .tfwd pa home va dst true, pc, task, tid, since, vec⟩ }
        else (s.dropEntry k i).putEvent k 8 0 task [pc, va] task (pcode 10 t.home)
      | none => (s.dropEntry k i).putEvent k 8 0 task [pc, va] task (pcode 10 home)
  | _ => s

/-- The record of a vector access's failed elements (R164): the cause and physical address of the lowest. -/
def State.vecRecord (s : State) (cid : Nat) (task pc : Word) (fails : List (Nat × Nat × Nat)) : State :=
  match fails.foldl (fun (o : Option (Nat × Nat × Nat)) p => match o with
      | none => some p
      | some q => if p.1 < q.1 then some p else o) none with
  | none => s
  | some (_, cause, pa) => s.putEvent (coreOf cid) 6 cause task [pc, word pa] task (pcode 9 (s.reportCluster (clusterOf cid)))

/-- A posted element of a vector store is performed, or has failed (R164); with its last one the instruction completes and its record is written. -/
def State.elemDone (s : State) (k : Nat) (e : SBEntry) (fail : Option (Nat × Nat)) : State :=
  match e.vec with
  | none => s
  | some (key, i) =>
    match (s.core k).vecStores.find? fun v => v.key == key with
    | none => s
    | some v =>
      let fails := v.fails ++ (fail.map fun (c, pa) => (i, c, pa)).toList
      let rest := (s.core k).vecStores.filter fun u => u.key ≠ key
      if v.left ≤ 1 then (s.modCore k fun c => { c with vecStores := rest }).vecRecord v.cid v.task v.pc fails
      else s.modCore k fun c => { c with vecStores := rest ++ [{ v with fails := fails, left := v.left - 1 }] }

/-- Perform a posted message to a remote scratchpad (R34, R190): the store was admitted when it was issued. -/
def State.performPosted (s : State) (k i : Nat) : State :=
  match (s.core k).posted[i]? with
  | some e => (match e.kind with
    | .store x n d =>
      let s := s.modCore k fun c => { c with posted := c.posted.eraseIdx i }
      (s.writeMem (clusterOf e.cid) e.tid x n d.toNat (some e.cid) (s.byCtx e.cid) (s.ctx e.cid).launch).elemDone k e none
    | _ => s)
  | none => s

/-- Whether a store's destination is another cluster's scratchpad (R34). -/
def remoteScratch (g : Nat) (x : Xlat) : Bool := match regionOf x.pa with
  | .scratch _ h _ => h != g
  | _ => false

/-- Requests of a cluster that wait in its miss buffer (R181). -/
def State.missUsed (s : State) (g : Nat) : Nat := (s.slices.map fun p => (p.2.waiting.filter (·.g = g)).length).sum

/-- Staging requests that hold slots of a slice; S of qmstage is the most that may (R181). -/
def Slice.staged (k : Slice) : Nat := (k.held.filter fun r => r.fill.isSome).length
/-- Whether a request may take a slot now. -/
def State.slotFor (s : State) (k : Slice) (r : SlotReq) : Bool :=
  decide (k.held.length < Config.requestSlots) && (r.fill.isNone || decide (k.staged < bits s.qmstage 19 16))

/-- The lines of all the stored bytes that an access of [pa, pa + n) needs: through an alias view its scale bytes too. -/
def State.neededLines (s : State) (pa n : Nat) : List Nat := (s.storedPieces pa n).flatMap fun p => linesFrom p.1 p.2

/-- Whether two stores touch one line of stored bytes, or one of them writes what the other, through an alias view, scales by (R189). -/
def State.sameLine (s : State) (a b : SBEntry) : Bool := match a.kind, b.kind with
  | .store x n _, .store y m _ =>
    (s.storedLines x.pa n).any (s.neededLines y.pa m).contains || (s.storedLines y.pa m).any (s.neededLines x.pa n).contains
  | _, _ => true

/-- Whether the entry at a place of a list may be performed now (R27, R99): stores of one context to different lines may pass one another;
every other pair of one context's entries keeps its order, and a release follows all that precedes it. -/
def State.mayPass (s : State) (q : List SBEntry) (i : Nat) : Bool :=
  match q[i]? with
  | none => false
  | some e => (q.take i).all fun d => d.cid ≠ e.cid || (!e.rel && !d.rel && !s.sameLine d e)

/-- Whether a request of cluster `g` for [pa, pa + n) finds its home slice with no request slot free (R181). -/
def State.slotsFull (s : State) (g : Nat) (x : Xlat) (n : Nat) : Bool :=
  isHbm x.pa && s.cached x && !(s.l2Has g x.pa n) && !s.slotFor (s.slice x.slice) ⟨g, 0, none, false⟩

/-- Whether a request of cluster `g` for an address leaves its compute die, so that a tracker times it (R196): one to its own scratchpad or its own
registers does not. -/
def leavesDie (g pa : Nat) : Bool := match regionOf pa with
  | .scratch _ h _ => h != g
  | .cfg => !(decide (cfgBase + g * 0x10000 ≤ pa) && decide (pa < cfgBase + (g + 1) * 0x10000))
  | _ => true
/-- As `leavesDie`, for a byte that the cluster's L2 may serve. -/
def State.leaves (s : State) (g pa : Nat) : Bool := leavesDie g pa && !(s.l2Has g pa 1)

/-- A write-back times out (R196), performed (`done`) or not, which is not known. -/
def State.victimTimeout (s : State) (g i : Nat) (done : Bool) : State :=
  match (s.cluster g).victims[i]? with
  | some v =>
    if v.since + s.tmo ≤ s.now then
      (if done && !s.silent (v.line * lineBytes) then s.mergeVictim g i
       else s.modCluster g fun c => { c with victims := c.victims.eraseIdx i }).postedTimeout v.cid v.task (v.line * lineBytes)
    else s
  | none => s

/-- Whether a cluster has a line among some on its way to a peer that does not answer. -/
def State.writesTo (s : State) (g : Nat) (ls : List Nat) : Option Nat :=
  (s.cluster g).victims.findIdx? fun v => ls.contains v.line && s.silent (v.line * lineBytes)

/-- A wait for write-backs that no peer answers ends when they time out (R196, R201). -/
def State.expireVictims (s : State) (g : Nat) (ls : List Nat) (fuel : Nat) : State :=
  match fuel with
  | 0 => s
  | n + 1 =>
    match s.writesTo g ls with
    | some i => ({ s with now := max s.now ((((s.cluster g).victims[i]?).elim 0 Victim.since) + s.tmo) }.victimTimeout g i false).expireVictims g ls n
    | none => s

/-- Whether the entry at place `i` of core `k`'s store buffer may be performed now; a change of SPWAYS holds its cluster's (R178), and a
stopped die its own (R397); a store follows the posted ones of its context to its line, and one that misses waits for a slot of its home slice (R181). -/
def State.mayPerform (s : State) (k i : Nat) : Bool :=
  s.mayPass (s.core k).storeBuffer i && !(s.cluster (clusterOfCore k)).busy && !(s.die (dieOfCore k)).stopped &&
  match (s.core k).storeBuffer[i]? with
  | some e => ((s.core k).posted.all fun d => d.cid ≠ e.cid || !s.sameLine d e || (match e.kind with
    | .store x _ _ => remoteScratch (clusterOf e.cid) x || s.silent x.pa
    | _ => true)) && (match e.kind with
    | .store x n _ => !s.slotsFull (clusterOf e.cid) x n
    | .written ls => (s.writesTo (clusterOf e.cid) ls).isNone
    | _ => true)
  | none => false

/-- Whether the posted message at place `i` may be performed now: a change of SPWAYS of its target holds it at the bank units (R178), and a
silent peer never answers it. -/
def State.mayLand (s : State) (k i : Nat) : Bool :=
  s.mayPass (s.core k).posted i && match (s.core k).posted[i]? with
  | some e => (match e.kind with
    | .store x _ _ => !s.changing x.pa && !s.silent x.pa
    | _ => true)
  | none => true

/-- A posted message times out (R196): performed or not, the issuing core's control context is told. An element of a vector store is not performed,
and its instruction's record tells (R164). -/
def State.postedEnds (s : State) (k i : Nat) (performed : Bool) : State :=
  match (s.core k).posted[i]? with
  | some e =>
    let pa := match e.kind with
      | .store x _ _ => x.pa
      | _ => 0
    let gone := s.modCore k fun c => { c with posted := c.posted.eraseIdx i }
    if e.vec.isSome then gone.elemDone k e (some (28, pa))
    else (if performed then s.performPosted k i else gone).postedTimeout e.cid e.task pa
  | none => s

/-- Perform every posted message of a context; one to a silent peer is waited for until it times out. -/
def State.drainPosted (s : State) (cid fuel : Nat) : State :=
  match fuel with
  | 0 => s
  | n + 1 =>
    let k := coreOf cid
    match (s.core k).posted.findIdx? (·.cid == cid) with
    | some i =>
      let s := match (s.core k).posted[i]? with
        | some e => (match e.kind with
          | .store x _ _ => if s.silent x.pa then { s with now := max s.now (e.since + s.tmo) }.postedEnds k i false else s.performPosted k i
          | _ => s.performPosted k i)
        | none => s
      s.drainPosted cid n
    | none => s

/-- Perform the entry at place `i` of core `k`'s store buffer (R99). A release in the buffer waits for the context's earlier events (R98). A store
to a remote scratchpad is posted, and so is one that its peer never answers (R34, R196). -/
def State.performEntry (s : State) (k i : Nat) : State :=
  match (s.core k).storeBuffer[i]? with
  | none => s
  | some e =>
    let g := clusterOf e.cid
    let s := if e.rel then (s.settleAcc e.cid).drainPosted e.cid (s.core k).posted.length else s
    match e.kind with
    | .store x n d =>
      let s := s.dropEntry k i
      if s.silent x.pa || remoteScratch g x then s.modCore k fun c => { c with posted := c.posted ++ [{ e with since := s.now }] }
      else (s.writeMem g e.tid x n d.toNat (some e.cid) (s.byCtx e.cid) (s.ctx e.cid).launch).restorePhaser x.pa n
    | .range inv ps =>
      let s := ps.foldl (fun s (x, n) => s.rangePiece g inv x n) s
      -- held until every byte is performed at home (R201)
      let ls := ((s.cluster g).victims.filter fun v => s.silent (v.line * lineBytes) && ps.any fun (y, m) => (linesFrom y.pa m).contains v.line).map (·.line)
      if ls = [] then s.dropEntry k i else s.modCore k fun c => { c with storeBuffer := c.storeBuffer.set i { e with kind := .written ls } }
    | .written ls => (s.expireVictims g ls (s.cluster g).victims.length).dropEntry k i
    | .disct t => (s.dropEntry k i).discard t
    | .trel pa => (s.dropEntry k i).releaseTile g pa e.task
    | .tfwd pa _ _ _ started =>
      if started then (match s.tileAt pa with
        | some t => s.tilePush t false
        | none => s.dropEntry k i)
      else s.startForward k i
    | .cpstep l c => (s.dropEntry k i).patternStep l c
    | .cpmark st => (s.dropEntry k i).stepMark e.cid e.task st
    | .trace a b => (s.dropEntry k i).traceRecord e.cid e.task a b

/-- The request of a buffered store, or of a range operation for the byte at `pa`, times out (R196), performed (`done`) or not. -/
def State.storeExpires (s : State) (k i pa : Nat) (done : Bool) : State :=
  match (s.core k).storeBuffer[i]? with
  | none => s
  | some e =>
    let g := clusterOf e.cid
    let at_ : Option Nat := match e.kind with
      | .store x _ _ => if s.leaves g x.pa && !(remoteScratch g x || s.silent x.pa) then some x.pa else none
      | .range _ ps => if ps.any fun (x, n) => decide (x.pa ≤ pa) && decide (pa < x.pa + n) && leavesDie g x.pa then some pa else none
      | _ => none
    match at_ with
    | some a =>
      if e.since + s.tmo ≤ s.now && s.mayPass (s.core k).storeBuffer i then
        (if done && s.mayPerform k i then s.performEntry k i else s.dropEntry k i).postedTimeout e.cid e.task a
      else s
    | none => s

/-- Perform every entry of a context, oldest first; a forward takes two turns (R231), and so does a range operation whose write-backs no peer
answers. -/
def State.drainEntries (s : State) (cid fuel : Nat) : State :=
  match fuel with
  | 0 => s
  | n + 1 =>
    match (s.core (coreOf cid)).storeBuffer.findIdx? (·.cid == cid) with
    | some i => (s.performEntry (coreOf cid) i).drainEntries cid n
    | none => s

/-- Every earlier store-class event of a context is performed at .md: its buffer entries and its posted messages. -/
def State.drainStores (s : State) (cid : Nat) : State :=
  let s := s.drainEntries cid (2 * (s.core (coreOf cid)).storeBuffer.length + 1)
  s.drainPosted cid (s.core (coreOf cid)).posted.length

/-- Every earlier event of a context is performed (R98): stores, accumulate decisions and vector accesses. -/
def State.settle (s : State) (cid : Nat) : State := (s.drainStores cid).settleAcc cid

/-- As `settle`, for the issuing context. -/
def State.settleMe (s : State) : State := s.settle s.cur

/-- Whether a context has earlier events that are not yet performed (R98). -/
def State.owes (s : State) (cid : Nat) : Bool :=
  let k := s.core (coreOf cid)
  (k.storeBuffer.any fun e => e.cid == cid) || (k.posted.any fun e => e.cid == cid) || (k.vq.any fun e => e.cid == cid) ||
  (s.sends.any fun a => a.cid == cid) || s.answers.any fun p => p.2.cid == cid

/-- A full store buffer holds its context until an entry frees (R98): the oldest entry is performed. -/
def State.makeRoom (s : State) (k : Nat) : State :=
  if (s.core k).storeBuffer.length < Config.storeBufferSize then s
  else
    let s := s.performEntry k 0
    if (s.core k).storeBuffer.length < Config.storeBufferSize then s else s.performEntry k 0

/-- Enter an entry of the issuing context in its core's store buffer, waiting for room (R98, R99). -/
def State.enter (s : State) (kind : SBKind) (rel : Bool) : State :=
  let c := s.me
  let s := s.makeRoom (coreOf s.cur)
  s.modCore (coreOf s.cur) fun k =>
    { k with storeBuffer := k.storeBuffer ++ [⟨s.cur, rel, kind, c.pc, c.qtid, BitVec.ofNat 12 c.qtensid.toNat, s.now, none⟩] }

/-- The bytes of a load with the context's own buffered and posted stores laid over them, oldest first (R99). -/
def forwardStores (cid pa n v : Nat) (q : List SBEntry) : Nat :=
  q.foldl (fun v e => match e.kind with
    | .store x m d =>
      if e.cid = cid ∧ x.pa < pa + n ∧ pa < x.pa + m then
        (List.range n).foldl (fun v j =>
          if x.pa ≤ pa + j ∧ pa + j < x.pa + m then
            let old := v >>> (8 * j) % 256
            v - old * 2 ^ (8 * j) + (d.toNat >>> (8 * (pa + j - x.pa)) % 256) * 2 ^ (8 * j)
          else v) v
      else v
    | _ => v) v

/-- Whether an address lies in an alias view, where atomics are not performed (R189). -/
def isAlias (pa : Nat) : Bool := match regionOf pa with
  | .scratch a _ _ => a != 0
  | _ => false

/-- Whether a load of [pa, pa + n) waits for the context's own entries instead of reading their bytes: an own store to the same stored bytes where
one of the two goes through an alias view, which re-codes them (R189), an INVR or WBINVR of one of its lines, and a DISCT (R27, R39). -/
def State.loadWaits (s : State) (cid pa n : Nat) : Bool :=
  let k := s.core (coreOf cid)
  (k.posted ++ k.storeBuffer).any fun e => e.cid == cid && match e.kind with
    | .store y m _ => (isAlias y.pa || isAlias pa) && (s.storedLines y.pa m).any (s.neededLines pa n).contains
    | .range inv ps => inv && ps.any fun (y, m) => (linesFrom y.pa m).any (linesFrom pa n).contains
    | .disct _ => true
    | _ => false

/-- A context's own buffered and posted writes of the lines of [pa, pa + n) are performed before an operation at their home that reads or changes
them (R27). -/
def State.ownFirst (s : State) (cid pa n : Nat) : State :=
  let k := s.core (coreOf cid)
  let mine := (k.posted ++ k.storeBuffer).any fun e => e.cid == cid && match e.kind with
    | .store y m _ => (s.storedLines y.pa m).any (s.neededLines pa n).contains
    | .range inv ps => inv && ps.any fun (y, m) => (linesFrom y.pa m).any (linesFrom pa n).contains
    | .disct _ => true
    | _ => false
  if mine then s.drainStores cid else s

/-- Whether a change of SPWAYS holds what a context has still to perform (R178): its own cluster's, entries of its store buffer, and that of another
cluster whose scratchpad they name. -/
def State.waysHold (s : State) (cid : Nat) : Bool :=
  let k := s.core (coreOf cid)
  let held (e : SBEntry) : Bool := e.cid == cid && match e.kind with
    | .store x _ _ => s.changing x.pa
    | _ => false
  ((s.cluster (clusterOf cid)).busy && k.storeBuffer.any fun e => e.cid == cid) || k.storeBuffer.any held || k.posted.any held

/-- A coherent read of `n` bytes by the issuing context, with its own buffered stores. -/
def State.loadBytes (s : State) (x : Xlat) (n : Nat) : State × Nat :=
  let s := if s.loadWaits s.cur x.pa n then s.drainStores s.cur else s
  let (s, v) := s.readMem (clusterOf s.cur) (BitVec.ofNat 12 s.me.qtensid.toNat) s.me.qtid x n
  let k := s.core (coreOf s.cur)
  (s, forwardStores s.cur x.pa n v (k.posted ++ k.storeBuffer))

end Sys2Proof.Machine
end

