-- ==== Sys2Proof/Machine/Save.lean ====
section
/-! DEFINITION. Save records (R114 to R116), vector windows (R141), the fault queue and parks (R332), and frozen dumps (R378). -/

namespace Sys2Proof.Machine

/-- The bits of mstatus that sstatus shows: SIE, SPIE, SPP, FS, SUM, MXR, UXL (R112). -/
def sstatusMask : Word := 0x00000003000C6122#64
/-- sstatus; SD is set while FS is Dirty. -/
def Ctx.sstatus (c : Ctx) : Word := (c.mstatus &&& sstatusMask) ||| (if bits c.mstatus 14 13 = 3 then 0x8000000000000000#64 else 0)
/-- The context with sstatus written: its WARL bits, and UXL kept. -/
def Ctx.setSstatus (c : Ctx) (v : Word) : Ctx :=
  let m : Word := 0x00000000000C6122#64
  { c with mstatus := (c.mstatus &&& ~~~m) ||| (v &&& m) }
def Ctx.fcsr (c : Ctx) : Word := BitVec.ofNat 64 (c.fflags.toNat + c.frm.toNat * 32)
def Ctx.setFcsr (c : Ctx) (v : Word) : Ctx := { c with fflags := BitVec.ofNat 5 v.toNat, frm := BitVec.ofNat 3 (bits v 7 5) }

/-- Fields of qvwin (R141), qvrot (R142) and qvtype (R140). -/
def Ctx.winBase (c : Ctx) : Nat := bits c.qvwin 10 0
def Ctx.winSize (c : Ctx) : Nat := bits c.qvwin 25 16
def Ctx.rot (c : Ctx) : Nat := bits c.qvrot 8 0
def Ctx.tid (c : Ctx) : BitVec 12 := BitVec.ofNat 12 c.qtensid.toNat

/-- A cluster register (R134). -/
def State.vregAt (s : State) (g n : Nat) : VReg := (tfind (s.cluster g).vreg n).getD 0
def State.setVreg (s : State) (g n : Nat) (v : VReg) : State := s.modCluster g fun c => { c with vreg := tput c.vreg n v }

/-- The codes of the wait kinds in a save record (R116). -/
def WaitKind.code (k : WaitKind) : Nat := match k with
  | .phwait => 1 | .pharvW => 2 | .mrecv => 3 | .qpop => 4 | .bhwait => 5 | .hjoin => 6 | .evwait => 7 | .wrsNto => 8
  | .wrsSto => 9 | .falign => 11 | .hexit => 12 | .reply => 0

/-- A breakpoint register's word. -/
def Breakpoint.at_ (b : Breakpoint) (i : Nat) : Word := match i with
  | 0 => b.addr | 1 => b.ctl | _ => b.mask
def Breakpoint.set_ (b : Breakpoint) (i : Nat) (v : Word) : Breakpoint := match i with
  | 0 => { b with addr := v } | 1 => { b with ctl := v &&& 0xFFFFFFFF000000FF } | _ => { b with mask := v &&& 0xFFFFFFFF }

/-- The 64-bit word at index `i` of a context's save record, but for the vector part (R116). -/
def Ctx.recordWord (c : Ctx) (i : Nat) : Word :=
  if i = 0 then c.qtid
  else if i < 32 then c.getX (BitVec.ofNat 5 i)
  else if i = 32 then c.pc
  else if i < 65 then c.getF (BitVec.ofNat 5 (i - 33))
  else if 96 ≤ i ∧ i < 108 then (c.bp.toList.getD ((i - 96) / 3) Breakpoint.off).at_ ((i - 96) % 3)
  else if 128 ≤ i ∧ i < 240 then
    BitVec.ofNat 64 ((c.masks.toList.getD ((i - 128) / 16) 0).toNat >>> (64 * ((i - 128) % 16)))
  else match i with
    | 65 => c.fcsr | 66 => c.sstatus | 67 => c.sepc | 68 => c.scause | 69 => c.stval | 70 => c.stvec | 71 => c.sscratch
    | 72 => c.satp | 73 => c.instret | 74 => c.qvtype | 75 => c.qvwin | 76 => c.qvrot | 77 => c.qmxcap | 78 => c.qtensid
    | 79 => c.qvstat | 80 => c.qloop | 81 => c.loopStart | 82 => c.qprio | 83 => c.qfdisp
    | 84 => BitVec.ofNat 64 (c.priv.code + bnat c.wait.isSome * 4 + bnat c.wake.isSome * 8 +
        (c.wait.map fun w => w.kind.code).getD 0 * 16 + bnat c.hstarted * 256)
    | 85 => (c.wait.map (·.op0)).getD 0
    | 86 => (c.wait.map (·.op1)).getD 0
    | _ => 0

/-- A write of qfdisp (R113): a field of 11, and a field that is always handled, is not stored. -/
def writeQfdisp (old v : Word) : Word :=
  word ((List.range 27).foldl (fun a i =>
    let o := bits old (2 * i + 1) (2 * i)
    let n := bits v (2 * i + 1) (2 * i)
    let rw := i < 8 || i = 12 || i = 13 || i = 15 || 16 ≤ i
    a + (if rw && n ≠ 3 then n else o) * 2 ^ (2 * i)) 0)

/-- A context with the word at index `i` of its record replaced, as a restore does: Reserved bits of a register read as zero whatever the
record holds (R4). -/
def Ctx.setRecordWord (c : Ctx) (i : Nat) (v : Word) : Ctx :=
  if i = 0 then { c with qtid := v }
  else if i < 32 then c.setX (BitVec.ofNat 5 i) v
  else if i = 32 then { c with pc := v }
  else if i < 65 then c.setF (BitVec.ofNat 5 (i - 33)) v
  else if 96 ≤ i ∧ i < 108 then
    { c with bp := c.bp.mapIdx fun j b => if j = (i - 96) / 3 then b.set_ ((i - 96) % 3) v else b }
  else if 128 ≤ i ∧ i < 240 then
    { c with masks := c.masks.mapIdx fun j m =>
        if j = (i - 128) / 16 then
          let sh := 64 * ((i - 128) % 16)
          BitVec.ofNat 1024 (m.toNat - (m.toNat >>> sh % 2 ^ 64) * 2 ^ sh + v.toNat * 2 ^ sh)
        else m }
  else match i with
    | 65 => c.setFcsr v | 66 => c.setSstatus v | 67 => { c with sepc := v &&& ~~~3#64 } | 68 => { c with scause := v }
    | 69 => { c with stval := v } | 70 => { c with stvec := v &&& ~~~2#64 } | 71 => { c with sscratch := v } | 72 => { c with satp := v }
    | 73 => { c with instret := v } | 74 => { c with qvtype := v &&& 0x8000000007FF001F#64 }
    | 75 => { c with qvwin := v &&& 0x8000000003FF07FF#64 } | 76 => { c with qvrot := v &&& 0x1F8 } | 77 => { c with qmxcap := v }
    | 78 => { c with qtensid := v &&& 0xFFF } | 79 => { c with qvstat := v &&& 0x7F } | 80 => { c with qloop := v &&& 0xC0000FFFFFFFFFFF#64 }
    | 81 => { c with loopStart := v } | 82 => { c with qprio := v &&& 0x3F } | 83 => { c with qfdisp := writeQfdisp qfdispReset v }
    | 84 => { c with priv := privOf (bits v 1 0), hstarted := bit v 8 }
    | _ => c

/-- The 2 KiB fixed part of a record, as a number. -/
def Ctx.fixedPart (c : Ctx) : Nat := (List.range 256).foldr (fun i a => (c.recordWord i).toNat + a * 2 ^ 64) 0

/-- Write bytes of home memory line by line, at an address that is a multiple of 128. -/
def State.homeWriteLines (s : State) (pa : Nat) (v : Nat) (w : Wake) (n : Nat) : State :=
  match n with
  | 0 => s
  | k + 1 => (s.homeWrite pa 128 (v % 2 ^ 1024) w 0).homeWriteLines (pa + 128) (v >>> 1024) w k
/-- Read lines of home memory. -/
def State.homeReadLines (s : State) (pa n : Nat) : State × Nat :=
  match n with
  | 0 => (s, 0)
  | k + 1 =>
    let (s, v) := s.homeRead pa 128
    let (s, r) := s.homeReadLines (pa + 128) k
    (s, v + r * 2 ^ 1024)

/-- Whether a vector instruction that stands in its queue has completed by a moment (R137): no portion is left to start, and its last one has
finished. One that has no portion completes at the queue's head, which it then leaves. -/
def VEntry.complete (e : VEntry) (now : Nat) : Bool := e.todo = 0 && e.ends != 0 && decide (e.ends ≤ now)

/-- Whether registers [base, base + n) of a cluster are free (R141): of every window, and of each window that an instruction still in a
vector queue was issued with. -/
def State.blockFree (s : State) (g base n : Nat) : Bool :=
  let apart (b m : Nat) : Bool := m = 0 || b + m ≤ base || base + n ≤ b
  (s.ctxs.all fun (cid, c) => clusterOf cid ≠ g || apart c.winBase c.winSize) &&
  (List.range 4).all fun j => (s.liveQueue (g * 4 + j)).all fun e => e.complete s.arith || apart e.base e.size

/-- The lowest 32-aligned free block of `n` registers of a cluster (R141). -/
def State.findBlock (s : State) (g n : Nat) : Option Nat :=
  (((List.range 64).map (· * 32)).filter fun b => b + n ≤ 2048).find? fun b => s.blockFree g b n

/-- Allocate a window for a context: its registers read as zero (R141). -/
def State.openWindow (s : State) (cid base n : Nat) : State :=
  let s := s.modCluster (clusterOf cid) fun c => { c with vreg := c.vreg.filter fun p => p.1 < base || base + n ≤ p.1 }
  s.modCtx cid fun c => { c with qvwin := BitVec.ofNat 64 (base + n * 2 ^ 16) }

/-- The fields of qcsave (R116). -/
def Core.spidx (k : Core) : Nat := bits k.qcsave 11 0
def Core.savebase (k : Core) : Nat := bits k.qcsave 55 20

/-- Where context `cid` is saved: the scratchpad offset of its fixed slot and its memory slot, if the region is valid (R116). Whether the area
that SPIDX names lies beyond the scratchpad is judged by this context's own 2 KiB of it: the spec does not say which of the two it means
(DESIGN CHOICE, log entry 70). -/
def State.saveSlots (s : State) (cid : Nat) : Option (Nat × Nat) :=
  let k := s.core (coreOf cid)
  let off := k.spidx * 2048 + ctxNum cid * 2048
  let mem := s.ownPa (dieOf cid) (k.savebase * 2 ^ 20 + ctxNum cid * 2 ^ 20)
  if off + 2048 ≤ (s.cluster (clusterOf cid)).spSize && isHbm (mem + 2 ^ 20 - 1) then some (scratchAddr (clusterOf cid) off, mem) else none

/-- The wake that the service slot's own writes give. -/
def State.byService (s : State) (cid : Nat) : Wake := ⟨0, pcode 0 (s.reportCore (coreOf cid)), s.now, 0, false⟩

/-- Copy a saved context's fixed part to its memory slot, which then holds the whole record (R116 spill); its fault-queue entry, if it
has one, names the memory slot too. -/
def State.spill (s : State) (v : Saved) : State :=
  if v.fixedAt = v.memAt then s
  else
    let (s, d) := s.homeReadLines v.fixedAt 16
    let s := s.homeWriteLines v.memAt d (s.byService v.cid) 16
    let s := match v.fq with
      | some p => s.homeWrite (p + 8) 8 (s.reportPa v.memAt) (s.byService v.cid) 0
      | none => s
    { s with saved := s.saved.map fun u => if u.key = v.key then { u with fixedAt := v.memAt } else u }

/-- The save record, vector part and all, of a context: its number of lines. -/
def Ctx.recordLines (c : Ctx) : Nat := 16 + 8 * c.winSize
/-- The vector part as a number: unrotated registers from the window base. -/
def State.vectorPart (s : State) (cid : Nat) : Nat :=
  let c := s.ctx cid
  (List.range c.winSize).foldr (fun r a => (s.vregAt (clusterOf cid) (c.winBase + r)).toNat + a * 2 ^ 8192) 0

/-- What a slot becomes once its thread has left it: the M-mode registers stay with the slot, the thread's state does not. -/
def Ctx.vacate (c : Ctx) (st : CtxStatus) : Ctx :=
  { c with status := st, qvwin := 0, qloop := 0, loopStart := 0, wait := none, wake := none, request := none, stop := none, held := none,
           haltReq := false, stepReq := false, claimed := false, lost := false, packet := none, reservation := none, lostBy := none,
           task := none, launch := 0, rank := 0, hstarted := false, qtid := 0, pc := 0, prioMax := 0 }

/-- The state in which a save leaves a slot (R95). -/
def Ctx.slotAfter (cid : Nat) (c : Ctx) : CtxStatus := if ctxNum cid = 0 || c.hstarted then .reserved else .idle

/-- A slot has been left: a core notes when one of its helper slots became Idle (R310). -/
def State.slotFreed (s : State) (cid : Nat) : State :=
  if 1 ≤ ctxNum cid ∧ ctxNum cid ≤ 10 ∧ (s.ctx cid).status = .idle then s.modCore (coreOf cid) fun k => { k with freed := s.now } else s

/-- The service slot saves a context (R115, R116, R250); none where the save region is invalid. -/
def State.saveContext (s : State) (cid : Nat) : Option (State × Saved) :=
  match s.saveSlots cid with
  | none => none
  | some (fx, mm) =>
    let s := s.settle cid
    let s := s.flushCtx cid
    let s := s.decideSends (coreOf cid) s.sendFuel
    let s := s.expireSends cid s.sends.length
    -- a WRS that is saved while it waits loses its reservation to the save, and that wake is latched (R19, R103; log entry 73)
    let s := s.loseIf (fun k _ => k = cid) (s.byService cid)
    -- another record in the scratchpad slot is spilled before the slot is reused
    let s := (s.saved.filter fun v => v.hasCtx && v.fixedAt == fx).foldl (fun s v => s.spill v) s
    let c := s.ctx cid
    let s := s.homeWriteLines fx c.fixedPart (s.byService cid) 16
    let s := s.homeWriteLines (mm + 0x800) (s.vectorPart cid) (s.byService cid) (8 * c.winSize)
    let v : Saved :=
      { key := s.nextKey, cid := cid, fixedAt := fx, memAt := mm, launch := c.launch, rank := c.rank, task := c.task,
        hstarted := c.hstarted, hasCtx := true, scounteren := c.scounteren, senvcfg := c.senvcfg, wait := c.wait, wake := c.wake,
        lost := c.lost, claimed := c.claimed, prioMax := c.prioMax, fq := none, wants := false, gang := false, resume := none, stg := c.qtstg
        ending := none }
    let s := { s with nextKey := s.nextKey + 1, saved := s.saved ++ [v] }
    some ((s.modCtx cid fun c => c.vacate (c.slotAfter cid)).slotFreed cid, v)

/-- Change a saved context, named by key. -/
def State.modSaved (s : State) (key : Nat) (f : Saved → Saved) : State :=
  { s with saved := s.saved.map fun v => if v.key = key then f v else v }
def State.dropSaved (s : State) (key : Nat) : State := { s with saved := s.saved.filter fun v => v.key ≠ key }
def State.savedAt (s : State) (key : Nat) : Option Saved := s.saved.find? fun v => v.key == key

/-- The receive slots of a context that goes on under another number of its core: they go with it, unless another thread lives under the
old one (DESIGN CHOICE, log entry 82). -/
def State.moveSlots (s : State) (old new : Nat) : State :=
  let c := s.ctx old
  if old = new || c.status = .running || c.status = .waiting || c.status = .frozen then s
  else s.modCore (coreOf old) fun k => { k with slots := k.slots.map fun (i, q) => (i, if q.owner = old then { q with owner := new } else q) }

/-- Restore a saved context into slot `cid` (R116, R310, R353): its fixed part from where it was written, a new window base of the saved
size. None while the cluster has no window block for it. -/
def State.restoreInto (s : State) (v : Saved) (cid : Nat) : Option State :=
  let s := if coreOf cid = coreOf v.cid then s else s.spill v
  let v := (s.savedAt v.key).getD v
  let (s, fx) := s.homeReadLines v.fixedAt 16
  let c0 := (List.range 87).foldl (fun (c : Ctx) i => c.setRecordWord i (word (fx >>> (64 * i)))) (s.ctx cid)
  let c1 := ((List.range 12).map (· + 96) ++ (List.range 112).map (· + 128)).foldl
    (fun (c : Ctx) i => c.setRecordWord i (word (fx >>> (64 * i)))) c0
  let n := c1.winSize
  let block := if n = 0 then some 0 else s.findBlock (clusterOf cid) n
  match block with
  | none => none
  | some base =>
    let run : Word := word (fx >>> (64 * 84))
    -- a FALIGN is executed again (R109)
    let wait := if bit run 2 && (v.wait.map fun w => w.kind) != some .falign then v.wait.map fun w =>
      { w with op0 := word (fx >>> (64 * 85)), op1 := word (fx >>> (64 * 86)) } else none
    let c2 : Ctx := { c1 with
      status := if wait.isSome then .waiting else .running
      wait := wait, wake := v.wake, launch := v.launch, rank := v.rank, task := v.task, scounteren := v.scounteren,
      senvcfg := v.senvcfg, qtstg := v.stg, lost := v.lost, claimed := v.claimed, prioMax := v.prioMax, reservation := none,
      qvwin := c1.qvwin &&& 0x8000000000000000#64 }
    let s := s.setCtx cid c2
    let s := if n = 0 then s else
      let s := s.openWindow cid base n
      let (s, d) := s.homeReadLines (v.memAt + 0x800) (8 * n)
      let s := s.modCtx cid fun c => { c with qvwin := c.qvwin ||| (c1.qvwin &&& 0x8000000000000000#64) }
      (List.range n).foldl (fun s r => s.setVreg (clusterOf cid) (base + r) (BitVec.ofNat 8192 (d >>> (8192 * r)))) s
    -- a helper on another core loses the slots it owned at its old core (R353); in another slot of its core it keeps them (log entry 82)
    let s := if coreOf cid = coreOf v.cid then s.moveSlots v.cid cid else
      let s := s.modCore (coreOf v.cid) fun k => { k with slots := k.slots.filter fun p => p.2.owner ≠ v.cid }
      s.modCtx cid fun c => match c.wait, c.wake with
        | some w, none => if w.kind = .mrecv then { c with wake := some ⟨0, 0, s.now, 0, false⟩ } else c
        | _, _ => c
    some (s.dropSaved v.key)

/-- The 64 bytes of a task record as hardware writes it: LO is cur, and TASKID is filled (R314, R332). -/
def TaskEntry.record (t : TaskEntry) : Nat :=
  t.entry.toNat + t.arg0.toNat * 2 ^ 64 + t.arg1.toNat * 2 ^ 128 + t.id.toNat * 2 ^ 192 +
  (t.cur + t.hi * 2 ^ 32) * 2 ^ 256 + (t.grain + t.ctl.toNat * 2 ^ 32) * 2 ^ 320 + t.ws.toNat * 2 ^ 384 + t.succ.toNat * 2 ^ 448

/-- Entries between FQHEAD and FQTAIL, and whether the queue has no room (R332). The indices run freely, and slot i lies at index
i mod FQSIZE (log entry 16). -/
def Die.fqCount (d : Die) : Nat := (d.fqtail - d.fqhead).toNat
def Die.fqFull (d : Die) : Bool := d.fqsize.toNat ≤ d.fqCount
/-- The physical address of fault-queue entry `i`. -/
def Die.fqAddr (d : Die) (i : Nat) : Nat := d.fqbase.toNat + 128 * (i % d.fqsize.toNat)

/-- Write a fault-queue entry, send the parked-task event to KCORE and advance FQTAIL (R332, R358, R370). `flags` holds bits 8 to 11
of word 0x18. The caller has checked for room. The result is the entry's physical address. -/
def State.pushFault (s : State) (d : Nat) (id : Word) (fx mm cause flags num : Nat) (stval sepc : Word) (core : Nat)
    (rec_ : Nat) : State × Nat :=
  let x := s.die d
  let p := s.ownPa d (x.fqAddr x.fqtail.toNat)
  let w18 := cause + flags * 2 ^ 8 + num * 2 ^ 12
  let v := id.toNat + s.reportPa fx * 2 ^ 64 + s.reportPa mm * 2 ^ 128 + w18 * 2 ^ 192 + stval.toNat * 2 ^ 256 + sepc.toNat * 2 ^ 320 +
    s.reportCore core * 2 ^ 384 + rec_ * 2 ^ 512
  let s := s.homeWrite p 128 v ⟨id, pcode 8 d, s.now, 0, false⟩ 0
  let s := s.putEvent (s.kcoreOf d) 3 cause id [sepc, word p] id (pcode 0 (s.reportCore core))
  (s.modDie d fun x => { x with fqtail := x.fqtail + 1 }, p)

/-- A pre-emption that is dropped raises DROPPED (R114, R309). -/
def State.dropRequest (s : State) (d : Nat) : State := s.modDie d fun x => { x with dropped := x.dropped + 1 }

/-- The bits 9 and 10 of word 0x18 for a context. -/
def fqFlags (cid : Nat) (c : Ctx) (held : Bool) : Nat :=
  2 * bnat (ctxNum cid == 0) + 4 * bnat c.hstarted + 8 * bnat held

/-- Park a context whose exception is recorded in `held` (R113, R332): save it, write the entry, tell KCORE. It stays Frozen while the
queue has no room; with an invalid save region the park is dropped and counted, and the context keeps running (R116, log entry 15). -/
def State.parkContext (s : State) (cid : Nat) : State :=
  let c := s.ctx cid
  let d := dieOf cid
  match c.held with
  | none => s
  | some h =>
    if (s.die d).fqFull then s.modCtx cid fun c => { c with status := .frozen, held := some { h with parking := true } }
    else match s.saveContext cid with
      | none => (s.dropRequest d).modCtx cid fun c => { c with status := .running, held := none }
      | some (s, v) =>
        let id := c.qtid
        let (s, p) := s.pushFault d id v.fixedAt v.memAt h.cause (fqFlags cid c c.stop.isSome) (ctxNum cid) h.stval c.sepc (coreOf cid)
          ((c.task.map TaskEntry.record).getD 0)
        s.modSaved v.key fun u => { u with fq := some p, gang := (c.stop.map (·.gang)).getD false }

/-- A context as messages, dumps and debuggers number it (R349, R378, R381): global core × 12 + context. -/
def State.reportCtx (s : State) (cid : Nat) : Nat := s.reportCore (coreOf cid) * 12 + ctxNum cid

/-- Write dump slot DUMPNEXT of a die for a context (R378): the header, then the whole record at 0x1000. None where the region is full. -/
def State.writeDump (s : State) (cid : Nat) (timeout command : Bool) : Option State :=
  let d := dieOf cid
  let x := s.die d
  if x.dumpsize.toNat ≤ x.dumpnext.toNat then none
  else
    let c := s.ctx cid
    let p := s.ownPa d (bits x.dumpbase 55 20 * 2 ^ 20 + x.dumpnext.toNat * 2 ^ 20)
    let hdr := c.qtid.toNat + (s.now % 2 ^ 64) * 2 ^ 64 +
      (c.scause.toNat % 256 + bnat timeout * 2 ^ 8 + bnat command * 2 ^ 9 + s.reportCtx cid * 2 ^ 24) * 2 ^ 128 +
      c.stval.toNat * 2 ^ 192 + c.sepc.toNat * 2 ^ 256
    let w := s.byService cid
    let s := s.homeWriteLines (p + 0x1000) c.fixedPart w 16
    let s := s.homeWriteLines (p + 0x1800) (s.vectorPart cid) w (8 * c.winSize)
    let s := s.homeWrite p 64 hdr w 0
    some (s.modDie d fun x => { x with dumpnext := x.dumpnext + 1 })

end Sys2Proof.Machine
end

