-- ==== Sys2Proof/Machine/Ops.lean ====
section
/-! DEFINITION. The shared operations of every meaning: completion with the loop rule (R111), taking an exception (R112, R113) and
returning from one, leaving the rotation and coming back (R17, R98), and the watchpoint check (R372, R373). -/

namespace Sys2Proof.Machine

/-- Fields of qloop (R110). -/
def Ctx.loopCount (c : Ctx) : Nat := bits c.qloop 31 0
def Ctx.loopLen (c : Ctx) : Nat := bits c.qloop 43 32
def Ctx.loopArmed (c : Ctx) : Bool := bit c.qloop 63
/-- Whether the loop counts in the current mode: armed in U and running in U, or armed in S and running in S. -/
def Ctx.loopHere (c : Ctx) : Bool := c.loopArmed && (match c.priv with
  | .u => !bit c.qloop 62
  | .s => bit c.qloop 62
  | .m => false)
/-- The pc of the loop's last instruction. -/
def Ctx.loopEnd (c : Ctx) : Word := c.loopStart + word (4 * c.loopLen)

/-- Disarm: ARMED and COUNT 0; LEN keeps its value where the rule of R111 disarms at the end of the last pass. -/
def Ctx.loopOff (c : Ctx) : Ctx := { c with qloop := c.qloop &&& 0x7FFFFFFF00000000#64 }

/-- One instruction has retired: instret counts unless mcountinhibit.IR stops it (R103), and a single step ends in a halt (R376). -/
def Ctx.counted (c : Ctx) : Ctx :=
  { c with instret := if c.mcountinhibit.getLsbD 2 then c.instret else c.instret + 1
           haltReq := c.haltReq || c.stepReq, stepReq := false }

/-- The next pc of an instruction at `c.pc` that completes in sequence, with the loop rule (R111). -/
def Ctx.advance (c : Ctx) : Ctx :=
  if c.loopHere && c.pc == c.loopEnd then
    if 1 < c.loopCount then { c with qloop := c.qloop - 1, pc := c.loopStart }
    else { c.loopOff with pc := c.pc + 4 }
  else { c with pc := c.pc + 4 }

/-- An instruction of context `cid` completes in sequence. -/
def State.retireCtx (s : State) (cid : Nat) : State := s.modCtx cid fun c => c.counted.advance
/-- The issuing context's instruction completes in sequence. -/
def State.retire (s : State) : State := s.retireCtx s.cur
/-- The issuing context's instruction completes and redirects pc itself. -/
def State.retireTo (s : State) (pc : Word) : State := s.modCtx s.cur fun c => { c.counted with pc := pc }

/-- The disposition of a cause (R113): 0 handle, 1 park, 2 hold. -/
def Ctx.disposition (c : Ctx) (cause : Nat) : Nat :=
  if cause < 16 then bits c.qfdisp (2 * cause + 1) (2 * cause)
  else if 24 ≤ cause ∧ cause < 32 then bits c.qfdisp (2 * (cause - 24) + 33) (2 * (cause - 24) + 32)
  else if 48 ≤ cause ∧ cause < 51 then bits c.qfdisp (2 * cause - 47) (2 * cause - 48)
  else 0

/-- Entry of the S-mode handler (R113): sepc, scause and stval; SPP and SPIE set from the mode and SIE; SIE cleared; pc = stvec. -/
def Ctx.enterS (c : Ctx) (cause : Nat) (tval : Word) : Ctx :=
  let spp := c.priv.code % 2
  let m := c.mstatus.toNat
  let sie := m / 2 % 2
  let cleared : Word := c.mstatus &&& ~~~(0x122#64)
  { c with
    sepc := c.pc, scause := word cause, stval := tval
    mstatus := cleared ||| word (spp * 256 + sie * 32)
    priv := .s, pc := c.stvec &&& ~~~3#64 }

/-- Entry of the M-mode handler (the privileged specification): mepc, mcause, mtval, MPP, MPIE, MIE; pc = mtvec. -/
def Ctx.enterM (c : Ctx) (cause : Nat) (tval : Word) : Ctx :=
  let mie := c.mstatus.toNat / 8 % 2
  let cleared : Word := c.mstatus &&& ~~~(0x1888#64)
  { c with
    mepc := c.pc, mcause := word cause, mtval := tval
    mstatus := cleared ||| word (c.priv.code * 2 ^ 11 + mie * 2 ^ 7)
    priv := .m, pc := c.mtvec &&& ~~~3#64 }

/-- The context as every trap leaves it: no LR reservation (R102), and an open packet discarded (R114). A single step ends at the
trap's entry (R376). -/
def Ctx.trapped (c : Ctx) : Ctx :=
  { c with reservation := none, packet := none, haltReq := c.haltReq || c.stepReq, stepReq := false, wait := none, wake := none,
           request := none, status := .running }

/-- Record an exception that freezes its context in place: sepc, scause and stval as for handle, the trap not entered. A request to stop ends with
it (R117), but for one that is to end the context (R313, R337). -/
def Ctx.freeze (c : Ctx) (cause : Nat) (tval : Word) (now : Nat) (parking : Bool) : Ctx :=
  { c with sepc := c.pc, scause := word cause, stval := tval, status := .frozen, held := some ⟨cause, tval, now, parking⟩,
           stop := c.stop.filter (·.kill) }

/-- Whether a stop saves a waiting context now (R19, R114): in a blocking wait or FALIGN, with no open packet. A wake that comes then is latched,
and the wait does not end. -/
def Ctx.saveNow (c : Ctx) : Bool :=
  c.status = .waiting && c.stop.isSome && c.packet.isNone && c.request.isNone && (c.wait.map fun w => w.kind) != some .reply

/-- A context's request to stop or halt takes effect at an instruction boundary with no packet open (R114, R118). -/
def Ctx.boundary (c : Ctx) : Bool := c.packet.isNone && c.request.isNone && (c.stop.isSome || c.haltReq)

/-- Whether a trap from a mode goes to M mode (R112): it was raised in M mode, or medeleg does not delegate it. -/
def Ctx.goesToM (c : Ctx) (cause : Nat) : Bool := c.priv = .m || !c.medeleg.getLsbD cause

/-- stval as it is shown: the physical address of a refusal (25) or a timeout (28) as B's programs see it (R76, R381). -/
def State.shownTval (s : State) (cause : Nat) (v : Word) : Word :=
  if s.replay.cmp && (cause == 25 || cause == 28) then word (s.reportPa v.toNat) else v

/-- The debug command that a context was asked to stop by has ended (R375). -/
def State.commandEnds (s : State) (cid : Nat) : State :=
  s.modDie (dieOf cid) fun d => { d with dbgBusy := if d.dbgBusy = some cid then none else d.dbgBusy }

/-- Take an exception in a context (R112, R113, R117). A trap that would enter S mode while stvec holds 0 is taken as park, in either
mode (R128); otherwise an exception of U mode follows qfdisp, and one of S mode is handled. A request to stop that meets a park or a
hold is dropped and counted. -/
def State.raiseCtx (s : State) (cid : Nat) (cause : Nat) (v : Word) : State :=
  let tval := s.shownTval cause v
  let c := (s.ctx cid).trapped
  if c.goesToM cause then s.setCtx cid (c.enterM cause tval)
  else
    let asked := if c.priv = .u then c.disposition cause else 0
    let disp := if asked = 0 ∧ c.stvec = 0 then 1 else asked
    if disp = 0 then s.setCtx cid (c.enterS cause tval)
    else
      let s := if c.stop.any (!·.kill) then s.dropRequest (dieOf cid) else s
      (s.commandEnds cid).setCtx cid (c.freeze cause tval s.now (disp = 1))

/-- Take an exception in the issuing context. -/
def State.raise (s : State) (cause : Nat) (tval : Word) : State := s.raiseCtx s.cur cause tval

/-- SRET: the mode SPP names, SIE from SPIE, SPIE set, SPP cleared, MPRV cleared; the pc is sepc (privileged specification). -/
def Ctx.sret (c : Ctx) : Ctx :=
  let m := c.mstatus.toNat
  let spie := m / 32 % 2
  { c with
    mstatus := (c.mstatus &&& ~~~(0x20122#64)) ||| word (spie * 2 + 32)
    priv := if m / 256 % 2 = 1 then .s else .u }

/-- MRET, likewise from MPP and MPIE to the pc in mepc. -/
def Ctx.mret (c : Ctx) : Ctx :=
  let m := c.mstatus.toNat
  let mpie := m / 128 % 2
  let mode := privOf (m / 2048 % 4)
  let clear : Word := if mode = .m then 0x1888#64 else 0x21888#64
  { c with mstatus := (c.mstatus &&& ~~~clear) ||| word (mpie * 8 + 128), priv := mode }

/-- Halt a context at the boundary that a match stands at, with HITCTX and HIT naming it (R373): a drain halt, which an open packet delays until
its MSEND retires (R114, R118). Until then the matching instruction issues (log entry 69). -/
def State.haltHit (s : State) (cid : Nat) : State :=
  let s := if (s.ctx cid).packet.isSome then s.modCtx cid fun c => { c with haltReq := true }
    else (s.commandEnds cid).modCtx cid fun c =>
      { c with status := .frozen, haltReq := false, stepReq := false, wait := none, wake := none, request := none }
  s.modDie (dieOf cid) fun d => { d with hitctx := BitVec.ofNat 17 (s.reportCtx cid), hit := true }

/-- A context halts where it stands, for a debugger (R118, R376); the command that asked for it ends. -/
def State.haltNow (s : State) (cid : Nat) : State :=
  (s.modCtx cid fun c => { c with status := .frozen, haltReq := false, stepReq := false }).commandEnds cid

/-- How a meaning's result ends the instruction. -/
def State.finish (s : State) (r : Res) : State :=
  match r with
  | .ok t => t.retire
  | .error (.jump t pc) => t.retireTo pc
  | .error (.left t) => t
  | .error .halt => s.haltHit s.cur
  | .error (.exc c v) => s.raise c v

/-- The outcome of a meaning, from the state in which it was issued. -/
def State.done (s : State) (r : Res) : Host.Outcome State Fault Refusal := .next (s.finish r)

/-- Raise an exception. -/
def trap {α : Type} (cause : Nat) (v : Word) : Except Stop α := .error (.exc cause v)

/-- The word of the issuing instruction as stval of cause 2 holds it. -/
def illegal {α : Type} (i : Instr) : Except Stop α := trap 2 (wordOf i)

/-- Require a condition, else raise. -/
def need (b : Bool) (cause : Nat) (v : Word) : Except Stop Unit := if b then .ok () else trap cause v

/-- A zero-wait edge of the issuing context is counted on its die (R17). -/
def State.zeroWaitMe (s : State) : State := s.zeroWait (dieOf s.cur)

/-- What kinds of access a breakpoint register may watch. -/
def watchKind (store : Bool) : Nat := if store then 3 else 2

/-- Whether a register's mode, task and kind match (R372). One that halts matches no more while its halt waits for an open packet. -/
def Breakpoint.live (b : Breakpoint) (c : Ctx) (kind : Nat) : Bool :=
  bits b.ctl 1 0 == kind && !(bit b.ctl 7 && c.haltReq && c.packet.isSome) && (match c.priv with
    | .u => bit b.ctl 5
    | .s => bit b.ctl 6
    | .m => false) &&
  ((bits c.qtid 31 0 ^^^ bits b.ctl 63 32) &&& bits b.mask 31 0) == 0

/-- The lowest watched address of [va, va + n), with the register that watches it (R373). -/
def Ctx.watchHit (c : Ctx) (store : Bool) (va n : Nat) : Option (Nat × Breakpoint) :=
  (c.bp.toList.filterMap fun b =>
    let size := 2 ^ bits b.ctl 4 2
    let base := b.addr.toNat / size * size
    if b.live c (watchKind store) && va < base + size && base < va + n then some (max va base, b) else none).foldl
      (fun o p => match o with
        | none => some p
        | some q => if p.1 < q.1 then some p else o) none

/-- The data breakpoint check of the issuing context, last of the issue checks (R78, R373). -/
def State.watch (s : State) (store : Bool) (va n : Nat) : Except Stop Unit :=
  match s.me.watchHit store va n with
  | none => .ok ()
  | some (a, b) => if bit b.ctl 7 then .error .halt else trap 3 (word a)

/-- The execute breakpoint that matches the pc, if one does. -/
def Ctx.execHit (c : Ctx) : Option Breakpoint := c.bp.toList.find? fun b => b.live c 1 && b.addr == c.pc

/-- Checks of a scalar access to `n` bytes after its address checks: a selvedge refusal (cause 25, R190), then a data breakpoint. -/
def State.permit (s : State) (x : Xlat) (k : AccKind) (store : Bool) (n : Nat) : Except Stop Unit := do
  need (s.selvedgeOk (clusterOf s.cur) k x.pa n) 25 (word x.pa)
  s.watch store x.va n

/-- A matrix command that does not arrive now: the queue has no free place (R264), or it is an MXSYNC that has arrived and is answered at its
completion (R274). -/
def mxStays (m : Mx) (q : MxCmd) : Bool := decide (Config.mxQueueSize ≤ m.queue.length) || q.started

end Sys2Proof.Machine
end

