-- ==== Sys2Proof/Machine/Flags.lean ====
section
/-! DEFINITION. Flags and the floating-point state: fflags and FS of the scalar F and D instructions (R75, R80, R87), and the sticky
flags of qvstat (R88). -/

namespace Sys2Proof.Machine

/-- The context with scalar flags ORed into fflags; FS becomes Dirty where any is raised. -/
def Ctx.orFflags (c : Ctx) (f : Flags) : Ctx :=
  if f = 0 then c else { c with fflags := c.fflags ||| f.setWidth 5, mstatus := c.mstatus ||| 0x6000#64 }

/-- The context with an f register written; FS becomes Dirty. -/
def Ctx.putF (c : Ctx) (r : Reg) (v : Word) : Ctx := { c.setF r v with mstatus := c.mstatus ||| 0x6000#64 }

/-- A single-precision value as an f register holds it: NaN-boxed. -/
def box32 (v : Nat) : Word := word (0xFFFFFFFF00000000 + v % 2 ^ 32)
/-- The single-precision operand of an f register: the canonical NaN unless it is NaN-boxed. -/
def unbox32 (v : Word) : Nat := if v.toNat >>> 32 = 0xFFFFFFFF then v.toNat % 2 ^ 32 else Fmt.f32.nan

/-- The rounding mode of an instruction's rm field under frm (R87): none where it is invalid. -/
def rmMode (field frm : BitVec 3) : Option RM :=
  let m := if field = 7 then frm else field
  if m.toNat < 5 then some (rmOf m.toNat) else none

/-- The context with vector flags ORed into qvstat (R88). -/
def Ctx.orQvstat (c : Ctx) (f : Flags) : Ctx := { c with qvstat := c.qvstat ||| f.setWidth 64 }

end Sys2Proof.Machine
end

