-- ==== Sys2Proof/Machine/Operands.lean ====
section
/-! DEFINITION. Operand forms: sign-extended immediates and effective addresses of the scalar instructions, and the elements of vector
registers (R134, R141 to R144). -/

namespace Sys2Proof.Machine

/-- A 12-bit immediate, sign-extended. -/
def imm12 (i : BitVec 12) : Word := i.signExtend 64
/-- A 20-bit upper immediate: placed at bit 12 and sign-extended from 32 bits. -/
def immU (i : BitVec 20) : Word := (BitVec.ofNat 32 (i.toNat * 4096)).signExtend 64
/-- A 32-bit result, sign-extended. -/
def sext32 (v : BitVec 32) : Word := v.signExtend 64
/-- The low 32 bits of a word. -/
def low32 (v : Word) : BitVec 32 := v.setWidth 32

/-- `n` bytes of a value read, sign- or zero-extended to 64 bits. -/
def extendLoad (n v : Nat) (signed : Bool) : Word :=
  if signed then BitVec.ofInt 64 (signedOf (8 * n) (v % 2 ^ (8 * n))) else word (v % 2 ^ (8 * n))

/-- Element widths by element-type code (R54): I8 I16 I32 I64, FP16 BF16 FP32 FP64, E4M3 E5M2 LNS6. -/
def etypeWidth (e : Nat) : Nat := match e with
  | 0 => 8 | 1 => 16 | 2 => 32 | 3 => 64 | 8 => 16 | 9 => 16 | 10 => 32 | 11 => 64 | _ => 8

/-- The window fault of R143, over the v fields an instruction uses, in the order of R143. -/
def Ctx.windowFault (c : Ctx) (fs : List Reg) : Option Nat :=
  if c.winSize = 0 then some 0
  else (fs.find? fun f => decide (c.winSize ≤ c.rot + f.toNat)).map fun f => c.rot + f.toNat

/-- Whether the issuing context's vector queue is full (R135): entries that have left it by now (R137) take no place. -/
def State.vecFull (s : State) : Bool := decide (Config.vectorQueueSize ≤ (s.liveQueue (coreOf s.cur)).length)

/-- Whether the issuing context retires an instruction that had left the rotation (R98). -/
def Ctx.returning (c : Ctx) : Bool := match c.request with
  | some (.access _ _ _) => true
  | _ => false

/-- With a full queue a vector instruction does not issue: it is presented again at the context's next slot (R135). One that returns with the
engine's answer has had its place. -/
def State.checkRoom (s : State) : Except Stop Unit := if s.vecFull && !s.me.returning then .error (.left s) else .ok ()

/-- The window check of a vector instruction of the issuing context (R143), and its place in the queue. -/
def State.checkWindow (s : State) (fs : List Reg) : Except Stop Unit :=
  match s.me.windowFault fs with
  | some n => trap 30 (word n)
  | none => s.checkRoom

/-- The v register a field names (R142), read and written by the issuing context. -/
def State.vr (s : State) (f : Reg) : VReg := s.vregAt (clusterOf s.cur) (s.me.winBase + s.me.rot + f.toNat)
def State.setVr (s : State) (f : Reg) (v : VReg) : State :=
  s.setVreg (clusterOf s.cur) (s.me.winBase + s.me.rot + f.toNat) v

/-- Element `i` of width `w` (R134). -/
def velem (v : VReg) (w i : Nat) : Nat := (v.toNat >>> (w * i)) % 2 ^ w
/-- The first `n` elements of width `w`. -/
def velems (v : VReg) (w n : Nat) : List Nat := (List.range n).map (velem v w)

/-- A number of `n` elements of width `w`, lowest first. -/
def packElems (w : Nat) (xs : List Nat) : Nat := xs.foldr (fun x a => x % 2 ^ w + a * 2 ^ w) 0

/-- Elements 0 to n − 1 of `old` replaced by those of `xs` that are given; the others keep their values (R147). -/
def vmerge (old : VReg) (w : Nat) (xs : List (Option Nat)) : VReg :=
  let lo := packElems w (xs.mapIdx fun i x => x.getD (velem old w i))
  let n := w * xs.length
  BitVec.ofNat 8192 (old.toNat >>> n <<< n + lo)

/-- Mask `m` of a context: m0 reads as all ones (R144). -/
def Ctx.mask (c : Ctx) (m : BitVec 3) : BitVec 1024 :=
  if m = 0 then BitVec.allOnes 1024 else c.masks.toList.getD (m.toNat - 1) 0
/-- A mask written; a write of m0 is discarded (R144, R69). -/
def Ctx.setMask (c : Ctx) (m : BitVec 3) (v : BitVec 1024) : Ctx :=
  if m = 0 then c else { c with masks := c.masks.mapIdx fun i x => if i = m.toNat - 1 then v else x }

/-- ETYPE, VL and VILL of qvtype (R140). -/
def Ctx.etype (c : Ctx) : Nat := bits c.qvtype 4 0
def Ctx.vl (c : Ctx) : Nat := bits c.qvtype 26 16
def Ctx.vill (c : Ctx) : Bool := bit c.qvtype 63

end Sys2Proof.Machine
end

