-- ==== Sys2Proof/Machine/Csr.lean ====
section
/-! DEFINITION. The control and status registers: the map of R73 and R75, the fields and write limits of each (R3, R4, R74), and the
CSR_ACCESS instruction. -/

namespace Sys2Proof.Machine

/-- A number clamped between two limits. -/
def clampNat (lo hi v : Nat) : Nat := if v < lo then lo else if hi < v then hi else v

/-- qwhere (R8); in compare mode a unit of partition B reports its twin (R381). -/
def State.qwhere (s : State) (cid : Nat) : Word :=
  let k := s.reportCore (coreOf cid)
  word (ctxNum cid + (k % 4) * 2 ^ 4 + (k / 4 % 128) * 2 ^ 6 + (k / 512) * 2 ^ 13 + (k / 2048) * 2 ^ 17 + k * 2 ^ 19 +
    s.host.moduleId.toNat * 2 ^ 32)

/-- Arithmetic cycles of a core (R103): its die's clock scales the 3.0 GHz count; none pass while the die's clock is stopped. -/
def State.cycle (s : State) (die : Nat) : Word :=
  let d := s.die die
  word (d.cycBase + (if d.stopped then 0 else (s.arith - d.cycAt) * d.mhz / 3000))

/-- qresq (R243). -/
def State.qresq (s : State) (cid : Nat) : Word :=
  let k := s.core (coreOf cid)
  let own := k.hem.filter fun e => e.cid == cid
  word (k.hem.length + own.length * 2 ^ 5 + (own.foldl (fun m e => max m e.age) 0) * 2 ^ 10 + k.refused.toNat * 2 ^ 32)

/-- qevq (R359). -/
def State.qevq (s : State) (cid : Nat) : Word :=
  let k := s.core (coreOf cid)
  word (k.evUnits + k.evLost.toNat * 2 ^ 16)

/-- pmpcfg0 and pmpcfg2 pack eight entries each. -/
def Ctx.pmpcfgWord (c : Ctx) (base : Nat) : Word :=
  word ((List.range 8).foldr (fun i a => (c.pmpcfg.toList.getD (base + i) 0).toNat + a * 256) 0)
/-- A write of eight pmpcfg entries: a locked entry keeps its value, and W without R is stored as neither (log entry 13). -/
def Ctx.setPmpcfg (c : Ctx) (base : Nat) (v : Word) : Ctx :=
  { c with pmpcfg := c.pmpcfg.mapIdx fun i old =>
      if base ≤ i ∧ i < base + 8 ∧ !bit old 7 then
        let b : Byte := BitVec.ofNat 8 (bits v (8 * (i - base) + 7) (8 * (i - base))) &&& 0x9F
        if bit b 1 && !bit b 0 then b &&& 0xFD else b
      else old }
/-- A write of a pmpaddr register: ignored while its entry is locked, or the next one is locked and TOR. -/
def Ctx.setPmpaddr (c : Ctx) (i : Nat) (v : Word) : Ctx :=
  let f (j : Nat) : Byte := c.pmpcfg.toList.getD j 0
  if bit (f i) 7 || (bit (f (i + 1)) 7 && bits (f (i + 1)) 4 3 == 1) then c
  else { c with pmpaddr := c.pmpaddr.mapIdx fun j old => if j = i then v &&& 0x003FFFFFFFFFFFFF else old }

/-- The writable bits of mstatus: SIE MIE SPIE MPIE SPP MPP FS MPRV SUM MXR TVM TW TSR. -/
def mstatusMask : Word := 0x00000000007E79AA#64
/-- A write of mstatus; MPP does not take the reserved code 2. -/
def Ctx.setMstatus (c : Ctx) (v : Word) : Ctx :=
  let m : Word := if bits v 12 11 = 2 then mstatusMask &&& ~~~0x1800#64 else mstatusMask
  { c with mstatus := (c.mstatus &&& ~~~m) ||| (v &&& m) }
/-- mstatus as read: SD while FS is Dirty. -/
def Ctx.mstatusRead (c : Ctx) : Word := c.mstatus ||| (if bits c.mstatus 14 13 = 3 then 0x8000000000000000#64 else 0)

/-- The writable bits of menvcfg: PBMTE and FIOM, of the extensions that the Q6 implements. -/
def menvcfgMask : Word := 0x4000000000000001#64

/-- A CSR's value as an instruction of context `cid` reads it; none where the address holds no CSR (R73, R75). -/
def State.csrRead (s : State) (cid a : Nat) : Option Word :=
  let c := s.ctx cid
  let k := s.core (coreOf cid)
  if a = 0x001 then some (c.fflags.setWidth 64)
  else if a = 0x002 then some (c.frm.setWidth 64)
  else if a = 0x003 then some c.fcsr
  else if a = 0xC00 || a = 0xB00 then some (s.cycle (dieOf cid))
  else if a = 0xC01 || a = 0xCC2 then some s.time
  else if a = 0xC02 || a = 0xB02 then some c.instret
  else if (0xC03 ≤ a ∧ a ≤ 0xC1F) ∨ (0xB03 ≤ a ∧ a ≤ 0xB1F) ∨ (0x323 ≤ a ∧ a ≤ 0x33F) then some 0
  else if a = 0x100 then some c.sstatus
  else if a = 0x104 || a = 0x144 || a = 0x10A then some 0
  else if a = 0x105 then some c.stvec
  else if a = 0x106 then some (c.scounteren.setWidth 64)
  else if a = 0x140 then some c.sscratch
  else if a = 0x141 then some c.sepc
  else if a = 0x142 then some c.scause
  else if a = 0x143 then some c.stval
  else if a = 0x180 then some c.satp
  else if a = 0xF11 || a = 0xF12 then some 0
  else if a = 0xF13 then some 6
  else if a = 0xF14 then some (word (s.reportCtx cid))
  else if a = 0xF15 || a = 0x304 || a = 0x344 then some 0
  else if a = 0x301 then some 0x8000000000941129#64
  else if a = 0x300 then some c.mstatusRead
  else if a = 0x302 then some c.medeleg
  else if a = 0x303 then some c.mideleg
  else if a = 0x305 then some c.mtvec
  else if a = 0x306 then some (c.mcounteren.setWidth 64)
  else if a = 0x30A then some c.menvcfg
  else if a = 0x320 then some (c.mcountinhibit.setWidth 64)
  else if a = 0x340 then some c.mscratch
  else if a = 0x341 then some c.mepc
  else if a = 0x342 then some c.mcause
  else if a = 0x343 then some c.mtval
  else if a = 0x3A0 then some (c.pmpcfgWord 0)
  else if a = 0x3A2 then some (c.pmpcfgWord 8)
  else if 0x3A4 ≤ a ∧ a ≤ 0x3AE ∧ a % 2 = 0 then some 0
  else if 0x3B0 ≤ a ∧ a < 0x3C0 then some (c.pmpaddr.toList.getD (a - 0x3B0) 0)
  else if 0x3C0 ≤ a ∧ a < 0x3F0 then some 0
  else if a = 0xCC0 then some c.qtid
  else if a = 0xCC1 then some (s.qwhere cid)
  else if a = 0xCC3 then some (s.qresq cid)
  else if a = 0xCC4 then some (s.qevq cid)
  else if a = 0xCC5 then some c.qtstg
  else if a = 0x800 then some c.qvtype
  else if a = 0x801 then some c.qvwin
  else if a = 0x802 then some c.qvrot
  else if a = 0x803 then some c.qmxcap
  else if a = 0x804 then some c.qtensid
  else if a = 0x805 then some c.qvstat
  else if a = 0x806 then some c.qloop
  else if a = 0x807 then some c.qprio
  else if a = 0x5C0 then some c.qfdisp
  else if a = 0x5C1 then some k.qdeqbase
  else if a = 0x5C2 then some k.qdeqsize
  else if a = 0x5C3 then some k.qcsave
  else if 0x5C8 ≤ a ∧ a < 0x5CC then some (k.qswin.toList.getD (a - 0x5C8) 0)
  else if a = 0x7C0 then some (s.cluster (clusterOf cid)).qmvwt
  else if a = 0x7C1 then some s.qmstage
  else if a = 0x7C2 then some s.qmquota
  else if a = 0x7C3 then some s.qmtmo
  else if a = 0x7C4 then some s.qmaging
  else if a = 0x7C5 then some s.qmresid
  else none

/-- A write of qvtype (R140): a code of R54 and a VL within its VLMAX are stored; anything else sets VILL. -/
def State.writeQvtype (s : State) (cid : Nat) (v : Word) : State :=
  let e := bits v 4 0
  let vl := bits v 26 16
  s.modCtx cid fun c =>
    { c with qvtype := if etypeCode (BitVec.ofNat 5 e) && decide (vl ≤ 8192 / etypeWidth e) then word (e + vl * 2 ^ 16) else qvtypeReset }

/-- A write of qvwin.SIZE (R141). A released window leaves BASE at its reset value: the spec does not say what it then reads (DESIGN CHOICE, log entry 74). -/
def State.writeQvwin (s : State) (cid : Nat) (v : Word) : State :=
  let n := bits v 25 16
  if n = 0 then s.modCtx cid fun c => { c with qvwin := 0 }
  else if n % 32 = 0 ∧ 32 ≤ n ∧ n ≤ 512 then
    match s.findBlock (clusterOf cid) n with
    | some b => s.openWindow cid b n
    | none => s.modCtx cid fun c => { c with qvwin := c.qvwin ||| 0x8000000000000000#64 }
  else s.modCtx cid fun c => { c with qvwin := c.qvwin ||| 0x8000000000000000#64 }

/-- A write of qvstat: it follows the flags of every earlier vector instruction (R88, R89). -/
def State.writeQvstat (s : State) (cid : Nat) (v : Word) : State :=
  s.modCtx cid fun c => { c with qvstat := v &&& 0x7F }

/-- A write of qmquota (R237): the value reaches each slice at its own moment. -/
def State.writeQmquota (s : State) (v : Word) : State :=
  let q := max 1 (bits v 7 0)
  let w := max 16 (bits v 23 8)
  let d := max 1 (bits v 27 24)
  { s with
    qmquota := word (q + w * 2 ^ 8 + d * 2 ^ 24)
    slices := (List.range Config.sliceCount).map fun i =>
      (i, { s.slice i with unreached := (s.slice i).unreached ++ [(s.now, word (q + w * 2 ^ 8 + d * 2 ^ 24))] }) }

/-- A write of qmvwt (R139): a weight of 0 stores 1. -/
def writeQmvwt (v : Word) : Word :=
  word ((List.range 4).foldl (fun a i => a + max 1 (bits v (8 * i + 7) (8 * i)) * 2 ^ (8 * i)) 0)
/-- A write of qmstage (R328). -/
def writeQmstage (v : Word) : Word :=
  word (min 8 (bits v 3 0) + min 8 (bits v 7 4) * 2 ^ 4 + min 128 (bits v 15 8) * 2 ^ 8 + min 8 (bits v 19 16) * 2 ^ 16 +
    max 100 (bits v 51 20) * 2 ^ 20)
/-- A write of qdeqsize (R317): the next lower multiple of 8; ignored while the ring holds entries. -/
def writeQdeqsize (old v : Word) : Word :=
  if bits old 39 20 ≠ 0 then old
  else word (min (bits v 19 0 / 8 * 8) (2 ^ 19 - 8) + bits old 59 40 * 2 ^ 40)

/-- The state after an instruction or event writes a CSR of context `cid` (R3, R4, R74, R75). Read-only registers, and addresses that
hold none, are unchanged. -/
def State.csrWrite (s : State) (cid a : Nat) (v : Word) : State :=
  let m := s.modCtx cid
  let k := s.modCore (coreOf cid)
  let dirty (c : Ctx) : Ctx := { c with mstatus := c.mstatus ||| 0x6000#64 }
  if a = 0x001 then m fun c => dirty { c with fflags := BitVec.ofNat 5 v.toNat }
  else if a = 0x002 then m fun c => dirty { c with frm := BitVec.ofNat 3 v.toNat }
  else if a = 0x003 then m fun c => dirty (c.setFcsr v)
  else if a = 0x100 then m fun c => c.setSstatus v
  else if a = 0x105 then m fun c => { c with stvec := v &&& ~~~2#64 }
  else if a = 0x106 then m fun c => { c with scounteren := v.setWidth 32 }
  else if a = 0x140 then m fun c => { c with sscratch := v }
  else if a = 0x141 then m fun c => { c with sepc := v &&& ~~~3#64 }
  else if a = 0x142 then m fun c => { c with scause := v }
  else if a = 0x143 then m fun c => { c with stval := v }
  else if a = 0x180 then m fun c => if bits v 63 60 = 0 ∨ bits v 63 60 = 9 then { c with satp := v } else c
  else if a = 0x300 then m fun c => c.setMstatus v
  else if a = 0x302 then m fun c => { c with medeleg := v &&& ~~~0x800#64 }
  else if a = 0x303 then m fun c => { c with mideleg := v }
  else if a = 0x305 then m fun c => { c with mtvec := v &&& ~~~2#64 }
  else if a = 0x306 then m fun c => { c with mcounteren := v.setWidth 32 }
  else if a = 0x30A then m fun c => { c with menvcfg := v &&& menvcfgMask }
  else if a = 0x320 then m fun c => { c with mcountinhibit := v.setWidth 32 &&& 4#32 }
  else if a = 0xB02 then m fun c => { c with instret := v }
  else if a = 0x340 then m fun c => { c with mscratch := v }
  else if a = 0x341 then m fun c => { c with mepc := v &&& ~~~3#64 }
  else if a = 0x342 then m fun c => { c with mcause := v }
  else if a = 0x343 then m fun c => { c with mtval := v }
  else if a = 0x3A0 then m fun c => c.setPmpcfg 0 v
  else if a = 0x3A2 then m fun c => c.setPmpcfg 8 v
  else if 0x3B0 ≤ a ∧ a < 0x3C0 then m fun c => c.setPmpaddr (a - 0x3B0) v
  else if a = 0x800 then s.writeQvtype cid v
  else if a = 0x801 then s.writeQvwin cid v
  else if a = 0x802 then m fun c => { c with qvrot := v &&& 0x1F8 }
  else if a = 0x803 then m fun c => { c with qmxcap := v }
  else if a = 0x804 then m fun c => { c with qtensid := v &&& 0xFFF }
  else if a = 0x805 then s.writeQvstat cid v
  else if a = 0x806 then m fun c => { c with qloop := (c.qloop &&& ~~~0xFFFFFFFF#64) ||| (v &&& 0xFFFFFFFF#64) }
  else if a = 0x807 then m fun c => { c with qprio := (c.qprio &&& ~~~7#64) ||| word (min (bits v 2 0) c.prioMax.toNat) }
  else if a = 0x5C0 then m fun c => { c with qfdisp := writeQfdisp c.qfdisp v }
  else if a = 0x5C1 then k fun c => { c with qdeqbase := v &&& ~~~0xFFF#64 }
  else if a = 0x5C2 then k fun c => { c with qdeqsize := writeQdeqsize c.qdeqsize v }
  else if a = 0x5C3 then k fun c => { c with qcsave := v &&& 0x00FFFFFFFFF00FFF#64 }
  else if 0x5C8 ≤ a ∧ a < 0x5CC then
    k fun c => { c with qswin := c.qswin.mapIdx fun i w => if i = a - 0x5C8 then v &&& 0xFFFFFFFFF#64 else w }
  else if a = 0x7C0 then s.modCluster (clusterOf cid) fun g => { g with qmvwt := writeQmvwt v }
  else if a = 0x7C1 then { s with qmstage := writeQmstage v }
  else if a = 0x7C2 then s.writeQmquota v
  else if a = 0x7C3 then { s with qmtmo := word (clampNat 1000 1000000000 (bits v 39 0)) }
  else if a = 0x7C4 then { s with qmaging := word (max 1000 (bits v 31 0)) }
  else if a = 0x7C5 then { s with qmresid := word (max 1000 (bits v 31 0)) }
  else s

/-- Whether a context may read a counter CSR: M always, S as mcounteren says, U as scounteren says too (R75, R103). -/
def Ctx.counterOk (c : Ctx) (a : Nat) : Bool :=
  if 0xC00 ≤ a ∧ a ≤ 0xC1F then
    let i := a - 0xC00
    c.priv = .m || (c.mcounteren.getLsbD i && (c.priv = .s || c.scounteren.getLsbD i))
  else true

/-- Whether a CSR access is legal (R72, R74): the address holds a CSR, the mode reaches it, a write is not to a read-only one, the
floating-point state is on for its CSRs, and TVM lets S mode reach satp. -/
def State.csrLegal (s : State) (cid a : Nat) (writes : Bool) : Bool :=
  let c := s.ctx cid
  (s.csrRead cid a).isSome && a >>> 8 % 4 ≤ c.priv.code && !(writes && a >>> 10 = 3) && c.counterOk a &&
  !((a = 1 || a = 2 || a = 3) && c.fsOff) && !(a = 0x180 && c.priv = .s && bit c.mstatus 20)

/-- An access to qvstat waits until the vector engine has completed what precedes it (R89, R98). -/
def State.settleQvstat (s : State) (cid a : Nat) : State := if a = 0x805 then s.drainVector cid drainFuel else s

/-- The value a CSR instruction writes. -/
def csrNew (op : CsrOp) (old v : Word) : Word := match op with
  | .rw => v
  | .rs => old ||| v
  | .rc => old &&& ~~~v

/-- CSR_ACCESS (R74). CSRRS and CSRRC with a source field of 0 do not write. -/
def execCsrAccess (op : CsrOp) (isImm : Bool) (rd src : Reg) (csr : BitVec 12) (s : State) :
    Host.Outcome State Fault Refusal :=
  let a := csr.toNat
  let writes := op == .rw || src != 0
  s.done (
    if !s.csrLegal s.cur a writes then illegal (.csrAccess op isImm rd src csr)
    else
      let s := s.settleQvstat s.cur a
      let old := (s.csrRead s.cur a).getD 0
      let v := if isImm then src.setWidth 64 else s.xr src
      -- a write of minstret takes the place of this instruction's own count
      let v := csrNew op old v
      let v := if a = 0xB02 && !s.me.mcountinhibit.getLsbD 2 then v - 1 else v
      let s := if writes then s.csrWrite s.cur a v else s
      .ok (s.setXr rd old))

end Sys2Proof.Machine
end

