-- ==== Sys2Proof/Machine/Tasks.lean ====
section
/-! DEFINITION. The dispatchers' tasks: positions and distances (R403), task records and identities (R314, R315), placement by
affinity (R325), bobbins and rings (R316, R317), starting threads (R127, R128), and dependence counters (R320). -/

namespace Sys2Proof.Machine

/-- Router positions in the module's grid (R403). -/
def gridOf (panel x y : Nat) : Nat × Nat := (8 * (panel % 2) + x, 10 * (panel / 2) + y)
def sliceRouter (i : Nat) : Nat × Nat := gridOf (i / 16) (i % 8) (if i % 16 < 8 then 4 else 5)
def dispRouter (d : Nat) : Nat × Nat := gridOf (d / 4) (2 * (d % 4) + 1) 4
def clusterRouter (g : Nat) : Nat × Nat :=
  let c := g % 128
  let base := match (g / 128) % 4 with
    | 0 => 0 | 1 => 2 | 2 => 6 | _ => 8
  gridOf (g / 512) (c / 8 % 8) (base + c / 64)

/-- UCIe crossings and mesh hops between two positions, first along x, then along y. -/
def routeOf (a b : Nat × Nat) : Nat × Nat :=
  let dx := max a.1 b.1 - min a.1 b.1
  let dy := max a.2 b.2 - min a.2 b.2
  let k := bnat (a.1 / 8 != b.1 / 8) + bnat (a.2 / 10 != b.2 / 10)
  (k, dx + dy - k)

/-- The placement of a launch record: first core and count (R305). -/
def Launch.first (l : Launch) : Nat := bits (l.record.getD 3 0) 13 0
def Launch.count (l : Launch) : Nat := bits (l.record.getD 3 0) 29 16
def Launch.cores (l : Launch) : List Nat := (List.range l.count).map (l.first + ·)
def Launch.hasCore (l : Launch) (k : Nat) : Bool := l.first ≤ k && k < l.first + l.count
def Launch.taskMode (l : Launch) : Bool := bit (l.record.getD 1 0) 0
def Launch.isGang (l : Launch) : Bool := bit (l.record.getD 1 0) 1
def Launch.prio (l : Launch) : Nat := bits (l.record.getD 1 0) 4 2
def Launch.affinity (l : Launch) : Nat := bits (l.record.getD 1 0) 23 8
/-- Bits [63:32] of the launch's task IDs, in place. -/
def State.launchId (s : State) (l : Launch) : Nat := l.lseq * 2 ^ 32 + s.host.moduleId.toNat * 2 ^ 52

/-- The limits of a task record (R314). -/
def recordValid (v : Nat) : Bool :=
  let w (i : Nat) : Nat := v >>> (64 * i) % 2 ^ 64
  let lo := w 4 % 2 ^ 32
  let hi := w 4 >>> 32
  let ctl := w 5 >>> 32
  let nsucc := ctl >>> 5 % 8
  w 0 % 4 == 0 && decide (lo ≤ hi) && w 5 % 2 ^ 32 != 0 && (!ctl.testBit 3 || decide (lo < hi)) && !ctl.testBit 4 &&
  decide (nsucc ≤ 4) && ctl >>> 24 == 0 && w 6 % 16 == 0 && (if nsucc = 0 then w 7 == 0 else w 7 % 16 == 0)

/-- A task entry from a record's 64 bytes, not yet given its identity. -/
def entryOf (v : Nat) (va : Word) (satp : Word) (launch : Nat) : TaskEntry :=
  let w (i : Nat) : Nat := v >>> (64 * i) % 2 ^ 64
  { id := 0, recVa := va, entry := word (w 0), arg0 := word (w 1), arg1 := word (w 2), cur := w 4 % 2 ^ 32, hi := w 4 >>> 32,
    grain := w 5 % 2 ^ 32, ctl := BitVec.ofNat 32 (w 5 >>> 32), ws := word (w 6), succ := word (w 7), satp := satp,
    launch := launch, running := none, stack := none, tReady := 0, prodTask := 0, prodCode := 0, prodAt := 0, rtype := 11,
    dispatched := 0, saved := none, stg := 0, stolen := false }

def TaskEntry.prio (t : TaskEntry) : Nat := bits t.ctl 2 0
def TaskEntry.range (t : TaskEntry) : Bool := bit t.ctl 3
def TaskEntry.nsucc (t : TaskEntry) : Nat := bits t.ctl 7 5
def TaskEntry.affinity (t : TaskEntry) : Nat := bits t.ctl 23 8

/-- The dies of a mask that are live and hold a placement core of a launch (R325); a mask of partition B names the twins (R381). -/
def State.allowedDies (s : State) (l : Launch) (mask : Nat) : List Nat :=
  (List.range Config.dieCount).filter fun d => mask.testBit (s.reportDie d) && s.dieLive d && (l.cores.any fun k => dieOfCore k == d)

/-- The nearest allowed die to a die: fewest crossings, then fewest hops, then the lowest number (R325). -/
def nearest (d0 : Nat) (ds : List Nat) : Option Nat :=
  ds.foldl (fun b d => match b with
    | none => some d
    | some e =>
      let r := routeOf (dispRouter d0) (dispRouter d)
      let q := routeOf (dispRouter d0) (dispRouter e)
      if r.1 < q.1 ∨ (r.1 = q.1 ∧ r.2 < q.2) then some d else b) none

/-- The die on which a task is placed (R325): none where its set of allowed dies is empty. -/
def State.placeDie (s : State) (l : Launch) (t : TaskEntry) (placing : Nat) : Option Nat :=
  let ds := s.allowedDies l t.affinity
  match s.xlate (dispView placing t.satp) needR t.arg0.toNat with
  | .ok (_, x) =>
    if isHbm x.pa then
      let d := x.hdie.toNat
      if ds.contains d then some d else nearest d ds
    else nearest placing ds
  | .error _ => nearest placing ds

/-- A new task sequence of a launch from a die (R315): from 1, wrapping in 27 bits. The members of a gang are one launch (R326). -/
def State.newId (s : State) (key die : Nat) : State × Word :=
  match s.launchAt key with
  | none => (s, 0)
  | some l =>
    let n := (tfind l.tseq die).getD 1
    let next := if n + 1 = 2 ^ 27 then 1 else n + 1
    ((key :: l.gang).foldl (fun s k => s.modLaunch k fun m => { m with tseq := tput m.tseq die next }) s, word (s.launchId l + s.reportDie die * 2 ^ 27 + n))

/-- A dispatcher's read of `n` bytes in one line at a virtual address (R404): translated under `satp`, as an agent of its die. -/
def State.dispRead (s : State) (die : Nat) (satp : Word) (va n : Nat) : Option (State × Nat) :=
  match s.accessV (dispView die satp) .load needR .read va n with
  | .error _ => none
  | .ok (s, x) =>
    if x.mt = .io || !(s.selvedgeOk (2048 + die) .read x.pa n) || s.silent x.pa then none
    else some (s.homeReadX x 0 n)

/-- A dispatcher's write, likewise. -/
def State.dispWrite (s : State) (die : Nat) (satp : Word) (va n v : Nat) : Option State :=
  match s.accessV (dispView die satp) .store needW .write va n with
  | .error _ => none
  | .ok (s, x) =>
    if x.mt = .io || !(s.selvedgeOk (2048 + die) .write x.pa n) || s.silent x.pa then none
    else some (s.homeWriteX x 0 n v ⟨0, pcode 8 die, s.now, 0, false⟩ 0)

/-- Lines of consecutive dispatcher reads. -/
def State.dispReadLines (s : State) (die : Nat) (satp : Word) (va n : Nat) : Option (State × Nat) :=
  match n with
  | 0 => some (s, 0)
  | k + 1 => do
    let (s, v) ← s.dispRead die satp va 64
    let (s, r) ← s.dispReadLines die satp (va + 64) k
    some (s, v + r * 2 ^ 512)

/-- No slot of a core under a hold takes new work (R377). -/
def State.coreAvailable (s : State) (k : Nat) : Bool :=
  (List.range 11).all fun j => match (s.ctx (k * 12 + j)).held with
    | some h => h.parking || (s.ctx (k * 12 + j)).claimed
    | none => true

/-- The state a new thread starts in on a slot: the M-mode registers stay the slot's own. f0 to f31 start at zero, which R106 says of a helper
and no rule says of the other threads (DESIGN CHOICE, log entry 1). -/
def Ctx.newThread (c : Ctx) : Ctx :=
  { Ctx.reset with
    mtvec := c.mtvec, medeleg := c.medeleg, mideleg := c.mideleg, mscratch := c.mscratch, mepc := c.mepc, mcause := c.mcause,
    mtval := c.mtval, mcounteren := c.mcounteren, menvcfg := c.menvcfg, mcountinhibit := c.mcountinhibit, pmpcfg := c.pmpcfg,
    pmpaddr := c.pmpaddr, status := .running
    mstatus := (c.mstatus &&& ~~~0xC6122#64) ||| 0x2000#64 }

/-- FDISP of a launch record as an initial qfdisp (R128). -/
def launchFdisp (v : Word) : Word := if bit v 63 then writeQfdisp qfdispReset v else qfdispReset

/-- The breakpoint registers a context of a launch starts with on a die (R374). -/
def State.launchBps (s : State) (die lseq : Nat) : Vector Breakpoint 4 :=
  let d := s.die die
  if bit d.lbpsel 20 && bits d.lbpsel 19 0 == lseq then d.lbp else Ctx.reset.bp

/-- A thread of a launch on a slot, with the CSR state of R128; its registers and pc are the caller's. STVEC and SATP are taken as the record and the queue
hold them, a reserved MODE too, which R305 and R308 do not exclude (DESIGN CHOICE, log entry 97). -/
def State.launchThread (s : State) (cid key : Nat) (l : Launch) (id : Word) (prio : Nat) : Ctx :=
  let csri := l.record.getD 31 0
  let c := (s.ctx cid).newThread
  { c with
    satp := l.satp, stvec := l.record.getD 29 0, qfdisp := launchFdisp (l.record.getD 30 0)
    frm := BitVec.ofNat 3 (bits csri 2 0), qtensid := word (bits csri 14 3)
    mstatus := c.mstatus ||| word (bits csri 15 15 * 2 ^ 18)
    scounteren := 7, qprio := word prio, prioMax := BitVec.ofNat 3 prio, qtid := id, launch := key
    bp := s.launchBps (dieOf cid) l.lseq }

/-- Registers of a start (R127): a0, a1, a2, sp, gp, tp, ra. -/
def Ctx.startRegs (c : Ctx) (a0 a1 a2 sp gp tp : Word) : Ctx :=
  (((((((c.setX 10 a0).setX 11 a1).setX 12 a2).setX 2 sp).setX 3 gp).setX 4 tp).setX 1 Config.exitStub)

/-- COUNT of qdeqsize replaced (R317). -/
def setRingCount (v : Word) (n : Nat) : Word := (v &&& ~~~0xFFFFF00000#64) ||| word (n * 2 ^ 20)

/-- A ring entry with what its record in memory says (R314): TASKID is ignored, and what the record has no field for stays. -/
def TaskEntry.reread (t : TaskEntry) (v : Nat) : TaskEntry :=
  let n := entryOf v t.recVa t.satp t.launch
  { t with entry := n.entry, arg0 := n.arg0, arg1 := n.arg1, cur := n.cur, hi := n.hi, grain := n.grain, ctl := n.ctl, ws := n.ws, succ := n.succ }

/-- A record that cannot become a ready task is parked with cause 31 and no context, or reported where the fault queue has no room (R320). -/
def State.parkRecord (s : State) (die : Nat) (t : TaskEntry) (core counterPa : Nat) (task : Word) : State :=
  if (s.die die).fqFull then s.putEvent (s.kcoreOf die) 4 31 task [2, word counterPa] task (pcode 8 die)
  else (s.pushFault die t.id 0 0 31 1 0 t.recVa 0 core t.record).1

/-- The record at index `j` of a core's ring, translated as the ring is (R317); none where it cannot be reached. -/
def State.ringAt (s : State) (k j : Nat) (write : Bool) : Option (State × Xlat) :=
  let c := s.core k
  let va := (c.qdeqbase.toNat + 64 * (j % max 1 (bits c.qdeqsize 19 0))) % 2 ^ 64
  let v : View := ⟨clusterOfCore k, c.ringSatp, .s, true, false, none⟩
  match (if write then s.accessV v .store needW .write va 64 else s.accessV v .load needR .read va 64) with
  | .error _ => none
  | .ok (s, x) => if x.mt = .io then none else some (s, x)

/-- Entry `i` of a core's ring, oldest first, read from its record (R316, R317), and whether the record is valid (R314). A record that cannot be read
any more leaves the entry as it was written (DESIGN CHOICE, log entry 72). -/
def State.ringEntry (s : State) (k i : Nat) : State × Option (TaskEntry × Bool) :=
  match (s.core k).ring[i]? with
  | none => (s, none)
  | some t =>
    match s.ringAt k (bits (s.core k).qdeqsize 59 40 + i) false with
    | none => (s, some (t, true))
    | some (s, x) =>
      let (s, v) := s.readMem (clusterOfCore k) 0 t.id x 64
      (s, some (t.reread v, recordValid v))

/-- qdeqsize of a ring of `n` entries whose oldest has index `head`: an empty ring starts a block of 8 (R316; log entry 72). -/
def ringWord (v : Word) (head n : Nat) : Word :=
  let h := head % max 1 (bits v 19 0)
  (setRingCount v n &&& ~~~0xFFFFF0000000000#64) ||| word ((if n = 0 then h / 8 * 8 else h) * 2 ^ 40)

/-- The entries from place `i` on of a core's ring, as their records say, each with its record's validity. -/
def State.ringFrom (s : State) (k i n : Nat) : State × List (TaskEntry × Bool) :=
  match n with
  | 0 => (s, [])
  | m + 1 =>
    let (s, t) := s.ringEntry k i
    let (s, ts) := s.ringFrom k (i + 1) m
    (s, t.toList ++ ts)

/-- Entries that a ring gives back: one whose record has become invalid (R314) is parked with cause 31, as R320 parks a released record, or, while the
fault queue has no room, goes on as its record says (DESIGN CHOICE, log entry 72). -/
def State.takenBack (s : State) (k : Nat) (es : List (TaskEntry × Bool)) : State × List TaskEntry :=
  es.foldl (fun (q : State × List TaskEntry) e =>
    if e.2 || (q.1.die (dieOfCore k)).fqFull then (q.1, q.2 ++ [e.1]) else (q.1.parkRecord (dieOfCore k) e.1 k 0 e.1.id, q.2)) (s, [])

/-- The 8 newest entries of a core's ring move back to its hardware entries (R316). -/
def State.takeBack (s : State) (k : Nat) : State :=
  let n := min 8 (s.core k).ring.length
  let keep := (s.core k).ring.length - n
  let (s, es) := s.ringFrom k keep n
  let s := s.modCore k fun c => { c with ring := c.ring.take keep, qdeqsize := ringWord c.qdeqsize (bits c.qdeqsize 59 40) keep }
  let (s, back) := s.takenBack k es
  s.modCore k fun c => { c with bobbin := back ++ c.bobbin }

/-- Hardware entries of a bobbin, with refill from the ring's newest entries once 8 or fewer remain (R316). -/
def State.refillBobbin (s : State) (k : Nat) : State :=
  if (s.core k).bobbin.length ≤ 8 ∧ (s.core k).ring ≠ [] then s.takeBack k else s

/-- Copy the record at index `i` of a core's ring to index `j`, where both can be reached. -/
def State.ringCopy (s : State) (k i j : Nat) : State :=
  if i = j then s
  else match s.ringAt k i false with
    | none => s
    | some (s, x) =>
      let (s, v) := s.readMem (clusterOfCore k) 0 0 x 64
      match s.ringAt k j true with
      | none => s
      | some (s, y) => s.writeMem (clusterOfCore k) 0 y 64 v none ⟨0, pcode 8 (dieOfCore k), s.now, 0, false⟩ 0

/-- A ring with only the entries that `keep` holds for: their records move up to the tail, which still ends a block of 8, so that entry j stays at
HEAD + j (R316, R317; DESIGN CHOICE, log entry 72). -/
def State.ringKeep (s : State) (k : Nat) (keep : TaskEntry → Bool) : State :=
  let c := s.core k
  let rest := c.ring.zipIdx.filter fun p => keep p.1
  if rest.length = c.ring.length then s
  else
    let head := bits c.qdeqsize 59 40
    let gap := c.ring.length - rest.length
    let s := rest.zipIdx.reverse.foldl (fun s (p, j) => s.ringCopy k (head + p.2) (head + gap + j)) s
    s.modCore k fun c => { c with ring := rest.map (·.1), qdeqsize := ringWord c.qdeqsize (head + gap) rest.length }

/-- Free stacks of a launch's pool (R305, R322); a task takes the lowest of them, where the spec asks only for a free one (DESIGN CHOICE, log
entry 76). -/
def Launch.freeStack (l : Launch) : Option Nat :=
  (List.range (min (bits (l.record.getD 11 0) 31 0) (l.stacksUsed.length + 1))).find? fun k => !l.stacksUsed.contains k

/-- Whether a task entry has a stack, or its launch's pool has one free. -/
def State.stackFor (s : State) (t : TaskEntry) : Bool :=
  t.stack.isSome || (match s.launchAt t.launch with
    | some l => l.freeStack.isSome
    | none => false)

/-- Whether a cluster has a window block for a task's saved window. -/
def State.windowFor (s : State) (t : TaskEntry) (g : Nat) : Bool :=
  match t.saved with
  | none => true
  | some key => match s.savedAt key with
    | none => true
    | some v =>
      let n := bits (word (s.peek (2048) (v.fixedAt + 75 * 8) 8)) 25 16
      n == 0 || (s.findBlock g n).isSome

/-- Whether a staging is that of a thread: by its ID, and for a control context, whose ID a gang's other members have too, by its core. -/
def Staging.isFor (g : Staging) (id : Word) (core : Option Nat) : Bool := g.task == some id && core.all (· == g.core)

/-- The staging of a thread, if it has one. -/
def State.stagingOf (s : State) (id : Word) (core : Option Nat) : Option (Nat × Nat × Staging) :=
  s.dies.findSome? fun (d, x) => (x.stagings.zipIdx.find? fun p => p.1.isFor id core).map fun p => (d, p.2, p.1)

/-- A thread may start once its staging has completed or its deadline has passed (R329). -/
def State.stagedId (s : State) (id : Word) (core : Option Nat) : Bool :=
  match s.stagingOf id core with
  | none => true
  | some (_, _, g) => !g.admitted || g.expired || g.since + g.deadline ≤ s.now || g.entries.all fun e => e.done || e.cancelled

def State.staged (s : State) (t : TaskEntry) : Bool := s.stagedId t.id none

/-- qtstg for a staging (R329). -/
def Staging.word (g : Staging) (now : Nat) : Word :=
  let full := g.entries.all fun e => e.done || e.cancelled
  let mask (p : StageEntry → Bool) : Nat := (g.entries.mapIdx fun i e => if p e then 2 ^ i else 0).sum
  Sys2Proof.word (mask (·.done) + mask (·.cancelled) * 2 ^ 8 +
    bnat (g.admitted && !full && (g.expired || decide (g.since + g.deadline ≤ now))) * 2 ^ 16 +
    bnat g.admitted * 2 ^ 17 + g.entries.length * 2 ^ 20)

/-- Change the stagings of every die. -/
def State.mapStagings (s : State) (f : List Staging → List Staging) : State :=
  { s with dies := s.dies.map fun (d, x) => (d, { x with stagings := f x.stagings }) }

/-- Forget a thread's staging unless entries of it are still on their way (R329: they continue past the dispatch). -/
def State.closeStaging (s : State) (id : Word) (core : Option Nat) : State :=
  s.mapStagings fun l => l.filter fun g => !g.isFor id core || (g.admitted && !(g.entries.all fun e => e.done || e.cancelled))

/-- A staging whose last entry has been fetched or cancelled has ended. -/
def Staging.closed (g : Staging) (now : Nat) : Staging :=
  if g.ended.isNone && g.entries.all (fun e => e.done || e.cancelled) then { g with ended := some now } else g

/-- The staging wait of a thread that starts now (R329, R331). -/
def Staging.wait (g : Staging) (now : Nat) : Nat := if g.admitted then min g.deadline (g.ended.getD now - g.since) else 0

/-- The lines of an entry's range, each with its translation. -/
def StageEntry.lines (e : StageEntry) : List Xlat :=
  (List.range ((e.x.va + e.len - 1) / 128 + 1 - e.x.va / 128)).filterMap fun i =>
    pageAt e.pages ((e.x.va / 128 + i) * 128)

/-- Cancel a staging (R330): what has not started is cancelled, and what is in flight completes, its lines first to evict. -/
def Staging.cancel (g : Staging) (now : Nat) : Staging :=
  { g with entries := g.entries.map fun (e : StageEntry) => if e.done then e else if e.started then { e with evict := true } else { e with cancelled := true } }.closed now

/-- The CANCEL bits that cancelling a staging sets (R329, R330). -/
def Staging.cancelBits (g : Staging) : Nat := (g.entries.mapIdx fun i e => if e.done || e.started then 0 else 2 ^ (8 + i)).sum

/-- The lines of a staging that are first to evict once it is cancelled (R330): those of entries in flight, and with `all` those of entries that are
done too. -/
def State.stagedOut (s : State) (g : Staging) (all : Bool) : State :=
  (g.entries.filter fun e => !e.scratch && e.started && (all || !e.done)).foldl (fun s e =>
    e.lines.foldl (fun s x => s.firstOut (clusterOfCore g.core) (x.pa / lineBytes)) s) s

/-- Cancel a task's staging (R330): the CANCEL bits show in the qtstg that a saved context of the task keeps. A steal (`all`) also gives up the lines
of what completes as it is stolen (R340). -/
def State.cancelStaging (s : State) (id : Word) (all : Bool) : State :=
  let n := match s.stagingOf id none with
    | some (_, _, g) => g.cancelBits
    | none => 0
  let s := match s.stagingOf id none with
    | some (_, _, g) => s.stagedOut g all
    | none => s
  let t := s.mapStagings fun l => l.map fun g => if g.task = some id then g.cancel s.now else g
  { t with saved := t.saved.map fun v => if v.task.any (·.id == id) then { v with stg := v.stg ||| word n } else v }

/-- POWER_GATING_WAKE (R397): the wake takes 2 µs, and changes no program's result. -/
def State.wakeCluster (s : State) (g : Nat) : State :=
  if (s.cluster g).gated then { s.modCluster g (fun c => { c with gated := false, idleSince := s.now + 2000 }) with now := s.now + 2000 } else s

/-- L of R331, with `bytes` fetched, staging wait `z`, and whether a cluster that must run the first instruction is power gated. For the control contexts
of a task-mode launch, whose w R331 does not give, it is counted with the launch record's 256 bytes (DESIGN CHOICE, log entry 99). -/
def Launch.latency (l : Launch) (bytes z : Nat) (gated : Bool) : Nat :=
  150 + l.path + 20 * ((bytes + 63) / 64) + z + (if gated then 2000 else 0)

/-- The arrival that a task's start record names (R364): of a root task that starts for the first time, L of R331 before the start. -/
def TaskEntry.arrival (t : TaskEntry) (now l : Nat) : Nat :=
  if t.rtype = 11 ∧ t.saved.isNone ∧ bits t.id 31 0 = 0 then now - l else t.prodAt

/-- Start or resume a task on an idle helper slot (R127, R128, R310, R322): its stack, its registers, and its start record (R364). A task for
which no stack is to be had does not start. -/
def State.startTask (s : State) (t : TaskEntry) (cid eff : Nat) : State :=
  match s.launchAt t.launch, t.stack.or ((s.launchAt t.launch).bind Launch.freeStack) with
  | none, _ => s
  | _, none => s
  | some l, some stack =>
    let k := coreOf cid
    let l := if t.stack.isSome then l else { l with stacksUsed := l.stacksUsed ++ [stack] }
    let root := l.taskMode && l.patCluster.isNone && bits t.id 31 0 == 0
    let l := if root then { l with patCluster := some (clusterOf cid) } else l
    let s := s.setLaunch t.launch l
    let own := (s.stagingOf t.id none).map (·.2.2)
    let stg := own.map (·.word s.now)
    let lat := l.latency 64 ((own.map (·.wait s.now)).getD 0) (s.cluster (clusterOf cid)).gated
    let t : TaskEntry := { t with running := some cid, stack := some stack, dispatched := s.now, stg := stg.getD t.stg }
    let s := s.closeStaging t.id none
    -- a gated cluster wakes first (R397; log entry 59)
    let s := s.wakeCluster (clusterOf cid)
    -- a first start, a half's start and a TRESUME leave a record; going on after a pre-emption or an early HEXIT does not (R364)
    let s := if t.rtype = 0 then s else s.edge (dieOf cid) t.id ⟨t.prodTask, t.prodCode, t.arrival s.now lat, 0, false⟩ t.rtype
    let t : TaskEntry := { t with rtype := 0 }
    -- a range task keeps its entry, and its place, in the core's bobbin while it runs (R316, R319)
    let s := if t.range then s.modCore k fun c =>
        { c with bobbin := if c.bobbin.any (·.id == t.id) then c.bobbin.map fun e => if e.id = t.id then t else e else c.bobbin ++ [t] } else s
    let s := match t.saved.bind s.savedAt with
      | some v =>
        (match s.restoreInto { v with task := some { t with saved := none } } cid with
         | some s => s
         | none => s)
      | none =>
        let c := s.launchThread cid t.launch l t.id t.prio
        let sp := word ((l.record.getD 10 0).toNat + (stack + 1) * 2 ^ 21)
        let c := c.startRegs t.arg0 t.arg1 t.recVa sp (l.record.getD 8 0) (l.record.getD 9 0)
        s.setCtx cid { c with pc := t.entry, task := some { t with saved := none }, qprio := word (t.prio + eff * 8)
                              qtstg := t.stg }
    if root then s.patternStep t.launch 0 else s

/-- Effective priority of a ready task (R322). -/
def State.effective (s : State) (t : TaskEntry) : Nat :=
  min 7 (t.prio + (s.now - t.tReady) / max 1 (bits s.qmaging 31 0))

/-- Whether a task may run on a core: its launch's placement holds the core, the die is allowed, and a stack and a window block can
be had (R318, R322, R325). -/
def State.mayRun (s : State) (t : TaskEntry) (k : Nat) : Bool :=
  match s.launchAt t.launch with
  | none => false
  | some l => !l.stopping && l.hasCore k && t.affinity.testBit (s.reportDie (dieOfCore k)) && s.stackFor t && s.windowFor t (clusterOfCore k)

/-- Whether a helper slot is claimed for a stolen task on its way (R318). -/
def State.claimed (s : State) (cid : Nat) : Bool := (s.core (coreOf cid)).arriving.any fun p => p.1 == cid

/-- Whether a core has a helper slot that can take a task. -/
def State.hasSlot (s : State) (k : Nat) : Bool :=
  s.coreAvailable k && (List.range 10).any fun j => (s.ctx (k * 12 + j + 1)).status == .idle && !s.claimed (k * 12 + j + 1)

/-- Whether a core may take a ready task: it is assigned to the core, or to none, or to one that has no slot for it any more (R328). -/
def State.assignedTo (s : State) (t : TaskEntry) (k : Nat) : Bool :=
  match s.stagingOf t.id none with
  | some (_, _, g) => g.core == k || !s.hasSlot g.core
  | none => true

/-- The die's ready task for a core: the highest effective priority, oldest first (R322), with its place. -/
def State.bestReady (s : State) (k : Nat) : Option (Nat × TaskEntry) :=
  ((s.die (dieOfCore k)).ready.zipIdx.filter fun p => s.mayRun p.1 k && s.staged p.1 && s.assignedTo p.1 k).foldl (fun b p =>
    match b with
    | none => some (p.2, p.1)
    | some q =>
      if s.effective q.2 < s.effective p.1 ∨ (s.effective q.2 = s.effective p.1 ∧ p.1.tReady < q.2.tReady) then some (p.2, p.1) else b) none

/-- The core's newest bobbin entry that is not running and may run (R316). -/
def State.newestEntry (s : State) (k : Nat) : Option TaskEntry :=
  (s.core k).bobbin.reverse.find? fun t => t.running.isNone && s.mayRun t k && s.staged t

/-- An entry of a working-set declaration from its two words (R327). -/
def stageEntry (a b : Nat) : Option StageEntry :=
  let len := b % 2 ^ 24
  if len = 0 || b >>> 48 ≠ 0 then none
  else some ⟨{ Xlat.none with va := a }, len, b.testBit 24, b.testBit 25, b >>> 26 % 2 ^ 22, [], false, false, false, false⟩

/-- The entries of a declaration from `i` on. -/
def State.readStageEntries (s : State) (die : Nat) (satp : Word) (va n : Nat) : Option (List StageEntry) :=
  match n with
  | 0 => some []
  | k + 1 => do
    let (_, v) ← s.dispRead die satp va 16
    let e ← stageEntry (v % 2 ^ 64) (v >>> 64)
    let r ← s.readStageEntries die satp (va + 16) k
    some (e :: r)

/-- A working-set declaration as a dispatcher reads it (R327): its entries, not yet translated, and its deadline; none where it is
invalid, which counts as absent. -/
def State.readDeclaration (s : State) (die : Nat) (satp : Word) (va : Nat) : Option (List StageEntry × Nat) := do
  let (_, h) ← s.dispRead die satp va 16
  let n := h % 16
  let dl := h >>> 64
  if va % 16 ≠ 0 || n = 0 || 8 < n || (h % 2 ^ 64) >>> 4 ≠ 0 || dl >>> 32 ≠ 0 then none
  else do
    let es ← s.readStageEntries die satp (va + 16) n
    some (es, if dl = 0 then bits s.qmstage 51 20 else dl)

/-- The working set of a thread is declared to the dispatcher of its target core's die (R328); staging starts once it is admitted, which a horizon of
0 never is. -/
def State.declareWs (s : State) (core key : Nat) (id satp ws : Word) : State :=
  let d := dieOfCore core
  if ws = 0 then s
  else match s.readDeclaration d satp ws.toNat with
    | none => s
    | some (es, dl) =>
      let tid : BitVec 12 := match s.launchAt key with
        | some l => BitVec.ofNat 12 (bits (l.record.getD 31 0) 14 3)
        | none => 0
      s.modDie d fun x => { x with stagings := x.stagings ++ [⟨core, some id, es, tid, s.now, dl, false, false, none⟩] }

/-- A task's working set, declared for its target core: a stolen or resumed task is not staged (R330). -/
def State.declareStaging (s : State) (core : Nat) (t : TaskEntry) : State :=
  if t.stolen || t.saved.isSome then s else s.declareWs core t.launch t.id t.satp t.ws

/-- Enqueue a task as ready on a die (R322). Its working set is staged once the dispatcher assigns it to a core (R328). -/
def State.enqueueReady (s : State) (d : Nat) (t : TaskEntry) : State := s.modDie d fun x => { x with ready := x.ready ++ [{ t with tReady := s.now }] }

/-- The dispatcher gives the ready task at place `i` of its die to a free slot (R322): it assigns the task to the slot's core, for which a declared
working set is staged (R328), and dispatches it there once R329 lets it. -/
def State.takeReady (s : State) (cid i : Nat) (t : TaskEntry) : State :=
  let u := if (s.stagingOf t.id none).isSome then s else s.declareStaging (coreOf cid) t
  if (s.stagingOf t.id none).isNone && (u.stagingOf t.id none).isSome && bits s.qmstage 3 0 ≠ 0 then u
  else (u.modDie (dieOf cid) fun d => { d with ready := d.ready.eraseIdx i }).startTask t cid (s.effective t)

/-- A free slot takes an entry of its core's bobbin (R322), which a range entry stays in while it runs. -/
def State.takeOwn (s : State) (cid : Nat) (t : TaskEntry) : State :=
  let s := s.modCore (coreOf cid) fun c => { c with bobbin := c.bobbin.filter fun e => e.id ≠ t.id || e.range }
  (s.startTask t cid t.prio).refillBobbin (coreOf cid)

/-- The newest entry of a core that is not running and may run (R316): a hardware entry, or, where every one of those runs, one that the ring gives
back with its block of 8 (DESIGN CHOICE, log entry 72). -/
def State.ownEntry (s : State) (k : Nat) : State × Option TaskEntry :=
  if (s.core k).ring ≠ [] && (s.core k).bobbin.all (fun t => t.running.isSome) then (s.takeBack k, (s.takeBack k).newestEntry k)
  else (s, s.newestEntry k)

/-- TASK_DISPATCH (R318, R322): a free helper slot starts the stolen task that claims it, or takes the better of the die's ready task and the core's
newest entry. -/
def State.dispatchTo (s : State) (cid : Nat) : State :=
  let k := coreOf cid
  let c := s.ctx cid
  if c.status ≠ .idle ∨ ctxNum cid = 0 ∨ 11 ≤ ctxNum cid ∨ !s.coreAvailable k ∨ (s.die (dieOf cid)).stopped then s
  else match (s.core k).arriving.find? fun p => p.1 == cid with
    | some (_, t) =>
      if s.mayRun t k then (s.modCore k fun c => { c with arriving := c.arriving.filter fun p => p.1 ≠ cid }).startTask t cid t.prio else s
    | none =>
      match s.bestReady k, s.ownEntry k with
      | some (i, t), (u, some o) => if o.prio < s.effective t then s.takeReady cid i t else u.takeOwn cid o
      | some (i, t), (_, none) => s.takeReady cid i t
      | none, (u, some o) => u.takeOwn cid o
      | none, (_, none) => s

/-- The dependence counter at a virtual address, translated in an address space: device HBM with PBMT 00 (R320). -/
def State.counterAt (s : State) (v : View) (va : Nat) : Option (State × Xlat) :=
  match s.xlate v needRW va with
  | .ok (s, x) => if x.mt = .hbm then some (s, x) else none
  | .error _ => none

/-- Release the record a counter names (R320): read, checked, given a new ID and enqueued; else parked, or reported. -/
def State.releaseRecord (s : State) (die : Nat) (dec : Decrement) (counterPa : Nat) (recVa : Word) (code : BitVec 32) : State :=
  match s.launchAt dec.launch with
  | none => s
  | some l =>
    let park (s : State) (v : Nat) : State :=
      let t := entryOf v recVa dec.satp dec.launch
      if (s.die die).fqFull then s.parkRecord die t dec.core counterPa dec.task
      else
        let (s, id) := s.newId dec.launch die
        (s.modLaunch dec.launch fun l => { l with live := l.live + 1 }).parkRecord die { t with id := id } dec.core counterPa dec.task
    match s.dispRead die dec.satp recVa.toNat 64 with
    | none => park s 0
    | some (s, v) =>
      let t := { entryOf v recVa dec.satp dec.launch with prodTask := dec.task, prodCode := code, prodAt := s.now }
      if !recordValid v || recVa.toNat % 64 ≠ 0 then park s v
      else match s.placeDie l t die with
        | none => park s v
        | some d =>
          let (s, id) := s.newId dec.launch die
          let s := s.modLaunch dec.launch fun l => { l with live := l.live + 1 }
          let s := s.enqueueReady d { t with id := id }
          s.edge die id ⟨dec.task, code, s.now, 0, false⟩ 10

/-- A decrement is performed at the counter's home (R320). What Reserved bits [63:32] of a counter's first word hold makes no difference: the
spec names no outcome for a counter in which they are not zero (DESIGN CHOICE, log entry 77). -/
def State.decrement (s : State) (die : Nat) (dec : Decrement) : State :=
  let code := pcode 0 (s.reportCore dec.core)
  let fault (s : State) (pa : Nat) : State :=
    s.putEvent (s.kcoreOf die) 4 31 dec.task [0, word pa] dec.task (pcode 8 die)
  match s.counterAt (dispView die dec.satp) dec.counter.toNat with
  | none => fault s 0
  | some (s, x) =>
    let (s, v) := s.homeReadX x 0 16
    let n := v % 2 ^ 32
    if n = 0 then fault s x.pa
    else
      let s := s.homeWriteX x 0 4 (n - 1) ⟨dec.task, code, s.now, 0, false⟩ dec.launch
      if n = 1 then s.releaseRecord die dec x.pa (word (v >>> 64)) code else s

end Sys2Proof.Machine
end

