-- ==== Sys2Proof/Machine/Launches.lean ====
section
/-! DEFINITION. Launches (R305 to R313, R326): the launch queues a die serves, the check of a launch record, how a launch starts and
completes, the time-triggered table, and how contexts and tasks end. -/

namespace Sys2Proof.Machine

/-- The header of a launch queue at a physical address, if it is valid (R308, R311): its eight words. -/
def State.queueHeader (s : State) (pa : Nat) : Option (State × List Nat) :=
  if pa % 64 ≠ 0 || !isHbm (pa + 63) then none
  else
    let (s, v) := s.homeRead pa 64
    let w : List Nat := (List.range 8).map fun i => v >>> (64 * i) % 2 ^ 64
    let f (i : Nat) : Nat := w.getD i 0
    let size := f 1 % 2 ^ 32
    let target := f 1 >>> 32 % 16
    if 8 ≤ size && size ≤ 65536 && size == 2 ^ size.log2 && s.dieLive target && f 1 >>> 36 == 0 && f 0 % 64 == 0 &&
        isHbm (f 0 + 8 * size - 1) && f 5 == 0 && f 6 == 0 && f 7 == 0 then some (s, w)
    else none

/-- A launch-queue fault event at KCORE of a die (R311, R358). -/
def State.queueFault (s : State) (d hdr slot reason : Nat) : State :=
  s.putEvent (s.kcoreOf d) 0x0E 0 0 [word hdr, word (slot % 2 ^ 16 + reason * 2 ^ 16)] 0 (pcode 8 d)

/-- A doorbell received by a die, rung at a host port (R311, R363): the queue is served here, forwarded, or found invalid. -/
def State.doorbellAt (s : State) (d : Nat) (hdr : Nat) (notice : Option (Nat × Nat × Nat × Word)) (port : Nat) : State :=
  if !s.host.up then s
  else match s.queueHeader hdr with
    | none => s.queueFault d hdr 0xFFFF 1
    | some (s, w) =>
      -- in compare mode the dispatchers of partition B serve B's copy of the queue (R381)
      let tgt := w.getD 1 0 >>> 32 % 16
      let target := if s.replay.cmp && 2 ^ 41 ≤ hdr && tgt < 8 then tgt + 8 else tgt
      s.modDie target fun x =>
        { x with queues := if x.queues.any fun q => q.header == hdr then
              x.queues.map fun q => if q.header = hdr then { q with rung := s.now, port := port, notices := q.notices ++ notice.toList } else q
            else x.queues ++ [⟨hdr, 0, 0, s.now, port, notice.toList⟩] }

/-- The limits of a launch record (R305, R306, R128), apart from what it names in memory. -/
def launchRecordOk (w : List Word) : Bool :=
  let f (i : Nat) : Nat := (w.getD i 0).toNat
  let ctl := f 1
  let ngang := ctl >>> 24 % 32
  let gang := ctl.testBit 1
  let count := f 3 >>> 16 % 2 ^ 14
  f 0 % 4 == 0 && ctl >>> 5 % 8 == 0 && ctl >>> 29 == 0 &&
  (if gang then 2 ≤ ngang && ngang ≤ 16 && !ctl.testBit 0 else ngang == 0) &&
  f 3 >>> 14 % 4 == 0 && f 3 >>> 30 == 0 && 1 ≤ count && count ≤ 8192 && f 3 % 2 ^ 14 + count ≤ 8192 &&
  (if ctl.testBit 0 then f 4 != 0 && f 4 % 64 == 0 && f 11 != 0 else f 4 == 0) &&
  f 5 % 64 == 0 && f 7 % 16 == 0 && f 10 % 2 ^ 21 == 0 && f 11 ≤ 2 ^ 20 && f 12 % 2 ^ 24 == 0 &&
  ((List.range 15).all fun i => (gang && i + 1 < ngang) || f (14 + i) == 0) &&
  f 31 >>> 16 == 0 && f 31 % 8 ≤ 4

/-- The entries of a copy pattern from its 32-byte records (R291); none where one is invalid or cannot be read. -/
def State.readPatternEntries (s : State) (die : Nat) (satp : Word) (va i n : Nat) : Option (Table (List Word)) :=
  match n with
  | 0 => some []
  | k + 1 => do
    let (_, v) ← s.dispRead die satp va 32
    let w : List Word := (List.range 4).map fun j => word (v >>> (64 * j))
    if bits (w.getD 2 0) 31 0 = 0 || bits (w.getD 2 0) 63 48 ≠ 0 || w.getD 3 0 ≠ 0 then none
    else do
      let r ← s.readPatternEntries die satp (va + 32) (i + 1) k
      some ((i, w) :: r)

/-- A copy pattern (R291). -/
def State.readPattern (s : State) (die : Nat) (satp : Word) (va : Nat) : Option (Table (List Word)) := do
  if va = 0 then some []
  else
    let (_, h) ← s.dispRead die satp va 32
    let n := h % 2 ^ 16
    if n = 0 || 64 < n || h >>> 16 ≠ 0 then none else s.readPatternEntries die satp (va + 32) 0 n

/-- The 32 words of a launch record. -/
def State.readLaunchRecord (s : State) (die : Nat) (satp : Word) (va : Nat) : Option (State × List Word) := do
  let (s, v) ← s.dispReadLines die satp va 4
  some (s, (List.range 32).map fun i => word (v >>> (64 * i)))

/-- The check of a launch (R306): its status, its pattern, and its root with the die chosen for it. -/
def State.checkLaunch (s : State) (l : Launch) (key : Nat) : Nat × Table (List Word) × Option TaskEntry :=
  let lives := l.cores.all fun k => s.coreLive k
  if !launchRecordOk l.record || !lives then (2, [], none)
  else match s.readPattern l.die l.satp (l.record.getD 5 0).toNat with
    | none => (2, [], none)
    | some pat =>
      let root : Option (Option TaskEntry) :=
        if !l.taskMode then some none
        else
          let va := l.record.getD 4 0
          (match s.dispRead l.die l.satp va.toNat 64 with
           | none => none
           | some (_, v) => if recordValid v then some (some (entryOf v va l.satp key)) else none)
      match root with
      | none => (2, [], none)
      | some none => if s.allowedDies l l.affinity = [] then (1, [], none) else (0, pat, none)
      | some (some t) =>
        if s.allowedDies l l.affinity = [] then (1, [], none)
        else match s.placeDie l t l.die with
          | none => (1, [], none)
          | some _ => (0, pat, some t)

/-- The next launch sequence (R315). -/
def nextLseq (n : Nat) : Nat := if n + 1 = 2 ^ 20 then 1 else n + 1

/-- Write a launch's completion record and its event (R306): status, exit value, and who ended it. -/
def State.completionOf (s : State) (l : Launch) (status : Nat) (prodTask : Word) (code : BitVec 32) (event : Bool) : State :=
  let id := word (s.launchId l)
  let exitv := ((l.exits.filter fun p => p.2 ≠ 0).head?.map (·.2)).getD 0
  let (s, st) := match s.dispWrite l.die l.satp (l.record.getD 7 0).toNat 16
      (status + s.launchId l + exitv.toNat * 2 ^ 64) with
    | some s => (s, status)
    | none => ((match l.queue with
      | some q => s.queueFault l.die q l.slot 4
      | none => s), 2)
  match l.issuer with
  | some i => if event then s.putEvent (coreOf i) 1 0 id [l.evVa, word st] prodTask code else s
  | none => s

/-- The task ID of the control context of rank `r` (R315). -/
def State.controlId (s : State) (l : Launch) (r : Nat) : Word := word (s.launchId l + 2 ^ 31 + r)

/-- A launch's own working set is staged for each core of its placement before its control context starts there (R305, R327, R328, R331; log
entry 71). -/
def State.declareLaunch (s : State) (key : Nat) : State :=
  match s.launchAt key with
  | none => s
  | some l => (List.range l.count).foldl (fun s r => s.declareWs (l.first + r) key (s.controlId l r) l.satp (l.record.getD 6 0)) s

/-- A launch record has been read: it is checked, and waits to start, or is refused (R306). `members` are the other member records
of a gang. The new launch's key is `s.nextKey`. -/
def State.admitLaunch (s : State) (l : Launch) (members : List (Word × List Word)) : State :=
  let key := s.nextKey
  let all : List Launch := l :: members.map fun (va, w) => { l with recVa := va, record := w }
  let keys := (List.range all.length).map (key + ·)
  let checks := all.mapIdx fun i m => s.checkLaunch m (key + i)
  let shape := members.all fun (_, w) => !bit (w.getD 1 0) 0
  let status : Nat := if !shape || checks.any (fun c => c.1 == 2) then 2 else checks.foldl (fun m c => max m c.1) 0
  let s := { s with lseq := nextLseq s.lseq, nextKey := key + all.length }
  if status ≠ 0 then
    -- a refused launch starts no thread
    (all.zipIdx.reverse).foldl (fun s (m, i) => s.completionOf m status 0 (pcode 8 l.die) (i == 0)) s
  else
    (all.zip checks).zipIdx.foldl (fun s ((m, c), i) =>
      (s.setLaunch (key + i) { m with gang := if l.isGang then keys else [], pattern := c.2.1, root := c.2.2 }).declareLaunch (key + i)) s

/-- A launch as it is taken, from its record. -/
def newLaunch (lseq : Nat) (recVa satp : Word) (record : List Word) (die : Nat) (enqueued path : Nat) : Launch :=
  { lseq := lseq, recVa := recVa, satp := satp, record := record, die := die, issuer := none, tt := none, queue := none, slot := 0,
    issTask := 0, evVa := record.getD 7 0, gang := [], running := false, live := 0, exits := [], tseq := [], stacksUsed := [],
    pattern := [], stage := 0, patCluster := none, root := none, enqueued := enqueued, path := path, port := 0, stopping := false }

/-- The records of a gang's other members (R326); none where one cannot be read. -/
def State.readMembers (s : State) (die : Nat) (satp : Word) (vas : List Word) : Option (List (Word × List Word)) :=
  match vas with
  | [] => some []
  | v :: t => do
    if v.toNat % 256 ≠ 0 then none
    else
      let (_, w) ← s.readLaunchRecord die satp v.toNat
      let r ← s.readMembers die satp t
      some ((v, w) :: r)

/-- In compare mode a launch of partition B runs on the twins of the cores its record names (R381). -/
def State.twinRecord (s : State) (die : Nat) (w : List Word) : List Word :=
  if s.replay.cmp && 8 ≤ die then w.set 3 (w.getD 3 0 + 4096) else w

/-- Take a launch whose record stands at `va` (R306): read it, and the records of its gang. None where the record cannot be read. -/
def State.takeRecord (s : State) (l : Launch) : Option State := do
  let (s, w) ← s.readLaunchRecord l.die l.satp l.recVa.toNat
  let w := s.twinRecord l.die w
  let l := { l with record := w, evVa := w.getD 7 0 }
  let n := bits (w.getD 1 0) 28 24
  let vas := if l.isGang then (List.range (min 15 (n - 1))).map fun i => w.getD (14 + i) 0 else []
  match s.readMembers l.die l.satp vas with
  | some ms => some (s.admitLaunch l (ms.map fun (v, w) => (v, s.twinRecord l.die w)))
  | none =>
    -- a member record that cannot be read refuses the launch
    some (({ s with lseq := nextLseq s.lseq }).completionOf l 2 0 (pcode 8 l.die) true)

/-- Take the slot at HEAD of a queue for one die (R308, R311): the slot is cleared and HEAD advanced, whatever comes of it. -/
def State.takeSlot (s : State) (d hdr : Nat) (w : List Nat) (q : Option ServedQueue) (lseq : Nat) : State :=
  let size := w.getD 1 0 % 2 ^ 32
  let head := w.getD 4 0
  let idx := head % size
  let sa := w.getD 0 0 + 8 * idx
  let me : Wake := ⟨0, pcode 8 d, s.now, 0, false⟩
  let (s, slot) := s.homeRead sa 8
  let s := (s.homeWrite sa 8 0 me 0).homeWrite (hdr + 0x20) 8 ((head + 1) % 2 ^ 64) me 0
  let va := word (slot - slot % 2)
  let satp := word (w.getD 2 0)
  let note := q.bind fun q => q.notices.find? fun n => n.1 == head
  let s := s.modDie d fun x => { x with queues := x.queues.map fun u =>
    if u.header = hdr then { u with notices := u.notices.filter fun n => n.1 ≠ head } else u }
  if va.toNat % 256 ≠ 0 then s.queueFault d hdr idx 2
  else
    let (k, h) := routeOf (sliceRouter (homeSlice hdr ((q.map (·.hdie)).getD 0) ((q.map (·.il)).getD 0))) (dispRouter d)
    let at_ := (note.map fun n => n.2.2.1).getD ((q.map (·.rung)).getD s.now)
    let l := { newLaunch lseq va satp [] d at_ (6 * h + 48 * k) with
      queue := some hdr, port := (q.map (·.port)).getD 0, slot := idx, issuer := note.map fun n => n.2.1, issTask := (note.map fun n => n.2.2.2).getD 0 }
    match s.takeRecord l with
    | some s => s
    | none =>
      -- the core that executed LAUNCH is told too, with status 2 and no completion record to name (R306; log entry 79)
      let s := { s with lseq := nextLseq s.lseq }.queueFault d hdr idx 3
      match l.issuer with
      | some i => s.putEvent (coreOf i) 1 0 (word (s.launchId l)) [0, 2] 0 (pcode 8 d)
      | none => s

/-- LAUNCH_SLOT_TAKE on die `d`, for the queue at place `j` (R308, R311, R381): not while a launch of the queue has yet to start. In compare
mode the twins' dispatchers take a slot together. -/
def State.slotTake (s : State) (d j : Nat) : State :=
  match (s.die d).queues[j]? with
  | none => s
  | some q =>
    let blocked := s.launches.any fun p => p.2.queue == some q.header && !p.2.running
    if !s.host.up || (s.die d).stopped || blocked || (s.replay.cmp && 8 ≤ d) then s
    else match s.queueHeader q.header with
      | none => (s.queueFault d q.header 0xFFFF 1).modDie d fun x => { x with queues := x.queues.eraseIdx j }
      | some (s, w) =>
        let sa := w.getD 0 0 + 8 * (w.getD 4 0 % (w.getD 1 0 % 2 ^ 32))
        let (s, slot) := s.homeRead sa 8
        if slot % 2 = 0 then s
        else if !s.replay.cmp then s.takeSlot d q.header w (some q) s.lseq
        else
          let twin := q.header + 2 ^ 41
          let (s, slot2) := s.homeRead (sa + 2 ^ 41) 8
          if slot2 % 2 = 0 then s
          else
            let seq := s.lseq
            let q2 := (s.die (d + 8)).queues.find? fun u => u.header == twin
            let w2 := w.set 0 (w.getD 0 0 + 2 ^ 41)
            let s := s.takeSlot d q.header w (some q) seq
            { (s.takeSlot (d + 8) twin w2 q2 seq) with lseq := nextLseq seq }

/-- The producer of a launch's start records (R364): the LAUNCH issuer, the slot timer, or the host port that rang the doorbell (R363). -/
def State.launchProducer (s : State) (l : Launch) : Word × BitVec 32 :=
  match l.issuer, l.tt with
  | some i, _ => (l.issTask, pcode 0 (s.reportCore (coreOf i)))
  | none, some e => (0, pcode 6 (2 ^ 27 + e))
  | none, none => (0, pcode 5 l.port)

/-- Start the control context of placement rank `r` of a launch (R127, R128, R307), `lag` ns after the launch was enqueued (R331). -/
def State.startControl (s : State) (key : Nat) (l : Launch) (r lag : Nat) : State :=
  let k := l.first + r
  let cid := controlOf k
  let id := s.controlId l r
  let stg := ((s.stagingOf id (some k)).map fun q => q.2.2.word s.now).getD 0
  let s := s.closeStaging id (some k)
  let (pt, pc) := s.launchProducer l
  let c := (s.launchThread cid key l id l.prio).startRegs (word r) (l.record.getD 2 0) 0
    (word ((l.record.getD 12 0).toNat + (r + 1) * 2 ^ 24)) (l.record.getD 8 0) (l.record.getD 9 0)
  let s := s.setCtx cid { c with pc := l.record.getD 0 0, rank := r, qtstg := stg }
  let s := s.modCluster (clusterOf cid) fun g => { g with gated := false }
  s.edge (dieOf cid) id ⟨pt, pc, s.now - lag, 0, false⟩ 11

/-- Add a task entry at the newest end of a core's bobbin (R316). -/
def State.pushEntry (s : State) (k : Nat) (t : TaskEntry) : State :=
  s.modCore k fun c => { c with bobbin := c.bobbin ++ [t] }

/-- Start a launch whose control contexts are all Idle (R307), `lag` ns after it was enqueued. -/
def State.startLaunch (s : State) (key lag : Nat) : State :=
  match s.launchAt key with
  | none => s
  | some l =>
    let l := { l with running := true, live := bnat l.root.isSome, patCluster := if l.taskMode then none else some (clusterOfCore l.first) }
    let s := s.setLaunch key l
    let s := (List.range l.count).foldl (fun s r => s.startControl key l r lag) s
    let s := match l.tt with
      | some i => s.setTT i { s.ttEntry i with last := some key, waiting := (s.ttEntry i).waiting && (s.ttEntry i).last == some key }
      | none => s
    let s := match l.root with
      | none => s
      | some t =>
        let (pt, pc) := s.launchProducer l
        let t := { t with id := word (s.launchId l), prodTask := pt, prodCode := pc, prodAt := s.now, tReady := s.now }
        (match s.placeDie l t l.die with
         | none => s
         | some d =>
           match l.cores.find? fun k => dieOfCore k == d with
           | none => s
           | some k => (s.pushEntry k t).declareStaging k t)
    if l.taskMode then s else s.patternStep key 0

/-- L of R331 for the control contexts of some members, which start together: the longest of their staging waits, and the wake of any gated cluster. -/
def State.launchLatency (s : State) (l : Launch) (ms : List Launch) : Nat :=
  let z := (ms.flatMap fun m => (List.range m.count).filterMap fun r =>
    (s.stagingOf (s.controlId m r) (some (m.first + r))).map fun q => q.2.2.wait s.now).foldl max 0
  l.latency 256 z (ms.any fun m => m.cores.any fun k => (s.cluster (clusterOfCore k)).gated)

/-- The entry i of a gang's table: the control context at rank 0 of member i (R326). -/
def State.gangTable (s : State) (keys : List Nat) : Nat :=
  (List.range 16).foldr (fun i a => (match (keys[i]?).bind s.launchAt with
    | some m => controlOf (s.reportCore m.first)
    | none => 2 ^ 64 - 1) + a * 2 ^ 64) 0

/-- LAUNCH_START (R307, R313, R326): the launch starts once every control context of its placement, and of its gang, is Idle and its
cores are available; under the queue rule it first waits for the entry's previous launch. The moment is no earlier than R331's. -/
def State.launchStart (s : State) (key : Nat) : State :=
  match s.launchAt key with
  | none => s
  | some l =>
    let keys := if l.gang = [] then [key] else l.gang
    let ms := keys.filterMap s.launchAt
    let idle := ms.all fun m => (m.cores.all fun k => (s.ctx (controlOf k)).status == .idle && s.coreAvailable k) &&
      (List.range m.count).all fun r => s.stagedId (s.controlId m r) (some (m.first + r))
    let prev := match l.tt with
      | some i => (match (s.ttEntry i).last with
        | some p => p != key && (s.launchAt p).isSome
        | none => false)
      | none => false
    if l.running || !idle || prev || (s.die l.die).stopped || keys.head? ≠ some key then s
    else
      let lag := s.launchLatency l ms
      let s := { s with now := max s.now (l.enqueued + lag) }
      let table := s.gangTable keys
      let s := if l.gang = [] then s else ms.foldl (fun s m =>
        match s.dispWrite m.die m.satp (m.record.getD 13 0).toNat 128 table with
        | some s => s
        | none => s) s
      keys.foldl (fun s k => s.startLaunch k lag) s

/-- A launch has completed (R306, R307, R326): its record is written, its event sent by the last member of a gang, and what is left of its
pattern discarded. -/
def State.endLaunch (s : State) (key status : Nat) (prodTask : Word) (code : BitVec 32) : State :=
  match s.launchAt key with
  | none => s
  | some l =>
    let others := l.gang.filter (· ≠ key)
    let s := s.completionOf l status prodTask code (others == [])
    let s := { s with launches := tdel s.launches key }
    others.foldl (fun s k => s.modLaunch k fun m => { m with gang := m.gang.filter (· ≠ key) }) s

/-- Whether a launch has completed; if so it ends. The task and core are those of the context whose end completed it (R360). -/
def State.checkDone (s : State) (key : Nat) (task : Word) (core : Nat) : State :=
  match s.launchAt key with
  | none => s
  | some l =>
    if l.running && !l.stopping && l.exits.length == l.count && (!l.taskMode || l.live == 0) then
      s.endLaunch key 0 task (pcode 0 (s.reportCore core))
    else s

/-- The tasks-done event of a launch, to every placement core's control context (R307). -/
def State.tasksDone (s : State) (l : Launch) (task : Word) (code : BitVec 32) : State :=
  l.cores.foldl (fun s k => s.putEvent k 2 0 (word (s.launchId l)) [] task code) s

/-- A task of a launch has ended (R307): the tasks-done event when none is live. -/
def State.taskGone (s : State) (key : Nat) (task : Word) (core : Nat) : State :=
  match s.launchAt key with
  | none => s
  | some l =>
    let s := s.setLaunch key { l with live := l.live - 1 }
    let s := if l.live = 1 ∧ l.taskMode then s.tasksDone l task (pcode 0 (s.reportCore core)) else s
    s.checkDone key task core

/-- A task's stack returns to its pool (R322, R337). -/
def State.freeStackOf (s : State) (t : TaskEntry) : State :=
  match t.stack with
  | some k => s.modLaunch t.launch fun l => { l with stacksUsed := l.stacksUsed.filter (· ≠ k) }
  | none => s

/-- A context's slot after its thread has ended (R107 steps 1 to 4): its hem is force-sent, its packet, reservation and loop dropped. A request
to stop it is dropped and counted (R117). -/
def State.endContext (s : State) (cid : Nat) : State :=
  let s := s.flushCtx cid
  let s := if (s.ctx cid).stop.any (!·.kill) then s.dropRequest (dieOf cid) else s
  let s := (s.modCtx cid fun c => c.vacate .idle).slotFreed cid
  let s := s.commandEnds cid
  s.modCluster (clusterOf cid) fun g => { g with idleSince := s.now }

/-- Write an exit latch, and end every HJOIN that waits on it (R108): then the latch is cleared at once. -/
def State.writeLatch (s : State) (cid : Nat) (v : Word) (w : Wake) : State :=
  let waits (d : Nat) (t : Wait) : Bool := t.kind = .hjoin && coreOf d == coreOf cid && t.op0.toNat == ctxNum cid
  let any := (s.ctxs.any fun q => (q.2.wait.map (waits q.1)).getD false && q.2.wake.isNone) ||
    (s.saved.any fun u => (u.wait.map (waits u.cid)).getD false && u.wake.isNone)
  let s := s.wakeIf waits { w with value := v }
  if any then s else s.modCore (coreOf cid) fun k => { k with latches := tput k.latches (ctxNum cid) v }

/-- Whether no helper of core `k` that HSTART started is live or holds a Reserved slot (R107). -/
def State.helpersGone (s : State) (k : Nat) : Bool :=
  (List.range 10).all fun j =>
    let c := s.ctx (k * 12 + j + 1)
    !(c.hstarted && (c.status = .running || c.status = .waiting || c.status = .frozen)) && c.status != .reserved

/-- A control context that waits in its HEXIT is woken once no such helper is left (R107); the wake names the helper that ended. -/
def State.wakeHexit (s : State) (k : Nat) (w : Wake) : State :=
  if s.helpersGone k then s.wakeIf (fun d t => t.kind = .hexit && coreOf d == k) w else s

/-- A helper started by HSTART ends with an exit value (R107, R108, R337). -/
def State.endHelper (s : State) (cid : Nat) (v : Word) (w : Wake) : State :=
  ((s.endContext cid).writeLatch cid v w).wakeHexit (coreOf cid) w

/-- A control context's share of its launch ends (R107, R307). -/
def State.endControl (s : State) (cid key rank : Nat) (task v : Word) : State :=
  let s := s.endContext cid
  let s := s.modLaunch key fun l => { l with exits := tput l.exits rank v }
  s.checkDone key task (coreOf cid)

/-- A dispatched task completes (R320, R321): its counters are decremented by its dispatcher, and it is gone once they are. -/
def State.completeTask (s : State) (t : TaskEntry) (core : Nat) : State :=
  let d := dieOfCore core
  let s := s.freeStackOf t
  let n := t.nsucc
  if n = 0 then s.taskGone t.launch t.id core
  else s.modDie d fun x => { x with decrements := x.decrements ++ (List.range n).map fun i =>
    ⟨t.succ + word (16 * i), t.satp, t.id, core, t.launch⟩ }

/-- Remove a task's entry from a core's bobbin, which refills where 8 or fewer remain (R316). -/
def State.dropEntryOf (s : State) (k : Nat) (id : Word) : State :=
  (s.modCore k fun c => { c with bobbin := c.bobbin.filter fun e => e.id ≠ id }).refillBobbin k

/-- A dispatched task executes HEXIT (R107, R321): it completes, or its range entry returns to the bobbin as not running. -/
def State.taskExit (s : State) (cid : Nat) (t : TaskEntry) : State :=
  let k := coreOf cid
  let s := s.endContext cid
  if t.range && t.cur < t.hi then
    s.modCore k fun c => { c with bobbin := c.bobbin.map fun e => if e.id = t.id then { t with running := none } else e }
  else (s.dropEntryOf k t.id).completeTask t k

/-- A task ends without completion (R337): its stack is freed and the live count falls. -/
def State.killTask (s : State) (t : TaskEntry) (core : Nat) (task : Word) : State :=
  (s.freeStackOf t).taskGone t.launch task core

/-- Fault-queue entry `p` takes a state (R332, R337). -/
def State.fqState (s : State) (p st : Nat) (d : Nat) : State := s.homeWrite (p + 0x38) 8 st ⟨0, pcode 8 d, s.now, 0, false⟩ 0

/-- The exit value of what TKILL ends. -/
def killedValue : Word := allOnes

/-- A helper as the producer of what its end brings about (R107, R108): its task, and the core it ran on. -/
def State.byHelper (s : State) (cid : Nat) (task : Word) : Wake := ⟨task, pcode 0 (s.reportCore (coreOf cid)), s.now, 0, false⟩

/-- A saved helper that HSTART started is killed (R337): its latch is written and its slot becomes Idle. -/
def State.killSavedHelper (s : State) (v : Saved) : State :=
  let s := match v.fq with
    | some p => s.fqState p 2 (dieOf v.cid)
    | none => s
  let (s, id) := s.homeRead v.fixedAt 8
  let w := s.byHelper v.cid (word id)
  let s := ((s.dropSaved v.key).modCtx v.cid fun c => c.vacate .idle).slotFreed v.cid
  (s.writeLatch v.cid killedValue w).wakeHexit (coreOf v.cid) w

/-- Whether a context is live (R95). -/
def Ctx.isLive (c : Ctx) : Bool := c.status = .running || c.status = .waiting || c.status = .frozen

/-- Whether a context stands at a boundary where it can be ended (R114): Frozen, or with no packet open and Running with no reply outstanding, or
in a blocking wait or FALIGN. -/
def Ctx.endable (c : Ctx) : Bool :=
  c.status = .frozen || (c.packet.isNone && c.request.isNone &&
    (c.status = .running || (c.status = .waiting && (c.wait.map fun w => w.kind) != some .reply)))

/-- A context ends without a save (R313, R337): its stores are performed, and the latch of a helper that HSTART started takes the value of a
kill. -/
def State.killNow (s : State) (cid : Nat) : State :=
  let s := s.drainStores cid
  let c := s.ctx cid
  if c.hstarted then s.endHelper cid killedValue (s.byHelper cid c.qtid) else s.endContext cid

/-- A live context is stopped and ended (R313, R337): at once where it stands at a boundary, else at its next one. -/
def State.killCtx (s : State) (cid : Nat) : State :=
  if (s.ctx cid).endable then s.killNow cid else s.modCtx cid fun c => { c with stop := some ⟨false, false, none, true⟩ }

/-- Every helper of a killed control context's core that HSTART started ends with it (R337). -/
def State.killHelpers (s : State) (k : Nat) : State :=
  let s := (List.range 10).foldl (fun s j =>
    let c := s.ctx (k * 12 + j + 1)
    if c.hstarted && c.isLive then s.killCtx (k * 12 + j + 1) else s) s
  (s.saved.filter fun v => v.hstarted && coreOf v.cid == k).foldl (fun s v => s.killSavedHelper v) s

/-- The share in its launch of a control context that TKILL ended ends once no helper of its core is left (R337). -/
def State.finishKill (s : State) (k : Nat) : State :=
  match s.saved.find? fun v => v.ending.isSome && coreOf v.cid == k with
  | none => s
  | some v =>
    let s := s.killHelpers k
    if s.helpersGone k then (s.dropSaved v.key).endControl v.cid v.launch v.rank (v.ending.getD 0) killedValue else s

/-- The physical addresses of the entries in a die's fault queue (R332). -/
def State.fqEntries (s : State) (d : Nat) : List Nat :=
  let x := s.die d
  (List.range x.fqCount).map fun i => s.ownPa d (x.fqAddr (x.fqhead.toNat + i))

/-- Every entry of a launch's tasks in the fault queues takes STATE 2, as a TKILL of it gives (R313, R337). -/
def State.killEntries (s : State) (l : Launch) : State :=
  (s.dies.map (·.1)).foldl (fun s d => (s.fqEntries d).foldl (fun s p =>
    let (s, e) := s.homeReadLines p 1
    if e % 2 ^ 64 / 2 ^ 32 = s.launchId l / 2 ^ 32 ∧ e >>> 448 % 4 = 0 then s.fqState p 2 d else s) s) s

/-- The tasks and saved contexts of a launch that is stopped end as by TKILL (R313). Tasks that had completed still lower their counters (R320). -/
def State.clearMember (s : State) (key : Nat) : State :=
  match s.launchAt key with
  | none => s
  | some l =>
    let mine (t : TaskEntry) : Bool := t.launch == key
    let clearCore (c : Core) : Core := { c with bobbin := c.bobbin.filter (!mine ·), arriving := c.arriving.filter (!mine ·.2) }
    let clearDie (x : Die) : Die :=
      { x with ready := x.ready.filter (!mine ·)
               stagings := x.stagings.map fun g => if g.task.any fun id => id.toNat / 2 ^ 32 = s.launchId l / 2 ^ 32 then g.cancel s.now else g }
    let s := (s.cores.map (·.1)).foldl (fun s k => s.ringKeep k (!mine ·)) s
    let s := { s with cores := s.cores.map (fun (k, c) => (k, clearCore c)), dies := s.dies.map (fun (d, x) => (d, clearDie x)) }
    let gone := s.saved.filter fun v => v.launch == key
    let s := gone.foldl (fun s v =>
      let s := s.dropSaved v.key
      if (s.ctx v.cid).status = .reserved then (s.modCtx v.cid fun c => c.vacate .idle).slotFreed v.cid else s) s
    s.killEntries l

/-- The previous launch of a time-triggered entry is stopped (R313): its contexts are stopped and ended, its tasks end as by TKILL, and, once
no context of it is left, its completion is written with status 3; the tasks-done event goes before it where tasks were live (R307). -/
def State.stopMember (s : State) (key : Nat) : State :=
  match s.launchAt key with
  | none => s
  | some l =>
    let s := s.setLaunch key { l with stopping := true }
    let s := ((s.ctxs.filter fun q => q.2.launch == key && q.2.isLive).map (·.1)).foldl (fun s c => s.killCtx c) s
    let s := s.clearMember key
    if s.ctxs.any fun q => q.2.launch == key && q.2.isLive then s
    else (if l.taskMode && l.live ≠ 0 then s.tasksDone l 0 (pcode 8 l.die) else s).endLaunch key 3 0 (pcode 8 l.die)

/-- A context of a core and a launch has ended, or been parked: what waited for that goes on (R313, R337). -/
def State.ended (s : State) (k key : Nat) : State :=
  let s := s.finishKill k
  match s.launchAt key with
  | some l => if l.stopping then s.stopMember key else s
  | none => s

/-- A context that a kill has stopped ends (R313, R337). -/
def State.endKilled (s : State) (cid : Nat) : State := (s.killNow cid).ended (coreOf cid) (s.ctx cid).launch

/-- Every member of a gang stops with it (R313, R326). -/
def State.stopLaunch (s : State) (key : Nat) : State :=
  (match s.launchAt key with
   | some l => if l.gang = [] then [key] else l.gang
   | none => []).foldl (fun s k => s.stopMember k) s

/-- The launch record VA of a time-triggered entry: REC is a multiple of 256, and a value that is not counts as the next lower one (R312;
log entry 78). -/
def TTEntry.recVa (e : TTEntry) : Word := e.record &&& ~~~0xFF#64

/-- The clusters of the placement that a time-triggered entry's record names now (R312). -/
def State.ttPlacement (s : State) (e : TTEntry) : List Nat :=
  match s.readLaunchRecord e.die.toNat e.satp e.recVa.toNat with
  | some (_, w) =>
    let p := w.getD 3 0
    ((List.range (bits p 29 16)).map fun i => clusterOfCore (bits p 13 0 + i)).eraseDups
  | none => []

/-- A time-triggered entry makes a launch of its record (R312). -/
def State.ttLaunch (s : State) (i : Nat) (waits : Bool) : State :=
  let e := s.ttEntry i
  let d := e.die.toNat
  let home := match s.xlate (dispView d e.satp) needR e.recVa.toNat with
    | .ok (_, x) => x.slice
    | .error _ => 0
  let (k, h) := routeOf (sliceRouter home) (dispRouter d)
  let l := { newLaunch s.lseq e.recVa e.satp [] d s.now (6 * h + 48 * k) with tt := some i }
  match s.takeRecord l with
  | none => s
  | some t =>
    let made := t.launchAt s.nextKey
    let e := { t.ttEntry i with
      last := if waits || made.isNone then (t.ttEntry i).last else some s.nextKey
      waiting := waits && made.isSome }
    t.setTT i e

/-- The launches of a time-triggered entry that have not completed (R313). -/
def State.ttPending (s : State) (i : Nat) : List Nat := (s.launches.filter fun q => q.2.tt == some i).map (·.1)

/-- The clusters of an enabled entry's placement are kept out of power gating (R312, R397): one that is gated wakes. -/
def State.ungate (s : State) (gs : List Nat) : State :=
  gs.foldl (fun s g => if (s.cluster g).gated then s.modCluster g fun c => { c with gated := false, idleSince := s.now } else s) s

/-- TT_SLOT_FIRE (R312, R313): at a slot of an active entry on the 64-bit timebase (R12), once. The dispatcher of a live DIE reads the placement at
each firing; a DIE that is absent has none (R2). -/
def State.ttFire (s : State) (i : Nat) : State :=
  let e := s.ttEntry i
  let p := max 1000 e.period.toNat
  if !e.en || 512 ≤ i || !s.host.up || !s.dieLive e.die.toNat || (s.die e.die.toNat).stopped || s.now % 2 ^ 64 % p ≠ e.phase.toNat % p || e.fired = some s.now then s
  else
    let e := { e with fired := some s.now, placed := s.ttPlacement e }
    let s := (s.setTT i e).ungate e.placed
    let skip (s : State) : State := s.setTT i { e with skips := e.skips + 1 }
    if s.ttPending i = [] then s.ttLaunch i false
    else match e.ovr.toNat with
      | 1 => if e.waiting then skip s else s.ttLaunch i true
      | 2 =>
        let s := (s.ttPending i).foldl (fun s k => s.stopLaunch k) s
        s.ttLaunch i (s.ttPending i != [])
      | _ => skip s

end Sys2Proof.Machine
end

