-- ==== Sys2Proof/Machine/Preempt.lean ====
section
/-! DEFINITION. Pre-emption, parks and what resumes a saved context (R114, R310, R332, R337), stealing (R318, R319), displacement, and
working-set staging (R294, R327 to R330). -/

namespace Sys2Proof.Machine

/-- Whether a context can take a request to stop: Running or Waiting, and not stopping already (R114). -/
def Ctx.stoppable (c : Ctx) : Bool := (c.status = .running || c.status = .waiting) && c.stop.isNone && !c.haltReq

/-- A pre-emption request reaches a context (R114). -/
def State.requestStop (s : State) (cid : Nat) (q : StopReq) : State := s.modCtx cid fun c => { c with stop := some q }

/-- The contexts of every member of a launch's gang (R310), and the Reserved slots of those that are saved. -/
def State.gangContexts (s : State) (key : Nat) : List Nat :=
  let keys := match s.launchAt key with
    | some l => l.gang
    | none => []
  ((s.ctxs.filter fun q => keys.contains q.2.launch && q.2.status != .idle && q.2.status != .reserved).map (·.1)) ++
    ((s.saved.filter fun v => keys.contains v.launch && (s.ctx v.cid).status == .reserved).map (·.cid))

/-- A request that finds its context Reserved, Frozen or already stopping is dropped, and counted on the context's die (R114). -/
def State.askStop (s : State) (cid : Nat) (q : StopReq) : State :=
  if (s.ctx cid).stoppable then s.requestStop cid q else s.dropRequest (dieOf cid)

/-- A write of PREEMPT in a die's dispatcher block (R310): of one context, or of every context of every member of its gang. -/
def State.preemptWrite (s : State) (d : Nat) (v : Word) : State :=
  let cid := s.ownCtx d (bits v 16 0)
  let hold := bit v 18
  let c := s.ctx cid
  if dieOf cid ≠ d || Config.coreCount * 12 ≤ cid || ctxNum cid = 11 || !c.isLive then s.dropRequest d
  else
    let gang := bit v 17 && (match s.launchAt c.launch with
      | some l => l.gang != []
      | none => false)
    if gang then (s.gangContexts c.launch).foldl (fun s k => s.askStop k ⟨hold, true, none, false⟩) s
    else s.askStop cid ⟨hold, false, none, false⟩

/-- A dispatched task that has been stopped returns to its die's ready queue with its record addresses (R310). -/
def State.requeue (s : State) (d : Nat) (t : TaskEntry) (key : Nat) : State :=
  (s.cancelStaging t.id false).enqueueReady d { t with saved := some key, running := none }

/-- What follows a save (R310), by the request it was made for. -/
def State.afterSave (s : State) (v : Saved) (q : StopReq) : State :=
  let d := dieOf v.cid
  let s := match v.task with
    | some t => s.dropEntryOf (coreOf v.cid) t.id
    | none => s
  let s := s.modCluster (clusterOf v.cid) fun g => { g with idleSince := s.now }
  if q.gang then s.modSaved v.key fun u => { u with gang := true, wants := true }
  else match v.task with
    | none => s.modSaved v.key fun u => { u with wants := true }
    | some t =>
      let s := s.requeue d t v.key
      match q.forTask with
      | none => s
      | some id =>
        -- the freed slot takes the task that the displacement was made for
        match (s.die d).ready.zipIdx.find? fun p => p.1.id == id with
        | some (w, i) =>
          if s.mayRun w (coreOf v.cid) then (s.modDie d fun x => { x with ready := x.ready.eraseIdx i }).startTask w v.cid (s.effective w) else s
        | none => s

/-- A stopped context that goes to the fault queue (R310, R332): HOLD = 1. -/
def State.holdSave (s : State) (cid : Nat) (q : StopReq) : State :=
  let d := dieOf cid
  let c := s.ctx cid
  if (s.die d).fqFull then
    s.modCtx cid fun c => { c with status := .frozen, held := some ⟨0, 0, s.now, true⟩ }
  else match s.saveContext cid with
    | none => (s.dropRequest d).modCtx cid fun c => { c with stop := none }
    | some (s, v) =>
      let s := match v.task with
        | some t => (s.dropEntryOf (coreOf cid) t.id).cancelStaging t.id false
        | none => s
      let (s, p) := s.pushFault d c.qtid v.fixedAt v.memAt 0 (fqFlags cid c true) (ctxNum cid) 0 c.sepc (coreOf cid)
        ((c.task.map TaskEntry.record).getD 0)
      s.modSaved v.key fun u => { u with fq := some p, gang := q.gang }

/-- CONTEXT_SAVE (R114 to R117, R310): a context that is stopping, at an instruction boundary, with no packet open, or in a blocking
wait. One that is to end is not saved (R313, R337). -/
def State.contextSave (s : State) (cid : Nat) : State :=
  let c := s.ctx cid
  match c.stop with
  | none => s
  | some q =>
    if (s.die (dieOf cid)).stopped || s.waysHold cid then s
    else if q.kill then (if c.endable then s.endKilled cid else s)
    else if !((c.status = .running && c.packet.isNone && c.request.isNone) || c.saveNow) then s
    else if q.hold then s.holdSave cid q
    else match s.saveContext cid with
      | none => (s.dropRequest (dieOf cid)).modCtx cid fun c => { c with stop := none }
      | some (s, v) => s.afterSave v q

/-- PARK (R113, R332): a context that an exception froze is saved and entered in the fault queue; its task's entry leaves the bobbin. -/
def State.parkEvent (s : State) (cid : Nat) : State :=
  let c := s.ctx cid
  match c.held with
  | some h =>
    if s.waysHold cid then s
    else if c.stop.any (·.kill) then s.endKilled cid
    else if c.status = .frozen && h.parking then
      let t := s.parkContext cid
      if (t.ctx cid).status = .frozen || (t.ctx cid).status = .running then t
      else match c.task with
        | some e => (t.dropEntryOf (coreOf cid) e.id).cancelStaging e.id false
        | none => t
    else s
  | none => s

/-- Whether a saved context's own slot can take it back now (R96, R310). -/
def State.slotReady (s : State) (v : Saved) : Bool :=
  (s.ctx v.cid).status = .reserved && s.coreAvailable (coreOf v.cid)

/-- Restore a saved context into a slot, with the start record of a TRESUME (R364). -/
def State.restoreAt (s : State) (v : Saved) (cid : Nat) : Option State :=
  (s.restoreInto v cid).map fun s => match v.resume with
    | some w => s.edge (dieOf cid) (s.ctx cid).qtid w 11
    | none => s

/-- Restore every member of a gang, or none where one cannot be (R310, R326). Tasks take back the slots they had. -/
def State.restoreAll (s : State) (vs : List Saved) : Option State :=
  match vs with
  | [] => some s
  | v :: t => do
    let c := s.ctx v.cid
    if c.status = .reserved || (v.task.isSome && c.status = .idle && !s.claimed v.cid) then
      let s ← s.restoreAt ((s.savedAt v.key).getD v) v.cid
      s.restoreAll t
    else none

/-- CONTEXT_RESTORE (R310, R326): a control context or a helper that HSTART started goes back to its Reserved slot; a gang goes back as a
whole. A dispatched task is resumed as a dispatch. -/
def State.contextRestore (s : State) (i : Nat) : State :=
  match s.saved[i]? with
  | none => s
  | some v =>
    if !v.wants || v.ending.isSome || (s.die (dieOf v.cid)).stopped then s
    else if v.gang then
      let keys := match s.launchAt v.launch with
        | some l => l.gang
        | none => [v.launch]
      let vs := s.saved.filter fun u => u.gang && keys.contains u.launch && u.ending.isNone
      -- not while a member is still to be saved
      let saving := s.ctxs.any fun q => keys.contains q.2.launch && q.2.stop.any (·.gang)
      if !saving && vs.all fun u => u.wants && s.coreAvailable (coreOf u.cid) then (s.restoreAll vs).getD s else s
    else if s.slotReady v then (s.restoreAt v v.cid).getD s
    else s

/-- PRIORITY_DISPLACEMENT (R310): the ready task at place `i` of a die has been at effective priority 7 for a further A, with no helper slot
for it nor one freeing in that time; the running dispatched task of lowest PRIO below 7, oldest dispatch first, is stopped for it. -/
def State.displace (s : State) (d i : Nat) : State :=
  match (s.die d).ready[i]? with
  | none => s
  | some t =>
    let a := max 1 (bits s.qmaging 31 0)
    let waiting := t.tReady + (7 - t.prio) * a + a ≤ s.now
    let asked := s.ctxs.any fun q => (q.2.stop.map fun r => r.forTask == some t.id).getD false
    let freeSlot := (List.range 5120).any fun n =>
      let cid := (d * 512 + n / 10) * 12 + n % 10 + 1
      (s.ctx cid).status == .idle && !s.claimed cid && s.coreLive (coreOf cid) && s.mayRun t (coreOf cid) && s.coreAvailable (coreOf cid)
    let freedNow := (List.range 512).any fun n =>
      let k := d * 512 + n
      s.coreLive k && s.mayRun t k && decide (s.now < (s.core k).freed + a) && (s.core k).freed ≠ 0
    let cands := s.ctxs.filter fun q => dieOf q.1 == d && q.2.status != .frozen && q.2.stoppable && s.mayRun t (coreOf q.1) &&
      (match q.2.task with
       | some r => r.prio < 7
       | none => false)
    let best := cands.foldl (fun b q => match b with
      | none => some q
      | some p =>
        let x : Nat × Nat := (q.2.task.map fun r => (r.prio, r.dispatched)).getD (8, 0)
        let y : Nat × Nat := (p.2.task.map fun r => (r.prio, r.dispatched)).getD (8, 0)
        if x.1 < y.1 ∨ (x.1 = y.1 ∧ x.2 < y.2) then some q else b) none
    match best with
    | some q => if waiting && !asked && !freeSlot && !freedNow then s.requestStop q.1 ⟨false, false, some t.id, false⟩ else s
    | none => s

/-- The cores that a thief's neighbour port searches, in order (R318). -/
def stealOrder (k : Nat) : List Nat :=
  let base := k / 4 * 4
  let c1 := [base + (k + 1) % 4, base + (k + 2) % 4, base + (k + 3) % 4]
  let die := dieOfCore k
  let ring := ((List.range 511).map fun j => die * 512 + (k + 1 + j) % 512).filter fun c => clusterOfCore c ≠ clusterOfCore k
  let near := ring.filter fun c =>
    let r := routeOf (clusterRouter (clusterOfCore k)) (clusterRouter (clusterOfCore c))
    r.1 + r.2 ≤ 1
  c1 ++ near ++ ring.filter fun c => !near.contains c

/-- Add one to each successor counter of a split range task (R319), from counter `i` on: none where one cannot take it. -/
def State.raiseCounters (s : State) (v : View) (succ i n : Nat) : Option State :=
  match n with
  | 0 => some s
  | k + 1 => do
    let (s, x) ← s.counterAt v (succ + 16 * i)
    let (s, c) := s.homeReadX x 0 4
    if c = 0 || c = 2 ^ 32 - 1 then none
    else
      let s := s.homeWriteX x 0 4 (c + 1) ⟨0, pcode 8 (v.g - 2048), s.now, 0, false⟩ 0
      s.raiseCounters v succ (i + 1) k

/-- What a thief can take of a victim's entries, oldest first (R319): the state without it, and the task the thief starts. A half has no stack
yet, and needs one of its own (R126). -/
def State.stealFrom (s : State) (k victim : Nat) (es : List (TaskEntry × Bool)) : Option (State × TaskEntry) :=
  match es with
  | [] => none
  | (e0, inRing) :: rest =>
    -- an entry of the ring is what its record says (R316)
    let (s1, e1) := if inRing then s.ringEntry victim 0 else (s, some (e0, true))
    let (e, valid) := e1.getD (e0, true)
    let take : Option (State × TaskEntry) :=
      if e.running.isNone then
        -- one whose record has become invalid stays for the refill that parks it (log entry 72)
        if !valid || !s.mayRun e k then none
        else
          let s := (s1.cancelStaging e.id true).modCore victim fun c =>
            if inRing then { c with ring := c.ring.drop 1, qdeqsize := ringWord c.qdeqsize (bits c.qdeqsize 59 40 + 1) (c.ring.length - 1) }
            else { c with bobbin := c.bobbin.filter fun t => t.id ≠ e.id }
          some (s.refillBobbin victim, { e with stolen := true })
      else if 2 * e.grain ≤ e.hi - e.cur && s.mayRun { e with stack := none, saved := none } k then
        let mid := e.cur + (e.hi - e.cur + 1) / 2
        match s.raiseCounters (dispView (dieOfCore k) e.satp) e.succ.toNat 0 e.nsucc with
        | none => none
        | some s =>
          let (s, id) := s.newId e.launch (dieOfCore k)
          let s := s.modLaunch e.launch fun l => { l with live := l.live + 1 }
          let s := s.modCore victim fun c => { c with bobbin := c.bobbin.map fun t => if t.id = e.id then { t with hi := mid } else t }
          let s := match e.running with
            | some cid => s.modCtx cid fun c => { c with task := c.task.map fun t => { t with hi := mid } }
            | none => s
          some (s, { e with id := id, cur := mid, running := none, stack := none, tReady := s.now, prodTask := e.id,
                            prodCode := pcode 0 (s.reportCore victim), prodAt := s.now, rtype := 12, dispatched := 0, saved := none, stg := 0, stolen := true })
      else none
    match take with
    | some r => some r
    | none => s.stealFrom k victim rest

/-- The first victim of a list that yields a task (R318). -/
def State.stealSearch (s : State) (k : Nat) (victims : List Nat) : Option (State × TaskEntry) :=
  match victims with
  | [] => none
  | v :: rest =>
    let c := s.core v
    let es : List (TaskEntry × Bool) := ((c.ring.take 1).map fun e => (e, true)) ++ (c.bobbin.map fun e => (e, false))
    let isVictim := match es.head?.bind fun p => s.launchAt p.1.launch with
      | some l => l.hasCore k
      | none => false
    match (if isVictim then s.stealFrom k v es else none) with
    | some r => some r
    | none => s.stealSearch k rest

/-- Whether a core's bobbin, its ring included, holds an entry that it may run (R316, R318). -/
def State.ownWork (s : State) (k : Nat) : Bool :=
  ((s.core k).bobbin.any fun t => t.running.isNone && s.mayRun t k) || (s.ringFrom k 0 (s.core k).ring.length).2.any fun e => e.2 && s.mayRun e.1 k

/-- STEAL (R318, R319): an Idle helper slot of a core that has nothing of its own to run takes a task, which claims the slot and starts there
at its dispatch. -/
def State.stealEvent (s : State) (cid : Nat) : State :=
  let k := coreOf cid
  if (s.ctx cid).status ≠ .idle || s.claimed cid || ctxNum cid = 0 || ctxNum cid = 11 || Config.coreCount ≤ k || !s.coreAvailable k || (s.die (dieOf cid)).stopped ||
      s.ownWork k ||
      ((s.die (dieOf cid)).ready.any fun t => s.mayRun t k) then s
  else match s.stealSearch k (stealOrder k) with
    | some (s, t) => s.modCore k fun c => { c with arriving := c.arriving ++ [(cid, t)] }
    | none => s

/-- The fault-queue entry at a physical address (R332, R337): the die whose queue it is in, if it is an entry. -/
def State.faultEntry (s : State) (p : Nat) : Option Nat :=
  if p % 128 ≠ 0 then none
  else (List.range Config.dieCount).find? fun d =>
    let x := s.die d
    let size := x.fqsize.toNat
    let base := s.ownPa d x.fqbase.toNat
    size ≠ 0 && base ≤ p && p < base + 128 * size &&
      decide (((p - base) / 128 + size - x.fqhead.toNat % size) % size < x.fqCount)

/-- TRESUME of an entry (R337): what it names is restored, dispatched, or resumed with its gang. -/
def State.resumeEntry (s : State) (p d : Nat) (w : Wake) : State :=
  let (s, e) := s.homeReadLines p 1
  let s := s.fqState p 1 d
  let w18 := e >>> 192 % 2 ^ 64
  let core := s.ownCoreOf d (e >>> 384 % 2 ^ 13)
  match s.saved.find? fun v => v.fq == some p with
  | some v =>
    -- the entry names it no longer: its slot may be written again before the context is restored
    let s := s.modSaved v.key fun u => { u with fq := none }
    if v.gang then
      let keys := match s.launchAt v.launch with
        | some l => l.gang
        | none => [v.launch]
      { s with saved := s.saved.map fun u =>
          if u.gang && keys.contains u.launch then { u with wants := true, resume := some w } else u }
    else match v.task with
      | some t => s.requeue (dieOfCore core) { t with prodTask := w.task, prodCode := w.code, prodAt := w.arrival, rtype := 11 } v.key
      | none => s.modSaved v.key fun u => { u with wants := true, resume := some w }
  | none =>
    if w18.testBit 8 then
      -- an entry with no context is dispatched as a released task
      let id := word (e % 2 ^ 64)
      let rec_ := e >>> 512
      let key := (s.launches.find? fun q => s.launchId q.2 / 2 ^ 32 == id.toNat / 2 ^ 32).map (·.1)
      match key.bind fun k => (s.launchAt k).map fun l => (k, l) with
      | some (k, l) =>
        let t := { entryOf rec_ (word (e >>> 256)) l.satp k with id := id, prodTask := w.task, prodCode := w.code, prodAt := w.arrival }
        -- a record that is still invalid, or has no allowed die, is parked again (R320; log entry 83)
        if !recordValid rec_ then s.parkRecord d t core 0 id
        else (match s.placeDie l t d with
         | some dd => s.enqueueReady dd t
         | none => s.parkRecord d t core 0 id)
      | none => s
    else s

/-- TKILL of an entry (R337). -/
def State.killEntry (s : State) (p d : Nat) (w : Wake) : State :=
  let (s, e) := s.homeReadLines p 1
  let s := s.fqState p 2 d
  match s.saved.find? fun v => v.fq == some p with
  | none =>
    -- a released task that never ran is live no more
    (match s.launches.find? fun q => s.launchId q.2 / 2 ^ 32 == e % 2 ^ 64 / 2 ^ 32 with
     | some (k, _) => if (e >>> 192).testBit 8 then s.taskGone k w.task (coreOf s.cur) else s
     | none => s)
  | some v =>
    match v.task with
    | some t => (s.dropSaved v.key).killTask t (coreOf s.cur) w.task
    | none =>
      if v.hstarted then s.killSavedHelper v
      else
        (s.modSaved v.key fun u => { u with ending := some w.task }).finishKill (coreOf v.cid)

/-- Outstanding staged bytes of a cluster: (L2, scratchpad), over the admitted stagings of its cores (R328). -/
def State.stagedBytes (s : State) (g : Nat) : Nat × Nat :=
  s.dies.foldl (fun a q => (q.2.stagings.filter fun t => t.admitted && clusterOfCore t.core == g).foldl (fun a t =>
    t.entries.foldl (fun (x, y) e => if e.done || e.cancelled then (x, y) else if e.scratch then (x, y + e.len) else (x + e.len, y)) a) a) (0, 0)

/-- Whether a bobbin entry has a declaration (R327, R328): one that is staged, or was when its task started; an invalid one counts as absent. -/
def State.declared (s : State) (t : TaskEntry) : Bool := (s.stagingOf t.id none).isSome || bits t.stg 23 20 != 0

/-- Whether a task's working set is within its core's horizon (R328): among the H newest bobbin entries that have a declaration, or a
ready task. -/
def State.inHorizon (s : State) (g : Staging) : Bool :=
  match g.task with
  | none => true
  | some id =>
    let c := s.core g.core
    let decl := (c.bobbin.reverse.filter s.declared).take (bits s.qmstage 3 0)
    !(c.bobbin.any fun t => t.id == id) || decl.any fun t => t.id == id

/-- Newer entries displace older ones from a core's horizon: what has not started of their staging is cancelled (R330). -/
def State.trimHorizon (s : State) (k : Nat) : State :=
  (((s.core k).bobbin.reverse.filter s.declared).drop (bits s.qmstage 3 0)).foldl (fun s t => if t.running.isNone then s.cancelStaging t.id false else s) s

/-- The satp under which a task's staging translates. -/
def State.taskSatp (s : State) (id : Word) : Option Word :=
  let ts := (s.cores.flatMap fun q => q.2.bobbin ++ q.2.ring ++ q.2.arriving.map (·.2)) ++ (s.dies.flatMap fun q => q.2.ready)
  ((ts.find? fun t => t.id == id).map (·.satp)).or
    ((s.launches.find? fun q => s.launchId q.2 / 2 ^ 32 == id.toNat / 2 ^ 32).map fun q => q.2.satp)

/-- Translate a staging's entries at admission (R191, R328): an entry that does not translate is cancelled. -/
def State.translateStage (s : State) (d : Nat) (satp : Word) (es : List StageEntry) : State × List StageEntry :=
  match es with
  | [] => (s, [])
  | e :: t =>
    match s.accessPages (dispView d satp) .load needR (e.len / 4096 + 2) e.x.va (e.x.va + e.len) with
    | .ok (s, ps) =>
      let (s, r) := s.translateStage d satp t
      (s, { e with pages := ps, started := true } :: r)
    | .error _ =>
      let (s, r) := s.translateStage d satp t
      (s, { e with cancelled := true } :: r)

/-- Whether a staging may be admitted (R286, R328): the budget and the copy queue hold it, it is within its core's horizon, and H is not 0. -/
def State.admissible (s : State) (g : Staging) : Bool :=
  let cl := clusterOfCore g.core
  let (l2, sp) := s.stagedBytes cl
  let add := g.entries.foldl (fun (x, y) e => if e.scratch then (x, y + e.len) else (x + e.len, y)) (0, 0)
  !g.admitted && l2 + add.1 ≤ bits s.qmstage 7 4 * 0x80000 && sp + add.2 ≤ bits s.qmstage 15 8 * 0x4000 &&
  s.copyLoad cl + g.entries.length ≤ Config.copyQueueSize && s.inHorizon g && bits s.qmstage 3 0 ≠ 0

/-- The place of the staging of core `k` that comes next (R328): of a thread that is to start, then of its horizon from the newest entry on (DESIGN
CHOICE, log entry 100). -/
def State.nextStaging (s : State) (d k : Nat) : Option Nat :=
  let l := (s.die d).stagings.zipIdx.filter fun p => p.1.task.isSome && p.1.core == k && s.admissible p.1
  let ids := (s.core k).bobbin.reverse.map (·.id)
  ((l.find? fun p => p.1.task.any fun id => !ids.contains id).or
    (ids.findSome? fun id => l.find? fun p => p.1.task == some id)).map (·.2)

/-- The place of the task staging that a cluster's copy engine takes next, round robin over the cluster's cores (R328). -/
def State.turnStaging (s : State) (d cl : Nat) : Option Nat :=
  ((List.range 4).map fun j => cl * 4 + ((s.cluster cl).stageTurn + j) % 4).findSome? (s.nextStaging d)

/-- STAGING_ADMIT (R328, R294): within the budget and the horizon, and in its turn; a STGREQ ranks below every task staging of its cluster. -/
def State.stagingAdmit (s : State) (d i : Nat) : State :=
  match (s.die d).stagings[i]? with
  | none => s
  | some g =>
    let cl := clusterOfCore g.core
    let ranked := if g.task.isSome then s.turnStaging d cl == some i else !((s.die d).stagings.any fun h => h.task.isSome && !h.admitted && clusterOfCore h.core == cl && s.inHorizon h)
    if !ranked || !s.admissible g then s
    else
      let (s, es) := match g.task with
        | some id => s.translateStage d ((s.taskSatp id).getD 0) g.entries
        | none => (s, g.entries)
      let s := s.modDie d fun x => { x with stagings := x.stagings.set i ({ g with admitted := true, since := s.now, entries := es }.closed s.now) }
      let fills := (es.filter fun e => !e.scratch && !e.cancelled).flatMap fun e => e.lines.map fun x => (x, g.tid, e.write)
      s.modCluster cl fun c => { c with fills := c.fills ++ fills, stageTurn := if g.task.isSome then (g.core + 1) % 4 else c.stageTurn }

/-- A staging fill reaches its home (R328): the line's free sectors come into the target cluster's L2; tile sectors are skipped. -/
def State.stageFill (s : State) (g : Nat) (x : Xlat) (tid : BitVec 12) (excl : Bool) : State :=
  if s.cached x then s.acquireLine g x excl tid else s

/-- Forget the requests that an entry's fills still have on their way. -/
def State.dropFills (s : State) (g : Nat) (e : StageEntry) : State :=
  let isOne (x : Xlat) : Bool := e.lines.any fun y => y.pa == x.pa
  let s := s.modCluster g fun c => { c with fills := c.fills.filter fun f => !isOne f.1 }
  let keep (r : SlotReq) : Bool := match r.fill with
    | some (x, _, _) => !(r.g == g && isOne x)
    | none => true
  { s with slices := s.slices.map fun (i, k) => (i, { k with held := k.held.filter keep, waiting := k.waiting.filter keep }) }

/-- Copy a staged scratchpad entry, line by line (R328). -/
def State.stageCopy (s : State) (g : Nat) (tid : BitVec 12) (e : StageEntry) (task : Word) : State :=
  let w : Wake := ⟨task, pcode 1 (s.reportCluster g), s.now, 0, false⟩
  (List.range ((e.len + 127) / 128)).foldl (fun s i =>
    let n := min 128 (e.len - 128 * i)
    match s.readSpan g tid task e.pages 3 (e.x.va + 128 * i) n with
    | (s, .ok v) =>
      if e.spoff + 128 * i + n ≤ (s.cluster g).spSize then
        s.homeWrite (scratchAddr g (e.spoff + 128 * i)) n v w 0
      else s
    | (s, .error _) => s) s

/-- STAGING_ENTRY_COMPLETE (R328, R329): entry `n` of an admitted staging is fetched; the running task's qtstg shows it. -/
def State.stagingComplete (s : State) (d i n : Nat) : State :=
  match (s.die d).stagings[i]? with
  | none => s
  | some g =>
    match g.entries[n]? with
    | none => s
    | some e =>
      if !g.admitted || e.done || e.cancelled then s
      else
        let cl := clusterOfCore g.core
        let s := if e.scratch then s.stageCopy cl g.tid e (g.task.getD 0)
          else (e.lines.foldl (fun s x => s.stageFill cl x g.tid e.write) s).dropFills cl e
        let s := if e.evict && !e.scratch then e.lines.foldl (fun s x => s.firstOut cl (x.pa / lineBytes)) s else s
        let g := { g with entries := g.entries.set n { e with done := true } }.closed s.now
        let finished := g.ended.isSome
        let running := s.ctxs.find? fun q => q.2.isLive && g.task.any fun id => q.2.qtid == id && (ctxNum q.1 != 0 || coreOf q.1 == g.core)
        let s := match running with
          | some (cid, _) => s.modCtx cid fun c => { c with qtstg := c.qtstg ||| word (2 ^ n) }
          | none => s
        (s.modDie d fun x => { x with stagings :=
          if finished && (running.isSome || g.task.isNone) then x.stagings.eraseIdx i else x.stagings.set i g }).pumpCluster cl

/-- STAGING_DEADLINE (R329). -/
def State.stagingDeadline (s : State) (d i : Nat) : State :=
  match (s.die d).stagings[i]? with
  | none => s
  | some g =>
    if g.admitted && g.since + g.deadline ≤ s.now then
      s.modDie d fun x => { x with stagings := x.stagings.set i { g with expired := true } }
    else s

/-- STGREQ_ADMIT_TIMEOUT (R294): a request not admitted within TMO is dropped. -/
def State.stgreqTimeout (s : State) (d i : Nat) : State :=
  match (s.die d).stagings[i]? with
  | none => s
  | some g =>
    if g.task.isNone && !g.admitted && g.since + s.tmo ≤ s.now then s.modDie d fun x => { x with stagings := x.stagings.eraseIdx i } else s

/-- A request reaches a slice (R181): it takes a slot, or waits in its cluster's miss buffer, counted in WAITS where all 16 slots are in use; none
where the miss buffer is full too, so that it has not arrived. -/
def State.enterSlot (s : State) (sl : Nat) (r : SlotReq) : Option State :=
  let k := s.slice sl
  if s.slotFor k r then
    let n := k.held.length + 1
    some (s.setSlice sl { k with held := k.held ++ [r], peak := if k.peak.toNat < n then BitVec.ofNat 5 n else k.peak })
  else if Config.missBufferSize ≤ s.missUsed r.g then none
  else some (s.setSlice sl { k with waiting := k.waiting ++ [r], waits := if Config.requestSlots ≤ k.held.length then k.waits + 1 else k.waits })

/-- HOME_REQUEST_ARRIVAL (R181): the staging fill at place `i` of cluster `g` arrives at its home. -/
def State.requestArrival (s : State) (g i : Nat) : State :=
  match (s.cluster g).fills[i]? with
  | none => s
  | some f =>
    match s.enterSlot f.1.slice ⟨g, 0, some f, false⟩ with
    | some t => (t.modCluster g fun c => { c with fills := c.fills.eraseIdx i }).pumpCluster g
    | none => s

/-- Whether a request of a context stands at a slice. -/
def State.atHome (s : State) (cid : Nat) : Bool :=
  s.slices.any fun p => (p.2.held ++ p.2.waiting).any fun r => r.fill.isNone && !r.elem && r.cid == cid

/-- Whether an instruction waits for the vector engine's answer (R98): one that writes a scalar register. -/
def engineReplies (i : Instr) : Bool := match i with
  | .vpopc _ _ _ | .vfirst _ _ _ | .vsetl _ _ _ | .vextract _ _ _ => true
  | _ => false

/-- HOME_REQUEST_ARRIVAL (R181): the demand request of a context that has left the rotation arrives at its home. -/
def State.demandArrival (s : State) (cid : Nat) : State :=
  match (s.ctx cid).request with
  | some (.access _ _ (some sl)) => if s.atHome cid then s else (s.enterSlot sl ⟨clusterOf cid, cid, none, false⟩).getD s
  | _ => s

/-- The requests of a context leave the slices: answered, or no longer wanted. -/
def State.leaveSlots (s : State) (cid : Nat) : State :=
  let keep (r : SlotReq) : Bool := r.fill.isSome || r.elem || r.cid != cid
  { s with slices := s.slices.map fun (i, k) => (i, { k with held := k.held.filter keep, waiting := k.waiting.filter keep }) }

/-- Whether a request of a context still waits for a slot. -/
def State.inMissBuffer (s : State) (cid : Nat) : Bool := s.slices.any fun p => p.2.waiting.any fun r => r.fill.isNone && !r.elem && r.cid == cid

/-- Whether a core's cluster has room for one more entry in its shadow of a queue (R355). -/
def State.shadowRoom (s : State) (g : Nat) (x : Xlat) : Bool :=
  match (s.cluster g).shadows.find? fun h => h.queue.pa == x.pa with
  | some h => decide (h.entries.length < Config.shadowSize)
  | none => decide ((s.cluster g).shadows.length < Config.shadowCount)

/-- Whether the reply to a context that has left the rotation can have come (R98): its request has a slot of its home slice (R181), its entry has
left the vector queue (R135), or what it waits for has come about. -/
def State.replied (s : State) (cid : Nat) : Bool :=
  let c := s.ctx cid
  match c.request with
  | some (.access i _ home) =>
    (home.isNone || (s.atHome cid && !s.inMissBuffer cid)) && !s.waysHold cid && (!engineReplies i || !((s.liveQueue (coreOf cid)).any fun e => e.cid == cid))
  | some (.room (.qflush _) n) => n = 0
  | some (.room _ _) => (c.wait.map fun w => s.shadowRoom (clusterOf cid) w.obj).getD true
  | _ => false

/-- MISS_BUFFER_SLOT_ENTRY (R181): the oldest staging fill or element read of a slice is served and frees its slot (another demand request's slot
frees as its instruction retires), and the oldest waiting request that may enters, demand before staging. -/
def State.slotEntry (s : State) (sl : Nat) : State :=
  let k := s.slice sl
  let s := match k.held.find? fun r => r.fill.isSome || r.elem with
    | some r =>
      let s := s.setSlice sl { k with held := k.held.erase r }
      (match r.fill with
       | some (x, tid, excl) => s.stageFill r.g x tid excl
       | none => s)
    | none => s
  let k := s.slice sl
  match (k.waiting.findIdx? fun r => r.fill.isNone && s.slotFor k r).or (k.waiting.findIdx? (s.slotFor k)) with
  | some i =>
    (match k.waiting[i]? with
     | some r => s.setSlice sl { k with held := k.held ++ [r], waiting := k.waiting.eraseIdx i }
     | none => s)
  | none => s

end Sys2Proof.Machine
end

