-- ==== Sys2Proof/Machine/Debug.lean ====
section
/-! DEFINITION. The debug engine (R372 to R384): the debug block's commands, holds and frozen dumps, the sampling pulse, and replay
compare mode. -/

namespace Sys2Proof.Machine

/-- The results of a command (R376). -/
def State.dbgResult (s : State) (d r : Nat) : State := s.modDie d fun x => { x with result := BitVec.ofNat 3 r }

/-- A command on a context of a die: ignored while one runs or debug is off, refused where the context is not live there (R375, R376). -/
def State.dbgCommand (s : State) (d cid : Nat) (f : State → State) : State :=
  let x := s.die d
  if !x.den then s.dbgResult d 5
  else if x.dbgBusy.isSome then s
  else if dieOf cid ≠ d || Config.coreCount * 12 ≤ cid || ctxNum cid = 11 || !(s.ctx cid).isLive then s.dbgResult d 1
  else f s

/-- HALT (R118, R376): a drain halt. -/
def State.dbgHaltCmd (s : State) (d cid : Nat) : State :=
  s.dbgCommand d cid fun s =>
    let c := s.ctx cid
    if c.status = .frozen then s.dbgResult d 2
    else if !c.stoppable then s.dbgResult d 4
    else
      let s := s.dbgResult d 0
      if c.packet.isNone && ((c.status = .running && c.request.isNone) || (c.status = .waiting && (c.wait.map fun w => w.kind) != some .reply)) then s.haltNow cid
      else (s.modCtx cid fun c => { c with haltReq := true }).modDie d fun x => { x with dbgBusy := some cid }

/-- A forced halt (R119) by the kind of instruction that waits: a load is reissued on resume, and so is what still waits for its earlier events and
has sent nothing; an AMO's result is lost, and that of an EVWAIT whose wait has ended; a blocking wait stays pending. -/
def State.forceHalt (s : State) (cid : Nat) : State :=
  let c := s.ctx cid
  let stop (c : Ctx) : Ctx := { c with status := .frozen, haltReq := false, stepReq := false, stop := none, packet := none }
  let s := if c.stop.any (!·.kill) then s.dropRequest (dieOf cid) else s
  let clear (c : Ctx) : Ctx := { c with wait := none, wake := none, request := none }
  let lose (s : State) : State := ((s.leaveSlots cid).retireCtx cid).modCtx cid fun c => { stop (clear c) with lost := true }
  match c.status, c.wait with
  | .waiting, some w =>
    (match w.kind with
     | .reply =>
       if w.op0 = 0 || (w.op1 != 0 && s.owes cid) then (s.leaveSlots cid).modCtx cid fun c => stop (clear c) else lose s
     | .evwait => if c.wake.isSome then lose s else s.modCtx cid stop
     | .falign => s.modCtx cid fun c => stop (clear c)
     | _ => s.modCtx cid stop)
  | _, _ => s.modCtx cid stop

/-- FHALT (R119, R376). A context whose reply has come retires its instruction first, and then halts. -/
def State.dbgFhaltCmd (s : State) (d cid : Nat) : State :=
  s.dbgCommand d cid fun s =>
    let c := s.ctx cid
    if c.status = .frozen then s.dbgResult d 0
    else if c.status = .running && c.request.isSome then
      ((s.dbgResult d 0).modCtx cid fun c => { c with haltReq := true }).modDie d fun x => { x with dbgBusy := some cid }
    else (s.forceHalt cid).dbgResult d 0

/-- A Frozen context returns to the rotation; a held one executes its faulting instruction again (R376). -/
def Ctx.unfreeze (c : Ctx) : Ctx :=
  { c with status := if c.wait.isSome then .waiting else .running, held := none, haltReq := false }

/-- What a command that needs a Frozen context does. -/
def State.onFrozen (s : State) (d cid : Nat) (f : State → State) : State :=
  s.dbgCommand d cid fun s =>
    if (s.ctx cid).status = .frozen then f (s.dbgResult d 0) else s.dbgResult d 2

/-- RESUME and STEP (R376). -/
def State.dbgResumeCmd (s : State) (d cid : Nat) : State := s.onFrozen d cid fun s => s.modCtx cid Ctx.unfreeze
def State.dbgStepCmd (s : State) (d cid : Nat) : State :=
  s.onFrozen d cid fun s =>
    (s.modCtx cid fun c => { c.unfreeze with stepReq := true }).modDie d fun x => { x with dbgBusy := some cid }

/-- The record word at 8-byte offset `n` of a context: the fixed part, then the vector window (R376); none outside the record. -/
def State.dbgWord (s : State) (cid n : Nat) : Option Word :=
  let c := s.ctx cid
  if n < 256 then some (c.recordWord n)
  else if n - 256 < 128 * c.winSize then
    some (word ((s.vregAt (clusterOf cid) (c.winBase + (n - 256) / 128)).toNat >>> (64 * ((n - 256) % 128))))
  else none

/-- READ (R376). -/
def State.dbgReadCmd (s : State) (d cid n : Nat) : State :=
  s.onFrozen d cid fun s => match s.dbgWord cid n with
    | some v => s.modDie d fun x => { x with data := v }
    | none => s.dbgResult d 3

/-- The CSR that an 8-byte offset of the record holds. -/
def csrAtOffset (n : Nat) : Option Nat := match n with
  | 65 => some 0x003 | 66 => some 0x100 | 67 => some 0x141 | 68 => some 0x142 | 69 => some 0x143 | 70 => some 0x105 | 71 => some 0x140
  | 72 => some 0x180 | 73 => some 0xB02 | 74 => some 0x800 | 76 => some 0x802 | 77 => some 0x803 | 78 => some 0x804 | 79 => some 0x805
  | 80 => some 0x806 | 82 => some 0x807 | 83 => some 0x5C0
  | _ => none

/-- Offsets that WRITE may not change (R376). -/
def dbgReadOnly (n : Nat) : Bool :=
  n = 0 || n = 75 || (84 ≤ n && n < 96) || (108 ≤ n && n < 128) || (240 ≤ n && n < 256)

/-- WRITE (R376): a CSR takes the value as a CSR write would. -/
def State.dbgWriteCmd (s : State) (d cid n : Nat) : State :=
  s.onFrozen d cid fun s =>
    let v := (s.die d).data
    if dbgReadOnly n || (s.dbgWord cid n).isNone then s.dbgResult d 3
    else if n < 256 then match csrAtOffset n with
      | some a => s.csrWrite cid a v
      | none => s.modCtx cid fun c => c.setRecordWord n v
    else
      let r := (s.ctx cid).winBase + (n - 256) / 128
      let sh := 64 * ((n - 256) % 128)
      let old := (s.vregAt (clusterOf cid) r).toNat
      s.setVreg (clusterOf cid) r (BitVec.ofNat 8192 (old - (old >>> sh % 2 ^ 64) <<< sh + v.toNat <<< sh))

/-- DUMP (R376, R378). -/
def State.dbgDumpCmd (s : State) (d cid : Nat) : State :=
  s.onFrozen d cid fun s => match (s.settle cid).writeDump cid false true with
    | some s => s
    | none => s.dbgResult d 6

/-- ATTACH and DETACH (R376, R377). -/
def State.dbgAttachCmd (s : State) (d cid : Nat) : State :=
  s.dbgCommand d cid fun s => (s.modCtx cid fun c => { c with claimed := true }).dbgResult d 0
def State.dbgDetachCmd (s : State) (d cid : Nat) : State :=
  s.dbgCommand d cid fun s =>
    if (s.ctx cid).claimed then
      (s.modCtx cid fun c => { c with claimed := false, held := c.held.map fun (h : Held) => { h with since := s.now } }).dbgResult d 0
    else s.dbgResult d 2

/-- A write of DBGCMD (R375). -/
def State.dbgCmdWrite (s : State) (d : Nat) (v : Word) : State :=
  let cid := s.ownCtx d (bits v 20 4)
  let n := bits v 48 32
  match bits v 3 0 with
  | 1 => s.dbgHaltCmd d cid
  | 2 => s.dbgFhaltCmd d cid
  | 3 => s.dbgResumeCmd d cid
  | 4 => s.dbgStepCmd d cid
  | 5 => s.dbgReadCmd d cid n
  | 6 => s.dbgWriteCmd d cid n
  | 7 => s.dbgDumpCmd d cid
  | 8 => s.dbgAttachCmd d cid
  | 9 => s.dbgDetachCmd d cid
  | _ => if (s.die d).den then s else s.dbgResult d 5

/-- HOLD_TIMEOUT (R377): with no claim, a dump is written if the region has room, and the context is parked. -/
def State.holdTimeout (s : State) (cid : Nat) : State :=
  let c := s.ctx cid
  match c.held with
  | none => s
  | some h =>
    if c.status ≠ .frozen || h.parking || c.claimed || s.waysHold cid || (s.die (dieOf cid)).stopped || s.now < h.since + (s.die (dieOf cid)).holdtmo.toNat then s
    else
      let s := s.settle cid
      let s := (s.writeDump cid true false).getD s
      (s.modCtx cid fun c => { c with held := some { h with parking := true } }).parkEvent cid

/-- The sampled state of a context (R380): STATE, pc, task ID and wait kind. One whose stop has reached its wait is being saved (R114, R384). -/
def Ctx.sample (c : Ctx) : Nat × Nat × Word × Nat :=
  if c.saveNow || (c.status = .running && c.boundary && c.stop.isSome) || (c.status = .frozen && c.held.any (·.parking)) then
    (4, c.pc.toNat % 2 ^ 48, c.qtid, (c.wait.map fun w => w.kind.code).getD 0)
  else match c.status with
  | .idle => (0, 0, 0, 0)
  | .reserved => (5, 0, 0, 0)
  | .running => (1, c.pc.toNat % 2 ^ 48, c.qtid, 0)
  | .waiting => (2, c.pc.toNat % 2 ^ 48, c.qtid, (c.wait.map fun w => w.kind.code).getD 0)
  | .frozen => (3, c.pc.toNat % 2 ^ 48, c.qtid, (c.wait.map fun w => w.kind.code).getD 0)

/-- Runs of equal samples: (value, first, length). -/
def sampleRuns (i : Nat) (xs : List (Nat × Nat × Word × Nat)) : List ((Nat × Nat × Word × Nat) × Nat × Nat) :=
  match xs with
  | [] => []
  | x :: t => match sampleRuns (i + 1) t with
    | (y, _, n) :: r => if x = y then (y, i, n + 1) :: r else (x, i, 1) :: (y, i + 1, n) :: r
    | [] => [(x, i, 1)]

/-- The sample group of a cluster, written whole or not at all (R380). -/
def State.sampleCluster (s : State) (g : Nat) : State :=
  let d := dieOfCluster g
  let runs := sampleRuns 0 ((List.range 44).map fun j => (s.ctx ((g * 4 + j / 11) * 12 + j % 11)).sample)
  let n := runs.length
  let x := s.die d
  let room := 2 ^ x.logn.toNat - (x.tail - x.head).toNat
  let lies := (List.range (n + 1)).all fun i => isHbm (s.ownPa d x.rbbase.toNat + 32 * ((x.tail.toNat + i) % 2 ^ x.logn.toNat) + 31)
  if !x.en || (!x.wrap && room < n + 1) || !lies then s.modDie d fun x => { x with recDropped := x.recDropped + BitVec.ofNat 32 (n + 1) }
  else
    let s := s.putRecord d s.time (word (s.reportCluster g + n * 2 ^ 11)) (word s.pulses) (word (15 * 2 ^ 32))
    runs.foldl (fun s (v, first, len) =>
      s.putRecord d (word (v.2.1 + v.1 * 2 ^ 48 + first * 2 ^ 52 + len * 2 ^ 58)) v.2.2.1 (word v.2.2.2) (word (1 + 15 * 2 ^ 32))) s

/-- SAMPLING_PULSE (R379, R380): once at each of its times. -/
def State.samplePulse (s : State) : State :=
  let p := s.sampctl.toNat
  if p = 0 || s.now % 2 ^ 64 % p ≠ 0 || s.pulsed = some s.now then s
  else
    let s := { s with pulses := s.pulses + 1, pulsed := some s.now }
    ((List.range Config.clusterCount).filter fun g => s.clusterLive g).foldl (fun s g => s.sampleCluster g) s

/-- A write of SAMPCTL (R379), whose written bits are `m`: Reserved bytes alone are ignored (R4). -/
def State.sampctlWr (s : State) (v m : Word) : State :=
  let p := bits v 39 0
  if bits m 39 0 = 0 then s
  else { s with sampctl := BitVec.ofNat 40 (if p = 0 then 0 else max 10000 p), pulses := 0 }

/-- A write of REPLAY (R381): CMP keeps its value while a launch runs, and stores 0 on a module with a die fused off. -/
def State.replayWr (s : State) (v : Word) : State :=
  let r := s.replay
  let busy := s.launches.any fun p => p.2.running
  let cmp := if busy then r.cmp else bit v 0 && s.host.absent.isNone
  let r := if cmp && !r.cmp then { Replay.reset with divseen := r.divseen } else r
  { s with replay := { r with cmp := cmp, haltdiv := bit v 1, divseen := r.divseen && !bit v 2 } }

/-- The first entry of A's stream whose line has an entry in B's stream, with both places; within a line, entries keep their order. -/
def comparePlace (a b : List StreamEntry) : Option (Nat × Nat) :=
  (List.range a.length).findSome? fun i =>
    match a[i]? with
    | none => none
    | some e => if (a.take i).any fun d => d.line == e.line then none else (b.findIdx? fun d => d.line == e.line).map fun j => (i, j)

/-- The bytes on which two entries differ: every byte where one is a settle and the other is not. -/
def StreamEntry.differs (a b : StreamEntry) : BitVec 128 :=
  if a.settle ≠ b.settle then BitVec.allOnes 128
  else
    let bytes : BitVec 128 := BitVec.ofNat 128 ((List.range 128).foldl (fun m i =>
      if (a.mask.getLsbD i && b.mask.getLsbD i) && lineByte a.data i != lineByte b.data i then m + 2 ^ i else m) 0)
    (a.mask ^^^ b.mask) ||| bytes

/-- COMPARE_ENTRY (R382, R383) at a stack of partition A. -/
def State.compareAt (s : State) (st : Nat) : State :=
  let r := s.replay
  let a := (tfind r.streamA st).getD []
  let b := (tfind r.streamB st).getD []
  match comparePlace a b with
  | none => s
  | some (i, j) =>
    match a[i]?, b[j]? with
    | some x, some y =>
      let idx := (tfind r.counts x.line).getD 0
      let diff := x.differs y
      let r := { r with streamA := tput r.streamA st (a.eraseIdx i), streamB := tput r.streamB st (b.eraseIdx j)
                        counts := tput r.counts x.line (idx + 1) }
      let s := { s with replay := r }
      if diff = 0 || !r.cmp then s
      else
        -- only one divergence is reported per launch
        -- and none while what HALTDIV has halted stands (R384)
        if r.reported.contains x.launch || (r.halted.any fun c => (s.ctx c).haltReq || (s.ctx c).status = .frozen) then s
        else
          let stopped := (s.ctxs.filter fun q => q.2.stoppable).map (·.1)
          let s := { s with replay := { r with divseen := true, reported := r.reported ++ [x.launch], halted := if r.haltdiv then stopped else [] } }
          let d := storageStack (x.line * lineBytes) / 2
          let s := s.putEvent (s.kcoreOf d) 0x0C 0 x.task
            [word (x.line * lineBytes), y.task, word idx, Config.freeDiffMask diff] x.task (pcode 2 st)
          if r.haltdiv then
            let stop (c : Ctx) : Ctx := if c.stoppable then { c with haltReq := true } else c
            { s with ctxs := s.ctxs.map (fun q => (q.1, stop q.2)) }
          else s
    | _, _ => s

end Sys2Proof.Machine
end

