-- ==== Sys2Proof/Machine/Cfg.lean ====
section
/-! DEFINITION. Configuration space (R400, R405): the words of every block, read and written by bytes, and what a write of each starts. -/

namespace Sys2Proof.Machine

/-- A mask of the `n` bytes at byte `o` of a word. -/
def byteSpan (o n : Nat) : Word := word ((2 ^ (8 * n) - 1) * 2 ^ (8 * o))

/-- The spill of R178 step 2: every saved fixed record at or above the new size moves to its memory slot. -/
def State.spillAbove (s : State) (g size : Nat) : State :=
  (s.saved.filter fun v => v.hasCtx && v.fixedAt != v.memAt && (match regionOf v.fixedAt with
    | .scratch _ h off => h == g && decide (size < off + 2048)
    | _ => false)).foldl (fun s v => s.spill v) s

/-- A write of SPWAYS begins a change where it changes n (R178). -/
def State.cspartBegin (s : State) (g : Nat) (v : Word) : State :=
  let n := BitVec.ofNat 4 (min 8 (bits v 3 0))
  if n = (s.cluster g).spways then s else s.modCluster g fun c => { c with busy := true, nextWays := n }

/-- The lines that replacement has placed in the ways that pass to the scratchpad (R178). -/
def Cluster.passing (c : Cluster) : List Nat := (c.l2.filter fun p => decide (p.2.way < c.nextWays.toNat)).map (·.1)

/-- A context whose access waits at the bank units of cluster `g` presents it again (R178). -/
def Ctx.presentAgain (c : Ctx) (g : Nat) : Ctx := match c.request with
  | some (.mute pa _) => (match regionOf pa with
    | .scratch _ h _ => if h = g ∧ c.status = .waiting then { c with status := .running, wait := none, wake := none, request := none } else c
    | _ => c)
  | _ => c

/-- The change ends (R178 steps 2 to 5): records spilled, the passing ways' lines written back and removed, and every way that changes
hands cleared. -/
def State.cspartEnd (s : State) (g : Nat) : State :=
  let c := s.cluster g
  if !c.busy then s
  else
    let old := c.spSize
    let new := c.nextWays.toNat * 0x80000
    let s := if new < old then s.spillAbove g new else s
    let s := if old < new then (s.cluster g).passing.foldl (fun s l => (s.evictLine g l).landVictims (some g) l) s else s
    let lo := scratchAddr g (min old new)
    let hi := scratchAddr g (max old new)
    let s := { s with mem := s.mem.filter fun p => p.1 < lo || hi ≤ p.1 }
    let s := s.modCluster g fun c => { c with spways := c.nextWays, busy := false }
    -- what waited at the bank units is presented again, and the cluster's copy engine goes on
    ({ s with ctxs := s.ctxs.map fun (cid, c) => (cid, c.presentAgain g) } : State).pumpCluster g

/-- A write of CSPART as its writer sees it: performed once the change has ended (R178). -/
def State.cspartWr (s : State) (g : Nat) (v : Word) : State := (s.cspartBegin g v).cspartEnd g

/-- An ALIASCFG value as stored (R188). -/
def aliasStored (v : Word) : Word :=
  let f := bits v 5 1
  let en := bit v 0 && (f = 12 || f = 13 || f = 14)
  let sm := if bits v 7 6 = 3 then 0 else bits v 7 6
  word (bnat en + f * 2 + sm * 64 + bits v 26 16 * 2 ^ 16 + bits v 44 32 * 2 ^ 32)

/-- A session as its words hold it (R389). -/
def State.sessionWord (s : State) (j w : Nat) : Word :=
  let e := s.session j
  match w with
  | 0 => word (bnat e.valid + bnat (s.host.tdi.getLsbD (bnat e.port)) * 2 + bnat e.port * 4 + e.kslot.toNat * 16)
  | 1 => e.owner
  | 2 => word e.iv.toNat
  | 3 => word (e.iv.toNat >>> 64)
  | 4 => e.sbase
  | 5 => e.slimit
  | _ => 0

/-- A write of a session word (R389, R399), whose written bits are `m`: the counter restarts, and a copy that runs on the session fails with
reason 4. Reserved bytes alone are ignored (R4). -/
def State.sessionWr (s : State) (j w : Nat) (v m : Word) : State :=
  let e := s.session j
  let put (e : Session) : State :=
    let s := s.setSession j { e with iv := 0 }
    let failing (c : CopyOp) : CopyOp := if c.sealedBy = some j && c.failed.isNone then { c with failed := some 4 } else c
    { s with clusters := s.clusters.map (fun q => (q.1, { q.2 with copies := q.2.copies.map failing })) }
  match w with
  | 0 => if bits m 9 0 = 0 then s else put { e with valid := bit v 0, port := bit v 2, kslot := BitVec.ofNat 6 (bits v 9 4) }
  | 1 => put { e with owner := v }
  | 4 => if bits m 55 0 = 0 then s else put { e with sbase := word (bits v 55 0) }
  | 5 => if bits m 55 0 = 0 then s else put { e with slimit := word (bits v 55 0) }
  | _ => s

/-- The words of a time-triggered entry (R312). -/
def TTEntry.word (e : TTEntry) (w : Nat) : Word := match w with
  | 0 => e.record
  | 1 => e.period.setWidth 64
  | 2 => e.phase.setWidth 64
  | 3 => Sys2Proof.word (bnat e.en + e.ovr.toNat * 2 + e.die.toNat * 8 + e.skips.toNat * 256)
  | 4 => e.satp
  | _ => 0

/-- A write of word +0x18 of an entry (R312), whose written bits are `m`: the placement is read when EN is written to 1. -/
def State.ttEnableWr (s : State) (i : Nat) (v m : Word) : State :=
  let e := s.ttEntry i
  let e := { e with en := bit v 0, ovr := if bits v 2 1 = 3 then 0 else BitVec.ofNat 2 (bits v 2 1)
                    die := BitVec.ofNat 4 (bits v 6 3), skips := BitVec.ofNat 40 (bits v 47 8) }
  let e := { e with placed := if !e.en then [] else if bit m 0 then s.ttPlacement e else e.placed }
  (s.setTT i e).ungate e.placed

/-- A write of a word of a time-triggered entry, whose written bits are `m`: Reserved bytes alone are ignored (R4). -/
def State.ttWr (s : State) (i w : Nat) (v m : Word) : State :=
  let e := s.ttEntry i
  match w with
  | 0 => s.setTT i { e with record := word (bits v 55 0) }
  | 1 => if bits m 39 0 = 0 then s else s.setTT i { e with period := BitVec.ofNat 40 (max 1000 (bits v 39 0)) }
  | 2 => s.setTT i { e with phase := BitVec.ofNat 40 (bits v 39 0) }
  | 3 => s.ttEnableWr i v m
  | 4 => s.setTT i { e with satp := v }
  | _ => s

/-- The value of the configuration word that holds a byte of a block. Command words read as zero (R3). -/
def State.cfgWord (s : State) (b : CfgBlock) : Word :=
  match b with
  | .cluster g o =>
    let c := s.cluster g
    let w := o / 8
    if w = 0 then word (c.spways.toNat + bnat c.busy * 256)
    else if 0x21 ≤ w ∧ w < 0x28 then c.aliascfg.toList.getD (w - 0x20) 0
    else if w = 0x40 then word (c.mx.flags.toNat + min 32 c.mx.queue.length * 2 ^ 16)
    else if 0x100 ≤ w ∧ w < 0x200 then (s.handle g (w - 0x100)).word
    else 0
  | .slice k o =>
    let x := s.slice k
    (match o / 8 with
     | 0 => word (min 16 x.held.length + x.peak.toNat * 2 ^ 8 + x.waits.toNat * 2 ^ 16)
     | 1 => word (x.accst.toNat + x.refusals.toNat * 2 ^ 16)
     | _ => 0)
  | .dispatcher d o =>
    let x := s.die d
    (match o / 8 with
     | 1 => x.fqbase
     | 2 => word (x.fqsize.toNat + x.fqhead.toNat * 2 ^ 16 + x.fqtail.toNat * 2 ^ 32 + x.kcore.toNat * 2 ^ 48)
     | 3 => word x.dropped.toNat
     | _ => 0)
  | .tt i o => (s.ttEntry i).word (o / 8)
  | .recording d o =>
    let x := s.die d
    (match o / 8 with
     | 0 => x.rbbase
     | 1 => word (x.logn.toNat + bnat x.en * 32 + bnat x.wrap * 64)
     | 2 => word (x.tail.toNat + x.head.toNat * 2 ^ 32)
     | 3 => x.zerowait
     | 4 => word x.recDropped.toNat
     | 5 => word x.step.toNat
     | 6 => x.t0
     | _ => 0)
  | .sampctl o => if o / 8 = 0 then word s.sampctl.toNat else 0
  | .replay o => if o / 8 = 0 then word (bnat s.replay.cmp + bnat s.replay.haltdiv * 2 + bnat s.replay.divseen * 4) else 0
  | .classes o =>
    word ((List.range 8).foldr (fun i a => ((tfind s.classes (o / 8 * 8 + i)).getD 0).toNat + a * 256) 0)
  | .debug d o =>
    let x := s.die d
    let w := o / 8
    if w = 1 then x.data
    else if w = 2 then word (bnat x.dbgBusy.isSome + x.result.toNat * 2 + bnat x.den * 16)
    else if w = 3 then word x.holdtmo.toNat
    else if w = 4 then x.dumpbase
    else if w = 5 then word (x.dumpsize.toNat + x.dumpnext.toNat * 2 ^ 16)
    else if w = 6 then word (x.hitctx.toNat + bnat x.hit * 2 ^ 63)
    else if 0x20 ≤ w ∧ w < 0x2C then (x.lbp.toList.getD ((w - 0x20) / 3) Breakpoint.off).at_ ((w - 0x20) % 3)
    else if w = 0x2C then x.lbpsel
    else 0
  | .session j o => s.sessionWord j (o / 8)

/-- A write of a configuration word: `v` is the word as the write forms it, `m` the bits of the bytes it covers, and `full` says that it
covers all eight (R400). -/
def State.cfgPut (s : State) (b : CfgBlock) (v m : Word) (full : Bool) : State :=
  match b with
  | .cluster g o =>
    let w := o / 8
    if w = 0 then s.cspartWr g v
    else if 0x21 ≤ w ∧ w < 0x28 then
      s.modCluster g fun c => { c with aliascfg := c.aliascfg.mapIdx fun i x => if i = w - 0x20 then aliasStored v else x }
    else if w = 0x40 then
      s.modCluster g fun c => { c with mx := { c.mx with flags := c.mx.flags &&& ~~~(BitVec.ofNat 4 (v &&& m).toNat) } }
    else s
  | .slice k o =>
    (match o / 8 with
     | 0 => s.modSlice k fun x => { x with peak := BitVec.ofNat 5 (bits v 12 8), waits := BitVec.ofNat 32 (bits v 47 16) }
     | 1 => s.modSlice k fun x => { x with accst := x.accst &&& ~~~(BitVec.ofNat 6 (v &&& m).toNat)
                                           refusals := BitVec.ofNat 32 (bits v 47 16) }
     | _ => s)
  | .dispatcher d o =>
    (match o / 8 with
     | 0 => if full then s.doorbellAt d (bits v 55 0) none 0 else s
     | 1 => s.modDie d fun x => { x with fqbase := word (bits v 55 7 * 128) }
     | 2 => s.modDie d fun x => { x with fqsize := BitVec.ofNat 16 (bits v 15 0), fqhead := BitVec.ofNat 16 (bits v 31 16)
                                         kcore := BitVec.ofNat 13 (bits v 60 48) }
     | 3 => s.modDie d fun x => { x with dropped := BitVec.ofNat 32 (bits v 31 0) }
     | 4 => if full then s.preemptWrite d v else s
     | _ => s)
  | .tt i o => s.ttWr i (o / 8) v m
  | .recording d o =>
    (match o / 8 with
     | 0 => s.modDie d fun x => { x with rbbase := word (bits v 55 12 * 4096) }
     | 1 => s.modDie d fun x => { x with logn := BitVec.ofNat 5 (clampNat 8 24 (bits v 4 0)), en := bit v 5, wrap := bit v 6 }
     | 2 => s.modDie d fun x => { x with head := BitVec.ofNat 32 (bits v 63 32) }
     | 3 => s.modDie d fun x => { x with zerowait := v }
     | 4 => s.modDie d fun x => { x with recDropped := BitVec.ofNat 32 (bits v 31 0) }
     | _ => s)
  | .sampctl o => if o / 8 = 0 then s.sampctlWr v m else s
  | .replay o => if o / 8 = 0 then s.replayWr ((v &&& 3) ||| (v &&& m &&& 4)) else s
  | .classes o =>
    (List.range 8).foldl (fun s i =>
      let k := o / 8 * 8 + i
      let c : BitVec 2 := BitVec.ofNat 2 (bits v (8 * i + 1) (8 * i))
      { s with classes := if c = 0 then tdel s.classes k else tput s.classes k c }) s
  | .debug d o =>
    let w := o / 8
    if w = 0 then (if full then s.dbgCmdWrite d v else s)
    else if w = 1 then s.modDie d fun x => { x with data := v }
    else if w = 3 then s.modDie d fun x => { x with holdtmo := BitVec.ofNat 40 (max 1000000 (bits v 39 0)) }
    else if w = 4 then s.modDie d fun x => { x with dumpbase := word (bits v 55 20 * 2 ^ 20) }
    else if w = 5 then s.modDie d fun x => { x with dumpsize := BitVec.ofNat 16 (bits v 15 0) }
    else if w = 6 then s.modDie d fun x => { x with hit := x.hit && !bit (v &&& m) 63 }
    else if 0x20 ≤ w ∧ w < 0x2C then
      s.modDie d fun x => { x with lbp := x.lbp.mapIdx fun i b => if i = (w - 0x20) / 3 then b.set_ ((w - 0x20) % 3) v else b }
    else if w = 0x2C then s.modDie d fun x => { x with lbpsel := v &&& 0x1FFFFF }
    else s
  | .session j o => s.sessionWr j (o / 8) v m

/-- A read of `n` bytes at a configuration address (R400). -/
def State.cfgRead (s : State) (pa n : Nat) : Nat :=
  match s.cfgBlock pa with
  | none => 0
  | some b => ((s.cfgWord b).toNat >>> (8 * (pa % 8))) % 2 ^ (8 * n)

/-- A write of `n` bytes at a configuration address (R400). -/
def State.cfgWrite (s : State) (pa n : Nat) (v : Word) : State :=
  match s.cfgBlock pa with
  | none => s
  | some b =>
    let m := byteSpan (pa % 8) n
    let new := (s.cfgWord b &&& ~~~m) ||| (v <<< (8 * (pa % 8)) &&& m)
    s.cfgPut b new m (n == 8)

end Sys2Proof.Machine
end

