-- ==== Sys2Proof/Machine/MemScalar.lean ====
section
/-! DEFINITION. Scalar memory instructions: loads, stores, LR, SC, the base AMOs (R99 to R102), LDO, STO and AMOS (R198, R200). -/

namespace Sys2Proof.Machine

/-- Bytes of a load, whether it sign-extends, and whether its destination is an f register. -/
def loadWidth (k : LoadKind) : Nat := match k with
  | .lb | .lbu => 1 | .lh | .lhu => 2 | .lw | .lwu | .flw => 4 | .ld | .fld => 8
def loadSigned (k : LoadKind) : Bool := match k with
  | .lb | .lh | .lw | .ld => true
  | _ => false
def loadIsF (k : LoadKind) : Bool := k = .flw || k = .fld
def storeWidth (k : StoreKind) : Nat := match k with
  | .sb => 1 | .sh => 2 | .sw | .fsw => 4 | .sd | .fsd => 8
def storeIsF (k : StoreKind) : Bool := k = .fsw || k = .fsd

/-- R100: an access that is not naturally aligned is made if it lies in one line, and raises the misaligned cause if it crosses one. -/
def alignedOk (va : Word) (n : Nat) : Bool := va.toNat % 128 + n ≤ 128

/-- A scalar read of `n` bytes: configuration space by R400, every other memory coherently. -/
def State.scalarRead (s : State) (x : Xlat) (n : Nat) : State × Nat :=
  if regionOf x.pa = .cfg then (s, s.cfgRead x.pa n) else s.loadBytes x n

/-- A scalar write: into the store buffer, or for I/O memory performed at once and in program order (R37, R99). A release first waits for the
context's earlier events (R98, R198). -/
def State.scalarWrite (s : State) (x : Xlat) (n : Nat) (v : Word) (rel : Bool) : State :=
  let s := if rel then s.settleMe else s
  if regionOf x.pa = .cfg then s.cfgWrite x.pa n v
  else if x.mt = .io && !s.silent x.pa then
    (s.writeMem (clusterOf s.cur) s.me.tid x n v.toNat (some s.cur) (s.byCtx s.cur) s.me.launch).restorePhaser x.pa n
  else s.enter (.store x n (v &&& byteMask n)) rel
where
  /-- The low `n` bytes. -/
  byteMask (n : Nat) : Word := word (2 ^ (8 * n) - 1)

/-- In compare mode a context of partition B names its own partition's units by their twins' numbers (R381). -/
def State.ownCore (s : State) (k : Nat) : Nat := if s.replay.cmp && decide (4096 ≤ coreOf s.cur) && decide (k < 4096) then k + 4096 else k
def State.ownCluster (s : State) (g : Nat) : Nat := if s.replay.cmp && decide (1024 ≤ clusterOf s.cur) && decide (g < 1024) then g + 1024 else g

/-- A read of `n` bytes that a device instruction makes as it issues (R77): its pages and access, a selvedge refusal (cause 25), and the wait for a
reply that does not come: that of a peer which does not answer, or of a scratchpad whose SPWAYS is changing. `amo` is of an instruction that waits
as an AMO does. -/
def State.deviceReadAs (s : State) (amo : Bool) (cls : Cls) (nd : Need) (va n : Nat) : Except Stop (State × Xlat × Nat) := do
  let (s, x) ← s.accessV (s.view s.cur) cls nd .read va n
  if s.changing x.pa then s.mute x.pa amo
  need (s.selvedgeOk (clusterOf s.cur) .read x.pa n) 25 (word x.pa)
  if s.silent x.pa then s.mute x.pa amo
  else
    let (s, v) := s.loadBytes x n
    .ok (s, x, v)

def State.deviceRead (s : State) (cls : Cls) (nd : Need) (va n : Nat) : Except Stop (State × Xlat × Nat) := s.deviceReadAs false cls nd va n

/-- The address and translation of a checked scalar load. A misaligned access to a configuration register that crosses a 128-byte line takes cause 4
or 6 here, by R100 and the order of R78, where R400's own words give 5 or 7 (DESIGN CHOICE, log entry 93). -/
def State.loadCheck (s : State) (va : Word) (n : Nat) : Except Stop (State × Xlat) := do
  need (alignedOk va n) 4 va
  let (s, x) ← s.access .load needR .read va.toNat n
  s.permit x .read false n
  if s.silent x.pa then s.mute x.pa false else .ok (s, x)

/-- The address and translation of a checked scalar store. -/
def State.storeCheck (s : State) (va : Word) (n : Nat) : Except Stop (State × Xlat) := do
  need (alignedOk va n) 6 va
  let (s, x) ← s.access .store needW .write va.toNat n
  s.permit x .write true n
  .ok (s, x)

/-- LOAD (R100, R196). -/
def execLoad (k : LoadKind) (rd rs1 : Reg) (imm : BitVec 12) (s : State) : Host.Outcome State Fault Refusal :=
  s.done (do
    if loadIsF k && s.me.fsOff then illegal (.load k rd rs1 imm)
    else
      let (s, x) ← s.loadCheck (s.xr rs1 + imm12 imm) (loadWidth k)
      let (s, v) := s.scalarRead x (loadWidth k)
      if loadIsF k then .ok (s.modCtx s.cur fun c => c.putF rd (if k = .fld then word v else box32 v))
      else .ok (s.setXr rd (extendLoad (loadWidth k) v (loadSigned k))))

/-- STORE (R99, R100). -/
def execStore (k : StoreKind) (rs1 rs2 : Reg) (imm : BitVec 12) (s : State) : Host.Outcome State Fault Refusal :=
  s.done (do
    if storeIsF k && s.me.fsOff then illegal (.store k rs1 rs2 imm)
    else
      let (s, x) ← s.storeCheck (s.xr rs1 + imm12 imm) (storeWidth k)
      .ok (s.scalarWrite x (storeWidth k) (if storeIsF k then s.me.getF rs2 else s.xr rs2) false))

/-- The checks of an atomic access (R101, R189): natural alignment with cause 6, and cause 7 on I/O memory and aliases. -/
def State.atomicCheck (s : State) (cls : Cls) (nd : Need) (store : Bool) (va : Word) (n : Nat) : Except Stop (State × Xlat) := do
  need (va.toNat % n == 0) 6 va
  let (s, x) ← s.accessV (s.view s.cur) cls nd .read va.toNat n
  need (x.mt != .io && !isAlias x.pa) 7 va
  s.permit x .atomic store n
  -- an LR waits for its reply as a load does (R119)
  if s.silent x.pa || s.changing x.pa then s.mute x.pa store else .ok (s, x)

/-- The context's own earlier stores to the line of an atomic access are performed before it; with release, everything earlier is. -/
def State.beforeAtomic (s : State) (rel : Bool) (x : Xlat) : State :=
  let k := s.core (coreOf s.cur)
  let mine := (k.storeBuffer ++ k.posted).any fun e => e.cid == s.cur && (match e.kind with
    | .store y m _ => (s.storedLines y.pa m).contains (x.pa / lineBytes)
    | _ => true)
  if rel then s.settleMe else if mine then s.drainStores s.cur else s

/-- An atomic update of `n` bytes (R31): tiles with the bytes are recalled to H first (R216). The result is the old value. -/
def State.atomicUpdate (s : State) (x : Xlat) (n : Nat) (f : Nat → Option Nat) : State × Nat :=
  let g := clusterOf s.cur
  let home := s.tilesAt (some x.slice) x.pa n != []
  let (s, old) := if home then s.homeReadAt (some x.slice) x.pa n s.me.qtid else s.readMem g s.me.tid s.me.qtid x n
  match f old with
  | none => (s, old)
  | some v =>
    let s := if home then s.homeWriteAt (some x.slice) x.pa n v (s.byCtx s.cur) s.me.launch
      else s.writeMem g s.me.tid x n v (some s.cur) (s.byCtx s.cur) s.me.launch
    (s.restorePhaser x.pa n, old)

/-- LR (R22, R101, R102). -/
def execLr (dbl aq rl : Bool) (rd rs1 : Reg) (s : State) : Host.Outcome State Fault Refusal :=
  let _ := aq
  let n := if dbl then 8 else 4
  s.done (do
    let (s, x) ← s.atomicCheck .load needR false (s.xr rs1) n
    let s := s.beforeAtomic rl x
    -- an LR takes a tile as a write does where its mapping grants write permission (R216)
    let s := s.tileAccess (clusterOf s.cur) x n x.writable s.me.tid s.me.qtid
    let (s, v) := s.readMem (clusterOf s.cur) s.me.tid s.me.qtid x n
    .ok (s.modCtx s.cur fun c => { c.setX rd (extendLoad n v true) with reservation := some ⟨x.pa, n⟩ }))

/-- SC (R22, R101, R102): 0 where it stores, 1 where it does not. -/
def execSc (dbl aq rl : Bool) (rd rs1 rs2 : Reg) (s : State) : Host.Outcome State Fault Refusal :=
  let _ := aq
  let n := if dbl then 8 else 4
  s.done (do
    let (s, x) ← s.atomicCheck .store needW true (s.xr rs1) n
    let v := (s.xr rs2).toNat % 2 ^ (8 * n)
    let s := s.beforeAtomic rl x
    let holds := s.me.reservation == some ⟨x.pa, n⟩
    let s := s.modCtx s.cur fun c => { c with reservation := none }
    if holds then
      let s := (s.writeMem (clusterOf s.cur) s.me.tid x n v none (s.byCtx s.cur) s.me.launch).restorePhaser x.pa n
      .ok (s.setXr rd 0)
    else .ok (s.setXr rd 1))

/-- The value a base AMO stores. -/
def amoValue {w : Nat} (op : AmoOp) (old v : BitVec w) : BitVec w := match op with
  | .swap => v
  | .add => old + v
  | .xor => old ^^^ v
  | .and => old &&& v
  | .or => old ||| v
  | .min => if old.slt v then old else v
  | .max => if old.slt v then v else old
  | .minu => if old.ult v then old else v
  | .maxu => if old.ult v then v else old

/-- AMO (R22, R101). -/
def execAmo (op : AmoOp) (dbl aq rl : Bool) (rd rs1 rs2 : Reg) (s : State) : Host.Outcome State Fault Refusal :=
  let _ := aq
  let n := if dbl then 8 else 4
  s.done (do
    let (s, x) ← s.atomicCheck .store needRW true (s.xr rs1) n
    let v := s.xr rs2
    let s := s.beforeAtomic rl x
    let (s, old) := s.atomicUpdate x n fun o =>
      some (if dbl then (amoValue op (word o) v).toNat else (amoValue op (BitVec.ofNat 32 o) (low32 v)).toNat)
    .ok (s.setXr rd (extendLoad n old true)))

/-- LDO (R198): a load with acquire order and scope; each load of the model is performed at its issue. -/
def execLdo (rd rs1 : Reg) (scope : BitVec 3) (op w : BitVec 2) (s : State) : Host.Outcome State Fault Refusal :=
  let _ := (scope, op)
  let n := 2 ^ w.toNat
  s.done (do
    let (s, x) ← s.loadCheck (s.xr rs1) n
    let (s, v) := s.scalarRead x n
    .ok (s.setXr rd (extendLoad n v true)))

/-- STO (R198): with release, it waits for the context's earlier events (R98). -/
def execSto (rs1 rs2 : Reg) (scope : BitVec 3) (op w : BitVec 2) (s : State) : Host.Outcome State Fault Refusal :=
  let _ := scope
  let n := 2 ^ w.toNat
  s.done (do
    let (s, x) ← s.storeCheck (s.xr rs1) n
    .ok (s.scalarWrite x n (s.xr rs2) (op != 0)))

/-- The value an AMOS stores, with the flags of fadd.d; none for a compare-and-swap that fails (R200). -/
def amosValue (op : Nat) (old v expected : Word) : Option (Word × Flags) := match op with
  | 0 => some (v, 0)
  | 1 => some (old + v, 0)
  | 2 => some (old &&& v, 0)
  | 3 => some (old ||| v, 0)
  | 4 => some (old ^^^ v, 0)
  | 5 => some (if old.slt v then old else v, 0)
  | 6 => some (if old.slt v then v else old, 0)
  | 7 => some (if old.ult v then old else v, 0)
  | 8 => some (if old.ult v then v else old, 0)
  | 9 => if old = expected then some (v, 0) else none
  | _ =>
    let r := fAdd .f64 .rne old.toNat v.toNat
    some (word r.1, r.2)

/-- AMOS (R200): acquire and release at its scope. -/
def execAmos (rd rs1 rs2 : Reg) (scope : BitVec 3) (op : BitVec 4) (s : State) : Host.Outcome State Fault Refusal :=
  let _ := scope
  s.done (do
    let (s, x) ← s.atomicCheck .store needRW true (s.xr rs1) 8
    let v := s.xr rs2
    let e := s.xr rd
    let s := s.beforeAtomic true x
    let (s, old) := s.atomicUpdate x 8 fun o => (amosValue op.toNat (word o) v e).map fun r => r.1.toNat
    let fl := ((amosValue op.toNat (word old) v e).map (·.2)).getD 0
    .ok (s.modCtx s.cur fun c => (c.setX rd (word old)).orFflags fl))

end Sys2Proof.Machine
end

