-- ==== Sys2Proof/Machine/Tile.lean ====
section
/-! DEFINITION. The tile instructions (R208 to R225): TDECL, TFREE, TACQ, TREL, TFWD and TSTAT. -/

namespace Sys2Proof.Machine

/-- The fields of a tile descriptor (R208). -/
structure TileDesc where
  base : Nat
  rows : Nat
  rowBytes : Nat
  pitch : Nat
  fmt : Nat
  tensor : Nat
  zero : Bool
  keep : Bool
  /-- every field is within R208 and every Reserved field is zero -/
  ok : Bool
  deriving DecidableEq, Repr

/-- A descriptor from its 32 bytes. -/
def TileDesc.ofNat (v : Nat) : TileDesc :=
  let f (at_ n : Nat) : Nat := v >>> (8 * at_) % 2 ^ (8 * n)
  let base := f 0 8
  let rows := f 8 2
  let rb := f 10 2
  let pitch := f 12 4
  { base := base, rows := rows, rowBytes := rb, pitch := pitch, fmt := f 16 1 % 32, tensor := f 18 2 % 4096
    zero := f 20 1 % 2 == 1, keep := f 20 1 / 2 % 2 == 1
    ok := base % 16 == 0 && decide (1 ≤ rows) && decide (rows ≤ 256) && rb % 16 == 0 && decide (16 ≤ rb) && decide (rb ≤ 2048) &&
      pitch % 16 == 0 && decide (rb ≤ pitch) && decide (rows * rb ≤ 65536) && f 16 1 / 32 == 0 && etypeCode (BitVec.ofNat 5 (f 16 1)) &&
      f 17 1 == 0 && f 18 2 / 4096 == 0 && f 20 4 / 4 == 0 && f 24 8 == 0 }

/-- The virtual addresses of a tile's sectors, row by row. -/
def TileDesc.sectorVas (d : TileDesc) : List Nat :=
  (List.range d.rows).flatMap fun r => (List.range (d.rowBytes / 16)).map fun k => d.base + r * d.pitch + 16 * k

/-- Elements of a rising list without repeats. -/
def dedupRising (xs : List Nat) : List Nat :=
  (xs.foldl (fun (acc : List Nat) x => if acc.head? = some x then acc else x :: acc) []).reverse

/-- The stval of a tile fault: bits [63:4] of an address with a reason code (R225). -/
def tileStval (va reason : Nat) : Word := word (va / 16 * 16 + reason)
def tileFault {α : Type} (va reason : Nat) : Except Stop α := trap 24 (tileStval va reason)

/-- Translate the pages that hold tile bytes, lowest first (R218): a page fault at once, then an access fault. -/
def State.tilePages (s : State) (nd : Need) (vas : List Nat) : Except Stop (State × Pages × Option Stop) :=
  match vas with
  | [] => .ok (s, [], none)
  | va :: t =>
    match s.access .store nd .read va 16 with
    | .ok (s, x) => do
      let (s, xs, e) ← s.tilePages nd t
      .ok (s, x :: xs, e)
    | .error (.exc 15 v) => .error (.exc 15 v)
    | .error e => do
      let (s, xs, _) ← s.tilePages nd t
      .ok (s, xs, some e)

/-- Reasons 2 and 5 over a tile's pages in rising order: T = 0, and a 17th leaf page. -/
def pageReason (ps : Pages) (leaves : List (Nat × Nat)) : Option Nat :=
  match ps with
  | [] => none
  | x :: t =>
    if !x.tile then some 2
    else
      let leaf : Nat × Nat := (x.va >>> x.lg, x.lg)
      let leaves := if leaves.contains leaf then leaves else leaf :: leaves
      if 16 < leaves.length then some 5 else pageReason t leaves

/-- The physical sectors of a tile with their virtual addresses. -/
def TileDesc.physSectors (d : TileDesc) (ps : Pages) : List (Nat × Nat) :=
  d.sectorVas.filterMap fun va => (pageAt ps va).map fun x => (x.pa / 16, va)

/-- The lines that sectors lie in, with their sector masks. -/
def sectorTable (xs : List (Nat × Nat)) : Table (BitVec 8) :=
  xs.foldl (fun m (p, _) =>
    let line := p / 8
    tput m line (((tfind m line).getD 0) ||| (1#8 <<< (p % 8)))) []

/-- The first conflict a tile's lines meet, in rising physical order (R218): reason 3 with the sector, or reason 5. -/
def State.tileConflict (s : State) (sectors : Table (BitVec 8)) : Option (Nat × Nat) :=
  match sectors with
  | [] => none
  | (line, m) :: t =>
    let hit := m &&& s.tileMask none line
    if hit ≠ 0 then some (3, line * 8 + ((List.range 8).find? fun k => hit.getLsbD k).getD 0)
    else if 2 ≤ (s.tiles.filter fun u => u.mask line ≠ 0).length then some (5, 0)
    else s.tileConflict t

/-- Whether the slices have room for the tile (R211): an entry at its home, and a pointer or record for each newly covered line. -/
def State.tileRoom (s : State) (home : Nat) (ps : Pages) (sectors : Table (BitVec 8)) : Bool :=
  let entries := (s.tiles.filter fun u => u.home = home).length
  let held := s.tiles.flatMap fun u => u.sectors.map fun (l, _) => (l, lineHome u.pages l)
  let new := (sectors.map (·.1)).filter fun l => s.tileMask none l = 0
  decide (entries < Config.tileEntries) &&
  new.all fun l =>
    let h := lineHome ps l
    decide (((held.filter fun p => p.2 = h).map (·.1)).eraseDups.length + (new.filter fun q => lineHome ps q = h).length ≤ Config.tilePointers)

/-- The free sectors of a line leave every L2 and every host or peer copy (R218). -/
def State.claimLine (s : State) (line : Nat) : State :=
  (((s.applyPending line).recallAll none none line (~~~(s.tileMask none line))).backInvalidate line)

/-- TDECL (R218). -/
def State.declare (s : State) (d : Nat) : Res := do
  need (d % 32 == 0) 6 (word d)
  let (s, _, v) ← s.deviceReadAs true .store needR d 32
  let t := TileDesc.ofNat v
  if !t.ok then tileFault t.base 1
  else
    let nd : Need := if t.zero then needRW else needR
    let firsts := t.sectorVas.filter fun va => va % 4096 = 0 || (va - t.base) % t.pitch = 0
    let pageVas := (firsts.foldl (fun (acc : List Nat) va => if acc.any (fun u => u / 4096 = va / 4096) then acc else va :: acc) []).reverse
    let (s, ps, e) ← s.tilePages nd pageVas
    match e with
    | some e => .error e
    | none =>
      match pageReason ps [] with
      | some r => tileFault t.base r
      | none =>
        let s := s.drainStores s.cur
        let phys := t.physSectors ps
        let sectors := sectorTable phys
        match s.tileConflict sectors with
        | some (3, p) => tileFault (((phys.find? fun q => q.1 = p).map (·.2)).getD t.base) 3
        | some (r, _) => tileFault t.base r
        | none =>
          let pa := ((pageAt ps t.base).map (·.pa)).getD 0
          let home := lineHome ps (pa / lineBytes)
          if !s.tileRoom home ps sectors then tileFault t.base 4
          else do
            s.watch true t.base 1
            let s := sectors.foldl (fun s (line, _) => s.claimLine line) s
            let tile : Tile := ⟨pa, word t.base, t.rows, t.rowBytes, t.pitch, BitVec.ofNat 5 t.fmt, BitVec.ofNat 12 t.tensor, t.keep, ps, sectors,
              home, .h, [], 0, 0, 0, 0, []⟩
            let s := { s with tiles := s.tiles ++ [tile] }
            .ok (if t.zero then phys.foldl (fun s (p, _) => s.homeWriteAt (some (lineHome ps (p / 8))) (16 * p) 16 0 (s.byCtx s.cur) s.me.launch) s else s)

/-- TDECL (R218). -/
def execTdecl (rs1 : Reg) (s : State) : Host.Outcome State Fault Refusal := s.done (s.declare (s.xr rs1).toNat)

/-- The translation of the tile address that an instruction names (R217): read permission, and a watch of the class. -/
def State.tileAddr (s : State) (cls : Cls) (va : Nat) : Except Stop (State × Xlat) := s.access cls needR .read va 1

/-- TFREE (R219). -/
def execTfree (rs1 : Reg) (s : State) : Host.Outcome State Fault Refusal :=
  s.done (do
    let va := (s.xr rs1).toNat
    let (s, x) ← s.tileAddr .store va
    match s.tileAt x.pa with
    | none => tileFault va 6
    | some t => do
      s.watch true va 1
      let s := s.drainStores s.cur
      let s := s.tilePush t false
      let s := (match s.tileAt x.pa with
        | some t => s.tileRecall t (s.sliceWake s.me.qtid t.home)
        | none => s)
      .ok { s with tiles := s.tiles.filter fun u => u.pa ≠ x.pa })

/-- TACQ (R220): the tile in M or, for S, shared or exclusive, then an acquire. -/
def execTacq (rs1 : Reg) (scope : BitVec 3) (excl : Bool) (s : State) : Host.Outcome State Fault Refusal :=
  let _ := scope
  s.done (do
    let va := (s.xr rs1).toNat
    let (s, x) ← s.tileAddr .load va
    match s.tileAt x.pa with
    | none => tileFault va 6
    | some t => do
      s.watch false va 1
      .ok (s.tileRequest t (clusterOf s.cur) excl s.me.tid s.me.qtid))

/-- TREL (R221): a release whose store-buffer entry gives the tile back. -/
def execTrel (rs1 : Reg) (scope : BitVec 3) (s : State) : Host.Outcome State Fault Refusal :=
  let _ := scope
  s.done (do
    let va := (s.xr rs1).toNat
    let (s, x) ← s.tileAddr .store va
    s.watch true va 1
    .ok (s.enter (.trel x.pa) true))

/-- TFWD (R222): a store-buffer entry whose performing starts the forward. -/
def execTfwd (rel : Bool) (rs1 rs2 : Reg) (s : State) : Host.Outcome State Fault Refusal :=
  s.done (do
    let va := (s.xr rs1).toNat
    let (s, x) ← s.tileAddr .store va
    let c := (s.xr rs2).toNat
    if !s.coreLive c then tileFault va 7
    else do
      s.watch true va 1
      .ok (s.enter (.tfwd x.pa x.slice (word va) (s.ownCore c) false) rel))

/-- The code of a tile state in TSTAT (R224). -/
def tileCode (t : TileState) : Nat := match t with
  | .h => 0 | .s => 1 | .e => 2 | .m => 3 | .f => 4

/-- The word TSTAT writes for a tile (R224). -/
def State.tileWord (s : State) (t : Tile) (g : Nat) : Nat :=
  let holder := match t.st with
    | .f => t.dst
    | _ => (t.holders.foldl (fun (o : Option Nat) h => match o with
      | none => some h
      | some m => some (min m h)) none).getD 0
  let sharers := if t.st = .s then min 15 t.holders.length else 0
  1 + tileCode t.st * 2 + bnat (t.holders.contains g) * 2 ^ 4 + (s.reportCluster holder) * 2 ^ 8 + sharers * 2 ^ 20 +
    t.tensor.toNat * 2 ^ 24 + t.fmt.toNat * 2 ^ 36 + bnat t.keep * 2 ^ 41

/-- TSTAT (R224): a snapshot at the tile's home. -/
def execTstat (rd rs1 : Reg) (s : State) : Host.Outcome State Fault Refusal :=
  s.done (do
    let va := (s.xr rs1).toNat
    let (s, x) ← s.tileAddr .load va
    s.watch false va 1
    .ok (s.setXr rd (word ((((s.tileAt x.pa).map fun t => s.tileWord t (clusterOf s.cur))).getD 0))))

end Sys2Proof.Machine
end

