-- ==== Sys2Proof/Machine/Ordered.lean ====
section
/-! DEFINITION. FENCE.S (R199), and the range operations and DISCT (R201, R202). -/

namespace Sys2Proof.Machine

/-- The waits of a FENCE.S (R199): for W, R, T and E, the context's buffered and posted events are performed (a CPSTEP of class E stands in the
buffer until its operation is issued); for A, its accumulates are decided. An empty set orders nothing. -/
def State.fenceSets (s : State) (pred succ : Nat) : State :=
  if pred = 0 ∨ succ = 0 then s
  else
    let s := if pred % 4 ≠ 0 ∨ pred / 8 ≠ 0 then s.drainStores s.cur else s
    if pred / 4 % 2 = 1 then s.settleAcc s.cur else s

/-- FENCE.S (R199); the sets' bits are W, R, A, T, E from bit 0 (R53). -/
def execFenceS (pred succ : Reg) (scope : BitVec 3) (s : State) : Host.Outcome State Fault Refusal :=
  let _ := scope
  s.done (.ok (s.fenceSets pred.toNat succ.toNat))

/-- Translate every page of [va, stop) for a range operation, lowest first, with the bytes of the range in each: page faults, then
access faults. Scratchpad and I/O addresses pass, since the operation does nothing to them (R201). -/
def State.rangePages (s : State) (cls : Cls) (fuel va stop : Nat) : Except Stop (State × List (Xlat × Nat) × Option Stop) :=
  match fuel with
  | 0 => .ok (s, [], none)
  | k + 1 =>
    if stop ≤ va then .ok (s, [], none)
    else
      let next := min stop ((va / 4096 + 1) * 4096)
      let v := s.view s.cur
      match s.xlate v needR va with
      | .error .page => .error (cls.err .page va)
      | .error .access => do
        let (s, xs, _) ← s.rangePages cls k next stop
        .ok (s, xs, some (cls.err .access va))
      | .ok (s, x) => do
        -- nothing is done to scratchpad and I/O addresses, but an address outside R10 faults all the same (R11)
        let skip := (x.mt = .scratch || x.mt = .io) && regionOf x.pa != .none
        let ok := skip || (s.accessOk .read x.pa (next - va) && s.pmpOk v v.priv needR x.pa (next - va))
        let (s, xs, e) ← s.rangePages cls k next stop
        .ok (s, (x, next - va) :: xs, if ok then e else some (cls.err .access va))

/-- WBR, INVR and WBINVR (R201). -/
def State.rangeOp (s : State) (inv : Bool) (cls : Cls) (base len : Word) : Res :=
  if len = 0 then .ok s
  else if (s.cluster (clusterOf s.cur)).busy then .error (.left s)
  else if 2 ^ 64 < base.toNat + len.toNat then trap cls.access base
  else do
    let (s, ps, e) ← s.rangePages cls (len.toNat / 4096 + 2) base.toNat (base.toNat + len.toNat)
    match e with
    | some e => .error e
    | none => .ok (s.enter (.range inv ps) false)

/-- WBR (R201): write back the range's dirty bytes. -/
def execWbr (rs1 rs2 : Reg) (s : State) : Host.Outcome State Fault Refusal :=
  s.done (s.rangeOp false .store (s.xr rs1) (s.xr rs2))
/-- INVR (R201): write back and remove; it takes the load causes. -/
def execInvr (rs1 rs2 : Reg) (s : State) : Host.Outcome State Fault Refusal :=
  s.done (s.rangeOp true .load (s.xr rs1) (s.xr rs2))
/-- WBINVR (R201): write back and remove. -/
def execWbinvr (rs1 rs2 : Reg) (s : State) : Host.Outcome State Fault Refusal :=
  s.done (s.rangeOp true .store (s.xr rs1) (s.xr rs2))

/-- DISCT (R202): tensor 0 does nothing. -/
def execDisct (rs1 : Reg) (s : State) : Host.Outcome State Fault Refusal :=
  let t : BitVec 12 := BitVec.ofNat 12 (s.xr rs1).toNat
  s.done (.ok (if t = 0 then s else s.enter (.disct t) false))

end Sys2Proof.Machine
end

