-- ==== Sys2Proof/Machine/VecQ.lean ====
section
/-! DEFINITION. What every vector instruction shares: the vector queue (R135 to R138), the issue checks (R143, R146), the element frame
(R147) and the delivery of a scalar result (R98, R154). A vector instruction's effect on registers, masks and qvstat is applied as it
issues, which is what R136 and R153 make of it; its entry in the queue keeps the lane groups busy and orders it before later
accumulates (log entry 9). -/

namespace Sys2Proof.Machine

/-- Enter an instruction of the issuing context in its core's vector queue, which has room for it (`checkRoom`). -/
def State.enqueueV (s : State) (todo : BitVec 8) (cost : Nat) (cross : Bool) (acc : Option AccOp) : State :=
  s.modCore (coreOf s.cur) fun c => { c with vq := leaveQueue s.arith (c.vq ++ [⟨s.cur, todo, 0, cost, cross, acc, s.me.winBase, s.me.winSize⟩]) }

/-- The lane groups of an element-wise instruction of `n` elements of width `w` (R137). -/
def laneGroups (w n : Nat) : BitVec 8 := BitVec.ofNat 8 (2 ^ ((n * w + 1023) / 1024) - 1)

/-- Enter an element-wise or a cross-lane instruction; with VL = 0 it has no portion (R137). -/
def State.enqueueE (s : State) (w n cost : Nat) : State := s.enqueueV (laneGroups w n) cost false none
def State.enqueueX (s : State) (n cost : Nat) : State := s.enqueueV (if n = 0 then 0 else 1) cost true none

/-- The context waits until the engine answers at the head of the queue (R98). -/
def State.awaitVector (s : State) : State := s.drainVector s.cur drainFuel

/-- Width of the issuing context's elements (R134). -/
def State.vw (s : State) : Nat := etypeWidth s.me.etype
/-- VLMAX of its element type. -/
def State.vlmax (s : State) : Nat := 8192 / s.vw

/-- The format of a floating-point element type (R54, R79). -/
def etypeFmt (e : Nat) : Option Fmt := match e with
  | 8 => some .f16 | 9 => some .bf16 | 10 => some .f32 | 11 => some .f64 | _ => none

/-- An element read as an integer, and one as it is written (R86, R147). -/
def elemIn (e x : Nat) : Nat := if e = 14 then x % 64 else x
def elemOut (e x : Nat) : Nat := if e = 14 then x % 64 else x % 2 ^ etypeWidth e

/-- Element `i` of a v register of the issuing context. -/
def State.ve (s : State) (f : Reg) (i : Nat) : Nat := elemIn s.me.etype (velem (s.vr f) s.vw i)

/-- The issue checks of a custom-2 instruction (R146): VILL, a floating-point type where one is needed, a valid frm where it rounds, and
the window. -/
def State.vecCheck (s : State) (i : Instr) (fp rounds : Bool) (fs : List Reg) : Except Stop Unit :=
  if s.me.vill then illegal i
  else if fp && (etypeFmt s.me.etype).isNone then illegal i
  else if rounds && decide (4 < s.me.frm.toNat) then illegal i
  else s.checkWindow fs

/-- Write elements 0 to n − 1 of a v register: those given are written, the others keep their values; flags go to qvstat (R147). -/
def State.putElems (s : State) (vd : Reg) (xs : List (Option (Nat × Flags))) : State :=
  let e := s.me.etype
  let fl := xs.foldl (fun (f : Flags) o => match o with
    | some p => f ||| p.2
    | none => f) 0
  let s := s.setVr vd (vmerge (s.vr vd) s.vw (xs.map fun o => o.map fun p => elemOut e p.1))
  s.modCtx s.cur fun c => c.orQvstat fl

/-- The frame of R147: element i < VL with its mask bit set receives result(i). -/
def State.vecMap (s : State) (vd : Reg) (mk : BitVec 3) (cost : Nat) (result : Nat → Nat × Flags) : State :=
  let m := s.me.mask mk
  let n := s.me.vl
  (s.putElems vd ((List.range n).map fun i => if m.getLsbD i then some (result i) else none)).enqueueE s.vw n cost

/-- The f operand of class 011 (R147). -/
def State.fScalar (s : State) (r : Reg) : Nat :=
  let v := (s.me.getF r).toNat
  match etypeFmt s.me.etype with
  | some .f64 => v
  | some F => if v >>> F.width = 2 ^ (64 - F.width) - 1 then v % 2 ^ F.width else F.nan
  | none => v

/-- The lane group that holds element j, or group 0 beyond VLMAX (R170). -/
def State.elemGroup (s : State) (j : Nat) : BitVec 8 := if j < s.vlmax then 1#8 <<< (s.vw * j / 1024) else 1

/-- The entry that a vector instruction which writes a scalar register has in the queue (R137, R145, R150, R169): VSETL has no portion. -/
def State.enqueueReply (s : State) (i : Instr) : Option State := match i with
  | .vpopc _ _ _ | .vfirst _ _ _ => some (s.enqueueX s.me.vl 2)
  | .vsetl _ _ _ => some (s.enqueueV 0 0 false none)
  | .vextract _ rs1 _ => some (s.enqueueV (s.elemGroup (s.xr rs1).toNat) 1 false none)
  | _ => none

/-- The engine's answer to such an instruction (R98): it enters the queue and waits to the queue's head, or it comes back with the answer to the
entry that it made when it left the rotation. -/
def State.engineReply (s : State) (i : Instr) : State :=
  if s.me.returning then s.modCtx s.cur fun c => { c with request := none }
  else ((s.enqueueReply i).getD s).awaitVector

/-- The x operand of a vector instruction (R147). -/
def State.xScalar (s : State) (r : Reg) : Nat := (s.xr r).toNat % 2 ^ s.vw

end Sys2Proof.Machine
end

