-- ==== Sys2Proof/Machine/Acc.lean ====
section
/-! DEFINITION. The accumulate instructions (R233, R234) and FLRES (R245). -/

namespace Sys2Proof.Machine

/-- The destination of an accumulate, checked in the order of R234. -/
def State.accDest (s : State) (va : Nat) : Except Stop (State × Xlat) := do
  need (va % lineBytes == 0) 6 (word va)
  let v := s.view s.cur
  match s.xlate v needW va with
  | .error e => .error (Cls.err .store e va)
  | .ok (s, x) => do
    let n := if regionOf x.pa = .cfg then 1 else lineBytes
    need (s.accessOk .write x.pa n && s.pmpOk v v.priv needW x.pa lineBytes) 7 (word va)
    need (x.mt = .hbm || x.mt = .peer) 48 (word va)
    s.watch true va lineBytes
    .ok (s, x)

/-- Issue an accumulate: its addends as the register stands at its place in program order (R233). -/
def State.accumulate (s : State) (form : AccForm) (vs rs1 : Reg) (scale : Int) : Res := do
  s.checkWindow [vs]
  let (s, x) ← s.accDest (s.xr rs1).toNat
  let o : AccOp := ⟨form, x, (s.vr vs).setWidth 1024, scale, bits s.me.satp 59 44, BitVec.ofNat 12 s.me.qtensid.toNat, s.me.qtid⟩
  .ok (s.enqueueV 1 (if form = .x then 2 else 1) false (some o))

/-- ACC.F (R233): illegal in replay compare mode (R72). -/
def execAccF (vs rs1 : Reg) (s : State) : Host.Outcome State Fault Refusal :=
  s.done (if s.replay.cmp then illegal (.accF vs rs1) else s.accumulate .f vs rs1 0)
/-- ACC.X (R233): the scale is x[rs2][7:0], signed. -/
def execAccX (vs rs1 rs2 : Reg) (s : State) : Host.Outcome State Fault Refusal :=
  s.done (s.accumulate .x vs rs1 (signedOf 8 ((s.xr rs2).toNat % 256)))
/-- ACC.I (R233). -/
def execAccI (vs rs1 : Reg) (s : State) : Host.Outcome State Fault Refusal :=
  s.done (s.accumulate .i vs rs1 0)

/-- FLRES (R245): a field of x0 gives base 0, or every byte from the base on. -/
def execFlres (rs1 rs2 : Reg) (s : State) : Host.Outcome State Fault Refusal :=
  let base := if rs1 = 0 then 0 else (s.xr rs1).toNat
  let stop := if rs2 = 0 then 2 ^ 64 else base + (s.xr rs2).toNat
  s.done (.ok (if stop = base then s.settleAcc s.cur else s.flushRange s.cur base stop (bits s.me.satp 59 44)))

end Sys2Proof.Machine
end

