-- ==== Sys2Proof/Machine/Gcm.lean ====
section
/-! DEFINITION. AES-256-GCM as the host-interface engine applies it to sealed copies (R390). The spec names the cipher and gives its key,
additional data and layout; the algorithm is that of FIPS 197 and NIST SP 800-38D (log entry 25). Bytes and blocks are lists of numbers
below 256, first byte first. -/

namespace Sys2Proof.Machine

/-- Multiplication by x in the field of AES. -/
def aesX (a : Nat) : Nat := if a < 128 then 2 * a else (2 * a) ^^^ 0x11B

/-- Multiplication in the field of AES; `n` bits of `b` are left. -/
def aesMulBits (a b n : Nat) : Nat := match n with
  | 0 => 0
  | k + 1 => (if b % 2 = 1 then a else 0) ^^^ aesMulBits (aesX a) (b / 2) k

/-- Multiplication in the field of AES. -/
def aesMul (a b : Nat) : Nat := aesMulBits a b 8

/-- The inverse in the field, with 0 for 0: a to the power 254. -/
def aesInv (a : Nat) : Nat :=
  let a2 := aesMul a a
  let a4 := aesMul a2 a2
  let a8 := aesMul a4 a4
  let a16 := aesMul a8 a8
  let a32 := aesMul a16 a16
  let a64 := aesMul a32 a32
  let a128 := aesMul a64 a64
  aesMul a128 (aesMul a64 (aesMul a32 (aesMul a16 (aesMul a8 (aesMul a4 a2)))))

/-- SubBytes of one byte. -/
def aesSub (a : Nat) : Nat :=
  let b := aesInv a
  let r (k : Nat) : Nat := (b <<< k ||| b >>> (8 - k)) % 256
  b ^^^ r 1 ^^^ r 2 ^^^ r 3 ^^^ r 4 ^^^ 0x63

/-- SubBytes as a table. -/
def aesBox : Array Nat := ((List.range 256).map aesSub).toArray

/-- Exclusive or of two byte strings. -/
def xorBytes (a b : List Nat) : List Nat := List.zipWith (· ^^^ ·) a b

/-- The key schedule of AES-256: the words from number `i` on, the latest eight before them held newest first. -/
def aesWords (fuel i rc : Nat) (last : List (List Nat)) : List (List Nat) :=
  match fuel with
  | 0 => []
  | k + 1 =>
    let t := last.headD []
    let t := if i % 8 = 0 then xorBytes ((t.drop 1 ++ t.take 1).map fun b => aesBox.getD b 0) [rc, 0, 0, 0]
      else if i % 8 = 4 then t.map fun b => aesBox.getD b 0
      else t
    let w := xorBytes (last.getD 7 []) t
    w :: aesWords k (i + 1) (if i % 8 = 0 then aesX rc else rc) (w :: last.take 7)

/-- Cut a string into pieces of `n`; `fuel` bounds how many. -/
def chunks (n fuel : Nat) (l : List Nat) : List (List Nat) := match fuel with
  | 0 => []
  | k + 1 => if l = [] then [] else l.take n :: chunks n k (l.drop n)

/-- The 15 round keys of a 32-byte key. -/
def aesKeys (key : List Nat) : List (List Nat) :=
  let ws := chunks 4 8 key
  chunks 16 15 ((ws ++ aesWords 52 8 1 ws.reverse).flatten)

/-- SubBytes and ShiftRows of a block. -/
def aesShift (b : List Nat) : List Nat :=
  let a := (b.map fun x => aesBox.getD x 0).toArray
  (List.range 16).map fun i => a.getD ((i % 4 + 4 * ((i / 4 + i % 4) % 4))) 0

/-- MixColumns of a block. -/
def aesMix (b : List Nat) : List Nat :=
  let a := b.toArray
  (List.range 16).map fun i =>
    let c := i / 4 * 4
    let g (k : Nat) : Nat := a.getD (c + (i + k) % 4) 0
    aesX (g 0) ^^^ (aesX (g 1) ^^^ g 1) ^^^ g 2 ^^^ g 3

/-- The rounds of a block under the round keys that are left; the last mixes no columns. -/
def aesRounds (b : List Nat) (ks : List (List Nat)) : List Nat := match ks with
  | [] => b
  | [k] => xorBytes (aesShift b) k
  | k :: t => aesRounds (xorBytes (aesMix (aesShift b)) k) t

/-- AES-256 of one block under its round keys. -/
def aesBlock (ks : List (List Nat)) (b : List Nat) : List Nat := aesRounds (xorBytes b (ks.headD [])) (ks.drop 1)

/-- A byte string as a number, first byte most significant. -/
def beNat (b : List Nat) : Nat := b.foldl (fun a x => a * 256 + x) 0
/-- A number as `n` bytes, most significant first. -/
def beBytes (n v : Nat) : List Nat := (List.range n).map fun i => v >>> (8 * (n - 1 - i)) % 256
/-- A number as `n` bytes, least significant first, as memory holds it. -/
def leBytes (n v : Nat) : List Nat := (List.range n).map fun i => v >>> (8 * i) % 256
/-- A byte string as a number, first byte least significant. -/
def leNat (b : List Nat) : Nat := b.foldr (fun x a => x + 256 * a) 0

/-- Multiplication in the field of GCM; bit 127 of a number is the first bit of its block. -/
def ghashMul (x y : Nat) : Nat :=
  ((List.range 128).foldl (fun (q : Nat × Nat) i =>
    (if x.testBit (127 - i) then q.1 ^^^ q.2 else q.1, if q.2 % 2 = 1 then (q.2 / 2) ^^^ (0xE1 * 2 ^ 120) else q.2 / 2)) (0, y)).1

/-- GHASH of whole blocks under a hash key. -/
def ghash (h : Nat) (blocks : List Nat) : Nat := blocks.foldl (fun y x => ghashMul (y ^^^ x) h) 0

/-- A byte string as blocks, the last filled up with zeros. -/
def ghashBlocks (b : List Nat) : List Nat :=
  (chunks 16 (b.length / 16 + 1) b).map fun c => beNat (c ++ List.replicate (16 - c.length) 0)

/-- Encrypt or decrypt blocks in counter mode from the counter block `iv`, `c`. -/
def gcmCtr (ks : List (List Nat)) (iv : List Nat) (c : Nat) (blocks : List (List Nat)) : List Nat := match blocks with
  | [] => []
  | b :: t => xorBytes b (aesBlock ks (iv ++ beBytes 4 c)) ++ gcmCtr ks iv (c + 1) t

/-- The tag of a ciphertext with its additional data. -/
def gcmTag (ks : List (List Nat)) (iv aad ct : List Nat) : List Nat :=
  let h := beNat (aesBlock ks (List.replicate 16 0))
  let s := ghash h (ghashBlocks aad ++ ghashBlocks ct ++ [beNat (beBytes 8 (8 * aad.length) ++ beBytes 8 (8 * ct.length))])
  xorBytes (aesBlock ks (iv ++ [0, 0, 0, 1])) (beBytes 16 s)

/-- Open a sealed message: its plaintext, and whether the tag verifies. -/
def gcmOpen (key iv aad ct tag : List Nat) : List Nat × Bool :=
  let ks := aesKeys key
  (gcmCtr ks iv 2 (chunks 16 (ct.length / 16 + 1) ct), gcmTag ks iv aad ct == tag)

end Sys2Proof.Machine
end

