-- ==== Sys2Proof/Machine/Sealed.lean ====
section
/-! DEFINITION. Sealed copies from the host (R390, R391). The model runs the decryption as one step at the copy's end; while its handle fills the
bank units show its destination to no other thread (`State.veils`). -/

namespace Sys2Proof.Machine

/-- Whether a session's port has a locked TDI (R389). -/
def State.sessionLocked (s : State) (e : Session) : Bool := s.host.tdi.getLsbD (bnat e.port)

/-- A sealed copy fails (R391): the destination is zeroed, the handle takes ERR, and the owner's control context gets the event of TYPE
0x0D with the session, the reason and the source address. -/
def State.sealedFails (s : State) (g i : Nat) (c : CopyOp) (j reason : Nat) : State :=
  let code := pcode 1 (s.reportCluster g)
  let w : Wake := ⟨c.task, code, s.now, 0, false⟩
  let (s, _, _) := s.writeSpan g c.tid c.dstPages w 0 (c.n / 128 + 3) c.dst.toNat c.n 0
  let s := s.setCopy g i none
  let s := match c.target with
    | .handle h n _ => s.changeHandle h n 1 true c.task code
    | .phaser _ => s
  let pa := ((pageAt c.srcPages c.src.toNat).map (·.pa)).getD 0
  (s.putEvent (coreOf c.cid) 0x0D 0 c.task [word (j + reason * 2 ^ 8), word pa] c.task (pcode 5 (bnat (s.session j).port))).pumpCluster g

/-- Whether a sealed copy waits for one of its session that was accepted before it, in any cluster (R391). -/
def State.sealedBehind (s : State) (c : CopyOp) : Bool :=
  s.clusters.any fun q => q.2.copies.any fun x => x.sealedBy.isSome && x.sealedBy == c.sealedBy && x.turn < c.turn

/-- The counter of a session moves past an IV it has accepted (R390). -/
def State.sessionNext (s : State) (j : Nat) : State :=
  let e := s.session j
  s.setSession j { e with iv := e.iv + 1 }

/-- SEALED_COPY_END (R390, R391): the sealed copy at place `i` of cluster `g`'s queue ends. Copies on one session are served in acceptance
order. A source that stops answering fails it with a reason the spec does not name (log entry 26). -/
def State.sealedEnd (s : State) (g i : Nat) : State :=
  let q := (s.cluster g).copies
  match q[i]? with
  | none => s
  | some c =>
    match c.sealedBy with
    | none => s
    | some j =>
      if s.sealedBehind c || s.engineHeld g c.dstPages then s
      else
        let e := s.session j
        match c.failed with
        | some r => s.sealedFails g i c j r
        | none =>
          if !e.valid || !s.sessionLocked e then s.sealedFails g i c j 4
          else match s.readSpan g c.tid c.task c.srcPages (c.n / 128 + 4) c.src.toNat (c.n + 32) with
            | (s, .error _) =>
              let (k, s) := s.tick
              s.sealedFails g i c j (Config.freeReason k).toNat
            | (s, .ok v) =>
              if v % 2 ^ 96 ≠ e.iv.toNat then s.sealedFails g i c j 1
              else
                let s := s.sessionNext j
                let key := leBytes 32 ((tfind s.host.keys e.kslot.toNat).getD 0).toNat
                let aad := leBytes 8 e.owner.toNat ++ leBytes 8 c.n
                let (plain, ok) := gcmOpen key (leBytes 12 v) aad (leBytes c.n (v >>> 128)) (leBytes 16 (v >>> (128 + 8 * c.n)))
                if !ok then s.sealedFails g i c j 2
                else
                  let code := pcode 1 (s.reportCluster g)
                  let (s, _, _) := s.writeSpan g c.tid c.dstPages ⟨c.task, code, s.now, 0, false⟩ 0 (c.n / 128 + 3) c.dst.toNat c.n (leNat plain)
                  let s := s.setCopy g i none
                  (match c.target with
                   | .handle h n _ => s.changeHandle h n 2 false c.task code
                   | .phaser _ => s).pumpCluster g

end Sys2Proof.Machine
end

