-- ==== Sys2Proof/Machine/Copy.lean ====
section
/-! DEFINITION. The instructions of the copy engines and buffer tables: CPY (R285, R286), CPSTEP (R293), BHWAIT and BHSET (R289, R290), and
STGREQ (R294). -/

namespace Sys2Proof.Machine

/-- The handle a handle word names (R283): its cluster and number; none where the word is invalid. -/
def State.handleOf (s : State) (w : Word) (ownOnly : Bool) : Option (Nat × Nat) :=
  let me := clusterOf s.cur
  let g := if bit w 19 then s.ownCluster (bits w 18 8) else me
  if bits w 63 20 ≠ 0 || !s.clusterLive g || (ownOnly && g != me) then none else some (g, bits w 7 0)

/-- The data breakpoint check of an instruction that names several addresses (R373): stval is the lowest one that is watched. -/
def State.watchAll (s : State) (as : List (Bool × Nat × Nat)) : Except Stop Unit :=
  let hits := as.filterMap fun (store, va, n) => s.me.watchHit store va n
  match hits.foldl (fun (o : Option (Nat × Breakpoint)) p => match o with
      | none => some p
      | some q => if p.1 < q.1 then some p else o) none with
  | none => .ok ()
  | some (a, b) => if bit b.ctl 7 then .error .halt else trap 3 (word a)

/-- A completion target as an instruction names it (R283, R285, R295): a handle of the own cluster, or a phaser whose page is translated now,
with its access fault beside (R78). `none` where it is invalid. -/
def State.targetOf (s : State) (ph : Bool) (w : Word) : Except Stop (State × Option Target × Option Stop) :=
  if ph then
    if bits w 5 0 ≠ 0 then .ok (s, none, none)
    else match s.xlate (s.view s.cur) needW w.toNat with
      | .error .page => .error (Cls.err .store .page w.toNat)
      | .error .access => .ok (s, none, some (Cls.err .store .access w.toNat))
      | .ok (s, x) =>
        let ok := s.accessOk .write x.pa 64 && s.pmpOk (s.view s.cur) (s.view s.cur).priv needW x.pa 64
        .ok (s, if x.mt = .hbm && s.tilesAt none x.pa 64 == [] then some (.phaser x) else none, if ok then none else some (Cls.err .store .access w.toNat))
  else .ok (s, (s.handleOf w true).map fun p => .handle p.1 p.2 w, none)

/-- Whether a target can take an operation (R284): a handle must be free. -/
def State.targetFree (s : State) (t : Target) : Bool := match t with
  | .handle g h _ => (s.handle g h).st == 0
  | .phaser _ => true

/-- A target takes an operation: a handle goes from free to filling, ERR clear (R284). -/
def State.targetTaken (s : State) (t : Target) (code : BitVec 32) : State := match t with
  | .handle g h _ => s.changeHandle g h 1 false s.me.qtid code
  | .phaser _ => s

/-- The CPY of R285 to R287, in the order of R78. A full copy queue leaves it to be presented again. -/
def State.copyIssue (s : State) (dc ph : Bool) (rd rs1 rs2 rs3 : Reg) : Res := do
  let w := s.xr rd
  let dst := s.xr rs1
  let src := s.xr rs2
  let n := (s.xr rs3).toNat
  let g := clusterOf s.cur
  if (s.cluster g).busy then .error (.left s)
  else do
    let (s, dp, sp, late) ← s.copyScan (s.view s.cur) dc dst.toNat src.toNat n
    let (s, target, late2) ← s.targetOf ph w
    let (s, sp, j, late3) ← s.sealedScan (s.view s.cur) sp dc src.toNat n
    raiseLate ((late.or late2).or late3)
    need (n ≤ 2 ^ 32 && !(dc && (n % 4096 != 0 || bits src 3 0 != 0))) 29 w
    match target with
    | none => trap 29 w
    | some t => do
      need (s.copyRangesOk j g s.me.qtid dc ph dp sp dst.toNat src.toNat n) 29 w
      need (s.targetFree t) 29 w
      s.watchAll ([(true, dst.toNat, 1), (false, src.toNat, 1)] ++ if ph then [(true, w.toNat, 1)] else [])
      if Config.copyQueueSize ≤ s.copyLoad g then .error (.left s)
      else
        let s := (s.targetTaken t (pcode 1 (s.reportCluster g))).veil j t dp dst.toNat n
        let c : CopyOp := ⟨src, dst, n, dc, t, sp, dp, s.cur, s.me.qtid, s.me.pc, s.me.tid, 0, 0, j, none, none, s.now, s.sealedTurn j⟩
        let s := s.modCluster g fun k => { k with copies := k.copies ++ [c] }
        -- a CPY of no bytes completes as soon as it is accepted
        .ok (if n = 0 && j.isNone then s.copyAdvance g ((s.cluster g).copies.length - 1) 0 else s)

/-- CPY (R285). -/
def execCpy (rd rs1 rs2 rs3 : Reg) (s : State) : Host.Outcome State Fault Refusal := s.done (s.copyIssue false false rd rs1 rs2 rs3)
/-- CPY.DC (R285). -/
def execCpyDc (rd rs1 rs2 rs3 : Reg) (s : State) : Host.Outcome State Fault Refusal := s.done (s.copyIssue true false rd rs1 rs2 rs3)
/-- CPY.PH (R285). -/
def execCpyPh (rd rs1 rs2 rs3 : Reg) (s : State) : Host.Outcome State Fault Refusal := s.done (s.copyIssue false true rd rs1 rs2 rs3)
/-- CPY.DC.PH (R285). -/
def execCpyDcPh (rd rs1 rs2 rs3 : Reg) (s : State) : Host.Outcome State Fault Refusal := s.done (s.copyIssue true true rd rs1 rs2 rs3)

/-- CPSTEP (R293): a release that posts the advance of the launch's stage counter. -/
def execCpstep (rs1 : Reg) (s : State) : Host.Outcome State Fault Refusal :=
  s.done (.ok (s.enter (.cpstep s.me.launch (min (s.xr rs1).toNat 255)) true))

/-- The wake that the last change of a handle gives (R289). -/
def Handle.wake (h : Handle) : Wake := ⟨h.task, h.code, h.time, h.word, false⟩

/-- BHWAIT (R289): at once where the handle is in the set or has ERR; else the context waits. -/
def execBhwait (rd rs1 rs2 : Reg) (s : State) : Host.Outcome State Fault Refusal :=
  let hw := s.xr rs1
  let set := s.xr rs2
  s.done (
    match s.handleOf hw false with
    | none => trap 29 hw
    | some (g, h) =>
      if bits set 3 0 = 0 || bits set 63 4 ≠ 0 then trap 29 hw
      else
        let x := s.handle g h
        if x.err || bit set x.st.toNat then .ok (s.zeroWaitMe.setXr rd x.word)
        else .error (.left (s.leave .bhwait hw set rd { Xlat.none with pa := g * 256 + h } none)))

/-- BHSET (R290): a release at .sy, then the transition. -/
def execBhset (rs1 rs2 : Reg) (s : State) : Host.Outcome State Fault Refusal :=
  let hw := s.xr rs1
  s.done (
    match s.handleOf hw false with
    | none => trap 29 hw
    | some (g, h) =>
      let v := s.xr rs2
      if v ≠ 0 && v ≠ 3 then trap 29 hw
      else
        let s := s.settleMe
        let x := s.handle g h
        let ok := if v = 3 then x.st == 2 else x.st == 2 || x.st == 3 || (x.st == 1 && x.err)
        if ok then .ok (s.changeHandle g h (BitVec.ofNat 2 v.toNat) (x.err && v == 3) s.me.qtid (pcode 0 (s.reportCore (coreOf s.cur))))
        else .error (.left (s.raise 29 hw)))

/-- The entries of a declaration that STGREQ reads (R294): store causes, read permission; none for one with a field out of range. -/
def State.stgreqEntries (s : State) (va n : Nat) : Except Stop (State × List (Option StageEntry)) :=
  match n with
  | 0 => .ok (s, [])
  | k + 1 => do
    let (s, _, v) ← s.deviceRead .store needR va 16
    let (s, r) ← s.stgreqEntries (va + 16) k
    .ok (s, stageEntry (v % 2 ^ 64) (v >>> 64) :: r)

/-- Translate the entries of a STGREQ at its issue (R191, R294), with the first access fault beside: every page fault of the instruction goes before
it (R78). -/
def State.stgreqPages (s : State) (es : List StageEntry) : Except Stop (State × List StageEntry × Option Stop) :=
  match es with
  | [] => .ok (s, [], none)
  | e :: t => do
    let (s, ps, late) ← s.scanPages (s.view s.cur) .store needR false (e.len / 4096 + 2) e.x.va (e.x.va + e.len)
    let (s, r, late2) ← s.stgreqPages t
    .ok (s, { e with pages := ps, started := true } :: r, late.or late2)

/-- STGREQ (R294): ask the dispatcher of the target's die to stage a declaration. Entries with a scratchpad destination are ignored. The faults of
the other entries' pages come before the task fault of a bad field (R78). -/
def execStgreq (rs1 rs2 : Reg) (s : State) : Host.Outcome State Fault Refusal :=
  let va := s.xr rs1
  s.done (do
    need (bits va 3 0 == 0) 6 va
    let (s, _, h) ← s.deviceRead .store needR va.toNat 16
    let n := h % 16
    let dl := h >>> 64
    let headOk := n != 0 && n ≤ 8 && (h % 2 ^ 64) >>> 4 == 0 && dl >>> 32 == 0
    let n := if headOk then n else 0
    let (s, _) ← s.pages .store needR (va.toNat + 16) (16 * n)
    let (s, rs) ← s.stgreqEntries (va.toNat + 16) n
    let (s, es, late) ← s.stgreqPages ((rs.filterMap id).filter fun e => !e.scratch)
    raiseLate late
    let k := s.ownCore ((s.xr rs2).toNat)
    need (headOk && rs.all Option.isSome && (s.xr rs2).toNat < Config.coreCount && s.coreLive k) 31 va
    s.watch true va.toNat 1
    let g : Staging := ⟨k, none, es, s.me.tid, s.now, if dl = 0 then bits s.qmstage 51 20 else dl, false, false, none⟩
    .ok (s.modDie (dieOfCore k) fun d => { d with stagings := d.stagings ++ [g] }))

end Sys2Proof.Machine
end

