-- ==== Sys2Proof/Machine/TaskOps.lean ====
section
/-! DEFINITION. The task instructions (R333 to R337): SPAWN, TNEXT, TARM, LAUNCH, TRESUME and TKILL. -/

namespace Sys2Proof.Machine

/-- A trap of the issuing context after what it has waited for has happened. -/
def State.late (s : State) (cause : Nat) (v : Word) : Res := .error (.left (s.raise cause v))

/-- The data breakpoint check of an instruction whose last causes need its object's contents: it comes after them all (R78). -/
def State.watched (s : State) (store : Bool) (va n : Nat) (r : Res) : Res := do
  let t ← r
  s.watch store va n
  .ok t

/-- Move the 8 oldest hardware entries that are not running to the ring of core `k` (R316, R317): one block of 512 bytes, with the store
causes. -/
def State.spillBobbin (s : State) (k : Nat) : Res := do
  let c := s.core k
  let size := bits c.qdeqsize 19 0
  let count := bits c.qdeqsize 39 20
  let out := (c.bobbin.filter fun t => t.running.isNone).take 8
  let va := c.qdeqbase.toNat + 64 * ((bits c.qdeqsize 59 40 + count) % max 1 size)
  let (s, ps) ← s.pages .store needW va 512
  need (ps.all fun x => x.mt != .io) 7 (word va)
  let w := s.byCtx s.cur
  let g := clusterOf s.cur
  let s := out.zipIdx.foldl (fun s (t, i) => match pageAt ps (va + 64 * i) with
    | some x => s.writeMem g s.me.tid x 64 t.record none w s.me.launch
    | none => s) s
  let ids := out.map (·.id)
  .ok (s.modCore k fun c => { c with
    bobbin := c.bobbin.filter fun t => !(t.running.isNone && ids.contains t.id)
    ring := c.ring ++ out, ringSatp := s.me.satp, qdeqsize := setRingCount c.qdeqsize (count + out.length) })

/-- Push a spawned task on its core's bobbin, or enqueue it on the die R325 chooses: it has a new ID and is live. -/
def State.spawnTo (s : State) (l : Launch) (t : TaskEntry) (here : Bool) : State :=
  let d := dieOf s.cur
  let (s, id) := s.newId t.launch d
  let s := s.modLaunch t.launch fun l => { l with live := l.live + 1 }
  let t := { t with id := id, tReady := s.now }
  if here then ((s.pushEntry (coreOf s.cur) t).declareStaging (coreOf s.cur) t).trimHorizon (coreOf s.cur)
  else match s.placeDie l t d with
    | some e => s.enqueueReady e t
    | none => s

/-- SPAWN with its record read and valid (R333), once every earlier event of the context is performed. -/
def State.spawnRecord (s : State) (rd : Reg) (r : Word) (v : Nat) : Res :=
  let me := s.me
  let t := { entryOf v r me.satp me.launch with prodTask := me.qtid, prodCode := pcode 0 (s.reportCore (coreOf s.cur)), prodAt := s.now }
  match s.launchAt me.launch with
  | none => s.late 31 r
  | some l =>
    let ds := s.allowedDies l t.affinity
    if ds = [] then s.late 31 r
    else if !ds.contains (dieOf s.cur) then .ok ((s.spawnTo l t false).setXr rd 0)
    else
      let k := coreOf s.cur
      let c := s.core k
      let size := bits c.qdeqsize 19 0
      if c.bobbin.length < Config.bobbinSize then .ok ((s.spawnTo l t true).setXr rd 0)
      else if size = 0 || size < bits c.qdeqsize 39 20 + 8 then .ok (s.setXr rd 1)
      else match s.spillBobbin k with
        | .ok s => .ok ((s.spawnTo l t true).setXr rd 0)
        | .error (.exc cause a) => s.late cause a
        | .error e => .error e

/-- SPAWN (R333). -/
def execSpawn (rd rs1 : Reg) (s : State) : Host.Outcome State Fault Refusal :=
  let r := s.xr rs1
  s.done (do
    let (s, _, v) ← s.deviceRead .load needR r.toNat 64
    need (bits r 5 0 == 0 && recordValid v) 31 r
    s.watched false r.toNat 64 (s.settleMe.spawnRecord rd r v))

/-- TNEXT (R334). -/
def execTnext (rd : Reg) (s : State) : Host.Outcome State Fault Refusal :=
  s.done (.ok (
    match s.me.task with
    | none => s.setXr rd allOnes
    | some t =>
      if !t.range || t.hi ≤ t.cur then s.setXr rd allOnes
      else
        let s := s.modCore (coreOf s.cur) fun c =>
          { c with bobbin := c.bobbin.map fun e => if e.id = t.id then { e with cur := e.cur + 1 } else e }
        s.modCtx s.cur fun c => { c.setX rd (word t.cur) with task := some { t with cur := t.cur + 1 } }))

/-- The address of an object that its home holds (R320, R335, R336): device HBM with PBMT 00, else the cause that the instruction names. -/
def State.homeObject (s : State) (va : Word) (n cause : Nat) (ok : Bool) (tval : Word) : Except Stop (State × Xlat) := do
  let (s, x) ← s.access .store needRW .write va.toNat (if ok then n else 1)
  need (ok && x.mt == .hbm) cause tval
  .ok (s, x)

/-- TARM at the counter's home (R335). -/
def State.armCounter (s : State) (c rec_ : Word) (x : Xlat) : Res :=
  let (s, v) := s.homeReadX x 0 16
  let n := v % 2 ^ 32
  let w := s.byCtx s.cur
  if n = 0 then .ok ((s.homeWriteX x 0 4 1 w s.me.launch).homeWriteX x 8 8 rec_.toNat w s.me.launch)
  else if v >>> 64 ≠ rec_.toNat || n = 2 ^ 32 - 1 then s.late 31 c
  else .ok (s.homeWriteX x 0 4 (n + 1) w s.me.launch)

/-- TARM (R335). -/
def execTarm (rs1 rs2 : Reg) (s : State) : Host.Outcome State Fault Refusal :=
  let c := s.xr rs1
  let rec_ := s.xr rs2
  s.done (do
    let (s, x) ← s.homeObject c 16 31 (bits c 3 0 == 0 && bits rec_ 5 0 == 0) c
    s.watched true c.toNat 16 (s.settleMe.armCounter c rec_ x))

/-- LAUNCH at the queue header's home (R336): a slot of the queue is written and the dispatcher of the die that serves it is told. -/
def State.pushLaunch (s : State) (rd : Reg) (q rec_ : Word) (pa : Nat) : Res :=
  match s.queueHeader pa with
  | none => s.late 49 q
  | some (s, w) =>
    let size := w.getD 1 0 % 2 ^ 32
    let tail := w.getD 3 0
    if size ≤ (word tail - word (w.getD 4 0)).toNat then .ok (s.setXr rd 1)
    else
      let by_ := s.byCtx s.cur
      let s := s.homeWrite (s.ownPa (if 2 ^ 41 ≤ pa then 8 else 0) (w.getD 0 0) + 8 * (tail % size)) 8 (rec_.toNat + 1) by_ s.me.launch
      let s := s.homeWrite (pa + 0x18) 8 ((tail + 1) % 2 ^ 64) by_ s.me.launch
      let me := s.me
      .ok ((s.doorbellAt (w.getD 1 0 >>> 32 % 16) pa (some (tail, s.cur, s.now, me.qtid)) 0).setXr rd 0)

/-- LAUNCH (R336). stval is the launch record's address where the header's page is not device HBM with PBMT 00: R336 gives the cause of that check and no
stval (DESIGN CHOICE, log entry 96). -/
def execLaunch (rd rs1 rs2 : Reg) (s : State) : Host.Outcome State Fault Refusal :=
  let q := s.xr rs1
  let rec_ := s.xr rs2
  s.done (do
    let (s, x) ← s.homeObject q 64 49 (bits q 5 0 == 0 && bits rec_ 7 0 == 0) rec_
    s.watched true q.toNat 64 (s.settleMe.pushLaunch rd q rec_ x.pa))

/-- The physical address of the fault-queue entry that the issuing context names (R337, R381). -/
def State.entryPa (s : State) (p : Word) : Nat := s.ownPa (dieOf s.cur) p.toNat

/-- The fault-queue entry that TRESUME and TKILL name (R337): S mode only; its state must be 0 once the earlier events are performed. -/
def State.entryNamed (s : State) (i : Instr) (p : Word) (f : State → Nat → State) : Res :=
  if s.me.priv = .u then illegal i
  else match s.faultEntry (s.entryPa p) with
    | none => trap 31 p
    | some d =>
      let s := s.settleMe
      let (s, e) := s.homeReadLines (s.entryPa p) 1
      if e >>> 448 % 4 ≠ 0 then s.late 31 p else .ok (f s d)

/-- TRESUME (R337). -/
def execTresume (rs1 : Reg) (s : State) : Host.Outcome State Fault Refusal :=
  let p := s.xr rs1
  s.done (s.entryNamed (.tresume rs1) p fun s d => s.resumeEntry (s.entryPa p) d (s.byCtx s.cur))

/-- TKILL (R337). -/
def execTkill (rs1 : Reg) (s : State) : Host.Outcome State Fault Refusal :=
  let p := s.xr rs1
  s.done (s.entryNamed (.tkill rs1) p fun s d => s.killEntry (s.entryPa p) d (s.byCtx s.cur))

end Sys2Proof.Machine
end

