-- ==== Sys2Proof/Machine/CritPath.lean ====
section
/-! DEFINITION. Events and the critical path: EVPOP and EVWAIT (R360), CPMARK and TRACE (R365), and CPDUMP (R366). -/

namespace Sys2Proof.Machine

/-- A range that a device instruction writes as stores of its context: its pages, refusals, a watch, and a peer that does not answer. -/
def State.deviceWrite (s : State) (va n : Nat) : Except Stop (State × Pages) := do
  let (s, ps) ← s.pages .store needW va n
  match s.refusedUnit ps va n with
  | some pa => trap 25 (word pa)
  | none => do
    s.watch true va n
    match ps.find? fun x => s.silent x.pa with
    | some x => s.mute x.pa false
    | none => .ok (s, ps)

/-- Write `n` units of 16 bytes through captured pages, after the context's earlier stores. -/
def State.putUnits (s : State) (ps : Pages) (va n v : Nat) : State :=
  match n with
  | 0 => s
  | k + 1 =>
    let s := match pageAt ps va with
      | some x => s.writeMem (clusterOf s.cur) s.me.tid x 16 (v % 2 ^ 128) (some s.cur) (s.byCtx s.cur) s.me.launch
      | none => s
    s.putUnits ps (va + 16) k (v >>> 128)

/-- The oldest event popped (R360): written at `a` where the rs1 field is not x0. -/
def State.popEvent (s : State) (rd : Reg) (store : Bool) (a : Word) : Res :=
  let k := coreOf s.cur
  match (s.core k).evq with
  | [] => .ok (s.setXr rd 0)
  | e :: _ => do
    let s ← (if store then do
        need (bits a 3 0 == 0) 6 a
        let (s, ps) ← s.deviceWrite a.toNat e.size
        .ok ((s.drainStores s.cur).putUnits ps a.toNat (e.size / 16) e.bytes)
      else .ok s : Res)
    .ok ((s.modCore k fun c => { c with evq := c.evq.drop 1 }).setXr rd (word e.size))

/-- EVPOP (R360): context 0 only. -/
def execEvpop (rd rs1 : Reg) (s : State) : Host.Outcome State Fault Refusal :=
  s.done (if ctxNum s.cur ≠ 0 then illegal (.evpop rd rs1) else s.popEvent rd (rs1 != 0) (s.xr rs1))

/-- EVWAIT (R360): context 0 only; it waits until the queue is not empty. -/
def execEvwait (rd rs1 : Reg) (s : State) : Host.Outcome State Fault Refusal :=
  s.done (
    if ctxNum s.cur ≠ 0 then illegal (.evwait rd rs1)
    else if (s.core (coreOf s.cur)).evq = [] then
      .error (.left (s.leave .evwait (s.xr rs1) (word (bnat (rs1 != 0))) rd Xlat.none none))
    else s.zeroWaitMe.popEvent rd (rs1 != 0) (s.xr rs1))

/-- CPMARK (R365). -/
def execCpmark (rs1 : Reg) (s : State) : Host.Outcome State Fault Refusal :=
  s.done (.ok (s.enter (.cpmark ((s.xr rs1).setWidth 32)) false))

/-- TRACE (R365). -/
def execTrace (rs1 rs2 : Reg) (s : State) : Host.Outcome State Fault Refusal :=
  s.done (.ok (s.enter (.trace (s.xr rs1) (s.xr rs2)) false))

/-- An edge record in a die's buffer (R361, R362). -/
structure EdgeRec where
  die : Nat
  place : Nat
  raw : Nat
  deriving DecidableEq, Repr

def EdgeRec.waiter (e : EdgeRec) : Nat := e.raw % 2 ^ 64
def EdgeRec.producer (e : EdgeRec) : Nat := e.raw >>> 64 % 2 ^ 64
def EdgeRec.release (e : EdgeRec) : Nat := e.raw >>> 128 % 2 ^ 64
def EdgeRec.rtype (e : EdgeRec) : Nat := e.raw >>> 224 % 16
def EdgeRec.kind (e : EdgeRec) : Nat := e.raw >>> 220 % 16
def EdgeRec.lag (e : EdgeRec) : Nat := e.raw >>> 228 % 2 ^ 28

/-- The edge records of one die's buffer, from HEAD to TAIL: `n` records from index `j`. -/
def State.edgesOf (s : State) (d j n : Nat) : State × List EdgeRec :=
  match n with
  | 0 => (s, [])
  | k + 1 =>
    let x := s.die d
    let a := s.ownPa d x.rbbase.toNat + 32 * (j % 2 ^ x.logn.toNat)
    let (s, here) := if isHbm (a + 31) then
        let (s, v) := s.homeRead a 32
        let e : EdgeRec := ⟨d, j, v⟩
        (s, if 1 ≤ e.rtype ∧ e.rtype ≤ 12 then [e] else [])
      else (s, [])
    let (s, r) := s.edgesOf d (j + 1) k
    (s, here ++ r)

/-- The edge records of every die's buffer. -/
def State.allEdges (s : State) (n : Nat) : State × List EdgeRec :=
  match n with
  | 0 => (s, [])
  | d + 1 =>
    let (s, r) := s.allEdges d
    let x := s.die d
    let (s, e) := s.edgesOf d x.head.toNat (x.tail - x.head).toNat
    (s, r ++ e)

/-- Whether a record comes before another in a walk's choice (R366): later release, then lower die, then later place. -/
def EdgeRec.beats (a b : EdgeRec) : Bool :=
  b.release < a.release || (a.release == b.release && (a.die < b.die || (a.die == b.die && b.place < a.place)))

/-- The walk of R366: the records in order, latest first, and whether it was cut short. `room` is how many more fit. -/
def walkBack (fuel : Nat) (es : List EdgeRec) (id t t0 room : Nat) : List EdgeRec × Bool :=
  match fuel with
  | 0 => ([], false)
  | k + 1 =>
    let best := (es.filter fun e => e.waiter == id && t0 ≤ e.release && e.release ≤ t).foldl (fun (b : Option EdgeRec) e =>
      match b with
      | none => some e
      | some q => if e.beats q then some e else b) none
    match best with
    | none => ([], false)
    | some e =>
      if room = 0 then ([], true)
      else if e.kind = 4 || e.kind = 5 || e.kind = 6 || e.producer = 0 then ([e], false)
      else
        let (r, c) := walkBack k (es.filter (· ≠ e)) e.producer (e.release - e.lag) t0 (room - 1)
        (e :: r, c)

/-- CPDUMP (R366). -/
def execCpdump (rd rs1 rs2 : Reg) (s : State) : Host.Outcome State Fault Refusal :=
  let b := s.xr rs1
  let len := (s.xr rs2).toNat
  s.done (do
    need (bits b 4 0 == 0) 6 b
    let (s, ps) ← s.deviceWrite b.toNat len
    if len < 32 then .ok (s.setXr rd 0)
    else
      let s := s.drainStores s.cur
      let d := s.die (dieOf s.cur)
      let (s, es) := s.allEdges Config.dieCount
      let (path, trunc) := walkBack (es.length + 1) es s.me.qtid.toNat s.now d.t0.toNat ((len - 32) / 32)
      let n := path.length
      let s := s.putUnits ps b.toNat 2 (d.step.toNat + d.t0.toNat * 2 ^ 64 + s.time.toNat * 2 ^ 128 + (n + bnat trunc * 2 ^ 32) * 2 ^ 192)
      let s := path.zipIdx.foldl (fun s (e, i) => s.putUnits ps (b.toNat + 32 + 32 * i) 2 e.raw) s
      .ok (s.setXr rd (word (32 + 32 * n))))

end Sys2Proof.Machine
end

