-- ==== Sys2Proof/Machine/Helper.lean ====
section
/-! DEFINITION. Helpers and the loop: HSTART, HEXIT, HJOIN, FALIGN, LOOP.SET and LOOP.CLR (R106 to R111). -/

namespace Sys2Proof.Machine

/-- Slot `j` of a core as HSTART sees it (R106): Idle, with no unread latch. -/
def State.helperFree (s : State) (k j : Nat) : Bool :=
  (s.ctx (k * 12 + j)).status = .idle && !s.claimed (k * 12 + j) && (tfind (s.core k).latches j).isNone

/-- A helper's first state (R106): `c0` is context 0, `id` its new task ID. -/
def Ctx.helper (c c0 : Ctx) (id pc arg : Word) (bps : Vector Breakpoint 4) : Ctx :=
  let h := { c.newThread with
    satp := c0.satp, stvec := c0.stvec, scounteren := c0.scounteren, senvcfg := c0.senvcfg, qfdisp := c0.qfdisp, qmxcap := c0.qmxcap
    qtensid := c0.qtensid, qprio := c0.qprio, prioMax := c0.prioMax, frm := c0.frm, pc := pc, qtid := id, launch := c0.launch
    rank := c0.rank, hstarted := true, bp := bps }
  { h.setX 10 arg with mstatus := h.mstatus ||| (c0.mstatus &&& 0xC0000#64) }

/-- HSTART (R106): a fork, after every earlier event of context 0. -/
def execHstart (rd rs1 rs2 : Reg) (s : State) : Host.Outcome State Fault Refusal :=
  s.done (
    if ctxNum s.cur ≠ 0 then illegal (.hstart rd rs1 rs2)
    else if bits (s.xr rs1) 1 0 ≠ 0 then trap 0 (s.xr rs1)
    else
      let entry := s.xr rs1
      let arg := s.xr rs2
      let s := s.settleMe
      let k := coreOf s.cur
      match ((List.range 10).map (· + 1)).find? (s.helperFree k) with
      | none => .ok (s.setXr rd 0)
      | some j =>
        let c0 := s.me
        let (s, id) := s.newId c0.launch (dieOf s.cur)
        let cid := k * 12 + j
        let s := s.setCtx cid ((s.ctx cid).helper c0 (word (bits c0.qtid 63 32 * 2 ^ 32 + bits id 31 0)) entry arg
          (s.launchBps (dieOf cid) (bits c0.qtid 51 32)))
        .ok (s.setXr rd (word j)))

/-- A context ends, its earlier stores performed, its vector instructions completed and its sends decided (R107, R247). -/
def State.hexitNow (s : State) (cid : Nat) (v : Word) : State :=
  let s := s.settle cid
  let c := s.ctx cid
  (match c.task with
   | some t => s.taskExit cid t
   | none => if ctxNum cid = 0 then s.endControl cid c.launch c.rank c.qtid v else s.endHelper cid v (s.byCtx cid)).ended (coreOf cid) c.launch

/-- HEXIT (R107): context 0 first waits for the helpers of its core that HSTART started. -/
def execHexit (rs1 : Reg) (s : State) : Host.Outcome State Fault Refusal :=
  let v := s.xr rs1
  s.done (
    if ctxNum s.cur ≠ 0 then .error (.left (s.hexitNow s.cur v))
    else if s.helpersGone (coreOf s.cur) then .error (.left (s.zeroWaitMe.hexitNow s.cur v))
    else .error (.left (s.leave .hexit v 0 0 Xlat.none none)))

/-- HJOIN (R108). -/
def execHjoin (rd rs1 : Reg) (s : State) : Host.Outcome State Fault Refusal :=
  let v := s.xr rs1
  let k := coreOf s.cur
  let n := v.toNat
  s.done (
    if n = 0 ∨ 10 < n then .ok (s.zeroWaitMe.setXr rd 0)
    else match tfind (s.core k).latches n with
      | some x => .ok ((s.zeroWaitMe.modCore k fun c => { c with latches := tdel c.latches n }).setXr rd x)
      | none =>
        let c := s.ctx (k * 12 + n)
        -- a saved helper holds a Reserved slot
        if c.hstarted || c.status = .reserved then .error (.left (s.leave .hjoin v 0 rd Xlat.none none))
        else .ok (s.zeroWaitMe.setXr rd 0))

/-- Whether every other Running or Waiting context of context `cid`'s launch in its cluster waits in a FALIGN at the same pc (R109). -/
def State.aligned (s : State) (cid : Nat) : Bool :=
  let c := s.ctx cid
  (List.range 48).all fun j =>
    let d := clusterOf cid * 48 + j
    let o := s.ctx d
    d == cid || o.launch != c.launch || !(o.status = .running || o.status = .waiting) ||
      ((o.wait.map fun w => w.kind) == some .falign && o.pc == c.pc)

/-- Release every FALIGN of a cluster whose condition holds (R109). -/
def State.falignRelease (s : State) (cid : Nat) : State :=
  let c := s.ctx cid
  s.wakeIf (fun d w => w.kind = .falign && clusterOf d == clusterOf cid && (s.ctx d).launch == c.launch && (s.ctx d).pc == c.pc)
    (s.byCtx cid)

/-- FALIGN (R109): no effect but on time. -/
def execFalign (rs1 : Reg) (s : State) : Host.Outcome State Fault Refusal :=
  let b := min (s.xr rs1).toNat 65535
  s.done (
    if b = 0 then .ok s
    else if s.aligned s.cur then .ok (s.falignRelease s.cur)
    else .error (.left (s.leave .falign (word b) 0 0 Xlat.none (some ((s.cycle (dieOf s.cur)).toNat + b)))))

/-- No loop: ARMED, COUNT and LEN 0 (R111). -/
def Ctx.loopClear (c : Ctx) : Ctx := { c with qloop := c.qloop &&& 0x4000000000000000#64 }

/-- The MODE bit of an armed loop (R110): the spec gives none for M mode. -/
def loopMode (p : Priv) : Bool := match p with
  | .u => false | .s => true | .m => Config.freeLoopMode

/-- The context with a loop armed (R111). -/
def Ctx.loopArm (c : Ctx) (n imm : Nat) : Ctx :=
  { c with qloop := word (min n (2 ^ 32 - 1) + (imm - 1) * 2 ^ 32 + bnat (loopMode c.priv) * 2 ^ 62 + 2 ^ 63), loopStart := c.pc + 4 }

/-- LOOP.SET (R111). -/
def execLoopSet (rs1 : Reg) (imm : BitVec 12) (s : State) : Host.Outcome State Fault Refusal :=
  s.done (
    if imm = 0 then (if rs1 = 0 then .ok (s.modCtx s.cur Ctx.loopClear) else illegal (.loopSet rs1 imm))
    else
      let n := (s.xr rs1).toNat
      .ok (s.modCtx s.cur fun c => if n = 0 then c.loopClear else c.loopArm n imm.toNat))

/-- LOOP.CLR (R111). -/
def execLoopClr (s : State) : Host.Outcome State Fault Refusal := s.done (.ok (s.modCtx s.cur Ctx.loopClear))

end Sys2Proof.Machine
end

