-- ==== Sys2Proof/Machine/Host.lean ====
section
/-! DEFINITION. Host, peers, security, power and bring-up (R385 to R399): requests of the host, the security alarm, the timebase's
discipline, power and clock steps, and module reset. -/

namespace Sys2Proof.Machine

/-- Answer the host. -/
def State.answer (s : State) (r : HostReply) : State := { s with host := { s.host with reply := r } }

/-- A write that the host makes at a port: a doorbell keeps the port for the launch's producer code (R311, R363). -/
def State.portWrite (s : State) (port pa n : Nat) (v : Word) : State :=
  match s.cfgBlock pa, n with
  | some (.dispatcher d 0), 8 => s.doorbellAt d (bits v 55 0) none (port % 2)
  | _, _ => s.cfgWrite pa n v

/-- HOST_BAR2_REQUEST (R386): before bring-up ends, reads return all ones; a port whose TDI is locked accepts only protected requests of the
locked TDI's stream; an alarm's lock refuses all; an address that no live unit has, and an access that is not naturally aligned (R400, log
entry 30), complete with Unsupported Request. -/
def State.bar2 (s : State) (port pa n : Nat) (v : Word) (store ide : Bool) : State :=
  if !s.host.up && !store then s.answer (.data (word (2 ^ (8 * n) - 1)))
  else if s.host.refuseBar2 || (s.host.tdi.getLsbD port && !ide) || regionOf pa != .cfg ||
      !(s.accessOk (if store then .write else .read) pa n) then s.answer .unsupported
  else if store then (s.portWrite port pa n v).answer .none
  else s.answer (.data (word (s.cfgRead pa n)))

/-- A request of the host through a port's BAR0 (R386): the host-interface block of R389 at the top 4 KiB, by the rules of R400, and below it the
port's mailbox, whose bytes are what was written to them. Where the two lie in the 64 KiB is the model's (DESIGN CHOICE, log entry 101). -/
def State.bar0 (s : State) (port off n : Nat) (v : Word) (store : Bool) : State :=
  if !s.host.up && !store then s.answer (.data (word (2 ^ (8 * n) - 1)))
  else if 0x10000 < off + n || 2 ≤ port then s.answer .unsupported
  else if 0xF000 ≤ off then
    let pa := 0x40E000000000 + (off - 0xF000)
    if !(s.accessOk (if store then .write else .read) pa n) then s.answer .unsupported
    else if store then (s.cfgWrite pa n v).answer .none
    else s.answer (.data (word (s.cfgRead pa n)))
  else
    let a := port * 65536 + off
    if store then ({ s with host := { s.host with mailbox := mwrite s.host.mailbox a n v.toNat } } : State).answer .none
    else s.answer (.data (word (mread s.host.mailbox a n)))

/-- SPDM GET_MEASUREMENTS (R394), which a port carries: the answer names the fuses, the harvest map and the measured images. -/
def State.measured (s : State) : State := s.answer (.report s.host.fuses s.host.absent s.host.measurements)

/-- A peer's link stops answering, or answers again (R196, R392). -/
def State.peerLink (s : State) (p : Nat) (mute : Bool) : State :=
  { s with host := { s.host with mutePeers := if mute then s.host.mutePeers.filter (· ≠ p) ++ [p] else s.host.mutePeers.filter (· ≠ p) } }

/-- Firmware puts the key of an SPDM session into a key slot, which no agent can read (R389). -/
def State.installKey (s : State) (slot : Nat) (key : BitVec 256) : State :=
  if slot < 64 then { s with host := { s.host with keys := tput s.host.keys slot key } } else s

/-- The bytes of a line that a byte mask names, written at home by an agent outside the module (R24, R387), named by the producer code
`code`: one write ends the reservations of the line. -/
def State.outerWrite (s : State) (code : BitVec 32) (line : Nat) (m : BitVec 128) (d : LineData) : State :=
  let s := s.loseReservations line none none ⟨0, code, s.now, 0, false⟩
  let s := s.homeOwn line
  let s := { s with mem := mmerge s.mem (line * lineBytes) lineBytes m.toNat d.toNat }
  (s.streamWrite line false m d 0 0).restorePhaser (line * lineBytes) lineBytes

/-- A line read at home by an agent outside the module (R24, R387, R399): tiles recalled, accepted accumulates applied, dirty bytes that
coherence reaches written back. -/
def State.outerRead (s : State) (line : Nat) : State :=
  let w := s.sliceWake 0 (homeSlice (line * lineBytes) 0 0)
  let s := (((s.recallTiles none line 255 w).applyPending line).recallDirty none none line 255).settleLine line
  s.answer (.line (mline s.mem line))

/-- The host's copy of a line it has read over CXL.mem at a port (R387). -/
def State.holdLine (s : State) (line port : Nat) : State :=
  if s.host.hostLines.contains (line, port) then s else { s with host := { s.host with hostLines := s.host.hostLines ++ [(line, port)] } }

/-- Whether an agent outside the module may reach a physical address (R24, R385, R387): 0 the host over CXL.mem at port `a`, which device
HBM alone is exposed to; 1 peer `a`, to device HBM; 2 a host agent, to host memory; 3 an agent of peer `a`, to that peer's memory. -/
def State.outerReaches (s : State) (agent a pa : Nat) : Bool :=
  s.host.up && match agent with
    | 0 => s.host.cxl.getLsbD a && isHbm pa
    | 1 => s.host.peers.contains a && isHbm pa
    | 2 => regionOf pa == .host
    | 3 => s.host.peers.contains a && (match regionOf pa with
      | .peer p off => p == a && decide (off < 0x40000000000)
      | _ => false)
    | _ => false

/-- HOST_CXL_MEM_ACCESS (R24, R385, R387), and with it the accesses of the other agents outside the module that R24 lists: they meet the
module's caches as the host's do, and only the host over CXL.mem keeps a copy. -/
def State.cxlMem (s : State) (agent a line : Nat) (store : Bool) (m : BitVec 128) (d : LineData) : State :=
  if !s.outerReaches agent a (line * lineBytes) then s.answer .unsupported
  else if store then
    let code := if agent % 2 = 0 then pcode 5 a else pcode 4 (a * 2 ^ 16)
    -- in compare mode a host write to device HBM is performed in both twins (R381)
    (if s.replay.cmp && agent = 0 then (s.outerWrite code (line % 2 ^ 34) m d).outerWrite code (line % 2 ^ 34 + 2 ^ 34) m d
     else s.outerWrite code line m d).answer .none
  else if agent = 0 then (s.outerRead line).holdLine line a
  else s.outerRead line

/-- SNOOP_HOST_TIMEOUT (R399): the host's copy counts as lost after qmtmo, the line is home's, and firmware is told the ports that did not answer. -/
def State.snoopTimeout (s : State) (line : Nat) : State :=
  match s.host.hostLines.filter fun p => p.1 == line with
  | [] => s
  | ps =>
    let s := s.backInvalidate line
    { s with now := s.now + s.tmo, host := { s.host with reported := s.host.reported ++ ps.map (·.2) } }

/-- A security alarm (R394) under the policy of the fuses, 0 log, 1 lock, 2 erase, which firmware has raised to `raised` at most. -/
def State.alarm (s : State) (raised : Nat) : State :=
  let policy := min 2 (max s.host.policy raised)
  let s := { s with host := { s.host with fwLog := s.host.fwLog + 1, alarms := s.host.alarms + 1, policy := policy } }
  if policy = 0 then s
  else
    let s := { s with sessions := s.sessions.map (fun q => (q.1, { q.2 with valid := false })), host := { s.host with tdi := 0, refuseBar2 := true } }
    if policy = 1 then s
    else
      let failing (c : CopyOp) : CopyOp := if c.sealedBy.isSome && c.failed.isNone then { c with failed := some 3 } else c
      { s with host := { s.host with keys := [] }
               clusters := s.clusters.map (fun q => (q.1, { q.2 with copies := q.2.copies.map failing })) }

/-- TDI_LOCK (R386, R389): a port's TDI is locked or unlocked. -/
def State.tdiLock (s : State) (port : Nat) (lock : Bool) : State :=
  if 2 ≤ port then s
  else
    let b : BitVec 2 := BitVec.ofNat 2 (2 ^ port)
    { s with host := { s.host with tdi := if lock then s.host.tdi ||| b else s.host.tdi &&& ~~~b } }

/-- PTP_MASTER_LOSS (R393): the timebase runs free, within 5 ppm. -/
def State.masterLoss (s : State) : State :=
  let (k, s) := s.tick
  { s with host := { s.host with freeRun := true, ppm := (Config.freeDrift k % 11 : Nat) - 5 } }

/-- IEEE_1588_DISCIPLINE (R12, R393): a slew of at most 100 ppm. -/
def State.discipline (s : State) (rate : Int) : State :=
  { s with host := { s.host with freeRun := false, ppm := max (-100) (min 100 rate) } }

/-- Whether a cluster has no pending copy, matrix or vector work, and no enabled time-triggered entry names a core of it (R397). -/
def State.clusterQuiet (s : State) (g : Nat) : Bool :=
  let c := s.cluster g
  (List.range 48).all (fun j => (s.ctx (g * 48 + j)).status == .idle) && c.copies.isEmpty && c.fills.isEmpty && c.mx.queue.isEmpty &&
  (List.range 4).all (fun j => (s.core (g * 4 + j)).vq.isEmpty) && s.tt.all fun e => !(e.2.en && e.2.placed.contains g)

/-- CLUSTER_POWER_GATING (R397). -/
def State.powerGate (s : State) (g : Nat) : State :=
  if s.clusterLive g && s.clusterQuiet g && (s.cluster g).idleSince + 10000 ≤ s.now then s.modCluster g fun c => { c with gated := true } else s

/-- POWER_GATING_WAKE (R397): the wake takes 2 µs, and changes no program's result. -/
def State.powerWake (s : State) (g : Nat) : State := s.wakeCluster g

/-- A die's arithmetic cycles go on from here at a new clock. -/
def State.setClock (s : State) (d mhz : Nat) (stopped : Bool) : State :=
  s.modDie d fun x =>
    { x with cycBase := x.cycBase + (if x.stopped then 0 else (s.arith - x.cycAt) * x.mhz / 3000), cycAt := s.arith, mhz := mhz, stopped := stopped }

/-- DIE_CLOCK_STEP (R397): 100 MHz less, to no less than 1.5 GHz. -/
def State.clockStep (s : State) (d : Nat) : State :=
  if s.dieLive d then s.setClock d (max 1500 ((s.die d).mhz - 100)) (s.die d).stopped else s

/-- DIE_THERMAL_STOP (R397): a die at 1.5 GHz stops, and firmware raises the alarm. -/
def State.thermalStop (s : State) (d raised : Nat) : State :=
  if s.dieLive d && (s.die d).mhz = 1500 && !(s.die d).stopped then (s.setClock d 1500 true).alarm raised else s

/-- Memory that is not the module's: the host's and its peers'. -/
def outsideMemory (pa : Nat) : Bool := match regionOf pa with
  | .host => true
  | .peer _ _ => true
  | _ => false

/-- MODULE_RESET (R396): the bring-up steps. Where a panel's image does not verify, or a link cannot be repaired, the module stays in reset: no
context runs, and no doorbell is accepted. A die fused off at test is kept in `host.absent`: R2 speaks of topology registers that report it, and no
register map of the spec gives one (DESIGN CHOICE, log entry 81). Device memory and scratchpads are cleared; the memories of the host and of peers are
not the module's, and keep their bytes. The schedule and the free counter are the model's own, and stay. -/
def State.moduleReset (s : State) (b : Bringup) : State :=
  let host : HostSide := { HostSide.reset with fwLog := s.host.fwLog, policy := b.policy.toNat, fuses := b.fuses }
  let z : State := { State.reset with mem := s.mem.filter (fun p => outsideMemory p.1), agenda := s.agenda, free := s.free, host := host }
  if b.imagesOk ≠ 15 || !b.linksOk then z
  else
    let z := { z with
      now := (b.epoch.map BitVec.toNat).getD 0
      dies := if b.debug then (List.range Config.dieCount).map (fun d => (d, { Die.reset with den := true })) else [] }
    { z with host := { z.host with
      up := true, absent := b.absent, moduleId := b.moduleId, measurements := b.measurements, cxl := b.cxl, peers := b.peers } }

end Sys2Proof.Machine
end

