-- ==== Sys2Proof/Machine/Message.lean ====
section
/-! DEFINITION. Tag-matched messages (R349 to R353): MBEAT, MSEND, MPOST, MRECV, MPROBE and MCANCEL, and how a packet is delivered. -/

namespace Sys2Proof.Machine

/-- MBEAT (R349, R352): a 17th beat raises cause 31, and the packet is discarded. -/
def execMbeat (rs1 rs2 : Reg) (s : State) : Host.Outcome State Fault Refusal :=
  let beat : BitVec 128 := s.xr rs2 ++ s.xr rs1
  s.done (
    let bs := s.me.packet.getD []
    if 16 ≤ bs.length then trap 31 0
    else .ok (s.modCtx s.cur fun c => { c with packet := some (bs ++ [beat]) }))

/-- MSEND (R349, R352): a release; the packet travels, and the context waits for its reply as an AMO does. -/
def execMsend (rs1 rs2 : Reg) (s : State) : Host.Outcome State Fault Refusal :=
  let d := s.xr rs1
  let tag : BitVec 32 := (s.xr rs2).setWidth 32
  s.done (
    let k := s.ownCore (d.toNat / 12)
    if 98303 < d.toNat || d.toNat % 12 = 11 || !s.coreLive k then trap 27 d
    else match s.me.packet with
      | none => trap 31 0
      | some bs =>
        let s := s.settleMe
        let me := s.me
        let p : Packet := ⟨bs, tag, s.reportCtx s.cur, me.qtid, k * 12 + d.toNat % 12⟩
        .error (.left ((s.leave .reply 1 d 0 Xlat.none none).modCtx s.cur fun c => { c with packet := none, request := some (.packet p) })))

/-- Whether a packet matches a slot (R350). -/
def Slot.fits (q : Slot) (p : Packet) : Bool :=
  ((p.tag ^^^ q.tag) &&& q.tagMask) = 0 && ((BitVec.ofNat 17 p.sender ^^^ q.src) &&& q.srcMask) = 0

/-- A slot takes a packet (R351): payload, then the descriptor's last word, then the slot is full and its MRECV is woken. -/
def State.deliver (s : State) (k i : Nat) (q : Slot) (p : Packet) : State :=
  let w : Wake := ⟨p.task, pcode 0 (p.sender / 12), s.now, word p.beats.length, false⟩
  let g := clusterOfCore k
  let s := p.beats.zipIdx.foldl (fun s (b, j) => match pageAt q.buf (q.bufVa + 16 * j) with
    | some x => s.writeMem g q.tid x 16 b.toNat none w 0
    | none => s) s
  let v := p.beats.length + 2 ^ 7 + p.sender * 2 ^ 8 + p.tag.toNat * 2 ^ 32
  let s := s.writeMem g q.tid { q.desc with va := q.desc.va + 0x18, pa := q.desc.pa + 0x18 } 8 v none w 0
  let s := s.modCore k fun c => { c with slots := tput c.slots i { q with beats := some p.beats.length, sender := p.sender, task := p.task, time := s.now } }
  s.wakeIf (fun cid t => cid == q.owner && t.kind = .mrecv && t.op0.toNat == i) w

/-- The oldest waiting slot of a context that a packet matches (R351). -/
def Core.slotFor (c : Core) (p : Packet) : Option (Nat × Slot) :=
  (c.slots.filter fun e => e.2.owner == p.dst && e.2.beats.isNone && e.2.fits p).foldl (fun b e =>
    match b with
    | none => some e
    | some q => if e.2.seq < q.2.seq then some e else b) none

/-- PACKET_ARRIVAL (R351): the packet is taken by a slot, queued, or refused. The sender's wait ends, or it takes cause 27. -/
def State.packetArrives (s : State) (cid : Nat) : State :=
  match (s.ctx cid).request with
  | some (.packet p) =>
    let k := coreOf p.dst
    let g := clusterOfCore k
    let reply (s : State) : State := s.modCtx cid fun c => { c with request := none, wake := some ⟨0, 0, s.now, 0, false⟩ }
    match (s.core k).slotFor p with
    | some (i, q) => reply (s.deliver k i q p)
    | none =>
      if (s.cluster g).overflow.length < Config.overflowSize then
        reply (s.modCluster g fun c => { c with overflow := c.overflow ++ [p] })
      else
        let s := s.putEvent k 5 27 p.task [word p.sender, p.tag.setWidth 64] p.task (pcode 0 (p.sender / 12))
        s.raiseCtx cid 27 (s.ctx cid |>.wait.map (·.op1) |>.getD 0)
  | _ => s

/-- MPOST (R350, R352): the oldest packet of the overflow queue that matches is taken at once. -/
def execMpost (rd rs1 : Reg) (s : State) : Host.Outcome State Fault Refusal :=
  let a := s.xr rs1
  s.done (do
    need (bits a 4 0 == 0) 6 a
    let (s, x) ← s.access .store needRW .write a.toNat 32
    let (s, v) := s.loadBytes x 32
    let buf := v % 2 ^ 64
    let (s, ps) ← s.pages .store needW buf 256
    let own := match regionOf x.pa with
      | .scratch _ h _ => h == clusterOf s.cur
      | _ => false
    let w2 := v >>> 128 % 2 ^ 64
    need ((x.mt == .hbm || x.mt == .sw || own) && buf % 16 == 0 && w2 >>> 17 % 2 ^ 15 == 0 && w2 >>> 49 == 0) 31 a
    match s.refusedUnit ps buf 256 with
      | some pa => trap 25 (word pa)
      | none => .ok ()
    s.watch true a.toNat 32
    let k := coreOf s.cur
    let c := s.core k
    match (List.range Config.slotCount).find? fun i => (tfind c.slots i).isNone with
    | none => .ok (s.setXr rd allOnes)
    | some i =>
      let q : Slot :=
        { owner := s.cur, seq := c.slotSeq, tag := BitVec.ofNat 32 (v >>> 64), tagMask := BitVec.ofNat 32 (v >>> 96)
          src := BitVec.ofNat 17 (v >>> 128), srcMask := BitVec.ofNat 17 (v >>> 160), buf := ps, bufVa := buf, desc := x, tid := s.me.tid
          beats := none, sender := 0, task := 0, time := 0 }
      let s := s.setCore k { c with slots := tput c.slots i q, slotSeq := c.slotSeq + 1 }
      let g := clusterOf s.cur
      let s := match (s.cluster g).overflow.findIdx? fun p => p.dst == s.cur && q.fits p with
        | none => s
        | some j => match (s.cluster g).overflow[j]? with
          | none => s
          | some p => (s.modCluster g fun c => { c with overflow := c.overflow.eraseIdx j }).deliver k i q p
      .ok (s.setXr rd (word i)))

/-- The slot that a context owns under a number (R352). -/
def State.ownSlot (s : State) (v : Word) : Option Slot :=
  match tfind (s.core (coreOf s.cur)).slots v.toNat with
  | some q => if q.owner = s.cur then some q else none
  | none => none

/-- A slot of a core is free again. -/
def State.freeSlot (s : State) (k i : Nat) : State := s.modCore k fun c => { c with slots := tdel c.slots i }

/-- MRECV (R352). -/
def execMrecv (rd rs1 : Reg) (s : State) : Host.Outcome State Fault Refusal :=
  let v := s.xr rs1
  s.done (
    match s.ownSlot v with
    | none => trap 31 v
    | some q => match q.beats with
      | some n => .ok ((s.zeroWaitMe.freeSlot (coreOf s.cur) v.toNat).setXr rd (word n))
      | none => .error (.left (s.leave .mrecv v 0 rd Xlat.none none)))

/-- MPROBE (R352). -/
def execMprobe (rd rs1 : Reg) (s : State) : Host.Outcome State Fault Refusal :=
  s.done (.ok (s.setXr rd (match s.ownSlot (s.xr rs1) with
    | none => allOnes
    | some q => word (q.beats.getD 0))))

/-- MCANCEL (R352): a waiting slot is freed; a full one stays owned. -/
def execMcancel (rd rs1 : Reg) (s : State) : Host.Outcome State Fault Refusal :=
  let v := s.xr rs1
  s.done (.ok (match s.ownSlot v with
    | none => s.setXr rd allOnes
    | some q => if q.beats.isSome then s.setXr rd 1 else (s.freeSlot (coreOf s.cur) v.toNat).setXr rd 0))

end Sys2Proof.Machine
end

