-- ==== Sys2Proof/Machine/Queue.lean ====
section
/-! DEFINITION. Proxy queues (R354 to R356): the shuttle's batches, and QPUSH, QPOP, QTRYPOP and QFLUSH. -/

namespace Sys2Proof.Machine

/-- Write one batch entry into its slot, LAP last (R355). -/
def State.queuePut (s : State) (x : Xlat) (size i : Nat) (e : ShadowEntry) : State :=
  let w : Wake := ⟨e.task, e.code, s.now, 0, false⟩
  let o := queueSlot size i
  let s := s.queueWrite x o 24 (e.v.toNat + e.task.toNat * 2 ^ 64 + (e.time % 2 ^ 64) * 2 ^ 128) w
  s.queueWrite x (o + 24) 8 (queueLap size i + e.code.toNat * 2 ^ 32) w

/-- `k` entries of a cluster's shadow have become valid in a queue: its QFLUSHes wait for that many less (R356). -/
def State.flushed (s : State) (g : Nat) (x : Xlat) (k : Nat) : State :=
  { s with ctxs := s.ctxs.map fun (cid, c) => (cid, match c.request with
      | some (.room i n) => if clusterOf cid = g ∧ (c.wait.map fun w => w.obj.pa) = some x.pa then { c with request := some (.room i (n - k)) } else c
      | _ => c) }

/-- A batch reaches a queue (R355): room is reserved at the home, and the reserved slots are written. The result tells how many entries had room. -/
def State.queueAppend (s : State) (x : Xlat) (es : List ShadowEntry) : State × Nat :=
  match s.queueWords x with
  | (s, none) => (s, 0)
  | (s, some (size, tail, head)) =>
    let k := min es.length (size - (word tail - word head).toNat)
    let w : Wake := (es.head?.map fun e => (⟨e.task, e.code, s.now, 0, false⟩ : Wake)).getD ⟨0, 0, s.now, 0, false⟩
    let s := if k = 0 then s else s.queueWrite x 8 8 ((tail + k) % 2 ^ 64) w
    ((es.take k).zipIdx.foldl (fun s (e, j) => s.queuePut x size (tail + j) e) s, k)

/-- A batch of up to `n` entries of the shadow at place `i` reaches the queue (R355); entries that did not fit wait to be sent again. -/
def State.batchArrives (s : State) (g i n : Nat) : State :=
  match (s.cluster g).shadows[i]? with
  | none => s
  | some h =>
    match s.queueWords h.queue with
    | (s, none) => s
    | (s, some _) =>
      let n := min n h.entries.length
      let (s, k) := s.queueAppend h.queue (h.entries.take n)
      let rest := h.entries.drop k
      let sent := if k < n || Config.shadowSize ≤ rest.length then rest.length else 0
      let h2 : Shadow := { h with entries := rest, sent := sent }
      let upd (l : List Shadow) : List Shadow := if rest = [] then l.eraseIdx i else l.set i h2
      let s := s.modCluster g fun c => { c with shadows := upd c.shadows }
      (s.flushed g h.queue k).feedPops h.queue k

/-- A peer module's shuttle sends a batch to a queue in device HBM (R355, R392): `n` entries, 32 bytes each of `data`, with codes of kind 4. It
learns how many had room. -/
def State.peerBatch (s : State) (p pa n : Nat) (data : LineData) : State :=
  if !(s.host.up && s.host.peers.contains p && pa % 64 = 0 && isHbm pa) then s
  else
    let es : List ShadowEntry := (List.range (min n 4)).map fun i =>
      let e := data.toNat >>> (256 * i)
      ⟨word e, word (e >>> 64), e >>> 128 % 2 ^ 64, pcode 4 (e >>> 224 % 2 ^ 28)⟩
    let (s, k) := s.queueAppend (physXlat pa) es
    let s : State := { s with host := { s.host with reply := .data (word k) } }
    s.feedPops (physXlat pa) k

/-- SHUTTLE_BATCH_TIMEOUT (R355): 1,000 ns have passed since the oldest entry entered. -/
def State.batchTimeout (s : State) (g i : Nat) : State :=
  match (s.cluster g).shadows[i]? with
  | some h => match h.entries with
    | e :: _ => if h.sent = 0 && e.time + 1000 ≤ s.now then
        s.modCluster g fun c => { c with shadows := c.shadows.set i { h with sent := h.entries.length } } else s
    | [] => s
  | none => s

/-- The checks that every queue instruction makes (R356): translation, then cause 31. The context's own earlier stores to the header and to the slot
at HEAD come first (R27). -/
def State.queueAt (s : State) (q : Word) : Except Stop (State × Xlat) := do
  let (s, x) ← s.access .store needRW .write q.toNat 1
  need (bits q 5 0 == 0 && (x.mt == .hbm || x.mt == .peer)) 31 q
  if s.silent x.pa then s.mute x.pa true
  else match (s.ownFirst s.cur x.pa 64).queueWords x with
    | (s, some (size, _, head)) => .ok (s.ownFirst s.cur (x.pa + queueSlot size head) 32, x)
    | (_, none) => trap 31 q

/-- A queue instruction that has left the rotation: a QPUSH for room in a shadow, a QFLUSH until `n` more entries are valid at home (R98). -/
def State.leaveRoom (s : State) (i : Instr) (x : Xlat) (n : Nat) : State :=
  (s.leave .reply 0 0 0 x none).modCtx s.cur fun c => { c with request := some (.room i n) }

/-- QPUSH (R355, R356): a release at .sy into the cluster's shadow; where no shadow is free or it is full, the context leaves the rotation. -/
def execQpush (rs1 rs2 : Reg) (s : State) : Host.Outcome State Fault Refusal :=
  let q := s.xr rs1
  let v := s.xr rs2
  s.done (do
    let (s, x) ← s.queueAt q
    need (v != allOnes) 31 q
    let s := s.settleMe
    let g := clusterOf s.cur
    let me := s.me
    -- in a peer's queue the pusher is a core of a remote module (R363)
    let core := s.reportCore (coreOf s.cur)
    let e : ShadowEntry := ⟨v, me.qtid, s.now, if x.mt = .peer then pcode 4 (s.host.moduleId.toNat * 2 ^ 16 + core) else pcode 0 core⟩
    let shadows := (s.cluster g).shadows
    match shadows.findIdx? fun h => h.queue.pa == x.pa with
    | some i => (match shadows[i]? with
      | some h =>
        if Config.shadowSize ≤ h.entries.length then .error (.left (s.leaveRoom (.qpush rs1 rs2) x 0))
        else
          let es := h.entries ++ [e]
          let h2 : Shadow := { h with entries := es, sent := if Config.shadowSize ≤ es.length then es.length else h.sent }
          .ok (s.modCluster g fun c => { c with shadows := c.shadows.set i h2 })
      | none => .ok s)
    | none =>
      if Config.shadowCount ≤ shadows.length then .error (.left (s.leaveRoom (.qpush rs1 rs2) x 0))
      else .ok (s.modCluster g fun c => { c with shadows := c.shadows ++ [⟨x, [e], 0⟩] }))

/-- QPOP (R356). -/
def execQpop (rd rs1 : Reg) (s : State) : Host.Outcome State Fault Refusal :=
  let q := s.xr rs1
  s.done (do
    let (s, x) ← s.queueAt q
    match s.queueTake x (s.byCtx s.cur) with
    | (s, some (v, _, _)) => .ok (s.zeroWaitMe.setXr rd v)
    | (s, none) => .error (.left (s.leave .qpop q 0 rd x none)))

/-- QTRYPOP (R356): an invalid slot gives all ones. -/
def execQtrypop (rd rs1 : Reg) (s : State) : Host.Outcome State Fault Refusal :=
  s.done (do
    let (s, x) ← s.queueAt (s.xr rs1)
    match s.queueTake x (s.byCtx s.cur) with
    | (s, some (v, _, _)) => .ok (s.setXr rd v)
    | (s, none) => .ok (s.setXr rd allOnes))

/-- QFLUSH (R355, R356): the shadow is sent at once; while the queue has no room for every entry that it holds, the context is out of the
rotation. -/
def execQflush (rs1 : Reg) (s : State) : Host.Outcome State Fault Refusal :=
  s.done (do
    let (s, x) ← s.queueAt (s.xr rs1)
    let g := clusterOf s.cur
    match (s.cluster g).shadows.findIdx? fun h => h.queue.pa == x.pa with
    | none => .ok s
    | some i =>
      let s := s.batchArrives g i Config.shadowSize
      match (s.cluster g).shadows.find? fun h => h.queue.pa == x.pa with
      | some h => .error (.left (s.leaveRoom (.qflush rs1) x h.entries.length))
      | none => .ok s)

end Sys2Proof.Machine
end

