-- ==== Sys2Proof/Machine/EvCore.lean ====
section
/-! DEFINITION. Events of the registers, of the dispatchers, of debug and of contexts: what happens without an instruction of its own. An
event whose condition does not hold changes nothing. The operands stand in `State.ev`; each constructor of `Instr` says what they name. -/

namespace Sys2Proof.Machine

/-- REGISTER_WRITE (R400): a CSR of a context, as a CSR instruction writes it, or configuration space by bytes. -/
def State.registerWrite (s : State) (e : EventArgs) : State :=
  if e.a = 0 then (if (s.ctx e.b).isLive && (s.csrRead e.b e.n).isSome then s.csrWrite e.b e.n e.v else s)
  else if regionOf e.b == .cfg && s.accessOk .write e.b e.n then s.cfgWrite e.b e.n e.v else s
def execRegisterWrite (s : State) : Host.Outcome State Fault Refusal := .next (s.registerWrite s.ev)

/-- QVTYPE_WRITE (R140). -/
def execQvtypeWrite (s : State) : Host.Outcome State Fault Refusal :=
  .next (if (s.ctx s.ev.a).isLive then s.csrWrite s.ev.a 0x800 s.ev.v else s)

/-- QVWIN_WRITE (R141). -/
def execQvwinWrite (s : State) : Host.Outcome State Fault Refusal :=
  .next (if (s.ctx s.ev.a).isLive then s.csrWrite s.ev.a 0x801 s.ev.v else s)

/-- QVSTAT_ACCESS (R89): the flags of every earlier vector instruction are in before a read or a write. -/
def execQvstatAccess (s : State) : Host.Outcome State Fault Refusal :=
  let t := s.settleQvstat s.ev.a 0x805
  .next (if (s.ctx s.ev.a).isLive then (if s.ev.flag then t.csrWrite s.ev.a 0x805 s.ev.v else t) else s)

/-- CSPART_WRITE (R178): the change begins. -/
def execCspartWrite (s : State) : Host.Outcome State Fault Refusal :=
  .next (if s.clusterLive s.ev.a && !(s.cluster s.ev.a).busy then s.cspartBegin s.ev.a s.ev.v else s)

/-- CSPART_CHANGE_END (R178). -/
def execCspartChangeEnd (s : State) : Host.Outcome State Fault Refusal := .next (s.cspartEnd s.ev.a)

/-- QMQUOTA_WRITE (R237). -/
def execQmquotaWrite (s : State) : Host.Outcome State Fault Refusal := .next (s.writeQmquota s.ev.v)

/-- QUOTA_REACH_SLICE (R237): W and D at once, Q at the next window boundary. -/
def execQuotaReachSlice (s : State) : Host.Outcome State Fault Refusal := .next (s.quotaReach s.ev.a)

/-- DOORBELL (R311), rung at host port `b`. -/
def execDoorbell (s : State) : Host.Outcome State Fault Refusal :=
  .next (if s.dieLive s.ev.a then s.doorbellAt s.ev.a (bits s.ev.v 55 0) none (s.ev.b % 2) else s)

/-- PREEMPT (R310). -/
def execPreempt (s : State) : Host.Outcome State Fault Refusal :=
  .next (if s.dieLive s.ev.a then s.preemptWrite s.ev.a s.ev.v else s)

/-- HALT (R376). -/
def execDbgHalt (s : State) : Host.Outcome State Fault Refusal := .next (s.dbgHaltCmd s.ev.a s.ev.b)
/-- FHALT (R376). -/
def execDbgFhalt (s : State) : Host.Outcome State Fault Refusal := .next (s.dbgFhaltCmd s.ev.a s.ev.b)
/-- RESUME (R376). -/
def execDbgResume (s : State) : Host.Outcome State Fault Refusal := .next (s.dbgResumeCmd s.ev.a s.ev.b)
/-- STEP (R376). -/
def execDbgStep (s : State) : Host.Outcome State Fault Refusal := .next (s.dbgStepCmd s.ev.a s.ev.b)
/-- READ (R376). -/
def execDbgRead (s : State) : Host.Outcome State Fault Refusal := .next (s.dbgReadCmd s.ev.a s.ev.b s.ev.n)
/-- WRITE (R376). -/
def execDbgWrite (s : State) : Host.Outcome State Fault Refusal := .next (s.dbgWriteCmd s.ev.a s.ev.b s.ev.n)
/-- DUMP (R376). -/
def execDbgDump (s : State) : Host.Outcome State Fault Refusal := .next (s.dbgDumpCmd s.ev.a s.ev.b)
/-- ATTACH (R376). -/
def execDbgAttach (s : State) : Host.Outcome State Fault Refusal := .next (s.dbgAttachCmd s.ev.a s.ev.b)
/-- DETACH (R376). -/
def execDbgDetach (s : State) : Host.Outcome State Fault Refusal := .next (s.dbgDetachCmd s.ev.a s.ev.b)

/-- TT_ENABLE_WRITE (R312). -/
def execTtEnableWrite (s : State) : Host.Outcome State Fault Refusal := .next (if s.ev.a < 512 then s.ttEnableWr s.ev.a s.ev.v allOnes else s)
/-- SAMPCTL_WRITE (R379). -/
def execSampctlWrite (s : State) : Host.Outcome State Fault Refusal := .next (s.sampctlWr s.ev.v allOnes)
/-- SESSION_WRITE (R389): a session's word, or (`flag`) the key of a key slot. -/
def execSessionWrite (s : State) : Host.Outcome State Fault Refusal :=
  .next (if s.ev.flag then s.installKey s.ev.a (BitVec.ofNat 256 s.ev.data.toNat) else if s.ev.a < 64 then s.sessionWr s.ev.a (s.ev.b / 8) s.ev.v allOnes else s)

/-- HOST_BAR2_REQUEST (R386): with `c` 1 a request through BAR0, and with `c` 2 SPDM GET_MEASUREMENTS (R394). -/
def execHostBar2Request (s : State) : Host.Outcome State Fault Refusal :=
  .next (match s.ev.c with
    | 0 => s.bar2 s.ev.a s.ev.b s.ev.n s.ev.v s.ev.flag s.ev.flag2
    | 1 => s.bar0 s.ev.a s.ev.b s.ev.n s.ev.v s.ev.flag
    | _ => s.measured)
/-- HOST_CXL_MEM_ACCESS (R387). -/
def execHostCxlMemAccess (s : State) : Host.Outcome State Fault Refusal :=
  .next (s.cxlMem s.ev.n s.ev.a s.ev.b s.ev.flag s.ev.mask s.ev.data)

/-- A context that has waited is back in the rotation. -/
def Ctx.back (c : Ctx) : Ctx := { c with status := .running, wait := none, wake := none, request := none }

/-- What a wait that has ended does as its instruction retires (R17, R107, R108, R289, R342, R352, R356, R360). An MRECV that returns 0 beats has no slot
left to free: its old core freed it (R353). -/
def State.endWait (s : State) (cid : Nat) (w : Wait) (k : Wake) : State :=
  let put (s : State) (v : Word) : State := (s.modCtx cid fun c => c.setX w.rd v).retireCtx cid
  match w.kind with
  | .hexit => s.hexitNow cid w.op0
  | .evwait =>
    let t : State := { s with cur := cid }
    { t.finish (t.popEvent w.rd (w.op1 != 0) w.op0) with cur := s.cur }
  | .mrecv => put (if k.value = 0 then s else s.freeSlot (coreOf cid) w.op0.toNat) k.value
  | .pharvW => put s w.op1
  | .qpop => put s k.value
  | .bhwait => put s k.value
  | .hjoin => put s k.value
  | .phwait => s.retireCtx cid
  | .wrsNto => s.retireCtx cid
  | .wrsSto => s.retireCtx cid
  | .falign => s.retireCtx cid
  | .reply => s.retireCtx cid

/-- The type of the edge record of a wait (R364); a reply and a FALIGN write none. -/
def WaitKind.rtype (k : WaitKind) : Option Nat := match k with
  | .reply => none
  | .falign => none
  | .hexit => some 6
  | k => some k.code

/-- CONTEXT_REINSERTION (R17, R98): the context issues at its next slot, and its instruction retires there, with its edge record. -/
def State.reinsert (s : State) (cid : Nat) : State :=
  let c := s.ctx cid
  if c.status ≠ .waiting || (s.die (dieOf cid)).stopped || c.saveNow then s
  else match c.wait, c.wake with
    | some w, some k =>
      let s := match w.kind.rtype with
        | some r => s.edge (dieOf cid) c.qtid k r
        | none => s
      (s.modCtx cid Ctx.back).endWait cid w k
    | some w, none =>
      if w.kind = .falign && s.aligned cid then ((s.falignRelease cid).modCtx cid Ctx.back).retireCtx cid
      else if !s.replied cid then s
      else match c.request with
        -- the reply has come: the instruction retires in the context's next slot
        | some (.access _ _ _) => s.modCtx cid fun c => { c with status := .running, wait := none }
        | some (.room (.qflush _) _) => (s.modCtx cid Ctx.back).retireCtx cid
        | some (.room i _) => s.modCtx cid fun c => { c with status := .running, wait := none, request := some (.access i none none) }
        | _ => s
    | none, _ => s
def execContextReinsertion (s : State) : Host.Outcome State Fault Refusal := .next (s.reinsert s.ev.a)

/-- WRS_TIMEOUT (R103): no exception; the slot timer of the core is the producer, and the WRS retires in its context's slot. -/
def State.wrsTimeout (s : State) (cid : Nat) : State :=
  let c := s.ctx cid
  match c.wait with
  | some w =>
    (match w.deadline with
     | some t =>
       if c.status = .waiting && !c.saveNow && (w.kind = .wrsNto || w.kind = .wrsSto) && c.wake.isNone && t ≤ s.now then
         s.modCtx cid fun c => { c with wake := some ⟨0, pcode 6 (s.reportCore (coreOf cid)), t, 0, true⟩ }
       else s
     | none => s)
  | none => s
def execWrsTimeout (s : State) : Host.Outcome State Fault Refusal := .next (s.wrsTimeout s.ev.a)

/-- FALIGN_BUDGET_EXPIRY (R109): the budget counts the arithmetic cycles of the context's die, which has none while it is stopped. -/
def State.falignExpiry (s : State) (cid : Nat) : State :=
  let c := s.ctx cid
  match c.wait with
  | some w =>
    (match w.deadline with
     | some t =>
       if c.status = .waiting && !c.saveNow && w.kind = .falign && c.wake.isNone && !(s.die (dieOf cid)).stopped && t ≤ (s.cycle (dieOf cid)).toNat then
         s.modCtx cid fun c => { c with wake := some ⟨0, 0, s.now, 0, true⟩ }
       else s
     | none => s)
  | none => s
def execFalignBudgetExpiry (s : State) : Host.Outcome State Fault Refusal := .next (s.falignExpiry s.ev.a)

/-- LAUNCH_SLOT_TAKE (R306). -/
def execLaunchSlotTake (s : State) : Host.Outcome State Fault Refusal := .next (s.slotTake s.ev.a s.ev.b)
/-- LAUNCH_START (R307). -/
def execLaunchStart (s : State) : Host.Outcome State Fault Refusal := .next (s.launchStart s.ev.a)
/-- TASK_DISPATCH (R322). -/
def execTaskDispatch (s : State) : Host.Outcome State Fault Refusal := .next (s.dispatchTo s.ev.a)
/-- STEAL (R319). -/
def execSteal (s : State) : Host.Outcome State Fault Refusal := .next (s.stealEvent s.ev.a)

/-- COUNTER_DECREMENT (R320): the last decrement of a task that has ended ends its part in the launch. -/
def State.decrementAt (s : State) (d i : Nat) : State :=
  match (s.die d).decrements[i]? with
  | none => s
  | some x =>
    let s := s.modDie d fun k => { k with decrements := k.decrements.eraseIdx i }
    let s := s.decrement d x
    if (s.die d).decrements.any fun y => y.task == x.task && y.launch == x.launch then s else s.taskGone x.launch x.task x.core
def execCounterDecrement (s : State) : Host.Outcome State Fault Refusal := .next (s.decrementAt s.ev.a s.ev.b)

/-- PRIORITY_DISPLACEMENT (R310). -/
def execPriorityDisplacement (s : State) : Host.Outcome State Fault Refusal := .next (s.displace s.ev.a s.ev.b)
/-- STAGING_ADMIT (R328). -/
def execStagingAdmit (s : State) : Host.Outcome State Fault Refusal := .next (s.stagingAdmit s.ev.a s.ev.b)
/-- STAGING_ENTRY_COMPLETE (R329). -/
def execStagingEntryComplete (s : State) : Host.Outcome State Fault Refusal := .next (s.stagingComplete s.ev.a s.ev.b s.ev.n)
/-- STAGING_DEADLINE (R329). -/
def execStagingDeadline (s : State) : Host.Outcome State Fault Refusal := .next (s.stagingDeadline s.ev.a s.ev.b)
/-- STGREQ_ADMIT_TIMEOUT (R294). -/
def execStgreqAdmitTimeout (s : State) : Host.Outcome State Fault Refusal := .next (s.stgreqTimeout s.ev.a s.ev.b)
/-- CONTEXT_SAVE (R115). -/
def execContextSave (s : State) : Host.Outcome State Fault Refusal := .next (s.contextSave s.ev.a)
/-- CONTEXT_RESTORE (R310). -/
def execContextRestore (s : State) : Host.Outcome State Fault Refusal := .next (s.contextRestore s.ev.a)
/-- PARK (R332). -/
def execPark (s : State) : Host.Outcome State Fault Refusal := .next (s.parkEvent s.ev.a)
/-- DEFERRED_PARK (R332): a park that found the fault queue full goes on once there is room. -/
def execDeferredPark (s : State) : Host.Outcome State Fault Refusal :=
  .next (if (s.die (dieOf s.ev.a)).fqFull then s else s.parkEvent s.ev.a)
/-- TT_SLOT_FIRE (R313). -/
def execTtSlotFire (s : State) : Host.Outcome State Fault Refusal := .next (s.ttFire s.ev.a)
/-- HOLD_TIMEOUT (R377). -/
def execHoldTimeout (s : State) : Host.Outcome State Fault Refusal := .next (s.holdTimeout s.ev.a)
/-- SAMPLING_PULSE (R380). -/
def execSamplingPulse (s : State) : Host.Outcome State Fault Refusal := .next s.samplePulse
/-- COMPARE_ENTRY (R382). -/
def execCompareEntry (s : State) : Host.Outcome State Fault Refusal := .next (s.compareAt s.ev.a)
/-- CLUSTER_POWER_GATING (R397). -/
def execClusterPowerGating (s : State) : Host.Outcome State Fault Refusal := .next (s.powerGate s.ev.a)
/-- POWER_GATING_WAKE (R397). -/
def execPowerGatingWake (s : State) : Host.Outcome State Fault Refusal := .next (s.powerWake s.ev.a)
/-- DIE_CLOCK_STEP (R397). -/
def execDieClockStep (s : State) : Host.Outcome State Fault Refusal := .next (s.clockStep s.ev.a)
/-- DIE_THERMAL_STOP (R397). -/
def execDieThermalStop (s : State) : Host.Outcome State Fault Refusal := .next (s.thermalStop s.ev.a s.ev.b)
/-- SECURITY_ALARM (R394). -/
def execSecurityAlarm (s : State) : Host.Outcome State Fault Refusal := .next (s.alarm s.ev.a)
/-- PTP_MASTER_LOSS (R393). -/
def execPtpMasterLoss (s : State) : Host.Outcome State Fault Refusal := .next s.masterLoss
/-- IEEE_1588_DISCIPLINE (R393). -/
def execIeee1588Discipline (s : State) : Host.Outcome State Fault Refusal := .next (s.discipline s.ev.rate)
/-- MODULE_RESET (R396). -/
def execModuleReset (s : State) : Host.Outcome State Fault Refusal := .next (s.moduleReset s.ev.bring)
/-- TDI_LOCK (R389). -/
def execTdiLock (s : State) : Host.Outcome State Fault Refusal := .next (s.tdiLock s.ev.a s.ev.flag)
/-- SNOOP_HOST_TIMEOUT (R399). -/
def execSnoopHostTimeout (s : State) : Host.Outcome State Fault Refusal := .next (s.snoopTimeout s.ev.b)

end Sys2Proof.Machine
end

