-- ==== Sys2Proof/Machine/Dot.lean ====
section
/-! DEFINITION. The block sums of R92: one product, the exact sum of a block, and the step of an accumulator. -/

namespace Sys2Proof.Machine

/-- One product of two stored codes with their scale codes, exact (R92). `fmt` is an element-type code of R54; LNS6 multiplies through
the table at the summed exponent. A NaN operand, an NaR, a scale code of 255 and ∞ × 0 give NaN. -/
def blockProduct (fa fb : Nat) (a b : Nat × Nat) : Val :=
  if a.2 = 255 ∨ b.2 = 255 then .nan false
  else
    let k := e8m0Exp a.2 + e8m0Exp b.2
    if fa = 14 then
      if lnsNaR a.1 ∨ lnsNaR b.1 then .nan false
      else if lnsZero a.1 ∨ lnsZero b.1 then .fin false 0 0
      else
        let l := lnsExp a.1 + lnsExp b.1
        .fin (lnsNeg a.1 != lnsNeg b.1) (lnsT (l % 4).toNat) (l / 4 - 11 + k)
    else scaleV (mulV (unpack (opFmt fa) a.1) (unpack (opFmt fb) b.1)).1 k
where
  /-- The binary format of an operand. -/
  opFmt (f : Nat) : Fmt := match f with
    | 8 => .f16 | 9 => .bf16 | 11 => .f64 | 12 => .e4m3 | 13 => .e5m2 | _ => .f32

/-- The exact sum of finite values as an integer and an exponent. -/
def exactSum (ps : List Val) : Int × Int :=
  ps.foldl (fun (a : Int × Int) v => match v with
    | .fin n m e => if m = 0 then a else sumInt (decide (a.1 < 0)) a.1.natAbs a.2 n m e
    | _ => a) (0, 0)

/-- The value of a block (R92, steps 1 to 3), rounded to FP32: NV for an invalid block (R276). -/
def blockValue (ps : List Val) : Nat × Flags :=
  let infs := ps.filterMap fun v => match v with
    | .inf n => some n
    | _ => none
  if ps.any Val.isNan || (infs.contains true && infs.contains false) then (Fmt.f32.nan, fNV)
  else match infs with
    | n :: _ => (signed .f32 n Fmt.f32.infCode, 0)
    | [] =>
      let (i, e) := exactSum ps
      blockFinish i e false

/-- The step of an FP32 accumulator by one block (R92). -/
def blockStep (acc : Nat) (ps : List Val) : Nat × Flags :=
  let (b, f) := blockValue ps
  let (r, f') := fAdd .f32 .rne acc b
  (r, f ||| f')

end Sys2Proof.Machine
end

