-- ==== Sys2Proof/Machine/Matrix.lean ====
section
/-! DEFINITION. The matrix engine (R254 to R278, R402): the configuration block, the commands as they issue, their acceptance at the target,
and their execution. -/

namespace Sys2Proof.Machine

/-- The configuration block (R255). -/
def mxM (c : BitVec 512) : Nat := 16 * 2 ^ bits c 1 0
def mxN (c : BitVec 512) : Nat := 16 * 2 ^ bits c 3 2
def mxK (c : BitVec 512) : Nat := 8 * 2 ^ bits c 5 4
def mxSparse (c : BitVec 512) : Nat := bits c 7 6
def mxDup (c : BitVec 512) : Bool := bit c 8
def mxDupB (c : BitVec 512) : Bool := bit c 9
def mxAcc64 (c : BitVec 512) : Bool := bit c 10
def mxKlen (c : BitVec 512) : Nat := bits c 25 16
def mxStFmt (c : BitVec 512) : Nat := bits c 33 32
def mxStPitch (c : BitVec 512) : Nat := bits c 95 64
/-- Blocks of 256 channels. -/
def mxBlocks (c : BitVec 512) : Nat := (mxKlen c + 255) / 256
/-- Bytes of a stored accumulator element (R271). -/
def mxStBytes (c : BitVec 512) : Nat := match mxStFmt c with
  | 1 => 2 | 2 => 8 | _ => 4

/-- A shape entry (R256). -/
structure MxShape where
  pitch : Nat
  scoff : Int
  rows : Nat
  fmt : Nat
  scmode : Nat
  xt : Bool
  cmp : Bool
  deriving DecidableEq, Repr

def mxShape (c : BitVec 512) (b : Nat) : MxShape :=
  let v := c.toNat >>> (128 + 96 * b)
  { pitch := v % 2 ^ 32, scoff := signedOf 32 (v >>> 32 % 2 ^ 32), rows := v >>> 64 % 128, fmt := v >>> 72 % 32
    scmode := v >>> 77 % 4, xt := v.testBit 79, cmp := v.testBit 80 }

/-- Positions of a row (R256). -/
def MxShape.kr (c : BitVec 512) (h : MxShape) : Nat := if h.xt then mxKlen c + 32 * mxBlocks c else mxKlen c
/-- Bits of a stored value. -/
def mxBits (fmt : Nat) : Nat := match fmt with
  | 8 => 16 | 9 => 16 | 11 => 64 | 14 => 6 | _ => 8
/-- Values that each group of a compressed row stores (R256). -/
def mxG (c : BitVec 512) : Nat := if mxSparse c = 1 then 2 else 4
/-- Bytes of a row (R256). -/
def MxShape.rb (c : BitVec 512) (h : MxShape) : Nat :=
  if h.cmp then (mxKlen c * mxG c / 8 * mxBits h.fmt + 7) / 8 + mxKlen c / 8 else (h.kr c * mxBits h.fmt + 7) / 8

/-- The rules of a shape entry (R257). -/
def mxShapeOk (c : BitVec 512) (b : Nat) : Bool :=
  let v := c.toNat >>> (128 + 96 * b)
  let h := mxShape c b
  let vals := if h.cmp then mxKlen c * mxG c / 8 else h.kr c
  !v.testBit 71 && v >>> 81 % 2 ^ 15 = 0 && 1 ≤ h.rows && h.rows ≤ 64 && h.pitch % 16 = 0 &&
  (h.fmt = 8 || h.fmt = 9 || h.fmt = 11 || h.fmt = 12 || h.fmt = 13 || h.fmt = 14) && h.scmode ≠ 3 &&
  !(h.scmode ≠ 0 && (h.fmt = 8 || h.fmt = 9 || h.fmt = 11)) &&
  !(h.cmp && (mxSparse c = 0 || h.xt || h.fmt = 11)) && !(h.fmt = 14 && vals % 16 ≠ 0) && h.rb c ≤ h.pitch && h.rows * h.rb c ≤ 65536

/-- A valid configuration block (R257). -/
def mxConfigOk (c : BitVec 512) : Bool :=
  bits c 15 11 = 0 && bits c 31 26 = 0 && bits c 63 34 = 0 && bits c 127 96 = 0 && bits c 1 0 ≠ 3 && bits c 3 2 ≠ 3 && bits c 5 4 ≠ 3 &&
  mxSparse c ≠ 3 && 32 ≤ mxKlen c && mxKlen c ≤ 512 && mxKlen c % 32 = 0 && !(mxDup c && mxSparse c ≠ 0) &&
  !(mxAcc64 c && 2048 < mxM c * mxN c) && mxStFmt c ≠ 3 && ((mxStFmt c == 2) == mxAcc64 c) &&
  (List.range 4).all (mxShapeOk c)

/-- The target of a command (R264): the field x0 names the own cluster. A number above 2,047, or of a cluster that is not live, refuses with
reason 3 (R265). -/
def State.mxTarget (s : State) (t : Reg) : Nat × Option Nat :=
  let own := clusterOf s.cur
  let n := if t = 0 then s.reportCluster own else (s.xr t).toNat
  let g := if t = 0 then own else s.ownCluster n
  (n % 2 ^ 11, if n < 2048 ∧ s.clusterLive g then some g else none)

/-- stval of cause 26 (R265). -/
def mxStval (n reason : Nat) : Word := word (n % 2 ^ 11 + reason * 2 ^ 12)

/-- Send a command, or the query before one, and wait for the target's reply (R264, R402). `again` marks a wait whose instruction a forced
halt reissues (R280). -/
def State.mxSend (s : State) (r : Request) (again : Bool) : Res :=
  .error (.left ((s.leave .reply (word (bnat (!again))) 0 0 Xlat.none none).modCtx s.cur fun c => { c with request := some r }))

/-- A command of the issuing context. -/
def State.mxCmd (s : State) (op : MxOp) (cfg : BitVec 512) (gen : Nat) (ps : Pages) : MxCmd :=
  ⟨op, cfg, gen, ps, s.cur, s.me.qtid, s.me.pc, s.me.tid, false, s.now⟩

/-- Send a command that needs no configuration. -/
def State.mxPlain (s : State) (t : Reg) (op : MxOp) (again : Bool) : Res :=
  match s.mxTarget t with
  | (n, none) => trap 26 (mxStval n 3)
  | (_, some g) => s.mxSend (.mxCmd g s.me.qmxcap (s.mxCmd op 0 0 [])) again

/-- MXCFG (R267). -/
def execMxcfg (rs1 target : Reg) (s : State) : Host.Outcome State Fault Refusal :=
  let b := s.xr rs1
  s.done (do
    need (bits b 5 0 == 0) 4 b
    let (s, _, v) ← s.deviceRead .load needR b.toNat 64
    match s.mxTarget target with
    | (n, none) => trap 26 (mxStval n 3)
    | (n, some g) => do
      need (mxConfigOk (BitVec.ofNat 512 v)) 26 (mxStval n 1)
      -- the target's refusal goes before a data breakpoint (R78)
      need ((s.me.watchHit false b.toNat 64).isNone || s.me.qmxcap == (s.cluster g).mx.key) 26 (mxStval n 0)
      s.watch false b.toNat 64
      s.mxPlain target (.cfg (BitVec.ofNat 512 v)) false)

/-- MXGRANT (R268): the own engine's key. -/
def execMxgrant (rs1 : Reg) (s : State) : Host.Outcome State Fault Refusal := s.done (s.mxPlain 0 (.grant (s.xr rs1)) false)

/-- Ask the target for its configuration (R402). -/
def State.mxAsk (s : State) (t : Reg) (q : MxAsk) : Res :=
  match s.mxTarget t with
  | (n, none) => trap 26 (mxStval n 3)
  | (_, some g) => s.mxSend (.mxQuery g s.me.qmxcap q) false

/-- MXLD (R269). -/
def execMxld (buf : BitVec 2) (rs1 target : Reg) (s : State) : Host.Outcome State Fault Refusal :=
  s.done (s.mxAsk target (.ld buf.toNat (s.xr rs1)))
/-- MXMAC (R270). -/
def execMxmac (acc : BitVec 3) (bufA bufB : BitVec 2) (target : Reg) (s : State) : Host.Outcome State Fault Refusal :=
  s.done (s.mxPlain target (.mac false acc.toNat bufA.toNat bufB.toNat) false)
/-- MXMACS (R270). -/
def execMxmacs (acc : BitVec 3) (bufA bufB : BitVec 2) (target : Reg) (s : State) : Host.Outcome State Fault Refusal :=
  s.done (s.mxPlain target (.mac true acc.toNat bufA.toNat bufB.toNat) false)
/-- MXST (R271). -/
def execMxst (acc : BitVec 3) (rs1 target : Reg) (s : State) : Host.Outcome State Fault Refusal :=
  s.done (s.mxAsk target (.st acc.toNat (s.xr rs1)))
/-- MXZERO (R272). -/
def execMxzero (acc : BitVec 3) (target : Reg) (s : State) : Host.Outcome State Fault Refusal :=
  s.done (s.mxPlain target (.zero acc.toNat) false)
/-- MXDUP (R273): its alignment is checked before its target (R78). -/
def execMxdup (rs1 target : Reg) (s : State) : Host.Outcome State Fault Refusal :=
  s.done (do
    need (bits (s.xr rs1) 5 0 == 0) 4 (s.xr rs1)
    s.mxAsk target (.dup (s.xr rs1)))
/-- MXSYNC (R274). -/
def execMxsync (target : Reg) (s : State) : Host.Outcome State Fault Refusal := s.done (s.mxPlain target .sync true)

/-- The configuration under which a command accepted next would run (R402). -/
def Mx.next (m : Mx) : BitVec 512 :=
  m.queue.foldl (fun c q => match q.op with
    | .cfg b => b
    | _ => c) m.cfg

/-- Whether an address of the issuer lies in an alias view (R258). -/
def State.mxAlias (s : State) (a : Nat) : Bool :=
  match s.xlate (s.view s.cur) needR a with
  | .ok (_, x) => isAlias x.pa
  | .error _ => false

/-- Translate ranges of the issuer for a matrix operand (R259, R269, R271): page faults, then access faults. -/
def State.mxPages (s : State) (cls : Cls) (nd : Need) (rs : List (Nat × Nat)) : Except Stop (State × Pages × Option Stop) :=
  match rs with
  | [] => .ok (s, [], none)
  | (va, n) :: t => do
    let (s, ps, e) ← s.scanPages (s.view s.cur) cls nd true (n / 4096 + 2) va (va + n)
    let out := ps.find? fun x => x.mt = .host || x.mt = .peer || x.mt = .io
    let (s, qs, e') ← s.mxPages cls nd t
    let first : Option Stop := match e, out with
      | some e, _ => some e
      | none, some x => some (cls.err .access x.va)
      | none, none => e'
    .ok (s, ps ++ qs.filter (fun y => !(ps.any fun x => x.va / 4096 == y.va / 4096)), first)

/-- Element alignment of an operand row in memory (R258). -/
def mxAlign (fmt : Nat) : Nat := match fmt with
  | 8 => 2 | 9 => 2 | 11 => 8 | 14 => 4 | _ => 1

/-- The scale codes that an MXLD reads beside its rows (R258): none for a row that lies in an alias view. -/
def MxShape.scales (h : MxShape) (c : BitVec 512) (ea : Nat) (view : Nat → Bool) : List (Nat × Nat) :=
  let sc : Nat := (((ea : Int) + h.scoff) % (2 ^ 64 : Nat)).toNat
  let raw := (List.range h.rows).filter fun r => !view (ea + r * h.pitch)
  match h.scmode with
  | 1 => raw.map fun r => (sc + r * (h.kr c / 32), h.kr c / 32)
  | 2 => if raw = [] then [] else [(sc, 1)]
  | _ => []

/-- The ranges that an MXLD reads: rows, and the scale table. -/
def State.mxLdRanges (s : State) (c : BitVec 512) (h : MxShape) (ea : Nat) : List (Nat × Nat) :=
  let rows := (List.range h.rows).map fun r =>
    let a := ea + r * h.pitch
    (a, if s.mxAlias a then 2 * h.kr c else h.rb c)
  rows ++ h.scales c ea s.mxAlias

/-- Whether a buffer has been loaded since the last accepted MXCFG, and if so whether through an alias view. -/
def Mx.loaded (m : Mx) (b : Nat) : Option Bool :=
  m.queue.foldl (fun o q => match q.op with
    | .cfg _ => none
    | .ld d _ => if d = b then some (q.pages.any fun x => isAlias x.pa) else o
    | _ => o) ((tfind m.bufs b).map (·.view))

/-- The rows of R92's table that two formats pair in. -/
def mxPair (a b : Nat) : Bool :=
  let wide (f : Nat) : Bool := f = 8 || f = 9
  let fp8 (f : Nat) : Bool := f = 12 || f = 13
  (wide a && wide b) || (fp8 a && fp8 b) || (a = 14 && b = 14) || (a = 11 && b = 11)

/-- The format checks of a product (R270). -/
def mxFormatsOk (cfg : BitVec 512) (a b : Nat) : Bool := mxPair a b && ((a == 11) == mxAcc64 cfg)

/-- Whether a product fits the configuration and the buffers (R270); formats of alias views wait for the execution. -/
def Mx.macFits (m : Mx) (sparse : Bool) (a b : Nat) : Bool :=
  let cfg := m.next
  let ha := mxShape cfg a
  let hb := mxShape cfg b
  let split := if mxDupB cfg then hb else ha
  let other := if mxDupB cfg then ha else hb
  match m.loaded a, m.loaded b with
  | some va, some vb =>
    mxKlen cfg ≠ 0 && mxM cfg ≤ ha.rows && mxN cfg ≤ hb.rows && (va || vb || mxFormatsOk cfg ha.fmt hb.fmt) &&
    !hb.cmp && (if sparse then mxSparse cfg ≠ 0 && ha.cmp else !ha.cmp) &&
    (if mxDup cfg then split.xt && !other.xt else !ha.xt && !hb.xt)
  | _, _ => false

/-- Whether a command fits (R264 step 3, R269 to R273, R402). -/
def Mx.fits (m : Mx) (q : MxCmd) : Bool :=
  let cfg := m.next
  match q.op with
  | .cfg _ => true
  | .grant _ => true
  | .ld b _ => q.gen = m.gen && mxKlen cfg ≠ 0 && !((mxShape cfg b).cmp && mxSparse cfg = 0)
  | .mac sp _ a b => m.macFits sp a b
  | .st _ _ => q.gen = m.gen && mxN cfg * mxStBytes cfg ≤ mxStPitch cfg && !((q.pages.any fun x => isAlias x.pa) && mxStFmt cfg ≠ 1)
  | .zero _ => true
  | .dup _ => q.gen = m.gen && mxDup cfg
  | .sync => true

/-- The data breakpoint check of a matrix command at the address it names (R373): what its target would refuse it for goes before (R78). -/
def State.mxWatch (s : State) (n g : Nat) (cap : Word) (q : MxCmd) (store : Bool) (va : Word) : Except Stop Unit := do
  let m := (s.cluster g).mx
  let free := (s.me.watchHit store va.toNat 1).isNone
  need (free || cap == m.key) 26 (mxStval n 0)
  need (free || m.fits q) 26 (mxStval n 2)
  s.watch store va.toNat 1

/-- The checks an MXLD makes once it has the configuration (R258, R259, R269), and the command it sends. An alias's PITCH that is no multiple
of 64 is the fault of the first misaligned row, or else of the first alias row. An alias row of a CMP buffer, or one with a PITCH below 2 × KR, is
refused at the issuer with cause 26 and reason 2, after the faults of its pages: R258 forbids both and no rule names the exception (DESIGN CHOICE,
log entry 94). -/
def State.mxLdIssue (s : State) (n g : Nat) (cfg : BitVec 512) (gen buf : Nat) (ea : Word) (cap : Word) : Res := do
  let h := mxShape cfg buf
  let starts := (List.range h.rows).map fun r => ea.toNat + r * h.pitch
  let bad := (starts.find? fun a => if s.mxAlias a then a % 64 ≠ 0 else a % mxAlign h.fmt ≠ 0).or
    (if h.pitch % 64 ≠ 0 then starts.find? s.mxAlias else none)
  match bad with
  | some a => trap 4 (word a)
  | none => do
    let (s, ps, e) ← s.mxPages .load needR (s.mxLdRanges cfg h ea.toNat)
    match e with
    | some e => .error e
    | none => do
      need (!(starts.any s.mxAlias && (h.cmp || h.pitch < 2 * h.kr cfg))) 26 (mxStval n 2)
      let q := s.mxCmd (.ld buf ea) cfg gen ps
      s.mxWatch n g cap q false ea
      s.mxSend (.mxCmd g cap q) false

/-- The checks of an MXST (R271). -/
def State.mxStIssue (s : State) (n g : Nat) (cfg : BitVec 512) (gen acc : Nat) (ea : Word) (cap : Word) : Res := do
  let es := mxStBytes cfg
  let rows := (List.range (mxM cfg)).map fun i => (ea.toNat + i * mxStPitch cfg, mxN cfg * es)
  match rows.find? fun r => r.1 % es ≠ 0 with
  | some r => trap 6 (word r.1)
  | none => do
    let (s, ps, e) ← s.mxPages .store needW rows
    match e with
    | some e => .error e
    | none => do
      let q := s.mxCmd (.st acc ea) cfg gen ps
      s.mxWatch n g cap q true ea
      s.mxSend (.mxCmd g cap q) false

/-- Read the map of MXDUP as loads of the issuer, block by block (R273). -/
def State.mxMap (s : State) (va n : Nat) : Except Stop (State × List (List Nat)) :=
  match n with
  | 0 => .ok (s, [])
  | k + 1 => do
    let (s, _, v) ← s.deviceRead .load needR va 64
    let (s, r) ← s.mxMap (va + 64) k
    .ok (s, ((List.range 16).map fun j => v >>> (32 * j) % 2 ^ 32) :: r)

/-- The checks of an MXDUP (R273). -/
def State.mxDupIssue (s : State) (n g : Nat) (cfg : BitVec 512) (gen : Nat) (ea : Word) (cap : Word) : Res := do
  -- page faults of the whole map go before access faults, and those before refusals (R78)
  let (s, _) ← s.pages .load needR ea.toNat (64 * mxBlocks cfg)
  let (s, m) ← s.mxMap ea.toNat (mxBlocks cfg)
  let ok := m.zipIdx.all fun (ws, b) => ws.all fun w => w == 2 ^ 32 - 1 || decide (w < min 256 (mxKlen cfg - 256 * b))
  need ok 26 (mxStval n 1)
  let q := s.mxCmd (.dup m) cfg gen []
  s.mxWatch n g cap q false ea
  s.mxSend (.mxCmd g cap q) false

/-- MX_CONFIG_QUERY (R402): the target answers, and the issuer makes its checks and sends the command. -/
def State.mxQueried (s : State) (cid : Nat) : State :=
  let c := s.ctx cid
  match c.request with
  | some (.mxQuery g cap q) =>
    let m := (s.cluster g).mx
    let n := s.reportCluster g
    if cap ≠ m.key then s.raiseCtx cid 26 (mxStval n 0)
    else
      let old := s.cur
      let t : State := { s with cur := cid }
      let r : Res := match q with
        | .ld b ea => t.mxLdIssue n g m.next m.gen b ea cap
        | .st d ea => t.mxStIssue n g m.next m.gen d ea cap
        | .dup ea => t.mxDupIssue n g m.next m.gen ea cap
      { (t.finish r) with cur := old }
  | _ => s

/-- The reply to a waiting context: its instruction may retire. -/
def State.replyTo (s : State) (cid : Nat) : State :=
  s.modCtx cid fun c => { c with request := none, wake := some ⟨0, 0, s.now, 0, false⟩ }

/-- MX_COMMAND_ARRIVAL (R264): the target compares the capability and the fit, and queues or refuses the command. A full queue holds it. -/
def State.mxArrives (s : State) (cid : Nat) : State :=
  match (s.ctx cid).request with
  | some (.mxCmd g cap q) =>
    let m := (s.cluster g).mx
    let n := s.reportCluster g
    let put (s : State) (f : Mx → Mx) : State := s.modCluster g fun c => { c with mx := f c.mx }
    if mxStays m q then s
    else if cap ≠ m.key then s.raiseCtx cid 26 (mxStval n 0)
    else if !m.fits q then s.raiseCtx cid 26 (mxStval n 2)
    else match q.op with
      | .grant k => (put s fun m => { m with key := k }).replyTo cid
      | .cfg _ => (put s fun m => { m with queue := m.queue ++ [q], gen := m.gen + 1 }).replyTo cid
      | .sync => (put s fun m => { m with queue := m.queue ++ [q] }).modCtx cid fun c => { c with request := some (.mxCmd g cap { q with started := true }) }
      | _ => (put s fun m => { m with queue := m.queue ++ [q] }).replyTo cid
  | _ => s

/-- The memory unit and the array (R275); none for the commands that use neither. -/
def MxOp.unit (o : MxOp) : Option Bool := match o with
  | .ld _ _ => some false | .st _ _ => some false | .mac _ _ _ _ => some true | .zero _ => some true | _ => none
def MxOp.usesBuf (o : MxOp) (b : Nat) : Bool := match o with
  | .ld d _ => d = b | .mac _ _ x y => x = b || y = b | _ => false
def MxOp.usesAcc (o : MxOp) (d : Nat) : Bool := match o with
  | .mac _ a _ _ => a = d | .st a _ => a = d | .zero a => a = d | _ => false

/-- The stored bytes of a range of a command's captured pages. -/
def State.mxSpan (s : State) (ps : Pages) (va n : Nat) : List (Nat × Nat) :=
  (physPieces (ps.filter fun x => va / 4096 ≤ x.va / 4096 && x.va / 4096 * 4096 < va + n) va n).flatMap fun p => s.storedPieces p.1 p.2

/-- The stored bytes that a memory command reads or writes (R275): rows and scale codes. -/
def State.mxPieces (s : State) (q : MxCmd) : List (Nat × Nat) :=
  match q.op with
  | .ld b ea =>
    let h := mxShape q.cfg b
    let view (a : Nat) : Bool := (pageAt q.pages a).any fun x => isAlias x.pa
    let rows := (List.range h.rows).flatMap fun r =>
      let a := ea.toNat + r * h.pitch
      s.mxSpan q.pages a (if view a then 2 * h.kr q.cfg else h.rb q.cfg)
    rows ++ (h.scales q.cfg ea.toNat view).flatMap fun p => s.mxSpan q.pages p.1 p.2
  | .st _ ea => (List.range (mxM q.cfg)).flatMap fun i => s.mxSpan q.pages (ea.toNat + i * mxStPitch q.cfg) (mxN q.cfg * mxStBytes q.cfg)
  | _ => []

/-- Whether an earlier unfinished command holds back a later one (R275): each unit runs its commands in acceptance order. -/
def State.mxBlocks (s : State) (p q : MxCmd) : Bool :=
  match q.op with
  | .cfg _ => true
  | .dup _ => true
  | .sync => p.task = q.task
  | .grant _ => false
  | _ =>
    (match p.op with
     | .cfg _ => true
     | .dup _ => true
     | _ => false) ||
    (q.op.unit.isSome && p.op.unit == q.op.unit) || (List.range 4).any (fun b => p.op.usesBuf b && q.op.usesBuf b) ||
    (List.range 8).any (fun d => p.op.usesAcc d && q.op.usesAcc d) || rangesOverlap (s.mxPieces p) (s.mxPieces q)

/-- Whether the command at a place of the queue may start. -/
def State.mxReady (s : State) (g i : Nat) : Bool :=
  match (s.cluster g).mx.queue[i]? with
  | some q => !q.started && (((s.cluster g).mx.queue.take i).all fun p => !s.mxBlocks p q) && !(q.op.unit = some false && s.engineHeld g q.pages)
  | none => false

/-- MX_COMMAND_START (R275). A change of SPWAYS holds the memory unit (R178), and a stopped die its engines (R397). -/
def State.mxStart (s : State) (g i : Nat) : State :=
  if s.mxReady g i && !(s.die (dieOfCluster g)).stopped then s.modCluster g fun c => { c with mx := { c.mx with queue := c.mx.queue.modify i fun q => { q with started := true } } }
  else s

/-- Codes packed little-endian in a row. -/
def unpackCodes (w n v : Nat) : List Nat := (List.range n).map fun i => v >>> (w * i) % 2 ^ w

/-- A zero of a format. -/
def mxZeroCode (fmt : Nat) : Nat := if fmt = 14 then 0x10 else 0

/-- A compressed row spread over its channels (R261): none where a metadata byte has more than G bits set. -/
def expandRow (g fmt : Nat) (vals mds : List Nat) : Option (List Nat) :=
  match mds with
  | [] => some []
  | b :: t =>
    let n := ((List.range 8).filter fun j => b.testBit j).length
    if g < n then none
    else
      let here := (List.range 8).map fun j =>
        if b.testBit j then vals.getD ((List.range j).filter fun i => b.testBit i).length 0 else mxZeroCode fmt
      (expandRow g fmt (vals.drop g) t).map fun r => here ++ r

/-- The elements of a row of an alias view (R258), each through its own page: codes with their scale codes, or the first fault. -/
def State.aliasRow (s : State) (g : Nat) (ps : Pages) (va n : Nat) : Except (Nat × Nat) (List (Nat × Nat)) :=
  match n with
  | 0 => .ok []
  | m + 1 =>
    match pageAt ps va with
    | none => .error (13, va)
    | some x =>
      match regionOf x.pa with
      | .scratch al h off =>
        let k := (s.cluster h).aliasOf al
        if al = 0 || !k.en || !k.fits (s.cluster h).spSize (off / 2) then .error (Config.freeMxCause 1, x.pa)
        else if !(s.selvedgeOk g .read x.pa 2) then .error (25, x.pa)
        else match s.aliasRow g ps (va + 2) m with
          | .ok t => .ok ((s.aliasCode h k (off / 2), s.aliasScale h k (off / 2)) :: t)
          | .error e => .error e
      | _ => .error (Config.freeMxCause 1, x.pa)

/-- The format of a row of an MXLD: the alias's where it starts in one (R258; log entry 68), else the shape entry's. -/
def State.mxFmt (s : State) (q : MxCmd) (h : MxShape) (a : Nat) : BitVec 5 :=
  BitVec.ofNat 5 (match (pageAt q.pages a).map fun x => regionOf x.pa with
    | some (.scratch al hc _) => if al ≠ 0 then ((s.cluster hc).aliasOf al).fmt else h.fmt
    | _ => h.fmt)

/-- Row `r` of an MXLD (R258, R261), as the target cluster reads it: the codes with their scale codes, or the cause and address of a
fault. -/
def State.mxRow (s : State) (g : Nat) (q : MxCmd) (h : MxShape) (ea r : Nat) : State × Except (Nat × Nat) (List (Nat × Nat)) :=
  let a := ea + r * h.pitch
  let kr := h.kr q.cfg
  match pageAt q.pages a with
  | none => (s, .error (13, a))
  | some x => if isAlias x.pa then (s, s.aliasRow g q.pages a kr) else plain s kr a
where
  /-- A row of raw memory. -/
  plain (s : State) (kr a : Nat) : State × Except (Nat × Nat) (List (Nat × Nat)) :=
    let w := mxBits h.fmt
    match s.readSpan g q.tid q.task q.pages 64 a (h.rb q.cfg) with
    | (s, .error e) => (s, .error e)
    | (s, .ok v) =>
      let codes : Option (List Nat) :=
        if h.cmp then
          let n := mxKlen q.cfg * mxG q.cfg / 8
          expandRow (mxG q.cfg) h.fmt (unpackCodes w n v) (unpackCodes 8 (mxKlen q.cfg / 8) (v >>> ((n * w + 7) / 8 * 8)))
        else some (unpackCodes w kr v)
      let sc : Nat := (((ea : Int) + h.scoff) % (2 ^ 64 : Nat)).toNat
      match codes with
      | none => (s, .error (Config.freeMxCause 0, ((pageAt q.pages a).map (·.pa)).getD 0))
      | some cs =>
        match h.scmode with
        | 1 => (match s.readSpan g q.tid q.task q.pages 3 (sc + r * (kr / 32)) (kr / 32) with
          | (s, .error e) => (s, .error e)
          | (s, .ok t) => (s, .ok (cs.mapIdx fun j c => (c, t >>> (8 * (j / 32)) % 256))))
        | 2 => (match s.readSpan g q.tid q.task q.pages 1 sc 1 with
          | (s, .error e) => (s, .error e)
          | (s, .ok t) => (s, .ok (cs.map fun c => (c, t % 256))))
        | _ => (s, .ok (cs.map fun c => (c, 127)))

/-- Every row of an MXLD with its format, up to the first fault. -/
def State.mxRows (s : State) (g : Nat) (q : MxCmd) (h : MxShape) (ea r n : Nat) : State × Except (Nat × Nat) (List (BitVec 5 × List (Nat × Nat))) :=
  match n with
  | 0 => (s, .ok [])
  | k + 1 =>
    match s.mxRow g q h ea r with
    | (s, .error e) => (s, .error e)
    | (s, .ok row) => match s.mxRows g q h ea (r + 1) k with
      | (s, .error e) => (s, .error e)
      | (s, .ok rows) => (s, .ok ((s.mxFmt q h (ea + r * h.pitch), row) :: rows))

/-- A duplicated row laid over the position sequence (R262). -/
def dupRow (fmt klen : Nat) (map : List (List Nat)) (row : List (Nat × Nat)) : List (Nat × Nat) :=
  (List.range ((klen + 255) / 256)).flatMap fun b =>
    (row.drop (256 * b)).take (min 256 (klen - 256 * b)) ++
    (List.range 32).map fun sl =>
      let w := (map.getD b []).getD sl (2 ^ 32 - 1)
      if sl < 16 ∧ w ≠ 2 ^ 32 - 1 then row.getD (256 * b + w) (mxZeroCode fmt, 127) else (mxZeroCode fmt, 127)

/-- Cut a list into blocks of `k`. -/
def blocksOf {α : Type} (fuel k : Nat) (xs : List α) : List (List α) :=
  match fuel with
  | 0 => []
  | f + 1 => if xs = [] then [] else xs.take k :: blocksOf f k (xs.drop k)

/-- One accumulator element of a product (R92). -/
def mxElement (cfg : BitVec 512) (fa fb : Nat) (acc : Nat) (a b : List (Nat × Nat)) : Nat × Flags :=
  let ps := a.zip b
  if mxAcc64 cfg then
    ps.foldl (fun (q : Nat × Flags) p =>
      let (r, f) := fFma .f64 .rne false false p.1.1 p.2.1 q.1
      (r, q.2 ||| f)) (acc, 0)
  else
    (blocksOf ps.length (mxK cfg) ps).foldl (fun (q : Nat × Flags) blk =>
      let (r, f) := blockStep q.1 (blk.map fun p => blockProduct fa fb p.1 p.2)
      (r, q.2 ||| f)) (acc, 0)

/-- MXFLAGS from the flags of a step (R276). -/
def mxFlags (f : Flags) : BitVec 4 :=
  BitVec.ofNat 4 (bnat (f.getLsbD 4) + bnat (f.getLsbD 2) * 2 + bnat (f.getLsbD 1) * 4 + bnat (f.getLsbD 0) * 8)

/-- The key of an accumulator element. -/
def accKey (d i j : Nat) : Nat := d * 4096 + i * 64 + j
def Mx.accAt (m : Mx) (d i j : Nat) : Nat := ((tfind m.acc (accKey d i j)).getD 0).toNat
def Mx.setAcc (m : Mx) (d i j v : Nat) : Mx := { m with acc := tput m.acc (accKey d i j) (BitVec.ofNat 64 v) }

/-- A product of two loaded buffers (R270). -/
def Mx.product (m : Mx) (d : Nat) (a b : MxBuf) : Mx :=
  let cfg := m.cfg
  let dup (split : Bool) (row : BitVec 5 × List (Nat × Nat)) : BitVec 5 × List (Nat × Nat) :=
    if mxDup cfg && !split then (row.1, dupRow row.1.toNat (mxKlen cfg) m.map row.2) else row
  let ra := (List.range (mxM cfg)).map fun i => dup (!mxDupB cfg) (a.rows.getD i (0, []))
  let rb := (List.range (mxN cfg)).map fun j => dup (mxDupB cfg) (b.rows.getD j (0, []))
  (ra.zipIdx).foldl (fun m (x, i) => (rb.zipIdx).foldl (fun m (y, j) =>
    let (v, f) := mxElement cfg x.1.toNat y.1.toNat (m.accAt d i j) x.2 y.2
    { m.setAcc d i j v with flags := m.flags ||| mxFlags f }) m) m

/-- The first byte of a range of captured pages that lies in a page of an alias view which no longer maps it (R277), with its physical address. -/
def State.mxGone (s : State) (ps : Pages) (va n : Nat) : Option (Nat × Nat) :=
  (ps.filter fun x => va / 4096 ≤ x.va / 4096 && x.va / 4096 * 4096 < va + n).findSome? fun x =>
    let lo := max va (x.va / 4096 * 4096)
    let hi := min (va + n) (x.va / 4096 * 4096 + 4096)
    let pa := x.pa / 4096 * 4096 + lo % 4096
    match regionOf pa with
    | .scratch al hc off =>
      let k := (s.cluster hc).aliasOf al
      if al ≠ 0 && (!k.en || !k.fits (s.cluster hc).spSize (off / 2) || !k.fits (s.cluster hc).spSize ((off + (hi - lo) - 1) / 2)) then some (lo, pa) else none
    | _ => none

/-- Store the rows of an accumulator from row `i` on (R271), up to the first fault; a row is written up to a page of an alias that is disabled. -/
def State.mxStore (s : State) (g : Nat) (q : MxCmd) (d ea i n : Nat) : State × Option (Nat × Nat) :=
  match n with
  | 0 => (s, none)
  | k + 1 =>
    let m := (s.cluster g).mx
    let vals := (List.range (mxN q.cfg)).map fun j =>
      if mxStFmt q.cfg = 1 then roundVal .bf16 .rne false (unpack .f32 (m.accAt d i j)) else (m.accAt d i j, 0)
    let f := vals.foldl (fun f p => f ||| p.2) (0 : Flags)
    let s := s.modCluster g fun c => { c with mx := { c.mx with flags := c.mx.flags ||| mxFlags f } }
    let a := ea + i * mxStPitch q.cfg
    let w : Wake := ⟨q.task, pcode 7 g, s.now, 0, false⟩
    let n := mxN q.cfg * mxStBytes q.cfg
    let gone := s.mxGone q.pages a n
    match s.writeSpan g q.tid q.pages w (s.ctx q.cid).launch 64 a ((gone.map fun p => p.1 - a).getD n) (packElems (8 * mxStBytes q.cfg) (vals.map (·.1))) with
    | (s, _, some e) => (s, some e)
    | (s, _, none) => match gone with
      | some (_, pa) => (s, some (Config.freeMxCause 1, pa))
      | none => s.mxStore g q d ea (i + 1) k

/-- A matrix command ends without completing (R277): its record, and for MXLD the empty buffer. -/
def State.mxFails (s : State) (g i : Nat) (q : MxCmd) (cause pa : Nat) : State :=
  let s := s.modCluster g fun c =>
    let bufs := match q.op with
      | .ld b _ => tput c.mx.bufs b ⟨q.pages.any fun x => isAlias x.pa, [], some (cause, pa)⟩
      | _ => c.mx.bufs
    { c with mx := { c.mx with queue := c.mx.queue.eraseIdx i, bufs := bufs } }
  s.putEvent (coreOf q.cid) 9 cause q.task [q.pc, word pa, word (s.reportCluster g), 0] q.task (pcode 7 (s.reportCluster g))

/-- What a command does when it runs (R267 to R274): the cause and address of a fault that ends it. Where no access failed the spec names no physical
address for the record: it is 0 for a format check, and the row's first byte for a bad sparsity byte (DESIGN CHOICE, log entry 95). -/
def State.mxRun (s : State) (g : Nat) (q : MxCmd) : State × Option (Nat × Nat) :=
  let put (s : State) (f : Mx → Mx) : State := s.modCluster g fun c => { c with mx := f c.mx }
  match q.op with
  | .cfg b => (put s fun m => { m with cfg := b, acc := [], bufs := [], map := [] }, none)
  | .grant _ => (s, none)
  | .sync => (s, none)
  | .zero d => (put s fun m => { m with acc := m.acc.filter fun e => e.1 / 4096 ≠ d }, none)
  | .dup map => (put s fun m => { m with map := map }, none)
  | .ld b ea =>
    let h := mxShape q.cfg b
    let view := q.pages.any fun x => isAlias x.pa
    (match s.mxRows g q h ea.toNat 0 h.rows with
     | (s, .error e) => (s, some e)
     | (s, .ok rows) => (put s fun m => { m with bufs := tput m.bufs b ⟨view, rows, none⟩ }, none))
  | .mac _ d a b =>
    let m := (s.cluster g).mx
    (match tfind m.bufs a, tfind m.bufs b with
     | some x, some y => (match x.fault, y.fault with
       | some e, _ => (s, some e)
       | none, some e => (s, some e)
       | none, none =>
         if (x.rows.take (mxM m.cfg)).all fun r => (y.rows.take (mxN m.cfg)).all fun t => mxFormatsOk m.cfg r.1.toNat t.1.toNat then (put s fun m => m.product d x y, none) else (s, some (Config.freeMxCause 2, 0)))
     | _, _ => (s, none))
  | .st d ea => s.mxStore g q d ea.toNat 0 (mxM q.cfg)

/-- MX_COMMAND_COMPLETE (R275, R278): a started command runs to its end; an MXSYNC is answered. -/
def State.mxComplete (s : State) (g i : Nat) : State :=
  match (s.cluster g).mx.queue[i]? with
  | none => s
  | some q =>
    if !q.started || (q.op.unit = some false && s.engineHeld g q.pages) || (s.die (dieOfCluster g)).stopped then s
    else match s.mxRun g q with
      | (s, some (cause, pa)) => s.mxFails g i q cause pa
      | (s, none) =>
        let s := s.modCluster g fun c => { c with mx := { c.mx with queue := c.mx.queue.eraseIdx i } }
        let waits := (s.ctx q.cid).request.any fun r => match r with
          | .mxCmd h _ p => h == g && p == q
          | _ => false
        if q.op = .sync && waits then s.replyTo q.cid else s

/-- Whether a context's request is a matrix command on its way that has captured a page `uses` names (R191). -/
def Ctx.mxWaits (c : Ctx) (uses : Xlat → Bool) : Bool := match c.request with
  | some (.mxCmd _ _ q) => !q.started && q.pages.any uses
  | _ => false

/-- A matrix command on its way arrives, once its engine's queue has a place for it. -/
def State.mxDeliver (s : State) (cid : Nat) : State :=
  match (s.ctx cid).request with
  | some (.mxCmd g _ q) =>
    let s := if mxStays (s.cluster g).mx q then (s.mxStart g 0).mxComplete g 0 else s
    if mxStays (s.cluster g).mx q then s else s.mxArrives cid
  | _ => s

/-- Run every queued command of an engine that has captured a page, with all that precede them, to their ends (R192, R304). -/
def State.mxSettle (s : State) (g : Nat) (uses : Xlat → Bool) (fuel : Nat) : State :=
  match fuel with
  | 0 => s
  | k + 1 =>
    let m := (s.cluster g).mx
    if m.queue.any fun q => q.pages.any uses then ((s.mxStart g 0).mxComplete g 0).mxSettle g uses k else s

end Sys2Proof.Machine
end

