-- ==== Sys2Proof/Machine/VecQuant.lean ====
section
/-! DEFINITION. Conversion and quantisation (R71, R171 to R176). -/

namespace Sys2Proof.Machine

/-- The types of a conversion code (R71): source and destination element-type codes. -/
def cvtTypes (code : Nat) : Nat × Nat := match code with
  | 0x00 => (10, 9) | 0x01 => (9, 10) | 0x02 => (10, 8) | 0x03 => (8, 10) | 0x04 => (11, 10) | 0x05 => (10, 11)
  | 0x06 => (10, 2) | 0x07 => (2, 10) | 0x08 => (11, 3) | 0x09 => (3, 11) | 0x0A => (10, 12) | 0x0B => (12, 10)
  | 0x0C => (10, 13) | 0x0D => (13, 10) | 0x0E => (0, 2) | 0x0F => (2, 0) | 0x10 => (10, 2) | _ => (14, 10)

/-- The binary format of an element type. -/
def cvtFmt (e : Nat) : Fmt := match e with
  | 8 => .f16 | 9 => .bf16 | 11 => .f64 | 12 => .e4m3 | 13 => .e5m2 | _ => .f32

/-- The converted value and its flags (R172). -/
def cvtValue (code x : Nat) : Nat × Flags :=
  let src := (cvtTypes code).1
  let dst := (cvtTypes code).2
  if code = 0x11 then
    (if lnsNaR x then (Fmt.f32.nan, fNV) else roundVal .f32 .rne false (lnsVal (x % 64)))
  else if code = 0x0E then (wrapInt 32 (signedOf 8 x), 0)
  else if code = 0x0F then
    let r := satInt 8 (signedOf 32 x)
    (wrapInt 8 r.1, if r.2 then fQSAT else 0)
  else if dst < 4 then
    let n := etypeWidth dst
    let r := toInt n (if code = 0x10 then .rtz else .rne) (unpack (cvtFmt src) x)
    (wrapInt n r.1, r.2)
  else if src < 4 then ofInt (cvtFmt dst) .rne (signedOf (etypeWidth src) x)
  else roundVal (cvtFmt dst) .rne (dst = 12) (unpack (cvtFmt src) x)

/-- The checks of class 110 (R171): VILL, the entry's ETYPE rule and VL limit, then the window. -/
def State.quantCheck (s : State) (i : Instr) (typeOk : Bool) (limit : Nat) (fs : List Reg) : Except Stop Unit :=
  if s.me.vill || !typeOk || decide (limit < s.me.vl) then illegal i else s.checkWindow fs

/-- Write elements of an explicit width, with flags. -/
def State.putWide (s : State) (vd : Reg) (w : Nat) (xs : List (Option (Nat × Flags))) : State :=
  let fl := xs.foldl (fun (f : Flags) o => match o with
    | some p => f ||| p.2
    | none => f) 0
  let s := s.setVr vd (vmerge (s.vr vd) w (xs.map fun o => o.map fun p => p.1))
  s.modCtx s.cur fun c => c.orQvstat fl

/-- Active elements receive result(i) at width w. -/
def State.wideMap (s : State) (vd : Reg) (mk : BitVec 3) (w cost : Nat) (result : Nat → Nat × Flags) : State :=
  let m := s.me.mask mk
  (s.putWide vd w ((List.range s.me.vl).map fun i => if m.getLsbD i then some (result i) else none)).enqueueE w s.me.vl cost

/-- VCVT (R172). -/
def execVcvt (vd code vs2 : Reg) (mk : BitVec 3) (s : State) : Host.Outcome State Fault Refusal :=
  s.done (do
    let src := (cvtTypes code.toNat).1
    let dst := (cvtTypes code.toNat).2
    s.quantCheck (.vcvt vd code vs2 mk) (s.me.etype == dst) (8192 / etypeWidth src) [vd, vs2]
    let v := s.vr vs2
    .ok (s.wideMap vd mk (etypeWidth dst) 1 fun i => cvtValue code.toNat (elemIn src (velem v (etypeWidth src) i))))

/-- The maximum magnitude of the active elements of block j (R173). -/
def State.blockMax (s : State) (vs2 : Reg) (mk : BitVec 3) (j : Nat) : Nat :=
  let m := s.me.mask mk
  let is := ((List.range 32).map (32 * j + ·)).filter fun i => decide (i < s.me.vl) && m.getLsbD i
  let xs := is.map fun i => velem (s.vr vs2) 32 i % 2 ^ 31
  if xs.any (fun x => decide (Fmt.f32.infCode < x)) then Fmt.f32.nan else xs.foldl Nat.max 0

/-- VAMAX (R173). -/
def execVamax (vd vs2 : Reg) (mk : BitVec 3) (s : State) : Host.Outcome State Fault Refusal :=
  s.done (do
    s.quantCheck (.vamax vd vs2 mk) (s.me.etype == 10) 256 [vd, vs2]
    .ok ((s.putWide vd 32 ((List.range ((s.me.vl + 31) / 32)).map fun j => some (s.blockMax vs2 mk j, 0))).enqueueX s.me.vl 4))

/-- The quantisation format of an element-type code. -/
def quantFmt (e : Nat) : QFmt := match e with
  | 12 => .e4m3 | 13 => .e5m2 | _ => .lns6

/-- VSCALE (R174). -/
def execVscale (vd fmt vs2 : Reg) (mk : BitVec 3) (s : State) : Host.Outcome State Fault Refusal :=
  s.done (do
    s.quantCheck (.vscale vd fmt vs2 mk) (s.me.etype == 10) 256 [vd, vs2]
    let v := s.vr vs2
    .ok (s.wideMap vd mk 8 1 fun i => scaleCode (quantFmt fmt.toNat) (velem v 32 i)))

/-- The scale code of element i in a register of scale codes (R175). -/
def scaleByte (v : VReg) (i : Nat) : Nat := velem v 8 (i / 32)

/-- VQLNS (R175). -/
def execVqlns (vd vs1 vs2 : Reg) (mk : BitVec 3) (s : State) : Host.Outcome State Fault Refusal :=
  s.done (do
    s.quantCheck (.vqlns vd vs1 vs2 mk) (s.me.etype == 14) 256 [vd, vs1, vs2]
    let c := s.vr vs1
    let v := s.vr vs2
    .ok (s.wideMap vd mk 8 2 fun i => qLns (scaleByte c i) (velem v 32 i)))

/-- VDQLNS (R175). -/
def execVdqlns (vd vs1 vs2 : Reg) (mk : BitVec 3) (s : State) : Host.Outcome State Fault Refusal :=
  s.done (do
    s.quantCheck (.vdqlns vd vs1 vs2 mk) (s.me.etype == 14) 256 [vd, vs1, vs2]
    let c := s.vr vs1
    let v := s.vr vs2
    .ok (s.wideMap vd mk 32 2 fun i => dqLns (scaleByte c i) (velem v 8 i % 64)))

/-- VQFP8 (R175). -/
def execVqfp8 (vd vs1 vs2 : Reg) (mk : BitVec 3) (s : State) : Host.Outcome State Fault Refusal :=
  s.done (do
    s.quantCheck (.vqfp8 vd vs1 vs2 mk) (s.me.etype == 12 || s.me.etype == 13) 256 [vd, vs1, vs2]
    let F := cvtFmt s.me.etype
    let c := s.vr vs1
    let v := s.vr vs2
    .ok (s.wideMap vd mk 8 2 fun i => qFp8 F (scaleByte c i) (velem v 32 i)))

/-- VDQFP8 (R175). -/
def execVdqfp8 (vd vs1 vs2 : Reg) (mk : BitVec 3) (s : State) : Host.Outcome State Fault Refusal :=
  s.done (do
    s.quantCheck (.vdqfp8 vd vs1 vs2 mk) (s.me.etype == 12 || s.me.etype == 13) 256 [vd, vs1, vs2]
    let F := cvtFmt s.me.etype
    let c := s.vr vs1
    let v := s.vr vs2
    .ok (s.wideMap vd mk 32 2 fun i => dqFp8 F (scaleByte c i) (velem v 8 i)))

/-- The channels VQSPLIT chooses (R176): the 16 largest magnitudes above the threshold, ties to the lower channel. -/
def splitChoose (cand : List (Nat × Nat)) : List Nat :=
  (cand.filter fun (i, m) => decide ((cand.filter fun (j, n) => decide (m < n) || (m == n && decide (j < i))).length < 16)).map (·.1)

/-- VQSPLIT (R176). -/
def execVqsplit (vd rs1 vs2 : Reg) (mk : BitVec 3) (s : State) : Host.Outcome State Fault Refusal :=
  s.done (do
    s.quantCheck (.vqsplit vd rs1 vs2 mk) (s.me.etype == 10) 256 [vd, vs2]
    if s.me.vl = 0 then .ok (s.enqueueX 0 8)
    else
      let t := unpack .f32 (s.fScalar rs1)
      let m := s.me.mask mk
      let v := s.vr vs2
      let cand := ((List.range s.me.vl).filter fun i =>
        let x := velem v 32 i % 2 ^ 31
        m.getLsbD i && decide (x ≤ Fmt.f32.infCode) && !t.isNan && cmpV (unpack .f32 x) t == .gt).map fun i => (i, velem v 32 i % 2 ^ 31)
      let chosen := splitChoose cand
      let fl : Flags := if 16 < cand.length then fQSAT else 0
      let xs := (List.range 16).map fun k => some (chosen.getD k 0xFFFFFFFF, if k = 0 then fl else 0)
      .ok ((s.putWide vd 32 xs).enqueueX s.me.vl 8))

end Sys2Proof.Machine
end

