-- ==== Sys2Proof/Machine/Stack.lean ====
section
/-! DEFINITION. The stack engines (R295 to R301): the check of a descriptor, the four commands as they are issued, and the units in which
an engine performs them. -/

namespace Sys2Proof.Machine

/-- The fields of a descriptor (R296). -/
structure StackDesc where
  ck : Bool
  fmt : Nat
  count : Nat
  w10 : Nat
  w18 : Nat
  w20 : Nat
  w28 : Nat
  pitch : Nat
  deriving DecidableEq, Repr

def stackDesc (d : BitVec 512) : StackDesc :=
  { ck := bit d 64, fmt := bits d 79 72, count := bits d 127 96, w10 := bits d 191 128, w18 := bits d 255 192, w20 := bits d 319 256
    w28 := bits d 351 320, pitch := bits d 383 352 }

/-- A quantising conversion code (R299). -/
def quantCode (c : Nat) : Bool := c = 0x40 || c = 0x41 || c = 0x42
def quantOf (c : Nat) : QFmt := match c with
  | 0x41 => .e4m3 | 0x42 => .e5m2 | _ => .lns6

/-- Bits of an HSCONV element in memory, source and destination: LNS6 is packed (R86). -/
def convBits (e : Nat) : Nat := if e = 14 then 6 else etypeWidth e
def convSrc (c : Nat) : Nat := if quantCode c then 32 else convBits (cvtTypes c).1
def convDst (c : Nat) : Nat := if quantCode c then (if c = 0x40 then 6 else 8) else convBits (cvtTypes c).2

/-- Alignment of an element of that many bits. -/
def convAlign (b : Nat) : Nat := if b = 6 then 1 else b / 8

/-- The limits and Reserved fields of R296, the conversion codes of R299 and the alignment of element addresses (R298). -/
def stackDescOk (op : StackOp) (v : BitVec 512) : Bool :=
  let d := stackDesc v
  let common := bits v 71 65 = 0 && bits v 95 80 = 0 && bits v 511 384 = 0
  common && (match op with
    | .gath => d.fmt = 0 && 1 ≤ d.count && d.count ≤ 65536 && d.w18 % 4 = 0 && d.w28 % 16 = 0 && 16 ≤ d.w28 && d.w28 ≤ 2048 &&
        d.pitch % 16 = 0 && d.w28 ≤ d.pitch
    | .red =>
        let w := etypeWidth d.fmt / 8
        (d.fmt = 2 || d.fmt = 3 || d.fmt = 10 || d.fmt = 11) && 2 ≤ d.count && d.count ≤ 64 && d.w10 % w = 0 && d.w18 % 8 = 0 &&
        d.w20 = 0 && 1 ≤ d.w28 && d.w28 ≤ 2 ^ 20 && d.pitch = 0
    | .conv => (d.fmt ≤ 0x11 || quantCode d.fmt) && 1 ≤ d.count && d.count ≤ 2 ^ 24 && (!quantCode d.fmt || d.count % 32 = 0) &&
        d.w10 % convAlign (convSrc d.fmt) = 0 && d.w18 % convAlign (convDst d.fmt) = 0 && d.w28 = 0 && d.pitch = 0
    | .gemv =>
        let w := etypeWidth d.fmt / 8
        (d.fmt = 10 || d.fmt = 8 || d.fmt = 9 || d.fmt = 12 || d.fmt = 13) && 1 ≤ d.count && d.count ≤ 65536 && d.w10 % 128 = 0 &&
        d.w18 % 4 = 0 && d.w20 % 4 = 0 && 1 ≤ d.w28 && d.w28 ≤ 65536 && d.pitch % 128 = 0 && d.w28 * w ≤ d.pitch)

/-- Whether the sizes of a command's elements are defined: FMT or CODE is one of R296 and R299. -/
def stackSized (op : StackOp) (v : BitVec 512) : Bool :=
  let f := (stackDesc v).fmt
  match op with
  | .gath => true
  | .red => f = 2 || f = 3 || f = 10 || f = 11
  | .conv => f ≤ 0x11 || quantCode f
  | .gemv => f = 10 || f = 8 || f = 9 || f = 12 || f = 13

/-- The operand ranges of a command, in the order in which they are checked: whether it is written, its address, and its bytes. `srcs` are
HSRED's sources. -/
def stackRanges (op : StackOp) (v : BitVec 512) (srcs : List Nat) : List (Bool × Nat × Nat) :=
  let d := stackDesc v
  match op with
  | .gath => [(false, d.w18, 4 * d.count), (true, d.w20, d.count * d.w28)]
  | .red =>
    let n := d.w28 * (etypeWidth d.fmt / 8)
    (srcs.map fun a => (false, a, n)) ++ [(true, d.w10, n)]
  | .conv => [(false, d.w10, (d.count * convSrc d.fmt + 7) / 8), (true, d.w18, (d.count * convDst d.fmt + 7) / 8)] ++
      (if quantCode d.fmt && d.w20 ≠ 0 then [(true, d.w20, d.count / 32)] else [])
  | .gemv => [(false, d.w10, (d.count - 1) * d.pitch + d.w28 * (etypeWidth d.fmt / 8)), (false, d.w18, 4 * d.w28), (true, d.w20, 4 * d.count)]

/-- Translate the operand ranges (R298): page faults first, then access faults; an operand outside device HBM is an access fault. -/
def State.stackPages (s : State) (rs : List (Bool × Nat × Nat)) : Except Stop (State × Pages × Option Stop) :=
  match rs with
  | [] => .ok (s, [], none)
  | (w, va, n) :: t => do
    let cls : Cls := if w then .store else .load
    let (s, ps, e) ← s.scanPages (s.view s.cur) cls (if w then needW else needR) true (n / 4096 + 2) va (va + n)
    let out := ps.find? fun x => !(x.mt = .hbm || x.mt = .sw)
    let (s, qs, e') ← s.stackPages t
    let first : Option Stop := match e, out with
      | some e, _ => some e
      | none, some x => some (cls.err .access x.va)
      | none, none => e'
    .ok (s, ps ++ qs, first)

/-- HSRED's `n` source addresses at `va` of translated pages, read at issue as operands (R77, R298). -/
def State.stackSources (s : State) (ps : Pages) (va n : Nat) : State × List Nat :=
  match n with
  | 0 => (s, [])
  | k + 1 =>
    match pageAt ps va with
    | none => (s, [])
    | some x =>
      let (s, v) := s.loadBytes x 8
      let (s, r) := s.stackSources ps (va + 8) k
      (s, v :: r)

/-- The panel of a physical address (R298). -/
def panelOf (pa : Nat) : Nat := pa >>> 40 % 4

/-- The commands of R295 as they issue, in the order of R78: every page fault, every access fault, then the fields and the target. Operands whose
size the descriptor leaves undefined have no pages to check. -/
def State.stackIssue (s : State) (op : StackOp) (rs1 rs2 : Reg) : Res := do
  let a := s.xr rs1
  let w := s.xr rs2
  -- no check changes an engine's list
  let lists := s.stackCmds
  need (bits a 5 0 == 0) 6 a
  let (s, dx) ← s.access .store needRW .write a.toNat 64
  need (dx.mt = .hbm || dx.mt = .sw) 7 a
  let (s, raw) := s.loadBytes dx 64
  let v : BitVec 512 := BitVec.ofNat 512 raw
  let d := stackDesc v
  let fieldsOk := stackDescOk op v
  let (s, lp, late) ← s.stackPages (if op = .red && stackSized op v then [(false, d.w18, 8 * d.count)] else [])
  let (s, srcs) := if op = .red && stackSized op v && late.isNone then s.stackSources lp d.w18 d.count else (s, [])
  let ranges := stackRanges op v srcs
  let (s, ps, late2) ← s.stackPages (if stackSized op v then ranges else [])
  let (s, target, late3) ← s.targetOf d.ck w
  match (late.or late2).or late3 with
  | some e => .error e
  | none => do
    need fieldsOk 50 a
    let ew := etypeWidth d.fmt / 8
    need (srcs.all fun p => p % ew == 0) 50 a
    -- the primary operand lies in one panel; of HSGATH's table only the first byte is known before the rows are
    let n0 := match op with
      | .gath => 0
      | .red => d.w28 * ew
      | .conv => (d.count * convSrc d.fmt + 7) / 8
      | .gemv => (d.count - 1) * d.pitch + d.w28 * ew
    let prim := (ps.filter fun x => d.w10 / 4096 ≤ x.va / 4096 && x.va < d.w10 + n0).map (·.pa)
    need (prim.all fun p => panelOf p == panelOf (prim.headD 0)) 50 a
    need (!(op = .red && (srcs.drop 1).any fun p =>
      rangesOverlap (physPieces (ps.filter fun x => d.w10 / 4096 ≤ x.va / 4096 && x.va < d.w10 + n0) d.w10 n0)
        (physPieces (ps.filter fun x => p / 4096 ≤ x.va / 4096 && x.va < p + n0) p n0))) 50 a
    match target with
    | none => trap 29 w
    | some t => do
      need (s.targetFree t) 29 w
      s.watchAll ((true, a.toNat, 1) :: (ranges.map fun (st, va, _) => (st, va, 1)) ++ if d.ck then [(true, w.toNat, 1)] else [])
      -- the lead stack is that of the primary operand's first byte
      let base : Nat := match pageAt ps d.w10, s.xlate (s.view s.cur) needR d.w10 with
        | some x, _ => x.pa
        | none, .ok (_, x) => x.pa
        | none, .error _ => (prim.headD ((pageAt ps d.w20).map (·.pa) |>.getD 0))
      let lead := storageStack base
      let s := s.targetTaken t (pcode 2 lead)
      let p := s.view s.cur
      let c : StackCmd := ⟨op, v, dx, t, srcs, ps, p.satp, p.priv, p.sum, p.mxr, s.cur, s.me.qtid, s.me.pc, 0, 0, 0, s.now, []⟩
      .ok { s with stackCmds := tput lists lead ((tfind lists lead).getD [] ++ [c]) }

/-- HSGATH (R295). -/
def execHsgath (rs1 rs2 : Reg) (s : State) : Host.Outcome State Fault Refusal := s.done (s.stackIssue .gath rs1 rs2)
/-- HSRED (R295). -/
def execHsred (rs1 rs2 : Reg) (s : State) : Host.Outcome State Fault Refusal := s.done (s.stackIssue .red rs1 rs2)
/-- HSCONV (R295). -/
def execHsconv (rs1 rs2 : Reg) (s : State) : Host.Outcome State Fault Refusal := s.done (s.stackIssue .conv rs1 rs2)
/-- HSGEMV (R295). -/
def execHsgemv (rs1 rs2 : Reg) (s : State) : Host.Outcome State Fault Refusal := s.done (s.stackIssue .gemv rs1 rs2)

/-- Read `n` bytes of an operand through its pages, each line at its home (R297). -/
def State.engineRead (s : State) (ps : Pages) (fuel va n : Nat) : State × Nat :=
  match fuel with
  | 0 => (s, 0)
  | k + 1 =>
    if n = 0 then (s, 0)
    else
      let m := min n (128 - va % 128)
      let (s, v) := s.homeReadX ((pageAt ps va).getD Xlat.none) 0 m
      let (s, r) := s.engineRead ps k (va + m) (n - m)
      (s, v + r * 2 ^ (8 * m))

/-- Write `n` bytes of an operand, likewise. -/
def State.engineWrite (s : State) (ps : Pages) (w : Wake) (fuel va n v : Nat) : State :=
  match fuel with
  | 0 => s
  | k + 1 =>
    if n = 0 then s
    else
      let m := min n (128 - va % 128)
      (s.homeWriteX ((pageAt ps va).getD Xlat.none) 0 m (v % 2 ^ (8 * m)) w 0).engineWrite ps w k (va + m) (n - m) (v >>> (8 * m))

/-- How many lines `n` bytes may touch. -/
def lineFuel (n : Nat) : Nat := n / 128 + 2

/-- The units of a command: rows of HSGATH and HSGEMV, elements of HSRED, elements or blocks of HSCONV. -/
def StackCmd.unitCount (c : StackCmd) : Nat :=
  let d := stackDesc c.desc
  match c.op with
  | .gath => d.count
  | .red => d.w28
  | .conv => if quantCode d.fmt || d.fmt = 0x11 then (d.count + 31) / 32 else d.count
  | .gemv => d.count

/-- The translations under which a stack engine reads a table row (R298). -/
def StackCmd.rowView (c : StackCmd) (lead : Nat) : View := ⟨2048 + lead / 2, c.satp, c.priv, c.sum, c.mxr, none⟩

/-- The row of a table that HSGATH reads, translated when its index arrives (R298), with its pages; a failure names its cause and address: the
physical address of a row that translates but that the map or its memory type refuses, and the virtual address of one that does not. -/
def State.tableRow (s : State) (c : StackCmd) (lead va n : Nat) : State × Except (Nat × Nat) (Nat × Pages) :=
  match s.scanPages (c.rowView lead) .load needR true 2 va (va + n) with
  | .error (.exc cause a) => (s, .error (cause, a.toNat))
  | .error _ => (s, .error (13, va))
  | .ok (s, ps, e) =>
    let bad := ps.find? fun x => !(x.mt = .hbm || x.mt = .sw) || panelOf x.pa ≠ lead / 8
    match e, bad with
    | none, none =>
      let (s, r) := s.engineRead ps (lineFuel n) va n
      (s, .ok (r, ps))
    | some (.exc _ a), _ => (s, .error (13, ((pageAt ps a.toNat).map (·.pa)).getD a.toNat))
    | some _, _ => (s, .error (13, va))
    | none, some x => (s, .error (50, x.pa))

/-- The 32 bits elements of a block of HSCONV: their maximum magnitude as R173. -/
def blockMaxOf (xs : List Nat) : Nat :=
  let ms := xs.map (· % 2 ^ 31)
  if ms.any (fun x => decide (Fmt.f32.infCode < x)) then Fmt.f32.nan else ms.foldl Nat.max 0

/-- Unit `u` of a command (R299): the writes it makes as (address, bytes, value), its flags, and the pages of a table row. -/
def State.stackUnit (s : State) (c : StackCmd) (lead u : Nat) : State × Except (Nat × Nat) (List (Nat × Nat × Nat) × Flags × Pages) :=
  let d := stackDesc c.desc
  let rd (s : State) (va n : Nat) : State × Nat := s.engineRead c.pages (lineFuel n) va n
  match c.op with
  | .gath =>
    let (s, i) := rd s (d.w18 + 4 * u) 4
    match s.tableRow c lead (d.w10 + i * d.pitch) d.w28 with
    | (s, .ok (v, ps)) => (s, .ok ([(d.w20 + u * d.w28, d.w28, v)], 0, ps))
    | (s, .error e) => (s, .error e)
  | .red =>
    let w := etypeWidth d.fmt
    let (s, xs) := c.srcs.foldl (fun (q : State × List Nat) a =>
      let (s, v) := rd q.1 (a + u * (w / 8)) (w / 8)
      (s, q.2 ++ [v])) (s, [])
    let (r, f) := (xs.drop 1).foldl (fun (q : Nat × Flags) x =>
      if d.fmt = 2 ∨ d.fmt = 3 then ((q.1 + x) % 2 ^ w, q.2)
      else
        let (y, g) := fAdd (if d.fmt = 11 then .f64 else .f32) .rne q.1 x
        (y, q.2 ||| g)) (xs.headD 0, 0)
    (s, .ok ([(d.w10 + u * (w / 8), w / 8, r)], f, []))
  | .conv =>
    let n := min 32 (d.count - 32 * u)
    if quantCode d.fmt then
      let (s, v) := rd s (d.w10 + 128 * u) 128
      let xs := (List.range 32).map fun i => v >>> (32 * i) % 2 ^ 32
      let (sc, f0) := scaleCode (quantOf d.fmt) (blockMaxOf xs)
      let q := xs.map fun x => if d.fmt = 0x40 then qLns sc x else qFp8 (if d.fmt = 0x42 then .e5m2 else .e4m3) sc x
      let f := q.foldl (fun f p => f ||| p.2) f0
      let b := convDst d.fmt
      (s, .ok ([(d.w18 + 4 * b * u, 4 * b, packElems b (q.map (·.1)))] ++ (if d.w20 ≠ 0 then [(d.w20 + u, 1, sc)] else []), f, []))
    else if d.fmt = 0x11 then
      let (s, v) := rd s (d.w10 + 24 * u) ((6 * n + 7) / 8)
      let q := (List.range n).map fun i => cvtValue 0x11 (v >>> (6 * i) % 64)
      (s, .ok ([(d.w18 + 128 * u, 4 * n, packElems 32 (q.map (·.1)))], q.foldl (fun f p => f ||| p.2) 0, []))
    else
      let ws := convSrc d.fmt / 8
      let wd := convDst d.fmt / 8
      let (s, x) := rd s (d.w10 + ws * u) ws
      let (y, f) := cvtValue d.fmt x
      (s, .ok ([(d.w18 + wd * u, wd, y)], f, []))
  | .gemv =>
    let w := etypeWidth d.fmt / 8
    let per := 128 / w
    let lines := (d.w28 + per - 1) / per
    let (s, acc, f) := (List.range lines).foldl (fun (q : State × Nat × Flags) l =>
      let (s, acc, f) := q
      let n := min per (d.w28 - l * per)
      let (s, b) := rd s (d.w10 + u * d.pitch + 128 * l) (n * w)
      let (s, x) := rd s (d.w18 + 4 * l * per) (4 * n)
      let ps := (List.range n).map fun c => blockProduct d.fmt 10 (b >>> (8 * w * c) % 2 ^ (8 * w), 127) (x >>> (32 * c) % 2 ^ 32, 127)
      let (acc, g) := blockStep acc ps
      (s, acc, f ||| g)) (s, 0, 0)
    (s, .ok ([(d.w20 + 4 * u, 4, acc)], f, []))

/-- Perform up to `n` units of a command (R300): each lowers a phaser's pending bytes by what it wrote. -/
def State.stackRun (s : State) (lead : Nat) (n : Nat) (c : StackCmd) : State × StackCmd × Option (Nat × Nat) :=
  match n with
  | 0 => (s, c, none)
  | k + 1 =>
    if c.unitCount ≤ c.units then (s, c, none)
    else match s.stackUnit c lead c.units with
      | (s, .error e) => (s, c, some e)
      | (s, .ok (ws, f, ps)) =>
        let w : Wake := ⟨c.task, pcode 2 lead, s.now, 0, false⟩
        let s := ws.foldl (fun s (va, n, v) => s.engineWrite c.pages w (lineFuel n) va n v) s
        let m := (ws.map fun p => p.2.1).sum
        let s := match c.target with
          | .phaser x => s.phaserDecrement x m c.task (pcode 2 lead) (coreOf c.cid)
          | .handle _ _ _ => s
        s.stackRun lead k { c with units := c.units + 1, done := c.done + m, flags := c.flags ||| f, rows := c.rows ++ ps }

/-- The pages of the table row that an HSGATH reads next, where it translates (R298). -/
def State.nextRow (s : State) (lead : Nat) (c : StackCmd) : Pages :=
  let d := stackDesc c.desc
  if c.op ≠ .gath || d.count ≤ c.units then []
  else
    let (s, i) := s.engineRead c.pages (lineFuel 4) (d.w18 + 4 * c.units) 4
    match s.scanPages (c.rowView lead) .load needR true 2 (d.w10 + i * d.pitch) (d.w10 + i * d.pitch + d.w28) with
    | .ok (_, ps, _) => ps
    | .error _ => []

/-- Replace or remove the command at place `i` of a stack engine. -/
def State.setStackCmd (s : State) (lead i : Nat) (c : Option StackCmd) : State :=
  let l := s.stackList lead
  s.setStack lead (match c with
    | some c => l.set i c
    | none => l.eraseIdx i)

/-- A stack-engine command ends without completing (R16, R301). -/
def State.stackFails (s : State) (lead i : Nat) (c : StackCmd) (cause pa : Nat) : State :=
  let s := s.setStackCmd lead i none
  let s := match c.target with
    | .handle g h _ => s.changeHandle g h 1 true c.task (pcode 2 lead)
    | .phaser _ => s
  s.putEvent (coreOf c.cid) 0x0B cause c.task [c.pc, word pa, c.target.asWord, word c.done] c.task (pcode 2 lead)

/-- Before a command starts, every tile that it reads or writes is recalled to H (R216): those with sectors in its operand ranges, and HSGATH's
table rows as they are read. -/
def State.stackTiles (s : State) (c : StackCmd) : State :=
  let pieces := (stackRanges c.op c.desc c.srcs).flatMap fun (_, va, n) =>
    physPieces (c.pages.filter fun x => va / 4096 ≤ x.va / 4096 && x.va / 4096 * 4096 < va + n) va n
  (s.tiles.filter fun t => t.sectors.any fun (line, m) =>
      (List.range 8).any fun k => m.getLsbD k && rangesOverlap [(line * lineBytes + 16 * k, 16)] pieces).foldl (fun s t =>
    let s := s.tilePush t false
    match s.tileAt t.pa with
    | some t => s.tileRecall t (s.sliceWake c.task t.home)
    | none => s) s

/-- Perform `n` more units of the command at place `i` of a stack engine; it writes STATUS and completes with the last (R296, R300). Up to
8 commands of a stack engine run at once. -/
def State.stackAdvance (s : State) (lead i n : Nat) : State :=
  match (s.stackList lead)[i]? with
  | none => s
  | some c =>
    if 8 ≤ i then s
    else
      let (s, c', e) := (if c.units = 0 then s.stackTiles c else s).stackRun lead n c
      match e with
      | some (cause, pa) => s.stackFails lead i c' cause pa
      | none =>
        if c'.units < c'.unitCount then s.setStackCmd lead i (some c')
        else
          let s := s.homeWriteX c'.descAt 0 8 (c'.flags.toNat + 128) ⟨c'.task, pcode 2 lead, s.now, 0, false⟩ 0
          let s := s.setStackCmd lead i none
          match c'.target with
          | .handle g h _ => s.changeHandle g h 2 false c'.task (pcode 2 lead)
          | .phaser x => s.phaserDecrement x 8 c'.task (pcode 2 lead) (coreOf c'.cid)

/-- Run the command at place `i` to its end. -/
def State.stackFinish (s : State) (lead i : Nat) : State :=
  match (s.stackList lead)[i]? with
  | none => s
  | some c => s.stackAdvance lead i (c.unitCount - c.units)

end Sys2Proof.Machine
end

