-- ==== Sys2Proof/Machine/Translate.lean ====
section
/-! DEFINITION. The translation fences QSFENCE and SFENCE.VMA (R191 to R193), and page migration (R194, R195). An operation that must be
complete before they go on is carried to its end within them: its units act at times the spec leaves open (log entry 8). -/

namespace Sys2Proof.Machine

/-- Whether a completion target, a copy, and a stack-engine command have captured a page that `p` names (R191). -/
def Target.uses (t : Target) (p : Xlat → Bool) : Bool := match t with
  | .phaser x => p x
  | .handle _ _ _ => false
def CopyOp.uses (c : CopyOp) (p : Xlat → Bool) : Bool := c.srcPages.any p || c.dstPages.any p || c.target.uses p
def StackCmd.uses (c : StackCmd) (p : Xlat → Bool) : Bool := c.pages.any p || c.rows.any p || p c.descAt || c.target.uses p

/-- Carry the copies of a cluster to their ends, in queue order, until none has captured a page that `uses` names. -/
def State.finishCopies (s : State) (g : Nat) (uses : Xlat → Bool) (fuel : Nat) : State :=
  match fuel with
  | 0 => s
  | n + 1 =>
    let q := (s.cluster g).copies
    if q.any fun c => c.uses uses then
      let s := match q.head? with
        | some c => if c.sealedBy.isSome then s.sealedEnd g 0 else s.copyAdvance g 0 (c.n - c.done)
        | none => s
      s.finishCopies g uses n
    else s

/-- Carry the commands of a stack engine to their ends, likewise. -/
def State.finishStack (s : State) (lead : Nat) (uses : Xlat → Bool) (fuel : Nat) : State :=
  match fuel with
  | 0 => s
  | n + 1 =>
    let q := s.stackList lead
    if q.any fun c => c.uses uses then (s.stackFinish lead 0).finishStack lead uses n else s

/-- Carry the fetched entries of a die's admitted stagings to their ends, likewise (R191, R328). -/
def State.finishStagings (s : State) (d : Nat) (uses : Xlat → Bool) : State :=
  let todo := (s.die d).stagings.zipIdx.filter fun p => p.1.admitted
  -- the last staging first, since one that ends leaves the list
  todo.reverse.foldl (fun s p =>
    p.1.entries.zipIdx.foldl (fun s e => if !e.1.done && !e.1.cancelled && e.1.pages.any uses then s.stagingComplete d p.2 e.2 else s) s) s

/-- Send at once what a cluster's shuttle holds for queues in pages that `uses` names (R355). -/
def State.finishShadows (s : State) (g : Nat) (uses : Xlat → Bool) : State :=
  ((s.cluster g).shadows.filter fun h => uses h.queue).foldl (fun s h =>
    match (s.cluster g).shadows.findIdx? (fun k => k.queue.pa == h.queue.pa) with
    | some i => s.batchArrives g i Config.shadowSize
    | none => s) s

/-- Whether an engine of cluster `g` still has work that uses such a page: a change of SPWAYS can hold it (R178). -/
def State.engineWork (s : State) (g : Nat) (uses : Xlat → Bool) : Bool :=
  ((s.cluster g).copies.any fun c => c.uses uses) || ((s.cluster g).mx.queue.any fun q => q.pages.any uses) ||
  s.ctxs.any fun q => clusterOf q.1 == g && q.2.mxWaits uses

/-- Every engine operation that has captured a page `uses` names completes or ends (R192, R304); a matrix command on its way first arrives. -/
def State.finishEngines (s : State) (uses : Xlat → Bool) : State :=
  let s := s.clusters.foldl (fun s q => s.finishCopies q.1 uses (q.2.copies.length + 1)) s
  let s := s.stackCmds.foldl (fun s q => s.finishStack q.1 uses (q.2.length + 1)) s
  let s := (s.ctxs.filter fun q => q.2.mxWaits uses).foldl (fun s q => s.mxDeliver q.1) s
  let s := s.clusters.foldl (fun s q => s.mxSettle q.1 uses (q.2.mx.queue.length + 1)) s
  s.dies.foldl (fun s q => s.finishStagings q.1 uses) s

/-- Every access of a context that is buffered, posted or queued is performed, and its residuals at pages that `uses` names leave its hem. -/
def State.finishAccesses (s : State) (cid : Nat) (uses : Xlat → Bool) : State :=
  let s := s.settle cid
  let s := s.flushWhere (coreOf cid) fun e => e.cid == cid && uses e.dst
  let s := s.decideSends (coreOf cid) s.sendFuel
  s.expireSends cid s.sends.length

/-- Whether cluster `h` is in the scope of a QSFENCE that cluster `g` issues: 2 .cl, 3 .di, 4 .md (R67). -/
def inScope (scope g h : Nat) : Bool := match scope with
  | 2 => h == g
  | 3 => dieOfCluster h == dieOfCluster g
  | _ => true

/-- Whether a TLB entry is dropped by a fence for `va` (none: every VA) and `asid` (none: every ASID, and global entries) (R192). -/
def TlbEntry.dropped (e : TlbEntry) (va asid : Option Nat) : Bool :=
  (match va with
   | some a => e.va ≤ a && a < e.va + 2 ^ e.lg
   | none => true) &&
  (match asid with
   | some n => !e.glob && e.asid == n
   | none => true)

/-- Whether a captured translation is of a page that a fence for `va` drops. -/
def Xlat.ofPage (va : Option Nat) (x : Xlat) : Bool := match va with
  | .some a => x.va / 2 ^ x.lg == a / 2 ^ x.lg
  | .none => true

/-- Drop the translations of the clusters in scope, and with `icache` their L1 I-caches. -/
def State.dropXlats (s : State) (icache : Bool) (scope g : Nat) (va asid : Option Nat) : State :=
  { s with
    clusters := s.clusters.map fun (h, c) => if inScope scope g h then (h, { c with tlb := c.tlb.filter fun e => !e.dropped va asid }) else (h, c)
    cores := s.cores.map fun (k, c) => if icache && inScope scope g (clusterOfCore k) then (k, { c with icache := [] }) else (k, c) }

/-- The translation fence (R192): the context's own stores, then the invalidation, then every access that used what is dropped. While an
engine is held, or a queue has no room for a batch that is on its way to it, the fence is presented again. -/
def State.qsFence (s : State) (icache : Bool) (scope : Nat) (rs1 rs2 : Reg) : Res :=
  let va := if rs1 = 0 then none else some (s.xr rs1).toNat
  let asid := if rs2 = 0 then none else some (bits (s.xr rs2) 15 0)
  let g := clusterOf s.cur
  let s := s.drainStores s.cur
  let s := s.dropXlats icache scope g va asid
  let s := (s.ctxs.filter fun q => inScope scope g (clusterOf q.1)).foldl (fun s q => s.finishAccesses q.1 (Xlat.ofPage va)) s
  let s := s.finishEngines (Xlat.ofPage va)
  let s := (s.clusters.filter fun q => inScope scope g q.1).foldl (fun s q => s.finishShadows q.1 (Xlat.ofPage va)) s
  if s.clusters.any fun q => inScope scope g q.1 && (s.engineWork q.1 (Xlat.ofPage va) || q.2.shadows.any fun h => Xlat.ofPage va h.queue) then
    .error (.left s)
  else .ok s

/-- QSFENCE (R192): S mode only. -/
def execQsfence (icache : Bool) (scope : BitVec 3) (rs1 rs2 : Reg) (s : State) : Host.Outcome State Fault Refusal :=
  s.done (if s.me.priv = .u then illegal (.qsfence icache scope rs1 rs2) else s.qsFence icache scope.toNat rs1 rs2)

/-- SFENCE.VMA (R191): QSFENCE at .cl without its I-cache bit; mstatus.TVM refuses it to S mode. -/
def execSfenceVma (rs1 rs2 : Reg) (s : State) : Host.Outcome State Fault Refusal :=
  s.done (
    if s.me.priv = .u || (s.me.priv = .s && bit s.me.mstatus 20) then illegal (.sfenceVma rs1 rs2)
    else s.qsFence false 2 rs1 rs2)

/-- A page that moves: its old physical base and size, its new base, and its new home fields (R194). -/
structure Move where
  src : Nat
  size : Nat
  dst : Nat
  hdie : BitVec 4
  il : BitVec 2
  deriving DecidableEq, Repr

/-- A physical address after a move. -/
def Move.pa (m : Move) (pa : Nat) : Nat := if m.src ≤ pa ∧ pa < m.src + m.size then pa - m.src + m.dst else pa
/-- A captured translation after a move: a request that named the page is replayed at its new home (R195). -/
def Move.xlat (m : Move) (x : Xlat) : Xlat :=
  if m.src ≤ x.pa ∧ x.pa < m.src + m.size then { x with pa := m.pa x.pa, hdie := m.hdie, il := m.il } else x
/-- Whether a send goes to the page that moves. -/
def Move.moves (m : Move) (a : AccSend) : Bool := decide (m.src ≤ a.dst.pa) && decide (a.dst.pa < m.src + m.size)
/-- A send and a hem entry after a move. -/
def Move.send (m : Move) (a : AccSend) : AccSend := { a with dst := m.xlat a.dst }
def Move.hem (m : Move) (e : HemEntry) : HemEntry := { e with dst := m.xlat e.dst }
/-- A wait after a move. -/
def Move.wait (m : Move) (w : Wait) : Wait := { w with obj := m.xlat w.obj }
/-- A tile after a move (R216): its frames, the lines its sectors lie in, and its home. -/
def Move.tile (m : Move) (t : Tile) : Tile :=
  let ps := t.pages.map m.xlat
  let pa := m.pa t.pa
  let sectors := t.sectors.foldl (fun (acc : Table (BitVec 8)) (line, k) => tput acc (m.pa (line * lineBytes) / lineBytes) k) []
  { t with pages := ps, pa := pa, sectors := sectors, home := lineHome ps (pa / lineBytes) }
/-- A store-buffer entry after a move. -/
def Move.entry (m : Move) (e : SBEntry) : SBEntry := { e with kind := match e.kind with
  | .store x n d => .store (m.xlat x) n d
  | .range inv ps => .range inv (ps.map fun (x, n) => (m.xlat x, n))
  | .trel pa => .trel (m.pa pa)
  | .tfwd pa home va d st =>
    .tfwd (m.pa pa) (if m.src ≤ pa ∧ pa < m.src + m.size then homeSlice (m.pa pa) m.hdie m.il else home) va d st
  | k => k }
/-- A request that waits after a move. -/
def Move.request (m : Move) (r : Request) : Request := match r with
  | .mute pa die => .mute (m.pa pa) die
  | .access i pa home => .access i (pa.map m.pa) home
  | .mxCmd g cap q => .mxCmd g cap { q with pages := q.pages.map m.xlat }
  | r => r
/-- A queued accumulate after a move. -/
def Move.ventry (m : Move) (e : VEntry) : VEntry := { e with acc := e.acc.map fun o => { o with dst := m.xlat o.dst } }
/-- A cluster's lines, shadows and staging fills after a move: a line that it keeps is tracked by its new home (R184, R194 step 4). -/
def Move.cluster (m : Move) (c : Cluster) : Cluster :=
  { c with
    l2 := c.l2.map fun (line, l) => if m.src ≤ line * lineBytes ∧ line * lineBytes < m.src + m.size ∧ !l.sw then
      (line, { l with home := homeSlice (line * lineBytes) m.hdie m.il }) else (line, l)
    shadows := c.shadows.map fun h => { h with queue := m.xlat h.queue }
    fills := c.fills.map fun (x, r) => (m.xlat x, r) }
/-- A core's hem, queues, buffered requests and posted slots after a move. -/
def Move.core (m : Move) (k : Core) : Core :=
  { k with hem := k.hem.map m.hem, storeBuffer := k.storeBuffer.map m.entry, posted := k.posted.map m.entry
           vq := k.vq.map m.ventry
           slots := k.slots.map fun (i, q) => (i, { q with buf := q.buf.map m.xlat, desc := m.xlat q.desc }) }

/-- Copy a page's bytes to its new frame: `n` lines from line numbers `a` to `b`. -/
def copyLines (m : Memory) (a b n : Nat) : Memory :=
  match n with
  | 0 => m
  | k + 1 => copyLines (mwrite m (b * lineBytes) lineBytes (mread m (a * lineBytes) lineBytes)) (a + 1) (b + 1) k

/-- Steps 1 to 8 of R194, which nothing interrupts here: tiles of the page recalled, host copies back-invalidated, accepted accumulates
applied, the data copied where there is a new frame, the leaf PTE rewritten by one 8-byte store, the page's translations dropped
everywhere, and every request that was on its way, or that waited at the old home, replayed at the new one. -/
def State.migrate (s : State) (x : Xlat) (m : Move) : State :=
  let lines := (List.range (m.size / lineBytes)).map (m.src / lineBytes + ·)
  let s := lines.foldl (fun s l =>
    ((s.recallTiles none l 255 (s.sliceWake s.me.qtid x.slice)).applyPending l).backInvalidate l) s
  let s :=
    if m.src = m.dst then s
    else
      let s := lines.foldl (fun s l => s.homeOwn l) s
      let s := lines.foldl (fun s l => s.homeOwn (l - m.src / lineBytes + m.dst / lineBytes)) s
      { s with mem := copyLines s.mem (m.src / lineBytes) (m.dst / lineBytes) (m.size / lineBytes) }
  let g := clusterOf s.cur
  let (s, p) := s.readMem g s.me.tid s.me.qtid (physXlat x.pteAddr) 8
  let ppn : Nat := m.dst / 4096 + (if m.size = 65536 then 8 else 0)
  let p1 : Nat := p - (p >>> 55 % 64) * 2 ^ 55 + (m.il.toNat + m.hdie.toNat * 4) * 2 ^ 55
  let p2 : Nat := if m.src = m.dst then p1 else p1 - (p1 >>> 10 % 2 ^ 44) * 2 ^ 10 + ppn * 2 ^ 10
  -- with translation off there is no PTE to rewrite (log entry 22)
  let off := (s.view s.cur).priv = .m || bits s.me.satp 63 60 = 0
  let s := if off then s else s.writeMem g s.me.tid (physXlat x.pteAddr) 8 p2 (some s.cur) (s.byCtx s.cur) s.me.launch
  let asid := bits s.me.satp 59 44
  { s with
    clusters := s.clusters.map fun (g, c) =>
      (g, { m.cluster c with tlb := c.tlb.filter fun e => !(e.va ≤ x.va && x.va < e.va + 2 ^ e.lg && !e.glob && e.asid == asid) && e.pteAddr != x.pteAddr })
    tiles := s.tiles.map m.tile
    sends := s.sends.map m.send ++ (s.slices.flatMap fun q => q.2.forcedWait.filter m.moves).map m.send
    slices := s.slices.map fun (i, k) => (i, { k with forcedWait := k.forcedWait.filter fun a => !m.moves a })
    answers := s.answers.map fun (b, a) => (b, m.send a)
    cores := s.cores.map fun (i, k) => (i, m.core k)
    ctxs := s.ctxs.map fun (i, c) => (i, { c with wait := c.wait.map m.wait, request := c.request.map m.request })
    saved := s.saved.map fun v => { v with wait := v.wait.map m.wait } }

/-- Whether another context's migration of the page at `x` is under way: its PGMIG has left the rotation (R98) and has not retired. -/
def State.migrating (s : State) (x : Xlat) : Bool := s.ctxs.any fun (i, c) => i != s.cur && match c.request with
  | some (.access (.pgmig _ _ _) (some pa) _) => pa / 2 ^ x.lg == x.pa / 2 ^ x.lg
  | _ => false

/-- The statuses of R194 that a PGMIG of the page at `x` may return without moving it; the spec does not order them, but a page that is not
device HBM has status 5 in every case (R203). -/
def State.migrateRefusals (s : State) (x : Xlat) (v : Word) : List Nat :=
  let hdie := bits v 3 0
  let il := bits v 5 4
  let ppn := bits v 55 12
  let size := 2 ^ x.lg
  let src := x.pa / size * size
  let dst := ppn * 4096
  if x.mt ≠ .hbm then [5]
  else
    (if x.hdie.toNat = hdie ∧ x.il.toNat = il ∧ ppn = 0 then [1] else []) ++
    (if s.migrating x then [2] else []) ++
    (if !s.dieLive hdie then [3] else []) ++
    (if il = 3 then [4] else []) ++
    (if 16 < x.lg then [6] else []) ++
    (if bits v 11 6 ≠ 0 || bits v 63 56 ≠ 0 || (ppn ≠ 0 && (!isHbm (dst + size - 1) || dst % size ≠ 0 || dst = src)) then [7] else [])

/-- The page that a PGMIG names: it is translated as a store is (R77, R194). -/
def State.migratePage (s : State) (va : Nat) : Except Stop (State × Xlat) :=
  if (s.cluster (clusterOf s.cur)).busy then .error (.left s)
  else match s.xlate (s.view s.cur) needW va with
    | .error e => .error (Cls.err .store e va)
    | .ok r => .ok r

/-- PGMIG (R194): S mode only. It waits for the context's earlier accesses, then translates, and migrates the page or returns a status. -/
def execPgmig (rd rs1 rs2 : Reg) (s : State) : Host.Outcome State Fault Refusal :=
  if s.me.priv = .u then s.done (illegal (.pgmig rd rs1 rs2))
  else
    let s := s.settleMe
    s.done (do
      let v := s.xr rs2
      let (s, x) ← s.migratePage (s.xr rs1).toNat
      let frame (y : Xlat) : Bool := decide (y.pa / 2 ^ x.lg = x.pa / 2 ^ x.lg)
      match s.migrateRefusals x v with
      | [] =>
        let size := 2 ^ x.lg
        let src := x.pa / size * size
        let m : Move := ⟨src, size, if bits v 55 12 = 0 then src else bits v 55 12 * 4096, BitVec.ofNat 4 (bits v 3 0), BitVec.ofNat 2 (bits v 5 4)⟩
        -- step 1 waits for the engine operations that use the page (R304)
        let t := s.finishEngines frame
        if t.clusters.any fun q => t.engineWork q.1 frame then .error (.left t) else .ok ((t.migrate x m).setXr rd 0)
      | r :: rs =>
        let (k, s) := s.tick
        .ok (s.setXr rd (word ((r :: rs).getD (Config.freePick k % (rs.length + 1)) r))))

end Sys2Proof.Machine
end

