-- ==== Sys2Proof/Machine/EvUnits.lean ====
section
/-! DEFINITION. Events of the store buffers, caches, home slices, tiles, copy and stack engines, matrix engines and shuttles, and request
timeouts (R196). An event whose condition does not hold changes nothing. -/

namespace Sys2Proof.Machine

/-- STORE_BUFFER_ENTRY_PERFORM (R99). -/
def execStoreBufferEntryPerform (s : State) : Host.Outcome State Fault Refusal :=
  .next (if s.mayPerform s.ev.a s.ev.b then s.performEntry s.ev.a s.ev.b else s)

/-- LANE_GROUP_GRANT (R138): one grant of a free group's arbiter; an entry whose portions have finished leaves its queue (R137). -/
def execLaneGroupGrant (s : State) : Host.Outcome State Fault Refusal :=
  let s := (List.range 4).foldl (fun s j => s.headRoom (s.ev.a * 4 + j)) s
  .next ((s.arbitrate s.ev.a s.ev.b arbitrateFuel).trimQueues s.ev.a)

/-- HOME_REQUEST_ARRIVAL (R181): a staging fill, or (`flag`) the demand request of context `a`. -/
def execHomeRequestArrival (s : State) : Host.Outcome State Fault Refusal :=
  .next (if s.ev.flag then s.demandArrival s.ev.a else s.requestArrival s.ev.a s.ev.b)
/-- MISS_BUFFER_SLOT_ENTRY (R181). -/
def execMissBufferSlotEntry (s : State) : Host.Outcome State Fault Refusal := .next (s.slotEntry s.ev.a)
/-- WRITEBACK_MERGE (R180): the dirty bytes of a line that replacement has taken from an L2 reach home. -/
def execWritebackMerge (s : State) : Host.Outcome State Fault Refusal := .next (s.mergeVictim s.ev.a s.ev.b)
/-- REMOTE_SCRATCHPAD_ACCESS (R190): a posted message, admitted when it was issued, is performed where its turn has come (R34). -/
def execRemoteScratchpadAccess (s : State) : Host.Outcome State Fault Refusal :=
  .next (if s.mayLand s.ev.a s.ev.b then s.performPosted s.ev.a s.ev.b else s)

/-- The send of another module that an event describes (R236): form 0 ACC.F, 1 ACC.X, else ACC.I, through a host port to a line homed by the
fields HDIE and IL. -/
def accSendOf (e : EventArgs) (now : Nat) : AccSend :=
  let x : Xlat := ⟨e.b * lineBytes, e.b * lineBytes, .hbm, BitVec.ofNat 4 (bits e.v 3 0), BitVec.ofNat 2 (bits e.v 5 4), false, true, 12, 0⟩
  ⟨12 * Config.coreCount + 48 * (e.a % 2), match bits e.v 7 6 with
    | 0 => .f
    | 1 => .x
    | _ => .i, x, e.data, BitVec.ofNat 6 (bits e.v 13 8), 0, now, bit e.v 14, 0, 0, 0, now⟩

/-- ACC_SEND_ARRIVAL (R236): a send of this module, or (n = 1) one of another module through a host port. `flag`: a peer refuses it. -/
def execAccSendArrival (s : State) : Host.Outcome State Fault Refusal :=
  .next (if s.ev.n = 1 then
      let a := accSendOf s.ev s.now
      if isHbm (a.dst.pa + 127) then (s.meetTiles a).decideAt a.dst.slice a else s
    else s.sendArrives s.ev.a s.ev.flag)
/-- ACC_APPLY (R235). -/
def execAccApply (s : State) : Host.Outcome State Fault Refusal := .next (s.accApplyAt s.ev.a)
/-- An answer of a kind comes back (R240, R241). -/
def State.answerOf (s : State) (i : Nat) (accepted : Bool) : State :=
  match s.answers[i]? with
  | some (b, _) => if b == accepted then s.answerReturns i else s
  | none => s
/-- ACC_REFUSAL_RETURN (R241). -/
def execAccRefusalReturn (s : State) : Host.Outcome State Fault Refusal := .next (s.answerOf s.ev.a false)
/-- ACC_ACCEPT_RETURN (R240). -/
def execAccAcceptReturn (s : State) : Host.Outcome State Fault Refusal := .next (s.answerOf s.ev.a true)

/-- RESIDUAL_TIMER_FLUSH (R242). -/
def State.residualFlush (s : State) (k i : Nat) : State :=
  match (s.core k).hem[i]? with
  | some e => if e.residual.isSome && e.t0 + bits s.qmresid 31 0 ≤ s.now then s.flushEntry k e else s
  | none => s
def execResidualTimerFlush (s : State) : Host.Outcome State Fault Refusal := .next (s.residualFlush s.ev.a s.ev.b)
/-- QUOTA_WINDOW_REFILL (R236). -/
def execQuotaWindowRefill (s : State) : Host.Outcome State Fault Refusal := .next (s.refill s.ev.a)

/-- TILE_HOME_REQUEST (R213) of a task whose fills carry a tensor ID. -/
def State.tileServe (s : State) (g pa : Nat) (excl : Bool) (tid : BitVec 12) (task : Word) : State :=
  match s.tileAt pa with
  | some t => if s.clusterLive g then s.tileRequest t g excl tid task else s
  | none => s
def execTileHomeRequest (s : State) : Host.Outcome State Fault Refusal :=
  .next (s.tileServe s.ev.a s.ev.b s.ev.flag (BitVec.ofNat 12 s.ev.n) s.ev.v)
/-- Whether the entry at a place is a TFWD that has not started. -/
def State.isForward (s : State) (k i : Nat) : Bool := match (s.core k).storeBuffer[i]? with
  | some ⟨_, _, .tfwd _ _ _ _ false, _, _, _, _, _⟩ => true
  | _ => false
/-- TILE_FORWARD_START (R222): the TFWD entry's turn has come; a release first waits for the context's earlier events. -/
def execTileForwardStart (s : State) : Host.Outcome State Fault Refusal :=
  .next (if s.mayPerform s.ev.a s.ev.b && s.isForward s.ev.a s.ev.b then s.performEntry s.ev.a s.ev.b else s)
/-- TILE_PUSH_ARRIVAL (R223); `flag`: the destination evicts a line of the tile as it arrives (R230). -/
def execTilePushArrival (s : State) : Host.Outcome State Fault Refusal :=
  .next (match s.tileAt s.ev.b with
    | some t => s.tilePush t s.ev.flag
    | none => s)

/-- The physical ranges that a copy writes, and those it reads. -/
def CopyOp.writes (c : CopyOp) : List (Nat × Nat) := physPieces c.dstPages c.dst.toNat c.n
def CopyOp.reads (c : CopyOp) : List (Nat × Nat) := physPieces c.srcPages c.src.toNat (if c.sealedBy.isSome then c.n + 32 else copySrcLen c.dc c.n)

/-- Whether the copy at place `i` may run now: up to 16 run at once, and overlapping bytes of one engine's operations keep their order
(R287, R302); a stopped die's engines stand still (R397). -/
def State.copyMay (s : State) (g i : Nat) : Bool :=
  let q := (s.cluster g).copies
  match q[i]? with
  | none => false
  | some c => i < 16 && !(s.die (dieOfCluster g)).stopped && (q.take i).all fun d =>
      !(rangesOverlap d.writes (c.writes ++ c.reads)) && !(rangesOverlap d.reads c.writes)

/-- Advance a copy by up to `n` bytes. -/
def State.copyBytes (s : State) (g i n : Nat) : State := if s.copyMay g i then s.copyAdvance g i n else s

/-- The bytes a copy has left. -/
def State.copyLeft (s : State) (g i : Nat) : Nat := (((s.cluster g).copies[i]?).map fun c => c.n - c.done).getD 0

/-- COPY_COMPLETE (R287): every byte that is left is performed, and the operation ends. -/
def execCopyComplete (s : State) : Host.Outcome State Fault Refusal := .next (s.copyBytes s.ev.a s.ev.b (s.copyLeft s.ev.a s.ev.b))

/-- PHASER_BYTES_DECREMENT (R344): some bytes of an operation are performed, and lower its phaser's count. -/
def execPhaserBytesDecrement (s : State) : Host.Outcome State Fault Refusal :=
  .next (if s.ev.flag then s.stackAdvance s.ev.a s.ev.b s.ev.n else s.copyBytes s.ev.a s.ev.b s.ev.n)

/-- COPY_FAULT_END (R301): an operation that meets a fault on its way runs up to it and ends. -/
def State.faultEnd (s : State) (stack : Bool) (u i : Nat) : State :=
  if stack then match (s.stackList u)[i]? with
    | some c => if i < 8 && (s.stackRun u (c.unitCount - c.units) c).2.2.isSome then s.stackFinish u i else s
    | none => s
  else match (s.cluster u).copies[i]? with
    | some c => if s.copyMay u i && c.sealedBy.isNone && (s.copyRun u (c.n - c.done + 1) c (c.n - c.done)).2.2.isSome then s.copyAdvance u i (c.n - c.done) else s
    | none => s
def execCopyFaultEnd (s : State) : Host.Outcome State Fault Refusal := .next (s.faultEnd s.ev.flag s.ev.a s.ev.b)

/-- STACK_COMMAND_COMPLETE (R300). -/
def execStackCommandComplete (s : State) : Host.Outcome State Fault Refusal := .next (s.stackFinish s.ev.a s.ev.b)
/-- SEALED_COPY_END (R390). -/
def execSealedCopyEnd (s : State) : Host.Outcome State Fault Refusal :=
  .next (if s.copyMay s.ev.a s.ev.b then s.sealedEnd s.ev.a s.ev.b else s)

/-- MX_CONFIG_QUERY (R402). -/
def execMxConfigQuery (s : State) : Host.Outcome State Fault Refusal := .next (s.mxQueried s.ev.a)
/-- MX_COMMAND_ARRIVAL (R264). -/
def execMxCommandArrival (s : State) : Host.Outcome State Fault Refusal := .next (s.mxArrives s.ev.a)
/-- MX_COMMAND_START (R275). -/
def execMxCommandStart (s : State) : Host.Outcome State Fault Refusal := .next (s.mxStart s.ev.a s.ev.b)
/-- MX_COMMAND_COMPLETE (R278). -/
def execMxCommandComplete (s : State) : Host.Outcome State Fault Refusal := .next (s.mxComplete s.ev.a s.ev.b)
/-- MX_COMMAND_FAULT (R277): a started command that meets a fault. -/
def State.mxFaultEnd (s : State) (g i : Nat) : State :=
  match (s.cluster g).mx.queue[i]? with
  | some q => if q.started && (s.mxRun g q).2.isSome then s.mxComplete g i else s
  | none => s
def execMxCommandFault (s : State) : Host.Outcome State Fault Refusal := .next (s.mxFaultEnd s.ev.a s.ev.b)

/-- PACKET_ARRIVAL (R351). -/
def execPacketArrival (s : State) : Host.Outcome State Fault Refusal := .next (s.packetArrives s.ev.a)
/-- SHUTTLE_BATCH_TIMEOUT (R355). -/
def execShuttleBatchTimeout (s : State) : Host.Outcome State Fault Refusal := .next (s.batchTimeout s.ev.a s.ev.b)
/-- SHUTTLE_BATCH_ARRIVAL (R355): the entries that were sent arrive, or (`flag`) those of peer `a`. -/
def execShuttleBatchArrival (s : State) : Host.Outcome State Fault Refusal :=
  .next (if s.ev.flag then s.peerBatch s.ev.a s.ev.b s.ev.n s.ev.data else match (s.cluster s.ev.a).shadows[s.ev.b]? with
    | some h => if h.sent = 0 then s else s.batchArrives s.ev.a s.ev.b h.sent
    | none => s)

/-- The memory request that a waiting context's instruction has sent, if it is one that a tracker times (R196). -/
def Request.timed (r : Request) : Option Nat := match r with
  | .mute pa _ => some pa
  | .access _ pa _ => pa
  | _ => none

/-- A context's request times out (R196): cause 28, precise; a stopped die takes the response when it runs. -/
def State.ctxTimeout (s : State) (cid : Nat) : State :=
  let c := s.ctx cid
  match c.wait, c.request.bind Request.timed with
  | some w, some pa =>
    if c.status = .waiting && w.since + s.tmo ≤ s.now && !(s.die (dieOf cid)).stopped then
      ((s.leaveSlots cid).modCtx cid Ctx.back).raiseCtx cid 28 (word pa)
    else s
  | _, _ => s

/-- Whether an operation begun at `since` can have had a request to `pa` outstanding for TMO (R196): `ps` are the bytes it uses. -/
def State.timedOut (s : State) (since : Nat) (ps : List (Nat × Nat)) (pa : Nat) : Bool :=
  decide (since + s.tmo ≤ s.now) && ps.any fun p => decide (p.1 ≤ pa) && decide (pa < p.1 + p.2)
/-- As `timedOut`, for an engine of cluster `g`, whose requests leave the die where neither its scratchpad nor its L2 serves them. -/
def State.clusterTimedOut (s : State) (g since : Nat) (ps : List (Nat × Nat)) (pa : Nat) : Bool := s.timedOut since ps pa && s.leaves g pa

/-- The pages of an operation as ranges of bytes. -/
def pageRanges (ps : Pages) : List (Nat × Nat) := ps.map fun x => (x.pa / 4096 * 4096, 4096)

/-- A copy's request times out (R301, R391). -/
def State.copyTimeout (s : State) (g i pa : Nat) : State :=
  match (s.cluster g).copies[i]? with
  | none => s
  | some c =>
    if !s.clusterTimedOut g c.since (c.reads ++ c.writes) pa then s
    else match c.sealedBy with
      | none => s.copyFails g i c 28 pa
      | some j =>
        let (k, s) := s.tick
        s.sealedFails g i c j (Config.freeReason k).toNat

/-- A request of a stack-engine command, one for its next table row among them, times out (R301). -/
def State.stackTimeout (s : State) (lead i pa : Nat) : State :=
  match (s.stackList lead)[i]? with
  | some c => if s.timedOut c.since (pageRanges (c.descAt :: c.pages ++ s.nextRow lead c)) pa then s.stackFails lead i c 28 pa else s
  | none => s

/-- A request of a started MXLD or MXST times out (R277); the other matrix commands make none. -/
def State.mxTimeout (s : State) (g i pa : Nat) : State :=
  match (s.cluster g).mx.queue[i]? with
  | some q => if q.started && q.op.unit = some false && s.clusterTimedOut g q.since (s.mxPieces q) pa then s.mxFails g i q 28 pa else s
  | none => s

/-- A posted store times out (R196), performed (`done`) or not, which is not known. -/
def State.postedExpires (s : State) (k i : Nat) (done : Bool) : State :=
  match (s.core k).posted[i]? with
  | some e => if e.since + s.tmo ≤ s.now then s.postedEnds k i (done && s.mayLand k i) else s
  | none => s

/-- REQUEST_TIMEOUT (R196): what follows depends on what waits. -/
def State.requestTimeout (s : State) (e : EventArgs) : State :=
  match e.n with
  | 0 => s.ctxTimeout e.a
  | 1 => s.postedExpires e.a e.b e.flag
  | 2 => if (s.sends[e.a]?).any (fun a => a.sent + s.tmo ≤ s.now) then s.sendTimeout e.a else s
  | 3 => s.copyTimeout e.a e.b e.c
  | 4 => s.stackTimeout e.a e.b e.c
  | 5 => s.mxTimeout e.a e.b e.c
  | 6 => s.victimTimeout e.a e.b e.flag
  | 7 => s.storeExpires e.a e.b e.c e.flag
  | 8 => s.peerLink e.a e.flag
  | _ => s
def execRequestTimeout (s : State) : Host.Outcome State Fault Refusal := .next (s.requestTimeout s.ev)

end Sys2Proof.Machine
end

