-- ==== Sys2Proof/Machine/Fp.lean ====
section
/-! DEFINITION. The scalar F and D instructions that access no memory (R79 to R81, R87). -/

namespace Sys2Proof.Machine

/-- What an FP_ARITHMETIC instruction writes: an f or an x register, and the flags it raises. -/
inductive FpResult
  | f (rd : Reg) (v : Word) (fl : Flags)
  | x (rd : Reg) (v : Word) (fl : Flags)
  deriving DecidableEq, Repr

def fmtOf (dbl : Bool) : Fmt := if dbl then .f64 else .f32
/-- An operand of the format, and a result as an f register holds it. -/
def Ctx.fpr (c : Ctx) (dbl : Bool) (r : Reg) : Nat := if dbl then (c.getF r).toNat else unbox32 (c.getF r)
def boxed (dbl : Bool) (v : Nat) : Word := if dbl then word v else box32 v

def fpArithValue (k : FpArith) (F : Fmt) (rm : RM) (a b : Nat) : Nat × Flags := match k with
  | .add => fAdd F rm a b
  | .sub => fSub F rm a b
  | .mul => fMul F rm a b
  | .div => fDiv F rm a b

/-- FMADD, FMSUB, FNMSUB, FNMADD. -/
def fpFmaValue (k : FpFma) (F : Fmt) (rm : RM) (a b c : Nat) : Nat × Flags := match k with
  | .madd => fFma F rm false false a b c
  | .msub => fFma F rm false true a b c
  | .nmsub => fFma F rm true false a b c
  | .nmadd => fFma F rm true true a b c

def intWidth (t : FpInt) : Nat := match t with
  | .w | .wu => 32
  | .l | .lu => 64
def intUnsigned (t : FpInt) : Bool := match t with
  | .wu | .lu => true
  | .w | .l => false
/-- An integer result in an x register: 32-bit results are sign-extended. -/
def intResult (t : FpInt) (i : Int) : Word :=
  if intWidth t = 32 then sext32 (BitVec.ofInt 32 i) else BitVec.ofInt 64 i
/-- The integer operand of a conversion. -/
def intOperand (t : FpInt) (v : Word) : Int := match t with
  | .w => (low32 v).toInt
  | .wu => (low32 v).toNat
  | .l => v.toInt
  | .lu => v.toNat

/-- The result of a scalar F or D instruction; none where its rounding mode is invalid (R87). -/
def Ctx.fpResult (c : Ctx) (op : FpOp) : Option FpResult :=
  match op with
  | .arith k d rm rd a b => (rmMode rm c.frm).map fun m =>
      let r := fpArithValue k (fmtOf d) m (c.fpr d a) (c.fpr d b)
      .f rd (boxed d r.1) r.2
  | .sqrt d rm rd a => (rmMode rm c.frm).map fun m =>
      let r := fSqrt (fmtOf d) m (c.fpr d a)
      .f rd (boxed d r.1) r.2
  | .fma k d rm rd a b e => (rmMode rm c.frm).map fun m =>
      let r := fpFmaValue k (fmtOf d) m (c.fpr d a) (c.fpr d b) (c.fpr d e)
      .f rd (boxed d r.1) r.2
  | .sgn k d rd a b =>
      let w := (fmtOf d).width - 1
      let x := c.fpr d a
      let y := c.fpr d b
      let sx := x >>> w % 2
      let sy := y >>> w % 2
      let sg := match k with
        | .sgnj => sy
        | .sgnjn => 1 - sy
        | .sgnjx => (sx + sy) % 2
      some (.f rd (boxed d (x % 2 ^ w + sg * 2 ^ w)) 0)
  | .minmax mx d rd a b =>
      let r := fMinMax (fmtOf d) mx (c.fpr d a) (c.fpr d b)
      some (.f rd (boxed d r.1) r.2)
  | .cmp k d rd a b =>
      let r := fCompare (fmtOf d) (match k with
        | .le => .le
        | .lt => .lt
        | .eq => .eq) (c.fpr d a) (c.fpr d b)
      some (.x rd (word (bnat r.1)) r.2)
  | .toInt t d rm rd a => (rmMode rm c.frm).map fun m =>
      let r := fcvtToInt (intWidth t) (intUnsigned t) m (unpack (fmtOf d) (c.fpr d a))
      .x rd (intResult t r.1) r.2
  | .ofInt t d rm rd a => (rmMode rm c.frm).map fun m =>
      let r := ofInt (fmtOf d) m (intOperand t (c.getX a))
      .f rd (boxed d r.1) r.2
  | .cvt toD rm rd a => (rmMode rm c.frm).map fun m =>
      let r := roundVal (fmtOf toD) m false (unpack (fmtOf (!toD)) (c.fpr (!toD) a))
      .f rd (boxed toD r.1) r.2
  | .mvToX d rd a => some (.x rd (if d then c.getF a else sext32 (low32 (c.getF a))) 0)
  | .mvFromX d rd a => some (.f rd (if d then c.getX a else box32 (c.getX a).toNat) 0)
  | .fclass d rd a => some (.x rd (word (fClass (fmtOf d) (c.fpr d a))) 0)

/-- FP_ARITHMETIC (R72, R87): illegal while FS is Off, and where rm names frm and frm holds an invalid mode. -/
def execFpArithmetic (op : FpOp) (s : State) : Host.Outcome State Fault Refusal :=
  s.done (
    if s.me.fsOff then illegal (.fpArithmetic op)
    else match s.me.fpResult op with
      | none => illegal (.fpArithmetic op)
      | some (.f rd v fl) => .ok (s.modCtx s.cur fun c => (c.putF rd v).orFflags fl)
      | some (.x rd v fl) => .ok (s.modCtx s.cur fun c => (c.setX rd v).orFflags fl))

end Sys2Proof.Machine
end

