-- ==== Sys2Proof/Machine/Integer.lean ====
section
/-! DEFINITION. RV64I arithmetic, the RV64M instructions, branches and jumps (R61 to R63, R97, R98, R111). -/

namespace Sys2Proof.Machine

/-- The value of a register-immediate operation. -/
def immValue (k : ImmOp) (a b : Word) : Word := match k with
  | .addi => a + b
  | .slti => if a.slt b then 1 else 0
  | .sltiu => if a.ult b then 1 else 0
  | .xori => a ^^^ b
  | .ori => a ||| b
  | .andi => a &&& b

/-- A shift of any width. -/
def shiftValue {n : Nat} (k : ShiftOp) (a : BitVec n) (sh : Nat) : BitVec n := match k with
  | .sll => a <<< sh
  | .srl => a >>> sh
  | .sra => a.sshiftRight sh

/-- The value of a register-register operation. -/
def regValue (k : RegOp) (a b : Word) : Word := match k with
  | .add => a + b
  | .sub => a - b
  | .sll => a <<< (b.toNat % 64)
  | .slt => if a.slt b then 1 else 0
  | .sltu => if a.ult b then 1 else 0
  | .xor => a ^^^ b
  | .srl => a >>> (b.toNat % 64)
  | .sra => a.sshiftRight (b.toNat % 64)
  | .or => a ||| b
  | .and => a &&& b

/-- The value of a 32-bit register-register operation. -/
def regValueW (k : RegOpW) (a b : BitVec 32) : BitVec 32 := match k with
  | .addw => a + b
  | .subw => a - b
  | .sllw => a <<< (b.toNat % 32)
  | .srlw => a >>> (b.toNat % 32)
  | .sraw => a.sshiftRight (b.toNat % 32)

/-- The value of a multiplication. -/
def mulValue (k : MulOp) (a b : Word) : Word := match k with
  | .mul => a * b
  | .mulh => BitVec.ofInt 64 (a.toInt * b.toInt / 2 ^ 64)
  | .mulhsu => BitVec.ofInt 64 (a.toInt * b.toNat / 2 ^ 64)
  | .mulhu => word (a.toNat * b.toNat / 2 ^ 64)
  | .mulw => sext32 (low32 a * low32 b)

/-- Quotient and remainder; division by zero and overflow give the results of RV64M. -/
def divValue {n : Nat} (k : DivOp) (a b : BitVec n) : BitVec n := match k with
  | .div => if b = 0 then BitVec.allOnes n else BitVec.ofInt n (a.toInt.tdiv b.toInt)
  | .divu => if b = 0 then BitVec.allOnes n else a / b
  | .rem => if b = 0 then a else BitVec.ofInt n (a.toInt.tmod b.toInt)
  | .remu => if b = 0 then a else a % b

/-- The value of an INTEGER_ARITHMETIC instruction, with its destination. -/
def State.intValue (s : State) (op : IntOp) : Reg × Word := match op with
  | .imm k rd rs1 i => (rd, immValue k (s.xr rs1) (imm12 i))
  | .shift k rd rs1 sh => (rd, shiftValue k (s.xr rs1) sh.toNat)
  | .addiw rd rs1 i => (rd, sext32 (low32 (s.xr rs1) + low32 (imm12 i)))
  | .shiftW k rd rs1 sh => (rd, sext32 (shiftValue k (low32 (s.xr rs1)) sh.toNat))
  | .reg k rd rs1 rs2 => (rd, regValue k (s.xr rs1) (s.xr rs2))
  | .regW k rd rs1 rs2 => (rd, sext32 (regValueW k (low32 (s.xr rs1)) (low32 (s.xr rs2))))
  | .mul k rd rs1 rs2 => (rd, mulValue k (s.xr rs1) (s.xr rs2))
  | .lui rd i => (rd, immU i)
  | .auipc rd i => (rd, s.me.pc + immU i)

/-- INTEGER_ARITHMETIC (R97). -/
def execIntegerArithmetic (op : IntOp) (s : State) : Host.Outcome State Fault Refusal :=
  let p := s.intValue op
  s.done (.ok (s.setXr p.1 p.2))

/-- INTEGER_DIVIDE (R98): the wait for the divider sets no value, so it is part of the step. -/
def execIntegerDivide (op : DivOp) (word : Bool) (rd rs1 rs2 : Reg) (s : State) : Host.Outcome State Fault Refusal :=
  let v := if word then sext32 (divValue op (low32 (s.xr rs1)) (low32 (s.xr rs2))) else divValue op (s.xr rs1) (s.xr rs2)
  s.done (.ok (s.setXr rd v))

/-- Whether a branch is taken. -/
def branchTaken (k : BranchOp) (a b : Word) : Bool := match k with
  | .beq => a == b
  | .bne => a != b
  | .blt => a.slt b
  | .bge => !a.slt b
  | .bltu => a.ult b
  | .bgeu => !a.ult b

/-- A control transfer to `target` (R61, R76): a target that is not word-aligned raises cause 0. -/
def State.transfer (s : State) (target : Word) : Res :=
  if target.toNat % 4 ≠ 0 then trap 0 target else .error (.jump s target)

/-- BRANCH (R111): a taken branch wins over the loop rule; one not taken completes in sequence. -/
def execBranch (op : BranchOp) (rs1 rs2 : Reg) (imm : BitVec 13) (s : State) : Host.Outcome State Fault Refusal :=
  s.done (if branchTaken op (s.xr rs1) (s.xr rs2) then s.transfer (s.me.pc + imm.signExtend 64) else .ok s)

/-- JUMP (R61): JAL and JALR; the link is written only when the transfer is made. -/
def execJump (op : JumpOp) (s : State) : Host.Outcome State Fault Refusal :=
  s.done (match op with
    | .jal rd i =>
      let t := s.me.pc + i.signExtend 64
      if t.toNat % 4 ≠ 0 then trap 0 t else .error (.jump (s.setXr rd (s.me.pc + 4)) t)
    | .jalr rd rs1 i =>
      let t := (s.xr rs1 + imm12 i) &&& ~~~1#64
      if t.toNat % 4 ≠ 0 then trap 0 t else .error (.jump (s.setXr rd (s.me.pc + 4)) t))

end Sys2Proof.Machine
end

