-- ==== Sys2Proof/Machine/PhaserOps.lean ====
section
/-! DEFINITION. The phaser instructions (R345 to R348): PHREG, PHDEREG, PHARV, PHWAIT and PHBYTES. -/

namespace Sys2Proof.Machine

/-- Checks 1 and 2 of R348, in the order that rule gives. -/
def State.phaserAt (s : State) (p : Word) : Except Stop (State × Xlat) := do
  need (bits p 5 0 == 0) 31 p
  let (s, x) ← s.access .store needW .write p.toNat 64
  need (x.mt == .hbm && s.tilesAt none x.pa 64 == []) 31 p
  .ok (s, x)

/-- The object at a phaser's home, after the context's own earlier stores to it (R27), with the first part of check 3: no Reserved field is
set. -/
def State.phaserRead (s : State) (p : Word) (x : Xlat) : Except Stop (State × Phaser) :=
  let (s, q) := (s.ownFirst s.cur x.pa 64).phaser x
  if q.reservedClear then .ok (s, q) else .error (.left (s.raise 31 p))

/-- The membership of the next phase raised or lowered (R343, R346, check 3). -/
def Phaser.member (q : Phaser) (up : Bool) (mode : BitVec 2) : Option Phaser :=
  let a := bnat (bit mode 0)
  let b := bnat (bit mode 1)
  if up then
    (if (a = 0 ∨ q.nxsig + a ≤ 8192) ∧ (b = 0 ∨ q.nxwait + b ≤ 8192) then some { q with nxsig := q.nxsig + a, nxwait := q.nxwait + b } else none)
  else
    (if a ≤ q.nxsig ∧ b ≤ q.nxwait then some { q with nxsig := q.nxsig - a, nxwait := q.nxwait - b } else none)

/-- PHREG and PHDEREG: the effective phase is the next one. -/
def State.phaserMember (s : State) (i : Instr) (up : Bool) (rd rs1 : Reg) (mode : BitVec 2) : Res :=
  let p := s.xr rs1
  if mode = 0 then illegal i
  else do
    let (s, x) ← s.phaserAt p
    let (s, q) ← s.phaserRead p x
    match q.member up mode with
    | none => s.late 31 p
    | some r => .ok ((s.putPhaser x r false (s.byCtx s.cur)).setXr rd (word (q.phase + 1)))

/-- PHREG (R346). -/
def execPhreg (rd rs1 : Reg) (mode : BitVec 2) (s : State) : Host.Outcome State Fault Refusal :=
  s.done (s.phaserMember (.phreg rd rs1 mode) true rd rs1 mode)
/-- PHDEREG (R346). -/
def execPhdereg (rd rs1 : Reg) (mode : BitVec 2) (s : State) : Host.Outcome State Fault Refusal :=
  s.done (s.phaserMember (.phdereg rd rs1 mode) false rd rs1 mode)

/-- A phaser after an arrival of the issuing context, and whether its phase has completed (R342, R346). -/
def State.arrive (s : State) (q : Phaser) : Phaser × Bool :=
  { q with arr := q.arr + 1, lastid := s.me.qtid.toNat, lastcode := (pcode 0 (s.reportCore (coreOf s.cur))).toNat,
           lasttime := s.now % 2 ^ 64 }.rule s.now

/-- PHARV (R346, R347). -/
def execPharv (rd rs1 : Reg) (wait flush : Bool) (s : State) : Host.Outcome State Fault Refusal :=
  let p := s.xr rs1
  s.done (do
    let (s, x) ← s.phaserAt p
    let s := if flush then s.flushRange s.cur 0 (2 ^ 64) (bits s.me.satp 59 44) else s
    let s := s.settleMe
    let (s, q) ← s.phaserRead p x
    if q.arr = q.sig ∨ q.phase = 2 ^ 32 - 1 then s.late 31 p
    else
      let (r, c) := s.arrive q
      let s := (s.putPhaser x r c (s.byCtx s.cur)).setXr rd (word q.phase)
      if !wait then .ok s
      else if c then .ok s.zeroWaitMe
      else .error (.left (s.leave .pharvW p (word q.phase) rd x none)))

/-- PHWAIT (R346, R347). -/
def execPhwait (rs1 rs2 : Reg) (s : State) : Host.Outcome State Fault Refusal :=
  let p := s.xr rs1
  let n := bits (s.xr rs2) 31 0
  s.done (do
    let (s, x) ← s.phaserAt p
    let (s, q) ← s.phaserRead p x
    if n < q.phase then .ok s.zeroWaitMe
    else .error (.left (s.leave .phwait p (word n) 0 x none)))

/-- PHBYTES (R344, R346). -/
def execPhbytes (rs1 rs2 : Reg) (s : State) : Host.Outcome State Fault Refusal :=
  let p := s.xr rs1
  let n := (s.xr rs2).toNat
  s.done (do
    let (s, x) ← s.phaserAt p
    let (s, q) ← s.phaserRead p x
    if 2 ^ 24 ≤ n ∨ 2 ^ 24 ≤ q.pend + n then s.late 31 p
    else .ok (s.putPhaser x { q with pend := q.pend + n } false (s.byCtx s.cur)))

end Sys2Proof.Machine
end

