-- ==== Sys2Proof/Machine/System.lean ====
section
/-! DEFINITION. The base system instructions (R22, R61, R62, R103, R112, R113): fences, WFI, ECALL, EBREAK, the Zawrs waits, the returns
from a trap, and a word that is no instruction. -/

namespace Sys2Proof.Machine

/-- FENCE (R22): with W or O before it and anything after it, the context's earlier stores are performed at .md. Loads are performed as
they issue, so no other pair waits; nor does R alone wait for an earlier INVR, which R27 counts as R in a FENCE.S and no rule in a base fence
(DESIGN CHOICE, log entry 98). -/
def execFence (fm pred succ : BitVec 4) (rd rs1 : Reg) (s : State) : Host.Outcome State Fault Refusal :=
  let _ := (fm, rd, rs1)
  s.done (.ok (if pred &&& 5 ≠ 0 && succ ≠ 0 then s.drainStores s.cur else s))

/-- FENCE.TSO (R22): as FENCE.S rw,rw at .md without the W-to-R pair; earlier stores are performed before later ones, which performing
them here gives. -/
def execFenceTso (rd rs1 : Reg) (s : State) : Host.Outcome State Fault Refusal :=
  let _ := (rd, rs1)
  s.done (.ok (s.drainStores s.cur))

/-- FENCE.I (R103): the context's earlier stores before its later fetches, and the core's L1 I-cache invalidated. -/
def execFenceI (imm : BitVec 12) (rd rs1 : Reg) (s : State) : Host.Outcome State Fault Refusal :=
  let _ := (imm, rd, rs1)
  s.done (.ok ((s.drainStores s.cur).modCore (coreOf s.cur) fun c => { c with icache := [] }))

/-- WFI (R103): illegal in U mode, else a no-operation. -/
def execWfi (s : State) : Host.Outcome State Fault Refusal :=
  s.done (if s.me.priv = .u then illegal .wfi else .ok s)

/-- ECALL (R103, R113): cause 8 from U, 9 from S, 11 from M, with stval 0. -/
def execEcall (s : State) : Host.Outcome State Fault Refusal :=
  s.done (trap (match s.me.priv with
    | .u => 8 | .s => 9 | .m => 11) 0)

/-- EBREAK (R103, R373): halts a claimed context, an open packet discarded (log entry 69); else a breakpoint with stval the pc. -/
def execEbreak (s : State) : Host.Outcome State Fault Refusal :=
  s.done (if s.me.claimed then .error (.left ((s.modCtx s.cur fun c => { c with packet := none }).haltHit s.cur)) else trap 3 s.me.pc)

/-- A WRS (R103): at once without a reservation; else a wait until the reservation is lost or `limit` ns pass. -/
def State.wrs (s : State) (k : WaitKind) (limit : Nat) : Res :=
  match s.me.reservation with
  | none => .ok s.zeroWaitMe
  | some r => .error (.left (s.leave k (word r.pa) 0 0 Xlat.none (some (s.now + limit))))

/-- WRS.NTO (R103): the request timeout of qmtmo bounds the wait. -/
def execWrsNto (s : State) : Host.Outcome State Fault Refusal := s.done (s.wrs .wrsNto s.tmo)

/-- WRS.STO (R103): 1 µs bounds the wait. -/
def execWrsSto (s : State) : Host.Outcome State Fault Refusal := s.done (s.wrs .wrsSto 1000)

/-- Whether an xRET is legal: MRET in M mode; SRET in M mode, and in S mode unless TSR traps it (R72, R75, R112). -/
def Ctx.xretOk (c : Ctx) (machine : Bool) : Bool :=
  match c.priv with
  | .m => true
  | .s => !machine && !bit c.mstatus 22
  | .u => false

/-- SRET and MRET (R112, R113): they redirect pc themselves (R111). -/
def execXret (machine : Bool) (s : State) : Host.Outcome State Fault Refusal :=
  s.done (
    if !s.me.xretOk machine then illegal (.xret machine)
    else if machine then .error (.jump (s.modCtx s.cur fun c => c.mret) s.me.mepc)
    else .error (.jump (s.modCtx s.cur fun c => c.sret) s.me.sepc))

/-- ILLEGAL_INSTRUCTION_WORD (R61, R62, R65, R76): cause 2 with the word as stval. -/
def execIllegalInstructionWord (w : BitVec 32) (s : State) : Host.Outcome State Fault Refusal :=
  s.done (trap 2 (w.setWidth 64))

end Sys2Proof.Machine
end

