-- ==== Sys2Proof/Machine/VecFp.lean ====
section
/-! DEFINITION. Vector floating-point arithmetic (R149). -/

namespace Sys2Proof.Machine

/-- The floating-point operations (R149). -/
inductive VFp
  | add | sub | mul | div | min | max | fma | fms | fnma | sqrt | fclass
  deriving DecidableEq, Repr

/-- Whether an operation rounds by frm (R146). -/
def VFp.rounds (k : VFp) : Bool := match k with
  | .min | .max | .fclass => false
  | _ => true

/-- result(i) of R149: a, b and the old destination element d. -/
def vfpValue (k : VFp) (F : Fmt) (rm : RM) (a b d : Nat) : Nat × Flags := match k with
  | .add => fAdd F rm a b
  | .sub => fSub F rm a b
  | .mul => fMul F rm a b
  | .div => fDiv F rm a b
  | .min => fMinMax F false a b
  | .max => fMinMax F true a b
  | .fma => fFma F rm false false a b d
  | .fms => fFma F rm false true a b d
  | .fnma => fFma F rm true false a b d
  | .sqrt => fSqrt F rm b
  | .fclass => (fClass F b, 0)

/-- Cost of an operation on one lane group (R137). -/
def vfpCost (k : VFp) (F : Fmt) : Nat := match k with
  | .div | .sqrt => if F = .f64 then 16 else 8
  | _ => 1

/-- An operation over the frame of R147, operand a given for each element. -/
def State.vecFp (s : State) (i : Instr) (k : VFp) (vd vs2 : Reg) (mk : BitVec 3) (fs : List Reg) (a : Nat → Nat) : Res := do
  s.vecCheck i true k.rounds fs
  let F := (etypeFmt s.me.etype).getD .f32
  let rm := rmOf s.me.frm.toNat
  .ok (s.vecMap vd mk (vfpCost k F) fun j => vfpValue k F rm (a j) (s.ve vs2 j) (s.ve vd j))

/-- The vector–vector form, and the vector–scalar form with an f register. -/
def State.vecFpVv (s : State) (i : Instr) (k : VFp) (vd vs1 vs2 : Reg) (mk : BitVec 3) : Res :=
  s.vecFp i k vd vs2 mk [vd, vs1, vs2] (s.ve vs1)
def State.vecFpVf (s : State) (i : Instr) (k : VFp) (vd rs1 vs2 : Reg) (mk : BitVec 3) : Res :=
  let a := s.fScalar rs1
  s.vecFp i k vd vs2 mk [vd, vs2] fun _ => a

/-- VFADD, vector–vector (R149). -/
def execVfaddVv (vd vs1 vs2 : Reg) (mk : BitVec 3) (s : State) : Host.Outcome State Fault Refusal :=
  s.done (s.vecFpVv (.vfaddVv vd vs1 vs2 mk) .add vd vs1 vs2 mk)
/-- VFADD, vector–scalar (R149). -/
def execVfaddVf (vd rs1 vs2 : Reg) (mk : BitVec 3) (s : State) : Host.Outcome State Fault Refusal :=
  s.done (s.vecFpVf (.vfaddVf vd rs1 vs2 mk) .add vd rs1 vs2 mk)
/-- VFSUB, vector–vector (R149). -/
def execVfsubVv (vd vs1 vs2 : Reg) (mk : BitVec 3) (s : State) : Host.Outcome State Fault Refusal :=
  s.done (s.vecFpVv (.vfsubVv vd vs1 vs2 mk) .sub vd vs1 vs2 mk)
/-- VFSUB, vector–scalar (R149). -/
def execVfsubVf (vd rs1 vs2 : Reg) (mk : BitVec 3) (s : State) : Host.Outcome State Fault Refusal :=
  s.done (s.vecFpVf (.vfsubVf vd rs1 vs2 mk) .sub vd rs1 vs2 mk)
/-- VFMUL, vector–vector (R149). -/
def execVfmulVv (vd vs1 vs2 : Reg) (mk : BitVec 3) (s : State) : Host.Outcome State Fault Refusal :=
  s.done (s.vecFpVv (.vfmulVv vd vs1 vs2 mk) .mul vd vs1 vs2 mk)
/-- VFMUL, vector–scalar (R149). -/
def execVfmulVf (vd rs1 vs2 : Reg) (mk : BitVec 3) (s : State) : Host.Outcome State Fault Refusal :=
  s.done (s.vecFpVf (.vfmulVf vd rs1 vs2 mk) .mul vd rs1 vs2 mk)
/-- VFDIV, vector–vector (R149). -/
def execVfdivVv (vd vs1 vs2 : Reg) (mk : BitVec 3) (s : State) : Host.Outcome State Fault Refusal :=
  s.done (s.vecFpVv (.vfdivVv vd vs1 vs2 mk) .div vd vs1 vs2 mk)
/-- VFDIV, vector–scalar (R149). -/
def execVfdivVf (vd rs1 vs2 : Reg) (mk : BitVec 3) (s : State) : Host.Outcome State Fault Refusal :=
  s.done (s.vecFpVf (.vfdivVf vd rs1 vs2 mk) .div vd rs1 vs2 mk)
/-- VFMIN, vector–vector (R149). -/
def execVfminVv (vd vs1 vs2 : Reg) (mk : BitVec 3) (s : State) : Host.Outcome State Fault Refusal :=
  s.done (s.vecFpVv (.vfminVv vd vs1 vs2 mk) .min vd vs1 vs2 mk)
/-- VFMIN, vector–scalar (R149). -/
def execVfminVf (vd rs1 vs2 : Reg) (mk : BitVec 3) (s : State) : Host.Outcome State Fault Refusal :=
  s.done (s.vecFpVf (.vfminVf vd rs1 vs2 mk) .min vd rs1 vs2 mk)
/-- VFMAX, vector–vector (R149). -/
def execVfmaxVv (vd vs1 vs2 : Reg) (mk : BitVec 3) (s : State) : Host.Outcome State Fault Refusal :=
  s.done (s.vecFpVv (.vfmaxVv vd vs1 vs2 mk) .max vd vs1 vs2 mk)
/-- VFMAX, vector–scalar (R149). -/
def execVfmaxVf (vd rs1 vs2 : Reg) (mk : BitVec 3) (s : State) : Host.Outcome State Fault Refusal :=
  s.done (s.vecFpVf (.vfmaxVf vd rs1 vs2 mk) .max vd rs1 vs2 mk)
/-- VFMA, vector–vector (R149). -/
def execVfmaVv (vd vs1 vs2 : Reg) (mk : BitVec 3) (s : State) : Host.Outcome State Fault Refusal :=
  s.done (s.vecFpVv (.vfmaVv vd vs1 vs2 mk) .fma vd vs1 vs2 mk)
/-- VFMA, vector–scalar (R149). -/
def execVfmaVf (vd rs1 vs2 : Reg) (mk : BitVec 3) (s : State) : Host.Outcome State Fault Refusal :=
  s.done (s.vecFpVf (.vfmaVf vd rs1 vs2 mk) .fma vd rs1 vs2 mk)
/-- VFMS, vector–vector (R149). -/
def execVfmsVv (vd vs1 vs2 : Reg) (mk : BitVec 3) (s : State) : Host.Outcome State Fault Refusal :=
  s.done (s.vecFpVv (.vfmsVv vd vs1 vs2 mk) .fms vd vs1 vs2 mk)
/-- VFMS, vector–scalar (R149). -/
def execVfmsVf (vd rs1 vs2 : Reg) (mk : BitVec 3) (s : State) : Host.Outcome State Fault Refusal :=
  s.done (s.vecFpVf (.vfmsVf vd rs1 vs2 mk) .fms vd rs1 vs2 mk)
/-- VFNMA, vector–vector (R149). -/
def execVfnmaVv (vd vs1 vs2 : Reg) (mk : BitVec 3) (s : State) : Host.Outcome State Fault Refusal :=
  s.done (s.vecFpVv (.vfnmaVv vd vs1 vs2 mk) .fnma vd vs1 vs2 mk)
/-- VFNMA, vector–scalar (R149). -/
def execVfnmaVf (vd rs1 vs2 : Reg) (mk : BitVec 3) (s : State) : Host.Outcome State Fault Refusal :=
  s.done (s.vecFpVf (.vfnmaVf vd rs1 vs2 mk) .fnma vd rs1 vs2 mk)
/-- VFSQRT (R149). -/
def execVfsqrt (vd vs2 : Reg) (mk : BitVec 3) (s : State) : Host.Outcome State Fault Refusal :=
  s.done (s.vecFp (.vfsqrt vd vs2 mk) .sqrt vd vs2 mk [vd, vs2] fun _ => 0)
/-- VFCLASS (R149). -/
def execVfclass (vd vs2 : Reg) (mk : BitVec 3) (s : State) : Host.Outcome State Fault Refusal :=
  s.done (s.vecFp (.vfclass vd vs2 mk) .fclass vd vs2 mk [vd, vs2] fun _ => 0)

end Sys2Proof.Machine
end

