-- ==== Sys2Proof/Machine/VecInt.lean ====
section
/-! DEFINITION. Vector integer arithmetic (R148). -/

namespace Sys2Proof.Machine

/-- The sixteen integer operations (R148). -/
inductive VInt
  | add | sub | mul | mulh | mulhu | min | minu | max | maxu | and | or | xor | sll | srl | sra | merge
  deriving DecidableEq, Repr

/-- result(i) of R148 on w-bit operands; VMERGE is not element-wise in its mask and stands apart. -/
def vintValue (k : VInt) (w a b : Nat) : Nat :=
  let sa := signedOf w a
  let sb := signedOf w b
  match k with
  | .add => (a + b) % 2 ^ w
  | .sub => wrapInt w (sa - sb)
  | .mul => a * b % 2 ^ w
  | .mulh => wrapInt w (sa * sb / (2 ^ w : Nat))
  | .mulhu => a * b / 2 ^ w
  | .min => if sa < sb then a else b
  | .minu => min a b
  | .max => if sa < sb then b else a
  | .maxu => max a b
  | .and => a &&& b
  | .or => a ||| b
  | .xor => a ^^^ b
  | .sll => b <<< (a % w) % 2 ^ w
  | .srl => b >>> (a % w)
  | .sra => wrapInt w (sb / (2 ^ (a % w) : Nat))
  | .merge => a

/-- Cost of an integer operation on one lane group (R137, R148). -/
def vintCost (k : VInt) (w : Nat) : Nat := match k with
  | .mul | .mulh | .mulhu => if w = 64 then 2 else 1
  | _ => 1

/-- An integer operation with operand a given for each element: VMERGE selects by the mask for every i < VL. -/
def State.vecInt (s : State) (k : VInt) (vd vs2 : Reg) (mk : BitVec 3) (a : Nat → Nat) : State :=
  let w := s.vw
  match k with
  | .merge =>
    let m := s.me.mask mk
    s.vecMap vd 0 1 fun i => (if m.getLsbD i then a i else s.ve vs2 i, 0)
  | _ => s.vecMap vd mk (vintCost k w) fun i => (vintValue k w (a i) (s.ve vs2 i), 0)

/-- The vector–vector form. -/
def State.vecIntVv (s : State) (i : Instr) (k : VInt) (vd vs1 vs2 : Reg) (mk : BitVec 3) : Res := do
  s.vecCheck i false false [vd, vs1, vs2]
  .ok (s.vecInt k vd vs2 mk (s.ve vs1))

/-- The vector–scalar form: operand a is wrap(x[rs1], w). -/
def State.vecIntVx (s : State) (i : Instr) (k : VInt) (vd rs1 vs2 : Reg) (mk : BitVec 3) : Res := do
  s.vecCheck i false false [vd, vs2]
  let a := s.xScalar rs1
  .ok (s.vecInt k vd vs2 mk fun _ => a)

/-- VADD, vector–vector (R148). -/
def execVaddVv (vd vs1 vs2 : Reg) (mk : BitVec 3) (s : State) : Host.Outcome State Fault Refusal :=
  s.done (s.vecIntVv (.vaddVv vd vs1 vs2 mk) .add vd vs1 vs2 mk)
/-- VADD, vector–scalar (R148). -/
def execVaddVx (vd rs1 vs2 : Reg) (mk : BitVec 3) (s : State) : Host.Outcome State Fault Refusal :=
  s.done (s.vecIntVx (.vaddVx vd rs1 vs2 mk) .add vd rs1 vs2 mk)
/-- VSUB, vector–vector (R148). -/
def execVsubVv (vd vs1 vs2 : Reg) (mk : BitVec 3) (s : State) : Host.Outcome State Fault Refusal :=
  s.done (s.vecIntVv (.vsubVv vd vs1 vs2 mk) .sub vd vs1 vs2 mk)
/-- VSUB, vector–scalar (R148). -/
def execVsubVx (vd rs1 vs2 : Reg) (mk : BitVec 3) (s : State) : Host.Outcome State Fault Refusal :=
  s.done (s.vecIntVx (.vsubVx vd rs1 vs2 mk) .sub vd rs1 vs2 mk)
/-- VMUL, vector–vector (R148). -/
def execVmulVv (vd vs1 vs2 : Reg) (mk : BitVec 3) (s : State) : Host.Outcome State Fault Refusal :=
  s.done (s.vecIntVv (.vmulVv vd vs1 vs2 mk) .mul vd vs1 vs2 mk)
/-- VMUL, vector–scalar (R148). -/
def execVmulVx (vd rs1 vs2 : Reg) (mk : BitVec 3) (s : State) : Host.Outcome State Fault Refusal :=
  s.done (s.vecIntVx (.vmulVx vd rs1 vs2 mk) .mul vd rs1 vs2 mk)
/-- VMULH, vector–vector (R148). -/
def execVmulhVv (vd vs1 vs2 : Reg) (mk : BitVec 3) (s : State) : Host.Outcome State Fault Refusal :=
  s.done (s.vecIntVv (.vmulhVv vd vs1 vs2 mk) .mulh vd vs1 vs2 mk)
/-- VMULH, vector–scalar (R148). -/
def execVmulhVx (vd rs1 vs2 : Reg) (mk : BitVec 3) (s : State) : Host.Outcome State Fault Refusal :=
  s.done (s.vecIntVx (.vmulhVx vd rs1 vs2 mk) .mulh vd rs1 vs2 mk)
/-- VMULHU, vector–vector (R148). -/
def execVmulhuVv (vd vs1 vs2 : Reg) (mk : BitVec 3) (s : State) : Host.Outcome State Fault Refusal :=
  s.done (s.vecIntVv (.vmulhuVv vd vs1 vs2 mk) .mulhu vd vs1 vs2 mk)
/-- VMULHU, vector–scalar (R148). -/
def execVmulhuVx (vd rs1 vs2 : Reg) (mk : BitVec 3) (s : State) : Host.Outcome State Fault Refusal :=
  s.done (s.vecIntVx (.vmulhuVx vd rs1 vs2 mk) .mulhu vd rs1 vs2 mk)
/-- VMIN, vector–vector (R148). -/
def execVminVv (vd vs1 vs2 : Reg) (mk : BitVec 3) (s : State) : Host.Outcome State Fault Refusal :=
  s.done (s.vecIntVv (.vminVv vd vs1 vs2 mk) .min vd vs1 vs2 mk)
/-- VMIN, vector–scalar (R148). -/
def execVminVx (vd rs1 vs2 : Reg) (mk : BitVec 3) (s : State) : Host.Outcome State Fault Refusal :=
  s.done (s.vecIntVx (.vminVx vd rs1 vs2 mk) .min vd rs1 vs2 mk)
/-- VMINU, vector–vector (R148). -/
def execVminuVv (vd vs1 vs2 : Reg) (mk : BitVec 3) (s : State) : Host.Outcome State Fault Refusal :=
  s.done (s.vecIntVv (.vminuVv vd vs1 vs2 mk) .minu vd vs1 vs2 mk)
/-- VMINU, vector–scalar (R148). -/
def execVminuVx (vd rs1 vs2 : Reg) (mk : BitVec 3) (s : State) : Host.Outcome State Fault Refusal :=
  s.done (s.vecIntVx (.vminuVx vd rs1 vs2 mk) .minu vd rs1 vs2 mk)
/-- VMAX, vector–vector (R148). -/
def execVmaxVv (vd vs1 vs2 : Reg) (mk : BitVec 3) (s : State) : Host.Outcome State Fault Refusal :=
  s.done (s.vecIntVv (.vmaxVv vd vs1 vs2 mk) .max vd vs1 vs2 mk)
/-- VMAX, vector–scalar (R148). -/
def execVmaxVx (vd rs1 vs2 : Reg) (mk : BitVec 3) (s : State) : Host.Outcome State Fault Refusal :=
  s.done (s.vecIntVx (.vmaxVx vd rs1 vs2 mk) .max vd rs1 vs2 mk)
/-- VMAXU, vector–vector (R148). -/
def execVmaxuVv (vd vs1 vs2 : Reg) (mk : BitVec 3) (s : State) : Host.Outcome State Fault Refusal :=
  s.done (s.vecIntVv (.vmaxuVv vd vs1 vs2 mk) .maxu vd vs1 vs2 mk)
/-- VMAXU, vector–scalar (R148). -/
def execVmaxuVx (vd rs1 vs2 : Reg) (mk : BitVec 3) (s : State) : Host.Outcome State Fault Refusal :=
  s.done (s.vecIntVx (.vmaxuVx vd rs1 vs2 mk) .maxu vd rs1 vs2 mk)
/-- VAND, vector–vector (R148). -/
def execVandVv (vd vs1 vs2 : Reg) (mk : BitVec 3) (s : State) : Host.Outcome State Fault Refusal :=
  s.done (s.vecIntVv (.vandVv vd vs1 vs2 mk) .and vd vs1 vs2 mk)
/-- VAND, vector–scalar (R148). -/
def execVandVx (vd rs1 vs2 : Reg) (mk : BitVec 3) (s : State) : Host.Outcome State Fault Refusal :=
  s.done (s.vecIntVx (.vandVx vd rs1 vs2 mk) .and vd rs1 vs2 mk)
/-- VOR, vector–vector (R148). -/
def execVorVv (vd vs1 vs2 : Reg) (mk : BitVec 3) (s : State) : Host.Outcome State Fault Refusal :=
  s.done (s.vecIntVv (.vorVv vd vs1 vs2 mk) .or vd vs1 vs2 mk)
/-- VOR, vector–scalar (R148). -/
def execVorVx (vd rs1 vs2 : Reg) (mk : BitVec 3) (s : State) : Host.Outcome State Fault Refusal :=
  s.done (s.vecIntVx (.vorVx vd rs1 vs2 mk) .or vd rs1 vs2 mk)
/-- VXOR, vector–vector (R148). -/
def execVxorVv (vd vs1 vs2 : Reg) (mk : BitVec 3) (s : State) : Host.Outcome State Fault Refusal :=
  s.done (s.vecIntVv (.vxorVv vd vs1 vs2 mk) .xor vd vs1 vs2 mk)
/-- VXOR, vector–scalar (R148). -/
def execVxorVx (vd rs1 vs2 : Reg) (mk : BitVec 3) (s : State) : Host.Outcome State Fault Refusal :=
  s.done (s.vecIntVx (.vxorVx vd rs1 vs2 mk) .xor vd rs1 vs2 mk)
/-- VSLL, vector–vector (R148). -/
def execVsllVv (vd vs1 vs2 : Reg) (mk : BitVec 3) (s : State) : Host.Outcome State Fault Refusal :=
  s.done (s.vecIntVv (.vsllVv vd vs1 vs2 mk) .sll vd vs1 vs2 mk)
/-- VSLL, vector–scalar (R148). -/
def execVsllVx (vd rs1 vs2 : Reg) (mk : BitVec 3) (s : State) : Host.Outcome State Fault Refusal :=
  s.done (s.vecIntVx (.vsllVx vd rs1 vs2 mk) .sll vd rs1 vs2 mk)
/-- VSRL, vector–vector (R148). -/
def execVsrlVv (vd vs1 vs2 : Reg) (mk : BitVec 3) (s : State) : Host.Outcome State Fault Refusal :=
  s.done (s.vecIntVv (.vsrlVv vd vs1 vs2 mk) .srl vd vs1 vs2 mk)
/-- VSRL, vector–scalar (R148). -/
def execVsrlVx (vd rs1 vs2 : Reg) (mk : BitVec 3) (s : State) : Host.Outcome State Fault Refusal :=
  s.done (s.vecIntVx (.vsrlVx vd rs1 vs2 mk) .srl vd rs1 vs2 mk)
/-- VSRA, vector–vector (R148). -/
def execVsraVv (vd vs1 vs2 : Reg) (mk : BitVec 3) (s : State) : Host.Outcome State Fault Refusal :=
  s.done (s.vecIntVv (.vsraVv vd vs1 vs2 mk) .sra vd vs1 vs2 mk)
/-- VSRA, vector–scalar (R148). -/
def execVsraVx (vd rs1 vs2 : Reg) (mk : BitVec 3) (s : State) : Host.Outcome State Fault Refusal :=
  s.done (s.vecIntVx (.vsraVx vd rs1 vs2 mk) .sra vd rs1 vs2 mk)
/-- VMERGE, vector–vector (R148). -/
def execVmergeVv (vd vs1 vs2 : Reg) (mk : BitVec 3) (s : State) : Host.Outcome State Fault Refusal :=
  s.done (s.vecIntVv (.vmergeVv vd vs1 vs2 mk) .merge vd vs1 vs2 mk)
/-- VMERGE, vector–scalar (R148). -/
def execVmergeVx (vd rs1 vs2 : Reg) (mk : BitVec 3) (s : State) : Host.Outcome State Fault Refusal :=
  s.done (s.vecIntVx (.vmergeVx vd rs1 vs2 mk) .merge vd rs1 vs2 mk)

end Sys2Proof.Machine
end

