-- ==== Sys2Proof/Machine/VecMask.lean ====
section
/-! DEFINITION. Vector compares, mask logic, VPOPC and VFIRST (R150), permutes and carry-less multiplies (R151), and reductions (R152). -/

namespace Sys2Proof.Machine

/-- A mask with bit i written for i < n where `on` holds; every other bit keeps its value (R150). -/
def maskMerge (old : BitVec 1024) (n : Nat) (on : Nat → Bool) (bitAt : Nat → Bool) : BitVec 1024 :=
  let is := (List.range n).filter on
  let w := BitVec.ofNat 1024 ((is.map fun i => 2 ^ i).sum)
  let v := BitVec.ofNat 1024 (((is.filter bitAt).map fun i => 2 ^ i).sum)
  (old &&& ~~~w) ||| v

/-- Write a mask destination over the active elements, with its queue entry. -/
def State.maskMap (s : State) (md : BitVec 3) (mk : BitVec 3) (bitAt : Nat → Bool) : State :=
  let m := s.me.mask mk
  let n := s.me.vl
  (s.modCtx s.cur fun c => c.setMask md (maskMerge (c.mask md) n (fun i => m.getLsbD i) bitAt)).enqueueE s.vw n 1

/-- The integer comparisons (R150). -/
inductive VCmp | eq | ne | lt | ltu | le | leu
  deriving DecidableEq, Repr
def vcmpValue (k : VCmp) (w a b : Nat) : Bool :=
  let sa := signedOf w a
  let sb := signedOf w b
  match k with
  | .eq => a == b
  | .ne => a != b
  | .lt => sa < sb
  | .ltu => a < b
  | .le => sa ≤ sb
  | .leu => a ≤ b

/-- VCMP (R150). -/
def State.vecCmp (s : State) (i : Instr) (k : VCmp) (md : BitVec 3) (vs1 vs2 : Reg) (mk : BitVec 3) : Res := do
  s.vecCheck i false false [vs1, vs2]
  .ok (s.maskMap md mk fun j => vcmpValue k s.vw (s.ve vs1 j) (s.ve vs2 j))

/-- VFCMP (R150), with the flags of each active element. -/
def State.vecFcmp (s : State) (i : Instr) (k : FCmp) (md : BitVec 3) (vs1 vs2 : Reg) (mk : BitVec 3) : Res := do
  s.vecCheck i true false [vs1, vs2]
  let F := (etypeFmt s.me.etype).getD .f32
  let m := s.me.mask mk
  let r (j : Nat) : Bool × Flags := fCompare F k (s.ve vs1 j) (s.ve vs2 j)
  let fl := (List.range s.me.vl).foldl (fun (f : Flags) j => if m.getLsbD j then f ||| (r j).2 else f) 0
  .ok ((s.maskMap md mk fun j => (r j).1).modCtx s.cur fun c => c.orQvstat fl)

/-- Mask logic (R150). -/
def State.maskOp (s : State) (i : Instr) (md mk : BitVec 3) (bitAt : Nat → Bool) : Res := do
  s.vecCheck i false false []
  .ok (s.maskMap md mk bitAt)

/-- VCMP.EQ (R150). -/
def execVcmpEq (vd : BitVec 3) (vs1 vs2 : Reg) (mk : BitVec 3) (s : State) : Host.Outcome State Fault Refusal :=
  s.done (s.vecCmp (.vcmpEq vd vs1 vs2 mk) .eq vd vs1 vs2 mk)
/-- VCMP.NE (R150). -/
def execVcmpNe (vd : BitVec 3) (vs1 vs2 : Reg) (mk : BitVec 3) (s : State) : Host.Outcome State Fault Refusal :=
  s.done (s.vecCmp (.vcmpNe vd vs1 vs2 mk) .ne vd vs1 vs2 mk)
/-- VCMP.LT (R150). -/
def execVcmpLt (vd : BitVec 3) (vs1 vs2 : Reg) (mk : BitVec 3) (s : State) : Host.Outcome State Fault Refusal :=
  s.done (s.vecCmp (.vcmpLt vd vs1 vs2 mk) .lt vd vs1 vs2 mk)
/-- VCMP.LTU (R150). -/
def execVcmpLtu (vd : BitVec 3) (vs1 vs2 : Reg) (mk : BitVec 3) (s : State) : Host.Outcome State Fault Refusal :=
  s.done (s.vecCmp (.vcmpLtu vd vs1 vs2 mk) .ltu vd vs1 vs2 mk)
/-- VCMP.LE (R150). -/
def execVcmpLe (vd : BitVec 3) (vs1 vs2 : Reg) (mk : BitVec 3) (s : State) : Host.Outcome State Fault Refusal :=
  s.done (s.vecCmp (.vcmpLe vd vs1 vs2 mk) .le vd vs1 vs2 mk)
/-- VCMP.LEU (R150). -/
def execVcmpLeu (vd : BitVec 3) (vs1 vs2 : Reg) (mk : BitVec 3) (s : State) : Host.Outcome State Fault Refusal :=
  s.done (s.vecCmp (.vcmpLeu vd vs1 vs2 mk) .leu vd vs1 vs2 mk)
/-- VFCMP.EQ (R150). -/
def execVfcmpEq (vd : BitVec 3) (vs1 vs2 : Reg) (mk : BitVec 3) (s : State) : Host.Outcome State Fault Refusal :=
  s.done (s.vecFcmp (.vfcmpEq vd vs1 vs2 mk) .eq vd vs1 vs2 mk)
/-- VFCMP.LT (R150). -/
def execVfcmpLt (vd : BitVec 3) (vs1 vs2 : Reg) (mk : BitVec 3) (s : State) : Host.Outcome State Fault Refusal :=
  s.done (s.vecFcmp (.vfcmpLt vd vs1 vs2 mk) .lt vd vs1 vs2 mk)
/-- VFCMP.LE (R150). -/
def execVfcmpLe (vd : BitVec 3) (vs1 vs2 : Reg) (mk : BitVec 3) (s : State) : Host.Outcome State Fault Refusal :=
  s.done (s.vecFcmp (.vfcmpLe vd vs1 vs2 mk) .le vd vs1 vs2 mk)
/-- VFCMP.UN (R150). -/
def execVfcmpUn (vd : BitVec 3) (vs1 vs2 : Reg) (mk : BitVec 3) (s : State) : Host.Outcome State Fault Refusal :=
  s.done (s.vecFcmp (.vfcmpUn vd vs1 vs2 mk) .un vd vs1 vs2 mk)
/-- VMAND (R150). -/
def execVmand (vd vs1 vs2 mk : BitVec 3) (s : State) : Host.Outcome State Fault Refusal :=
  s.done (s.maskOp (.vmand vd vs1 vs2 mk) vd mk fun j => (s.me.mask vs1).getLsbD j && (s.me.mask vs2).getLsbD j)
/-- VMOR (R150). -/
def execVmor (vd vs1 vs2 mk : BitVec 3) (s : State) : Host.Outcome State Fault Refusal :=
  s.done (s.maskOp (.vmor vd vs1 vs2 mk) vd mk fun j => (s.me.mask vs1).getLsbD j || (s.me.mask vs2).getLsbD j)
/-- VMXOR (R150). -/
def execVmxor (vd vs1 vs2 mk : BitVec 3) (s : State) : Host.Outcome State Fault Refusal :=
  s.done (s.maskOp (.vmxor vd vs1 vs2 mk) vd mk fun j => (s.me.mask vs1).getLsbD j != (s.me.mask vs2).getLsbD j)
/-- VMNOT (R150). -/
def execVmnot (vd vs2 mk : BitVec 3) (s : State) : Host.Outcome State Fault Refusal :=
  s.done (s.maskOp (.vmnot vd vs2 mk) vd mk fun j => !(s.me.mask vs2).getLsbD j)

/-- The elements i < VL with ms2[i] and msk[i]. -/
def State.maskHits (s : State) (vs2 mk : BitVec 3) : List Nat :=
  (List.range s.me.vl).filter fun i => (s.me.mask vs2).getLsbD i && (s.me.mask mk).getLsbD i

/-- VPOPC (R150): cross-lane; the context waits for the engine's answer. -/
def execVpopc (rd : Reg) (vs2 mk : BitVec 3) (s : State) : Host.Outcome State Fault Refusal :=
  s.done (do
    s.vecCheck (.vpopc rd vs2 mk) false false []
    let v := word (s.maskHits vs2 mk).length
    .ok ((s.engineReply (.vpopc rd vs2 mk)).setXr rd v))

/-- VFIRST (R150): all ones where no element is found. -/
def execVfirst (rd : Reg) (vs2 mk : BitVec 3) (s : State) : Host.Outcome State Fault Refusal :=
  s.done (do
    s.vecCheck (.vfirst rd vs2 mk) false false []
    let v : Word := match (s.maskHits vs2 mk).head? with
      | some i => word i
      | none => BitVec.allOnes 64
    .ok ((s.engineReply (.vfirst rd vs2 mk)).setXr rd v))

/-- Write active elements, those for which a result is given, by a cross-lane instruction. -/
def State.permMap (s : State) (vd : Reg) (mk : BitVec 3) (result : Nat → Option Nat) : State :=
  let m := s.me.mask mk
  let n := s.me.vl
  (s.putElems vd ((List.range n).map fun i => if m.getLsbD i then (result i).map (·, 0) else none)).enqueueX n 2

/-- VPERM (R151): element a of vs2, or 0 beyond VLMAX. -/
def execVperm (vd vs1 vs2 : Reg) (mk : BitVec 3) (s : State) : Host.Outcome State Fault Refusal :=
  s.done (do
    s.vecCheck (.vperm vd vs1 vs2 mk) false false [vd, vs1, vs2]
    .ok (s.permMap vd mk fun i => some (if s.ve vs1 i < s.vlmax then s.ve vs2 (s.ve vs1 i) else 0)))

/-- VSLIDEUP (R151): elements below the offset keep their values. -/
def execVslideup (vd rs1 vs2 : Reg) (mk : BitVec 3) (s : State) : Host.Outcome State Fault Refusal :=
  s.done (do
    s.vecCheck (.vslideup vd rs1 vs2 mk) false false [vd, vs2]
    let d := (s.xr rs1).toNat
    .ok (s.permMap vd mk fun i => if d ≤ i then some (s.ve vs2 (i - d)) else none))

/-- VSLIDEDN (R151): zero beyond VLMAX. -/
def execVslidedn (vd rs1 vs2 : Reg) (mk : BitVec 3) (s : State) : Host.Outcome State Fault Refusal :=
  s.done (do
    s.vecCheck (.vslidedn vd rs1 vs2 mk) false false [vd, vs2]
    let d := (s.xr rs1).toNat
    .ok (s.permMap vd mk fun i => some (if i + d < s.vlmax then s.ve vs2 (i + d) else 0)))

/-- VBCAST (R151). -/
def execVbcast (vd rs1 : Reg) (mk : BitVec 3) (s : State) : Host.Outcome State Fault Refusal :=
  s.done (do
    s.vecCheck (.vbcast vd rs1 mk) false false [vd]
    let a := s.xScalar rs1
    .ok (s.vecMap vd mk 1 fun _ => (a, 0)))

/-- VID (R151). -/
def execVid (vd : Reg) (mk : BitVec 3) (s : State) : Host.Outcome State Fault Refusal :=
  s.done (do
    s.vecCheck (.vid vd mk) false false [vd]
    .ok (s.vecMap vd mk 1 fun i => (i, 0)))

/-- VCOMPRESS (R151): the selected elements of vs2 in order, then elements of vs1. -/
def execVcompress (vd vs1 vs2 : Reg) (mk : BitVec 3) (s : State) : Host.Outcome State Fault Refusal :=
  s.done (do
    s.vecCheck (.vcompress vd vs1 vs2 mk) false false [vd, vs1, vs2]
    let m := s.me.mask mk
    let picked := ((List.range s.me.vl).filter fun j => m.getLsbD j).map (s.ve vs2)
    .ok (s.permMap vd 0 fun i => some (match picked[i]? with
      | some v => v
      | none => s.ve vs1 i)))

/-- VCLMUL and VCLMULH (R151). -/
def State.vecClmul (s : State) (i : Instr) (high : Bool) (vd vs1 vs2 : Reg) (mk : BitVec 3) : Res := do
  s.vecCheck i false false [vd, vs1, vs2]
  .ok (s.vecMap vd mk 2 fun j =>
    let p := clmulNat s.vw (s.ve vs1 j) (s.ve vs2 j)
    (if high then p >>> s.vw else p, 0))
def execVclmul (vd vs1 vs2 : Reg) (mk : BitVec 3) (s : State) : Host.Outcome State Fault Refusal :=
  s.done (s.vecClmul (.vclmul vd vs1 vs2 mk) false vd vs1 vs2 mk)
def execVclmulh (vd vs1 vs2 : Reg) (mk : BitVec 3) (s : State) : Host.Outcome State Fault Refusal :=
  s.done (s.vecClmul (.vclmulh vd vs1 vs2 mk) true vd vs1 vs2 mk)

/-- The active elements of a reduction's source. -/
def State.activeElems (s : State) (vs2 : Reg) (mk : BitVec 3) : List Nat :=
  let m := s.me.mask mk
  ((List.range s.me.vl).filter fun i => m.getLsbD i).map (s.ve vs2)

/-- Write element 0 of a reduction's destination (R152); with VL = 0 nothing is written. -/
def State.reduce (s : State) (vd : Reg) (cost : Nat) (r : Nat × Flags) : State :=
  (if s.me.vl = 0 then s else s.putElems vd [some r]).enqueueX s.me.vl cost

/-- The integer reductions (R152). -/
inductive VRed | sum | max | min | maxu | minu
  deriving DecidableEq, Repr
def vredStep (k : VRed) (w a b : Nat) : Nat := match k with
  | .sum => (a + b) % 2 ^ w
  | .max => if signedOf w a < signedOf w b then b else a
  | .min => if signedOf w b < signedOf w a then b else a
  | .maxu => Nat.max a b
  | .minu => Nat.min a b
def State.vecRed (s : State) (i : Instr) (k : VRed) (vd vs1 vs2 : Reg) (mk : BitVec 3) : Res := do
  s.vecCheck i false false [vd, vs1, vs2]
  .ok (s.reduce vd 4 ((s.activeElems vs2 mk).foldl (vredStep k s.vw) (s.ve vs1 0), 0))

/-- The floating-point minimum and maximum reductions (R152, R80). -/
def State.vecFredMinMax (s : State) (i : Instr) (mx : Bool) (vd vs1 vs2 : Reg) (mk : BitVec 3) : Res := do
  s.vecCheck i true false [vd, vs1, vs2]
  let F := (etypeFmt s.me.etype).getD .f32
  .ok (s.reduce vd 8 ((s.activeElems vs2 mk).foldl (fun (p : Nat × Flags) b =>
    let r := fMinMax F mx p.1 b
    (r.1, p.2 ||| r.2)) (s.ve vs1 0, 0)))

/-- The leaves of the summation tree: VL padded to a power of two, −0.0 where masked off (R91). -/
def State.treeLeaves (s : State) (F : Fmt) (vs2 : Reg) (mk : BitVec 3) : List Nat :=
  let n := s.me.vl
  let m := s.me.mask mk
  let top := if n ≤ 1 then 1 else 2 ^ (Nat.log2 (n - 1) + 1)
  (List.range top).map fun i => if decide (i < n) && m.getLsbD i then s.ve vs2 i else signed F true 0

/-- VFREDSUM (R91, R152). With no active element, element 0 receives init. -/
def execVfredsum (vd vs1 vs2 : Reg) (mk : BitVec 3) (s : State) : Host.Outcome State Fault Refusal :=
  s.done (do
    s.vecCheck (.vfredsum vd vs1 vs2 mk) true false [vd, vs1, vs2]
    let F := (etypeFmt s.me.etype).getD .f32
    let init := s.ve vs1 0
    if s.activeElems vs2 mk = [] then .ok (s.reduce vd 8 (init, 0))
    else
      let t := sumTree F 11 (s.treeLeaves F vs2 mk)
      let r := fAdd F .rne init t.1
      .ok (s.reduce vd 8 (r.1, t.2 ||| r.2)))

/-- VREDSUM (R152). -/
def execVredsum (vd vs1 vs2 : Reg) (mk : BitVec 3) (s : State) : Host.Outcome State Fault Refusal :=
  s.done (s.vecRed (.vredsum vd vs1 vs2 mk) .sum vd vs1 vs2 mk)
/-- VREDMAX (R152). -/
def execVredmax (vd vs1 vs2 : Reg) (mk : BitVec 3) (s : State) : Host.Outcome State Fault Refusal :=
  s.done (s.vecRed (.vredmax vd vs1 vs2 mk) .max vd vs1 vs2 mk)
/-- VREDMIN (R152). -/
def execVredmin (vd vs1 vs2 : Reg) (mk : BitVec 3) (s : State) : Host.Outcome State Fault Refusal :=
  s.done (s.vecRed (.vredmin vd vs1 vs2 mk) .min vd vs1 vs2 mk)
/-- VREDMAXU (R152). -/
def execVredmaxu (vd vs1 vs2 : Reg) (mk : BitVec 3) (s : State) : Host.Outcome State Fault Refusal :=
  s.done (s.vecRed (.vredmaxu vd vs1 vs2 mk) .maxu vd vs1 vs2 mk)
/-- VREDMINU (R152). -/
def execVredminu (vd vs1 vs2 : Reg) (mk : BitVec 3) (s : State) : Host.Outcome State Fault Refusal :=
  s.done (s.vecRed (.vredminu vd vs1 vs2 mk) .minu vd vs1 vs2 mk)
/-- VFREDMAX (R152). -/
def execVfredmax (vd vs1 vs2 : Reg) (mk : BitVec 3) (s : State) : Host.Outcome State Fault Refusal :=
  s.done (s.vecFredMinMax (.vfredmax vd vs1 vs2 mk) true vd vs1 vs2 mk)
/-- VFREDMIN (R152). -/
def execVfredmin (vd vs1 vs2 : Reg) (mk : BitVec 3) (s : State) : Host.Outcome State Fault Refusal :=
  s.done (s.vecFredMinMax (.vfredmin vd vs1 vs2 mk) false vd vs1 vs2 mk)

end Sys2Proof.Machine
end

