-- ==== Sys2Proof/Machine/VecMem.lean ====
section
/-! DEFINITION. Vector loads and stores (R158 to R165), register-indirect moves (R167, R168), VSETL (R145), VEXTRACT and VINSERT
(R169). -/

namespace Sys2Proof.Machine

/-- One access of an element: the element, the address of its first byte, and the bytes of this access. An element is one access, but
for a packed LNS6 code that lies in two bytes. -/
structure Chunk where
  i : Nat
  eva : Nat
  va : Nat
  n : Nat
  deriving DecidableEq, Repr

/-- How the element addresses of a form are computed (R158). -/
inductive VForm
  | unit
  | strided (s : Word)
  | indexed (vs2 : Reg)
  | bcast
  deriving DecidableEq, Repr

/-- idx[i] of an indexed form (R160). -/
def State.vindex (s : State) (vs2 : Reg) (i : Nat) : Nat :=
  if s.vw = 64 then velem (s.vr vs2) 64 i else velem (s.vr vs2) 32 i

/-- The address of element i (R158), modulo 2^64. -/
def State.elemAddr (s : State) (f : VForm) (base : Word) (i : Nat) : Nat := match f with
  | .unit => (base + word (i * (s.vw / 8))).toNat
  | .strided st => (base + word i * st).toNat
  | .indexed vs2 => (base + word (s.vindex vs2 i)).toNat
  | .bcast => base.toNat

/-- Whether the form uses the packed image of LNS6 (R159). -/
def State.packed (s : State) (f : VForm) : Bool := s.me.etype = 14 && f = .unit

/-- The accesses of element i. -/
def State.elemChunks (s : State) (f : VForm) (base : Word) (i : Nat) : List Chunk :=
  if s.packed f then
    let a := (base + word (6 * i / 8)).toNat
    if 2 < 6 * i % 8 then [⟨i, a, a, 1⟩, ⟨i, a, (a + 1) % 2 ^ 64, 1⟩] else [⟨i, a, a, 1⟩]
  else
    let a := s.elemAddr f base i
    [⟨i, a, a, s.vw / 8⟩]

/-- The active elements (R161). -/
def State.activeIdx (s : State) (mk : BitVec 3) : List Nat :=
  (List.range s.me.vl).filter fun i => (s.me.mask mk).getLsbD i

/-- Translate every access: the lowest page fault at once, then the lowest access fault, I/O memory among them (R161, R163). -/
def State.chunkPages (s : State) (cls : Cls) (nd : Need) (cs : List Chunk) : Except Stop (State × List (Chunk × Xlat) × Option Stop) :=
  match cs with
  | [] => .ok (s, [], none)
  | c :: t =>
    let v := s.view s.cur
    match s.xlate v nd c.va with
    | .error .page => .error (cls.err .page c.eva)
    | .error .access => do
      let (s, xs, _) ← s.chunkPages cls nd t
      .ok (s, xs, some (cls.err .access c.eva))
    | .ok (s, x) =>
      -- a change of SPWAYS holds it, its own cluster's or that of the scratchpad it names (R178)
      if ((s.cluster v.g).busy && x.mt ≠ .io) || s.changing x.pa then .error (.left s) else do
        let ok := s.accessOk (if nd.w then .write else .read) x.pa c.n && s.pmpOk v v.priv nd x.pa c.n && !(x.mt = .io)
        let (s, xs, e) ← s.chunkPages cls nd t
        .ok (s, (c, x) :: xs, if ok then e else some (cls.err .access c.eva))

/-- The data breakpoint check over every active element, at the lowest watched address (R373). -/
def State.watchChunks (s : State) (store : Bool) (cs : List Chunk) : Except Stop Unit :=
  match (cs.filterMap fun c => s.me.watchHit store c.va c.n).foldl (fun (o : Option (Nat × Breakpoint)) p => match o with
      | none => some p
      | some q => if p.1 < q.1 then some p else o) none with
  | none => .ok ()
  | some (a, b) => if bit b.ctl 7 then .error .halt else trap 3 (word a)

/-- The issue checks of R161, in their order, over the elements given. -/
def State.vecMemCheck (s : State) (i : Instr) (f : VForm) (store : Bool) (v : Reg) (base : Word) (els : List Nat) :
    Except Stop (State × List (Chunk × Xlat)) := do
  let ix : List Reg := match f with
    | .indexed vs2 => [vs2]
    | _ => []
  if s.me.vill || (s.packed f && base.toNat % 4 != 0) || (ix != [] && decide (s.vw < 32) && decide (256 < s.me.vl)) then illegal i
  else do
    s.checkWindow (v :: ix)
    let cs := els.flatMap fun j => s.elemChunks f base j
    match (if s.packed f then none else cs.find? fun c => c.va % c.n ≠ 0) with
    | some c => trap (if store then 6 else 4) (word c.eva)
    | none => do
      let (s, xs, e) ← s.chunkPages (if store then .store else .load) (if store then needW else needR) cs
      match e with
      | some e => .error e
      | none => do
        s.watchChunks store cs
        .ok (s, xs)

/-- Why an element's access fails after it has issued (R164): a selvedge refusal, or a peer that does not answer. -/
def State.elemFails (s : State) (store : Bool) (x : Xlat) (n : Nat) : Option Nat :=
  if !(s.selvedgeOk (clusterOf s.cur) (if store then .write else .read) x.pa n) then some 25
  else if s.silent x.pa then some 28 else none

/-- The record of failed elements (R164) of an instruction that is complete. A timeout ends TMO after the request. -/
def State.vecReport (s : State) (fails : List (Nat × Nat × Nat)) : State :=
  (if fails.any (fun p => p.2.1 == 28) then { s with now := s.now + s.tmo } else s).vecRecord s.cur s.me.qtid s.me.pc fails

/-- Read each access: bytes, or a failure (R162, R164). -/
def State.readChunks (s : State) (cs : List (Chunk × Xlat)) : State × List (Chunk × Nat) × List (Nat × Nat × Nat) :=
  match cs with
  | [] => (s, [], [])
  | (c, x) :: t =>
    match s.elemFails false x c.n with
    | some cause =>
      let (s, vs, fs) := s.readChunks t
      (s, (c, 0) :: vs, (c.i, cause, x.pa) :: fs)
    | none =>
      let (s, v) := s.loadBytes x c.n
      let (s, vs, fs) := s.readChunks t
      (s, (c, v) :: vs, fs)

/-- The home slices of the element reads that miss in the cluster's L2, one for each read (R204). -/
def State.missSlices (s : State) (xs : List (Chunk × Xlat)) : List Nat :=
  (xs.filter fun p => s.cached p.2 && isHbm p.2.pa && !(s.l2Has (clusterOf s.cur) p.2.pa p.1.n) && (s.elemFails false p.2 p.1.n).isNone).map
    fun p => p.2.slice

/-- The element reads of one VLD.IX or VLD.ST stand at their home slices together (R204): each slice counts those that miss as one batch. `s0` is
the state they were issued in. -/
def State.countBatch (s s0 : State) (xs : List (Chunk × Xlat)) : State :=
  let ks := s0.missSlices xs
  ks.eraseDups.foldl (fun s k =>
    let x := (s0.countReads k (ks.filter (· = k)).length).slice k
    s.modSlice k fun y => { y with peak := x.peak, waits := x.waits }) s

/-- Element reads that are still outstanding hold request slots of their slices, and those beyond 16 stand in the cluster's miss buffer (R204). -/
def State.standElems (s : State) (ks : List Nat) : State :=
  let r : SlotReq := ⟨clusterOf s.cur, s.cur, none, true⟩
  ks.foldl (fun s k =>
    if (s.slice k).held.length < Config.requestSlots then s.modSlice k fun y => { y with held := y.held ++ [r] }
    else if s.missUsed r.g < Config.missBufferSize then s.modSlice k fun y => { y with waiting := y.waiting ++ [r] }
    else s) s

/-- The value an element's accesses return; a failed element is zero. -/
def chunkValue (packed : Bool) (vs : List (Chunk × Nat)) (fs : List (Nat × Nat × Nat)) (i : Nat) : Nat :=
  if fs.any (fun f => f.1 == i) then 0
  else
    let mine := vs.filter fun p => p.1.i == i
    let v := mine.foldr (fun p a => p.2 % 2 ^ (8 * p.1.n) + a * 2 ^ (8 * p.1.n)) 0
    if packed then v >>> (6 * i % 8) % 64 else v

/-- A vector load of the active elements (R162). Whether the line reads of a VLD, and those of a VLD.BC, stand at a slice together is open (R204
speaks of VLD.IX and VLD.ST): here each has left the slice before the next arrives (DESIGN CHOICE, log entry 89). -/
def State.vecLoad (s : State) (i : Instr) (f : VForm) (cost : Nat) (vd : Reg) (base : Word) (mk : BitVec 3) : Res := do
  let els := s.activeIdx mk
  let (s, xs) ← s.vecMemCheck i f false vd base els
  let s0 := s
  let (s, vs, fs) := s.readChunks xs
  let s := match f with
    | .indexed _ | .strided _ => s.countBatch s0 xs
    | _ => s
  let p := s.packed f
  let s := s.putElems vd ((List.range s.me.vl).map fun j => if els.contains j then some (chunkValue p vs fs j, 0) else none)
  .ok ((s.vecReport fs).enqueueE s.vw s.me.vl cost)

/-- The bytes of one access of a vector store: to a remote scratchpad they travel as a posted message (R34, R163) of element `i` of the instruction
`key`, elsewhere they are performed as the instruction issues (log entry 80). -/
def State.elemWrite (s : State) (key i : Nat) (x : Xlat) (n v : Nat) : State :=
  if remoteScratch (clusterOf s.cur) x then
    s.modCore (coreOf s.cur) fun k =>
      { k with posted := k.posted ++ [⟨s.cur, false, .store x n (word (v % 2 ^ (8 * n))), s.me.pc, s.me.qtid, s.me.tid, s.now, some (key, i)⟩] }
  else (s.writeMem (clusterOf s.cur) s.me.tid x n v (some s.cur) (s.byCtx s.cur) s.me.launch).restorePhaser x.pa n

/-- Store an element's code or value at one access; a packed code leaves the byte's other bits (R162), which an own posted code may still hold. -/
def State.storeChunk (s : State) (key : Nat) (packed : Bool) (c : Chunk) (x : Xlat) (v : Nat) : State :=
  if packed then
    let sh := 6 * c.i % 8
    let second := c.va ≠ c.eva
    let (s, old) := s.loadBytes x 1
    let wide := (v % 64) <<< sh
    let m := (63 <<< sh) >>> (if second then 8 else 0) % 256
    let new := (old &&& (255 - m)) ||| ((wide >>> (if second then 8 else 0)) % 256)
    s.elemWrite key c.i x 1 new
  else s.elemWrite key c.i x c.n v

/-- The accesses of a vector store that fail (R164): element, cause, physical address. Of a packed code in two bytes of which only the second is
refused this is the second byte's, where R164 says the element's (DESIGN CHOICE, log entry 90). -/
def State.failedChunks (s : State) (cs : List (Chunk × Xlat)) : List (Nat × Nat × Nat) :=
  cs.filterMap fun (c, x) => (s.elemFails true x c.n).map fun cause => (c.i, cause, x.pa)

/-- Store the accesses given in order of element; an element of which any access fails is left out whole (R164). -/
def State.writeChunks (s : State) (key : Nat) (packed : Bool) (value : Nat → Nat) (cs : List (Chunk × Xlat)) : State × List (Nat × Nat × Nat) :=
  let fs := s.failedChunks cs
  (cs.foldl (fun s (c, x) => if fs.any (fun f => f.1 == c.i) then s else s.storeChunk key packed c x (value c.i)) s, fs)

/-- A vector store has issued: its record is written where all its elements are done, and else with the last of its posted ones (R164). -/
def State.vecIssued (s : State) (key : Nat) (fails : List (Nat × Nat × Nat)) : State :=
  let left := ((s.core (coreOf s.cur)).posted.filter fun e => (e.vec.map (·.1)) == some key).length
  if left = 0 then s.vecReport fails
  else
    let v : VecStore := ⟨key, s.cur, s.me.qtid, s.me.pc, fails, left⟩
    let s := { s with nextKey := key + 1 }
    s.modCore (coreOf s.cur) fun k => { k with vecStores := k.vecStores ++ [v] }

/-- A vector store of the elements given; the context's own earlier stores are performed before it (R165). Its relaxed element accesses are
performed as it issues, where the spec leaves open when they are after the enqueue (DESIGN CHOICE, log entry 80). -/
def State.vecStore (s : State) (i : Instr) (f : VForm) (vs3 : Reg) (base : Word) (els : List Nat) (value : Nat → Nat) : Except Stop State := do
  let (s, xs) ← s.vecMemCheck i f true vs3 base els
  let s := s.drainStores s.cur
  let key := s.nextKey
  let (s, fs) := s.writeChunks key (s.packed f) value xs
  .ok (if xs = [] then s else s.vecIssued key fs)

/-- The home slices at which the element reads of a VLD.IX or VLD.ST stand (R204). -/
def State.elemSlices (s : State) (i : Instr) : List Nat :=
  let of_ (f : VForm) (vd : Reg) (base : Word) (mk : BitVec 3) : List Nat := match s.vecMemCheck i f false vd base (s.activeIdx mk) with
    | .ok (s, xs) => s.missSlices xs
    | .error _ => []
  match i with
  | .vldSt vd rs1 rs2 m => of_ (.strided (s.xr rs2)) vd (s.xr rs1) m
  | .vldIx vd rs1 vs2 m => of_ (.indexed vs2) vd (s.xr rs1) m
  | _ => []

/-- VLD (R158, R162). -/
def execVld (vd rs1 : Reg) (mk : BitVec 3) (s : State) : Host.Outcome State Fault Refusal :=
  s.done (s.vecLoad (.vld vd rs1 mk) .unit 1 vd (s.xr rs1) mk)
/-- VLD.ST: signed stride x[rs2] in bytes. -/
def execVldSt (vd rs1 rs2 : Reg) (mk : BitVec 3) (s : State) : Host.Outcome State Fault Refusal :=
  s.done (s.vecLoad (.vldSt vd rs1 rs2 mk) (.strided (s.xr rs2)) 2 vd (s.xr rs1) mk)
/-- VLD.IX. -/
def execVldIx (vd rs1 vs2 : Reg) (mk : BitVec 3) (s : State) : Host.Outcome State Fault Refusal :=
  s.done (s.vecLoad (.vldIx vd rs1 vs2 mk) (.indexed vs2) 2 vd (s.xr rs1) mk)
/-- VLD.BC: base is read once for each active element. -/
def execVldBc (vd rs1 : Reg) (mk : BitVec 3) (s : State) : Host.Outcome State Fault Refusal :=
  s.done (s.vecLoad (.vldBc vd rs1 mk) .bcast 1 vd (s.xr rs1) mk)

/-- VST (R158, R162). -/
def execVst (vs3 rs1 : Reg) (mk : BitVec 3) (s : State) : Host.Outcome State Fault Refusal :=
  s.done ((s.vecStore (.vst vs3 rs1 mk) .unit vs3 (s.xr rs1) (s.activeIdx mk) (s.ve vs3)).map fun t => t.enqueueE s.vw s.me.vl 1)
/-- VST.ST. -/
def execVstSt (vs3 rs1 rs2 : Reg) (mk : BitVec 3) (s : State) : Host.Outcome State Fault Refusal :=
  s.done ((s.vecStore (.vstSt vs3 rs1 rs2 mk) (.strided (s.xr rs2)) vs3 (s.xr rs1) (s.activeIdx mk) (s.ve vs3)).map fun t =>
    t.enqueueE s.vw s.me.vl 2)
/-- VST.IX. -/
def execVstIx (vs3 rs1 vs2 : Reg) (mk : BitVec 3) (s : State) : Host.Outcome State Fault Refusal :=
  s.done ((s.vecStore (.vstIx vs3 rs1 vs2 mk) (.indexed vs2) vs3 (s.xr rs1) (s.activeIdx mk) (s.ve vs3)).map fun t =>
    t.enqueueE s.vw s.me.vl 2)

/-- VST.BC (R162): the highest active element at base; every active element is checked there. -/
def execVstBc (vs3 rs1 : Reg) (mk : BitVec 3) (s : State) : Host.Outcome State Fault Refusal :=
  s.done (do
    let els := s.activeIdx mk
    let t ← s.vecStore (.vstBc vs3 rs1 mk) .bcast vs3 (s.xr rs1) (els.getLast?.toList) (s.ve vs3)
    .ok (t.enqueueX s.me.vl 2))

/-- The 64-bit lane `l` of a register (R134). -/
def laneOf (v : VReg) (l : Nat) : Nat := velem v 64 l
/-- A register with lane `l` replaced. -/
def setLane (v : VReg) (l x : Nat) : VReg :=
  BitVec.ofNat 8192 (v.toNat - laneOf v l * 2 ^ (64 * l) + (x % 2 ^ 64) * 2 ^ (64 * l))
/-- Lanes covered by VL (R167). -/
def State.lanes (s : State) : Nat := (s.me.vl * s.vw + 63) / 64
/-- Window register `n`, unrotated. -/
def State.winReg (s : State) (n : Nat) : VReg := s.vregAt (clusterOf s.cur) (s.me.winBase + n)
def State.setWinReg (s : State) (n : Nat) (v : VReg) : State := s.setVreg (clusterOf s.cur) (s.me.winBase + n) v

/-- VMOVI (R167): each lane's own index; zero at or above SIZE. -/
def execVmovi (vd vs2 : Reg) (s : State) : Host.Outcome State Fault Refusal :=
  s.done (do
    s.vecCheck (.vmovi vd vs2) false false [vd, vs2]
    let ix := s.vr vs2
    let xs := (List.range s.lanes).map fun l =>
      some (if laneOf ix l < s.me.winSize then laneOf (s.winReg (laneOf ix l)) l else 0)
    .ok ((s.setVr vd (vmerge (s.vr vd) 64 xs)).enqueueE 64 s.lanes 2))

/-- VMOVIW (R167). -/
def execVmoviw (vs3 vs2 : Reg) (s : State) : Host.Outcome State Fault Refusal :=
  s.done (do
    s.vecCheck (.vmoviw vs3 vs2) false false [vs3, vs2]
    let ix := s.vr vs2
    let d := s.vr vs3
    .ok (((List.range s.lanes).foldl (fun s l =>
      let n := laneOf ix l
      if n < s.me.winSize then s.setWinReg n (setLane (s.winReg n) l (laneOf d l)) else s) s).enqueueE 64 s.lanes 2))

/-- The index check of VRDX and VWRX (R168): after the window check of the register field. -/
def State.checkIndex (s : State) (f : Reg) (n : Word) : Except Stop Unit := do
  s.checkWindow [f]
  if s.me.winSize ≤ n.toNat then trap 30 n else .ok ()

/-- VRDX (R168). -/
def execVrdx (vd rs1 : Reg) (s : State) : Host.Outcome State Fault Refusal :=
  s.done (do
    s.checkIndex vd (s.xr rs1)
    .ok ((s.setVr vd (s.winReg (s.xr rs1).toNat)).enqueueV 0xFF 1 false none))

/-- VWRX (R168). -/
def execVwrx (vs3 rs1 : Reg) (s : State) : Host.Outcome State Fault Refusal :=
  s.done (do
    s.checkIndex vs3 (s.xr rs1)
    .ok ((s.setWinReg (s.xr rs1).toNat (s.vr vs3)).enqueueV 0xFF 1 false none))

/-- VSETL (R145): the context waits for the engine's answer. -/
def execVsetl (rd rs1 etype : Reg) (s : State) : Host.Outcome State Fault Refusal :=
  s.done (do
    need (s.me.winSize != 0) 30 0
    s.checkRoom
    let top := 8192 / etypeWidth etype.toNat
    let vl := if rs1 = 0 then top else min (s.xr rs1).toNat top
    let s := s.engineReply (.vsetl rd rs1 etype)
    .ok (s.modCtx s.cur fun c => { c with qvtype := word (etype.toNat + vl * 2 ^ 16) }.setX rd (word vl)))

/-- VEXTRACT (R169). -/
def execVextract (rd rs1 vs2 : Reg) (s : State) : Host.Outcome State Fault Refusal :=
  s.done (do
    s.vecCheck (.vextract rd rs1 vs2) false false [vs2]
    let j := (s.xr rs1).toNat
    let v : Word :=
      if j < s.vlmax then (if s.me.etype = 14 then word (s.ve vs2 j) else BitVec.ofInt 64 (signedOf s.vw (s.ve vs2 j))) else 0
    .ok ((s.engineReply (.vextract rd rs1 vs2)).setXr rd v))

/-- VINSERT (R169). -/
def execVinsert (vd rs1 rs2 : Reg) (s : State) : Host.Outcome State Fault Refusal :=
  s.done (do
    s.vecCheck (.vinsert vd rs1 rs2) false false [vd]
    let j := (s.xr rs2).toNat
    let t := if j < s.vlmax then
        s.putElems vd ((List.range (j + 1)).map fun i => if i = j then some ((s.xr rs1).toNat % 2 ^ s.vw, 0) else none)
      else s
    .ok (t.enqueueV (s.elemGroup j) 1 false none))

end Sys2Proof.Machine
end

