-- ==== Sys2Proof/Machine/Dispatch.lean ====
section
/-! DEFINITION. The machine's dispatch: one arm per constructor of `Instr`, each a direct call of that row's meaning. -/

namespace Sys2Proof.Machine

def exec (i : Instr) (s : State) : Host.Outcome State Fault Refusal :=
  match i with
  | .load k rd rs1 imm => Sys2Proof.Machine.execLoad k rd rs1 imm s
  | .store k rs1 rs2 imm => Sys2Proof.Machine.execStore k rs1 rs2 imm s
  | .lr dbl aq rl rd rs1 => Sys2Proof.Machine.execLr dbl aq rl rd rs1 s
  | .sc dbl aq rl rd rs1 rs2 => Sys2Proof.Machine.execSc dbl aq rl rd rs1 rs2 s
  | .amo op dbl aq rl rd rs1 rs2 => Sys2Proof.Machine.execAmo op dbl aq rl rd rs1 rs2 s
  | .integerDivide op word rd rs1 rs2 => Sys2Proof.Machine.execIntegerDivide op word rd rs1 rs2 s
  | .csrAccess op isImm rd src csr => Sys2Proof.Machine.execCsrAccess op isImm rd src csr s
  | .fence fm pred succ rd rs1 => Sys2Proof.Machine.execFence fm pred succ rd rs1 s
  | .fenceTso rd rs1 => Sys2Proof.Machine.execFenceTso rd rs1 s
  | .fenceI imm rd rs1 => Sys2Proof.Machine.execFenceI imm rd rs1 s
  | .wfi => Sys2Proof.Machine.execWfi s
  | .ecall => Sys2Proof.Machine.execEcall s
  | .ebreak => Sys2Proof.Machine.execEbreak s
  | .sfenceVma rs1 rs2 => Sys2Proof.Machine.execSfenceVma rs1 rs2 s
  | .wrsNto => Sys2Proof.Machine.execWrsNto s
  | .wrsSto => Sys2Proof.Machine.execWrsSto s
  | .ldo rd rs1 scope op w_ => Sys2Proof.Machine.execLdo rd rs1 scope op w_ s
  | .sto rs1 rs2 scope op w_ => Sys2Proof.Machine.execSto rs1 rs2 scope op w_ s
  | .wbr rs1 rs2 => Sys2Proof.Machine.execWbr rs1 rs2 s
  | .invr rs1 rs2 => Sys2Proof.Machine.execInvr rs1 rs2 s
  | .wbinvr rs1 rs2 => Sys2Proof.Machine.execWbinvr rs1 rs2 s
  | .disct rs1 => Sys2Proof.Machine.execDisct rs1 s
  | .fenceS pred succ scope => Sys2Proof.Machine.execFenceS pred succ scope s
  | .qsfence icache scope rs1 rs2 => Sys2Proof.Machine.execQsfence icache scope rs1 rs2 s
  | .pgmig rd rs1 rs2 => Sys2Proof.Machine.execPgmig rd rs1 rs2 s
  | .tdecl rs1 => Sys2Proof.Machine.execTdecl rs1 s
  | .tfree rs1 => Sys2Proof.Machine.execTfree rs1 s
  | .tacq rs1 scope excl => Sys2Proof.Machine.execTacq rs1 scope excl s
  | .trel rs1 scope => Sys2Proof.Machine.execTrel rs1 scope s
  | .tfwd rel rs1 rs2 => Sys2Proof.Machine.execTfwd rel rs1 rs2 s
  | .tstat rd rs1 => Sys2Proof.Machine.execTstat rd rs1 s
  | .accF vs rs1 => Sys2Proof.Machine.execAccF vs rs1 s
  | .accX vs rs1 rs2 => Sys2Proof.Machine.execAccX vs rs1 rs2 s
  | .accI vs rs1 => Sys2Proof.Machine.execAccI vs rs1 s
  | .flres rs1 rs2 => Sys2Proof.Machine.execFlres rs1 rs2 s
  | .amos rd rs1 rs2 scope op => Sys2Proof.Machine.execAmos rd rs1 rs2 scope op s
  | .cpy rd rs1 rs2 rs3 => Sys2Proof.Machine.execCpy rd rs1 rs2 rs3 s
  | .cpyDc rd rs1 rs2 rs3 => Sys2Proof.Machine.execCpyDc rd rs1 rs2 rs3 s
  | .cpyPh rd rs1 rs2 rs3 => Sys2Proof.Machine.execCpyPh rd rs1 rs2 rs3 s
  | .cpyDcPh rd rs1 rs2 rs3 => Sys2Proof.Machine.execCpyDcPh rd rs1 rs2 rs3 s
  | .cpstep rs1 => Sys2Proof.Machine.execCpstep rs1 s
  | .bhwait rd rs1 rs2 => Sys2Proof.Machine.execBhwait rd rs1 rs2 s
  | .bhset rs1 rs2 => Sys2Proof.Machine.execBhset rs1 rs2 s
  | .stgreq rs1 rs2 => Sys2Proof.Machine.execStgreq rs1 rs2 s
  | .hsgath rs1 rs2 => Sys2Proof.Machine.execHsgath rs1 rs2 s
  | .hsred rs1 rs2 => Sys2Proof.Machine.execHsred rs1 rs2 s
  | .hsconv rs1 rs2 => Sys2Proof.Machine.execHsconv rs1 rs2 s
  | .hsgemv rs1 rs2 => Sys2Proof.Machine.execHsgemv rs1 rs2 s
  | .hstart rd rs1 rs2 => Sys2Proof.Machine.execHstart rd rs1 rs2 s
  | .hexit rs1 => Sys2Proof.Machine.execHexit rs1 s
  | .hjoin rd rs1 => Sys2Proof.Machine.execHjoin rd rs1 s
  | .falign rs1 => Sys2Proof.Machine.execFalign rs1 s
  | .loopSet rs1 imm => Sys2Proof.Machine.execLoopSet rs1 imm s
  | .loopClr => Sys2Proof.Machine.execLoopClr s
  | .spawn rd rs1 => Sys2Proof.Machine.execSpawn rd rs1 s
  | .tnext rd => Sys2Proof.Machine.execTnext rd s
  | .tarm rs1 rs2 => Sys2Proof.Machine.execTarm rs1 rs2 s
  | .launch rd rs1 rs2 => Sys2Proof.Machine.execLaunch rd rs1 rs2 s
  | .tresume rs1 => Sys2Proof.Machine.execTresume rs1 s
  | .tkill rs1 => Sys2Proof.Machine.execTkill rs1 s
  | .phreg rd rs1 mode => Sys2Proof.Machine.execPhreg rd rs1 mode s
  | .phdereg rd rs1 mode => Sys2Proof.Machine.execPhdereg rd rs1 mode s
  | .pharv rd rs1 wait flush => Sys2Proof.Machine.execPharv rd rs1 wait flush s
  | .phwait rs1 rs2 => Sys2Proof.Machine.execPhwait rs1 rs2 s
  | .phbytes rs1 rs2 => Sys2Proof.Machine.execPhbytes rs1 rs2 s
  | .mbeat rs1 rs2 => Sys2Proof.Machine.execMbeat rs1 rs2 s
  | .msend rs1 rs2 => Sys2Proof.Machine.execMsend rs1 rs2 s
  | .mpost rd rs1 => Sys2Proof.Machine.execMpost rd rs1 s
  | .mrecv rd rs1 => Sys2Proof.Machine.execMrecv rd rs1 s
  | .mprobe rd rs1 => Sys2Proof.Machine.execMprobe rd rs1 s
  | .mcancel rd rs1 => Sys2Proof.Machine.execMcancel rd rs1 s
  | .qpush rs1 rs2 => Sys2Proof.Machine.execQpush rs1 rs2 s
  | .qpop rd rs1 => Sys2Proof.Machine.execQpop rd rs1 s
  | .qtrypop rd rs1 => Sys2Proof.Machine.execQtrypop rd rs1 s
  | .qflush rs1 => Sys2Proof.Machine.execQflush rs1 s
  | .evpop rd rs1 => Sys2Proof.Machine.execEvpop rd rs1 s
  | .evwait rd rs1 => Sys2Proof.Machine.execEvwait rd rs1 s
  | .cpmark rs1 => Sys2Proof.Machine.execCpmark rs1 s
  | .cpdump rd rs1 rs2 => Sys2Proof.Machine.execCpdump rd rs1 rs2 s
  | .trace rs1 rs2 => Sys2Proof.Machine.execTrace rs1 rs2 s
  | .vaddVv vd vs1 vs2 mk => Sys2Proof.Machine.execVaddVv vd vs1 vs2 mk s
  | .vsubVv vd vs1 vs2 mk => Sys2Proof.Machine.execVsubVv vd vs1 vs2 mk s
  | .vmulVv vd vs1 vs2 mk => Sys2Proof.Machine.execVmulVv vd vs1 vs2 mk s
  | .vmulhVv vd vs1 vs2 mk => Sys2Proof.Machine.execVmulhVv vd vs1 vs2 mk s
  | .vmulhuVv vd vs1 vs2 mk => Sys2Proof.Machine.execVmulhuVv vd vs1 vs2 mk s
  | .vminVv vd vs1 vs2 mk => Sys2Proof.Machine.execVminVv vd vs1 vs2 mk s
  | .vminuVv vd vs1 vs2 mk => Sys2Proof.Machine.execVminuVv vd vs1 vs2 mk s
  | .vmaxVv vd vs1 vs2 mk => Sys2Proof.Machine.execVmaxVv vd vs1 vs2 mk s
  | .vmaxuVv vd vs1 vs2 mk => Sys2Proof.Machine.execVmaxuVv vd vs1 vs2 mk s
  | .vandVv vd vs1 vs2 mk => Sys2Proof.Machine.execVandVv vd vs1 vs2 mk s
  | .vorVv vd vs1 vs2 mk => Sys2Proof.Machine.execVorVv vd vs1 vs2 mk s
  | .vxorVv vd vs1 vs2 mk => Sys2Proof.Machine.execVxorVv vd vs1 vs2 mk s
  | .vsllVv vd vs1 vs2 mk => Sys2Proof.Machine.execVsllVv vd vs1 vs2 mk s
  | .vsrlVv vd vs1 vs2 mk => Sys2Proof.Machine.execVsrlVv vd vs1 vs2 mk s
  | .vsraVv vd vs1 vs2 mk => Sys2Proof.Machine.execVsraVv vd vs1 vs2 mk s
  | .vmergeVv vd vs1 vs2 mk => Sys2Proof.Machine.execVmergeVv vd vs1 vs2 mk s
  | .vaddVx vd rs1 vs2 mk => Sys2Proof.Machine.execVaddVx vd rs1 vs2 mk s
  | .vsubVx vd rs1 vs2 mk => Sys2Proof.Machine.execVsubVx vd rs1 vs2 mk s
  | .vmulVx vd rs1 vs2 mk => Sys2Proof.Machine.execVmulVx vd rs1 vs2 mk s
  | .vmulhVx vd rs1 vs2 mk => Sys2Proof.Machine.execVmulhVx vd rs1 vs2 mk s
  | .vmulhuVx vd rs1 vs2 mk => Sys2Proof.Machine.execVmulhuVx vd rs1 vs2 mk s
  | .vminVx vd rs1 vs2 mk => Sys2Proof.Machine.execVminVx vd rs1 vs2 mk s
  | .vminuVx vd rs1 vs2 mk => Sys2Proof.Machine.execVminuVx vd rs1 vs2 mk s
  | .vmaxVx vd rs1 vs2 mk => Sys2Proof.Machine.execVmaxVx vd rs1 vs2 mk s
  | .vmaxuVx vd rs1 vs2 mk => Sys2Proof.Machine.execVmaxuVx vd rs1 vs2 mk s
  | .vandVx vd rs1 vs2 mk => Sys2Proof.Machine.execVandVx vd rs1 vs2 mk s
  | .vorVx vd rs1 vs2 mk => Sys2Proof.Machine.execVorVx vd rs1 vs2 mk s
  | .vxorVx vd rs1 vs2 mk => Sys2Proof.Machine.execVxorVx vd rs1 vs2 mk s
  | .vsllVx vd rs1 vs2 mk => Sys2Proof.Machine.execVsllVx vd rs1 vs2 mk s
  | .vsrlVx vd rs1 vs2 mk => Sys2Proof.Machine.execVsrlVx vd rs1 vs2 mk s
  | .vsraVx vd rs1 vs2 mk => Sys2Proof.Machine.execVsraVx vd rs1 vs2 mk s
  | .vmergeVx vd rs1 vs2 mk => Sys2Proof.Machine.execVmergeVx vd rs1 vs2 mk s
  | .vfaddVv vd vs1 vs2 mk => Sys2Proof.Machine.execVfaddVv vd vs1 vs2 mk s
  | .vfsubVv vd vs1 vs2 mk => Sys2Proof.Machine.execVfsubVv vd vs1 vs2 mk s
  | .vfmulVv vd vs1 vs2 mk => Sys2Proof.Machine.execVfmulVv vd vs1 vs2 mk s
  | .vfdivVv vd vs1 vs2 mk => Sys2Proof.Machine.execVfdivVv vd vs1 vs2 mk s
  | .vfminVv vd vs1 vs2 mk => Sys2Proof.Machine.execVfminVv vd vs1 vs2 mk s
  | .vfmaxVv vd vs1 vs2 mk => Sys2Proof.Machine.execVfmaxVv vd vs1 vs2 mk s
  | .vfmaVv vd vs1 vs2 mk => Sys2Proof.Machine.execVfmaVv vd vs1 vs2 mk s
  | .vfmsVv vd vs1 vs2 mk => Sys2Proof.Machine.execVfmsVv vd vs1 vs2 mk s
  | .vfnmaVv vd vs1 vs2 mk => Sys2Proof.Machine.execVfnmaVv vd vs1 vs2 mk s
  | .vfsqrt vd vs2 mk => Sys2Proof.Machine.execVfsqrt vd vs2 mk s
  | .vfclass vd vs2 mk => Sys2Proof.Machine.execVfclass vd vs2 mk s
  | .vfaddVf vd rs1 vs2 mk => Sys2Proof.Machine.execVfaddVf vd rs1 vs2 mk s
  | .vfsubVf vd rs1 vs2 mk => Sys2Proof.Machine.execVfsubVf vd rs1 vs2 mk s
  | .vfmulVf vd rs1 vs2 mk => Sys2Proof.Machine.execVfmulVf vd rs1 vs2 mk s
  | .vfdivVf vd rs1 vs2 mk => Sys2Proof.Machine.execVfdivVf vd rs1 vs2 mk s
  | .vfminVf vd rs1 vs2 mk => Sys2Proof.Machine.execVfminVf vd rs1 vs2 mk s
  | .vfmaxVf vd rs1 vs2 mk => Sys2Proof.Machine.execVfmaxVf vd rs1 vs2 mk s
  | .vfmaVf vd rs1 vs2 mk => Sys2Proof.Machine.execVfmaVf vd rs1 vs2 mk s
  | .vfmsVf vd rs1 vs2 mk => Sys2Proof.Machine.execVfmsVf vd rs1 vs2 mk s
  | .vfnmaVf vd rs1 vs2 mk => Sys2Proof.Machine.execVfnmaVf vd rs1 vs2 mk s
  | .vcmpEq vd vs1 vs2 mk => Sys2Proof.Machine.execVcmpEq vd vs1 vs2 mk s
  | .vcmpNe vd vs1 vs2 mk => Sys2Proof.Machine.execVcmpNe vd vs1 vs2 mk s
  | .vcmpLt vd vs1 vs2 mk => Sys2Proof.Machine.execVcmpLt vd vs1 vs2 mk s
  | .vcmpLtu vd vs1 vs2 mk => Sys2Proof.Machine.execVcmpLtu vd vs1 vs2 mk s
  | .vcmpLe vd vs1 vs2 mk => Sys2Proof.Machine.execVcmpLe vd vs1 vs2 mk s
  | .vcmpLeu vd vs1 vs2 mk => Sys2Proof.Machine.execVcmpLeu vd vs1 vs2 mk s
  | .vfcmpEq vd vs1 vs2 mk => Sys2Proof.Machine.execVfcmpEq vd vs1 vs2 mk s
  | .vfcmpLt vd vs1 vs2 mk => Sys2Proof.Machine.execVfcmpLt vd vs1 vs2 mk s
  | .vfcmpLe vd vs1 vs2 mk => Sys2Proof.Machine.execVfcmpLe vd vs1 vs2 mk s
  | .vfcmpUn vd vs1 vs2 mk => Sys2Proof.Machine.execVfcmpUn vd vs1 vs2 mk s
  | .vmand vd vs1 vs2 mk => Sys2Proof.Machine.execVmand vd vs1 vs2 mk s
  | .vmor vd vs1 vs2 mk => Sys2Proof.Machine.execVmor vd vs1 vs2 mk s
  | .vmxor vd vs1 vs2 mk => Sys2Proof.Machine.execVmxor vd vs1 vs2 mk s
  | .vmnot vd vs2 mk => Sys2Proof.Machine.execVmnot vd vs2 mk s
  | .vpopc rd vs2 mk => Sys2Proof.Machine.execVpopc rd vs2 mk s
  | .vfirst rd vs2 mk => Sys2Proof.Machine.execVfirst rd vs2 mk s
  | .vperm vd vs1 vs2 mk => Sys2Proof.Machine.execVperm vd vs1 vs2 mk s
  | .vslideup vd rs1 vs2 mk => Sys2Proof.Machine.execVslideup vd rs1 vs2 mk s
  | .vslidedn vd rs1 vs2 mk => Sys2Proof.Machine.execVslidedn vd rs1 vs2 mk s
  | .vbcast vd rs1 mk => Sys2Proof.Machine.execVbcast vd rs1 mk s
  | .vcompress vd vs1 vs2 mk => Sys2Proof.Machine.execVcompress vd vs1 vs2 mk s
  | .vid vd mk => Sys2Proof.Machine.execVid vd mk s
  | .vclmul vd vs1 vs2 mk => Sys2Proof.Machine.execVclmul vd vs1 vs2 mk s
  | .vclmulh vd vs1 vs2 mk => Sys2Proof.Machine.execVclmulh vd vs1 vs2 mk s
  | .vcvt vd code vs2 mk => Sys2Proof.Machine.execVcvt vd code vs2 mk s
  | .vamax vd vs2 mk => Sys2Proof.Machine.execVamax vd vs2 mk s
  | .vscale vd fmt vs2 mk => Sys2Proof.Machine.execVscale vd fmt vs2 mk s
  | .vqlns vd vs1 vs2 mk => Sys2Proof.Machine.execVqlns vd vs1 vs2 mk s
  | .vdqlns vd vs1 vs2 mk => Sys2Proof.Machine.execVdqlns vd vs1 vs2 mk s
  | .vqfp8 vd vs1 vs2 mk => Sys2Proof.Machine.execVqfp8 vd vs1 vs2 mk s
  | .vdqfp8 vd vs1 vs2 mk => Sys2Proof.Machine.execVdqfp8 vd vs1 vs2 mk s
  | .vqsplit vd rs1 vs2 mk => Sys2Proof.Machine.execVqsplit vd rs1 vs2 mk s
  | .vredsum vd vs1 vs2 mk => Sys2Proof.Machine.execVredsum vd vs1 vs2 mk s
  | .vredmax vd vs1 vs2 mk => Sys2Proof.Machine.execVredmax vd vs1 vs2 mk s
  | .vredmin vd vs1 vs2 mk => Sys2Proof.Machine.execVredmin vd vs1 vs2 mk s
  | .vredmaxu vd vs1 vs2 mk => Sys2Proof.Machine.execVredmaxu vd vs1 vs2 mk s
  | .vredminu vd vs1 vs2 mk => Sys2Proof.Machine.execVredminu vd vs1 vs2 mk s
  | .vfredsum vd vs1 vs2 mk => Sys2Proof.Machine.execVfredsum vd vs1 vs2 mk s
  | .vfredmax vd vs1 vs2 mk => Sys2Proof.Machine.execVfredmax vd vs1 vs2 mk s
  | .vfredmin vd vs1 vs2 mk => Sys2Proof.Machine.execVfredmin vd vs1 vs2 mk s
  | .vld vd rs1 mk => Sys2Proof.Machine.execVld vd rs1 mk s
  | .vldSt vd rs1 rs2 mk => Sys2Proof.Machine.execVldSt vd rs1 rs2 mk s
  | .vldIx vd rs1 vs2 mk => Sys2Proof.Machine.execVldIx vd rs1 vs2 mk s
  | .vldBc vd rs1 mk => Sys2Proof.Machine.execVldBc vd rs1 mk s
  | .vst vs3 rs1 mk => Sys2Proof.Machine.execVst vs3 rs1 mk s
  | .vstSt vs3 rs1 rs2 mk => Sys2Proof.Machine.execVstSt vs3 rs1 rs2 mk s
  | .vstIx vs3 rs1 vs2 mk => Sys2Proof.Machine.execVstIx vs3 rs1 vs2 mk s
  | .vstBc vs3 rs1 mk => Sys2Proof.Machine.execVstBc vs3 rs1 mk s
  | .vmovi vd vs2 => Sys2Proof.Machine.execVmovi vd vs2 s
  | .vmoviw vs3 vs2 => Sys2Proof.Machine.execVmoviw vs3 vs2 s
  | .vrdx vd rs1 => Sys2Proof.Machine.execVrdx vd rs1 s
  | .vwrx vs3 rs1 => Sys2Proof.Machine.execVwrx vs3 rs1 s
  | .vsetl rd rs1 etype => Sys2Proof.Machine.execVsetl rd rs1 etype s
  | .vextract rd rs1 vs2 => Sys2Proof.Machine.execVextract rd rs1 vs2 s
  | .vinsert vd rs1 rs2 => Sys2Proof.Machine.execVinsert vd rs1 rs2 s
  | .mxcfg rs1 target => Sys2Proof.Machine.execMxcfg rs1 target s
  | .mxgrant rs1 => Sys2Proof.Machine.execMxgrant rs1 s
  | .mxld buf rs1 target => Sys2Proof.Machine.execMxld buf rs1 target s
  | .mxmac acc bufA bufB target => Sys2Proof.Machine.execMxmac acc bufA bufB target s
  | .mxmacs acc bufA bufB target => Sys2Proof.Machine.execMxmacs acc bufA bufB target s
  | .mxst acc rs1 target => Sys2Proof.Machine.execMxst acc rs1 target s
  | .mxzero acc target => Sys2Proof.Machine.execMxzero acc target s
  | .mxdup rs1 target => Sys2Proof.Machine.execMxdup rs1 target s
  | .mxsync target => Sys2Proof.Machine.execMxsync target s
  | .integerArithmetic op => Sys2Proof.Machine.execIntegerArithmetic op s
  | .branch op rs1 rs2 imm => Sys2Proof.Machine.execBranch op rs1 rs2 imm s
  | .jump op => Sys2Proof.Machine.execJump op s
  | .fpArithmetic op => Sys2Proof.Machine.execFpArithmetic op s
  | .xret machine => Sys2Proof.Machine.execXret machine s
  | .illegalInstructionWord w_ => Sys2Proof.Machine.execIllegalInstructionWord w_ s
  | .registerWrite => Sys2Proof.Machine.execRegisterWrite s
  | .qvtypeWrite => Sys2Proof.Machine.execQvtypeWrite s
  | .qvwinWrite => Sys2Proof.Machine.execQvwinWrite s
  | .qvstatAccess => Sys2Proof.Machine.execQvstatAccess s
  | .cspartWrite => Sys2Proof.Machine.execCspartWrite s
  | .cspartChangeEnd => Sys2Proof.Machine.execCspartChangeEnd s
  | .qmquotaWrite => Sys2Proof.Machine.execQmquotaWrite s
  | .quotaReachSlice => Sys2Proof.Machine.execQuotaReachSlice s
  | .doorbell => Sys2Proof.Machine.execDoorbell s
  | .preempt => Sys2Proof.Machine.execPreempt s
  | .dbgHalt => Sys2Proof.Machine.execDbgHalt s
  | .dbgFhalt => Sys2Proof.Machine.execDbgFhalt s
  | .dbgResume => Sys2Proof.Machine.execDbgResume s
  | .dbgStep => Sys2Proof.Machine.execDbgStep s
  | .dbgRead => Sys2Proof.Machine.execDbgRead s
  | .dbgWrite => Sys2Proof.Machine.execDbgWrite s
  | .dbgDump => Sys2Proof.Machine.execDbgDump s
  | .dbgAttach => Sys2Proof.Machine.execDbgAttach s
  | .dbgDetach => Sys2Proof.Machine.execDbgDetach s
  | .ttEnableWrite => Sys2Proof.Machine.execTtEnableWrite s
  | .sampctlWrite => Sys2Proof.Machine.execSampctlWrite s
  | .sessionWrite => Sys2Proof.Machine.execSessionWrite s
  | .hostBar2Request => Sys2Proof.Machine.execHostBar2Request s
  | .hostCxlMemAccess => Sys2Proof.Machine.execHostCxlMemAccess s
  | .contextReinsertion => Sys2Proof.Machine.execContextReinsertion s
  | .storeBufferEntryPerform => Sys2Proof.Machine.execStoreBufferEntryPerform s
  | .laneGroupGrant => Sys2Proof.Machine.execLaneGroupGrant s
  | .homeRequestArrival => Sys2Proof.Machine.execHomeRequestArrival s
  | .missBufferSlotEntry => Sys2Proof.Machine.execMissBufferSlotEntry s
  | .writebackMerge => Sys2Proof.Machine.execWritebackMerge s
  | .remoteScratchpadAccess => Sys2Proof.Machine.execRemoteScratchpadAccess s
  | .accSendArrival => Sys2Proof.Machine.execAccSendArrival s
  | .accApply => Sys2Proof.Machine.execAccApply s
  | .accRefusalReturn => Sys2Proof.Machine.execAccRefusalReturn s
  | .accAcceptReturn => Sys2Proof.Machine.execAccAcceptReturn s
  | .residualTimerFlush => Sys2Proof.Machine.execResidualTimerFlush s
  | .quotaWindowRefill => Sys2Proof.Machine.execQuotaWindowRefill s
  | .tileHomeRequest => Sys2Proof.Machine.execTileHomeRequest s
  | .tileForwardStart => Sys2Proof.Machine.execTileForwardStart s
  | .tilePushArrival => Sys2Proof.Machine.execTilePushArrival s
  | .copyComplete => Sys2Proof.Machine.execCopyComplete s
  | .phaserBytesDecrement => Sys2Proof.Machine.execPhaserBytesDecrement s
  | .copyFaultEnd => Sys2Proof.Machine.execCopyFaultEnd s
  | .stackCommandComplete => Sys2Proof.Machine.execStackCommandComplete s
  | .mxConfigQuery => Sys2Proof.Machine.execMxConfigQuery s
  | .mxCommandArrival => Sys2Proof.Machine.execMxCommandArrival s
  | .mxCommandStart => Sys2Proof.Machine.execMxCommandStart s
  | .mxCommandComplete => Sys2Proof.Machine.execMxCommandComplete s
  | .mxCommandFault => Sys2Proof.Machine.execMxCommandFault s
  | .packetArrival => Sys2Proof.Machine.execPacketArrival s
  | .shuttleBatchTimeout => Sys2Proof.Machine.execShuttleBatchTimeout s
  | .shuttleBatchArrival => Sys2Proof.Machine.execShuttleBatchArrival s
  | .launchSlotTake => Sys2Proof.Machine.execLaunchSlotTake s
  | .launchStart => Sys2Proof.Machine.execLaunchStart s
  | .taskDispatch => Sys2Proof.Machine.execTaskDispatch s
  | .steal => Sys2Proof.Machine.execSteal s
  | .counterDecrement => Sys2Proof.Machine.execCounterDecrement s
  | .priorityDisplacement => Sys2Proof.Machine.execPriorityDisplacement s
  | .stagingAdmit => Sys2Proof.Machine.execStagingAdmit s
  | .stagingEntryComplete => Sys2Proof.Machine.execStagingEntryComplete s
  | .stagingDeadline => Sys2Proof.Machine.execStagingDeadline s
  | .stgreqAdmitTimeout => Sys2Proof.Machine.execStgreqAdmitTimeout s
  | .contextSave => Sys2Proof.Machine.execContextSave s
  | .contextRestore => Sys2Proof.Machine.execContextRestore s
  | .park => Sys2Proof.Machine.execPark s
  | .deferredPark => Sys2Proof.Machine.execDeferredPark s
  | .wrsTimeout => Sys2Proof.Machine.execWrsTimeout s
  | .falignBudgetExpiry => Sys2Proof.Machine.execFalignBudgetExpiry s
  | .requestTimeout => Sys2Proof.Machine.execRequestTimeout s
  | .snoopHostTimeout => Sys2Proof.Machine.execSnoopHostTimeout s
  | .ttSlotFire => Sys2Proof.Machine.execTtSlotFire s
  | .holdTimeout => Sys2Proof.Machine.execHoldTimeout s
  | .samplingPulse => Sys2Proof.Machine.execSamplingPulse s
  | .compareEntry => Sys2Proof.Machine.execCompareEntry s
  | .sealedCopyEnd => Sys2Proof.Machine.execSealedCopyEnd s
  | .clusterPowerGating => Sys2Proof.Machine.execClusterPowerGating s
  | .dieClockStep => Sys2Proof.Machine.execDieClockStep s
  | .dieThermalStop => Sys2Proof.Machine.execDieThermalStop s
  | .securityAlarm => Sys2Proof.Machine.execSecurityAlarm s
  | .ptpMasterLoss => Sys2Proof.Machine.execPtpMasterLoss s
  | .moduleReset => Sys2Proof.Machine.execModuleReset s
  | .powerGatingWake => Sys2Proof.Machine.execPowerGatingWake s
  | .tdiLock => Sys2Proof.Machine.execTdiLock s
  | .ieee1588Discipline => Sys2Proof.Machine.execIeee1588Discipline s

end Sys2Proof.Machine
end

