-- ==== Sys2Proof/Machine/Issue.lean ====
section
/-! DEFINITION. Whose turn it is, and the fetch of the instruction that a context issues (R97, R98, R103, R105). One step of the machine
is one turn: an instruction of a context, or one event of the module. -/

namespace Sys2Proof.Machine

/-- What a turn comes to. -/
inductive Pick
  /-- the context `cur` issues the instruction at its pc -/
  | issue
  /-- it issues it and leaves the rotation until its reply, where the instruction may (R98) -/
  | away
  /-- the instruction that had left the rotation retires -/
  | retire (i : Instr)
  /-- an event row of the table happens, with the operands in `ev` -/
  | event (i : Instr)
  /-- nothing further: the turn was a replacement, a halt, or a slot that stays empty -/
  | none
  deriving DecidableEq, Repr

/-- Operands that name one unit. -/
def evA (a : Nat) : EventArgs := { EventArgs.blank with a := a }
def evAB (a b : Nat) : EventArgs := { EventArgs.blank with a := a, b := b }

/-- Whether a context halts for a debugger in its slot (R118, R376): at a boundary, or with its wait pending. -/
def Ctx.haltsHere (c : Ctx) : Bool := match c.status with
  | .running => c.boundary && c.stop.isNone
  | .waiting => !c.saveNow && (c.haltReq || c.stepReq) && c.packet.isNone && (c.wait.map fun w => w.kind) != some .reply
  | _ => false

/-- The instruction of a context that has left the rotation, as it retires: its request is answered and leaves the slices. The vector engine's
answer is consumed as the instruction retires (`engineReply`). -/
def State.retireAway (s : State) (cid : Nat) (i : Instr) : State × Pick :=
  (if engineReplies i then s else (s.leaveSlots cid).modCtx cid fun c => { c with request := none }, .retire i)

/-- What a waiting context's request comes to next: it arrives at its home, waits for a slot there (R181), or is answered. -/
def State.requestTurn (s : State) (cid : Nat) (home : Option Nat) : State × Pick :=
  match home with
  | some sl =>
    if s.inMissBuffer cid then ({ s with ev := evA sl }, .event .missBufferSlotEntry)
    else if s.atHome cid then (s, .event .contextReinsertion)
    else if (s.enterSlot sl ⟨clusterOf cid, cid, none, false⟩).isSome then
      ({ s with ev := { evA cid with flag := true } }, .event .homeRequestArrival)
    else ({ s with ev := evA sl }, .event .missBufferSlotEntry)
  | none => if s.replied cid then (s, .event .contextReinsertion) else (s, .none)

/-- What a context does in its slot: it issues or retires, it is saved or halts, its wait ends, or its slot stays empty. -/
def State.slot (s : State) (cid : Nat) : State × Pick :=
  let c := s.ctx cid
  let s := { s with cur := cid }
  if (s.die (dieOf cid)).stopped then (s, .none)
  else match c.status with
    | .running =>
      if c.boundary then
        if c.stop.isSome then ({ s with ev := evA cid }, .event .contextSave)
        else (s.haltNow cid, .none)
      else match c.request with
        | some (.access i _ _) => s.retireAway cid i
        | _ => (s, .issue)
    | .waiting =>
      let s := { s with ev := evA cid }
      if c.saveNow then (s, .event .contextSave)
      else if c.haltsHere then (s.haltNow cid, .none)
      else if c.wake.isSome || ((c.wait.map fun w => w.kind) == some .falign && s.aligned cid) then (s, .event .contextReinsertion)
      else match c.request with
        | some (.access _ _ home) => s.requestTurn cid home
        | some (.room _ _) => (s, if s.replied cid then .event .contextReinsertion else .none)
        | some (.packet _) => (s, .event .packetArrival)
        | some (.mxQuery _ _ _) => (s, .event .mxConfigQuery)
        | some (.mxCmd g _ q) => (s, if mxStays (s.cluster g).mx q then .none else .event .mxCommandArrival)
        | some (.mute _ _) => (s, .none)
        | none => (s, .none)
    | .frozen =>
      if c.stop.any (·.kill) then ({ s with ev := evA cid }, .event .contextSave)
      else (match c.held with
       | some h => if h.parking then ({ s with ev := evA cid }, .event .park) else (s, .none)
       | none => (s, .none))
    | _ => (s, .none)

/-- The slots of a core in the order of the rotation, from its next slot (R97). -/
def rotation (turn : Nat) : List Nat := (List.range 12).map fun i => (turn + i) % 12

/-- Whether something happens in a context's slot: one that halts there leaves nothing further to do. -/
def State.acts (s : State) (cid : Nat) : Bool := (s.slot cid).2 ≠ .none || !(s.die (dieOf cid)).stopped && (s.ctx cid).haltsHere

/-- Whether a context waits for a reply, which comes when it comes: its slot stays empty until then (R97, R98). -/
def Ctx.awaits (c : Ctx) : Bool := c.status = .waiting && c.wake.isNone && c.request.isSome

/-- The next slot of core `k` in which something happens. -/
def State.nextSlot (s : State) (k : Nat) : Option Nat := (rotation (s.core k).turn).find? fun j => s.acts (k * 12 + j)

/-- Whether the rotation of its core can reach a context next (R97): no slot before its own is due. A slot whose context awaits a reply is not. -/
def State.reaches (s : State) (cid : Nat) : Bool :=
  let k := coreOf cid
  s.acts cid && ((rotation (s.core k).turn).takeWhile (· ≠ ctxNum cid)).all fun j => !s.acts (k * 12 + j) || (s.ctx (k * 12 + j)).awaits

/-- The stored or posted entry that goes on next, the current core's first. -/
def State.entryNext (s : State) (n : Core → Nat) (may : Nat → Nat → Bool) : Option (Nat × Nat) :=
  (coreOf s.cur :: s.cores.map (·.1)).findSome? fun k => ((List.range (n (s.core k))).find? (may k)).map (k, ·)

/-- The engine work of a cluster that can go on next: a copy, or a matrix command to complete or to start. -/
def State.engineNext (s : State) (g : Nat) : Option (Nat × Instr) :=
  let k := s.cluster g
  let copy := (List.range k.copies.length).findSome? fun i => match k.copies[i]? with
    | some c =>
      if !s.copyMay g i || s.engineHeld g (c.srcPages ++ c.dstPages) || s.sealedBehind c then none
      else some (i, if c.sealedBy.isSome then Instr.sealedCopyEnd else .copyComplete)
    | none => none
  copy.or (if (s.die (dieOfCluster g)).stopped then none else (List.range k.mx.queue.length).findSome? fun i => match k.mx.queue[i]? with
    | some q => if q.op.unit = some false && s.engineHeld g q.pages then none
                else if q.started then some (i, .mxCommandComplete) else if s.mxReady g i then some (i, .mxCommandStart) else none
    | none => none)

/-- The barrel of core `k` (R97): its next slot in which something happens, and what does. -/
def State.barrel (s : State) (k : Nat) : Option (State × Pick) :=
  (s.nextSlot k).map fun j => (s.modCore k fun c => { c with turn := (j + 1) % 12 }).slot (k * 12 + j)

/-- The barrel of another core in which something happens. -/
def State.elsewhere (s : State) : Option (State × Pick) := (s.ctxs.map fun p => coreOf p.1).findSome? s.barrel

/-- A cluster and a lane group of it that is free and can grant a portion (R138), the current core's cluster first. -/
def State.grantable (s : State) : Option (Nat × Nat) :=
  let g := clusterOf s.cur
  let groups (g : Nat) : Option (Nat × Nat) :=
    ((List.range 8).find? fun j => s.groupFree g j && (List.range 4).any fun m => (s.readyPortion (g * 4 + m) j).isSome).map (g, ·)
  (groups g).or ((s.cores.filter fun p => p.2.vq ≠ []).findSome? fun p => groups (p.1 / 4))

/-- A shadow whose batch is on its way (R355). -/
def State.batchAway (s : State) : Option (Nat × Nat) :=
  s.clusters.findSome? fun p => (p.2.shadows.findIdx? fun h => h.sent ≠ 0).map (p.1, ·)

/-- With no context of the core to act, the module's units go on with what they can do, its own core and cluster first, and then the contexts of the
other cores. -/
def State.background (s : State) : State × Pick :=
  if let some (k, i) := s.entryNext (fun c => c.storeBuffer.length) s.mayPerform then ({ s with ev := evAB k i }, .event .storeBufferEntryPerform)
  else if let some (k, i) := s.entryNext (fun c => c.posted.length) s.mayLand then ({ s with ev := evAB k i }, .event .remoteScratchpadAccess)
  else if let some (g, i, j) := (clusterOf s.cur :: s.clusters.map (·.1)).findSome? fun g => (s.engineNext g).map (g, ·) then
    ({ s with ev := evAB g i }, .event j)
  else if s.answers ≠ [] then
    ({ s with ev := evA 0 }, .event (if (s.answers.head?.map (·.1)).getD true then .accAcceptReturn else .accRefusalReturn))
  else if let some i := (List.range s.sends.length).find? s.sendMay then ({ s with ev := evA i }, .event .accSendArrival)
  else if let some q := s.slices.find? fun q => q.2.held.any (fun r => r.fill.isSome || r.elem) then
    ({ s with ev := evA q.1 }, .event .missBufferSlotEntry)
  else match s.elsewhere, s.batchAway with
    | some r, _ => r
    | none, some (g, i) => ({ s with ev := evAB g i }, .event .shuttleBatchArrival)
    | none, none => (s, .none)

/-- The rate of the timebase against its reference, in millionths (R12, R393): a slew of at most 100, and within 5 while it runs free. -/
def HostSide.rate (h : HostSide) : Int := if h.freeRun then max (-5) (min 5 h.ppm) else max (-100) (min 100 h.ppm)

/-- Both clocks go on: `ns` of the reference, which the timebase counts at its own rate, and `cycles` of the arithmetic clock (R12, R13). -/
def State.pass (s : State) (ns cycles : Nat) : State :=
  let d := s.host.drift + s.host.rate * ns
  { s with now := s.now + ((ns : Int) + d / 1000000).toNat, arith := s.arith + cycles, host := { s.host with drift := d % 1000000 } }

/-- The clocks go on between two turns by times the spec does not fix (R401, log entry 5). -/
def State.tickClocks (s : State) : State :=
  let (k, s) := s.tick
  s.pass (Config.freeNs k) (Config.freeCycles k)

/-- A turn that the schedule gives to a context: it acts where the rotation of its core reaches it next (R97). -/
def State.turnOf (s : State) (cid : Nat) : State × Pick :=
  if s.reaches cid then (s.modCore (coreOf cid) fun c => { c with turn := (ctxNum cid + 1) % 12 }).slot cid else (s, .none)

/-- An event that the schedule names. The end of a context's wait comes in the context's own slot, in which its instruction retires (R98); only
the reply to a request comes at any time. -/
def State.eventTurn (s : State) (i : Instr) (a : EventArgs) : State × Pick :=
  let c := s.ctx a.a
  let inSlot : Bool := match i with
    | .contextReinsertion => (match c.request with
      | some (.access _ _ _) => false
      | _ => true)
    | .packetArrival | .mxConfigQuery | .mxCommandArrival => true
    | _ => false
  if inSlot then (match s.turnOf a.a with
    | (t, .event j) => if j = i then (t, .event j) else (s, .none)
    | _ => (s, .none))
  else ({ s with ev := a }, .event i)

/-- The turn that comes next: the schedule's head, or the barrel of the current core. -/
def State.select (s : State) : State × Pick :=
  match s.agenda with
  | t :: rest =>
    let s := ({ s with agenda := rest } : State).pass t.ns t.cycles
    (match t.actor with
     | .ctx cid => s.turnOf cid
     | .ctxAway cid => (match s.turnOf cid with
       | (t, .issue) => (t, .away)
       | r => r)
     | .event i a => s.eventTurn i a
     | .evictI k line => (s.modCore k fun c => { c with icache := tdel c.icache line }, .none)
     | .evictTlb g va => (s.modCluster g fun c => { c with tlb := c.tlb.filter fun e => e.va ≠ va }, .none))
  | [] =>
    let s := s.tickClocks
    match s.grantable with
    | some (g, j) => ({ s with ev := evAB g j }, .event .laneGroupGrant)
    | none => (s.barrel (coreOf s.cur)).getD s.background

/-- The bytes at the issuing context's pc as its fetch returns them: from the core's L1 I-cache where it holds the line, else read
through the L2 and cached; scratchpad and I/O are never cached (R34, R37, R103, R179). -/
def State.fetchBytes (s : State) (x : Xlat) : State × BitVec 32 :=
  let k := coreOf s.cur
  let line := x.pa / lineBytes
  let o := x.pa % lineBytes
  match tfind (s.core k).icache line with
  | some d => (s, BitVec.ofNat 32 (lineRead d o 4))
  | none =>
    if x.mt = .scratch || x.mt = .io then
      let (s, v) := s.readMem (clusterOf s.cur) s.me.tid s.me.qtid x 4
      (s, BitVec.ofNat 32 v)
    else
      let (s, v) := s.readMem (clusterOf s.cur) s.me.tid s.me.qtid { x with pa := line * lineBytes } lineBytes
      let s := s.modCore k fun c => { c with icache := tput c.icache line (BitVec.ofNat 1024 v) }
      (s, BitVec.ofNat 32 (v >>> (8 * o)))

/-- Fetch and decode the instruction at the issuing context's pc (R78: an execute breakpoint, then the fetch's own faults). -/
def State.fetch (s : State) : Except Stop (State × Instr) :=
  let c := s.me
  match c.execHit with
  | some b => if bit b.ctl 7 then .error .halt else trap 3 c.pc
  | none =>
    let v : View := ⟨clusterOf s.cur, c.satp, c.priv, c.sum, c.mxr, some s.cur⟩
    match s.accessV v .fetch needX .fetch c.pc.toNat 4 with
    | .error e => .error e
    | .ok (s, x) =>
      if regionOf x.pa = .cfg then trap 1 c.pc
      else if !(s.selvedgeOk (clusterOf s.cur) .fetch x.pa 4) then trap 25 (word x.pa)
      -- a change of SPWAYS holds the cluster's accesses, but not what the I-cache holds (R178)
      else if (s.cluster (clusterOf s.cur)).busy && (tfind (s.core (coreOf s.cur)).icache (x.pa / lineBytes)).isNone then .error (.left s)
      else if s.silent x.pa then s.mute x.pa false
      else
        let (s, w) := s.fetchBytes x
        .ok (s, decodeWord w)

/-- Why an instruction leaves the rotation (R98, R119): for a reply, as a load or as an AMO does; for its earlier events, as a fence does; or for
room in the store buffer. -/
inductive Away | load | amo | fence | full
  deriving DecidableEq, Repr

/-- The instructions that R98 names, but for those whose meaning itself leaves the rotation: blocking waits, FALIGN, MSEND and the matrix
commands. Each row's forced halt is R119's. -/
def awayOf (i : Instr) : Option Away := match i with
  | .load _ _ _ _ | .lr _ _ _ _ _ | .ldo _ _ _ _ _ | .integerDivide _ _ _ _ _ => some .load
  | .csrAccess _ _ _ _ csr => if csr = 0x805 then some .load else none
  | .vpopc _ _ _ | .vfirst _ _ _ | .vsetl _ _ _ | .vextract _ _ _ => some .load
  | .tstat _ _ | .mprobe _ _ | .spawn _ _ | .cpdump _ _ _ | .tacq _ _ _ => some .load
  | .sc _ _ _ _ _ _ | .amo _ _ _ _ _ _ _ | .amos _ _ _ _ _ => some .amo
  | .tdecl _ | .tfree _ | .bhset _ _ | .tarm _ _ | .phreg _ _ _ | .phdereg _ _ _ | .phbytes _ _ | .pharv _ _ _ _ => some .amo
  | .mpost _ _ | .mcancel _ _ | .evpop _ _ | .pgmig _ _ _ => some .amo
  | .fence _ _ _ _ _ | .fenceTso _ _ | .fenceI _ _ _ | .fenceS _ _ _ | .flres _ _ | .qsfence _ _ _ _ | .sfenceVma _ _ => some .fence
  | .qflush _ | .qpush _ _ | .hstart _ _ _ | .hexit _ | .launch _ _ _ | .tresume _ | .tkill _ => some .fence
  | .sto _ _ _ op _ => some (if op = 0 then .full else .fence)
  | .store _ _ _ _ | .wbr _ _ | .invr _ _ | .wbinvr _ _ | .disct _ | .trel _ _ | .tfwd _ _ _ | .cpstep _ | .cpmark _ | .trace _ _ => some .full
  | _ => none

/-- The address of the memory request that such an instruction makes, which a tracker times (R196). -/
def requestAt (i : Instr) (s : State) : Option Word := match i with
  | .load _ _ rs1 imm => some (s.xr rs1 + imm12 imm)
  | .lr _ _ _ _ rs1 | .ldo _ rs1 _ _ _ | .sc _ _ _ _ rs1 _ | .amo _ _ _ _ _ rs1 _ | .amos _ rs1 _ _ _ | .tdecl rs1 | .tfree rs1 | .tacq rs1 _ _
  | .tstat _ rs1 | .phreg _ rs1 _ | .phdereg _ rs1 _ | .phbytes rs1 _ | .pharv _ rs1 _ _ | .tarm rs1 _ | .pgmig _ rs1 _ => some (s.xr rs1)
  | _ => none

/-- Whether the instruction that the current context issues may leave the rotation (R98). -/
def State.mayGo (s : State) (i : Instr) : Bool := match awayOf i with
  | none => false
  | some .fence => s.owes s.cur
  | some .full => decide (Config.storeBufferSize ≤ (s.core (coreOf s.cur)).storeBuffer.length)
  | some _ => true

/-- Whether an instruction that waits as an AMO does waits for earlier events before it acts (R98): a forced halt that finds it in that wait has its
pc rewind (R119). -/
def waitsFirst (i : Instr) : Bool := match i with
  | .sc _ _ rl _ _ _ | .amo _ _ _ rl _ _ _ => rl
  | .amos _ _ _ _ _ | .bhset _ _ | .tarm _ _ | .pharv _ _ _ _ | .pgmig _ _ _ => true
  | _ => false

/-- Whether what the instruction comes to, `v`, is its completion: in sequence, or for HEXIT the end of its context or its wait for helpers, and for
PHARV.W its wait for the phase. An exception is taken at its issue. -/
def State.completes (s v : State) (i : Instr) : Bool :=
  (match i with
   | .hexit _ => v.me.status = .idle || v.me.status = .reserved || (v.me.wait.map fun w => w.kind) == some .hexit
   | .pharv _ _ true _ => (v.me.wait.map fun w => w.kind) == some .pharvW
   | _ => false) ||
  v.me.status = .running && v.me.pc == s.me.advance.pc && v.me.priv = s.me.priv && v.me.sepc == s.me.sepc && v.me.mepc == s.me.mepc &&
  v.me.scause == s.me.scause && v.me.mcause == s.me.mcause

/-- Whether an instruction that makes a request is a load that its cluster's L2 can serve; every other one acts at its object's home. -/
def l2Serves (i : Instr) : Bool := match i with
  | .load _ _ _ _ | .lr _ _ _ _ _ | .ldo _ _ _ _ _ => true
  | _ => false

/-- The request of an instruction that leaves the rotation: the physical address of one that leaves the die, which a tracker times (R196), and the
home slice that it goes to where its cluster's L2 does not serve it. -/
def State.requestOf (s : State) (i : Instr) : Request :=
  match (requestAt i s).map fun va => s.xlate (s.view s.cur) needR va.toNat with
  | some (.ok (_, x)) =>
    let g := clusterOf s.cur
    let hit := l2Serves i && s.cached x && s.l2Has g x.pa 1
    .access i (if leavesDie g x.pa && !hit then some x.pa else none) (if isHbm x.pa && s.cached x && !hit then some x.slice else none)
  | _ => .access i none none

/-- Whether the memory request of an instruction finds every slot of its home slice in use (R181): it then waits out of the rotation. -/
def State.slotless (s : State) (i : Instr) : Bool := match awayOf i, s.requestOf i with
  | some _, .access _ _ (some sl) => !s.slotFor (s.slice sl) ⟨clusterOf s.cur, s.cur, none, false⟩
  | _, _ => false

/-- An instruction leaves the rotation, where `v` is what it would come to. -/
def State.leaveTurn (s : State) (i : Instr) (v : State) : Host.Outcome State Fault Refusal :=
  let s := (s.enqueueReply i).getD s
  let type := match i with
    | .vsetl _ _ _ => v.me.qvtype
    | _ => s.me.qvtype
  .next ((s.leave .reply (word (bnat (awayOf i == some .amo))) (word (bnat (waitsFirst i))) 0 Xlat.none none).modCtx s.cur fun c =>
    { c with request := some (s.requestOf i), qvtype := type })

/-- An instruction leaves the rotation instead of completing, where R98 lets it: nothing of it has happened but a VSETL's change of qvtype, which a
forced halt leaves standing (R156), and the entry in the vector queue of an instruction that the engine answers, which keeps its place there (R135).
A vector load retires, but its element reads stay at their slices (R204). `r` is what the instruction comes to if it completes now. -/
def State.goAway (s : State) (i : Instr) (r : Host.Outcome State Fault Refusal) : Host.Outcome State Fault Refusal :=
  match r with
  | .next v =>
    if s.mayGo i && s.completes v i then s.leaveTurn i v
    else if s.completes v i then .next (v.standElems (s.elemSlices i))
    else r
  | r => r

/-- Whether an instruction performs entries of the store buffer that a change of SPWAYS holds (R178): in a wait for its context's earlier events, or
for room. -/
def State.heldByWays (s : State) (i : Instr) : Bool :=
  let waits : Bool := match i, awayOf i with
    | .spawn _ _, _ | .msend _ _, _ => true
    | _, some a => a != .load
    | _, none => false
  waits && (s.waysHold s.cur ||
    (s.cluster (clusterOf s.cur)).busy && decide (Config.storeBufferSize ≤ (s.core (coreOf s.cur)).storeBuffer.length))

/-- The turn of an instruction of which `r` is what it comes to if it goes on now: it waits out of the rotation where its home slice has no slot for
its request (R181) or a change of SPWAYS holds what it waits for. An exception of its issue checks is taken. -/
def State.issueTurn (s : State) (i : Instr) (r : Host.Outcome State Fault Refusal) : Host.Outcome State Fault Refusal :=
  match r with
  | .next v =>
    if s.heldByWays i then
      (if (v.core (coreOf s.cur)).storeBuffer = (s.core (coreOf s.cur)).storeBuffer then r
       else if awayOf i ≠ none && s.completes v i then s.leaveTurn i v
       else .next s)
    else if s.slotless i && s.completes v i then s.leaveTurn i v
    else r
  | r => r

end Sys2Proof.Machine
end

