-- ==== Sys2Proof/Machine/Step.lean ====
section
/-! DEFINITION. One step of the machine: one turn of the schedule, in which the context whose turn it is issues the instruction at its
pc, or an event of the module happens. -/

namespace Sys2Proof.Machine

/-- One step. -/
def step (s : State) : Host.Outcome State Fault Refusal :=
  match s.select with
  | (t, .none) => .next t
  | (t, .event i) => if i.isEvent then exec i t else .next t
  | (t, .issue) =>
    (match t.fetch with
     | .ok (u, i) => u.issueTurn i (exec i u)
     | .error e => .next (t.finish (.error e)))
  | (t, .away) =>
    (match t.fetch with
     | .ok (u, i) => if u.heldByWays i then u.issueTurn i (exec i u) else u.goAway i (exec i u)
     | .error e => .next (t.finish (.error e)))
  | (t, .retire i) => if t.heldByWays i then t.issueTurn i (exec i t) else exec i t

/-- Where `withFetchWord` places its instruction: physical address 0x1000 of device HBM. -/
def fetchSpot : Nat := 0x1000

/-- The state with the instruction whose bits are `w` stored where the next step fetches. A program runs on the module only once a
launch has started a context (log entry 7), so this stands for that: the module is up, context 0 of core 0 runs in U mode with
translation off and its pc at the instruction, and the next turn is its. -/
def State.withFetchWord (s : State) (_nbits w : Nat) : State :=
  { s with
    host := { s.host with up := true }
    mem := mwrite s.mem fetchSpot 4 w
    ctxs := tput s.ctxs 0 { Ctx.reset with status := .running, pc := word fetchSpot }
    cores := tput s.cores 0 { s.core 0 with turn := 0 }
    cur := 0
    agenda := [⟨0, 0, .ctx 0⟩] }

end Sys2Proof.Machine
end

