-- ==== Sys2Proof/Safety.lean ====
section
/-! DEFINITION. What counts as a well-formed state of the module, as a safe run, and as the ways in which an instruction ends: the terms in
which claims are stated. -/

namespace Sys2Proof.Machine

/-- The invariants of a state that steps keep: home memory is in its canonical form, and the table of contexts lists each context once, in
rising order. -/
def State.Inv (s : State) : Prop :=
  Memory.wf s.mem = true ∧ risingFrom 0 s.ctxs = true

/-- A run of `n` steps stops neither in a fault nor in a refusal. -/
def SafeFor (n : Nat) (s : State) : Prop := ∃ t, Sys2Proof.core.run n s = .next t

/-- No operation of the module is outstanding: nothing is buffered, posted or queued, no engine, shuttle or dispatcher has work that a fence could
wait for, and no matrix command is on its way. -/
def State.Quiet (s : State) : Prop :=
  (∀ q ∈ s.cores, q.2.storeBuffer = [] ∧ q.2.posted = [] ∧ q.2.vq = [] ∧ q.2.hem = []) ∧ s.sends = [] ∧ s.answers = [] ∧
  (∀ q ∈ s.slices, q.2.forcedWait = []) ∧ (∀ q ∈ s.clusters, q.2.copies = [] ∧ q.2.shadows = [] ∧ q.2.mx.queue = []) ∧
  (∀ q ∈ s.stackCmds, q.2 = []) ∧ (∀ q ∈ s.dies, q.2.stagings = []) ∧ ∀ q ∈ s.ctxs, q.2.mxWaits (fun _ => true) = false

/-- Nothing changes but the context `cid`. -/
def OnlyCtx (s t : State) (cid : Nat) : Prop :=
  t = { s with ctxs := t.ctxs } ∧ ∀ j, j ≠ cid → t.ctx j = s.ctx j

/-- Nothing changes but the context `cid`, which becomes `c`, and the die `d`, which becomes `x`. -/
def OnlyCtxDie (s t : State) (cid d : Nat) (c : Ctx) (x : Die) : Prop :=
  t = { s with ctxs := t.ctxs, dies := t.dies } ∧ t.ctx cid = c ∧ (∀ j, j ≠ cid → t.ctx j = s.ctx j) ∧ t.die d = x ∧ ∀ j, j ≠ d → t.die j = s.die j

/-- A debug command (R375, R376) reaches a context of the die that it names: debug is enabled there, no command runs, and the context is one
of 0 to 10 of a core of the die. -/
def State.DebugReady (s : State) : Prop :=
  (s.die s.ev.a).den = true ∧ (s.die s.ev.a).dbgBusy = none ∧ s.ev.b / 6144 = s.ev.a ∧ s.ev.b < 98304 ∧ s.ev.b % 12 ≠ 11

/-- The instruction at pc ends a pass of a loop that counts here (R111): ARMED, the mode of MODE, and pc at the last instruction of LEN. -/
def Ctx.AtLoopEnd (c : Ctx) : Prop :=
  c.qloop.getLsbD 63 = true ∧ ((c.priv = .u ∧ c.qloop.getLsbD 62 = false) ∨ (c.priv = .s ∧ c.qloop.getLsbD 62 = true)) ∧
  c.pc = c.loopStart + BitVec.ofNat 64 (4 * (c.qloop.extractLsb' 32 12).toNat)

/-- How `d` goes on from `c` after an instruction that completes in sequence (R103, R111): instret counts it unless mcountinhibit.IR is
set; at the end of a pass with passes left the pc goes back and COUNT goes down; at the end of the last pass the loop is disarmed; else
the pc goes to the next word. A single step that was asked for is done. -/
def Ctx.GoesOn (c d : Ctx) : Prop :=
  d.instret = (if c.mcountinhibit.getLsbD 2 then c.instret else c.instret + 1) ∧
  d.haltReq = (c.haltReq || c.stepReq) ∧ d.stepReq = false ∧
  (c.AtLoopEnd → 1 < (c.qloop.extractLsb' 0 32).toNat → d.pc = c.loopStart ∧ d.qloop = c.qloop - 1) ∧
  (c.AtLoopEnd → (c.qloop.extractLsb' 0 32).toNat ≤ 1 → d.pc = c.pc + 4 ∧ d.qloop = c.qloop &&& 0x7FFFFFFF00000000#64) ∧
  (¬ c.AtLoopEnd → d.pc = c.pc + 4 ∧ d.qloop = c.qloop)

/-- `t` is `u` after the issuing context's instruction has completed in sequence: nothing else changes, and of the context only pc, the
loop's COUNT and ARMED, instret and the single step. -/
def Completed (u t : State) : Prop :=
  OnlyCtx u t u.cur ∧
  t.me = { u.me with pc := t.me.pc, qloop := t.me.qloop, instret := t.me.instret, haltReq := t.me.haltReq, stepReq := t.me.stepReq } ∧
  u.me.GoesOn t.me

/-- `t` is `u` after the issuing context's instruction has completed and sent it to `pc` itself: the loop rule does not count it (R111). -/
def Redirected (u t : State) (pc : Word) : Prop :=
  OnlyCtx u t u.cur ∧
  t.me = { u.me with pc := pc, instret := t.me.instret, haltReq := t.me.haltReq, stepReq := false } ∧
  t.me.instret = (if u.me.mcountinhibit.getLsbD 2 then u.me.instret else u.me.instret + 1)

/-- `t` is `u` with the issuing context out of the rotation in a wait of a kind, its pc still at the instruction (R17, R98). -/
def Waits (u t : State) (k : WaitKind) : Prop :=
  OnlyCtx u t u.cur ∧ t.me.status = .waiting ∧ (∃ w, t.me.wait = some w ∧ w.kind = k) ∧ t.me.wake = none ∧
  t.me = { u.me with status := t.me.status, wait := t.me.wait, wake := t.me.wake, request := t.me.request, packet := t.me.packet }

/-- `u` is `s` with elements of width `w` of one v register of the issuing context written (R147): element i < n of the register takes
`val i` where that is given, everything else of the register file keeps its value, and `fl` is ORed into qvstat. -/
def ElementsWritten (s u : State) (vd : Reg) (w n : Nat) (val : Nat → Option Nat) (fl : BitVec 64) : Prop :=
  u = { s with ctxs := u.ctxs, clusters := u.clusters } ∧ (∀ j, j ≠ s.cur → u.ctx j = s.ctx j) ∧
  u.me = { s.me with qvstat := s.me.qvstat ||| fl } ∧
  (∀ g, u.cluster g = { s.cluster g with vreg := (u.cluster g).vreg }) ∧
  (∀ i, i < n → w * (i + 1) ≤ 8192 → velem (u.vr vd) w i = (val i).getD (velem (s.vr vd) w i)) ∧
  (∀ j, w * n ≤ j → (u.vr vd).getLsbD j = (s.vr vd).getLsbD j) ∧
  (∀ g j, (g, j) ≠ (clusterOf s.cur, s.me.winBase + s.me.rot + vd.toNat) → u.vregAt g j = s.vregAt g j)

/-- The results of the integer instructions, computed exactly and then cut to the register's 64 bits: 32-bit forms are cut to 32 bits and
sign-extended. `x` reads the operand registers. -/
def intExpected (pc : Word) (x : Reg → Word) (op : IntOp) : Word :=
  let w (v : Int) : Word := BitVec.ofInt 64 (v.bmod (2 ^ 32))
  let lo (v : Word) : Nat := v.toNat % 2 ^ 32
  match op with
  | .imm .addi _ r i => BitVec.ofInt 64 ((x r).toInt + i.toInt)
  | .imm .slti _ r i => if (x r).toInt < i.toInt then 1 else 0
  | .imm .sltiu _ r i => if (x r).toNat < (BitVec.ofInt 64 i.toInt).toNat then 1 else 0
  | .imm .xori _ r i => x r ^^^ BitVec.ofInt 64 i.toInt
  | .imm .ori _ r i => x r ||| BitVec.ofInt 64 i.toInt
  | .imm .andi _ r i => x r &&& BitVec.ofInt 64 i.toInt
  | .shift .sll _ r n => BitVec.ofNat 64 ((x r).toNat * 2 ^ n.toNat)
  | .shift .srl _ r n => BitVec.ofNat 64 ((x r).toNat / 2 ^ n.toNat)
  | .shift .sra _ r n => BitVec.ofInt 64 ((x r).toInt / 2 ^ n.toNat)
  | .addiw _ r i => w ((x r).toInt + i.toInt)
  | .shiftW .sll _ r n => w (lo (x r) * 2 ^ n.toNat)
  | .shiftW .srl _ r n => w ((lo (x r) / 2 ^ n.toNat : Nat) : Int)
  | .shiftW .sra _ r n => BitVec.ofInt 64 ((lo (x r) : Int).bmod (2 ^ 32) / 2 ^ n.toNat)
  | .reg .add _ r q => BitVec.ofInt 64 ((x r).toInt + (x q).toInt)
  | .reg .sub _ r q => BitVec.ofInt 64 ((x r).toInt - (x q).toInt)
  | .reg .sll _ r q => BitVec.ofNat 64 ((x r).toNat * 2 ^ ((x q).toNat % 64))
  | .reg .slt _ r q => if (x r).toInt < (x q).toInt then 1 else 0
  | .reg .sltu _ r q => if (x r).toNat < (x q).toNat then 1 else 0
  | .reg .xor _ r q => x r ^^^ x q
  | .reg .srl _ r q => BitVec.ofNat 64 ((x r).toNat / 2 ^ ((x q).toNat % 64))
  | .reg .sra _ r q => BitVec.ofInt 64 ((x r).toInt / 2 ^ ((x q).toNat % 64))
  | .reg .or _ r q => x r ||| x q
  | .reg .and _ r q => x r &&& x q
  | .regW .addw _ r q => w ((x r).toInt + (x q).toInt)
  | .regW .subw _ r q => w ((x r).toInt - (x q).toInt)
  | .regW .sllw _ r q => w (lo (x r) * 2 ^ (lo (x q) % 32))
  | .regW .srlw _ r q => w ((lo (x r) / 2 ^ (lo (x q) % 32) : Nat) : Int)
  | .regW .sraw _ r q => BitVec.ofInt 64 ((lo (x r) : Int).bmod (2 ^ 32) / 2 ^ (lo (x q) % 32))
  | .mul .mul _ r q => BitVec.ofInt 64 ((x r).toInt * (x q).toInt)
  | .mul .mulh _ r q => BitVec.ofInt 64 ((x r).toInt * (x q).toInt / 2 ^ 64)
  | .mul .mulhsu _ r q => BitVec.ofInt 64 ((x r).toInt * (x q).toNat / 2 ^ 64)
  | .mul .mulhu _ r q => BitVec.ofNat 64 ((x r).toNat * (x q).toNat / 2 ^ 64)
  | .mul .mulw _ r q => w ((x r).toInt * (x q).toInt)
  | .lui _ i => BitVec.ofInt 64 (i.toInt * 4096)
  | .auipc _ i => BitVec.ofInt 64 (pc.toInt + i.toInt * 4096)

/-- The destination of an integer instruction. -/
def intDest (op : IntOp) : Reg := match op with
  | .imm _ rd _ _ | .shift _ rd _ _ | .addiw rd _ _ | .shiftW _ rd _ _ | .reg _ rd _ _ | .regW _ rd _ _ | .mul _ rd _ _ | .lui rd _
  | .auipc rd _ => rd

/-- The results of division and remainder on `n`-bit operands (RV64M): quotients round toward zero; by zero, a quotient of all ones and the
dividend as remainder; an overflow wraps. -/
def divExpected {n : Nat} (op : DivOp) (a b : BitVec n) : BitVec n := match op with
  | .div => if b.toNat = 0 then BitVec.ofInt n (-1) else BitVec.ofInt n (a.toInt.tdiv b.toInt)
  | .divu => if b.toNat = 0 then BitVec.ofInt n (-1) else BitVec.ofNat n (a.toNat / b.toNat)
  | .rem => if b.toNat = 0 then a else BitVec.ofInt n (a.toInt - b.toInt * a.toInt.tdiv b.toInt)
  | .remu => if b.toNat = 0 then a else BitVec.ofNat n (a.toNat % b.toNat)

/-- When a branch is taken. -/
def branchExpected (op : BranchOp) (a b : Word) : Prop := match op with
  | .beq => a.toNat = b.toNat
  | .bne => a.toNat ≠ b.toNat
  | .blt => a.toInt < b.toInt
  | .bge => b.toInt ≤ a.toInt
  | .bltu => a.toNat < b.toNat
  | .bgeu => b.toNat ≤ a.toNat

/-- The bytes of a value that a load of `n` bytes returns from `bytes`, in little-endian order, extended to 64 bits by copies of the top
bit loaded, or by zeros. -/
def LoadedAs (v : Word) (n : Nat) (signed : Bool) (bytes : Nat → Byte) : Prop :=
  (∀ j, j < n → v.extractLsb' (8 * j) 8 = bytes j) ∧
  (∀ i, 8 * n ≤ i → i < 64 → v.getLsbD i = (signed && v.getLsbD (8 * n - 1)))

/-- The issue checks of a custom-2 instruction pass (R143, R146): qvtype.VILL is clear, the element type is a floating-point one where the
instruction needs it, frm is a rounding mode where it rounds, no v field names a register outside the window, and the core's vector queue has room
(R135). -/
abbrev State.VecOk (s : State) (fp rounds : Bool) (fs : List Reg) : Prop :=
  s.me.qvtype.getLsbD 63 = false ∧ (fp = true → 8 ≤ s.me.etype ∧ s.me.etype ≤ 11) ∧ (rounds = true → s.me.frm.toNat ≤ 4) ∧
  s.me.windowFault fs = none ∧ s.vecFull = false

/-- Element i takes part: it is below VL and its mask bit is set. -/
def State.Active (s : State) (mk : BitVec 3) (i : Nat) : Bool := decide (i < s.me.vl) && (s.me.mask mk).getLsbD i

/-- A value as an element of the context's type holds it: 6 bits of LNS6, else the element's width. -/
def State.asElem (s : State) (v : Nat) : Nat := if s.me.etype = 14 then v % 64 else v % 2 ^ s.vw

/-- `fl` is the OR of the flags that `r` raises at the elements where `on` holds below n. -/
def FlagsOf (n : Nat) (on : Nat → Bool) (r : Nat → Flags) (fl : BitVec 64) : Prop :=
  ∀ j, fl.getLsbD j = true ↔ ∃ i, i < n ∧ on i = true ∧ (r i).getLsbD j = true

/-- The results of the vector integer operations, computed exactly and then cut to the element's width (R148). -/
def vintExpected (k : VInt) {w : Nat} (a b : BitVec w) : BitVec w := match k with
  | .add => BitVec.ofInt w (a.toInt + b.toInt)
  | .sub => BitVec.ofInt w (a.toInt - b.toInt)
  | .mul => BitVec.ofInt w (a.toInt * b.toInt)
  | .mulh => BitVec.ofInt w (a.toInt * b.toInt / 2 ^ w)
  | .mulhu => BitVec.ofNat w (a.toNat * b.toNat / 2 ^ w)
  | .min => if a.toInt < b.toInt then a else b
  | .minu => if a.toNat < b.toNat then a else b
  | .max => if a.toInt < b.toInt then b else a
  | .maxu => if a.toNat < b.toNat then b else a
  | .and => a &&& b
  | .or => a ||| b
  | .xor => a ^^^ b
  | .sll => BitVec.ofNat w (b.toNat * 2 ^ (a.toNat % w))
  | .srl => BitVec.ofNat w (b.toNat / 2 ^ (a.toNat % w))
  | .sra => BitVec.ofInt w (b.toInt / 2 ^ (a.toNat % w))
  | .merge => a

/-- The vector–vector instruction of an integer operation. -/
def vintVv (k : VInt) (vd vs1 vs2 : Reg) (mk : BitVec 3) : Instr := match k with
  | .add => .vaddVv vd vs1 vs2 mk | .sub => .vsubVv vd vs1 vs2 mk | .mul => .vmulVv vd vs1 vs2 mk | .mulh => .vmulhVv vd vs1 vs2 mk
  | .mulhu => .vmulhuVv vd vs1 vs2 mk | .min => .vminVv vd vs1 vs2 mk | .minu => .vminuVv vd vs1 vs2 mk | .max => .vmaxVv vd vs1 vs2 mk
  | .maxu => .vmaxuVv vd vs1 vs2 mk | .and => .vandVv vd vs1 vs2 mk | .or => .vorVv vd vs1 vs2 mk | .xor => .vxorVv vd vs1 vs2 mk
  | .sll => .vsllVv vd vs1 vs2 mk | .srl => .vsrlVv vd vs1 vs2 mk | .sra => .vsraVv vd vs1 vs2 mk | .merge => .vmergeVv vd vs1 vs2 mk

/-- The vector–scalar instruction of an integer operation. -/
def vintVx (k : VInt) (vd rs1 vs2 : Reg) (mk : BitVec 3) : Instr := match k with
  | .add => .vaddVx vd rs1 vs2 mk | .sub => .vsubVx vd rs1 vs2 mk | .mul => .vmulVx vd rs1 vs2 mk | .mulh => .vmulhVx vd rs1 vs2 mk
  | .mulhu => .vmulhuVx vd rs1 vs2 mk | .min => .vminVx vd rs1 vs2 mk | .minu => .vminuVx vd rs1 vs2 mk | .max => .vmaxVx vd rs1 vs2 mk
  | .maxu => .vmaxuVx vd rs1 vs2 mk | .and => .vandVx vd rs1 vs2 mk | .or => .vorVx vd rs1 vs2 mk | .xor => .vxorVx vd rs1 vs2 mk
  | .sll => .vsllVx vd rs1 vs2 mk | .srl => .vsrlVx vd rs1 vs2 mk | .sra => .vsraVx vd rs1 vs2 mk | .merge => .vmergeVx vd rs1 vs2 mk

/-- The cost of an integer operation on a lane group: 2 for the 64-bit multiplies, else 1 (R137, R148). -/
def vintCostExpected (k : VInt) (w : Nat) : Nat := if (k = .mul ∨ k = .mulh ∨ k = .mulhu) ∧ w = 64 then 2 else 1

/-- The results of the vector floating-point operations: those of the scalar ones on each element (R149). -/
def vfpExpected (k : VFp) (F : Fmt) (rm : RM) (a b d : Nat) : Nat × Flags := match k with
  | .add => fAdd F rm a b
  | .sub => fSub F rm a b
  | .mul => fMul F rm a b
  | .div => fDiv F rm a b
  | .min => fMinMax F false a b
  | .max => fMinMax F true a b
  | .fma => fFma F rm false false a b d
  | .fms => fFma F rm false true a b d
  | .fnma => fFma F rm true false a b d
  | .sqrt => fSqrt F rm b
  | .fclass => (fClass F b, 0)

/-- The vector–vector instruction of a floating-point operation; VFSQRT and VFCLASS have one source. -/
def vfpVv (k : VFp) (vd vs1 vs2 : Reg) (mk : BitVec 3) : Instr := match k with
  | .add => .vfaddVv vd vs1 vs2 mk | .sub => .vfsubVv vd vs1 vs2 mk | .mul => .vfmulVv vd vs1 vs2 mk | .div => .vfdivVv vd vs1 vs2 mk
  | .min => .vfminVv vd vs1 vs2 mk | .max => .vfmaxVv vd vs1 vs2 mk | .fma => .vfmaVv vd vs1 vs2 mk | .fms => .vfmsVv vd vs1 vs2 mk
  | .fnma => .vfnmaVv vd vs1 vs2 mk | .sqrt => .vfsqrt vd vs2 mk | .fclass => .vfclass vd vs2 mk

/-- The vector–scalar instruction of a floating-point operation, where there is one. -/
def vfpVf (k : VFp) (vd rs1 vs2 : Reg) (mk : BitVec 3) : Option Instr := match k with
  | .add => some (.vfaddVf vd rs1 vs2 mk) | .sub => some (.vfsubVf vd rs1 vs2 mk) | .mul => some (.vfmulVf vd rs1 vs2 mk)
  | .div => some (.vfdivVf vd rs1 vs2 mk) | .min => some (.vfminVf vd rs1 vs2 mk) | .max => some (.vfmaxVf vd rs1 vs2 mk)
  | .fma => some (.vfmaVf vd rs1 vs2 mk) | .fms => some (.vfmsVf vd rs1 vs2 mk) | .fnma => some (.vfnmaVf vd rs1 vs2 mk)
  | .sqrt | .fclass => none

/-- The binary format of the context's element type. -/
def State.vfmt (s : State) : Fmt := match s.me.etype with
  | 8 => .f16
  | 9 => .bf16
  | 11 => .f64
  | _ => .f32

/-- `m` is the mask `old` with the bits of active elements replaced by `b` (R150). -/
def MaskWritten (s : State) (mk : BitVec 3) (old m : BitVec 1024) (b : Nat → Prop) : Prop :=
  ∀ i, i < 1024 → (s.Active mk i = true → (m.getLsbD i = true ↔ b i)) ∧ (s.Active mk i = false → m.getLsbD i = old.getLsbD i)

end Sys2Proof.Machine
end

