-- ==== Sys2Proof/Certificates/Slice0/Obligations.lean ====
section
/-! DEFINITION. The statements for the provers. Each docstring says which rules of the spec a statement formalises; where a clause is the
model's own choice it names the log entry. -/

section

open Sys2Proof Sys2Proof.Machine

/-- O1. Words written out from the encoding tables of R64 to R70 and the examples of the entries decode to the instructions they stand for: `addi
x1, x2, -1`; `amoadd.d.aq x5, x6, (x7)`; `fmadd.s f1, f2, f3, f4, rm = 7`; `csrrw x0, qloop, x5`; `hstart a0, a1, a2`; `loop.set t1, +3 words`;
`vsll v4, a0, v4`; `vsetl t0, a1, i32`; `sd x7, 8(x6)`; `ecall`. -/
def Obligations.KnownWordsDecode : Prop :=
  decodeWord 0xFFF10093#32 = .integerArithmetic (.imm .addi 1 2 0xFFF) ∧
  decodeWord 0x0463B2AF#32 = .amo .add true true false 5 7 6 ∧
  decodeWord 0x203170C3#32 = .fpArithmetic (.fma .madd false 7 1 2 3 4) ∧
  decodeWord 0x80629073#32 = .csrAccess .rw false 0 5 0x806 ∧
  decodeWord 0x00C5852B#32 = .hstart 10 11 12 ∧
  decodeWord 0x0033102B#32 = .loopSet 6 3 ∧
  decodeWord 0x1845125B#32 = .vsllVx 4 10 4 0 ∧
  decodeWord 0x0025B2FB#32 = .vsetl 5 11 2 ∧
  decodeWord 0x00733423#32 = .store .sd 6 7 8 ∧
  decodeWord 0x00000073#32 = .ecall

/-- O2. Decoding what the encoder gives for a well-formed instruction gives that instruction back, at every value of its operands; and every
well-formed instruction that is no event has a word (R62 to R70). -/
def Obligations.DecodeAfterEncode : Prop :=
  ∀ i : Instr, i.wf = true → i.isEvent = false → ∃ w, encode i = some w ∧ decode w = .ok i

/-- O3. A word that decodes is the word of exactly the instruction it decodes to, and that instruction is well formed: no bit of an encoding is
dropped, and no reserved code or must-be-zero field is accepted (R65). -/
def Obligations.EncodeAfterDecode : Prop :=
  ∀ (w : BitVec 32) (i : Instr), decode w = .ok i → i.wf = true ∧ encode i = some w

/-- O4. A step in which a context issues is its fetch and then the decoded instruction's meaning. Where the schedule's turn is a running context's
whose slot the rotation of its core comes to next (R97), that has no request to stop or halt, on a die whose clock runs, that turn issues, and the
rotation goes on to the next slot; a context that the rotation does not reach gets nothing. Where no execute breakpoint matches, the fetch translates
and is admitted, its cluster's SPWAYS are not changing, and memory there answers, the step is exec of the decoded word in the state after the fetch,
unless its home slice has no slot for its request or a change of SPWAYS holds what it waits for: then it leaves the rotation where it would complete
(R178, R181). Fetched from scratchpad, of which no sealed copy hides a byte (R390), the word is the four bytes there, lowest first, and the fetch
changes nothing (R61). An instruction that may leave the rotation (R98) and completes does so where the turn says so: its context waits, its pc at the
instruction, with nothing of it done but a VSETL's change of qvtype (R156) and the place of an instruction that the vector engine answers in its
core's queue (R135); and where its reply has come, the context's next turn is exec of that instruction. A step whose turn is an event of the table is
that event's meaning with the turn's operands (log entry 6: the turn comes from the model's schedule). -/
def Obligations.StepRunsDecoded : Prop :=
  (∀ (s w : State) (ns cy cid : Nat) (a : Actor) (rest : List Turn), s.agenda = ⟨ns, cy, a⟩ :: rest → a = .ctx cid ∨ a = .ctxAway cid →
    w = ({ s with agenda := rest } : State).pass ns cy →
    (w.reaches cid = false → s.select = (w, .none)) ∧
    ((s.core (coreOf cid)).turn = ctxNum cid → (s.ctx cid).status = .running → (s.ctx cid).stop = none → (s.ctx cid).haltReq = false →
      (s.die (dieOf cid)).stopped = false → ∀ u : State, u = { w.modCore (coreOf cid) (fun c => { c with turn := (ctxNum cid + 1) % 12 }) with cur := cid } →
      ((s.ctx cid).request = none → s.select = (u, if a = .ctx cid then .issue else .away)) ∧
      (∀ i pa home t, (s.ctx cid).request = some (.access i pa home) →
        t = (if engineReplies i then u else (u.leaveSlots cid).modCtx cid fun c => { c with request := none }) → t.heldByWays i = false →
        step s = exec i t))) ∧
  (∀ (s t u v : State) (p : Pick) (x : Xlat) (i : Instr), s.select = (t, p) → t.me.execHit = none →
    t.accessV ⟨clusterOf t.cur, t.me.satp, t.me.priv, t.me.sum, t.me.mxr, some t.cur⟩ .fetch needX .fetch t.me.pc.toNat 4 = .ok (u, x) →
    regionOf x.pa ≠ .cfg → u.selvedgeOk (clusterOf u.cur) .fetch x.pa 4 = true → (u.cluster (clusterOf u.cur)).busy = false → u.silent x.pa = false →
    v = (u.fetchBytes x).1 → i = decodeWord (u.fetchBytes x).2 →
    v.heldByWays i = false → (p = .issue → v.slotless i = false → step s = exec i v) ∧
    ∀ t, exec i v = .next t → (v.completes t i = false → p = .issue ∨ p = .away → step s = .next t) ∧
      (v.completes t i = true → (p = .away → v.mayGo i = true) → (p = .issue → v.slotless i = true) → p = .issue ∨ p = .away →
        ∃ y z : State, y = (v.enqueueReply i).getD v ∧ step s = .next z ∧ OnlyCtx y z y.cur ∧ z.me.wake = none ∧
        (∃ w, z.me.wait = some w ∧ w.kind = .reply) ∧ ((∀ rd a e, i ≠ .vsetl rd a e) → z.me.qvtype = y.me.qvtype) ∧
        (engineReplies i = false → y = v) ∧
        z.me = { y.me with status := .waiting, wait := z.me.wait, wake := none, request := some (y.requestOf i), qvtype := z.me.qvtype })) ∧
  (∀ (u : State) (x : Xlat) (g off : Nat), regionOf x.pa = .scratch 0 g off → x.mt = .scratch →
    tfind (u.core (coreOf u.cur)).icache (x.pa / 128) = none → u.veils g (some u.me.qtid) = [] →
    (u.fetchBytes x).1 = u ∧ ∀ j, j < 4 → (u.fetchBytes x).2.extractLsb' (8 * j) 8 = mget u.mem (scratchAddr g off + j)) ∧
  (∀ (s : State) (ns cy : Nat) (i : Instr) (a : EventArgs) (rest : List Turn), s.agenda = ⟨ns, cy, .event i a⟩ :: rest →
    (∀ e, e ∈ [Instr.contextReinsertion, .packetArrival, .mxConfigQuery, .mxCommandArrival] → i ≠ e) →
    i.isEvent = true → step s = exec i { ({ s with agenda := rest } : State).pass ns cy with ev := a })

/-- O5. The module always goes on: every step answers a next state, whatever the state. Everything that the spec calls an error is a state: an
exception taken, an operation ended, a module that stays in reset. Derived from the whole of the exception rules (R76 to R78). -/
def Obligations.StepAlwaysGoesOn : Prop := ∀ s : State, ∃ t, step s = .next t

/-- O6. RV64I arithmetic, LUI, AUIPC and the RV64M multiplies complete with the exact result cut to the register, and nothing else changes: no other
register, no flag, no byte of memory (R97). A write of x0 is discarded, so a hint has no effect (R63). -/
def Obligations.IntegerResults : Prop :=
  ∀ (s : State) (op : IntOp),
    ∃ t, exec (.integerArithmetic op) s = .next t ∧ Completed (s.setXr (intDest op) (intExpected s.me.pc s.xr op)) t ∧
      (∀ r, r ≠ intDest op → t.xr r = s.xr r) ∧ t.xr 0 = 0 ∧
      (intDest op ≠ 0 → t.xr (intDest op) = intExpected s.me.pc s.xr op) ∧ (intDest op = 0 → t.me.x = s.me.x) ∧
      ∀ a, mget t.mem a = mget s.mem a

/-- O7. Division and remainder, at 64 and at 32 bits, complete with the results of RV64M, division by zero and overflow included; the context leaves
the rotation only until the divider finishes (R98). Nothing else changes. -/
def Obligations.DivideResults : Prop :=
  ∀ (s : State) (op : DivOp) (rd rs1 rs2 : Reg),
    (∃ t, exec (.integerDivide op false rd rs1 rs2) s = .next t ∧ Completed (s.setXr rd (divExpected op (s.xr rs1) (s.xr rs2))) t ∧
      ∀ a, mget t.mem a = mget s.mem a) ∧
    ∃ t, exec (.integerDivide op true rd rs1 rs2) s = .next t ∧ Completed (s.setXr rd
      (BitVec.ofInt 64 (divExpected op (BitVec.ofNat 32 (s.xr rs1).toNat) (BitVec.ofNat 32 (s.xr rs2).toNat)).toInt)) t ∧
      ∀ a, mget t.mem a = mget s.mem a

/-- O8. Branches and jumps. A branch that is not taken completes in sequence, the loop rule included; a taken branch, JAL and JALR go to their
target, which wins over the loop rule (R111), and the links hold the address of the next word; JALR clears bit 0 of its target. A target that is not
a multiple of 4 raises cause 0 on the branch or jump, with the target as stval, and no link is written (R61). -/
def Obligations.BranchesAndJumps : Prop :=
  ∀ (s : State) (pc : Word), s.me.pc = pc →
    (∀ (op : BranchOp) (rs1 rs2 : Reg) (imm : BitVec 13), ¬ branchExpected op (s.xr rs1) (s.xr rs2) →
      ∃ t, exec (.branch op rs1 rs2 imm) s = .next t ∧ Completed s t) ∧
    (∀ (op : BranchOp) (rs1 rs2 : Reg) (imm : BitVec 13) (to_ : Word), branchExpected op (s.xr rs1) (s.xr rs2) →
      to_ = BitVec.ofInt 64 (pc.toInt + imm.toInt) →
      (to_.toNat % 4 = 0 → ∃ t, exec (.branch op rs1 rs2 imm) s = .next t ∧ Redirected s t to_) ∧
      (to_.toNat % 4 ≠ 0 → exec (.branch op rs1 rs2 imm) s = .next (s.raise 0 to_))) ∧
    (∀ (rd : Reg) (imm : BitVec 21) (to_ : Word), to_ = BitVec.ofInt 64 (pc.toInt + imm.toInt) →
      (to_.toNat % 4 = 0 → ∃ t, exec (.jump (.jal rd imm)) s = .next t ∧ Redirected (s.setXr rd (pc + 4)) t to_) ∧
      (to_.toNat % 4 ≠ 0 → exec (.jump (.jal rd imm)) s = .next (s.raise 0 to_))) ∧
    (∀ (rd rs1 : Reg) (imm : BitVec 12) (sum to_ : Word), sum = BitVec.ofInt 64 ((s.xr rs1).toInt + imm.toInt) →
      to_ = BitVec.ofNat 64 (sum.toNat / 2 * 2) →
      (to_.toNat % 4 = 0 → ∃ t, exec (.jump (.jalr rd rs1 imm)) s = .next t ∧ Redirected (s.setXr rd (pc + 4)) t to_) ∧
      (to_.toNat % 4 ≠ 0 → exec (.jump (.jalr rd rs1 imm)) s = .next (s.raise 0 to_)))

/-- O9. A scalar load, and LDO, whose checks pass completes with the bytes read, sign- or zero-extended into an x register, or, for FLW and FLD
while FS is not Off, as they are or NaN-boxed into an f register with FS made Dirty (R62, R100, R198). FLW and FLD are illegal while FS is Off
(R72). A load whose bytes cross a 128-byte line raises cause 4 at its first byte, before any translation (R78, R100). -/
def Obligations.LoadsComplete : Prop :=
  (∀ (s u : State) (x : Xlat) (k : LoadKind) (rd rs1 : Reg) (imm : BitVec 12), loadIsF k = false →
    s.loadCheck (s.xr rs1 + imm.signExtend 64) (loadWidth k) = .ok (u, x) →
    ∃ t, exec (.load k rd rs1 imm) s = .next t ∧
      Completed ((u.scalarRead x (loadWidth k)).1.setXr rd (extendLoad (loadWidth k) (u.scalarRead x (loadWidth k)).2 (loadSigned k))) t) ∧
  (∀ (s u : State) (x : Xlat) (rd rs1 : Reg) (imm : BitVec 12) (dbl : Bool), s.me.fsOff = false →
    s.loadCheck (s.xr rs1 + imm.signExtend 64) (if dbl then 8 else 4) = .ok (u, x) →
    ∃ v w t, u.scalarRead x (if dbl then 8 else 4) = (v, w) ∧ exec (.load (if dbl then .fld else .flw) rd rs1 imm) s = .next t ∧
      Completed (v.modCtx v.cur fun c => { c.setF rd (if dbl then BitVec.ofNat 64 w else BitVec.ofNat 64 (2 ^ 64 - 2 ^ 32 + w % 2 ^ 32)) with
        mstatus := c.mstatus ||| 0x6000#64 }) t) ∧
  (∀ (s : State) (k : LoadKind) (rd rs1 : Reg) (imm : BitVec 12), loadIsF k = true → s.me.fsOff = true →
    exec (.load k rd rs1 imm) s = .next (s.raise 2 (wordOf (.load k rd rs1 imm)))) ∧
  (∀ (s u : State) (x : Xlat) (rd rs1 : Reg) (sc : BitVec 3) (o w : BitVec 2), s.loadCheck (s.xr rs1) (2 ^ w.toNat) = .ok (u, x) →
    ∃ t, exec (.ldo rd rs1 sc o w) s = .next t ∧
      Completed ((u.scalarRead x (2 ^ w.toNat)).1.setXr rd (extendLoad (2 ^ w.toNat) (u.scalarRead x (2 ^ w.toNat)).2 true)) t) ∧
  (∀ (s : State) (k : LoadKind) (rd rs1 : Reg) (imm : BitVec 12), (loadIsF k = true → s.me.fsOff = false) →
    128 < (s.xr rs1 + imm.signExtend 64).toNat % 128 + loadWidth k →
    exec (.load k rd rs1 imm) s = .next (s.raise 4 (s.xr rs1 + imm.signExtend 64)))

/-- O10. What a load returns from scratchpad memory, with no store of the core on its way: the bytes that stand there, lowest first, and above them
copies of the top bit loaded for the signed forms and zeros for the others; and no byte of memory changes. No sealed copy hides the scratchpad's bytes
from the thread (R390). Derived from the little-endian order of
R100's accesses as the model's memory holds bytes; the buffers' own stores are O13. A load reads its own context's buffered stores to the same bytes
(R99): right after a store of n bytes to scratchpad has entered a buffer with room, with nothing posted and no entry there that the load waits for, the
context's read of those n bytes gives what it stored. -/
def Obligations.LoadReturnsBytes : Prop :=
  (∀ (s u : State) (x : Xlat) (k : LoadKind) (rd rs1 : Reg) (imm : BitVec 12) (g off : Nat), loadIsF k = false → rd ≠ 0 →
    s.loadCheck (s.xr rs1 + imm.signExtend 64) (loadWidth k) = .ok (u, x) → regionOf x.pa = .scratch 0 g off →
    (s.core (coreOf s.cur)).storeBuffer = [] → (s.core (coreOf s.cur)).posted = [] → u.veils g (some u.me.qtid) = [] →
    ∃ t, exec (.load k rd rs1 imm) s = .next t ∧ t.mem = s.mem ∧
      LoadedAs (t.xr rd) (loadWidth k) (loadSigned k) (fun j => mget s.mem (scratchAddr g off + j)) ∧
      ∀ r, r ≠ rd → t.xr r = s.xr r) ∧
  (∀ (s : State) (x : Xlat) (n : Nat) (d : Word) (g off : Nat), regionOf x.pa = .scratch 0 g off → 1 ≤ n → n ≤ 8 →
    (s.core (coreOf s.cur)).storeBuffer.length < 16 → (s.core (coreOf s.cur)).posted = [] → s.loadWaits s.cur x.pa n = false →
    ((s.enter (.store x n d) false).loadBytes x n).2 = d.toNat % 2 ^ (8 * n))

/-- O11. A scalar store, and STO, whose checks pass retires by entering the store buffer (R99): the entry holds the translation and the low bytes of
the source, it stands behind the entries that are there, and no byte of memory changes until it is performed. The entry of an STO that asks for
release, once the context's earlier events are performed, is marked so (R198). A store to configuration space or to I/O memory is performed at once:
the one writes the register (R400), the other the bytes of I/O memory (R37). A store whose bytes cross a 128-byte line raises cause 6 (R100); FSW and
FSD are illegal while FS is Off (R72). -/
def Obligations.StoresEnterTheBuffer : Prop :=
  (∀ (s u : State) (x : Xlat) (k : StoreKind) (rs1 rs2 : Reg) (imm : BitVec 12), (storeIsF k = true → s.me.fsOff = false) →
    s.storeCheck (s.xr rs1 + imm.signExtend 64) (storeWidth k) = .ok (u, x) →
    (∃ t, exec (.store k rs1 rs2 imm) s = .next t ∧
      Completed (u.scalarWrite x (storeWidth k) (if storeIsF k then u.me.getF rs2 else u.xr rs2) false) t) ∧
    (regionOf x.pa ≠ .cfg → x.mt ≠ .io → (u.core (coreOf u.cur)).storeBuffer.length < 16 →
      ∃ t e, exec (.store k rs1 rs2 imm) s = .next t ∧ (t.core (coreOf s.cur)).storeBuffer = (u.core (coreOf s.cur)).storeBuffer ++ [e] ∧
        e.cid = s.cur ∧ e.rel = false ∧ t.mem = s.mem ∧ t.me.x = s.me.x ∧ t.me.f = s.me.f ∧
        e.kind = .store x (storeWidth k) (BitVec.ofNat 64
          ((if storeIsF k then s.me.getF rs2 else s.xr rs2).toNat % 2 ^ (8 * storeWidth k)))) ∧
    (regionOf x.pa = .cfg → ∃ t, exec (.store k rs1 rs2 imm) s = .next t ∧
      Completed (u.cfgWrite x.pa (storeWidth k) (if storeIsF k then u.me.getF rs2 else u.xr rs2)) t) ∧
    (∀ v w : State, regionOf x.pa ≠ .cfg → x.mt = .io → u.silent x.pa = false →
      w = u.writeMem (clusterOf u.cur) u.me.tid x (storeWidth k) (if storeIsF k then u.me.getF rs2 else u.xr rs2).toNat (some u.cur) (u.byCtx u.cur)
        u.me.launch → v = w.restorePhaser x.pa (storeWidth k) → ∃ t, exec (.store k rs1 rs2 imm) s = .next t ∧ Completed v t)) ∧
  (∀ (s : State) (x : Xlat) (g n v launch off : Nat) (tid : BitVec 12) (keep : Option Nat) (w : Wake), (∀ a h o, regionOf x.pa ≠ .scratch a h o) → x.mt = .io →
    off < n → mget (s.writeMem g tid x n v keep w launch).mem (x.pa + off) = BitVec.ofNat 8 (v / 2 ^ (8 * off))) ∧
  (∀ (s u : State) (x : Xlat) (rs1 rs2 : Reg) (sc : BitVec 3) (o w : BitVec 2), s.storeCheck (s.xr rs1) (2 ^ w.toNat) = .ok (u, x) →
    (∃ t, exec (.sto rs1 rs2 sc o w) s = .next t ∧ Completed (u.scalarWrite x (2 ^ w.toNat) (u.xr rs2) (o != 0)) t) ∧
    ∀ v : State, v = (if o = 0 then u else u.settleMe) → regionOf x.pa ≠ .cfg → x.mt ≠ .io → (v.core (coreOf v.cur)).storeBuffer.length < 16 →
      ∃ t e, exec (.sto rs1 rs2 sc o w) s = .next t ∧ (t.core (coreOf v.cur)).storeBuffer = (v.core (coreOf v.cur)).storeBuffer ++ [e] ∧
        e.cid = v.cur ∧ e.rel = (o != 0) ∧ e.kind = .store x (2 ^ w.toNat) (BitVec.ofNat 64 ((u.xr rs2).toNat % 2 ^ (8 * 2 ^ w.toNat))) ∧ t.mem = v.mem) ∧
  (∀ (s : State) (k : StoreKind) (rs1 rs2 : Reg) (imm : BitVec 12), (storeIsF k = true → s.me.fsOff = false) →
    128 < (s.xr rs1 + imm.signExtend 64).toNat % 128 + storeWidth k →
    exec (.store k rs1 rs2 imm) s = .next (s.raise 6 (s.xr rs1 + imm.signExtend 64))) ∧
  (∀ (s : State) (k : StoreKind) (rs1 rs2 : Reg) (imm : BitVec 12), storeIsF k = true → s.me.fsOff = true →
    exec (.store k rs1 rs2 imm) s = .next (s.raise 2 (wordOf (.store k rs1 rs2 imm))))

/-- O12. Performing a buffered store (R99): where the entry may be performed and its bytes lie in its own cluster's scratchpad, those bytes take the
value stored, lowest first, every other byte of memory keeps its value, and the entry leaves the buffer. No phaser is in use and no context waits in a
QPOP, whose homes look at a plain store (log entry 28). -/
def Obligations.PerformedStoreWritesItsBytes : Prop :=
  ∀ (s : State) (cid n since : Nat) (x : Xlat) (d pc task : Word) (tid : BitVec 12) (off : Nat) (vec : Option (Nat × Nat)),
    (s.core s.ev.a).storeBuffer[s.ev.b]? = some ⟨cid, false, .store x n d, pc, task, tid, since, vec⟩ → s.mayPerform s.ev.a s.ev.b = true →
    regionOf x.pa = .scratch 0 (clusterOf cid) off → (s.die (dieOfCluster (clusterOf cid))).stopped = false →
    s.phasersInUse = [] → s.popWaits = [] →
    ∃ t, exec .storeBufferEntryPerform s = .next t ∧
      (∀ j, j < n → mget t.mem (scratchAddr (clusterOf cid) off + j) = BitVec.ofNat 8 (d.toNat / 2 ^ (8 * j))) ∧
      (∀ a, a < scratchAddr (clusterOf cid) off ∨ scratchAddr (clusterOf cid) off + n ≤ a → mget t.mem a = mget s.mem a) ∧
      (t.core s.ev.a).storeBuffer = (s.core s.ev.a).storeBuffer.eraseIdx s.ev.b

/-- O13. LR and SC (R101, R102). LR completes with the value, sign-extended, and leaves its context a reservation of the address and size read. An SC
stores only where its context, once the events it waits for are performed, holds a reservation of the same size at the same address; then it writes 0
to rd and memory takes the value, and otherwise it writes 1 and performs nothing. Every SC ends the reservation. One that is not naturally aligned
raises cause 6, LR included. -/
def Obligations.LoadReservedStoreConditional : Prop :=
  (∀ (s u : State) (x : Xlat) (dbl aq rl : Bool) (rd rs1 : Reg), s.atomicCheck .load needR false (s.xr rs1) (if dbl then 8 else 4) = .ok (u, x) →
    ∃ y v w t, y = (u.beforeAtomic rl x).tileAccess (clusterOf (u.beforeAtomic rl x).cur) x (if dbl then 8 else 4) x.writable
        (u.beforeAtomic rl x).me.tid (u.beforeAtomic rl x).me.qtid ∧
      y.readMem (clusterOf y.cur) y.me.tid y.me.qtid x (if dbl then 8 else 4) = (v, w) ∧
      exec (.lr dbl aq rl rd rs1) s = .next t ∧
      Completed (v.modCtx v.cur fun c => { c.setX rd (extendLoad (if dbl then 8 else 4) w true) with
        reservation := some ⟨x.pa, if dbl then 8 else 4⟩ }) t) ∧
  (∀ (s u : State) (x : Xlat) (dbl aq rl : Bool) (rd rs1 rs2 : Reg), s.atomicCheck .store needW true (s.xr rs1) (if dbl then 8 else 4) = .ok (u, x) →
    ∃ w v t, w = u.beforeAtomic rl x ∧ v = (w.modCtx w.cur fun c => { c with reservation := none }) ∧ exec (.sc dbl aq rl rd rs1 rs2) s = .next t ∧
      (w.me.reservation ≠ some ⟨x.pa, if dbl then 8 else 4⟩ → Completed (v.setXr rd 1) t) ∧
      (w.me.reservation = some ⟨x.pa, if dbl then 8 else 4⟩ →
        Completed (((v.writeMem (clusterOf v.cur) v.me.tid x (if dbl then 8 else 4) ((u.xr rs2).toNat % 2 ^ (if dbl then 64 else 32)) none
          (v.byCtx v.cur) v.me.launch).restorePhaser x.pa (if dbl then 8 else 4)).setXr rd 0) t)) ∧
  (∀ (s : State) (dbl aq rl : Bool) (rd rs1 rs2 : Reg), (s.xr rs1).toNat % (if dbl then 8 else 4) ≠ 0 →
    exec (.lr dbl aq rl rd rs1) s = .next (s.raise 6 (s.xr rs1)) ∧ exec (.sc dbl aq rl rd rs1 rs2) s = .next (s.raise 6 (s.xr rs1)))

/-- The values that the base AMOs and AMOS's first nine operations store (R67, RV64A), computed exactly. -/
def amoExpected {n : Nat} (op : AmoOp) (old v : BitVec n) : BitVec n := match op with
  | .swap => v
  | .add => BitVec.ofInt n (old.toInt + v.toInt)
  | .xor => old ^^^ v
  | .and => old &&& v
  | .or => old ||| v
  | .min => if old.toInt < v.toInt then old else v
  | .max => if old.toInt < v.toInt then v else old
  | .minu => if old.toNat < v.toNat then old else v
  | .maxu => if old.toNat < v.toNat then v else old

/-- O14. Atomic updates (R31, R101, R200). A base AMO and an AMOS whose checks pass complete with the old value, sign-extended, in rd, and the new
value stored by one update; in the scratchpad, where no tile lies, no sealed copy hides the bytes from the thread, and no home has an object to look
at, the update reads the bytes there, writes exactly those bytes, and leaves every other byte of memory. AMOS code 9 stores only where the old value
is the one rd held. One that is not naturally aligned raises cause 6. -/
def Obligations.AtomicUpdates : Prop :=
  (∀ (s u : State) (x : Xlat) (op : AmoOp) (aq rl : Bool) (rd rs1 rs2 : Reg),
    (s.atomicCheck .store needRW true (s.xr rs1) 8 = .ok (u, x) →
      ∃ v o t, (u.beforeAtomic rl x).atomicUpdate x 8 (fun b => some (amoExpected op (BitVec.ofNat 64 b) (u.xr rs2)).toNat) = (v, o) ∧
        exec (.amo op true aq rl rd rs1 rs2) s = .next t ∧ Completed (v.setXr rd (extendLoad 8 o true)) t) ∧
    (s.atomicCheck .store needRW true (s.xr rs1) 4 = .ok (u, x) →
      ∃ v o t, (u.beforeAtomic rl x).atomicUpdate x 4 (fun b => some (amoExpected op (BitVec.ofNat 32 b) (BitVec.ofNat 32 (u.xr rs2).toNat)).toNat) =
          (v, o) ∧ exec (.amo op false aq rl rd rs1 rs2) s = .next t ∧ Completed (v.setXr rd (extendLoad 4 o true)) t)) ∧
  (∀ (s u : State) (x : Xlat) (rd rs1 rs2 : Reg) (sc : BitVec 3) (op : BitVec 4), s.atomicCheck .store needRW true (s.xr rs1) 8 = .ok (u, x) →
    ∃ v o f t, (u.beforeAtomic true x).atomicUpdate x 8 (fun b => (amosValue op.toNat (BitVec.ofNat 64 b) (u.xr rs2) (u.xr rd)).map fun r => r.1.toNat) =
        (v, o) ∧ f = ((amosValue op.toNat (BitVec.ofNat 64 o) (u.xr rs2) (u.xr rd)).map (·.2)).getD 0 ∧
      exec (.amos rd rs1 rs2 sc op) s = .next t ∧ Completed (v.modCtx v.cur fun c => (c.setX rd (BitVec.ofNat 64 o)).orFflags f) t) ∧
  (∀ (old v e : Word),
    amosValue 0 old v e = some (amoExpected .swap old v, 0) ∧ amosValue 1 old v e = some (amoExpected .add old v, 0) ∧
    amosValue 2 old v e = some (amoExpected .and old v, 0) ∧ amosValue 3 old v e = some (amoExpected .or old v, 0) ∧
    amosValue 4 old v e = some (amoExpected .xor old v, 0) ∧ amosValue 5 old v e = some (amoExpected .min old v, 0) ∧
    amosValue 6 old v e = some (amoExpected .max old v, 0) ∧ amosValue 7 old v e = some (amoExpected .minu old v, 0) ∧
    amosValue 8 old v e = some (amoExpected .maxu old v, 0) ∧
    (amosValue 9 e v e = some (v, 0)) ∧ (old ≠ e → amosValue 9 old v e = none)) ∧
  (∀ (s : State) (x : Xlat) (n g off : Nat) (f : Nat → Option Nat), regionOf x.pa = .scratch 0 g off → s.tilesAt (some x.slice) x.pa n = [] →
    s.phasersInUse = [] → s.popWaits = [] → s.veils g (some s.me.qtid) = [] →
    (s.atomicUpdate x n f).2 = mread s.mem (scratchAddr g off) n ∧
    ∀ a, mget (s.atomicUpdate x n f).1.mem a = match f (mread s.mem (scratchAddr g off) n) with
      | none => mget s.mem a
      | some v => if scratchAddr g off ≤ a ∧ a < scratchAddr g off + n then BitVec.ofNat 8 (v / 2 ^ (8 * (a - scratchAddr g off))) else mget s.mem a) ∧
  (∀ (s : State) (op : AmoOp) (dbl aq rl : Bool) (rd rs1 rs2 : Reg), (s.xr rs1).toNat % (if dbl then 8 else 4) ≠ 0 →
    exec (.amo op dbl aq rl rd rs1 rs2) s = .next (s.raise 6 (s.xr rs1))) ∧
  (∀ (s : State) (rd rs1 rs2 : Reg) (sc : BitVec 3) (op : BitVec 4), (s.xr rs1).toNat % 8 ≠ 0 →
    exec (.amos rd rs1 rs2 sc op) s = .next (s.raise 6 (s.xr rs1)))

/-- O15. CSR instructions (R74). A legal access completes: rd takes the old value, and the CSR is written where the instruction writes, with the
operand, its OR, or its AND-NOT with the old value; CSRRS and CSRRC with a zero source field write nothing. An access to qvstat first waits for the
vector engine (R89). minstret, once written, holds what was written, through every form that writes it. An illegal access raises the
illegal-instruction exception and does nothing: one from a mode below the CSR's own, one that would write a CSR whose address bits [11:10] are 11, one
to an address that holds no CSR, and one to the floating-point CSRs while FS is Off. -/
def Obligations.CsrAccesses : Prop :=
  (∀ (s w : State) (op : CsrOp) (isImm : Bool) (rd src : Reg) (csr : BitVec 12) (old v new : Word),
    s.csrLegal s.cur csr.toNat (op == .rw || src != 0) = true → w = (if csr = 0x805 then s.drainVector s.cur drainFuel else s) →
    w.csrRead w.cur csr.toNat = some old → v = (if isImm then src.setWidth 64 else w.xr src) →
    new = (match op with
      | .rw => v
      | .rs => old ||| v
      | .rc => old &&& ~~~v) → csr ≠ 0xB02 →
    ∃ t, exec (.csrAccess op isImm rd src csr) s = .next t ∧
      Completed ((if op = .rw ∨ src ≠ 0 then w.csrWrite w.cur csr.toNat new else w).setXr rd old) t) ∧
  (∀ (s : State) (op : CsrOp) (isImm : Bool) (rd src : Reg) (v : Word), s.me.priv = .m → v = (if isImm then src.setWidth 64 else s.xr src) →
    ∃ t, exec (.csrAccess op isImm rd src 0xB02) s = .next t ∧ (rd ≠ 0 → t.xr rd = s.me.instret) ∧
      (op = .rw → t.me.instret = v) ∧ (src ≠ 0 → op = .rs → t.me.instret = s.me.instret ||| v) ∧
      (src ≠ 0 → op = .rc → t.me.instret = s.me.instret &&& ~~~v) ∧
      (src = 0 → op ≠ .rw → t.me.instret = (if s.me.mcountinhibit.getLsbD 2 then s.me.instret else s.me.instret + 1))) ∧
  (∀ (s : State) (op : CsrOp) (isImm : Bool) (rd src : Reg) (csr : BitVec 12),
    (s.me.priv.code < (csr.extractLsb' 8 2).toNat ∨ (csr.extractLsb' 10 2 = 3 ∧ (op = .rw ∨ src ≠ 0)) ∨
      s.csrRead s.cur csr.toNat = none ∨ (s.me.fsOff = true ∧ (csr = 1 ∨ csr = 2 ∨ csr = 3))) →
    exec (.csrAccess op isImm rd src csr) s = .next (s.raise 2 (wordOf (.csrAccess op isImm rd src csr))))

/-- O16. What CSRs read as (R73, R75, R103): the identification registers, the counters the Q6 does not have, and the interrupt registers hold the
constants of R75, but mhartid the context's id as the module reports it (R381); time is qtime and is the timebase; instret and minstret are the
context's own count; fcsr is frm above fflags; odd pmpcfg registers, the V extension's CSRs, stimecmp, seed and hstatus do not exist. What a write
stores (R3, R4, R74) in the CSRs listed here. qvtype: a valid type and length, or ETYPE and VL zero with VILL set (R140). qvrot: bits [8:3] (R142).
qloop: COUNT only (R110). qprio: PRIO only, at most the value set at dispatch (R324). qvstat: its seven flags (R88). qtensid: 12 bits. satp: as
written with mode 0 or 9, else not at all. qmvwt: a weight of 0 stores 1 (R139). A read-only CSR is never changed. No write changes a byte of memory
or an x register. -/
def Obligations.CsrValues : Prop :=
  (∀ (s : State) (cid : Nat),
    s.csrRead cid 0xF11 = some 0 ∧ s.csrRead cid 0xF12 = some 0 ∧ s.csrRead cid 0xF13 = some 6 ∧
    s.csrRead cid 0xF14 = some (BitVec.ofNat 64 (s.reportCtx cid)) ∧ s.csrRead cid 0x301 = some 0x8000000000941129#64 ∧
    (∀ i, 3 ≤ i → i < 32 → s.csrRead cid (0xC00 + i) = some 0 ∧ s.csrRead cid (0xB00 + i) = some 0 ∧ s.csrRead cid (0x320 + i) = some 0) ∧
    s.csrRead cid 0x104 = some 0 ∧ s.csrRead cid 0x144 = some 0 ∧ s.csrRead cid 0x304 = some 0 ∧ s.csrRead cid 0x344 = some 0 ∧
    s.csrRead cid 0xF15 = some 0 ∧ s.csrRead cid 0xC01 = some (BitVec.ofNat 64 s.now) ∧ s.csrRead cid 0xCC2 = s.csrRead cid 0xC01 ∧
    s.csrRead cid 0xC02 = some (s.ctx cid).instret ∧ s.csrRead cid 0xB02 = s.csrRead cid 0xC02 ∧
    s.csrRead cid 3 = some (((s.ctx cid).frm ++ (s.ctx cid).fflags).setWidth 64) ∧
    (∀ i, i < 8 → s.csrRead cid (0x3A1 + 2 * i) = none) ∧
    (∀ a, a ∈ [0x008, 0x009, 0x00A, 0x00F, 0xC20, 0xC21, 0xC22, 0x14D, 0x015, 0x600] → s.csrRead cid a = none)) ∧
  (∀ (s : State) (cid : Nat) (v : Word),
    ((s.csrWrite cid 0x800 v).ctx cid).qvtype =
      (if etypeCode (v.extractLsb' 0 5) = true ∧ (v.extractLsb' 16 11).toNat * etypeWidth (v.extractLsb' 0 5).toNat ≤ 8192
        then v &&& 0x7FF001F#64 else 0x8000000000000000#64) ∧
    ((s.csrWrite cid 0x802 v).ctx cid).qvrot = v &&& 0x1F8#64 ∧
    (((s.csrWrite cid 0x806 v).ctx cid).qloop.extractLsb' 32 32 = (s.ctx cid).qloop.extractLsb' 32 32 ∧
      ((s.csrWrite cid 0x806 v).ctx cid).qloop.extractLsb' 0 32 = v.extractLsb' 0 32) ∧
    ((s.csrWrite cid 0x807 v).ctx cid).qprio.extractLsb' 3 61 = (s.ctx cid).qprio.extractLsb' 3 61 ∧
    (((s.csrWrite cid 0x807 v).ctx cid).qprio.extractLsb' 0 3).toNat = min (v.extractLsb' 0 3).toNat (s.ctx cid).prioMax.toNat ∧
    ((s.csrWrite cid 0x805 v).ctx cid).qvstat = v &&& 0x7F#64 ∧
    ((s.csrWrite cid 0x804 v).ctx cid).qtensid = v &&& 0xFFF#64 ∧
    ((s.csrWrite cid 0x180 v).ctx cid).satp = (if v.extractLsb' 60 4 = 0 ∨ v.extractLsb' 60 4 = 9 then v else (s.ctx cid).satp) ∧
    (∀ i, i < 4 → ((s.csrWrite cid 0x7C0 v).cluster (clusterOf cid)).qmvwt.extractLsb' (8 * i) 8 =
      if v.extractLsb' (8 * i) 8 = 0 then 1 else v.extractLsb' (8 * i) 8) ∧
    (∀ a, a ∈ [0xCC0, 0xCC1, 0xCC2, 0xCC3, 0xCC4, 0xCC5, 0xC00, 0xC01, 0xC02, 0xB00, 0xF11, 0xF12, 0xF13, 0xF14, 0x301, 0x104, 0x144] →
      s.csrWrite cid a v = s) ∧
    (∀ a, (s.csrWrite cid a v).mem = s.mem) ∧ (∀ a j, ((s.csrWrite cid a v).ctx j).x = (s.ctx j).x))

/-- O17. A scalar F or D instruction, while FS is not Off, whose rounding mode is valid completes with its result in its destination and its flags
ORed into fflags; a result in an f register, and a raised flag, make FS Dirty; nothing else changes. While FS is Off (R72), and where rm is 111 and
frm holds an invalid mode (R87), it raises the illegal-instruction exception. -/
def Obligations.FloatingPointCompletes : Prop :=
  (∀ (s : State) (op : FpOp) (rd : Reg) (v : Word) (fl : Flags), s.me.fsOff = false → s.me.fpResult op = some (.f rd v fl) →
    ∃ t, exec (.fpArithmetic op) s = .next t ∧ t.mem = s.mem ∧
      Completed (s.modCtx s.cur fun c => { c.setF rd v with fflags := c.fflags ||| fl.setWidth 5, mstatus := c.mstatus ||| 0x6000#64 }) t) ∧
  (∀ (s : State) (op : FpOp) (rd : Reg) (v : Word) (fl : Flags), s.me.fsOff = false → s.me.fpResult op = some (.x rd v fl) →
    ∃ t, exec (.fpArithmetic op) s = .next t ∧ t.mem = s.mem ∧
      Completed (s.modCtx s.cur fun c => { c.setX rd v with
        fflags := c.fflags ||| fl.setWidth 5, mstatus := if fl = 0 then c.mstatus else c.mstatus ||| 0x6000#64 }) t) ∧
  (∀ (s : State) (op : FpOp), s.me.fsOff = true → exec (.fpArithmetic op) s = .next (s.raise 2 (wordOf (.fpArithmetic op)))) ∧
  (∀ (s : State) (op : FpOp), s.me.fsOff = false → op.rm = some 7 → 5 ≤ s.me.frm.toNat →
    exec (.fpArithmetic op) s = .next (s.raise 2 (wordOf (.fpArithmetic op)))) ∧
  (∀ (s : State) (op : FpOp), op.rm = none ∨ (∃ r, op.rm = some r ∧ r.toNat < 5) ∨ (op.rm = some 7 ∧ s.me.frm.toNat < 5) →
    (s.me.fpResult op).isSome = true)

/-- O18. The bits that scalar moves and sign injections write (R62; the F and D specifications): FMV.X.D and FMV.D.X move all 64 bits, FMV.X.W
sign-extends the low word and FMV.W.X boxes it in ones; FSGNJ.D, FSGNJN.D and FSGNJX.D keep all but the sign, which is the second operand's, its
complement, or the two signs' exclusive or; a single-precision operand that is not boxed in ones counts as the canonical NaN. None raises a flag. -/
def Obligations.FloatingPointBits : Prop :=
  ∀ (c : Ctx) (rd a b : Reg),
    c.fpResult (.mvToX true rd a) = some (.x rd (c.getF a) 0) ∧
    c.fpResult (.mvFromX true rd a) = some (.f rd (c.getX a) 0) ∧
    c.fpResult (.mvToX false rd a) = some (.x rd (((c.getF a).setWidth 32).signExtend 64) 0) ∧
    c.fpResult (.mvFromX false rd a) = some (.f rd (0xFFFFFFFF#32 ++ (c.getX a).setWidth 32) 0) ∧
    c.fpResult (.sgn .sgnj true rd a b) = some (.f rd ((c.getF b).extractLsb' 63 1 ++ (c.getF a).extractLsb' 0 63) 0) ∧
    c.fpResult (.sgn .sgnjn true rd a b) = some (.f rd (~~~(c.getF b).extractLsb' 63 1 ++ (c.getF a).extractLsb' 0 63) 0) ∧
    c.fpResult (.sgn .sgnjx true rd a b) =
      some (.f rd (((c.getF a).extractLsb' 63 1 ^^^ (c.getF b).extractLsb' 63 1) ++ (c.getF a).extractLsb' 0 63) 0) ∧
    ((c.getF a).extractLsb' 32 32 = 0xFFFFFFFF#32 → c.fpr false a = ((c.getF a).setWidth 32).toNat) ∧
    ((c.getF a).extractLsb' 32 32 ≠ 0xFFFFFFFF#32 → c.fpr false a = 0x7FC00000)

/-- O19. The fences of the base ISA and WFI (R22, R103). A FENCE with writes in its predecessor set and a non-empty successor set, and FENCE.TSO,
complete once the context's earlier stores are performed; every other FENCE completes at once. With nothing of the context in the buffers, a fence
changes nothing but the context's going on; that an INVR of the context is no read that a FENCE with R waits for is the model's choice (log entry 98).
FENCE.I also empties the core's L1 I-cache. WFI outside U mode is a no-op, and in U mode raises the illegal-instruction exception. QSFENCE outside U
mode, and SFENCE.VMA as QSFENCE at .cl without its I-cache bit (R191), complete once the fence's waits are over, and are presented again while a unit
keeps what they wait for; where no operation is outstanding they complete at once, and what they do is the drop of translations alone. That drop
leaves no translation that the fence names in a cluster in scope, with the I-cache bit no line in an L1 I-cache there, and every cluster out of scope
as it is (R192). PGMIG outside U mode of a page that translates, its context's earlier accesses performed, completes: with one of the statuses of R194
that apply and nothing migrated (R194 does not order them: log entry 21), a page that is not device HBM with status 5; else with 0 in rd after the
migration, which leaves no translation of the page's PTE in any cluster. -/
def Obligations.FencesComplete : Prop :=
  ((∀ (s : State) (fm pr su : BitVec 4) (rd rs1 : Reg), ∃ t, exec (.fence fm pr su rd rs1) s = .next t ∧
    Completed (if (pr.getLsbD 0 = true ∨ pr.getLsbD 2 = true) ∧ su ≠ 0 then s.drainStores s.cur else s) t) ∧
  (∀ (s : State) (rd rs1 : Reg), ∃ t, exec (.fenceTso rd rs1) s = .next t ∧ Completed (s.drainStores s.cur) t) ∧
  (∀ (s : State) (i : BitVec 12) (rd rs1 : Reg), ∃ t, exec (.fenceI i rd rs1) s = .next t ∧
    Completed ((s.drainStores s.cur).modCore (coreOf s.cur) fun c => { c with icache := [] }) t) ∧
  (∀ s : State, (∀ e ∈ (s.core (coreOf s.cur)).storeBuffer, e.cid ≠ s.cur) → (∀ e ∈ (s.core (coreOf s.cur)).posted, e.cid ≠ s.cur) →
    s.drainStores s.cur = s) ∧
  (∀ s : State, s.me.priv ≠ .u → ∃ t, exec .wfi s = .next t ∧ Completed s t ∧ t.mem = s.mem) ∧
  (∀ s : State, s.me.priv = .u → exec .wfi s = .next (s.raise 2 0x10500073#64))) ∧
  ((∀ (s u : State) (ic : Bool) (sc : BitVec 3) (a b : Reg), s.me.priv ≠ .u →
    (s.qsFence ic sc.toNat a b = .ok u → ∃ t, exec (.qsfence ic sc a b) s = .next t ∧ Completed u t) ∧
    (s.qsFence ic sc.toNat a b = .error (.left u) → exec (.qsfence ic sc a b) s = .next u)) ∧
  (∀ (s u : State) (a b : Reg), s.me.priv = .m ∨ (s.me.priv = .s ∧ s.me.mstatus.getLsbD 20 = false) →
    (s.qsFence false 2 a b = .ok u → ∃ t, exec (.sfenceVma a b) s = .next t ∧ Completed u t) ∧
    (s.qsFence false 2 a b = .error (.left u) → exec (.sfenceVma a b) s = .next u)) ∧
  (∀ (s : State) (ic : Bool) (sc : BitVec 3) (a b : Reg) (va asid : Option Nat), s.Quiet → va = (if a = 0 then none else some (s.xr a).toNat) →
    asid = (if b = 0 then none else some ((s.xr b).extractLsb' 0 16).toNat) →
    (s.me.priv ≠ .u → ∃ t, exec (.qsfence ic sc a b) s = .next t ∧ Completed (s.dropXlats ic sc.toNat (clusterOf s.cur) va asid) t) ∧
    (s.me.priv = .m ∨ (s.me.priv = .s ∧ s.me.mstatus.getLsbD 20 = false) → ∃ t, exec (.sfenceVma a b) s = .next t ∧
      Completed (s.dropXlats false 2 (clusterOf s.cur) va asid) t)) ∧
  (∀ (s : State) (ic : Bool) (sc g h : Nat) (va asid : Option Nat) (inScope : Prop),
    (inScope ↔ (sc = 2 ∧ h = g) ∨ (sc = 3 ∧ h / 128 = g / 128) ∨ (sc ≠ 2 ∧ sc ≠ 3)) →
    (inScope → ∀ e ∈ ((s.dropXlats ic sc g va asid).cluster h).tlb,
      ¬ ((∀ a, va = some a → e.va ≤ a ∧ a < e.va + 2 ^ e.lg) ∧ ∀ n, asid = some n → e.glob = false ∧ e.asid = n)) ∧
    (inScope → ic = true → ∀ k, k / 4 = h → ((s.dropXlats ic sc g va asid).core k).icache = []) ∧
    (¬ inScope → (s.dropXlats ic sc g va asid).cluster h = s.cluster h ∧ ∀ k, k / 4 = h → (s.dropXlats ic sc g va asid).core k = s.core k))) ∧
  ((∀ (s u v : State) (x : Xlat) (rd a b : Reg), s.me.priv ≠ .u → u = s.settleMe → u.migratePage (u.xr a).toNat = .ok (v, x) →
    (v.migrateRefusals x (u.xr b) ≠ [] → ∃ (n : Nat) (t : State), n ∈ v.migrateRefusals x (u.xr b) ∧ exec (.pgmig rd a b) s = .next t ∧
      Completed (({ v with free := v.free + 1 } : State).setXr rd (BitVec.ofNat 64 n)) t) ∧
    (v.migrateRefusals x (u.xr b) = [] → ∀ (w : State) (m : Move) (frame : Xlat → Bool), (∀ y, frame y = decide (y.pa / 2 ^ x.lg = x.pa / 2 ^ x.lg)) →
      m = ⟨x.pa / 2 ^ x.lg * 2 ^ x.lg, 2 ^ x.lg, if (u.xr b).extractLsb' 12 44 = 0 then x.pa / 2 ^ x.lg * 2 ^ x.lg else
        ((u.xr b).extractLsb' 12 44).toNat * 4096, (u.xr b).extractLsb' 0 4, (u.xr b).extractLsb' 4 2⟩ → w = v.finishEngines frame →
      ((∀ q ∈ w.clusters, w.engineWork q.1 frame = false) → ∃ t, exec (.pgmig rd a b) s = .next t ∧ Completed ((w.migrate x m).setXr rd 0) t) ∧
      ((∃ q ∈ w.clusters, w.engineWork q.1 frame = true) → exec (.pgmig rd a b) s = .next w) ∧
      (s.Quiet → w = v))) ∧
  (∀ (s : State) (x : Xlat) (v : Word), x.mt ≠ .hbm → s.migrateRefusals x v = [5]) ∧
  (∀ (s : State) (x : Xlat) (m : Move) (g : Nat), ∀ e ∈ ((s.migrate x m).cluster g).tlb, e.pteAddr ≠ x.pteAddr))

/-- O20. Entry of the S-mode handler (R112, R113). An exception of U mode whose cause medeleg delegates and whose disposition is handle, and every
delegated exception of S mode, while stvec is not 0: sepc is the faulting pc, scause the cause, stval the value; SPP holds the mode, SPIE takes SIE,
SIE is cleared; the mode becomes S and pc is the handler's address; the LR reservation is cleared and an open packet discarded (R114). Every x and f
register and every other part of the module stays. -/
def Obligations.SupervisorTrapEntry : Prop :=
  ∀ (s : State) (cause : Nat) (v : Word), s.me.priv ≠ .m → s.me.medeleg.getLsbD cause = true → s.me.stvec ≠ 0 →
    (s.me.priv = .u → s.me.disposition cause = 0) →
    OnlyCtx s (s.raise cause v) s.cur ∧
    (let d := (s.raise cause v).me
     d.sepc = s.me.pc ∧ d.scause = BitVec.ofNat 64 cause ∧ d.stval = v ∧ d.priv = .s ∧ d.pc = s.me.stvec &&& ~~~3#64 ∧
     d.mstatus.getLsbD 8 = (s.me.priv == .s) ∧ d.mstatus.getLsbD 5 = s.me.mstatus.getLsbD 1 ∧ d.mstatus.getLsbD 1 = false ∧
     (∀ i, i ≠ 1 → i ≠ 5 → i ≠ 8 → d.mstatus.getLsbD i = s.me.mstatus.getLsbD i) ∧
     d.reservation = none ∧ d.packet = none ∧ d.x = s.me.x ∧ d.f = s.me.f ∧ d.status = .running ∧ d.qloop = s.me.qloop ∧
     d.instret = s.me.instret ∧ d.mepc = s.me.mepc)

/-- O21. Entry of the M-mode handler (R112; the privileged specification): an exception of M mode, or one whose cause medeleg does not delegate,
writes mepc, mcause and mtval, sets MPP to the mode and MPIE to MIE, clears MIE, and goes to mtvec in M mode. After reset firmware delegates every
cause but ECALL from S mode, so an ECALL from S enters M mode (R103; medeleg's value is log entry 3). -/
def Obligations.MachineTrapEntry : Prop :=
  (∀ (s : State) (cause : Nat) (v : Word), s.me.priv = .m ∨ s.me.medeleg.getLsbD cause = false →
    OnlyCtx s (s.raise cause v) s.cur ∧
    (let d := (s.raise cause v).me
     d.mepc = s.me.pc ∧ d.mcause = BitVec.ofNat 64 cause ∧ d.mtval = v ∧ d.priv = .m ∧ d.pc = s.me.mtvec &&& ~~~3#64 ∧
     (d.mstatus.extractLsb' 11 2).toNat = s.me.priv.code ∧ d.mstatus.getLsbD 7 = s.me.mstatus.getLsbD 3 ∧ d.mstatus.getLsbD 3 = false ∧
     d.reservation = none ∧ d.x = s.me.x ∧ d.f = s.me.f ∧ d.sepc = s.me.sepc ∧ d.scause = s.me.scause ∧ d.stval = s.me.stval)) ∧
  (∀ c, c < 64 → (Ctx.reset.medeleg.getLsbD c = true ↔ c ≤ 8 ∨ c = 12 ∨ c = 13 ∨ c = 15 ∨ (24 ≤ c ∧ c ≤ 31) ∨ (48 ≤ c ∧ c ≤ 50)))

/-- O22. Park and hold (R113, R128). A delegated exception of U mode whose disposition is park or hold, and any delegated one while stvec is 0, is not
entered: the context is Frozen where it stands, with sepc, scause and stval as for handle and its pc, mode and registers unchanged, and is marked for
its hold where the disposition is hold, and else for its park. After reset every standard cause 0 to 7 and every device cause parks, and the page
faults are handled. A request to stop that meets it is dropped and counted (R114); a kill (R337) stays. stval is the exception's own value; in compare
mode the address of a refusal or a timeout is B's own (R381). -/
def Obligations.ParkAndHold : Prop :=
  (∀ (s : State) (cause : Nat) (v : Word), s.me.priv ≠ .m → s.me.medeleg.getLsbD cause = true →
    (s.me.stvec = 0 ∨ (s.me.priv = .u ∧ s.me.disposition cause ≠ 0)) →
    (let d := (s.raise cause v).me
     d.status = .frozen ∧ d.sepc = s.me.pc ∧ d.scause = BitVec.ofNat 64 cause ∧ d.stval = s.shownTval cause v ∧ d.pc = s.me.pc ∧ d.priv = s.me.priv ∧
     d.x = s.me.x ∧ d.f = s.me.f ∧ d.mstatus = s.me.mstatus ∧ d.stop = s.me.stop.filter (fun q => q.kill) ∧ d.reservation = none ∧
     (s.replay.cmp = false ∨ (cause ≠ 25 ∧ cause ≠ 28) → s.shownTval cause v = v) ∧
     (∃ h, d.held = some h ∧ h.cause = cause ∧ h.stval = s.shownTval cause v ∧ (h.parking = true ↔ (s.me.priv = .u ∧ s.me.disposition cause = 1) ∨
        (s.me.stvec = 0 ∧ (s.me.priv = .u → s.me.disposition cause = 0)))) ∧
     (∀ j, j ≠ s.cur → (s.raise cause v).ctx j = s.ctx j) ∧ (s.raise cause v).mem = s.mem ∧
     ((s.raise cause v).die (dieOf s.cur)).dropped = (s.die (dieOf s.cur)).dropped + (if s.me.stop.any (fun q => !q.kill) then 1 else 0))) ∧
  (∀ c, Ctx.reset.disposition c = if c ≤ 7 ∨ (24 ≤ c ∧ c ≤ 31) ∨ (48 ≤ c ∧ c ≤ 50) then 1 else 0)

/-- O23. ECALL and EBREAK (R76, R103). ECALL raises cause 8, 9 or 11 by the mode it is executed in, with stval 0, whatever qfdisp holds: from U mode
with a handler it enters that handler. EBREAK raises cause 3 with its own pc as stval; in a context that a debugger has claimed it halts the context
instead, with pc at the EBREAK, and HITCTX and HIT name it (R373); that it halts at once inside an open packet too, the packet discarded, is
the model's reading (log entry 69). -/
def Obligations.EnvironmentCalls : Prop :=
  (∀ s : State, exec .ecall s = .next (s.raise (if s.me.priv = .u then 8 else if s.me.priv = .s then 9 else 11) 0)) ∧
  (∀ s : State, s.me.priv = .u → s.me.medeleg.getLsbD 8 = true → s.me.stvec ≠ 0 → s.me.qfdisp.extractLsb' 16 2 = 0 →
    ∃ t, exec .ecall s = .next t ∧ t.me.priv = .s ∧ t.me.pc = s.me.stvec &&& ~~~3#64 ∧ t.me.sepc = s.me.pc ∧ t.me.scause = 8 ∧ t.me.stval = 0) ∧
  (∀ s : State, s.me.claimed = false → exec .ebreak s = .next (s.raise 3 s.me.pc)) ∧
  (∀ s : State, s.me.claimed = true → ∃ t, exec .ebreak s = .next t ∧ t.me.status = .frozen ∧ t.me.pc = s.me.pc ∧ t.me.x = s.me.x ∧
    t.me.packet = none ∧ (t.die (dieOf s.cur)).hit = true ∧ (t.die (dieOf s.cur)).hitctx = BitVec.ofNat 17 (s.reportCtx s.cur) ∧ t.mem = s.mem)

/-- O24. The returns from a trap (R112, R113; the privileged specification). SRET in S mode without TSR, and in M mode, goes to sepc in the mode SPP
names, with SIE from SPIE, SPIE set and SPP cleared; MRET in M mode goes to mepc in the mode MPP names, with MIE from MPIE, MPIE set and MPP
cleared. They redirect pc themselves, so no loop counts them (R111). Elsewhere they raise the illegal-instruction exception (R72). -/
def Obligations.TrapReturns : Prop :=
  (∀ s : State, s.me.priv = .m ∨ (s.me.priv = .s ∧ s.me.mstatus.getLsbD 22 = false) →
    ∃ t, exec (.xret false) s = .next t ∧ OnlyCtx s t s.cur ∧ t.me.pc = s.me.sepc ∧
      t.me.priv = (if s.me.mstatus.getLsbD 8 then .s else .u) ∧ t.me.mstatus.getLsbD 1 = s.me.mstatus.getLsbD 5 ∧
      t.me.mstatus.getLsbD 5 = true ∧ t.me.mstatus.getLsbD 8 = false ∧ t.me.x = s.me.x ∧ t.me.f = s.me.f ∧ t.me.qloop = s.me.qloop ∧
      t.me.sepc = s.me.sepc ∧ t.me.scause = s.me.scause) ∧
  (∀ s : State, s.me.priv = .m →
    ∃ t, exec (.xret true) s = .next t ∧ OnlyCtx s t s.cur ∧ t.me.pc = s.me.mepc ∧
      t.me.priv = (if s.me.mstatus.extractLsb' 11 2 = 3 then .m else if s.me.mstatus.extractLsb' 11 2 = 0 then .u else .s) ∧
      t.me.mstatus.getLsbD 3 = s.me.mstatus.getLsbD 7 ∧ t.me.mstatus.getLsbD 7 = true ∧ t.me.mstatus.extractLsb' 11 2 = 0 ∧
      t.me.x = s.me.x ∧ t.me.f = s.me.f ∧ t.me.qloop = s.me.qloop) ∧
  (∀ (s : State) (m : Bool), s.me.priv = .u ∨ (s.me.priv = .s ∧ (m = true ∨ s.me.mstatus.getLsbD 22 = true)) →
    exec (.xret m) s = .next (s.raise 2 (wordOf (.xret m))))

/-- O25. An S-mode instruction in U mode, and a context-0 instruction in a helper, raise the illegal-instruction exception with the word as stval
and are not performed; so does ACC.F in replay compare mode, and SFENCE.VMA in S mode under TVM (R72). A word that is no instruction raises the
illegal-instruction exception with the word as stval, and so do in particular every word whose bits [1:0] are not 11, every word whose bits [4:2]
are 111, the all-zero word and the all-ones word (R61, R76). -/
def Obligations.IllegalInstructions : Prop :=
  (∀ s : State,
    (s.me.priv = .u → (∀ a b, exec (.sfenceVma a b) s = .next (s.raise 2 (wordOf (.sfenceVma a b)))) ∧
      (∀ ic sc a b, exec (.qsfence ic sc a b) s = .next (s.raise 2 (wordOf (.qsfence ic sc a b)))) ∧
      (∀ d a b, exec (.pgmig d a b) s = .next (s.raise 2 (wordOf (.pgmig d a b)))) ∧
      (∀ a, exec (.tresume a) s = .next (s.raise 2 (wordOf (.tresume a)))) ∧ ∀ a, exec (.tkill a) s = .next (s.raise 2 (wordOf (.tkill a)))) ∧
    (s.me.priv = .s → s.me.mstatus.getLsbD 20 = true → ∀ a b, exec (.sfenceVma a b) s = .next (s.raise 2 (wordOf (.sfenceVma a b)))) ∧
    (s.cur % 12 ≠ 0 → (∀ d a b, exec (.hstart d a b) s = .next (s.raise 2 (wordOf (.hstart d a b)))) ∧
      (∀ d a, exec (.evpop d a) s = .next (s.raise 2 (wordOf (.evpop d a)))) ∧ ∀ d a, exec (.evwait d a) s = .next (s.raise 2 (wordOf (.evwait d a)))) ∧
    (s.replay.cmp = true → ∀ a b, exec (.accF a b) s = .next (s.raise 2 (wordOf (.accF a b))))) ∧
  ((∀ (w : BitVec 32) (s : State), (∀ i, decode w ≠ .ok i) → exec (decodeWord w) s = .next (s.raise 2 (w.setWidth 64))) ∧
  (∀ (w : BitVec 32) (s : State), exec (.illegalInstructionWord w) s = .next (s.raise 2 (w.setWidth 64))) ∧
  (∀ w : BitVec 32, w.extractLsb' 0 2 ≠ 3 ∨ w.extractLsb' 2 3 = 7 → ∀ i, decode w ≠ .ok i) ∧
  (∀ i, decode 0#32 ≠ .ok i) ∧ (∀ i, decode (BitVec.allOnes 32) ≠ .ok i))

/-- O26. WRS.NTO and WRS.STO (R103): with no reservation they complete at once, counted as a zero-wait edge (R17); with one the context leaves the
rotation, its pc at the instruction, until the reservation is lost or the time of qmtmo, or 1 microsecond, has passed. The end by timeout raises no
exception: it wakes the context, with the core's slot timer as the producer, and nothing else changes; before the time has passed it does
nothing. Where the context goes back into its slot (R98) the instruction retires there, with the edge record of that wake (R17). -/
def Obligations.ReservationWaits : Prop :=
  (∀ s : State, s.me.reservation = none →
    (∃ t, exec .wrsNto s = .next t ∧ Completed (s.modDie (dieOf s.cur) fun d => { d with zerowait := d.zerowait + 1 }) t) ∧
    ∃ t, exec .wrsSto s = .next t ∧ Completed (s.modDie (dieOf s.cur) fun d => { d with zerowait := d.zerowait + 1 }) t) ∧
  (∀ (s : State) (r : Reservation), s.me.reservation = some r →
    (∃ t, exec .wrsNto s = .next t ∧ Waits s t .wrsNto ∧ ∃ w, t.me.wait = some w ∧ w.deadline = some (s.now + (s.qmtmo.extractLsb' 0 40).toNat)) ∧
    ∃ t, exec .wrsSto s = .next t ∧ Waits s t .wrsSto ∧ ∃ w, t.me.wait = some w ∧ w.deadline = some (s.now + 1000)) ∧
  (∀ (s : State) (w : Wait) (d : Nat), (s.ctx s.ev.a).status = .waiting → (s.ctx s.ev.a).wait = some w → (s.ctx s.ev.a).wake = none →
    (s.ctx s.ev.a).saveNow = false → w.kind = .wrsNto ∨ w.kind = .wrsSto → w.deadline = some d →
    (d ≤ s.now → exec .wrsTimeout s = .next (s.modCtx s.ev.a fun c => { c with wake := some ⟨0, pcode 6 (s.reportCore (coreOf s.ev.a)), d, 0, true⟩ })) ∧
    (s.now < d → exec .wrsTimeout s = .next s)) ∧
  (∀ (s : State) (w : Wait) (k : Wake), (s.ctx s.ev.a).status = .waiting → (s.ctx s.ev.a).wait = some w → (s.ctx s.ev.a).wake = some k →
    (s.ctx s.ev.a).saveNow = false → (s.die (dieOf s.ev.a)).stopped = false → w.kind = .wrsNto ∨ w.kind = .wrsSto →
    ∃ u, u = s.edge (dieOf s.ev.a) (s.ctx s.ev.a).qtid k w.kind.code ∧
      exec .contextReinsertion s = .next ((u.modCtx s.ev.a fun c =>
        { c with status := .running, wait := none, wake := none, request := none }).retireCtx s.ev.a))

/-- O27. The operations that a context posts through its store buffer complete by entering it, behind what is there: WBR, INVR and WBINVR of a range
whose pages translate, DISCT of a tensor (R201, R202), TREL and TFWD (R221, R222), CPSTEP as a release with the stage cut at 255 (R293), CPMARK and
TRACE (R365). A range of no bytes, and tensor 0, do nothing. A range that runs past 2^64 raises cause 7, or 5 for INVR, with its base as stval.
FENCE.S with an empty set does nothing; else it waits for the classes of its predecessor set (R199). What performing an entry that R201 and R202
name, or a release of a tile, does where there is nothing to do: a range over a scratchpad or I/O page (R201), DISCT of tensor 0, and TREL of a tile
that the cluster does not hold (R221) leave the module as it is but for the entry. -/
def Obligations.BufferedOperations : Prop :=
  ((∀ (s : State) (a b : Reg), s.xr b = 0 →
    (∃ t, exec (.wbr a b) s = .next t ∧ Completed s t) ∧ (∃ t, exec (.invr a b) s = .next t ∧ Completed s t) ∧
    ∃ t, exec (.wbinvr a b) s = .next t ∧ Completed s t) ∧
  (∀ (s : State) (a b : Reg), (s.cluster (clusterOf s.cur)).busy = false → 2 ^ 64 < (s.xr a).toNat + (s.xr b).toNat →
    exec (.wbr a b) s = .next (s.raise 7 (s.xr a)) ∧ exec (.invr a b) s = .next (s.raise 5 (s.xr a)) ∧
    exec (.wbinvr a b) s = .next (s.raise 7 (s.xr a))) ∧
  (∀ (s u : State) (a b : Reg) (ps : List (Xlat × Nat)), s.xr b ≠ 0 → (s.cluster (clusterOf s.cur)).busy = false →
    (s.xr a).toNat + (s.xr b).toNat ≤ 2 ^ 64 →
    (s.rangePages .store ((s.xr b).toNat / 4096 + 2) (s.xr a).toNat ((s.xr a).toNat + (s.xr b).toNat) = .ok (u, ps, none) →
      (∃ t, exec (.wbr a b) s = .next t ∧ Completed (u.enter (.range false ps) false) t) ∧
      ∃ t, exec (.wbinvr a b) s = .next t ∧ Completed (u.enter (.range true ps) false) t) ∧
    (s.rangePages .load ((s.xr b).toNat / 4096 + 2) (s.xr a).toNat ((s.xr a).toNat + (s.xr b).toNat) = .ok (u, ps, none) →
      ∃ t, exec (.invr a b) s = .next t ∧ Completed (u.enter (.range true ps) false) t)) ∧
  (∀ (s : State) (a : Reg), ∃ t, exec (.disct a) s = .next t ∧
    Completed (if (s.xr a).extractLsb' 0 12 = 0 then s else s.enter (.disct ((s.xr a).extractLsb' 0 12)) false) t) ∧
  (∀ (s u : State) (x : Xlat) (a : Reg) (sc : BitVec 3), s.tileAddr .store (s.xr a).toNat = .ok (u, x) →
    u.watch true (s.xr a).toNat 1 = .ok () → ∃ t, exec (.trel a sc) s = .next t ∧ Completed (u.enter (.trel x.pa) true) t) ∧
  (∀ (s u : State) (x : Xlat) (rel : Bool) (a b : Reg), s.tileAddr .store (s.xr a).toNat = .ok (u, x) →
    (u.coreLive (u.xr b).toNat = false → exec (.tfwd rel a b) s = .next (s.raise 24 (BitVec.ofNat 64 ((s.xr a).toNat / 16 * 16 + 7)))) ∧
    (u.coreLive (u.xr b).toNat = true → u.watch true (s.xr a).toNat 1 = .ok () →
      ∃ t, exec (.tfwd rel a b) s = .next t ∧ Completed (u.enter (.tfwd x.pa x.slice (s.xr a) (u.ownCore (u.xr b).toNat) false) rel) t)) ∧
  (∀ (s : State) (a : Reg), ∃ t, exec (.cpstep a) s = .next t ∧ Completed (s.enter (.cpstep s.me.launch (min (s.xr a).toNat 255)) true) t) ∧
  (∀ (s : State) (a b : Reg), (∃ t, exec (.cpmark a) s = .next t ∧ Completed (s.enter (.cpmark (BitVec.ofNat 32 (s.xr a).toNat)) false) t) ∧
    ∃ t, exec (.trace a b) s = .next t ∧ Completed (s.enter (.trace (s.xr a) (s.xr b)) false) t) ∧
  (∀ (s : State) (p q : Reg) (sc : BitVec 3), (p = 0 ∨ q = 0 → ∃ t, exec (.fenceS p q sc) s = .next t ∧ Completed s t) ∧
    (p ≠ 0 → q ≠ 0 → ∃ (u t : State), u = (if p.getLsbD 0 ∨ p.getLsbD 1 ∨ p.getLsbD 3 ∨ p.getLsbD 4 then s.drainStores s.cur else s) ∧
      exec (.fenceS p q sc) s = .next t ∧ Completed (if p.getLsbD 2 then u.settleAcc u.cur else u) t))) ∧
  ((∀ (s : State) (g n : Nat) (inv : Bool) (x : Xlat), x.mt = .scratch ∨ x.mt = .io ∨ n = 0 → s.rangePiece g inv x n = s) ∧
  (∀ s : State, s.discard 0 = s) ∧
  (∀ (s : State) (g pa : Nat) (task : Word), (∀ t, s.tileAt pa = some t → t.holders.contains g = false) → s.releaseTile g pa task = s))

/-- O28. Tiles. TDECL of a descriptor in range over pages that hold T = 1, that meets no tile and finds room, declares the tile in H (R218); TFREE of
a declared tile, once the context's stores are performed and the tile is recalled, leaves no tile at its base (R219); TACQ of a declared tile
completes, and where the issuing cluster already holds the tile in M, or asks only to share it, nothing moves (R220); TSTAT completes with the word of
R224, or 0 where no tile is declared there. TFREE and TACQ of an address that is no tile's base take the tile fault with reason 6; a descriptor out of
range takes reason 1, a page with T = 0 reason 2. -/
def Obligations.TilesComplete : Prop :=
  (∀ (s u v w : State) (x : Xlat) (n : Nat) (ps : Pages) (d : TileDesc) (rs1 : Reg) (vas : List Nat) (sec : Table (BitVec 8)) (pa home : Nat),
    (s.xr rs1).toNat % 32 = 0 → s.deviceRead .store needR (s.xr rs1).toNat 32 = .ok (u, x, n) → d = TileDesc.ofNat n → d.ok = true →
    vas = ((d.sectorVas.filter fun va => va % 4096 = 0 || (va - d.base) % d.pitch = 0).foldl (fun (acc : List Nat) va =>
      if acc.any (fun u => u / 4096 = va / 4096) then acc else va :: acc) []).reverse →
    u.tilePages (if d.zero then needRW else needR) vas = .ok (v, ps, none) → pageReason ps [] = none → w = v.drainStores v.cur →
    sec = sectorTable (d.physSectors ps) → w.tileConflict sec = none → pa = ((pageAt ps d.base).map (·.pa)).getD 0 →
    home = lineHome ps (pa / 128) → w.tileRoom home ps sec = true → w.watch true d.base 1 = .ok () →
    ∃ (y z t : State), y = sec.foldl (fun s p => s.claimLine p.1) w ∧
      z = { y with tiles := y.tiles ++ [⟨pa, BitVec.ofNat 64 d.base, d.rows, d.rowBytes, d.pitch, BitVec.ofNat 5 d.fmt, BitVec.ofNat 12 d.tensor,
        d.keep, ps, sec, home, .h, [], 0, 0, 0, 0, []⟩] } ∧
      exec (.tdecl rs1) s = .next t ∧
      Completed (if d.zero then (d.physSectors ps).foldl (fun s p => s.homeWriteAt (some (lineHome ps (p.1 / 8))) (16 * p.1) 16 0 (s.byCtx s.cur) s.me.launch) z
        else z) t) ∧
  (∀ (s u : State) (x : Xlat) (n : Nat) (rs1 : Reg), (s.xr rs1).toNat % 32 = 0 → s.deviceRead .store needR (s.xr rs1).toNat 32 = .ok (u, x, n) →
    (TileDesc.ofNat n).ok = false →
    exec (.tdecl rs1) s = .next (s.raise 24 (BitVec.ofNat 64 ((TileDesc.ofNat n).base / 16 * 16 + 1)))) ∧
  (∀ (s u : State) (x : Xlat) (a : Reg) (q : Tile), s.tileAddr .store (s.xr a).toNat = .ok (u, x) → u.tileAt x.pa = some q →
    u.watch true (s.xr a).toNat 1 = .ok () →
    (∀ v w : State, v = (u.drainStores u.cur).tilePush q false → (v.tileAt x.pa = none → w = v) →
      (∀ r, v.tileAt x.pa = some r → w = v.tileRecall r (v.sliceWake v.me.qtid r.home)) →
      ∃ t : State, exec (.tfree a) s = .next t ∧ Completed ({ w with tiles := w.tiles.filter fun y => y.pa ≠ x.pa } : State) t ∧ t.tileAt x.pa = none) ∧
    (q.st = .h → q.holders = [] → (∀ e ∈ (u.core (coreOf u.cur)).storeBuffer, e.cid ≠ u.cur) → (∀ e ∈ (u.core (coreOf u.cur)).posted, e.cid ≠ u.cur) →
      ∃ t : State, exec (.tfree a) s = .next t ∧ Completed ({ u with tiles := u.tiles.filter fun y => y.pa ≠ x.pa } : State) t)) ∧
  (∀ (s u : State) (x : Xlat) (a : Reg), s.tileAddr .store (s.xr a).toNat = .ok (u, x) → u.tileAt x.pa = none →
    exec (.tfree a) s = .next (s.raise 24 (BitVec.ofNat 64 ((s.xr a).toNat / 16 * 16 + 6)))) ∧
  (∀ (s u : State) (x : Xlat) (a : Reg) (sc : BitVec 3) (ex : Bool) (q : Tile), s.tileAddr .load (s.xr a).toNat = .ok (u, x) →
    u.tileAt x.pa = some q → u.watch false (s.xr a).toNat 1 = .ok () →
    (∃ t : State, exec (.tacq a sc ex) s = .next t ∧ Completed (u.tileRequest q (clusterOf u.cur) ex u.me.tid u.me.qtid) t) ∧
    (q.holders.contains (clusterOf s.cur) = true → q.st = .m ∨ ((q.st = .e ∨ q.st = .s) ∧ ex = false) →
      ∃ t, exec (.tacq a sc ex) s = .next t ∧ Completed u t)) ∧
  (∀ (s u : State) (x : Xlat) (a : Reg) (sc : BitVec 3) (ex : Bool), s.tileAddr .load (s.xr a).toNat = .ok (u, x) → u.tileAt x.pa = none →
    exec (.tacq a sc ex) s = .next (s.raise 24 (BitVec.ofNat 64 ((s.xr a).toNat / 16 * 16 + 6)))) ∧
  (∀ (s u : State) (x : Xlat) (rd a : Reg), s.tileAddr .load (s.xr a).toNat = .ok (u, x) → u.watch false (s.xr a).toNat 1 = .ok () →
    (u.tileAt x.pa = none → ∃ t, exec (.tstat rd a) s = .next t ∧ Completed (u.setXr rd 0) t) ∧
    (∀ q, u.tileAt x.pa = some q → ∃ t, exec (.tstat rd a) s = .next t ∧ Completed (u.setXr rd (BitVec.ofNat 64 (u.tileWord q (clusterOf u.cur)))) t ∧
      (BitVec.ofNat 64 (u.tileWord q (clusterOf u.cur))).getLsbD 0 = true))

/-- O29. Accumulates and FLRES. An ACC whose checks pass enters its core's vector queue with the 1,024 bits of addends that its register holds, at
cost 1, or 2 for ACC.X, whose scale is the signed low byte of rs2 (R233). The checks of each follow R234: a destination that is not a multiple of 128
raises cause 6, and one that is neither device HBM nor a peer window with PBMT 00 raises cause 48. FLRES completes once the residuals of its range are
delivered: a field of x0 gives base 0, or every byte from the base on; an empty range only waits (R245). -/
def Obligations.AccumulatesComplete : Prop :=
  (∀ (s u : State) (x : Xlat) (vs a b : Reg), s.me.windowFault [vs] = none → s.vecFull = false → s.accDest (s.xr a).toNat = .ok (u, x) →
    ∃ o : AccForm → Int → AccOp, (∀ (form : AccForm) (sc : Int), o form sc = ⟨form, x, (u.vr vs).setWidth 1024, sc, bits u.me.satp 59 44, BitVec.ofNat 12 u.me.qtensid.toNat, u.me.qtid⟩) ∧
      (s.replay.cmp = false → ∃ t, exec (.accF vs a) s = .next t ∧ Completed (u.enqueueV 1 1 false (some (o .f 0))) t) ∧
      (∃ t, exec (.accX vs a b) s = .next t ∧ Completed (u.enqueueV 1 2 false (some (o .x ((s.xr b).setWidth 8).toInt))) t) ∧
      ∃ t, exec (.accI vs a) s = .next t ∧ Completed (u.enqueueV 1 1 false (some (o .i 0))) t) ∧
  (∀ (s : State) (vs a b : Reg), s.me.windowFault [vs] = none → s.vecFull = false → (s.xr a).toNat % 128 ≠ 0 →
    exec (.accI vs a) s = .next (s.raise 6 (s.xr a)) ∧ exec (.accX vs a b) s = .next (s.raise 6 (s.xr a)) ∧
    (s.replay.cmp = false → exec (.accF vs a) s = .next (s.raise 6 (s.xr a)))) ∧
  (∀ (s u : State) (x : Xlat) (vs a b : Reg), s.me.windowFault [vs] = none → s.vecFull = false → (s.xr a).toNat % 128 = 0 →
    s.xlate (s.view s.cur) needW (s.xr a).toNat = .ok (u, x) → regionOf x.pa ≠ .cfg → x.mt ≠ .hbm → x.mt ≠ .peer →
    u.accessOk .write x.pa 128 = true → u.pmpOk (s.view s.cur) (s.view s.cur).priv needW x.pa 128 = true →
    exec (.accI vs a) s = .next (s.raise 48 (s.xr a)) ∧ exec (.accX vs a b) s = .next (s.raise 48 (s.xr a)) ∧
    (s.replay.cmp = false → exec (.accF vs a) s = .next (s.raise 48 (s.xr a)))) ∧
  (∀ (s : State) (a b : Reg), ∃ base stop t, base = (if a = 0 then 0 else (s.xr a).toNat) ∧
    stop = (if b = 0 then 2 ^ 64 else base + (s.xr b).toNat) ∧ exec (.flres a b) s = .next t ∧
    Completed (if stop = base then s.settleAcc s.cur else s.flushRange s.cur base stop (s.me.satp.extractLsb' 44 16).toNat) t)

/-- O30. CPY in its four forms (R285, R286). Where the pages translate, the completion target is valid and free, the size is at most 2^32 (and for .dc
a multiple of 4,096 with an aligned source), the ranges may be copied and the queue of 64 that staging fetches share has room, the instruction
completes: the target handle goes from free to filling, and the operation stands last in the cluster's queue with none of its bytes done; one of no
bytes is at its end. A size above 2^32 raises cause 29 with the target word. While the queue is full the context presents the instruction again
(R286). -/
def Obligations.CopiesIssue : Prop :=
  (∀ (s u v w : State) (dc ph : Bool) (d a b c : Reg) (dp sp sq : Pages) (tg : Target) (j : Option Nat),
    (s.cluster (clusterOf s.cur)).busy = false →
    s.copyScan (s.view s.cur) dc (s.xr a).toNat (s.xr b).toNat (s.xr c).toNat = .ok (u, dp, sp, none) →
    u.targetOf ph (s.xr d) = .ok (v, some tg, none) → (s.xr c).toNat ≤ 2 ^ 32 → (dc = true → (s.xr c).toNat % 4096 = 0 ∧ (s.xr b).toNat % 16 = 0) →
    v.sealedScan (v.view v.cur) sp dc (s.xr b).toNat (s.xr c).toNat = .ok (w, sq, j, none) →
    w.copyRangesOk j (clusterOf s.cur) w.me.qtid dc ph dp sq (s.xr a).toNat (s.xr b).toNat (s.xr c).toNat = true → w.targetFree tg = true →
    w.watchAll ([(true, (s.xr a).toNat, 1), (false, (s.xr b).toNat, 1)] ++ if ph then [(true, (s.xr d).toNat, 1)] else []) = .ok () →
    ∃ (y z : State) (o : CopyOp) (i : Instr),
      y = (w.targetTaken tg (pcode 1 (w.reportCluster (clusterOf s.cur)))).veil j tg dp (s.xr a).toNat (s.xr c).toNat ∧
      o = (⟨s.xr b, s.xr a, (s.xr c).toNat, dc, tg, sq, dp, y.cur, y.me.qtid, y.me.pc, y.me.tid, 0, 0, j, none, none, y.now, y.sealedTurn j⟩ : CopyOp) ∧
      z = y.modCluster (clusterOf s.cur) (fun k => { k with copies := k.copies ++ [o] }) ∧
      i = (if dc then (if ph then .cpyDcPh d a b c else .cpyDc d a b c) else if ph then .cpyPh d a b c else Instr.cpy d a b c) ∧
      (w.copyLoad (clusterOf s.cur) < 64 → ∃ t, exec i s = .next t ∧
        Completed (if s.xr c = 0 ∧ j = none then z.copyAdvance (clusterOf s.cur) ((z.cluster (clusterOf s.cur)).copies.length - 1) 0 else z) t) ∧
      (64 ≤ w.copyLoad (clusterOf s.cur) → exec i s = .next w)) ∧
  (∀ (s u v w : State) (d a b c : Reg) (dp sp sq : Pages) (tg : Option Target) (j : Option Nat), (s.cluster (clusterOf s.cur)).busy = false →
    s.copyScan (s.view s.cur) false (s.xr a).toNat (s.xr b).toNat (s.xr c).toNat = .ok (u, dp, sp, none) →
    u.targetOf false (s.xr d) = .ok (v, tg, none) → v.sealedScan (v.view v.cur) sp false (s.xr b).toNat (s.xr c).toNat = .ok (w, sq, j, none) →
    2 ^ 32 < (s.xr c).toNat → exec (.cpy d a b c) s = .next (s.raise 29 (s.xr d))) ∧
  (∀ (s : State) (g h : Nat) (w : Word) (code : BitVec 32), s.targetFree (.handle g h w) = true →
    (s.handle g h).st = 0 ∧ ((s.targetTaken (.handle g h w) code).handle g h).st = 1 ∧ ((s.targetTaken (.handle g h w) code).handle g h).err = false)

/-- O31. Buffer handles (R284, R289, R290). BHWAIT completes at once, as a zero-wait edge, where the handle's state is in the set or ERR is set,
with the handle's word in rd; else the context waits. BHSET completes with the handle free or draining where R284 lists the transition. An invalid
handle word, an empty set or reserved bits in it, and a value that is neither 0 nor 3 raise cause 29 with the handle word, and so does a transition
that R284 does not list. -/
def Obligations.BufferHandles : Prop :=
  (∀ (s : State) (rd a b : Reg), s.handleOf (s.xr a) false = none ∨ (s.xr b).extractLsb' 0 4 = 0 ∨ (s.xr b).extractLsb' 4 60 ≠ 0 →
    exec (.bhwait rd a b) s = .next (s.raise 29 (s.xr a))) ∧
  (∀ (s : State) (rd a b : Reg) (g h : Nat), s.handleOf (s.xr a) false = some (g, h) → (s.xr b).extractLsb' 0 4 ≠ 0 → (s.xr b).extractLsb' 4 60 = 0 →
    ((s.handle g h).err = true ∨ (s.xr b).getLsbD (s.handle g h).st.toNat = true →
      ∃ t, exec (.bhwait rd a b) s = .next t ∧ Completed ((s.modDie (dieOf s.cur) fun d => { d with zerowait := d.zerowait + 1 }).setXr rd
        (BitVec.ofNat 64 ((s.handle g h).st.toNat + if (s.handle g h).err then 4 else 0))) t) ∧
    ((s.handle g h).err = false → (s.xr b).getLsbD (s.handle g h).st.toNat = false → ∃ t, exec (.bhwait rd a b) s = .next t ∧ Waits s t .bhwait)) ∧
  (∀ (s : State) (a b : Reg), s.handleOf (s.xr a) false = none ∨ (s.xr b ≠ 0 ∧ s.xr b ≠ 3) → exec (.bhset a b) s = .next (s.raise 29 (s.xr a))) ∧
  (∀ (s u : State) (a b : Reg) (g h : Nat), s.handleOf (s.xr a) false = some (g, h) → u = s.settleMe →
    (s.xr b = 3 → (u.handle g h).st = 2 → ∃ (v t : State), v = u.changeHandle g h 3 (u.handle g h).err u.me.qtid (pcode 0 (u.reportCore (coreOf u.cur))) ∧
      exec (.bhset a b) s = .next t ∧ Completed v t ∧ (t.handle g h).st = 3) ∧
    (s.xr b = 0 → (u.handle g h).st = 2 ∨ (u.handle g h).st = 3 ∨ ((u.handle g h).st = 1 ∧ (u.handle g h).err = true) →
      ∃ (v t : State), v = u.changeHandle g h 0 false u.me.qtid (pcode 0 (u.reportCore (coreOf u.cur))) ∧
        exec (.bhset a b) s = .next t ∧ Completed v t ∧ (t.handle g h).st = 0 ∧ (t.handle g h).err = false) ∧
    (s.xr b = 3 ∧ (u.handle g h).st ≠ 2 ∨ s.xr b = 0 ∧ ((u.handle g h).st = 0 ∨ (u.handle g h).st = 1 ∧ (u.handle g h).err = false) →
      exec (.bhset a b) s = .next (u.raise 29 (s.xr a))))

/-- O32. Stack-engine commands and STGREQ. HSGATH, HSRED, HSCONV and HSGEMV complete where the checks of R298 pass: the descriptor translates and lies
in device HBM, its fields are in range, every operand range translates to device HBM, HSRED's sources are read and aligned, the primary operand lies
in one panel, HSRED's destination overlaps no source but source 0, the target is valid and free, and nothing named is watched. One command of their
kind, nothing of it done, with the descriptor, the target and the translations captured, then stands last in the list of its lead stack, every other
list as it was. The lead stack is that of the primary operand's first byte; where HSGATH's table does not translate at issue, that of its
destination (the model's choice: log entry 58). A descriptor address that is not a multiple of 64 raises cause 6 (R295). STGREQ of a declaration
whose address is not a multiple of 16 raises cause 6; one whose head, entries, pages and target core pass its checks completes with the request last
at the dispatcher of the target core's die (R294); one of a bad head, a bad entry or an absent core, its pages translated, raises cause 31. -/
def Obligations.EngineCommandsIssue : Prop :=
  (∀ (s : State) (op : StackOp) (i : Instr) (a b : Reg),
    i = (match op with
      | .gath => .hsgath a b
      | .red => .hsred a b
      | .conv => .hsconv a b
      | .gemv => .hsgemv a b) →
    ((s.xr a).toNat % 64 ≠ 0 → exec i s = .next (s.raise 6 (s.xr a))) ∧
    (∀ (u v w x y z : State) (dx : Xlat) (raw n0 base : Nat) (srcs : List Nat) (lp ps : Pages) (tg : Target) (d : BitVec 512) (q : StackDesc),
      (s.xr a).toNat % 64 = 0 → s.access .store needRW .write (s.xr a).toNat 64 = .ok (u, dx) → dx.mt = .hbm ∨ dx.mt = .sw →
      u.loadBytes dx 64 = (v, raw) → d = BitVec.ofNat 512 raw → stackDescOk op d = true → q = stackDesc d →
      v.stackPages (if op = .red then [(false, q.w18, 8 * q.count)] else []) = .ok (w, lp, none) →
      (x, srcs) = (if op = .red then w.stackSources lp q.w18 q.count else (w, [])) →
      (∀ p ∈ srcs, p % (etypeWidth q.fmt / 8) = 0) →
      x.stackPages (stackRanges op d srcs) = .ok (y, ps, none) → y.targetOf q.ck (y.xr b) = .ok (z, some tg, none) →
      n0 = (match op with
        | .gath => 0
        | .red => q.w28 * (etypeWidth q.fmt / 8)
        | .conv => (q.count * convSrc q.fmt + 7) / 8
        | .gemv => (q.count - 1) * q.pitch + q.w28 * (etypeWidth q.fmt / 8)) →
      (∀ f ∈ ps, ∀ g ∈ ps, q.w10 / 4096 ≤ f.va / 4096 → f.va < q.w10 + n0 → q.w10 / 4096 ≤ g.va / 4096 → g.va < q.w10 + n0 →
        f.pa / 2 ^ 40 % 4 = g.pa / 2 ^ 40 % 4) →
      (op = .red → ∀ p ∈ srcs.drop 1, rangesOverlap
        (physPieces (ps.filter fun f => q.w10 / 4096 ≤ f.va / 4096 && f.va < q.w10 + n0) q.w10 n0)
        (physPieces (ps.filter fun f => p / 4096 ≤ f.va / 4096 && f.va < p + n0) p n0) = false) →
      z.targetFree tg = true →
      z.watchAll ((true, (s.xr a).toNat, 1) :: ((stackRanges op d srcs).map fun r => (r.1, r.2.1, 1)) ++
        (if q.ck then [(true, (y.xr b).toNat, 1)] else [])) = .ok () →
      (∀ f, pageAt ps q.w10 = some f → base = f.pa) →
      (pageAt ps q.w10 = none → (∀ r f, z.xlate (z.view z.cur) needR q.w10 = .ok (r, f) → base = f.pa) ∧
        ∀ e, z.xlate (z.view z.cur) needR q.w10 = .error e → ∀ f, pageAt ps q.w20 = some f → base = f.pa) →
      ∃ (r t : State) (c : StackCmd), r = z.targetTaken tg (pcode 2 (storageStack base)) ∧
        c = ⟨op, d, dx, tg, srcs, ps, (r.view r.cur).satp, (r.view r.cur).priv, (r.view r.cur).sum, (r.view r.cur).mxr, s.cur, r.me.qtid, s.me.pc,
          0, 0, 0, r.now, []⟩ ∧
        exec i s = .next t ∧ Completed { r with stackCmds := t.stackCmds } t ∧
        t.stackList (storageStack base) = s.stackList (storageStack base) ++ [c] ∧
        ∀ k, k ≠ storageStack base → t.stackList k = s.stackList k)) ∧
  (∀ (s : State) (a b : Reg), (s.xr a).toNat % 16 ≠ 0 → exec (.stgreq a b) s = .next (s.raise 6 (s.xr a))) ∧
  (∀ (s u v w z : State) (x : Xlat) (ps : Pages) (h n : Nat) (rs : List (Option StageEntry)) (fs : List StageEntry) (a b : Reg),
    (s.xr a).toNat % 16 = 0 → s.deviceRead .store needR (s.xr a).toNat 16 = .ok (u, x, h) →
    n = (if 1 ≤ h % 16 ∧ h % 16 ≤ 8 ∧ h / 16 % 2 ^ 60 = 0 ∧ h / 2 ^ 96 = 0 then h % 16 else 0) →
    u.pages .store needR ((s.xr a).toNat + 16) (16 * n) = .ok (v, ps) → v.stgreqEntries ((s.xr a).toNat + 16) n = .ok (w, rs) →
    w.stgreqPages ((rs.filterMap id).filter fun e => !e.scratch) = .ok (z, fs, none) →
    (n ≠ 0 → (∀ r ∈ rs, r ≠ none) → (z.xr b).toNat < 8192 → z.coreLive (z.ownCore (z.xr b).toNat) = true → z.watch true (s.xr a).toNat 1 = .ok () →
      ∃ t, exec (.stgreq a b) s = .next t ∧ Completed (z.modDie (dieOfCore (z.ownCore (z.xr b).toNat)) fun d => { d with stagings := d.stagings ++
        [⟨z.ownCore (z.xr b).toNat, none, fs, z.me.tid, z.now, if h / 2 ^ 64 = 0 then (z.qmstage.extractLsb' 20 32).toNat else h / 2 ^ 64, false,
          false, none⟩] }) t) ∧
    (n = 0 ∨ none ∈ rs ∨ 8192 ≤ (z.xr b).toNat ∨ z.coreLive (z.ownCore (z.xr b).toNat) = false →
      exec (.stgreq a b) s = .next (s.raise 31 (s.xr a))))

/-- O33. Helpers (R106 to R109). HSTART in context 0, once its earlier events are performed, completes: with 0 in rd where no helper slot is Idle
with no unread latch; else with the number of the lowest such slot, which then holds a U-mode context at the entry address, a0 holding the argument
and every other x register 0, in the launch and translation of context 0. An entry that is not a multiple of 4 raises cause 0. HEXIT of a helper,
once its earlier events are performed, ends its context with rs1 in its exit latch, and of a task ends the task, and what waited for that end (a
launch being stopped, a kill of context 0) goes on; context 0 waits while helpers of its core are left. HJOIN completes with 0
where there is no helper to wait for, with the latch where it is unread, which it clears, and else waits. FALIGN completes at budget 0, or where the
contexts of its launch in its cluster are aligned, and else waits for at most its budget. -/
def Obligations.HelpersComplete : Prop :=
  (∀ (s u : State) (rd a b : Reg), ctxNum s.cur = 0 → (s.xr a).toNat % 4 = 0 → u = s.settleMe →
    ((∀ j, 1 ≤ j → j ≤ 10 → u.helperFree (coreOf u.cur) j = false) → ∃ t, exec (.hstart rd a b) s = .next t ∧ Completed (u.setXr rd 0) t) ∧
    (∀ j, 1 ≤ j → j ≤ 10 → u.helperFree (coreOf u.cur) j = true → (∀ i, 1 ≤ i → i < j → u.helperFree (coreOf u.cur) i = false) →
      ∃ (v : State) (c : Ctx) (t : State), v = (u.newId u.me.launch (dieOf u.cur)).1.setCtx (coreOf u.cur * 12 + j) c ∧
        exec (.hstart rd a b) s = .next t ∧ Completed (v.setXr rd (BitVec.ofNat 64 j)) t ∧
        c.status = .running ∧ c.priv = .u ∧ c.pc = s.xr a ∧ c.getX 10 = s.xr b ∧ (∀ r : Reg, r ≠ 10 → c.getX r = 0) ∧ (∀ r : Reg, c.getF r = 0) ∧
        c.satp = u.me.satp ∧ c.stvec = u.me.stvec ∧ c.launch = u.me.launch ∧ c.hstarted = true ∧ c.qloop = 0 ∧ c.reservation = none)) ∧
  (∀ (s : State) (rd a b : Reg), ctxNum s.cur = 0 → (s.xr a).toNat % 4 ≠ 0 → exec (.hstart rd a b) s = .next (s.raise 0 (s.xr a))) ∧
  (∀ (s u v : State) (a : Reg), u = s.settleMe → ctxNum s.cur ≠ 0 → (u.ctx s.cur).task = none → v = u.endHelper s.cur (s.xr a) (u.byCtx s.cur) →
    exec (.hexit a) s = .next (v.ended (coreOf s.cur) (u.ctx s.cur).launch) ∧ (v.ctx s.cur).status = .idle) ∧
  (∀ (s u : State) (a : Reg) (e : TaskEntry), u = s.settleMe → ctxNum s.cur ≠ 0 →
    (u.ctx s.cur).task = some e → exec (.hexit a) s = .next ((u.taskExit s.cur e).ended (coreOf s.cur) (u.ctx s.cur).launch)) ∧
  (∀ (v : State) (k key : Nat), (∀ q ∈ v.saved, q.ending = none ∨ coreOf q.cid ≠ k) → (∀ l, v.launchAt key = some l → l.stopping = false) → v.ended k key = v) ∧
  (∀ (s : State) (a : Reg), ctxNum s.cur = 0 →
    (s.helpersGone (coreOf s.cur) = true →
      exec (.hexit a) s = .next ((s.modDie (dieOf s.cur) fun d => { d with zerowait := d.zerowait + 1 }).hexitNow s.cur (s.xr a))) ∧
    (s.helpersGone (coreOf s.cur) = false → ∃ t, exec (.hexit a) s = .next t ∧ Waits s t .hexit)) ∧
  (∀ (s u : State) (rd a : Reg) (n : Nat) (c : Ctx), n = (s.xr a).toNat → c = s.ctx (coreOf s.cur * 12 + n) →
    u = (s.modDie (dieOf s.cur) fun d => { d with zerowait := d.zerowait + 1 }) →
    (n = 0 ∨ 10 < n → ∃ t, exec (.hjoin rd a) s = .next t ∧ Completed (u.setXr rd 0) t) ∧
    (1 ≤ n → n ≤ 10 → ∀ x, tfind (s.core (coreOf s.cur)).latches n = some x →
      ∃ t, exec (.hjoin rd a) s = .next t ∧
        Completed ((u.modCore (coreOf s.cur) fun k => { k with latches := tdel k.latches n }).setXr rd x) t) ∧
    (1 ≤ n → n ≤ 10 → tfind (s.core (coreOf s.cur)).latches n = none →
      (c.hstarted = true ∨ c.status = .reserved → ∃ t, exec (.hjoin rd a) s = .next t ∧ Waits s t .hjoin) ∧
      (c.hstarted = false → c.status ≠ .reserved → ∃ t, exec (.hjoin rd a) s = .next t ∧ Completed (u.setXr rd 0) t))) ∧
  (∀ (s : State) (a : Reg), (s.xr a = 0 → ∃ t, exec (.falign a) s = .next t ∧ Completed s t) ∧
    (s.xr a ≠ 0 → s.aligned s.cur = true → ∃ t, exec (.falign a) s = .next t ∧ Completed (s.falignRelease s.cur) t) ∧
    (s.xr a ≠ 0 → s.aligned s.cur = false → ∃ t, exec (.falign a) s = .next t ∧ Waits s t .falign ∧
      t.me.wait.bind (·.deadline) = some ((s.cycle (dieOf s.cur)).toNat + min (s.xr a).toNat 65535)))

/-- O34. LOOP.SET and LOOP.CLR (R111). LOOP.SET of a count n completes with COUNT = min(n, 2^32 - 1), LEN = imm12 - 1, the loop's start at the next
word and ARMED set, and goes on at that word; of a count of 0, and by LOOP.CLR, ARMED, COUNT and LEN become 0. Nothing else of the context changes
but pc and instret. With an immediate of 0 and an rs1 other than x0 the word is illegal. (MODE of a loop armed in M mode is free: log entry 23.) -/
def Obligations.LoopControl : Prop :=
  (∀ (s : State) (a : Reg) (imm : BitVec 12) (d : Ctx), imm ≠ 0 →
    d = { s.me with qloop := BitVec.ofNat 64 (min (s.xr a).toNat (2 ^ 32 - 1) + (imm.toNat - 1) * 2 ^ 32 + 2 ^ 63 +
          match s.me.priv with
          | .u => 0
          | .s => 2 ^ 62
          | .m => if Config.freeLoopMode then 2 ^ 62 else 0), loopStart := s.me.pc + 4 } →
    (s.xr a ≠ 0 → ∃ t, exec (.loopSet a imm) s = .next t ∧ Completed (s.setCtx s.cur d) t ∧ t.me.pc = s.me.pc + 4 ∧ t.me.qloop = d.qloop) ∧
    (s.xr a = 0 → ∃ t, exec (.loopSet a imm) s = .next t ∧
      Completed (s.modCtx s.cur fun c => { c with qloop := c.qloop &&& 0x4000000000000000#64 }) t)) ∧
  (∀ s : State, ∃ t, exec .loopClr s = .next t ∧ Completed (s.modCtx s.cur fun c => { c with qloop := c.qloop &&& 0x4000000000000000#64 }) t ∧
    t.me.qloop.getLsbD 63 = false ∧ t.me.qloop.extractLsb' 0 44 = 0 ∧ t.me.pc = s.me.pc + 4) ∧
  (∀ (s : State) (a : Reg), a ≠ 0 → exec (.loopSet a 0) s = .next (s.raise 2 (wordOf (.loopSet a 0))))

/-- O35. SPAWN, TNEXT, TARM and LAUNCH (R333 to R336). SPAWN of a valid record, of a launch that the dispatchers know, on dies it may run on: with 0
in rd once the task is on the issuing core's bobbin, where it may run there and the bobbin has room, or with the die that R325 chooses; with 1, and
nothing spawned, where the bobbin is full and has no ring with room for the 8 entries to spill. TNEXT gives the cursor of a range task and advances
it by one, and all ones past its end or in any other context. TARM of a counter of zero arms it with its record, and of an armed one with that
record adds one. LAUNCH writes the record's address plus one in the slot at the queue's tail, advances the tail and gives 0, or gives 1 where the
queue is full. TRESUME and TKILL (R337) outside U mode complete where they name an entry of a fault queue whose state is 0: the task saved there is
resumed, or ended; a word that names no entry, or one whose state is not 0, raises cause 31 with it. -/
def Obligations.TaskInstructionsComplete : Prop :=
  ((∀ (s u v : State) (x : Xlat) (n size : Nat) (e : TaskEntry) (l : Launch) (rd a : Reg), s.deviceRead .load needR (s.xr a).toNat 64 = .ok (u, x, n) →
    (s.xr a).toNat % 64 = 0 → recordValid n = true → u.watch false (s.xr a).toNat 64 = .ok () → v = u.settleMe → v.launchAt v.me.launch = some l →
    e = { entryOf n (s.xr a) v.me.satp v.me.launch with prodTask := v.me.qtid, prodCode := pcode 0 (v.reportCore (coreOf v.cur)), prodAt := v.now } →
    v.allowedDies l e.affinity ≠ [] →
    (dieOf v.cur ∉ v.allowedDies l e.affinity → ∃ t, exec (.spawn rd a) s = .next t ∧ Completed ((v.spawnTo l e false).setXr rd 0) t) ∧
    (dieOf v.cur ∈ v.allowedDies l e.affinity → (v.core (coreOf v.cur)).bobbin.length < 32 →
      ∃ t, exec (.spawn rd a) s = .next t ∧ Completed ((v.spawnTo l e true).setXr rd 0) t) ∧
    (dieOf v.cur ∈ v.allowedDies l e.affinity → 32 ≤ (v.core (coreOf v.cur)).bobbin.length →
      size = ((v.core (coreOf v.cur)).qdeqsize.extractLsb' 0 20).toNat →
      (size = 0 ∨ size < ((v.core (coreOf v.cur)).qdeqsize.extractLsb' 20 20).toNat + 8 →
        ∃ t, exec (.spawn rd a) s = .next t ∧ Completed (v.setXr rd 1) t) ∧
      (size ≠ 0 → ((v.core (coreOf v.cur)).qdeqsize.extractLsb' 20 20).toNat + 8 ≤ size → ∀ w, v.spillBobbin (coreOf v.cur) = .ok w →
        ∃ t, exec (.spawn rd a) s = .next t ∧ Completed ((w.spawnTo l e true).setXr rd 0) t))) ∧
  (∀ (s u : State) (x : Xlat) (n : Nat) (rd a : Reg), s.deviceRead .load needR (s.xr a).toNat 64 = .ok (u, x, n) →
    (s.xr a).toNat % 64 ≠ 0 ∨ recordValid n = false → exec (.spawn rd a) s = .next (s.raise 31 (s.xr a))) ∧
  (∀ (s : State) (rd : Reg), ((∀ e, s.me.task = some e → e.range = false ∨ e.hi ≤ e.cur) →
      ∃ t, exec (.tnext rd) s = .next t ∧ Completed (s.setXr rd (BitVec.ofInt 64 (-1))) t) ∧
    (∀ e, s.me.task = some e → e.range = true → e.cur < e.hi → ∃ (v t : State), exec (.tnext rd) s = .next t ∧ Completed v t ∧
      v.me = { s.me.setX rd (BitVec.ofNat 64 e.cur) with task := some { e with cur := e.cur + 1 } } ∧ v.mem = s.mem ∧
      (∀ j, j ≠ s.cur → v.ctx j = s.ctx j))) ∧
  (∀ (s u v w : State) (x : Xlat) (n : Nat) (a b : Reg), (s.xr a).toNat % 16 = 0 → (s.xr b).toNat % 64 = 0 →
    s.homeObject (s.xr a) 16 31 true (s.xr a) = .ok (u, x) → v = u.settleMe → v.homeReadX x 0 16 = (w, n) →
    u.watch true (s.xr a).toNat 16 = .ok () → (n % 2 ^ 32 = 0 → ∃ t, exec (.tarm a b) s = .next t ∧ Completed ((w.homeWriteX x 0 4 1 (w.byCtx w.cur) w.me.launch).homeWriteX x 8 8
      (s.xr b).toNat (w.byCtx w.cur) w.me.launch) t) ∧
    (n % 2 ^ 32 ≠ 0 → n / 2 ^ 64 = (s.xr b).toNat → n % 2 ^ 32 ≠ 2 ^ 32 - 1 →
      ∃ t, exec (.tarm a b) s = .next t ∧ Completed (w.homeWriteX x 0 4 (n % 2 ^ 32 + 1) (w.byCtx w.cur) w.me.launch) t) ∧
    (n % 2 ^ 32 ≠ 0 → n / 2 ^ 64 ≠ (s.xr b).toNat ∨ n % 2 ^ 32 = 2 ^ 32 - 1 → exec (.tarm a b) s = .next (w.raise 31 (s.xr a)))) ∧
  (∀ (s u v w : State) (x : Xlat) (q : List Nat) (size tail headAt : Nat) (rd a b : Reg), (s.xr a).toNat % 64 = 0 → (s.xr b).toNat % 256 = 0 →
    s.homeObject (s.xr a) 64 49 true (s.xr b) = .ok (u, x) → v = u.settleMe → v.queueHeader x.pa = some (w, q) →
    u.watch true (s.xr a).toNat 64 = .ok () →
    size = q.getD 1 0 % 2 ^ 32 → tail = q.getD 3 0 → headAt = q.getD 4 0 →
    (size ≤ (BitVec.ofNat 64 tail - BitVec.ofNat 64 headAt).toNat → ∃ t, exec (.launch rd a b) s = .next t ∧ Completed (w.setXr rd 1) t) ∧
    ((BitVec.ofNat 64 tail - BitVec.ofNat 64 headAt).toNat < size → ∃ (y z t : State),
      y = w.homeWrite (w.ownPa (if 2 ^ 41 ≤ x.pa then 8 else 0) (q.getD 0 0) + 8 * (tail % size)) 8 ((s.xr b).toNat + 1) (w.byCtx w.cur) w.me.launch ∧
      z = y.homeWrite (x.pa + 24) 8 ((tail + 1) % 2 ^ 64) (w.byCtx w.cur) y.me.launch ∧ exec (.launch rd a b) s = .next t ∧
      Completed ((z.doorbellAt (q.getD 1 0 / 2 ^ 32 % 16) x.pa (some (tail, z.cur, z.now, z.me.qtid)) 0).setXr rd 0) t))) ∧
  ((∀ (s : State) (a : Reg), s.me.priv ≠ .u → s.faultEntry (s.entryPa (s.xr a)) = none →
    exec (.tresume a) s = .next (s.raise 31 (s.xr a)) ∧ exec (.tkill a) s = .next (s.raise 31 (s.xr a))) ∧
  (∀ (s u : State) (a : Reg) (d n : Nat), s.me.priv ≠ .u → s.faultEntry (s.entryPa (s.xr a)) = some d →
    s.settleMe.homeReadLines (s.settleMe.entryPa (s.xr a)) 1 = (u, n) →
    (n / 2 ^ 448 % 4 = 0 → (∃ t, exec (.tresume a) s = .next t ∧ Completed (u.resumeEntry (u.entryPa (s.xr a)) d (u.byCtx u.cur)) t) ∧
      ∃ t, exec (.tkill a) s = .next t ∧ Completed (u.killEntry (u.entryPa (s.xr a)) d (u.byCtx u.cur)) t) ∧
    (n / 2 ^ 448 % 4 ≠ 0 → exec (.tresume a) s = .next (u.raise 31 (s.xr a)) ∧ exec (.tkill a) s = .next (u.raise 31 (s.xr a)))))

/-- O36. Phasers (R342 to R348). Where the checks of an instruction pass, it completes with the object rewritten at its home: PHREG and PHDEREG
change the membership of the next phase and give PHASE + 1; PHBYTES adds to PEND; PHARV counts one arrival, names this context as the last, applies
the rule of R342 and gives the phase it arrived in, PHARV.wt waiting unless the phase completed; PHWAIT completes once PHASE is above its operand,
and else waits. Membership of mode 0 is illegal; a misaligned object, a Reserved bit that is set, a membership out of range, an arrival when ARR =
SIG or PHASE is its last, and too many bytes raise cause 31. -/
def Obligations.PhasersComplete : Prop :=
  (∀ (s u v : State) (x : Xlat) (q : Phaser) (a : Reg), s.phaserAt (s.xr a) = .ok (u, x) →
    (u.ownFirst u.cur x.pa 64).phaser x = (v, q) →
    (q.reservedClear = false → (∀ (rd : Reg) (m : BitVec 2), m ≠ 0 → exec (.phreg rd a m) s = .next (v.raise 31 (s.xr a)) ∧
        exec (.phdereg rd a m) s = .next (v.raise 31 (s.xr a))) ∧
      ∀ b : Reg, exec (.phwait a b) s = .next (v.raise 31 (s.xr a)) ∧ exec (.phbytes a b) s = .next (v.raise 31 (s.xr a))) ∧
    (q.reservedClear = true → ∀ (rd : Reg) (m : BitVec 2), m ≠ 0 →
      ((m.getLsbD 0 = true → q.nxsig + 1 ≤ 8192) → (m.getLsbD 1 = true → q.nxwait + 1 ≤ 8192) →
        ∃ t, exec (.phreg rd a m) s = .next t ∧ Completed ((v.putPhaser x { q with nxsig := q.nxsig + (if m.getLsbD 0 then 1 else 0), nxwait := q.nxwait +
          (if m.getLsbD 1 then 1 else 0) } false (v.byCtx v.cur)).setXr rd (BitVec.ofNat 64 (q.phase + 1))) t) ∧
      (m.getLsbD 0 = true ∧ 8192 < q.nxsig + 1 ∨ m.getLsbD 1 = true ∧ 8192 < q.nxwait + 1 →
        exec (.phreg rd a m) s = .next (v.raise 31 (s.xr a))) ∧
      ((if m.getLsbD 0 then 1 else 0) ≤ q.nxsig → (if m.getLsbD 1 then 1 else 0) ≤ q.nxwait →
        ∃ t, exec (.phdereg rd a m) s = .next t ∧ Completed ((v.putPhaser x { q with nxsig := q.nxsig - (if m.getLsbD 0 then 1 else 0), nxwait := q.nxwait -
          (if m.getLsbD 1 then 1 else 0) } false (v.byCtx v.cur)).setXr rd (BitVec.ofNat 64 (q.phase + 1))) t) ∧
      (q.nxsig < (if m.getLsbD 0 then 1 else 0) ∨ q.nxwait < (if m.getLsbD 1 then 1 else 0) →
        exec (.phdereg rd a m) s = .next (v.raise 31 (s.xr a)))) ∧
    (q.reservedClear = true → ∀ b : Reg,
      ((s.xr b).toNat < 2 ^ 24 → q.pend + (s.xr b).toNat < 2 ^ 24 → ∃ t, exec (.phbytes a b) s = .next t ∧
        Completed (v.putPhaser x { q with pend := q.pend + (s.xr b).toNat } false (v.byCtx v.cur)) t) ∧
      (2 ^ 24 ≤ (s.xr b).toNat ∨ 2 ^ 24 ≤ q.pend + (s.xr b).toNat → exec (.phbytes a b) s = .next (v.raise 31 (s.xr a))) ∧
      ((s.xr b).toNat % 2 ^ 32 < q.phase → ∃ t, exec (.phwait a b) s = .next t ∧
        Completed (v.modDie (dieOf v.cur) fun d => { d with zerowait := d.zerowait + 1 }) t) ∧
      (q.phase ≤ (s.xr b).toNat % 2 ^ 32 → ∃ t, exec (.phwait a b) s = .next t ∧ Waits v t .phwait))) ∧
  (∀ (s u w v : State) (x : Xlat) (q r : Phaser) (c : Bool) (rd a : Reg) (wt fl : Bool), s.phaserAt (s.xr a) = .ok (u, x) →
    w = (if fl then u.flushRange u.cur 0 (2 ^ 64) (u.me.satp.extractLsb' 44 16).toNat else u).settleMe →
    (w.ownFirst w.cur x.pa 64).phaser x = (v, q) →
    (q.reservedClear = false → exec (.pharv rd a wt fl) s = .next (v.raise 31 (s.xr a))) ∧
    (q.reservedClear = true → (q.arr = q.sig ∨ q.phase = 2 ^ 32 - 1 → exec (.pharv rd a wt fl) s = .next (v.raise 31 (s.xr a))) ∧
    (q.arr ≠ q.sig → q.phase ≠ 2 ^ 32 - 1 →
      c = (q.arr + 1 == q.sig && q.pend == 0) →
      r = { q with lastid := v.me.qtid.toNat, lastcode := (pcode 0 (v.reportCore (coreOf v.cur))).toNat, lasttime := v.now % 2 ^ 64,
                   arr := if c then 0 else q.arr + 1, ctime := if c then v.now % 2 ^ 64 else q.ctime, phase := if c then q.phase + 1 else q.phase,
                   sig := if c then q.nxsig else q.sig, wait := if c then q.nxwait else q.wait } →
      ∃ (y t : State), y = (v.putPhaser x r c (v.byCtx v.cur)).setXr rd (BitVec.ofNat 64 q.phase) ∧ exec (.pharv rd a wt fl) s = .next t ∧
        (wt = false → Completed y t) ∧
        (wt = true → c = true → Completed (y.modDie (dieOf y.cur) fun d => { d with zerowait := d.zerowait + 1 }) t) ∧
        (wt = true → c = false → Waits y t .pharvW)))) ∧
  (∀ (s : State) (rd a b : Reg) (m : BitVec 2) (wt fl : Bool), (s.xr a).toNat % 64 ≠ 0 →
    exec (.pharv rd a wt fl) s = .next (s.raise 31 (s.xr a)) ∧ exec (.phwait a b) s = .next (s.raise 31 (s.xr a)) ∧
    exec (.phbytes a b) s = .next (s.raise 31 (s.xr a)) ∧
    (m ≠ 0 → exec (.phreg rd a m) s = .next (s.raise 31 (s.xr a)) ∧ exec (.phdereg rd a m) s = .next (s.raise 31 (s.xr a)))) ∧
  (∀ (s : State) (rd a : Reg), exec (.phreg rd a 0) s = .next (s.raise 2 (wordOf (.phreg rd a 0))) ∧
    exec (.phdereg rd a 0) s = .next (s.raise 2 (wordOf (.phdereg rd a 0))))

/-- O37. Messages (R349 to R352). MBEAT adds a beat to the open packet, and a 17th raises cause 31. MSEND of an open packet to a context that exists
sends it: the packet leaves the context, which waits for the reply; an absent destination raises cause 27, whether or
not a packet is open (the order is the model's: log entry 45), and no packet cause 31. MPOST takes the
lowest free slot, records its owner and its place in posting order, and gives its number, or all ones where none is free. MRECV of an own full slot
completes with the beats it received and frees it, of one that waits waits, and of any other number raises cause 31. MPROBE gives the beats, 0 while
the slot waits, and all ones where it is not the context's. MCANCEL frees an own slot that waits and gives 0, gives 1 where it is full, which stays
owned, and all ones where it is not the context's. -/
def Obligations.MessagesComplete : Prop :=
  (∀ (s : State) (a b : Reg) (bs : List (BitVec 128)), bs = s.me.packet.getD [] →
    (bs.length < 16 → ∃ t, exec (.mbeat a b) s = .next t ∧ Completed (s.setCtx s.cur { s.me with packet := some (bs ++ [s.xr b ++ s.xr a]) }) t) ∧
    (16 ≤ bs.length → exec (.mbeat a b) s = .next (s.raise 31 0) ∧ (s.me.trapped).packet = none)) ∧
  (∀ (s u : State) (a b : Reg) (k : Nat), k = s.ownCore ((s.xr a).toNat / 12) → u = s.settleMe →
    (98303 < (s.xr a).toNat ∨ (s.xr a).toNat % 12 = 11 ∨ s.coreLive k = false → exec (.msend a b) s = .next (s.raise 27 (s.xr a))) ∧
    ((s.xr a).toNat ≤ 98303 → (s.xr a).toNat % 12 ≠ 11 → s.coreLive k = true →
      (s.me.packet = none → exec (.msend a b) s = .next (s.raise 31 0)) ∧
      (∀ bs, s.me.packet = some bs → ∃ t, exec (.msend a b) s = .next t ∧ Waits u t .reply ∧ t.me.packet = none ∧
        t.me.request = some (.packet ⟨bs, (s.xr b).setWidth 32, u.reportCtx u.cur, u.me.qtid, k * 12 + (s.xr a).toNat % 12⟩)))) ∧
  (∀ (s u v w : State) (x : Xlat) (n : Nat) (ps : Pages) (rd a : Reg), (s.xr a).toNat % 32 = 0 →
    s.access .store needRW .write (s.xr a).toNat 32 = .ok (u, x) → u.loadBytes x 32 = (v, n) → v.pages .store needW (n % 2 ^ 64) 256 = .ok (w, ps) →
    x.mt = .hbm ∨ x.mt = .sw ∨ (∃ d o, regionOf x.pa = .scratch d (clusterOf w.cur) o) → n % 16 = 0 → n / 2 ^ 145 % 2 ^ 15 = 0 → n / 2 ^ 177 % 2 ^ 15 = 0 →
    w.refusedUnit ps (n % 2 ^ 64) 256 = none → w.watch true (s.xr a).toNat 32 = .ok () →
    ((∀ i, i < 64 → tfind (w.core (coreOf w.cur)).slots i ≠ none) →
      ∃ t, exec (.mpost rd a) s = .next t ∧ Completed (w.setXr rd (BitVec.ofInt 64 (-1))) t) ∧
    (∀ i, i < 64 → tfind (w.core (coreOf w.cur)).slots i = none → (∀ j, j < i → tfind (w.core (coreOf w.cur)).slots j ≠ none) →
      ∃ (q : Slot) (y z t : State), q = ⟨w.cur, (w.core (coreOf w.cur)).slotSeq, BitVec.ofNat 32 (n / 2 ^ 64), BitVec.ofNat 32 (n / 2 ^ 96),
          BitVec.ofNat 17 (n / 2 ^ 128), BitVec.ofNat 17 (n / 2 ^ 160), ps, n % 2 ^ 64, x, w.me.tid, none, 0, 0, 0⟩ ∧
        y = w.setCore (coreOf w.cur) { w.core (coreOf w.cur) with
          slots := tput (w.core (coreOf w.cur)).slots i q, slotSeq := (w.core (coreOf w.cur)).slotSeq + 1 } ∧
        exec (.mpost rd a) s = .next t ∧ Completed (z.setXr rd (BitVec.ofNat 64 i)) t ∧
        ((∀ p, p ∈ (y.cluster (clusterOf y.cur)).overflow → p.dst ≠ y.cur ∨ q.fits p = false) → z = y) ∧
        (∀ l p r, (y.cluster (clusterOf y.cur)).overflow = l ++ p :: r → p.dst = y.cur → q.fits p = true →
          (∀ p', p' ∈ l → p'.dst ≠ y.cur ∨ q.fits p' = false) →
          z = (y.modCluster (clusterOf y.cur) fun c => { c with overflow := l ++ r }).deliver (coreOf w.cur) i q p))) ∧
  (∀ (s : State) (rd a : Reg) (o : Option Slot), o = ((tfind (s.core (coreOf s.cur)).slots (s.xr a).toNat).filter fun q => q.owner = s.cur) →
    (o = none → exec (.mrecv rd a) s = .next (s.raise 31 (s.xr a)) ∧
      (∃ t, exec (.mprobe rd a) s = .next t ∧ Completed (s.setXr rd (BitVec.ofInt 64 (-1))) t) ∧
      ∃ t, exec (.mcancel rd a) s = .next t ∧ Completed (s.setXr rd (BitVec.ofInt 64 (-1))) t) ∧
    (∀ q n, o = some q → q.beats = some n →
      (∃ t, exec (.mrecv rd a) s = .next t ∧ Completed (((s.modDie (dieOf s.cur) fun d => { d with zerowait := d.zerowait + 1 }).modCore (coreOf s.cur) fun c =>
        { c with slots := tdel c.slots (s.xr a).toNat }).setXr rd (BitVec.ofNat 64 n)) t) ∧
      (∃ t, exec (.mprobe rd a) s = .next t ∧ Completed (s.setXr rd (BitVec.ofNat 64 n)) t) ∧
      ∃ t, exec (.mcancel rd a) s = .next t ∧ Completed (s.setXr rd 1) t) ∧
    (∀ q, o = some q → q.beats = none →
      (∃ t, exec (.mrecv rd a) s = .next t ∧ Waits s t .mrecv) ∧ (∃ t, exec (.mprobe rd a) s = .next t ∧ Completed (s.setXr rd 0) t) ∧
      ∃ t, exec (.mcancel rd a) s = .next t ∧
        Completed ((s.modCore (coreOf s.cur) fun c => { c with slots := tdel c.slots (s.xr a).toNat }).setXr rd 0) t))

/-- O38. Proxy queues (R354 to R356). Where the checks of a queue pass: QPUSH of a value other than all ones completes with the value, its pusher,
time and producer code (R363: of a peer's queue, that of a remote module's core) as the newest entry of the cluster's shadow of that queue, which goes
out whole at 128 entries; where the shadow is full, or none is free, the context leaves the rotation and waits for room (R98); all ones raise cause
31. QPOP and QTRYPOP complete with the value at HEAD, taken from the queue; where there is none QPOP waits and QTRYPOP gives all ones. QFLUSH sends
the shadow, and completes where none of the queue is left; else the context waits until the entries that are left are in the queue. The event queue
and CPDUMP (R360, R366). In context 0, EVPOP of an empty queue gives 0, and of another with no address drops the oldest event and gives its size; with
an address it writes the event there first, after the context's earlier stores. EVWAIT does the same in each case, as a zero-wait edge, where the
queue is not empty, and else waits. CPDUMP with room for no header gives 0; else it writes the header and the path's records and gives 32 bytes each.
A destination of CPDUMP that is not a multiple of 32 raises cause 6. -/
def Obligations.QueuesComplete : Prop :=
  ((∀ (s u v : State) (x : Xlat) (a b : Reg) (e : ShadowEntry), s.queueAt (s.xr a) = .ok (u, x) → v = u.settleMe →
    e = ⟨s.xr b, v.me.qtid, v.now, if x.mt = .peer then pcode 4 (v.host.moduleId.toNat * 2 ^ 16 + v.reportCore (coreOf v.cur))
      else pcode 0 (v.reportCore (coreOf v.cur))⟩ →
    (s.xr b = BitVec.ofInt 64 (-1) → exec (.qpush a b) s = .next (s.raise 31 (s.xr a))) ∧
    (s.xr b ≠ BitVec.ofInt 64 (-1) →
      ((∀ h, h ∈ (v.cluster (clusterOf v.cur)).shadows → h.queue.pa ≠ x.pa) →
        ((v.cluster (clusterOf v.cur)).shadows.length < 8 → ∃ t, exec (.qpush a b) s = .next t ∧
          Completed (v.modCluster (clusterOf v.cur) fun c => { c with shadows := c.shadows ++ [⟨x, [e], 0⟩] }) t) ∧
        (8 ≤ (v.cluster (clusterOf v.cur)).shadows.length → ∃ t, exec (.qpush a b) s = .next t ∧ Waits v t .reply ∧
          t.me.request = some (.room (.qpush a b) 0))) ∧
      (∀ l h r, (v.cluster (clusterOf v.cur)).shadows = l ++ h :: r → h.queue.pa = x.pa → (∀ h', h' ∈ l → h'.queue.pa ≠ x.pa) →
        (h.entries.length < 128 → ∃ t, exec (.qpush a b) s = .next t ∧ Completed (v.modCluster (clusterOf v.cur) fun c =>
          { c with shadows := l ++ { h with entries := h.entries ++ [e], sent := if h.entries.length = 127 then 128 else h.sent } :: r }) t) ∧
        (128 ≤ h.entries.length → ∃ t, exec (.qpush a b) s = .next t ∧ Waits v t .reply ∧ t.me.request = some (.room (.qpush a b) 0))))) ∧
  (∀ (s u v : State) (x : Xlat) (rd a : Reg), s.queueAt (s.xr a) = .ok (u, x) →
    (∀ e task code, u.queueTake x (u.byCtx u.cur) = (v, some (e, task, code)) →
      (∃ t, exec (.qpop rd a) s = .next t ∧ Completed ((v.modDie (dieOf v.cur) fun d => { d with zerowait := d.zerowait + 1 }).setXr rd e) t) ∧
      ∃ t, exec (.qtrypop rd a) s = .next t ∧ Completed (v.setXr rd e) t) ∧
    (u.queueTake x (u.byCtx u.cur) = (v, none) → (∃ t, exec (.qpop rd a) s = .next t ∧ Waits v t .qpop) ∧
      ∃ t, exec (.qtrypop rd a) s = .next t ∧ Completed (v.setXr rd (BitVec.ofInt 64 (-1))) t)) ∧
  (∀ (s u : State) (x : Xlat) (a : Reg), s.queueAt (s.xr a) = .ok (u, x) →
    ((∀ h, h ∈ (u.cluster (clusterOf u.cur)).shadows → h.queue.pa ≠ x.pa) → ∃ t, exec (.qflush a) s = .next t ∧ Completed u t) ∧
    (∀ i, (u.cluster (clusterOf u.cur)).shadows.findIdx? (fun h => h.queue.pa == x.pa) = some i →
      ((∀ h, h ∈ ((u.batchArrives (clusterOf u.cur) i 128).cluster (clusterOf u.cur)).shadows → h.queue.pa ≠ x.pa) →
        ∃ t, exec (.qflush a) s = .next t ∧ Completed (u.batchArrives (clusterOf u.cur) i 128) t) ∧
      (∀ l h r, ((u.batchArrives (clusterOf u.cur) i 128).cluster (clusterOf u.cur)).shadows = l ++ h :: r → h.queue.pa = x.pa →
        (∀ h', h' ∈ l → h'.queue.pa ≠ x.pa) → ∃ t, exec (.qflush a) s = .next t ∧ Waits (u.batchArrives (clusterOf u.cur) i 128) t .reply ∧
          t.me.request = some (.room (.qflush a) h.entries.length))))) ∧
  ((∀ (s : State) (rd a : Reg), ctxNum s.cur = 0 →
    ((s.core (coreOf s.cur)).evq = [] → (∃ t, exec (.evpop rd a) s = .next t ∧ Completed (s.setXr rd 0) t) ∧
      ∃ t, exec (.evwait rd a) s = .next t ∧ Waits s t .evwait) ∧
    (∀ e es, (s.core (coreOf s.cur)).evq = e :: es →
      (∃ t, exec (.evpop rd 0) s = .next t ∧
        Completed ((s.modCore (coreOf s.cur) fun c => { c with evq := es }).setXr rd (BitVec.ofNat 64 e.size)) t) ∧
      (∃ t, exec (.evwait rd 0) s = .next t ∧ Completed (((s.modDie (dieOf s.cur) fun d => { d with zerowait := d.zerowait + 1 }).modCore (coreOf s.cur)
        fun c => { c with evq := es }).setXr rd (BitVec.ofNat 64 e.size)) t) ∧
      (a ≠ 0 → (s.xr a).toNat % 16 = 0 → ∀ (u : State) (ps : Pages), s.deviceWrite (s.xr a).toNat e.size = .ok (u, ps) →
        ∃ (v t : State), v = (u.drainStores u.cur).putUnits ps (s.xr a).toNat (e.size / 16) e.bytes ∧ exec (.evpop rd a) s = .next t ∧
          Completed ((v.modCore (coreOf s.cur) fun c => { c with evq := c.evq.drop 1 }).setXr rd (BitVec.ofNat 64 e.size)) t) ∧
      (a ≠ 0 → (s.xr a).toNat % 16 = 0 → ∀ (z u : State) (ps : Pages), z = (s.modDie (dieOf s.cur) fun d => { d with zerowait := d.zerowait + 1 }) →
        z.deviceWrite (s.xr a).toNat e.size = .ok (u, ps) → ∃ (v t : State), v = (u.drainStores u.cur).putUnits ps (s.xr a).toNat (e.size / 16) e.bytes ∧
          exec (.evwait rd a) s = .next t ∧
          Completed ((v.modCore (coreOf s.cur) fun c => { c with evq := c.evq.drop 1 }).setXr rd (BitVec.ofNat 64 e.size)) t) ∧
      (a ≠ 0 → (s.xr a).toNat % 16 ≠ 0 → exec (.evpop rd a) s = .next (s.raise 6 (s.xr a)) ∧ exec (.evwait rd a) s = .next (s.raise 6 (s.xr a))))) ∧
  (∀ (s : State) (rd a b : Reg), (s.xr a).toNat % 32 ≠ 0 → exec (.cpdump rd a b) s = .next (s.raise 6 (s.xr a))) ∧
  (∀ (s u : State) (ps : Pages) (rd a b : Reg), (s.xr a).toNat % 32 = 0 → s.deviceWrite (s.xr a).toNat (s.xr b).toNat = .ok (u, ps) →
    ((s.xr b).toNat < 32 → ∃ t, exec (.cpdump rd a b) s = .next t ∧ Completed (u.setXr rd 0) t) ∧
    (32 ≤ (s.xr b).toNat → ∀ (v w : State) (es path : List EdgeRec) (cut : Bool), v = u.drainStores u.cur → v.allEdges 16 = (w, es) →
      walkBack (es.length + 1) es w.me.qtid.toNat w.now (v.die (dieOf v.cur)).t0.toNat (((s.xr b).toNat - 32) / 32) = (path, cut) →
      path.length ≤ ((s.xr b).toNat - 32) / 32 ∧ ∃ (y z t : State),
        y = w.putUnits ps (s.xr a).toNat 2 ((v.die (dieOf v.cur)).step.toNat + (v.die (dieOf v.cur)).t0.toNat * 2 ^ 64 +
          (BitVec.ofNat 64 w.now).toNat * 2 ^ 128 + (path.length + if cut then 2 ^ 32 else 0) * 2 ^ 192) ∧
        z = path.zipIdx.foldl (fun st (e, i) => st.putUnits ps ((s.xr a).toNat + 32 + 32 * i) 2 e.raw) y ∧
        exec (.cpdump rd a b) s = .next t ∧ Completed (z.setXr rd (BitVec.ofNat 64 (32 + 32 * path.length))) t)))

/-- O39. The vector integer operations (R147, R148), 16 with a vector and 16 with a scalar first operand. Where the issue checks pass, each
completes: every active element of vd holds the result of its operands as they stood before, everything else in the vector registers, qvstat and the
masks is unchanged, and the instruction enters the vector queue. VMERGE writes every element below VL, the mask choosing between its operands. With
VILL set they are illegal (R146); a register outside the window raises cause 30 with its number, 0 where there is no window (R143). While the core's
vector queue is full, an instruction that passes its checks is not issued: it is presented again (R135). -/
def Obligations.VectorIntegerResults : Prop :=
  (∀ (s : State) (k : VInt) (vd vs1 vs2 : Reg) (mk : BitVec 3) (m : BitVec 3) (r : Nat → Nat), s.VecOk false false [vd, vs1, vs2] →
    m = (if k = .merge then 0 else mk) →
    (∀ i, r i = (vintExpected k (BitVec.ofNat s.vw (if k = .merge ∧ s.Active mk i = false then s.ve vs2 i else s.ve vs1 i))
      (BitVec.ofNat s.vw (s.ve vs2 i))).toNat) →
    ∃ u t : State, ElementsWritten s u vd s.vw s.me.vl (fun i => if s.Active m i then some (s.asElem (r i)) else none) 0 ∧
      exec (vintVv k vd vs1 vs2 mk) s = .next t ∧ Completed (u.enqueueE s.vw s.me.vl (vintCostExpected k s.vw)) t) ∧
  (∀ (s : State) (k : VInt) (vd rs1 vs2 : Reg) (mk : BitVec 3) (m : BitVec 3) (r : Nat → Nat), s.VecOk false false [vd, vs2] →
    m = (if k = .merge then 0 else mk) →
    (∀ i, r i = (vintExpected k (BitVec.ofNat s.vw (if k = .merge ∧ s.Active mk i = false then s.ve vs2 i else (s.xr rs1).toNat))
      (BitVec.ofNat s.vw (s.ve vs2 i))).toNat) →
    ∃ u t : State, ElementsWritten s u vd s.vw s.me.vl (fun i => if s.Active m i then some (s.asElem (r i)) else none) 0 ∧
      exec (vintVx k vd rs1 vs2 mk) s = .next t ∧ Completed (u.enqueueE s.vw s.me.vl (vintCostExpected k s.vw)) t) ∧
  (∀ (s : State) (k : VInt) (vd vs1 vs2 : Reg) (mk : BitVec 3),
    (s.me.qvtype.getLsbD 63 = true → exec (vintVv k vd vs1 vs2 mk) s = .next (s.raise 2 (wordOf (vintVv k vd vs1 vs2 mk)))) ∧
    (s.me.qvtype.getLsbD 63 = false → s.me.winSize = 0 → exec (vintVv k vd vs1 vs2 mk) s = .next (s.raise 30 0)) ∧
    (s.me.qvtype.getLsbD 63 = false → s.me.windowFault [vd, vs1, vs2] = none → s.vecFull = true → s.me.request = none →
      exec (vintVv k vd vs1 vs2 mk) s = .next s) ∧
    (s.me.qvtype.getLsbD 63 = false → s.me.winSize ≠ 0 → s.me.winSize ≤ s.me.rot + vd.toNat →
      exec (vintVv k vd vs1 vs2 mk) s = .next (s.raise 30 (BitVec.ofNat 64 (s.me.rot + vd.toNat)))))

/-- O40. The vector floating-point operations (R147, R149), with a vector first operand, and 9 of them also with an f register. Where the issue
checks pass, each completes: every active element of vd holds the scalar result in the element's format of its operands (for VFMA, VFMS and VFNMA
with the old element as addend), rounded by frm, everything else in the vector registers is unchanged, and qvstat gains the flags of the active
elements and no others. With an element type that is no floating-point one, or, where the operation rounds, with frm above 4, it is illegal (R146).
-/
def Obligations.VectorFloatResults : Prop :=
  (∀ (s : State) (k : VFp) (vd vs1 vs2 : Reg) (mk : BitVec 3) (r : Nat → Nat × Flags),
    s.VecOk true (k ≠ .min ∧ k ≠ .max ∧ k ≠ .fclass) (if k = .sqrt ∨ k = .fclass then [vd, vs2] else [vd, vs1, vs2]) →
    (∀ i, r i = vfpExpected k s.vfmt (rmOf s.me.frm.toNat) (s.ve vs1 i) (s.ve vs2 i) (s.ve vd i)) →
    ∃ (u t : State) (fl : BitVec 64), FlagsOf s.me.vl (s.Active mk) (fun i => (r i).2) fl ∧
      ElementsWritten s u vd s.vw s.me.vl (fun i => if s.Active mk i then some (s.asElem (r i).1) else none) fl ∧
      exec (vfpVv k vd vs1 vs2 mk) s = .next t ∧
      Completed (u.enqueueE s.vw s.me.vl (if k = .div ∨ k = .sqrt then (if s.me.etype = 11 then 16 else 8) else 1)) t) ∧
  (∀ (s : State) (k : VFp) (i : Instr) (vd rs1 vs2 : Reg) (mk : BitVec 3) (r : Nat → Nat × Flags), vfpVf k vd rs1 vs2 mk = some i →
    s.VecOk true (k ≠ .min ∧ k ≠ .max ∧ k ≠ .fclass) [vd, vs2] →
    (∀ j, r j = vfpExpected k s.vfmt (rmOf s.me.frm.toNat) (s.fScalar rs1) (s.ve vs2 j) (s.ve vd j)) →
    ∃ (u t : State) (fl : BitVec 64), FlagsOf s.me.vl (s.Active mk) (fun j => (r j).2) fl ∧
      ElementsWritten s u vd s.vw s.me.vl (fun j => if s.Active mk j then some (s.asElem (r j).1) else none) fl ∧
      exec i s = .next t ∧ Completed (u.enqueueE s.vw s.me.vl (if k = .div then (if s.me.etype = 11 then 16 else 8) else 1)) t) ∧
  (∀ (s : State) (k : VFp) (vd vs1 vs2 : Reg) (mk : BitVec 3), s.me.etype < 8 ∨ 11 < s.me.etype →
    exec (vfpVv k vd vs1 vs2 mk) s = .next (s.raise 2 (wordOf (vfpVv k vd vs1 vs2 mk)))) ∧
  (∀ (s : State) (k : VFp) (vd vs1 vs2 : Reg) (mk : BitVec 3), 4 < s.me.frm.toNat → k ≠ .min → k ≠ .max → k ≠ .fclass →
    exec (vfpVv k vd vs1 vs2 mk) s = .next (s.raise 2 (wordOf (vfpVv k vd vs1 vs2 mk))))

/-- O41. Compares and masks (R150). A compare or a mask operation whose checks pass completes with the bit of every active element of its mask
written and every other bit as it was; a write of m0 is discarded. The floating-point compares add the flags of the active elements to qvstat. VPOPC
gives the number of active elements whose bit is set, and VFIRST the lowest of them, or all ones. -/
def Obligations.VectorMasks : Prop :=
  (∀ (s : State) (k : VCmp) (md mk : BitVec 3) (vs1 vs2 : Reg), s.VecOk false false [vs1, vs2] →
    ∃ (m : BitVec 1024) (t : State), MaskWritten s mk (s.me.mask md) m (fun i =>
        let a := s.ve vs1 i
        let b := s.ve vs2 i
        match k with
        | .eq => a = b
        | .ne => a ≠ b
        | .lt => (BitVec.ofNat s.vw a).toInt < (BitVec.ofNat s.vw b).toInt
        | .ltu => a < b
        | .le => (BitVec.ofNat s.vw a).toInt ≤ (BitVec.ofNat s.vw b).toInt
        | .leu => a ≤ b) ∧
      exec (match k with
        | .eq => .vcmpEq md vs1 vs2 mk
        | .ne => .vcmpNe md vs1 vs2 mk
        | .lt => .vcmpLt md vs1 vs2 mk
        | .ltu => .vcmpLtu md vs1 vs2 mk
        | .le => .vcmpLe md vs1 vs2 mk
        | .leu => .vcmpLeu md vs1 vs2 mk) s = .next t ∧
      Completed ((s.setCtx s.cur (s.me.setMask md m)).enqueueE s.vw s.me.vl 1) t) ∧
  (∀ (s : State) (k : FCmp) (md mk : BitVec 3) (vs1 vs2 : Reg), s.VecOk true false [vs1, vs2] →
    ∃ (m : BitVec 1024) (fl : BitVec 64) (t : State),
      MaskWritten s mk (s.me.mask md) m (fun i => (fCompare s.vfmt k (s.ve vs1 i) (s.ve vs2 i)).1 = true) ∧
      FlagsOf s.me.vl (s.Active mk) (fun i => (fCompare s.vfmt k (s.ve vs1 i) (s.ve vs2 i)).2) fl ∧
      exec (match k with
        | .eq => .vfcmpEq md vs1 vs2 mk
        | .lt => .vfcmpLt md vs1 vs2 mk
        | .le => .vfcmpLe md vs1 vs2 mk
        | .un => .vfcmpUn md vs1 vs2 mk) s = .next t ∧
      Completed (((s.setCtx s.cur (s.me.setMask md m)).enqueueE s.vw s.me.vl 1).modCtx s.cur fun c => { c with qvstat := c.qvstat ||| fl }) t) ∧
  (∀ (s : State) (md m1 m2 mk : BitVec 3), s.VecOk false false [] → ∀ i : Instr,
    i = .vmand md m1 m2 mk ∨ i = .vmor md m1 m2 mk ∨ i = .vmxor md m1 m2 mk ∨ i = .vmnot md m2 mk →
    ∃ (m : BitVec 1024) (t : State), MaskWritten s mk (s.me.mask md) m (fun j =>
        let a := (s.me.mask m1).getLsbD j
        let b := (s.me.mask m2).getLsbD j
        (i = .vmand md m1 m2 mk → a = true ∧ b = true) ∧ (i = .vmor md m1 m2 mk → a = true ∨ b = true) ∧ (i = .vmxor md m1 m2 mk → a ≠ b) ∧
        (i = .vmnot md m2 mk → b = false)) ∧
      exec i s = .next t ∧ Completed ((s.setCtx s.cur (s.me.setMask md m)).enqueueE s.vw s.me.vl 1) t) ∧
  (∀ (s u : State) (rd : Reg) (m2 mk : BitVec 3), s.VecOk false false [] →
    u = (if s.me.returning then s.modCtx s.cur fun c => { c with request := none } else (s.enqueueX s.me.vl 2).awaitVector) →
    (∃ t, exec (.vpopc rd m2 mk) s = .next t ∧ Completed (u.setXr rd
      (BitVec.ofNat 64 ((List.range s.me.vl).countP fun i => s.Active mk i && (s.me.mask m2).getLsbD i))) t) ∧
    (∀ i, s.Active mk i = true → (s.me.mask m2).getLsbD i = true → (∀ j, j < i → s.Active mk j = true → (s.me.mask m2).getLsbD j = false) →
      ∃ t, exec (.vfirst rd m2 mk) s = .next t ∧ Completed (u.setXr rd (BitVec.ofNat 64 i)) t) ∧
    ((∀ j, s.Active mk j = true → (s.me.mask m2).getLsbD j = false) →
      ∃ t, exec (.vfirst rd m2 mk) s = .next t ∧ Completed (u.setXr rd (BitVec.ofInt 64 (-1))) t))

/-- O42. Permutes (R151). Where the checks pass each completes: VPERM puts at every active element the element of vs2 that vs1 names there, 0 beyond
VLMAX; VSLIDEUP and VSLIDEDN the element of vs2 that lies the offset below, leaving the elements under the offset, or above, 0 beyond VLMAX; VBCAST
the scalar; VID the element's number; VCLMUL and VCLMULH the low and high half of the carry-less product; VCOMPRESS fills the elements below VL with
the selected elements of vs2 in their order, and from there on with those of vs1 at the same places. -/
def Obligations.VectorPermutes : Prop :=
  (∀ (s : State) (vd vs1 vs2 rs1 : Reg) (mk : BitVec 3), s.VecOk false false [vd, vs2] → s.me.windowFault [vd, vs1, vs2] = none →
    (∃ u t : State, ElementsWritten s u vd s.vw s.me.vl (fun i => if s.Active mk i then
        some (if s.ve vs1 i < 8192 / s.vw then s.ve vs2 (s.ve vs1 i) else 0) else none) 0 ∧
      exec (.vperm vd vs1 vs2 mk) s = .next t ∧ Completed (u.enqueueX s.me.vl 2) t) ∧
    (∃ u t : State, ElementsWritten s u vd s.vw s.me.vl (fun i => if s.Active mk i = true ∧ (s.xr rs1).toNat ≤ i then
        some (s.ve vs2 (i - (s.xr rs1).toNat)) else none) 0 ∧
      exec (.vslideup vd rs1 vs2 mk) s = .next t ∧ Completed (u.enqueueX s.me.vl 2) t) ∧
    (∃ u t : State, ElementsWritten s u vd s.vw s.me.vl (fun i => if s.Active mk i then
        some (if i + (s.xr rs1).toNat < 8192 / s.vw then s.ve vs2 (i + (s.xr rs1).toNat) else 0) else none) 0 ∧
      exec (.vslidedn vd rs1 vs2 mk) s = .next t ∧ Completed (u.enqueueX s.me.vl 2) t) ∧
    (∃ u t : State, ElementsWritten s u vd s.vw s.me.vl (fun i => if s.Active mk i then some (s.asElem (s.xr rs1).toNat) else none) 0 ∧
      exec (.vbcast vd rs1 mk) s = .next t ∧ Completed (u.enqueueE s.vw s.me.vl 1) t) ∧
    (∃ u t : State, ElementsWritten s u vd s.vw s.me.vl (fun i => if s.Active mk i then some (s.asElem i) else none) 0 ∧
      exec (.vid vd mk) s = .next t ∧ Completed (u.enqueueE s.vw s.me.vl 1) t)) ∧
  (∀ (s : State) (vd vs1 vs2 : Reg) (mk : BitVec 3) (p : Nat → Nat → Bool), s.VecOk false false [vd, vs1, vs2] →
    (∀ i n, p i n = ((List.range (n + 1)).countP (fun q => decide (q < s.vw) && (s.ve vs1 i).testBit q && decide (n - q < s.vw) &&
      (s.ve vs2 i).testBit (n - q)) % 2 == 1)) →
    (∃ (u t : State) (r : Nat → Nat), (∀ i n, n < s.vw → (r i).testBit n = p i n) ∧
      ElementsWritten s u vd s.vw s.me.vl (fun i => if s.Active mk i then some (s.asElem (r i)) else none) 0 ∧
      exec (.vclmul vd vs1 vs2 mk) s = .next t ∧ Completed (u.enqueueE s.vw s.me.vl 2) t) ∧
    (∃ (u t : State) (r : Nat → Nat), (∀ i n, n < s.vw → (r i).testBit n = p i (s.vw + n)) ∧
      ElementsWritten s u vd s.vw s.me.vl (fun i => if s.Active mk i then some (s.asElem (r i)) else none) 0 ∧
      exec (.vclmulh vd vs1 vs2 mk) s = .next t ∧ Completed (u.enqueueE s.vw s.me.vl 2) t)) ∧
  (∀ (s : State) (vd vs1 vs2 : Reg) (mk : BitVec 3) (n : Nat), s.VecOk false false [vd, vs1, vs2] → n = (List.range s.me.vl).countP (s.Active mk) →
    ∃ (u t : State) (r : Nat → Nat), ElementsWritten s u vd s.vw s.me.vl (fun i => some (r i)) 0 ∧
      (∀ j, s.Active mk j = true → r ((List.range j).countP (s.Active mk)) = s.ve vs2 j) ∧ (∀ i, n ≤ i → i < s.me.vl → r i = s.ve vs1 i) ∧
      exec (.vcompress vd vs1 vs2 mk) s = .next t ∧ Completed (u.enqueueX s.me.vl 2) t)

/-- O43. Conversion and quantisation (R171 to R176). Where the checks of R171 pass, each completes with the active elements written at the width of
the destination and the flags of the active elements added to qvstat: VCVT the converted element, VSCALE the scale code of its block maximum, VQLNS
and VQFP8 the code and VDQLNS and VDQFP8 the value, each with the scale code of its block of 32. VAMAX writes for each block of 32 a magnitude that
no active element exceeds and that is one of them, or 0 where there is none; where an active element is a NaN, the canonical NaN. VQSPLIT writes the
numbers of at most 16 active elements above the threshold, in rising order, then all ones; where one more is above it, 16 of them, none of smaller
magnitude than one left out, and QSAT. A wrong element type, a VL above the limit and VILL are illegal. -/
def Obligations.VectorQuantisation : Prop :=
  (∀ (s : State) (vd code vs2 : Reg) (mk : BitVec 3) (src dst : Nat) (r : Nat → Nat × Flags), (src, dst) = cvtTypes code.toNat →
    s.VecOk false false [vd, vs2] → s.me.etype = dst → s.me.vl ≤ 8192 / etypeWidth src →
    (∀ i, r i = cvtValue code.toNat (if src = 14 then velem (s.vr vs2) (etypeWidth src) i % 64 else velem (s.vr vs2) (etypeWidth src) i)) →
    ∃ (u t : State) (fl : BitVec 64), FlagsOf s.me.vl (s.Active mk) (fun i => (r i).2) fl ∧
      ElementsWritten s u vd (etypeWidth dst) s.me.vl (fun i => if s.Active mk i then some ((r i).1 % 2 ^ etypeWidth dst) else none) fl ∧
      exec (.vcvt vd code vs2 mk) s = .next t ∧ Completed (u.enqueueE (etypeWidth dst) s.me.vl 1) t) ∧
  (∀ (s : State) (i : Instr) (vd vs1 vs2 : Reg) (mk : BitVec 3) (w cost : Nat) (r : Nat → Nat × Flags), s.me.vl ≤ 256 →
    ((s.VecOk false false [vd, vs2] ∧ s.me.etype = 10 ∧ w = 8 ∧ cost = 1 ∧ i = .vscale vd vs1 vs2 mk ∧
        ∀ j, r j = scaleCode (if vs1 = 12 then .e4m3 else if vs1 = 13 then .e5m2 else .lns6) (velem (s.vr vs2) 32 j)) ∨
      (s.VecOk false false [vd, vs1, vs2] ∧ cost = 2 ∧
        ((s.me.etype = 14 ∧ w = 8 ∧ i = .vqlns vd vs1 vs2 mk ∧ ∀ j, r j = qLns (velem (s.vr vs1) 8 (j / 32)) (velem (s.vr vs2) 32 j)) ∨
         (s.me.etype = 14 ∧ w = 32 ∧ i = .vdqlns vd vs1 vs2 mk ∧ ∀ j, r j = dqLns (velem (s.vr vs1) 8 (j / 32)) (velem (s.vr vs2) 8 j % 64)) ∨
         ((s.me.etype = 12 ∨ s.me.etype = 13) ∧ w = 8 ∧ i = .vqfp8 vd vs1 vs2 mk ∧
           ∀ j, r j = qFp8 (if s.me.etype = 12 then .e4m3 else .e5m2) (velem (s.vr vs1) 8 (j / 32)) (velem (s.vr vs2) 32 j)) ∨
         ((s.me.etype = 12 ∨ s.me.etype = 13) ∧ w = 32 ∧ i = .vdqfp8 vd vs1 vs2 mk ∧
           ∀ j, r j = dqFp8 (if s.me.etype = 12 then .e4m3 else .e5m2) (velem (s.vr vs1) 8 (j / 32)) (velem (s.vr vs2) 8 j))))) →
    ∃ (u t : State) (fl : BitVec 64), FlagsOf s.me.vl (s.Active mk) (fun j => (r j).2) fl ∧
      ElementsWritten s u vd w s.me.vl (fun j => if s.Active mk j then some ((r j).1 % 2 ^ w) else none) fl ∧
      exec i s = .next t ∧ Completed (u.enqueueE w s.me.vl cost) t) ∧
  (∀ (s : State) (vd vs2 : Reg) (mk : BitVec 3), s.VecOk false false [vd, vs2] → s.me.etype = 10 → s.me.vl ≤ 256 →
    ∃ (u t : State) (r : Nat → Nat), ElementsWritten s u vd 32 ((s.me.vl + 31) / 32) (fun j => some (r j)) 0 ∧
      (∀ j, ((∃ i, i / 32 = j ∧ s.Active mk i = true ∧ 0x7F800000 < velem (s.vr vs2) 32 i % 2 ^ 31) → r j = 0x7FC00000) ∧
        ((∀ i, i / 32 = j → s.Active mk i = true → velem (s.vr vs2) 32 i % 2 ^ 31 ≤ 0x7F800000) →
          (∀ i, i / 32 = j → s.Active mk i = true → velem (s.vr vs2) 32 i % 2 ^ 31 ≤ r j) ∧
          (r j = 0 ∨ ∃ i, i / 32 = j ∧ s.Active mk i = true ∧ r j = velem (s.vr vs2) 32 i % 2 ^ 31))) ∧
      exec (.vamax vd vs2 mk) s = .next t ∧ Completed (u.enqueueX s.me.vl 4) t) ∧
  (∀ (s : State) (vd rs1 vs2 : Reg) (mk : BitVec 3), s.VecOk false false [vd, vs2] → s.me.etype = 10 → s.me.vl ≤ 256 →
    (s.me.vl = 0 → ∃ t, exec (.vqsplit vd rs1 vs2 mk) s = .next t ∧ Completed (s.enqueueX 0 8) t) ∧
    (∀ (mag : Nat → Nat) (above : Nat → Prop), s.me.vl ≠ 0 → (∀ i, mag i = velem (s.vr vs2) 32 i % 2 ^ 31) →
      (∀ i, above i ↔ s.Active mk i = true ∧ mag i ≤ 0x7F800000 ∧ (unpack .f32 (s.fScalar rs1)).isNan = false ∧
        cmpV (unpack .f32 (mag i)) (unpack .f32 (s.fScalar rs1)) = .gt) →
      ∃ (u t : State) (xs : List Nat) (fl : BitVec 64), ElementsWritten s u vd 32 16 (fun k => some (xs.getD k 0xFFFFFFFF)) fl ∧
        xs.length ≤ 16 ∧ xs.Pairwise (· < ·) ∧ (∀ i, i ∈ xs → above i) ∧
        (∀ i, above i → i ∉ xs → xs.length = 16 ∧ ∀ j, j ∈ xs → mag i < mag j ∨ (mag i = mag j ∧ j < i)) ∧
        (fl = 32 ∨ fl = 0) ∧ (fl = 32 ↔ ∃ i, above i ∧ i ∉ xs) ∧
        exec (.vqsplit vd rs1 vs2 mk) s = .next t ∧ Completed (u.enqueueX s.me.vl 8) t)) ∧
  (∀ (s : State) (vd code vs1 vs2 : Reg) (mk : BitVec 3),
    (s.me.qvtype.getLsbD 63 = true ∨ s.me.etype ≠ 10 ∨ 256 < s.me.vl →
      exec (.vamax vd vs2 mk) s = .next (s.raise 2 (wordOf (.vamax vd vs2 mk))) ∧
      exec (.vscale vd code vs2 mk) s = .next (s.raise 2 (wordOf (.vscale vd code vs2 mk))) ∧
      exec (.vqsplit vd code vs2 mk) s = .next (s.raise 2 (wordOf (.vqsplit vd code vs2 mk)))) ∧
    (s.me.qvtype.getLsbD 63 = true ∨ s.me.etype ≠ 14 ∨ 256 < s.me.vl →
      exec (.vqlns vd vs1 vs2 mk) s = .next (s.raise 2 (wordOf (.vqlns vd vs1 vs2 mk))) ∧
      exec (.vdqlns vd vs1 vs2 mk) s = .next (s.raise 2 (wordOf (.vdqlns vd vs1 vs2 mk)))) ∧
    (s.me.qvtype.getLsbD 63 = true ∨ s.me.etype ≠ (cvtTypes code.toNat).2 ∨ 8192 / etypeWidth (cvtTypes code.toNat).1 < s.me.vl →
      exec (.vcvt vd code vs2 mk) s = .next (s.raise 2 (wordOf (.vcvt vd code vs2 mk)))))

/-- O44. Reductions (R152). Where the checks pass and VL is not 0, each completes with element 0 of vd written and every other element as it was:
VREDSUM the sum of element 0 of vs1 and the active elements of vs2, modulo 2^w; VREDMAX, VREDMIN, VREDMAXU and VREDMINU the largest or smallest of
them; VFREDMAX and VFREDMIN by the scalar rule of R80 over them in order; VFREDSUM element 0 of vs1 plus, rounded to nearest even, the tree of R91
over the active elements, or, with none active, element 0 of vs1. With VL = 0 nothing is written. -/
def Obligations.VectorReductions : Prop :=
  (∀ (s : State) (k : VRed) (vd vs1 vs2 : Reg) (mk : BitVec 3) (xs : List Nat), s.VecOk false false [vd, vs1, vs2] →
    xs = s.ve vs1 0 :: ((List.range s.me.vl).filter (s.Active mk)).map (s.ve vs2) →
    ∃ (u t : State) (r : Nat), (s.me.vl ≠ 0 → ElementsWritten s u vd s.vw 1 (fun _ => some (s.asElem r)) 0) ∧ (s.me.vl = 0 → u = s) ∧
      (match k with
        | .sum => r = xs.sum % 2 ^ s.vw
        | .max => r ∈ xs ∧ ∀ x, x ∈ xs → (BitVec.ofNat s.vw x).toInt ≤ (BitVec.ofNat s.vw r).toInt
        | .min => r ∈ xs ∧ ∀ x, x ∈ xs → (BitVec.ofNat s.vw r).toInt ≤ (BitVec.ofNat s.vw x).toInt
        | .maxu => r ∈ xs ∧ ∀ x, x ∈ xs → x ≤ r
        | .minu => r ∈ xs ∧ ∀ x, x ∈ xs → r ≤ x) ∧
      exec (match k with
        | .sum => .vredsum vd vs1 vs2 mk
        | .max => .vredmax vd vs1 vs2 mk
        | .min => .vredmin vd vs1 vs2 mk
        | .maxu => .vredmaxu vd vs1 vs2 mk
        | .minu => .vredminu vd vs1 vs2 mk) s = .next t ∧
      Completed (u.enqueueX s.me.vl 4) t) ∧
  (∀ (s : State) (i : Instr) (vd vs1 vs2 : Reg) (mk : BitVec 3) (xs : List Nat) (r : Nat × Flags), s.VecOk true false [vd, vs1, vs2] →
    xs = ((List.range s.me.vl).filter (s.Active mk)).map (s.ve vs2) →
    (i = .vfredmax vd vs1 vs2 mk ∧ r = xs.foldl (fun p b => ((fMinMax s.vfmt true p.1 b).1, p.2 ||| (fMinMax s.vfmt true p.1 b).2)) (s.ve vs1 0, 0) ∨
      i = .vfredmin vd vs1 vs2 mk ∧ r = xs.foldl (fun p b => ((fMinMax s.vfmt false p.1 b).1, p.2 ||| (fMinMax s.vfmt false p.1 b).2)) (s.ve vs1 0, 0) ∨
      i = .vfredsum vd vs1 vs2 mk ∧ (xs = [] → r = (s.ve vs1 0, 0)) ∧ (xs ≠ [] → ∃ y, y = sumTree s.vfmt 11 (s.treeLeaves s.vfmt vs2 mk) ∧
        r = ((fAdd s.vfmt .rne (s.ve vs1 0) y.1).1, y.2 ||| (fAdd s.vfmt .rne (s.ve vs1 0) y.1).2))) →
    ∃ u t : State, (s.me.vl ≠ 0 → ElementsWritten s u vd s.vw 1 (fun _ => some (s.asElem r.1)) (r.2.setWidth 64)) ∧ (s.me.vl = 0 → u = s) ∧
      exec i s = .next t ∧ Completed (u.enqueueX s.me.vl 8) t)

/-- O45. Vector loads and stores (R158 to R165). Where the checks of R161 pass, each form completes: a load has read each active element's bytes and
writes the element, zero where its access failed, and no other element, the reads of VLD.IX and VLD.ST counted at their slices as one batch (R204;
that of VLD and VLD.BC is the model's choice: log entry 89); a store has first performed the context's earlier stores, and stores each active element,
VST.BC only the highest, as it issues (the model's choice: log entry 80). Failed elements are reported. With no element active, nothing is accessed.
An element address that is not a multiple of the element's size raises cause 4, or 6 for a store, with the address; VILL makes the instruction
illegal. -/
def Obligations.VectorMemory : Prop :=
  (∀ (s u v : State) (i : Instr) (form : VForm) (cost : Nat) (vd rs1 rs2 : Reg) (mk : BitVec 3) (xs : List (Chunk × Xlat)) (vs : List (Chunk × Nat))
      (fails : List (Nat × Nat × Nat)),
    (i = .vld vd rs1 mk ∧ form = .unit ∧ cost = 1 ∨ i = .vldSt vd rs1 rs2 mk ∧ form = .strided (s.xr rs2) ∧ cost = 2 ∨
      i = .vldIx vd rs1 rs2 mk ∧ form = .indexed rs2 ∧ cost = 2 ∨ i = .vldBc vd rs1 mk ∧ form = .bcast ∧ cost = 1) →
    s.vecMemCheck i form false vd (s.xr rs1) ((List.range s.me.vl).filter (s.Active mk)) = .ok (u, xs) → u.readChunks xs = (v, vs, fails) →
    ∃ w y t : State, w = (if form = .unit ∨ form = .bcast then v else v.countBatch u xs) ∧ ElementsWritten w y vd v.vw v.me.vl
        (fun j => if (s.Active mk j : Bool) then some (v.asElem (chunkValue (v.packed form) vs fails j)) else none) 0 ∧
      exec i s = .next t ∧ Completed ((y.vecReport fails).enqueueE y.vw y.me.vl cost) t) ∧
  (∀ (s u v : State) (i : Instr) (form : VForm) (cost : Nat) (vs3 rs1 rs2 : Reg) (mk : BitVec 3) (xs : List (Chunk × Xlat)) (fails : List (Nat × Nat × Nat)),
    (i = .vst vs3 rs1 mk ∧ form = .unit ∧ cost = 1 ∨ i = .vstSt vs3 rs1 rs2 mk ∧ form = .strided (s.xr rs2) ∧ cost = 2 ∨
      i = .vstIx vs3 rs1 rs2 mk ∧ form = .indexed rs2 ∧ cost = 2) →
    s.vecMemCheck i form true vs3 (s.xr rs1) ((List.range s.me.vl).filter (s.Active mk)) = .ok (u, xs) →
    (u.drainStores u.cur).writeChunks (u.drainStores u.cur).nextKey ((u.drainStores u.cur).packed form) (s.ve vs3) xs = (v, fails) →
    ∃ t, exec i s = .next t ∧
      Completed ((if xs = [] then v else v.vecIssued (u.drainStores u.cur).nextKey fails).enqueueE s.vw s.me.vl cost) t) ∧
  (∀ (s u v : State) (vs3 rs1 : Reg) (mk : BitVec 3) (els : List Nat) (xs : List (Chunk × Xlat)) (fails : List (Nat × Nat × Nat)),
    (∀ j, els = [j] → s.Active mk j = true ∧ ∀ k, s.Active mk k = true → k ≤ j) → (els = [] → ∀ k, s.Active mk k = false) → els.length ≤ 1 →
    s.vecMemCheck (.vstBc vs3 rs1 mk) .bcast true vs3 (s.xr rs1) els = .ok (u, xs) →
    (u.drainStores u.cur).writeChunks (u.drainStores u.cur).nextKey false (s.ve vs3) xs = (v, fails) →
    ∃ t, exec (.vstBc vs3 rs1 mk) s = .next t ∧
      Completed ((if xs = [] then v else v.vecIssued (u.drainStores u.cur).nextKey fails).enqueueX s.me.vl 2) t) ∧
  (∀ (s : State) (vd rs1 : Reg) (mk : BitVec 3), s.VecOk false false [vd] → (∀ j, s.Active mk j = false) → s.me.etype ≠ 14 →
    (∃ y t : State, ElementsWritten s y vd s.vw s.me.vl (fun _ => none) 0 ∧ exec (.vld vd rs1 mk) s = .next t ∧
      Completed (y.enqueueE y.vw y.me.vl 1) t) ∧
    ∃ t, exec (.vst vd rs1 mk) s = .next t ∧ Completed ((s.drainStores s.cur).enqueueE s.vw s.me.vl 1) t) ∧
  (∀ (s : State) (vd rs1 : Reg) (mk : BitVec 3) (j : Nat), s.VecOk false false [vd] → s.Active mk j = true → (s.xr rs1).toNat % (s.vw / 8) ≠ 0 →
    exec (.vldBc vd rs1 mk) s = .next (s.raise 4 (s.xr rs1)) ∧ exec (.vstBc vd rs1 mk) s = .next (s.raise 6 (s.xr rs1))) ∧
  (∀ (s : State) (vd rs1 rs2 : Reg) (mk : BitVec 3), s.me.qvtype.getLsbD 63 = true → ∀ i : Instr,
    i = .vld vd rs1 mk ∨ i = .vldSt vd rs1 rs2 mk ∨ i = .vldIx vd rs1 rs2 mk ∨ i = .vldBc vd rs1 mk ∨ i = .vst vd rs1 mk ∨ i = .vstSt vd rs1 rs2 mk ∨
      i = .vstIx vd rs1 rs2 mk ∨ i = .vstBc vd rs1 mk → exec i s = .next (s.raise 2 (wordOf i)))

/-- O46. VSETL and the register moves (R145, R167 to R169). VSETL completes with its element type and VL = min(rs1, VLMAX), or VLMAX where rs1 is
x0, in qvtype and in rd; with no window it raises cause 30. VRDX and VWRX copy a register of the window by its number, and beyond the window raise
cause 30 with the number. VMOVI and VMOVIW move each 64-bit lane below VL from or to the window register that the lane of vs2 names; a lane that
names none reads 0 or is not written. VEXTRACT gives an element, sign-extended, LNS6 zero-extended, and 0 beyond VLMAX; VINSERT writes one element,
and beyond VLMAX none. VSETL and VEXTRACT wait for the engine's answer at the queue's head, where they have not left the rotation and come back with
it (R98). -/
def Obligations.VectorMoves : Prop :=
  (∀ (s v : State) (rd a e : Reg) (n : Nat), n = (if a = 0 then 8192 / etypeWidth e.toNat else min (s.xr a).toNat (8192 / etypeWidth e.toNat)) →
    v = (if s.me.returning then s.modCtx s.cur fun c => { c with request := none } else (s.enqueueV 0 0 false none).awaitVector) →
    (s.me.winSize ≠ 0 → s.vecFull = true → s.me.request = none → exec (.vsetl rd a e) s = .next s) ∧
    (s.me.winSize ≠ 0 → s.vecFull = false → ∃ t, exec (.vsetl rd a e) s = .next t ∧
      Completed (v.modCtx v.cur fun c => { c with qvtype := BitVec.ofNat 64 (e.toNat + n * 2 ^ 16) }.setX rd (BitVec.ofNat 64 n)) t) ∧
    (s.me.winSize = 0 → exec (.vsetl rd a e) s = .next (s.raise 30 0))) ∧
  (∀ (s : State) (vd a : Reg), s.me.windowFault [vd] = none → s.vecFull = false →
    ((s.xr a).toNat < s.me.winSize →
      (∃ t, exec (.vrdx vd a) s = .next t ∧
        Completed ((s.setVr vd (s.vregAt (clusterOf s.cur) (s.me.winBase + (s.xr a).toNat))).enqueueV 255 1 false none) t) ∧
      ∃ t, exec (.vwrx vd a) s = .next t ∧
        Completed ((s.setVreg (clusterOf s.cur) (s.me.winBase + (s.xr a).toNat) (s.vr vd)).enqueueV 255 1 false none) t) ∧
    (s.me.winSize ≤ (s.xr a).toNat → exec (.vrdx vd a) s = .next (s.raise 30 (s.xr a)) ∧ exec (.vwrx vd a) s = .next (s.raise 30 (s.xr a)))) ∧
  (∀ (s : State) (vd vs2 : Reg) (n : Nat) (ix : Nat → Nat), s.VecOk false false [vd, vs2] → n = (s.me.vl * s.vw + 63) / 64 →
    (∀ l, ix l = velem (s.vr vs2) 64 l) →
    (∃ u t : State, ElementsWritten s u vd 64 n (fun l => some (if ix l < s.me.winSize then
        velem (s.vregAt (clusterOf s.cur) (s.me.winBase + ix l)) 64 l else 0)) 0 ∧
      exec (.vmovi vd vs2) s = .next t ∧ Completed (u.enqueueE 64 n 2) t) ∧
    ∃ u t : State, u = { s with clusters := u.clusters } ∧ (∀ g, u.cluster g = { s.cluster g with vreg := (u.cluster g).vreg }) ∧
      (∀ g m l, l < 128 → (velem (u.vregAt g m) 64 l = if g = clusterOf s.cur ∧ l < n ∧ ix l < s.me.winSize ∧ m = s.me.winBase + ix l then
        velem (s.vr vd) 64 l else velem (s.vregAt g m) 64 l)) ∧
      exec (.vmoviw vd vs2) s = .next t ∧ Completed (u.enqueueE 64 n 2) t) ∧
  (∀ (s u : State) (rd a vs2 : Reg) (j : Nat) (v : Word), s.VecOk false false [vs2] → j = (s.xr a).toNat →
    u = (if s.me.returning then s.modCtx s.cur fun c => { c with request := none }
      else (s.enqueueV (if j < 8192 / s.vw then 1#8 <<< (s.vw * j / 1024) else 1) 1 false none).awaitVector) →
    v = (if j < 8192 / s.vw then (if s.me.etype = 14 then BitVec.ofNat 64 (velem (s.vr vs2) 8 j % 64) else
      (BitVec.ofNat s.vw (velem (s.vr vs2) s.vw j)).signExtend 64) else 0) →
    ∃ t, exec (.vextract rd a vs2) s = .next t ∧
      Completed (u.setXr rd v) t) ∧
  (∀ (s : State) (vd a b : Reg) (j : Nat), s.VecOk false false [vd] → j = (s.xr b).toNat →
    (j < 8192 / s.vw → ∃ u t : State, ElementsWritten s u vd s.vw (j + 1) (fun i => if i = j then some (s.asElem (s.xr a).toNat) else none) 0 ∧
      exec (.vinsert vd a b) s = .next t ∧ Completed (u.enqueueV (1#8 <<< (s.vw * j / 1024)) 1 false none) t) ∧
    (8192 / s.vw ≤ j → ∃ t, exec (.vinsert vd a b) s = .next t ∧ Completed (s.enqueueV 1 1 false none) t))

/-- O47. Matrix commands (R264, R265, R267 to R274, R402). A command for a live cluster leaves its context waiting for the target's reply, with the
command, or for MXLD, MXST and MXDUP the query of the configuration, on its way with the context's capability; MXCFG first reads and checks its block,
whose address must be a multiple of 64, as that of MXDUP must. A target that is not live raises cause 26 with reason 3, an invalid block with reason
1. A command that arrives where the queue has room, with the engine's key and fitting its configuration, stands last in the queue and, but for MXSYNC,
is answered; a wrong key raises cause 26 with reason 0, one that does not fit with reason 2. An answered context is back in the rotation with its
command retired. -/
def Obligations.MatrixCommands : Prop :=
  (∀ (s : State) (i : Instr) (op : MxOp) (acc : BitVec 3) (x y : BitVec 2) (a q : Reg),
    (i = .mxmac acc x y q ∧ op = .mac false acc.toNat x.toNat y.toNat ∨ i = .mxmacs acc x y q ∧ op = .mac true acc.toNat x.toNat y.toNat ∨
      i = .mxzero acc q ∧ op = .zero acc.toNat ∨ i = .mxsync q ∧ op = .sync ∨ i = .mxgrant a ∧ op = .grant (s.xr a) ∧ q = 0) →
    (∀ n g, s.mxTarget q = (n, some g) → ∃ t, exec i s = .next t ∧ Waits s t .reply ∧
      t.me.request = some (.mxCmd g s.me.qmxcap ⟨op, 0, 0, [], s.cur, s.me.qtid, s.me.pc, s.me.tid, false, s.now⟩)) ∧
    (∀ n, s.mxTarget q = (n, none) → exec i s = .next (s.raise 26 (BitVec.ofNat 64 (n % 2 ^ 11 + 3 * 2 ^ 12))))) ∧
  (∀ (s : State) (i : Instr) (ask : MxAsk) (acc : BitVec 3) (x : BitVec 2) (a q : Reg),
    (i = .mxld x a q ∧ ask = .ld x.toNat (s.xr a) ∨ i = .mxst acc a q ∧ ask = .st acc.toNat (s.xr a) ∨ i = .mxdup a q ∧ ask = .dup (s.xr a) ∧ (s.xr a).toNat % 64 = 0) →
    (∀ n g, s.mxTarget q = (n, some g) → ∃ t, exec i s = .next t ∧ Waits s t .reply ∧ t.me.request = some (.mxQuery g s.me.qmxcap ask)) ∧
    (∀ n, s.mxTarget q = (n, none) → exec i s = .next (s.raise 26 (BitVec.ofNat 64 (n % 2 ^ 11 + 3 * 2 ^ 12))))) ∧
  (∀ (s u : State) (x : Xlat) (v n g : Nat) (a q : Reg), (s.xr a).toNat % 64 = 0 → s.deviceRead .load needR (s.xr a).toNat 64 = .ok (u, x, v) →
    u.mxTarget q = (n, some g) →
    (mxConfigOk (BitVec.ofNat 512 v) = false → exec (.mxcfg a q) s = .next (s.raise 26 (BitVec.ofNat 64 (n % 2 ^ 11 + 2 ^ 12)))) ∧
    (mxConfigOk (BitVec.ofNat 512 v) = true → u.watch false (s.xr a).toNat 64 = .ok () → ∃ t, exec (.mxcfg a q) s = .next t ∧ Waits u t .reply ∧
      t.me.request = some (.mxCmd g u.me.qmxcap ⟨.cfg (BitVec.ofNat 512 v), 0, 0, [], u.cur, u.me.qtid, u.me.pc, u.me.tid, false, u.now⟩))) ∧
  (∀ (s : State) (a q : Reg), (s.xr a).toNat % 64 ≠ 0 → exec (.mxcfg a q) s = .next (s.raise 4 (s.xr a)) ∧
    exec (.mxdup a q) s = .next (s.raise 4 (s.xr a))) ∧
  (∀ (s : State) (g : Nat) (cap : Word) (q : MxCmd), (s.ctx s.ev.a).request = some (.mxCmd g cap q) → (s.cluster g).mx.queue.length < 32 →
    q.started = false →
    (cap ≠ (s.cluster g).mx.key → exec .mxCommandArrival s = .next (s.raiseCtx s.ev.a 26 (BitVec.ofNat 64 (s.reportCluster g % 2 ^ 11)))) ∧
    (cap = (s.cluster g).mx.key → (s.cluster g).mx.fits q = false →
      exec .mxCommandArrival s = .next (s.raiseCtx s.ev.a 26 (BitVec.ofNat 64 (s.reportCluster g % 2 ^ 11 + 2 * 2 ^ 12)))) ∧
    (cap = (s.cluster g).mx.key → (s.cluster g).mx.fits q = true → (∀ k, q.op ≠ .grant k) → ∃ t : State, exec .mxCommandArrival s = .next t ∧
      (t.cluster g).mx.queue = (s.cluster g).mx.queue ++ [q] ∧ (t.cluster g).mx.acc = (s.cluster g).mx.acc ∧ t.mem = s.mem ∧
      (q.op ≠ .sync → (t.ctx s.ev.a).wake ≠ none ∧ (t.ctx s.ev.a).request = none) ∧
      (q.op = .sync → t.ctx s.ev.a = { s.ctx s.ev.a with request := some (.mxCmd g cap { q with started := true }) }))) ∧
  (∀ (s : State) (w : Wait) (k : Wake), (s.ctx s.ev.a).status = .waiting → (s.die (dieOf s.ev.a)).stopped = false → (s.ctx s.ev.a).wait = some w →
    (s.ctx s.ev.a).wake = some k → (s.ctx s.ev.a).stop = none → w.kind = .reply → ∃ t : State, exec .contextReinsertion s = .next t ∧ OnlyCtx s t s.ev.a ∧
      (t.ctx s.ev.a).status = .running ∧ (t.ctx s.ev.a).wait = none ∧ Ctx.GoesOn { s.ctx s.ev.a with status := .running, wait := none, wake := none, request := none }
        (t.ctx s.ev.a))

/-- O48. Writes of registers, by whatever agent makes them (R400). A CSR of a live context is written as a CSR instruction would write it. QVTYPE
takes a code of the element types with a VL within its VLMAX, and anything else sets VILL (R140); QVWIN releases, allocates or sets FAIL (R141; that a
release leaves BASE 0 is the model's choice: log entry 74); QVSTAT is read or written once the context's vector instructions have completed (R89). A
configuration word is written by bytes: FQBASE of a live die, in one piece or by its low half. CSPART begins a change and ends it (R178); QMQUOTA
stores Q, W and D within their limits and reaches a slice at its own moment, the values on their way in the order in which they were written (R237);
SAMPCTL, the enable word of a time-triggered entry, whose placement's clusters are then powered (R20), and a session's owner are stored as R379, R312
and R389 say, and firmware puts a key into a slot. A doorbell that names an invalid header leaves a launch-queue fault event of reason 1 (R311); one
write of PREEMPT asks a context to stop, one that names context 11, a context on another die, or one that is Frozen or stops already is dropped and
counted, and one with GANG set does so for every context of the gang (R310). -/
def Obligations.RegisterEvents : Prop :=
  (∀ s : State, s.ev.a = 0 → (s.ctx s.ev.b).isLive = true → s.csrRead s.ev.b s.ev.n ≠ none →
    exec .registerWrite s = .next (s.csrWrite s.ev.b s.ev.n s.ev.v)) ∧
  (∀ (s : State) (d : Nat), s.ev.a = 1 → s.dieLive d = true → s.ev.b = 0x409000000008 + d * 0x10000 →
    (s.ev.n = 8 → exec .registerWrite s = .next (s.modDie d fun x => { x with fqbase := BitVec.ofNat 64 (s.ev.v.toNat % 2 ^ 56 / 128 * 128) })) ∧
    (s.ev.n = 4 → exec .registerWrite s = .next (s.modDie d fun x =>
      { x with fqbase := BitVec.ofNat 64 ((x.fqbase.toNat / 2 ^ 32 % 2 ^ 24 * 2 ^ 32 + s.ev.v.toNat % 2 ^ 32) / 128 * 128) }))) ∧
  (∀ (s : State) (e l : Nat), (s.ctx s.ev.a).isLive = true → e = (s.ev.v.extractLsb' 0 5).toNat → l = (s.ev.v.extractLsb' 16 11).toNat →
    (etypeCode (BitVec.ofNat 5 e) = true → l ≤ 8192 / etypeWidth e →
      exec .qvtypeWrite s = .next (s.modCtx s.ev.a fun c => { c with qvtype := BitVec.ofNat 64 (e + l * 2 ^ 16) })) ∧
    (etypeCode (BitVec.ofNat 5 e) = false ∨ 8192 / etypeWidth e < l →
      exec .qvtypeWrite s = .next (s.modCtx s.ev.a fun c => { c with qvtype := 0x8000000000000000 }))) ∧
  (∀ (s : State) (n : Nat), (s.ctx s.ev.a).isLive = true → n = (s.ev.v.extractLsb' 16 10).toNat →
    (n = 0 → exec .qvwinWrite s = .next (s.modCtx s.ev.a fun c => { c with qvwin := 0 })) ∧
    (n % 32 ≠ 0 ∨ 512 < n ∨ s.findBlock (clusterOf s.ev.a) n = none → n ≠ 0 →
      exec .qvwinWrite s = .next (s.modCtx s.ev.a fun c => { c with qvwin := c.qvwin ||| 0x8000000000000000 })) ∧
    (∀ b, n % 32 = 0 → n ≠ 0 → n ≤ 512 → s.findBlock (clusterOf s.ev.a) n = some b → ∃ t : State, exec .qvwinWrite s = .next t ∧
      (t.ctx s.ev.a).qvwin = BitVec.ofNat 64 (b + n * 2 ^ 16) ∧ b % 32 = 0 ∧ b + n ≤ 2048 ∧
      (∀ r, r < n → t.vregAt (clusterOf s.ev.a) (b + r) = 0) ∧
      ∀ j, clusterOf j = clusterOf s.ev.a → (s.ctx j).winSize = 0 ∨ b + n ≤ (s.ctx j).winBase ∨ (s.ctx j).winBase + (s.ctx j).winSize ≤ b)) ∧
  (∀ s : State, (s.ctx s.ev.a).isLive = true → ∃ u : State, u = s.drainVector s.ev.a drainFuel ∧
    exec .qvstatAccess s = .next (if s.ev.flag then u.modCtx s.ev.a fun c => { c with qvstat := s.ev.v &&& 0x7F } else u)) ∧
  (∀ s : State, s.clusterLive s.ev.a = true → (s.cluster s.ev.a).busy = false →
    exec .cspartWrite s = .next (if min 8 (s.ev.v.toNat % 16) = (s.cluster s.ev.a).spways.toNat then s else
      s.modCluster s.ev.a fun c => { c with busy := true, nextWays := BitVec.ofNat 4 (min 8 (s.ev.v.toNat % 16)) })) ∧
  (∀ s : State, (s.cluster s.ev.a).busy = true → (∀ r ∈ s.released, r.g ≠ s.ev.a) → ∃ t : State, exec .cspartChangeEnd s = .next t ∧ (t.cluster s.ev.a).busy = false ∧
    (t.cluster s.ev.a).spways = (t.cluster s.ev.a).nextWays ∧
    ∀ a, scratchBase + s.ev.a * 2 ^ 23 + min (s.cluster s.ev.a).spSize ((s.cluster s.ev.a).nextWays.toNat * 2 ^ 19) ≤ a →
      a < scratchBase + s.ev.a * 2 ^ 23 + max (s.cluster s.ev.a).spSize ((s.cluster s.ev.a).nextWays.toNat * 2 ^ 19) → mget t.mem a = 0) ∧
  (∀ s : State, ∃ t : State, exec .qmquotaWrite s = .next t ∧
    t.qmquota = BitVec.ofNat 64 (max 1 (s.ev.v.toNat % 256) + max 16 (s.ev.v.toNat / 256 % 65536) * 256 + max 1 (s.ev.v.toNat / 2 ^ 24 % 16) * 2 ^ 24) ∧
    (∀ i, i < 64 → t.slice i = { s.slice i with unreached := (s.slice i).unreached ++ [(s.now, t.qmquota)] }) ∧ t = { s with qmquota := t.qmquota, slices := t.slices }) ∧
  (∀ (s : State) (at_ : Nat) (v : Word) (rest : List (Nat × Word)), (s.slice s.ev.a).unreached = (at_, v) :: rest →
    exec .quotaReachSlice s = .next (s.setSlice s.ev.a { (s.slice s.ev.a).passed s.now with
      unreached := rest, nextQ := some (v.extractLsb' 0 8), w := v.extractLsb' 8 16, d := v.extractLsb' 24 4 })) ∧
  (∀ (s : State) (p : BitVec 40), p = s.ev.v.extractLsb' 0 40 →
    exec .sampctlWrite s = .next { s with pulses := 0, sampctl := if p = 0 then 0 else BitVec.ofNat 40 (max 10000 p.toNat) }) ∧
  (∀ s : State, s.ev.a < 512 → ∃ t : State, exec .ttEnableWrite s = .next t ∧ t = { s with tt := t.tt, clusters := t.clusters } ∧
    (∀ g, t.cluster g = if g ∈ (t.ttEntry s.ev.a).placed ∧ (s.cluster g).gated = true then { s.cluster g with gated := false, idleSince := s.now }
      else s.cluster g) ∧ (∀ i, i ≠ s.ev.a → t.ttEntry i = s.ttEntry i) ∧
    (t.ttEntry s.ev.a).en = s.ev.v.getLsbD 0 ∧ (t.ttEntry s.ev.a).skips = s.ev.v.extractLsb' 8 40 ∧ (t.ttEntry s.ev.a).die = s.ev.v.extractLsb' 3 4 ∧
    (t.ttEntry s.ev.a).ovr = (if s.ev.v.extractLsb' 1 2 = 3 then 0 else s.ev.v.extractLsb' 1 2) ∧
    (t.ttEntry s.ev.a).record = (s.ttEntry s.ev.a).record ∧ (t.ttEntry s.ev.a).period = (s.ttEntry s.ev.a).period ∧
    (t.ttEntry s.ev.a).phase = (s.ttEntry s.ev.a).phase ∧ (t.ttEntry s.ev.a).satp = (s.ttEntry s.ev.a).satp) ∧
  (∀ s : State, s.ev.a < 64 → s.ev.flag = true → exec .sessionWrite s =
    .next { s with host := { s.host with keys := tput s.host.keys s.ev.a (s.ev.data.extractLsb' 0 256) } }) ∧
  (∀ s : State, s.ev.a < 64 → s.ev.flag = false → s.ev.b = 8 → ∃ t : State, exec .sessionWrite s = .next t ∧ t = { s with sessions := t.sessions, clusters := t.clusters } ∧
    t.session s.ev.a = { s.session s.ev.a with owner := s.ev.v, iv := 0 } ∧ (∀ j, j ≠ s.ev.a → t.session j = s.session j) ∧
    ∀ (g : Nat) (f : CopyOp → CopyOp), (∀ c, f c = if c.sealedBy = some s.ev.a ∧ c.failed = none then { c with failed := some 4 } else c) →
      t.cluster g = { s.cluster g with copies := (s.cluster g).copies.map f }) ∧
  (∀ s : State, s.host.up = true → s.dieLive s.ev.a = true → s.queueHeader (s.ev.v.toNat % 2 ^ 56) = none → exec .doorbell s =
    .next (s.putEvent (s.kcoreOf s.ev.a) 0x0E 0 0 [BitVec.ofNat 64 (s.ev.v.toNat % 2 ^ 56), 0x1FFFF] 0 (pcode 8 s.ev.a))) ∧
  (∀ (s u : State) (w : List Nat) (n : Nat), s.host.up = true → s.dieLive s.ev.a = true → s.queueHeader (s.ev.v.toNat % 2 ^ 56) = some (u, w) →
    n = w.getD 1 0 / 2 ^ 32 % 16 → u.replay.cmp = false → (∀ q ∈ (u.die n).queues, q.header ≠ s.ev.v.toNat % 2 ^ 56) →
    exec .doorbell s = .next (u.modDie n fun x => { x with queues := x.queues ++ [⟨s.ev.v.toNat % 2 ^ 56, 0, 0, u.now, s.ev.b % 2, []⟩] })) ∧
  (∀ (s : State) (cid : Nat), s.dieLive s.ev.a = true → cid = s.ownCtx s.ev.a (s.ev.v.toNat % 2 ^ 17) →
    (cid < 98304 → cid / 6144 = s.ev.a → cid % 12 ≠ 11 → (s.ctx cid).status = .running ∨ (s.ctx cid).status = .waiting → (s.ctx cid).stop = none →
      (s.ctx cid).haltReq = false → s.ev.v.getLsbD 17 = false →
      exec .preempt s = .next (s.modCtx cid fun c => { c with stop := some ⟨s.ev.v.getLsbD 18, false, none, false⟩ })) ∧
    (cid / 6144 ≠ s.ev.a ∨ cid % 12 = 11 ∨ (s.ctx cid).status = .idle ∨ (s.ctx cid).status = .reserved ∨
      (s.ev.v.getLsbD 17 = false ∧ ((s.ctx cid).status = .frozen ∨ (s.ctx cid).stop ≠ none)) →
      exec .preempt s = .next (s.modDie s.ev.a fun x => { x with dropped := x.dropped + 1 })) ∧
    (∀ l, cid < 98304 → cid / 6144 = s.ev.a → cid % 12 ≠ 11 → (s.ctx cid).isLive = true → s.ev.v.getLsbD 17 = true →
      s.launchAt (s.ctx cid).launch = some l → l.gang ≠ [] →
      exec .preempt s = .next ((s.gangContexts (s.ctx cid).launch).foldl (fun u k =>
        if ((u.ctx k).status = .running ∨ (u.ctx k).status = .waiting) ∧ (u.ctx k).stop = none ∧ (u.ctx k).haltReq = false then
          u.modCtx k fun c => { c with stop := some ⟨s.ev.v.getLsbD 18, true, none, false⟩ }
        else u.modDie (dieOf k) fun x => { x with dropped := x.dropped + 1 }) s)))

/-- O49. The debug block (R375 to R378). With DEN = 0 a command only sets RESULT 5; while one runs it is ignored; a context that is not live on the
die gives RESULT 1. HALT freezes a context that runs, or waits in a blocking wait, with no packet open; one that waits for a reply, or has a packet
open, is asked to halt and the command stays busy; a Frozen one gives 2, one that is stopping already gives 4. FHALT freezes whatever the context
does: a load is given up, and so is what still waits for its context's earlier events; an AMO, and an EVWAIT whose wait has ended, retires with its
result lost; their requests leave the slices; one whose reply has come retires first (R119). RESUME and STEP return a Frozen context to the rotation.
READ and WRITE reach its registers by record offset and refuse what R376 lists; DUMP writes the next slot, or gives RESULT 6; ATTACH and DETACH set
and clear the claim. When HOLDTMO passes on a hold with no claim (not on a stopped die: log entry 84), a dump is written if there is room and the
context is parked (R377). A sampling pulse falls where the timebase is a multiple of PERIOD, once at each such time; each live cluster's group is 1 to
44 runs, and where EN = 0 it adds their number and one to DROPPED (R379, R380). The comparator takes the entries of one line in order: equal ones
pass; the first that differs sets DIVSEEN, and with HALTDIV asks every context to halt; while a context that it has halted stands so, no further one
is reported (R382 to R384). -/
def Obligations.DebugEvents : Prop :=
  (∀ (s : State) (i : Instr), i = .dbgHalt ∨ i = .dbgFhalt ∨ i = .dbgResume ∨ i = .dbgStep ∨ i = .dbgRead ∨ i = .dbgWrite ∨ i = .dbgDump ∨
      i = .dbgAttach ∨ i = .dbgDetach →
    ((s.die s.ev.a).den = false → exec i s = .next (s.modDie s.ev.a fun x => { x with result := 5 })) ∧
    ((s.die s.ev.a).den = true → (s.die s.ev.a).dbgBusy ≠ none → exec i s = .next s) ∧
    ((s.die s.ev.a).den = true → (s.die s.ev.a).dbgBusy = none →
      s.ev.b / 6144 ≠ s.ev.a ∨ 98304 ≤ s.ev.b ∨ s.ev.b % 12 = 11 ∨ (s.ctx s.ev.b).status = .idle ∨ (s.ctx s.ev.b).status = .reserved →
      exec i s = .next (s.modDie s.ev.a fun x => { x with result := 1 }))) ∧
  (∀ (s : State) (c : Ctx) (x : Die), s.DebugReady → c = s.ctx s.ev.b → x = s.die s.ev.a →
    (c.stop = none → c.haltReq = false → c.packet = none → (c.status = .running ∧ c.request = none) ∨
        (c.status = .waiting ∧ (c.wait.map fun w => w.kind) ≠ some .reply) →
      ∃ t, exec .dbgHalt s = .next t ∧
        OnlyCtxDie s t s.ev.b s.ev.a { c with status := .frozen, haltReq := false, stepReq := false } { x with result := 0 }) ∧
    (c.stop = none → c.haltReq = false → (c.status = .running ∧ (c.packet ≠ none ∨ c.request ≠ none)) ∨
        (c.status = .waiting ∧ (c.packet ≠ none ∨ (c.wait.map fun w => w.kind) = some .reply)) →
      ∃ t, exec .dbgHalt s = .next t ∧
        OnlyCtxDie s t s.ev.b s.ev.a { c with haltReq := true } { x with result := 0, dbgBusy := some s.ev.b }) ∧
    (c.status = .frozen → exec .dbgHalt s = .next (s.modDie s.ev.a fun x => { x with result := 2 })) ∧
    (c.status = .running → c.stop ≠ none ∨ c.haltReq = true → exec .dbgHalt s = .next (s.modDie s.ev.a fun x => { x with result := 4 }))) ∧
  (∀ (s : State) (c d : Ctx) (x y : Die), s.DebugReady → c = s.ctx s.ev.b → x = s.die s.ev.a →
    y = { x with result := 0, dropped := x.dropped + (if c.stop.any (fun q => !q.kill) then 1 else 0) } →
    (∀ e : Ctx, d = { e with status := .frozen, haltReq := false, stepReq := false, stop := none, packet := none } →
      (c.status = .running ∧ c.request = none ∨
          (c.status = .waiting ∧ ∃ w, c.wait = some w ∧ w.kind ≠ .reply ∧ w.kind ≠ .falign ∧ (w.kind = .evwait → c.wake = none)) → e = c →
        ∃ t, exec .dbgFhalt s = .next t ∧ OnlyCtxDie s t s.ev.b s.ev.a d y) ∧
      (c.status = .waiting → (∃ w, c.wait = some w ∧ w.kind = .falign) → e = { c with wait := none, wake := none, request := none } →
        ∃ t, exec .dbgFhalt s = .next t ∧ OnlyCtxDie s t s.ev.b s.ev.a d y) ∧
      (c.status = .waiting → (∃ w, c.wait = some w ∧ w.kind = .reply ∧ (w.op0 = 0 ∨ w.op1 ≠ 0 ∧ s.owes s.ev.b = true)) → e = { c with wait := none, wake := none, request := none } →
        ∃ t, exec .dbgFhalt s = .next t ∧ OnlyCtxDie (s.leaveSlots s.ev.b) t s.ev.b s.ev.a d y) ∧
      (c.status = .waiting → (∃ w, c.wait = some w ∧ (w.kind = .reply ∧ w.op0 ≠ 0 ∧ (w.op1 = 0 ∨ s.owes s.ev.b = false) ∨
          w.kind = .evwait ∧ c.wake ≠ none)) →
        e = { c.counted.advance with wait := none, wake := none, request := none, lost := true } →
        ∃ t, exec .dbgFhalt s = .next t ∧ OnlyCtxDie (s.leaveSlots s.ev.b) t s.ev.b s.ev.a d y)) ∧
    (c.status = .running → c.request ≠ none → ∃ t, exec .dbgFhalt s = .next t ∧
      OnlyCtxDie s t s.ev.b s.ev.a { c with haltReq := true } { x with result := 0, dbgBusy := some s.ev.b })) ∧
  (∀ (s : State) (c d : Ctx) (x : Die), s.DebugReady → c = s.ctx s.ev.b → x = s.die s.ev.a → c.status = .frozen →
    d = { c with status := if c.wait.isSome then .waiting else .running, held := none, haltReq := false } →
    (∃ t, exec .dbgResume s = .next t ∧ OnlyCtxDie s t s.ev.b s.ev.a d { x with result := 0 }) ∧
    (∃ t, exec .dbgStep s = .next t ∧ OnlyCtxDie s t s.ev.b s.ev.a { d with stepReq := true } { x with result := 0, dbgBusy := some s.ev.b })) ∧
  (∀ (s : State) (c : Ctx) (x : Die), s.DebugReady → c = s.ctx s.ev.b → x = s.die s.ev.a → c.status = .frozen →
    (∀ v : Word, (s.ev.n = 0 ∧ v = c.qtid) ∨ (0 < s.ev.n ∧ s.ev.n < 32 ∧ v = c.getX (BitVec.ofNat 5 s.ev.n)) ∨ (s.ev.n = 32 ∧ v = c.pc) ∨
        (∃ r j, s.ev.n = 256 + 128 * r + j ∧ j < 128 ∧ r < c.winSize ∧
          v = (s.vregAt (clusterOf s.ev.b) (c.winBase + r)).extractLsb' (64 * j) 64) →
      ∃ t, exec .dbgRead s = .next t ∧ OnlyCtxDie s t s.ev.b s.ev.a c { x with result := 0, data := v }) ∧
    (256 + 128 * c.winSize ≤ s.ev.n → (∃ t, exec .dbgRead s = .next t ∧ OnlyCtxDie s t s.ev.b s.ev.a c { x with result := 3 }) ∧
      ∃ t, exec .dbgWrite s = .next t ∧ OnlyCtxDie s t s.ev.b s.ev.a c { x with result := 3 }) ∧
    (∀ e : Ctx, (0 < s.ev.n ∧ s.ev.n < 32 ∧ e = c.setX (BitVec.ofNat 5 s.ev.n) x.data) ∨ (s.ev.n = 32 ∧ e = { c with pc := x.data }) →
      ∃ t, exec .dbgWrite s = .next t ∧ OnlyCtxDie s t s.ev.b s.ev.a e { x with result := 0 }) ∧
    (s.ev.n = 0 ∨ s.ev.n = 75 ∨ (84 ≤ s.ev.n ∧ s.ev.n ≤ 86) → ∃ t, exec .dbgWrite s = .next t ∧ OnlyCtxDie s t s.ev.b s.ev.a c { x with result := 3 }) ∧
    (∀ (u : State) (p : Nat), u = (s.modDie s.ev.a fun x => { x with result := 0 }).settle s.ev.b →
      p = u.ownPa s.ev.a (((u.die s.ev.a).dumpbase.extractLsb' 20 36).toNat * 2 ^ 20 + (u.die s.ev.a).dumpnext.toNat * 2 ^ 20) →
      ((u.die s.ev.a).dumpsize.toNat ≤ (u.die s.ev.a).dumpnext.toNat →
        ∃ t, exec .dbgDump s = .next t ∧ OnlyCtxDie s t s.ev.b s.ev.a c { x with result := 6 }) ∧
      ((u.die s.ev.a).dumpnext.toNat < (u.die s.ev.a).dumpsize.toNat → p + 2 ^ 20 ≤ 2 ^ 42 →
        ∃ t : State, exec .dbgDump s = .next t ∧ mread t.mem p 8 = (u.ctx s.ev.b).qtid.toNat ∧ mread t.mem (p + 8) 8 = u.now % 2 ^ 64 ∧
          (t.die s.ev.a).dumpnext = (u.die s.ev.a).dumpnext + 1))) ∧
  (∀ (s : State) (c : Ctx) (x : Die), s.DebugReady → c = s.ctx s.ev.b → x = s.die s.ev.a → c.status = .running ∨ c.status = .waiting ∨ c.status = .frozen →
    (∃ t, exec .dbgAttach s = .next t ∧ OnlyCtxDie s t s.ev.b s.ev.a { c with claimed := true } { x with result := 0 }) ∧
    (c.claimed = true → c.held = none → ∃ t, exec .dbgDetach s = .next t ∧ OnlyCtxDie s t s.ev.b s.ev.a { c with claimed := false } { x with result := 0 }) ∧
    (c.claimed = true → ∀ h, c.held = some h → ∃ t, exec .dbgDetach s = .next t ∧
      OnlyCtxDie s t s.ev.b s.ev.a { c with claimed := false, held := some { h with since := s.now } } { x with result := 0 }) ∧
    (c.claimed = false → exec .dbgDetach s = .next (s.modDie s.ev.a fun x => { x with result := 2 }))) ∧
  (∀ (s u : State) (h : Held), (s.ctx s.ev.a).held = some h → (s.ctx s.ev.a).status = .frozen → h.parking = false →
    u = ((s.settle s.ev.a).writeDump s.ev.a true false).getD (s.settle s.ev.a) →
    ((s.ctx s.ev.a).claimed = false → (s.die (dieOf s.ev.a)).stopped = false → s.waysHold s.ev.a = false → h.since + (s.die (dieOf s.ev.a)).holdtmo.toNat ≤ s.now →
      exec .holdTimeout s = .next ((u.modCtx s.ev.a fun c => { c with held := some { h with parking := true } }).parkEvent s.ev.a)) ∧
    ((s.ctx s.ev.a).claimed = true ∨ (s.die (dieOf s.ev.a)).stopped = true ∨ s.waysHold s.ev.a = true ∨ s.now < h.since + (s.die (dieOf s.ev.a)).holdtmo.toNat → exec .holdTimeout s = .next s)) ∧
  (∀ s : State, (s.sampctl = 0 ∨ s.now % 2 ^ 64 % s.sampctl.toNat ≠ 0 ∨ s.pulsed = some s.now → exec .samplingPulse s = .next s) ∧
    (s.sampctl ≠ 0 → s.now % 2 ^ 64 % s.sampctl.toNat = 0 → s.pulsed ≠ some s.now → exec .samplingPulse s =
      .next (((List.range 2048).filter fun g => s.clusterLive g).foldl (fun t g => t.sampleCluster g)
        { s with pulses := s.pulses + 1, pulsed := some s.now }))) ∧
  (∀ (s : State) (g n : Nat), n = (sampleRuns 0 ((List.range 44).map fun j => (s.ctx ((g * 4 + j / 11) * 12 + j % 11)).sample)).length →
    1 ≤ n ∧ n ≤ 44 ∧ ((s.die (g / 128)).en = false → s.sampleCluster g = s.modDie (g / 128) fun x => { x with recDropped := x.recDropped + BitVec.ofNat 32 (n + 1) })) ∧
  (∀ (s : State) (x y : StreamEntry), (tfind s.replay.streamA s.ev.a) = some [x] → (tfind s.replay.streamB s.ev.a) = some [y] → x.line = y.line →
    (x.settle = y.settle → x.mask = y.mask → x.data = y.data → ∃ t : State, exec .compareEntry s = .next t ∧ t = { s with replay := t.replay } ∧
      tfind t.replay.streamA s.ev.a = some [] ∧ tfind t.replay.streamB s.ev.a = some [] ∧ t.replay.divseen = s.replay.divseen) ∧
    (x.settle = y.settle → x.mask ≠ y.mask → s.replay.cmp = true → x.launch ∉ s.replay.reported →
      (∀ k ∈ s.replay.halted, (s.ctx k).haltReq = false ∧ (s.ctx k).status ≠ .frozen) → ∃ t : State, exec .compareEntry s = .next t ∧
      t.replay.divseen = true ∧ t.replay.reported = s.replay.reported ++ [x.launch] ∧ t.mem = s.mem ∧
      (s.replay.haltdiv = true → ∀ cid, (s.ctx cid).status = .running → (s.ctx cid).stop = none → (t.ctx cid).haltReq = true)))

/-- O50. What happens to contexts without an instruction of theirs. A wait that has ended returns to the rotation and retires with the awaited value
(R17, R98), after its edge record; FALIGN's budget ends its wait (R109). A stopping context is saved at a boundary and goes on as R310 says, or, where
the save region is invalid, the request is dropped and counted and the context runs on (R116); one that a kill stops ends there instead of being saved
or parked (R313, R337; that a kill takes the place of a pending save is log entry 86), and on a stopped die nothing is saved or restored (log entry
84). The save region is tested for each slot by itself (log entry 70), where the registers' bases are mapped (log entry 87). A wanted saved context
whose Reserved slot can take it is restored. A parked context is saved and entered in the fault queue, whose tail moves by one; while the queue is
full the park waits (R332); where the save region is invalid the park is dropped (log entry 15). A request that has waited for qmtmo, and is then
found to time out, gives cause 28 to a waiting context, a TYPE 0x07 event to the core of a posted message or a send, or, of a vector store's element,
the store's TYPE 0x06 record with its last one (R164), and ends an engine's operation with its record and, for a handle, ERR (R16, R196, R301). -/
def Obligations.ContextEvents : Prop :=
  (∀ (s u : State) (c : Ctx) (w : Wait) (k : Wake), c = s.ctx s.ev.a → c.status = .waiting → (s.die (dieOf s.ev.a)).stopped = false → c.wait = some w →
    c.wake = some k → c.stop = none → (w.kind = .hjoin ∨ w.kind = .qpop ∨ w.kind = .bhwait ∨ w.kind = .phwait) →
    u = s.edge (dieOf s.ev.a) c.qtid k w.kind.code → ∃ t, exec .contextReinsertion s = .next t ∧ OnlyCtx u t s.ev.a ∧
      ∀ d : Ctx, d = { u.ctx s.ev.a with status := .running, wait := none, wake := none, request := none } →
        (t.ctx s.ev.a) = (if w.kind = .phwait then d else d.setX w.rd k.value).counted.advance) ∧
  (∀ (s : State) (c : Ctx) (w : Wait) (n : Nat), c = s.ctx s.ev.a → c.status = .waiting → c.wait = some w → w.kind = .falign → w.deadline = some n →
    c.stop = none → (∀ k, c.wake = some k → (s.die (dieOf s.ev.a)).stopped = false → exec .contextReinsertion s =
      .next (s.setCtx s.ev.a ({ c with status := .running, wait := none, wake := none, request := none } : Ctx).counted.advance)) ∧
    (c.wake = none → n ≤ (s.cycle (dieOf s.ev.a)).toNat → (s.die (dieOf s.ev.a)).stopped = false →
      exec .falignBudgetExpiry s = .next (s.setCtx s.ev.a { c with wake := some ⟨0, 0, s.now, 0, true⟩ })) ∧
    ((s.cycle (dieOf s.ev.a)).toNat < n ∨ (s.die (dieOf s.ev.a)).stopped = true → exec .falignBudgetExpiry s = .next s)) ∧
  (∀ (s : State) (c : Ctx) (q : StopReq), c = s.ctx s.ev.a → c.stop = some q →
    ((s.die (dieOf s.ev.a)).stopped = true ∨ s.waysHold s.ev.a = true → exec .contextSave s = .next s) ∧
    ((s.die (dieOf s.ev.a)).stopped = false → s.waysHold s.ev.a = false → q.kill = true → c.endable = true →
      exec .contextSave s = .next (s.endKilled s.ev.a)) ∧
    ((s.die (dieOf s.ev.a)).stopped = false → q.kill = true → c.endable = false → exec .contextSave s = .next s)) ∧
  (∀ (s : State) (c : Ctx) (q : StopReq), c = s.ctx s.ev.a → c.stop = some q → q.kill = false → (s.die (dieOf s.ev.a)).stopped = false →
    s.waysHold s.ev.a = false → c.packet = none → c.request = none → c.status = .running ∨ (c.status = .waiting ∧ ∃ w, c.wait = some w ∧ w.kind ≠ .reply) →
    (q.hold = false → s.saveContext s.ev.a = none → exec .contextSave s =
      .next ((s.modDie (dieOf s.ev.a) fun x => { x with dropped := x.dropped + 1 }).setCtx s.ev.a { c with stop := none })) ∧
    (∀ (u : State) (v : Saved), q.hold = false → s.saveContext s.ev.a = some (u, v) → exec .contextSave s = .next (u.afterSave v q)) ∧
    (q.hold = true → (s.die (dieOf s.ev.a)).fqsize.toNat ≤ (s.die (dieOf s.ev.a)).fqtail.toNat - (s.die (dieOf s.ev.a)).fqhead.toNat →
      (s.die (dieOf s.ev.a)).fqhead.toNat ≤ (s.die (dieOf s.ev.a)).fqtail.toNat →
      exec .contextSave s = .next (s.setCtx s.ev.a { c with status := .frozen, held := some ⟨0, 0, s.now, true⟩ }))) ∧
  (∀ (s u : State) (cid : Nat) (v : Saved), s.saveContext cid = some (u, v) →
    v.cid = cid ∧ (u.ctx cid).winSize = 0 ∧ (u.ctx cid).wait = none ∧ (u.ctx cid).stop = none ∧ (cid % 12 = 0 → (u.ctx cid).status = .reserved) ∧
    ((u.ctx cid).status = .reserved ∨ (u.ctx cid).status = .idle) ∧ v ∈ u.saved ∧ v.fq = none ∧
    v.memAt = s.ownPa (dieOf cid) (((s.core (coreOf cid)).qcsave.extractLsb' 20 36).toNat * 2 ^ 20 + cid % 12 * 2 ^ 20) ∧
    v.fixedAt = scratchBase + clusterOf cid * 2 ^ 23 + ((s.core (coreOf cid)).qcsave.extractLsb' 0 12).toNat * 2048 + cid % 12 * 2048) ∧
  (∀ (s : State) (cid : Nat), s.saveContext cid = none ↔
    (s.cluster (clusterOf cid)).spSize < ((s.core (coreOf cid)).qcsave.extractLsb' 0 12).toNat * 2048 + cid % 12 * 2048 + 2048 ∨
    2 ^ 42 ≤ s.ownPa (dieOf cid) (((s.core (coreOf cid)).qcsave.extractLsb' 20 36).toNat * 2 ^ 20 + cid % 12 * 2 ^ 20) + 2 ^ 20 - 1) ∧
  (∀ (s : State) (d pa : Nat), (s.replay.cmp = false ∨ d < 8 → s.ownPa d pa = pa) ∧ (s.replay.cmp = true → 8 ≤ d → pa < 2 ^ 41 → s.ownPa d pa = pa + 2 ^ 41)) ∧
  (∀ (s : State) (v : Saved), s.saved[s.ev.a]? = some v →
    (v.wants = false → exec .contextRestore s = .next s) ∧
    (v.ending ≠ none → exec .contextRestore s = .next s) ∧ ((s.die (dieOf v.cid)).stopped = true → exec .contextRestore s = .next s) ∧
    (v.wants = true → v.ending = none → (s.die (dieOf v.cid)).stopped = false → v.gang = false → (s.ctx v.cid).status = .reserved → s.coreAvailable (coreOf v.cid) = true → v.resume = none →
      ∀ t, s.restoreInto v v.cid = some t → exec .contextRestore s = .next t ∧ ((t.ctx v.cid).status = .running ∨ (t.ctx v.cid).status = .waiting) ∧
        ∀ u ∈ t.saved, u.key ≠ v.key)) ∧
  (∀ (s : State) (c : Ctx) (h : Held), c = s.ctx s.ev.a → c.held = some h → s.waysHold s.ev.a = false → c.stop.any (fun q => q.kill) = true →
    exec .park s = .next (s.endKilled s.ev.a) ∧ ((s.die (dieOf s.ev.a)).fqFull = false → exec .deferredPark s = exec .park s)) ∧
  (∀ (s : State) (c : Ctx) (h : Held), c = s.ctx s.ev.a → c.held = some h → s.waysHold s.ev.a = false → c.stop.any (fun q => q.kill) = false → c.status = .frozen → h.parking = true → c.task = none →
    ((s.die (dieOf s.ev.a)).fqFull = false → (exec .deferredPark s = exec .park s ∧
      (s.saveContext s.ev.a = none → exec .park s =
        .next ((s.modDie (dieOf s.ev.a) fun x => { x with dropped := x.dropped + 1 }).setCtx s.ev.a { c with status := .running, held := none })) ∧
      ∀ (u w : State) (v : Saved) (p flags : Nat), s.saveContext s.ev.a = some (u, v) →
        flags = (if ctxNum s.ev.a = 0 then 2 else 0) + (if c.hstarted then 4 else 0) + (if c.stop.isSome then 8 else 0) →
        u.pushFault (dieOf s.ev.a) c.qtid v.fixedAt v.memAt h.cause flags (ctxNum s.ev.a) h.stval c.sepc (coreOf s.ev.a) 0 = (w, p) →
        exec .park s = .next (w.modSaved v.key fun x => { x with fq := some p, gang := (c.stop.map (·.gang)).getD false }))) ∧
    ((s.die (dieOf s.ev.a)).fqFull = true → exec .deferredPark s = .next s ∧ exec .park s = .next (s.setCtx s.ev.a c))) ∧
  (∀ (s : State) (d fx mm cause flags num core r : Nat) (id tval pc : Word),
    (s.pushFault d id fx mm cause flags num tval pc core r).2 = s.ownPa d ((s.die d).fqbase.toNat + 128 * ((s.die d).fqtail.toNat % (s.die d).fqsize.toNat)) ∧
    ((s.pushFault d id fx mm cause flags num tval pc core r).1.die d).fqtail = (s.die d).fqtail + 1) ∧
  (∀ (s : State) (c : Ctx) (w : Wait) (pa d : Nat), s.ev.n = 0 → c = s.ctx s.ev.a → c.status = .waiting → c.wait = some w →
    c.request = some (.mute pa d) ∨ (∃ i sl, c.request = some (.access i (some pa) sl)) →
    w.since + (s.qmtmo.extractLsb' 0 40).toNat ≤ s.now → (s.die (dieOf s.ev.a)).stopped = false → exec .requestTimeout s =
      .next (((s.leaveSlots s.ev.a).setCtx s.ev.a { c with status := .running, wait := none, wake := none, request := none }).raiseCtx s.ev.a 28 (BitVec.ofNat 64 pa))) ∧
  (∀ (s : State) (e : SBEntry) (x : Xlat) (n : Nat) (v : Word), s.ev.n = 1 → s.ev.flag = false → (s.core s.ev.a).posted[s.ev.b]? = some e →
    e.kind = .store x n v → e.since + (s.qmtmo.extractLsb' 0 40).toNat ≤ s.now → ∀ u : State,
    u = (s.modCore s.ev.a fun k => { k with posted := k.posted.eraseIdx s.ev.b }) →
    (e.vec = none → exec .requestTimeout s =
      .next (u.putEvent (coreOf e.cid) 7 28 e.task [0, BitVec.ofNat 64 x.pa] e.task (pcode 11 (dieOf e.cid)))) ∧
    ∀ (i key : Nat) (q : VecStore), e.vec = some (key, i) → (s.core s.ev.a).vecStores = [q] → q.key = key → q.left = 1 → q.fails = [] →
      exec .requestTimeout s = .next ((u.modCore s.ev.a fun k => { k with vecStores := [] }).putEvent (coreOf q.cid) 6 28 q.task
        [q.pc, BitVec.ofNat 64 x.pa] q.task (pcode 9 (s.reportCluster (clusterOf q.cid))))) ∧
  (∀ (s : State) (a : AccSend), s.ev.n = 2 → s.sends[s.ev.a]? = some a → a.forced = true → a.sent + (s.qmtmo.extractLsb' 0 40).toNat ≤ s.now → exec .requestTimeout s =
    .next (({ s with sends := s.sends.eraseIdx s.ev.a } : State).putEvent (coreOf a.cid) 7 28 a.task [0, BitVec.ofNat 64 a.dst.pa] a.task (pcode 11 (dieOf a.cid)))) ∧
  (∀ (s : State) (c : CopyOp) (g h : Nat) (w : Word), s.ev.n = 3 → (s.cluster s.ev.a).copies[s.ev.b]? = some c → c.sealedBy = none → c.target = .handle g h w →
    s.timedOut c.since (c.reads ++ c.writes) s.ev.c = true → s.leaves s.ev.a s.ev.c = true → (∀ r ∈ s.released, r.g ≠ s.ev.a) →
    ∃ t : State, exec .requestTimeout s = .next t ∧ (t.handle g h).st = 1 ∧ (t.handle g h).err = true ∧ t.mem = s.mem ∧
      (t.cluster s.ev.a).copies = (s.cluster s.ev.a).copies.eraseIdx s.ev.b) ∧
  (∀ (s : State) (c : StackCmd), s.ev.n = 4 → (s.stackList s.ev.a)[s.ev.b]? = some c →
    s.timedOut c.since ((c.descAt :: c.pages ++ s.nextRow s.ev.a c).map fun x => (x.pa / 4096 * 4096, 4096)) s.ev.c = true → exec .requestTimeout s = .next (s.stackFails s.ev.a s.ev.b c 28 s.ev.c)) ∧
  (∀ (s : State) (q : MxCmd), s.ev.n = 5 → (s.cluster s.ev.a).mx.queue[s.ev.b]? = some q → q.started = true →
    (∃ b ea, q.op = .ld b ea) ∨ (∃ d ea, q.op = .st d ea) → s.timedOut q.since (s.mxPieces q) s.ev.c = true →
    s.leaves s.ev.a s.ev.c = true → ∃ t : State, exec .requestTimeout s = .next t ∧ (t.cluster s.ev.a).mx.queue = (s.cluster s.ev.a).mx.queue.eraseIdx s.ev.b ∧
      (t.cluster s.ev.a).mx.acc = (s.cluster s.ev.a).mx.acc ∧ t.mem = s.mem)

/-- O51. What the dispatchers do. A served queue's slot is taken once its header is valid and VALID is set; an invalid header leaves a fault event of
reason 1 and is served no more (R308, R311). A launch that is no gang starts once its control contexts are Idle and its working set is staged, no
earlier than R331's moment, and a control context starts at ENTRY with its rank, its stack and its task ID (R127, R307). A freed helper slot takes the
best ready task or the core's newest entry, the ready one only if its effective priority is higher (R322), and starts it, where a stack is to be had,
with the registers of R127; a ready task with a declared working set is first assigned to the core and staged (R328). An idle slot with nothing of its
own, its ring included, steals the first task its search yields, which claims the slot and starts there (R318, R319). A decrement of a counter of 2 or
more lowers it by one at home (R320). A ready task long at priority 7 displaces the running one of lowest PRIO, oldest first (R310). Stagings are
admitted within the budget, fetched entry by entry, and expire; a STGREQ that is not admitted within TMO is dropped (R294, R328, R329). A
time-triggered entry fires at its slot, with the overrun rule of R313 while a launch of the entry is not complete; its dispatcher, of a live die,
reads the placement anew (R312). The model's choices here: a launch's own working set is staged for each of its cores (log entry 71), a core whose
hardware entries all run takes back its ring's newest (log entry 72), SATP is taken as the queue holds it (log entry 97), L of a task-mode launch
counts 256 record bytes (log entry 99), and a core's stagings are taken in the order of log entry 100. -/
def Obligations.DispatcherEvents : Prop :=
  (∀ (s : State) (d : Nat) (q : ServedQueue), d = s.ev.a → (s.die d).queues[s.ev.b]? = some q → s.host.up = true → (s.die d).stopped = false →
    s.replay.cmp = false → (∀ p ∈ s.launches, p.2.queue = some q.header → p.2.running = true) →
    (s.queueHeader q.header = none → exec .launchSlotTake s = .next ((s.putEvent (s.kcoreOf d) 0x0E 0 0 [BitVec.ofNat 64 q.header, 0x1FFFF] 0
      (pcode 8 d)).modDie d fun x => { x with queues := x.queues.eraseIdx s.ev.b })) ∧
    (∀ (u v : State) (w : List Nat) (slot : Nat), s.queueHeader q.header = some (u, w) →
      u.homeRead (w.getD 0 0 + 8 * (w.getD 4 0 % (w.getD 1 0 % 2 ^ 32))) 8 = (v, slot) → v.replay.cmp = false →
      (slot % 2 = 0 → exec .launchSlotTake s = .next v) ∧ (slot % 2 = 1 → exec .launchSlotTake s = .next (v.takeSlot d q.header w (some q) v.lseq)))) ∧
  (∀ (s : State) (l : Launch), s.launchAt s.ev.a = some l → l.gang = [] → l.running = false → l.tt = none → (s.die l.die).stopped = false →
    (∀ k ∈ l.cores, (s.ctx (controlOf k)).status = .idle ∧ s.coreAvailable k = true) → (∀ r < l.count, s.stagedId (s.controlId l r) (some (l.first + r)) = true) →
    exec .launchStart s = .next (({ s with now := max s.now (l.enqueued + s.launchLatency l [l]) } : State).startLaunch s.ev.a (s.launchLatency l [l]))) ∧
  (∀ (s : State) (key r lag cid : Nat) (l : Launch) (u : State) (c : Ctx), cid = 12 * (l.first + r) → u = s.startControl key l r lag → c = u.ctx cid →
    c.status = .running ∧ c.priv = .u ∧ c.pc = l.record.getD 0 0 ∧ c.getX 10 = BitVec.ofNat 64 r ∧ c.getX 11 = l.record.getD 2 0 ∧
    c.getX 2 = BitVec.ofNat 64 ((l.record.getD 12 0).toNat + (r + 1) * 2 ^ 24) ∧ c.getX 3 = l.record.getD 8 0 ∧ c.getX 4 = l.record.getD 9 0 ∧
    c.qtid = BitVec.ofNat 64 (s.launchId l + 2 ^ 31 + r) ∧ c.satp = l.satp ∧ c.qvtype = 0x8000000000000000 ∧ c.launch = key) ∧
  (∀ (s : State) (cid k : Nat), cid = s.ev.a → k = coreOf cid → (s.ctx cid).status = .idle → 1 ≤ cid % 12 → cid % 12 ≤ 10 → s.coreAvailable k = true →
    (s.die (dieOf cid)).stopped = false →
    (∀ l t r, (s.core k).arriving = l ++ (cid, t) :: r → (∀ p ∈ l, p.1 ≠ cid) → s.mayRun t k = true → exec .taskDispatch s =
      .next ((s.modCore k fun c => { c with arriving := c.arriving.filter fun p => p.1 ≠ cid }).startTask t cid t.prio)) ∧
    ((∀ p ∈ (s.core k).arriving, p.1 ≠ cid) →
      (∀ o, s.newestEntry k = some o → (∀ i t, s.bestReady k = some (i, t) → s.effective t ≤ o.prio) → exec .taskDispatch s =
        .next (((s.modCore k fun c => { c with bobbin := c.bobbin.filter fun e => e.id ≠ o.id || e.range }).startTask o cid o.prio).refillBobbin k)) ∧
      (∀ i t, s.bestReady k = some (i, t) → (∀ o, (s.ownEntry k).2 = some o → o.prio < s.effective t) →
        (s.stagingOf t.id none ≠ none ∨ t.ws = 0 → exec .taskDispatch s =
          .next ((s.modDie (dieOf cid) fun d => { d with ready := d.ready.eraseIdx i }).startTask t cid (s.effective t))) ∧
        (s.stagingOf t.id none = none → (s.declareStaging k t).stagingOf t.id none ≠ none → s.qmstage.extractLsb' 0 4 ≠ 0 →
          exec .taskDispatch s = .next (s.declareStaging k t))) ∧
      ((s.ownEntry k).2 = none → s.bestReady k = none → exec .taskDispatch s = .next s))) ∧
  (∀ (s : State) (t : TaskEntry) (cid eff : Nat) (l : Launch), s.launchAt t.launch = some l → t.stack = none → l.freeStack = none →
    s.startTask t cid eff = s) ∧
  (∀ (s : State) (t : TaskEntry) (cid eff stack : Nat) (l : Launch) (c : Ctx), s.launchAt t.launch = some l → t.stack.or l.freeStack = some stack →
    t.saved = none → t.id.extractLsb' 0 32 ≠ 0 → c = (s.startTask t cid eff).ctx cid → c.status = .running ∧ c.priv = .u ∧ c.pc = t.entry ∧ c.getX 10 = t.arg0 ∧ c.getX 11 = t.arg1 ∧ c.getX 12 = t.recVa ∧
    c.getX 2 = BitVec.ofNat 64 ((l.record.getD 10 0).toNat + (stack + 1) * 2 ^ 21) ∧ c.qtid = t.id ∧
    c.qprio = BitVec.ofNat 64 (t.prio + 8 * eff)) ∧
  (∀ (s : State) (t : TaskEntry), s.effective t = min 7 (t.prio + (s.now - t.tReady) / max 1 (s.qmaging.extractLsb' 0 32).toNat)) ∧
  (∀ (s : State) (cid k : Nat), cid = s.ev.a → k = coreOf cid → (s.ctx cid).status = .idle → 1 ≤ cid % 12 → cid % 12 ≤ 10 → k < 8192 →
    s.claimed cid = false → s.coreAvailable k = true → (s.die (dieOf cid)).stopped = false →
    (∀ t ∈ (s.core k).bobbin, t.running = none → s.mayRun t k = false) →
    (∀ e ∈ (s.ringFrom k 0 (s.core k).ring.length).2, e.2 = true → s.mayRun e.1 k = false) → (∀ t ∈ (s.die (dieOf cid)).ready, s.mayRun t k = false) →
    (s.stealSearch k (stealOrder k) = none → exec .steal s = .next s) ∧
    ∀ u t, s.stealSearch k (stealOrder k) = some (u, t) → exec .steal s = .next (u.modCore k fun c => { c with arriving := c.arriving ++ [(cid, t)] })) ∧
  (∀ (s u v w : State) (x : Decrement) (y : Xlat) (n : Nat), (s.die s.ev.a).decrements[s.ev.b]? = some x →
    u = s.modDie s.ev.a (fun k => { k with decrements := k.decrements.eraseIdx s.ev.b }) → u.counterAt (dispView s.ev.a x.satp) x.counter.toNat = some (v, y) →
    v.homeReadX y 0 16 = (w, n) → 2 ≤ n % 2 ^ 32 → ∃ z : State, z = w.homeWriteX y 0 4 (n % 2 ^ 32 - 1)
      ⟨x.task, pcode 0 (u.reportCore x.core), w.now, 0, false⟩ x.launch ∧
    ((∃ d ∈ (z.die s.ev.a).decrements, d.task = x.task ∧ d.launch = x.launch) → exec .counterDecrement s = .next z) ∧
    ((∀ d ∈ (z.die s.ev.a).decrements, d.task = x.task → d.launch ≠ x.launch) →
      exec .counterDecrement s = .next (z.taskGone x.launch x.task x.core))) ∧
  (∀ (s : State) (t r : TaskEntry) (cid a : Nat), (s.die s.ev.a).ready[s.ev.b]? = some t → a = max 1 (s.qmaging.extractLsb' 0 32).toNat →
    (s.now < t.tReady + (7 - t.prio) * a + a → exec .priorityDisplacement s = .next s) ∧
    (t.tReady + (7 - t.prio) * a + a ≤ s.now → (∀ q ∈ s.ctxs, ∀ z, q.2.stop = some z → z.forTask ≠ some t.id) →
      (∀ n, n < 5120 → (s.ctx ((s.ev.a * 512 + n / 10) * 12 + n % 10 + 1)).status = .idle → s.mayRun t (s.ev.a * 512 + n / 10) = false) →
      (∀ k, k / 512 = s.ev.a → s.mayRun t k = true → (s.core k).freed = 0 ∨ (s.core k).freed + a ≤ s.now) → dieOf cid = s.ev.a → (s.ctx cid).status = .running → (s.ctx cid).stop = none → (s.ctx cid).haltReq = false → s.mayRun t (coreOf cid) = true →
      (s.ctx cid).task = some r → r.prio < 7 →
      (∀ q ∈ s.ctxs, ∀ z, q.2.task = some z → dieOf q.1 = s.ev.a → z.prio < 7 → q.1 = cid ∨ r.prio < z.prio ∨ (r.prio = z.prio ∧ r.dispatched < z.dispatched)) →
      risingFrom 0 s.ctxs = true →
      exec .priorityDisplacement s = .next (s.modCtx cid fun c => { c with stop := some ⟨false, false, some t.id, false⟩ }))) ∧
  (∀ (s : State) (g : Staging) (cl l2 sp : Nat), (s.die s.ev.a).stagings[s.ev.b]? = some g → g.task = none → g.admitted = false → cl = clusterOfCore g.core →
    s.stagedBytes cl = (l2, sp) → s.qmstage.extractLsb' 0 4 ≠ 0 →
    l2 + ((g.entries.filter fun e => !e.scratch).map fun e => e.len).sum ≤ (s.qmstage.extractLsb' 4 4).toNat * 2 ^ 19 →
    sp + ((g.entries.filter fun e => e.scratch).map fun e => e.len).sum ≤ (s.qmstage.extractLsb' 8 8).toNat * 2 ^ 14 →
    s.copyLoad cl + g.entries.length ≤ 64 →
    (∀ h ∈ (s.die s.ev.a).stagings, h.task = none ∨ h.admitted = true ∨ clusterOfCore h.core ≠ cl ∨ s.inHorizon h = false) →
    ∃ t : State, exec .stagingAdmit s = .next t ∧ (t.die s.ev.a).stagings =
        (s.die s.ev.a).stagings.set s.ev.b (({ g with admitted := true, since := s.now } : Staging).closed s.now) ∧
      (t.cluster cl).fills = (s.cluster cl).fills ++ ((g.entries.filter fun e => !e.scratch && !e.cancelled).flatMap fun e => e.lines.map fun x => (x, g.tid, e.write)) ∧
      t.mem = s.mem) ∧
  (∀ (s v u : State) (g h : Staging) (e : StageEntry) (cl : Nat), (s.die s.ev.a).stagings[s.ev.b]? = some g → g.entries[s.ev.n]? = some e →
    g.admitted = true → e.done = false → e.cancelled = false → cl = clusterOfCore g.core → v = (if e.scratch then s.stageCopy (clusterOfCore g.core) g.tid e (g.task.getD 0) else
      (e.lines.foldl (fun s x => s.stageFill (clusterOfCore g.core) x g.tid e.write) s).dropFills (clusterOfCore g.core) e) →
    u = (if e.evict = true ∧ e.scratch = false then e.lines.foldl (fun s x => s.firstOut cl (x.pa / 128)) v else v) →
    h = ({ g with entries := g.entries.set s.ev.n { e with done := true } } : Staging).closed u.now →
    ((∀ q ∈ u.ctxs, q.2.isLive = true → g.task ≠ some q.2.qtid) → g.task ≠ none ∨ h.ended = none →
      exec .stagingEntryComplete s = .next ((u.modDie s.ev.a fun x => { x with stagings := x.stagings.set s.ev.b h }).pumpCluster cl)) ∧
    (g.task = none → h.ended ≠ none →
      exec .stagingEntryComplete s = .next ((u.modDie s.ev.a fun x => { x with stagings := x.stagings.eraseIdx s.ev.b }).pumpCluster cl)) ∧
    (∀ (cid : Nat) (c : Ctx), (cid, c) ∈ u.ctxs → risingFrom 0 u.ctxs = true → c.isLive = true → g.task = some c.qtid →
      ctxNum cid ≠ 0 ∨ coreOf cid = g.core → (∀ r ∈ u.released, r.g ≠ cl) →
      (∀ q ∈ u.ctxs, q.2.isLive = true → g.task = some q.2.qtid → q.1 = cid) → ∃ t : State, exec .stagingEntryComplete s = .next t ∧
        (t.ctx cid).qtstg = c.qtstg ||| BitVec.ofNat 64 (2 ^ s.ev.n))) ∧
  (∀ (s : State) (g : Staging), (s.die s.ev.a).stagings[s.ev.b]? = some g →
    (g.admitted = true → g.since + g.deadline ≤ s.now →
      exec .stagingDeadline s = .next (s.modDie s.ev.a fun x => { x with stagings := x.stagings.set s.ev.b { g with expired := true } })) ∧
    (g.admitted = true → s.now < g.since + g.deadline → exec .stagingDeadline s = .next s) ∧
    (g.task = none → g.admitted = false → g.since + (s.qmtmo.extractLsb' 0 40).toNat ≤ s.now →
      exec .stgreqAdmitTimeout s = .next (s.modDie s.ev.a fun x => { x with stagings := x.stagings.eraseIdx s.ev.b })) ∧
    (g.task ≠ none ∨ g.admitted = true ∨ s.now < g.since + (s.qmtmo.extractLsb' 0 40).toNat → exec .stgreqAdmitTimeout s = .next s)) ∧
  (∀ (s y : State) (e f : TTEntry) (p : Nat), s.ev.a < 512 → e = s.ttEntry s.ev.a → p = max 1000 e.period.toNat → s.host.up = true →
    s.dieLive e.die.toNat = true → (s.die e.die.toNat).stopped = false → e.fired ≠ some s.now →
    f = { e with fired := some s.now, placed := s.ttPlacement e } → y = (s.setTT s.ev.a f).ungate f.placed →
    (e.en = true → s.now % 2 ^ 64 % p = e.phase.toNat % p →
      ((∃ q ∈ s.launches, q.2.tt = some s.ev.a) →
        (e.ovr = 0 ∨ (e.ovr = 1 ∧ e.waiting = true) → exec .ttSlotFire s = .next (y.setTT s.ev.a { f with skips := e.skips + 1 })) ∧
        (e.ovr = 1 → e.waiting = false → exec .ttSlotFire s = .next (y.ttLaunch s.ev.a true)) ∧
        (e.ovr = 2 → ∀ u : State, u = (s.ttPending s.ev.a).foldl (fun v k => v.stopLaunch k) y →
          exec .ttSlotFire s = .next (u.ttLaunch s.ev.a (u.ttPending s.ev.a != [])))) ∧
      ((∀ q ∈ s.launches, q.2.tt ≠ some s.ev.a) → exec .ttSlotFire s = .next (y.ttLaunch s.ev.a false))) ∧
    (e.en = false ∨ s.now % 2 ^ 64 % p ≠ e.phase.toNat % p → exec .ttSlotFire s = .next s)) ∧
  (∀ (s : State) (i k : Nat), k ∈ s.ttPending i ↔ ∃ l, (k, l) ∈ s.launches ∧ l.tt = some i)

/-- O52. Events of the store buffers, lane groups, home slices and tiles. A store-buffer entry is performed where its turn has come (R99). A free
lane group's arbiter grants the portion that its deficit covers, which holds the group for its cost, and an entry whose portions have finished leaves
its queue; a busy group grants nothing (R137, R138). A staging fill or a demand request takes one of the 16 request slots of its home slice, staging
within S, or waits in its cluster's miss buffer of 64, or has not yet arrived; a fill that is served frees its slot to the oldest request that may
enter, demand before staging (R181). A line that replacement takes leaves the L2 with its reservations, and its dirty bytes merge into home memory
when they land there (R102, R180). A posted message to a remote scratchpad is performed where its turn has come (R190). The tile home serves a
cluster's request (R213); a forward starts from the only holder in E or M, whose sectors travel, is dropped for its own cluster, and else leaves an
event (R222); a push ends at M in its destination, or at H with its dirty bytes at home where it is refused (R223). A host that answers no snoop
loses its copy after qmtmo, and firmware is told each port that did not answer (R399). A tile home request carries the tensor ID and
the task of the access that made it (R186, R216). -/
def Obligations.MemoryEvents : Prop :=
  ((∀ s : State, (s.mayPerform s.ev.a s.ev.b = true → exec .storeBufferEntryPerform s = .next (s.performEntry s.ev.a s.ev.b)) ∧
    (s.mayPerform s.ev.a s.ev.b = false → exec .storeBufferEntryPerform s = .next s ∧ exec .tileForwardStart s = .next s) ∧
    (∀ e, s.ev.b = 0 → (s.core s.ev.a).storeBuffer.head? = some e → (s.core s.ev.a).posted = [] → (s.cluster (s.ev.a / 4)).busy = false →
      (s.die (s.ev.a / 512)).stopped = false → (∀ x n d, e.kind = .store x n d → s.slotsFull (clusterOf e.cid) x n = false) →
      (∀ ls, e.kind = .written ls → s.writesTo (clusterOf e.cid) ls = none) → s.mayPerform s.ev.a s.ev.b = true)) ∧
  (∀ (s : State) (g j k i cost : Nat) (x : LaneGroup) (e : VEntry), g = s.ev.a → j = s.ev.b → j < 8 → x = (s.cluster g).groups.toList.getD j LaneGroup.reset →
    (∀ m, m < 4 → (s.core (g * 4 + m)).hem.length < 16) → x.busy ≤ s.arith → k = g * 4 + x.ptr → x.ptr < 4 → x.fresh = false →
    s.readyPortion k j = some (i, cost) → cost ≤ x.def_ x.ptr → (s.core k).vq[i]? = some e → e.acc = none →
    ∃ (t : State) (n : Nat), exec .laneGroupGrant s = .next t ∧
      (t.core k).vq = leaveQueue s.arith ((s.core k).vq.set i { e with todo := e.todo &&& ~~~(1#8 <<< j), ends := n }) ∧
      (e.cross = false → n = max e.ends (s.arith + e.cost)) ∧ (e.cross = true → e.ends ≤ n ∧ s.arith + e.cost ≤ n) ∧
      (∀ m, m < 4 → g * 4 + m ≠ k → (t.core (g * 4 + m)).vq = leaveQueue s.arith (s.core (g * 4 + m)).vq) ∧
      ((t.cluster g).groups.toList.getD j LaneGroup.reset).def_ x.ptr = x.def_ x.ptr - cost ∧
      ((t.cluster g).groups.toList.getD j LaneGroup.reset).busy = s.arith + e.cost ∧
      (∀ l, l < 8 → l ≠ j → ((t.cluster g).groups.toList.getD l LaneGroup.reset).busy =
        if e.cross then max ((s.cluster g).groups.toList.getD l LaneGroup.reset).busy s.arith + e.cost
        else ((s.cluster g).groups.toList.getD l LaneGroup.reset).busy) ∧ t.mem = s.mem) ∧
  (∀ s : State, (∀ m, m < 4 → s.readyPortion (s.ev.a * 4 + m) s.ev.b = none) ∨
      s.arith < ((s.cluster s.ev.a).groups.toList.getD s.ev.b LaneGroup.reset).busy →
    (∀ m, m < 4 → (s.core (s.ev.a * 4 + m)).hem.length < 16) →
    (∀ m, m < 4 → (s.core (s.ev.a * 4 + m)).vq = leaveQueue s.arith (s.core (s.ev.a * 4 + m)).vq) →
    ∃ t : State, exec .laneGroupGrant s = .next t ∧ t = { s with cores := t.cores } ∧ ∀ k, t.core k = s.core k) ∧
  (∀ (s : State) (f : Xlat × BitVec 12 × Bool) (k : Slice) (st : Nat), s.ev.flag = false → (s.cluster s.ev.a).fills[s.ev.b]? = some f →
    k = s.slice f.1.slice → st = (k.held.filter fun r => r.fill.isSome).length → (∀ r ∈ s.released, r.g ≠ s.ev.a) →
    (k.held.length < 16 → st < (s.qmstage.extractLsb' 16 4).toNat → exec .homeRequestArrival s = .next ((s.setSlice f.1.slice { k with
      held := k.held ++ [⟨s.ev.a, 0, some f, false⟩], peak := if k.peak.toNat < k.held.length + 1 then BitVec.ofNat 5 (k.held.length + 1) else k.peak }).modCluster
        s.ev.a fun c => { c with fills := c.fills.eraseIdx s.ev.b })) ∧
    (16 ≤ k.held.length ∨ (s.qmstage.extractLsb' 16 4).toNat ≤ st →
      (s.missUsed s.ev.a < 64 → exec .homeRequestArrival s = .next ((s.setSlice f.1.slice { k with
        waiting := k.waiting ++ [⟨s.ev.a, 0, some f, false⟩], waits := if 16 ≤ k.held.length then k.waits + 1 else k.waits }).modCluster
          s.ev.a fun c => { c with fills := c.fills.eraseIdx s.ev.b })) ∧
      (64 ≤ s.missUsed s.ev.a → exec .homeRequestArrival s = .next s))) ∧
  (∀ (s : State) (i : Instr) (pa : Option Nat) (sl : Nat) (k : Slice), s.ev.flag = true → (s.ctx s.ev.a).request = some (.access i pa (some sl)) →
    s.atHome s.ev.a = false → k = s.slice sl →
    (k.held.length < 16 → exec .homeRequestArrival s = .next (s.setSlice sl { k with
      held := k.held ++ [⟨clusterOf s.ev.a, s.ev.a, none, false⟩], peak := if k.peak.toNat < k.held.length + 1 then BitVec.ofNat 5 (k.held.length + 1) else k.peak })) ∧
    (16 ≤ k.held.length → s.missUsed (clusterOf s.ev.a) < 64 → exec .homeRequestArrival s = .next (s.setSlice sl { k with
      waiting := k.waiting ++ [⟨clusterOf s.ev.a, s.ev.a, none, false⟩], waits := k.waits + 1 })) ∧
    (16 ≤ k.held.length → 64 ≤ s.missUsed (clusterOf s.ev.a) → exec .homeRequestArrival s = .next s)) ∧
  (∀ (s : State) (k : Slice) (l r : List SlotReq) (w : SlotReq), k = s.slice s.ev.a → (∀ q ∈ k.held, q.fill = none ∧ q.elem = false) →
    (k.waiting = [] ∨ 16 ≤ k.held.length → exec .missBufferSlotEntry s = .next s) ∧
    (k.waiting = l ++ w :: r → k.held.length < 16 →
      (w.fill = none → (∀ q ∈ l, q.fill ≠ none) → exec .missBufferSlotEntry s = .next (s.setSlice s.ev.a { k with held := k.held ++ [w], waiting := l ++ r })) ∧
      ((∀ q ∈ k.waiting, q.fill ≠ none) → l = [] → 0 < (s.qmstage.extractLsb' 16 4).toNat →
        exec .missBufferSlotEntry s = .next (s.setSlice s.ev.a { k with held := k.held ++ [w], waiting := r })))) ∧
  (∀ (s u : State) (k : Slice) (l m : List SlotReq) (r : SlotReq) (x : Xlat) (tid : BitVec 12) (ex : Bool), k = s.slice s.ev.a →
    k.held = l ++ r :: m → (∀ q ∈ l, q.fill = none ∧ q.elem = false) → r.fill = some (x, tid, ex) →
    u = (s.setSlice s.ev.a { k with held := l ++ m }).stageFill r.g x tid ex → (u.slice s.ev.a).waiting = [] → exec .missBufferSlotEntry s = .next u) ∧
  (∀ (s : State) (k : Slice) (l m : List SlotReq) (r : SlotReq), k = s.slice s.ev.a →
    k.held = l ++ r :: m → (∀ q ∈ l, q.fill = none ∧ q.elem = false) → r.fill = none → r.elem = true → k.waiting = [] →
    exec .missBufferSlotEntry s = .next (s.setSlice s.ev.a { k with held := l ++ m }))) ∧
  ((∀ (s : State) (v : Victim), (s.cluster s.ev.a).victims[s.ev.b]? = some v → ∃ t : State, exec .writebackMerge s = .next t ∧
    (s.silent (v.line * 128) = true → t = s) ∧ (s.silent (v.line * 128) = false → (t.cluster s.ev.a).victims = (s.cluster s.ev.a).victims.eraseIdx s.ev.b ∧
      (∀ i, i < 128 → mget t.mem (v.line * 128 + i) = if v.l.dirty.getLsbD i then lineByte v.l.data i else mget s.mem (v.line * 128 + i)) ∧
      ∀ a, a < v.line * 128 ∨ v.line * 128 + 128 ≤ a → mget t.mem a = mget s.mem a)) ∧
  (∀ (s t : State) (g line : Nat) (l : L2Line), tfind (s.cluster g).l2 line = some l → (∀ q ∈ s.tiles, q.mask line = 0) → t = s.evictLine g line →
    tfind (t.cluster g).l2 line = none ∧ t.mem = s.mem ∧
    (l.dirty = 0 → (t.cluster g).victims = (s.cluster g).victims) ∧
    (l.dirty ≠ 0 → ∃ v : Victim, (t.cluster g).victims = (s.cluster g).victims ++ [v] ∧ v.line = line ∧ v.l = l) ∧
    (l.valid = 255 → ∀ cid r, clusterOf cid = g → (t.ctx cid).reservation = some r → r.pa / 128 = line → r.size = 0)) ∧
  (∀ (s : State) (cid h off n : Nat) (rel : Bool) (x : Xlat) (d pc task : Word) (tid : BitVec 12) (since : Nat),
    (s.core s.ev.a).posted[s.ev.b]? = some ⟨cid, rel, .store x n d, pc, task, tid, since, none⟩ → regionOf x.pa = .scratch 0 h off →
    (s.mayLand s.ev.a s.ev.b = true → ∃ t : State, exec .remoteScratchpadAccess s = .next t ∧
      (t.core s.ev.a).posted = (s.core s.ev.a).posted.eraseIdx s.ev.b ∧
      (∀ j, j < n → mget t.mem (scratchAddr h off + j) = BitVec.ofNat 8 (d.toNat / 2 ^ (8 * j))) ∧
      ∀ a, a < scratchAddr h off ∨ scratchAddr h off + n ≤ a → mget t.mem a = mget s.mem a) ∧
    (s.mayLand s.ev.a s.ev.b = false → exec .remoteScratchpadAccess s = .next s))) ∧
  ((∀ (s : State) (q : Tile), s.tileAt s.ev.b = some q → s.clusterLive s.ev.a = true →
    exec .tileHomeRequest s = .next (s.tileRequest q s.ev.a s.ev.flag (BitVec.ofNat 12 s.ev.n) s.ev.v) ∧
    (q.holders = [s.ev.a] → q.st = .m → exec .tileHomeRequest s = .next s)) ∧
  (∀ (s u : State) (cid pa home dst : Nat) (rel : Bool) (va pc task : Word) (tid : BitVec 12) (since : Nat) (vec : Option (Nat × Nat)),
    s.mayPerform s.ev.a s.ev.b = true →
    (s.core s.ev.a).storeBuffer[s.ev.b]? = some ⟨cid, rel, .tfwd pa home va dst false, pc, task, tid, since, vec⟩ →
    u = (if rel then (s.settleAcc cid).drainPosted cid (s.core s.ev.a).posted.length else s) →
    (u.core s.ev.a).storeBuffer[s.ev.b]? = some ⟨cid, rel, .tfwd pa home va dst false, pc, task, tid, since, vec⟩ →
    (clusterOfCore dst = clusterOf cid →
      exec .tileForwardStart s = .next (u.modCore s.ev.a fun k => { k with storeBuffer := k.storeBuffer.eraseIdx s.ev.b })) ∧
    (clusterOfCore dst ≠ clusterOf cid → u.tileAt pa = none → exec .tileForwardStart s =
      .next ((u.modCore s.ev.a fun k => { k with storeBuffer := k.storeBuffer.eraseIdx s.ev.b }).putEvent s.ev.a 8 0 task [pc, va] task (pcode 10 home))) ∧
    (clusterOfCore dst ≠ clusterOf cid → ∀ q, u.tileAt pa = some q →
      (∀ (v : State) (fl : Table L2Line), (q.st = .e ∨ q.st = .m) → q.holders = [clusterOf cid] →
        u.takeTile q (clusterOf cid) (u.sliceWake task q.home) = (v, fl) → exec .tileForwardStart s =
        .next ((v.setTile { q with st := .f, dst := clusterOfCore dst, fwdCore := s.ev.a, fwdTask := task, fwdTid := tid, flight := fl }).modCore
          s.ev.a fun k => { k with storeBuffer := k.storeBuffer.set s.ev.b ⟨cid, rel, .tfwd pa home va dst true, pc, task, tid, since, vec⟩ })) ∧
      (q.st = .h ∨ q.st = .s ∨ q.st = .f ∨ q.holders ≠ [clusterOf cid] → exec .tileForwardStart s =
        .next ((u.modCore s.ev.a fun k => { k with storeBuffer := k.storeBuffer.eraseIdx s.ev.b }).putEvent s.ev.a 8 0 task [pc, va] task (pcode 10 q.home))))) ∧
  (∀ (s : State) (q : Tile), s.tileAt s.ev.b = some q → q.st = .f → ∃ t : State, exec .tilePushArrival s = .next t ∧
    (s.declines q q.dst = false → s.ev.flag = false ∨ (s.cluster q.dst).l2.length + q.sectors.length < (s.cluster q.dst).ways →
      t.tileAt s.ev.b = some { q with st := .m, holders := [q.dst], flight := [] } ∧
      t.tiles = ((s.placeTile q q.dst q.fwdTid q.flight).setTile { q with st := .m, holders := [q.dst], flight := [] }).tiles) ∧
    (s.declines q q.dst = true ∨ (s.ev.flag = true ∧ (s.cluster q.dst).ways ≤ (s.cluster q.dst).l2.length + q.sectors.length) →
      t.tileAt s.ev.b = some { q with st := .h, holders := [], dst := 0, flight := [] } ∧
      t.mem = (q.flight.foldl (fun u p => u.mergeHome p.1 p.2) s).mem)) ∧
  (∀ (s : State) (ps : List (Nat × Nat)), ps = s.host.hostLines.filter (fun p => p.1 == s.ev.b) →
    (ps ≠ [] → ∃ t : State, exec .snoopHostTimeout s = .next t ∧ (∀ p ∈ t.host.hostLines, p.1 ≠ s.ev.b) ∧
      t.now = s.now + (s.qmtmo.extractLsb' 0 40).toNat ∧ t.host.reported = s.host.reported ++ ps.map (fun p => p.2) ∧ t.mem = s.mem) ∧
    (ps = [] → exec .snoopHostTimeout s = .next s)))

/-- O53. Accumulate sends and their answers. A send whose home is device HBM, whether of this module in its context's order to that destination (R247)
or of another module through a host port, is accepted while its source's tokens of the window and the destination's pending depth last, and else
refused and counted (R236); a forced one takes one of the two reserved slots of its die or waits (R239). A peer's home decides in the same way, out of
sight. An accepted send's addends join the destination line at home (R235, R246), and it leaves the pending queue in order, its flags in SACCST; a
forced send that waits is then accepted. A refused send's addends become the residual of its hem entry, older by one (R241), or are sent forced where
the context has ended or TRES has passed; an acceptance ends one outstanding send (R240). A residual older than TRES is sent forced (R242). At a new
window every source's tokens are new, and a Q that waits takes effect (R236); a written quota value reaches a slice 1 microsecond after its write, W and
D at once and Q at the next boundary (R237). The model's choices here: a hem entry keeps the address of its first addends (log entry 64), memory changes
at acceptance (log entry 18), a peer's decision is an operand (log entry 60), and a forced send of another module takes the slots of the die at its host
port (log entry 102). -/
def Obligations.AccumulateEvents : Prop :=
  ((∀ (s u v : State) (a : AccSend) (x : Xlat) (k : Slice) (i used dslot : Nat),
    (s.ev.n ≠ 1 ∧ s.sends[s.ev.a]? = some a ∧ s.sendMay s.ev.a = true ∧ regionOf a.dst.pa = .hbm ∧
        v = ({ s with sends := s.sends.eraseIdx s.ev.a } : State)) ∨
      (s.ev.n = 1 ∧ x = ⟨s.ev.b * 128, s.ev.b * 128, .hbm, BitVec.ofNat 4 (s.ev.v.extractLsb' 0 4).toNat, BitVec.ofNat 2 (s.ev.v.extractLsb' 4 2).toNat,
          false, true, 12, 0⟩ ∧
        a = ⟨98304 + 48 * (s.ev.a % 2), (if (s.ev.v.extractLsb' 6 2).toNat = 0 then .f else if (s.ev.v.extractLsb' 6 2).toNat = 1 then .x else .i), x,
          s.ev.data, BitVec.ofNat 6 (s.ev.v.extractLsb' 8 6).toNat, 0, s.now, s.ev.v.getLsbD 14, 0, 0, 0, s.now⟩ ∧ isHbm (s.ev.b * 128 + 127) = true ∧ v = s) →
    (∀ t ∈ s.tiles, t.st ≠ .f) → i = a.dst.slice → u = ((v.refill i).promote i 32).countLine i (a.dst.pa / 128) → k = u.slice i →
    used = (tfind k.used (clusterOf a.cid)).getD 0 → dslot = (if a.cid < 98304 then dieOf a.cid else (a.cid - 98304) / 48 % 2 * 8) →
    (a.forced = false → k.q.toNat ≤ used ∨ k.d.toNat ≤ (k.pend.filter fun p => p.dst.pa == a.dst.pa).length → ∃ w : State,
      w = u.setSlice i { k with refusals := k.refusals + 1 } ∧
      exec .accSendArrival s = .next { w with answers := if a.cid < 98304 then w.answers ++ [(false, a)] else w.answers }) ∧
    (a.forced = false → used < k.q.toNat → (k.pend.filter fun p => p.dst.pa == a.dst.pa).length < k.d.toNat →
      exec .accSendArrival s = .next ((u.setSlice i { k with used := tput k.used (clusterOf a.cid) (used + 1) }).acceptSend i a)) ∧
    (a.forced = true → (k.pend.filter fun b => b.forced && b.slotDie == dslot).length < 2 → exec .accSendArrival s = .next (u.acceptSend i a)) ∧
    (a.forced = true → 2 ≤ (k.pend.filter fun b => b.forced && b.slotDie == dslot).length → exec .accSendArrival s = .next (u.setSlice i { k with forcedWait := k.forcedWait ++ [a] }))) ∧
  (∀ (s v : State) (a : AccSend) (p o : Nat), s.ev.n ≠ 1 → s.sends[s.ev.a]? = some a → s.sendMay s.ev.a = true → regionOf a.dst.pa = .peer p o →
    (∀ t ∈ s.tiles, t.st ≠ .f) → a.cid < 98304 → v = ({ s with sends := s.sends.eraseIdx s.ev.a } : State) →
    (s.ev.flag = true → a.forced = false → exec .accSendArrival s = .next { v with answers := v.answers ++ [(false, a)] }) ∧
    (s.ev.flag = false ∨ a.forced = true → ∀ (u : State) (f : BitVec 6), v.applySend a = (u, f) →
      exec .accSendArrival s = .next { u with answers := if a.forced then u.answers else u.answers ++ [(true, a)] })) ∧
  (∀ s : State, s.ev.n ≠ 1 → s.sendMay s.ev.a = false → exec .accSendArrival s = .next s) ∧
  (∀ (s t w : State) (i line : Nat) (a : AccSend), t = s.acceptSend i a → line = a.dst.pa / 128 →
    w = (s.loseReservations line none none ⟨a.task, pcode 3 a.dst.slice, s.now, 0, false⟩).homeTake none line 255 a.task →
    mline t.mem line = (accMerge a.form (mline w.mem line) a.data).1 ∧
    (∀ j, j < line * 128 ∨ line * 128 + 128 ≤ j → mget t.mem j = mget w.mem j) ∧
    (t.answers = if a.forced = true ∨ 98304 ≤ a.cid then w.answers else w.answers ++ [(true, a)]) ∧
    t.slice i = { w.slice i with
      accst := (w.slice i).accst ||| a.flags, pend := (w.slice i).pend ++ [{ a with flags := (accMerge a.form (mline w.mem line) a.data).2 }] })) ∧
  ((∀ (s v : State) (k : Slice) (a : AccSend), k = s.slice s.ev.a → k.pend = a :: k.pend.tail →
    v = s.setSlice s.ev.a { k with pend := k.pend.tail, accst := k.accst ||| a.flags } → exec .accApply s = .next (v.promote s.ev.a 32) ∧
    ((∀ b ∈ k.forcedWait, 2 ≤ (v.slice s.ev.a).forcedOf b.slotDie) → exec .accApply s = .next v) ∧
    (∀ b, k.forcedWait = b :: k.forcedWait.tail → (v.slice s.ev.a).forcedOf b.slotDie < 2 → exec .accApply s =
      .next (((v.setSlice s.ev.a { v.slice s.ev.a with forcedWait := k.forcedWait.tail }).acceptSend s.ev.a b).promote s.ev.a 31))) ∧
  (∀ s : State, (s.slice s.ev.a).pend = [] → (s.slice s.ev.a).forcedWait = [] → exec .accApply s = .next s) ∧
  (∀ a : AccSend, (a.cid < 98304 → a.slotDie = dieOf a.cid) ∧ (98304 ≤ a.cid → a.slotDie = (a.cid - 98304) / 48 % 2 * 8)) ∧
  (∀ (s : State) (a : AccSend) (e : HemEntry) (d : LineData) (at0 : Nat), s.answers[s.ev.a]? = some (false, a) → (s.core (coreOf a.cid)).hem = [e] →
    e.cid = a.cid → e.dst.pa = a.dst.pa → e.form = a.form → d = (match e.residual with
      | some r => (accMerge a.form r a.data).1
      | none => a.data) → at0 = (if e.residual.isSome then min e.t0 a.t0 else a.t0) →
    ∃ t : State, exec .accRefusalReturn s = .next t ∧ t.answers = s.answers.eraseIdx s.ev.a ∧
      (t.core (coreOf a.cid)).refused = (s.core (coreOf a.cid)).refused + 1 ∧
      ((s.ctx a.cid).status = .running → (s.ctx a.cid).qtid = a.task → s.now < at0 + (s.qmresid.extractLsb' 0 32).toNat →
        t.sends = s.sends ∧ ∃ f : HemEntry, (t.core (coreOf a.cid)).hem = [f] ∧ f.residual = some d ∧ f.age = min 3 (max e.age (a.age + 1)) ∧
          f.out = e.out - 1 ∧ f.cid = e.cid ∧ f.dst = (if e.residual.isSome then e.dst else a.dst) ∧ f.form = e.form ∧ f.t0 = at0) ∧
      ((s.ctx a.cid).status = .idle ∨ (s.ctx a.cid).status = .reserved ∨ (s.ctx a.cid).qtid ≠ a.task ∨ at0 + (s.qmresid.extractLsb' 0 32).toNat ≤ s.now →
        ∃ b : AccSend, t.sends = s.sends ++ [b] ∧ b.forced = true ∧ b.cid = a.cid ∧ b.dst = (if e.residual.isSome then e.dst else a.dst) ∧
          b.form = a.form ∧ b.data = d)) ∧
  (∀ (s : State) (a : AccSend), s.answers[s.ev.a]? = some (true, a) →
    (exec .accRefusalReturn s = .next s) ∧ ∃ t : State, exec .accAcceptReturn s = .next t ∧ t = { s with answers := s.answers.eraseIdx s.ev.a, cores := t.cores } ∧
      ∀ e, (s.core (coreOf a.cid)).hem = [e] → e.cid = a.cid → e.dst.pa = a.dst.pa → e.form = a.form →
        (t.core (coreOf a.cid)).hem = if e.residual = none ∧ e.out ≤ 1 then [] else [{ e with out := e.out - 1 }]) ∧
  (∀ (s : State) (e : HemEntry) (d : LineData), (s.core s.ev.a).hem[s.ev.b]? = some e → e.residual = some d →
    (e.t0 + (s.qmresid.extractLsb' 0 32).toNat ≤ s.now → ∃ t : State, exec .residualTimerFlush s = .next t ∧
      t.sends = s.sends ++ [⟨e.cid, e.form, e.dst, d, e.flags, e.age, e.t0, true, e.asid, e.tid, e.task, s.now⟩] ∧
      (∀ f ∈ (t.core s.ev.a).hem, f.is e.cid e.dst.pa e.form = true → f.residual = none) ∧ t = { s with sends := t.sends, cores := t.cores }) ∧
    (s.now < e.t0 + (s.qmresid.extractLsb' 0 32).toNat → exec .residualTimerFlush s = .next s))) ∧
  (∀ (s : State) (k p : Slice) (pass : Slice → Nat → Slice), k = s.slice s.ev.a →
    (∀ x n, pass x n = if n / max 1 x.w.toNat = x.window / max 1 x.w.toNat then { x with window := n }
      else { x with window := n, used := [], q := x.nextQ.getD x.q, nextQ := none }) →
    ((∀ q r, k.unreached = q :: r → s.now < q.1 + 1000) → exec .quotaWindowRefill s = .next (s.setSlice s.ev.a (pass k s.now))) ∧
    (∀ (m : Nat) (w : Word) (rest : List (Nat × Word)), k.unreached = (m, w) :: rest → m + 1000 ≤ s.now → (∀ q ∈ rest, s.now < q.1 + 1000) →
      p = pass k (max k.window (m + 1000)) → exec .quotaWindowRefill s = .next (s.setSlice s.ev.a (pass { p with
        unreached := rest, nextQ := some (w.extractLsb' 0 8), w := w.extractLsb' 8 16, d := w.extractLsb' 24 4 } s.now))))

/-- O54. Events of the engines, messages and shuttles. A copy whose turn it is performs its bytes, those of a phaser operation lowering its count
(R344), and with the last its handle becomes full (R287); a fault ends it with ERR on its handle and its record (R301). Stack commands run by units to
their end, where STATUS is written (R296, R300), or to a fault. The target of a matrix command answers the issuer's query, or refuses a wrong key
(R402); a command starts when nothing earlier holds it back (R275), and its completion does what R267 to R274 say: MXZERO clears its accumulator,
MXCFG empties the engine, MXDUP sets the map, MXSYNC answers its issuer; a fault leaves a record and, for MXLD, an empty buffer (R277). A packet is
taken by the oldest matching slot, queued, or refused with cause 27 and an event (R351). A shuttle's batch is sent 1,000 ns after its oldest entry
entered, and arrives at the queue's home (R355). A sealed copy ends with its reason: 4 where the session is not usable, 1 where the IV is not the
counter's, 2 where the tag does not verify; else its plaintext stands and the counter has moved (R390), in the session's order of acceptance over all
clusters (R391). While SPWAYS of a cluster that an engine uses changes, and while its die is stopped, the engine stands (R178, R397). A peer's batch
joins a queue in device HBM (R392), its entries' format being the model's (log entry 60). The model's too: the cipher of a sealed copy is the public
standard's and the key stands least significant byte first in its slot (log entry 25), and opening is one step at the end (log entry 52). -/
def Obligations.EngineEvents : Prop :=
  ((∀ (s u v : State) (c d : CopyOp) (i : Instr) (n : Nat) (e : Option (Nat × Nat)) (code : BitVec 32), (s.cluster s.ev.a).copies[s.ev.b]? = some c →
    s.copyMay s.ev.a s.ev.b = true → c.sealedBy = none → s.engineHeld s.ev.a (c.srcPages ++ c.dstPages) = false →
    (i = .copyComplete ∧ n = c.n - c.done ∨ i = .copyFaultEnd ∧ s.ev.flag = false ∧ n = c.n - c.done ∧ e ≠ none ∨
      i = .phaserBytesDecrement ∧ s.ev.flag = false ∧ n = s.ev.n) →
    s.copyRun s.ev.a (c.n - c.done + 1) c n = (u, d, e) → code = pcode 1 (u.reportCluster s.ev.a) →
    v = (match c.target with
      | .phaser x => u.phaserDecrement x (d.done - c.done) c.task code c.owner
      | .handle _ _ _ => u) → (∀ r ∈ v.released, r.g ≠ s.ev.a) →
    (e = none → d.done < d.n → exec i s = .next (v.setCopy s.ev.a s.ev.b (some d))) ∧
    (e = none → d.n ≤ d.done →
      (∀ x, c.target = .phaser x → exec i s = .next (v.setCopy s.ev.a s.ev.b none)) ∧
      ∀ g h w, c.target = .handle g h w → exec i s = .next ((v.setCopy s.ev.a s.ev.b none).changeHandle g h 2 false c.task code)) ∧
    (∀ cause pa, e = some (cause, pa) → ∃ y z : State, y = v.setCopy s.ev.a s.ev.b none ∧ z = (match d.target with
        | .handle g h _ => y.changeHandle g h 1 true d.task (pcode 1 (y.reportCluster s.ev.a))
        | .phaser _ => y) ∧ exec i s = .next (z.putEvent d.owner 0x0A cause d.task [d.pc, BitVec.ofNat 64 pa, d.target.asWord, BitVec.ofNat 64 d.done] d.task
          (pcode 1 (z.reportCluster s.ev.a))))) ∧
  (∀ (s : State) (g h : Nat) (st : BitVec 2) (err : Bool) (task : Word) (code : BitVec 32),
    ((s.changeHandle g h st err task code).handle g h).st = st ∧ ((s.changeHandle g h st err task code).handle g h).err = err ∧
    ((s.changeHandle g h st err task code).handle g h).veil = if err then (s.handle g h).veil else []) ∧
  (∀ s : State, s.copyMay s.ev.a s.ev.b = false ∨ (∃ c, (s.cluster s.ev.a).copies[s.ev.b]? = some c ∧ s.engineHeld s.ev.a (c.srcPages ++ c.dstPages) = true) →
    exec .copyComplete s = .next s) ∧
  (∀ (s u : State) (c d : StackCmd) (i : Instr) (n : Nat) (e : Option (Nat × Nat)), (s.stackList s.ev.a)[s.ev.b]? = some c → s.ev.b < 8 →
    (i = .stackCommandComplete ∧ n = c.unitCount - c.units ∨
      i = .copyFaultEnd ∧ s.ev.flag = true ∧ n = c.unitCount - c.units ∧ (s.stackRun s.ev.a n c).2.2 ≠ none ∨
      i = .phaserBytesDecrement ∧ s.ev.flag = true ∧ n = s.ev.n) →
    (if c.units = 0 then s.stackTiles c else s).stackRun s.ev.a n c = (u, d, e) →
    (e = none → d.units < d.unitCount → exec i s = .next (u.setStackCmd s.ev.a s.ev.b (some d))) ∧
    (e = none → d.unitCount ≤ d.units → ∃ v : State, v = (u.homeWriteX d.descAt 0 8 (d.flags.toNat + 128) ⟨d.task, pcode 2 s.ev.a, u.now, 0, false⟩ 0).setStackCmd
        s.ev.a s.ev.b none ∧
      (∀ g h w, d.target = .handle g h w → exec i s = .next (v.changeHandle g h 2 false d.task (pcode 2 s.ev.a))) ∧
      ∀ x, d.target = .phaser x → exec i s = .next (v.phaserDecrement x 8 d.task (pcode 2 s.ev.a) (coreOf d.cid))) ∧
    (∀ cause pa, e = some (cause, pa) → exec i s = .next (u.stackFails s.ev.a s.ev.b d cause pa)))) ∧
  (∀ (s : State) (g : Nat) (cap : Word) (q : MxAsk), (s.ctx s.ev.a).request = some (.mxQuery g cap q) →
    (cap ≠ (s.cluster g).mx.key → exec .mxConfigQuery s = .next (s.raiseCtx s.ev.a 26 (BitVec.ofNat 64 (s.reportCluster g % 2 ^ 11)))) ∧
    (cap = (s.cluster g).mx.key → ∀ (t : State) (m : Mx), t = { s with cur := s.ev.a } → m = (s.cluster g).mx → exec .mxConfigQuery s =
      .next { t.finish (match q with
        | .ld b ea => t.mxLdIssue (s.reportCluster g) g m.next m.gen b ea cap
        | .st d ea => t.mxStIssue (s.reportCluster g) g m.next m.gen d ea cap
        | .dup ea => t.mxDupIssue (s.reportCluster g) g m.next m.gen ea cap) with cur := s.cur })) ∧
  (∀ (s : State) (q : MxCmd) (m : Mx), m = (s.cluster s.ev.a).mx → m.queue[s.ev.b]? = some q →
    ((s.die (s.ev.a / 128)).stopped = true → exec .mxCommandStart s = .next s ∧ exec .mxCommandComplete s = .next s ∧ exec .mxCommandFault s = .next s) ∧
    (q.started = false → (s.die (s.ev.a / 128)).stopped = false → (∀ p ∈ m.queue.take s.ev.b, s.mxBlocks p q = false) →
      (q.op.unit = some false → s.engineHeld s.ev.a q.pages = false) → exec .mxCommandStart s =
      .next (s.modCluster s.ev.a fun c => { c with mx := { m with queue := m.queue.set s.ev.b { q with started := true } } })) ∧
    (q.started = true → exec .mxCommandStart s = .next s) ∧
    (q.started = false → exec .mxCommandComplete s = .next s ∧ exec .mxCommandFault s = .next s) ∧
    (q.started = true → (s.die (s.ev.a / 128)).stopped = false → ∀ d, q.op = .zero d → exec .mxCommandComplete s = .next (s.modCluster s.ev.a fun c =>
      { c with mx := { m with queue := m.queue.eraseIdx s.ev.b, acc := m.acc.filter fun e => e.1 / 4096 ≠ d } })) ∧
    (q.started = true → (s.die (s.ev.a / 128)).stopped = false → ∀ b, q.op = .cfg b → exec .mxCommandComplete s = .next (s.modCluster s.ev.a fun c =>
      { c with mx := { m with queue := m.queue.eraseIdx s.ev.b, cfg := b, acc := [], bufs := [], map := [] } })) ∧
    (q.started = true → (s.die (s.ev.a / 128)).stopped = false → q.op = .sync → ∀ cap, (s.ctx q.cid).request = some (.mxCmd s.ev.a cap q) → exec .mxCommandComplete s =
      .next ((s.modCluster s.ev.a fun c => { c with mx := { m with queue := m.queue.eraseIdx s.ev.b } }).modCtx q.cid fun c =>
        { c with request := none, wake := some ⟨0, 0, s.now, 0, false⟩ })) ∧
    (q.started = true → (s.die (s.ev.a / 128)).stopped = false → q.op ≠ .sync → (q.op.unit = some false → s.engineHeld s.ev.a q.pages = false) →
      (∀ u, s.mxRun s.ev.a q = (u, none) → exec .mxCommandComplete s =
        .next (u.modCluster s.ev.a fun c => { c with mx := { c.mx with queue := c.mx.queue.eraseIdx s.ev.b } })) ∧
      (∀ map, q.op = .dup map → s.mxRun s.ev.a q = (s.modCluster s.ev.a fun c => { c with mx := { m with map := map } }, none)) ∧
      ∀ u cause pa, s.mxRun s.ev.a q = (u, some (cause, pa)) → ∃ t : State, exec .mxCommandComplete s = .next t ∧
        exec .mxCommandFault s = .next t ∧ (t.cluster s.ev.a).mx.queue = (u.cluster s.ev.a).mx.queue.eraseIdx s.ev.b ∧ t.mem = u.mem ∧
        ∀ b ea, q.op = .ld b ea → tfind (t.cluster s.ev.a).mx.bufs b = some ⟨q.pages.any fun x => isAlias x.pa, [], some (cause, pa)⟩)) ∧
  (∀ (s : State) (p : Packet) (k : Nat), (s.ctx s.ev.a).request = some (.packet p) → k = coreOf p.dst →
    (∀ i q, (s.core k).slotFor p = some (i, q) → exec .packetArrival s =
      .next ((s.deliver k i q p).modCtx s.ev.a fun c => { c with request := none, wake := some ⟨0, 0, (s.deliver k i q p).now, 0, false⟩ })) ∧
    ((s.core k).slotFor p = none → (s.cluster (clusterOfCore k)).overflow.length < 256 → ∃ t : State, exec .packetArrival s = .next t ∧
      (t.cluster (clusterOfCore k)).overflow = (s.cluster (clusterOfCore k)).overflow ++ [p] ∧ (t.ctx s.ev.a).request = none ∧ (t.ctx s.ev.a).wake ≠ none) ∧
    ((s.core k).slotFor p = none → 256 ≤ (s.cluster (clusterOfCore k)).overflow.length → ∀ (u : State) (w : Wait), (s.ctx s.ev.a).wait = some w →
      u = s.putEvent k 5 27 p.task [BitVec.ofNat 64 p.sender, p.tag.setWidth 64] p.task (pcode 0 (p.sender / 12)) →
      exec .packetArrival s = .next (u.raiseCtx s.ev.a 27 w.op1))) ∧
  (∀ (s t : State) (k i : Nat) (q : Slot) (p : Packet), t = s.deliver k i q p →
    tfind (t.core k).slots i = some { q with beats := some p.beats.length, sender := p.sender, task := p.task, time := s.now } ∧
    ∀ off, regionOf (q.desc.pa + 0x18) = .scratch 0 (clusterOfCore k) off →
      mread t.mem (scratchAddr (clusterOfCore k) off) 8 = (p.beats.length + 2 ^ 7 + p.sender * 2 ^ 8 + p.tag.toNat * 2 ^ 32) % 2 ^ 64) ∧
  (∀ (s : State) (h : Shadow) (e : ShadowEntry), (s.cluster s.ev.a).shadows[s.ev.b]? = some h → h.entries = e :: h.entries.tail →
    (h.sent = 0 → e.time + 1000 ≤ s.now → exec .shuttleBatchTimeout s = .next (s.modCluster s.ev.a fun c =>
      { c with shadows := c.shadows.set s.ev.b { h with sent := h.entries.length } })) ∧
    (h.sent ≠ 0 ∨ s.now < e.time + 1000 → exec .shuttleBatchTimeout s = .next s) ∧
    (s.ev.flag = false → h.sent = 0 → exec .shuttleBatchArrival s = .next s) ∧
    (s.ev.flag = false → h.sent ≠ 0 → exec .shuttleBatchArrival s = .next (s.batchArrives s.ev.a s.ev.b h.sent))) ∧
  (∀ s : State, s.ev.flag = true →
    (s.host.up = false ∨ s.ev.a ∉ s.host.peers ∨ s.ev.b % 64 ≠ 0 ∨ isHbm s.ev.b = false → exec .shuttleBatchArrival s = .next s) ∧
    (s.host.up = true → s.ev.a ∈ s.host.peers → s.ev.b % 64 = 0 → isHbm s.ev.b = true →
      ∀ (es : List ShadowEntry) (u : State) (k : Nat), es.length = min s.ev.n 4 →
        (∀ i e, es[i]? = some e → e.v = s.ev.data.extractLsb' (256 * i) 64 ∧ e.task = s.ev.data.extractLsb' (256 * i + 64) 64 ∧
          e.time = (s.ev.data.extractLsb' (256 * i + 128) 64).toNat ∧ e.code = pcode 4 (s.ev.data.extractLsb' (256 * i + 224) 28).toNat) →
        s.queueAppend (physXlat s.ev.b) es = (u, k) → exec .shuttleBatchArrival s =
          .next (({ u with host := { u.host with reply := .data (BitVec.ofNat 64 k) } } : State).feedPops (physXlat s.ev.b) k))) ∧
  (∀ (s : State) (c : CopyOp) (j : Nat) (e : Session), s.copyMay s.ev.a s.ev.b = true → (s.cluster s.ev.a).copies[s.ev.b]? = some c → c.sealedBy = some j →
    s.sealedBehind c = false → e = s.session j → s.engineHeld s.ev.a c.dstPages = false →
    (∀ r, c.failed = some r → exec .sealedCopyEnd s = .next (s.sealedFails s.ev.a s.ev.b c j r)) ∧
    (c.failed = none → e.valid = false ∨ s.host.tdi.getLsbD (if e.port then 1 else 0) = false →
      exec .sealedCopyEnd s = .next (s.sealedFails s.ev.a s.ev.b c j 4)) ∧
    (∀ (u : State) (v : Nat) (key aad plain : List Nat), c.failed = none → e.valid = true → s.host.tdi.getLsbD (if e.port then 1 else 0) = true →
      s.readSpan s.ev.a c.tid c.task c.srcPages (c.n / 128 + 4) c.src.toNat (c.n + 32) = (u, .ok v) →
      (v % 2 ^ 96 ≠ e.iv.toNat → exec .sealedCopyEnd s = .next (u.sealedFails s.ev.a s.ev.b c j 1)) ∧
      (v % 2 ^ 96 = e.iv.toNat → key = leBytes 32 ((tfind u.host.keys e.kslot.toNat).getD 0).toNat → aad = leBytes 8 e.owner.toNat ++ leBytes 8 c.n →
        (gcmOpen key (leBytes 12 v) aad (leBytes c.n (v >>> 128)) (leBytes 16 (v >>> (128 + 8 * c.n))) = (plain, false) →
          exec .sealedCopyEnd s = .next ((u.sessionNext j).sealedFails s.ev.a s.ev.b c j 2)) ∧
        (gcmOpen key (leBytes 12 v) aad (leBytes c.n (v >>> 128)) (leBytes 16 (v >>> (128 + 8 * c.n))) = (plain, true) →
          ∀ (y z : State) (g h m : Nat) (w : Word) (f : Option (Nat × Nat)), c.target = .handle g h w → y = u.sessionNext j →
            y.writeSpan s.ev.a c.tid c.dstPages ⟨c.task, pcode 1 (y.reportCluster s.ev.a), y.now, 0, false⟩ 0 (c.n / 128 + 3) c.dst.toNat c.n (leNat plain) =
              (z, m, f) → (∀ r ∈ z.released, r.g ≠ s.ev.a) →
            exec .sealedCopyEnd s = .next ((z.setCopy s.ev.a s.ev.b none).changeHandle g h 2 false c.task (pcode 1 (y.reportCluster s.ev.a))))))) ∧
  (∀ s : State, s.copyMay s.ev.a s.ev.b = false → exec .sealedCopyEnd s = .next s) ∧
  (∀ (s : State) (c : CopyOp), (s.cluster s.ev.a).copies[s.ev.b]? = some c → s.sealedBehind c = true → exec .sealedCopyEnd s = .next s) ∧
  (∀ (s : State) (c : CopyOp) (j : Nat), c.sealedBy = some j →
    (s.sealedBehind c = true ↔ ∃ q ∈ s.clusters, ∃ x ∈ q.2.copies, x.sealedBy = some j ∧ x.turn < c.turn)) ∧
  (∀ (s u : State) (g i j reason h n m : Nat) (w : Word) (c : CopyOp) (f : Option (Nat × Nat)), c.target = .handle h n w →
    s.writeSpan g c.tid c.dstPages ⟨c.task, pcode 1 (s.reportCluster g), s.now, 0, false⟩ 0 (c.n / 128 + 3) c.dst.toNat c.n 0 = (u, m, f) →
    (∀ r ∈ u.released, r.g ≠ g) →
    ((s.sealedFails g i c j reason).handle h n).st = 1 ∧ ((s.sealedFails g i c j reason).handle h n).err = true)

/-- O55. The host, security, power and bring-up. Before bring-up ends a read returns all ones; BAR2 reaches configuration space alone, and completes
with Unsupported Request while an alarm's lock refuses it, for a request outside the stream of a locked TDI, and for an address or a size that no live
unit takes (R386, R400; for a misaligned one log entry 30); a doorbell it writes keeps its port (R363). BAR0 reaches its port's mailbox and the
host-interface block (R386), laid out as log entry 101 says, and GET_MEASUREMENTS reports fuses, harvest map and measured images (R394). CXL.mem
reaches device HBM alone on a port that runs CXL: a write ends the line's reservations and puts its bytes at home, in compare mode those of both twins
(R381), a read returns the line as home has it then (R387). A cluster is gated after 10 µs of idleness with no work pending, and wakes 2 µs late
(R397). The arithmetic clock falls in steps of 100 MHz to 1.5 GHz, at which a die may be stopped, with an alarm. An alarm, by the policy that firmware
may only raise, clears every session's VALID and the TDI locks and refuses BAR2, and erases every key (R394); its log entry at every policy, and what
firmware has raised the policy to as an operand, are log entry 54. The timebase free-runs within 5 ppm without its master, and slews by at most 100 ppm
under it (R12, R393), as time passes. After module reset nothing runs, and the memories of the host and of peers keep their bytes (log entry 55);
where the images or a link fail the module stays down, else it is up with what bring-up found, its timebase at the epoch (R396). A port's TDI locks and
unlocks. -/
def Obligations.HostAndPowerEvents : Prop :=
  (∀ s : State, s.ev.c = 0 → (s.host.up = false → s.ev.flag = false →
      exec .hostBar2Request s = .next { s with host := { s.host with reply := .data (BitVec.ofNat 64 (2 ^ (8 * s.ev.n) - 1)) } }) ∧
    (s.host.up = true ∨ s.ev.flag = true → s.host.refuseBar2 = true ∨ (s.host.tdi.getLsbD s.ev.a = true ∧ s.ev.flag2 = false) ∨ regionOf s.ev.b ≠ .cfg ∨
      s.accessOk (if s.ev.flag then .write else .read) s.ev.b s.ev.n = false →
      exec .hostBar2Request s = .next { s with host := { s.host with reply := .unsupported } }) ∧
    (s.host.up = true → s.host.refuseBar2 = false → s.host.tdi.getLsbD s.ev.a = false ∨ s.ev.flag2 = true → regionOf s.ev.b = .cfg →
      (s.ev.flag = false → s.accessOk .read s.ev.b s.ev.n = true →
        exec .hostBar2Request s = .next { s with host := { s.host with reply := .data (BitVec.ofNat 64 (s.cfgRead s.ev.b s.ev.n)) } }) ∧
      (s.ev.flag = true → s.accessOk .write s.ev.b s.ev.n = true → ∀ u : State,
        ((∀ d, s.cfgBlock s.ev.b = some (.dispatcher d 0) → s.ev.n ≠ 8) ∧ u = s.cfgWrite s.ev.b s.ev.n s.ev.v ∨
          s.ev.n = 8 ∧ ∃ d, s.cfgBlock s.ev.b = some (.dispatcher d 0) ∧ u = s.doorbellAt d (s.ev.v.extractLsb' 0 56).toNat none (s.ev.a % 2)) →
        exec .hostBar2Request s = .next { u with host := { u.host with reply := .none } }))) ∧
  (∀ s : State, s.ev.c = 1 → (s.host.up = false → s.ev.flag = false →
      exec .hostBar2Request s = .next { s with host := { s.host with reply := .data (BitVec.ofNat 64 (2 ^ (8 * s.ev.n) - 1)) } }) ∧
    (s.host.up = true ∨ s.ev.flag = true → 0x10000 < s.ev.b + s.ev.n ∨ 2 ≤ s.ev.a →
      exec .hostBar2Request s = .next { s with host := { s.host with reply := .unsupported } }) ∧
    (s.host.up = true ∨ s.ev.flag = true → s.ev.b + s.ev.n ≤ 0x10000 → s.ev.a < 2 →
      (s.ev.b < 0xF000 → s.ev.flag = true → exec .hostBar2Request s =
        .next { s with host := { s.host with mailbox := mwrite s.host.mailbox (s.ev.a * 65536 + s.ev.b) s.ev.n s.ev.v.toNat, reply := .none } }) ∧
      (s.ev.b < 0xF000 → s.ev.flag = false → exec .hostBar2Request s =
        .next { s with host := { s.host with reply := .data (BitVec.ofNat 64 (mread s.host.mailbox (s.ev.a * 65536 + s.ev.b) s.ev.n)) } }) ∧
      ∀ pa, 0xF000 ≤ s.ev.b → pa = 0x40E000000000 + (s.ev.b - 0xF000) →
        (s.accessOk (if s.ev.flag then .write else .read) pa s.ev.n = false →
          exec .hostBar2Request s = .next { s with host := { s.host with reply := .unsupported } }) ∧
        (s.ev.flag = false → s.accessOk .read pa s.ev.n = true →
          exec .hostBar2Request s = .next { s with host := { s.host with reply := .data (BitVec.ofNat 64 (s.cfgRead pa s.ev.n)) } }) ∧
        (s.ev.flag = true → s.accessOk .write pa s.ev.n = true → ∃ u : State, u = s.cfgWrite pa s.ev.n s.ev.v ∧
          exec .hostBar2Request s = .next { u with host := { u.host with reply := .none } }))) ∧
  (∀ s : State, 2 ≤ s.ev.c → exec .hostBar2Request s =
    .next { s with host := { s.host with reply := .report s.host.fuses s.host.absent s.host.measurements } }) ∧
  (∀ (s : State) (h : Nat) (code : BitVec 32), h = s.ev.b * 128 →
    code = (if s.ev.n = 0 ∨ s.ev.n = 2 then pcode 5 s.ev.a else pcode 4 (s.ev.a * 2 ^ 16)) →
    (s.outerReaches s.ev.n s.ev.a h = false → exec .hostCxlMemAccess s = .next { s with host := { s.host with reply := .unsupported } }) ∧
    (s.outerReaches s.ev.n s.ev.a h = true →
      (s.ev.flag = true → s.replay.cmp = true → s.ev.n = 0 → exec .hostCxlMemAccess s = .next (((s.outerWrite code (s.ev.b % 2 ^ 34) s.ev.mask s.ev.data).outerWrite
        code (s.ev.b % 2 ^ 34 + 2 ^ 34) s.ev.mask s.ev.data).answer .none)) ∧
      (s.ev.flag = true → s.replay.cmp = false ∨ s.ev.n ≠ 0 → s.phasersInUse = [] → s.popWaits = [] → ∃ u t : State, u = (s.loseReservations s.ev.b none none ⟨0, code, s.now, 0, false⟩).homeOwn s.ev.b ∧
        exec .hostCxlMemAccess s = .next t ∧
        (∀ i, i < 128 → mget t.mem (h + i) = if s.ev.mask.getLsbD i then lineByte s.ev.data i else mget u.mem (h + i)) ∧
        (∀ a, a < h ∨ h + 128 ≤ a → mget t.mem a = mget u.mem a) ∧ t.host.reply = .none) ∧
      (s.ev.flag = false → ∃ t : State, exec .hostCxlMemAccess s = .next t ∧ t.host.reply = .line (mline t.mem s.ev.b) ∧
        (s.ev.n = 0 → (s.ev.b, s.ev.a) ∈ t.host.hostLines)))) ∧
  (∀ (s : State) (a h : Nat), (s.outerReaches 0 a h = true ↔ s.host.up = true ∧ s.host.cxl.getLsbD a = true ∧ isHbm h = true) ∧
    (s.outerReaches 1 a h = true ↔ s.host.up = true ∧ a ∈ s.host.peers ∧ isHbm h = true) ∧
    (s.outerReaches 2 a h = true ↔ s.host.up = true ∧ regionOf h = .host) ∧
    (s.outerReaches 3 a h = true ↔ s.host.up = true ∧ a ∈ s.host.peers ∧ ∃ off, off < 2 ^ 42 ∧ regionOf h = .peer a off)) ∧
  (∀ s : State, (s.clusterLive s.ev.a = true → s.clusterQuiet s.ev.a = true → (s.cluster s.ev.a).idleSince + 10000 ≤ s.now →
      exec .clusterPowerGating s = .next (s.modCluster s.ev.a fun c => { c with gated := true })) ∧
    (s.now < (s.cluster s.ev.a).idleSince + 10000 ∨ (∃ j, j < 48 ∧ (s.ctx (s.ev.a * 48 + j)).status ≠ .idle) → exec .clusterPowerGating s = .next s) ∧
    ((s.cluster s.ev.a).gated = true → ∃ t : State, exec .powerGatingWake s = .next t ∧ (t.cluster s.ev.a).gated = false ∧ t.now = s.now + 2000 ∧
      t = { s with clusters := t.clusters, now := t.now })) ∧
  (∀ s : State, (s.dieLive s.ev.a = true → ∃ t : State, exec .dieClockStep s = .next t ∧ (t.die s.ev.a).mhz = max 1500 ((s.die s.ev.a).mhz - 100) ∧
      (t.die s.ev.a).stopped = (s.die s.ev.a).stopped ∧ t = { s with dies := t.dies } ∧ t.now = s.now) ∧
    (s.dieLive s.ev.a = true → (s.die s.ev.a).mhz = 1500 → (s.die s.ev.a).stopped = false → ∃ t : State, exec .dieThermalStop s = .next t ∧
      (t.die s.ev.a).stopped = true ∧ t.host.alarms = s.host.alarms + 1 ∧ t.host.fwLog = s.host.fwLog + 1 ∧
      t.host.policy = min 2 (max s.host.policy s.ev.b) ∧ t.mem = s.mem) ∧
    ((s.die s.ev.a).mhz ≠ 1500 → exec .dieThermalStop s = .next s)) ∧
  (∀ (s : State) (pol : Nat), pol = min 2 (max s.host.policy s.ev.a) →
    (pol = 0 → exec .securityAlarm s = .next { s with host := { s.host with fwLog := s.host.fwLog + 1, alarms := s.host.alarms + 1, policy := 0 } }) ∧
    (pol ≠ 0 → ∃ t : State, exec .securityAlarm s = .next t ∧ (∀ j, (t.session j).valid = false ∧ (t.session j).iv = (s.session j).iv) ∧ t.host.tdi = 0 ∧
      t.host.refuseBar2 = true ∧ t.host.fwLog = s.host.fwLog + 1 ∧ t.host.policy = pol ∧ t.ctxs = s.ctxs ∧ t.mem = s.mem ∧
      (pol = 1 → t.host.keys = s.host.keys ∧ t.clusters = s.clusters) ∧
      (pol = 2 → t.host.keys = [] ∧ ∀ (g : Nat) (f : CopyOp → CopyOp),
        (∀ c, f c = if c.sealedBy ≠ none ∧ c.failed = none then { c with failed := some 3 } else c) →
        (t.cluster g) = { s.cluster g with copies := (s.cluster g).copies.map f }))) ∧
  (∀ s : State, (∃ t : State, exec .ptpMasterLoss s = .next t ∧ t.host.freeRun = true ∧ -5 ≤ t.host.ppm ∧ t.host.ppm ≤ 5 ∧ t.now = s.now ∧
      t = { s with host := t.host, free := s.free + 1 }) ∧
    exec .ieee1588Discipline s = .next { s with host := { s.host with freeRun := false, ppm := max (-100) (min 100 s.ev.rate) } }) ∧
  (∀ (s t : State) (ns cycles : Nat), t = s.pass ns cycles → 0 ≤ s.host.drift → t.arith = s.arith + cycles ∧ 0 ≤ t.host.drift ∧ t.host.drift < 1000000 ∧
    1000000 * (t.now : Int) + t.host.drift = 1000000 * (s.now : Int) + s.host.drift + (1000000 + s.host.rate) * ns ∧
    (s.host.freeRun = true → -5 ≤ s.host.rate ∧ s.host.rate ≤ 5) ∧ -100 ≤ s.host.rate ∧ s.host.rate ≤ 100 ∧
    (-5 ≤ s.host.ppm ∧ s.host.ppm ≤ 5 ∨ s.host.freeRun = false ∧ -100 ≤ s.host.ppm ∧ s.host.ppm ≤ 100 → s.host.rate = s.host.ppm)) ∧
  (∀ s : State, ∃ t : State, exec .moduleReset s = .next t ∧ t.ctxs = [] ∧
    t.mem = s.mem.filter (fun p => match regionOf p.1 with
      | .host => true
      | .peer _ _ => true
      | _ => false) ∧ t.launches = [] ∧ t.saved = [] ∧ t.cores = [] ∧ t.clusters = [] ∧
    t.lseq = 1 ∧ t.host.policy = s.ev.bring.policy.toNat ∧ t.host.fuses = s.ev.bring.fuses ∧ t.host.keys = [] ∧ (t.host.up = true ↔ s.ev.bring.imagesOk = 15 ∧ s.ev.bring.linksOk = true) ∧
    (t.host.up = true → t.host.absent = s.ev.bring.absent ∧ t.host.moduleId = s.ev.bring.moduleId ∧ t.host.cxl = s.ev.bring.cxl ∧
      t.host.measurements = s.ev.bring.measurements ∧ t.now = (s.ev.bring.epoch.map BitVec.toNat).getD 0 ∧ t.host.tdi = 0 ∧ t.sessions = [] ∧
      ∀ d, d < 16 → (t.die d).den = s.ev.bring.debug)) ∧
  (∀ s : State, s.ev.a < 2 → ∃ t : State, exec .tdiLock s = .next t ∧ t = { s with host := { s.host with tdi := t.host.tdi } } ∧
    t.host.tdi.getLsbD s.ev.a = s.ev.flag ∧ t.host.tdi.getLsbD (1 - s.ev.a) = s.host.tdi.getLsbD (1 - s.ev.a)) ∧
  (∀ s : State, 2 ≤ s.ev.a → exec .tdiLock s = .next s)

/-- O56. R63. The hints of RV64I, which are its integer instructions with rd = x0 and its FENCE with an empty predecessor or successor set, execute
as no-operations: the module changes in nothing but the context's going on to its next instruction, and no exception is taken. -/
def Obligations.HintsDoNothing : Prop :=
  (∀ (s : State) (op : IntOp), intDest op = 0 → ∃ t, exec (.integerArithmetic op) s = .next t ∧ Completed s t ∧ t.me.priv = s.me.priv ∧
    t.me.scause = s.me.scause ∧ t.me.mcause = s.me.mcause ∧ t.mem = s.mem) ∧
  (∀ (s : State) (fm pr su : BitVec 4) (rd rs1 : Reg), (pr.getLsbD 0 = false ∧ pr.getLsbD 2 = false) ∨ su = 0 →
    ∃ t, exec (.fence fm pr su rd rs1) s = .next t ∧ Completed s t ∧ t.me.priv = s.me.priv ∧ t.me.scause = s.me.scause ∧ t.mem = s.mem)

/-- O57. R142. qvrot, CSR 0x802, is reachable in every mode; a write stores bits 8 to 3 of the value and nothing else, a read gives what is stored,
and it is 0 at reset. A v register field f names the cluster register BASE + ROT + f, for a read and for a write. A write of it by CSRRW changes no
vector register and no instruction that is queued, so it acts on later instructions only. -/
def Obligations.RotationOffset : Prop :=
  (∀ (s : State) (cid : Nat) (w : Bool), s.csrLegal cid 0x802 w = true) ∧
  (∀ (s : State) (cid : Nat) (v : Word), s.csrWrite cid 0x802 v = s.modCtx cid fun c => { c with qvrot := BitVec.ofNat 64 (v.toNat % 512 / 8 * 8) }) ∧
  (∀ (s : State) (cid : Nat), s.csrRead cid 0x802 = some (s.ctx cid).qvrot) ∧ Ctx.reset.qvrot = 0 ∧
  (∀ (s : State) (f : Reg), s.vr f =
    s.vregAt (s.cur / 48) ((s.me.qvwin.extractLsb' 0 11).toNat + (s.me.qvrot.extractLsb' 0 9).toNat + f.toNat)) ∧
  (∀ (s : State) (f : Reg) (v : VReg) (g n : Nat), (s.setVr f v).vregAt g n =
    if g = s.cur / 48 ∧ n = (s.me.qvwin.extractLsb' 0 11).toNat + (s.me.qvrot.extractLsb' 0 9).toNat + f.toNat then v else s.vregAt g n) ∧
  (∀ (s : State) (rd rs1 : Reg), ∃ t, exec (.csrAccess .rw false rd rs1 0x802) s = .next t ∧
    Completed ((s.modCtx s.cur fun c => { c with qvrot := BitVec.ofNat 64 ((s.xr rs1).toNat % 512 / 8 * 8) }).setXr rd s.me.qvrot) t ∧
    t.clusters = s.clusters ∧ t.cores = s.cores)

/-- O58. R144. m0 reads as all ones and ignores writes. m1 is all ones and m2 to m7 are zero at every thread start: at reset, and for the control
contexts of a launch, a dispatched task and a helper that HSTART starts. A mask operand with bits 4 to 3 set is no instruction. The mk field selects
the governing mask, and mk = 0 leaves every element below VL active. -/
def Obligations.MaskRegisters : Prop :=
  (∀ c : Ctx, c.mask 0 = BitVec.allOnes 1024) ∧ (∀ (c : Ctx) (v : BitVec 1024), c.setMask 0 v = c) ∧
  (∀ c : Ctx, (c = Ctx.reset ∨ (∃ d : Ctx, c = d.newThread) ∨ (∃ (s : State) (key r lag : Nat) (l : Launch), c = (s.startControl key l r lag).ctx (12 * (l.first + r))) ∨
      (∃ (s : State) (t : TaskEntry) (cid eff n : Nat) (l : Launch), s.launchAt t.launch = some l ∧ t.stack.or l.freeStack = some n ∧ t.saved = none ∧
        t.id.extractLsb' 0 32 ≠ 0 ∧
        c = (s.startTask t cid eff).ctx cid) ∨
      (∃ (s t : State) (rd rs1 rs2 : Reg) (j : Nat), exec (.hstart rd rs1 rs2) s = .next t ∧ s.cur % 12 = 0 ∧ (s.xr rs1).toNat % 4 = 0 ∧ rd ≠ 0 ∧
        t.xr rd = BitVec.ofNat 64 j ∧ 1 ≤ j ∧ j ≤ 10 ∧ c = t.ctx (s.cur + j))) →
    c.mask 1 = BitVec.allOnes 1024 ∧ ∀ m, 2 ≤ m → c.mask m = 0) ∧
  (∀ (w : BitVec 32) (i : Instr) (vd vs1 vs2 mk : BitVec 3) (a b : Reg), decode w = .ok i →
    (i = .vmand vd vs1 vs2 mk ∨ i = .vmor vd vs1 vs2 mk ∨ i = .vmxor vd vs1 vs2 mk →
      w.extractLsb' 10 2 = 0 ∧ w.extractLsb' 18 2 = 0 ∧ w.extractLsb' 23 2 = 0) ∧
    (i = .vmnot vd vs2 mk → w.extractLsb' 10 2 = 0 ∧ w.extractLsb' 23 2 = 0) ∧
    (i = .vpopc a vs2 mk ∨ i = .vfirst a vs2 mk → w.extractLsb' 23 2 = 0) ∧
    (i = .vcmpEq vd a b mk ∨ i = .vcmpNe vd a b mk ∨ i = .vcmpLt vd a b mk ∨ i = .vcmpLtu vd a b mk ∨ i = .vcmpLe vd a b mk ∨ i = .vcmpLeu vd a b mk ∨
      i = .vfcmpEq vd a b mk ∨ i = .vfcmpLt vd a b mk ∨ i = .vfcmpLe vd a b mk ∨ i = .vfcmpUn vd a b mk → w.extractLsb' 10 2 = 0)) ∧
  (∀ (s : State) (mk : BitVec 3) (i : Nat), (s.Active mk i = true ↔ i < s.me.vl ∧ (s.me.mask mk).getLsbD i = true) ∧
    (i < 1024 → (s.Active 0 i = true ↔ i < s.me.vl)))

/-- O59. The state after module reset (R3, R396), where the spec states it: no context runs; qvtype, the masks, qfdisp and the other device CSRs at
their values (R110, R113, R140 to R142, R144); the module's registers (R196, R237, R242, R322, R328), the slices' quotas (R237), the dies' blocks
(R309, R361, R375), compare mode (R381), the buffer tables (R284), the lane weights (R139) and the arbiters (R138); memory with nothing listed; the
first launch sequence is 1 (R315). The invariants of the model hold there. -/
def Obligations.ResetState : Prop :=
  (∀ cid, (State.reset.ctx cid).status = .idle ∧ (State.reset.ctx cid).qvtype = 0x8000000000000000 ∧ (State.reset.ctx cid).qvwin = 0 ∧
    (State.reset.ctx cid).qvrot = 0 ∧ (State.reset.ctx cid).qvstat = 0 ∧ (State.reset.ctx cid).qloop = 0 ∧ (State.reset.ctx cid).qtensid = 0 ∧
    (State.reset.ctx cid).qmxcap = 0 ∧ (State.reset.ctx cid).qprio = 0 ∧ (State.reset.ctx cid).qfdisp = 0x0015555500005555 ∧
    (State.reset.ctx cid).mask 1 = BitVec.allOnes 1024 ∧ (State.reset.ctx cid).mask 2 = 0 ∧ (State.reset.ctx cid).reservation = none) ∧
  State.reset.qmstage = 0x7D040024 ∧ State.reset.qmquota = 0x04010008 ∧ State.reset.qmtmo = 20000 ∧ State.reset.qmaging = 20000 ∧
  State.reset.qmresid = 10000 ∧ State.reset.lseq = 1 ∧ State.reset.sampctl = 0 ∧ State.reset.pulsed = none ∧ State.reset.mem = [] ∧ State.reset.tiles = [] ∧ State.reset.launches = [] ∧
  State.reset.host.up = false ∧ State.reset.host.tdi = 0 ∧ State.reset.replay.cmp = false ∧ State.reset.replay.haltdiv = true ∧
  State.reset.replay.divseen = false ∧
  (∀ i, (State.reset.slice i).q = 8 ∧ (State.reset.slice i).w = 256 ∧ (State.reset.slice i).d = 4 ∧ (State.reset.slice i).accst = 0 ∧
    (State.reset.slice i).refusals = 0) ∧
  (∀ d, (State.reset.die d).fqsize = 0 ∧ (State.reset.die d).kcore = 0 ∧ (State.reset.die d).dropped = 0 ∧ (State.reset.die d).en = false ∧
    (State.reset.die d).logn = 8 ∧ (State.reset.die d).holdtmo = 30000000000 ∧ (State.reset.die d).dumpsize = 0 ∧ (State.reset.die d).hit = false) ∧
  (∀ g, (State.reset.cluster g).spways = 0 ∧ (State.reset.cluster g).qmvwt = 0x01010101 ∧ (State.reset.cluster g).mx.key = 0 ∧
    (∀ h, (State.reset.handle g h).st = 0 ∧ (State.reset.handle g h).err = false) ∧
    ∀ x ∈ (State.reset.cluster g).groups.toList, x.ptr = 0 ∧ x.fresh = true ∧ x.d0 = 0 ∧ x.d1 = 0 ∧ x.d2 = 0 ∧ x.d3 = 0) ∧
  (∀ i, (State.reset.ttEntry i).en = false ∧ (State.reset.ttEntry i).period = 0 ∧ (State.reset.session i).valid = false) ∧
  State.reset.Inv

/-- O60. Every step keeps home memory in its canonical form (addresses that rise, no byte listed that reads as an unlisted one does) and the table
of contexts with each context once, in rising order, from every state in which both hold. Derived: every effect on memory of the spec's rules is a
write of bytes (R5, R34, R179). -/
def Obligations.StepKeepsInvariants : Prop :=
  ∀ s t : State, s.Inv → step s = .next t → t.Inv

end
end

