-- ==== Sys2Proof/Laws/Maps.lean ====
section
/-! SUPPORT. Laws of the tables and of home memory: reading after writing, and the canonical form. -/

namespace Sys2Proof.Machine

@[simp] theorem tfind_nil {α : Type} (k : Nat) : tfind ([] : Table α) k = none := rfl

/-- Reading the key that was written gives the value written. -/
@[simp] theorem tfind_tput_self {α : Type} (m : Table α) (k : Nat) (v : α) : tfind (tput m k v) k = some v := by
  induction m with
  | nil => simp [tput, tfind]
  | cons p t ih =>
    obtain ⟨a, w⟩ := p
    simp only [tput]
    split
    · simp [tfind]
    · split
      · simp [tfind]
      · rename_i h _
        simp [tfind, h, ih]

/-- Writing one key leaves every other key as it was. -/
theorem tfind_tput_ne {α : Type} (m : Table α) (k j : Nat) (v : α) (h : j ≠ k) : tfind (tput m k v) j = tfind m j := by
  induction m with
  | nil => simp [tput, tfind, Ne.symm h]
  | cons p t ih =>
    obtain ⟨a, w⟩ := p
    simp only [tput]
    split
    · rename_i e
      subst e
      simp [tfind, Ne.symm h]
    · split
      · simp [tfind, Ne.symm h]
      · simp only [tfind, ih]

/-- The value read at any key after a write. -/
theorem tfind_tput {α : Type} (m : Table α) (k j : Nat) (v : α) : tfind (tput m k v) j = if j = k then some v else tfind m j := by
  split
  · rename_i h; subst h; exact tfind_tput_self m j v
  · rename_i h; exact tfind_tput_ne m k j v h

/-- Nothing is listed at a deleted key. -/
@[simp] theorem tfind_tdel_self {α : Type} (m : Table α) (k : Nat) : tfind (tdel m k) k = none := by
  induction m with
  | nil => rfl
  | cons p t ih =>
    obtain ⟨a, w⟩ := p
    by_cases h : a = k
    · simpa [tdel, h] using ih
    · have e : tdel ((a, w) :: t) k = (a, w) :: tdel t k := by simp [tdel, h]
      rw [e]; simpa [tfind, h] using ih

/-- Deleting one key leaves every other key as it was. -/
theorem tfind_tdel_ne {α : Type} (m : Table α) (k j : Nat) (h : j ≠ k) : tfind (tdel m k) j = tfind m j := by
  induction m with
  | nil => rfl
  | cons p t ih =>
    obtain ⟨a, w⟩ := p
    by_cases e : a = k
    · have e2 : tdel ((a, w) :: t) k = tdel t k := by simp [tdel, e]
      subst e
      rw [e2, ih]; simp [tfind, Ne.symm h]
    · have e2 : tdel ((a, w) :: t) k = (a, w) :: tdel t k := by simp [tdel, e]
      rw [e2]; simp only [tfind, ih]

/-- A table whose keys rise from `lo` has no key below `lo`, and rises from every lower bound. -/
theorem risingFrom_mono {α : Type} (m : Table α) (lo hi : Nat) (h : lo ≤ hi) (r : risingFrom hi m = true) : risingFrom lo m = true := by
  cases m with
  | nil => rfl
  | cons p t =>
    obtain ⟨a, w⟩ := p
    simp only [risingFrom, Bool.and_eq_true, decide_eq_true_eq] at r ⊢
    exact ⟨by omega, r.2⟩

theorem risingFrom_tput {α : Type} (m : Table α) (lo k : Nat) (v : α) (h : lo ≤ k) (r : risingFrom lo m = true) :
    risingFrom lo (tput m k v) = true := by
  induction m generalizing lo with
  | nil => simp [tput, risingFrom, h]
  | cons p t ih =>
    obtain ⟨a, w⟩ := p
    simp only [risingFrom, Bool.and_eq_true, decide_eq_true_eq] at r
    simp only [tput]
    split
    · rename_i e; subst e
      simp only [risingFrom, Bool.and_eq_true, decide_eq_true_eq]
      exact ⟨h, r.2⟩
    · split
      · rename_i hlt
        simp only [risingFrom, Bool.and_eq_true, decide_eq_true_eq]
        exact ⟨h, by omega, r.2⟩
      · simp only [risingFrom, Bool.and_eq_true, decide_eq_true_eq]
        exact ⟨r.1, ih (a + 1) (by omega) r.2⟩

theorem risingFrom_filter {α : Type} (m : Table α) (lo : Nat) (p : Nat × α → Bool) (r : risingFrom lo m = true) :
    risingFrom lo (m.filter p) = true := by
  induction m generalizing lo with
  | nil => rfl
  | cons q t ih =>
    obtain ⟨a, w⟩ := q
    simp only [risingFrom, Bool.and_eq_true, decide_eq_true_eq] at r
    by_cases h : p (a, w)
    · rw [List.filter_cons_of_pos h]
      simp only [risingFrom, Bool.and_eq_true, decide_eq_true_eq]
      exact ⟨r.1, ih (a + 1) r.2⟩
    · rw [List.filter_cons_of_neg h]
      exact risingFrom_mono _ lo (a + 1) (by omega) (ih (a + 1) r.2)

theorem all_tput {α : Type} (m : Table α) (k : Nat) (v : α) (p : Nat × α → Bool) (h : p (k, v) = true) (r : m.all p = true) :
    (tput m k v).all p = true := by
  induction m with
  | nil => simp [tput, h]
  | cons q t ih =>
    obtain ⟨a, w⟩ := q
    simp only [List.all_cons, Bool.and_eq_true] at r
    simp only [tput]
    split
    · simp [h, r.2]
    · split
      · simp [h, r.1, r.2]
      · simp [r.1, ih r.2]

/-- Removing entries keeps the canonical form. -/
theorem wf_filter (m : Memory) (p : Host.Cell → Bool) (h : Memory.wf m = true) : Memory.wf (m.filter p) = true := by
  simp only [Memory.wf, Bool.and_eq_true] at h ⊢
  refine ⟨risingFrom_filter m 0 p h.1, ?_⟩
  have h2 := h.2
  rw [List.all_eq_true] at h2 ⊢
  intro c hc
  exact h2 c (List.mem_of_mem_filter hc)

/-- Writing a byte keeps the canonical form. -/
theorem wf_mset (m : Memory) (a : Nat) (b : Byte) (h : Memory.wf m = true) : Memory.wf (mset m a b) = true := by
  unfold mset
  split
  · exact wf_filter m _ h
  · rename_i hb
    simp only [Memory.wf, Bool.and_eq_true] at h ⊢
    exact ⟨risingFrom_tput m 0 a b (by omega) h.1, all_tput m a b _ (by simpa using hb) h.2⟩

/-- Writing bytes keeps the canonical form. -/
theorem wf_mwrite (m : Memory) (a n v : Nat) (h : Memory.wf m = true) : Memory.wf (mwrite m a n v) = true := by
  induction n generalizing m a v with
  | zero => exact h
  | succ k ih => exact ih _ _ _ (wf_mset m a _ h)

/-- Merging bytes keeps the canonical form. -/
theorem wf_mmerge (m : Memory) (a n mask v : Nat) (h : Memory.wf m = true) : Memory.wf (mmerge m a n mask v) = true := by
  induction n generalizing m a mask v with
  | zero => exact h
  | succ k ih =>
    refine ih _ _ _ _ ?_
    split
    · exact wf_mset m a _ h
    · exact h

/-- The byte read after a byte is written. -/
theorem mget_mset (m : Memory) (a j : Nat) (b : Byte) : mget (mset m a b) j = if j = a then b else mget m j := by
  unfold mset mget
  by_cases h : b = unlistedByte
  · rw [if_pos h]
    by_cases e : j = a
    · subst e; simp [h]
    · simp [tfind_tdel_ne m a j e, e]
  · rw [if_neg h]
    by_cases e : j = a
    · subst e; simp
    · simp [tfind_tput_ne m a j b e, e]

/-- Bytes outside those written read as before. -/
theorem mget_mwrite_outside (m : Memory) (a n v j : Nat) (h : j < a ∨ a + n ≤ j) : mget (mwrite m a n v) j = mget m j := by
  induction n generalizing m a v with
  | zero => rfl
  | succ k ih =>
    have e : mget (mwrite m a (k + 1) v) j = mget (mset m a (BitVec.ofNat 8 v)) j := ih _ _ _ (by omega)
    rw [e, mget_mset, if_neg (by omega)]

/-- Byte `i` of those written reads as byte `i` of the value. -/
theorem mget_mwrite_inside (m : Memory) (a n v i : Nat) (h : i < n) : mget (mwrite m a n v) (a + i) = BitVec.ofNat 8 (v / 256 ^ i) := by
  induction n generalizing m a v i with
  | zero => omega
  | succ k ih =>
    show mget (mwrite (mset m a (BitVec.ofNat 8 v)) (a + 1) k (v / 256)) (a + i) = _
    cases i with
    | zero =>
      rw [mget_mwrite_outside _ _ _ _ _ (by omega), Nat.add_zero, mget_mset, if_pos rfl]
      simp
    | succ j =>
      have := ih (mset m a (BitVec.ofNat 8 v)) (a + 1) (v / 256) j (by omega)
      rw [show a + (j + 1) = a + 1 + j by omega, this, Nat.div_div_eq_div_mul, pow_succ, Nat.mul_comm]

/-- What is written is what is read. -/
theorem mread_mwrite (m : Memory) (a n v : Nat) : mread (mwrite m a n v) a n = v % 256 ^ n := by
  induction n generalizing m a v with
  | zero => simp [mread, Nat.mod_one]
  | succ k ih =>
    show (mget (mwrite m a (k + 1) v) a).toNat + 256 * mread (mwrite (mset m a (BitVec.ofNat 8 v)) (a + 1) k (v / 256)) (a + 1) k = _
    have h0 := mget_mwrite_inside m a (k + 1) v 0 (by omega)
    simp only [Nat.add_zero, pow_zero, Nat.div_one] at h0
    rw [h0, ih, BitVec.toNat_ofNat, pow_succ 256, Nat.mul_comm (256 ^ k) 256, Nat.mod_mul]

/-- A read of bytes apart from those written reads as before. -/
theorem mread_mwrite_apart (m : Memory) (a n v b k : Nat) (h : b + k ≤ a ∨ a + n ≤ b) : mread (mwrite m a n v) b k = mread m b k := by
  induction k generalizing b with
  | zero => rfl
  | succ j ih =>
    simp only [mread]
    rw [mget_mwrite_outside _ _ _ _ _ (by omega), ih (b + 1) (by omega)]

/-- Unit by unit: what a table of the state reads as after one of its units is written. -/
theorem State.ctx_setCtx (s : State) (i j : Nat) (c : Ctx) : (s.setCtx i c).ctx j = if j = i then c else s.ctx j := by
  unfold State.ctx State.setCtx
  simp only [tfind_tput]
  split <;> rfl
@[simp] theorem State.ctx_setCtx_self (s : State) (i : Nat) (c : Ctx) : (s.setCtx i c).ctx i = c := by
  simp [State.ctx_setCtx]
@[simp] theorem State.ctx_modCtx_self (s : State) (i : Nat) (f : Ctx → Ctx) : (s.modCtx i f).ctx i = f (s.ctx i) := by
  simp [State.modCtx]
theorem State.ctx_modCtx_ne (s : State) (i j : Nat) (f : Ctx → Ctx) (h : j ≠ i) : (s.modCtx i f).ctx j = s.ctx j := by
  simp [State.modCtx, State.ctx_setCtx, h]
theorem State.core_setCore (s : State) (i j : Nat) (c : Core) : (s.setCore i c).core j = if j = i then c else s.core j := by
  unfold State.core State.setCore
  simp only [tfind_tput]
  split <;> rfl
@[simp] theorem State.core_modCore_self (s : State) (i : Nat) (f : Core → Core) : (s.modCore i f).core i = f (s.core i) := by
  simp [State.modCore, State.core_setCore]
theorem State.core_modCore_ne (s : State) (i j : Nat) (f : Core → Core) (h : j ≠ i) : (s.modCore i f).core j = s.core j := by
  simp [State.modCore, State.core_setCore, h]
theorem State.cluster_setCluster (s : State) (i j : Nat) (c : Cluster) : (s.setCluster i c).cluster j = if j = i then c else s.cluster j := by
  unfold State.cluster State.setCluster
  simp only [tfind_tput]
  split <;> rfl
@[simp] theorem State.cluster_modCluster_self (s : State) (i : Nat) (f : Cluster → Cluster) : (s.modCluster i f).cluster i = f (s.cluster i) := by
  simp [State.modCluster, State.cluster_setCluster]
theorem State.cluster_modCluster_ne (s : State) (i j : Nat) (f : Cluster → Cluster) (h : j ≠ i) : (s.modCluster i f).cluster j = s.cluster j := by
  simp [State.modCluster, State.cluster_setCluster, h]
theorem State.die_setDie (s : State) (i j : Nat) (c : Die) : (s.setDie i c).die j = if j = i then c else s.die j := by
  unfold State.die State.setDie
  simp only [tfind_tput]
  split <;> rfl
@[simp] theorem State.die_modDie_self (s : State) (i : Nat) (f : Die → Die) : (s.modDie i f).die i = f (s.die i) := by
  simp [State.modDie, State.die_setDie]
theorem State.slice_setSlice (s : State) (i j : Nat) (c : Slice) : (s.setSlice i c).slice j = if j = i then c else s.slice j := by
  unfold State.slice State.setSlice
  simp only [tfind_tput]
  split <;> rfl
@[simp] theorem State.slice_modSlice_self (s : State) (i : Nat) (f : Slice → Slice) : (s.modSlice i f).slice i = f (s.slice i) := by
  simp [State.modSlice, State.slice_setSlice]

/-- x0 reads zero, whatever is written (R62). -/
@[simp] theorem Ctx.getX_zero (c : Ctx) : c.getX 0#5 = 0#64 := rfl
@[simp] theorem Ctx.setX_zero (c : Ctx) (v : Word) : c.setX 0#5 v = c := rfl
/-- The x register written reads as what was written, and every other reads as before. -/
theorem Ctx.getX_setX (c : Ctx) (r q : Reg) (v : Word) : (c.setX r v).getX q = if q = r ∧ q ≠ 0#5 then v else c.getX q := by
  by_cases hr : r = 0#5
  · subst hr
    by_cases hq : q = 0#5
    · subst hq; rfl
    · rw [if_neg (fun h => hq h.1), Ctx.setX_zero]
  · by_cases hq : q = 0#5
    · subst hq; rw [if_neg (fun h => h.2 rfl)]; rfl
    · have hr' : ¬ r = 0 := hr
      have hq' : ¬ q = 0 := hq
      by_cases e : q = r
      · subst e
        rw [if_pos ⟨rfl, hq⟩]
        unfold Ctx.getX Ctx.setX
        rw [if_neg hq', if_neg hq']
        simp
      · rw [if_neg (fun h => e h.1)]
        have e2 : r.toNat ≠ q.toNat := fun h => e (BitVec.eq_of_toNat_eq h.symm)
        unfold Ctx.getX Ctx.setX
        rw [if_neg hq', if_neg hr', if_neg hq']
        simp [e2]

end Sys2Proof.Machine
end

