-- ==== Sys2Proof/Laws/State.lean ====
section
/-! SUPPORT. One lemma per field and update of the state: an update of one unit's table leaves every other field as it was. -/

namespace Sys2Proof.Machine

@[simp] theorem State.setCtx_cores (s : State) (i : Nat) (c : Ctx) : (s.setCtx i c).cores = s.cores := rfl
@[simp] theorem State.setCtx_clusters (s : State) (i : Nat) (c : Ctx) : (s.setCtx i c).clusters = s.clusters := rfl
@[simp] theorem State.setCtx_dies (s : State) (i : Nat) (c : Ctx) : (s.setCtx i c).dies = s.dies := rfl
@[simp] theorem State.setCtx_slices (s : State) (i : Nat) (c : Ctx) : (s.setCtx i c).slices = s.slices := rfl
@[simp] theorem State.setCtx_stackCmds (s : State) (i : Nat) (c : Ctx) : (s.setCtx i c).stackCmds = s.stackCmds := rfl
@[simp] theorem State.setCtx_mem (s : State) (i : Nat) (c : Ctx) : (s.setCtx i c).mem = s.mem := rfl
@[simp] theorem State.setCtx_tiles (s : State) (i : Nat) (c : Ctx) : (s.setCtx i c).tiles = s.tiles := rfl
@[simp] theorem State.setCtx_launches (s : State) (i : Nat) (c : Ctx) : (s.setCtx i c).launches = s.launches := rfl
@[simp] theorem State.setCtx_released (s : State) (i : Nat) (c : Ctx) : (s.setCtx i c).released = s.released := rfl
@[simp] theorem State.setCtx_lseq (s : State) (i : Nat) (c : Ctx) : (s.setCtx i c).lseq = s.lseq := rfl
@[simp] theorem State.setCtx_nextKey (s : State) (i : Nat) (c : Ctx) : (s.setCtx i c).nextKey = s.nextKey := rfl
@[simp] theorem State.setCtx_saved (s : State) (i : Nat) (c : Ctx) : (s.setCtx i c).saved = s.saved := rfl
@[simp] theorem State.setCtx_tt (s : State) (i : Nat) (c : Ctx) : (s.setCtx i c).tt = s.tt := rfl
@[simp] theorem State.setCtx_sessions (s : State) (i : Nat) (c : Ctx) : (s.setCtx i c).sessions = s.sessions := rfl
@[simp] theorem State.setCtx_classes (s : State) (i : Nat) (c : Ctx) : (s.setCtx i c).classes = s.classes := rfl
@[simp] theorem State.setCtx_sampctl (s : State) (i : Nat) (c : Ctx) : (s.setCtx i c).sampctl = s.sampctl := rfl
@[simp] theorem State.setCtx_pulses (s : State) (i : Nat) (c : Ctx) : (s.setCtx i c).pulses = s.pulses := rfl
@[simp] theorem State.setCtx_pulsed (s : State) (i : Nat) (c : Ctx) : (s.setCtx i c).pulsed = s.pulsed := rfl
@[simp] theorem State.setCtx_replay (s : State) (i : Nat) (c : Ctx) : (s.setCtx i c).replay = s.replay := rfl
@[simp] theorem State.setCtx_qmstage (s : State) (i : Nat) (c : Ctx) : (s.setCtx i c).qmstage = s.qmstage := rfl
@[simp] theorem State.setCtx_qmquota (s : State) (i : Nat) (c : Ctx) : (s.setCtx i c).qmquota = s.qmquota := rfl
@[simp] theorem State.setCtx_qmtmo (s : State) (i : Nat) (c : Ctx) : (s.setCtx i c).qmtmo = s.qmtmo := rfl
@[simp] theorem State.setCtx_qmaging (s : State) (i : Nat) (c : Ctx) : (s.setCtx i c).qmaging = s.qmaging := rfl
@[simp] theorem State.setCtx_qmresid (s : State) (i : Nat) (c : Ctx) : (s.setCtx i c).qmresid = s.qmresid := rfl
@[simp] theorem State.setCtx_sends (s : State) (i : Nat) (c : Ctx) : (s.setCtx i c).sends = s.sends := rfl
@[simp] theorem State.setCtx_answers (s : State) (i : Nat) (c : Ctx) : (s.setCtx i c).answers = s.answers := rfl
@[simp] theorem State.setCtx_host (s : State) (i : Nat) (c : Ctx) : (s.setCtx i c).host = s.host := rfl
@[simp] theorem State.setCtx_now (s : State) (i : Nat) (c : Ctx) : (s.setCtx i c).now = s.now := rfl
@[simp] theorem State.setCtx_arith (s : State) (i : Nat) (c : Ctx) : (s.setCtx i c).arith = s.arith := rfl
@[simp] theorem State.setCtx_cur (s : State) (i : Nat) (c : Ctx) : (s.setCtx i c).cur = s.cur := rfl
@[simp] theorem State.setCtx_ev (s : State) (i : Nat) (c : Ctx) : (s.setCtx i c).ev = s.ev := rfl
@[simp] theorem State.setCtx_agenda (s : State) (i : Nat) (c : Ctx) : (s.setCtx i c).agenda = s.agenda := rfl
@[simp] theorem State.setCtx_free (s : State) (i : Nat) (c : Ctx) : (s.setCtx i c).free = s.free := rfl
@[simp] theorem State.modCtx_cores (s : State) (i : Nat) (f : Ctx → Ctx) : (s.modCtx i f).cores = s.cores := rfl
@[simp] theorem State.modCtx_clusters (s : State) (i : Nat) (f : Ctx → Ctx) : (s.modCtx i f).clusters = s.clusters := rfl
@[simp] theorem State.modCtx_dies (s : State) (i : Nat) (f : Ctx → Ctx) : (s.modCtx i f).dies = s.dies := rfl
@[simp] theorem State.modCtx_slices (s : State) (i : Nat) (f : Ctx → Ctx) : (s.modCtx i f).slices = s.slices := rfl
@[simp] theorem State.modCtx_stackCmds (s : State) (i : Nat) (f : Ctx → Ctx) : (s.modCtx i f).stackCmds = s.stackCmds := rfl
@[simp] theorem State.modCtx_mem (s : State) (i : Nat) (f : Ctx → Ctx) : (s.modCtx i f).mem = s.mem := rfl
@[simp] theorem State.modCtx_tiles (s : State) (i : Nat) (f : Ctx → Ctx) : (s.modCtx i f).tiles = s.tiles := rfl
@[simp] theorem State.modCtx_launches (s : State) (i : Nat) (f : Ctx → Ctx) : (s.modCtx i f).launches = s.launches := rfl
@[simp] theorem State.modCtx_released (s : State) (i : Nat) (f : Ctx → Ctx) : (s.modCtx i f).released = s.released := rfl
@[simp] theorem State.modCtx_lseq (s : State) (i : Nat) (f : Ctx → Ctx) : (s.modCtx i f).lseq = s.lseq := rfl
@[simp] theorem State.modCtx_nextKey (s : State) (i : Nat) (f : Ctx → Ctx) : (s.modCtx i f).nextKey = s.nextKey := rfl
@[simp] theorem State.modCtx_saved (s : State) (i : Nat) (f : Ctx → Ctx) : (s.modCtx i f).saved = s.saved := rfl
@[simp] theorem State.modCtx_tt (s : State) (i : Nat) (f : Ctx → Ctx) : (s.modCtx i f).tt = s.tt := rfl
@[simp] theorem State.modCtx_sessions (s : State) (i : Nat) (f : Ctx → Ctx) : (s.modCtx i f).sessions = s.sessions := rfl
@[simp] theorem State.modCtx_classes (s : State) (i : Nat) (f : Ctx → Ctx) : (s.modCtx i f).classes = s.classes := rfl
@[simp] theorem State.modCtx_sampctl (s : State) (i : Nat) (f : Ctx → Ctx) : (s.modCtx i f).sampctl = s.sampctl := rfl
@[simp] theorem State.modCtx_pulses (s : State) (i : Nat) (f : Ctx → Ctx) : (s.modCtx i f).pulses = s.pulses := rfl
@[simp] theorem State.modCtx_pulsed (s : State) (i : Nat) (f : Ctx → Ctx) : (s.modCtx i f).pulsed = s.pulsed := rfl
@[simp] theorem State.modCtx_replay (s : State) (i : Nat) (f : Ctx → Ctx) : (s.modCtx i f).replay = s.replay := rfl
@[simp] theorem State.modCtx_qmstage (s : State) (i : Nat) (f : Ctx → Ctx) : (s.modCtx i f).qmstage = s.qmstage := rfl
@[simp] theorem State.modCtx_qmquota (s : State) (i : Nat) (f : Ctx → Ctx) : (s.modCtx i f).qmquota = s.qmquota := rfl
@[simp] theorem State.modCtx_qmtmo (s : State) (i : Nat) (f : Ctx → Ctx) : (s.modCtx i f).qmtmo = s.qmtmo := rfl
@[simp] theorem State.modCtx_qmaging (s : State) (i : Nat) (f : Ctx → Ctx) : (s.modCtx i f).qmaging = s.qmaging := rfl
@[simp] theorem State.modCtx_qmresid (s : State) (i : Nat) (f : Ctx → Ctx) : (s.modCtx i f).qmresid = s.qmresid := rfl
@[simp] theorem State.modCtx_sends (s : State) (i : Nat) (f : Ctx → Ctx) : (s.modCtx i f).sends = s.sends := rfl
@[simp] theorem State.modCtx_answers (s : State) (i : Nat) (f : Ctx → Ctx) : (s.modCtx i f).answers = s.answers := rfl
@[simp] theorem State.modCtx_host (s : State) (i : Nat) (f : Ctx → Ctx) : (s.modCtx i f).host = s.host := rfl
@[simp] theorem State.modCtx_now (s : State) (i : Nat) (f : Ctx → Ctx) : (s.modCtx i f).now = s.now := rfl
@[simp] theorem State.modCtx_arith (s : State) (i : Nat) (f : Ctx → Ctx) : (s.modCtx i f).arith = s.arith := rfl
@[simp] theorem State.modCtx_cur (s : State) (i : Nat) (f : Ctx → Ctx) : (s.modCtx i f).cur = s.cur := rfl
@[simp] theorem State.modCtx_ev (s : State) (i : Nat) (f : Ctx → Ctx) : (s.modCtx i f).ev = s.ev := rfl
@[simp] theorem State.modCtx_agenda (s : State) (i : Nat) (f : Ctx → Ctx) : (s.modCtx i f).agenda = s.agenda := rfl
@[simp] theorem State.modCtx_free (s : State) (i : Nat) (f : Ctx → Ctx) : (s.modCtx i f).free = s.free := rfl
@[simp] theorem State.setCore_ctxs (s : State) (i : Nat) (c : Core) : (s.setCore i c).ctxs = s.ctxs := rfl
@[simp] theorem State.setCore_clusters (s : State) (i : Nat) (c : Core) : (s.setCore i c).clusters = s.clusters := rfl
@[simp] theorem State.setCore_dies (s : State) (i : Nat) (c : Core) : (s.setCore i c).dies = s.dies := rfl
@[simp] theorem State.setCore_slices (s : State) (i : Nat) (c : Core) : (s.setCore i c).slices = s.slices := rfl
@[simp] theorem State.setCore_stackCmds (s : State) (i : Nat) (c : Core) : (s.setCore i c).stackCmds = s.stackCmds := rfl
@[simp] theorem State.setCore_mem (s : State) (i : Nat) (c : Core) : (s.setCore i c).mem = s.mem := rfl
@[simp] theorem State.setCore_tiles (s : State) (i : Nat) (c : Core) : (s.setCore i c).tiles = s.tiles := rfl
@[simp] theorem State.setCore_launches (s : State) (i : Nat) (c : Core) : (s.setCore i c).launches = s.launches := rfl
@[simp] theorem State.setCore_released (s : State) (i : Nat) (c : Core) : (s.setCore i c).released = s.released := rfl
@[simp] theorem State.setCore_lseq (s : State) (i : Nat) (c : Core) : (s.setCore i c).lseq = s.lseq := rfl
@[simp] theorem State.setCore_nextKey (s : State) (i : Nat) (c : Core) : (s.setCore i c).nextKey = s.nextKey := rfl
@[simp] theorem State.setCore_saved (s : State) (i : Nat) (c : Core) : (s.setCore i c).saved = s.saved := rfl
@[simp] theorem State.setCore_tt (s : State) (i : Nat) (c : Core) : (s.setCore i c).tt = s.tt := rfl
@[simp] theorem State.setCore_sessions (s : State) (i : Nat) (c : Core) : (s.setCore i c).sessions = s.sessions := rfl
@[simp] theorem State.setCore_classes (s : State) (i : Nat) (c : Core) : (s.setCore i c).classes = s.classes := rfl
@[simp] theorem State.setCore_sampctl (s : State) (i : Nat) (c : Core) : (s.setCore i c).sampctl = s.sampctl := rfl
@[simp] theorem State.setCore_pulses (s : State) (i : Nat) (c : Core) : (s.setCore i c).pulses = s.pulses := rfl
@[simp] theorem State.setCore_pulsed (s : State) (i : Nat) (c : Core) : (s.setCore i c).pulsed = s.pulsed := rfl
@[simp] theorem State.setCore_replay (s : State) (i : Nat) (c : Core) : (s.setCore i c).replay = s.replay := rfl
@[simp] theorem State.setCore_qmstage (s : State) (i : Nat) (c : Core) : (s.setCore i c).qmstage = s.qmstage := rfl
@[simp] theorem State.setCore_qmquota (s : State) (i : Nat) (c : Core) : (s.setCore i c).qmquota = s.qmquota := rfl
@[simp] theorem State.setCore_qmtmo (s : State) (i : Nat) (c : Core) : (s.setCore i c).qmtmo = s.qmtmo := rfl
@[simp] theorem State.setCore_qmaging (s : State) (i : Nat) (c : Core) : (s.setCore i c).qmaging = s.qmaging := rfl
@[simp] theorem State.setCore_qmresid (s : State) (i : Nat) (c : Core) : (s.setCore i c).qmresid = s.qmresid := rfl
@[simp] theorem State.setCore_sends (s : State) (i : Nat) (c : Core) : (s.setCore i c).sends = s.sends := rfl
@[simp] theorem State.setCore_answers (s : State) (i : Nat) (c : Core) : (s.setCore i c).answers = s.answers := rfl
@[simp] theorem State.setCore_host (s : State) (i : Nat) (c : Core) : (s.setCore i c).host = s.host := rfl
@[simp] theorem State.setCore_now (s : State) (i : Nat) (c : Core) : (s.setCore i c).now = s.now := rfl
@[simp] theorem State.setCore_arith (s : State) (i : Nat) (c : Core) : (s.setCore i c).arith = s.arith := rfl
@[simp] theorem State.setCore_cur (s : State) (i : Nat) (c : Core) : (s.setCore i c).cur = s.cur := rfl
@[simp] theorem State.setCore_ev (s : State) (i : Nat) (c : Core) : (s.setCore i c).ev = s.ev := rfl
@[simp] theorem State.setCore_agenda (s : State) (i : Nat) (c : Core) : (s.setCore i c).agenda = s.agenda := rfl
@[simp] theorem State.setCore_free (s : State) (i : Nat) (c : Core) : (s.setCore i c).free = s.free := rfl
@[simp] theorem State.modCore_ctxs (s : State) (i : Nat) (f : Core → Core) : (s.modCore i f).ctxs = s.ctxs := rfl
@[simp] theorem State.modCore_clusters (s : State) (i : Nat) (f : Core → Core) : (s.modCore i f).clusters = s.clusters := rfl
@[simp] theorem State.modCore_dies (s : State) (i : Nat) (f : Core → Core) : (s.modCore i f).dies = s.dies := rfl
@[simp] theorem State.modCore_slices (s : State) (i : Nat) (f : Core → Core) : (s.modCore i f).slices = s.slices := rfl
@[simp] theorem State.modCore_stackCmds (s : State) (i : Nat) (f : Core → Core) : (s.modCore i f).stackCmds = s.stackCmds := rfl
@[simp] theorem State.modCore_mem (s : State) (i : Nat) (f : Core → Core) : (s.modCore i f).mem = s.mem := rfl
@[simp] theorem State.modCore_tiles (s : State) (i : Nat) (f : Core → Core) : (s.modCore i f).tiles = s.tiles := rfl
@[simp] theorem State.modCore_launches (s : State) (i : Nat) (f : Core → Core) : (s.modCore i f).launches = s.launches := rfl
@[simp] theorem State.modCore_released (s : State) (i : Nat) (f : Core → Core) : (s.modCore i f).released = s.released := rfl
@[simp] theorem State.modCore_lseq (s : State) (i : Nat) (f : Core → Core) : (s.modCore i f).lseq = s.lseq := rfl
@[simp] theorem State.modCore_nextKey (s : State) (i : Nat) (f : Core → Core) : (s.modCore i f).nextKey = s.nextKey := rfl
@[simp] theorem State.modCore_saved (s : State) (i : Nat) (f : Core → Core) : (s.modCore i f).saved = s.saved := rfl
@[simp] theorem State.modCore_tt (s : State) (i : Nat) (f : Core → Core) : (s.modCore i f).tt = s.tt := rfl
@[simp] theorem State.modCore_sessions (s : State) (i : Nat) (f : Core → Core) : (s.modCore i f).sessions = s.sessions := rfl
@[simp] theorem State.modCore_classes (s : State) (i : Nat) (f : Core → Core) : (s.modCore i f).classes = s.classes := rfl
@[simp] theorem State.modCore_sampctl (s : State) (i : Nat) (f : Core → Core) : (s.modCore i f).sampctl = s.sampctl := rfl
@[simp] theorem State.modCore_pulses (s : State) (i : Nat) (f : Core → Core) : (s.modCore i f).pulses = s.pulses := rfl
@[simp] theorem State.modCore_pulsed (s : State) (i : Nat) (f : Core → Core) : (s.modCore i f).pulsed = s.pulsed := rfl
@[simp] theorem State.modCore_replay (s : State) (i : Nat) (f : Core → Core) : (s.modCore i f).replay = s.replay := rfl
@[simp] theorem State.modCore_qmstage (s : State) (i : Nat) (f : Core → Core) : (s.modCore i f).qmstage = s.qmstage := rfl
@[simp] theorem State.modCore_qmquota (s : State) (i : Nat) (f : Core → Core) : (s.modCore i f).qmquota = s.qmquota := rfl
@[simp] theorem State.modCore_qmtmo (s : State) (i : Nat) (f : Core → Core) : (s.modCore i f).qmtmo = s.qmtmo := rfl
@[simp] theorem State.modCore_qmaging (s : State) (i : Nat) (f : Core → Core) : (s.modCore i f).qmaging = s.qmaging := rfl
@[simp] theorem State.modCore_qmresid (s : State) (i : Nat) (f : Core → Core) : (s.modCore i f).qmresid = s.qmresid := rfl
@[simp] theorem State.modCore_sends (s : State) (i : Nat) (f : Core → Core) : (s.modCore i f).sends = s.sends := rfl
@[simp] theorem State.modCore_answers (s : State) (i : Nat) (f : Core → Core) : (s.modCore i f).answers = s.answers := rfl
@[simp] theorem State.modCore_host (s : State) (i : Nat) (f : Core → Core) : (s.modCore i f).host = s.host := rfl
@[simp] theorem State.modCore_now (s : State) (i : Nat) (f : Core → Core) : (s.modCore i f).now = s.now := rfl
@[simp] theorem State.modCore_arith (s : State) (i : Nat) (f : Core → Core) : (s.modCore i f).arith = s.arith := rfl
@[simp] theorem State.modCore_cur (s : State) (i : Nat) (f : Core → Core) : (s.modCore i f).cur = s.cur := rfl
@[simp] theorem State.modCore_ev (s : State) (i : Nat) (f : Core → Core) : (s.modCore i f).ev = s.ev := rfl
@[simp] theorem State.modCore_agenda (s : State) (i : Nat) (f : Core → Core) : (s.modCore i f).agenda = s.agenda := rfl
@[simp] theorem State.modCore_free (s : State) (i : Nat) (f : Core → Core) : (s.modCore i f).free = s.free := rfl
@[simp] theorem State.setCluster_ctxs (s : State) (i : Nat) (c : Cluster) : (s.setCluster i c).ctxs = s.ctxs := rfl
@[simp] theorem State.setCluster_cores (s : State) (i : Nat) (c : Cluster) : (s.setCluster i c).cores = s.cores := rfl
@[simp] theorem State.setCluster_dies (s : State) (i : Nat) (c : Cluster) : (s.setCluster i c).dies = s.dies := rfl
@[simp] theorem State.setCluster_slices (s : State) (i : Nat) (c : Cluster) : (s.setCluster i c).slices = s.slices := rfl
@[simp] theorem State.setCluster_stackCmds (s : State) (i : Nat) (c : Cluster) : (s.setCluster i c).stackCmds = s.stackCmds := rfl
@[simp] theorem State.setCluster_mem (s : State) (i : Nat) (c : Cluster) : (s.setCluster i c).mem = s.mem := rfl
@[simp] theorem State.setCluster_tiles (s : State) (i : Nat) (c : Cluster) : (s.setCluster i c).tiles = s.tiles := rfl
@[simp] theorem State.setCluster_launches (s : State) (i : Nat) (c : Cluster) : (s.setCluster i c).launches = s.launches := rfl
@[simp] theorem State.setCluster_released (s : State) (i : Nat) (c : Cluster) : (s.setCluster i c).released = s.released := rfl
@[simp] theorem State.setCluster_lseq (s : State) (i : Nat) (c : Cluster) : (s.setCluster i c).lseq = s.lseq := rfl
@[simp] theorem State.setCluster_nextKey (s : State) (i : Nat) (c : Cluster) : (s.setCluster i c).nextKey = s.nextKey := rfl
@[simp] theorem State.setCluster_saved (s : State) (i : Nat) (c : Cluster) : (s.setCluster i c).saved = s.saved := rfl
@[simp] theorem State.setCluster_tt (s : State) (i : Nat) (c : Cluster) : (s.setCluster i c).tt = s.tt := rfl
@[simp] theorem State.setCluster_sessions (s : State) (i : Nat) (c : Cluster) : (s.setCluster i c).sessions = s.sessions := rfl
@[simp] theorem State.setCluster_classes (s : State) (i : Nat) (c : Cluster) : (s.setCluster i c).classes = s.classes := rfl
@[simp] theorem State.setCluster_sampctl (s : State) (i : Nat) (c : Cluster) : (s.setCluster i c).sampctl = s.sampctl := rfl
@[simp] theorem State.setCluster_pulses (s : State) (i : Nat) (c : Cluster) : (s.setCluster i c).pulses = s.pulses := rfl
@[simp] theorem State.setCluster_pulsed (s : State) (i : Nat) (c : Cluster) : (s.setCluster i c).pulsed = s.pulsed := rfl
@[simp] theorem State.setCluster_replay (s : State) (i : Nat) (c : Cluster) : (s.setCluster i c).replay = s.replay := rfl
@[simp] theorem State.setCluster_qmstage (s : State) (i : Nat) (c : Cluster) : (s.setCluster i c).qmstage = s.qmstage := rfl
@[simp] theorem State.setCluster_qmquota (s : State) (i : Nat) (c : Cluster) : (s.setCluster i c).qmquota = s.qmquota := rfl
@[simp] theorem State.setCluster_qmtmo (s : State) (i : Nat) (c : Cluster) : (s.setCluster i c).qmtmo = s.qmtmo := rfl
@[simp] theorem State.setCluster_qmaging (s : State) (i : Nat) (c : Cluster) : (s.setCluster i c).qmaging = s.qmaging := rfl
@[simp] theorem State.setCluster_qmresid (s : State) (i : Nat) (c : Cluster) : (s.setCluster i c).qmresid = s.qmresid := rfl
@[simp] theorem State.setCluster_sends (s : State) (i : Nat) (c : Cluster) : (s.setCluster i c).sends = s.sends := rfl
@[simp] theorem State.setCluster_answers (s : State) (i : Nat) (c : Cluster) : (s.setCluster i c).answers = s.answers := rfl
@[simp] theorem State.setCluster_host (s : State) (i : Nat) (c : Cluster) : (s.setCluster i c).host = s.host := rfl
@[simp] theorem State.setCluster_now (s : State) (i : Nat) (c : Cluster) : (s.setCluster i c).now = s.now := rfl
@[simp] theorem State.setCluster_arith (s : State) (i : Nat) (c : Cluster) : (s.setCluster i c).arith = s.arith := rfl
@[simp] theorem State.setCluster_cur (s : State) (i : Nat) (c : Cluster) : (s.setCluster i c).cur = s.cur := rfl
@[simp] theorem State.setCluster_ev (s : State) (i : Nat) (c : Cluster) : (s.setCluster i c).ev = s.ev := rfl
@[simp] theorem State.setCluster_agenda (s : State) (i : Nat) (c : Cluster) : (s.setCluster i c).agenda = s.agenda := rfl
@[simp] theorem State.setCluster_free (s : State) (i : Nat) (c : Cluster) : (s.setCluster i c).free = s.free := rfl
@[simp] theorem State.modCluster_ctxs (s : State) (i : Nat) (f : Cluster → Cluster) : (s.modCluster i f).ctxs = s.ctxs := rfl
@[simp] theorem State.modCluster_cores (s : State) (i : Nat) (f : Cluster → Cluster) : (s.modCluster i f).cores = s.cores := rfl
@[simp] theorem State.modCluster_dies (s : State) (i : Nat) (f : Cluster → Cluster) : (s.modCluster i f).dies = s.dies := rfl
@[simp] theorem State.modCluster_slices (s : State) (i : Nat) (f : Cluster → Cluster) : (s.modCluster i f).slices = s.slices := rfl
@[simp] theorem State.modCluster_stackCmds (s : State) (i : Nat) (f : Cluster → Cluster) : (s.modCluster i f).stackCmds = s.stackCmds := rfl
@[simp] theorem State.modCluster_mem (s : State) (i : Nat) (f : Cluster → Cluster) : (s.modCluster i f).mem = s.mem := rfl
@[simp] theorem State.modCluster_tiles (s : State) (i : Nat) (f : Cluster → Cluster) : (s.modCluster i f).tiles = s.tiles := rfl
@[simp] theorem State.modCluster_launches (s : State) (i : Nat) (f : Cluster → Cluster) : (s.modCluster i f).launches = s.launches := rfl
@[simp] theorem State.modCluster_released (s : State) (i : Nat) (f : Cluster → Cluster) : (s.modCluster i f).released = s.released := rfl
@[simp] theorem State.modCluster_lseq (s : State) (i : Nat) (f : Cluster → Cluster) : (s.modCluster i f).lseq = s.lseq := rfl
@[simp] theorem State.modCluster_nextKey (s : State) (i : Nat) (f : Cluster → Cluster) : (s.modCluster i f).nextKey = s.nextKey := rfl
@[simp] theorem State.modCluster_saved (s : State) (i : Nat) (f : Cluster → Cluster) : (s.modCluster i f).saved = s.saved := rfl
@[simp] theorem State.modCluster_tt (s : State) (i : Nat) (f : Cluster → Cluster) : (s.modCluster i f).tt = s.tt := rfl
@[simp] theorem State.modCluster_sessions (s : State) (i : Nat) (f : Cluster → Cluster) : (s.modCluster i f).sessions = s.sessions := rfl
@[simp] theorem State.modCluster_classes (s : State) (i : Nat) (f : Cluster → Cluster) : (s.modCluster i f).classes = s.classes := rfl
@[simp] theorem State.modCluster_sampctl (s : State) (i : Nat) (f : Cluster → Cluster) : (s.modCluster i f).sampctl = s.sampctl := rfl
@[simp] theorem State.modCluster_pulses (s : State) (i : Nat) (f : Cluster → Cluster) : (s.modCluster i f).pulses = s.pulses := rfl
@[simp] theorem State.modCluster_pulsed (s : State) (i : Nat) (f : Cluster → Cluster) : (s.modCluster i f).pulsed = s.pulsed := rfl
@[simp] theorem State.modCluster_replay (s : State) (i : Nat) (f : Cluster → Cluster) : (s.modCluster i f).replay = s.replay := rfl
@[simp] theorem State.modCluster_qmstage (s : State) (i : Nat) (f : Cluster → Cluster) : (s.modCluster i f).qmstage = s.qmstage := rfl
@[simp] theorem State.modCluster_qmquota (s : State) (i : Nat) (f : Cluster → Cluster) : (s.modCluster i f).qmquota = s.qmquota := rfl
@[simp] theorem State.modCluster_qmtmo (s : State) (i : Nat) (f : Cluster → Cluster) : (s.modCluster i f).qmtmo = s.qmtmo := rfl
@[simp] theorem State.modCluster_qmaging (s : State) (i : Nat) (f : Cluster → Cluster) : (s.modCluster i f).qmaging = s.qmaging := rfl
@[simp] theorem State.modCluster_qmresid (s : State) (i : Nat) (f : Cluster → Cluster) : (s.modCluster i f).qmresid = s.qmresid := rfl
@[simp] theorem State.modCluster_sends (s : State) (i : Nat) (f : Cluster → Cluster) : (s.modCluster i f).sends = s.sends := rfl
@[simp] theorem State.modCluster_answers (s : State) (i : Nat) (f : Cluster → Cluster) : (s.modCluster i f).answers = s.answers := rfl
@[simp] theorem State.modCluster_host (s : State) (i : Nat) (f : Cluster → Cluster) : (s.modCluster i f).host = s.host := rfl
@[simp] theorem State.modCluster_now (s : State) (i : Nat) (f : Cluster → Cluster) : (s.modCluster i f).now = s.now := rfl
@[simp] theorem State.modCluster_arith (s : State) (i : Nat) (f : Cluster → Cluster) : (s.modCluster i f).arith = s.arith := rfl
@[simp] theorem State.modCluster_cur (s : State) (i : Nat) (f : Cluster → Cluster) : (s.modCluster i f).cur = s.cur := rfl
@[simp] theorem State.modCluster_ev (s : State) (i : Nat) (f : Cluster → Cluster) : (s.modCluster i f).ev = s.ev := rfl
@[simp] theorem State.modCluster_agenda (s : State) (i : Nat) (f : Cluster → Cluster) : (s.modCluster i f).agenda = s.agenda := rfl
@[simp] theorem State.modCluster_free (s : State) (i : Nat) (f : Cluster → Cluster) : (s.modCluster i f).free = s.free := rfl
@[simp] theorem State.setDie_ctxs (s : State) (i : Nat) (c : Die) : (s.setDie i c).ctxs = s.ctxs := rfl
@[simp] theorem State.setDie_cores (s : State) (i : Nat) (c : Die) : (s.setDie i c).cores = s.cores := rfl
@[simp] theorem State.setDie_clusters (s : State) (i : Nat) (c : Die) : (s.setDie i c).clusters = s.clusters := rfl
@[simp] theorem State.setDie_slices (s : State) (i : Nat) (c : Die) : (s.setDie i c).slices = s.slices := rfl
@[simp] theorem State.setDie_stackCmds (s : State) (i : Nat) (c : Die) : (s.setDie i c).stackCmds = s.stackCmds := rfl
@[simp] theorem State.setDie_mem (s : State) (i : Nat) (c : Die) : (s.setDie i c).mem = s.mem := rfl
@[simp] theorem State.setDie_tiles (s : State) (i : Nat) (c : Die) : (s.setDie i c).tiles = s.tiles := rfl
@[simp] theorem State.setDie_launches (s : State) (i : Nat) (c : Die) : (s.setDie i c).launches = s.launches := rfl
@[simp] theorem State.setDie_released (s : State) (i : Nat) (c : Die) : (s.setDie i c).released = s.released := rfl
@[simp] theorem State.setDie_lseq (s : State) (i : Nat) (c : Die) : (s.setDie i c).lseq = s.lseq := rfl
@[simp] theorem State.setDie_nextKey (s : State) (i : Nat) (c : Die) : (s.setDie i c).nextKey = s.nextKey := rfl
@[simp] theorem State.setDie_saved (s : State) (i : Nat) (c : Die) : (s.setDie i c).saved = s.saved := rfl
@[simp] theorem State.setDie_tt (s : State) (i : Nat) (c : Die) : (s.setDie i c).tt = s.tt := rfl
@[simp] theorem State.setDie_sessions (s : State) (i : Nat) (c : Die) : (s.setDie i c).sessions = s.sessions := rfl
@[simp] theorem State.setDie_classes (s : State) (i : Nat) (c : Die) : (s.setDie i c).classes = s.classes := rfl
@[simp] theorem State.setDie_sampctl (s : State) (i : Nat) (c : Die) : (s.setDie i c).sampctl = s.sampctl := rfl
@[simp] theorem State.setDie_pulses (s : State) (i : Nat) (c : Die) : (s.setDie i c).pulses = s.pulses := rfl
@[simp] theorem State.setDie_pulsed (s : State) (i : Nat) (c : Die) : (s.setDie i c).pulsed = s.pulsed := rfl
@[simp] theorem State.setDie_replay (s : State) (i : Nat) (c : Die) : (s.setDie i c).replay = s.replay := rfl
@[simp] theorem State.setDie_qmstage (s : State) (i : Nat) (c : Die) : (s.setDie i c).qmstage = s.qmstage := rfl
@[simp] theorem State.setDie_qmquota (s : State) (i : Nat) (c : Die) : (s.setDie i c).qmquota = s.qmquota := rfl
@[simp] theorem State.setDie_qmtmo (s : State) (i : Nat) (c : Die) : (s.setDie i c).qmtmo = s.qmtmo := rfl
@[simp] theorem State.setDie_qmaging (s : State) (i : Nat) (c : Die) : (s.setDie i c).qmaging = s.qmaging := rfl
@[simp] theorem State.setDie_qmresid (s : State) (i : Nat) (c : Die) : (s.setDie i c).qmresid = s.qmresid := rfl
@[simp] theorem State.setDie_sends (s : State) (i : Nat) (c : Die) : (s.setDie i c).sends = s.sends := rfl
@[simp] theorem State.setDie_answers (s : State) (i : Nat) (c : Die) : (s.setDie i c).answers = s.answers := rfl
@[simp] theorem State.setDie_host (s : State) (i : Nat) (c : Die) : (s.setDie i c).host = s.host := rfl
@[simp] theorem State.setDie_now (s : State) (i : Nat) (c : Die) : (s.setDie i c).now = s.now := rfl
@[simp] theorem State.setDie_arith (s : State) (i : Nat) (c : Die) : (s.setDie i c).arith = s.arith := rfl
@[simp] theorem State.setDie_cur (s : State) (i : Nat) (c : Die) : (s.setDie i c).cur = s.cur := rfl
@[simp] theorem State.setDie_ev (s : State) (i : Nat) (c : Die) : (s.setDie i c).ev = s.ev := rfl
@[simp] theorem State.setDie_agenda (s : State) (i : Nat) (c : Die) : (s.setDie i c).agenda = s.agenda := rfl
@[simp] theorem State.setDie_free (s : State) (i : Nat) (c : Die) : (s.setDie i c).free = s.free := rfl
@[simp] theorem State.modDie_ctxs (s : State) (i : Nat) (f : Die → Die) : (s.modDie i f).ctxs = s.ctxs := rfl
@[simp] theorem State.modDie_cores (s : State) (i : Nat) (f : Die → Die) : (s.modDie i f).cores = s.cores := rfl
@[simp] theorem State.modDie_clusters (s : State) (i : Nat) (f : Die → Die) : (s.modDie i f).clusters = s.clusters := rfl
@[simp] theorem State.modDie_slices (s : State) (i : Nat) (f : Die → Die) : (s.modDie i f).slices = s.slices := rfl
@[simp] theorem State.modDie_stackCmds (s : State) (i : Nat) (f : Die → Die) : (s.modDie i f).stackCmds = s.stackCmds := rfl
@[simp] theorem State.modDie_mem (s : State) (i : Nat) (f : Die → Die) : (s.modDie i f).mem = s.mem := rfl
@[simp] theorem State.modDie_tiles (s : State) (i : Nat) (f : Die → Die) : (s.modDie i f).tiles = s.tiles := rfl
@[simp] theorem State.modDie_launches (s : State) (i : Nat) (f : Die → Die) : (s.modDie i f).launches = s.launches := rfl
@[simp] theorem State.modDie_released (s : State) (i : Nat) (f : Die → Die) : (s.modDie i f).released = s.released := rfl
@[simp] theorem State.modDie_lseq (s : State) (i : Nat) (f : Die → Die) : (s.modDie i f).lseq = s.lseq := rfl
@[simp] theorem State.modDie_nextKey (s : State) (i : Nat) (f : Die → Die) : (s.modDie i f).nextKey = s.nextKey := rfl
@[simp] theorem State.modDie_saved (s : State) (i : Nat) (f : Die → Die) : (s.modDie i f).saved = s.saved := rfl
@[simp] theorem State.modDie_tt (s : State) (i : Nat) (f : Die → Die) : (s.modDie i f).tt = s.tt := rfl
@[simp] theorem State.modDie_sessions (s : State) (i : Nat) (f : Die → Die) : (s.modDie i f).sessions = s.sessions := rfl
@[simp] theorem State.modDie_classes (s : State) (i : Nat) (f : Die → Die) : (s.modDie i f).classes = s.classes := rfl
@[simp] theorem State.modDie_sampctl (s : State) (i : Nat) (f : Die → Die) : (s.modDie i f).sampctl = s.sampctl := rfl
@[simp] theorem State.modDie_pulses (s : State) (i : Nat) (f : Die → Die) : (s.modDie i f).pulses = s.pulses := rfl
@[simp] theorem State.modDie_pulsed (s : State) (i : Nat) (f : Die → Die) : (s.modDie i f).pulsed = s.pulsed := rfl
@[simp] theorem State.modDie_replay (s : State) (i : Nat) (f : Die → Die) : (s.modDie i f).replay = s.replay := rfl
@[simp] theorem State.modDie_qmstage (s : State) (i : Nat) (f : Die → Die) : (s.modDie i f).qmstage = s.qmstage := rfl
@[simp] theorem State.modDie_qmquota (s : State) (i : Nat) (f : Die → Die) : (s.modDie i f).qmquota = s.qmquota := rfl
@[simp] theorem State.modDie_qmtmo (s : State) (i : Nat) (f : Die → Die) : (s.modDie i f).qmtmo = s.qmtmo := rfl
@[simp] theorem State.modDie_qmaging (s : State) (i : Nat) (f : Die → Die) : (s.modDie i f).qmaging = s.qmaging := rfl
@[simp] theorem State.modDie_qmresid (s : State) (i : Nat) (f : Die → Die) : (s.modDie i f).qmresid = s.qmresid := rfl
@[simp] theorem State.modDie_sends (s : State) (i : Nat) (f : Die → Die) : (s.modDie i f).sends = s.sends := rfl
@[simp] theorem State.modDie_answers (s : State) (i : Nat) (f : Die → Die) : (s.modDie i f).answers = s.answers := rfl
@[simp] theorem State.modDie_host (s : State) (i : Nat) (f : Die → Die) : (s.modDie i f).host = s.host := rfl
@[simp] theorem State.modDie_now (s : State) (i : Nat) (f : Die → Die) : (s.modDie i f).now = s.now := rfl
@[simp] theorem State.modDie_arith (s : State) (i : Nat) (f : Die → Die) : (s.modDie i f).arith = s.arith := rfl
@[simp] theorem State.modDie_cur (s : State) (i : Nat) (f : Die → Die) : (s.modDie i f).cur = s.cur := rfl
@[simp] theorem State.modDie_ev (s : State) (i : Nat) (f : Die → Die) : (s.modDie i f).ev = s.ev := rfl
@[simp] theorem State.modDie_agenda (s : State) (i : Nat) (f : Die → Die) : (s.modDie i f).agenda = s.agenda := rfl
@[simp] theorem State.modDie_free (s : State) (i : Nat) (f : Die → Die) : (s.modDie i f).free = s.free := rfl
@[simp] theorem State.setSlice_ctxs (s : State) (i : Nat) (c : Slice) : (s.setSlice i c).ctxs = s.ctxs := rfl
@[simp] theorem State.setSlice_cores (s : State) (i : Nat) (c : Slice) : (s.setSlice i c).cores = s.cores := rfl
@[simp] theorem State.setSlice_clusters (s : State) (i : Nat) (c : Slice) : (s.setSlice i c).clusters = s.clusters := rfl
@[simp] theorem State.setSlice_dies (s : State) (i : Nat) (c : Slice) : (s.setSlice i c).dies = s.dies := rfl
@[simp] theorem State.setSlice_stackCmds (s : State) (i : Nat) (c : Slice) : (s.setSlice i c).stackCmds = s.stackCmds := rfl
@[simp] theorem State.setSlice_mem (s : State) (i : Nat) (c : Slice) : (s.setSlice i c).mem = s.mem := rfl
@[simp] theorem State.setSlice_tiles (s : State) (i : Nat) (c : Slice) : (s.setSlice i c).tiles = s.tiles := rfl
@[simp] theorem State.setSlice_launches (s : State) (i : Nat) (c : Slice) : (s.setSlice i c).launches = s.launches := rfl
@[simp] theorem State.setSlice_released (s : State) (i : Nat) (c : Slice) : (s.setSlice i c).released = s.released := rfl
@[simp] theorem State.setSlice_lseq (s : State) (i : Nat) (c : Slice) : (s.setSlice i c).lseq = s.lseq := rfl
@[simp] theorem State.setSlice_nextKey (s : State) (i : Nat) (c : Slice) : (s.setSlice i c).nextKey = s.nextKey := rfl
@[simp] theorem State.setSlice_saved (s : State) (i : Nat) (c : Slice) : (s.setSlice i c).saved = s.saved := rfl
@[simp] theorem State.setSlice_tt (s : State) (i : Nat) (c : Slice) : (s.setSlice i c).tt = s.tt := rfl
@[simp] theorem State.setSlice_sessions (s : State) (i : Nat) (c : Slice) : (s.setSlice i c).sessions = s.sessions := rfl
@[simp] theorem State.setSlice_classes (s : State) (i : Nat) (c : Slice) : (s.setSlice i c).classes = s.classes := rfl
@[simp] theorem State.setSlice_sampctl (s : State) (i : Nat) (c : Slice) : (s.setSlice i c).sampctl = s.sampctl := rfl
@[simp] theorem State.setSlice_pulses (s : State) (i : Nat) (c : Slice) : (s.setSlice i c).pulses = s.pulses := rfl
@[simp] theorem State.setSlice_pulsed (s : State) (i : Nat) (c : Slice) : (s.setSlice i c).pulsed = s.pulsed := rfl
@[simp] theorem State.setSlice_replay (s : State) (i : Nat) (c : Slice) : (s.setSlice i c).replay = s.replay := rfl
@[simp] theorem State.setSlice_qmstage (s : State) (i : Nat) (c : Slice) : (s.setSlice i c).qmstage = s.qmstage := rfl
@[simp] theorem State.setSlice_qmquota (s : State) (i : Nat) (c : Slice) : (s.setSlice i c).qmquota = s.qmquota := rfl
@[simp] theorem State.setSlice_qmtmo (s : State) (i : Nat) (c : Slice) : (s.setSlice i c).qmtmo = s.qmtmo := rfl
@[simp] theorem State.setSlice_qmaging (s : State) (i : Nat) (c : Slice) : (s.setSlice i c).qmaging = s.qmaging := rfl
@[simp] theorem State.setSlice_qmresid (s : State) (i : Nat) (c : Slice) : (s.setSlice i c).qmresid = s.qmresid := rfl
@[simp] theorem State.setSlice_sends (s : State) (i : Nat) (c : Slice) : (s.setSlice i c).sends = s.sends := rfl
@[simp] theorem State.setSlice_answers (s : State) (i : Nat) (c : Slice) : (s.setSlice i c).answers = s.answers := rfl
@[simp] theorem State.setSlice_host (s : State) (i : Nat) (c : Slice) : (s.setSlice i c).host = s.host := rfl
@[simp] theorem State.setSlice_now (s : State) (i : Nat) (c : Slice) : (s.setSlice i c).now = s.now := rfl
@[simp] theorem State.setSlice_arith (s : State) (i : Nat) (c : Slice) : (s.setSlice i c).arith = s.arith := rfl
@[simp] theorem State.setSlice_cur (s : State) (i : Nat) (c : Slice) : (s.setSlice i c).cur = s.cur := rfl
@[simp] theorem State.setSlice_ev (s : State) (i : Nat) (c : Slice) : (s.setSlice i c).ev = s.ev := rfl
@[simp] theorem State.setSlice_agenda (s : State) (i : Nat) (c : Slice) : (s.setSlice i c).agenda = s.agenda := rfl
@[simp] theorem State.setSlice_free (s : State) (i : Nat) (c : Slice) : (s.setSlice i c).free = s.free := rfl
@[simp] theorem State.modSlice_ctxs (s : State) (i : Nat) (f : Slice → Slice) : (s.modSlice i f).ctxs = s.ctxs := rfl
@[simp] theorem State.modSlice_cores (s : State) (i : Nat) (f : Slice → Slice) : (s.modSlice i f).cores = s.cores := rfl
@[simp] theorem State.modSlice_clusters (s : State) (i : Nat) (f : Slice → Slice) : (s.modSlice i f).clusters = s.clusters := rfl
@[simp] theorem State.modSlice_dies (s : State) (i : Nat) (f : Slice → Slice) : (s.modSlice i f).dies = s.dies := rfl
@[simp] theorem State.modSlice_stackCmds (s : State) (i : Nat) (f : Slice → Slice) : (s.modSlice i f).stackCmds = s.stackCmds := rfl
@[simp] theorem State.modSlice_mem (s : State) (i : Nat) (f : Slice → Slice) : (s.modSlice i f).mem = s.mem := rfl
@[simp] theorem State.modSlice_tiles (s : State) (i : Nat) (f : Slice → Slice) : (s.modSlice i f).tiles = s.tiles := rfl
@[simp] theorem State.modSlice_launches (s : State) (i : Nat) (f : Slice → Slice) : (s.modSlice i f).launches = s.launches := rfl
@[simp] theorem State.modSlice_released (s : State) (i : Nat) (f : Slice → Slice) : (s.modSlice i f).released = s.released := rfl
@[simp] theorem State.modSlice_lseq (s : State) (i : Nat) (f : Slice → Slice) : (s.modSlice i f).lseq = s.lseq := rfl
@[simp] theorem State.modSlice_nextKey (s : State) (i : Nat) (f : Slice → Slice) : (s.modSlice i f).nextKey = s.nextKey := rfl
@[simp] theorem State.modSlice_saved (s : State) (i : Nat) (f : Slice → Slice) : (s.modSlice i f).saved = s.saved := rfl
@[simp] theorem State.modSlice_tt (s : State) (i : Nat) (f : Slice → Slice) : (s.modSlice i f).tt = s.tt := rfl
@[simp] theorem State.modSlice_sessions (s : State) (i : Nat) (f : Slice → Slice) : (s.modSlice i f).sessions = s.sessions := rfl
@[simp] theorem State.modSlice_classes (s : State) (i : Nat) (f : Slice → Slice) : (s.modSlice i f).classes = s.classes := rfl
@[simp] theorem State.modSlice_sampctl (s : State) (i : Nat) (f : Slice → Slice) : (s.modSlice i f).sampctl = s.sampctl := rfl
@[simp] theorem State.modSlice_pulses (s : State) (i : Nat) (f : Slice → Slice) : (s.modSlice i f).pulses = s.pulses := rfl
@[simp] theorem State.modSlice_pulsed (s : State) (i : Nat) (f : Slice → Slice) : (s.modSlice i f).pulsed = s.pulsed := rfl
@[simp] theorem State.modSlice_replay (s : State) (i : Nat) (f : Slice → Slice) : (s.modSlice i f).replay = s.replay := rfl
@[simp] theorem State.modSlice_qmstage (s : State) (i : Nat) (f : Slice → Slice) : (s.modSlice i f).qmstage = s.qmstage := rfl
@[simp] theorem State.modSlice_qmquota (s : State) (i : Nat) (f : Slice → Slice) : (s.modSlice i f).qmquota = s.qmquota := rfl
@[simp] theorem State.modSlice_qmtmo (s : State) (i : Nat) (f : Slice → Slice) : (s.modSlice i f).qmtmo = s.qmtmo := rfl
@[simp] theorem State.modSlice_qmaging (s : State) (i : Nat) (f : Slice → Slice) : (s.modSlice i f).qmaging = s.qmaging := rfl
@[simp] theorem State.modSlice_qmresid (s : State) (i : Nat) (f : Slice → Slice) : (s.modSlice i f).qmresid = s.qmresid := rfl
@[simp] theorem State.modSlice_sends (s : State) (i : Nat) (f : Slice → Slice) : (s.modSlice i f).sends = s.sends := rfl
@[simp] theorem State.modSlice_answers (s : State) (i : Nat) (f : Slice → Slice) : (s.modSlice i f).answers = s.answers := rfl
@[simp] theorem State.modSlice_host (s : State) (i : Nat) (f : Slice → Slice) : (s.modSlice i f).host = s.host := rfl
@[simp] theorem State.modSlice_now (s : State) (i : Nat) (f : Slice → Slice) : (s.modSlice i f).now = s.now := rfl
@[simp] theorem State.modSlice_arith (s : State) (i : Nat) (f : Slice → Slice) : (s.modSlice i f).arith = s.arith := rfl
@[simp] theorem State.modSlice_cur (s : State) (i : Nat) (f : Slice → Slice) : (s.modSlice i f).cur = s.cur := rfl
@[simp] theorem State.modSlice_ev (s : State) (i : Nat) (f : Slice → Slice) : (s.modSlice i f).ev = s.ev := rfl
@[simp] theorem State.modSlice_agenda (s : State) (i : Nat) (f : Slice → Slice) : (s.modSlice i f).agenda = s.agenda := rfl
@[simp] theorem State.modSlice_free (s : State) (i : Nat) (f : Slice → Slice) : (s.modSlice i f).free = s.free := rfl
@[simp] theorem State.setStack_ctxs (s : State) (i : Nat) (c : List StackCmd) : (s.setStack i c).ctxs = s.ctxs := rfl
@[simp] theorem State.setStack_cores (s : State) (i : Nat) (c : List StackCmd) : (s.setStack i c).cores = s.cores := rfl
@[simp] theorem State.setStack_clusters (s : State) (i : Nat) (c : List StackCmd) : (s.setStack i c).clusters = s.clusters := rfl
@[simp] theorem State.setStack_dies (s : State) (i : Nat) (c : List StackCmd) : (s.setStack i c).dies = s.dies := rfl
@[simp] theorem State.setStack_slices (s : State) (i : Nat) (c : List StackCmd) : (s.setStack i c).slices = s.slices := rfl
@[simp] theorem State.setStack_mem (s : State) (i : Nat) (c : List StackCmd) : (s.setStack i c).mem = s.mem := rfl
@[simp] theorem State.setStack_tiles (s : State) (i : Nat) (c : List StackCmd) : (s.setStack i c).tiles = s.tiles := rfl
@[simp] theorem State.setStack_launches (s : State) (i : Nat) (c : List StackCmd) : (s.setStack i c).launches = s.launches := rfl
@[simp] theorem State.setStack_released (s : State) (i : Nat) (c : List StackCmd) : (s.setStack i c).released = s.released := rfl
@[simp] theorem State.setStack_lseq (s : State) (i : Nat) (c : List StackCmd) : (s.setStack i c).lseq = s.lseq := rfl
@[simp] theorem State.setStack_nextKey (s : State) (i : Nat) (c : List StackCmd) : (s.setStack i c).nextKey = s.nextKey := rfl
@[simp] theorem State.setStack_saved (s : State) (i : Nat) (c : List StackCmd) : (s.setStack i c).saved = s.saved := rfl
@[simp] theorem State.setStack_tt (s : State) (i : Nat) (c : List StackCmd) : (s.setStack i c).tt = s.tt := rfl
@[simp] theorem State.setStack_sessions (s : State) (i : Nat) (c : List StackCmd) : (s.setStack i c).sessions = s.sessions := rfl
@[simp] theorem State.setStack_classes (s : State) (i : Nat) (c : List StackCmd) : (s.setStack i c).classes = s.classes := rfl
@[simp] theorem State.setStack_sampctl (s : State) (i : Nat) (c : List StackCmd) : (s.setStack i c).sampctl = s.sampctl := rfl
@[simp] theorem State.setStack_pulses (s : State) (i : Nat) (c : List StackCmd) : (s.setStack i c).pulses = s.pulses := rfl
@[simp] theorem State.setStack_pulsed (s : State) (i : Nat) (c : List StackCmd) : (s.setStack i c).pulsed = s.pulsed := rfl
@[simp] theorem State.setStack_replay (s : State) (i : Nat) (c : List StackCmd) : (s.setStack i c).replay = s.replay := rfl
@[simp] theorem State.setStack_qmstage (s : State) (i : Nat) (c : List StackCmd) : (s.setStack i c).qmstage = s.qmstage := rfl
@[simp] theorem State.setStack_qmquota (s : State) (i : Nat) (c : List StackCmd) : (s.setStack i c).qmquota = s.qmquota := rfl
@[simp] theorem State.setStack_qmtmo (s : State) (i : Nat) (c : List StackCmd) : (s.setStack i c).qmtmo = s.qmtmo := rfl
@[simp] theorem State.setStack_qmaging (s : State) (i : Nat) (c : List StackCmd) : (s.setStack i c).qmaging = s.qmaging := rfl
@[simp] theorem State.setStack_qmresid (s : State) (i : Nat) (c : List StackCmd) : (s.setStack i c).qmresid = s.qmresid := rfl
@[simp] theorem State.setStack_sends (s : State) (i : Nat) (c : List StackCmd) : (s.setStack i c).sends = s.sends := rfl
@[simp] theorem State.setStack_answers (s : State) (i : Nat) (c : List StackCmd) : (s.setStack i c).answers = s.answers := rfl
@[simp] theorem State.setStack_host (s : State) (i : Nat) (c : List StackCmd) : (s.setStack i c).host = s.host := rfl
@[simp] theorem State.setStack_now (s : State) (i : Nat) (c : List StackCmd) : (s.setStack i c).now = s.now := rfl
@[simp] theorem State.setStack_arith (s : State) (i : Nat) (c : List StackCmd) : (s.setStack i c).arith = s.arith := rfl
@[simp] theorem State.setStack_cur (s : State) (i : Nat) (c : List StackCmd) : (s.setStack i c).cur = s.cur := rfl
@[simp] theorem State.setStack_ev (s : State) (i : Nat) (c : List StackCmd) : (s.setStack i c).ev = s.ev := rfl
@[simp] theorem State.setStack_agenda (s : State) (i : Nat) (c : List StackCmd) : (s.setStack i c).agenda = s.agenda := rfl
@[simp] theorem State.setStack_free (s : State) (i : Nat) (c : List StackCmd) : (s.setStack i c).free = s.free := rfl
@[simp] theorem State.setLaunch_ctxs (s : State) (i : Nat) (c : Launch) : (s.setLaunch i c).ctxs = s.ctxs := rfl
@[simp] theorem State.setLaunch_cores (s : State) (i : Nat) (c : Launch) : (s.setLaunch i c).cores = s.cores := rfl
@[simp] theorem State.setLaunch_clusters (s : State) (i : Nat) (c : Launch) : (s.setLaunch i c).clusters = s.clusters := rfl
@[simp] theorem State.setLaunch_dies (s : State) (i : Nat) (c : Launch) : (s.setLaunch i c).dies = s.dies := rfl
@[simp] theorem State.setLaunch_slices (s : State) (i : Nat) (c : Launch) : (s.setLaunch i c).slices = s.slices := rfl
@[simp] theorem State.setLaunch_stackCmds (s : State) (i : Nat) (c : Launch) : (s.setLaunch i c).stackCmds = s.stackCmds := rfl
@[simp] theorem State.setLaunch_mem (s : State) (i : Nat) (c : Launch) : (s.setLaunch i c).mem = s.mem := rfl
@[simp] theorem State.setLaunch_tiles (s : State) (i : Nat) (c : Launch) : (s.setLaunch i c).tiles = s.tiles := rfl
@[simp] theorem State.setLaunch_released (s : State) (i : Nat) (c : Launch) : (s.setLaunch i c).released = s.released := rfl
@[simp] theorem State.setLaunch_lseq (s : State) (i : Nat) (c : Launch) : (s.setLaunch i c).lseq = s.lseq := rfl
@[simp] theorem State.setLaunch_nextKey (s : State) (i : Nat) (c : Launch) : (s.setLaunch i c).nextKey = s.nextKey := rfl
@[simp] theorem State.setLaunch_saved (s : State) (i : Nat) (c : Launch) : (s.setLaunch i c).saved = s.saved := rfl
@[simp] theorem State.setLaunch_tt (s : State) (i : Nat) (c : Launch) : (s.setLaunch i c).tt = s.tt := rfl
@[simp] theorem State.setLaunch_sessions (s : State) (i : Nat) (c : Launch) : (s.setLaunch i c).sessions = s.sessions := rfl
@[simp] theorem State.setLaunch_classes (s : State) (i : Nat) (c : Launch) : (s.setLaunch i c).classes = s.classes := rfl
@[simp] theorem State.setLaunch_sampctl (s : State) (i : Nat) (c : Launch) : (s.setLaunch i c).sampctl = s.sampctl := rfl
@[simp] theorem State.setLaunch_pulses (s : State) (i : Nat) (c : Launch) : (s.setLaunch i c).pulses = s.pulses := rfl
@[simp] theorem State.setLaunch_pulsed (s : State) (i : Nat) (c : Launch) : (s.setLaunch i c).pulsed = s.pulsed := rfl
@[simp] theorem State.setLaunch_replay (s : State) (i : Nat) (c : Launch) : (s.setLaunch i c).replay = s.replay := rfl
@[simp] theorem State.setLaunch_qmstage (s : State) (i : Nat) (c : Launch) : (s.setLaunch i c).qmstage = s.qmstage := rfl
@[simp] theorem State.setLaunch_qmquota (s : State) (i : Nat) (c : Launch) : (s.setLaunch i c).qmquota = s.qmquota := rfl
@[simp] theorem State.setLaunch_qmtmo (s : State) (i : Nat) (c : Launch) : (s.setLaunch i c).qmtmo = s.qmtmo := rfl
@[simp] theorem State.setLaunch_qmaging (s : State) (i : Nat) (c : Launch) : (s.setLaunch i c).qmaging = s.qmaging := rfl
@[simp] theorem State.setLaunch_qmresid (s : State) (i : Nat) (c : Launch) : (s.setLaunch i c).qmresid = s.qmresid := rfl
@[simp] theorem State.setLaunch_sends (s : State) (i : Nat) (c : Launch) : (s.setLaunch i c).sends = s.sends := rfl
@[simp] theorem State.setLaunch_answers (s : State) (i : Nat) (c : Launch) : (s.setLaunch i c).answers = s.answers := rfl
@[simp] theorem State.setLaunch_host (s : State) (i : Nat) (c : Launch) : (s.setLaunch i c).host = s.host := rfl
@[simp] theorem State.setLaunch_now (s : State) (i : Nat) (c : Launch) : (s.setLaunch i c).now = s.now := rfl
@[simp] theorem State.setLaunch_arith (s : State) (i : Nat) (c : Launch) : (s.setLaunch i c).arith = s.arith := rfl
@[simp] theorem State.setLaunch_cur (s : State) (i : Nat) (c : Launch) : (s.setLaunch i c).cur = s.cur := rfl
@[simp] theorem State.setLaunch_ev (s : State) (i : Nat) (c : Launch) : (s.setLaunch i c).ev = s.ev := rfl
@[simp] theorem State.setLaunch_agenda (s : State) (i : Nat) (c : Launch) : (s.setLaunch i c).agenda = s.agenda := rfl
@[simp] theorem State.setLaunch_free (s : State) (i : Nat) (c : Launch) : (s.setLaunch i c).free = s.free := rfl
@[simp] theorem State.setTT_ctxs (s : State) (i : Nat) (c : TTEntry) : (s.setTT i c).ctxs = s.ctxs := rfl
@[simp] theorem State.setTT_cores (s : State) (i : Nat) (c : TTEntry) : (s.setTT i c).cores = s.cores := rfl
@[simp] theorem State.setTT_clusters (s : State) (i : Nat) (c : TTEntry) : (s.setTT i c).clusters = s.clusters := rfl
@[simp] theorem State.setTT_dies (s : State) (i : Nat) (c : TTEntry) : (s.setTT i c).dies = s.dies := rfl
@[simp] theorem State.setTT_slices (s : State) (i : Nat) (c : TTEntry) : (s.setTT i c).slices = s.slices := rfl
@[simp] theorem State.setTT_stackCmds (s : State) (i : Nat) (c : TTEntry) : (s.setTT i c).stackCmds = s.stackCmds := rfl
@[simp] theorem State.setTT_mem (s : State) (i : Nat) (c : TTEntry) : (s.setTT i c).mem = s.mem := rfl
@[simp] theorem State.setTT_tiles (s : State) (i : Nat) (c : TTEntry) : (s.setTT i c).tiles = s.tiles := rfl
@[simp] theorem State.setTT_launches (s : State) (i : Nat) (c : TTEntry) : (s.setTT i c).launches = s.launches := rfl
@[simp] theorem State.setTT_released (s : State) (i : Nat) (c : TTEntry) : (s.setTT i c).released = s.released := rfl
@[simp] theorem State.setTT_lseq (s : State) (i : Nat) (c : TTEntry) : (s.setTT i c).lseq = s.lseq := rfl
@[simp] theorem State.setTT_nextKey (s : State) (i : Nat) (c : TTEntry) : (s.setTT i c).nextKey = s.nextKey := rfl
@[simp] theorem State.setTT_saved (s : State) (i : Nat) (c : TTEntry) : (s.setTT i c).saved = s.saved := rfl
@[simp] theorem State.setTT_sessions (s : State) (i : Nat) (c : TTEntry) : (s.setTT i c).sessions = s.sessions := rfl
@[simp] theorem State.setTT_classes (s : State) (i : Nat) (c : TTEntry) : (s.setTT i c).classes = s.classes := rfl
@[simp] theorem State.setTT_sampctl (s : State) (i : Nat) (c : TTEntry) : (s.setTT i c).sampctl = s.sampctl := rfl
@[simp] theorem State.setTT_pulses (s : State) (i : Nat) (c : TTEntry) : (s.setTT i c).pulses = s.pulses := rfl
@[simp] theorem State.setTT_pulsed (s : State) (i : Nat) (c : TTEntry) : (s.setTT i c).pulsed = s.pulsed := rfl
@[simp] theorem State.setTT_replay (s : State) (i : Nat) (c : TTEntry) : (s.setTT i c).replay = s.replay := rfl
@[simp] theorem State.setTT_qmstage (s : State) (i : Nat) (c : TTEntry) : (s.setTT i c).qmstage = s.qmstage := rfl
@[simp] theorem State.setTT_qmquota (s : State) (i : Nat) (c : TTEntry) : (s.setTT i c).qmquota = s.qmquota := rfl
@[simp] theorem State.setTT_qmtmo (s : State) (i : Nat) (c : TTEntry) : (s.setTT i c).qmtmo = s.qmtmo := rfl
@[simp] theorem State.setTT_qmaging (s : State) (i : Nat) (c : TTEntry) : (s.setTT i c).qmaging = s.qmaging := rfl
@[simp] theorem State.setTT_qmresid (s : State) (i : Nat) (c : TTEntry) : (s.setTT i c).qmresid = s.qmresid := rfl
@[simp] theorem State.setTT_sends (s : State) (i : Nat) (c : TTEntry) : (s.setTT i c).sends = s.sends := rfl
@[simp] theorem State.setTT_answers (s : State) (i : Nat) (c : TTEntry) : (s.setTT i c).answers = s.answers := rfl
@[simp] theorem State.setTT_host (s : State) (i : Nat) (c : TTEntry) : (s.setTT i c).host = s.host := rfl
@[simp] theorem State.setTT_now (s : State) (i : Nat) (c : TTEntry) : (s.setTT i c).now = s.now := rfl
@[simp] theorem State.setTT_arith (s : State) (i : Nat) (c : TTEntry) : (s.setTT i c).arith = s.arith := rfl
@[simp] theorem State.setTT_cur (s : State) (i : Nat) (c : TTEntry) : (s.setTT i c).cur = s.cur := rfl
@[simp] theorem State.setTT_ev (s : State) (i : Nat) (c : TTEntry) : (s.setTT i c).ev = s.ev := rfl
@[simp] theorem State.setTT_agenda (s : State) (i : Nat) (c : TTEntry) : (s.setTT i c).agenda = s.agenda := rfl
@[simp] theorem State.setTT_free (s : State) (i : Nat) (c : TTEntry) : (s.setTT i c).free = s.free := rfl
@[simp] theorem State.setSession_ctxs (s : State) (i : Nat) (c : Session) : (s.setSession i c).ctxs = s.ctxs := rfl
@[simp] theorem State.setSession_cores (s : State) (i : Nat) (c : Session) : (s.setSession i c).cores = s.cores := rfl
@[simp] theorem State.setSession_clusters (s : State) (i : Nat) (c : Session) : (s.setSession i c).clusters = s.clusters := rfl
@[simp] theorem State.setSession_dies (s : State) (i : Nat) (c : Session) : (s.setSession i c).dies = s.dies := rfl
@[simp] theorem State.setSession_slices (s : State) (i : Nat) (c : Session) : (s.setSession i c).slices = s.slices := rfl
@[simp] theorem State.setSession_stackCmds (s : State) (i : Nat) (c : Session) : (s.setSession i c).stackCmds = s.stackCmds := rfl
@[simp] theorem State.setSession_mem (s : State) (i : Nat) (c : Session) : (s.setSession i c).mem = s.mem := rfl
@[simp] theorem State.setSession_tiles (s : State) (i : Nat) (c : Session) : (s.setSession i c).tiles = s.tiles := rfl
@[simp] theorem State.setSession_launches (s : State) (i : Nat) (c : Session) : (s.setSession i c).launches = s.launches := rfl
@[simp] theorem State.setSession_released (s : State) (i : Nat) (c : Session) : (s.setSession i c).released = s.released := rfl
@[simp] theorem State.setSession_lseq (s : State) (i : Nat) (c : Session) : (s.setSession i c).lseq = s.lseq := rfl
@[simp] theorem State.setSession_nextKey (s : State) (i : Nat) (c : Session) : (s.setSession i c).nextKey = s.nextKey := rfl
@[simp] theorem State.setSession_saved (s : State) (i : Nat) (c : Session) : (s.setSession i c).saved = s.saved := rfl
@[simp] theorem State.setSession_tt (s : State) (i : Nat) (c : Session) : (s.setSession i c).tt = s.tt := rfl
@[simp] theorem State.setSession_classes (s : State) (i : Nat) (c : Session) : (s.setSession i c).classes = s.classes := rfl
@[simp] theorem State.setSession_sampctl (s : State) (i : Nat) (c : Session) : (s.setSession i c).sampctl = s.sampctl := rfl
@[simp] theorem State.setSession_pulses (s : State) (i : Nat) (c : Session) : (s.setSession i c).pulses = s.pulses := rfl
@[simp] theorem State.setSession_pulsed (s : State) (i : Nat) (c : Session) : (s.setSession i c).pulsed = s.pulsed := rfl
@[simp] theorem State.setSession_replay (s : State) (i : Nat) (c : Session) : (s.setSession i c).replay = s.replay := rfl
@[simp] theorem State.setSession_qmstage (s : State) (i : Nat) (c : Session) : (s.setSession i c).qmstage = s.qmstage := rfl
@[simp] theorem State.setSession_qmquota (s : State) (i : Nat) (c : Session) : (s.setSession i c).qmquota = s.qmquota := rfl
@[simp] theorem State.setSession_qmtmo (s : State) (i : Nat) (c : Session) : (s.setSession i c).qmtmo = s.qmtmo := rfl
@[simp] theorem State.setSession_qmaging (s : State) (i : Nat) (c : Session) : (s.setSession i c).qmaging = s.qmaging := rfl
@[simp] theorem State.setSession_qmresid (s : State) (i : Nat) (c : Session) : (s.setSession i c).qmresid = s.qmresid := rfl
@[simp] theorem State.setSession_sends (s : State) (i : Nat) (c : Session) : (s.setSession i c).sends = s.sends := rfl
@[simp] theorem State.setSession_answers (s : State) (i : Nat) (c : Session) : (s.setSession i c).answers = s.answers := rfl
@[simp] theorem State.setSession_host (s : State) (i : Nat) (c : Session) : (s.setSession i c).host = s.host := rfl
@[simp] theorem State.setSession_now (s : State) (i : Nat) (c : Session) : (s.setSession i c).now = s.now := rfl
@[simp] theorem State.setSession_arith (s : State) (i : Nat) (c : Session) : (s.setSession i c).arith = s.arith := rfl
@[simp] theorem State.setSession_cur (s : State) (i : Nat) (c : Session) : (s.setSession i c).cur = s.cur := rfl
@[simp] theorem State.setSession_ev (s : State) (i : Nat) (c : Session) : (s.setSession i c).ev = s.ev := rfl
@[simp] theorem State.setSession_agenda (s : State) (i : Nat) (c : Session) : (s.setSession i c).agenda = s.agenda := rfl
@[simp] theorem State.setSession_free (s : State) (i : Nat) (c : Session) : (s.setSession i c).free = s.free := rfl
@[simp] theorem State.setHandle_ctxs (s : State) (g h : Nat) (c : Handle) : (s.setHandle g h c).ctxs = s.ctxs := rfl
@[simp] theorem State.setHandle_cores (s : State) (g h : Nat) (c : Handle) : (s.setHandle g h c).cores = s.cores := rfl
@[simp] theorem State.setHandle_dies (s : State) (g h : Nat) (c : Handle) : (s.setHandle g h c).dies = s.dies := rfl
@[simp] theorem State.setHandle_slices (s : State) (g h : Nat) (c : Handle) : (s.setHandle g h c).slices = s.slices := rfl
@[simp] theorem State.setHandle_stackCmds (s : State) (g h : Nat) (c : Handle) : (s.setHandle g h c).stackCmds = s.stackCmds := rfl
@[simp] theorem State.setHandle_mem (s : State) (g h : Nat) (c : Handle) : (s.setHandle g h c).mem = s.mem := rfl
@[simp] theorem State.setHandle_tiles (s : State) (g h : Nat) (c : Handle) : (s.setHandle g h c).tiles = s.tiles := rfl
@[simp] theorem State.setHandle_launches (s : State) (g h : Nat) (c : Handle) : (s.setHandle g h c).launches = s.launches := rfl
@[simp] theorem State.setHandle_released (s : State) (g h : Nat) (c : Handle) : (s.setHandle g h c).released = s.released := rfl
@[simp] theorem State.setHandle_lseq (s : State) (g h : Nat) (c : Handle) : (s.setHandle g h c).lseq = s.lseq := rfl
@[simp] theorem State.setHandle_nextKey (s : State) (g h : Nat) (c : Handle) : (s.setHandle g h c).nextKey = s.nextKey := rfl
@[simp] theorem State.setHandle_saved (s : State) (g h : Nat) (c : Handle) : (s.setHandle g h c).saved = s.saved := rfl
@[simp] theorem State.setHandle_tt (s : State) (g h : Nat) (c : Handle) : (s.setHandle g h c).tt = s.tt := rfl
@[simp] theorem State.setHandle_sessions (s : State) (g h : Nat) (c : Handle) : (s.setHandle g h c).sessions = s.sessions := rfl
@[simp] theorem State.setHandle_classes (s : State) (g h : Nat) (c : Handle) : (s.setHandle g h c).classes = s.classes := rfl
@[simp] theorem State.setHandle_sampctl (s : State) (g h : Nat) (c : Handle) : (s.setHandle g h c).sampctl = s.sampctl := rfl
@[simp] theorem State.setHandle_pulses (s : State) (g h : Nat) (c : Handle) : (s.setHandle g h c).pulses = s.pulses := rfl
@[simp] theorem State.setHandle_pulsed (s : State) (g h : Nat) (c : Handle) : (s.setHandle g h c).pulsed = s.pulsed := rfl
@[simp] theorem State.setHandle_replay (s : State) (g h : Nat) (c : Handle) : (s.setHandle g h c).replay = s.replay := rfl
@[simp] theorem State.setHandle_qmstage (s : State) (g h : Nat) (c : Handle) : (s.setHandle g h c).qmstage = s.qmstage := rfl
@[simp] theorem State.setHandle_qmquota (s : State) (g h : Nat) (c : Handle) : (s.setHandle g h c).qmquota = s.qmquota := rfl
@[simp] theorem State.setHandle_qmtmo (s : State) (g h : Nat) (c : Handle) : (s.setHandle g h c).qmtmo = s.qmtmo := rfl
@[simp] theorem State.setHandle_qmaging (s : State) (g h : Nat) (c : Handle) : (s.setHandle g h c).qmaging = s.qmaging := rfl
@[simp] theorem State.setHandle_qmresid (s : State) (g h : Nat) (c : Handle) : (s.setHandle g h c).qmresid = s.qmresid := rfl
@[simp] theorem State.setHandle_sends (s : State) (g h : Nat) (c : Handle) : (s.setHandle g h c).sends = s.sends := rfl
@[simp] theorem State.setHandle_answers (s : State) (g h : Nat) (c : Handle) : (s.setHandle g h c).answers = s.answers := rfl
@[simp] theorem State.setHandle_host (s : State) (g h : Nat) (c : Handle) : (s.setHandle g h c).host = s.host := rfl
@[simp] theorem State.setHandle_now (s : State) (g h : Nat) (c : Handle) : (s.setHandle g h c).now = s.now := rfl
@[simp] theorem State.setHandle_arith (s : State) (g h : Nat) (c : Handle) : (s.setHandle g h c).arith = s.arith := rfl
@[simp] theorem State.setHandle_cur (s : State) (g h : Nat) (c : Handle) : (s.setHandle g h c).cur = s.cur := rfl
@[simp] theorem State.setHandle_ev (s : State) (g h : Nat) (c : Handle) : (s.setHandle g h c).ev = s.ev := rfl
@[simp] theorem State.setHandle_agenda (s : State) (g h : Nat) (c : Handle) : (s.setHandle g h c).agenda = s.agenda := rfl
@[simp] theorem State.setHandle_free (s : State) (g h : Nat) (c : Handle) : (s.setHandle g h c).free = s.free := rfl
@[simp] theorem State.setXr_cores (s : State) (r : Reg) (v : Word) : (s.setXr r v).cores = s.cores := rfl
@[simp] theorem State.setXr_clusters (s : State) (r : Reg) (v : Word) : (s.setXr r v).clusters = s.clusters := rfl
@[simp] theorem State.setXr_dies (s : State) (r : Reg) (v : Word) : (s.setXr r v).dies = s.dies := rfl
@[simp] theorem State.setXr_slices (s : State) (r : Reg) (v : Word) : (s.setXr r v).slices = s.slices := rfl
@[simp] theorem State.setXr_stackCmds (s : State) (r : Reg) (v : Word) : (s.setXr r v).stackCmds = s.stackCmds := rfl
@[simp] theorem State.setXr_mem (s : State) (r : Reg) (v : Word) : (s.setXr r v).mem = s.mem := rfl
@[simp] theorem State.setXr_tiles (s : State) (r : Reg) (v : Word) : (s.setXr r v).tiles = s.tiles := rfl
@[simp] theorem State.setXr_launches (s : State) (r : Reg) (v : Word) : (s.setXr r v).launches = s.launches := rfl
@[simp] theorem State.setXr_released (s : State) (r : Reg) (v : Word) : (s.setXr r v).released = s.released := rfl
@[simp] theorem State.setXr_lseq (s : State) (r : Reg) (v : Word) : (s.setXr r v).lseq = s.lseq := rfl
@[simp] theorem State.setXr_nextKey (s : State) (r : Reg) (v : Word) : (s.setXr r v).nextKey = s.nextKey := rfl
@[simp] theorem State.setXr_saved (s : State) (r : Reg) (v : Word) : (s.setXr r v).saved = s.saved := rfl
@[simp] theorem State.setXr_tt (s : State) (r : Reg) (v : Word) : (s.setXr r v).tt = s.tt := rfl
@[simp] theorem State.setXr_sessions (s : State) (r : Reg) (v : Word) : (s.setXr r v).sessions = s.sessions := rfl
@[simp] theorem State.setXr_classes (s : State) (r : Reg) (v : Word) : (s.setXr r v).classes = s.classes := rfl
@[simp] theorem State.setXr_sampctl (s : State) (r : Reg) (v : Word) : (s.setXr r v).sampctl = s.sampctl := rfl
@[simp] theorem State.setXr_pulses (s : State) (r : Reg) (v : Word) : (s.setXr r v).pulses = s.pulses := rfl
@[simp] theorem State.setXr_pulsed (s : State) (r : Reg) (v : Word) : (s.setXr r v).pulsed = s.pulsed := rfl
@[simp] theorem State.setXr_replay (s : State) (r : Reg) (v : Word) : (s.setXr r v).replay = s.replay := rfl
@[simp] theorem State.setXr_qmstage (s : State) (r : Reg) (v : Word) : (s.setXr r v).qmstage = s.qmstage := rfl
@[simp] theorem State.setXr_qmquota (s : State) (r : Reg) (v : Word) : (s.setXr r v).qmquota = s.qmquota := rfl
@[simp] theorem State.setXr_qmtmo (s : State) (r : Reg) (v : Word) : (s.setXr r v).qmtmo = s.qmtmo := rfl
@[simp] theorem State.setXr_qmaging (s : State) (r : Reg) (v : Word) : (s.setXr r v).qmaging = s.qmaging := rfl
@[simp] theorem State.setXr_qmresid (s : State) (r : Reg) (v : Word) : (s.setXr r v).qmresid = s.qmresid := rfl
@[simp] theorem State.setXr_sends (s : State) (r : Reg) (v : Word) : (s.setXr r v).sends = s.sends := rfl
@[simp] theorem State.setXr_answers (s : State) (r : Reg) (v : Word) : (s.setXr r v).answers = s.answers := rfl
@[simp] theorem State.setXr_host (s : State) (r : Reg) (v : Word) : (s.setXr r v).host = s.host := rfl
@[simp] theorem State.setXr_now (s : State) (r : Reg) (v : Word) : (s.setXr r v).now = s.now := rfl
@[simp] theorem State.setXr_arith (s : State) (r : Reg) (v : Word) : (s.setXr r v).arith = s.arith := rfl
@[simp] theorem State.setXr_cur (s : State) (r : Reg) (v : Word) : (s.setXr r v).cur = s.cur := rfl
@[simp] theorem State.setXr_ev (s : State) (r : Reg) (v : Word) : (s.setXr r v).ev = s.ev := rfl
@[simp] theorem State.setXr_agenda (s : State) (r : Reg) (v : Word) : (s.setXr r v).agenda = s.agenda := rfl
@[simp] theorem State.setXr_free (s : State) (r : Reg) (v : Word) : (s.setXr r v).free = s.free := rfl

@[simp] theorem State.setCtx_me (s : State) (c : Ctx) : (s.setCtx s.cur c).cur = s.cur := rfl
/-- A context's own update changes no other unit's table. -/
theorem State.setCtx_frame (s : State) (i : Nat) (c : Ctx) : { (s.setCtx i c) with ctxs := s.ctxs } = s := rfl
theorem State.modCtx_frame (s : State) (i : Nat) (f : Ctx → Ctx) : { (s.modCtx i f) with ctxs := s.ctxs } = s := rfl

end Sys2Proof.Machine
end

