-- ==== Sys2Proof/Laws/Ops.lean ====
section
/-! SUPPORT. The shared operations, once each: how a meaning's result ends an instruction, what completion in sequence does, what taking
an exception does, and the waits. -/

namespace Sys2Proof.Machine

@[simp] theorem State.done_ok (s t : State) : s.done (.ok t) = .next t.retire := rfl
@[simp] theorem State.done_jump (s t : State) (pc : Word) : s.done (.error (.jump t pc)) = .next (t.retireTo pc) := rfl
@[simp] theorem State.done_left (s t : State) : s.done (.error (.left t)) = .next t := rfl
@[simp] theorem State.done_halt (s : State) : s.done (.error .halt) = .next (s.haltHit s.cur) := rfl
@[simp] theorem State.done_exc (s : State) (c : Nat) (v : Word) : s.done (.error (.exc c v)) = .next (s.raise c v) := rfl
@[simp] theorem State.done_trap (s : State) (c : Nat) (v : Word) : s.done (trap c v) = .next (s.raise c v) := rfl
@[simp] theorem State.done_illegal (s : State) (i : Instr) : s.done (illegal i) = .next (s.raise 2 (wordOf i)) := rfl
/-- Every meaning that ends through `done` answers a next state. -/
theorem State.done_next (s : State) (r : Res) : ∃ t, s.done r = .next t := ⟨_, rfl⟩
theorem State.done_map_next (s : State) (r : Res) : s.done r = .next (s.finish r) := rfl

@[simp] theorem State.me_setCtx (s : State) (c : Ctx) : (s.setCtx s.cur c).me = c := by simp [State.me]
@[simp] theorem State.me_modCtx (s : State) (f : Ctx → Ctx) : (s.modCtx s.cur f).me = f s.me := by simp [State.me]
@[simp] theorem State.me_setXr (s : State) (r : Reg) (v : Word) : (s.setXr r v).me = s.me.setX r v := by simp [State.setXr]
@[simp] theorem State.cur_setXr (s : State) (r : Reg) (v : Word) : (s.setXr r v).cur = s.cur := rfl

/-- Changing one context changes only that context. -/
theorem onlyCtx_modCtx (s : State) (i : Nat) (f : Ctx → Ctx) : OnlyCtx s (s.modCtx i f) i :=
  ⟨rfl, fun _ h => State.ctx_modCtx_ne s i _ f h⟩
theorem onlyCtx_setCtx (s : State) (i : Nat) (c : Ctx) : OnlyCtx s (s.setCtx i c) i :=
  ⟨rfl, fun _ h => by rw [State.ctx_setCtx, if_neg h]⟩

theorem Ctx.atLoopEnd_iff (c : Ctx) : c.AtLoopEnd ↔ (c.loopHere && c.pc == c.loopEnd) = true := by
  unfold Ctx.AtLoopEnd Ctx.loopHere Ctx.loopArmed Ctx.loopEnd Ctx.loopLen bit bits word
  rcases c.priv <;> simp [BitVec.extractLsb'_toNat] <;> tauto

theorem Ctx.loopCount_eq (c : Ctx) : c.loopCount = (c.qloop.extractLsb' 0 32).toNat := by
  simp [Ctx.loopCount, bits, BitVec.extractLsb'_toNat]

/-- What completion in sequence does to a context (R103, R111). -/
theorem Ctx.counted_advance_goesOn (c : Ctx) : c.GoesOn c.counted.advance := by
  have hc : c.counted.AtLoopEnd ↔ c.AtLoopEnd := Iff.rfl
  unfold Ctx.GoesOn
  rw [← Ctx.loopCount_eq, ← hc, Ctx.atLoopEnd_iff]
  unfold Ctx.advance
  by_cases h : (c.counted.loopHere && c.counted.pc == c.counted.loopEnd) = true
  · by_cases k : 1 < c.counted.loopCount
    · have k' : 1 < c.loopCount := k
      rw [if_pos h, if_pos k]
      refine ⟨rfl, rfl, rfl, fun _ _ => ⟨rfl, rfl⟩, fun _ q => absurd k' (by omega), fun q => absurd h q⟩
    · have k' : ¬ 1 < c.loopCount := k
      rw [if_pos h, if_neg k]
      refine ⟨rfl, rfl, rfl, fun _ q => absurd q k', fun _ _ => ⟨rfl, rfl⟩, fun q => absurd h q⟩
  · rw [if_neg h]
    exact ⟨rfl, rfl, rfl, fun q => absurd q h, fun q => absurd q h, fun _ => ⟨rfl, rfl⟩⟩

/-- What completion in sequence leaves of a context. -/
theorem Ctx.counted_advance_frame (c : Ctx) :
    c.counted.advance = { c with pc := c.counted.advance.pc, qloop := c.counted.advance.qloop, instret := c.counted.advance.instret,
                                 haltReq := c.counted.advance.haltReq, stepReq := c.counted.advance.stepReq } := by
  unfold Ctx.advance
  split
  · split <;> rfl
  · rfl

/-- What completing in sequence does to a state. -/
theorem completed_retire (u : State) : Completed u u.retire := by
  have h : u.retire.me = u.me.counted.advance := State.me_modCtx u _
  refine ⟨onlyCtx_modCtx u u.cur fun c => c.counted.advance, ?_, ?_⟩
  · rw [h]; exact Ctx.counted_advance_frame u.me
  · rw [h]; exact Ctx.counted_advance_goesOn u.me

/-- What completing with a redirection does to a state. -/
theorem redirected_retireTo (u : State) (pc : Word) : Redirected u (u.retireTo pc) pc := by
  have h : (u.retireTo pc).me = { u.me.counted with pc := pc } := State.me_modCtx u _
  refine ⟨onlyCtx_modCtx u _ _, ?_, ?_⟩ <;> rw [h] <;> rfl

/-- What leaving the rotation does. -/
theorem waits_leave (s : State) (k : WaitKind) (op0 op1 : Word) (rd : Reg) (obj : Xlat) (d : Option Nat) :
    Waits s (s.leave k op0 op1 rd obj d) k := by
  have h : (s.leave k op0 op1 rd obj d).me = { s.me with status := .waiting, wait := some ⟨k, op0, op1, rd, obj, s.now, d⟩, wake := none } :=
    State.me_modCtx s _
  refine ⟨onlyCtx_modCtx s _ _, ?_, ?_, ?_, ?_⟩ <;> simp [h]

/-- A write of an x register changes only the issuing context. -/
theorem onlyCtx_setXr (s : State) (r : Reg) (v : Word) : OnlyCtx s (s.setXr r v) s.cur := onlyCtx_modCtx s _ _

end Sys2Proof.Machine
end

