-- ==== Sys2Proof/Laws/Vector.lean ====
section
/-! SUPPORT. The vector registers: what a merge of elements writes and leaves, and what writing elements does to the state. -/

namespace Sys2Proof.Machine

@[simp] theorem State.me_setVr (s : State) (f : Reg) (v : VReg) : (s.setVr f v).me = s.me := rfl
@[simp] theorem State.cur_setVr (s : State) (f : Reg) (v : VReg) : (s.setVr f v).cur = s.cur := rfl

theorem State.vregAt_setVreg (s : State) (g n h m : Nat) (v : VReg) :
    (s.setVreg g n v).vregAt h m = if h = g ∧ m = n then v else s.vregAt h m := by
  unfold State.vregAt State.setVreg
  by_cases hg : h = g
  · subst hg
    rw [State.cluster_modCluster_self]
    simp only [tfind_tput, true_and]
    split <;> rfl
  · rw [State.cluster_modCluster_ne _ _ _ _ hg]
    simp [hg]

@[simp] theorem State.vr_setVr (s : State) (f : Reg) (v : VReg) : (s.setVr f v).vr f = v := by
  have h : (s.setVr f v).vr f = (s.setVr f v).vregAt (clusterOf s.cur) (s.me.winBase + s.me.rot + f.toNat) := rfl
  rw [h, State.setVr, State.vregAt_setVreg, if_pos ⟨rfl, rfl⟩]

theorem packElems_lt (w : Nat) (xs : List Nat) : packElems w xs < 2 ^ (w * xs.length) := by
  induction xs with
  | nil => simp [packElems]
  | cons x t ih =>
    have e : packElems w (x :: t) = x % 2 ^ w + packElems w t * 2 ^ w := rfl
    have hx : x % 2 ^ w < 2 ^ w := Nat.mod_lt _ (by positivity)
    rw [e, List.length_cons, Nat.mul_succ, pow_add]
    nlinarith [Nat.mul_le_mul_right (2 ^ w) (Nat.succ_le_of_lt ih)]

theorem packElems_get (w : Nat) (xs : List Nat) (i : Nat) (h : i < xs.length) :
    packElems w xs / 2 ^ (w * i) % 2 ^ w = xs[i] % 2 ^ w := by
  induction xs generalizing i with
  | nil => simp at h
  | cons x t ih =>
    have e : packElems w (x :: t) = x % 2 ^ w + packElems w t * 2 ^ w := rfl
    cases i with
    | zero => simp [e]
    | succ k =>
      have hk : k < t.length := by simpa using h
      have p : 0 < 2 ^ w := by positivity
      rw [e, Nat.mul_succ, Nat.add_comm, pow_add, mul_comm (2 ^ (w * k)), ← Nat.div_div_eq_div_mul, Nat.add_div_of_dvd_right (Dvd.intro_left _ rfl),
        Nat.mul_div_cancel _ p, Nat.div_eq_of_lt (Nat.mod_lt _ p), Nat.add_zero]
      simpa using ih k hk

/-- The element of a merged register: the value given, or the old one. -/
theorem velem_vmerge (old : VReg) (w : Nat) (xs : List (Option Nat)) (i : Nat) (h : i < xs.length) (f : w * (i + 1) ≤ 8192) :
    velem (vmerge old w xs) w i = (xs[i].getD (velem old w i)) % 2 ^ w := by
  let ys := xs.mapIdx fun i x => x.getD (velem old w i)
  have hl : ys.length = xs.length := by simp [ys]
  have hy : ys[i]'(by omega) = xs[i].getD (velem old w i) := by simp [ys]
  have e : vmerge old w xs = BitVec.ofNat 8192 (old.toNat >>> (w * xs.length) <<< (w * xs.length) + packElems w ys) := rfl
  have u : velem (vmerge old w xs) w i = (vmerge old w xs).toNat >>> (w * i) % 2 ^ w := rfl
  rw [u, e, BitVec.toNat_ofNat, Nat.shiftRight_eq_div_pow _ (w * i), ← hy, ← packElems_get w ys i (by omega)]
  have hw : w * i + w = w * (i + 1) := by ring
  have a : ∀ n : Nat, n % 2 ^ 8192 / 2 ^ (w * i) % 2 ^ w = n / 2 ^ (w * i) % 2 ^ w := by
    intro n
    apply Nat.eq_of_testBit_eq
    intro j
    simp only [Nat.testBit_mod_two_pow, Nat.testBit_div_two_pow]
    by_cases hj : j < w
    · have : j + w * i < 8192 := by omega
      simp [hj, this]
    · simp [hj]
  rw [a, Nat.shiftLeft_eq]
  obtain ⟨d, hd⟩ : ∃ d, xs.length = i + 1 + d := ⟨xs.length - (i + 1), by omega⟩
  have q : old.toNat >>> (w * xs.length) * 2 ^ (w * xs.length) = 2 ^ (w * i) * (2 ^ w * (old.toNat >>> (w * xs.length) * 2 ^ (w * d))) := by
    rw [hd]; ring
  rw [q, Nat.add_comm, Nat.add_mul_div_left _ _ (by positivity), Nat.add_mul_mod_self_left]

/-- A merge leaves the bits above its elements. -/
theorem vmerge_above (old : VReg) (w : Nat) (xs : List (Option Nat)) (j : Nat) (h : w * xs.length ≤ j) :
    (vmerge old w xs).getLsbD j = old.getLsbD j := by
  let ys := xs.mapIdx fun i x => x.getD (velem old w i)
  have hl : ys.length = xs.length := by simp [ys]
  have e : vmerge old w xs = BitVec.ofNat 8192 (old.toNat >>> (w * xs.length) <<< (w * xs.length) + packElems w ys) := rfl
  have lt := packElems_lt w ys
  rw [hl] at lt
  rw [e, BitVec.getLsbD_ofNat, Nat.shiftLeft_add_eq_or_of_lt lt, Nat.testBit_or, Nat.testBit_lt_two_pow (lt_of_lt_of_le lt (Nat.pow_le_pow_right (by omega) h)),
    Nat.testBit_shiftLeft, Nat.testBit_shiftRight]
  have k : w * xs.length + (j - w * xs.length) = j := by omega
  rw [k]
  by_cases b : j < 8192
  · simp [b, h, BitVec.getLsbD]
  · have : old.toNat.testBit j = false := Nat.testBit_lt_two_pow (lt_of_lt_of_le old.isLt (Nat.pow_le_pow_right (by omega) (by omega)))
    simp [b, BitVec.getLsbD, this]

/-- The flags that a write of elements raises. -/
def elemFlags (xs : List (Option (Nat × Flags))) : Flags :=
  xs.foldl (fun (f : Flags) o => match o with
    | some p => f ||| p.2
    | none => f) 0

theorem elemOut_mod (e x : Nat) : elemOut e x % 2 ^ etypeWidth e = elemOut e x := by
  unfold elemOut
  split
  · subst e
    exact Nat.mod_eq_of_lt (lt_of_lt_of_le (Nat.mod_lt x (by decide)) (by decide))
  · exact Nat.mod_mod _ _

/-- Everything that writing elements of a register does (R147). -/
theorem elementsWritten_putElems (s : State) (vd : Reg) (xs : List (Option (Nat × Flags))) :
    ElementsWritten s (s.putElems vd xs) vd s.vw xs.length (fun i => (xs[i]?.getD none).map fun p => elemOut s.me.etype p.1)
      ((elemFlags xs).setWidth 64) := by
  let m := vmerge (s.vr vd) s.vw (xs.map fun o => o.map fun p => elemOut s.me.etype p.1)
  have e : s.putElems vd xs = (s.setVr vd m).modCtx s.cur fun c => c.orQvstat (elemFlags xs) := rfl
  have me : (s.putElems vd xs).me = s.me.orQvstat (elemFlags xs) := by rw [e]; exact State.me_modCtx (s.setVr vd m) _
  have vr : (s.putElems vd xs).vr vd = m := by
    have a : (s.putElems vd xs).vr vd = (s.setVr vd m).vregAt (clusterOf s.cur)
      ((s.putElems vd xs).me.winBase + (s.putElems vd xs).me.rot + vd.toNat) := rfl
    rw [a, me]
    exact State.vr_setVr s vd m
  refine ⟨rfl, ?_, by rw [me]; rfl, ?_, ?_, ?_, ?_⟩
  · intro j hj
    rw [e]
    exact State.ctx_modCtx_ne _ _ _ _ hj
  · intro g
    have a : (s.putElems vd xs).cluster g = (s.setVr vd m).cluster g := rfl
    rw [a, State.setVr, State.setVreg]
    by_cases hg : g = clusterOf s.cur
    · subst hg; rw [State.cluster_modCluster_self]
    · rw [State.cluster_modCluster_ne _ _ _ _ hg]
  · intro i hi hw
    rw [vr, velem_vmerge _ _ _ _ (by simpa using hi) hw]
    have lt : velem (s.vr vd) s.vw i % 2 ^ s.vw = velem (s.vr vd) s.vw i := Nat.mod_mod _ _
    have q : xs[i]?.getD none = xs[i] := by simp [hi]
    simp only [List.getElem_map, q]
    rcases xs[i] with _ | p
    · exact lt
    · exact elemOut_mod _ _
  · intro j hj
    rw [vr]
    exact vmerge_above _ _ _ _ (by simpa using hj)
  · intro g j h
    have a : (s.putElems vd xs).vregAt g j = (s.setVr vd m).vregAt g j := rfl
    rw [a, State.setVr, State.vregAt_setVreg, if_neg]
    intro q
    exact h (by rw [q.1, q.2])

/-- Every element of the frame of R147 is written by the frame operation, which then enters the queue. -/
theorem vecMap_eq (s : State) (vd : Reg) (mk : BitVec 3) (cost : Nat) (r : Nat → Nat × Flags) :
    s.vecMap vd mk cost r =
      (s.putElems vd ((List.range s.me.vl).map fun i => if (s.me.mask mk).getLsbD i then some (r i) else none)).enqueueE s.vw s.me.vl cost := rfl

end Sys2Proof.Machine
end

