-- ==== Sys2Proof/Laws/Access.lean ====
section
/-! SUPPORT. What a translation and the checks of an access can change: the translations that the clusters hold, and nothing else. -/

namespace Sys2Proof.Machine

/-- Nothing changes but translations that clusters hold. -/
def OnlyTlbs (s u : State) : Prop :=
  u = { s with clusters := u.clusters } ∧ ∀ g, u.cluster g = { s.cluster g with tlb := (u.cluster g).tlb }

theorem OnlyTlbs.refl (s : State) : OnlyTlbs s s := ⟨rfl, fun _ => rfl⟩

theorem OnlyTlbs.trans {s u v : State} (a : OnlyTlbs s u) (b : OnlyTlbs u v) : OnlyTlbs s v := by
  refine ⟨?_, fun g => ?_⟩
  · rw [b.1, a.1]
  · rw [b.2 g, a.2 g]

theorem OnlyTlbs.mem {s u : State} (h : OnlyTlbs s u) : u.mem = s.mem := by rw [h.1]
theorem OnlyTlbs.cur {s u : State} (h : OnlyTlbs s u) : u.cur = s.cur := by rw [h.1]
theorem OnlyTlbs.ctx {s u : State} (h : OnlyTlbs s u) (i : Nat) : u.ctx i = s.ctx i := by rw [h.1]; rfl
theorem OnlyTlbs.me {s u : State} (h : OnlyTlbs s u) : u.me = s.me := by
  have : u.me = u.ctx u.cur := rfl
  rw [this, h.cur, h.ctx]; rfl
theorem OnlyTlbs.xr {s u : State} (h : OnlyTlbs s u) (r : Reg) : u.xr r = s.xr r := by unfold State.xr; rw [h.me]
theorem OnlyTlbs.core {s u : State} (h : OnlyTlbs s u) (k : Nat) : u.core k = s.core k := by rw [h.1]; rfl
theorem OnlyTlbs.die {s u : State} (h : OnlyTlbs s u) (k : Nat) : u.die k = s.die k := by rw [h.1]; rfl

/-- A translation changes no more than the translations that its cluster holds. -/
theorem xlate_frame (s u : State) (v : View) (nd : Need) (va : Nat) (x : Xlat) (h : s.xlate v nd va = .ok (u, x)) : OnlyTlbs s u := by
  unfold State.xlate at h
  split at h
  · split at h
    · cases h
    · cases h; exact .refl s
  · split at h
    · cases h
    · simp only [] at h
      have fresh : ∀ (r : Except XErr (State × Xlat)), (do
          let (p, a, lg) ← s.walk v 4 3 (bits v.satp 43 0 * 4096) va
          let x ← s.leaf v nd va p a lg
          let e : TlbEntry := ⟨va >>> lg <<< lg, lg, bits v.satp 59 44, bit p 5, p, a⟩
          if v.g < Config.clusterCount then
            .ok (s.modCluster v.g fun c => { c with tlb := e :: c.tlb.filter (fun t => !(t.va == e.va && t.asid == e.asid)) }, x)
          else .ok (s, x)) = r → r = .ok (u, x) → OnlyTlbs s u := by
        intro r hr h
        subst hr
        rcases hw : s.walk v 4 3 (bits v.satp 43 0 * 4096) va with e | ⟨p, a, lg⟩
        · rw [hw] at h; cases h
        · rw [hw] at h
          simp only [bind, Except.bind] at h
          rcases hl : s.leaf v nd va p a lg with e | y
          · rw [hl] at h; cases h
          · rw [hl] at h
            simp only [] at h
            split at h
            · cases h
              refine ⟨rfl, fun g => ?_⟩
              by_cases hg : g = v.g
              · subst hg; rw [State.cluster_modCluster_self]
              · rw [State.cluster_modCluster_ne _ _ _ _ hg]
            · cases h; exact .refl s
      split at h
      · split at h
        · cases h; exact .refl s
        · exact fresh _ rfl h
      · exact fresh _ rfl h

theorem accessV_frame (s u : State) (v : View) (cls : Cls) (nd : Need) (k : AccKind) (va n : Nat) (x : Xlat)
    (h : s.accessV v cls nd k va n = .ok (u, x)) : OnlyTlbs s u := by
  unfold State.accessV at h
  rcases hx : s.xlate v nd va with e | ⟨w, y⟩
  · rw [hx] at h; cases h
  · rw [hx] at h
    simp only [] at h
    have f := xlate_frame s w v nd va y hx
    split at h
    · cases h
    · split at h
      · cases h; exact f
      · cases h

theorem access_frame (s u : State) (cls : Cls) (nd : Need) (k : AccKind) (va n : Nat) (x : Xlat)
    (h : s.access cls nd k va n = .ok (u, x)) : OnlyTlbs s u := by
  unfold State.access at h
  rcases hx : s.accessV (s.view s.cur) cls nd k va n with e | ⟨w, y⟩
  · rw [hx] at h; cases h
  · rw [hx] at h
    simp only [bind, Except.bind] at h
    split at h
    · cases h
    · cases h; exact accessV_frame s u _ cls nd k va n x hx

theorem need_ok {b : Bool} {c : Nat} {v : Word} (h : need b c v = .ok ()) : b = true := by
  unfold need at h
  split at h
  · assumption
  · cases h

/-- What the checks of a scalar load change. -/
theorem loadCheck_frame (s u : State) (va : Word) (n : Nat) (x : Xlat) (h : s.loadCheck va n = .ok (u, x)) : OnlyTlbs s u := by
  unfold State.loadCheck at h
  simp only [bind, Except.bind] at h
  split at h
  · cases h
  · split at h
    · cases h
    · rename_i w hw
      split at h
      · cases h
      · split at h
        · cases h
        · cases h; exact access_frame _ _ _ _ _ _ _ _ hw

/-- What the checks of a scalar store change. -/
theorem storeCheck_frame (s u : State) (va : Word) (n : Nat) (x : Xlat) (h : s.storeCheck va n = .ok (u, x)) : OnlyTlbs s u := by
  unfold State.storeCheck at h
  simp only [bind, Except.bind] at h
  split at h
  · cases h
  · split at h
    · cases h
    · rename_i w hw
      split at h
      · cases h
      · cases h; exact access_frame _ _ _ _ _ _ _ _ hw

/-- What the checks of an atomic access change. -/
theorem atomicCheck_frame (s u : State) (cls : Cls) (nd : Need) (st : Bool) (va : Word) (n : Nat) (x : Xlat)
    (h : s.atomicCheck cls nd st va n = .ok (u, x)) : OnlyTlbs s u := by
  unfold State.atomicCheck at h
  simp only [bind, Except.bind] at h
  split at h
  · cases h
  · split at h
    · cases h
    · rename_i w hw
      split at h
      · cases h
      · split at h
        · cases h
        · split at h
          · cases h
          · cases h; exact accessV_frame _ _ _ _ _ _ _ _ _ hw

/-- A thread for which no sealed copy hides a byte of a scratchpad sees the state as it is. -/
theorem veiled_of_veils (s : State) (h : Nat) (task : Word) (e : s.veils h (some task) = []) : s.veiled h task = s := by
  unfold State.veiled
  rw [e]

/-- A read of raw scratchpad bytes changes nothing, and where no sealed copy hides one of them it gives the bytes. -/
theorem readMem_scratch (s : State) (g h off : Nat) (tid : BitVec 12) (task : Word) (x : Xlat) (n : Nat) (r : regionOf x.pa = .scratch 0 h off)
    (e : s.veils h (some task) = []) : s.readMem g tid task x n = (s, mread s.mem (scratchAddr h off) n) := by
  unfold State.readMem
  rw [r]
  simp [veiled_of_veils s h task e]

/-- Losing reservations changes no byte of memory. -/
theorem loseReservations_mem (s : State) (l : Nat) (a b : Option Nat) (w : Wake) : (s.loseReservations l a b w).mem = s.mem := rfl
theorem loseAt_mem (s : State) (pa n : Nat) (k : Option Nat) (w : Wake) : (s.loseAt pa n k w).mem = s.mem := rfl

/-- A write of raw scratchpad bytes changes exactly those bytes of memory. -/
theorem writeMem_scratch_mem (s : State) (g h off : Nat) (tid : BitVec 12) (x : Xlat) (n v : Nat) (k : Option Nat) (w : Wake) (l : Nat)
    (r : regionOf x.pa = .scratch 0 h off) : (s.writeMem g tid x n v k w l).mem = mwrite s.mem (scratchAddr h off) n v := by
  unfold State.writeMem
  rw [r]
  simp [loseAt_mem]

end Sys2Proof.Machine
end

