-- ==== Sys2Proof/Laws/Units.lean ====
section
/-! SUPPORT. Reading one kind of unit after changing another gives what it was, and a second change of one unit replaces the first. -/

namespace Sys2Proof.Machine

/-- Writing a key twice leaves the second value. -/
@[simp] theorem tput_tput {α : Type} (m : Table α) (k : Nat) (v w : α) : tput (tput m k v) k w = tput m k w := by
  induction m with
  | nil => simp [tput]
  | cons p t ih =>
    obtain ⟨a, x⟩ := p
    simp only [tput]
    by_cases h : a = k
    · simp [h, tput]
    · by_cases h2 : k < a
      · simp [h, h2, tput]
      · simp [h, h2, tput, ih]

/-- `bits` is the field that `extractLsb'` names. -/
theorem bits_eq {n : Nat} (x : BitVec n) (hi lo : Nat) : bits x hi lo = (x.extractLsb' lo (hi + 1 - lo)).toNat := by
  simp [bits, BitVec.extractLsb'_toNat]

@[simp] theorem State.ctx_setCore (s : State) (i j : Nat) (c : Core) : (s.setCore i c).ctx j = s.ctx j := rfl
@[simp] theorem State.ctx_modCore (s : State) (i j : Nat) (f : Core → Core) : (s.modCore i f).ctx j = s.ctx j := rfl
@[simp] theorem State.ctx_setCluster (s : State) (i j : Nat) (c : Cluster) : (s.setCluster i c).ctx j = s.ctx j := rfl
@[simp] theorem State.ctx_modCluster (s : State) (i j : Nat) (f : Cluster → Cluster) : (s.modCluster i f).ctx j = s.ctx j := rfl
@[simp] theorem State.ctx_setDie (s : State) (i j : Nat) (c : Die) : (s.setDie i c).ctx j = s.ctx j := rfl
@[simp] theorem State.ctx_modDie (s : State) (i j : Nat) (f : Die → Die) : (s.modDie i f).ctx j = s.ctx j := rfl
@[simp] theorem State.ctx_setSlice (s : State) (i j : Nat) (c : Slice) : (s.setSlice i c).ctx j = s.ctx j := rfl
@[simp] theorem State.ctx_modSlice (s : State) (i j : Nat) (f : Slice → Slice) : (s.modSlice i f).ctx j = s.ctx j := rfl
@[simp] theorem State.ctx_setStack (s : State) (i j : Nat) (c : List StackCmd) : (s.setStack i c).ctx j = s.ctx j := rfl
@[simp] theorem State.ctx_setLaunch (s : State) (i j : Nat) (c : Launch) : (s.setLaunch i c).ctx j = s.ctx j := rfl
@[simp] theorem State.ctx_setTT (s : State) (i j : Nat) (c : TTEntry) : (s.setTT i c).ctx j = s.ctx j := rfl
@[simp] theorem State.ctx_setSession (s : State) (i j : Nat) (c : Session) : (s.setSession i c).ctx j = s.ctx j := rfl
@[simp] theorem State.core_setCtx (s : State) (i j : Nat) (c : Ctx) : (s.setCtx i c).core j = s.core j := rfl
@[simp] theorem State.core_modCtx (s : State) (i j : Nat) (f : Ctx → Ctx) : (s.modCtx i f).core j = s.core j := rfl
@[simp] theorem State.core_setCluster (s : State) (i j : Nat) (c : Cluster) : (s.setCluster i c).core j = s.core j := rfl
@[simp] theorem State.core_modCluster (s : State) (i j : Nat) (f : Cluster → Cluster) : (s.modCluster i f).core j = s.core j := rfl
@[simp] theorem State.core_setDie (s : State) (i j : Nat) (c : Die) : (s.setDie i c).core j = s.core j := rfl
@[simp] theorem State.core_modDie (s : State) (i j : Nat) (f : Die → Die) : (s.modDie i f).core j = s.core j := rfl
@[simp] theorem State.core_setSlice (s : State) (i j : Nat) (c : Slice) : (s.setSlice i c).core j = s.core j := rfl
@[simp] theorem State.core_modSlice (s : State) (i j : Nat) (f : Slice → Slice) : (s.modSlice i f).core j = s.core j := rfl
@[simp] theorem State.core_setStack (s : State) (i j : Nat) (c : List StackCmd) : (s.setStack i c).core j = s.core j := rfl
@[simp] theorem State.core_setLaunch (s : State) (i j : Nat) (c : Launch) : (s.setLaunch i c).core j = s.core j := rfl
@[simp] theorem State.core_setTT (s : State) (i j : Nat) (c : TTEntry) : (s.setTT i c).core j = s.core j := rfl
@[simp] theorem State.core_setSession (s : State) (i j : Nat) (c : Session) : (s.setSession i c).core j = s.core j := rfl
@[simp] theorem State.cluster_setCtx (s : State) (i j : Nat) (c : Ctx) : (s.setCtx i c).cluster j = s.cluster j := rfl
@[simp] theorem State.cluster_modCtx (s : State) (i j : Nat) (f : Ctx → Ctx) : (s.modCtx i f).cluster j = s.cluster j := rfl
@[simp] theorem State.cluster_setCore (s : State) (i j : Nat) (c : Core) : (s.setCore i c).cluster j = s.cluster j := rfl
@[simp] theorem State.cluster_modCore (s : State) (i j : Nat) (f : Core → Core) : (s.modCore i f).cluster j = s.cluster j := rfl
@[simp] theorem State.cluster_setDie (s : State) (i j : Nat) (c : Die) : (s.setDie i c).cluster j = s.cluster j := rfl
@[simp] theorem State.cluster_modDie (s : State) (i j : Nat) (f : Die → Die) : (s.modDie i f).cluster j = s.cluster j := rfl
@[simp] theorem State.cluster_setSlice (s : State) (i j : Nat) (c : Slice) : (s.setSlice i c).cluster j = s.cluster j := rfl
@[simp] theorem State.cluster_modSlice (s : State) (i j : Nat) (f : Slice → Slice) : (s.modSlice i f).cluster j = s.cluster j := rfl
@[simp] theorem State.cluster_setStack (s : State) (i j : Nat) (c : List StackCmd) : (s.setStack i c).cluster j = s.cluster j := rfl
@[simp] theorem State.cluster_setLaunch (s : State) (i j : Nat) (c : Launch) : (s.setLaunch i c).cluster j = s.cluster j := rfl
@[simp] theorem State.cluster_setTT (s : State) (i j : Nat) (c : TTEntry) : (s.setTT i c).cluster j = s.cluster j := rfl
@[simp] theorem State.cluster_setSession (s : State) (i j : Nat) (c : Session) : (s.setSession i c).cluster j = s.cluster j := rfl
@[simp] theorem State.die_setCtx (s : State) (i j : Nat) (c : Ctx) : (s.setCtx i c).die j = s.die j := rfl
@[simp] theorem State.die_modCtx (s : State) (i j : Nat) (f : Ctx → Ctx) : (s.modCtx i f).die j = s.die j := rfl
@[simp] theorem State.die_setCore (s : State) (i j : Nat) (c : Core) : (s.setCore i c).die j = s.die j := rfl
@[simp] theorem State.die_modCore (s : State) (i j : Nat) (f : Core → Core) : (s.modCore i f).die j = s.die j := rfl
@[simp] theorem State.die_setCluster (s : State) (i j : Nat) (c : Cluster) : (s.setCluster i c).die j = s.die j := rfl
@[simp] theorem State.die_modCluster (s : State) (i j : Nat) (f : Cluster → Cluster) : (s.modCluster i f).die j = s.die j := rfl
@[simp] theorem State.die_setSlice (s : State) (i j : Nat) (c : Slice) : (s.setSlice i c).die j = s.die j := rfl
@[simp] theorem State.die_modSlice (s : State) (i j : Nat) (f : Slice → Slice) : (s.modSlice i f).die j = s.die j := rfl
@[simp] theorem State.die_setStack (s : State) (i j : Nat) (c : List StackCmd) : (s.setStack i c).die j = s.die j := rfl
@[simp] theorem State.die_setLaunch (s : State) (i j : Nat) (c : Launch) : (s.setLaunch i c).die j = s.die j := rfl
@[simp] theorem State.die_setTT (s : State) (i j : Nat) (c : TTEntry) : (s.setTT i c).die j = s.die j := rfl
@[simp] theorem State.die_setSession (s : State) (i j : Nat) (c : Session) : (s.setSession i c).die j = s.die j := rfl
@[simp] theorem State.slice_setCtx (s : State) (i j : Nat) (c : Ctx) : (s.setCtx i c).slice j = s.slice j := rfl
@[simp] theorem State.slice_modCtx (s : State) (i j : Nat) (f : Ctx → Ctx) : (s.modCtx i f).slice j = s.slice j := rfl
@[simp] theorem State.slice_setCore (s : State) (i j : Nat) (c : Core) : (s.setCore i c).slice j = s.slice j := rfl
@[simp] theorem State.slice_modCore (s : State) (i j : Nat) (f : Core → Core) : (s.modCore i f).slice j = s.slice j := rfl
@[simp] theorem State.slice_setCluster (s : State) (i j : Nat) (c : Cluster) : (s.setCluster i c).slice j = s.slice j := rfl
@[simp] theorem State.slice_modCluster (s : State) (i j : Nat) (f : Cluster → Cluster) : (s.modCluster i f).slice j = s.slice j := rfl
@[simp] theorem State.slice_setDie (s : State) (i j : Nat) (c : Die) : (s.setDie i c).slice j = s.slice j := rfl
@[simp] theorem State.slice_modDie (s : State) (i j : Nat) (f : Die → Die) : (s.modDie i f).slice j = s.slice j := rfl
@[simp] theorem State.slice_setStack (s : State) (i j : Nat) (c : List StackCmd) : (s.setStack i c).slice j = s.slice j := rfl
@[simp] theorem State.slice_setLaunch (s : State) (i j : Nat) (c : Launch) : (s.setLaunch i c).slice j = s.slice j := rfl
@[simp] theorem State.slice_setTT (s : State) (i j : Nat) (c : TTEntry) : (s.setTT i c).slice j = s.slice j := rfl
@[simp] theorem State.slice_setSession (s : State) (i j : Nat) (c : Session) : (s.setSession i c).slice j = s.slice j := rfl
@[simp] theorem State.stackList_setCtx (s : State) (i j : Nat) (c : Ctx) : (s.setCtx i c).stackList j = s.stackList j := rfl
@[simp] theorem State.stackList_modCtx (s : State) (i j : Nat) (f : Ctx → Ctx) : (s.modCtx i f).stackList j = s.stackList j := rfl
@[simp] theorem State.stackList_setCore (s : State) (i j : Nat) (c : Core) : (s.setCore i c).stackList j = s.stackList j := rfl
@[simp] theorem State.stackList_modCore (s : State) (i j : Nat) (f : Core → Core) : (s.modCore i f).stackList j = s.stackList j := rfl
@[simp] theorem State.stackList_setCluster (s : State) (i j : Nat) (c : Cluster) : (s.setCluster i c).stackList j = s.stackList j := rfl
@[simp] theorem State.stackList_modCluster (s : State) (i j : Nat) (f : Cluster → Cluster) : (s.modCluster i f).stackList j = s.stackList j := rfl
@[simp] theorem State.stackList_setDie (s : State) (i j : Nat) (c : Die) : (s.setDie i c).stackList j = s.stackList j := rfl
@[simp] theorem State.stackList_modDie (s : State) (i j : Nat) (f : Die → Die) : (s.modDie i f).stackList j = s.stackList j := rfl
@[simp] theorem State.stackList_setSlice (s : State) (i j : Nat) (c : Slice) : (s.setSlice i c).stackList j = s.stackList j := rfl
@[simp] theorem State.stackList_modSlice (s : State) (i j : Nat) (f : Slice → Slice) : (s.modSlice i f).stackList j = s.stackList j := rfl
@[simp] theorem State.stackList_setLaunch (s : State) (i j : Nat) (c : Launch) : (s.setLaunch i c).stackList j = s.stackList j := rfl
@[simp] theorem State.stackList_setTT (s : State) (i j : Nat) (c : TTEntry) : (s.setTT i c).stackList j = s.stackList j := rfl
@[simp] theorem State.stackList_setSession (s : State) (i j : Nat) (c : Session) : (s.setSession i c).stackList j = s.stackList j := rfl
@[simp] theorem State.launchAt_setCtx (s : State) (i j : Nat) (c : Ctx) : (s.setCtx i c).launchAt j = s.launchAt j := rfl
@[simp] theorem State.launchAt_modCtx (s : State) (i j : Nat) (f : Ctx → Ctx) : (s.modCtx i f).launchAt j = s.launchAt j := rfl
@[simp] theorem State.launchAt_setCore (s : State) (i j : Nat) (c : Core) : (s.setCore i c).launchAt j = s.launchAt j := rfl
@[simp] theorem State.launchAt_modCore (s : State) (i j : Nat) (f : Core → Core) : (s.modCore i f).launchAt j = s.launchAt j := rfl
@[simp] theorem State.launchAt_setCluster (s : State) (i j : Nat) (c : Cluster) : (s.setCluster i c).launchAt j = s.launchAt j := rfl
@[simp] theorem State.launchAt_modCluster (s : State) (i j : Nat) (f : Cluster → Cluster) : (s.modCluster i f).launchAt j = s.launchAt j := rfl
@[simp] theorem State.launchAt_setDie (s : State) (i j : Nat) (c : Die) : (s.setDie i c).launchAt j = s.launchAt j := rfl
@[simp] theorem State.launchAt_modDie (s : State) (i j : Nat) (f : Die → Die) : (s.modDie i f).launchAt j = s.launchAt j := rfl
@[simp] theorem State.launchAt_setSlice (s : State) (i j : Nat) (c : Slice) : (s.setSlice i c).launchAt j = s.launchAt j := rfl
@[simp] theorem State.launchAt_modSlice (s : State) (i j : Nat) (f : Slice → Slice) : (s.modSlice i f).launchAt j = s.launchAt j := rfl
@[simp] theorem State.launchAt_setStack (s : State) (i j : Nat) (c : List StackCmd) : (s.setStack i c).launchAt j = s.launchAt j := rfl
@[simp] theorem State.launchAt_setTT (s : State) (i j : Nat) (c : TTEntry) : (s.setTT i c).launchAt j = s.launchAt j := rfl
@[simp] theorem State.launchAt_setSession (s : State) (i j : Nat) (c : Session) : (s.setSession i c).launchAt j = s.launchAt j := rfl
@[simp] theorem State.ttEntry_setCtx (s : State) (i j : Nat) (c : Ctx) : (s.setCtx i c).ttEntry j = s.ttEntry j := rfl
@[simp] theorem State.ttEntry_modCtx (s : State) (i j : Nat) (f : Ctx → Ctx) : (s.modCtx i f).ttEntry j = s.ttEntry j := rfl
@[simp] theorem State.ttEntry_setCore (s : State) (i j : Nat) (c : Core) : (s.setCore i c).ttEntry j = s.ttEntry j := rfl
@[simp] theorem State.ttEntry_modCore (s : State) (i j : Nat) (f : Core → Core) : (s.modCore i f).ttEntry j = s.ttEntry j := rfl
@[simp] theorem State.ttEntry_setCluster (s : State) (i j : Nat) (c : Cluster) : (s.setCluster i c).ttEntry j = s.ttEntry j := rfl
@[simp] theorem State.ttEntry_modCluster (s : State) (i j : Nat) (f : Cluster → Cluster) : (s.modCluster i f).ttEntry j = s.ttEntry j := rfl
@[simp] theorem State.ttEntry_setDie (s : State) (i j : Nat) (c : Die) : (s.setDie i c).ttEntry j = s.ttEntry j := rfl
@[simp] theorem State.ttEntry_modDie (s : State) (i j : Nat) (f : Die → Die) : (s.modDie i f).ttEntry j = s.ttEntry j := rfl
@[simp] theorem State.ttEntry_setSlice (s : State) (i j : Nat) (c : Slice) : (s.setSlice i c).ttEntry j = s.ttEntry j := rfl
@[simp] theorem State.ttEntry_modSlice (s : State) (i j : Nat) (f : Slice → Slice) : (s.modSlice i f).ttEntry j = s.ttEntry j := rfl
@[simp] theorem State.ttEntry_setStack (s : State) (i j : Nat) (c : List StackCmd) : (s.setStack i c).ttEntry j = s.ttEntry j := rfl
@[simp] theorem State.ttEntry_setLaunch (s : State) (i j : Nat) (c : Launch) : (s.setLaunch i c).ttEntry j = s.ttEntry j := rfl
@[simp] theorem State.ttEntry_setSession (s : State) (i j : Nat) (c : Session) : (s.setSession i c).ttEntry j = s.ttEntry j := rfl
@[simp] theorem State.session_setCtx (s : State) (i j : Nat) (c : Ctx) : (s.setCtx i c).session j = s.session j := rfl
@[simp] theorem State.session_modCtx (s : State) (i j : Nat) (f : Ctx → Ctx) : (s.modCtx i f).session j = s.session j := rfl
@[simp] theorem State.session_setCore (s : State) (i j : Nat) (c : Core) : (s.setCore i c).session j = s.session j := rfl
@[simp] theorem State.session_modCore (s : State) (i j : Nat) (f : Core → Core) : (s.modCore i f).session j = s.session j := rfl
@[simp] theorem State.session_setCluster (s : State) (i j : Nat) (c : Cluster) : (s.setCluster i c).session j = s.session j := rfl
@[simp] theorem State.session_modCluster (s : State) (i j : Nat) (f : Cluster → Cluster) : (s.modCluster i f).session j = s.session j := rfl
@[simp] theorem State.session_setDie (s : State) (i j : Nat) (c : Die) : (s.setDie i c).session j = s.session j := rfl
@[simp] theorem State.session_modDie (s : State) (i j : Nat) (f : Die → Die) : (s.modDie i f).session j = s.session j := rfl
@[simp] theorem State.session_setSlice (s : State) (i j : Nat) (c : Slice) : (s.setSlice i c).session j = s.session j := rfl
@[simp] theorem State.session_modSlice (s : State) (i j : Nat) (f : Slice → Slice) : (s.modSlice i f).session j = s.session j := rfl
@[simp] theorem State.session_setStack (s : State) (i j : Nat) (c : List StackCmd) : (s.setStack i c).session j = s.session j := rfl
@[simp] theorem State.session_setLaunch (s : State) (i j : Nat) (c : Launch) : (s.setLaunch i c).session j = s.session j := rfl
@[simp] theorem State.session_setTT (s : State) (i j : Nat) (c : TTEntry) : (s.setTT i c).session j = s.session j := rfl
@[simp] theorem State.setCtx_setCtx (s : State) (i : Nat) (c d : Ctx) : (s.setCtx i c).setCtx i d = s.setCtx i d := by simp [State.setCtx]
@[simp] theorem State.setCore_setCore (s : State) (i : Nat) (c d : Core) : (s.setCore i c).setCore i d = s.setCore i d := by simp [State.setCore]
@[simp] theorem State.setCluster_setCluster (s : State) (i : Nat) (c d : Cluster) : (s.setCluster i c).setCluster i d = s.setCluster i d := by simp [State.setCluster]
@[simp] theorem State.setDie_setDie (s : State) (i : Nat) (c d : Die) : (s.setDie i c).setDie i d = s.setDie i d := by simp [State.setDie]
@[simp] theorem State.setSlice_setSlice (s : State) (i : Nat) (c d : Slice) : (s.setSlice i c).setSlice i d = s.setSlice i d := by simp [State.setSlice]
@[simp] theorem State.setStack_setStack (s : State) (i : Nat) (c d : List StackCmd) : (s.setStack i c).setStack i d = s.setStack i d := by simp [State.setStack]
@[simp] theorem State.setLaunch_setLaunch (s : State) (i : Nat) (c d : Launch) : (s.setLaunch i c).setLaunch i d = s.setLaunch i d := by simp [State.setLaunch]
@[simp] theorem State.setTT_setTT (s : State) (i : Nat) (c d : TTEntry) : (s.setTT i c).setTT i d = s.setTT i d := by simp [State.setTT]
@[simp] theorem State.setSession_setSession (s : State) (i : Nat) (c d : Session) : (s.setSession i c).setSession i d = s.setSession i d := by simp [State.setSession]
theorem State.stackList_setStack_same (s : State) (i j : Nat) (c : List StackCmd) : (s.setStack i c).stackList j = if j = i then c else s.stackList j := by
  unfold State.stackList State.setStack
  simp only [tfind_tput]
  split <;> rfl
theorem State.ttEntry_setTT_same (s : State) (i j : Nat) (c : TTEntry) : (s.setTT i c).ttEntry j = if j = i then c else s.ttEntry j := by
  unfold State.ttEntry State.setTT
  simp only [tfind_tput]
  split <;> rfl
theorem State.session_setSession_same (s : State) (i j : Nat) (c : Session) : (s.setSession i c).session j = if j = i then c else s.session j := by
  unfold State.session State.setSession
  simp only [tfind_tput]
  split <;> rfl

end Sys2Proof.Machine
end

