-- ==== Sys2Proof/Laws/Cache.lean ====
section
/-! SUPPORT. The cache and the request slots, once each: what a request leaving the slices, a use of a line and a write-back setting out can
change. -/

namespace Sys2Proof.Machine

@[simp] theorem State.leaveSlots_ctxs (s : State) (cid : Nat) : (s.leaveSlots cid).ctxs = s.ctxs := rfl
@[simp] theorem State.leaveSlots_cores (s : State) (cid : Nat) : (s.leaveSlots cid).cores = s.cores := rfl
@[simp] theorem State.leaveSlots_clusters (s : State) (cid : Nat) : (s.leaveSlots cid).clusters = s.clusters := rfl
@[simp] theorem State.leaveSlots_dies (s : State) (cid : Nat) : (s.leaveSlots cid).dies = s.dies := rfl
@[simp] theorem State.leaveSlots_stackCmds (s : State) (cid : Nat) : (s.leaveSlots cid).stackCmds = s.stackCmds := rfl
@[simp] theorem State.leaveSlots_mem (s : State) (cid : Nat) : (s.leaveSlots cid).mem = s.mem := rfl
@[simp] theorem State.leaveSlots_tiles (s : State) (cid : Nat) : (s.leaveSlots cid).tiles = s.tiles := rfl
@[simp] theorem State.leaveSlots_launches (s : State) (cid : Nat) : (s.leaveSlots cid).launches = s.launches := rfl
@[simp] theorem State.leaveSlots_lseq (s : State) (cid : Nat) : (s.leaveSlots cid).lseq = s.lseq := rfl
@[simp] theorem State.leaveSlots_nextKey (s : State) (cid : Nat) : (s.leaveSlots cid).nextKey = s.nextKey := rfl
@[simp] theorem State.leaveSlots_saved (s : State) (cid : Nat) : (s.leaveSlots cid).saved = s.saved := rfl
@[simp] theorem State.leaveSlots_tt (s : State) (cid : Nat) : (s.leaveSlots cid).tt = s.tt := rfl
@[simp] theorem State.leaveSlots_sessions (s : State) (cid : Nat) : (s.leaveSlots cid).sessions = s.sessions := rfl
@[simp] theorem State.leaveSlots_classes (s : State) (cid : Nat) : (s.leaveSlots cid).classes = s.classes := rfl
@[simp] theorem State.leaveSlots_sampctl (s : State) (cid : Nat) : (s.leaveSlots cid).sampctl = s.sampctl := rfl
@[simp] theorem State.leaveSlots_pulses (s : State) (cid : Nat) : (s.leaveSlots cid).pulses = s.pulses := rfl
@[simp] theorem State.leaveSlots_replay (s : State) (cid : Nat) : (s.leaveSlots cid).replay = s.replay := rfl
@[simp] theorem State.leaveSlots_qmstage (s : State) (cid : Nat) : (s.leaveSlots cid).qmstage = s.qmstage := rfl
@[simp] theorem State.leaveSlots_qmquota (s : State) (cid : Nat) : (s.leaveSlots cid).qmquota = s.qmquota := rfl
@[simp] theorem State.leaveSlots_qmtmo (s : State) (cid : Nat) : (s.leaveSlots cid).qmtmo = s.qmtmo := rfl
@[simp] theorem State.leaveSlots_qmaging (s : State) (cid : Nat) : (s.leaveSlots cid).qmaging = s.qmaging := rfl
@[simp] theorem State.leaveSlots_qmresid (s : State) (cid : Nat) : (s.leaveSlots cid).qmresid = s.qmresid := rfl
@[simp] theorem State.leaveSlots_sends (s : State) (cid : Nat) : (s.leaveSlots cid).sends = s.sends := rfl
@[simp] theorem State.leaveSlots_answers (s : State) (cid : Nat) : (s.leaveSlots cid).answers = s.answers := rfl
@[simp] theorem State.leaveSlots_host (s : State) (cid : Nat) : (s.leaveSlots cid).host = s.host := rfl
@[simp] theorem State.leaveSlots_now (s : State) (cid : Nat) : (s.leaveSlots cid).now = s.now := rfl
@[simp] theorem State.leaveSlots_arith (s : State) (cid : Nat) : (s.leaveSlots cid).arith = s.arith := rfl
@[simp] theorem State.leaveSlots_cur (s : State) (cid : Nat) : (s.leaveSlots cid).cur = s.cur := rfl
@[simp] theorem State.leaveSlots_ev (s : State) (cid : Nat) : (s.leaveSlots cid).ev = s.ev := rfl
@[simp] theorem State.leaveSlots_agenda (s : State) (cid : Nat) : (s.leaveSlots cid).agenda = s.agenda := rfl
@[simp] theorem State.leaveSlots_free (s : State) (cid : Nat) : (s.leaveSlots cid).free = s.free := rfl
@[simp] theorem State.ctx_leaveSlots (s : State) (cid j : Nat) : (s.leaveSlots cid).ctx j = s.ctx j := rfl
@[simp] theorem State.core_leaveSlots (s : State) (cid j : Nat) : (s.leaveSlots cid).core j = s.core j := rfl
@[simp] theorem State.cluster_leaveSlots (s : State) (cid j : Nat) : (s.leaveSlots cid).cluster j = s.cluster j := rfl
@[simp] theorem State.die_leaveSlots (s : State) (cid j : Nat) : (s.leaveSlots cid).die j = s.die j := rfl
@[simp] theorem State.stackList_leaveSlots (s : State) (cid j : Nat) : (s.leaveSlots cid).stackList j = s.stackList j := rfl
@[simp] theorem State.launchAt_leaveSlots (s : State) (cid j : Nat) : (s.leaveSlots cid).launchAt j = s.launchAt j := rfl
@[simp] theorem State.ttEntry_leaveSlots (s : State) (cid j : Nat) : (s.leaveSlots cid).ttEntry j = s.ttEntry j := rfl
@[simp] theorem State.session_leaveSlots (s : State) (cid j : Nat) : (s.leaveSlots cid).session j = s.session j := rfl
@[simp] theorem State.me_leaveSlots (s : State) (cid : Nat) : (s.leaveSlots cid).me = s.me := rfl

/-- Dirty bytes that set out (R180) join the victims of the line's cluster, and nothing else changes. -/
theorem sendVictim_eq (s : State) (g line : Nat) (l : L2Line) (h : l.dirty ≠ 0) :
    s.sendVictim g line l = s.modCluster g fun c =>
      { c with victims := c.victims ++ [⟨line, l, s.writer g, (s.ctx (s.writer g)).qtid, s.now⟩] } := by
  unfold State.sendVictim
  rw [if_neg h]
/-- A clean line sends nothing. -/
@[simp] theorem sendVictim_clean (s : State) (g line : Nat) (l : L2Line) (h : l.dirty = 0) : s.sendVictim g line l = s := by
  unfold State.sendVictim
  rw [if_pos h]
@[simp] theorem sendVictim_mem (s : State) (g line : Nat) (l : L2Line) : (s.sendVictim g line l).mem = s.mem := by
  unfold State.sendVictim
  split <;> rfl

/-- A use of a line changes only the cluster that holds it (R187). -/
theorem touch_frame (s : State) (g line : Nat) :
    s.touch g line = { s with clusters := (s.touch g line).clusters } ∧ ∀ j, j ≠ g → (s.touch g line).cluster j = s.cluster j := by
  unfold State.touch
  split
  · exact ⟨rfl, fun _ _ => rfl⟩
  · split
    · exact ⟨rfl, fun _ _ => rfl⟩
    · exact ⟨rfl, fun j h => State.cluster_modCluster_ne s g j _ h⟩

/-- A request that reaches a slice changes that slice only (R181): it holds a slot, or waits. -/
theorem enterSlot_frame (s t : State) (sl : Nat) (r : SlotReq) (h : s.enterSlot sl r = some t) :
    ∃ k, t = s.setSlice sl k ∧ (k.held = (s.slice sl).held ++ [r] ∧ k.waiting = (s.slice sl).waiting ∨
      k.held = (s.slice sl).held ∧ k.waiting = (s.slice sl).waiting ++ [r]) := by
  unfold State.enterSlot at h
  by_cases a : s.slotFor (s.slice sl) r = true
  · rw [if_pos a] at h
    exact ⟨_, (Option.some.inj h).symm, .inl ⟨rfl, rfl⟩⟩
  · rw [if_neg a] at h
    by_cases b : Config.missBufferSize ≤ s.missUsed r.g
    · rw [if_pos b] at h
      cases h
    · rw [if_neg b] at h
      exact ⟨_, (Option.some.inj h).symm, .inr ⟨rfl, rfl⟩⟩

end Sys2Proof.Machine
end

