-- ==== Sys2Proof/Laws/Turns.lean ====
section
/-! SUPPORT. What the shared operations of a turn can do: how an instruction leaves the rotation, the passing of time, a context's own stores
before an operation at their home, and the marks of sealed copies and of replay. -/

namespace Sys2Proof.Machine

/-- Where an instruction's meaning answers a next state, so does its turn, whether it completes, leaves the rotation or waits (R98). -/
theorem issueTurn_next (s v : State) (i : Instr) : ∃ t, s.issueTurn i (.next v) = .next t := by
  simp only [State.issueTurn, State.leaveTurn]
  split_ifs <;> exact ⟨_, rfl⟩
theorem goAway_next (s v : State) (i : Instr) : ∃ t, s.goAway i (.next v) = .next t := by
  simp only [State.goAway, State.leaveTurn]
  split_ifs <;> exact ⟨_, rfl⟩

/-- An instruction that may not leave the rotation, and has nothing that holds it, is what its meaning says. -/
theorem issueTurn_of_free (s : State) (i : Instr) (r : Host.Outcome State Fault Refusal) (h : s.heldByWays i = false) (f : s.slotless i = false) :
    s.issueTurn i r = r := by
  unfold State.issueTurn
  split <;> simp [h, f]

/-- A queue instruction without room changes its own context alone. -/
theorem leaveRoom_onlyCtx (s : State) (i : Instr) (x : Xlat) (n : Nat) : OnlyCtx s (s.leaveRoom i x n) s.cur :=
  ⟨rfl, fun j hj => by
    rw [State.leaveRoom, State.ctx_modCtx_ne _ _ _ _ hj]
    exact (onlyCtx_modCtx s s.cur _).2 j hj⟩

/-- The passing of time moves the two clocks and what the slew has gathered, and nothing else. -/
theorem pass_frame (s : State) (ns cycles : Nat) :
    s.pass ns cycles = { s with now := (s.pass ns cycles).now, arith := s.arith + cycles, host := { s.host with drift := (s.pass ns cycles).host.drift } } := rfl

/-- With nothing of a context in the buffers, an operation at home finds nothing to perform first. -/
theorem ownFirst_of_none (s : State) (cid pa n : Nat) (b : ∀ e ∈ (s.core (coreOf cid)).storeBuffer, e.cid ≠ cid)
    (p : ∀ e ∈ (s.core (coreOf cid)).posted, e.cid ≠ cid) : s.ownFirst cid pa n = s := by
  unfold State.ownFirst
  rw [if_neg]
  simp only [List.any_eq_true, not_exists, not_and, Bool.and_eq_true, beq_iff_eq, List.mem_append]
  intro e he hc
  exact absurd hc (he.elim (p e) (b e))

/-- Outside compare mode no settle is inserted. -/
theorem settleLine_off (s : State) (line : Nat) (h : s.replay.cmp = false) : s.settleLine line = s := by simp [State.settleLine, h]

/-- A copy that is not sealed hides nothing, and has no turn on a session. -/
theorem veil_none (s : State) (t : Target) (dp : Pages) (dst n : Nat) : s.veil none t dp dst n = s := rfl
theorem sealedTurn_none (s : State) : s.sealedTurn none = 0 := rfl

/-- Marking a line as the first to evict changes no byte of memory. -/
theorem firstOut_mem (s : State) (g line : Nat) : (s.firstOut g line).mem = s.mem := by
  unfold State.firstOut
  split <;> rfl

end Sys2Proof.Machine
end

