-- ==== Sys2Proof/Tests/Slice0.lean ====
section
/-! SUPPORT. The model's own tests: ill-formed terms that well-formedness refuses; for every constructor with an encoding, a word written out
field by field from the spec's encoding tables that decodes to it; small steps whose results are worked out from the spec; and, for every
statement with hypotheses, states and operands that meet them. -/

set_option Elab.async false

namespace Sys2Proof.Tests
open Sys2Proof Sys2Proof.Machine

/-! ## Well-formedness: one ill-formed term for each check, and a well-formed neighbour. -/

/-- FENCE.TSO's word is not a FENCE (R22). -/
theorem test_wf_fence : (Instr.fence 8 3 3 0 0).wf = false ∧ (Instr.fence 0 3 3 0 0).wf = true := by decide
/-- Scopes 110 and 111 are reserved; LDO takes no release, STO no acquire (R66). -/
theorem test_wf_ordered : (Instr.ldo 1 2 6 0 0).wf = false ∧ (Instr.ldo 1 2 5 2 0).wf = false ∧ (Instr.ldo 1 2 5 1 0).wf = true ∧
    (Instr.sto 1 2 7 0 0).wf = false ∧ (Instr.sto 1 2 0 1 0).wf = false ∧ (Instr.sto 1 2 0 2 3).wf = true := by decide
theorem test_wf_scopes : (Instr.fenceS 1 1 6).wf = false ∧ (Instr.qsfence false 1 0 0).wf = false ∧ (Instr.qsfence false 4 0 0).wf = true ∧
    (Instr.tacq 1 6 true).wf = false ∧ (Instr.trel 1 7).wf = false := by decide
/-- AMOS codes 11 to 15 are reserved (R67). -/
theorem test_wf_amos : (Instr.amos 1 2 3 0 11).wf = false ∧ (Instr.amos 1 2 3 6 10).wf = false ∧ (Instr.amos 1 2 3 0 10).wf = true := by decide
theorem test_wf_modes : (Instr.loopSet 1 0).wf = false ∧ (Instr.phreg 1 2 0).wf = false ∧ (Instr.phdereg 1 2 0).wf = false := by decide
/-- VCVT has 18 codes, VSCALE three formats, VSETL the codes of R54. -/
theorem test_wf_codes : (Instr.vcvt 1 18 2 0).wf = false ∧ (Instr.vcvt 1 17 2 0).wf = true ∧ (Instr.vscale 1 15 2 0).wf = false ∧
    (Instr.vscale 1 12 2 0).wf = true ∧ (Instr.vsetl 1 2 4).wf = false ∧ (Instr.vsetl 1 2 14).wf = true := by decide
theorem test_wf_targets : (Instr.branch .beq 1 2 3).wf = false ∧ (Instr.jump (.jal 1 5)).wf = false ∧ (Instr.jump (.jal 1 6)).wf = true := by decide
/-- Rounding modes 101 and 110 are reserved (R87). -/
theorem test_wf_rm : (Instr.fpArithmetic (.arith .add true 5 1 2 3)).wf = false ∧ (Instr.fpArithmetic (.sqrt true 6 1 2)).wf = false ∧
    (Instr.fpArithmetic (.sqrt true 7 1 2)).wf = true ∧ (Instr.illegalInstructionWord 0).wf = false := by decide

/-! ## Decoding: words written field by field in the formats of R62 to R70. -/

/-- The formats R and QR: funct7, rs2, rs1, funct3, rd, major. -/
def rWord (f7 : BitVec 7) (rs2 rs1 : BitVec 5) (f3 : BitVec 3) (rd : BitVec 5) (major : BitVec 7) : BitVec 32 :=
  f7 ++ rs2 ++ rs1 ++ f3 ++ rd ++ major
/-- The format I. -/
def iWord (imm : BitVec 12) (rs1 : BitVec 5) (f3 : BitVec 3) (rd : BitVec 5) (major : BitVec 7) : BitVec 32 := imm ++ rs1 ++ f3 ++ rd ++ major
/-- The formats V and VM: mk, funct4, vs2, vs1, class, vd, major. -/
def vWord (mk : BitVec 3) (f4 : BitVec 4) (vs2 vs1 : BitVec 5) (cls : BitVec 3) (vd : BitVec 5) (major : BitVec 7) : BitVec 32 :=
  mk ++ f4 ++ vs2 ++ vs1 ++ cls ++ vd ++ major
/-- Every word of a list decodes to the instruction beside it. -/
def decodes (l : List (BitVec 32 × Instr)) : Bool := l.all fun p => decodeWord p.1 == p.2

theorem test_decode_integer : decodes [
    (iWord 0x7FF 5 0 6 0x13, .integerArithmetic (.imm .addi 6 5 0x7FF)), (iWord 1 5 2 6 0x13, .integerArithmetic (.imm .slti 6 5 1)),
    (iWord 1 5 3 6 0x13, .integerArithmetic (.imm .sltiu 6 5 1)), (iWord 1 5 4 6 0x13, .integerArithmetic (.imm .xori 6 5 1)),
    (iWord 1 5 6 6 0x13, .integerArithmetic (.imm .ori 6 5 1)), (iWord 1 5 7 6 0x13, .integerArithmetic (.imm .andi 6 5 1)),
    (iWord 0x03F 5 1 6 0x13, .integerArithmetic (.shift .sll 6 5 63)), (iWord 0x03F 5 5 6 0x13, .integerArithmetic (.shift .srl 6 5 63)),
    (iWord 0x43F 5 5 6 0x13, .integerArithmetic (.shift .sra 6 5 63)), (iWord 9 5 0 6 0x1B, .integerArithmetic (.addiw 6 5 9)),
    (iWord 0x01F 5 1 6 0x1B, .integerArithmetic (.shiftW .sll 6 5 31)), (iWord 0x41F 5 5 6 0x1B, .integerArithmetic (.shiftW .sra 6 5 31)),
    (rWord 0 3 2 0 1 0x33, .integerArithmetic (.reg .add 1 2 3)), (rWord 0x20 3 2 0 1 0x33, .integerArithmetic (.reg .sub 1 2 3)),
    (rWord 0 3 2 2 1 0x33, .integerArithmetic (.reg .slt 1 2 3)), (rWord 0x20 3 2 5 1 0x33, .integerArithmetic (.reg .sra 1 2 3)),
    (rWord 0 3 2 0 1 0x3B, .integerArithmetic (.regW .addw 1 2 3)), (rWord 0x20 3 2 5 1 0x3B, .integerArithmetic (.regW .sraw 1 2 3)),
    (rWord 1 3 2 1 1 0x33, .integerArithmetic (.mul .mulh 1 2 3)), (rWord 1 3 2 2 1 0x33, .integerArithmetic (.mul .mulhsu 1 2 3)),
    (rWord 1 3 2 0 1 0x3B, .integerArithmetic (.mul .mulw 1 2 3)),
    (0x12345#20 ++ 7#5 ++ 0x37#7, .integerArithmetic (.lui 7 0x12345)), (0x12345#20 ++ 7#5 ++ 0x17#7, .integerArithmetic (.auipc 7 0x12345)),
    (rWord 1 3 2 4 1 0x33, .integerDivide .div false 1 2 3), (rWord 1 3 2 7 1 0x3B, .integerDivide .remu true 1 2 3)] = true := by decide +kernel

theorem test_decode_control : decodes [
    -- imm[12|10:5], rs2, rs1, funct3, imm[4:1|11]: -4 and +2048
    (0x7F#7 ++ 3#5 ++ 2#5 ++ 1#3 ++ 0x1D#5 ++ 0x63#7, .branch .bne 2 3 0x1FFC), (0#7 ++ 3#5 ++ 2#5 ++ 7#3 ++ 1#5 ++ 0x63#7, .branch .bgeu 2 3 0x800),
    -- imm[20|10:1|11|19:12]: +2048 and -2
    (0#1 ++ 0#10 ++ 1#1 ++ 0#8 ++ 1#5 ++ 0x6F#7, .jump (.jal 1 0x800)), (0xFFFFF#20 ++ 0#5 ++ 0x6F#7, .jump (.jal 0 0x1FFFFE)),
    (iWord 0x804 2 0 1 0x67, .jump (.jalr 1 2 0x804)), (0x00000073, .ecall), (0x00100073, .ebreak), (0x10200073, .xret false), (0x30200073, .xret true),
    (0x10500073, .wfi), (rWord 9 2 1 0 0 0x73, .sfenceVma 1 2), (0x00D00073, .wrsNto), (0x01D00073, .wrsSto),
    (iWord 0x300 2 1 1 0x73, .csrAccess .rw false 1 2 0x300), (iWord 0x300 2 6 1 0x73, .csrAccess .rs true 1 2 0x300),
    (iWord 0x300 2 3 1 0x73, .csrAccess .rc false 1 2 0x300), (0x0310000F, .fence 0 3 1 0 0), (0x8330000F, .fenceTso 0 0), (0x0000100F, .fenceI 0 0 0)] = true := by
  decide +kernel

theorem test_decode_memory : decodes [
    (iWord 0xFFF 5 0 6 0x03, .load .lb 6 5 0xFFF), (iWord 8 5 1 6 0x03, .load .lh 6 5 8), (iWord 8 5 2 6 0x03, .load .lw 6 5 8),
    (iWord 8 5 3 6 0x03, .load .ld 6 5 8), (iWord 8 5 4 6 0x03, .load .lbu 6 5 8), (iWord 8 5 5 6 0x03, .load .lhu 6 5 8),
    (iWord 8 5 6 6 0x03, .load .lwu 6 5 8), (iWord 8 5 2 6 0x07, .load .flw 6 5 8), (iWord 8 5 3 6 0x07, .load .fld 6 5 8),
    (rWord 0x7F 3 2 0 0x1F 0x23, .store .sb 2 3 0xFFF), (rWord 1 3 2 1 2 0x23, .store .sh 2 3 0x22), (rWord 1 3 2 2 2 0x23, .store .sw 2 3 0x22),
    (rWord 1 3 2 3 2 0x23, .store .sd 2 3 0x22), (rWord 1 3 2 2 2 0x27, .store .fsw 2 3 0x22), (rWord 1 3 2 3 2 0x27, .store .fsd 2 3 0x22),
    -- funct5, aq, rl
    (0b00010#5 ++ 1#1 ++ 0#1 ++ 0#5 ++ 2#5 ++ 2#3 ++ 1#5 ++ 0x2F#7, .lr false true false 1 2),
    (0b00011#5 ++ 0#1 ++ 1#1 ++ 3#5 ++ 2#5 ++ 3#3 ++ 1#5 ++ 0x2F#7, .sc true false true 1 2 3),
    (0b00000#5 ++ 0#2 ++ 3#5 ++ 2#5 ++ 3#3 ++ 1#5 ++ 0x2F#7, .amo .add true false false 1 2 3),
    (0b00001#5 ++ 3#2 ++ 3#5 ++ 2#5 ++ 2#3 ++ 1#5 ++ 0x2F#7, .amo .swap false true true 1 2 3),
    (0b00100#5 ++ 0#2 ++ 3#5 ++ 2#5 ++ 3#3 ++ 1#5 ++ 0x2F#7, .amo .xor true false false 1 2 3),
    (0b01100#5 ++ 0#2 ++ 3#5 ++ 2#5 ++ 3#3 ++ 1#5 ++ 0x2F#7, .amo .and true false false 1 2 3),
    (0b01000#5 ++ 0#2 ++ 3#5 ++ 2#5 ++ 3#3 ++ 1#5 ++ 0x2F#7, .amo .or true false false 1 2 3),
    (0b10000#5 ++ 0#2 ++ 3#5 ++ 2#5 ++ 3#3 ++ 1#5 ++ 0x2F#7, .amo .min true false false 1 2 3),
    (0b10100#5 ++ 0#2 ++ 3#5 ++ 2#5 ++ 3#3 ++ 1#5 ++ 0x2F#7, .amo .max true false false 1 2 3),
    (0b11000#5 ++ 0#2 ++ 3#5 ++ 2#5 ++ 3#3 ++ 1#5 ++ 0x2F#7, .amo .minu true false false 1 2 3),
    (0b11100#5 ++ 0#2 ++ 3#5 ++ 2#5 ++ 3#3 ++ 1#5 ++ 0x2F#7, .amo .maxu true false false 1 2 3)] = true := by decide +kernel

theorem test_decode_fp : decodes [
    (rWord 0x00 3 2 7 1 0x53, .fpArithmetic (.arith .add false 7 1 2 3)), (rWord 0x05 3 2 0 1 0x53, .fpArithmetic (.arith .sub true 0 1 2 3)),
    (rWord 0x08 3 2 1 1 0x53, .fpArithmetic (.arith .mul false 1 1 2 3)), (rWord 0x0D 3 2 1 1 0x53, .fpArithmetic (.arith .div true 1 1 2 3)),
    (rWord 0x2D 0 2 4 1 0x53, .fpArithmetic (.sqrt true 4 1 2)), (rWord 0x11 3 2 1 1 0x53, .fpArithmetic (.sgn .sgnjn true 1 2 3)),
    (rWord 0x14 3 2 1 1 0x53, .fpArithmetic (.minmax true false 1 2 3)), (rWord 0x51 3 2 0 1 0x53, .fpArithmetic (.cmp .le true 1 2 3)),
    (rWord 0x50 3 2 2 1 0x53, .fpArithmetic (.cmp .eq false 1 2 3)), (rWord 0x61 3 2 1 1 0x53, .fpArithmetic (.toInt .lu true 1 1 2)),
    (rWord 0x68 1 2 7 1 0x53, .fpArithmetic (.ofInt .wu false 7 1 2)), (rWord 0x20 1 2 7 1 0x53, .fpArithmetic (.cvt false 7 1 2)),
    (rWord 0x21 0 2 7 1 0x53, .fpArithmetic (.cvt true 7 1 2)), (rWord 0x71 0 2 0 1 0x53, .fpArithmetic (.mvToX true 1 2)),
    (rWord 0x78 0 2 0 1 0x53, .fpArithmetic (.mvFromX false 1 2)), (rWord 0x70 0 2 1 1 0x53, .fpArithmetic (.fclass false 1 2)),
    -- rs3, fmt
    (4#5 ++ 1#2 ++ 3#5 ++ 2#5 ++ 0#3 ++ 1#5 ++ 0x47#7, .fpArithmetic (.fma .msub true 0 1 2 3 4)),
    (4#5 ++ 0#2 ++ 3#5 ++ 2#5 ++ 0#3 ++ 1#5 ++ 0x4B#7, .fpArithmetic (.fma .nmsub false 0 1 2 3 4)),
    (4#5 ++ 0#2 ++ 3#5 ++ 2#5 ++ 0#3 ++ 1#5 ++ 0x4F#7, .fpArithmetic (.fma .nmadd false 0 1 2 3 4))] = true := by decide +kernel

/-- custom-0 (R66, R67). -/
theorem test_decode_custom0 : decodes [
    (0b11#2 ++ 0b01#2 ++ 0b010#3 ++ 0#5 ++ 2#5 ++ 0#3 ++ 1#5 ++ 0x0B#7, .ldo 1 2 2 1 3), (0b10#2 ++ 0b10#2 ++ 0b101#3 ++ 3#5 ++ 2#5 ++ 1#3 ++ 0#5 ++ 0x0B#7, .sto 2 3 5 2 2),
    (rWord 0x00 3 2 2 0 0x0B, .wbr 2 3), (rWord 0x01 3 2 2 0 0x0B, .invr 2 3), (rWord 0x02 3 2 2 0 0x0B, .wbinvr 2 3), (rWord 0x08 0 2 2 0 0x0B, .disct 2),
    (rWord 0b0101100 0x1F 0x11 2 0 0x0B, .fenceS 0x11 0x1F 3), (rWord 0x40 3 2 2 0b00101 0x0B, .qsfence true 2 2 3), (rWord 0x41 3 2 2 1 0x0B, .pgmig 1 2 3),
    (rWord 0 0 2 3 0 0x0B, .tdecl 2), (rWord 1 0 2 3 0 0x0B, .tfree 2), (rWord 2 0b10011 2 3 0 0x0B, .tacq 2 3 true), (rWord 3 0b00010 2 3 0 0x0B, .trel 2 2),
    (rWord 4 3 2 3 1 0x0B, .tfwd true 2 3), (rWord 5 0 2 3 1 0x0B, .tstat 1 2),
    (rWord 0 0 2 4 1 0x0B, .accF 1 2), (rWord 1 3 2 4 1 0x0B, .accX 1 2 3), (rWord 2 0 2 4 1 0x0B, .accI 1 2), (rWord 0x10 3 2 4 0 0x0B, .flres 2 3),
    (0b1001#4 ++ 0b100#3 ++ 3#5 ++ 2#5 ++ 5#3 ++ 1#5 ++ 0x0B#7, .amos 1 2 3 4 9),
    (4#5 ++ 0b00#2 ++ 3#5 ++ 2#5 ++ 6#3 ++ 1#5 ++ 0x0B#7, .cpy 1 2 3 4), (4#5 ++ 0b01#2 ++ 3#5 ++ 2#5 ++ 6#3 ++ 1#5 ++ 0x0B#7, .cpyDc 1 2 3 4),
    (4#5 ++ 0b10#2 ++ 3#5 ++ 2#5 ++ 6#3 ++ 1#5 ++ 0x0B#7, .cpyPh 1 2 3 4), (4#5 ++ 0b11#2 ++ 3#5 ++ 2#5 ++ 6#3 ++ 1#5 ++ 0x0B#7, .cpyDcPh 1 2 3 4),
    (rWord 0 0 2 7 0 0x0B, .cpstep 2), (rWord 1 3 2 7 1 0x0B, .bhwait 1 2 3), (rWord 2 3 2 7 0 0x0B, .bhset 2 3), (rWord 3 3 2 7 0 0x0B, .stgreq 2 3),
    (rWord 0x10 3 2 7 0 0x0B, .hsgath 2 3), (rWord 0x11 3 2 7 0 0x0B, .hsred 2 3), (rWord 0x12 3 2 7 0 0x0B, .hsconv 2 3), (rWord 0x13 3 2 7 0 0x0B, .hsgemv 2 3)] = true := by
  decide +kernel

/-- custom-1 (R68). -/
theorem test_decode_custom1 : decodes [
    (rWord 0 3 2 0 1 0x2B, .hstart 1 2 3), (rWord 1 0 2 0 0 0x2B, .hexit 2), (rWord 2 0 2 0 1 0x2B, .hjoin 1 2), (rWord 3 0 2 0 0 0x2B, .falign 2),
    (iWord 0xFFF 2 1 0 0x2B, .loopSet 2 0xFFF), (iWord 0 0 1 0 0x2B, .loopClr),
    (rWord 0 0 2 2 1 0x2B, .spawn 1 2), (rWord 1 0 0 2 1 0x2B, .tnext 1), (rWord 2 3 2 2 0 0x2B, .tarm 2 3), (rWord 3 3 2 2 1 0x2B, .launch 1 2 3),
    (rWord 8 0 2 2 0 0x2B, .tresume 2), (rWord 9 0 2 2 0 0x2B, .tkill 2), (rWord 0 1 2 3 1 0x2B, .phreg 1 2 1), (rWord 1 3 2 3 1 0x2B, .phdereg 1 2 3),
    (rWord 2 1 2 3 1 0x2B, .pharv 1 2 true false), (rWord 2 2 2 3 1 0x2B, .pharv 1 2 false true), (rWord 3 3 2 3 0 0x2B, .phwait 2 3), (rWord 4 3 2 3 0 0x2B, .phbytes 2 3),
    (rWord 0 3 2 4 0 0x2B, .mbeat 2 3), (rWord 1 3 2 4 0 0x2B, .msend 2 3), (rWord 2 0 2 4 1 0x2B, .mpost 1 2), (rWord 3 0 2 4 1 0x2B, .mrecv 1 2),
    (rWord 4 0 2 4 1 0x2B, .mprobe 1 2), (rWord 5 0 2 4 1 0x2B, .mcancel 1 2), (rWord 0 3 2 5 0 0x2B, .qpush 2 3), (rWord 1 0 2 5 1 0x2B, .qpop 1 2),
    (rWord 2 0 2 5 1 0x2B, .qtrypop 1 2), (rWord 3 0 2 5 0 0x2B, .qflush 2), (rWord 0 0 2 6 1 0x2B, .evpop 1 2), (rWord 1 0 2 6 1 0x2B, .evwait 1 2),
    (rWord 2 0 2 6 0 0x2B, .cpmark 2), (rWord 3 3 2 6 1 0x2B, .cpdump 1 2 3), (rWord 4 3 2 6 0 0x2B, .trace 2 3)] = true := by decide +kernel

/-- custom-2, classes 000 and 001 (R69). -/
theorem test_decode_vint : decodes [
    (vWord 1 0 3 2 0 4 0x5B, .vaddVv 4 2 3 1), (vWord 1 1 3 2 0 4 0x5B, .vsubVv 4 2 3 1), (vWord 1 2 3 2 0 4 0x5B, .vmulVv 4 2 3 1), (vWord 1 3 3 2 0 4 0x5B, .vmulhVv 4 2 3 1),
    (vWord 1 4 3 2 0 4 0x5B, .vmulhuVv 4 2 3 1), (vWord 1 5 3 2 0 4 0x5B, .vminVv 4 2 3 1), (vWord 1 6 3 2 0 4 0x5B, .vminuVv 4 2 3 1), (vWord 1 7 3 2 0 4 0x5B, .vmaxVv 4 2 3 1),
    (vWord 1 8 3 2 0 4 0x5B, .vmaxuVv 4 2 3 1), (vWord 1 9 3 2 0 4 0x5B, .vandVv 4 2 3 1), (vWord 1 10 3 2 0 4 0x5B, .vorVv 4 2 3 1), (vWord 1 11 3 2 0 4 0x5B, .vxorVv 4 2 3 1),
    (vWord 1 12 3 2 0 4 0x5B, .vsllVv 4 2 3 1), (vWord 1 13 3 2 0 4 0x5B, .vsrlVv 4 2 3 1), (vWord 1 14 3 2 0 4 0x5B, .vsraVv 4 2 3 1), (vWord 1 15 3 2 0 4 0x5B, .vmergeVv 4 2 3 1),
    (vWord 7 0 3 2 1 4 0x5B, .vaddVx 4 2 3 7), (vWord 7 1 3 2 1 4 0x5B, .vsubVx 4 2 3 7), (vWord 7 2 3 2 1 4 0x5B, .vmulVx 4 2 3 7), (vWord 7 3 3 2 1 4 0x5B, .vmulhVx 4 2 3 7),
    (vWord 7 4 3 2 1 4 0x5B, .vmulhuVx 4 2 3 7), (vWord 7 5 3 2 1 4 0x5B, .vminVx 4 2 3 7), (vWord 7 6 3 2 1 4 0x5B, .vminuVx 4 2 3 7), (vWord 7 7 3 2 1 4 0x5B, .vmaxVx 4 2 3 7),
    (vWord 7 8 3 2 1 4 0x5B, .vmaxuVx 4 2 3 7), (vWord 7 9 3 2 1 4 0x5B, .vandVx 4 2 3 7), (vWord 7 10 3 2 1 4 0x5B, .vorVx 4 2 3 7), (vWord 7 11 3 2 1 4 0x5B, .vxorVx 4 2 3 7),
    (vWord 7 12 3 2 1 4 0x5B, .vsllVx 4 2 3 7), (vWord 7 13 3 2 1 4 0x5B, .vsrlVx 4 2 3 7), (vWord 7 14 3 2 1 4 0x5B, .vsraVx 4 2 3 7), (vWord 7 15 3 2 1 4 0x5B, .vmergeVx 4 2 3 7)] = true := by
  decide +kernel

/-- custom-2, classes 010 to 100 (R69). -/
theorem test_decode_vfp : decodes [
    (vWord 0 0 3 2 2 4 0x5B, .vfaddVv 4 2 3 0), (vWord 0 1 3 2 2 4 0x5B, .vfsubVv 4 2 3 0), (vWord 0 2 3 2 2 4 0x5B, .vfmulVv 4 2 3 0), (vWord 0 3 3 2 2 4 0x5B, .vfdivVv 4 2 3 0),
    (vWord 0 4 3 2 2 4 0x5B, .vfminVv 4 2 3 0), (vWord 0 5 3 2 2 4 0x5B, .vfmaxVv 4 2 3 0), (vWord 0 6 3 2 2 4 0x5B, .vfmaVv 4 2 3 0), (vWord 0 7 3 2 2 4 0x5B, .vfmsVv 4 2 3 0),
    (vWord 0 8 3 2 2 4 0x5B, .vfnmaVv 4 2 3 0), (vWord 0 9 3 0 2 4 0x5B, .vfsqrt 4 3 0), (vWord 0 10 3 0 2 4 0x5B, .vfclass 4 3 0),
    (vWord 0 0 3 2 3 4 0x5B, .vfaddVf 4 2 3 0), (vWord 0 1 3 2 3 4 0x5B, .vfsubVf 4 2 3 0), (vWord 0 2 3 2 3 4 0x5B, .vfmulVf 4 2 3 0), (vWord 0 3 3 2 3 4 0x5B, .vfdivVf 4 2 3 0),
    (vWord 0 4 3 2 3 4 0x5B, .vfminVf 4 2 3 0), (vWord 0 5 3 2 3 4 0x5B, .vfmaxVf 4 2 3 0), (vWord 0 6 3 2 3 4 0x5B, .vfmaVf 4 2 3 0), (vWord 0 7 3 2 3 4 0x5B, .vfmsVf 4 2 3 0),
    (vWord 0 8 3 2 3 4 0x5B, .vfnmaVf 4 2 3 0),
    (vWord 2 0 3 2 4 5 0x5B, .vcmpEq 5 2 3 2), (vWord 2 1 3 2 4 5 0x5B, .vcmpNe 5 2 3 2), (vWord 2 2 3 2 4 5 0x5B, .vcmpLt 5 2 3 2), (vWord 2 3 3 2 4 5 0x5B, .vcmpLtu 5 2 3 2),
    (vWord 2 4 3 2 4 5 0x5B, .vcmpLe 5 2 3 2), (vWord 2 5 3 2 4 5 0x5B, .vcmpLeu 5 2 3 2), (vWord 2 6 3 2 4 5 0x5B, .vfcmpEq 5 2 3 2), (vWord 2 7 3 2 4 5 0x5B, .vfcmpLt 5 2 3 2),
    (vWord 2 8 3 2 4 5 0x5B, .vfcmpLe 5 2 3 2), (vWord 2 9 3 2 4 5 0x5B, .vfcmpUn 5 2 3 2), (vWord 2 10 3 2 4 5 0x5B, .vmand 5 2 3 2), (vWord 2 11 3 2 4 5 0x5B, .vmor 5 2 3 2),
    (vWord 2 12 3 2 4 5 0x5B, .vmxor 5 2 3 2), (vWord 2 13 3 0 4 5 0x5B, .vmnot 5 3 2), (vWord 2 14 3 0 4 9 0x5B, .vpopc 9 3 2), (vWord 2 15 3 0 4 9 0x5B, .vfirst 9 3 2)] = true := by
  decide +kernel

/-- custom-2, classes 101 to 111 (R69). -/
theorem test_decode_vperm : decodes [
    (vWord 0 0 3 2 5 4 0x5B, .vperm 4 2 3 0), (vWord 0 1 3 2 5 4 0x5B, .vslideup 4 2 3 0), (vWord 0 2 3 2 5 4 0x5B, .vslidedn 4 2 3 0), (vWord 0 3 0 2 5 4 0x5B, .vbcast 4 2 0),
    (vWord 0 4 3 2 5 4 0x5B, .vcompress 4 2 3 0), (vWord 0 5 0 0 5 4 0x5B, .vid 4 0), (vWord 0 6 3 2 5 4 0x5B, .vclmul 4 2 3 0), (vWord 0 7 3 2 5 4 0x5B, .vclmulh 4 2 3 0),
    (vWord 0 0 3 0x11 6 4 0x5B, .vcvt 4 0x11 3 0), (vWord 0 1 3 0 6 4 0x5B, .vamax 4 3 0), (vWord 0 2 3 14 6 4 0x5B, .vscale 4 14 3 0), (vWord 0 3 3 2 6 4 0x5B, .vqlns 4 2 3 0),
    (vWord 0 4 3 2 6 4 0x5B, .vdqlns 4 2 3 0), (vWord 0 5 3 2 6 4 0x5B, .vqfp8 4 2 3 0), (vWord 0 6 3 2 6 4 0x5B, .vdqfp8 4 2 3 0), (vWord 0 7 3 2 6 4 0x5B, .vqsplit 4 2 3 0),
    (vWord 0 0 3 2 7 4 0x5B, .vredsum 4 2 3 0), (vWord 0 1 3 2 7 4 0x5B, .vredmax 4 2 3 0), (vWord 0 2 3 2 7 4 0x5B, .vredmin 4 2 3 0), (vWord 0 3 3 2 7 4 0x5B, .vredmaxu 4 2 3 0),
    (vWord 0 4 3 2 7 4 0x5B, .vredminu 4 2 3 0), (vWord 0 5 3 2 7 4 0x5B, .vfredsum 4 2 3 0), (vWord 0 6 3 2 7 4 0x5B, .vfredmax 4 2 3 0), (vWord 0 7 3 2 7 4 0x5B, .vfredmin 4 2 3 0)] = true := by
  decide +kernel

/-- custom-3 (R70). -/
theorem test_decode_custom3 : decodes [
    (vWord 3 0 0 2 0 4 0x7B, .vld 4 2 3), (vWord 3 1 5 2 0 4 0x7B, .vldSt 4 2 5 3), (vWord 3 2 5 2 0 4 0x7B, .vldIx 4 2 5 3), (vWord 3 3 0 2 0 4 0x7B, .vldBc 4 2 3),
    (vWord 3 0 0 2 1 4 0x7B, .vst 4 2 3), (vWord 3 1 5 2 1 4 0x7B, .vstSt 4 2 5 3), (vWord 3 2 5 2 1 4 0x7B, .vstIx 4 2 5 3), (vWord 3 3 0 2 1 4 0x7B, .vstBc 4 2 3),
    (vWord 0 0 5 0 2 4 0x7B, .vmovi 4 5), (vWord 0 1 5 0 2 4 0x7B, .vmoviw 4 5), (vWord 0 2 0 2 2 4 0x7B, .vrdx 4 2), (vWord 0 3 0 2 2 4 0x7B, .vwrx 4 2),
    (vWord 0 0 2 3 3 1 0x7B, .vsetl 1 3 2), (vWord 0 1 5 2 3 1 0x7B, .vextract 1 2 5), (vWord 0 2 5 2 3 4 0x7B, .vinsert 4 2 5),
    (rWord 0 3 2 7 0 0x7B, .mxcfg 2 3), (rWord 1 0 2 7 0 0x7B, .mxgrant 2), (rWord 2 3 2 7 1 0x7B, .mxld 1 2 3), (rWord 3 3 0b01101 7 5 0x7B, .mxmac 5 1 3 3),
    (rWord 4 3 0b01101 7 5 0x7B, .mxmacs 5 1 3 3), (rWord 5 3 2 7 6 0x7B, .mxst 6 2 3), (rWord 6 3 0 7 7 0x7B, .mxzero 7 3), (rWord 7 3 2 7 0 0x7B, .mxdup 2 3),
    (rWord 8 3 0 7 0 0x7B, .mxsync 3)] = true := by decide +kernel

/-- Words that are no instruction: reserved codes, and a field that an instruction does not use, set (R61, R65 to R70). -/
theorem test_decode_refuses : ([0, 0xFFFFFFFF, 0x00000001, 0x0000001F, rWord 0 3 2 3 0 0x0B, rWord 0 0 2 0 1 0x57, rWord 0x38 1 1 2 0 0x0B, rWord 9 0 2 4 0 0x0B,
    rWord 0 0 2 7 0 0x2B, iWord 0 1 1 0 0x2B, rWord 0 0 2 3 1 0x2B, vWord 0 11 3 2 2 4 0x5B, vWord 0 9 3 1 2 4 0x5B, vWord 0 0 3 2 4 9 0x5B, vWord 0 8 3 2 7 4 0x5B,
    vWord 1 0 2 3 3 1 0x7B, vWord 0 0 4 3 3 1 0x7B, vWord 0 0 0 0 4 0 0x7B, rWord 9 3 2 7 0 0x7B, rWord 0 3 2 5 1 0x53] : List (BitVec 32)).all
      (fun w => decodeWord w == .illegalInstructionWord w) = true := by decide +kernel
/-- The example words of the entries of the spec, as each entry prints them. -/
theorem test_decode_spec_examples : decodes [
    (0x00C5852B, .hstart 10 11 12), (0x0205002B, .hexit 10), (0x0405852B, .hjoin 10 11), (0x0602802B, .falign 5), (0x0025B2FB, .vsetl 5 11 2),
    (0x003100DB, .vaddVv 1 2 3 0), (0x1845125B, .vsllVx 4 10 4 0), (0x4062A25B, .vfaddVv 4 5 6 2), (0x2420C1DB, .vcmpLt 3 1 2 1), (0x1C30455B, .vpopc 10 3 0),
    (0x4820D1DB, .vcompress 3 1 2 2), (0x0A94705B, .vfredsum 0 8 9 0), (0x002020FB, .vmovi 1 2), (0x0402A2FB, .vrdx 5 5), (0x0233357B, .vextract 10 6 3),
    (0x046531FB, .vinsert 3 10 6), (0x80B5248B, .qsfence true 4 10 11), (0x82C5A50B, .pgmig 10 11 12), (0xD805850B, .ldo 10 11 4 1 3), (0xA6D5100B, .sto 10 13 3 2 2),
    (0x6011A00B, .fenceS 3 1 4), (0x18C5D50B, .amos 10 11 12 4 1), (0x00B5200B, .wbr 10 11), (0x02B5200B, .invr 10 11), (0x04B5200B, .wbinvr 10 11), (0x1005200B, .disct 10),
    (0x0005300B, .tdecl 10), (0x0205300B, .tfree 10), (0x0545300B, .tacq 10 4 true), (0x0645300B, .trel 10 4), (0x08B5308B, .tfwd true 10 11), (0x0A05B50B, .tstat 10 11),
    (0x0007C18B, .accF 3 15), (0x02E7C18B, .accX 3 15 14), (0x0407C18B, .accI 3 15), (0x20B5400B, .flres 10 11), (0x2000400B, .flres 0 0)] = true := by decide +kernel
theorem test_decode_spec_examples_2 : decodes [
    (0x00B5707B, .mxcfg 10 11), (0x0205707B, .mxgrant 10), (0x04B570FB, .mxld 1 10 11), (0x06B2717B, .mxmac 2 0 1 11), (0x08B2717B, .mxmacs 2 0 1 11), (0x0AB5717B, .mxst 2 10 11),
    (0x0CB071FB, .mxzero 3 11), (0x0EB5707B, .mxdup 10 11), (0x10B0707B, .mxsync 11), (0x68C5E50B, .cpy 10 11 12 13), (0x6AC5E50B, .cpyDc 10 11 12 13),
    (0x6CC5E50B, .cpyPh 10 11 12 13), (0x6EC5E50B, .cpyDcPh 10 11 12 13), (0x20B5700B, .hsgath 10 11), (0x22B5700B, .hsred 10 11), (0x24B5700B, .hsconv 10 11),
    (0x26B5700B, .hsgemv 10 11), (0x02C5F50B, .bhwait 10 11 12), (0x04B5700B, .bhset 10 11), (0x0005700B, .cpstep 10), (0x06B5700B, .stgreq 10 11),
    (0x0005A52B, .spawn 10 11), (0x0200252B, .tnext 10), (0x04B5202B, .tarm 10 11), (0x06C5A52B, .launch 10 11 12), (0x1005202B, .tresume 10), (0x1205202B, .tkill 10),
    (0x0035B52B, .phreg 10 11 3), (0x0215B52B, .phdereg 10 11 1), (0x0415B52B, .pharv 10 11 true false), (0x06B5302B, .phwait 10 11), (0x08B5302B, .phbytes 10 11),
    (0x00B5402B, .mbeat 10 11), (0x02B5402B, .msend 10 11), (0x0405C52B, .mpost 10 11), (0x0605C52B, .mrecv 10 11), (0x0805C52B, .mprobe 10 11), (0x0A05C52B, .mcancel 10 11),
    (0x00B5502B, .qpush 10 11), (0x0205D52B, .qpop 10 11), (0x0405D52B, .qtrypop 10 11), (0x0605502B, .qflush 10), (0x0005E52B, .evpop 10 11), (0x0205E52B, .evwait 10 11),
    (0x0405602B, .cpmark 10), (0x08B5602B, .trace 10 11), (0x06C5E52B, .cpdump 10 11 12)] = true := by decide +kernel

/-! ## Small steps. Context 0 runs at 0x1000 with the registers given; its cluster has a scratchpad. -/

/-- A running context with some x registers. -/
def regs (l : List (Reg × Word)) : Ctx := l.foldl (fun c p => c.setX p.1 p.2) { Ctx.reset with status := .running, pc := 0x1000 }
/-- The module with that context as context 0, issuing. -/
def on (c : Ctx) : State :=
  { State.reset with host := { HostSide.reset with up := true }, ctxs := [(0, c)], clusters := [(0, { Cluster.reset with spways := 2 })] }
/-- The state after an instruction. -/
def after (i : Instr) (s : State) : State := match exec i s with
  | .next t => t
  | _ => s
/-- Two instructions. -/
def after2 (i j : Instr) (s : State) : State := after j (after i s)
/-- The scratchpad of cluster 0 (R10), and a spot of device HBM. -/
def spad : Word := 0x100000000000

/-- 7 + (-9) wraps below zero; x0 stays zero (R63). -/
theorem test_addi : (after (.integerArithmetic (.imm .addi 1 2 0xFF7)) (on (regs [(2, 7)]))).xr 1 = BitVec.ofInt 64 (-2) ∧
    (after (.integerArithmetic (.imm .addi 0 2 0xFF7)) (on (regs [(2, 7)]))).xr 0 = 0 := by decide +kernel
/-- SRAW keeps the sign of 32 bits; LUI sign-extends. -/
theorem test_sraw_lui : (after (.integerArithmetic (.regW .sraw 1 2 3)) (on (regs [(2, 0x80000000), (3, 36)]))).xr 1 = 0xFFFFFFFFF8000000 ∧
    (after (.integerArithmetic (.lui 1 0x80000)) (on (regs []))).xr 1 = 0xFFFFFFFF80000000 := by decide +kernel
/-- MULHSU of -1 and 2^64 - 1: the exact product is -(2^64 - 1), whose high half is -1. -/
theorem test_mulhsu : (after (.integerArithmetic (.mul .mulhsu 1 2 3)) (on (regs [(2, BitVec.allOnes 64), (3, BitVec.allOnes 64)]))).xr 1 = BitVec.allOnes 64 := by
  decide +kernel
/-- The overflow -2^63 / -1 and the division by zero (RV64M). -/
theorem test_div : (after (.integerDivide .div false 1 2 3) (on (regs [(2, 0x8000000000000000), (3, BitVec.allOnes 64)]))).xr 1 = 0x8000000000000000 ∧
    (after (.integerDivide .remu true 1 2 3) (on (regs [(2, 0xF0000001), (3, 0x100000000)]))).xr 1 = 0xFFFFFFFFF0000001 := by decide +kernel
/-- A taken branch goes to its target; one to a target that is 2 mod 4 raises cause 0 with it (R61). -/
theorem test_branch : (after (.branch .bltu 1 2 0x1FFC) (on (regs [(1, 1), (2, 2)]))).me.pc = 0xFFC ∧
    (after (.branch .beq 1 1 0x006) (on (regs [(1, 1)]))).me.stval = 0x1006 := by decide +kernel
/-- JALR clears bit 0 and links, also where rd is rs1. -/
theorem test_jalr : (after (.jump (.jalr 1 1 5)) (on (regs [(1, 0x2000)]))).me.pc = 0x2004 ∧ (after (.jump (.jalr 1 1 5)) (on (regs [(1, 0x2000)]))).xr 1 = 0x1004 := by
  decide +kernel
/-- A store is seen by the same context's load while it stands in the store buffer (R99), and sign-extends. -/
theorem test_store_load : (after2 (.store .sw 5 2 4) (.load .lw 1 5 4) (on (regs [(5, spad), (2, 0x80000001)]))).xr 1 = 0xFFFFFFFF80000001 ∧
    (after (.store .sw 5 2 4) (on (regs [(5, spad), (2, 0x80000001)]))).mem = [] := by decide +kernel
/-- A load across a 128-byte line raises cause 4 with its first byte (R100); one within a line does not. -/
theorem test_load_line : (after (.load .ld 1 5 0x7C) (on (regs [(5, spad)]))).me.scause = 4 ∧ (after (.load .ld 1 5 0x7C) (on (regs [(5, spad)]))).me.stval = 0x10000000007C ∧
    (after (.load .ld 1 5 0x75) (on (regs [(5, spad)]))).me.pc = 0x1004 ∧ (after (.load .ld 1 5 0x78) (on (regs [(5, spad)]))).me.pc = 0x1004 := by decide +kernel
/-- SC without a reservation writes 1; after an LR of the same bytes it writes 0 and stores (R102). -/
theorem test_lr_sc : (after (.sc true false false 1 5 2) (on (regs [(5, spad)]))).xr 1 = 1 ∧
    (after2 (.lr true false false 3 5) (.sc true false false 1 5 2) (on (regs [(5, spad), (1, 9), (2, 0x55)]))).xr 1 = 0 ∧
    mget (after2 (.lr true false false 3 5) (.sc true false false 1 5 2) (on (regs [(5, spad), (2, 0x55)]))).mem 0x100000000000 = 0x55 := by decide +kernel
/-- AMOMIN.W compares as signed; the old value comes back sign-extended. -/
theorem test_amo : (after2 (.amo .swap false false false 0 5 2) (.amo .min false false false 1 5 3) (on (regs [(5, spad), (2, 0xFFFFFFFF), (3, 1)]))).xr 1 = BitVec.allOnes 64 ∧
    mget (after2 (.amo .swap false false false 0 5 2) (.amo .min false false false 1 5 3) (on (regs [(5, spad), (2, 0xFFFFFFFF), (3, 1)]))).mem 0x100000000000 = 0xFF := by
  decide +kernel
/-- mhartid reads the global context number; fcsr's frm lies above fflags. -/
theorem test_csr : (after2 (.csrAccess .rw true 0 0x1F 2) (.csrAccess .rs false 1 0 3) (on { regs [] with mstatus := 0x2000 })).xr 1 = 0xE0 ∧
    (after (.csrAccess .rw false 1 0 0xF14) (on { regs [] with priv := .m })).me.mcause = 2 := by decide +kernel
/-- ECALL of U mode: medeleg delegates cause 8, and qfdisp handles it after reset. -/
theorem test_ecall : (after .ecall (on { regs [] with stvec := 0x4000 })).me.pc = 0x4000 ∧ (after .ecall (on { regs [] with stvec := 0x4000 })).me.scause = 8 ∧
    (after .ecall (on { regs [] with stvec := 0x4000 })).me.priv = .s := by decide +kernel
/-- SRET to U mode: SIE takes SPIE. -/
theorem test_sret : (after (.xret false) (on { regs [] with priv := .s, sepc := 0x2000, mstatus := 0x20 })).me.pc = 0x2000 ∧
    (after (.xret false) (on { regs [] with priv := .s, sepc := 0x2000, mstatus := 0x20 })).me.mstatus = 0x22 := by decide +kernel
/-- 1.5 + 2.25 = 3.75 in double; a boxed single 1 / 3 rounds to 0x3EAAAAAB and raises NX; FS becomes Dirty. -/
theorem test_fp : ((after (.fpArithmetic (.arith .add true 0 1 2 3)) (on (((regs []).setF 2 0x3FF8000000000000).setF 3 0x4002000000000000 |> fun c => { c with mstatus := 0x2000 }))).me.getF 1) =
      0x400E000000000000 ∧
    ((after (.fpArithmetic (.arith .div false 0 1 2 3)) (on (((regs []).setF 2 0xFFFFFFFF3F800000).setF 3 0xFFFFFFFF40400000 |> fun c => { c with mstatus := 0x2000 }))).me.getF 1) =
      0xFFFFFFFF3EAAAAAB ∧
    ((after (.fpArithmetic (.arith .div false 0 1 2 3)) (on (((regs []).setF 2 0xFFFFFFFF3F800000).setF 3 0xFFFFFFFF40400000 |> fun c => { c with mstatus := 0x2000 }))).me.fflags) = 1 := by
  decide +kernel
/-- FCVT.L.D of -2.5 rounds to even, and down where rm says so; FMIN of -0 and +0 is -0. -/
theorem test_fp_convert : (after (.fpArithmetic (.toInt .l true 0 1 2)) (on ((regs []).setF 2 0xC004000000000000 |> fun c => { c with mstatus := 0x2000 }))).xr 1 = BitVec.ofInt 64 (-2) ∧
    (after (.fpArithmetic (.toInt .l true 2 1 2)) (on ((regs []).setF 2 0xC004000000000000 |> fun c => { c with mstatus := 0x2000 }))).xr 1 = BitVec.ofInt 64 (-3) ∧
    (after (.fpArithmetic (.minmax false true 1 2 3)) (on ((regs []).setF 2 0x8000000000000000 |> fun c => { c with mstatus := 0x2000 }))).me.getF 1 = 0x8000000000000000 := by
  decide +kernel
/-- WFI is a no-op in S mode and illegal in U mode (R103). -/
theorem test_wfi : (after .wfi (on { regs [] with priv := .s })).me.pc = 0x1004 ∧ (after .wfi (on (regs []))).me.scause = 2 ∧
    (after .wfi (on (regs []))).me.stval = 0x10500073 := by decide +kernel
/-- A loop of one word: at its end with COUNT 2 the pc goes back; with COUNT 1 it goes on and ARMED clears (R111). -/
theorem test_loop : (after2 (.loopSet 5 1) (.integerArithmetic (.imm .addi 1 1 1)) (on (regs [(5, 2)]))).me.pc = 0x1004 ∧
    (after2 (.loopSet 5 1) (.integerArithmetic (.imm .addi 1 1 1)) (on (regs [(5, 1)]))).me.pc = 0x1008 ∧
    (after2 (.loopSet 5 1) (.integerArithmetic (.imm .addi 1 1 1)) (on (regs [(5, 1)]))).me.qloop.getLsbD 63 = false := by decide +kernel
/-- HSTART starts the lowest idle helper with its argument in a0 (R106). -/
theorem test_hstart : (after (.hstart 1 5 6) (on (regs [(5, 0x8000), (6, 77)]))).xr 1 = 1 ∧ ((after (.hstart 1 5 6) (on (regs [(5, 0x8000), (6, 77)]))).ctx 1).pc = 0x8000 ∧
    ((after (.hstart 1 5 6) (on (regs [(5, 0x8000), (6, 77)]))).ctx 1).getX 10 = 77 := by decide +kernel
/-- TNEXT outside a range task gives all ones; MPROBE of a slot that is not owned as well; EVPOP of an empty queue gives 0. -/
theorem test_empty : (after (.tnext 1) (on (regs []))).xr 1 = BitVec.allOnes 64 ∧ (after (.mprobe 1 2) (on (regs []))).xr 1 = BitVec.allOnes 64 ∧
    (after (.evpop 1 0) (on (regs [(1, 5)]))).xr 1 = 0 := by decide +kernel
/-- MBEAT puts rs1 in the low half of the beat (R349). -/
theorem test_mbeat : (after (.mbeat 1 2) (on (regs [(1, 5), (2, 6)]))).me.packet = some [0x00000000000000060000000000000005#128] := by decide +kernel
/-- PHREG counts a signaller of the next phase (R346), PHARV of a phaser with no signallers raises cause 31. -/
theorem test_phaser : (after (.phreg 1 5 3) (on (regs [(5, 0x2000)]))).xr 1 = 1 ∧ (after (.pharv 1 5 false false) (on (regs [(5, 0x2000)]))).me.scause = 31 := by decide +kernel
/-- BHSET of a free handle to drained is not in R284's list; BHWAIT for Free completes. -/
theorem test_handles : (after (.bhset 1 2) (on (regs [(1, 3), (2, 3)]))).me.scause = 29 ∧ (after (.bhwait 3 1 2) (on (regs [(1, 3), (2, 1), (3, 9)]))).xr 3 = 0 := by decide +kernel

/-! ## Vector steps: a window of 32 registers at 0 (R143), an element type and a VL (R140). -/

/-- A context with a window, an element type and a VL. -/
def vregs (et vl : Nat) (l : List (Reg × Word)) : Ctx := { regs l with qvwin := 0x200000#64, qvtype := BitVec.ofNat 64 (et + vl * 65536) }
/-- A vector register's value from its elements. -/
def vv (w : Nat) (l : List Nat) : VReg := BitVec.ofNat 8192 (packElems w l)
/-- The first elements of v register `r` of width `w`. -/
def ve (s : State) (r : Reg) (w n : Nat) : List Nat := velems (s.vr r) w n

/-- VSETL grants at most VLMAX: 8,192 / 32 = 256 (R140, R145). -/
theorem test_vsetl : (after (.vsetl 1 2 2) (on (vregs 0 0 [(2, 1000)]))).xr 1 = 256 ∧ (after (.vsetl 1 2 2) (on (vregs 0 0 [(2, 1000)]))).me.qvtype = 0x1000002 := by decide +kernel
/-- VADD at 8 bits wraps; elements from VL on keep their values. -/
theorem test_vadd : ve (after (.vaddVv 1 2 3 0) (((on (vregs 0 2 [])).setVr 2 (vv 8 [200, 1, 7])).setVr 3 (vv 8 [100, 2, 7]))) 1 8 3 = [44, 3, 0] := by decide +kernel
/-- The example of R151: VCOMPRESS. -/
theorem test_vcompress : ve (after (.vcompress 3 1 2 2) (((on { vregs 2 8 [] with masks := masksReset.set 1 0xA6 }).setVr 2 (vv 32 [10, 11, 12, 13, 14, 15, 16, 17])).setVr 1
    (vv 32 (List.replicate 8 0xFFFFFFFF)))) 3 32 9 = [11, 12, 15, 17, 0xFFFFFFFF, 0xFFFFFFFF, 0xFFFFFFFF, 0xFFFFFFFF, 0] := by decide +kernel
/-- The example of R175: VAMAX, VSCALE and VQLNS of 3.0, -0.5, 0.1, 0.01, and the first two back through VDQLNS. -/
def sample : VReg := vv 32 [0x40400000, 0xBF000000, 0x3DCCCCCD, 0x3C23D70A]
theorem test_vamax : ve (after (.vamax 2 1 0) ((on (vregs 10 4 [])).setVr 1 sample)) 2 32 1 = [0x40400000] := by decide +kernel
theorem test_vscale : ve (after (.vscale 3 14 2 0) ((on (vregs 10 1 [])).setVr 2 (vv 32 [0x40400000]))) 3 8 2 = [0x7D, 0] := by decide +kernel
theorem test_vqlns : ve (after (.vqlns 4 3 1 0) (((on (vregs 14 4 [])).setVr 3 (vv 8 [0x7D])).setVr 1 sample)) 4 8 4 = [0x0E, 0x24, 0x1B, 0x10] := by decide +kernel
/-- 2.828125 is 0x40350000, 0.1051025390625 is 0x3DD74000. -/
theorem test_vdqlns : ve (after (.vdqlns 5 3 4 0) (((on (vregs 14 4 [])).setVr 3 (vv 8 [0x7D])).setVr 4 (vv 8 [0x0E, 0x24, 0x1B, 0x10]))) 5 32 4 =
    [0x40350000, 0xBF000000, 0x3DD74000, 0] := by decide +kernel
/-- The example of R176: VQSPLIT of {0.5, 9, 0.2, 40, 1, 8, 0.1, 12} at 8.0. -/
theorem test_vqsplit : ve (after (.vqsplit 1 2 3 0) (((on ((vregs 10 8 []).setF 2 0xFFFFFFFF41000000)).setVr 3
    (vv 32 [0x3F000000, 0x41100000, 0x3E4CCCCD, 0x42200000, 0x3F800000, 0x41000000, 0x3DCCCCCD, 0x41400000])))) 1 32 5 =
      [1, 3, 7, 0xFFFFFFFF, 0xFFFFFFFF] := by decide +kernel
/-- The table value of R85: lns_val(-3) = 0.594482421875, which is 0x3F183000. -/
theorem test_lns : ve (after (.vcvt 1 0x11 2 0) ((on (vregs 10 1 [])).setVr 2 (vv 8 [0x1D]))) 1 32 1 = [0x3F183000] := by decide +kernel
/-- VREDSUM wraps at the element's width: 250 + 3 + 4 + 5 = 262. -/
theorem test_vredsum : ve (after (.vredsum 1 2 3 0) (((on (vregs 0 3 [])).setVr 2 (vv 8 [250])).setVr 3 (vv 8 [3, 4, 5, 100]))) 1 8 1 = [6] := by decide +kernel
/-- VCMP.LT is signed, VCMP.LTU is not; VPOPC counts below VL, VFIRST gives all ones where there is none. -/
theorem test_vmask : ((after (.vcmpLt 3 1 2 0) (((on (vregs 0 2 [])).setVr 1 (vv 8 [255, 1])).setVr 2 (vv 8 [1, 255]))).me.mask 3) = 1 ∧
    (after (.vpopc 1 1 0) (on (vregs 0 5 []))).xr 1 = 5 ∧ (after (.vfirst 1 2 0) (on (vregs 0 5 []))).xr 1 = BitVec.allOnes 64 := by decide +kernel
/-- The example of R143: SIZE = 64 and ROT = 48; v15 names register 63, v16 faults with 64. -/
theorem test_window : (after (.vaddVv 16 0 0 0) (on { vregs 0 1 [] with qvwin := 0x400000#64, qvrot := 48 })).me.stval = 64 ∧
    (after (.vaddVv 16 0 0 0) (on { vregs 0 1 [] with qvwin := 0x400000#64, qvrot := 48 })).me.scause = 30 ∧
    (after (.vaddVv 15 0 0 0) (on { vregs 0 1 [] with qvwin := 0x400000#64, qvrot := 48 })).me.pc = 0x1004 := by decide +kernel
/-- VEXTRACT reads with the window; VINSERT writes one element. -/
theorem test_vinsert : ve (after (.vinsert 3 10 6) (on (vregs 1 4 [(10, 0x12345), (6, 2)]))) 3 16 4 = [0, 0, 0x2345, 0] := by decide +kernel

/-! ## One step from a state with an instruction placed. -/

theorem test_step : (match step (State.reset.withFetchWord 32 0xFFF10093) with
    | .next t => t.xr 1
    | _ => 0) = BitVec.allOnes 64 ∧ decodeTableWord 32 0xFFF10093 = some (.integerArithmetic (.imm .addi 1 2 0xFFF)) ∧ decodeTableWord 32 0 = none := by
  decide +kernel
theorem test_reset : State.reset.host.up = false ∧ State.reset.mem = [] ∧ State.reset.agenda = [] := by decide +kernel

/-! ## Witnesses: for every clause of the statements that has hypotheses, a state and operands that meet them together. -/

/-- A check passes and what it gives meets `f`. -/
def okb {α : Type} (e : Except Stop α) (f : α → Bool) : Bool := match e with
  | .ok r => f r
  | .error _ => false
theorem ok_and {α : Type} {e : Except Stop α} (f : α → Bool) (h : okb e f = true) : ∃ r, e = .ok r ∧ f r = true := by
  cases e with
  | ok r => exact ⟨r, rfl, h⟩
  | error r => cases h

/-- A check that passes, as its state and its translation. -/
theorem ok_pair {α β : Type} {e : Except Stop (α × β)} (h : okb e (fun _ => true) = true) : ∃ u x, e = .ok (u, x) := by
  cases e with
  | ok r => exact ⟨r.1, r.2, rfl⟩
  | error r => cases h

theorem ok_unit {e : Except Stop Unit} (h : okb e (fun _ => true) = true) : e = .ok () := by
  cases e with
  | ok r => rfl
  | error r => cases h

/-- A lookup succeeds and what it gives meets `f`. -/
def somb {α : Type} (e : Option α) (f : α → Bool) : Bool := match e with
  | some r => f r
  | none => false
theorem some_and {α : Type} {e : Option α} (f : α → Bool) (h : somb e f = true) : ∃ r, e = some r ∧ f r = true := by
  cases e with
  | some r => exact ⟨r, rfl, h⟩
  | none => cases h

theorem pair_eta {α β : Type} (p : α × β) : p = (p.1, p.2) := rfl
theorem none_of {α : Type} {P : α → Prop} : ∀ p ∈ ([] : List α), P p := fun _ h => by cases h

theorem witness_DecodeAfterEncode : ∃ i : Instr, i.wf = true ∧ i.isEvent = false := ⟨.amos 1 2 3 5 10, by decide⟩
theorem witness_EncodeAfterDecode : ∃ w i, decode w = .ok i := ⟨0x02E7C18B#32, .accX 3 15 14, by decide +kernel⟩

/-- The states of O4: a placed instruction at its turn, a fetch that passes from HBM and from scratchpad, and an event's turn. -/
def placed : State := State.reset.withFetchWord 32 0xFFF10093
/-- LD x1, 0(x2) placed, and the turn says that it leaves the rotation; and ADDI in the same place. -/
def awayWith (w : Nat) : State := { State.reset.withFetchWord 32 w with agenda := [⟨0, 0, .ctxAway 0⟩] }
/-- The same load to line 0x400000 at its turn, with every slot of the line's home slice in use. -/
def crowded : State :=
  let s : State := (State.reset.withFetchWord 32 0x00013083).modCtx 0 fun c => c.setX 2 0x400000
  { s with slices := (List.range 64).map fun i => (i, { Slice.reset with held := List.replicate 16 ⟨1, 48, none, false⟩ }) }
theorem witness_StepRunsDecoded_turn : (∃ (s w : State) (ns cy cid : Nat) (rest : List Turn), s.agenda = ⟨ns, cy, .ctx cid⟩ :: rest ∧
      w = ({ s with agenda := rest } : State).pass ns cy ∧ w.reaches cid = false) ∧
    (∀ away : Bool, ∃ (s w : State) (ns cy cid : Nat) (rest : List Turn), s.agenda = ⟨ns, cy, if away then .ctxAway cid else .ctx cid⟩ :: rest ∧
      w = ({ s with agenda := rest } : State).pass ns cy ∧ (s.core (coreOf cid)).turn = ctxNum cid ∧ (s.ctx cid).status = .running ∧
      (s.ctx cid).stop = none ∧ (s.ctx cid).haltReq = false ∧ (s.die (dieOf cid)).stopped = false ∧ (s.ctx cid).request = none) ∧
    ∀ engine : Bool, ∃ (s w u t : State) (ns cy cid : Nat) (rest : List Turn) (i : Instr) (pa home : Option Nat), s.agenda = ⟨ns, cy, .ctx cid⟩ :: rest ∧
      w = ({ s with agenda := rest } : State).pass ns cy ∧ u = { w.modCore (coreOf cid) (fun c => { c with turn := (ctxNum cid + 1) % 12 }) with cur := cid } ∧
      t = (if engineReplies i then u else (u.leaveSlots cid).modCtx cid fun c => { c with request := none }) ∧ t.heldByWays i = false ∧ engineReplies i = engine ∧
      (s.core (coreOf cid)).turn = ctxNum cid ∧ (s.ctx cid).status = .running ∧ (s.ctx cid).stop = none ∧ (s.ctx cid).haltReq = false ∧
      (s.die (dieOf cid)).stopped = false ∧ (s.ctx cid).request = some (.access i pa home) :=
  ⟨⟨{ placed with agenda := [⟨5, 3, .ctx 1⟩] }, _, 5, 3, 1, [], rfl, rfl, by decide +kernel⟩,
    fun away => ⟨{ placed with agenda := [⟨5, 3, if away then .ctxAway 0 else .ctx 0⟩] }, _, 5, 3, 0, [], rfl, rfl, by cases away <;> decide +kernel⟩,
    fun engine => ⟨placed.modCtx 0 fun c => { c with request := some (.access (if engine then .vfirst 1 2 0 else .load .ld 1 2 0) (some 0) (some 0)) }, _, _, _, 0, 0, 0, [],
      if engine then .vfirst 1 2 0 else .load .ld 1 2 0, some 0, some 0, by cases engine <;> decide +kernel, rfl, rfl, rfl, by cases engine <;> decide +kernel⟩⟩
/-- The fetch of the turn passes, and the state after it and the instruction decoded meet `p`. -/
def fetchOk (s : State) (p : State → Instr → Bool) : Bool :=
  okb (s.select.1.accessV ⟨clusterOf s.select.1.cur, s.select.1.me.satp, s.select.1.me.priv, s.select.1.me.sum, s.select.1.me.mxr, some s.select.1.cur⟩ .fetch needX .fetch
      s.select.1.me.pc.toNat 4) fun r => decide (s.select.1.me.execHit = none ∧ regionOf r.2.pa ≠ .cfg ∧ r.1.selvedgeOk (clusterOf r.1.cur) .fetch r.2.pa 4 = true ∧
        (r.1.cluster (clusterOf r.1.cur)).busy = false ∧ r.1.silent r.2.pa = false) && p (r.1.fetchBytes r.2).1 (decodeWord (r.1.fetchBytes r.2).2)
theorem fetch_of {s : State} {p : State → Instr → Bool} (h : fetchOk s p = true) : ∃ (t u v : State) (x : Xlat) (i : Instr), t = s.select.1 ∧ t.me.execHit = none ∧
    t.accessV ⟨clusterOf t.cur, t.me.satp, t.me.priv, t.me.sum, t.me.mxr, some t.cur⟩ .fetch needX .fetch t.me.pc.toNat 4 = .ok (u, x) ∧
    regionOf x.pa ≠ .cfg ∧ u.selvedgeOk (clusterOf u.cur) .fetch x.pa 4 = true ∧ (u.cluster (clusterOf u.cur)).busy = false ∧ u.silent x.pa = false ∧
    v = (u.fetchBytes x).1 ∧ i = decodeWord (u.fetchBytes x).2 ∧ p v i = true := by
  obtain ⟨⟨u, x⟩, h, g⟩ := ok_and _ h
  obtain ⟨g1, g2⟩ := (Bool.and_eq_true _ _).mp g
  obtain ⟨k1, k2, k3, k4, k5⟩ := of_decide_eq_true g1
  exact ⟨_, u, _, x, _, rfl, k1, h, k2, k3, k4, k5, rfl, rfl, g2⟩
/-- A turn that issues; turns, issuing and away, whose instruction does not complete; one whose instruction leaves and completes; and a load that finds no slot
of its home slice and leaves. -/
theorem witness_StepRunsDecoded_issue : (placed.select.2 = .issue ∧ fetchOk placed (fun v i => !v.heldByWays i && !v.slotless i) = true) ∧
    (∀ away : Bool, ((if away then awayWith 0x73 else State.reset.withFetchWord 32 0x73).select.2 = if away then .away else .issue) ∧
      fetchOk (if away then awayWith 0x73 else State.reset.withFetchWord 32 0x73) (fun v i => !v.heldByWays i && match exec i v with
      | .next t => !(v.completes t i)
      | _ => false) = true) ∧
    ((awayWith 0x00013083).select.2 = .away ∧ fetchOk (awayWith 0x00013083) (fun v i => !v.heldByWays i && v.mayGo i && match exec i v with
      | .next t => v.completes t i
      | _ => false) = true) ∧
    (crowded.select.2 = .issue ∧ fetchOk crowded (fun v i => !v.heldByWays i && v.slotless i && match exec i v with
      | .next t => v.completes t i
      | _ => false) = true) := by decide +kernel
theorem witness_StepRunsDecoded_scratch : ∃ (u : State) (x : Xlat) (g off : Nat), regionOf x.pa = .scratch 0 g off ∧ x.mt = .scratch ∧
    tfind (u.core (coreOf u.cur)).icache (x.pa / 128) = none ∧ u.veils g (some u.me.qtid) = [] :=
  ⟨State.reset, ⟨0, 0x10000000007C, .scratch, 0, 0, false, true, 12, 0⟩, 0, 124, by decide +kernel⟩
theorem witness_StepRunsDecoded_event : ∃ (s : State) (ns cy : Nat) (i : Instr) (a : EventArgs) (rest : List Turn),
    s.agenda = ⟨ns, cy, .event i a⟩ :: rest ∧ i.isEvent = true ∧ ∀ e, e ∈ [Instr.contextReinsertion, .packetArrival, .mxConfigQuery, .mxCommandArrival] → i ≠ e :=
  ⟨{ State.reset with agenda := [⟨5, 0, .event .moduleReset EventArgs.blank⟩] }, 5, 0, .moduleReset, EventArgs.blank, [], by decide +kernel⟩

/-- O8: branches taken and not, to a multiple of 4 and to 2 mod 4; jumps alike, with the sum at the top of the address space. -/
theorem witness_BranchesAndJumps : (∃ (s : State) (op : BranchOp) (r q : Reg), ¬ branchExpected op (s.xr r) (s.xr q)) ∧
    (∃ (s : State) (r q : Reg) (imm : BitVec 13) (to_ : Word), branchExpected .bltu (s.xr r) (s.xr q) ∧
      to_ = BitVec.ofInt 64 (s.me.pc.toInt + imm.toInt) ∧ to_.toNat % 4 = 0) ∧
    (∃ (s : State) (r q : Reg) (imm : BitVec 13) (to_ : Word), branchExpected .bge (s.xr r) (s.xr q) ∧
      to_ = BitVec.ofInt 64 (s.me.pc.toInt + imm.toInt) ∧ to_.toNat % 4 ≠ 0) ∧
    (∃ (s : State) (imm : BitVec 21) (to_ : Word), to_ = BitVec.ofInt 64 (s.me.pc.toInt + imm.toInt) ∧ to_.toNat % 4 = 0) ∧
    (∃ (s : State) (imm : BitVec 21) (to_ : Word), to_ = BitVec.ofInt 64 (s.me.pc.toInt + imm.toInt) ∧ to_.toNat % 4 ≠ 0) ∧
    (∃ (s : State) (r : Reg) (imm : BitVec 12) (sum to_ : Word), sum = BitVec.ofInt 64 ((s.xr r).toInt + imm.toInt) ∧
      to_ = BitVec.ofNat 64 (sum.toNat / 2 * 2) ∧ to_.toNat % 4 = 0) ∧
    ∃ (s : State) (r : Reg) (imm : BitVec 12) (sum to_ : Word), sum = BitVec.ofInt 64 ((s.xr r).toInt + imm.toInt) ∧
      to_ = BitVec.ofNat 64 (sum.toNat / 2 * 2) ∧ to_.toNat % 4 ≠ 0 := by
  have e : ∀ n, (on (regs [(1, 1), (2, n)])).xr 2 = n := fun n => rfl
  refine ⟨⟨on (regs [(1, 1), (2, 1)]), .bltu, 1, 2, ?_⟩, ⟨on (regs [(1, 1), (2, 2)]), 1, 2, 0x1000, _, ?_, rfl, by decide +kernel⟩,
    ⟨on (regs [(1, 1), (2, 1)]), 1, 2, 0xFFE, _, ?_, rfl, by decide +kernel⟩, ⟨on (regs []), 0x100000, _, rfl, by decide +kernel⟩,
    ⟨on (regs []), 0xFFFFE, _, rfl, by decide +kernel⟩, ⟨on (regs [(1, BitVec.allOnes 64)]), 1, 2, _, _, rfl, rfl, by decide +kernel⟩,
    ⟨on (regs [(1, BitVec.allOnes 64)]), 1, 0, _, _, rfl, rfl, by decide +kernel⟩⟩
  · show ¬ (_ < _); decide +kernel
  · show _ < _; decide +kernel
  · show _ ≤ _; decide +kernel

/-- A context with FS Initial and an address in x5. -/
def fon (a : Word) (l : List (Reg × Word)) : State := on { regs ((5, a) :: l) with mstatus := 0x2000 }

/-- O9, at the last bytes of a line, and one byte beyond. -/
theorem witness_LoadsComplete : (∃ (s u : State) (x : Xlat), loadIsF .ld = false ∧ s.loadCheck (s.xr 5 + (0x78 : BitVec 12).signExtend 64) (loadWidth .ld) = .ok (u, x)) ∧
    (∀ dbl : Bool, ∃ (s u : State) (x : Xlat), s.me.fsOff = false ∧ s.loadCheck (s.xr 5 + (0x78 : BitVec 12).signExtend 64) (if dbl then 8 else 4) = .ok (u, x)) ∧
    (∃ s : State, loadIsF .fld = true ∧ s.me.fsOff = true) ∧ (∃ (s u : State) (x : Xlat), s.loadCheck (s.xr 5) (2 ^ (3 : BitVec 2).toNat) = .ok (u, x)) ∧
    ∃ s : State, (loadIsF .fld = true → s.me.fsOff = false) ∧ 128 < (s.xr 5 + (0x79 : BitVec 12).signExtend 64).toNat % 128 + loadWidth .fld := by
  refine ⟨?_, fun dbl => ?_, ⟨on (regs []), by decide +kernel⟩, ?_, ⟨fon spad [], by decide +kernel⟩⟩
  · obtain ⟨u, x, h⟩ := ok_pair (e := (fon spad []).loadCheck ((fon spad []).xr 5 + (0x78 : BitVec 12).signExtend 64) (loadWidth .ld)) (by decide +kernel)
    exact ⟨fon spad [], u, x, rfl, h⟩
  · obtain ⟨u, x, h⟩ := ok_pair (e := (fon spad []).loadCheck ((fon spad []).xr 5 + (0x78 : BitVec 12).signExtend 64) (if dbl then 8 else 4)) (by revert dbl; decide +kernel)
    exact ⟨fon spad [], u, x, by decide +kernel, h⟩
  · obtain ⟨u, x, h⟩ := ok_pair (e := (fon spad []).loadCheck ((fon spad []).xr 5) (2 ^ (3 : BitVec 2).toNat)) (by decide +kernel)
    exact ⟨fon spad [], u, x, h⟩

theorem witness_LoadReturnsBytes : (∃ (s u : State) (x : Xlat) (g off : Nat), loadIsF .lbu = false ∧ (1 : Reg) ≠ 0 ∧
      s.loadCheck (s.xr 5 + (0x7F : BitVec 12).signExtend 64) (loadWidth .lbu) = .ok (u, x) ∧ regionOf x.pa = .scratch 0 g off ∧
      (s.core (coreOf s.cur)).storeBuffer = [] ∧ (s.core (coreOf s.cur)).posted = [] ∧ u.veils g (some u.me.qtid) = []) ∧
    ∃ (s : State) (x : Xlat) (n g off : Nat), regionOf x.pa = .scratch 0 g off ∧ 1 ≤ n ∧ n ≤ 8 ∧ (s.core (coreOf s.cur)).storeBuffer.length < 16 ∧
      (s.core (coreOf s.cur)).posted = [] ∧ s.loadWaits s.cur x.pa n = false := by
  refine ⟨?_, on (regs []), ⟨0, 0x10000000007C, .scratch, 0, 0, false, true, 12, 0⟩, 8, 0, 124, by decide +kernel⟩
  obtain ⟨⟨u, x⟩, h, g⟩ := ok_and (e := (fon spad []).loadCheck ((fon spad []).xr 5 + (0x7F : BitVec 12).signExtend 64) (loadWidth .lbu))
    (fun r => decide (regionOf r.2.pa = .scratch 0 0 127 ∧ r.1.veils 0 (some r.1.me.qtid) = [])) (by decide +kernel)
  obtain ⟨g1, g2⟩ := of_decide_eq_true g
  exact ⟨fon spad [], u, x, 0, 127, rfl, by decide, h, g1, rfl, rfl, g2⟩

theorem witness_StoresEnterTheBuffer : (∃ (s u : State) (x : Xlat), (storeIsF .fsd = true → s.me.fsOff = false) ∧
      s.storeCheck (s.xr 5 + (0x78 : BitVec 12).signExtend 64) (storeWidth .fsd) = .ok (u, x) ∧ regionOf x.pa ≠ .cfg ∧ x.mt ≠ .io ∧
      (u.core (coreOf u.cur)).storeBuffer.length < 16) ∧
    (∃ (s u : State) (x : Xlat), s.storeCheck (s.xr 5) (2 ^ (2 : BitVec 2).toNat) = .ok (u, x)) ∧
    (∃ s : State, (storeIsF .sh = true → s.me.fsOff = false) ∧ 128 < (s.xr 5 + (0x7F : BitVec 12).signExtend 64).toNat % 128 + storeWidth .sh) ∧
    ∃ s : State, storeIsF .fsw = true ∧ s.me.fsOff = true := by
  refine ⟨?_, ?_, ⟨fon spad [], by decide +kernel⟩, ⟨on (regs []), by decide +kernel⟩⟩
  · obtain ⟨⟨u, x⟩, h, g⟩ := ok_and (e := (fon spad []).storeCheck ((fon spad []).xr 5 + (0x78 : BitVec 12).signExtend 64) (storeWidth .fsd))
      (fun r => decide (regionOf r.2.pa ≠ .cfg ∧ r.2.mt ≠ .io ∧ (r.1.core (coreOf r.1.cur)).storeBuffer.length < 16)) (by decide +kernel)
    exact ⟨fon spad [], u, x, by decide +kernel, h, of_decide_eq_true g⟩
  · obtain ⟨u, x, h⟩ := ok_pair (e := (fon spad []).storeCheck ((fon spad []).xr 5) (2 ^ (2 : BitVec 2).toNat)) (by decide +kernel)
    exact ⟨fon spad [], u, x, h⟩

/-- A scratchpad translation, and a store of 8 bytes through it as a buffer entry of a context. -/
def spx (off : Nat) : Xlat := ⟨0, 0x100000000000 + off, .scratch, 0, 0, false, true, 12, 0⟩
def sbe (cid : Nat) (k : SBKind) : SBEntry := ⟨cid, false, k, 0, 0, 0, 0, none⟩
/-- The module with no contexts listed and an entry in core 0's store buffer. -/
def buffered (k : SBKind) : State := { State.reset with cores := [(0, { Core.reset with storeBuffer := [sbe 0 k] })] }
theorem witness_PerformedStoreWritesItsBytes : ∃ (s : State) (cid n since : Nat) (x : Xlat) (d pc task : Word) (tid : BitVec 12) (off : Nat)
    (vec : Option (Nat × Nat)), (s.core s.ev.a).storeBuffer[s.ev.b]? = some ⟨cid, false, .store x n d, pc, task, tid, since, vec⟩ ∧ s.mayPerform s.ev.a s.ev.b = true ∧
    regionOf x.pa = .scratch 0 (clusterOf cid) off ∧ (s.die (dieOfCluster (clusterOf cid))).stopped = false ∧ s.phasersInUse = [] ∧ s.popWaits = [] :=
  ⟨buffered (.store (spx 120) 8 7), 0, 8, 0, spx 120, 7, 0, 0, 0, 120, none, by decide +kernel⟩

/-- Context 0 with a reservation. -/
def reserving (r : Reservation) (a : Word) : State := on { regs [(5, a)] with reservation := some r }
theorem witness_LoadReservedStoreConditional : (∀ dbl : Bool, ∃ (s u : State) (x : Xlat), s.atomicCheck .load needR false (s.xr 5) (if dbl then 8 else 4) = .ok (u, x)) ∧
    (∀ dbl rl : Bool, ∃ (s u : State) (x : Xlat), s.atomicCheck .store needW true (s.xr 5) (if dbl then 8 else 4) = .ok (u, x) ∧
      (u.beforeAtomic rl x).me.reservation ≠ some ⟨x.pa, if dbl then 8 else 4⟩) ∧
    (∀ dbl rl : Bool, ∃ (s u : State) (x : Xlat), s.atomicCheck .store needW true (s.xr 5) (if dbl then 8 else 4) = .ok (u, x) ∧
      (u.beforeAtomic rl x).me.reservation = some ⟨x.pa, if dbl then 8 else 4⟩) ∧ ∀ dbl : Bool, ∃ s : State, (s.xr 5).toNat % (if dbl then 8 else 4) ≠ 0 := by
  refine ⟨fun dbl => ?_, fun dbl rl => ?_, fun dbl rl => ?_, fun dbl => ⟨fon (spad + 2) [], by revert dbl; decide +kernel⟩⟩
  · obtain ⟨u, x, h⟩ := ok_pair (e := (fon spad []).atomicCheck .load needR false ((fon spad []).xr 5) (if dbl then 8 else 4)) (by revert dbl; decide +kernel)
    exact ⟨fon spad [], u, x, h⟩
  · obtain ⟨⟨u, x⟩, h, g⟩ := ok_and (e := (reserving ⟨0x100000000000, 16⟩ spad).atomicCheck .store needW true ((reserving ⟨0x100000000000, 16⟩ spad).xr 5) (if dbl then 8 else 4))
      (fun r => decide ((r.1.beforeAtomic rl r.2).me.reservation ≠ some ⟨r.2.pa, if dbl then 8 else 4⟩)) (by revert dbl rl; decide +kernel)
    exact ⟨reserving ⟨0x100000000000, 16⟩ spad, u, x, h, of_decide_eq_true g⟩
  · obtain ⟨⟨u, x⟩, h, g⟩ := ok_and (e := (reserving ⟨0x100000000000, if dbl then 8 else 4⟩ spad).atomicCheck .store needW true
        ((reserving ⟨0x100000000000, if dbl then 8 else 4⟩ spad).xr 5) (if dbl then 8 else 4))
      (fun r => decide ((r.1.beforeAtomic rl r.2).me.reservation = some ⟨r.2.pa, if dbl then 8 else 4⟩)) (by revert dbl rl; decide +kernel)
    exact ⟨reserving ⟨0x100000000000, if dbl then 8 else 4⟩ spad, u, x, h, of_decide_eq_true g⟩

theorem witness_AtomicUpdates : (∀ n : Fin 2, ∃ (s u : State) (x : Xlat), s.atomicCheck .store needRW true (s.xr 5) (if n = 0 then 8 else 4) = .ok (u, x)) ∧
    (∃ (s : State) (x : Xlat) (n g off : Nat), regionOf x.pa = .scratch 0 g off ∧ s.tilesAt (some x.slice) x.pa n = [] ∧
      s.phasersInUse = [] ∧ s.popWaits = [] ∧ s.veils g (some s.me.qtid) = []) ∧
    (∃ old e : Word, old ≠ e) ∧ (∃ s : State, (s.xr 5).toNat % 4 ≠ 0) ∧ ∃ s : State, (s.xr 5).toNat % 8 ≠ 0 := by
  refine ⟨fun n => ?_, ⟨State.reset, spx 0, 8, 0, 0, by decide +kernel⟩,
    ⟨0, 1, by decide⟩, ⟨fon (spad + 2) [], by decide +kernel⟩, ⟨fon (spad + 4) [], by decide +kernel⟩⟩
  obtain ⟨u, x, h⟩ := ok_pair (e := (fon spad []).atomicCheck .store needRW true ((fon spad []).xr 5) (if n = 0 then 8 else 4)) (by revert n; decide +kernel)
  exact ⟨fon spad [], u, x, h⟩

/-- Context 0 in a mode. -/
def inMode (p : Priv) : State := on { regs [(5, 7)] with priv := p }
/-- O15: qvstat, whose access waits; mcycle's neighbour minstret; and each of the four reasons that make an access illegal. -/
theorem witness_CsrAccesses : (∃ (s w : State) (old : Word), s.csrLegal s.cur 0x805 true = true ∧ w = s.drainVector s.cur drainFuel ∧ w.csrRead w.cur 0x805 = some old) ∧
    (∃ s : State, s.me.priv = .m) ∧ (∃ (s : State) (csr : BitVec 12), s.me.priv.code < (csr.extractLsb' 8 2).toNat) ∧ (∃ csr : BitVec 12, csr.extractLsb' 10 2 = 3) ∧
    (∃ (s : State) (csr : BitVec 12), s.csrRead s.cur csr.toNat = none) ∧ (∃ s : State, s.me.fsOff = true) ∧
    ∃ (s : State) (src : Reg) (csr : BitVec 12), s.csrLegal s.cur csr.toNat (CsrOp.rs == .rw || src != 0) = true ∧ csr ≠ 0x805 ∧ csr ≠ 0xB02 := by
  refine ⟨?_, ⟨inMode .m, rfl⟩, ⟨inMode .u, 0x100, by decide +kernel⟩, ⟨0xC00, by decide⟩, ⟨inMode .m, 0x600, by decide +kernel⟩, ⟨inMode .u, by decide +kernel⟩,
    ⟨inMode .s, 5, 0x140, by decide +kernel⟩⟩
  obtain ⟨old, h, _⟩ := some_and (e := ((inMode .u).drainVector (inMode .u).cur drainFuel).csrRead ((inMode .u).drainVector (inMode .u).cur drainFuel).cur 0x805)
    (fun _ => true) (by decide +kernel)
  exact ⟨inMode .u, _, old, by decide +kernel, rfl, h⟩

theorem witness_FloatingPointCompletes : (∃ (s : State) (op : FpOp) (rd : Reg) (v : Word) (fl : Flags), s.me.fsOff = false ∧ s.me.fpResult op = some (.f rd v fl)) ∧
    (∃ (s : State) (op : FpOp) (rd : Reg) (v : Word) (fl : Flags), s.me.fsOff = false ∧ s.me.fpResult op = some (.x rd v fl)) ∧
    (∃ s : State, s.me.fsOff = true) ∧ (∃ (s : State) (op : FpOp), s.me.fsOff = false ∧ op.rm = some 7 ∧ 5 ≤ s.me.frm.toNat) ∧
    (∃ op : FpOp, op.rm = none) ∧ (∃ (op : FpOp) (r : BitVec 3), op.rm = some r ∧ r.toNat < 5) ∧ ∃ (s : State) (op : FpOp), op.rm = some 7 ∧ s.me.frm.toNat < 5 :=
  ⟨⟨fon 0 [], .mvFromX true 1 2, 1, 0, 0, by decide +kernel, rfl⟩, ⟨fon 0 [], .mvToX true 1 2, 1, 0, 0, by decide +kernel, rfl⟩, ⟨on (regs []), by decide +kernel⟩,
    ⟨on { regs [] with mstatus := 0x2000, frm := 5 }, .sqrt true 7 1 2, by decide +kernel⟩, ⟨.fclass true 1 2, rfl⟩, ⟨.sqrt true 4 1 2, 4, by decide⟩,
    ⟨on { regs [] with frm := 4 }, .sqrt true 7 1 2, by decide +kernel⟩⟩
theorem witness_FloatingPointBits : (∃ c : Ctx, (c.getF 1).extractLsb' 32 32 = 0xFFFFFFFF#32) ∧ ∃ c : Ctx, (c.getF 1).extractLsb' 32 32 ≠ 0xFFFFFFFF#32 :=
  ⟨⟨(regs []).setF 1 0xFFFFFFFF00000000, by decide +kernel⟩, ⟨(regs []).setF 1 0xFFFFFFFE00000000, by decide +kernel⟩⟩

theorem witness_FencesComplete : (∃ s : State, (∀ e ∈ (s.core (coreOf s.cur)).storeBuffer, e.cid ≠ s.cur) ∧ ∀ e ∈ (s.core (coreOf s.cur)).posted, e.cid ≠ s.cur) ∧
    (∃ s : State, s.me.priv ≠ .u) ∧ (∃ s : State, s.me.priv = .u) ∧ (∃ s : State, s.me.priv = .m ∧ s.Quiet) ∧
    ∃ s : State, s.me.priv = .s ∧ s.me.mstatus.getLsbD 20 = false ∧ s.Quiet := by
  unfold State.Quiet
  exact ⟨⟨State.reset, by decide +kernel⟩, ⟨inMode .s, by decide +kernel⟩, ⟨inMode .u, rfl⟩, ⟨inMode .m, by decide +kernel⟩, ⟨inMode .s, by decide +kernel⟩⟩
/-- A scratchpad page, and a copy of 16 bytes by cluster 0 from such pages for handle 3; the cluster's engines stand where SPWAYS changes. -/
def page0 (off : Nat) : Xlat := { spx off with va := 0x100000000000 + off }
def copy0 (n : Nat) (tg : Target) (j : Option Nat) : CopyOp :=
  ⟨0x100000000000, 0x100000001000, n, false, tg, [page0 0], [page0 0x1000], 0, 0, 0, 0, 0, 0, j, none, none, 0, 0⟩
def fencing (p : Priv) (busy : Bool) (l : List (Reg × Word)) : State :=
  { on { regs l with priv := p } with clusters := [(0, { Cluster.reset with spways := 2, busy := busy, copies := [copy0 16 (.handle 0 3 0) none] })] }
theorem left_of {e : Res} (h : (match e with
    | .error (.left _) => true
    | _ => false) = true) : ∃ u, e = .error (.left u) := by
  split at h
  · exact ⟨_, rfl⟩
  · cases h
/-- The fence's waits over, or a unit keeps what they wait for. -/
theorem witness_FencesComplete_waits : (∀ (ic : Bool) (p : Priv), p = .s ∨ p = .m → ∃ s u : State, s.me.priv = p ∧ s.me.mstatus.getLsbD 20 = false ∧ s.qsFence ic 2 0 0 = .ok u) ∧
    ∀ (ic : Bool) (p : Priv), p = .s ∨ p = .m → ∃ s u : State, s.me.priv = p ∧ s.me.mstatus.getLsbD 20 = false ∧ s.qsFence ic 2 0 0 = .error (.left u) := by
  refine ⟨fun ic p h => ?_, fun ic p h => ?_⟩
  · obtain ⟨u, e, _⟩ := ok_and (e := (fencing p false []).qsFence ic 2 0 0) (fun _ => true) (by revert ic; rcases h with rfl | rfl <;> decide +kernel)
    exact ⟨fencing p false [], u, rfl, by rcases h with rfl | rfl <;> decide +kernel, e⟩
  · obtain ⟨u, e⟩ := left_of (e := (fencing p true []).qsFence ic 2 0 0) (by revert ic; rcases h with rfl | rfl <;> decide +kernel)
    exact ⟨fencing p true [], u, rfl, by rcases h with rfl | rfl <;> decide +kernel, e⟩
/-- A drop by address and ASID in and out of scope, of one translation for each of two addresses. -/
theorem witness_FencesComplete_drop : (∃ (s : State) (sc g h : Nat) (e : TlbEntry), sc = 3 ∧ h / 128 = g / 128 ∧ h ≠ g ∧ e ∈ ((s.dropXlats true sc g (some 0x1FFF) (some 5)).cluster h).tlb) ∧
    ∃ sc g h : Nat, sc = 2 ∧ h ≠ g := by
  let e (va : Nat) : TlbEntry := ⟨va, 12, 5, false, 0, 0⟩
  exact ⟨⟨{ State.reset with clusters := [(1, { Cluster.reset with tlb := [e 0x1000, e 0x2000] })] }, 3, 0, 1, e 0x2000, rfl, rfl, by decide, by decide +kernel⟩, 2, 0, 1, rfl, by decide⟩
/-- PGMIG of a page of HBM that may move, with the engines idle, at work and standing; and of a scratchpad page. -/
def migrating (a : Word) (c : Option Bool) : State :=
  { on { regs [(5, a), (6, 1)] with priv := .s } with clusters := [(0, { Cluster.reset with spways := 2, copies := match c with
      | none => []
      | some _ => [{ copy0 16 (.handle 0 3 0) none with srcPages := [⟨0x10000, 0x10000, .hbm, 0, 0, false, true, 12, 0⟩] }] })], host := { HostSide.reset with up := true } }
theorem witness_FencesComplete_migrates : (∀ none? : Bool, ∃ (s u v : State) (x : Xlat), s.me.priv ≠ .u ∧ u = s.settleMe ∧ u.migratePage (u.xr 5).toNat = .ok (v, x) ∧
      (v.migrateRefusals x (u.xr 6) = [] ↔ none? = true)) ∧
    (∃ (s u v w : State) (x : Xlat) (frame : Xlat → Bool), s.me.priv ≠ .u ∧ u = s.settleMe ∧ u.migratePage (u.xr 5).toNat = .ok (v, x) ∧
      (∀ y, frame y = decide (y.pa / 2 ^ x.lg = x.pa / 2 ^ x.lg)) ∧ w = v.finishEngines frame ∧ ∀ q ∈ w.clusters, w.engineWork q.1 frame = false) ∧
    (∃ (s : State) (x : Xlat), s.me.priv ≠ .u ∧ x.mt ≠ .hbm) ∧ ∃ s : State, s.me.priv ≠ .u ∧ s.Quiet := by
  refine ⟨fun b => ?_, ?_, ⟨inMode .s, spx 0, by decide +kernel⟩, ⟨inMode .s, by unfold State.Quiet; decide +kernel⟩⟩
  · obtain ⟨⟨v, x⟩, h, g⟩ := ok_and (e := (migrating (if b then 0x10000 else spad) none).settleMe.migratePage ((migrating (if b then 0x10000 else spad) none).settleMe.xr 5).toNat)
      (fun r => decide (r.1.migrateRefusals r.2 ((migrating (if b then 0x10000 else spad) none).settleMe.xr 6) = [] ↔ b = true)) (by revert b; decide +kernel)
    exact ⟨migrating (if b then 0x10000 else spad) none, _, v, x, by cases b <;> decide +kernel, rfl, h, of_decide_eq_true g⟩
  · obtain ⟨⟨v, x⟩, h, g⟩ := ok_and (e := (migrating 0x10000 (some true)).settleMe.migratePage ((migrating 0x10000 (some true)).settleMe.xr 5).toNat)
      (fun r => (r.1.finishEngines fun y => decide (y.pa / 2 ^ r.2.lg = r.2.pa / 2 ^ r.2.lg)).clusters.all fun q =>
        !((r.1.finishEngines fun y => decide (y.pa / 2 ^ r.2.lg = r.2.pa / 2 ^ r.2.lg)).engineWork q.1 fun y => decide (y.pa / 2 ^ r.2.lg = r.2.pa / 2 ^ r.2.lg))) (by decide +kernel)
    exact ⟨migrating 0x10000 (some true), _, v, _, x, _, by decide +kernel, rfl, h, fun _ => rfl, rfl, fun q hq => by simpa using List.all_eq_true.mp g q hq⟩

/-- O20 to O22: each way a trap goes. -/
theorem witness_TrapEntries : (∃ s : State, s.me.priv ≠ .m ∧ s.me.medeleg.getLsbD 8 = true ∧ s.me.stvec ≠ 0 ∧ (s.me.priv = .u → s.me.disposition 8 = 0)) ∧
    (∃ s : State, s.me.priv ≠ .m ∧ s.me.medeleg.getLsbD 2 = true ∧ s.me.stvec ≠ 0 ∧ s.me.priv = .s) ∧
    (∃ s : State, s.me.priv = .m) ∧ (∃ s : State, s.me.medeleg.getLsbD 9 = false) ∧
    (∃ s : State, s.me.priv ≠ .m ∧ s.me.medeleg.getLsbD 2 = true ∧ s.me.stvec = 0) ∧
    ∃ s : State, s.me.priv ≠ .m ∧ s.me.medeleg.getLsbD 2 = true ∧ s.me.priv = .u ∧ s.me.disposition 2 ≠ 0 :=
  ⟨⟨on { regs [] with stvec := 4 }, by decide +kernel⟩, ⟨on { regs [] with stvec := 4, priv := .s }, by decide +kernel⟩, ⟨inMode .m, rfl⟩, ⟨inMode .s, by decide +kernel⟩,
    ⟨inMode .s, by decide +kernel⟩, ⟨on { regs [] with stvec := 4 }, by decide +kernel⟩⟩
theorem witness_EnvironmentCalls : (∃ s : State, s.me.priv = .u ∧ s.me.medeleg.getLsbD 8 = true ∧ s.me.stvec ≠ 0 ∧ s.me.qfdisp.extractLsb' 16 2 = 0) ∧
    (∃ s : State, s.me.claimed = false) ∧ ∃ s : State, s.me.claimed = true :=
  ⟨⟨on { regs [] with stvec := 4 }, by decide +kernel⟩, ⟨inMode .u, rfl⟩, ⟨on { regs [] with claimed := true }, rfl⟩⟩
theorem witness_TrapReturns : (∃ s : State, s.me.priv = .m) ∧ (∃ s : State, s.me.priv = .s ∧ s.me.mstatus.getLsbD 22 = false) ∧ (∃ s : State, s.me.priv = .u) ∧
    (∃ (s : State) (m : Bool), s.me.priv = .s ∧ m = true) ∧ ∃ s : State, s.me.priv = .s ∧ s.me.mstatus.getLsbD 22 = true :=
  ⟨⟨inMode .m, rfl⟩, ⟨inMode .s, by decide +kernel⟩, ⟨inMode .u, rfl⟩, ⟨inMode .s, true, rfl, rfl⟩, ⟨on { regs [] with priv := .s, mstatus := 0x400000 }, by decide +kernel⟩⟩
theorem witness_IllegalInstructions : (∃ s : State, s.me.priv = .u) ∧ (∃ s : State, s.me.priv = .s ∧ s.me.mstatus.getLsbD 20 = true) ∧ (∃ s : State, s.cur % 12 ≠ 0) ∧
    (∃ s : State, s.replay.cmp = true) ∧ (∃ w, ∀ i, decode w ≠ .ok i) ∧ (∃ w : BitVec 32, w.extractLsb' 0 2 ≠ 3) ∧ ∃ w : BitVec 32, w.extractLsb' 2 3 = 7 := by
  refine ⟨⟨inMode .u, rfl⟩, ⟨on { regs [] with priv := .s, mstatus := 0x100000 }, by decide +kernel⟩, ⟨{ State.reset with cur := 10 }, by decide⟩,
    ⟨{ State.reset with replay := { Replay.reset with cmp := true } }, rfl⟩, ⟨0, fun i h => ?_⟩, ⟨0xFFFFFFFE, by decide⟩, ⟨0x1F, by decide⟩⟩
  have e : (match decode 0 with
      | .ok _ => true
      | .error _ => false) = false := by decide +kernel
  rw [h] at e; cases e

/-- A wait that has begun, and context 0 in it. -/
def waitOf (k : WaitKind) (d : Option Nat) : Wait := ⟨k, 0, 0, 1, Xlat.none, 0, d⟩
def waitingIn (k : WaitKind) (d : Option Nat) (wake : Option Wake) : State := on { regs [] with wait := some (waitOf k d), wake := wake } |> fun s =>
  s.modCtx 0 fun c => { c with status := .waiting }
theorem witness_ReservationWaits : (∃ s : State, s.me.reservation = none) ∧ (∃ (s : State) (r : Reservation), s.me.reservation = some r) ∧
    (∀ k : WaitKind, ∀ past : Bool, k = .wrsNto ∨ k = .wrsSto → ∃ (s : State) (w : Wait) (d : Nat), (s.ctx s.ev.a).status = .waiting ∧ (s.ctx s.ev.a).wait = some w ∧
      (s.ctx s.ev.a).wake = none ∧ (s.ctx s.ev.a).saveNow = false ∧ w.kind = k ∧ w.deadline = some d ∧ (d ≤ s.now ↔ past = true) ∧ (s.now < d ↔ past = false)) ∧
    ∀ k : WaitKind, k = .wrsNto ∨ k = .wrsSto → ∃ (s : State) (w : Wait) (j : Wake), (s.ctx s.ev.a).status = .waiting ∧ (s.ctx s.ev.a).wait = some w ∧
      (s.ctx s.ev.a).wake = some j ∧ (s.ctx s.ev.a).saveNow = false ∧ (s.die (dieOf s.ev.a)).stopped = false ∧ w.kind = k :=
  ⟨⟨inMode .u, rfl⟩, ⟨reserving ⟨0, 8⟩ 0, ⟨0, 8⟩, rfl⟩,
    fun k past _ => ⟨waitingIn k (some (if past then 0 else 1)) none, waitOf k (some (if past then 0 else 1)), if past then 0 else 1, rfl, rfl, rfl, rfl, rfl, rfl,
      by show (if past then 0 else 1) ≤ 0 ↔ past = true; cases past <;> decide, by show 0 < (if past then 0 else 1) ↔ past = false; cases past <;> decide⟩,
    fun k _ => ⟨waitingIn k none (some ⟨0, 0, 0, 0, false⟩), waitOf k none, ⟨0, 0, 0, 0, false⟩, rfl, rfl, rfl, rfl, rfl, rfl⟩⟩
/-- A translation of address 0x10000 of HBM. -/
def queue0 : Xlat := ⟨0x10000, 0x10000, .hbm, 0, 0, false, true, 12, 0⟩
/-- Memory with some values of some sizes written: (address, bytes, value). -/
def memOf (l : List (Nat × Nat × Nat)) : Memory := l.foldl (fun m p => mwrite m p.1 p.2.1 p.2.2) []
/-- Context 0 with registers, over memory. -/
def onMem (c : Ctx) (l : List (Nat × Nat × Nat)) : State := { on c with mem := memOf l }
/-- An identity map of the first GiB as one leaf with T = 1, read, write, execute and user, under ASID 5 (R182). -/
def pagedMem : List (Nat × Nat × Nat) := [(0x20000, 8, 0x21 * 2 ^ 10 + 1), (0x21000, 8, 2 ^ 54 + 0xDF)]
def paged (l : List (Reg × Word)) (m : List (Nat × Nat × Nat)) : State := onMem { regs l with satp := 0x9000500000000020#64 } (pagedMem ++ m)
/-- The same map with PBMT I/O and T = 0. -/
def ioPaged (l : List (Reg × Word)) : State := onMem { regs l with satp := 0x9000500000000020#64 } [(0x20000, 8, 0x21 * 2 ^ 10 + 1), (0x21000, 8, 2 ^ 62 + 0xDF)]
/-- O11: a store to configuration space and one to I/O memory; and STOs, plain and releasing, with room in the buffer. -/
theorem witness_StoresEnterTheBuffer_at_once : (∃ (s u : State) (x : Xlat), (storeIsF .sd = true → s.me.fsOff = false) ∧
      s.storeCheck (s.xr 5 + (0 : BitVec 12).signExtend 64) (storeWidth .sd) = .ok (u, x) ∧ regionOf x.pa = .cfg) ∧
    (∃ (s u v w : State) (x : Xlat), (storeIsF .sd = true → s.me.fsOff = false) ∧ s.storeCheck (s.xr 5 + (0 : BitVec 12).signExtend 64) (storeWidth .sd) = .ok (u, x) ∧
      regionOf x.pa ≠ .cfg ∧ x.mt = .io ∧ u.silent x.pa = false ∧
      w = u.writeMem (clusterOf u.cur) u.me.tid x (storeWidth .sd) (u.xr 6).toNat (some u.cur) (u.byCtx u.cur) u.me.launch ∧ v = w.restorePhaser x.pa (storeWidth .sd)) ∧
    (∃ x : Xlat, (∀ a h o, regionOf x.pa ≠ .scratch a h o) ∧ x.mt = .io) ∧
    ∀ o : BitVec 2, ∃ (s u v : State) (x : Xlat), s.storeCheck (s.xr 5) (2 ^ (2 : BitVec 2).toNat) = .ok (u, x) ∧ v = (if o = 0 then u else u.settleMe) ∧
      regionOf x.pa ≠ .cfg ∧ x.mt ≠ .io ∧ (v.core (coreOf v.cur)).storeBuffer.length < 16 := by
  refine ⟨?_, ?_, ⟨{ queue0 with mt := .io }, fun a h o e => ?_, rfl⟩, fun o => ?_⟩
  · obtain ⟨⟨u, x⟩, h, g⟩ := ok_and (e := (fon 0x409000000008 []).storeCheck ((fon 0x409000000008 []).xr 5 + (0 : BitVec 12).signExtend 64) (storeWidth .sd))
      (fun r => decide (regionOf r.2.pa = .cfg)) (by decide +kernel)
    exact ⟨_, u, x, by decide +kernel, h, of_decide_eq_true g⟩
  · obtain ⟨⟨u, x⟩, h, g⟩ := ok_and (e := (ioPaged [(5, 0x40000)]).storeCheck ((ioPaged [(5, 0x40000)]).xr 5 + (0 : BitVec 12).signExtend 64) (storeWidth .sd))
      (fun r => decide (regionOf r.2.pa ≠ .cfg ∧ r.2.mt = .io ∧ r.1.silent r.2.pa = false)) (by decide +kernel)
    obtain ⟨g1, g2, g3⟩ := of_decide_eq_true g
    exact ⟨_, u, _, _, x, by decide +kernel, h, g1, g2, g3, rfl, rfl⟩
  · have : regionOf queue0.pa = .hbm := by decide +kernel
    rw [show ({ queue0 with mt := .io } : Xlat).pa = queue0.pa from rfl, this] at e; cases e
  · obtain ⟨⟨u, x⟩, h, g⟩ := ok_and (e := (fon spad []).storeCheck ((fon spad []).xr 5) (2 ^ (2 : BitVec 2).toNat))
      (fun r => decide (regionOf r.2.pa ≠ .cfg ∧ r.2.mt ≠ .io ∧ ((if o = 0 then r.1 else r.1.settleMe).core (coreOf (if o = 0 then r.1 else r.1.settleMe).cur)).storeBuffer.length < 16))
      (by revert o; decide +kernel)
    exact ⟨_, u, _, x, h, rfl, of_decide_eq_true g⟩

/-- O27. -/
theorem witness_BufferedOperations_ranges : (∃ s : State, s.xr 6 = 0) ∧
    (∃ s : State, (s.cluster (clusterOf s.cur)).busy = false ∧ 2 ^ 64 < (s.xr 5).toNat + (s.xr 6).toNat) ∧
    (∀ c : Fin 2, ∃ (s u : State) (ps : List (Xlat × Nat)), s.xr 6 ≠ 0 ∧ (s.cluster (clusterOf s.cur)).busy = false ∧ (s.xr 5).toNat + (s.xr 6).toNat ≤ 2 ^ 64 ∧
      s.rangePages (if c = 0 then .store else .load) ((s.xr 6).toNat / 4096 + 2) (s.xr 5).toNat ((s.xr 5).toNat + (s.xr 6).toNat) = .ok (u, ps, none)) ∧
    (∃ x : Xlat, x.mt = .scratch) ∧ (∃ x : Xlat, x.mt = .io) ∧ ∃ (s : State) (g pa : Nat), ∀ t, s.tileAt pa = some t → t.holders.contains g = false := by
  refine ⟨⟨inMode .u, by decide +kernel⟩, ⟨on (regs [(5, 2), (6, BitVec.allOnes 64)]), by decide +kernel⟩, fun c => ?_, ⟨spx 0, rfl⟩,
    ⟨Xlat.none, rfl⟩, ⟨State.reset, 0, 0, fun t h => by cases h⟩⟩
  obtain ⟨⟨u, ps, e⟩, h, g⟩ := ok_and (e := (on (regs [(5, 0x10FFF), (6, 4098)])).rangePages (if c = 0 then .store else .load)
      (((on (regs [(5, 0x10FFF), (6, 4098)])).xr 6).toNat / 4096 + 2) ((on (regs [(5, 0x10FFF), (6, 4098)])).xr 5).toNat
      (((on (regs [(5, 0x10FFF), (6, 4098)])).xr 5).toNat + ((on (regs [(5, 0x10FFF), (6, 4098)])).xr 6).toNat)) (fun r => r.2.2.isNone) (by revert c; decide +kernel)
  have he : e = none := Option.isNone_iff_eq_none.mp g
  subst he
  exact ⟨on (regs [(5, 0x10FFF), (6, 4098)]), u, ps, by decide +kernel, rfl, by decide +kernel, h⟩
theorem witness_BufferedOperations_tiles : (∃ (s u : State) (x : Xlat), s.tileAddr .store (s.xr 5).toNat = .ok (u, x) ∧ u.coreLive (u.xr 6).toNat = true ∧
      u.watch true (s.xr 5).toNat 1 = .ok ()) ∧
    ∃ (s u : State) (x : Xlat), s.tileAddr .store (s.xr 5).toNat = .ok (u, x) ∧ u.coreLive (u.xr 6).toNat = false := by
  constructor
  · obtain ⟨⟨u, x⟩, h, g⟩ := ok_and (e := (on (regs [(5, 0x10000), (6, 8191)])).tileAddr .store ((on (regs [(5, 0x10000), (6, 8191)])).xr 5).toNat)
      (fun r => r.1.coreLive (r.1.xr 6).toNat && okb (r.1.watch true ((on (regs [(5, 0x10000), (6, 8191)])).xr 5).toNat 1) fun _ => true) (by decide +kernel)
    obtain ⟨g1, g2⟩ := (Bool.and_eq_true _ _).mp g
    exact ⟨_, u, x, h, g1, ok_unit g2⟩
  · obtain ⟨⟨u, x⟩, h, g⟩ := ok_and (e := (on (regs [(5, 0x10000), (6, 8192)])).tileAddr .store ((on (regs [(5, 0x10000), (6, 8192)])).xr 5).toNat)
      (fun r => !(r.1.coreLive (r.1.xr 6).toNat)) (by decide +kernel)
    exact ⟨_, u, x, h, by simpa using g⟩

/-- O28: a descriptor of one row of 128 bytes at 0x10000, over the map with T = 1. -/
def declaring : State := paged [(5, 0x30000)] [(0x30000, 32, 0x10000 + 1 * 2 ^ 64 + 128 * 2 ^ 80 + 128 * 2 ^ 96 + 2 * 2 ^ 128 + 7 * 2 ^ 144)]
theorem witness_TilesComplete_declare : ∃ (s u v w : State) (x : Xlat) (n : Nat) (ps : Pages) (d : TileDesc) (rs1 : Reg) (vas : List Nat) (sec : Table (BitVec 8)) (pa home : Nat),
    (s.xr rs1).toNat % 32 = 0 ∧ s.deviceRead .store needR (s.xr rs1).toNat 32 = .ok (u, x, n) ∧ d = TileDesc.ofNat n ∧ d.ok = true ∧
    vas = ((d.sectorVas.filter fun va => va % 4096 = 0 || (va - d.base) % d.pitch = 0).foldl (fun (acc : List Nat) va =>
      if acc.any (fun u => u / 4096 = va / 4096) then acc else va :: acc) []).reverse ∧
    u.tilePages (if d.zero then needRW else needR) vas = .ok (v, ps, none) ∧ pageReason ps [] = none ∧ w = v.drainStores v.cur ∧
    sec = sectorTable (d.physSectors ps) ∧ w.tileConflict sec = none ∧ pa = ((pageAt ps d.base).map (·.pa)).getD 0 ∧
    home = lineHome ps (pa / 128) ∧ w.tileRoom home ps sec = true ∧ w.watch true d.base 1 = .ok () := by
  obtain ⟨⟨u, x, n⟩, h, g⟩ := ok_and (e := declaring.deviceRead .store needR (declaring.xr 5).toNat 32) (fun r =>
    (TileDesc.ofNat r.2.2).ok && okb (r.1.tilePages (if (TileDesc.ofNat r.2.2).zero then needRW else needR)
        (((TileDesc.ofNat r.2.2).sectorVas.filter fun va => va % 4096 = 0 || (va - (TileDesc.ofNat r.2.2).base) % (TileDesc.ofNat r.2.2).pitch = 0).foldl
          (fun (acc : List Nat) va => if acc.any (fun u => u / 4096 = va / 4096) then acc else va :: acc) []).reverse) fun q =>
      q.2.2.isNone && decide (pageReason q.2.1 [] = none ∧ (q.1.drainStores q.1.cur).tileConflict (sectorTable ((TileDesc.ofNat r.2.2).physSectors q.2.1)) = none ∧
        (q.1.drainStores q.1.cur).tileRoom (lineHome q.2.1 (((pageAt q.2.1 (TileDesc.ofNat r.2.2).base).map (·.pa)).getD 0 / 128)) q.2.1
          (sectorTable ((TileDesc.ofNat r.2.2).physSectors q.2.1)) = true) && okb ((q.1.drainStores q.1.cur).watch true (TileDesc.ofNat r.2.2).base 1) fun _ => true) (by decide +kernel)
  obtain ⟨g1, g2⟩ := (Bool.and_eq_true _ _).mp g
  obtain ⟨⟨v, ps, e⟩, h2, g3⟩ := ok_and _ g2
  obtain ⟨g4, g5⟩ := (Bool.and_eq_true _ _).mp g3
  obtain ⟨g6, g7⟩ := (Bool.and_eq_true _ _).mp g4
  have he : e = none := Option.isNone_iff_eq_none.mp g6
  subst he
  obtain ⟨k1, k2, k3⟩ := of_decide_eq_true g7
  exact ⟨declaring, u, v, _, x, n, ps, _, 5, _, _, _, _, by decide +kernel, h, rfl, g1, rfl, h2, k1, rfl, rfl, k2, rfl, rfl, k3, ok_unit g5⟩

/-- A tile declared at 0x10000, held in M by cluster 0. -/
def someTile : Tile := ⟨0x10000, 0x10000, 1, 128, 128, 2, 7, false, [⟨0x10000, 0x10000, .hbm, 0, 0, true, true, 12, 0⟩], [(0x200, 0xFF)], 0, .m, [0], 0, 0, 0, 0, []⟩
def withTile (l : List (Reg × Word)) : State := { on (regs l) with tiles := [someTile] }
def withTiles (q : Tile) : State := { on (regs [(5, 0x10000)]) with tiles := [q] }
theorem witness_TilesComplete : (∃ (s u : State) (x : Xlat) (n : Nat), (s.xr 5).toNat % 32 = 0 ∧ s.deviceRead .store needR (s.xr 5).toNat 32 = .ok (u, x, n) ∧ (TileDesc.ofNat n).ok = false) ∧
    (∀ c : Fin 2, ∃ (s u : State) (x : Xlat) (q : Tile), s.tileAddr (if c = 0 then .store else .load) (s.xr 5).toNat = .ok (u, x) ∧ u.tileAt x.pa = some q ∧
      u.watch (c = 0) (s.xr 5).toNat 1 = .ok () ∧ q.holders.contains (clusterOf s.cur) = true ∧ q.st = .m) ∧
    ∀ c : Fin 2, ∃ (s u : State) (x : Xlat), s.tileAddr (if c = 0 then .store else .load) (s.xr 5).toNat = .ok (u, x) ∧ u.tileAt x.pa = none ∧
      u.watch false (s.xr 5).toNat 1 = .ok () := by
  refine ⟨?_, fun c => ?_, fun c => ?_⟩
  · obtain ⟨⟨u, x, n⟩, h, g⟩ := ok_and (e := (on (regs [(5, 0x10000)])).deviceRead .store needR ((on (regs [(5, 0x10000)])).xr 5).toNat 32)
      (fun r => !(TileDesc.ofNat r.2.2).ok) (by decide +kernel)
    exact ⟨_, u, x, n, by decide +kernel, h, by simpa using g⟩
  · obtain ⟨⟨u, x⟩, h, g⟩ := ok_and (e := (withTile [(5, 0x10000)]).tileAddr (if c = 0 then .store else .load) ((withTile [(5, 0x10000)]).xr 5).toNat)
      (fun r => (r.1.tileAt r.2.pa == some someTile) && okb (r.1.watch (c = 0) ((withTile [(5, 0x10000)]).xr 5).toNat 1) fun _ => true) (by revert c; decide +kernel)
    obtain ⟨g1, g2⟩ := (Bool.and_eq_true _ _).mp g
    exact ⟨_, u, x, someTile, h, eq_of_beq g1, ok_unit g2, by decide +kernel, rfl⟩
  · obtain ⟨⟨u, x⟩, h, g⟩ := ok_and (e := (withTile [(5, 0x10010)]).tileAddr (if c = 0 then .store else .load) ((withTile [(5, 0x10010)]).xr 5).toNat)
      (fun r => (r.1.tileAt r.2.pa == none) && okb (r.1.watch false ((withTile [(5, 0x10010)]).xr 5).toNat 1) fun _ => true) (by revert c; decide +kernel)
    obtain ⟨g1, g2⟩ := (Bool.and_eq_true _ _).mp g
    exact ⟨_, u, x, h, eq_of_beq g1, ok_unit g2⟩

/-- TFREE of a tile at home with nothing of the context buffered; TACQ of a shared one by a holder; and TFREE of one that comes home first. -/
theorem witness_TilesComplete_states : (∃ (s u : State) (x : Xlat) (q : Tile), s.tileAddr .store (s.xr 5).toNat = .ok (u, x) ∧ u.tileAt x.pa = some q ∧ u.watch true (s.xr 5).toNat 1 = .ok () ∧
      q.st = .h ∧ q.holders = [] ∧ (u.core (coreOf u.cur)).storeBuffer = [] ∧ (u.core (coreOf u.cur)).posted = []) ∧
    (∃ (s u : State) (x : Xlat) (q : Tile), s.tileAddr .load (s.xr 5).toNat = .ok (u, x) ∧ u.tileAt x.pa = some q ∧ u.watch false (s.xr 5).toNat 1 = .ok () ∧
      q.holders.contains (clusterOf s.cur) = true ∧ q.st = .s) ∧
    ∃ (s u v w : State) (x : Xlat) (q r : Tile), s.tileAddr .store (s.xr 5).toNat = .ok (u, x) ∧ u.tileAt x.pa = some q ∧ u.watch true (s.xr 5).toNat 1 = .ok () ∧
      v = (u.drainStores u.cur).tilePush q false ∧ v.tileAt x.pa = some r ∧ w = v.tileRecall r (v.sliceWake v.me.qtid r.home) := by
  refine ⟨?_, ?_, ?_⟩
  · obtain ⟨⟨u, x⟩, h, g⟩ := ok_and (e := (withTiles { someTile with st := .h, holders := [] }).tileAddr .store ((withTiles { someTile with st := .h, holders := [] }).xr 5).toNat)
      (fun r => decide (r.1.tileAt r.2.pa = some { someTile with st := .h, holders := [] } ∧ (r.1.core (coreOf r.1.cur)).storeBuffer = [] ∧ (r.1.core (coreOf r.1.cur)).posted = []) &&
        okb (r.1.watch true ((withTiles { someTile with st := .h, holders := [] }).xr 5).toNat 1) fun _ => true) (by decide +kernel)
    obtain ⟨g1, g2⟩ := (Bool.and_eq_true _ _).mp g
    obtain ⟨k1, k2, k3⟩ := of_decide_eq_true g1
    exact ⟨_, u, x, _, h, k1, ok_unit g2, rfl, rfl, k2, k3⟩
  · obtain ⟨⟨u, x⟩, h, g⟩ := ok_and (e := (withTiles { someTile with st := .s, holders := [1, 0] }).tileAddr .load ((withTiles { someTile with st := .s, holders := [1, 0] }).xr 5).toNat)
      (fun r => decide (r.1.tileAt r.2.pa = some { someTile with st := .s, holders := [1, 0] }) &&
        okb (r.1.watch false ((withTiles { someTile with st := .s, holders := [1, 0] }).xr 5).toNat 1) fun _ => true) (by decide +kernel)
    obtain ⟨g1, g2⟩ := (Bool.and_eq_true _ _).mp g
    exact ⟨_, u, x, _, h, of_decide_eq_true g1, ok_unit g2, by decide +kernel, rfl⟩
  · obtain ⟨⟨u, x⟩, h, g⟩ := ok_and (e := (withTile [(5, 0x10000)]).tileAddr .store ((withTile [(5, 0x10000)]).xr 5).toNat)
      (fun r => decide (r.1.tileAt r.2.pa = some someTile) && somb (((r.1.drainStores r.1.cur).tilePush someTile false).tileAt r.2.pa) (fun _ => true) &&
        okb (r.1.watch true ((withTile [(5, 0x10000)]).xr 5).toNat 1) fun _ => true) (by decide +kernel)
    obtain ⟨g, g3⟩ := (Bool.and_eq_true _ _).mp g
    obtain ⟨g1, g2⟩ := (Bool.and_eq_true _ _).mp g
    obtain ⟨r, k, -⟩ := some_and _ g2
    exact ⟨_, u, _, _, x, someTile, r, h, of_decide_eq_true g1, ok_unit g3, rfl, k, rfl⟩

/-- O29: an accumulate to HBM, to an odd address, and to a scratchpad. -/
def accTo (a : Word) : State := on { regs [(5, a)] with qvwin := 0x200000#64 }
theorem witness_AccumulatesComplete : (∃ (s u : State) (x : Xlat), s.me.windowFault [31] = none ∧ s.vecFull = false ∧ s.accDest (s.xr 5).toNat = .ok (u, x) ∧ s.replay.cmp = false) ∧
    (∃ s : State, s.me.windowFault [31] = none ∧ s.vecFull = false ∧ (s.xr 5).toNat % 128 ≠ 0) ∧
    ∃ (s u : State) (x : Xlat), s.me.windowFault [31] = none ∧ s.vecFull = false ∧ (s.xr 5).toNat % 128 = 0 ∧ s.xlate (s.view s.cur) needW (s.xr 5).toNat = .ok (u, x) ∧
      regionOf x.pa ≠ .cfg ∧ x.mt ≠ .hbm ∧ x.mt ≠ .peer ∧ u.accessOk .write x.pa 128 = true ∧ u.pmpOk (s.view s.cur) (s.view s.cur).priv needW x.pa 128 = true := by
  refine ⟨?_, ⟨accTo 0x10040, by decide +kernel⟩, ?_⟩
  · obtain ⟨u, x, h⟩ := ok_pair (e := (accTo 0x10080).accDest ((accTo 0x10080).xr 5).toNat) (by decide +kernel)
    exact ⟨_, u, x, by decide +kernel, by decide +kernel, h, rfl⟩
  · exact ⟨accTo spad, accTo spad, ⟨0x100000000000, 0x100000000000, .scratch, 0, 0, false, true, 12, 0⟩, by decide +kernel, by decide +kernel, by decide +kernel, rfl, by decide +kernel⟩

/-- O30: 4,096 bytes from 0x20000 to 0x10000 with handle 3 of the own cluster, or with the phaser at 0x30000. -/
def copying (ph : Bool) (n : Word) : State := on (regs [(1, if ph then 0x30000 else 3), (5, 0x10000), (6, 0x20000), (7, n)])
/-- What the clauses of O30 share, as a check: the scan, the target, the sealed scan and the later checks, and `p` of the state before the queue. -/
def copyOk (s : State) (dc ph : Bool) (p : State → Target → Bool) : Bool :=
  okb (s.copyScan (s.view s.cur) dc (s.xr 5).toNat (s.xr 6).toNat (s.xr 7).toNat) fun r => r.2.2.2.isNone && okb (r.1.targetOf ph (s.xr 1)) fun q => q.2.2.isNone && match q.2.1 with
    | none => false
    | some tg => okb (q.1.sealedScan (q.1.view q.1.cur) r.2.2.1 dc (s.xr 6).toNat (s.xr 7).toNat) fun z => z.2.2.2.isNone &&
      decide (z.1.copyRangesOk z.2.2.1 (clusterOf s.cur) z.1.me.qtid dc ph r.2.1 z.2.1 (s.xr 5).toNat (s.xr 6).toNat (s.xr 7).toNat = true) && p z.1 tg &&
      okb (z.1.watchAll ([(true, (s.xr 5).toNat, 1), (false, (s.xr 6).toNat, 1)] ++ if ph then [(true, (s.xr 1).toNat, 1)] else [])) fun _ => true
theorem copy_of {s : State} {dc ph : Bool} {p : State → Target → Bool} (h : copyOk s dc ph p = true) : ∃ (u v w : State) (dp sp sq : Pages) (tg : Target) (j : Option Nat),
    s.copyScan (s.view s.cur) dc (s.xr 5).toNat (s.xr 6).toNat (s.xr 7).toNat = .ok (u, dp, sp, none) ∧ u.targetOf ph (s.xr 1) = .ok (v, some tg, none) ∧
    v.sealedScan (v.view v.cur) sp dc (s.xr 6).toNat (s.xr 7).toNat = .ok (w, sq, j, none) ∧
    w.copyRangesOk j (clusterOf s.cur) w.me.qtid dc ph dp sq (s.xr 5).toNat (s.xr 6).toNat (s.xr 7).toNat = true ∧ p w tg = true ∧
    w.watchAll ([(true, (s.xr 5).toNat, 1), (false, (s.xr 6).toNat, 1)] ++ if ph then [(true, (s.xr 1).toNat, 1)] else []) = .ok () := by
  obtain ⟨⟨u, dp, sp, e⟩, h1, g⟩ := ok_and _ h
  obtain ⟨g1, g⟩ := (Bool.and_eq_true _ _).mp g
  have he : e = none := Option.isNone_iff_eq_none.mp g1
  obtain ⟨⟨v, tg, e2⟩, h2, g⟩ := ok_and _ g
  obtain ⟨g1, g⟩ := (Bool.and_eq_true _ _).mp g
  have he2 : e2 = none := Option.isNone_iff_eq_none.mp g1
  subst he he2
  cases tg with
  | none => cases g
  | some tg =>
    obtain ⟨⟨w, sq, j, e3⟩, h3, g⟩ := ok_and (e := v.sealedScan (v.view v.cur) sp dc (s.xr 6).toNat (s.xr 7).toNat) _ g
    obtain ⟨g, k4⟩ := (Bool.and_eq_true _ _).mp g
    obtain ⟨g, k3⟩ := (Bool.and_eq_true _ _).mp g
    obtain ⟨k1, k2⟩ := (Bool.and_eq_true _ _).mp g
    have he3 : e3 = none := Option.isNone_iff_eq_none.mp k1
    subst he3
    exact ⟨u, v, w, dp, sp, sq, tg, j, h1, h2, h3, of_decide_eq_true k2, k3, ok_unit k4⟩
/-- A queue with one place left, of copies and an admitted entry of a staging, and a full one. -/
def copyQueue (ph : Bool) (n : Nat) (l : Word) : State :=
  { copying ph l with
    clusters := [(0, { Cluster.reset with spways := 2, copies := List.replicate n (copy0 16 (.handle 0 3 0) none) })]
    dies := [(0, { Die.reset with stagings := [⟨0, none, [⟨page0 0, 64, false, false, 0, [], false, false, false, false⟩], 0, 0, 0, true, false, none⟩] })] }
theorem witness_CopiesIssue :
    (∀ dc ph : Bool, copyOk (copyQueue ph 62 4096) dc ph (fun w tg => w.targetFree tg && decide (w.copyLoad (clusterOf (copyQueue ph 62 4096).cur) < 64)) = true) ∧
    (∀ dc ph : Bool, copyOk (copyQueue ph 63 4096) dc ph (fun w tg => w.targetFree tg && decide (64 ≤ w.copyLoad (clusterOf (copyQueue ph 63 4096).cur))) = true) ∧
    copyOk (copyQueue false 0 0) false false (fun w tg => w.targetFree tg) = true ∧
    (∃ s : State, (s.cluster (clusterOf s.cur)).busy = false ∧ (s.xr 7).toNat ≤ 2 ^ 32 ∧ (s.xr 7).toNat % 4096 = 0 ∧ (s.xr 6).toNat % 16 = 0) ∧
    ∃ (s : State) (g h : Nat) (w : Word), s.targetFree (.handle g h w) = true :=
  ⟨by decide +kernel, by decide +kernel, by decide +kernel, ⟨copying false 4096, by decide +kernel⟩, State.reset, 0, 255, 255, by decide⟩
/-- Context 0 in M mode with no PMP entry on, copying 2^32 + 2 bytes of HBM to handle 3. -/
def hugeCtx : Ctx := { Ctx.reset with status := .running, priv := .m, pmpcfg := Vector.replicate 16 0 } |> fun c => ((c.setX 1 3).setX 5 0x40000).setX 7 0x100000002
def huge : State := { State.reset with ctxs := [(0, hugeCtx)] }
/-- Every access of that context passes PMP; every scan of its HBM passes and leaves the module as it is. -/
theorem huge_pmp (need : Need) (pa n : Nat) : hugeCtx.pmpOk .m need pa n = true := by
  have h : ∀ i, i < 16 → hugeCtx.pmpRange i = none := by decide +kernel
  unfold Ctx.pmpOk
  rw [List.find?_eq_none.mpr fun i hi => by rw [h i (List.mem_range.mp hi)]; exact Bool.false_ne_true]
  rfl
theorem huge_scan (cls : Cls) (need : Need) (k va stop : Nat) (h : stop ≤ 2 ^ 41) :
    ∃ xs, huge.scanPages (huge.view 0) cls need true k va stop = .ok (huge, xs, none) := by
  induction k generalizing va with
  | zero => exact ⟨[], rfl⟩
  | succ k ih =>
    unfold State.scanPages
    by_cases hv : stop ≤ va
    · exact ⟨[], by rw [if_pos hv]⟩
    rw [if_neg hv]
    obtain ⟨xs, hx⟩ := ih (min stop ((va / 4096 + 1) * 4096))
    have hp : (huge.view 0).priv = .m := by decide +kernel
    have hr : regionOf va = .hbm := if_pos (by omega)
    have hb : (huge.cluster (huge.view 0).g).busy = false := by decide +kernel
    have ht : huge.twinPa (huge.view 0) va = va := by
      unfold State.twinPa
      exact if_pos (by decide +kernel)
    have hx' : huge.xlate (huge.view 0) need va = .ok (huge, ⟨va, va, .hbm, 0, 0, false, true, 12, 0⟩) := by
      unfold State.xlate
      simp only [hp, decide_true, Bool.true_or, if_true, ht]
      rw [if_neg (by omega)]
      simp [memTypeOf, hr]
    have ha : huge.accessOk (if need.w then .write else .read) va (min stop ((va / 4096 + 1) * 4096) - va) = true := by
      simp only [State.accessOk, hr, isHbm, decide_eq_true_eq]; omega
    have hq : huge.pmpOk (huge.view 0) .m need va (min stop ((va / 4096 + 1) * 4096) - va) = true := by
      exact huge_pmp need va (min stop ((va / 4096 + 1) * 4096) - va)
    refine ⟨⟨va, va, .hbm, 0, 0, false, true, 12, 0⟩ :: xs, ?_⟩
    simp only [hx', hb, hx, hp, ha, hq, Bool.false_and]
    rfl
theorem huge_copyScan (dst src n : Nat) (h1 : dst + n ≤ 2 ^ 41) (h2 : src + n ≤ 2 ^ 41) (h3 : dst % 2 = 0) (h4 : n % 2 = 0) :
    ∃ dp sp, huge.copyScan (huge.view 0) false dst src n = .ok (huge, dp, sp, none) := by
  obtain ⟨dp, hd⟩ := huge_scan .store needW (n / 4096 + 2) dst (dst + n) h1
  obtain ⟨sp, hs⟩ := huge_scan .load needR (n / 4096 + 2) src (src + n) h2
  have ho : oddAlias dp dst n = false := by unfold oddAlias; rw [h3, h4]; rfl
  refine ⟨dp, sp, ?_⟩
  unfold State.copyScan
  simp only [copySrcLen, hd, hs, ho, Bool.false_eq_true, if_false, bind, Except.bind]
  rfl
theorem witness_CopiesIssue_size : ∃ (s u v w : State) (dp sp sq : Pages) (tg : Option Target) (j : Option Nat), (s.cluster (clusterOf s.cur)).busy = false ∧
    s.copyScan (s.view s.cur) false (s.xr 5).toNat (s.xr 6).toNat (s.xr 7).toNat = .ok (u, dp, sp, none) ∧
    u.targetOf false (s.xr 1) = .ok (v, tg, none) ∧ v.sealedScan (v.view v.cur) sp false (s.xr 6).toNat (s.xr 7).toNat = .ok (w, sq, j, none) ∧
    2 ^ 32 < (s.xr 7).toNat := by
  obtain ⟨dp, sp, hd⟩ := huge_copyScan 0x40000 0 0x100000002 (by decide) (by decide) rfl rfl
  obtain ⟨⟨v, tg, e⟩, ht, g⟩ := ok_and (e := huge.targetOf false (huge.xr 1)) (fun r => decide (r.1 = huge ∧ r.2.2 = none)) (by decide +kernel)
  obtain ⟨hv, he⟩ := of_decide_eq_true g
  subst hv he
  have h5 : (huge.xr 5).toNat = 0x40000 := by decide +kernel
  have h6 : (huge.xr 6).toNat = 0 := by decide +kernel
  have h7 : (huge.xr 7).toNat = 0x100000002 := by decide +kernel
  have hc : huge.cur = 0 := rfl
  refine ⟨huge, huge, huge, huge, dp, sp, sp, tg, none, by decide +kernel, by rw [h5, h6, h7]; exact hd, ht, ?_, by rw [h7]; decide⟩
  · rw [h6, h7]
    have : ∀ pa, huge.sessionAt pa = none := fun pa => rfl
    have hj : ∀ o : Option Xlat, (o.bind fun x => huge.sessionAt x.pa) = none := fun o => by cases o <;> rfl
    unfold State.sealedScan
    simp only [hj]
    rfl
theorem witness_BufferHandles : (∃ s : State, s.handleOf (s.xr 5) false = none) ∧ (∃ (s : State) (g h : Nat), s.handleOf (s.xr 5) false = some (g, h) ∧
      (s.xr 6).extractLsb' 0 4 ≠ 0 ∧ (s.xr 6).extractLsb' 4 60 = 0 ∧ (s.xr 6).getLsbD (s.handle g h).st.toNat = true) ∧
    (∃ (s : State) (g h : Nat), s.handleOf (s.xr 5) false = some (g, h) ∧ (s.xr 6).extractLsb' 0 4 ≠ 0 ∧ (s.xr 6).extractLsb' 4 60 = 0 ∧
      (s.handle g h).err = false ∧ (s.xr 6).getLsbD (s.handle g h).st.toNat = false) ∧ (∃ s : State, s.xr 6 ≠ 0 ∧ s.xr 6 ≠ 3) ∧
    (∀ v : Fin 2, ∃ (s u : State) (g h : Nat), s.handleOf (s.xr 5) false = some (g, h) ∧ u = s.settleMe ∧ s.xr 6 = (if v = 0 then 3 else 0) ∧ (u.handle g h).st = 2) ∧
    ∃ (s u : State) (g h : Nat), s.handleOf (s.xr 5) false = some (g, h) ∧ u = s.settleMe ∧ s.xr 6 = 3 ∧ (u.handle g h).st ≠ 2 := by
  refine ⟨⟨on (regs [(5, 0x100000)]), by decide +kernel⟩, ⟨on (regs [(5, 255), (6, 1)]), 0, 255, by decide +kernel⟩, ⟨on (regs [(5, 255), (6, 8)]), 0, 255, by decide +kernel⟩,
    ⟨on (regs [(6, 1)]), by decide +kernel⟩, fun v => ?_, ⟨on (regs [(5, 0), (6, 3)]), _, 0, 0, by decide +kernel, rfl, by decide +kernel⟩⟩
  exact ⟨(on (regs [(5, 0), (6, if v = 0 then 3 else 0)])).changeHandle 0 0 2 false 0 0, _, 0, 0, by revert v; decide +kernel, rfl, by revert v; decide +kernel⟩
/-- O32: a descriptor of each stack command at 0x30000, for handle 9 or the phaser at 0x32000; HSGATH's table at an address that does not translate. -/
def stackDescs (op : StackOp) (ck : Bool) (table : Nat) : Nat := (if ck then 2 ^ 64 else 0) + match op with
  | .gath => 1 * 2 ^ 96 + table * 2 ^ 128 + 0x11000 * 2 ^ 192 + 0x12000 * 2 ^ 256 + 16 * 2 ^ 320 + 16 * 2 ^ 352
  | .red => 2 * 2 ^ 72 + 2 * 2 ^ 96 + 0x10000 * 2 ^ 128 + 0x11000 * 2 ^ 192 + 1 * 2 ^ 320
  | .conv => 1 * 2 ^ 96 + 0x10000 * 2 ^ 128 + 0x11000 * 2 ^ 192
  | .gemv => 10 * 2 ^ 72 + 1 * 2 ^ 96 + 0x10000 * 2 ^ 128 + 0x11000 * 2 ^ 192 + 0x12000 * 2 ^ 256 + 1 * 2 ^ 320 + 128 * 2 ^ 352
def stacking (op : StackOp) (ck : Bool) (table : Nat) : State :=
  onMem (regs [(5, 0x30000), (6, if ck then 0x32000 else 9)]) [(0x30000, 64, stackDescs op ck table), (0x11000, 16, if op = .red then 0x10000 + 0x13000 * 2 ^ 64 else 0)]
/-- The bytes of a primary operand. -/
def stackLen (op : StackOp) (q : StackDesc) : Nat := match op with
  | .gath => 0
  | .red => q.w28 * (etypeWidth q.fmt / 8)
  | .conv => (q.count * convSrc q.fmt + 7) / 8
  | .gemv => (q.count - 1) * q.pitch + q.w28 * (etypeWidth q.fmt / 8)
/-- The premises of O32's stack clause, as checks, and `p` of the operands' translations, the state before the target is taken and the descriptor. -/
def stackPanel (ps : Pages) (q : StackDesc) (n0 : Nat) : Bool := ps.all fun f => ps.all fun g =>
  decide (q.w10 / 4096 ≤ f.va / 4096 → f.va < q.w10 + n0 → q.w10 / 4096 ≤ g.va / 4096 → g.va < q.w10 + n0 → f.pa / 2 ^ 40 % 4 = g.pa / 2 ^ 40 % 4)
def stackApart (op : StackOp) (ps : Pages) (q : StackDesc) (n0 : Nat) (srcs : List Nat) : Bool := op != .red || (srcs.drop 1).all fun p => !rangesOverlap
  (physPieces (ps.filter fun f => q.w10 / 4096 ≤ f.va / 4096 && f.va < q.w10 + n0) q.w10 n0)
  (physPieces (ps.filter fun f => p / 4096 ≤ f.va / 4096 && f.va < p + n0) p n0)
def stackLast (s : State) (op : StackOp) (d : BitVec 512) (srcs : List Nat) (ps : Pages) (y : State) (p : Pages → State → StackDesc → Bool) : Bool :=
  okb (y.targetOf (stackDesc d).ck (y.xr 6)) fun t => t.2.2.isNone && somb t.2.1 fun tg => stackPanel ps (stackDesc d) (stackLen op (stackDesc d)) &&
    stackApart op ps (stackDesc d) (stackLen op (stackDesc d)) srcs && t.1.targetFree tg &&
    (okb (t.1.watchAll ((true, (s.xr 5).toNat, 1) :: ((stackRanges op d srcs).map fun r => (r.1, r.2.1, 1)) ++
      (if (stackDesc d).ck then [(true, (y.xr 6).toNat, 1)] else []))) fun _ => true) && p ps t.1 (stackDesc d)
def stackOk (s : State) (op : StackOp) (p : Pages → State → StackDesc → Bool) : Bool :=
  okb (s.access .store needRW .write (s.xr 5).toNat 64) fun a =>
    let v := (a.1.loadBytes a.2 64).1
    let d := BitVec.ofNat 512 (a.1.loadBytes a.2 64).2
    decide (a.2.mt = .hbm ∨ a.2.mt = .sw) && stackDescOk op d && okb (v.stackPages (if op = .red then [(false, (stackDesc d).w18, 8 * (stackDesc d).count)] else [])) fun l =>
      let xs := if op = .red then l.1.stackSources l.2.1 (stackDesc d).w18 (stackDesc d).count else (l.1, [])
      l.2.2.isNone && (xs.2.all fun p => p % (etypeWidth (stackDesc d).fmt / 8) == 0) && okb (xs.1.stackPages (stackRanges op d xs.2)) fun m =>
        m.2.2.isNone && stackLast s op d xs.2 m.2.1 m.1 p
/-- Some base meets the last two premises, whatever the translations. -/
theorem stack_base (z : State) (ps : Pages) (w10 w20 : Nat) : ∃ base : Nat, (∀ f, pageAt ps w10 = some f → base = f.pa) ∧
    (pageAt ps w10 = none → (∀ r f, z.xlate (z.view z.cur) needR w10 = .ok (r, f) → base = f.pa) ∧
      ∀ e, z.xlate (z.view z.cur) needR w10 = .error e → ∀ f, pageAt ps w20 = some f → base = f.pa) := by
  cases h1 : pageAt ps w10 with
  | some f => exact ⟨f.pa, fun g h => congrArg Xlat.pa (Option.some.inj h), fun h => nomatch h⟩
  | none =>
    cases h2 : z.xlate (z.view z.cur) needR w10 with
    | ok r => exact ⟨r.2.pa, fun g h => (nomatch h), fun _ => ⟨fun a b h => congrArg (fun e => e.2.pa) (Except.ok.inj h), fun e h => nomatch h⟩⟩
    | error e =>
      cases h3 : pageAt ps w20 with
      | some f => exact ⟨f.pa, fun g h => (nomatch h), fun _ => ⟨fun a b h => (nomatch h), fun e h g k => congrArg Xlat.pa (Option.some.inj k)⟩⟩
      | none => exact ⟨0, fun g h => (nomatch h), fun _ => ⟨fun a b h => (nomatch h), fun e h g k => nomatch k⟩⟩
theorem stack_apart {ps : Pages} {q : StackDesc} {n0 : Nat} {srcs : List Nat} (h : stackApart .red ps q n0 srcs = true) : ∀ p ∈ srcs.drop 1, rangesOverlap
    (physPieces (ps.filter fun f => q.w10 / 4096 ≤ f.va / 4096 && f.va < q.w10 + n0) q.w10 n0)
    (physPieces (ps.filter fun f => p / 4096 ≤ f.va / 4096 && f.va < p + n0) p n0) = false := fun p hp =>
  (Bool.not_eq_true' _).mp (List.all_eq_true.mp h p hp)
theorem stack_of {s : State} {op : StackOp} {p : Pages → State → StackDesc → Bool} (h : stackOk s op p = true) :
    ∃ (u v w x y z : State) (dx : Xlat) (raw n0 base : Nat) (srcs : List Nat) (lp ps : Pages) (tg : Target) (d : BitVec 512) (q : StackDesc),
      s.access .store needRW .write (s.xr 5).toNat 64 = .ok (u, dx) ∧ (dx.mt = .hbm ∨ dx.mt = .sw) ∧
      u.loadBytes dx 64 = (v, raw) ∧ d = BitVec.ofNat 512 raw ∧ stackDescOk op d = true ∧ q = stackDesc d ∧
      v.stackPages (if op = .red then [(false, q.w18, 8 * q.count)] else []) = .ok (w, lp, none) ∧
      (x, srcs) = (if op = .red then w.stackSources lp q.w18 q.count else (w, [])) ∧
      (∀ p ∈ srcs, p % (etypeWidth q.fmt / 8) = 0) ∧
      x.stackPages (stackRanges op d srcs) = .ok (y, ps, none) ∧ y.targetOf q.ck (y.xr 6) = .ok (z, some tg, none) ∧
      n0 = (match op with
        | .gath => 0
        | .red => q.w28 * (etypeWidth q.fmt / 8)
        | .conv => (q.count * convSrc q.fmt + 7) / 8
        | .gemv => (q.count - 1) * q.pitch + q.w28 * (etypeWidth q.fmt / 8)) ∧
      (∀ f ∈ ps, ∀ g ∈ ps, q.w10 / 4096 ≤ f.va / 4096 → f.va < q.w10 + n0 → q.w10 / 4096 ≤ g.va / 4096 → g.va < q.w10 + n0 →
        f.pa / 2 ^ 40 % 4 = g.pa / 2 ^ 40 % 4) ∧
      (op = .red → ∀ p ∈ srcs.drop 1, rangesOverlap
        (physPieces (ps.filter fun f => q.w10 / 4096 ≤ f.va / 4096 && f.va < q.w10 + n0) q.w10 n0)
        (physPieces (ps.filter fun f => p / 4096 ≤ f.va / 4096 && f.va < p + n0) p n0) = false) ∧
      z.targetFree tg = true ∧
      z.watchAll ((true, (s.xr 5).toNat, 1) :: ((stackRanges op d srcs).map fun r => (r.1, r.2.1, 1)) ++
        (if q.ck then [(true, (y.xr 6).toNat, 1)] else [])) = .ok () ∧
      (∀ f, pageAt ps q.w10 = some f → base = f.pa) ∧
      (pageAt ps q.w10 = none → (∀ r f, z.xlate (z.view z.cur) needR q.w10 = .ok (r, f) → base = f.pa) ∧
        ∀ e, z.xlate (z.view z.cur) needR q.w10 = .error e → ∀ f, pageAt ps q.w20 = some f → base = f.pa) ∧ p ps z q = true := by
  obtain ⟨⟨u, dx⟩, h1, g⟩ := ok_and _ h
  obtain ⟨g, g3⟩ := (Bool.and_eq_true _ _).mp g
  obtain ⟨g1, g2⟩ := (Bool.and_eq_true _ _).mp g
  obtain ⟨⟨w, lp, e1⟩, h2, g⟩ := ok_and _ g3
  obtain ⟨g, g6⟩ := (Bool.and_eq_true _ _).mp g
  obtain ⟨g4, g5⟩ := (Bool.and_eq_true _ _).mp g
  have he1 : e1 = none := Option.isNone_iff_eq_none.mp g4
  subst he1
  obtain ⟨⟨y, ps, e2⟩, h3, g⟩ := ok_and _ g6
  obtain ⟨g7, g8⟩ := (Bool.and_eq_true _ _).mp g
  have he2 : e2 = none := Option.isNone_iff_eq_none.mp g7
  subst he2
  obtain ⟨⟨z, tg, e3⟩, h4, g⟩ := ok_and _ g8
  obtain ⟨g9, g10⟩ := (Bool.and_eq_true _ _).mp g
  have he3 : e3 = none := Option.isNone_iff_eq_none.mp g9
  subst he3
  obtain ⟨tg, h5, g⟩ := some_and _ g10
  have h5 : _ = some tg := h5
  subst h5
  obtain ⟨g, k5⟩ := (Bool.and_eq_true _ _).mp g
  obtain ⟨g, k4⟩ := (Bool.and_eq_true _ _).mp g
  obtain ⟨g, k3⟩ := (Bool.and_eq_true _ _).mp g
  obtain ⟨k1, k2⟩ := (Bool.and_eq_true _ _).mp g
  obtain ⟨base, b1, b2⟩ := stack_base z ps (stackDesc (BitVec.ofNat 512 (u.loadBytes dx 64).2)).w10 (stackDesc (BitVec.ofNat 512 (u.loadBytes dx 64).2)).w20
  refine ⟨u, _, w, _, y, z, dx, _, stackLen op (stackDesc (BitVec.ofNat 512 (u.loadBytes dx 64).2)), base, _, lp, ps, tg, _, _, h1, of_decide_eq_true g1, rfl, rfl, g2, rfl, h2, rfl,
    fun p hp => eq_of_beq (List.all_eq_true.mp g5 p hp), h3, h4, by cases op <;> rfl,
    fun f hf g' hg => of_decide_eq_true (List.all_eq_true.mp (List.all_eq_true.mp k1 f hf) g' hg), fun ho p hp => ?_, k3, ok_unit k4, b1, b2, k5⟩
  subst ho
  exact stack_apart k2 p hp
theorem witness_EngineCommandsIssue : (∀ (op : StackOp) (ck : Bool), stackOk (stacking op ck 0x10000) op (fun ps z q => q.ck == ck &&
      ((pageAt ps q.w10).isSome || (z.xlate (z.view z.cur) needR q.w10).toOption.isSome)) = true) ∧
    stackOk (stacking .gath false (2 ^ 60)) .gath (fun ps z q => (pageAt ps q.w10).isNone && (pageAt ps q.w20).isSome &&
      (z.xlate (z.view z.cur) needR q.w10).toOption.isNone) = true ∧
    (∃ s : State, (s.xr 5).toNat % 64 ≠ 0) ∧ (∃ s : State, (s.xr 5).toNat % 16 ≠ 0) :=
  ⟨fun op ck => by cases op <;> cases ck <;> decide +kernel, by decide +kernel, ⟨on (regs [(5, 32)]), by decide +kernel⟩, ⟨on (regs [(5, 8)]), by decide +kernel⟩⟩
/-- The checks of STGREQ before its fields, and `p` of the state after them, the head's count and its entries. -/
def stgOk (s : State) (p : State → Nat → List (Option StageEntry) → Bool) : Bool :=
  okb (s.deviceRead .store needR (s.xr 5).toNat 16) fun r =>
    let n := if 1 ≤ r.2.2 % 16 ∧ r.2.2 % 16 ≤ 8 ∧ r.2.2 / 16 % 2 ^ 60 = 0 ∧ r.2.2 / 2 ^ 96 = 0 then r.2.2 % 16 else 0
    okb (r.1.pages .store needR ((s.xr 5).toNat + 16) (16 * n)) fun q => okb (q.1.stgreqEntries ((s.xr 5).toNat + 16) n) fun e =>
      okb (e.1.stgreqPages ((e.2.filterMap id).filter fun e => !e.scratch)) fun z => z.2.2.isNone && p z.1 n e.2
theorem stg_of {s : State} {p : State → Nat → List (Option StageEntry) → Bool} (h : stgOk s p = true) :
    ∃ (u v w z : State) (x : Xlat) (ps : Pages) (h n : Nat) (rs : List (Option StageEntry)) (fs : List StageEntry),
      s.deviceRead .store needR (s.xr 5).toNat 16 = .ok (u, x, h) ∧
      n = (if 1 ≤ h % 16 ∧ h % 16 ≤ 8 ∧ h / 16 % 2 ^ 60 = 0 ∧ h / 2 ^ 96 = 0 then h % 16 else 0) ∧
      u.pages .store needR ((s.xr 5).toNat + 16) (16 * n) = .ok (v, ps) ∧ v.stgreqEntries ((s.xr 5).toNat + 16) n = .ok (w, rs) ∧
      w.stgreqPages ((rs.filterMap id).filter fun e => !e.scratch) = .ok (z, fs, none) ∧ p z n rs = true := by
  obtain ⟨⟨u, x, k⟩, h1, g⟩ := ok_and _ h
  obtain ⟨⟨v, ps⟩, h2, g⟩ := ok_and _ g
  obtain ⟨⟨w, rs⟩, h3, g⟩ := ok_and _ g
  obtain ⟨⟨z, fs, e⟩, h4, g⟩ := ok_and _ g
  obtain ⟨g1, g2⟩ := (Bool.and_eq_true _ _).mp g
  have he : e = none := Option.isNone_iff_eq_none.mp g1
  subst he
  exact ⟨u, v, w, z, x, ps, k, _, rs, fs, h1, rfl, h2, h3, h4, g2⟩
/-- A declaration of n entries of 300 bytes, c added to the first, for a core. -/
def staging (n c : Nat) (core : Word) : State :=
  onMem (regs [(5, 0x30000), (6, core)]) ([(0x30000, 8, n), (0x30010, 16, 0x40000 + c + 300 * 2 ^ 64)] ++ (List.range 7).map fun i => (0x30020 + 16 * i, 16, 0x40000 + 300 * 2 ^ 64))
theorem witness_EngineCommandsIssue_stage : (∀ n : Fin 2, stgOk (staging (if n = 0 then 1 else 8) 0 8191) (fun z n rs => n != 0 && (rs.all fun r => r.isSome) &&
      decide ((z.xr 6).toNat < 8192) && z.coreLive (z.ownCore (z.xr 6).toNat) && okb (z.watch true 0x30000 1) fun _ => true) = true) ∧
    stgOk (staging 9 0 0) (fun _ n _ => n == 0) = true ∧ stgOk (staging 8 (2 ^ 112) 0) (fun _ n rs => n == 8 && rs.contains none) = true ∧
    stgOk (staging 1 0 8192) (fun z n _ => n == 1 && decide (8192 ≤ (z.xr 6).toNat)) = true ∧
    stgOk { staging 1 0 8191 with host := { HostSide.reset with absent := some 15 } } (fun z n _ => n == 1 && !z.coreLive (z.ownCore (z.xr 6).toNat)) = true :=
  ⟨by decide +kernel, by decide +kernel, by decide +kernel, by decide +kernel, by decide +kernel⟩

/-- O33: helpers 1 to 10 all busy, all idle, and only 1 busy; the tasks and latches of the other clauses. -/
def helpers (n : Nat) : State := { on (regs [(5, 0x4000)]) with ctxs := (0, regs [(5, 0x4000)]) :: (List.range n).map fun j => (j + 1, { Ctx.reset with status := .running, hstarted := true }) }
def task0 : TaskEntry :=
  { id := 0x100000001, recVa := 0, entry := 0x4000, arg0 := 1, arg1 := 2, cur := 0, hi := 4, grain := 1, ctl := 8, ws := 0, succ := 0, satp := 0, launch := 1, running := none
    stack := some 0, tReady := 0, prodTask := 0, prodCode := 0, prodAt := 0, rtype := 11, dispatched := 0, saved := none, stg := 0, stolen := false }
/-- Helper 1 of core 0 issuing. -/
def asHelper (c : Ctx) : State := { on (regs []) with ctxs := [(0, regs []), (1, c)], cur := 1 }
theorem witness_HelpersComplete : (∃ s u : State, ctxNum s.cur = 0 ∧ (s.xr 5).toNat % 4 = 0 ∧ u = s.settleMe ∧ ∀ j, 1 ≤ j → j ≤ 10 → u.helperFree (coreOf u.cur) j = false) ∧
    (∃ s u : State, ctxNum s.cur = 0 ∧ (s.xr 5).toNat % 4 = 0 ∧ u = s.settleMe ∧ u.helperFree (coreOf u.cur) 10 = true ∧
      ∀ i, 1 ≤ i → i < 10 → u.helperFree (coreOf u.cur) i = false) ∧
    (∃ s : State, ctxNum s.cur = 0 ∧ (s.xr 5).toNat % 4 ≠ 0) ∧
    (∃ s u : State, u = s.settleMe ∧ ctxNum s.cur ≠ 0 ∧ (u.ctx s.cur).task = none) ∧
    (∃ (s u : State) (e : TaskEntry), u = s.settleMe ∧ ctxNum s.cur ≠ 0 ∧ (u.ctx s.cur).task = some e) ∧
    (∃ (v : State) (k key : Nat), (∀ q ∈ v.saved, q.ending = none ∨ coreOf q.cid ≠ k) ∧ ∀ l, v.launchAt key = some l → l.stopping = false) ∧
    (∃ s : State, ctxNum s.cur = 0 ∧ s.helpersGone (coreOf s.cur) = true) ∧ ∃ s : State, ctxNum s.cur = 0 ∧ s.helpersGone (coreOf s.cur) = false := by
  have up : ∀ (P : Nat → Bool) (n : Nat), ((List.range n).all fun j => decide (j = 0) || P j) = true → ∀ j, 1 ≤ j → j < n → P j = true := fun P n h j h1 h2 => by
    have := List.all_eq_true.mp h j (List.mem_range.mpr h2); simpa [Nat.ne_of_gt h1] using this
  refine ⟨⟨helpers 10, _, rfl, by decide +kernel, rfl, fun j h1 h2 => ?_⟩, ⟨helpers 9, _, rfl, by decide +kernel, rfl, by decide +kernel, fun j h1 h2 => ?_⟩,
    ⟨on (regs [(5, 6)]), by decide +kernel⟩, ⟨asHelper { Ctx.reset with status := .running }, _, rfl, by decide +kernel⟩,
    ⟨asHelper { Ctx.reset with status := .running, task := some task0 }, _, task0, rfl, by decide +kernel⟩, ⟨State.reset, 0, 0, fun q h => (nomatch h), fun l h => nomatch h⟩, ⟨helpers 0, by decide +kernel⟩, ⟨helpers 10, by decide +kernel⟩⟩
  · simpa using up (fun j => !((helpers 10).settleMe.helperFree (coreOf (helpers 10).settleMe.cur) j)) 11 (by decide +kernel) j h1 (by omega)
  · simpa using up (fun j => !((helpers 9).settleMe.helperFree (coreOf (helpers 9).settleMe.cur) j)) 10 (by decide +kernel) j h1 h2
theorem witness_HelpersComplete_joins : (∃ s : State, 10 < (s.xr 5).toNat) ∧
    (∃ (s : State) (x : Word), (s.xr 5).toNat = 10 ∧ tfind (s.core (coreOf s.cur)).latches 10 = some x) ∧
    (∃ s : State, (s.xr 5).toNat = 1 ∧ tfind (s.core (coreOf s.cur)).latches 1 = none ∧ (s.ctx (coreOf s.cur * 12 + 1)).hstarted = true) ∧
    (∃ s : State, (s.xr 5).toNat = 1 ∧ tfind (s.core (coreOf s.cur)).latches 1 = none ∧ (s.ctx (coreOf s.cur * 12 + 1)).hstarted = false ∧
      (s.ctx (coreOf s.cur * 12 + 1)).status ≠ .reserved) ∧
    (∃ s : State, s.xr 5 = 0) ∧ (∃ s : State, s.xr 5 ≠ 0 ∧ s.aligned s.cur = true) ∧ ∃ s : State, s.xr 5 ≠ 0 ∧ s.aligned s.cur = false :=
  ⟨⟨on (regs [(5, 11)]), by decide +kernel⟩, ⟨{ on (regs [(5, 10)]) with cores := [(0, { Core.reset with latches := [(10, 3)] })] }, 3, by decide +kernel⟩,
    ⟨{ on (regs [(5, 1)]) with ctxs := [(0, regs [(5, 1)]), (1, { Ctx.reset with hstarted := true })] }, by decide +kernel⟩, ⟨on (regs [(5, 1)]), by decide +kernel⟩,
    ⟨on (regs []), by decide +kernel⟩, ⟨on (regs [(5, 1)]), by decide +kernel⟩, ⟨helpers 1, by decide +kernel⟩⟩
theorem witness_LoopControl : (∃ (s : State) (imm : BitVec 12), imm ≠ 0 ∧ s.xr 5 ≠ 0) ∧ (∃ (s : State) (imm : BitVec 12), imm ≠ 0 ∧ s.xr 5 = 0) ∧ ∃ a : Reg, a ≠ 0 :=
  ⟨⟨on (regs [(5, 1)]), 0xFFF, by decide +kernel⟩, ⟨on (regs []), 1, by decide +kernel⟩, ⟨31, by decide⟩⟩

/-- A launch on one core, and the states of O35: a record for die 0 or die 1, and a full bobbin with and without a ring. -/
def launchOn (first : Nat) : Launch :=
  { lseq := 1, recVa := 0, satp := 0, record := [0x4000, 0, 0, BitVec.ofNat 64 (first + 2 ^ 16), 0, 0, 0, 0, 0, 0, 0, 0, 0], die := 0, issuer := none, tt := none, queue := none, slot := 0, issTask := 0
    evVa := 0, gang := [], running := true, live := 1, exits := [], tseq := [], stacksUsed := [0], pattern := [], stage := 0, patCluster := none, root := none, enqueued := 0, path := 0, port := 0, stopping := false }
def spawning (die full size : Nat) : State :=
  { onMem { regs [(5, 0x30000)] with launch := 1 } [(0x30000, 8, 0x4000), (0x30020, 8, 4 * 2 ^ 32), (0x30028, 8, 1 + 2 ^ (40 + die))] with
    launches := [(1, launchOn (512 * die))], cores := [(0, { Core.reset with bobbin := List.replicate full task0, qdeqsize := BitVec.ofNat 64 size, qdeqbase := 0x50000 })] }
/-- The entry that SPAWN makes of a record. -/
def spawnEntry (s v : State) (n : Nat) : TaskEntry :=
  { entryOf n (s.xr 5) v.me.satp v.me.launch with prodTask := v.me.qtid, prodCode := pcode 0 (v.reportCore (coreOf v.cur)), prodAt := v.now }
/-- What SPAWN's clauses share, as a check. -/
def spawnOk (s : State) (die : Nat) (p : State → Bool) : Bool :=
  okb (s.deviceRead .load needR (s.xr 5).toNat 64) fun r => recordValid r.2.2 && (r.1.settleMe.launchAt r.1.settleMe.me.launch == some (launchOn (512 * die))) &&
    decide (r.1.settleMe.allowedDies (launchOn (512 * die)) (spawnEntry s r.1.settleMe r.2.2).affinity ≠ [] ∧
      (dieOf r.1.settleMe.cur ∈ r.1.settleMe.allowedDies (launchOn (512 * die)) (spawnEntry s r.1.settleMe r.2.2).affinity ↔ die = 0)) &&
    p r.1.settleMe && okb (r.1.watch false (s.xr 5).toNat 64) fun _ => true
theorem spawn_of {s : State} {die : Nat} {p : State → Bool} (a : (s.xr 5).toNat % 64 = 0) (h : spawnOk s die p = true) :
    ∃ (u v : State) (x : Xlat) (n : Nat) (e : TaskEntry) (l : Launch), s.deviceRead .load needR (s.xr 5).toNat 64 = .ok (u, x, n) ∧ (s.xr 5).toNat % 64 = 0 ∧
      recordValid n = true ∧ u.watch false (s.xr 5).toNat 64 = .ok () ∧ v = u.settleMe ∧ v.launchAt v.me.launch = some l ∧
      e = { entryOf n (s.xr 5) v.me.satp v.me.launch with prodTask := v.me.qtid, prodCode := pcode 0 (v.reportCore (coreOf v.cur)), prodAt := v.now } ∧
      v.allowedDies l e.affinity ≠ [] ∧ (dieOf v.cur ∈ v.allowedDies l e.affinity ↔ die = 0) ∧ p v = true := by
  obtain ⟨⟨u, x, n⟩, e1, g⟩ := ok_and _ h
  obtain ⟨g, g5⟩ := (Bool.and_eq_true _ _).mp g
  obtain ⟨g, g4⟩ := (Bool.and_eq_true _ _).mp g
  obtain ⟨g, g3⟩ := (Bool.and_eq_true _ _).mp g
  obtain ⟨g1, g2⟩ := (Bool.and_eq_true _ _).mp g
  obtain ⟨k1, k2⟩ := of_decide_eq_true g3
  refine ⟨u, u.settleMe, x, n, spawnEntry s u.settleMe n, launchOn (512 * die), e1, a, g1, ok_unit g5, rfl, eq_of_beq g2, rfl, k1, k2, g4⟩
theorem witness_TaskInstructionsComplete_spawn :
    spawnOk (spawning 1 0 0) 1 (fun _ => true) = true ∧ spawnOk (spawning 0 31 0) 0 (fun v => (v.core (coreOf v.cur)).bobbin.length < 32) = true ∧
    spawnOk (spawning 0 32 0) 0 (fun v => 32 ≤ (v.core (coreOf v.cur)).bobbin.length && ((v.core (coreOf v.cur)).qdeqsize.extractLsb' 0 20).toNat == 0) = true ∧
    spawnOk (spawning 0 32 8) 0 (fun v => 32 ≤ (v.core (coreOf v.cur)).bobbin.length && okb (v.spillBobbin (coreOf v.cur)) fun _ => true) = true := by decide +kernel
theorem witness_TaskInstructionsComplete : (∃ (s u : State) (x : Xlat) (n : Nat), s.deviceRead .load needR (s.xr 5).toNat 64 = .ok (u, x, n) ∧ recordValid n = false) ∧
    (∃ s : State, ∀ e, s.me.task = some e → e.range = false ∨ e.hi ≤ e.cur) ∧ (∃ (s : State) (e : TaskEntry), s.me.task = some e ∧ e.range = true ∧ e.cur < e.hi) ∧
    (∀ c : Fin 4, ∃ (s u v w : State) (x : Xlat) (n : Nat), (s.xr 5).toNat % 16 = 0 ∧ (s.xr 6).toNat % 64 = 0 ∧ s.homeObject (s.xr 5) 16 31 true (s.xr 5) = .ok (u, x) ∧
      v = u.settleMe ∧ v.homeReadX x 0 16 = (w, n) ∧ u.watch true (s.xr 5).toNat 16 = .ok () ∧ (match c with
        | 0 => n % 2 ^ 32 = 0
        | 1 => n % 2 ^ 32 ≠ 0 ∧ n / 2 ^ 64 = (s.xr 6).toNat ∧ n % 2 ^ 32 ≠ 2 ^ 32 - 1
        | 2 => n % 2 ^ 32 ≠ 0 ∧ n / 2 ^ 64 ≠ (s.xr 6).toNat
        | 3 => n % 2 ^ 32 = 2 ^ 32 - 1)) := by
  refine ⟨?_, ⟨on (regs []), fun e h => by cases h⟩, ⟨on { regs [] with task := some task0 }, task0, rfl, by decide +kernel⟩, fun c => ?_⟩
  · obtain ⟨⟨u, x, n⟩, h, g⟩ := ok_and (e := (on (regs [(5, 0x30000)])).deviceRead .load needR ((on (regs [(5, 0x30000)])).xr 5).toNat 64) (fun r => !recordValid r.2.2) (by decide +kernel)
    exact ⟨_, u, x, n, h, by simpa using g⟩
  · let s (c : Fin 4) : State := onMem (regs [(5, 0x10000), (6, 0x30000)]) [(0x10000, 16, match c with
      | 0 => 0
      | 1 => 7 + 0x30000 * 2 ^ 64
      | 2 => 7 + 0x30040 * 2 ^ 64
      | 3 => 2 ^ 32 - 1 + 0x30000 * 2 ^ 64)]
    have a1 : ∀ c, ((s c).xr 5).toNat % 16 = 0 := by decide +kernel
    have a2 : ∀ c, ((s c).xr 6).toNat % 64 = 0 := by decide +kernel
    obtain ⟨⟨u, x⟩, h, g⟩ := ok_and (e := (s c).homeObject ((s c).xr 5) 16 31 true ((s c).xr 5)) (fun r => (okb (r.1.watch true ((s c).xr 5).toNat 16) fun _ => true) && match c with
      | 0 => decide ((r.1.settleMe.homeReadX r.2 0 16).2 % 2 ^ 32 = 0)
      | 1 => decide ((r.1.settleMe.homeReadX r.2 0 16).2 % 2 ^ 32 ≠ 0 ∧ (r.1.settleMe.homeReadX r.2 0 16).2 / 2 ^ 64 = ((s c).xr 6).toNat ∧
          (r.1.settleMe.homeReadX r.2 0 16).2 % 2 ^ 32 ≠ 2 ^ 32 - 1)
      | 2 => decide ((r.1.settleMe.homeReadX r.2 0 16).2 % 2 ^ 32 ≠ 0 ∧ (r.1.settleMe.homeReadX r.2 0 16).2 / 2 ^ 64 ≠ ((s c).xr 6).toNat)
      | 3 => decide ((r.1.settleMe.homeReadX r.2 0 16).2 % 2 ^ 32 = 2 ^ 32 - 1)) (by revert c; decide +kernel)
    obtain ⟨g0, g⟩ := (Bool.and_eq_true _ _).mp g
    refine ⟨s c, u, _, (u.settleMe.homeReadX x 0 16).1, x, (u.settleMe.homeReadX x 0 16).2, a1 c, a2 c, h, rfl, rfl, ok_unit g0, ?_⟩
    match c with
    | 0 => exact of_decide_eq_true g
    | 1 => exact of_decide_eq_true g
    | 2 => exact of_decide_eq_true g
    | 3 => exact of_decide_eq_true g
/-- A launch queue of 8 slots at 0x10000 with its tail, and a fault queue at 0x40000 with one entry in a state. -/
def queueing (tail : Nat) : State := onMem (regs [(5, 0x10000), (6, 0x30000)]) [(0x10000, 8, 0x11000), (0x10008, 8, 8), (0x10018, 8, tail)]
def faulted (st : Nat) : State :=
  { onMem { regs [(5, 0x40000)] with priv := .s } [(0x40038, 8, st)] with dies := [(0, { Die.reset with fqbase := 0x40000, fqsize := 8, fqtail := 1 })] }
theorem witness_TaskInstructionsComplete_queues : (∀ c : Bool, ∃ (s u v w : State) (x : Xlat) (q : List Nat) (size tail headAt : Nat), (s.xr 5).toNat % 64 = 0 ∧ (s.xr 6).toNat % 256 = 0 ∧
      s.homeObject (s.xr 5) 64 49 true (s.xr 6) = .ok (u, x) ∧ v = u.settleMe ∧ v.queueHeader x.pa = some (w, q) ∧
      u.watch true (s.xr 5).toNat 64 = .ok () ∧ size = q.getD 1 0 % 2 ^ 32 ∧ tail = q.getD 3 0 ∧
      headAt = q.getD 4 0 ∧ (c = true ↔ size ≤ (BitVec.ofNat 64 tail - BitVec.ofNat 64 headAt).toNat)) ∧
    (∃ s : State, s.me.priv ≠ .u ∧ s.faultEntry (s.entryPa (s.xr 5)) = none) ∧
    ∀ st : Fin 2, ∃ (s u : State) (d n : Nat), s.me.priv ≠ .u ∧ s.faultEntry (s.entryPa (s.xr 5)) = some d ∧ s.settleMe.homeReadLines (s.settleMe.entryPa (s.xr 5)) 1 = (u, n) ∧
      (n / 2 ^ 448 % 4 = 0 ↔ st = 0) := by
  refine ⟨fun c => ?_, ⟨inMode .s, by decide +kernel⟩, fun st => ⟨faulted st.1, _, 0, _, by revert st; decide +kernel, by revert st; decide +kernel, rfl, by revert st; decide +kernel⟩⟩
  have a1 : ∀ c : Bool, ((queueing (if c then 8 else 7)).xr 5).toNat % 64 = 0 := by decide +kernel
  have a2 : ∀ c : Bool, ((queueing (if c then 8 else 7)).xr 6).toNat % 256 = 0 := by decide +kernel
  obtain ⟨⟨u, x⟩, h, g⟩ := ok_and (e := (queueing (if c then 8 else 7)).homeObject ((queueing (if c then 8 else 7)).xr 5) 64 49 true ((queueing (if c then 8 else 7)).xr 6))
    (fun r => (okb (r.1.watch true ((queueing (if c then 8 else 7)).xr 5).toNat 64) fun _ => true) && somb (r.1.settleMe.queueHeader r.2.pa) fun z => (decide (c = true ↔ z.2.getD 1 0 % 2 ^ 32 ≤ (BitVec.ofNat 64 (z.2.getD 3 0) - BitVec.ofNat 64 (z.2.getD 4 0)).toNat))) (by revert c; decide +kernel)
  obtain ⟨g0, g⟩ := (Bool.and_eq_true _ _).mp g
  obtain ⟨⟨w, q⟩, h2, g2⟩ := some_and (e := u.settleMe.queueHeader x.pa) _ g
  exact ⟨_, u, _, w, x, q, _, _, _, a1 c, a2 c, h, rfl, h2, ok_unit g0, rfl, rfl, rfl, of_decide_eq_true g2⟩

/-- O36: a phaser at 0x10000 with its words, read after the context's own stores to it. -/
def phasing (w0 w1 w2 b : Nat) : State := onMem (regs [(5, 0x10000), (6, BitVec.ofNat 64 b)]) [(0x10000, 24, w0 + w1 * 2 ^ 64 + w2 * 2 ^ 128)]
def phaserNow (u : State) (x : Xlat) : State × Phaser := (u.ownFirst u.cur x.pa 64).phaser x
def phaserOk (s : State) (p : Phaser → Bool) : Bool := okb (s.phaserAt (s.xr 5)) fun r => p (phaserNow r.1 r.2).2
theorem phaser_of {s : State} {p : Phaser → Bool} (h : phaserOk s p = true) :
    ∃ (u v : State) (x : Xlat) (q : Phaser), s.phaserAt (s.xr 5) = .ok (u, x) ∧ (u.ownFirst u.cur x.pa 64).phaser x = (v, q) ∧ p q = true := by
  obtain ⟨⟨u, x⟩, e, g⟩ := ok_and _ h
  exact ⟨u, _, x, _, e, rfl, g⟩
theorem witness_PhasersComplete :
    phaserOk (phasing (2 ^ 57) 0 0 0) (fun q => !q.reservedClear) = true ∧
    phaserOk (phasing 0 0 (8191 + 8191 * 2 ^ 16) 0) (fun q => q.reservedClear && q.nxsig + 1 ≤ 8192 && q.nxwait + 1 ≤ 8192 && 1 ≤ q.nxsig && 1 ≤ q.nxwait) = true ∧
    phaserOk (phasing 0 0 (8192 + 1 * 2 ^ 16) 0) (fun q => q.reservedClear && 8192 < q.nxsig + 1 && q.nxwait + 1 ≤ 8192) = true ∧
    phaserOk (phasing 0 0 (1 + 8192 * 2 ^ 16) 0) (fun q => q.reservedClear && 8192 < q.nxwait + 1 && q.nxsig + 1 ≤ 8192) = true ∧
    phaserOk (phasing 0 0 1 0) (fun q => q.reservedClear && 1 ≤ q.nxsig && q.nxwait < 1) = true ∧
    phaserOk (phasing 0 0 (2 ^ 16) 0) (fun q => q.reservedClear && 1 ≤ q.nxwait && q.nxsig < 1) = true ∧
    phaserOk (phasing 5 0 0 4) (fun q => q.reservedClear && 4 < q.phase && q.pend + 4 < 2 ^ 24) = true ∧
    phaserOk (phasing (4 + 0xFFFFFF * 2 ^ 32) 0 0 4) (fun q => q.reservedClear && q.phase ≤ 4 && 2 ^ 24 ≤ q.pend + 4) = true := by decide +kernel
theorem witness_PhasersComplete_arrive : (∀ c : Fin 5, ∀ fl : Bool, ∃ (s u w v : State) (x : Xlat) (q : Phaser), s.phaserAt (s.xr 5) = .ok (u, x) ∧
      w = (if fl then u.flushRange u.cur 0 (2 ^ 64) (u.me.satp.extractLsb' 44 16).toNat else u).settleMe ∧ (w.ownFirst w.cur x.pa 64).phaser x = (v, q) ∧ (match c with
        | 0 => q.reservedClear = true ∧ q.arr = q.sig
        | 1 => q.reservedClear = true ∧ q.phase = 2 ^ 32 - 1
        | 2 => q.reservedClear = true ∧ q.arr ≠ q.sig ∧ q.phase ≠ 2 ^ 32 - 1 ∧ q.arr + 1 = q.sig ∧ q.pend = 0
        | 3 => q.reservedClear = true ∧ q.arr ≠ q.sig ∧ q.phase ≠ 2 ^ 32 - 1 ∧ q.arr + 1 = q.sig ∧ q.pend ≠ 0
        | 4 => q.reservedClear = false)) ∧ (∃ s : State, (s.xr 5).toNat % 64 ≠ 0) ∧ ∃ m : BitVec 2, m ≠ 0 := by
  refine ⟨fun c fl => ?_, ⟨on (regs [(5, 32)]), by decide +kernel⟩, ⟨3, by decide⟩⟩
  let s (c : Fin 5) : State := match c with
    | 0 => phasing 0 (3 + 3 * 2 ^ 16) 0 0
    | 1 => phasing (2 ^ 32 - 1) 1 0 0
    | 2 => phasing 0 1 0 0
    | 3 => phasing (2 ^ 32) 1 0 0
    | 4 => phasing (2 ^ 57) 1 0 0
  let w (u : State) : State := (if fl then u.flushRange u.cur 0 (2 ^ 64) (u.me.satp.extractLsb' 44 16).toNat else u).settleMe
  let ok (c : Fin 5) (q : Phaser) : Bool := match c with
      | 0 => decide (q.reservedClear = true ∧ q.arr = q.sig)
      | 1 => decide (q.reservedClear = true ∧ q.phase = 2 ^ 32 - 1)
      | 2 => decide (q.reservedClear = true ∧ q.arr ≠ q.sig ∧ q.phase ≠ 2 ^ 32 - 1 ∧ q.arr + 1 = q.sig ∧ q.pend = 0)
      | 3 => decide (q.reservedClear = true ∧ q.arr ≠ q.sig ∧ q.phase ≠ 2 ^ 32 - 1 ∧ q.arr + 1 = q.sig ∧ q.pend ≠ 0)
      | 4 => decide (q.reservedClear = false)
  obtain ⟨⟨u, x⟩, h, g⟩ := ok_and (e := (s c).phaserAt ((s c).xr 5)) (fun r => ok c (phaserNow (w r.1) r.2).2) (by revert c fl; decide +kernel)
  refine ⟨s c, u, w u, (phaserNow (w u) x).1, x, (phaserNow (w u) x).2, h, rfl, rfl, ?_⟩
  clear h
  revert g
  match c with
  | 0 => exact fun g => of_decide_eq_true g
  | 1 => exact fun g => of_decide_eq_true g
  | 2 => exact fun g => of_decide_eq_true g
  | 3 => exact fun g => of_decide_eq_true g
  | 4 => exact fun g => of_decide_eq_true g
/-- O37: posted receives and packets. A slot of context 0, waiting or full, at number 63. -/
def slotOf (o : Nat) (b : Option Nat) : Slot := ⟨o, 0, 0, 0, 0, 0, [], 0x12000, Xlat.none, 0, b, 0, 0, 0⟩
def slotted (l : List (Nat × Slot)) : State := { on (regs [(5, 63)]) with cores := [(0, { Core.reset with slots := l })] }
def packet0 : Packet := ⟨[7], 0, 5, 0, 0⟩
theorem witness_MessagesComplete : (∃ (s : State) (bs : List (BitVec 128)), bs = s.me.packet.getD [] ∧ bs.length < 16) ∧
    (∃ (s : State) (bs : List (BitVec 128)), bs = s.me.packet.getD [] ∧ 16 ≤ bs.length) ∧
    (∃ s : State, 98303 < (s.xr 5).toNat) ∧ (∃ s : State, (s.xr 5).toNat % 12 = 11) ∧ (∃ s : State, s.coreLive (s.ownCore ((s.xr 5).toNat / 12)) = false) ∧
    (∃ s : State, (s.xr 5).toNat ≤ 98303 ∧ (s.xr 5).toNat % 12 ≠ 11 ∧ s.coreLive (s.ownCore ((s.xr 5).toNat / 12)) = true ∧ s.me.packet = none) ∧
    (∃ (s : State) (bs : List (BitVec 128)), (s.xr 5).toNat ≤ 98303 ∧ (s.xr 5).toNat % 12 ≠ 11 ∧ s.coreLive (s.ownCore ((s.xr 5).toNat / 12)) = true ∧ s.me.packet = some bs) ∧
    (∃ s : State, ((tfind (s.core (coreOf s.cur)).slots (s.xr 5).toNat).filter fun q => q.owner = s.cur) = none) ∧
    (∃ (s : State) (q : Slot) (n : Nat), ((tfind (s.core (coreOf s.cur)).slots (s.xr 5).toNat).filter fun q => q.owner = s.cur) = some q ∧ q.beats = some n) ∧
    ∃ (s : State) (q : Slot), ((tfind (s.core (coreOf s.cur)).slots (s.xr 5).toNat).filter fun q => q.owner = s.cur) = some q ∧ q.beats = none := by
  refine ⟨⟨on (regs []), _, rfl, by decide +kernel⟩, ⟨on { regs [] with packet := some (List.replicate 16 0) }, _, rfl, by decide +kernel⟩, ⟨on (regs [(5, 98304)]), by decide +kernel⟩,
    ⟨on (regs [(5, 11)]), by decide +kernel⟩, ⟨{ on (regs [(5, 98302)]) with host := { HostSide.reset with absent := some 15 } }, by decide +kernel⟩,
    ⟨on (regs [(5, 98302)]), by decide +kernel⟩, ⟨on { regs [(5, 98302)] with packet := some [1] }, [1], by decide +kernel⟩,
    ⟨slotted [(63, slotOf 1 none)], by decide +kernel⟩, ⟨slotted [(63, slotOf 0 (some 4))], slotOf 0 (some 4), 4, by decide +kernel⟩, ⟨slotted [(63, slotOf 0 none)], slotOf 0 none, by decide +kernel⟩⟩
/-- A descriptor of zeros but for the buffer at 0x12000, the slots below n taken, and packets in the overflow buffer. -/
def posting (n : Nat) (ps : List Packet) : State :=
  let k : Core := { Core.reset with slots := (List.range n).map fun i => (i, slotOf 0 none) }
  { onMem (regs [(5, 0x10000)]) [(0x10000, 8, 0x12000)] with cores := [(0, k)], clusters := [(0, { Cluster.reset with overflow := ps })] }
theorem witness_MessagesComplete_post : ∀ (n : Fin 65) (ps : List Packet), (n = 64 ∧ ps = []) ∨ (n = 63 ∧ ps = []) ∨ (n = 0 ∧ ps = [packet0]) →
    ∃ (s u v w : State) (x : Xlat) (k : Nat) (qs : Pages), (s.xr 5).toNat % 32 = 0 ∧ s.access .store needRW .write (s.xr 5).toNat 32 = .ok (u, x) ∧ u.loadBytes x 32 = (v, k) ∧
      v.pages .store needW (k % 2 ^ 64) 256 = .ok (w, qs) ∧ x.mt = .hbm ∧ k % 16 = 0 ∧ k / 2 ^ 145 % 2 ^ 15 = 0 ∧ k / 2 ^ 177 % 2 ^ 15 = 0 ∧
      w.refusedUnit qs (k % 2 ^ 64) 256 = none ∧ w.watch true (s.xr 5).toNat 32 = .ok () ∧
      (∀ i, i < 64 → (tfind (w.core (coreOf w.cur)).slots i ≠ none ↔ i < n.1)) ∧
      ((w.cluster (clusterOf w.cur)).overflow = [] ∨ ∃ p, (w.cluster (clusterOf w.cur)).overflow = [] ++ p :: [] ∧ p.dst = w.cur ∧
        Slot.fits ⟨w.cur, 0, BitVec.ofNat 32 (k / 2 ^ 64), BitVec.ofNat 32 (k / 2 ^ 96), BitVec.ofNat 17 (k / 2 ^ 128), BitVec.ofNat 17 (k / 2 ^ 160), qs, k % 2 ^ 64, x, w.me.tid, none, 0, 0, 0⟩ p = true) := by
  intro n ps hn
  have a1 : ((posting n.1 ps).xr 5).toNat % 32 = 0 := by rcases hn with ⟨rfl, rfl⟩ | ⟨rfl, rfl⟩ | ⟨rfl, rfl⟩ <;> decide +kernel
  obtain ⟨⟨u, x⟩, h, g⟩ := ok_and (e := (posting n.1 ps).access .store needRW .write ((posting n.1 ps).xr 5).toNat 32) (fun r =>
    okb ((r.1.loadBytes r.2 32).1.pages .store needW ((r.1.loadBytes r.2 32).2 % 2 ^ 64) 256) fun q =>
      decide (r.2.mt = .hbm ∧ (r.1.loadBytes r.2 32).2 % 16 = 0 ∧ (r.1.loadBytes r.2 32).2 / 2 ^ 145 % 2 ^ 15 = 0 ∧ (r.1.loadBytes r.2 32).2 / 2 ^ 177 % 2 ^ 15 = 0) &&
      (q.1.refusedUnit q.2 ((r.1.loadBytes r.2 32).2 % 2 ^ 64) 256).isNone && (okb (q.1.watch true ((posting n.1 ps).xr 5).toNat 32) fun _ => true) &&
      ((List.range 64).all fun i => (tfind (q.1.core (coreOf q.1.cur)).slots i).isSome == decide (i < n.1)) &&
      (match (q.1.cluster (clusterOf q.1.cur)).overflow with
        | [] => true
        | [p] => decide (p.dst = q.1.cur) && Slot.fits ⟨q.1.cur, 0, BitVec.ofNat 32 ((r.1.loadBytes r.2 32).2 / 2 ^ 64), BitVec.ofNat 32 ((r.1.loadBytes r.2 32).2 / 2 ^ 96),
            BitVec.ofNat 17 ((r.1.loadBytes r.2 32).2 / 2 ^ 128), BitVec.ofNat 17 ((r.1.loadBytes r.2 32).2 / 2 ^ 160), q.2, (r.1.loadBytes r.2 32).2 % 2 ^ 64, r.2, q.1.me.tid, none, 0, 0, 0⟩ p
        | _ => false)) (by rcases hn with ⟨rfl, rfl⟩ | ⟨rfl, rfl⟩ | ⟨rfl, rfl⟩ <;> decide +kernel)
  obtain ⟨⟨w, qs⟩, h2, g⟩ := ok_and _ g
  obtain ⟨g, g5⟩ := (Bool.and_eq_true _ _).mp g
  obtain ⟨g, g4⟩ := (Bool.and_eq_true _ _).mp g
  obtain ⟨g, g3⟩ := (Bool.and_eq_true _ _).mp g
  obtain ⟨g1, g2⟩ := (Bool.and_eq_true _ _).mp g
  obtain ⟨k1, k2, k3, k4⟩ := of_decide_eq_true g1
  refine ⟨posting n.1 ps, u, _, w, x, _, qs, a1, h, rfl, h2, k1, k2, k3, k4, Option.isNone_iff_eq_none.mp g2, ok_unit g3, fun i hi => ?_, ?_⟩
  · have := List.all_eq_true.mp g4 i (List.mem_range.mpr hi)
    rw [← Option.isSome_iff_ne_none, eq_of_beq this, decide_eq_true_iff]
  · revert g5
    match (w.cluster (clusterOf w.cur)).overflow with
    | [] => exact fun _ => .inl rfl
    | [p] => exact fun h => .inr ⟨p, rfl, of_decide_eq_true ((Bool.and_eq_true _ _).mp h).1, ((Bool.and_eq_true _ _).mp h).2⟩
    | _ :: _ :: _ => exact fun h => nomatch h

/-- O38: a queue of 8 slots at 0x10000 with its tail and head, perhaps the entry 5 in slot 0, and the cluster's shadows. -/
def proxied (tail head lap : Nat) (sh : List Shadow) (v : Word) : State :=
  { onMem (regs [(5, 0x10000), (6, v)]) [(0x10000, 24, 8 + tail * 2 ^ 64 + head * 2 ^ 128), (0x10040, 28, 5 + lap * 2 ^ 192)] with clusters := [(0, { Cluster.reset with shadows := sh })] }
def shadowOf (pa n : Nat) : Shadow := ⟨{ queue0 with pa := pa }, List.replicate n ⟨1, 0, 0, 0⟩, 0⟩
def queueOk (s : State) (p : State → Xlat → Bool) : Bool := okb (s.queueAt (s.xr 5)) fun r => p r.1 r.2
theorem queue_of {s : State} {p : State → Xlat → Bool} (h : queueOk s p = true) : ∃ (u : State) (x : Xlat), s.queueAt (s.xr 5) = .ok (u, x) ∧ p u x = true := by
  obtain ⟨⟨u, x⟩, e, g⟩ := ok_and _ h
  exact ⟨u, x, e, g⟩
/-- The queue of 8 slots of a peer module at the start of its window. -/
def proxiedPeer : State := { onMem (regs [(5, 0x80000000000000), (6, 3)]) [(0x80000000000000, 8, 8)] with host := { HostSide.reset with peers := [0] } }
/-- QPUSH of all ones; to a peer's queue; with no shadow of the queue and 7 or 8 others; with one of 127 or 128 entries. QPOP of a queue with an entry and without. QFLUSH with
no shadow, with one that a batch empties, and with one that finds the queue full. -/
theorem witness_QueuesComplete :
    queueOk (proxied 0 0 0 [] (BitVec.ofInt 64 (-1))) (fun _ _ => true) = true ∧ queueOk proxiedPeer (fun _ x => x.mt == .peer) = true ∧
    queueOk (proxied 0 0 0 ((List.range 7).map fun i => shadowOf (i * 64) 1) 3) (fun u x => u.settleMe.cluster (clusterOf u.cur) |>.shadows.all fun h => h.queue.pa != x.pa) = true ∧
    queueOk (proxied 0 0 0 ((List.range 8).map fun i => shadowOf (i * 64) 1) 3) (fun u x => u.settleMe.cluster (clusterOf u.cur) |>.shadows.all fun h => h.queue.pa != x.pa) = true ∧
    queueOk (proxied 0 0 0 [shadowOf 0x10000 127] 3) (fun u x => (u.settleMe.cluster (clusterOf u.cur)).shadows == [shadowOf x.pa 127]) = true ∧
    queueOk (proxied 0 0 0 [shadowOf 0x10000 128] 3) (fun u x => (u.settleMe.cluster (clusterOf u.cur)).shadows == [shadowOf x.pa 128]) = true ∧
    queueOk (proxied 1 0 1 [] 3) (fun u x => somb (u.queueTake x (u.byCtx u.cur)).2 fun r => r.1 == 5) = true ∧
    queueOk (proxied 0 0 0 [] 3) (fun u x => (u.queueTake x (u.byCtx u.cur)).2.isNone) = true ∧
    queueOk (proxied 0 0 0 [] 3) (fun u x => (u.cluster (clusterOf u.cur)).shadows.all fun h => h.queue.pa != x.pa) = true ∧
    queueOk (proxied 0 0 0 [shadowOf 0x10000 1] 3) (fun u x => (u.cluster (clusterOf u.cur)).shadows.findIdx? (fun h => h.queue.pa == x.pa) == some 0 &&
      ((u.batchArrives (clusterOf u.cur) 0 128).cluster (clusterOf u.cur)).shadows.all fun h => h.queue.pa != x.pa) = true ∧
    queueOk (proxied 8 0 0 [shadowOf 0x10000 1] 3) (fun u x => (u.cluster (clusterOf u.cur)).shadows.findIdx? (fun h => h.queue.pa == x.pa) == some 0 &&
      ((u.batchArrives (clusterOf u.cur) 0 128).cluster (clusterOf u.cur)).shadows.any fun h => h.queue.pa == x.pa) = true := by decide +kernel
/-- Events in the queue of core 0. -/
def event0 : EvRecord := ⟨3, 0, 0, 0, [], 0, 0⟩
def evented (l : List EvRecord) (a : Word) : State := { on (regs [(5, a), (6, 64)]) with cores := [(0, { Core.reset with evq := l })] }
theorem witness_QueuesComplete_events : (∃ s : State, ctxNum s.cur = 0 ∧ (s.core (coreOf s.cur)).evq = []) ∧
    (∃ (s u : State) (ps : Pages) (e : EvRecord) (es : List EvRecord), ctxNum s.cur = 0 ∧ (s.core (coreOf s.cur)).evq = e :: es ∧ (5 : Reg) ≠ 0 ∧ (s.xr 5).toNat % 16 = 0 ∧
      s.deviceWrite (s.xr 5).toNat e.size = .ok (u, ps)) ∧
    (∃ (s z u : State) (ps : Pages) (e : EvRecord) (es : List EvRecord), ctxNum s.cur = 0 ∧ (s.core (coreOf s.cur)).evq = e :: es ∧ (5 : Reg) ≠ 0 ∧ (s.xr 5).toNat % 16 = 0 ∧
      z = (s.modDie (dieOf s.cur) fun d => { d with zerowait := d.zerowait + 1 }) ∧ z.deviceWrite (s.xr 5).toNat e.size = .ok (u, ps)) ∧
    (∃ (s : State) (e : EvRecord) (es : List EvRecord), ctxNum s.cur = 0 ∧ (s.core (coreOf s.cur)).evq = e :: es ∧ (5 : Reg) ≠ 0 ∧ (s.xr 5).toNat % 16 ≠ 0) ∧
    (∃ s : State, (s.xr 5).toNat % 32 ≠ 0) ∧
    (∃ (s u : State) (ps : Pages), (s.xr 5).toNat % 32 = 0 ∧ s.deviceWrite (s.xr 5).toNat (s.xr 0).toNat = .ok (u, ps) ∧ (s.xr 0).toNat < 32) ∧
    ∃ (s u v w : State) (ps : Pages) (es path : List EdgeRec) (cut : Bool), (s.xr 5).toNat % 32 = 0 ∧ s.deviceWrite (s.xr 5).toNat (s.xr 6).toNat = .ok (u, ps) ∧ 32 ≤ (s.xr 6).toNat ∧
      v = u.drainStores u.cur ∧ v.allEdges 16 = (w, es) ∧
      walkBack (es.length + 1) es w.me.qtid.toNat w.now (v.die (dieOf v.cur)).t0.toNat (((s.xr 6).toNat - 32) / 32) = (path, cut) := by
  refine ⟨⟨evented [] 0, by decide +kernel⟩, ?_, ?_, ⟨evented [event0] 8, event0, [], by decide +kernel⟩, ⟨evented [] 16, by decide +kernel⟩, ?_, ?_⟩
  · obtain ⟨u, ps, h⟩ := ok_pair (e := (evented [event0] 0x10010).deviceWrite ((evented [event0] 0x10010).xr 5).toNat event0.size) (by decide +kernel)
    exact ⟨_, u, ps, event0, [], rfl, rfl, by decide, by decide +kernel, h⟩
  · let z : State := (evented [event0] 0x10010).modDie (dieOf (evented [event0] 0x10010).cur) fun d => { d with zerowait := d.zerowait + 1 }
    obtain ⟨u, ps, h⟩ := ok_pair (e := z.deviceWrite ((evented [event0] 0x10010).xr 5).toNat event0.size) (by decide +kernel)
    exact ⟨_, z, u, ps, event0, [], rfl, rfl, by decide, by decide +kernel, rfl, h⟩
  · obtain ⟨u, ps, h⟩ := ok_pair (e := (evented [] 0x10020).deviceWrite ((evented [] 0x10020).xr 5).toNat ((evented [] 0x10020).xr 0).toNat) (by decide +kernel)
    exact ⟨_, u, ps, by decide +kernel, h, by decide +kernel⟩
  · obtain ⟨u, ps, h⟩ := ok_pair (e := (evented [] 0x10020).deviceWrite ((evented [] 0x10020).xr 5).toNat ((evented [] 0x10020).xr 6).toNat) (by decide +kernel)
    exact ⟨evented [] 0x10020, u, _, _, ps, _, _, _, by decide +kernel, h, by decide +kernel, rfl, pair_eta _, pair_eta _⟩

/-- O39 to O46: vector states. -/
def vstate (et vl : Nat) : State := on (vregs et vl [(5, 0x10000), (6, 3), (7, 512)])
/-- The vector queue of core 0 full. -/
def vfull : State := { vstate 0 1024 with cores := [(0, { Core.reset with vq := List.replicate 16 ⟨0, 0x80, 0, 4, false, none, 0, 0⟩ })] }
theorem witness_VecOk : (∃ s : State, s.me.qvtype.getLsbD 63 = false ∧ s.me.windowFault [31, 0, 31] = none ∧ s.vecFull = true) ∧
    (∃ s : State, s.VecOk false false [31, 0, 31]) ∧ (∃ s : State, s.VecOk true true [31, 0, 31]) ∧ (∃ s : State, s.me.qvtype.getLsbD 63 = true) ∧
    (∃ s : State, s.me.qvtype.getLsbD 63 = false ∧ s.me.winSize = 0) ∧ (∃ s : State, s.me.qvtype.getLsbD 63 = false ∧ s.me.winSize ≠ 0 ∧ s.me.winSize ≤ s.me.rot + (31 : Reg).toNat) ∧
    (∃ s : State, s.me.etype < 8) ∧ (∃ s : State, 11 < s.me.etype) ∧ ∃ s : State, 4 < s.me.frm.toNat := by
  refine ⟨⟨vfull, by decide +kernel⟩, ⟨vstate 0 1024, by decide +kernel⟩, ⟨vstate 11 128, by decide +kernel⟩, ⟨on (regs []), by decide +kernel⟩, ⟨on { vregs 0 1 [] with qvwin := 0 }, by decide +kernel⟩,
    ⟨on { vregs 0 1 [] with qvrot := 8 }, by decide +kernel⟩, ⟨vstate 3 1, by decide +kernel⟩, ⟨vstate 12 1, by decide +kernel⟩, ⟨on { regs [] with frm := 5 }, by decide +kernel⟩⟩
theorem witness_VectorFloatResults_scalar : ∃ (k : VFp) (i : Instr), vfpVf k 1 2 3 0 = some i := ⟨.fnma, _, rfl⟩
theorem witness_VectorMasks_first : (∃ (s : State) (i : Nat), s.Active 0 i = true ∧ (s.me.mask 1).getLsbD i = true ∧ ∀ j, j < i → s.Active 0 j = true → (s.me.mask 1).getLsbD j = false) ∧
    ∃ s : State, ∀ j, s.Active 0 j = true → (s.me.mask 2).getLsbD j = false := by
  refine ⟨⟨vstate 0 1024, 0, by decide +kernel, by decide +kernel, fun j h => absurd h (Nat.not_lt_zero j)⟩, ⟨vstate 0 1024, fun j _ => ?_⟩⟩
  have e : (vstate 0 1024).me.mask 2 = 0 := by decide +kernel
  rw [e]; exact BitVec.getLsbD_zero
theorem witness_VectorQuantisation : (∃ (s : State) (code : Reg) (src dst : Nat), (src, dst) = cvtTypes code.toNat ∧ s.VecOk false false [4, 3] ∧ s.me.etype = dst ∧ s.me.vl ≤ 8192 / etypeWidth src) ∧
    (∀ et : Fin 4, ∃ s : State, s.VecOk false false [4, 2, 3] ∧ s.me.etype = 10 + (if et = 0 then 0 else et.1 + 1) ∧ s.me.vl ≤ 256) ∧
    (∃ s : State, s.VecOk false false [4, 3] ∧ s.me.etype = 10 ∧ s.me.vl = 256) ∧ (∃ s : State, s.VecOk false false [4, 3] ∧ s.me.etype = 10 ∧ s.me.vl = 0) ∧
    (∃ s : State, 256 < s.me.vl) ∧ (∃ s : State, s.me.etype ≠ 14) ∧ ∃ (s : State) (code : Reg), 8192 / etypeWidth (cvtTypes code.toNat).1 < s.me.vl :=
  ⟨⟨vstate 9 256, 0, 10, 9, by decide +kernel⟩, fun et => ⟨vstate (10 + (if et = 0 then 0 else et.1 + 1)) 256, by revert et; decide +kernel⟩, ⟨vstate 10 256, by decide +kernel⟩, ⟨vstate 10 0, by decide +kernel⟩,
    ⟨vstate 0 257, by decide +kernel⟩, ⟨vstate 0 0, by decide +kernel⟩, ⟨vstate 9 257, 0, by decide +kernel⟩⟩
theorem witness_VectorReductions : (∃ (s : State) (xs : List Nat), s.VecOk true false [1, 2, 3] ∧ xs = ((List.range s.me.vl).filter (s.Active 0)).map (s.ve 3) ∧ xs ≠ []) ∧
    (∃ (s : State) (xs : List Nat), s.VecOk true false [1, 2, 3] ∧ xs = ((List.range s.me.vl).filter (s.Active 2)).map (s.ve 3) ∧ xs = [] ∧ s.me.vl ≠ 0) ∧
    ∃ s : State, s.VecOk false false [1, 2, 3] ∧ s.me.vl = 0 :=
  ⟨⟨vstate 10 2, _, by decide +kernel, rfl, by decide +kernel⟩, ⟨vstate 10 2, _, by decide +kernel, rfl, by decide +kernel, by decide +kernel⟩, ⟨vstate 0 0, by decide +kernel⟩⟩
/-- O45: two elements of 32 bits at 0x10000, with each form. -/
def vmemOk (i : Instr) (form : VForm) (store : Bool) (els : List Nat) : Bool :=
  okb ((vstate 2 2).vecMemCheck i form store 4 ((vstate 2 2).xr 5) els) fun r => decide (r.2.length = els.length)
theorem witness_VectorMemory : (∀ (form : VForm) (i : Instr), i = .vld 4 5 0 ∧ form = .unit ∨ i = .vldSt 4 5 7 0 ∧ form = .strided ((vstate 2 2).xr 7) ∨ i = .vldIx 4 5 8 0 ∧ form = .indexed 8 ∨
      i = .vldBc 4 5 0 ∧ form = .bcast → ∃ (s u : State) (xs : List (Chunk × Xlat)), s.vecMemCheck i form false 4 (s.xr 5) ((List.range s.me.vl).filter (s.Active 0)) = .ok (u, xs)) ∧
    (∀ (form : VForm) (i : Instr), i = .vst 4 5 0 ∧ form = .unit ∨ i = .vstSt 4 5 7 0 ∧ form = .strided ((vstate 2 2).xr 7) ∨ i = .vstIx 4 5 8 0 ∧ form = .indexed 8 →
      ∃ (s u : State) (xs : List (Chunk × Xlat)), s.vecMemCheck i form true 4 (s.xr 5) ((List.range s.me.vl).filter (s.Active 0)) = .ok (u, xs)) ∧
    (∃ (s u : State) (xs : List (Chunk × Xlat)), s.Active 0 1 = true ∧ (∀ k, s.Active 0 k = true → k ≤ 1) ∧ s.vecMemCheck (.vstBc 4 5 0) .bcast true 4 (s.xr 5) [1] = .ok (u, xs)) ∧
    (∃ s : State, s.VecOk false false [4] ∧ (∀ j, s.Active 0 j = false) ∧ s.me.etype ≠ 14) ∧
    (∃ (s : State) (j : Nat), s.VecOk false false [4] ∧ s.Active 0 j = true ∧ (s.xr 6).toNat % (s.vw / 8) ≠ 0) ∧ ∃ s : State, s.me.qvtype.getLsbD 63 = true := by
  refine ⟨fun form i h => ?_, fun form i h => ?_, ?_, ⟨vstate 2 0, by decide +kernel, fun j => ?_, by decide +kernel⟩, ⟨vstate 2 2, 0, by decide +kernel⟩, ⟨on (regs []), by decide +kernel⟩⟩
  · obtain ⟨u, xs, h⟩ := ok_pair (e := (vstate 2 2).vecMemCheck i form false 4 ((vstate 2 2).xr 5) ((List.range (vstate 2 2).me.vl).filter ((vstate 2 2).Active 0)))
      (by rcases h with ⟨rfl, rfl⟩ | ⟨rfl, rfl⟩ | ⟨rfl, rfl⟩ | ⟨rfl, rfl⟩ <;> decide +kernel)
    exact ⟨_, u, xs, h⟩
  · obtain ⟨u, xs, h⟩ := ok_pair (e := (vstate 2 2).vecMemCheck i form true 4 ((vstate 2 2).xr 5) ((List.range (vstate 2 2).me.vl).filter ((vstate 2 2).Active 0)))
      (by rcases h with ⟨rfl, rfl⟩ | ⟨rfl, rfl⟩ | ⟨rfl, rfl⟩ <;> decide +kernel)
    exact ⟨_, u, xs, h⟩
  · obtain ⟨u, xs, h⟩ := ok_pair (e := (vstate 2 2).vecMemCheck (.vstBc 4 5 0) .bcast true 4 ((vstate 2 2).xr 5) [1]) (by decide +kernel)
    exact ⟨vstate 2 2, u, xs, by decide +kernel, fun k hk => by
      have e : (vstate 2 2).me.vl = 2 := by decide +kernel
      simp only [State.Active, e, Bool.and_eq_true, decide_eq_true_eq] at hk; omega, h⟩
  · have e : (vstate 2 0).me.vl = 0 := by decide +kernel
    simp [State.Active, e]
theorem witness_VectorMoves : (∀ f : Bool, ∃ s : State, s.me.winSize ≠ 0 ∧ s.vecFull = f) ∧ (∃ s : State, s.me.winSize = 0) ∧ (∃ s : State, s.me.windowFault [31] = none ∧ s.vecFull = false ∧ (s.xr 6).toNat < s.me.winSize) ∧
    (∃ s : State, s.me.windowFault [31] = none ∧ s.vecFull = false ∧ s.me.winSize ≤ (s.xr 7).toNat) ∧ (∃ s : State, s.VecOk false false [4] ∧ (s.xr 6).toNat < 8192 / s.vw) ∧
    ∃ s : State, s.VecOk false false [4] ∧ 8192 / s.vw ≤ (s.xr 7).toNat :=
  ⟨fun f => ⟨if f then vfull else vstate 0 0, by cases f <;> decide +kernel⟩, ⟨on (regs []), by decide +kernel⟩, ⟨vstate 0 0, by decide +kernel⟩, ⟨vstate 0 0, by decide +kernel⟩, ⟨vstate 0 0, by decide +kernel⟩, ⟨vstate 1 0, by decide +kernel⟩⟩

/-- O47: a live target and one that is not, configuration blocks, and commands on their way to engine 0. -/
def mxRequest (cap : Word) (op : MxOp) : State :=
  on { regs [] with request := some (.mxCmd 0 cap ⟨op, 0, 0, [], 0, 0, 0, 0, false, 0⟩), wait := some (waitOf .reply none) } |>.modCtx 0 fun c => { c with status := .waiting }
/-- A valid configuration block: KLEN 32, and four buffers of one row of FP16. -/
def mxCfg0 : Nat := 32 * 2 ^ 16 + 64 * 2 ^ 64 + (List.range 4).foldl (fun a b => a + (64 + 2 ^ 64 + 8 * 2 ^ 72) * 2 ^ (128 + 96 * b)) 0
theorem witness_MatrixCommands : (∃ (s : State) (n g : Nat), (s.xr 6).toNat % 64 = 0 ∧ s.mxTarget 5 = (n, some g)) ∧ (∃ (s : State) (n : Nat), (s.xr 6).toNat % 64 = 0 ∧ s.mxTarget 5 = (n, none)) ∧
    (∀ ok : Bool, ∃ (s u : State) (x : Xlat) (v n g : Nat), (s.xr 6).toNat % 64 = 0 ∧ s.deviceRead .load needR (s.xr 6).toNat 64 = .ok (u, x, v) ∧ u.mxTarget 5 = (n, some g) ∧
      mxConfigOk (BitVec.ofNat 512 v) = ok ∧ u.watch false (s.xr 6).toNat 64 = .ok ()) ∧ (∃ s : State, (s.xr 5).toNat % 64 ≠ 0) := by
  refine ⟨⟨on (regs [(5, 2047), (6, 64)]), 2047, 2047, by decide +kernel⟩, ⟨on (regs [(5, 2048), (6, 64)]), 0, by decide +kernel⟩, fun ok => ?_, ⟨on (regs [(5, 32)]), by decide +kernel⟩⟩
  let s (ok : Bool) : State := onMem (regs [(5, 0), (6, 0x10000)]) [(0x10000, 64, if ok then mxCfg0 else 0)]
  have a1 : ∀ ok, ((s ok).xr 6).toNat % 64 = 0 := by decide +kernel
  obtain ⟨⟨u, x, v⟩, h, g⟩ := ok_and (e := (s ok).deviceRead .load needR ((s ok).xr 6).toNat 64) (fun r => decide (r.1.mxTarget 5 = (0, some 0) ∧ mxConfigOk (BitVec.ofNat 512 r.2.2) = ok) &&
    okb (r.1.watch false ((s ok).xr 6).toNat 64) fun _ => true) (by revert ok; decide +kernel)
  obtain ⟨g1, g2⟩ := (Bool.and_eq_true _ _).mp g
  obtain ⟨k1, k2⟩ := of_decide_eq_true g1
  exact ⟨s ok, u, x, v, 0, 0, a1 ok, h, k1, k2, ok_unit g2⟩
/-- A wrong key; the right key with a command that does not fit; one that fits and is answered, and MXSYNC, which is not. -/
theorem witness_MatrixCommands_arrival : (∀ (cap : Word) (op : MxOp), (cap = 1 ∧ op = .sync) ∨ (cap = 0 ∧ op = .mac false 0 0 0) ∨ (cap = 0 ∧ op = .sync) ∨ (cap = 0 ∧ op = .zero 0) →
    ∃ (s : State) (g : Nat) (q : MxCmd), (s.ctx s.ev.a).request = some (.mxCmd g cap q) ∧ q.op = op ∧ (s.cluster g).mx.queue.length < 32 ∧ q.started = false ∧ (cap = (s.cluster g).mx.key ↔ cap = 0) ∧ ((s.cluster g).mx.fits q = true ↔ op = .sync ∨ op = .zero 0)) ∧
    ∃ (s : State) (w : Wait) (k : Wake), (s.ctx s.ev.a).status = .waiting ∧ (s.die (dieOf s.ev.a)).stopped = false ∧ (s.ctx s.ev.a).wait = some w ∧ (s.ctx s.ev.a).wake = some k ∧
      (s.ctx s.ev.a).stop = none ∧ w.kind = .reply := by
  refine ⟨fun cap op h => ⟨mxRequest cap op, 0, ⟨op, 0, 0, [], 0, 0, 0, 0, false, 0⟩, rfl, rfl, ?_⟩,
    ⟨waitingIn .reply none (some ⟨0, 0, 0, 0, false⟩), waitOf .reply none, ⟨0, 0, 0, 0, false⟩, rfl, rfl, rfl, rfl, rfl, rfl⟩⟩
  rcases h with ⟨rfl, rfl⟩ | ⟨rfl, rfl⟩ | ⟨rfl, rfl⟩ | ⟨rfl, rfl⟩ <;> decide +kernel
/-- O48: operands of an event. -/
def ea (a b n : Nat) (v : Word) : EventArgs := { EventArgs.blank with a := a, b := b, n := n, v := v }
def onEv (e : EventArgs) : State := { on (regs []) with ev := e }
/-- A valid header of a launch queue of 8 entries at 0x20000 for die 0, whose slot 0 has VALID as given; the header stands at 0x10000. -/
def queueMem (valid : Nat) : List (Nat × Nat × Nat) := [(0x10000, 8, 0x20000), (0x10008, 8, 8), (0x20000, 8, 0x30000 + valid)]
def withQueue (e : EventArgs) (valid : Nat) (qs : List ServedQueue) : State := { onMem (regs []) (queueMem valid) with ev := e, dies := [(0, { Die.reset with queues := qs })] }
theorem witness_RegisterEvents_csrs : (∃ s : State, s.ev.a = 0 ∧ (s.ctx s.ev.b).isLive = true ∧ s.csrRead s.ev.b s.ev.n ≠ none) ∧
    (∀ n : Nat, n = 8 ∨ n = 4 → ∃ (s : State) (d : Nat), s.ev.a = 1 ∧ s.dieLive d = true ∧ s.ev.b = 0x409000000008 + d * 0x10000 ∧ s.ev.n = n) ∧
    (∃ s : State, (s.ctx s.ev.a).isLive = true ∧ etypeCode (BitVec.ofNat 5 (s.ev.v.extractLsb' 0 5).toNat) = true ∧ (s.ev.v.extractLsb' 16 11).toNat = 8192 / etypeWidth (s.ev.v.extractLsb' 0 5).toNat) ∧
    (∃ s : State, (s.ctx s.ev.a).isLive = true ∧ etypeCode (BitVec.ofNat 5 (s.ev.v.extractLsb' 0 5).toNat) = false) ∧
    (∃ s : State, (s.ctx s.ev.a).isLive = true ∧ 8192 / etypeWidth (s.ev.v.extractLsb' 0 5).toNat < (s.ev.v.extractLsb' 16 11).toNat) ∧
    (∃ s : State, (s.ctx s.ev.a).isLive = true ∧ (s.ev.v.extractLsb' 16 10).toNat = 0) ∧
    (∃ s : State, (s.ctx s.ev.a).isLive = true ∧ (s.ev.v.extractLsb' 16 10).toNat = 1) ∧ (∃ s : State, (s.ctx s.ev.a).isLive = true ∧ (s.ev.v.extractLsb' 16 10).toNat = 544) ∧
    (∃ (s : State) (b : Nat), (s.ctx s.ev.a).isLive = true ∧ (s.ev.v.extractLsb' 16 10).toNat = 512 ∧ s.findBlock (clusterOf s.ev.a) 512 = some b) :=
  ⟨⟨onEv (ea 0 0 0x800 0), by decide +kernel⟩, fun n h => by
      rcases h with rfl | rfl
      · exact ⟨onEv (ea 1 (0x409000000008 + 15 * 0x10000) 8 0), 15, by decide +kernel⟩
      · exact ⟨onEv (ea 1 0x409000000008 4 0), 0, by decide +kernel⟩,
    ⟨onEv (ea 0 0 0 (1024 * 65536)), by decide +kernel⟩, ⟨onEv (ea 0 0 0 31), by decide +kernel⟩, ⟨onEv (ea 0 0 0 (1025 * 65536)), by decide +kernel⟩,
    ⟨onEv (ea 0 0 0 0), by decide +kernel⟩, ⟨onEv (ea 0 0 0 65536), by decide +kernel⟩, ⟨onEv (ea 0 0 0 (544 * 65536)), by decide +kernel⟩, ⟨onEv (ea 0 0 0 (512 * 65536)), 0, by decide +kernel⟩⟩
theorem witness_RegisterEvents_units : (∃ s : State, s.clusterLive s.ev.a = true ∧ (s.cluster s.ev.a).busy = false) ∧ (∃ s : State, (s.cluster s.ev.a).busy = true ∧ ∀ r ∈ s.released, r.g ≠ s.ev.a) ∧
    (∃ (s : State) (at_ : Nat) (v : Word) (rest : List (Nat × Word)), (s.slice s.ev.a).unreached = (at_, v) :: rest) ∧ (∃ s : State, s.ev.a < 512) ∧
    (∃ s : State, s.ev.a < 64 ∧ s.ev.flag = true) ∧ (∃ s : State, s.ev.a < 64 ∧ s.ev.flag = false ∧ s.ev.b = 8) ∧
    (∃ s : State, s.host.up = true ∧ s.dieLive s.ev.a = true ∧ s.queueHeader (s.ev.v.toNat % 2 ^ 56) = none) ∧
    (∃ (s u : State) (w : List Nat) (n : Nat), s.host.up = true ∧ s.dieLive s.ev.a = true ∧ s.queueHeader (s.ev.v.toNat % 2 ^ 56) = some (u, w) ∧
      n = w.getD 1 0 / 2 ^ 32 % 16 ∧ u.replay.cmp = false ∧ (∀ q ∈ (u.die n).queues, q.header ≠ s.ev.v.toNat % 2 ^ 56)) := by
  refine ⟨⟨onEv (ea 0 0 0 0), by decide +kernel⟩, ⟨{ onEv (ea 0 0 0 0) with clusters := [(0, { Cluster.reset with busy := true })] }, by decide +kernel⟩,
    ⟨{ onEv (ea 63 0 0 0) with slices := [(63, { Slice.reset with unreached := [(0, 16), (1, 17)] })] }, 0, 16, [(1, 17)], by decide +kernel⟩, ⟨onEv (ea 511 0 0 0), by decide +kernel⟩, ⟨onEv { ea 63 0 0 0 with flag := true }, by decide +kernel⟩, ⟨onEv (ea 63 8 0 0), by decide +kernel⟩,
    ⟨onEv (ea 0 0 0 32), by decide +kernel⟩, ?_⟩
  obtain ⟨⟨u, w⟩, h, g⟩ := some_and (e := (withQueue (ea 0 0 0 0x10000) 0 []).queueHeader 0x10000)
    (fun r => decide (r.1.replay.cmp = false) && (r.1.die (r.2.getD 1 0 / 2 ^ 32 % 16)).queues.isEmpty) (by decide +kernel)
  obtain ⟨g1, g2⟩ := (Bool.and_eq_true _ _).mp g
  exact ⟨_, u, w, _, by decide +kernel, by decide +kernel, h, rfl, of_decide_eq_true g1, by rw [List.isEmpty_iff.mp g2]; exact none_of⟩
theorem witness_RegisterEvents_preempt : (∃ (s : State) (cid : Nat), s.dieLive s.ev.a = true ∧ cid = s.ownCtx s.ev.a (s.ev.v.toNat % 2 ^ 17) ∧ cid < 98304 ∧ cid / 6144 = s.ev.a ∧ cid % 12 ≠ 11 ∧
      (s.ctx cid).status = .running ∧ (s.ctx cid).stop = none ∧ (s.ctx cid).haltReq = false ∧ s.ev.v.getLsbD 17 = false) ∧
    (∃ (s : State) (cid : Nat), s.dieLive s.ev.a = true ∧ cid = s.ownCtx s.ev.a (s.ev.v.toNat % 2 ^ 17) ∧ cid / 6144 ≠ s.ev.a) ∧
    (∃ (s : State) (cid : Nat), s.dieLive s.ev.a = true ∧ cid = s.ownCtx s.ev.a (s.ev.v.toNat % 2 ^ 17) ∧ cid % 12 = 11) ∧
    (∀ st : CtxStatus, st = .idle ∨ st = .reserved ∨ st = .frozen → ∃ (s : State) (cid : Nat), s.dieLive s.ev.a = true ∧ cid = s.ownCtx s.ev.a (s.ev.v.toNat % 2 ^ 17) ∧ s.ev.v.getLsbD 17 = false ∧ (s.ctx cid).status = st) ∧
    (∃ (s : State) (cid : Nat), s.dieLive s.ev.a = true ∧ cid = s.ownCtx s.ev.a (s.ev.v.toNat % 2 ^ 17) ∧ s.ev.v.getLsbD 17 = false ∧ (s.ctx cid).stop ≠ none) ∧
    ∃ (s : State) (cid : Nat) (l : Launch), s.dieLive s.ev.a = true ∧ cid = s.ownCtx s.ev.a (s.ev.v.toNat % 2 ^ 17) ∧ cid < 98304 ∧ cid / 6144 = s.ev.a ∧ cid % 12 ≠ 11 ∧ (s.ctx cid).isLive = true ∧
      s.ev.v.getLsbD 17 = true ∧ s.launchAt (s.ctx cid).launch = some l ∧ l.gang ≠ [] :=
  ⟨⟨onEv (ea 0 0 0 0x40000), 0, by decide +kernel⟩, ⟨onEv (ea 0 0 0 6144), 6144, by decide +kernel⟩, ⟨onEv (ea 0 0 0 11), 11, by decide +kernel⟩,
    fun st h => ⟨on { regs [] with status := st }, 0, by rcases h with rfl | rfl | rfl <;> decide +kernel⟩,
    ⟨{ on { regs [] with stop := some ⟨false, false, none, false⟩ } with ev := ea 0 0 0 0 }, 0, by decide +kernel⟩,
    ⟨{ on { regs [] with launch := 1 } with ev := ea 0 0 0 0x20000, launches := [(1, { launchOn 0 with gang := [1] })] }, 0, { launchOn 0 with gang := [1] }, by decide +kernel⟩⟩
/-- O49: the debug block of die 0 enabled, and a context named. -/
def dbg (c : Ctx) (n : Nat) (x : Die) : State := { on c with ev := ea 0 0 n 0, dies := [(0, { x with den := true })] }
def waitCtx (k : WaitKind) (op : Word) : Ctx := { regs [] with status := .waiting, wait := some { waitOf k none with op0 := op } }
def frozenCtx (p : Bool) : Ctx := { vregs 0 0 [] with status := .frozen, held := some ⟨13, 0, 5, p⟩ }
/-- A buffered store of context 0, held by a change of SPWAYS of its cluster. -/
def owing (s : State) : State :=
  { s with cores := [(0, { Core.reset with storeBuffer := [sbe 0 (.store (spx 0) 8 0)] })], clusters := [(0, { Cluster.reset with busy := true })] }
theorem witness_DebugEvents_refusals : (∃ s : State, (s.die s.ev.a).den = false) ∧ (∃ s : State, (s.die s.ev.a).den = true ∧ (s.die s.ev.a).dbgBusy ≠ none) ∧
    (∀ b : Nat, b = 6144 ∨ b = 11 ∨ b = 1 → ∃ s : State, (s.die s.ev.a).den = true ∧ (s.die s.ev.a).dbgBusy = none ∧ s.ev.b = b ∧ (s.ev.b / 6144 ≠ s.ev.a ∨ s.ev.b % 12 = 11 ∨ (s.ctx s.ev.b).status = .idle)) ∧
    ∃ s : State, (s.die s.ev.a).den = true ∧ (s.die s.ev.a).dbgBusy = none ∧ (s.ctx s.ev.b).status = .reserved :=
  ⟨⟨onEv (ea 0 0 0 0), by decide +kernel⟩, ⟨dbg (regs []) 0 { Die.reset with dbgBusy := some 0 }, by decide +kernel⟩,
    fun b h => ⟨{ dbg (regs []) 0 Die.reset with ev := ea 0 b 0 0 }, by rcases h with rfl | rfl | rfl <;> decide +kernel⟩,
    ⟨dbg { regs [] with status := .reserved } 0 Die.reset, by decide +kernel⟩⟩
theorem witness_DebugEvents_halt : (∃ s : State, s.DebugReady ∧ (s.ctx s.ev.b).stop = none ∧ (s.ctx s.ev.b).haltReq = false ∧ (s.ctx s.ev.b).packet = none ∧ (s.ctx s.ev.b).status = .running ∧ (s.ctx s.ev.b).request = none) ∧
    (∃ s : State, s.DebugReady ∧ (s.ctx s.ev.b).stop = none ∧ (s.ctx s.ev.b).haltReq = false ∧ (s.ctx s.ev.b).packet = none ∧ (s.ctx s.ev.b).status = .waiting ∧ ((s.ctx s.ev.b).wait.map fun w => w.kind) ≠ some .reply) ∧
    (∃ s : State, s.DebugReady ∧ (s.ctx s.ev.b).stop = none ∧ (s.ctx s.ev.b).haltReq = false ∧ (s.ctx s.ev.b).status = .running ∧ (s.ctx s.ev.b).packet ≠ none) ∧
    (∃ s : State, s.DebugReady ∧ (s.ctx s.ev.b).stop = none ∧ (s.ctx s.ev.b).haltReq = false ∧ (s.ctx s.ev.b).status = .running ∧ (s.ctx s.ev.b).request ≠ none) ∧
    (∃ s : State, s.DebugReady ∧ (s.ctx s.ev.b).stop = none ∧ (s.ctx s.ev.b).haltReq = false ∧ (s.ctx s.ev.b).status = .waiting ∧ (s.ctx s.ev.b).packet ≠ none) ∧
    (∃ s : State, s.DebugReady ∧ (s.ctx s.ev.b).stop = none ∧ (s.ctx s.ev.b).haltReq = false ∧ (s.ctx s.ev.b).status = .waiting ∧ ((s.ctx s.ev.b).wait.map fun w => w.kind) = some .reply) ∧
    (∃ s : State, s.DebugReady ∧ (s.ctx s.ev.b).status = .frozen) ∧ (∃ s : State, s.DebugReady ∧ (s.ctx s.ev.b).status = .running ∧ (s.ctx s.ev.b).stop ≠ none) ∧
    ∃ s : State, s.DebugReady ∧ (s.ctx s.ev.b).status = .running ∧ (s.ctx s.ev.b).haltReq = true := by
  unfold State.DebugReady
  exact ⟨⟨dbg (regs []) 0 Die.reset, by decide +kernel⟩, ⟨dbg (waitCtx .bhwait 0) 0 Die.reset, by decide +kernel⟩, ⟨dbg { regs [] with packet := some [] } 0 Die.reset, by decide +kernel⟩,
    ⟨dbg { regs [] with request := some (.access .wfi (some 0) none) } 0 Die.reset, by decide +kernel⟩, ⟨dbg { waitCtx .bhwait 0 with packet := some [] } 0 Die.reset, by decide +kernel⟩,
    ⟨dbg (waitCtx .reply 0) 0 Die.reset, by decide +kernel⟩, ⟨dbg (frozenCtx false) 0 Die.reset, by decide +kernel⟩, ⟨dbg { regs [] with stop := some ⟨false, false, none, false⟩ } 0 Die.reset, by decide +kernel⟩,
    ⟨dbg { regs [] with haltReq := true } 0 Die.reset, by decide +kernel⟩⟩
theorem witness_DebugEvents_fhalt : (∃ s : State, s.DebugReady ∧ (s.ctx s.ev.b).status = .running ∧ (s.ctx s.ev.b).request = none) ∧
    (∃ s : State, s.DebugReady ∧ (s.ctx s.ev.b).status = .running ∧ (s.ctx s.ev.b).request ≠ none) ∧
    (∀ k : WaitKind, k = .qpop ∨ k = .evwait → ∃ (s : State) (w : Wait), s.DebugReady ∧ (s.ctx s.ev.b).status = .waiting ∧ (s.ctx s.ev.b).wait = some w ∧ w.kind = k ∧ w.kind ≠ .reply ∧
      w.kind ≠ .falign ∧ (s.ctx s.ev.b).wake = none) ∧
    (∃ (s : State) (w : Wait), s.DebugReady ∧ (s.ctx s.ev.b).status = .waiting ∧ (s.ctx s.ev.b).wait = some w ∧ w.kind = .evwait ∧ (s.ctx s.ev.b).wake ≠ none) ∧
    (∀ o : Bool, ∃ (s : State) (w : Wait), s.DebugReady ∧ (s.ctx s.ev.b).status = .waiting ∧ (s.ctx s.ev.b).wait = some w ∧ w.kind = .reply ∧ w.op0 ≠ 0 ∧ w.op1 ≠ 0 ∧ s.owes s.ev.b = o) ∧
    (∃ (s : State) (w : Wait), s.DebugReady ∧ (s.ctx s.ev.b).status = .waiting ∧ (s.ctx s.ev.b).wait = some w ∧ w.kind = .reply ∧ w.op0 = 0) ∧
    (∃ (s : State) (w : Wait), s.DebugReady ∧ (s.ctx s.ev.b).status = .waiting ∧ (s.ctx s.ev.b).wait = some w ∧ w.kind = .falign) ∧
    ∃ (s : State) (w : Wait), s.DebugReady ∧ (s.ctx s.ev.b).status = .waiting ∧ (s.ctx s.ev.b).wait = some w ∧ w.kind = .reply ∧ w.op0 ≠ 0 := by
  unfold State.DebugReady
  exact ⟨⟨dbg (regs []) 0 Die.reset, by decide +kernel⟩, ⟨dbg { regs [] with request := some (.access .wfi (some 0) none) } 0 Die.reset, by decide +kernel⟩,
    fun k h => ⟨dbg (waitCtx k 0) 0 Die.reset, waitOf k none, by rcases h with rfl | rfl <;> decide +kernel⟩,
    ⟨dbg { waitCtx .evwait 0 with wake := some ⟨0, 0, 0, 0, false⟩ } 0 Die.reset, waitOf .evwait none, by decide +kernel⟩,
    fun o => ⟨{ dbg { waitCtx .reply 1 with wait := some { waitOf .reply none with op0 := 1, op1 := 1 } } 0 Die.reset with
        cores := [(0, { Core.reset with posted := if o then [sbe 0 (.store (spx 0x800000) 8 0)] else [] })] }, { waitOf .reply none with op0 := 1, op1 := 1 }, by revert o; decide +kernel⟩,
    ⟨dbg (waitCtx .reply 0) 0 Die.reset, waitOf .reply none, by decide +kernel⟩,
    ⟨dbg (waitCtx .falign 0) 0 Die.reset, waitOf .falign none, by decide +kernel⟩, ⟨dbg (waitCtx .reply 1) 0 Die.reset, { waitOf .reply none with op0 := 1 }, by decide +kernel⟩⟩
/-- A Frozen context, with each kind of register number; a full dump region and one with room; a claim with and without a hold. -/
theorem witness_DebugEvents_frozen : (∀ n : Nat, n = 0 ∨ n = 31 ∨ n = 32 ∨ n = 75 ∨ n = 84 ∨ n = 256 + 128 * 32 - 1 ∨ n = 256 + 128 * 32 → ∃ s : State, s.DebugReady ∧ (s.ctx s.ev.b).status = .frozen ∧
      (∀ h, (s.ctx s.ev.b).held = some h → h.parking = false) ∧ s.ev.n = n ∧ (s.ctx s.ev.b).winSize = 32) ∧
    (∃ (s u : State), s.DebugReady ∧ (s.ctx s.ev.b).status = .frozen ∧ (∀ h, (s.ctx s.ev.b).held = some h → h.parking = false) ∧ u = (s.modDie s.ev.a fun x => { x with result := 0 }).settle s.ev.b ∧
      (u.die s.ev.a).dumpsize.toNat ≤ (u.die s.ev.a).dumpnext.toNat) ∧
    (∃ (s u : State) (p : Nat), s.DebugReady ∧ (s.ctx s.ev.b).status = .frozen ∧ (∀ h, (s.ctx s.ev.b).held = some h → h.parking = false) ∧ u = (s.modDie s.ev.a fun x => { x with result := 0 }).settle s.ev.b ∧
      p = ((u.die s.ev.a).dumpbase.extractLsb' 20 36).toNat * 2 ^ 20 + (u.die s.ev.a).dumpnext.toNat * 2 ^ 20 ∧ (u.die s.ev.a).dumpnext.toNat < (u.die s.ev.a).dumpsize.toNat ∧ p + 2 ^ 20 ≤ 2 ^ 42) := by
  have held : ∀ (n : Nat) (x : Die) (h : Held), ((dbg (frozenCtx false) n x).ctx (dbg (frozenCtx false) n x).ev.b).held = some h → h.parking = false := fun n x h e => by
    have e' : some (⟨13, 0, 5, false⟩ : Held) = some h := e
    injection e' with e'; rw [← e']
  unfold State.DebugReady
  refine ⟨fun n h => ⟨dbg (frozenCtx false) n Die.reset, by rcases h with rfl | rfl | rfl | rfl | rfl | rfl | rfl <;> decide +kernel, rfl, held n _, rfl, by rcases h with rfl | rfl | rfl | rfl | rfl | rfl | rfl <;> decide +kernel⟩,
    ⟨dbg (frozenCtx false) 0 Die.reset, _, by decide +kernel, by decide +kernel, held 0 _, rfl, by decide +kernel⟩,
    ⟨dbg (frozenCtx false) 0 { Die.reset with dumpsize := 2, dumpnext := 1, dumpbase := 0x3FFFFE00000 }, _, _, by decide +kernel, by decide +kernel, held 0 _, rfl, rfl, by decide +kernel, by decide +kernel⟩⟩
theorem witness_DebugEvents_claims : (∀ st : CtxStatus, st = .running ∨ st = .waiting ∨ st = .frozen → ∃ s : State, s.DebugReady ∧ (s.ctx s.ev.b).status = st ∧ (s.ctx s.ev.b).claimed = true ∧ (s.ctx s.ev.b).held = none) ∧
    (∃ (s : State) (h : Held), s.DebugReady ∧ (s.ctx s.ev.b).status = .frozen ∧ (s.ctx s.ev.b).claimed = true ∧ (s.ctx s.ev.b).held = some h) ∧
    (∃ s : State, s.DebugReady ∧ (s.ctx s.ev.b).status = .running ∧ (s.ctx s.ev.b).claimed = false) ∧
    (∀ claim : Bool, ∃ (s : State) (h : Held), (s.ctx s.ev.a).held = some h ∧ (s.ctx s.ev.a).status = .frozen ∧ h.parking = false ∧ (s.ctx s.ev.a).claimed = claim ∧
      (s.die (dieOf s.ev.a)).stopped = false ∧ s.waysHold s.ev.a = false ∧ h.since + (s.die (dieOf s.ev.a)).holdtmo.toNat = s.now) ∧
    (∃ (s : State) (h : Held), (s.ctx s.ev.a).held = some h ∧ (s.ctx s.ev.a).status = .frozen ∧ h.parking = false ∧ (s.die (dieOf s.ev.a)).stopped = true) ∧
    (∃ (s : State) (h : Held), (s.ctx s.ev.a).held = some h ∧ (s.ctx s.ev.a).status = .frozen ∧ h.parking = false ∧ s.waysHold s.ev.a = true) ∧
    ∃ (s : State) (h : Held), (s.ctx s.ev.a).held = some h ∧ (s.ctx s.ev.a).status = .frozen ∧ h.parking = false ∧ s.now < h.since + (s.die (dieOf s.ev.a)).holdtmo.toNat := by
  unfold State.DebugReady
  exact ⟨fun st h => ⟨dbg { regs [] with status := st, claimed := true } 0 Die.reset, by rcases h with rfl | rfl | rfl <;> decide +kernel⟩,
    ⟨dbg { frozenCtx false with claimed := true } 0 Die.reset, ⟨13, 0, 5, false⟩, by decide +kernel⟩, ⟨dbg (regs []) 0 Die.reset, by decide +kernel⟩,
    fun claim => ⟨{ dbg { frozenCtx false with claimed := claim } 0 { Die.reset with holdtmo := 7 } with now := 12 }, ⟨13, 0, 5, false⟩, by revert claim; decide +kernel⟩,
    ⟨dbg (frozenCtx false) 0 { Die.reset with stopped := true }, ⟨13, 0, 5, false⟩, by decide +kernel⟩, ⟨owing (dbg (frozenCtx false) 0 Die.reset), ⟨13, 0, 5, false⟩, by decide +kernel⟩,
    ⟨dbg (frozenCtx false) 0 Die.reset, ⟨13, 0, 5, false⟩, by decide +kernel⟩⟩
/-- One entry of each stream on the same line. -/
def streamed (x y : StreamEntry) : State := { on (regs []) with ev := ea 1 0 0 0, replay := { Replay.reset with cmp := true, streamA := [(1, [x])], streamB := [(1, [y])] } }
theorem witness_DebugEvents_pulses : (∃ s : State, s.sampctl = 0) ∧ (∃ s : State, s.now % s.sampctl.toNat ≠ 0) ∧ (∃ s : State, s.pulsed = some s.now) ∧ (∃ s : State, s.sampctl ≠ 0 ∧ s.now % s.sampctl.toNat = 0 ∧ s.pulsed ≠ some s.now) ∧
    (∃ (s : State) (g : Nat), (s.die (g / 128)).en = false) ∧
    (∃ (s : State) (x y : StreamEntry), (tfind s.replay.streamA s.ev.a) = some [x] ∧ (tfind s.replay.streamB s.ev.a) = some [y] ∧ x.line = y.line ∧ x.settle = y.settle ∧ x.mask = y.mask ∧ x.data = y.data) ∧
    ∃ (s : State) (x y : StreamEntry), (tfind s.replay.streamA s.ev.a) = some [x] ∧ (tfind s.replay.streamB s.ev.a) = some [y] ∧ x.line = y.line ∧ x.settle = y.settle ∧ x.mask ≠ y.mask ∧
      s.replay.cmp = true ∧ x.launch ∉ s.replay.reported ∧
      ∀ k ∈ s.replay.halted, (s.ctx k).haltReq = false ∧ (s.ctx k).status ≠ .frozen :=
  ⟨⟨on (regs []), by decide +kernel⟩, ⟨{ on (regs []) with now := 10001, sampctl := 10000 }, by decide +kernel⟩, ⟨{ on (regs []) with pulsed := some 0 }, by decide +kernel⟩, ⟨{ on (regs []) with now := 20000, sampctl := 10000 }, by decide +kernel⟩,
    ⟨on (regs []), 0, by decide +kernel⟩, ⟨streamed ⟨1, false, 1, 0, 0, 1⟩ ⟨1, false, 1, 0, 0, 1⟩, _, _, rfl, rfl, by decide +kernel⟩, ⟨streamed ⟨1, false, 1, 0, 0, 1⟩ ⟨1, false, 2, 0, 0, 1⟩, _, _, rfl, rfl, by decide +kernel⟩⟩
/-- O50. A wait of each kind that has ended; a stopping context; a saved one; a parking one; requests without answers. -/
def stopping (q : StopReq) : Ctx := { regs [] with stop := some q }
def withCore (k : Core) (c : Ctx) : State := { on c with cores := [(0, k)] }
def badSave : Core := { Core.reset with qcsave := 0xFFF }
def saved0 (w : Bool) : Saved :=
  { key := 1, cid := 0, fixedAt := 0x100000000000, memAt := 0, launch := 0, rank := 0, task := none, hstarted := false, hasCtx := true, scounteren := 0, senvcfg := 0, wait := none, wake := none, lost := false
    claimed := false, prioMax := 7, fq := none, wants := w, gang := false, resume := none, stg := 0, ending := none }
def savedIn (w : Bool) : State := { on { Ctx.reset with status := .reserved } with saved := [saved0 w] }
theorem witness_HelpersComplete_ends : ∃ (v : State) (l : Launch), v.saved ≠ [] ∧ (∀ q ∈ v.saved, q.ending = none ∨ coreOf q.cid ≠ 1) ∧ v.launchAt 1 = some l ∧ l.stopping = false :=
  ⟨{ on (regs []) with launches := [(1, launchOn 0)], saved := [saved0 true] }, launchOn 0, by decide +kernel⟩
theorem witness_ContextEvents_waits : (∀ k : WaitKind, k = .hjoin ∨ k = .qpop ∨ k = .bhwait ∨ k = .phwait → ∃ (s u : State) (c : Ctx) (w : Wait) (j : Wake), c = s.ctx s.ev.a ∧ c.status = .waiting ∧
      (s.die (dieOf s.ev.a)).stopped = false ∧ c.wait = some w ∧ c.wake = some j ∧ c.stop = none ∧ w.kind = k ∧ u = s.edge (dieOf s.ev.a) c.qtid j w.kind.code) ∧
    (∀ d : Nat, d = 0 ∨ d = 1 → ∃ (s : State) (w : Wait), (s.ctx s.ev.a).status = .waiting ∧ (s.ctx s.ev.a).wait = some w ∧ w.kind = .falign ∧ w.deadline = some d ∧ (s.ctx s.ev.a).stop = none ∧
      (s.die (dieOf s.ev.a)).stopped = false ∧ (d ≤ (s.cycle (dieOf s.ev.a)).toNat ↔ d = 0)) ∧
    ∃ (s : State) (w : Wait), (s.ctx s.ev.a).status = .waiting ∧ (s.ctx s.ev.a).wait = some w ∧ w.kind = .falign ∧ w.deadline = some 0 ∧ (s.ctx s.ev.a).stop = none ∧
      (s.die (dieOf s.ev.a)).stopped = true :=
  ⟨fun k h => ⟨waitingIn k none (some ⟨0, 0, 0, 0, false⟩), _, _, waitOf k none, ⟨0, 0, 0, 0, false⟩, rfl, rfl, rfl, rfl, rfl, rfl, rfl, rfl⟩,
    fun d h => ⟨waitingIn .falign (some d) none, waitOf .falign (some d), by rcases h with rfl | rfl <;> decide +kernel⟩,
    ⟨{ waitingIn .falign (some 0) none with dies := [(0, { Die.reset with stopped := true })] }, waitOf .falign (some 0), by decide +kernel⟩⟩
theorem witness_ContextEvents_saves : (∃ s : State, (s.ctx s.ev.a).stop = some ⟨false, false, none, false⟩ ∧ (s.die (dieOf s.ev.a)).stopped = true) ∧
    (∃ s : State, (s.ctx s.ev.a).stop = some ⟨false, false, none, false⟩ ∧ s.waysHold s.ev.a = true) ∧
    (∀ e : Bool, ∃ (s : State) (q : StopReq), (s.ctx s.ev.a).stop = some q ∧ (s.die (dieOf s.ev.a)).stopped = false ∧ s.waysHold s.ev.a = false ∧ q.kill = true ∧ (s.ctx s.ev.a).endable = e) ∧
    (∃ (s : State) (q : StopReq), (s.ctx s.ev.a).stop = some q ∧ q.kill = false ∧ (s.die (dieOf s.ev.a)).stopped = false ∧ (s.ctx s.ev.a).packet = none ∧ (s.ctx s.ev.a).request = none ∧
      (s.ctx s.ev.a).status = .running ∧ s.waysHold s.ev.a = false ∧ q.hold = false ∧ s.saveContext s.ev.a = none) ∧
    (∃ (s u : State) (v : Saved) (q : StopReq), (s.ctx s.ev.a).stop = some q ∧ q.kill = false ∧ (s.die (dieOf s.ev.a)).stopped = false ∧ (s.ctx s.ev.a).packet = none ∧ (s.ctx s.ev.a).request = none ∧
      (s.ctx s.ev.a).status = .running ∧ s.waysHold s.ev.a = false ∧ q.hold = false ∧ s.saveContext s.ev.a = some (u, v)) ∧
    (∃ (s : State) (q : StopReq) (w : Wait), (s.ctx s.ev.a).stop = some q ∧ q.kill = false ∧ (s.die (dieOf s.ev.a)).stopped = false ∧ (s.ctx s.ev.a).packet = none ∧ (s.ctx s.ev.a).status = .waiting ∧ (s.ctx s.ev.a).request = none ∧ (s.ctx s.ev.a).wait = some w ∧ w.kind ≠ .reply ∧ s.waysHold s.ev.a = false ∧ q.hold = true ∧
      (s.die (dieOf s.ev.a)).fqsize.toNat ≤ (s.die (dieOf s.ev.a)).fqtail.toNat - (s.die (dieOf s.ev.a)).fqhead.toNat ∧ (s.die (dieOf s.ev.a)).fqhead.toNat ≤ (s.die (dieOf s.ev.a)).fqtail.toNat) ∧
    (∃ (s : State) (v : Saved), s.saved[s.ev.a]? = some v ∧ v.wants = false) ∧ (∃ (s : State) (v : Saved), s.saved[s.ev.a]? = some v ∧ v.ending ≠ none) ∧
    (∃ (s : State) (v : Saved), s.saved[s.ev.a]? = some v ∧ (s.die (dieOf v.cid)).stopped = true) ∧
    ∃ (s t : State) (v : Saved), s.saved[s.ev.a]? = some v ∧ v.wants = true ∧ v.ending = none ∧ (s.die (dieOf v.cid)).stopped = false ∧ v.gang = false ∧ (s.ctx v.cid).status = .reserved ∧ s.coreAvailable (coreOf v.cid) = true ∧ v.resume = none ∧
      s.restoreInto v v.cid = some t := by
  have e : ∃ u v, (on (stopping ⟨false, false, none, false⟩)).saveContext 0 = some (u, v) := by
    have hs : (on (stopping ⟨false, false, none, false⟩)).saveSlots 0 = some (0x100000000000, 0) := by decide +kernel
    unfold State.saveContext; rw [hs]; exact ⟨_, _, rfl⟩
  obtain ⟨u, v, h⟩ := e
  obtain ⟨t, h3, -⟩ := some_and (e := (savedIn true).restoreInto (saved0 true) 0) (fun _ => true) (by decide +kernel)
  refine ⟨⟨{ on (stopping ⟨false, false, none, false⟩) with dies := [(0, { Die.reset with stopped := true })] }, by decide +kernel⟩, ⟨owing (on (stopping ⟨false, false, none, false⟩)), by decide +kernel⟩,
    fun e => ⟨on { stopping ⟨false, false, none, true⟩ with packet := if e then none else some [] }, ⟨false, false, none, true⟩, by revert e; decide +kernel⟩,
    ⟨withCore badSave (stopping ⟨false, false, none, false⟩), ⟨false, false, none, false⟩, rfl, rfl, rfl, rfl, rfl, rfl, by decide +kernel, rfl, by decide +kernel⟩, ⟨on (stopping ⟨false, false, none, false⟩), u, v, ⟨false, false, none, false⟩, rfl, rfl, rfl, rfl, rfl, rfl, by decide +kernel, rfl, h⟩,
    ⟨on { waitCtx .qpop 0 with stop := some ⟨true, false, none, false⟩ }, ⟨true, false, none, false⟩, { waitOf .qpop none with op0 := 0 }, rfl, rfl, rfl, rfl, rfl, rfl, rfl, by decide, by decide +kernel, rfl, by decide +kernel⟩,
    ⟨savedIn false, saved0 false, rfl, rfl⟩,
    ⟨{ savedIn true with saved := [{ saved0 true with ending := some 1 }] }, { saved0 true with ending := some 1 }, by decide +kernel⟩,
    ⟨{ savedIn true with dies := [(0, { Die.reset with stopped := true })] }, saved0 true, by decide +kernel⟩, ⟨savedIn true, t, saved0 true, rfl, rfl, rfl, rfl, rfl, by decide +kernel, by decide +kernel, rfl, h3⟩⟩
theorem witness_ContextEvents_parks : (∃ (s : State) (h : Held), (s.ctx s.ev.a).held = some h ∧ s.waysHold s.ev.a = false ∧ (s.ctx s.ev.a).stop.any (fun q => q.kill) = true ∧ (s.die (dieOf s.ev.a)).fqFull = false) ∧
    (∀ bad : Bool, ∃ (s : State) (h : Held), (s.ctx s.ev.a).held = some h ∧ s.waysHold s.ev.a = false ∧ (s.ctx s.ev.a).status = .frozen ∧ (s.ctx s.ev.a).stop.any (fun q => q.kill) = false ∧ h.parking = true ∧ (s.ctx s.ev.a).task = none ∧
      (s.die (dieOf s.ev.a)).fqFull = false ∧ ((s.saveContext s.ev.a).isNone = bad)) ∧
    ∃ (s : State) (h : Held), (s.ctx s.ev.a).held = some h ∧ s.waysHold s.ev.a = false ∧ (s.ctx s.ev.a).status = .frozen ∧ (s.ctx s.ev.a).stop.any (fun q => q.kill) = false ∧ h.parking = true ∧ (s.ctx s.ev.a).task = none ∧ (s.die (dieOf s.ev.a)).fqFull = true :=
  ⟨⟨{ on { frozenCtx true with stop := some ⟨false, false, none, true⟩ } with dies := [(0, { Die.reset with fqsize := 4 })] }, ⟨13, 0, 5, true⟩, by decide +kernel⟩, fun bad => ⟨{ withCore (if bad then badSave else Core.reset) (frozenCtx true) with dies := [(0, { Die.reset with fqsize := 4 })] }, ⟨13, 0, 5, true⟩, by revert bad; decide +kernel⟩,
    ⟨on (frozenCtx true), ⟨13, 0, 5, true⟩, by decide +kernel⟩⟩
def send0 (forced : Bool) : AccSend := ⟨0, .i, queue0, 0, 0, 0, 0, forced, 0, 0, 0, 0⟩
def stack0 : StackCmd := ⟨.gath, 0, Xlat.none, .handle 0 3 0, [], [], 0, .u, false, false, 0, 0, 0, 0, 0, 0, 0, []⟩
def mx0 (op : MxOp) (st : Bool) : MxCmd := ⟨op, 0, 0, [], 0, 0, 0, 0, st, 0⟩
/-- MXLD of a row at 0x10000, started. -/
def mxLoad : MxCmd := { mx0 (.ld 0 0x10000) true with cfg := BitVec.ofNat 512 mxCfg0, pages := [queue0] }
def vecStore0 : VecStore := ⟨1, 0, 0, 0, [], 1⟩
/-- A copy whose source is in HBM. -/
def copyHbm : CopyOp := { copy0 16 (.handle 0 3 0) none with src := 0x20000, srcPages := [{ queue0 with va := 0x20000, pa := 0x20000 }] }
def muteAll (n c : Nat) : State :=
  { on { regs [] with status := .waiting, wait := some (waitOf .reply none), request := some (.mute 0x80 0) } with
    ev := { ea 0 0 n 0 with c := c }, now := 20000, cores := [(0, { Core.reset with posted := [sbe 0 (.store (spx 0x800000) 8 0)] })], sends := [send0 true], stackCmds := [(0, [stack0])],
    clusters := [(0, { Cluster.reset with copies := [copyHbm], mx := { Mx.reset with queue := [mxLoad] } })] }
theorem witness_ContextEvents_timeouts : (∃ (s : State) (w : Wait) (pa d : Nat), s.ev.n = 0 ∧ (s.ctx s.ev.a).status = .waiting ∧ (s.ctx s.ev.a).wait = some w ∧ (s.ctx s.ev.a).request = some (.mute pa d) ∧
      w.since + (s.qmtmo.extractLsb' 0 40).toNat = s.now ∧ (s.die (dieOf s.ev.a)).stopped = false) ∧
    (∃ (s : State) (w : Wait) (pa : Nat) (i : Instr) (sl : Option Nat), s.ev.n = 0 ∧ (s.ctx s.ev.a).status = .waiting ∧ (s.ctx s.ev.a).wait = some w ∧
      (s.ctx s.ev.a).request = some (.access i (some pa) sl) ∧ w.since + (s.qmtmo.extractLsb' 0 40).toNat = s.now ∧ (s.die (dieOf s.ev.a)).stopped = false) ∧
    (∃ (s : State) (e : SBEntry) (x : Xlat) (n : Nat) (v : Word), s.ev.n = 1 ∧ s.ev.flag = false ∧ (s.core s.ev.a).posted[s.ev.b]? = some e ∧ e.kind = .store x n v ∧
      e.since + (s.qmtmo.extractLsb' 0 40).toNat = s.now ∧ e.vec = none) ∧
    (∃ (s : State) (e : SBEntry) (x : Xlat) (n : Nat) (v : Word) (i key : Nat) (q : VecStore), s.ev.n = 1 ∧ s.ev.flag = false ∧ (s.core s.ev.a).posted[s.ev.b]? = some e ∧ e.kind = .store x n v ∧
      e.since + (s.qmtmo.extractLsb' 0 40).toNat = s.now ∧ e.vec = some (key, i) ∧ (s.core s.ev.a).vecStores = [q] ∧ q.key = key ∧ q.left = 1 ∧ q.fails = []) ∧
    (∃ (s : State) (a : AccSend), s.ev.n = 2 ∧ s.sends[s.ev.a]? = some a ∧ a.forced = true ∧ a.sent + (s.qmtmo.extractLsb' 0 40).toNat = s.now) ∧
    (∃ (s : State) (c : CopyOp) (g h : Nat) (w : Word), s.ev.n = 3 ∧ (s.cluster s.ev.a).copies[s.ev.b]? = some c ∧ c.sealedBy = none ∧ c.target = .handle g h w ∧
      s.timedOut c.since (c.reads ++ c.writes) s.ev.c = true ∧ s.leaves s.ev.a s.ev.c = true ∧ ∀ r ∈ s.released, r.g ≠ s.ev.a) ∧
    (∃ (s : State) (c : StackCmd), s.ev.n = 4 ∧ (s.stackList s.ev.a)[s.ev.b]? = some c ∧
      s.timedOut c.since ((c.descAt :: c.pages ++ s.nextRow s.ev.a c).map fun x => (x.pa / 4096 * 4096, 4096)) s.ev.c = true) ∧
    ∃ (s : State) (q : MxCmd) (b : Nat) (ea : Word), s.ev.n = 5 ∧ (s.cluster s.ev.a).mx.queue[s.ev.b]? = some q ∧ q.started = true ∧ q.op = .ld b ea ∧
      s.timedOut q.since (s.mxPieces q) s.ev.c = true ∧ s.leaves s.ev.a s.ev.c = true :=
  ⟨⟨muteAll 0 0, waitOf .reply none, 0x80, 0, by decide +kernel⟩,
    ⟨(muteAll 0 0).modCtx 0 fun c => { c with request := some (.access (.load .ld 1 2 0) (some 0x80) (some 1)) }, waitOf .reply none, 0x80, .load .ld 1 2 0, some 1, by decide +kernel⟩,
    ⟨muteAll 1 0, sbe 0 (.store (spx 0x800000) 8 0), spx 0x800000, 8, 0, by decide +kernel⟩,
    ⟨{ muteAll 1 0 with cores := [(0, { Core.reset with posted := [{ sbe 0 (.store (spx 0x800000) 8 0) with vec := some (1, 0) }], vecStores := [vecStore0] })] },
      { sbe 0 (.store (spx 0x800000) 8 0) with vec := some (1, 0) }, spx 0x800000, 8, 0, 0, 1, vecStore0, by decide +kernel⟩, ⟨muteAll 2 0, send0 true, by decide +kernel⟩,
    ⟨muteAll 3 0x2000F, copyHbm, 0, 3, 0, by decide +kernel⟩, ⟨muteAll 4 0xFFF, stack0, by decide +kernel⟩, ⟨muteAll 5 0x10000, mxLoad, 0, 0x10000, by decide +kernel⟩⟩
/-- O51. A task of the launch on core 0, and a die with tasks ready, in the bobbin of core k, and with decrements and stagings. -/
def task1 (id prio ready : Nat) : TaskEntry := { task0 with id := BitVec.ofNat 64 id, ctl := BitVec.ofNat 32 (prio + 2 ^ 8), hi := 0, tReady := ready }
def tasks (a : Nat) (k : Nat) (own rdy : List TaskEntry) : State :=
  { on (regs []) with ev := ea a 0 0 0, launches := [(1, launchOn 0)], cores := [(k, { Core.reset with bobbin := own })], dies := [(0, { Die.reset with ready := rdy })] }
theorem witness_DispatcherEvents_slots : (∃ (s : State) (q : ServedQueue), (s.die s.ev.a).queues[s.ev.b]? = some q ∧ s.host.up = true ∧ (s.die s.ev.a).stopped = false ∧ s.replay.cmp = false ∧
      (∀ p ∈ s.launches, p.2.queue = some q.header → p.2.running = true) ∧ s.queueHeader q.header = none) ∧
    (∀ n : Fin 2, ∃ (s u v : State) (q : ServedQueue) (w : List Nat) (slot : Nat), (s.die s.ev.a).queues[s.ev.b]? = some q ∧ s.host.up = true ∧ (s.die s.ev.a).stopped = false ∧ s.replay.cmp = false ∧
      (∀ p ∈ s.launches, p.2.queue = some q.header → p.2.running = true) ∧ s.queueHeader q.header = some (u, w) ∧
      u.homeRead (w.getD 0 0 + 8 * (w.getD 4 0 % (w.getD 1 0 % 2 ^ 32))) 8 = (v, slot) ∧ v.replay.cmp = false ∧ slot % 2 = n.1) := by
  refine ⟨⟨withQueue (ea 0 0 0 0) 0 [⟨0x10020, 0, 0, 0, 0, []⟩], ⟨0x10020, 0, 0, 0, 0, []⟩, rfl, rfl, rfl, rfl, none_of, by decide +kernel⟩, fun n => ?_⟩
  obtain ⟨⟨u, w⟩, h, g⟩ := some_and (e := (withQueue (ea 0 0 0 0) n.1 [⟨0x10000, 0, 0, 0, 0, []⟩]).queueHeader 0x10000)
    (fun r => decide ((r.1.homeRead (r.2.getD 0 0 + 8 * (r.2.getD 4 0 % (r.2.getD 1 0 % 2 ^ 32))) 8).1.replay.cmp = false ∧
      (r.1.homeRead (r.2.getD 0 0 + 8 * (r.2.getD 4 0 % (r.2.getD 1 0 % 2 ^ 32))) 8).2 % 2 = n.1)) (by revert n; decide +kernel)
  obtain ⟨g1, g2⟩ := of_decide_eq_true g
  exact ⟨_, u, _, ⟨0x10000, 0, 0, 0, 0, []⟩, w, _, rfl, rfl, rfl, rfl, none_of, h, pair_eta _, g1, g2⟩
theorem witness_DispatcherEvents_starts : (∃ (s : State) (l : Launch), s.launchAt s.ev.a = some l ∧ l.gang = [] ∧ l.running = false ∧ l.tt = none ∧ (s.die l.die).stopped = false ∧
      (∀ k ∈ l.cores, (s.ctx (controlOf k)).status = .idle ∧ s.coreAvailable k = true) ∧ ∀ r < l.count, s.stagedId (s.controlId l r) (some (l.first + r)) = true) ∧
    (∃ (s : State) (o : TaskEntry), (s.ctx s.ev.a).status = .idle ∧ 1 ≤ s.ev.a % 12 ∧ s.ev.a % 12 ≤ 10 ∧ s.coreAvailable (coreOf s.ev.a) = true ∧ (s.die (dieOf s.ev.a)).stopped = false ∧
      (∀ p ∈ (s.core (coreOf s.ev.a)).arriving, p.1 ≠ s.ev.a) ∧ s.newestEntry (coreOf s.ev.a) = some o ∧ ∀ i t, s.bestReady (coreOf s.ev.a) = some (i, t) → s.effective t ≤ o.prio) ∧
    (∃ (s : State) (i : Nat) (t : TaskEntry), (s.ctx s.ev.a).status = .idle ∧ 1 ≤ s.ev.a % 12 ∧ s.ev.a % 12 ≤ 10 ∧ s.coreAvailable (coreOf s.ev.a) = true ∧ (s.die (dieOf s.ev.a)).stopped = false ∧
      (∀ p ∈ (s.core (coreOf s.ev.a)).arriving, p.1 ≠ s.ev.a) ∧ s.bestReady (coreOf s.ev.a) = some (i, t) ∧ (∀ o, (s.ownEntry (coreOf s.ev.a)).2 = some o → o.prio < s.effective t) ∧ t.ws = 0) ∧
    (∃ (s : State) (t : TaskEntry) (l r : List (Nat × TaskEntry)), (s.ctx s.ev.a).status = .idle ∧ 1 ≤ s.ev.a % 12 ∧ s.ev.a % 12 ≤ 10 ∧ s.coreAvailable (coreOf s.ev.a) = true ∧ (s.die (dieOf s.ev.a)).stopped = false ∧
      (s.core (coreOf s.ev.a)).arriving = l ++ (s.ev.a, t) :: r ∧ (∀ p ∈ l, p.1 ≠ s.ev.a) ∧ s.mayRun t (coreOf s.ev.a) = true) ∧
    (∃ s : State, (s.ctx s.ev.a).status = .idle ∧ 1 ≤ s.ev.a % 12 ∧ s.ev.a % 12 ≤ 10 ∧ s.coreAvailable (coreOf s.ev.a) = true ∧ (s.die (dieOf s.ev.a)).stopped = false ∧
      (∀ p ∈ (s.core (coreOf s.ev.a)).arriving, p.1 ≠ s.ev.a) ∧ (s.ownEntry (coreOf s.ev.a)).2 = none ∧ s.bestReady (coreOf s.ev.a) = none) ∧
    (∃ (s : State) (t : TaskEntry) (l : Launch), s.launchAt t.launch = some l ∧ t.stack = none ∧ l.freeStack = none) ∧
    ∃ (s : State) (t : TaskEntry) (stack : Nat) (l : Launch), s.launchAt t.launch = some l ∧ t.stack.or l.freeStack = some stack ∧ t.saved = none ∧ t.id.extractLsb' 0 32 ≠ 0 := by
  refine ⟨⟨{ on (regs []) with ev := ea 1 0 0 0, ctxs := [], launches := [(1, { launchOn 0 with running := false })] }, { launchOn 0 with running := false }, by decide +kernel⟩,
    ⟨tasks 10 0 [task1 1 3 0] [task1 2 3 0], task1 1 3 0, by decide +kernel, by decide, by decide, by decide +kernel, by decide +kernel, by decide +kernel, by decide +kernel, fun i t h => ?_⟩,
    ⟨tasks 1 0 [task1 1 3 0] [task1 2 4 0], 0, task1 2 4 0, by decide +kernel, by decide, by decide, by decide +kernel, by decide +kernel, by decide +kernel, by decide +kernel, fun o h => ?_, rfl⟩,
    ⟨{ tasks 2 0 [] [] with cores := [(0, { Core.reset with arriving := [(1, task1 3 3 0), (2, task1 4 3 0)] })] }, task1 4 3 0, [(1, task1 3 3 0)], [], by decide +kernel⟩,
    ⟨tasks 1 0 [] [], by decide +kernel⟩, ⟨tasks 1 0 [] [], { task1 1 0 0 with stack := none }, launchOn 0, by decide +kernel⟩,
    ⟨{ tasks 1 0 [] [] with launches := [(1, { launchOn 0 with record := (launchOn 0).record.set 11 2 })] }, { task1 1 0 0 with stack := none }, 1, { launchOn 0 with record := (launchOn 0).record.set 11 2 }, by decide +kernel⟩⟩
  · have e : (tasks 10 0 [task1 1 3 0] [task1 2 3 0]).bestReady (coreOf (tasks 10 0 [task1 1 3 0] [task1 2 3 0]).ev.a) = some (0, task1 2 3 0) := by decide +kernel
    rw [e] at h; cases h; decide +kernel
  · have e : ((tasks 1 0 [task1 1 3 0] [task1 2 4 0]).ownEntry (coreOf (tasks 1 0 [task1 1 3 0] [task1 2 4 0]).ev.a)).2 = some (task1 1 3 0) := by decide +kernel
    rw [e] at h; cases h; decide +kernel
theorem witness_DispatcherEvents_steal : ∀ has : Bool, ∃ (s : State) (cid k : Nat), cid = s.ev.a ∧ k = coreOf cid ∧ (s.ctx cid).status = .idle ∧ 1 ≤ cid % 12 ∧ cid % 12 ≤ 10 ∧ k < 8192 ∧
    s.claimed cid = false ∧ s.coreAvailable k = true ∧ (s.die (dieOf cid)).stopped = false ∧ (∀ t ∈ (s.core k).bobbin, t.running = none → s.mayRun t k = false) ∧
    (∀ e ∈ (s.ringFrom k 0 (s.core k).ring.length).2, e.2 = true → s.mayRun e.1 k = false) ∧ (∀ t ∈ (s.die (dieOf cid)).ready, s.mayRun t k = false) ∧
    ((s.stealSearch k (stealOrder k)).isSome = has) := by
  intro has
  let l : Launch := { launchOn 0 with record := [0x4000, 0, 0, BitVec.ofNat 64 (2 * 2 ^ 16), 0, 0, 0, 0, 0, 0, 0, 0, 0] }
  let s (has : Bool) : State := { tasks 1 1 (if has then [task1 1 3 0] else []) [] with launches := [(1, l)] }
  have a : ∀ has, ((s has).stealSearch 0 (stealOrder 0)).isSome = has := by decide +kernel
  exact ⟨s has, 1, 0, rfl, rfl, by revert has; decide +kernel, by decide, by decide, by decide, by revert has; decide +kernel, by revert has; decide +kernel, by revert has; decide +kernel, by revert has; decide +kernel, by revert has; decide +kernel, by revert has; decide +kernel, a has⟩
theorem witness_DispatcherEvents_counters : ∀ same : Bool, ∃ (s u v w : State) (x : Decrement) (y : Xlat) (n : Nat), (s.die s.ev.a).decrements[s.ev.b]? = some x ∧
    u = s.modDie s.ev.a (fun k => { k with decrements := k.decrements.eraseIdx s.ev.b }) ∧ u.counterAt (dispView s.ev.a x.satp) x.counter.toNat = some (v, y) ∧
    v.homeReadX y 0 16 = (w, n) ∧ n % 2 ^ 32 = 2 ∧
    (((w.homeWriteX y 0 4 (n % 2 ^ 32 - 1) ⟨x.task, pcode 0 (u.reportCore x.core), w.now, 0, false⟩ x.launch).die s.ev.a).decrements.any (fun d => d.task = x.task ∧ d.launch = x.launch)) = same := by
  intro same
  let x : Decrement := ⟨0x10000, 0, 0x100000001, 0, 1⟩
  let s (same : Bool) : State := { onMem (regs []) [(0x10000, 4, 2)] with ev := ea 0 0 0 0, dies := [(0, { Die.reset with decrements := if same then [x, x] else [x] })] }
  let u (same : Bool) : State := (s same).modDie 0 (fun k => { k with decrements := k.decrements.eraseIdx 0 })
  obtain ⟨⟨v, y⟩, h, g⟩ := some_and (e := (u same).counterAt (dispView 0 0) 0x10000) (fun r => decide ((r.1.homeReadX r.2 0 16).2 % 2 ^ 32 = 2 ∧
    ((((r.1.homeReadX r.2 0 16).1.homeWriteX r.2 0 4 ((r.1.homeReadX r.2 0 16).2 % 2 ^ 32 - 1) ⟨x.task, pcode 0 ((u same).reportCore x.core), (r.1.homeReadX r.2 0 16).1.now, 0, false⟩ x.launch).die 0).decrements.any
      (fun d => d.task = x.task ∧ d.launch = x.launch)) = same)) (by revert same; decide +kernel)
  obtain ⟨g1, g2⟩ := of_decide_eq_true g
  exact ⟨s same, u same, v, _, x, y, _, by cases same <;> rfl, rfl, h, pair_eta _, g1, g2⟩
/-- Every helper of core 0 busy with a task of a priority; the ready task is of priority 7. -/
def busyHelpers : State :=
  { tasks 0 0 [] [task1 20 7 0] with now := 40000, ctxs := (List.range 10).map fun j => (j + 1, { Ctx.reset with status := .running, task := some (task1 (j + 1) (if j = 3 then 1 else 2) 0) }) }
theorem witness_DispatcherEvents_displaces : (∃ (s : State) (t : TaskEntry) (a : Nat), (s.die s.ev.a).ready[s.ev.b]? = some t ∧ a = max 1 (s.qmaging.extractLsb' 0 32).toNat ∧ s.now + 1 = t.tReady + (7 - t.prio) * a + a) ∧
    ∃ (s : State) (t r : TaskEntry) (cid a : Nat), (s.die s.ev.a).ready[s.ev.b]? = some t ∧ a = max 1 (s.qmaging.extractLsb' 0 32).toNat ∧ t.tReady + (7 - t.prio) * a + a ≤ s.now ∧
      (∀ q ∈ s.ctxs, ∀ z, q.2.stop = some z → z.forTask ≠ some t.id) ∧
      (∀ n, n < 5120 → (s.ctx ((s.ev.a * 512 + n / 10) * 12 + n % 10 + 1)).status = .idle → s.mayRun t (s.ev.a * 512 + n / 10) = false) ∧
      (∀ k, k / 512 = s.ev.a → s.mayRun t k = true → (s.core k).freed = 0 ∨ (s.core k).freed + a ≤ s.now) ∧ dieOf cid = s.ev.a ∧ (s.ctx cid).status = .running ∧ (s.ctx cid).stop = none ∧ (s.ctx cid).haltReq = false ∧ s.mayRun t (coreOf cid) = true ∧ (s.ctx cid).task = some r ∧ r.prio < 7 ∧
      (∀ q ∈ s.ctxs, ∀ z, q.2.task = some z → dieOf q.1 = s.ev.a → z.prio < 7 → q.1 = cid ∨ r.prio < z.prio ∨ (r.prio = z.prio ∧ r.dispatched < z.dispatched)) ∧ risingFrom 0 s.ctxs = true := by
  refine ⟨⟨{ tasks 0 0 [] [task1 20 6 0] with now := 39999 }, task1 20 6 0, 20000, by decide +kernel⟩,
    ⟨busyHelpers, task1 20 7 0, task1 4 1 0, 4, 20000, rfl, by decide +kernel, by decide +kernel, fun q hq z h => ?_, fun n hn h => ?_, fun k _ h => ?_, by decide, by decide +kernel, by decide +kernel, by decide +kernel, by decide +kernel,
      by decide +kernel, by decide +kernel, fun q hq z h _ _ => ?_, by decide +kernel⟩⟩
  · obtain ⟨j, -, rfl⟩ := List.mem_map.mp hq
    cases h
  · show busyHelpers.mayRun (task1 20 7 0) (0 * 512 + n / 10) = false
    rw [Nat.zero_mul, Nat.zero_add]
    by_cases hk : n / 10 = 0
    · exfalso
      have b : ∀ m : Fin 10, (busyHelpers.ctx ((0 * 512 + 0) * 12 + m.1 + 1)).status ≠ .idle := by decide +kernel
      have hh : (busyHelpers.ctx ((0 * 512 + n / 10) * 12 + n % 10 + 1)).status = .idle := h
      rw [hk] at hh
      exact b ⟨n % 10, Nat.mod_lt _ (by decide)⟩ hh
    · have l : busyHelpers.launchAt (task1 20 7 0).launch = some (launchOn 0) := by decide +kernel
      have f : (launchOn 0).first = 0 := by decide +kernel
      have c : (launchOn 0).count = 1 := by decide +kernel
      have g : (launchOn 0).hasCore (n / 10) = false := by unfold Launch.hasCore; rw [f, c]; simp; omega
      unfold State.mayRun; rw [l]; simp [g]
  · have l : busyHelpers.launchAt (task1 20 7 0).launch = some (launchOn 0) := by decide +kernel
    have f : (launchOn 0).first = 0 := by decide +kernel
    have c : (launchOn 0).count = 1 := by decide +kernel
    have hk : k = 0 := by
      unfold State.mayRun Launch.hasCore at h
      rw [l] at h
      simp [f, c] at h
      omega
    rw [hk]; decide +kernel
  · obtain ⟨j, hj, rfl⟩ := List.mem_map.mp hq
    have e : some (task1 (j + 1) (if j = 3 then 1 else 2) 0) = some z := h
    cases e
    have hl := List.mem_range.mp hj
    have b : ∀ m : Fin 10, m.1 + 1 = 4 ∨ (task1 4 1 0).prio < (task1 (m.1 + 1) (if m.1 = 3 then 1 else 2) 0).prio ∨
      ((task1 4 1 0).prio = (task1 (m.1 + 1) (if m.1 = 3 then 1 else 2) 0).prio ∧ (task1 4 1 0).dispatched < (task1 (m.1 + 1) (if m.1 = 3 then 1 else 2) 0).dispatched) := by decide +kernel
    exact b ⟨j, hl⟩
/-- A staging of one L2 entry of a line and one scratchpad entry of 16 bytes, of a task or a STGREQ. -/
def stageE (sp done : Bool) : StageEntry := ⟨queue0, if sp then 16 else 128, false, sp, 0, [], false, done, false, false⟩
def staging0 (task : Option Word) (es : List StageEntry) (adm : Bool) : Staging := ⟨0, task, es, 0, 0, 100, adm, false, none⟩
def stagings (c : Ctx) (l : List Staging) (now : Nat) : State := { on c with ev := ea 0 0 0 0, now := now, dies := [(0, { Die.reset with stagings := l })] }
theorem witness_DispatcherEvents_stagings : (∃ (s : State) (g : Staging) (cl l2 sp : Nat), (s.die s.ev.a).stagings[s.ev.b]? = some g ∧ g.task = none ∧ g.admitted = false ∧ cl = clusterOfCore g.core ∧
      s.stagedBytes cl = (l2, sp) ∧ s.qmstage.extractLsb' 0 4 ≠ 0 ∧ l2 + ((g.entries.filter fun e => !e.scratch).map fun e => e.len).sum ≤ (s.qmstage.extractLsb' 4 4).toNat * 2 ^ 19 ∧
      sp + ((g.entries.filter fun e => e.scratch).map fun e => e.len).sum ≤ (s.qmstage.extractLsb' 8 8).toNat * 2 ^ 14 ∧
      s.copyLoad cl + g.entries.length ≤ 64 ∧
      (∀ h ∈ (s.die s.ev.a).stagings, h.task = none ∨ h.admitted = true ∨ clusterOfCore h.core ≠ cl ∨ s.inHorizon h = false)) ∧
    (∃ (s : State) (g : Staging), (s.die s.ev.a).stagings[s.ev.b]? = some g ∧ g.admitted = true ∧ g.since + g.deadline = s.now) ∧
    (∃ (s : State) (g : Staging), (s.die s.ev.a).stagings[s.ev.b]? = some g ∧ g.admitted = true ∧ s.now + 1 = g.since + g.deadline) ∧
    (∃ (s : State) (g : Staging), (s.die s.ev.a).stagings[s.ev.b]? = some g ∧ g.task = none ∧ g.admitted = false ∧ g.since + (s.qmtmo.extractLsb' 0 40).toNat = s.now) ∧
    (∃ (s : State) (g : Staging), (s.die s.ev.a).stagings[s.ev.b]? = some g ∧ g.task ≠ none) ∧ ∃ (s : State) (g : Staging), (s.die s.ev.a).stagings[s.ev.b]? = some g ∧ s.now < g.since + (s.qmtmo.extractLsb' 0 40).toNat :=
  ⟨⟨{ stagings (regs []) [staging0 none [stageE false false, stageE true false] false] 0 with qmstage := 0x7D040124 }, staging0 none [stageE false false, stageE true false] false, 0, 0, 0, by decide +kernel⟩,
    ⟨stagings (regs []) [staging0 none [] true] 100, staging0 none [] true, by decide +kernel⟩, ⟨stagings (regs []) [staging0 none [] true] 99, staging0 none [] true, by decide +kernel⟩,
    ⟨stagings (regs []) [staging0 none [] false] 20000, staging0 none [] false, by decide +kernel⟩, ⟨stagings (regs []) [staging0 (some 1) [] true] 0, staging0 (some 1) [] true, by decide +kernel⟩,
    ⟨stagings (regs []) [staging0 none [] false] 19999, staging0 none [] false, by decide +kernel⟩⟩
/-- What performing the next entry of a staging leaves, as the statement computes it. -/
def staged1 (s : State) (g : Staging) (e : StageEntry) : State := if e.scratch then s.stageCopy (clusterOfCore g.core) g.tid e (g.task.getD 0) else
  (e.lines.foldl (fun s x => s.stageFill (clusterOfCore g.core) x g.tid e.write) s).dropFills (clusterOfCore g.core) e
def staged2 (s : State) (g : Staging) (e : StageEntry) : State :=
  if e.evict = true ∧ e.scratch = false then e.lines.foldl (fun s x => s.firstOut (clusterOfCore g.core) (x.pa / 128)) (staged1 s g e) else staged1 s g e
def stagedH (s : State) (g : Staging) (e : StageEntry) : Staging :=
  ({ g with entries := g.entries.set s.ev.n { e with done := true } } : Staging).closed (staged2 s g e).now
/-- What the clauses share: an admitted staging and an entry of it that is neither done nor cancelled. -/
def StageNext (s u : State) (g h : Staging) (e : StageEntry) : Prop := (s.die s.ev.a).stagings[s.ev.b]? = some g ∧ g.entries[s.ev.n]? = some e ∧ g.admitted = true ∧
  e.done = false ∧ e.cancelled = false ∧ u = staged2 s g e ∧ h = stagedH s g e
/-- Entry 0 of a staging of core 0 while the one context has a task, the entry to be evicted first or not. -/
def staging1 (t : Word) (task : Option Word) (more evict : Bool) : State :=
  stagings { regs [] with qtid := t } [staging0 task ({ stageE false false with evict := evict } :: if more then [stageE true false] else []) true] 0
theorem stage_next (t : Word) (task : Option Word) (more evict : Bool) : ∃ (u : State) (g h : Staging) (e : StageEntry), StageNext (staging1 t task more evict) u g h e ∧ e.evict = evict ∧ g.task = task ∧ g.core = 0 ∧
    u = staged2 (staging1 t task more evict) (staging0 task ({ stageE false false with evict := evict } :: if more then [stageE true false] else []) true) { stageE false false with evict := evict } ∧
    h = stagedH (staging1 t task more evict) (staging0 task ({ stageE false false with evict := evict } :: if more then [stageE true false] else []) true) { stageE false false with evict := evict } :=
  ⟨_, staging0 task ({ stageE false false with evict := evict } :: if more then [stageE true false] else []) true, _, { stageE false false with evict := evict },
    ⟨rfl, rfl, rfl, rfl, rfl, rfl, rfl⟩, rfl, rfl, rfl, rfl, rfl⟩
theorem stage_ctxs : ∀ (same task more evict : Bool), (staged2 (staging1 (if same then 1 else 0) (if task then some 1 else none) more evict)
    (staging0 (if task then some 1 else none) ({ stageE false false with evict := evict } :: if more then [stageE true false] else []) true) { stageE false false with evict := evict }).ctxs =
      [(0, { regs [] with qtid := if same then 1 else 0 })] := by decide +kernel
theorem witness_DispatcherEvents_entries : (∀ evict : Bool, ∃ (s u : State) (g h : Staging) (e : StageEntry), StageNext s u g h e ∧ e.evict = evict ∧ (∀ q ∈ u.ctxs, q.2.isLive = true → g.task ≠ some q.2.qtid) ∧ g.task ≠ none) ∧
    (∃ (s u : State) (g h : Staging) (e : StageEntry), StageNext s u g h e ∧ (∀ q ∈ u.ctxs, q.2.isLive = true → g.task ≠ some q.2.qtid) ∧ g.task = none ∧ h.ended = none) ∧
    (∃ (s u : State) (g h : Staging) (e : StageEntry), StageNext s u g h e ∧ g.task = none ∧ h.ended ≠ none) ∧
    ∃ (s u : State) (g h : Staging) (e : StageEntry) (cid : Nat) (c : Ctx), StageNext s u g h e ∧ (cid, c) ∈ u.ctxs ∧ risingFrom 0 u.ctxs = true ∧ c.isLive = true ∧ g.task = some c.qtid ∧
      (ctxNum cid ≠ 0 ∨ coreOf cid = g.core) ∧ (∀ r ∈ u.released, r.g ≠ clusterOfCore g.core) ∧ ∀ q ∈ u.ctxs, q.2.isLive = true → g.task = some q.2.qtid → q.1 = cid := by
  refine ⟨fun evict => ?_, ?_, ?_, ?_⟩
  · obtain ⟨u, g, h, e, k, h0, h1, -, h2, -⟩ := stage_next 0 (some 1) false evict
    have c := stage_ctxs false true false evict
    refine ⟨_, u, g, h, e, k, h0, fun q hq _ => ?_, by rw [h1]; decide⟩
    rw [h2] at hq; rw [show q = _ from List.mem_singleton.mp (c ▸ hq), h1]; decide
  · obtain ⟨u, g, h, e, k, -, h1, -, h2, h3⟩ := stage_next 0 none true false
    refine ⟨_, u, g, h, e, k, fun q _ _ => by rw [h1]; exact (fun h => nomatch h), h1, by rw [h3]; decide +kernel⟩
  · obtain ⟨u, g, h, e, k, -, h1, -, h2, h3⟩ := stage_next 0 none false false
    exact ⟨_, u, g, h, e, k, h1, by rw [h3]; decide +kernel⟩
  · obtain ⟨u, g, h, e, k, -, h1, h4, h2, h3⟩ := stage_next 1 (some 1) false false
    have c := stage_ctxs true true false false
    have r : (staged2 (staging1 1 (some 1) false false) (staging0 (some 1) [{ stageE false false with evict := false }] true) { stageE false false with evict := false }).released = [] := by decide +kernel
    have none : ∀ r ∈ (staged2 (staging1 1 (some 1) false false) (staging0 (some 1) [{ stageE false false with evict := false }] true) { stageE false false with evict := false }).released,
      r.g ≠ clusterOfCore g.core := by rw [r]; exact none_of
    refine ⟨_, u, g, h, e, 0, { regs [] with qtid := 1 }, k, by rw [h2]; exact c ▸ List.mem_singleton.mpr rfl, by rw [h2]; exact c ▸ rfl, rfl, h1, .inr h4.symm, by rw [h2]; exact none, fun q hq _ _ => ?_⟩
    rw [h2] at hq; rw [show q = _ from List.mem_singleton.mp (c ▸ hq)]
/-- Time-triggered entry 511, with a period of 1,000 ns, at its slot, one moment off it, and with a launch that lives. -/
def ttWith (e : TTEntry) (now : Nat) : State := { tasks 511 0 [] [] with now := now, tt := [(511, e)] }
def tt0 : TTEntry := { TTEntry.reset with en := true, period := 1, phase := 7 }
theorem witness_DispatcherEvents_slotsOfTime : (∀ o : BitVec 2, o = 0 ∨ o = 1 ∨ o = 2 → ∀ w : Bool, ∃ (s : State) (e : TTEntry) (k : Nat), s.ev.a < 512 ∧ e = s.ttEntry s.ev.a ∧ s.host.up = true ∧ s.dieLive e.die.toNat = true ∧
      (s.die e.die.toNat).stopped = false ∧ e.fired ≠ some s.now ∧ e.en = true ∧ s.now % 2 ^ 64 % max 1000 e.period.toNat = e.phase.toNat % max 1000 e.period.toNat ∧ (∃ q ∈ s.launches, q.2.tt = some s.ev.a) ∧ k ∈ s.ttPending s.ev.a ∧ e.ovr = o ∧ e.waiting = w) ∧
    (∀ l : Option Nat, l = none ∨ l = some 9 → ∃ (s : State) (e : TTEntry), s.ev.a < 512 ∧ e = s.ttEntry s.ev.a ∧ s.host.up = true ∧ s.dieLive e.die.toNat = true ∧ (s.die e.die.toNat).stopped = false ∧ e.fired ≠ some s.now ∧ e.en = true ∧
      s.now % 2 ^ 64 % max 1000 e.period.toNat = e.phase.toNat % max 1000 e.period.toNat ∧ e.last = l ∧ ∀ q ∈ s.launches, q.2.tt ≠ some s.ev.a) ∧
    (∃ (s : State) (e : TTEntry), s.ev.a < 512 ∧ e = s.ttEntry s.ev.a ∧ s.host.up = true ∧ s.dieLive e.die.toNat = true ∧ (s.die e.die.toNat).stopped = false ∧ e.fired ≠ some s.now ∧ e.en = false) ∧
    ∃ (s : State) (e : TTEntry), s.ev.a < 512 ∧ e = s.ttEntry s.ev.a ∧ s.host.up = true ∧ s.dieLive e.die.toNat = true ∧ (s.die e.die.toNat).stopped = false ∧ e.fired ≠ some s.now ∧ e.en = true ∧ s.now % 2 ^ 64 % max 1000 e.period.toNat ≠ e.phase.toNat % max 1000 e.period.toNat :=
  ⟨fun o h w => ⟨{ ttWith { tt0 with last := some 1, ovr := o, waiting := w } 2007 with launches := [(1, { launchOn 0 with tt := some 511 })] }, _, 1, (by decide : 511 < 512), rfl, by revert w; rcases h with rfl | rfl | rfl <;> decide +kernel⟩,
    fun l h => ⟨ttWith { tt0 with last := l } 1007, _, (by decide : 511 < 512), rfl, by rcases h with rfl | rfl <;> decide +kernel⟩,
    ⟨ttWith TTEntry.reset 7, _, by decide, rfl, by decide +kernel⟩, ⟨ttWith tt0 1008, _, by decide, rfl, by decide +kernel⟩⟩
/-- O52. Store buffers of two entries; a lane group at core 0, free or busy; home slices; an L2 line, a victim, tiles. -/
def twoEntries : State := { State.reset with ev := ea 0 1 0 0, cores := [(0, { Core.reset with storeBuffer := [sbe 0 (.store (spx 0) 8 0), { sbe 0 (.store (spx 8) 8 0) with rel := true }] })] }
def laneState (def0 busy : Nat) (q : List VEntry) : State :=
  { on (regs []) with ev := ea 0 7 0 0, cores := [(0, { Core.reset with vq := q })], clusters := [(0, { Cluster.reset with groups := Vector.replicate 8 ⟨0, false, def0, 0, 0, 0, busy⟩ })] }
theorem witness_MemoryEvents_lanes : (∃ s : State, s.mayPerform s.ev.a s.ev.b = true) ∧ (∃ s : State, s.mayPerform s.ev.a s.ev.b = false) ∧
    (∀ w : Bool, ∃ (s : State) (e : SBEntry), s.ev.b = 0 ∧ (s.core s.ev.a).storeBuffer.head? = some e ∧ (s.core s.ev.a).posted = [] ∧ (s.cluster (s.ev.a / 4)).busy = false ∧
      (s.die (s.ev.a / 512)).stopped = false ∧ (∀ x n d, e.kind = .store x n d → s.slotsFull (clusterOf e.cid) x n = false) ∧
      (∀ ls, e.kind = .written ls → s.writesTo (clusterOf e.cid) ls = none) ∧ (w = true ↔ e.kind = .written [0x200])) ∧
    (∀ cross : Bool, ∃ (s : State) (g j k i cost : Nat) (x : LaneGroup) (e : VEntry), g = s.ev.a ∧ j = s.ev.b ∧ j < 8 ∧ x = (s.cluster g).groups.toList.getD j LaneGroup.reset ∧
      (∀ m, m < 4 → (s.core (g * 4 + m)).hem.length < 16) ∧ x.busy ≤ s.arith ∧ k = g * 4 + x.ptr ∧ x.ptr < 4 ∧ x.fresh = false ∧
      s.readyPortion k j = some (i, cost) ∧ cost ≤ x.def_ x.ptr ∧ (s.core k).vq[i]? = some e ∧ e.acc = none ∧ e.cross = cross) ∧
    ∀ busy : Bool, ∃ s : State, (if busy then s.arith < ((s.cluster s.ev.a).groups.toList.getD s.ev.b LaneGroup.reset).busy else ∀ m, m < 4 → s.readyPortion (s.ev.a * 4 + m) s.ev.b = none) ∧
      (∀ m, m < 4 → (s.core (s.ev.a * 4 + m)).hem.length < 16) ∧ ∀ m, m < 4 → (s.core (s.ev.a * 4 + m)).vq = leaveQueue s.arith (s.core (s.ev.a * 4 + m)).vq :=
  ⟨⟨buffered (.store (spx 0) 8 0), by decide +kernel⟩, ⟨twoEntries, by decide +kernel⟩,
    fun w => ⟨buffered (if w then .written [0x200] else .store (spx 0) 8 0), sbe 0 (if w then .written [0x200] else .store (spx 0) 8 0), rfl, rfl, rfl, rfl, rfl, fun x n d h => (by
        cases w with
        | false => cases h; decide +kernel
        | true => exact nomatch h), fun ls h => (by
        cases w with
        | false => exact nomatch h
        | true => cases h; decide +kernel), (by revert w; decide +kernel)⟩,
    fun cross => ⟨laneState 32 0 [⟨0, 0x80, 0, 4, cross, none, 0, 0⟩], 0, 7, 0, 0, if cross then 32 else 4, ⟨0, false, 32, 0, 0, 0, 0⟩, ⟨0, 0x80, 0, 4, cross, none, 0, 0⟩, by revert cross; decide +kernel⟩,
    fun busy => ⟨if busy then laneState 32 1 [⟨0, 0x80, 0, 4, false, none, 0, 0⟩] else laneState 0 0 [], by cases busy <;> decide +kernel⟩⟩
def fill0 : Xlat × BitVec 12 × Bool := (queue0, 0, false)
def sliced (k : Slice) : State := { on (regs []) with ev := ea 0 0 0 0, slices := [(0, k), (queue0.slice, k)], clusters := [(0, { Cluster.reset with fills := [fill0] })] }
/-- Staging fetches of cluster 1 and demand requests of context 5. -/
def heldOf (n m : Nat) : List SlotReq := List.replicate n ⟨1, 0, some fill0, false⟩ ++ List.replicate m ⟨1, 5, none, false⟩
/-- A load of context 0 on its way to slice 0. -/
def demanding (k : Slice) : State :=
  { sliced k with ev := { ea 0 0 0 0 with flag := true } } |>.modCtx 0 fun c => { c with request := some (.access (.load .ld 1 2 0) (some 0x10000) (some 0)) }
theorem witness_MemoryEvents_slices : (∀ n : Fin 4, ∃ (s : State) (f : Xlat × BitVec 12 × Bool) (k : Slice) (st : Nat), s.ev.flag = false ∧ (s.cluster s.ev.a).fills[s.ev.b]? = some f ∧ k = s.slice f.1.slice ∧
      st = (k.held.filter fun r => r.fill.isSome).length ∧ (∀ r ∈ s.released, r.g ≠ s.ev.a) ∧ (match n with
        | 0 => k.held.length = 15 ∧ st + 1 = (s.qmstage.extractLsb' 16 4).toNat
        | 1 => k.held.length = 16 ∧ s.missUsed s.ev.a < 64
        | 2 => k.held.length < 16 ∧ st = (s.qmstage.extractLsb' 16 4).toNat ∧ s.missUsed s.ev.a < 64
        | 3 => k.held.length = 16 ∧ 64 ≤ s.missUsed s.ev.a)) ∧
    (∀ (n : Nat) (full : Bool), n = 15 ∨ n = 16 → ∃ (s : State) (i : Instr) (pa : Option Nat) (sl : Nat) (k : Slice), s.ev.flag = true ∧ (s.ctx s.ev.a).request = some (.access i pa (some sl)) ∧ s.atHome s.ev.a = false ∧
      k = s.slice sl ∧ k.held.length = n ∧ (full = true ↔ 64 ≤ s.missUsed (clusterOf s.ev.a))) := by
  refine ⟨fun n => ?_, fun n full h => ⟨demanding { Slice.reset with held := heldOf 0 n, waiting := if full then List.replicate 64 ⟨0, 5, none, false⟩ else [] }, .load .ld 1 2 0, some 0x10000, 0,
    { Slice.reset with held := heldOf 0 n, waiting := if full then List.replicate 64 ⟨0, 5, none, false⟩ else [] }, by revert full; rcases h with rfl | rfl <;> decide +kernel⟩⟩
  match n with
  | 0 => exact ⟨sliced { Slice.reset with held := heldOf 3 12 }, fill0, _, _, rfl, by decide +kernel, rfl, rfl, none_of, by decide +kernel⟩
  | 1 => exact ⟨sliced { Slice.reset with held := heldOf 3 13 }, fill0, _, _, rfl, by decide +kernel, rfl, rfl, none_of, by decide +kernel⟩
  | 2 => exact ⟨sliced { Slice.reset with held := heldOf 4 0 }, fill0, _, _, rfl, by decide +kernel, rfl, rfl, none_of, by decide +kernel⟩
  | 3 => exact ⟨sliced { Slice.reset with held := heldOf 3 13, waiting := List.replicate 64 ⟨0, 5, none, false⟩ }, fill0, _, _, rfl, by decide +kernel, rfl, rfl, none_of, by decide +kernel⟩
/-- Slots with no fill and nothing that waits, or none free; a demand request behind a fetch; a fetch alone; and a fill behind a demand request. -/
theorem witness_MemoryEvents_slots : (∃ (s : State) (k : Slice), k = s.slice s.ev.a ∧ (∀ q ∈ k.held, q.fill = none ∧ q.elem = false) ∧ k.waiting = []) ∧
    (∃ (s : State) (k : Slice), k = s.slice s.ev.a ∧ (∀ q ∈ k.held, q.fill = none ∧ q.elem = false) ∧ 16 ≤ k.held.length) ∧
    (∃ (s : State) (k : Slice) (l r : List SlotReq) (w : SlotReq), k = s.slice s.ev.a ∧ (∀ q ∈ k.held, q.fill = none ∧ q.elem = false) ∧ k.waiting = l ++ w :: r ∧ k.held.length < 16 ∧ w.fill = none ∧
      ∀ q ∈ l, q.fill ≠ none) ∧
    (∃ (s : State) (k : Slice) (r : List SlotReq) (w : SlotReq), k = s.slice s.ev.a ∧ (∀ q ∈ k.held, q.fill = none ∧ q.elem = false) ∧ k.waiting = [] ++ w :: r ∧ k.held.length < 16 ∧
      (∀ q ∈ k.waiting, q.fill ≠ none) ∧ 0 < (s.qmstage.extractLsb' 16 4).toNat) ∧
    (∃ (s : State) (k : Slice) (l m : List SlotReq) (r : SlotReq), k = s.slice s.ev.a ∧ k.held = l ++ r :: m ∧ (∀ q ∈ l, q.fill = none ∧ q.elem = false) ∧ r.fill = none ∧ r.elem = true ∧
      k.waiting = []) ∧
    ∃ (s u : State) (k : Slice) (l m : List SlotReq) (r : SlotReq) (x : Xlat) (tid : BitVec 12) (ex : Bool), k = s.slice s.ev.a ∧ k.held = l ++ r :: m ∧ (∀ q ∈ l, q.fill = none ∧ q.elem = false) ∧
      r.fill = some (x, tid, ex) ∧ u = (s.setSlice s.ev.a { k with held := l ++ m }).stageFill r.g x tid ex ∧ (u.slice s.ev.a).waiting = [] :=
  ⟨⟨sliced { Slice.reset with held := heldOf 0 1 }, _, rfl, by decide +kernel⟩, ⟨sliced { Slice.reset with held := heldOf 0 16, waiting := heldOf 0 1 }, _, rfl, by decide +kernel⟩,
    ⟨sliced { Slice.reset with held := heldOf 0 15, waiting := heldOf 1 2 }, _, heldOf 1 0, heldOf 0 1, ⟨1, 5, none, false⟩, rfl, by decide +kernel⟩,
    ⟨sliced { Slice.reset with waiting := heldOf 2 0 }, _, heldOf 1 0, ⟨1, 0, some fill0, false⟩, rfl, by decide +kernel⟩,
    ⟨sliced { Slice.reset with held := heldOf 0 1 ++ ⟨1, 5, none, true⟩ :: heldOf 1 0 }, _, heldOf 0 1, heldOf 1 0, ⟨1, 5, none, true⟩, rfl, by decide +kernel⟩,
    ⟨sliced { Slice.reset with held := heldOf 0 1 ++ heldOf 2 0 }, _, _, heldOf 0 1, heldOf 1 0, ⟨1, 0, some fill0, false⟩, queue0, 0, false, rfl, rfl, by decide +kernel, rfl, rfl, by decide +kernel⟩⟩
def line0 (dirty : BitVec 128) : L2Line := ⟨0, 0xFF, dirty, 0, false, 0, 0, 0, 0⟩
def leaving (line : Nat) : State := { on (regs []) with ev := ea 0 0 0 0, clusters := [(0, { Cluster.reset with victims := [⟨line, line0 1, 0, 0, 0⟩] })], host := { HostSide.reset with mutePeers := [2] } }
def landing (busy : Bool) : State :=
  { on (regs []) with ev := ea 0 0 0 0, cores := [(0, { Core.reset with posted := [sbe 0 (.store (spx 0x800000) 8 0)] })], clusters := [(1, { Cluster.reset with busy := busy })] }
theorem witness_MemoryEvents_lines : (∀ mute : Bool, ∃ (s : State) (v : Victim), (s.cluster s.ev.a).victims[s.ev.b]? = some v ∧ s.silent (v.line * 128) = mute) ∧
    (∀ d : BitVec 128, d = 0 ∨ d = 1 → ∃ (s : State) (g line : Nat) (l : L2Line), tfind (s.cluster g).l2 line = some l ∧ (∀ q ∈ s.tiles, q.mask line = 0) ∧ l.dirty = d ∧ l.valid = 255) ∧
    ∀ may : Bool, ∃ (s : State) (cid h off n : Nat) (rel : Bool) (x : Xlat) (d pc task : Word) (tid : BitVec 12) (since : Nat),
      (s.core s.ev.a).posted[s.ev.b]? = some ⟨cid, rel, .store x n d, pc, task, tid, since, none⟩ ∧ regionOf x.pa = .scratch 0 h off ∧ s.mayLand s.ev.a s.ev.b = may :=
  ⟨fun mute => ⟨leaving (if mute then (0x80000000000000 + 2 * 2 ^ 44) / 128 else 7), ⟨if mute then (0x80000000000000 + 2 * 2 ^ 44) / 128 else 7, line0 1, 0, 0, 0⟩, by revert mute; decide +kernel⟩,
    fun d h => ⟨{ on (regs []) with clusters := [(0, { Cluster.reset with l2 := [(0x200, line0 d)] })] }, 0, 0x200, line0 d, by rcases h with rfl | rfl <;> decide +kernel⟩,
    fun may => ⟨landing (!may), 0, 1, 0, 8, false, spx 0x800000, 0, 0, 0, 0, 0, by revert may; decide +kernel⟩⟩
def forwards (rel : Bool) (dst : Nat) (q : Tile) : State := { on (regs []) with ev := ea 0 0 0 0, tiles := [q], cores := [(0, { Core.reset with storeBuffer := [{ sbe 0 (.tfwd 0x10000 0 0x10000 dst false) with rel := rel }] })] }
def tiled (q : Tile) : State := { on (regs []) with ev := ea 0 0x10000 0 0, tiles := [q] }
/-- A tile on its way to cluster 1, and a full L2 there. -/
def pushing (full want : Bool) : State :=
  { tiled { someTile with st := .f, dst := 1 } with ev := { ea 0 0x10000 0 0 with flag := want }, clusters := [(1, { Cluster.reset with l2 := if full then List.replicate 16 (0x200, line0 0) else [] })] }
theorem witness_MemoryEvents_tiles : (∃ (s : State) (q : Tile), s.tileAt s.ev.b = some q ∧ s.clusterLive s.ev.a = true ∧ q.holders = [s.ev.a] ∧ q.st = .m) ∧
    (∀ (rel : Bool) (dst : Nat), dst = 3 ∨ dst = 4 → ∃ (s u v : State) (cid pa home : Nat) (va pc task : Word) (tid : BitVec 12) (since : Nat) (vec : Option (Nat × Nat)) (q : Tile) (fl : Table L2Line), s.mayPerform s.ev.a s.ev.b = true ∧
      (s.core s.ev.a).storeBuffer[s.ev.b]? = some ⟨cid, rel, .tfwd pa home va dst false, pc, task, tid, since, vec⟩ ∧ u = (if rel then (s.settleAcc cid).drainPosted cid (s.core s.ev.a).posted.length else s) ∧
      (u.core s.ev.a).storeBuffer[s.ev.b]? = some ⟨cid, rel, .tfwd pa home va dst false, pc, task, tid, since, vec⟩ ∧ (clusterOfCore dst = clusterOf cid ↔ dst = 3) ∧ u.tileAt pa = some q ∧ q.st = .m ∧
      q.holders = [clusterOf cid] ∧ u.takeTile q (clusterOf cid) (u.sliceWake task q.home) = (v, fl)) ∧
    (∀ t : TileState, t = .h ∨ t = .s ∨ t = .f → ∃ (s : State) (cid pa home : Nat) (va pc task : Word) (tid : BitVec 12) (since : Nat) (q : Tile), s.mayPerform s.ev.a s.ev.b = true ∧
      (s.core s.ev.a).storeBuffer[s.ev.b]? = some ⟨cid, false, .tfwd pa home va 4 false, pc, task, tid, since, none⟩ ∧ clusterOfCore 4 ≠ clusterOf cid ∧ s.tileAt pa = some q ∧ q.st = t) ∧
    (∃ (s : State) (cid pa home : Nat) (va pc task : Word) (tid : BitVec 12) (since : Nat), s.mayPerform s.ev.a s.ev.b = true ∧
      (s.core s.ev.a).storeBuffer[s.ev.b]? = some ⟨cid, false, .tfwd pa home va 4 false, pc, task, tid, since, none⟩ ∧ clusterOfCore 4 ≠ clusterOf cid ∧ s.tileAt pa = none) ∧
    (∀ want : Bool, ∃ (s : State) (q : Tile), s.tileAt s.ev.b = some q ∧ q.st = .f ∧ s.declines q q.dst = false ∧ s.ev.flag = want ∧ (s.cluster q.dst).l2.length + q.sectors.length < (s.cluster q.dst).ways) ∧
    (∃ (s : State) (q : Tile), s.tileAt s.ev.b = some q ∧ q.st = .f ∧ s.ev.flag = true ∧ (s.cluster q.dst).ways ≤ (s.cluster q.dst).l2.length + q.sectors.length) ∧
    (∃ s : State, s.host.hostLines.filter (fun p => p.1 == s.ev.b) ≠ []) ∧ ∃ s : State, s.host.hostLines.filter (fun p => p.1 == s.ev.b) = [] :=
  ⟨⟨tiled someTile, someTile, by decide +kernel⟩,
    fun rel dst h => ⟨forwards rel dst someTile, _, _, 0, 0x10000, 0, 0x10000, 0, 0, 0, 0, none, someTile, _, by revert rel; rcases h with rfl | rfl <;> decide +kernel, rfl, rfl,
      by revert rel; rcases h with rfl | rfl <;> decide +kernel, by rcases h with rfl | rfl <;> decide +kernel, by revert rel; rcases h with rfl | rfl <;> decide +kernel, rfl, by decide +kernel, pair_eta _⟩,
    fun t h => ⟨forwards false 4 { someTile with st := t }, 0, 0x10000, 0, 0x10000, 0, 0, 0, 0, { someTile with st := t }, by rcases h with rfl | rfl | rfl <;> decide +kernel⟩,
    ⟨{ forwards false 4 someTile with tiles := [] }, 0, 0x10000, 0, 0x10000, 0, 0, 0, 0, by decide +kernel⟩,
    fun want => ⟨pushing false want, { someTile with st := .f, dst := 1 }, by revert want; decide +kernel⟩, ⟨pushing true true, { someTile with st := .f, dst := 1 }, by decide +kernel⟩,
    ⟨{ on (regs []) with ev := ea 0 5 0 0, host := { HostSide.reset with hostLines := [(5, 1), (6, 0)] } }, by decide +kernel⟩, ⟨on (regs []), by decide +kernel⟩⟩

/-- O53. A send at its home slice, with tokens used, sends pending and forced ones; one from a host port; one to a peer; answers and residuals. -/
def sending (forced : Bool) (k : Slice) : State := { on (regs []) with ev := ea 0 0 0 0, sends := [send0 forced], slices := [(0, k), (queue0.slice, k)] }
theorem witness_AccumulateEvents_arrivals : ∀ n : Fin 5, ∃ (s u v : State) (a : AccSend) (k : Slice) (i used : Nat), s.ev.n ≠ 1 ∧ s.sends[s.ev.a]? = some a ∧ s.sendMay s.ev.a = true ∧
    regionOf a.dst.pa = .hbm ∧ v = ({ s with sends := s.sends.eraseIdx s.ev.a } : State) ∧ (∀ t ∈ s.tiles, t.st ≠ .f) ∧ i = a.dst.slice ∧
    u = ((v.refill i).promote i 32).countLine i (a.dst.pa / 128) ∧ k = u.slice i ∧ used = (tfind k.used (clusterOf a.cid)).getD 0 ∧ (match n with
      | 0 => a.forced = false ∧ k.q.toNat = used
      | 1 => a.forced = false ∧ used < k.q.toNat ∧ k.d.toNat = (k.pend.filter fun p => p.dst.pa == a.dst.pa).length
      | 2 => a.forced = false ∧ used + 1 = k.q.toNat ∧ (k.pend.filter fun p => p.dst.pa == a.dst.pa).length + 1 = k.d.toNat
      | 3 => a.forced = true ∧ a.cid < 98304 ∧ (k.pend.filter fun b => b.forced && b.slotDie == dieOf a.cid).length = 1
      | 4 => a.forced = true ∧ a.cid < 98304 ∧ (k.pend.filter fun b => b.forced && b.slotDie == dieOf a.cid).length = 2) := by
  intro n
  match n with
  | 0 => exact ⟨sending false { Slice.reset with used := [(0, 8)] }, _, _, send0 false, _, _, _, by decide, rfl, by decide +kernel, by decide +kernel, rfl, none_of, rfl, rfl, rfl, rfl, by decide +kernel⟩
  | 1 => exact ⟨sending false { Slice.reset with pend := List.replicate 4 (send0 false) }, _, _, send0 false, _, _, _, by decide, rfl, by decide +kernel, by decide +kernel, rfl, none_of, rfl, rfl, rfl, rfl, by decide +kernel⟩
  | 2 => exact ⟨sending false { Slice.reset with used := [(0, 7)], pend := List.replicate 3 (send0 false) }, _, _, send0 false, _, _, _, by decide, rfl, by decide +kernel, by decide +kernel, rfl, none_of, rfl, rfl, rfl, rfl, by decide +kernel⟩
  | 3 => exact ⟨sending true { Slice.reset with pend := [send0 true] }, _, _, send0 true, _, _, _, by decide, rfl, by decide +kernel, by decide +kernel, rfl, none_of, rfl, rfl, rfl, rfl, by decide +kernel⟩
  | 4 => exact ⟨sending true { Slice.reset with pend := List.replicate 2 (send0 true) }, _, _, send0 true, _, _, _, by decide, rfl, by decide +kernel, by decide +kernel, rfl, none_of, rfl, rfl, rfl, rfl, by decide +kernel⟩
/-- A send of another module through host port 1, whose window has one token left or none. -/
def porting (used : Nat) : State := { on (regs []) with ev := ea 1 0x200 1 0, slices := [(0, { Slice.reset with used := [(2049, used)] }), (queue0.slice, { Slice.reset with used := [(2049, used)] })] }
/-- A forced send of another module through host port 1, with n of the two slots of that port's die taken. -/
def portForced (n : Nat) : State :=
  { porting 0 with
    ev := ea 1 0x200 1 0x4000, slices := [(0, { Slice.reset with pend := List.replicate n { send0 true with cid := 98352 } }), (queue0.slice, { Slice.reset with pend := List.replicate n { send0 true with cid := 98352 } })] }
def peerSend (flag : Bool) : State := { on (regs []) with ev := { ea 0 0 0 0 with flag := flag }, sends := [{ send0 false with dst := { queue0 with pa := 0x80000000000000 } }] }
theorem witness_AccumulateEvents_outside : (∀ full : Bool, ∃ (s u : State) (a : AccSend) (x : Xlat) (k : Slice) (i used : Nat), s.ev.n = 1 ∧
      x = ⟨s.ev.b * 128, s.ev.b * 128, .hbm, BitVec.ofNat 4 (s.ev.v.extractLsb' 0 4).toNat, BitVec.ofNat 2 (s.ev.v.extractLsb' 4 2).toNat, false, true, 12, 0⟩ ∧
      a = ⟨98304 + 48 * (s.ev.a % 2), (if (s.ev.v.extractLsb' 6 2).toNat = 0 then .f else if (s.ev.v.extractLsb' 6 2).toNat = 1 then .x else .i), x,
          s.ev.data, BitVec.ofNat 6 (s.ev.v.extractLsb' 8 6).toNat, 0, s.now, s.ev.v.getLsbD 14, 0, 0, 0, s.now⟩ ∧ isHbm (s.ev.b * 128 + 127) = true ∧ (∀ t ∈ s.tiles, t.st ≠ .f) ∧
      i = a.dst.slice ∧ u = ((s.refill i).promote i 32).countLine i (a.dst.pa / 128) ∧ k = u.slice i ∧ used = (tfind k.used (clusterOf a.cid)).getD 0 ∧ a.forced = false ∧ (used < k.q.toNat ↔ full = false)) ∧
    (∀ full : Bool, ∃ (s u : State) (a : AccSend) (x : Xlat) (k : Slice) (i dslot : Nat), s.ev.n = 1 ∧
      x = ⟨s.ev.b * 128, s.ev.b * 128, .hbm, BitVec.ofNat 4 (s.ev.v.extractLsb' 0 4).toNat, BitVec.ofNat 2 (s.ev.v.extractLsb' 4 2).toNat, false, true, 12, 0⟩ ∧
      a = ⟨98304 + 48 * (s.ev.a % 2), (if (s.ev.v.extractLsb' 6 2).toNat = 0 then .f else if (s.ev.v.extractLsb' 6 2).toNat = 1 then .x else .i), x,
          s.ev.data, BitVec.ofNat 6 (s.ev.v.extractLsb' 8 6).toNat, 0, s.now, s.ev.v.getLsbD 14, 0, 0, 0, s.now⟩ ∧ isHbm (s.ev.b * 128 + 127) = true ∧ (∀ t ∈ s.tiles, t.st ≠ .f) ∧
      i = a.dst.slice ∧ u = ((s.refill i).promote i 32).countLine i (a.dst.pa / 128) ∧ k = u.slice i ∧ dslot = (a.cid - 98304) / 48 % 2 * 8 ∧ a.forced = true ∧ dslot = 8 ∧
      (k.pend.filter fun b => b.forced && b.slotDie == dslot).length = if full then 2 else 1) ∧
    (∀ flag : Bool, ∃ (s v : State) (a : AccSend) (p o : Nat), s.ev.n ≠ 1 ∧ s.sends[s.ev.a]? = some a ∧ s.sendMay s.ev.a = true ∧ regionOf a.dst.pa = .peer p o ∧ (∀ t ∈ s.tiles, t.st ≠ .f) ∧
      a.cid < 98304 ∧ v = ({ s with sends := s.sends.eraseIdx s.ev.a } : State) ∧ s.ev.flag = flag ∧ a.forced = false) ∧ ∃ s : State, s.ev.n ≠ 1 ∧ s.sendMay s.ev.a = false :=
  ⟨fun full => ⟨porting (if full then 8 else 7), _, _, _, _, _, _, rfl, rfl, rfl, by revert full; decide +kernel, none_of, rfl, rfl, rfl, rfl, by revert full; decide +kernel, by revert full; decide +kernel⟩,
    fun full => ⟨portForced (if full then 2 else 1), _, _, _, _, _, _, rfl, rfl, rfl, by revert full; decide +kernel, none_of, rfl, rfl, rfl, rfl, by revert full; decide +kernel, by revert full; decide +kernel,
      by revert full; decide +kernel⟩,
    fun flag => ⟨peerSend flag, _, { send0 false with dst := { queue0 with pa := 0x80000000000000 } }, 0, 0, (by decide : (0 : Nat) ≠ 1), rfl, by revert flag; decide +kernel, by decide +kernel, none_of, by decide, rfl, rfl, rfl⟩,
    ⟨on (regs []), by decide +kernel⟩⟩
theorem witness_AccumulateEvents_applies : (∃ (s v : State) (k : Slice) (a : AccSend), k = s.slice s.ev.a ∧ k.pend = a :: k.pend.tail ∧
      v = s.setSlice s.ev.a { k with pend := k.pend.tail, accst := k.accst ||| a.flags } ∧ ∀ b ∈ k.forcedWait, 2 ≤ (v.slice s.ev.a).forcedOf b.slotDie) ∧
    (∃ (s v : State) (k : Slice) (a b : AccSend), k = s.slice s.ev.a ∧ k.pend = a :: k.pend.tail ∧ v = s.setSlice s.ev.a { k with pend := k.pend.tail, accst := k.accst ||| a.flags } ∧
      k.forcedWait = b :: k.forcedWait.tail ∧ (v.slice s.ev.a).forcedOf b.slotDie < 2) ∧ ∃ s : State, (s.slice s.ev.a).pend = [] ∧ (s.slice s.ev.a).forcedWait = [] :=
  ⟨⟨sending true { Slice.reset with pend := [send0 false, send0 true, send0 true], forcedWait := [send0 true] }, _, _, send0 false, rfl, rfl, rfl, by decide +kernel⟩,
    ⟨sending true { Slice.reset with pend := [send0 true, send0 true], forcedWait := [send0 true] }, _, _, send0 true, send0 true, rfl, rfl, rfl, rfl, by decide +kernel⟩, ⟨on (regs []), by decide +kernel⟩⟩
def hem0 (r : Option LineData) : HemEntry := ⟨0, .i, queue0, r, 0, 0, 0, 0, 1, 0, 0⟩
def answering (ok : Bool) (r : Option LineData) (c : Ctx) (now : Nat) : State := { on c with ev := ea 0 0 0 0, now := now, answers := [(ok, send0 false)], cores := [(0, { Core.reset with hem := [hem0 r] })] }
theorem witness_AccumulateEvents_answers : (∀ r : Option LineData, r = none ∨ r = some 1 → ∃ (s : State) (a : AccSend) (e : HemEntry), s.answers[s.ev.a]? = some (false, a) ∧ (s.core (coreOf a.cid)).hem = [e] ∧
      e.cid = a.cid ∧ e.dst.pa = a.dst.pa ∧ e.form = a.form ∧ e.residual = r ∧ (s.ctx a.cid).status = .running ∧ (s.ctx a.cid).qtid = a.task ∧
      s.now < (if e.residual.isSome then min e.t0 a.t0 else a.t0) + (s.qmresid.extractLsb' 0 32).toNat) ∧
    (∀ r : Option LineData, r = none ∨ r = some 1 → ∃ (s : State) (a : AccSend) (e : HemEntry), s.answers[s.ev.a]? = some (false, a) ∧ (s.core (coreOf a.cid)).hem = [e] ∧ e.cid = a.cid ∧ e.dst.pa = a.dst.pa ∧
      e.form = a.form ∧ e.residual = r ∧ (if e.residual.isSome then min e.t0 a.t0 else a.t0) + (s.qmresid.extractLsb' 0 32).toNat = s.now) ∧
    (∃ (s : State) (a : AccSend) (e : HemEntry), s.answers[s.ev.a]? = some (false, a) ∧ (s.core (coreOf a.cid)).hem = [e] ∧ e.cid = a.cid ∧ e.dst.pa = a.dst.pa ∧ e.form = a.form ∧ (s.ctx a.cid).status = .idle) ∧
    (∃ (s : State) (a : AccSend) (e : HemEntry), s.answers[s.ev.a]? = some (false, a) ∧ (s.core (coreOf a.cid)).hem = [e] ∧ e.cid = a.cid ∧ e.dst.pa = a.dst.pa ∧ e.form = a.form ∧ (s.ctx a.cid).qtid ≠ a.task) ∧
    (∀ r : Option LineData, r = none ∨ r = some 1 → ∃ (s : State) (a : AccSend) (e : HemEntry), s.answers[s.ev.a]? = some (true, a) ∧ (s.core (coreOf a.cid)).hem = [e] ∧ e.cid = a.cid ∧ e.dst.pa = a.dst.pa ∧
      e.form = a.form ∧ e.residual = r) ∧
    (∃ (s : State) (e : HemEntry) (d : LineData), (s.core s.ev.a).hem[s.ev.b]? = some e ∧ e.residual = some d ∧ e.t0 + (s.qmresid.extractLsb' 0 32).toNat = s.now) ∧
    ∃ (s : State) (e : HemEntry) (d : LineData), (s.core s.ev.a).hem[s.ev.b]? = some e ∧ e.residual = some d ∧ s.now + 1 = e.t0 + (s.qmresid.extractLsb' 0 32).toNat :=
  ⟨fun r h => ⟨answering false r (regs []) 9999, send0 false, hem0 r, by rcases h with rfl | rfl <;> decide +kernel⟩, fun r h => ⟨answering false r (regs []) 10000, send0 false, hem0 r, by rcases h with rfl | rfl <;> decide +kernel⟩,
    ⟨answering false (some 1) Ctx.reset 0, send0 false, hem0 (some 1), by decide +kernel⟩, ⟨answering false (some 1) { regs [] with qtid := 1 } 0, send0 false, hem0 (some 1), by decide +kernel⟩,
    fun r h => ⟨answering true r (regs []) 0, send0 false, hem0 r, by rcases h with rfl | rfl <;> decide +kernel⟩,
    ⟨answering true (some 1) (regs []) 10000, hem0 (some 1), 1, by decide +kernel⟩, ⟨answering true (some 1) (regs []) 9999, hem0 (some 1), 1, by decide +kernel⟩⟩
/-- No value on its way, one a moment before its time, and one at it. -/
theorem witness_AccumulateEvents_windows : (∃ (s : State) (k : Slice), k = s.slice s.ev.a ∧ k.unreached = []) ∧
    (∃ (s : State) (k : Slice) (q : Nat × Word) (r : List (Nat × Word)), k = s.slice s.ev.a ∧ k.unreached = q :: r ∧ s.now + 1 = q.1 + 1000) ∧
    (∃ (s : State) (k : Slice) (m : Nat) (w : Word) (rest : List (Nat × Word)), k = s.slice s.ev.a ∧ k.unreached = (m, w) :: rest ∧ m + 1000 = s.now ∧ rest ≠ [] ∧ ∀ q ∈ rest, s.now < q.1 + 1000) ∧
    (∃ (s : State) (k : Slice), k = s.slice s.ev.a ∧ s.now / max 1 k.w.toNat = k.window / max 1 k.w.toNat) ∧
    ∃ (s : State) (k : Slice), k = s.slice s.ev.a ∧ s.now / max 1 k.w.toNat ≠ k.window / max 1 k.w.toNat :=
  ⟨⟨on (regs []), _, rfl, by decide +kernel⟩, ⟨{ sending true { Slice.reset with unreached := [(5, 16)] } with now := 1004 }, _, (5, 16), [], rfl, by decide +kernel, by decide +kernel⟩,
    ⟨{ sending true { Slice.reset with unreached := [(5, 16), (6, 17)] } with now := 1005 }, _, 5, 16, [(6, 17)], rfl, by decide +kernel, by decide +kernel, by decide, by decide +kernel⟩,
    ⟨{ on (regs []) with now := 255 }, _, rfl, by decide +kernel⟩, ⟨{ on (regs []) with now := 256 }, _, rfl, by decide +kernel⟩⟩
/-- AES-256 as FIPS 197 Appendix C.3 has it, and GCM as test case 14 of its authors' paper has it. -/
theorem test_aes : aesBlock (aesKeys (List.range 32)) ((List.range 16).map (17 * ·)) = beBytes 16 0x8EA2B7CA516745BFEAFC49904B496089 := by decide +kernel
theorem test_gcm : gcmOpen (List.replicate 32 0) (List.replicate 12 0) [] (beBytes 16 0xCEA7403D4D606B6E074EC5D3BAF39D18) (beBytes 16 0xD0D1C8A799996BF0265B98B5D48AB919) =
    (List.replicate 16 0, true) := by decide +kernel

/-- O54. Engines of cluster 0 with a copy from scratchpad offset 0 to 0x1000, or with no page; a stack command; matrix commands. -/
def engines (c : List CopyOp) (q : List MxCmd) (st : List StackCmd) : State :=
  { on (regs []) with ev := ea 0 0 0 0, stackCmds := [(0, st)], clusters := [(0, { Cluster.reset with spways := 2, copies := c, mx := { Mx.reset with queue := q } })] }
def copyBad : CopyOp := { copy0 16 (.handle 0 3 0) none with srcPages := [] }
theorem is_none {α : Type} {o : Option α} {b : Bool} (h : o.isSome = b) (e : b = false) : o = none := by
  cases o with
  | none => rfl
  | some x => rw [e] at h; exact nomatch h
theorem is_some {α : Type} {o : Option α} {b : Bool} (h : o.isSome = b) (e : b = true) : o ≠ none := by
  cases o with
  | none => rw [e] at h; exact nomatch h
  | some x => exact fun k => nomatch k
def copyPh : CopyOp := copy0 16 (.phaser queue0) none
/-- A copy that ends with a handle, one whose source has no page, one of which 4 of 16 bytes are performed, and one that ends with a phaser. -/
def copyCase (n : Fin 4) : CopyOp × Nat := match n with
  | 0 => (copy0 16 (.handle 0 3 0) none, 16)
  | 1 => (copyBad, 16)
  | 2 => (copyPh, 4)
  | 3 => (copyPh, 16)
def copyIn (n : Fin 4) : State := { engines [(copyCase n).1] [] [] with ev := ea 0 0 (copyCase n).2 0 }
def copyRan (n : Fin 4) : State × CopyOp × Option (Nat × Nat) := (copyIn n).copyRun 0 17 (copyCase n).1 (copyCase n).2
def afterCopy (u : State) (c d : CopyOp) (code : BitVec 32) : State := match c.target with
  | .phaser x => u.phaserDecrement x (d.done - c.done) c.task code c.owner
  | .handle _ _ _ => u
theorem afterCopy_eq (u : State) (c d : CopyOp) (code : BitVec 32) : afterCopy u c d code = match c.target with
    | .phaser x => u.phaserDecrement x (d.done - c.done) c.task code c.owner
    | .handle _ _ _ => u := by
  unfold afterCopy
  cases c.target <;> rfl
def copyAfter (n : Fin 4) : State := afterCopy (copyRan n).1 (copyCase n).1 (copyRan n).2.1 (pcode 1 ((copyRan n).1.reportCluster 0))
theorem copy_checks : ∀ n : Fin 4, (copyIn n).copyMay 0 0 = true ∧ (copyIn n).engineHeld 0 ((copyCase n).1.srcPages ++ (copyCase n).1.dstPages) = false ∧ (copyAfter n).released = [] ∧
    ((copyRan n).2.2.isSome = decide (n = 1)) ∧ (n = 2 → (copyRan n).2.1.done < (copyRan n).2.1.n) ∧ (n ≠ 1 → n ≠ 2 → (copyRan n).2.1.n ≤ (copyRan n).2.1.done) := by decide +kernel
theorem copy_targets : ∀ n : Fin 4, (n = 0 → (copyCase n).1.target = .handle 0 3 0) ∧ (n = 3 → (copyCase n).1.target = .phaser queue0) := by decide +kernel
/-- How a case ends: with a handle, with a fault, in part, and with a phaser. -/
def CaseResult {α : Type} (n : Fin 4) (e : Option α) (p q : Prop) (tg : Target) : Prop := match n with
  | 0 => e = none ∧ q ∧ tg = .handle 0 3 0
  | 1 => e ≠ none
  | 2 => e = none ∧ p
  | 3 => e = none ∧ q ∧ tg = .phaser queue0
theorem case_result {α : Type} (n : Fin 4) {e : Option α} {p q : Prop} {tg : Target} (h1 : e.isSome = decide (n = 1)) (h2 : n = 2 → p) (h3 : n ≠ 1 → n ≠ 2 → q)
    (h4 : n = 0 → tg = .handle 0 3 0) (h5 : n = 3 → tg = .phaser queue0) : CaseResult n e p q tg := by
  match n with
  | 0 => exact ⟨is_none h1 (by decide), h3 (by decide) (by decide), h4 rfl⟩
  | 1 => exact is_some h1 (by decide)
  | 2 => exact ⟨is_none h1 (by decide), h2 rfl⟩
  | 3 => exact ⟨is_none h1 (by decide), h3 (by decide) (by decide), h5 rfl⟩
theorem witness_EngineEvents_copies : (∀ n : Fin 4, ∃ (s u v : State) (c d : CopyOp) (k : Nat) (e : Option (Nat × Nat)) (code : BitVec 32), (s.cluster s.ev.a).copies[s.ev.b]? = some c ∧
      s.copyMay s.ev.a s.ev.b = true ∧ c.sealedBy = none ∧ s.engineHeld s.ev.a (c.srcPages ++ c.dstPages) = false ∧ (k = c.n - c.done ∨ n = 2) ∧ s.ev.flag = false ∧ k = s.ev.n ∧
      s.copyRun s.ev.a (c.n - c.done + 1) c k = (u, d, e) ∧ code = pcode 1 (u.reportCluster s.ev.a) ∧ v = (match c.target with
        | .phaser x => u.phaserDecrement x (d.done - c.done) c.task code c.owner
        | .handle _ _ _ => u) ∧ (∀ r ∈ v.released, r.g ≠ s.ev.a) ∧ CaseResult n e (d.done < d.n) (d.n ≤ d.done) c.target) ∧
    (∃ s : State, s.copyMay s.ev.a s.ev.b = false) ∧ ∃ (s : State) (c : CopyOp), (s.cluster s.ev.a).copies[s.ev.b]? = some c ∧ s.engineHeld s.ev.a (c.srcPages ++ c.dstPages) = true := by
  refine ⟨fun n => ?_, ⟨engines [] [] [], by decide +kernel⟩, ⟨fencing .u true [], copy0 16 (.handle 0 3 0) none, by decide +kernel⟩⟩
  obtain ⟨h1, h2, h3, h4, h5, h9⟩ := copy_checks n
  have h6 : ∀ n : Fin 4, (copyCase n).1.n - (copyCase n).1.done + 1 = 17 := by decide +kernel
  have h7 : ∀ n : Fin 4, (copyCase n).1.sealedBy = none := by decide +kernel
  have hc : ((copyIn n).cluster (copyIn n).ev.a).copies[(copyIn n).ev.b]? = some (copyCase n).1 := rfl
  have hr : (copyIn n).copyRun (copyIn n).ev.a ((copyCase n).1.n - (copyCase n).1.done + 1) (copyCase n).1 (copyCase n).2 = ((copyRan n).1, (copyRan n).2.1, (copyRan n).2.2) := by
    rw [h6 n]; exact (Prod.mk.eta (p := copyRan n)).symm
  have h8 : ∀ n : Fin 4, (copyCase n).2 = (copyCase n).1.n - (copyCase n).1.done ∨ n = 2 := by decide +kernel
  refine ⟨copyIn n, (copyRan n).1, copyAfter n, (copyCase n).1, (copyRan n).2.1, (copyCase n).2, (copyRan n).2.2, _, hc, h1, h7 n, h2, h8 n, rfl, rfl, hr, rfl, afterCopy_eq _ _ _ _, by rw [h3]; exact none_of, ?_⟩
  · exact case_result n h4 h5 h9 (copy_targets n).1 (copy_targets n).2
/-- A stack command that ends, one whose descriptor has no page, one with a unit left, and one that ends with a phaser. -/
def stackCase (n : Fin 4) : StackCmd := match n with
  | 0 => stack0
  | 1 => { stack0 with desc := BitVec.ofNat 512 (stackDescs .gath false 0xFFFFFFF0000) }
  | 2 => { stack0 with desc := BitVec.ofNat 512 (stackDescs .gath false 0x10000) }
  | 3 => { stack0 with target := .phaser queue0 }
def stackIn (n : Fin 4) : State := { engines [] [] [stackCase n] with ev := { ea 0 0 0 0 with flag := true } }
def stackUnits (n : Fin 4) : Nat := if n = 2 then 0 else (stackCase n).unitCount - (stackCase n).units
def stackRan (n : Fin 4) : State × StackCmd × Option (Nat × Nat) := ((stackIn n).stackTiles (stackCase n)).stackRun 0 (stackUnits n) (stackCase n)
theorem stack_checks : ∀ n : Fin 4, ((stackRan n).2.2.isSome = decide (n = 1)) ∧ (((stackIn n).stackRun 0 (stackUnits n) (stackCase n)).2.2.isSome = decide (n = 1)) ∧
    (n = 2 → (stackRan n).2.1.units < (stackRan n).2.1.unitCount) ∧ (n ≠ 1 → n ≠ 2 → (stackRan n).2.1.unitCount ≤ (stackRan n).2.1.units) ∧ (stackRan n).2.1.target = (stackCase n).target := by decide +kernel
theorem stack_targets : ∀ n : Fin 4, (n = 0 → (stackCase n).target = .handle 0 3 0) ∧ (n = 3 → (stackCase n).target = .phaser queue0) := by decide +kernel
theorem witness_EngineEvents_stack : ∀ n : Fin 4, ∃ (s u : State) (c d : StackCmd) (k : Nat) (e : Option (Nat × Nat)), (s.stackList s.ev.a)[s.ev.b]? = some c ∧ s.ev.b < 8 ∧ s.ev.flag = true ∧
    (if n = 2 then k = s.ev.n else k = c.unitCount - c.units ∧ (n = 1 → (s.stackRun s.ev.a k c).2.2 ≠ none)) ∧
    (if c.units = 0 then s.stackTiles c else s).stackRun s.ev.a k c = (u, d, e) ∧ CaseResult n e (d.units < d.unitCount) (d.unitCount ≤ d.units) d.target := by
  intro n
  obtain ⟨h1, h2, h3, h6, h4⟩ := stack_checks n
  have h5 : ∀ n : Fin 4, (stackCase n).units = 0 := by decide +kernel
  refine ⟨stackIn n, (stackRan n).1, stackCase n, (stackRan n).2.1, stackUnits n, (stackRan n).2.2, rfl, (by decide : 0 < 8), rfl, ?_, ?_, ?_⟩
  · unfold stackUnits
    split
    · rfl
    · exact ⟨rfl, fun h => is_some (h2 : ((stackIn n).stackRun 0 (stackUnits n) (stackCase n)).2.2.isSome = _) (by rw [h]; decide) ∘ fun k => by unfold stackUnits; rw [if_neg ‹_›]; exact k⟩
  · rw [if_pos (h5 n)]; exact (Prod.mk.eta (p := stackRan n)).symm
  · exact case_result n h1 h3 h6 (fun e => h4.trans ((stack_targets n).1 e)) fun e => h4.trans ((stack_targets n).2 e)
/-- A query with each capability; commands of each kind at the head of the queue; a load whose pages are gone. -/
def asking (cap : Word) : State := on { regs [] with status := .waiting, wait := some (waitOf .reply none), request := some (.mxQuery 0 cap (.ld 0 0)) }
theorem witness_EngineEvents_matrix : (∃ (s : State) (g : Nat) (cap : Word) (q : MxAsk), (s.ctx s.ev.a).request = some (.mxQuery g cap q) ∧ cap ≠ (s.cluster g).mx.key) ∧
    (∃ (s : State) (g : Nat) (cap : Word) (q : MxAsk), (s.ctx s.ev.a).request = some (.mxQuery g cap q) ∧ cap = (s.cluster g).mx.key) ∧
    (∃ (s : State) (q : MxCmd) (m : Mx), m = (s.cluster s.ev.a).mx ∧ m.queue[s.ev.b]? = some q ∧ q.started = false ∧ (s.die (s.ev.a / 128)).stopped = false ∧ (∀ p ∈ m.queue.take s.ev.b, s.mxBlocks p q = false) ∧
      (q.op.unit = some false → s.engineHeld s.ev.a q.pages = false)) ∧
    (∀ op : MxOp, op = .zero 1 ∨ op = .cfg 1 → ∃ (s : State) (q : MxCmd) (m : Mx), m = (s.cluster s.ev.a).mx ∧ m.queue[s.ev.b]? = some q ∧ q.started = true ∧ (s.die (s.ev.a / 128)).stopped = false ∧ q.op = op) ∧
    (∃ (s : State) (q : MxCmd) (m : Mx), m = (s.cluster s.ev.a).mx ∧ m.queue[s.ev.b]? = some q ∧ (s.die (s.ev.a / 128)).stopped = true) ∧
    (∃ (s : State) (q : MxCmd) (m : Mx), m = (s.cluster s.ev.a).mx ∧ m.queue[s.ev.b]? = some q ∧ q.started = true ∧ (s.die (s.ev.a / 128)).stopped = false ∧ q.op = .sync ∧ (s.ctx q.cid).request = some (.mxCmd s.ev.a m.key q)) ∧
    (∀ op : MxOp, op = .zero 1 ∨ op = .dup [] → ∃ (s u : State) (q : MxCmd) (m : Mx), m = (s.cluster s.ev.a).mx ∧ m.queue[s.ev.b]? = some q ∧ q.started = true ∧ (s.die (s.ev.a / 128)).stopped = false ∧ q.op = op ∧ s.mxRun s.ev.a q = (u, none) ∧
      (op = .dup [] → u = s.modCluster s.ev.a fun c => { c with mx := { m with map := [] } })) ∧
    ∃ (s u : State) (q : MxCmd) (m : Mx) (cause pa b : Nat) (ea : Word), m = (s.cluster s.ev.a).mx ∧ m.queue[s.ev.b]? = some q ∧ q.started = true ∧ (s.die (s.ev.a / 128)).stopped = false ∧ (q.op.unit = some false → s.engineHeld s.ev.a q.pages = false) ∧
      s.mxRun s.ev.a q = (u, some (cause, pa)) ∧ q.op = .ld b ea := by
  have pick : ∀ p : State × Option (Nat × Nat), p.2.isSome = true → ∃ u cause pa, p = (u, some (cause, pa)) := fun p h => by
    obtain ⟨u, e⟩ := p
    cases e with
    | none => cases h
    | some r => exact ⟨u, r.1, r.2, rfl⟩
  obtain ⟨u, cause, pa, h⟩ := pick ((engines [] [{ mx0 (.ld 0 0x10000) true with cfg := BitVec.ofNat 512 mxCfg0 }] []).mxRun 0 { mx0 (.ld 0 0x10000) true with cfg := BitVec.ofNat 512 mxCfg0 }) (by decide +kernel)
  refine ⟨⟨asking 1, 0, 1, .ld 0 0, rfl, by decide +kernel⟩, ⟨asking 0, 0, 0, .ld 0 0, rfl, by decide +kernel⟩, ⟨engines [] [{ mxLoad with started := false }] [], { mxLoad with started := false }, _, rfl, rfl, rfl, rfl, none_of, by decide +kernel⟩,
    fun op h => ⟨engines [] [mx0 op true] [], mx0 op true, _, rfl, rfl, rfl, rfl, rfl⟩, ⟨{ engines [] [mxLoad] [] with dies := [(0, { Die.reset with stopped := true })] }, mxLoad, _, rfl, rfl, rfl⟩,
    ⟨{ mxRequest 0 .sync with clusters := [(0, { Cluster.reset with mx := { Mx.reset with queue := [mx0 .sync true] } })] } |>.modCtx 0 fun c => { c with request := some (.mxCmd 0 0 (mx0 .sync true)) }, mx0 .sync true, _,
      rfl, rfl, rfl, rfl, rfl, by decide +kernel⟩,
    fun op h => ⟨engines [] [mx0 op true] [], (engines [] [mx0 op true] []).mxRun 0 (mx0 op true) |>.1, mx0 op true, _, rfl, rfl, rfl, rfl, rfl, by rcases h with rfl | rfl <;> rfl, by rcases h with rfl | rfl <;> intro h <;> rfl⟩,
    ⟨engines [] [{ mx0 (.ld 0 0x10000) true with cfg := BitVec.ofNat 512 mxCfg0 }] [], u, { mx0 (.ld 0 0x10000) true with cfg := BitVec.ofNat 512 mxCfg0 }, _, cause, pa, 0, 0x10000, rfl, rfl, rfl, rfl, by decide +kernel, h, rfl⟩⟩
/-- A packet of context 0 for itself, with a slot that waits, with none, and with the overflow buffer full. -/
def arriving (sl : List (Nat × Slot)) (n : Nat) : State :=
  { on { regs [] with status := .waiting, wait := some (waitOf .reply none), request := some (.packet packet0) } with cores := [(0, { Core.reset with slots := sl })], clusters := [(0, { Cluster.reset with overflow := List.replicate n packet0 })] }
def batches (sent now : Nat) : State := { on (regs []) with ev := ea 0 0 0 0, now := now, clusters := [(0, { Cluster.reset with shadows := [⟨queue0, [⟨1, 0, 0, 0⟩], sent⟩] })] }
/-- One entry of value 1 from peer module 0 for the queue at an address. -/
def peerBatch (up : Bool) (b : Nat) : State := { on (regs []) with ev := { ea 0 b 1 0 with flag := true, data := 1 }, host := { HostSide.reset with up := up, peers := [0] } }
theorem peer_in (up : Bool) (b : Nat) : (peerBatch up b).ev.a ∈ (peerBatch up b).host.peers := List.mem_singleton.mpr rfl
theorem witness_EngineEvents_messages : (∃ (s : State) (p : Packet) (k i : Nat) (q : Slot), (s.ctx s.ev.a).request = some (.packet p) ∧ k = coreOf p.dst ∧ (s.core k).slotFor p = some (i, q)) ∧
    (∃ (s : State) (p : Packet) (k : Nat), (s.ctx s.ev.a).request = some (.packet p) ∧ k = coreOf p.dst ∧ (s.core k).slotFor p = none ∧ (s.cluster (clusterOfCore k)).overflow.length = 255) ∧
    (∃ (s : State) (p : Packet) (k : Nat) (w : Wait), (s.ctx s.ev.a).request = some (.packet p) ∧ k = coreOf p.dst ∧ (s.core k).slotFor p = none ∧ (s.cluster (clusterOfCore k)).overflow.length = 256 ∧ (s.ctx s.ev.a).wait = some w) ∧
    (∃ (q : Slot) (k off : Nat), regionOf (q.desc.pa + 0x18) = .scratch 0 (clusterOfCore k) off) ∧
    (∃ (s : State) (h : Shadow) (e : ShadowEntry), (s.cluster s.ev.a).shadows[s.ev.b]? = some h ∧ h.entries = e :: h.entries.tail ∧ h.sent = 0 ∧ e.time + 1000 = s.now) ∧
    (∃ (s : State) (h : Shadow) (e : ShadowEntry), (s.cluster s.ev.a).shadows[s.ev.b]? = some h ∧ h.entries = e :: h.entries.tail ∧ s.ev.flag = false ∧ h.sent ≠ 0) ∧
    (∀ up : Bool, ∃ s : State, s.ev.flag = true ∧ s.host.up = up ∧ (if up then s.ev.b % 64 ≠ 0 else True)) ∧
    (∃ (s u : State) (es : List ShadowEntry) (k : Nat), s.ev.flag = true ∧ s.host.up = true ∧ s.ev.a ∈ s.host.peers ∧ s.ev.b % 64 = 0 ∧ isHbm s.ev.b = true ∧ es.length = min s.ev.n 4 ∧ es ≠ [] ∧
      (∀ i e, es[i]? = some e → e.v = s.ev.data.extractLsb' (256 * i) 64 ∧ e.task = s.ev.data.extractLsb' (256 * i + 64) 64 ∧
        e.time = (s.ev.data.extractLsb' (256 * i + 128) 64).toNat ∧ e.code = pcode 4 (s.ev.data.extractLsb' (256 * i + 224) 28).toNat) ∧ s.queueAppend (physXlat s.ev.b) es = (u, k)) ∧
    ∃ (s : State) (h : Shadow) (e : ShadowEntry), (s.cluster s.ev.a).shadows[s.ev.b]? = some h ∧ h.entries = e :: h.entries.tail ∧ s.now + 1 = e.time + 1000 := by
  refine ⟨⟨arriving [(63, slotOf 0 none)] 0, packet0, 0, 63, slotOf 0 none, by decide +kernel⟩, ⟨arriving [] 255, packet0, 0, by decide +kernel⟩, ⟨arriving [] 256, packet0, 0, waitOf .reply none, by decide +kernel⟩,
    ⟨{ slotOf 0 none with desc := spx 0x40 }, 0, 0x58, by decide +kernel⟩, ⟨batches 0 1000, ⟨queue0, [⟨1, 0, 0, 0⟩], 0⟩, ⟨1, 0, 0, 0⟩, by decide +kernel⟩,
    ⟨batches 1 0, ⟨queue0, [⟨1, 0, 0, 0⟩], 1⟩, ⟨1, 0, 0, 0⟩, by decide +kernel⟩,
    fun up => ⟨peerBatch up (if up then 32 else 0), by cases up <;> decide +kernel⟩,
    ⟨peerBatch true 0x10000, _, [⟨1, 0, 0, pcode 4 0⟩], _, rfl, rfl, peer_in true _, by decide, by decide, rfl, by decide, fun i e h => ?_, pair_eta _⟩,
    ⟨batches 0 999, ⟨queue0, [⟨1, 0, 0, 0⟩], 0⟩, ⟨1, 0, 0, 0⟩, by decide +kernel⟩⟩
  match i, h with
  | 0, h => cases h; exact ⟨by decide +kernel, by decide +kernel, by decide +kernel, by decide +kernel⟩
/-- A sealed copy of 16 bytes of session 2 under a key of zeros: failed already, with no usable session, with a wrong IV, with a wrong tag and with the right one. -/
def opening (failed : Option Nat) (valid : Bool) (iv : BitVec 96) (tag : Nat) : State :=
  { engines [{ copy0 16 (.handle 0 3 0) (some 2) with failed := failed }] [] [] with mem := memOf [(0x100000000020, 16, tag)], sessions := [(2, { Session.reset with valid := valid, iv := iv })], host := { HostSide.reset with tdi := 1, up := true } }
def sealed0 : CopyOp := copy0 16 (.handle 0 3 0) (some 2)
def zeroing : State × Nat × Option (Nat × Nat) :=
  (opening none false 0 0).writeSpan 0 sealed0.tid sealed0.dstPages ⟨sealed0.task, pcode 1 ((opening none false 0 0).reportCluster 0), (opening none false 0 0).now, 0, false⟩ 0
    (sealed0.n / 128 + 3) sealed0.dst.toNat sealed0.n 0
theorem sealedZero : ∃ (s u : State) (g m h n : Nat) (w : Word) (c : CopyOp) (f : Option (Nat × Nat)), c.target = .handle h n w ∧
    s.writeSpan g c.tid c.dstPages ⟨c.task, pcode 1 (s.reportCluster g), s.now, 0, false⟩ 0 (c.n / 128 + 3) c.dst.toNat c.n 0 = (u, m, f) ∧ ∀ r ∈ u.released, r.g ≠ g := by
  have h : zeroing.1.released = [] := by decide +kernel
  exact ⟨opening none false 0 0, zeroing.1, 0, zeroing.2.1, 0, 3, 0, sealed0, zeroing.2.2, rfl, (Prod.mk.eta (p := zeroing)).symm, by rw [h]; exact none_of⟩
theorem witness_EngineEvents_sealed : (∃ (s : State) (c : CopyOp) (j r : Nat), s.copyMay s.ev.a s.ev.b = true ∧ (s.cluster s.ev.a).copies[s.ev.b]? = some c ∧ c.sealedBy = some j ∧
      s.sealedBehind c = false ∧ s.engineHeld s.ev.a c.dstPages = false ∧ c.failed = some r) ∧
    (∃ (s : State) (c : CopyOp) (j : Nat), s.copyMay s.ev.a s.ev.b = true ∧ (s.cluster s.ev.a).copies[s.ev.b]? = some c ∧ c.sealedBy = some j ∧
      s.sealedBehind c = false ∧ s.engineHeld s.ev.a c.dstPages = false ∧ c.failed = none ∧ (s.session j).valid = false) ∧
    (∃ (s : State) (c : CopyOp) (j : Nat), (s.cluster s.ev.a).copies[s.ev.b]? = some c ∧ c.sealedBy = some j ∧ s.sealedBehind c = true) ∧
    (∃ (s u : State) (g m h n : Nat) (w : Word) (c : CopyOp) (f : Option (Nat × Nat)), c.target = .handle h n w ∧
      s.writeSpan g c.tid c.dstPages ⟨c.task, pcode 1 (s.reportCluster g), s.now, 0, false⟩ 0 (c.n / 128 + 3) c.dst.toNat c.n 0 = (u, m, f) ∧ ∀ r ∈ u.released, r.g ≠ g) ∧
    ∀ n : Fin 3, ∃ (s u : State) (c : CopyOp) (j v : Nat) (e : Session) (key aad plain : List Nat), s.copyMay s.ev.a s.ev.b = true ∧ (s.cluster s.ev.a).copies[s.ev.b]? = some c ∧ c.sealedBy = some j ∧
      s.sealedBehind c = false ∧ e = s.session j ∧ s.engineHeld s.ev.a c.dstPages = false ∧ c.failed = none ∧ e.valid = true ∧ s.host.tdi.getLsbD (if e.port then 1 else 0) = true ∧
      s.readSpan s.ev.a c.tid c.task c.srcPages (c.n / 128 + 4) c.src.toNat (c.n + 32) = (u, .ok v) ∧ (if n = 0 then v % 2 ^ 96 ≠ e.iv.toNat else v % 2 ^ 96 = e.iv.toNat ∧
        key = leBytes 32 ((tfind u.host.keys e.kslot.toNat).getD 0).toNat ∧ aad = leBytes 8 e.owner.toNat ++ leBytes 8 c.n ∧
        gcmOpen key (leBytes 12 v) aad (leBytes c.n (v >>> 128)) (leBytes 16 (v >>> (128 + 8 * c.n))) = (plain, decide (n = 2))) := by
  refine ⟨⟨opening (some 3) true 0 0, { copy0 16 (.handle 0 3 0) (some 2) with failed := some 3 }, 2, 3, by decide +kernel, rfl, rfl, by decide +kernel, by decide +kernel, rfl⟩,
    ⟨opening none false 0 0, copy0 16 (.handle 0 3 0) (some 2), 2, by decide +kernel, rfl, rfl, by decide +kernel, by decide +kernel, rfl, by decide +kernel⟩,
    ⟨{ opening none false 0 0 with clusters := [(0, { Cluster.reset with copies := [{ copy0 16 (.handle 0 3 0) (some 2) with turn := 2 }] }), (1, { Cluster.reset with copies := [{ copy0 16 (.handle 0 3 0) (some 2) with turn := 1 }] })] },
      { copy0 16 (.handle 0 3 0) (some 2) with turn := 2 }, 2, by decide +kernel⟩,
    sealedZero, fun n => ?_⟩
  let s (n : Fin 3) : State := opening none true (if n = 0 then 1 else 0) (if n = 2 then 119998983240455505084880038756232443608 else 0)
  let c : CopyOp := copy0 16 (.handle 0 3 0) (some 2)
  have okOf : ∀ p : State × Except (Nat × Nat) Nat, (match p.2 with | .ok _ => true | .error _ => false) = true → ∃ u v, p = (u, .ok v) := fun p h => by
    obtain ⟨u, e⟩ := p
    cases e with
    | ok v => exact ⟨u, v, rfl⟩
    | error e => cases h
  have gate : ∀ m : Fin 3, (match ((s m).readSpan 0 c.tid c.task c.srcPages (c.n / 128 + 4) c.src.toNat (c.n + 32)).2 with
      | .ok v => if m = 0 then decide (v % 2 ^ 96 ≠ ((s m).session 2).iv.toNat) else decide (v % 2 ^ 96 = ((s m).session 2).iv.toNat) &&
          ((gcmOpen (leBytes 32 ((tfind ((s m).readSpan 0 c.tid c.task c.srcPages (c.n / 128 + 4) c.src.toNat (c.n + 32)).1.host.keys ((s m).session 2).kslot.toNat).getD 0).toNat) (leBytes 12 v)
            (leBytes 8 ((s m).session 2).owner.toNat ++ leBytes 8 c.n) (leBytes c.n (v >>> 128)) (leBytes 16 (v >>> (128 + 8 * c.n)))).2 == decide (m = 2))
      | .error _ => false) = true := by decide +kernel
  have rd : ∀ m, (match ((s m).readSpan 0 c.tid c.task c.srcPages (c.n / 128 + 4) c.src.toNat (c.n + 32)).2 with | .ok _ => true | .error _ => false) = true := by decide +kernel
  obtain ⟨u, v, h⟩ := okOf ((s n).readSpan 0 c.tid c.task c.srcPages (c.n / 128 + 4) c.src.toNat (c.n + 32)) (rd n)
  have may : ∀ m, (s m).copyMay 0 0 = true := by decide +kernel
  have free : ∀ m, (s m).engineHeld 0 c.dstPages = false := by decide +kernel
  have first : ∀ m, (s m).sealedBehind c = false := by decide +kernel
  have lock : ∀ m, (s m).host.tdi.getLsbD (if ((s m).session 2).port then 1 else 0) = true := by decide +kernel
  have g := gate n
  rw [h] at g
  refine ⟨s n, u, c, 2, v, _, leBytes 32 ((tfind u.host.keys ((s n).session 2).kslot.toNat).getD 0).toNat, leBytes 8 ((s n).session 2).owner.toNat ++ leBytes 8 c.n, (gcmOpen (leBytes 32 ((tfind u.host.keys ((s n).session 2).kslot.toNat).getD 0).toNat)
    (leBytes 12 v) (leBytes 8 ((s n).session 2).owner.toNat ++ leBytes 8 c.n) (leBytes c.n (v >>> 128)) (leBytes 16 (v >>> (128 + 8 * c.n)))).1, may n, rfl, rfl, first n, rfl, free n, rfl, rfl, lock n, h, ?_⟩
  by_cases hn : n = 0
  · simp only [hn, if_true] at g ⊢; exact of_decide_eq_true g
  · simp only [hn, if_false] at g ⊢
    obtain ⟨g1, g2⟩ := (Bool.and_eq_true _ _).mp g
    refine ⟨of_decide_eq_true g1, trivial, trivial, ?_⟩
    rw [← eq_of_beq g2]

/-- O55. BAR2 and CXL.mem requests, gating, the clock, alarms, module reset. -/
def bar2 (up write refuse : Bool) (tdi : BitVec 2) (stream : Bool) (pa n : Nat) : State :=
  { on (regs []) with ev := { ea 0 pa n 0 with flag := write, flag2 := stream }, host := { HostSide.reset with up := up, refuseBar2 := refuse, tdi := tdi } }
theorem witness_HostAndPowerEvents_bar2 : (∃ s : State, s.host.up = false ∧ s.ev.flag = false) ∧ (∃ s : State, s.host.up = true ∧ s.host.refuseBar2 = true) ∧ (∃ s : State, s.ev.flag = true ∧ s.host.refuseBar2 = true) ∧
    (∃ s : State, s.host.up = true ∧ s.host.tdi.getLsbD s.ev.a = true ∧ s.ev.flag2 = false) ∧ (∃ s : State, s.host.up = true ∧ regionOf s.ev.b ≠ .cfg) ∧
    (∃ s : State, s.host.up = true ∧ s.accessOk (if s.ev.flag then .write else .read) s.ev.b s.ev.n = false) ∧
    (∃ s : State, s.host.up = true ∧ s.host.refuseBar2 = false ∧ s.host.tdi.getLsbD s.ev.a = false ∧ regionOf s.ev.b = .cfg ∧ s.ev.flag = false ∧ s.accessOk .read s.ev.b s.ev.n = true) ∧
    ∃ s : State, s.host.up = true ∧ s.host.refuseBar2 = false ∧ s.host.tdi.getLsbD s.ev.a = true ∧ s.ev.flag2 = true ∧ regionOf s.ev.b = .cfg ∧ s.ev.flag = true ∧ s.accessOk .write s.ev.b s.ev.n = true :=
  ⟨⟨bar2 false false false 0 false 0 8, by decide +kernel⟩, ⟨bar2 true false true 0 false 0x409000000008 8, by decide +kernel⟩, ⟨bar2 false true true 0 false 0x409000000008 8, by decide +kernel⟩,
    ⟨bar2 true false false 1 false 0x409000000008 8, by decide +kernel⟩, ⟨bar2 true false false 0 false 0x3FFFFFFFFF8 8, by decide +kernel⟩, ⟨bar2 true false false 0 false 0x409000000009 8, by decide +kernel⟩,
    ⟨bar2 true false false 2 false 0x409000000008 8, by decide +kernel⟩, ⟨bar2 true true false 1 true 0x409000000008 4, by decide +kernel⟩⟩
/-- A doorbell written through a port, whole and by its half; and BAR0 of a port. -/
theorem witness_HostAndPowerEvents_doorbell : (∃ (s : State) (d : Nat), s.ev.c = 0 ∧ s.host.up = true ∧ s.host.refuseBar2 = false ∧ s.host.tdi.getLsbD s.ev.a = false ∧ regionOf s.ev.b = .cfg ∧ s.ev.flag = true ∧
      s.accessOk .write s.ev.b s.ev.n = true ∧ s.ev.n = 8 ∧ s.cfgBlock s.ev.b = some (.dispatcher d 0)) ∧
    ∃ s : State, s.ev.c = 0 ∧ s.host.up = true ∧ s.host.refuseBar2 = false ∧ s.host.tdi.getLsbD s.ev.a = false ∧ regionOf s.ev.b = .cfg ∧ s.ev.flag = true ∧ s.accessOk .write s.ev.b s.ev.n = true ∧
      (∀ d, s.cfgBlock s.ev.b = some (.dispatcher d 0) → s.ev.n ≠ 8) ∧ s.ev.n = 4 :=
  ⟨⟨bar2 true true false 0 false 0x409000010000 8, 1, by decide +kernel⟩, ⟨bar2 true true false 0 false 0x409000010000 4, by decide +kernel, by decide +kernel, by decide +kernel, by decide +kernel, by decide +kernel,
    by decide +kernel, by decide +kernel, fun _ _ => by decide +kernel, by decide +kernel⟩⟩
def bar0 (up write : Bool) (port off n : Nat) : State := { bar2 up write false 0 false off n with ev := { ea port off n 0 with flag := write, c := 1 } }
theorem witness_HostAndPowerEvents_bar0 : (∃ s : State, s.ev.c = 1 ∧ s.host.up = false ∧ s.ev.flag = false) ∧
    (∃ s : State, s.ev.c = 1 ∧ s.host.up = true ∧ s.ev.b + s.ev.n = 0x10001) ∧ (∃ s : State, s.ev.c = 1 ∧ s.ev.flag = true ∧ s.ev.a = 2) ∧
    (∀ w : Bool, ∃ s : State, s.ev.c = 1 ∧ s.host.up = true ∧ s.ev.b + s.ev.n ≤ 0x10000 ∧ s.ev.a < 2 ∧ s.ev.b < 0xF000 ∧ s.ev.flag = w) ∧
    (∀ w : Bool, ∃ (s : State) (pa : Nat), s.ev.c = 1 ∧ s.host.up = true ∧ s.ev.b + s.ev.n ≤ 0x10000 ∧ s.ev.a < 2 ∧ 0xF000 ≤ s.ev.b ∧ pa = 0x40E000000000 + (s.ev.b - 0xF000) ∧ s.ev.flag = w ∧
      s.accessOk (if s.ev.flag then .write else .read) pa s.ev.n = true) ∧
    (∃ (s : State) (pa : Nat), s.ev.c = 1 ∧ s.host.up = true ∧ s.ev.b + s.ev.n ≤ 0x10000 ∧ s.ev.a < 2 ∧ 0xF000 ≤ s.ev.b ∧ pa = 0x40E000000000 + (s.ev.b - 0xF000) ∧
      s.accessOk (if s.ev.flag then .write else .read) pa s.ev.n = false) ∧ ∃ s : State, 2 ≤ s.ev.c :=
  ⟨⟨bar0 false false 0 0 8, by decide +kernel⟩, ⟨bar0 true false 0 0xFFF9 8, by decide +kernel⟩, ⟨bar0 false true 2 0 8, by decide +kernel⟩, fun w => ⟨bar0 true w 1 0xEFF8 8, by revert w; decide +kernel⟩,
    fun w => ⟨bar0 true w 1 0xF000 8, 0x40E000000000, by revert w; decide +kernel⟩, ⟨bar0 true false 1 0xF004 8, _, rfl, rfl, by decide +kernel, by decide +kernel, by decide +kernel, rfl, by decide +kernel⟩,
    ⟨onEv { ea 0 0 0 0 with c := 2 }, by decide +kernel⟩⟩
def cxl (up : Bool) (on_ : BitVec 2) (line : Nat) (write : Bool) : State := { on (regs []) with ev := { ea 1 line 0 0 with flag := write }, host := { HostSide.reset with up := up, cxl := on_ } }
/-- Each of the four agents outside, at an address it reaches, while bring-up has ended or not. -/
def outer (n : Fin 4) (up write : Bool) : State :=
  let line : Nat := match n with
    | 0 => 2 ^ 35 - 1
    | 1 => 2 ^ 35 - 1
    | 2 => 0x200000000000 / 128
    | 3 => (0x80000000000000 + 2 ^ 44) / 128
  { cxl up 2 line write with ev := { ea 1 line n.1 0 with flag := write }, host := { HostSide.reset with up := up, cxl := 2, peers := [1] } }
theorem witness_HostAndPowerEvents_cxl : (∃ s : State, s.host.up = false) ∧ (∃ s : State, s.host.up = true ∧ s.host.cxl.getLsbD s.ev.a = false) ∧ (∃ s : State, s.host.up = true ∧ isHbm (s.ev.b * 128) = false) ∧
    (∀ w : Bool, ∃ s : State, s.host.up = true ∧ s.host.cxl.getLsbD s.ev.a = true ∧ isHbm (s.ev.b * 128) = true ∧ s.ev.flag = w) ∧
    (∀ n : Fin 4, ∀ w : Bool, ∃ s : State, s.outerReaches n.1 s.ev.a (s.ev.b * 128) = true ∧ s.ev.n = n.1 ∧ s.ev.flag = w ∧ s.replay.cmp = false ∧ s.phasersInUse = [] ∧ s.popWaits = []) ∧
    (∃ s : State, s.outerReaches 0 s.ev.a (s.ev.b * 128) = true ∧ s.ev.n = 0 ∧ s.ev.flag = true ∧ s.replay.cmp = true) ∧ ∀ n : Fin 4, ∃ s : State, s.outerReaches n.1 s.ev.a (s.ev.b * 128) = false ∧ s.ev.n = n.1 :=
  ⟨⟨cxl false 2 0 false, by decide +kernel⟩, ⟨cxl true 1 0 false, by decide +kernel⟩, ⟨cxl true 2 (2 ^ 35) false, by decide +kernel⟩, fun w => ⟨cxl true 2 (2 ^ 35 - 1) w, by revert w; decide +kernel⟩,
    fun n w => ⟨outer n true w, by revert n w; decide +kernel⟩, ⟨{ outer 0 true true with replay := { Replay.reset with cmp := true } }, by decide +kernel⟩, fun n => ⟨outer n false false, by revert n; decide +kernel⟩⟩
def idle (now : Nat) (c : Cluster) : State := { on (regs []) with ctxs := [], ev := ea 0 0 0 0, now := now, clusters := [(0, c)] }
theorem witness_HostAndPowerEvents_power : (∃ s : State, s.clusterLive s.ev.a = true ∧ s.clusterQuiet s.ev.a = true ∧ (s.cluster s.ev.a).idleSince + 10000 = s.now) ∧
    (∃ s : State, s.now + 1 = (s.cluster s.ev.a).idleSince + 10000) ∧ (∃ (s : State) (j : Nat), j < 48 ∧ (s.ctx (s.ev.a * 48 + j)).status ≠ .idle) ∧ (∃ s : State, (s.cluster s.ev.a).gated = true) ∧
    (∃ s : State, s.dieLive s.ev.a = true) ∧ (∃ s : State, s.dieLive s.ev.a = true ∧ (s.die s.ev.a).mhz = 1500 ∧ (s.die s.ev.a).stopped = false) ∧ (∃ s : State, (s.die s.ev.a).mhz ≠ 1500) ∧
    (∀ n : Fin 3, ∃ (s : State) (pol : Nat), pol = min 2 (max s.host.policy s.ev.a) ∧ pol = n.1 ∧ (n ≠ 0 → s.ev.a < s.host.policy)) ∧
    (∀ free : Bool, ∃ (s t : State) (ns cycles : Nat), t = s.pass ns cycles ∧ 0 ≤ s.host.drift ∧ s.host.freeRun = free ∧
      (-5 ≤ s.host.ppm ∧ s.host.ppm ≤ 5 ∨ s.host.freeRun = false ∧ -100 ≤ s.host.ppm ∧ s.host.ppm ≤ 100)) ∧
    (∃ s : State, s.ev.bring.imagesOk = 15 ∧ s.ev.bring.linksOk = true) ∧ (∃ s : State, s.ev.a < 2) ∧ ∃ s : State, 2 ≤ s.ev.a :=
  ⟨⟨idle 10000 Cluster.reset, by decide +kernel⟩, ⟨idle 9999 Cluster.reset, by decide +kernel⟩, ⟨onEv (ea 0 0 0 0), 0, by decide +kernel⟩, ⟨idle 0 { Cluster.reset with gated := true }, by decide +kernel⟩,
    ⟨onEv (ea 15 0 0 0), by decide +kernel⟩, ⟨{ onEv (ea 0 0 0 0) with dies := [(0, { Die.reset with mhz := 1500 })] }, by decide +kernel⟩, ⟨onEv (ea 0 0 0 0), by decide +kernel⟩,
    fun n => ⟨{ onEv (ea 0 0 0 0) with host := { HostSide.reset with policy := n.1 } }, n.1, by revert n; decide +kernel⟩,
    fun free => ⟨{ onEv (ea 0 0 0 0) with host := { HostSide.reset with freeRun := free, ppm := if free then -5 else 100 } }, _, 1000, 4000, rfl, by revert free; decide +kernel⟩,
    ⟨onEv { ea 0 0 0 0 with bring := { EventArgs.blank.bring with imagesOk := 15, linksOk := true } }, by decide +kernel⟩, ⟨onEv (ea 1 0 0 0), by decide +kernel⟩, ⟨onEv (ea 2 0 0 0), by decide +kernel⟩⟩
/-- O56, O58, O60. -/
theorem witness_HintsDoNothing : (∃ op : IntOp, intDest op = 0) ∧ (∃ pr su : BitVec 4, pr.getLsbD 0 = false ∧ pr.getLsbD 2 = false ∧ su ≠ 0) ∧ ∃ su : BitVec 4, su = 0 :=
  ⟨⟨.lui 0 1, rfl⟩, ⟨0xA, 1, by decide⟩, ⟨0, rfl⟩⟩
theorem witness_MaskRegisters_threads : (∃ (s : State) (t : TaskEntry) (n : Nat) (l : Launch), s.launchAt t.launch = some l ∧ t.stack.or l.freeStack = some n ∧ t.saved = none ∧ t.id.extractLsb' 0 32 ≠ 0) ∧
    (∃ (s t : State) (rd rs1 rs2 : Reg) (j : Nat), exec (.hstart rd rs1 rs2) s = .next t ∧ s.cur % 12 = 0 ∧ (s.xr rs1).toNat % 4 = 0 ∧ rd ≠ 0 ∧ t.xr rd = BitVec.ofNat 64 j ∧ 1 ≤ j ∧ j ≤ 10) := by
  refine ⟨⟨tasks 1 0 [] [], task1 1 0 0, 0, launchOn 0, by decide +kernel⟩, on (regs [(5, 0x4000)]), after (.hstart 1 5 6) (on (regs [(5, 0x4000)])), 1, 5, 6, 1, ?_, rfl, by decide +kernel, by decide, by decide +kernel, by decide, by decide⟩
  unfold after
  cases h : exec (.hstart 1 5 6) (on (regs [(5, 0x4000)])) with
  | next t => rfl
  | fault f => cases f
  | refused r =>
    have : (match exec (.hstart 1 5 6) (on (regs [(5, 0x4000)])) with | .next _ => true | _ => false) = true := by decide +kernel
    rw [h] at this; cases this
theorem witness_MaskRegisters_words : (∃ w, decode w = .ok (.vmand 1 2 3 0)) ∧ (∃ w, decode w = .ok (.vmnot 1 3 0)) ∧ (∃ w, decode w = .ok (.vpopc 10 3 0)) ∧ ∃ w, decode w = .ok (.vcmpEq 7 4 5 0) :=
  ⟨⟨(encode (.vmand 1 2 3 0)).getD 0, by decide +kernel⟩, ⟨(encode (.vmnot 1 3 0)).getD 0, by decide +kernel⟩, ⟨(encode (.vpopc 10 3 0)).getD 0, by decide +kernel⟩, ⟨(encode (.vcmpEq 7 4 5 0)).getD 0, by decide +kernel⟩⟩
theorem witness_StepKeepsInvariants : ∃ s t : State, s.Inv ∧ step s = .next t := by
  cases h : step placed with
  | next t => exact ⟨placed, t, by unfold State.Inv; decide +kernel, h⟩
  | fault f => cases f
  | refused r =>
    have : (match step placed with | .next _ => true | _ => false) = true := by decide +kernel
    rw [h] at this; cases this

end Sys2Proof.Tests
end

