-- ==== Sys2Proof/Proofs/ResetState.lean ====
section
/-! The state after module reset (R3, R396). Its tables are empty, so that whatever is looked up in one is that unit as reset leaves it. -/

namespace Sys2Proof.Machine

@[simp] theorem ctx_reset (cid : Nat) : State.reset.ctx cid = Ctx.reset := rfl
@[simp] theorem slice_reset (i : Nat) : State.reset.slice i = Slice.reset := rfl
@[simp] theorem die_reset (d : Nat) : State.reset.die d = Die.reset := rfl
@[simp] theorem cluster_reset (g : Nat) : State.reset.cluster g = Cluster.reset := rfl
@[simp] theorem handle_reset (g h : Nat) : State.reset.handle g h = Handle.reset := rfl
@[simp] theorem ttEntry_reset (i : Nat) : State.reset.ttEntry i = TTEntry.reset := rfl
@[simp] theorem session_reset (j : Nat) : State.reset.session j = Session.reset := rfl

/-- A context that has never run has m1 all ones, and no other mask is (R144; the model's choice for module reset: log entry 1). -/
theorem mask_ctxReset : Ctx.reset.mask 1 = BitVec.allOnes 1024 ∧ Ctx.reset.mask 2 = 0 := by decide +kernel

/-- Each lane group's arbiter starts at core 0 with no credit (R138). -/
theorem groups_clusterReset : ∀ x ∈ Cluster.reset.groups.toList,
    x.ptr = 0 ∧ x.fresh = true ∧ x.d0 = 0 ∧ x.d1 = 0 ∧ x.d2 = 0 ∧ x.d3 = 0 := by decide

/-- Home memory with nothing listed is canonical, and the empty table is in order. -/
theorem State.reset_inv : State.reset.Inv := ⟨rfl, rfl⟩

/-- Settles O59: every unit looked up is the one that reset leaves, whose fields the reset states give. -/
theorem resetState : Obligations.ResetState := by
  obtain ⟨hm1, hm2⟩ := mask_ctxReset
  refine ⟨fun cid => ?_, rfl, rfl, rfl, rfl, rfl, rfl, rfl, rfl, rfl, rfl, rfl, rfl, rfl, rfl, rfl, rfl,
    fun i => ?_, fun d => ?_, fun g => ?_, fun i => ?_, State.reset_inv⟩
  · rw [ctx_reset]
    exact ⟨rfl, rfl, rfl, rfl, rfl, rfl, rfl, rfl, rfl, rfl, hm1, hm2, rfl⟩
  · rw [slice_reset]
    exact ⟨rfl, rfl, rfl, rfl, rfl⟩
  · rw [die_reset]
    exact ⟨rfl, rfl, rfl, rfl, rfl, rfl, rfl, rfl⟩
  · rw [cluster_reset]
    exact ⟨rfl, rfl, rfl, fun h => ⟨rfl, rfl⟩, groups_clusterReset⟩
  · exact ⟨rfl, rfl, rfl⟩

end Sys2Proof.Machine
end

