-- ==== Sys2Proof/Proofs/KeepsInvariants/Rules.lean ====
section
/-! The rules by which the proof of O60 goes. The invariants speak of two fields only, home memory and the table of contexts. Memory changes by
`mwrite`, `mmerge` and `filter`, which keep its canonical form; the table of contexts by `setCtx` and by maps over its values, which keep its order.
Every operation `f` of the model has one lemma, `State.Inv.f`, that says so, from the lemmas of the operations that it calls. A state that differs
from `s` in other fields has the invariants definitionally: such a lemma's proof is `hs`. Where an operation may stop, find nothing or refuse,
`Ends`, `IfSome`, `IfOk` and `OutInv` say it of the states inside the result. -/

namespace Sys2Proof.Machine

/-- What an instruction that stops early hands on satisfies the invariants: the states inside a stop. -/
def Stop.Inv : Stop → Prop
  | .exc _ _ => True
  | .halt => True
  | .jump t _ => t.Inv
  | .left t => t.Inv

/-- A computation that may stop ends well: its value satisfies `P`, or the state it stops with satisfies the invariants. -/
inductive Ends {α : Type} (P : α → Prop) : Except Stop α → Prop
  | ok {a : α} (h : P a) : Ends P (.ok a)
  | error {e : Stop} (h : e.Inv) : Ends P (.error e)

/-- The value, where there is one, satisfies `P`. -/
inductive IfSome {α : Type} (P : α → Prop) : Option α → Prop
  | some {a : α} (h : P a) : IfSome P (Option.some a)
  | none : IfSome P Option.none

/-- The value, where there is one, satisfies `P`. -/
inductive IfOk {ε α : Type} (P : α → Prop) : Except ε α → Prop
  | ok {a : α} (h : P a) : IfOk P (.ok a)
  | error {e : ε} : IfOk P (.error e)

/-- The state that a step goes on to satisfies the invariants. -/
inductive OutInv : Host.Outcome State Fault Refusal → Prop
  | next {t : State} (h : t.Inv) : OutInv (.next t)
  | fault {r : Fault} : OutInv (.fault r)
  | refused {r : Refusal} : OutInv (.refused r)

theorem Ends.ok_iff {α : Type} {P : α → Prop} {a : α} : Ends P (.ok a) ↔ P a := ⟨fun h => by cases h; assumption, .ok⟩
theorem Ends.error_iff {α : Type} {P : α → Prop} {e : Stop} : Ends P (.error e : Except Stop α) ↔ e.Inv :=
  ⟨fun h => by cases h; assumption, .error⟩
theorem IfSome.some_iff {α : Type} {P : α → Prop} {a : α} : IfSome P (Option.some a) ↔ P a := ⟨fun h => by cases h; assumption, .some⟩
theorem IfOk.ok_iff {ε α : Type} {P : α → Prop} {a : α} : IfOk P (.ok a : Except ε α) ↔ P a := ⟨fun h => by cases h; assumption, .ok⟩
theorem OutInv.next_iff {t : State} : OutInv (.next t) ↔ t.Inv := ⟨fun h => by cases h; assumption, .next⟩

theorem Ends.bind {α β : Type} {P : α → Prop} {Q : β → Prop} {x : Except Stop α} {f : α → Except Stop β} (hx : Ends P x)
    (hf : ∀ a, P a → Ends Q (f a)) : Ends Q (x >>= f) := by
  cases hx with
  | ok h => exact hf _ h
  | error h => exact .error h

theorem Ends.map {α β : Type} {P : α → Prop} {Q : β → Prop} {x : Except Stop α} {f : α → β} (hx : Ends P x)
    (hf : ∀ a, P a → Q (f a)) : Ends Q (x.map f) := by
  cases hx with
  | ok h => exact .ok (hf _ h)
  | error h => exact .error h

theorem IfSome.bind {α β : Type} {P : α → Prop} {Q : β → Prop} {x : Option α} {f : α → Option β} (hx : IfSome P x)
    (hf : ∀ a, P a → IfSome Q (f a)) : IfSome Q (x >>= f) := by
  cases hx with
  | some h => exact hf _ h
  | none => exact .none

theorem IfSome.map {α β : Type} {P : α → Prop} {Q : β → Prop} {x : Option α} {f : α → β} (hx : IfSome P x)
    (hf : ∀ a, P a → Q (f a)) : IfSome Q (x.map f) := by
  cases hx with
  | some h => exact .some (hf _ h)
  | none => exact .none

theorem IfSome.getD {α : Type} {P : α → Prop} {o : Option α} {d : α} (ho : IfSome P o) (hd : P d) : P (o.getD d) := by
  cases ho with
  | some h => exact h
  | none => exact hd

theorem IfSome.or {α : Type} {P : α → Prop} {a b : Option α} (ha : IfSome P a) (hb : IfSome P b) : IfSome P (a.or b) := by
  cases ha with
  | some h => exact .some h
  | none => exact hb

theorem IfSome.findSome {α β : Type} {P : β → Prop} {f : α → Option β} (hf : ∀ a, IfSome P (f a)) (l : List α) :
    IfSome P (l.findSome? f) := by
  induction l with
  | nil => exact .none
  | cons a l ih =>
    rw [List.findSome?_cons]
    have h := hf a
    split
    · rename_i e
      rwa [e] at h
    · exact ih

theorem except_bind {ε α β : Type} (x : Except ε α) (f : α → Except ε β) :
    x >>= f = match x with | .ok a => f a | .error e => .error e := by cases x <;> rfl

theorem foldl_inv {α : Type} {f : State → α → State} (hf : ∀ s a, s.Inv → (f s a).Inv) {s : State} (h : s.Inv) (l : List α) :
    (l.foldl f s).Inv := by
  induction l generalizing s with
  | nil => exact h
  | cons a l ih => exact ih (hf s a h)

theorem State.inv_mk {s : State} : s.Inv ↔ Memory.wf s.mem = true ∧ risingFrom 0 s.ctxs = true := Iff.rfl

theorem State.Inv.of_eq {s t : State} (hs : s.Inv) (hm : t.mem = s.mem) (hc : t.ctxs = s.ctxs) : t.Inv := by
  rw [State.inv_mk, hm, hc]; exact hs

/-- Changing the values of a table, at its keys, keeps its order. -/
theorem risingFrom_map {α : Type} (f : Nat × α → Nat × α) (hf : ∀ p, (f p).1 = p.1) (lo : Nat) (m : Table α) :
    risingFrom lo (m.map f) = risingFrom lo m := by
  induction m generalizing lo with
  | nil => rfl
  | cons p t ih =>
    simp only [List.map_cons, risingFrom, hf p, ih]

theorem State.Inv.mapCtxs {s : State} (hs : s.Inv) (f : Nat × Ctx → Nat × Ctx) (hf : ∀ p, (f p).1 = p.1) :
    ({ s with ctxs := s.ctxs.map f } : State).Inv :=
  ⟨hs.1, (risingFrom_map f hf 0 s.ctxs).trans hs.2⟩

theorem State.Inv.filterMem {s : State} (hs : s.Inv) (p : Host.Cell → Bool) : ({ s with mem := s.mem.filter p } : State).Inv :=
  ⟨wf_filter s.mem p hs.1, hs.2⟩

theorem State.Inv.ite {p : Prop} [Decidable p] {a b : State} (ha : a.Inv) (hb : b.Inv) : (if p then a else b).Inv := by
  split
  · exact ha
  · exact hb

theorem State.Inv.withLseq {s : State} (hs : s.Inv) (n : Nat) : ({ s with lseq := n } : State).Inv := hs
theorem State.Inv.withReplay {s : State} (hs : s.Inv) (r : Replay) : ({ s with replay := r } : State).Inv := hs

end Sys2Proof.Machine
end

