-- ==== Sys2Proof/Proofs/KeepsInvariants/Memory.lean ====
section
/-! Memory, the caches and the buffers: the operations on storage keep the invariants. -/

namespace Sys2Proof.Machine

open State.Inv

variable {s : State}

/-! ### Machine/Maps -/

theorem State.Inv.setCtx (hs : s.Inv) (cid c) : (s.setCtx cid c).Inv := ⟨hs.1, risingFrom_tput _ 0 cid c (Nat.zero_le _) hs.2⟩
theorem State.Inv.modCtx (hs : s.Inv) (cid g) : (s.modCtx cid g).Inv := hs.setCtx ..
theorem State.Inv.setCore (hs : s.Inv) (k c) : (s.setCore k c).Inv := hs
theorem State.Inv.modCore (hs : s.Inv) (k g) : (s.modCore k g).Inv := hs
theorem State.Inv.setCluster (hs : s.Inv) (g c) : (s.setCluster g c).Inv := hs
theorem State.Inv.modCluster (hs : s.Inv) (g h) : (s.modCluster g h).Inv := hs
theorem State.Inv.setDie (hs : s.Inv) (d x) : (s.setDie d x).Inv := hs
theorem State.Inv.modDie (hs : s.Inv) (d h) : (s.modDie d h).Inv := hs
theorem State.Inv.setSlice (hs : s.Inv) (k x) : (s.setSlice k x).Inv := hs
theorem State.Inv.modSlice (hs : s.Inv) (k h) : (s.modSlice k h).Inv := hs
theorem State.Inv.setStack (hs : s.Inv) (k x) : (s.setStack k x).Inv := hs
theorem State.Inv.setLaunch (hs : s.Inv) (k l) : (s.setLaunch k l).Inv := hs

theorem State.Inv.modLaunch (hs : s.Inv) (k h) : (s.modLaunch k h).Inv := by
  unfold State.modLaunch
  grind [setLaunch]

theorem State.Inv.setTT (hs : s.Inv) (i e) : (s.setTT i e).Inv := hs
theorem State.Inv.setSession (hs : s.Inv) (j e) : (s.setSession j e).Inv := hs
theorem State.Inv.setHandle (hs : s.Inv) (g h x) : (s.setHandle g h x).Inv := hs
theorem State.Inv.setXr (hs : s.Inv) (r v) : (s.setXr r v).Inv := hs.modCtx ..

/-! ### Machine/Phys -/

theorem State.Inv.aliasWrite (hs : s.Inv) (g k e y) : (s.aliasWrite g k e y).Inv := by
  unfold State.aliasWrite
  grind [State.inv_mk, wf_mwrite]

theorem State.Inv.aliasStore (hs : s.Inv) (g k o n v) : (s.aliasStore g k o n v).Inv := by
  induction n generalizing s o v with
  | zero =>
    unfold State.aliasStore
    grind [aliasWrite]
  | succ n' ih =>
    unfold State.aliasStore
    grind [aliasWrite]

theorem State.Inv.setTile (hs : s.Inv) (t) : (s.setTile t).Inv := hs
theorem State.Inv.countReads (hs : s.Inv) (slice n) : (s.countReads slice n).Inv := .ite hs hs
theorem State.Inv.countLine (hs : s.Inv) (slice line) : (s.countLine slice line).Inv := .ite hs hs

theorem State.Inv.loseIf (hs : s.Inv) (p w) : (s.loseIf p w).Inv := by
  refine ⟨hs.1, (risingFrom_map _ ?_ 0 s.ctxs).trans hs.2⟩
  grind

theorem State.Inv.loseReservations (hs : s.Inv) (line keep only w) : (s.loseReservations line keep only w).Inv := hs.loseIf ..
theorem State.Inv.loseAt (hs : s.Inv) (pa n keep w) : (s.loseAt pa n keep w).Inv := hs.loseIf ..

theorem State.Inv.dropSectors (hs : s.Inv) (g line m) : (s.dropSectors g line m).Inv := by
  unfold State.dropSectors
  grind [modCluster]

theorem State.Inv.leaveSectors (hs : s.Inv) (g line m w) : (s.leaveSectors g line m w).Inv := by
  unfold State.leaveSectors
  grind [loseIf, dropSectors]

theorem State.Inv.sendVictim (hs : s.Inv) (g line l) : (s.sendVictim g line l).Inv := .ite hs hs

theorem State.Inv.mergeHome (hs : s.Inv) (line l) : (s.mergeHome line l).Inv :=
  State.Inv.countLine (s := { s with mem := _ }) ⟨wf_mmerge _ _ _ _ _ hs.1, hs.2⟩ _ _

theorem State.Inv.writeBack (hs : s.Inv) (g line m) : (s.writeBack g line m).Inv := by
  unfold State.writeBack
  grind [sendVictim, mergeHome, modCluster]

theorem State.Inv.landVictims (hs : s.Inv) (own line) : (s.landVictims own line).Inv := by
  unfold State.landVictims
  grind [foldl_inv, State.inv_mk, mergeHome]

theorem State.Inv.mergeVictim (hs : s.Inv) (g i) : (s.mergeVictim g i).Inv := by
  unfold State.mergeVictim
  grind [mergeHome, modCluster]

theorem State.Inv.evictSectors (hs : s.Inv) (g line m) : (s.evictSectors g line m).Inv := by
  unfold State.evictSectors
  grind [leaveSectors, writeBack]

theorem State.Inv.recallDirty (hs : s.Inv) (home g line m) : (s.recallDirty home g line m).Inv := by
  unfold State.recallDirty
  grind [foldl_inv, writeBack, landVictims]

theorem State.Inv.recallAll (hs : s.Inv) (home g line m) : (s.recallAll home g line m).Inv := by
  unfold State.recallAll
  grind [foldl_inv, evictSectors, landVictims]

theorem State.Inv.backInvalidate (hs : s.Inv) (line) : (s.backInvalidate line).Inv := .ite hs hs
theorem State.Inv.applyPending (hs : s.Inv) (line) : (s.applyPending line).Inv := hs

theorem State.Inv.tileDrop (hs : s.Inv) (t g w) : (s.tileDrop t g w).Inv := by
  unfold State.tileDrop
  grind [foldl_inv, leaveSectors, writeBack]

theorem State.Inv.releaseFrom (hs : s.Inv) (t g w) : (s.releaseFrom t g w).Inv := hs.tileDrop ..

theorem State.Inv.tileRecall (hs : s.Inv) (t w) : (s.tileRecall t w).Inv := by
  unfold State.tileRecall
  grind [foldl_inv, setTile, tileDrop]

theorem State.Inv.evictLine (hs : s.Inv) (g line) : (s.evictLine g line).Inv := by
  unfold State.evictLine
  grind [foldl_inv, releaseFrom, sendVictim, leaveSectors]

theorem State.Inv.makeWay (hs : s.Inv) (g line avoid) : (s.makeWay g line avoid).Inv := by
  unfold State.makeWay
  grind [evictLine]

theorem State.Inv.putLine (hs : s.Inv) (g line tid sw home cls avoid f) : (s.putLine g line tid sw home cls avoid f).Inv := hs.makeWay ..

theorem State.Inv.fill (hs : s.Inv) (g line m tid sw home cls avoid) : (s.fill g line m tid sw home cls avoid).Inv := by
  unfold State.fill
  grind [putLine]

theorem State.Inv.touch (hs : s.Inv) (g line) : (s.touch g line).Inv := by
  unfold State.touch
  grind [modCluster]

theorem State.Inv.firstOut (hs : s.Inv) (g line) : (s.firstOut g line).Inv := by
  unfold State.firstOut
  grind [modCluster]

theorem State.Inv.streamWrite (hs : s.Inv) (line settle mask data task launch) : (s.streamWrite line settle mask data task launch).Inv := .ite hs hs

theorem State.Inv.settleLine (hs : s.Inv) (line) : (s.settleLine line).Inv := by
  unfold State.settleLine
  grind [State.inv_mk, streamWrite]

theorem State.Inv.tileFill (hs : s.Inv) (t g tid) : (s.tileFill t g tid).Inv := by
  unfold State.tileFill
  grind [foldl_inv, fill, settleLine, applyPending]

theorem State.Inv.takeTile (hs : s.Inv) (t g w) : (s.takeTile t g w).1.Inv := by
  unfold State.takeTile
  refine List.foldlRecOn t.sectors (motive := fun q : State × Table L2Line => q.1.Inv) _ hs fun q hq a _ => ?_
  grind [leaveSectors]

theorem State.Inv.placeTile (hs : s.Inv) (t g tid fl) : (s.placeTile t g tid fl).Inv := by
  unfold State.placeTile
  grind [foldl_inv, putLine]

theorem State.Inv.tilePush (hs : s.Inv) (t evicted) : (s.tilePush t evicted).Inv := by
  unfold State.tilePush
  grind [foldl_inv, placeTile, mergeHome, setTile, modCore]

theorem State.Inv.recallTiles (hs : s.Inv) (home line m w) : (s.recallTiles home line m w).Inv := by
  unfold State.recallTiles
  grind [foldl_inv, tilePush, tileRecall]

theorem State.Inv.tileRequest (hs : s.Inv) (t0 g excl tid task) : (s.tileRequest t0 g excl tid task).Inv := by
  have hb : ∀ {s : State}, s.Inv → ∀ l : List Nat, (l.foldl (fun s line => s.backInvalidate line) s).Inv :=
    fun h => foldl_inv (fun _ _ h => h.backInvalidate _) h
  unfold State.tileRequest
  grind [tilePush, setTile, countReads, tileRecall, tileDrop, takeTile, placeTile, tileFill, writeBack, foldl_inv]

theorem State.Inv.tick (hs : s.Inv) : s.tick.2.Inv := hs

theorem State.Inv.tileAccess (hs : s.Inv) (g x n excl tid task) : (s.tileAccess g x n excl tid task).Inv := by
  unfold State.tileAccess
  grind [foldl_inv, tileRequest]

theorem State.Inv.acquireLine (hs : s.Inv) (g x excl tid) : (s.acquireLine g x excl tid).Inv := by
  unfold State.acquireLine
  grind [landVictims, backInvalidate, recallAll, recallDirty, countLine, fill, settleLine, applyPending]

theorem State.Inv.veiled (hs : s.Inv) (h task) : (s.veiled h task).Inv := by
  unfold State.veiled
  split
  · exact hs
  · exact hs.filterMem _

theorem State.Inv.readMem (hs : s.Inv) (g tid task x n) : (s.readMem g tid task x n).1.Inv := by
  unfold State.readMem
  grind [veiled, touch, tileAccess, acquireLine, recallDirty]

theorem State.Inv.writeMem (hs : s.Inv) (g tid x n v keep w launch) : (s.writeMem g tid x n v keep w launch).Inv := by
  unfold State.writeMem
  grind [loseAt, aliasStore, settleLine, touch, tileAccess, acquireLine, modCluster, streamWrite, writeBack, recallAll, backInvalidate,
    State.inv_mk, wf_mwrite, wf_mmerge]

theorem State.Inv.homeTake (hs : s.Inv) (home line m task) : (s.homeTake home line m task).Inv := by
  unfold State.homeTake
  grind [recallTiles, backInvalidate, recallAll, landVictims]

theorem State.Inv.homeOwnAt (hs : s.Inv) (home line m task) : (s.homeOwnAt home line m task).Inv := ((hs.applyPending ..).homeTake ..).settleLine ..
theorem State.Inv.homeOwn (hs : s.Inv) (line) : (s.homeOwn line).Inv := hs.homeOwnAt ..

theorem State.Inv.homeReadAt (hs : s.Inv) (home pa n task) : (s.homeReadAt home pa n task).1.Inv := by
  unfold State.homeReadAt
  grind [countLine, homeOwnAt]

theorem State.Inv.homeRead (hs : s.Inv) (pa n) : (s.homeRead pa n).1.Inv := hs.homeReadAt ..
theorem State.Inv.homeReadX (hs : s.Inv) (x off n) : (s.homeReadX x off n).1.Inv := hs.homeReadAt ..

theorem State.Inv.homeWriteAt (hs : s.Inv) (home pa n v w launch) : (s.homeWriteAt home pa n v w launch).Inv := by
  unfold State.homeWriteAt
  grind [loseAt, aliasStore, homeOwnAt, countLine, streamWrite, State.inv_mk, wf_mwrite]

theorem State.Inv.homeWrite (hs : s.Inv) (pa n v w launch) : (s.homeWrite pa n v w launch).Inv := hs.homeWriteAt ..
theorem State.Inv.homeWriteX (hs : s.Inv) (x off n v w launch) : (s.homeWriteX x off n v w launch).Inv := hs.homeWriteAt ..

/-! ### Machine/Record -/

theorem State.Inv.putRecord (hs : s.Inv) (d w0 w1 w2 w3) : (s.putRecord d w0 w1 w2 w3).Inv := .ite hs (hs.homeWrite ..)
theorem State.Inv.edge (hs : s.Inv) (d waiter w rtype) : (s.edge d waiter w rtype).Inv := hs.putRecord ..
theorem State.Inv.zeroWait (hs : s.Inv) (d) : (s.zeroWait d).Inv := hs

theorem State.Inv.wakeIf (hs : s.Inv) (p w) : (s.wakeIf p w).Inv := by
  refine ⟨hs.1, (risingFrom_map _ ?_ 0 s.ctxs).trans hs.2⟩
  grind

theorem State.Inv.putEvent (hs : s.Inv) (core typ cause task words prodTask code) : (s.putEvent core typ cause task words prodTask code).Inv := by
  unfold State.putEvent
  grind [setCore, wakeIf]

/-! ### Machine/Vm -/

theorem Cls.err_inv (c e va) : (Cls.err c e va).Inv := trivial

theorem IfOk.of_bind {ε α β : Type} {Q : β → Prop} {x : Except ε α} {f : α → Except ε β} (hf : ∀ a, IfOk Q (f a)) : IfOk Q (x >>= f) := by
  cases x with
  | ok a => exact hf a
  | error e => exact .error
theorem State.Inv.xlate (hs : s.Inv) (v need va) : IfOk (fun p => p.1.Inv) (s.xlate v need va) := by
  unfold State.xlate
  split
  · split
    · exact .error
    · exact .ok hs
  split
  · exact .error
  extract_lets fresh
  have hf : IfOk (fun p : State × Xlat => p.1.Inv) fresh := by
    refine IfOk.of_bind fun _ => IfOk.of_bind fun _ => ?_
    dsimp only
    split
    · exact .ok (hs.modCluster ..)
    · exact .ok hs
  clear_value fresh
  split
  · split
    · exact .ok hs
    · exact hf
  · exact hf

theorem State.Inv.accessV (hs : s.Inv) (v cls need k va n) : Ends (fun p => p.1.Inv) (s.accessV v cls need k va n) := by
  unfold State.accessV
  grind [Ends.ok_iff, Ends.error_iff, Stop.Inv, except_bind, IfOk.ok_iff, IfOk.error, State.inv_mk, xlate, Cls.err_inv]

theorem State.Inv.leave (hs : s.Inv) (k op0 op1 rd obj deadline) : (s.leave k op0 op1 rd obj deadline).Inv := hs.modCtx ..
theorem State.Inv.mute {α : Type} {P : α → Prop} (hs : s.Inv) (pa amo) : Ends P (s.mute pa amo) := .error ((hs.modCtx ..).modCtx ..)

theorem State.Inv.access (hs : s.Inv) (cls need k va n) : Ends (fun p => p.1.Inv) (s.access cls need k va n) := by
  unfold State.access
  grind [Ends.ok_iff, except_bind, accessV, mute]

theorem State.Inv.scanPages (hs : s.Inv) (v cls need noIo fuel va stop) :
    Ends (fun p => p.1.Inv ∧ IfSome Stop.Inv p.2.2) (s.scanPages v cls need noIo fuel va stop) := by
  induction fuel generalizing s va with
  | zero =>
    unfold State.scanPages
    grind [Ends.ok_iff, Ends.error_iff, Stop.Inv, except_bind, IfSome.some_iff, IfSome.none, IfOk.ok_iff, IfOk.error, State.inv_mk, Cls.err_inv, xlate]
  | succ n' ih =>
    unfold State.scanPages
    grind [Ends.ok_iff, Ends.error_iff, Stop.Inv, except_bind, IfSome.some_iff, IfSome.none, IfOk.ok_iff, IfOk.error, State.inv_mk, Cls.err_inv, xlate]

theorem State.Inv.accessPages (hs : s.Inv) (v cls need fuel va stop) : Ends (fun p => p.1.Inv) (s.accessPages v cls need fuel va stop) := by
  unfold State.accessPages
  grind [Ends.ok_iff, Ends.error_iff, Stop.Inv, except_bind, IfSome.some_iff, IfSome.none, State.inv_mk, scanPages]

theorem State.Inv.pages (hs : s.Inv) (cls need va n) : Ends (fun p => p.1.Inv) (s.pages cls need va n) := hs.accessPages ..

/-! ### Machine/Hem -/

theorem State.Inv.modHem (hs : s.Inv) (k f) : (s.modHem k f).Inv := hs

theorem State.Inv.flushEntry (hs : s.Inv) (k e) : (s.flushEntry k e).Inv := by
  unfold State.flushEntry
  grind [State.inv_mk, modHem]

theorem State.Inv.flushWhere (hs : s.Inv) (k p) : (s.flushWhere k p).Inv := by
  unfold State.flushWhere
  grind [foldl_inv, flushEntry]

theorem State.Inv.hemRoom (hs : s.Inv) (k fuel) : (s.hemRoom k fuel).Inv := by
  induction fuel generalizing s with
  | zero =>
    unfold State.hemRoom
    grind [flushEntry]
  | succ n' ih =>
    unfold State.hemRoom
    grind [flushEntry]

theorem State.Inv.accPortion (hs : s.Inv) (cid o) : IfSome State.Inv (s.accPortion cid o) := by
  unfold State.accPortion
  grind [IfSome.some_iff, IfSome.none, State.inv_mk, modHem, hemRoom]

theorem State.Inv.quotaReach (hs : s.Inv) (i) : (s.quotaReach i).Inv := hs
theorem State.Inv.refill (hs : s.Inv) (i) : (s.refill i).Inv := hs

theorem State.Inv.applySend (hs : s.Inv) (a) : (s.applySend a).1.Inv := by
  unfold State.applySend
  grind [loseReservations, homeTake, State.inv_mk, wf_mwrite]

theorem State.Inv.sendAnswer (hs : s.Inv) (ok a) : (s.sendAnswer ok a).Inv := .ite hs hs
theorem State.Inv.acceptSend (hs : s.Inv) (i a) : (s.acceptSend i a).Inv := ((hs.applySend ..).modSlice ..).sendAnswer ..

theorem State.Inv.promote (hs : s.Inv) (i fuel) : (s.promote i fuel).Inv := by
  induction fuel generalizing s with
  | zero =>
    unfold State.promote
    grind [acceptSend, setSlice]
  | succ n' ih =>
    unfold State.promote
    grind [acceptSend, setSlice]

theorem State.Inv.decideAt (hs : s.Inv) (i a) : (s.decideAt i a).Inv := by
  unfold State.decideAt
  grind [countLine, promote, refill, acceptSend, setSlice, sendAnswer]

theorem State.Inv.meetTiles (hs : s.Inv) (a) : (s.meetTiles a).Inv := by
  unfold State.meetTiles
  grind [foldl_inv, tilePush, tileRecall]

theorem State.Inv.sendArrives (hs : s.Inv) (idx refuses) : (s.sendArrives idx refuses).Inv := by
  unfold State.sendArrives
  grind [State.inv_mk, meetTiles, sendAnswer, applySend, decideAt]

theorem State.Inv.accApplyAt (hs : s.Inv) (i) : (s.accApplyAt i).Inv := by
  unfold State.accApplyAt
  grind [promote, setSlice]

theorem State.Inv.refusalReturns (hs : s.Inv) (a) : (s.refusalReturns a).Inv := by
  unfold State.refusalReturns
  grind [modCore, modHem, flushEntry]

theorem State.Inv.acceptanceReturns (hs : s.Inv) (a) : (s.acceptanceReturns a).Inv := hs

theorem State.Inv.answerReturns (hs : s.Inv) (idx) : (s.answerReturns idx).Inv := by
  unfold State.answerReturns
  grind [State.inv_mk, acceptanceReturns, refusalReturns]

theorem State.Inv.decideSends (hs : s.Inv) (k fuel) : (s.decideSends k fuel).Inv := by
  induction fuel generalizing s with
  | zero =>
    unfold State.decideSends
    grind [answerReturns, sendArrives, accApplyAt]
  | succ n' ih =>
    unfold State.decideSends
    grind [answerReturns, sendArrives, accApplyAt]

theorem State.Inv.trimQueues (hs : s.Inv) (g) : (s.trimQueues g).Inv := hs

theorem State.Inv.startPortion (hs : s.Inv) (g j k i) : (s.startPortion g j k i).Inv := by
  unfold State.startPortion
  grind [IfSome.getD, accPortion, modCore, modCluster]

theorem State.Inv.arbitrate (hs : s.Inv) (g j fuel) : (s.arbitrate g j fuel).Inv := by
  induction fuel generalizing s with
  | zero =>
    unfold State.arbitrate
    grind [modCluster, startPortion]
  | succ n' ih =>
    unfold State.arbitrate
    grind [modCluster, startPortion]

theorem State.Inv.headRoom (hs : s.Inv) (k) : (s.headRoom k).Inv := by
  unfold State.headRoom
  grind [hemRoom]

theorem State.Inv.vectorRound (hs : s.Inv) (g) : (s.vectorRound g).Inv := by
  unfold State.vectorRound
  grind [foldl_inv, State.inv_mk, headRoom, trimQueues, arbitrate]

theorem State.Inv.drainVector (hs : s.Inv) (cid fuel) : (s.drainVector cid fuel).Inv := by
  induction fuel generalizing s with
  | zero =>
    unfold State.drainVector
    grind [vectorRound, decideSends]
  | succ n' ih =>
    unfold State.drainVector
    grind [vectorRound, decideSends]

theorem State.Inv.postedTimeout (hs : s.Inv) (cid task pa) : (s.postedTimeout cid task pa).Inv := hs.putEvent ..

theorem State.Inv.sendTimeout (hs : s.Inv) (idx) : (s.sendTimeout idx).Inv := by
  unfold State.sendTimeout
  grind [State.inv_mk, acceptanceReturns, postedTimeout]

theorem State.Inv.expireWhere (hs : s.Inv) (p fuel) : (s.expireWhere p fuel).Inv := by
  induction fuel generalizing s with
  | zero =>
    unfold State.expireWhere
    grind [State.inv_mk, sendTimeout]
  | succ n' ih =>
    unfold State.expireWhere
    grind [State.inv_mk, sendTimeout]

theorem State.Inv.expireSends (hs : s.Inv) (cid fuel) : (s.expireSends cid fuel).Inv := hs.expireWhere ..

theorem State.Inv.settleAcc.settleRounds (hs : s.Inv) (cid fuel) : (State.settleAcc.settleRounds s cid fuel).Inv := by
  induction fuel generalizing s with
  | zero =>
    unfold State.settleAcc.settleRounds
    grind [drainVector, decideSends, expireSends, expireWhere]
  | succ n' ih =>
    unfold State.settleAcc.settleRounds
    grind [drainVector, decideSends, expireSends, expireWhere]

theorem State.Inv.settleAcc (hs : s.Inv) (cid) : (s.settleAcc cid).Inv := by
  unfold State.settleAcc
  grind [settleAcc.settleRounds]

theorem State.Inv.flushCtx (hs : s.Inv) (cid) : (s.flushCtx cid).Inv := hs.flushWhere ..

theorem State.Inv.flushRange (hs : s.Inv) (cid base stop asid) : (s.flushRange cid base stop asid).Inv := by
  unfold State.flushRange
  grind [settleAcc, flushWhere, decideSends, expireSends]

/-! ### Machine/Engine -/

theorem State.Inv.changeHandle (hs : s.Inv) (g h st err task code) : (s.changeHandle g h st err task code).Inv := (hs.setHandle ..).wakeIf ..
theorem State.Inv.phaser (hs : s.Inv) (x) : (s.phaser x).1.Inv := hs.homeReadX ..

theorem State.Inv.putPhaser (hs : s.Inv) (x p completed w) : (s.putPhaser x p completed w).Inv := by
  unfold State.putPhaser
  grind [homeWriteX, wakeIf]

theorem State.Inv.phaserDecrement (hs : s.Inv) (x n task code core) : (s.phaserDecrement x n task code core).Inv := by
  unfold State.phaserDecrement
  grind [phaser, putPhaser, putEvent]

theorem State.Inv.queueRead (hs : s.Inv) (x off n) : (s.queueRead x off n).1.Inv := hs.homeReadX ..
theorem State.Inv.queueWrite (hs : s.Inv) (x off n v w) : (s.queueWrite x off n v w).Inv := hs.homeWriteX ..
theorem State.Inv.queueWords (hs : s.Inv) (x) : (s.queueWords x).1.Inv := hs.queueRead ..

theorem State.Inv.queueTake (hs : s.Inv) (x w) : (s.queueTake x w).1.Inv := by
  unfold State.queueTake
  grind [queueWords, queueRead, queueWrite]

theorem State.Inv.feedPops (hs : s.Inv) (x n) : (s.feedPops x n).Inv := by
  induction n generalizing s with
  | zero =>
    unfold State.feedPops
    grind [queueTake, wakeIf]
  | succ n' ih =>
    unfold State.feedPops
    grind [queueTake, wakeIf]

theorem State.Inv.restorePhaser (hs : s.Inv) (pa n) : (s.restorePhaser pa n).Inv := by
  unfold State.restorePhaser
  grind [foldl_inv, phaser, putPhaser, feedPops]

theorem State.Inv.readSpan (hs : s.Inv) (g tid task ps fuel va n) : (s.readSpan g tid task ps fuel va n).1.Inv := by
  induction fuel generalizing s va n with
  | zero =>
    unfold State.readSpan
    grind [readMem]
  | succ n' ih =>
    unfold State.readSpan
    grind [readMem]

theorem State.Inv.writeSpan (hs : s.Inv) (g tid ps w launch fuel va n v) : (s.writeSpan g tid ps w launch fuel va n v).1.Inv := by
  induction fuel generalizing s va n v with
  | zero =>
    unfold State.writeSpan
    grind [writeMem]
  | succ n' ih =>
    unfold State.writeSpan
    grind [writeMem]

theorem State.Inv.copyRun (hs : s.Inv) (g fuel c limit) : (s.copyRun g fuel c limit).1.Inv := by
  induction fuel generalizing s c limit with
  | zero =>
    unfold State.copyRun
    grind [readSpan, writeSpan]
  | succ n' ih =>
    unfold State.copyRun
    grind [readSpan, writeSpan]

theorem State.Inv.setCopy (hs : s.Inv) (g i c) : (s.setCopy g i c).Inv := hs

theorem State.Inv.copyScan (hs : s.Inv) (v dc dst src n) : Ends (fun p => p.1.Inv ∧ IfSome Stop.Inv p.2.2.2) (s.copyScan v dc dst src n) := by
  unfold State.copyScan
  refine (hs.scanPages ..).bind fun p ⟨hp, hd⟩ => (hp.scanPages ..).bind fun q ⟨hq, hs⟩ => .ok ⟨hq, IfSome.or ?_ hs⟩
  split
  · exact .some (Cls.err_inv ..)
  · exact hd

theorem raiseLate_inv {e} (he : IfSome Stop.Inv e) : Ends (fun _ => True) (raiseLate e) := by
  unfold raiseLate
  grind [Ends.ok_iff, Ends.error_iff, IfSome.some_iff]

theorem State.Inv.sealedScan (hs : s.Inv) (v sp dc src n) : Ends (fun p => p.1.Inv ∧ IfSome Stop.Inv p.2.2.2) (s.sealedScan v sp dc src n) := by
  unfold State.sealedScan
  grind [Ends.ok_iff, Ends.error_iff, Stop.Inv, except_bind, IfSome.some_iff, IfSome.none, IfOk.ok_iff, IfOk.error, State.inv_mk,
    xlate,
    scanPages]

theorem State.Inv.veil (hs : s.Inv) (j t dp dst n) : (s.veil j t dp dst n).Inv := by
  unfold State.veil
  grind [setHandle]

theorem State.Inv.releaseEntry (hs : s.Inv) (key g l ws) : (s.releaseEntry key g l ws).Inv := by
  unfold State.releaseEntry
  extract_lets src dst n h task code base fail d v checked
  have hf : ∀ pa, (fail s pa).Inv := fun _ => hs.putEvent ..
  have hc : Ends (fun p => p.1.Inv) checked :=
    (hs.copyScan ..).bind fun p hp => (hp.1.sealedScan ..).bind fun q hq => (raiseLate_inv (hp.2.or hq.2)).bind fun _ _ => .ok hq.1
  clear_value fail checked
  grind [Ends.ok_iff, changeHandle, veil, modCluster]

theorem State.Inv.releasePattern (hs : s.Inv) (key) : (s.releasePattern key).Inv := by
  unfold State.releasePattern
  grind [State.inv_mk, setLaunch]

theorem State.Inv.pumpReleased (hs : s.Inv) (g fuel) : (s.pumpReleased g fuel).Inv := by
  induction fuel generalizing s with
  | zero =>
    unfold State.pumpReleased
    grind [State.inv_mk, releaseEntry]
  | succ n' ih =>
    unfold State.pumpReleased
    grind [State.inv_mk, releaseEntry]

theorem State.Inv.pumpCluster (hs : s.Inv) (g) : (s.pumpCluster g).Inv := hs.pumpReleased ..

theorem State.Inv.copyFails (hs : s.Inv) (g i c cause pa) : (s.copyFails g i c cause pa).Inv := by
  unfold State.copyFails
  grind [setCopy, changeHandle, pumpCluster, putEvent]

theorem State.Inv.copyAdvance (hs : s.Inv) (g i n) : (s.copyAdvance g i n).Inv := by
  unfold State.copyAdvance
  grind [copyRun, phaserDecrement, copyFails, setCopy, pumpCluster, changeHandle]

theorem State.Inv.patternStep (hs : s.Inv) (key c) : (s.patternStep key c).Inv := by
  unfold State.patternStep
  grind [pumpCluster, releasePattern, setLaunch]

/-! ### Machine/SBuf -/

theorem State.Inv.rangePiece (hs : s.Inv) (g inv x n) : (s.rangePiece g inv x n).Inv := by
  unfold State.rangePiece
  grind [foldl_inv, evictSectors, landVictims, modCore, writeBack]

theorem State.Inv.discardLine (hs : s.Inv) (g line) : (s.discardLine g line).Inv := by
  unfold State.discardLine
  grind [foldl_inv, leaveSectors, releaseFrom]

theorem State.Inv.discard (hs : s.Inv) (t) : (s.discard t).Inv := by
  unfold State.discard
  grind [foldl_inv, tilePush, leaveSectors, setTile, discardLine]

theorem State.Inv.releaseTile (hs : s.Inv) (g pa task) : (s.releaseTile g pa task).Inv := by
  unfold State.releaseTile
  grind [releaseFrom]

theorem State.Inv.traceRecord (hs : s.Inv) (cid task w0 w1) : (s.traceRecord cid task w0 w1).Inv := hs.putRecord ..

theorem State.Inv.stepMark (hs : s.Inv) (cid task step) : (s.stepMark cid task step).Inv := by
  unfold State.stepMark
  grind [foldl_inv, putRecord, modDie]

theorem State.Inv.dropEntry (hs : s.Inv) (k i) : (s.dropEntry k i).Inv := hs

theorem State.Inv.startForward (hs : s.Inv) (k i) : (s.startForward k i).Inv := by
  unfold State.startForward
  grind [dropEntry, takeTile, setTile, modCore, putEvent]

theorem State.Inv.vecRecord (hs : s.Inv) (cid task pc fails) : (s.vecRecord cid task pc fails).Inv := by
  unfold State.vecRecord
  grind [putEvent]

theorem State.Inv.elemDone (hs : s.Inv) (k e fail) : (s.elemDone k e fail).Inv := by
  unfold State.elemDone
  grind [vecRecord, modCore]

theorem State.Inv.performPosted (hs : s.Inv) (k i) : (s.performPosted k i).Inv := by
  unfold State.performPosted
  grind [modCore, elemDone, writeMem]

theorem State.Inv.victimTimeout (hs : s.Inv) (g i done) : (s.victimTimeout g i done).Inv := by
  unfold State.victimTimeout
  grind [postedTimeout, mergeVictim, modCluster]

theorem State.Inv.expireVictims (hs : s.Inv) (g ls fuel) : (s.expireVictims g ls fuel).Inv := by
  induction fuel generalizing s with
  | zero =>
    unfold State.expireVictims
    grind [State.inv_mk, victimTimeout]
  | succ n' ih =>
    unfold State.expireVictims
    grind [State.inv_mk, victimTimeout]

theorem State.Inv.postedEnds (hs : s.Inv) (k i performed) : (s.postedEnds k i performed).Inv := by
  unfold State.postedEnds
  grind [modCore, elemDone, postedTimeout, performPosted]

theorem State.Inv.drainPosted (hs : s.Inv) (cid fuel) : (s.drainPosted cid fuel).Inv := by
  have hn : ∀ {s : State}, s.Inv → ∀ t, ({ s with now := t } : State).Inv := fun h _ => h
  induction fuel generalizing s with
  | zero => exact hs
  | succ n ih =>
    unfold State.drainPosted
    grind [performPosted, postedEnds]

theorem State.Inv.performEntry (hs : s.Inv) (k i) : (s.performEntry k i).Inv := by
  have hp : ∀ {s : State}, s.Inv → ∀ g inv (ps : List (Xlat × Nat)), (ps.foldl (fun s (x, n) => s.rangePiece g inv x n) s).Inv :=
    fun h g inv ps => foldl_inv (fun _ _ h => h.rangePiece ..) h ps
  unfold State.performEntry
  split
  · exact hs
  rename_i e _
  extract_lets g s1
  have h1 : s1.Inv := .ite ((hs.settleAcc _).drainPosted ..) hs
  clear_value s1
  cases e.kind with
  | store x n d =>
    exact .ite ((h1.dropEntry ..).modCore ..) (((h1.dropEntry ..).writeMem ..).restorePhaser ..)
  | range inv ps => exact .ite ((hp h1 ..).dropEntry ..) ((hp h1 ..).modCore ..)
  | written ls => exact (h1.expireVictims ..).dropEntry ..
  | disct t => exact (h1.dropEntry ..).discard ..
  | trel pa => exact (h1.dropEntry ..).releaseTile ..
  | tfwd pa a b c started =>
    refine .ite ?_ (h1.startForward ..)
    split
    · exact h1.tilePush ..
    · exact h1.dropEntry ..
  | cpstep l c => exact (h1.dropEntry ..).patternStep ..
  | cpmark st => exact (h1.dropEntry ..).stepMark ..
  | trace a b => exact (h1.dropEntry ..).traceRecord ..

theorem State.Inv.storeExpires (hs : s.Inv) (k i pa done) : (s.storeExpires k i pa done).Inv := by
  unfold State.storeExpires
  grind [postedTimeout, performEntry, dropEntry]

theorem State.Inv.drainEntries (hs : s.Inv) (cid fuel) : (s.drainEntries cid fuel).Inv := by
  induction fuel generalizing s with
  | zero =>
    unfold State.drainEntries
    grind [performEntry]
  | succ n' ih =>
    unfold State.drainEntries
    grind [performEntry]

theorem State.Inv.drainStores (hs : s.Inv) (cid) : (s.drainStores cid).Inv := (hs.drainEntries ..).drainPosted ..
theorem State.Inv.settle (hs : s.Inv) (cid) : (s.settle cid).Inv := (hs.drainStores ..).settleAcc ..
theorem State.Inv.settleMe (hs : s.Inv) : s.settleMe.Inv := hs.settle ..

theorem State.Inv.makeRoom (hs : s.Inv) (k) : (s.makeRoom k).Inv := by
  unfold State.makeRoom
  grind [performEntry]

theorem State.Inv.enter (hs : s.Inv) (kind rel) : (s.enter kind rel).Inv := hs.makeRoom ..
theorem State.Inv.ownFirst (hs : s.Inv) (cid pa n) : (s.ownFirst cid pa n).Inv := .ite (hs.drainStores ..) hs

theorem State.Inv.loadBytes (hs : s.Inv) (x n) : (s.loadBytes x n).1.Inv := by
  unfold State.loadBytes
  grind [drainStores, readMem]

end Sys2Proof.Machine
end

