-- ==== Sys2Proof/Proofs/KeepsInvariants/Threads.lean ====
section
/-! Contexts, tasks and launches: saving and restoring, traps, CSRs, the dispatcher, debugging and the configuration words keep the invariants. -/

namespace Sys2Proof.Machine

open State.Inv

variable {s : State}

/-! ### Machine/Save -/

theorem State.Inv.setVreg (hs : s.Inv) (g n v) : (s.setVreg g n v).Inv := hs

theorem State.Inv.homeWriteLines (hs : s.Inv) (pa v w n) : (s.homeWriteLines pa v w n).Inv := by
  induction n generalizing s pa v with
  | zero =>
    unfold State.homeWriteLines
    grind [homeWrite]
  | succ n' ih =>
    unfold State.homeWriteLines
    grind [homeWrite]

theorem State.Inv.homeReadLines (hs : s.Inv) (pa n) : (s.homeReadLines pa n).1.Inv := by
  induction n generalizing s pa with
  | zero => exact hs
  | succ n ih =>
    have h1 := hs.homeRead pa 128
    unfold State.homeReadLines
    generalize s.homeRead pa 128 = q at h1 ⊢
    obtain ⟨t, v⟩ := q
    have h2 := ih h1 (pa + 128)
    show (match t.homeReadLines (pa + 128) n with | (u, r) => (u, v + r * 2 ^ 1024)).1.Inv
    generalize t.homeReadLines (pa + 128) n = r at h2 ⊢
    obtain ⟨u, w⟩ := r
    show u.Inv
    exact h2

theorem State.Inv.openWindow (hs : s.Inv) (cid base n) : (s.openWindow cid base n).Inv := (hs.modCluster ..).modCtx ..

theorem State.Inv.spill (hs : s.Inv) (v) : (s.spill v).Inv := by
  have h1 := hs.homeReadLines v.fixedAt 16
  unfold State.spill
  generalize s.homeReadLines v.fixedAt 16 = q at h1 ⊢
  grind [homeWriteLines, homeWrite, State.inv_mk]

theorem State.Inv.slotFreed (hs : s.Inv) (cid) : (s.slotFreed cid).Inv := .ite hs hs

theorem State.Inv.saveContext (hs : s.Inv) (cid) : IfSome (fun p => p.1.Inv) (s.saveContext cid) := by
  have hw : ∀ (s : State) (pa v w n), s.Inv → (s.homeWriteLines pa v w n).Inv := fun _ pa v w n h => h.homeWriteLines pa v w n
  -- the definition, and the functions that its matches read, become variables: the kernel would evaluate the matches on open terms
  suffices H : ∀ f, f = State.saveContext → IfSome (fun p => p.1.Inv) (f s cid) from H _ rfl
  intro f hf
  delta State.saveContext at hf
  subst hf
  generalize State.homeWriteLines = write at hw ⊢
  generalize State.saveSlots = slots
  revert write slots
  refine id fun write hw slots => ?_
  beta_reduce
  cases slots s cid with
  | none => exact .none
  | some q =>
    refine .some (State.Inv.slotFreed (State.Inv.modCtx (State.Inv.of_eq ?_ rfl rfl) _ _) _)
    refine hw _ _ _ _ _ (hw _ _ _ _ _ (foldl_inv (fun _ v h => h.spill v) ?_ _))
    exact ((((hs.settle cid).flushCtx cid).decideSends ..).expireSends ..).loseIf ..

theorem State.Inv.modSaved (hs : s.Inv) (key f) : (s.modSaved key f).Inv := hs
theorem State.Inv.dropSaved (hs : s.Inv) (key) : (s.dropSaved key).Inv := hs
theorem State.Inv.moveSlots (hs : s.Inv) (old new) : (s.moveSlots old new).Inv := .ite hs hs

theorem State.Inv.restoreInto (hs : s.Inv) (v cid) : IfSome State.Inv (s.restoreInto v cid) := by
  have hr : ∀ (s : State) (pa n), s.Inv → (s.homeReadLines pa n).1.Inv := fun _ pa n h => h.homeReadLines pa n
  -- the definition, and the functions that its matches read, become variables: the kernel would evaluate the matches on open terms
  suffices H : ∀ f, f = State.restoreInto → IfSome State.Inv (f s v cid) from H _ rfl
  intro f hf
  delta State.restoreInto at hf
  subst hf
  generalize State.homeReadLines = read at hr ⊢
  generalize Ctx.winSize = size
  revert read size
  refine id fun read hr size => ?_
  beta_reduce
  extract_lets s1 v1
  have h1 : s1.Inv := .ite hs (hs.spill v)
  have h2 := hr s1 v1.fixedAt 16 h1
  generalize read s1 v1.fixedAt 16 = q at h2 ⊢
  obtain ⟨s2, fx⟩ := q
  replace h2 : s2.Inv := h2
  dsimp -zeta only
  extract_lets c0 c1 n block run wait c2 s3
  have h3 : s3.Inv := h2.setCtx ..
  clear_value s3
  generalize block = o
  cases o with
  | none => exact .none
  | some base =>
    dsimp only
    refine .some (State.Inv.dropSaved (.ite (State.Inv.moveSlots ?_ ..) (State.Inv.modCtx (State.Inv.modCore ?_ ..) ..)) _)
    · exact .ite h3 (foldl_inv (fun _ _ h => h.setVreg ..) (State.Inv.modCtx (hr _ _ _ (h3.openWindow ..)) ..) _)
    · exact .ite h3 (foldl_inv (fun _ _ h => h.setVreg ..) (State.Inv.modCtx (hr _ _ _ (h3.openWindow ..)) ..) _)

theorem State.Inv.pushFault (hs : s.Inv) (d id fx mm cause flags num stval sepc core rec_) :
    (s.pushFault d id fx mm cause flags num stval sepc core rec_).1.Inv :=
  (hs.homeWrite ..).putEvent ..

theorem State.Inv.dropRequest (hs : s.Inv) (d) : (s.dropRequest d).Inv := hs

theorem State.Inv.parkContext (hs : s.Inv) (cid) : (s.parkContext cid).Inv := by
  have hv : IfSome (fun p => p.1.Inv) (s.saveContext cid) := hs.saveContext cid
  suffices H : ∀ f, f = State.parkContext → (f s cid).Inv from H _ rfl
  intro f hf
  delta State.parkContext at hf
  subst hf
  generalize State.saveContext = save at hv ⊢
  revert save
  refine id fun save hv => ?_
  dsimp only
  split
  · exact hs
  split
  · exact hs.modCtx ..
  generalize save s cid = o at hv ⊢
  cases hv with
  | none => exact (hs.dropRequest _).modCtx ..
  | some h => exact (h.pushFault ..).modSaved ..

theorem State.Inv.writeDump (hs : s.Inv) (cid timeout command) : IfSome State.Inv (s.writeDump cid timeout command) := by
  unfold State.writeDump
  grind [IfSome.some_iff, IfSome.none, homeWriteLines, homeWrite, modDie]

/-! ### Machine/Ops -/

theorem State.Inv.retireCtx (hs : s.Inv) (cid) : (s.retireCtx cid).Inv := hs.modCtx ..
theorem State.Inv.retire (hs : s.Inv) : s.retire.Inv := hs.retireCtx ..
theorem State.Inv.retireTo (hs : s.Inv) (pc) : (s.retireTo pc).Inv := hs.modCtx ..
theorem State.Inv.commandEnds (hs : s.Inv) (cid) : (s.commandEnds cid).Inv := hs

theorem State.Inv.raiseCtx (hs : s.Inv) (cid cause v) : (s.raiseCtx cid cause v).Inv := by
  unfold State.raiseCtx
  grind [setCtx, dropRequest, commandEnds]

theorem State.Inv.raise (hs : s.Inv) (cause tval) : (s.raise cause tval).Inv := hs.raiseCtx ..

theorem State.Inv.haltHit (hs : s.Inv) (cid) : (s.haltHit cid).Inv := by
  unfold State.haltHit
  grind [modCtx, commandEnds, modDie]

theorem State.Inv.haltNow (hs : s.Inv) (cid) : (s.haltNow cid).Inv := (hs.modCtx ..).commandEnds ..

theorem State.Inv.finish (hs : s.Inv) {r} (hr : Ends State.Inv r) : (s.finish r).Inv := by
  unfold State.finish
  grind [Ends.ok_iff, Ends.error_iff, Stop.Inv, retire, retireTo, haltHit, raise]

theorem State.Inv.done (hs : s.Inv) {r} (hr : Ends State.Inv r) : OutInv (s.done r) := by
  unfold State.done
  grind [OutInv.next_iff, finish]

theorem trap_inv {α : Type} {P : α → Prop} (cause v) : Ends P (trap cause v) := .error trivial
theorem illegal_inv {α : Type} {P : α → Prop} (i) : Ends P (illegal i) := trap_inv ..

theorem need_inv (b cause v) : Ends (fun _ => True) (need b cause v) := by
  unfold need
  grind [Ends.ok_iff, trap_inv]

theorem State.Inv.zeroWaitMe (hs : s.Inv) : s.zeroWaitMe.Inv := hs

theorem State.Inv.watch (_ : s.Inv) (store va n) : Ends (fun _ => True) (s.watch store va n) := by
  unfold State.watch
  grind [Ends.ok_iff, Ends.error_iff, Stop.Inv, trap_inv]

theorem State.Inv.permit (hs : s.Inv) (x k store n) : Ends (fun _ => True) (s.permit x k store n) := by
  unfold State.permit
  grind [except_bind, need_inv, watch]

/-! ### Machine/Operands -/

theorem State.Inv.checkRoom (hs : s.Inv) : Ends (fun _ => True) s.checkRoom := by
  unfold State.checkRoom
  grind [Ends.ok_iff, Ends.error_iff, Stop.Inv]

theorem State.Inv.checkWindow (hs : s.Inv) (fs) : Ends (fun _ => True) (s.checkWindow fs) := by
  unfold State.checkWindow
  grind [trap_inv, checkRoom]

theorem State.Inv.setVr (hs : s.Inv) (f v) : (s.setVr f v).Inv := hs

/-! ### Machine/Csr -/

theorem State.Inv.writeQvtype (hs : s.Inv) (cid v) : (s.writeQvtype cid v).Inv := hs.modCtx ..

theorem State.Inv.writeQvwin (hs : s.Inv) (cid v) : (s.writeQvwin cid v).Inv := by
  unfold State.writeQvwin
  grind [modCtx, openWindow]

theorem State.Inv.writeQvstat (hs : s.Inv) (cid v) : (s.writeQvstat cid v).Inv := hs.modCtx ..
theorem State.Inv.writeQmquota (hs : s.Inv) (v) : (s.writeQmquota v).Inv := hs

theorem State.Inv.csrWrite (hs : s.Inv) (cid a v) : (s.csrWrite cid a v).Inv := by
  have h1 : ∀ w, ({ s with qmstage := w } : State).Inv := fun _ => hs
  have h2 : ∀ w, ({ s with qmtmo := w } : State).Inv := fun _ => hs
  have h3 : ∀ w, ({ s with qmaging := w } : State).Inv := fun _ => hs
  have h4 : ∀ w, ({ s with qmresid := w } : State).Inv := fun _ => hs
  simp only [State.csrWrite, apply_ite State.Inv, hs.modCtx, hs.modCore, hs.modCluster, hs.writeQvtype, hs.writeQvwin, hs.writeQvstat,
    hs.writeQmquota, hs, h1, h2, h3, h4, ite_self]

theorem State.Inv.settleQvstat (hs : s.Inv) (cid a) : (s.settleQvstat cid a).Inv := .ite (hs.drainVector ..) hs

theorem execCsrAccess_inv (hs : s.Inv) (op isImm rd src csr) : OutInv (execCsrAccess op isImm rd src csr s) := by
  unfold execCsrAccess
  grind [Ends.ok_iff, done, illegal_inv, settleQvstat, csrWrite, setXr]

/-! ### Machine/Tasks -/

theorem State.Inv.newId (hs : s.Inv) (key die) : (s.newId key die).1.Inv := by
  unfold State.newId
  grind [foldl_inv, modLaunch]

theorem State.Inv.dispRead (hs : s.Inv) (die satp va n) : IfSome (fun p => p.1.Inv) (s.dispRead die satp va n) := by
  unfold State.dispRead
  grind [Ends.ok_iff, IfSome.some_iff, IfSome.none, accessV, homeReadX]

theorem State.Inv.dispWrite (hs : s.Inv) (die satp va n v) : IfSome State.Inv (s.dispWrite die satp va n v) := by
  unfold State.dispWrite
  grind [Ends.ok_iff, IfSome.some_iff, IfSome.none, accessV, homeWriteX]

theorem State.Inv.dispReadLines (hs : s.Inv) (die satp va n) : IfSome (fun p => p.1.Inv) (s.dispReadLines die satp va n) := by
  induction n generalizing s va with
  | zero => exact .some hs
  | succ n ih =>
    unfold State.dispReadLines
    generalize 2 ^ 512 = c
    exact (hs.dispRead die satp va 64).bind fun p hp => (ih hp _).bind fun q hq => .some hq

theorem State.Inv.parkRecord (hs : s.Inv) (die t core counterPa task) : (s.parkRecord die t core counterPa task).Inv :=
  .ite (hs.putEvent ..) (hs.pushFault ..)

theorem State.Inv.ringAt (hs : s.Inv) (k j write) : IfSome (fun p => p.1.Inv) (s.ringAt k j write) := by
  unfold State.ringAt
  grind [Ends.ok_iff, IfSome.some_iff, IfSome.none, accessV]

theorem State.Inv.ringEntry (hs : s.Inv) (k i) : (s.ringEntry k i).1.Inv := by
  unfold State.ringEntry
  grind [IfSome.some_iff, ringAt, readMem]

theorem State.Inv.ringFrom (hs : s.Inv) (k i n) : (s.ringFrom k i n).1.Inv := by
  induction n generalizing s i with
  | zero =>
    unfold State.ringFrom
    grind [ringEntry]
  | succ n' ih =>
    unfold State.ringFrom
    grind [ringEntry]

theorem State.Inv.takenBack (hs : s.Inv) (k es) : (s.takenBack k es).1.Inv := by
  unfold State.takenBack
  refine List.foldlRecOn es (motive := fun q : State × List TaskEntry => q.1.Inv) _ hs fun q hq e _ => ?_
  split
  · exact hq
  · exact hq.parkRecord ..

theorem State.Inv.takeBack (hs : s.Inv) (k) : (s.takeBack k).Inv := by
  unfold State.takeBack
  grind [ringFrom, modCore, takenBack]

theorem State.Inv.refillBobbin (hs : s.Inv) (k) : (s.refillBobbin k).Inv := .ite (hs.takeBack ..) hs

theorem State.Inv.ringCopy (hs : s.Inv) (k i j) : (s.ringCopy k i j).Inv := by
  unfold State.ringCopy
  grind [IfSome.some_iff, ringAt, readMem, writeMem]

theorem State.Inv.ringKeep (hs : s.Inv) (k keep) : (s.ringKeep k keep).Inv := by
  unfold State.ringKeep
  grind [foldl_inv, ringCopy, modCore]

theorem State.Inv.mapStagings (hs : s.Inv) (f) : (s.mapStagings f).Inv := hs
theorem State.Inv.closeStaging (hs : s.Inv) (id core) : (s.closeStaging id core).Inv := hs

theorem State.Inv.stagedOut (hs : s.Inv) (g all) : (s.stagedOut g all).Inv := by
  unfold State.stagedOut
  grind [foldl_inv, firstOut]

theorem State.Inv.cancelStaging (hs : s.Inv) (id all) : (s.cancelStaging id all).Inv := by
  unfold State.cancelStaging
  grind [State.inv_mk, stagedOut, mapStagings]

theorem State.Inv.wakeCluster (hs : s.Inv) (g) : (s.wakeCluster g).Inv := .ite hs hs

theorem State.Inv.startTask (hs : s.Inv) (t cid eff) : (s.startTask t cid eff).Inv := by
  have hr : ∀ (s : State) (v) (cid), s.Inv → IfSome State.Inv (s.restoreInto v cid) := fun _ v cid h => h.restoreInto v cid
  unfold State.startTask
  -- a variable, so that the kernel does not evaluate it (as in `State.Inv.slotTake`)
  generalize State.restoreInto = restore at hr ⊢
  revert restore
  refine id fun restore hr => ?_
  grind [IfSome.some_iff, setLaunch, closeStaging, wakeCluster, edge, modCore, setCtx, patternStep]

theorem State.Inv.declareWs (hs : s.Inv) (core key id satp ws) : (s.declareWs core key id satp ws).Inv := by
  unfold State.declareWs
  grind [modDie]

theorem State.Inv.declareStaging (hs : s.Inv) (core t) : (s.declareStaging core t).Inv := .ite hs (hs.declareWs ..)
theorem State.Inv.enqueueReady (hs : s.Inv) (d t) : (s.enqueueReady d t).Inv := hs

theorem State.Inv.takeReady (hs : s.Inv) (cid i t) : (s.takeReady cid i t).Inv := by
  unfold State.takeReady
  grind [declareStaging, startTask, modDie]

theorem State.Inv.takeOwn (hs : s.Inv) (cid t) : (s.takeOwn cid t).Inv := ((hs.modCore ..).startTask ..).refillBobbin ..

theorem State.Inv.ownEntry (hs : s.Inv) (k) : (s.ownEntry k).1.Inv := by
  unfold State.ownEntry
  grind [takeBack]

theorem State.Inv.dispatchTo (hs : s.Inv) (cid) : (s.dispatchTo cid).Inv := by
  unfold State.dispatchTo
  grind [startTask, modCore, ownEntry, takeReady, takeOwn]

theorem State.Inv.counterAt (hs : s.Inv) (v va) : IfSome (fun p => p.1.Inv) (s.counterAt v va) := by
  unfold State.counterAt
  grind [IfSome.some_iff, IfSome.none, IfOk.ok_iff, xlate]

theorem State.Inv.releaseRecord (hs : s.Inv) (die dec counterPa recVa code) : (s.releaseRecord die dec counterPa recVa code).Inv := by
  unfold State.releaseRecord
  grind [IfSome.some_iff, parkRecord, newId, modLaunch, dispRead, enqueueReady, edge]

theorem State.Inv.decrement (hs : s.Inv) (die dec) : (s.decrement die dec).Inv := by
  unfold State.decrement
  grind [IfSome.some_iff, putEvent, counterAt, homeReadX, homeWriteX, releaseRecord]

/-! ### Machine/Launches -/

theorem State.Inv.queueHeader (hs : s.Inv) (pa) : IfSome (fun p => p.1.Inv) (s.queueHeader pa) := by
  unfold State.queueHeader
  grind [IfSome.some_iff, IfSome.none, homeRead]

theorem State.Inv.queueFault (hs : s.Inv) (d hdr slot reason) : (s.queueFault d hdr slot reason).Inv := hs.putEvent ..

theorem State.Inv.doorbellAt (hs : s.Inv) (d hdr notice port) : (s.doorbellAt d hdr notice port).Inv := by
  unfold State.doorbellAt
  grind [IfSome.some_iff, queueHeader, queueFault, modDie]

theorem State.Inv.readLaunchRecord (hs : s.Inv) (die satp va) : IfSome (fun p => p.1.Inv) (s.readLaunchRecord die satp va) :=
  (hs.dispReadLines ..).bind fun _ h => .some h

theorem State.Inv.completionOf (hs : s.Inv) (l status prodTask code event) : (s.completionOf l status prodTask code event).Inv := by
  unfold State.completionOf
  grind [IfSome.some_iff, dispWrite, queueFault, putEvent]

theorem State.Inv.declareLaunch (hs : s.Inv) (key) : (s.declareLaunch key).Inv := by
  unfold State.declareLaunch
  grind [foldl_inv, declareWs]

theorem State.Inv.admitLaunch (hs : s.Inv) (l members) : (s.admitLaunch l members).Inv := by
  unfold State.admitLaunch
  extract_lets key all keys checks shape status s'
  have h : s'.Inv := hs
  clear_value s'
  split
  · exact foldl_inv (fun _ _ h => h.completionOf ..) h _
  · exact foldl_inv (fun _ _ h => (h.setLaunch ..).declareLaunch ..) h _

theorem State.Inv.takeRecord (hs : s.Inv) (l) : IfSome State.Inv (s.takeRecord l) := by
  unfold State.takeRecord
  refine (hs.readLaunchRecord ..).bind fun ⟨t, w⟩ ht => ?_
  dsimp only
  split
  · exact .some (State.Inv.admitLaunch ht ..)
  · exact .some ((State.Inv.withLseq ht _).completionOf ..)

theorem State.Inv.takeSlot (hs : s.Inv) (d hdr w q lseq) : (s.takeSlot d hdr w q lseq).Inv := by
  unfold State.takeSlot
  grind [IfSome.some_iff, State.inv_mk, homeRead, homeWrite, modDie, queueFault, takeRecord, putEvent]

theorem State.Inv.slotTake (hs : s.Inv) (d j) : (s.slotTake d j).Inv := by
  have hr : ∀ (s : State) (pa n), s.Inv → (s.homeRead pa n).1.Inv := fun _ pa n h => h.homeRead pa n
  unfold State.slotTake
  -- the read becomes a variable: the kernel would evaluate its test of the address on open terms; `id` keeps it one in the proof term
  generalize State.homeRead = read at hr ⊢
  revert read
  refine id fun read hr => ?_
  grind [IfSome.some_iff, queueHeader, queueFault, modDie, takeSlot, withLseq]

theorem State.Inv.startControl (hs : s.Inv) (key l r lag) : (s.startControl key l r lag).Inv := by
  unfold State.startControl
  grind [closeStaging, setCtx, modCluster, edge]

theorem State.Inv.pushEntry (hs : s.Inv) (k t) : (s.pushEntry k t).Inv := hs

theorem State.Inv.startLaunch (hs : s.Inv) (key lag) : (s.startLaunch key lag).Inv := by
  unfold State.startLaunch
  split
  · exact hs
  rename_i l _
  extract_lets l' s1 s2 s3 s4
  have h2 : s2.Inv := foldl_inv (fun _ _ h => h.startControl ..) (hs.setLaunch ..) _
  have h3 : s3.Inv := by
    dsimp only [s3]
    split
    · exact h2.setTT ..
    · exact h2
  have h4 : s4.Inv := by
    dsimp only [s4]
    split
    · exact h3
    · split
      · exact h3
      · split
        · exact h3
        · exact (h3.pushEntry ..).declareStaging ..
  split
  · exact h4
  · exact h4.patternStep ..

theorem State.Inv.launchStart (hs : s.Inv) (key) : (s.launchStart key).Inv := by
  unfold State.launchStart
  grind [IfSome.some_iff, foldl_inv, State.inv_mk, dispWrite, startLaunch]

theorem State.Inv.endLaunch (hs : s.Inv) (key status prodTask code) : (s.endLaunch key status prodTask code).Inv := by
  unfold State.endLaunch
  grind [foldl_inv, State.inv_mk, completionOf, modLaunch]

theorem State.Inv.checkDone (hs : s.Inv) (key task core) : (s.checkDone key task core).Inv := by
  unfold State.checkDone
  grind [endLaunch]

theorem State.Inv.tasksDone (hs : s.Inv) (l task code) : (s.tasksDone l task code).Inv := by
  unfold State.tasksDone
  grind [foldl_inv, putEvent]

theorem State.Inv.taskGone (hs : s.Inv) (key task core) : (s.taskGone key task core).Inv := by
  unfold State.taskGone
  grind [setLaunch, tasksDone, checkDone]

theorem State.Inv.freeStackOf (hs : s.Inv) (t) : (s.freeStackOf t).Inv := by
  unfold State.freeStackOf
  grind [modLaunch]

theorem State.Inv.endContext (hs : s.Inv) (cid) : (s.endContext cid).Inv := by
  unfold State.endContext
  grind [flushCtx, dropRequest, slotFreed, modCtx, commandEnds, modCluster]

theorem State.Inv.writeLatch (hs : s.Inv) (cid v w) : (s.writeLatch cid v w).Inv := by
  unfold State.writeLatch
  grind [wakeIf, modCore]

theorem State.Inv.wakeHexit (hs : s.Inv) (k w) : (s.wakeHexit k w).Inv := .ite (hs.wakeIf ..) hs
theorem State.Inv.endHelper (hs : s.Inv) (cid v w) : (s.endHelper cid v w).Inv := ((hs.endContext ..).writeLatch ..).wakeHexit ..

theorem State.Inv.endControl (hs : s.Inv) (cid key rank task v) : (s.endControl cid key rank task v).Inv :=
  ((hs.endContext ..).modLaunch ..).checkDone ..

theorem State.Inv.completeTask (hs : s.Inv) (t core) : (s.completeTask t core).Inv := by
  unfold State.completeTask
  grind [freeStackOf, taskGone, modDie]

theorem State.Inv.dropEntryOf (hs : s.Inv) (k id) : (s.dropEntryOf k id).Inv := (hs.modCore ..).refillBobbin ..

theorem State.Inv.taskExit (hs : s.Inv) (cid t) : (s.taskExit cid t).Inv := by
  unfold State.taskExit
  grind [endContext, modCore, completeTask, dropEntryOf]

theorem State.Inv.killTask (hs : s.Inv) (t core task) : (s.killTask t core task).Inv := (hs.freeStackOf ..).taskGone ..
theorem State.Inv.fqState (hs : s.Inv) (p st d) : (s.fqState p st d).Inv := hs.homeWrite ..

theorem State.Inv.killSavedHelper (hs : s.Inv) (v) : (s.killSavedHelper v).Inv := by
  unfold State.killSavedHelper
  grind [fqState, homeRead, slotFreed, modCtx, dropSaved, wakeHexit, writeLatch]

theorem State.Inv.killNow (hs : s.Inv) (cid) : (s.killNow cid).Inv := by
  unfold State.killNow
  grind [drainStores, endHelper, endContext]

theorem State.Inv.killCtx (hs : s.Inv) (cid) : (s.killCtx cid).Inv := .ite (hs.killNow ..) (hs.modCtx ..)

theorem State.Inv.killHelpers (hs : s.Inv) (k) : (s.killHelpers k).Inv := by
  unfold State.killHelpers
  grind [foldl_inv, killCtx, killSavedHelper]

theorem State.Inv.finishKill (hs : s.Inv) (k) : (s.finishKill k).Inv := by
  unfold State.finishKill
  grind [killHelpers, endControl, dropSaved]

theorem State.Inv.killEntries (hs : s.Inv) (l) : (s.killEntries l).Inv := by
  unfold State.killEntries
  grind [foldl_inv, homeReadLines, fqState]

theorem State.Inv.clearMember (hs : s.Inv) (key) : (s.clearMember key).Inv := by
  unfold State.clearMember
  grind [foldl_inv, State.inv_mk, ringKeep, dropSaved, slotFreed, modCtx, killEntries]

theorem State.Inv.stopMember (hs : s.Inv) (key) : (s.stopMember key).Inv := by
  unfold State.stopMember
  grind [foldl_inv, setLaunch, killCtx, clearMember, endLaunch, tasksDone]

theorem State.Inv.ended (hs : s.Inv) (k key) : (s.ended k key).Inv := by
  unfold State.ended
  grind [finishKill, stopMember]

theorem State.Inv.endKilled (hs : s.Inv) (cid) : (s.endKilled cid).Inv := (hs.killNow ..).ended ..

theorem State.Inv.stopLaunch (hs : s.Inv) (key) : (s.stopLaunch key).Inv := by
  unfold State.stopLaunch
  grind [foldl_inv, stopMember]

theorem State.Inv.ttLaunch (hs : s.Inv) (i waits) : (s.ttLaunch i waits).Inv := by
  unfold State.ttLaunch
  grind [IfSome.some_iff, xlate, takeRecord, setTT]

theorem State.Inv.ungate (hs : s.Inv) (gs) : (s.ungate gs).Inv := by
  unfold State.ungate
  grind [foldl_inv, modCluster]

theorem State.Inv.ttFire (hs : s.Inv) (i) : (s.ttFire i).Inv := by
  unfold State.ttFire
  grind [foldl_inv, ungate, setTT, ttLaunch, stopLaunch]

/-! ### Machine/Preempt -/

theorem State.Inv.requestStop (hs : s.Inv) (cid q) : (s.requestStop cid q).Inv := hs.modCtx ..
theorem State.Inv.askStop (hs : s.Inv) (cid q) : (s.askStop cid q).Inv := .ite (hs.requestStop ..) hs

theorem State.Inv.preemptWrite (hs : s.Inv) (d v) : (s.preemptWrite d v).Inv := by
  unfold State.preemptWrite
  grind [foldl_inv, dropRequest, askStop]

theorem State.Inv.requeue (hs : s.Inv) (d t key) : (s.requeue d t key).Inv := hs.cancelStaging ..

theorem State.Inv.afterSave (hs : s.Inv) (v q) : (s.afterSave v q).Inv := by
  unfold State.afterSave
  grind [dropEntryOf, modCluster, modSaved, requeue, startTask, modDie]

theorem State.Inv.holdSave (hs : s.Inv) (cid q) : (s.holdSave cid q).Inv := by
  have hv : IfSome (fun p => p.1.Inv) (s.saveContext cid) := hs.saveContext cid
  suffices H : ∀ f, f = State.holdSave → (f s cid q).Inv from H _ rfl
  intro f hf
  delta State.holdSave at hf
  subst hf
  generalize State.saveContext = save at hv ⊢
  revert save
  refine id fun save hv => ?_
  dsimp only
  split
  · exact hs.modCtx ..
  generalize save s cid = o at hv ⊢
  cases hv with
  | none => exact (hs.dropRequest _).modCtx ..
  | some h =>
    refine State.Inv.modSaved (State.Inv.pushFault ?_ ..) ..
    grind [dropEntryOf, cancelStaging]

theorem State.Inv.contextSave (hs : s.Inv) (cid) : (s.contextSave cid).Inv := by
  have hv : IfSome (fun p => p.1.Inv) (s.saveContext cid) := hs.saveContext cid
  suffices H : ∀ f, f = State.contextSave → (f s cid).Inv from H _ rfl
  intro f hf
  delta State.contextSave at hf
  subst hf
  generalize State.saveContext = save at hv ⊢
  revert save
  refine id fun save hv => ?_
  beta_reduce
  generalize save s cid = o at hv ⊢
  grind [IfSome.some_iff, endKilled, holdSave, dropRequest, modCtx, afterSave]

theorem State.Inv.parkEvent (hs : s.Inv) (cid) : (s.parkEvent cid).Inv := by
  unfold State.parkEvent
  grind [endKilled, parkContext, cancelStaging, dropEntryOf]

theorem State.Inv.restoreAt (hs : s.Inv) (v cid) : IfSome State.Inv (s.restoreAt v cid) := by
  refine (hs.restoreInto v cid).map fun t ht => ?_
  split
  · exact ht.edge ..
  · exact ht

theorem State.Inv.restoreAll (hs : s.Inv) (vs) : IfSome State.Inv (s.restoreAll vs) := by
  induction vs generalizing s with
  | nil => exact .some hs
  | cons v vs ih =>
    unfold State.restoreAll
    dsimp only
    split
    · exact (hs.restoreAt ..).bind fun t ht => ih ht
    · exact .none

theorem State.Inv.contextRestore (hs : s.Inv) (i) : (s.contextRestore i).Inv := by
  have ha := fun vs => (hs.restoreAll vs).getD hs
  have hb := fun v k => (hs.restoreAt v k).getD hs
  unfold State.contextRestore
  split
  · exact hs
  · exact .ite hs (.ite (.ite (ha _) hs) (.ite (hb ..) hs))

theorem State.Inv.displace (hs : s.Inv) (d i) : (s.displace d i).Inv := by
  unfold State.displace
  grind [requestStop]

theorem State.Inv.raiseCounters (hs : s.Inv) (v succ i n) : IfSome State.Inv (s.raiseCounters v succ i n) := by
  induction n generalizing s i with
  | zero => exact .some hs
  | succ n ih =>
    unfold State.raiseCounters
    refine (hs.counterAt ..).bind fun ⟨t, x⟩ ht => ?_
    dsimp only
    split
    · exact .none
    · exact ih (State.Inv.homeWriteX (State.Inv.homeReadX ht x 0 4) ..) _

theorem State.Inv.stealFrom (hs : s.Inv) (k victim es) : IfSome (fun p => p.1.Inv) (s.stealFrom k victim es) := by
  induction es with
  | nil =>
    unfold State.stealFrom
    grind [IfSome.some_iff, IfSome.none, ringEntry, modCore, cancelStaging, refillBobbin, raiseCounters, newId, modLaunch, modCtx]
  | cons a' l' ih =>
    unfold State.stealFrom
    grind [IfSome.some_iff, IfSome.none, ringEntry, modCore, cancelStaging, refillBobbin, raiseCounters, newId, modLaunch, modCtx]

theorem State.Inv.stealSearch (hs : s.Inv) (k victims) : IfSome (fun p => p.1.Inv) (s.stealSearch k victims) := by
  induction victims with
  | nil =>
    unfold State.stealSearch
    grind [IfSome.none, stealFrom]
  | cons a' l' ih =>
    unfold State.stealSearch
    grind [IfSome.none, stealFrom]

theorem State.Inv.stealEvent (hs : s.Inv) (cid) : (s.stealEvent cid).Inv := by
  unfold State.stealEvent
  grind [IfSome.some_iff, stealSearch, modCore]

theorem State.Inv.resumeEntry (hs : s.Inv) (p d w) : (s.resumeEntry p d w).Inv := by
  have hf := (hs.homeReadLines p 1).fqState p 1 d
  unfold State.resumeEntry
  generalize s.homeReadLines p 1 = q at hf ⊢
  dsimp only
  generalize q.1.fqState p 1 d = t at hf ⊢
  split
  · split
    · exact hf
    · split
      · exact (hf.modSaved ..).requeue ..
      · exact (hf.modSaved ..).modSaved ..
  · split
    · split
      · split
        · exact hf.parkRecord ..
        · split
          · exact hf.enqueueReady ..
          · exact hf.parkRecord ..
      · exact hf
    · exact hf

theorem State.Inv.killEntry (hs : s.Inv) (p d w) : (s.killEntry p d w).Inv := by
  have hf := (hs.homeReadLines p 1).fqState p 2 d
  unfold State.killEntry
  generalize s.homeReadLines p 1 = q at hf ⊢
  dsimp only
  generalize q.1.fqState p 2 d = t at hf ⊢
  split
  · split
    · split
      · exact hf.taskGone ..
      · exact hf
    · exact hf
  · split
    · exact (hf.dropSaved _).killTask ..
    · split
      · exact hf.killSavedHelper _
      · exact (hf.modSaved ..).finishKill _

theorem State.Inv.trimHorizon (hs : s.Inv) (k) : (s.trimHorizon k).Inv := by
  unfold State.trimHorizon
  grind [foldl_inv, cancelStaging]

theorem State.Inv.translateStage (hs : s.Inv) (d satp es) : (s.translateStage d satp es).1.Inv := by
  induction es generalizing s with
  | nil =>
    unfold State.translateStage
    grind [Ends.ok_iff, accessPages]
  | cons a' l' ih =>
    unfold State.translateStage
    grind [Ends.ok_iff, accessPages]

theorem State.Inv.stagingAdmit (hs : s.Inv) (d i) : (s.stagingAdmit d i).Inv := by
  unfold State.stagingAdmit
  grind [translateStage, modDie, modCluster]

theorem State.Inv.stageFill (hs : s.Inv) (g x tid excl) : (s.stageFill g x tid excl).Inv := .ite (hs.acquireLine ..) hs
theorem State.Inv.dropFills (hs : s.Inv) (g e) : (s.dropFills g e).Inv := hs

theorem State.Inv.stageCopy (hs : s.Inv) (g tid e task) : (s.stageCopy g tid e task).Inv := by
  unfold State.stageCopy
  grind [foldl_inv, readSpan, homeWrite]

theorem State.Inv.stagingComplete (hs : s.Inv) (d i n) : (s.stagingComplete d i n).Inv := by
  unfold State.stagingComplete
  grind [foldl_inv, stageCopy, dropFills, stageFill, firstOut, modCtx, pumpCluster, modDie]

theorem State.Inv.stagingDeadline (hs : s.Inv) (d i) : (s.stagingDeadline d i).Inv := by
  unfold State.stagingDeadline
  grind [modDie]

theorem State.Inv.stgreqTimeout (hs : s.Inv) (d i) : (s.stgreqTimeout d i).Inv := by
  unfold State.stgreqTimeout
  grind [modDie]

theorem State.Inv.enterSlot (hs : s.Inv) (sl r) : IfSome State.Inv (s.enterSlot sl r) := by
  unfold State.enterSlot
  grind [IfSome.some_iff, IfSome.none, setSlice]

theorem State.Inv.requestArrival (hs : s.Inv) (g i) : (s.requestArrival g i).Inv := by
  unfold State.requestArrival
  grind [IfSome.some_iff, enterSlot, pumpCluster, modCluster]

theorem State.Inv.demandArrival (hs : s.Inv) (cid) : (s.demandArrival cid).Inv := by
  unfold State.demandArrival
  split
  · split
    · exact hs
    · exact (hs.enterSlot ..).getD hs
  · exact hs

theorem State.Inv.leaveSlots (hs : s.Inv) (cid) : (s.leaveSlots cid).Inv := hs

theorem State.Inv.slotEntry (hs : s.Inv) (sl) : (s.slotEntry sl).Inv := by
  unfold State.slotEntry
  grind [setSlice, stageFill]

/-! ### Machine/Debug -/

theorem State.Inv.dbgResult (hs : s.Inv) (d r) : (s.dbgResult d r).Inv := hs

theorem State.Inv.dbgCommand (hs : s.Inv) (d cid) {f : State → State} (hf : ∀ s, s.Inv → (f s).Inv) : (s.dbgCommand d cid f).Inv := by
  unfold State.dbgCommand
  grind [dbgResult]

theorem State.Inv.dbgHaltCmd (hs : s.Inv) (d cid) : (s.dbgHaltCmd d cid).Inv := by
  unfold State.dbgHaltCmd
  grind [dbgCommand, dbgResult, haltNow, modDie, modCtx]

theorem State.Inv.forceHalt (hs : s.Inv) (cid) : (s.forceHalt cid).Inv := by
  unfold State.forceHalt
  grind [dropRequest, modCtx, retireCtx, leaveSlots]

theorem State.Inv.dbgFhaltCmd (hs : s.Inv) (d cid) : (s.dbgFhaltCmd d cid).Inv := by
  unfold State.dbgFhaltCmd
  grind [dbgCommand, dbgResult, modDie, modCtx, forceHalt]

theorem State.Inv.onFrozen (hs : s.Inv) (d cid) {f : State → State} (hf : ∀ s, s.Inv → (f s).Inv) : (s.onFrozen d cid f).Inv := by
  unfold State.onFrozen
  grind [dbgCommand, dbgResult]

theorem State.Inv.dbgResumeCmd (hs : s.Inv) (d cid) : (s.dbgResumeCmd d cid).Inv := by
  unfold State.dbgResumeCmd
  grind [onFrozen, modCtx]

theorem State.Inv.dbgStepCmd (hs : s.Inv) (d cid) : (s.dbgStepCmd d cid).Inv := by
  unfold State.dbgStepCmd
  grind [onFrozen, modDie, modCtx]

theorem State.Inv.dbgReadCmd (hs : s.Inv) (d cid n) : (s.dbgReadCmd d cid n).Inv := by
  unfold State.dbgReadCmd
  grind [onFrozen, modDie, dbgResult]

theorem State.Inv.dbgWriteCmd (hs : s.Inv) (d cid n) : (s.dbgWriteCmd d cid n).Inv := by
  unfold State.dbgWriteCmd
  grind [onFrozen, dbgResult, csrWrite, modCtx, setVreg]

theorem State.Inv.dbgDumpCmd (hs : s.Inv) (d cid) : (s.dbgDumpCmd d cid).Inv := by
  unfold State.dbgDumpCmd
  grind [IfSome.some_iff, onFrozen, writeDump, settle, dbgResult]

theorem State.Inv.dbgAttachCmd (hs : s.Inv) (d cid) : (s.dbgAttachCmd d cid).Inv := by
  unfold State.dbgAttachCmd
  grind [dbgCommand, dbgResult, modCtx]

theorem State.Inv.dbgDetachCmd (hs : s.Inv) (d cid) : (s.dbgDetachCmd d cid).Inv := by
  unfold State.dbgDetachCmd
  grind [dbgCommand, dbgResult, modCtx]

theorem State.Inv.dbgCmdWrite (hs : s.Inv) (d v) : (s.dbgCmdWrite d v).Inv := by
  unfold State.dbgCmdWrite
  grind [dbgHaltCmd, dbgFhaltCmd, dbgResumeCmd, dbgStepCmd, dbgReadCmd, dbgWriteCmd, dbgDumpCmd, dbgAttachCmd, dbgDetachCmd, dbgResult]

theorem State.Inv.holdTimeout (hs : s.Inv) (cid) : (s.holdTimeout cid).Inv := by
  have h := ((hs.settle cid).writeDump cid true false).getD (hs.settle cid)
  unfold State.holdTimeout
  grind [modCtx, parkEvent]

theorem State.Inv.sampleCluster (hs : s.Inv) (g) : (s.sampleCluster g).Inv := by
  unfold State.sampleCluster
  grind [foldl_inv, modDie, putRecord]

theorem State.Inv.samplePulse (hs : s.Inv) : s.samplePulse.Inv := by
  unfold State.samplePulse
  grind [foldl_inv, State.inv_mk, sampleCluster]

theorem State.Inv.sampctlWr (hs : s.Inv) (v m) : (s.sampctlWr v m).Inv := .ite hs hs
theorem State.Inv.replayWr (hs : s.Inv) (v) : (s.replayWr v).Inv := hs

theorem State.Inv.compareAt (hs : s.Inv) (st) : (s.compareAt st).Inv := by
  unfold State.compareAt
  dsimp only
  split
  · exact hs
  split
  · refine .ite (hs.withReplay _) (.ite (hs.withReplay _) (.ite ?_ ?_))
    · exact State.Inv.mapCtxs ((hs.withReplay _).putEvent ..) _ fun _ => rfl
    · exact (hs.withReplay _).putEvent ..
  · exact hs

/-! ### Machine/Cfg -/

theorem State.Inv.spillAbove (hs : s.Inv) (g size) : (s.spillAbove g size).Inv := by
  unfold State.spillAbove
  grind [foldl_inv, spill]

theorem State.Inv.cspartBegin (hs : s.Inv) (g v) : (s.cspartBegin g v).Inv := .ite hs hs

theorem State.Inv.cspartEnd (hs : s.Inv) (g) : (s.cspartEnd g).Inv := by
  have hp : ∀ {s : State}, s.Inv → ∀ l : List Nat, (l.foldl (fun s l => (s.evictLine g l).landVictims (some g) l) s).Inv :=
    fun h => foldl_inv (fun _ _ h => (h.evictLine ..).landVictims ..) h
  unfold State.cspartEnd
  refine .ite hs ?_
  extract_lets old new s1 s2 lo hi s3 s4
  have h1 : s1.Inv := .ite (hs.spillAbove ..) hs
  have h2 : s2.Inv := .ite (hp h1 _) h1
  have h3 : s3.Inv := h2.filterMem _
  have h4 : s4.Inv := h3.modCluster ..
  clear_value s4
  exact State.Inv.pumpCluster (h4.mapCtxs (fun (cid, c) => (cid, c.presentAgain g)) fun _ => rfl) g

theorem State.Inv.cspartWr (hs : s.Inv) (g v) : (s.cspartWr g v).Inv := (hs.cspartBegin ..).cspartEnd ..

theorem State.Inv.sessionWr (hs : s.Inv) (j w v m) : (s.sessionWr j w v m).Inv := by
  unfold State.sessionWr
  grind [State.inv_mk, setSession]

theorem State.Inv.ttEnableWr (hs : s.Inv) (i v m) : (s.ttEnableWr i v m).Inv := (hs.setTT ..).ungate ..

theorem State.Inv.ttWr (hs : s.Inv) (i w v m) : (s.ttWr i w v m).Inv := by
  unfold State.ttWr
  grind [setTT, ttEnableWr]

theorem State.Inv.cfgPut (hs : s.Inv) (b v m full) : (s.cfgPut b v m full).Inv := by
  cases b with
  | cluster g o => simp only [State.cfgPut, apply_ite State.Inv, hs.cspartWr, hs.modCluster, hs, ite_self]
  | slice k o => unfold State.cfgPut; grind [modSlice]
  | dispatcher d o => unfold State.cfgPut; grind [doorbellAt, modDie, preemptWrite]
  | tt i o => exact hs.ttWr ..
  | recording d o => unfold State.cfgPut; grind [modDie]
  | sampctl o => unfold State.cfgPut; grind [sampctlWr]
  | replay o => unfold State.cfgPut; grind [replayWr]
  | classes o =>
    unfold State.cfgPut
    refine foldl_inv (fun _ _ h => ?_) hs _
    exact h
  | debug d o => simp only [State.cfgPut, apply_ite State.Inv, hs.dbgCmdWrite, hs.modDie, hs, ite_self]
  | session j o => exact hs.sessionWr ..

theorem State.Inv.cfgWrite (hs : s.Inv) (pa n v) : (s.cfgWrite pa n v).Inv := by
  unfold State.cfgWrite
  grind [cfgPut]

end Sys2Proof.Machine
end

