-- ==== Sys2Proof/Proofs/KeepsInvariants/Instructions.lean ====
section
/-! The instructions and the events keep the invariants, each through the operations that it is made of. -/

namespace Sys2Proof.Machine

open State.Inv

variable {s : State}

/-! ### Machine/MemScalar -/

theorem State.Inv.scalarRead (hs : s.Inv) (x n) : (s.scalarRead x n).1.Inv := by
  unfold State.scalarRead
  grind [loadBytes]

theorem State.Inv.scalarWrite (hs : s.Inv) (x n v rel) : (s.scalarWrite x n v rel).Inv := by
  unfold State.scalarWrite
  grind [settleMe, cfgWrite, restorePhaser, writeMem, enter]

theorem State.Inv.deviceReadAs (hs : s.Inv) (amo cls nd va n) : Ends (fun p => p.1.Inv) (s.deviceReadAs amo cls nd va n) := by
  unfold State.deviceReadAs
  refine (hs.accessV ..).bind fun ⟨t, x⟩ hp => ?_
  have hr : Ends (fun p : State × Xlat × Nat => p.1.Inv) (do
      need (t.selvedgeOk (clusterOf t.cur) .read x.pa n) 25 (word x.pa)
      if t.silent x.pa then t.mute x.pa amo
      else
        let (s, v) := t.loadBytes x n
        .ok (s, x, v)) := by
    refine (need_inv ..).bind fun _ _ => ?_
    split
    · exact State.Inv.mute hp ..
    · exact .ok (State.Inv.loadBytes hp ..)
  dsimp only
  split
  · exact (State.Inv.mute (P := fun _ => True) hp ..).bind fun _ _ => hr
  · exact hr

theorem State.Inv.deviceRead (hs : s.Inv) (cls nd va n) : Ends (fun p => p.1.Inv) (s.deviceRead cls nd va n) := hs.deviceReadAs ..

theorem State.Inv.loadCheck (hs : s.Inv) (va n) : Ends (fun p => p.1.Inv) (s.loadCheck va n) := by
  unfold State.loadCheck
  refine (need_inv ..).bind fun _ _ => (hs.access ..).bind fun p hp => (hp.permit ..).bind fun _ _ => ?_
  split
  · exact State.Inv.mute hp ..
  · exact .ok hp

theorem State.Inv.storeCheck (hs : s.Inv) (va n) : Ends (fun p => p.1.Inv) (s.storeCheck va n) := by
  unfold State.storeCheck
  exact (need_inv ..).bind fun _ _ => (hs.access ..).bind fun p hp => (hp.permit ..).bind fun _ _ => .ok hp

theorem execLoad_inv (hs : s.Inv) (k rd rs1 imm) : OutInv (execLoad k rd rs1 imm s) := by
  unfold execLoad
  grind [Ends.ok_iff, Ends.error_iff, except_bind, done, illegal_inv, loadCheck, scalarRead, modCtx, setXr]

theorem execStore_inv (hs : s.Inv) (k rs1 rs2 imm) : OutInv (execStore k rs1 rs2 imm s) := by
  unfold execStore
  grind [Ends.ok_iff, Ends.error_iff, except_bind, done, illegal_inv, storeCheck, scalarWrite]

theorem State.Inv.atomicCheck (hs : s.Inv) (cls nd store va n) : Ends (fun p => p.1.Inv) (s.atomicCheck cls nd store va n) := by
  unfold State.atomicCheck
  refine (need_inv ..).bind fun _ _ => (hs.accessV ..).bind fun p hp => (need_inv ..).bind fun _ _ => (hp.permit ..).bind fun _ _ => ?_
  split
  · exact State.Inv.mute hp ..
  · exact .ok hp

theorem State.Inv.beforeAtomic (hs : s.Inv) (rel x) : (s.beforeAtomic rel x).Inv := by
  unfold State.beforeAtomic
  grind [settleMe, drainStores]

theorem State.Inv.atomicUpdate (hs : s.Inv) (x n f) : (s.atomicUpdate x n f).1.Inv := by
  unfold State.atomicUpdate
  grind [homeReadAt, readMem, homeWriteAt, writeMem, restorePhaser]

theorem execLr_inv (hs : s.Inv) (dbl aq rl rd rs1) : OutInv (execLr dbl aq rl rd rs1 s) := by
  unfold execLr
  grind [Ends.ok_iff, Ends.error_iff, except_bind, done, atomicCheck, beforeAtomic, tileAccess, readMem, modCtx]

theorem execSc_inv (hs : s.Inv) (dbl aq rl rd rs1 rs2) : OutInv (execSc dbl aq rl rd rs1 rs2 s) := by
  unfold execSc
  grind [Ends.ok_iff, Ends.error_iff, except_bind, done, atomicCheck, beforeAtomic, modCtx, restorePhaser, writeMem, setXr]

theorem execAmo_inv (hs : s.Inv) (op dbl aq rl rd rs1 rs2) : OutInv (execAmo op dbl aq rl rd rs1 rs2 s) := by
  unfold execAmo
  grind [Ends.ok_iff, Ends.error_iff, except_bind, done, atomicCheck, beforeAtomic, atomicUpdate, setXr]

theorem execLdo_inv (hs : s.Inv) (rd rs1 scope op w) : OutInv (execLdo rd rs1 scope op w s) := by
  unfold execLdo
  grind [Ends.ok_iff, Ends.error_iff, except_bind, done, loadCheck, scalarRead, setXr]

theorem execSto_inv (hs : s.Inv) (rs1 rs2 scope op w) : OutInv (execSto rs1 rs2 scope op w s) := by
  unfold execSto
  grind [Ends.ok_iff, Ends.error_iff, except_bind, done, storeCheck, scalarWrite]

theorem execAmos_inv (hs : s.Inv) (rd rs1 rs2 scope op) : OutInv (execAmos rd rs1 rs2 scope op s) := by
  unfold execAmos
  grind [Ends.ok_iff, Ends.error_iff, except_bind, done, atomicCheck, beforeAtomic, atomicUpdate, modCtx]

/-! ### Machine/Tile -/

theorem tileFault_inv {α : Type} {P : α → Prop} (va reason) : Ends P (tileFault va reason) := trap_inv ..

theorem State.Inv.tilePages (hs : s.Inv) (nd vas) : Ends (fun p => p.1.Inv ∧ IfSome Stop.Inv p.2.2) (s.tilePages nd vas) := by
  induction vas generalizing s with
  | nil =>
    unfold State.tilePages
    grind [Ends.ok_iff, Ends.error_iff, Stop.Inv, except_bind, IfSome.some_iff, IfSome.none, State.inv_mk, access]
  | cons a' l' ih =>
    unfold State.tilePages
    grind [Ends.ok_iff, Ends.error_iff, Stop.Inv, except_bind, IfSome.some_iff, IfSome.none, State.inv_mk, access]

theorem State.Inv.claimLine (hs : s.Inv) (line) : (s.claimLine line).Inv := ((hs.applyPending ..).recallAll ..).backInvalidate ..

theorem State.Inv.declare (hs : s.Inv) (d) : Ends State.Inv (s.declare d) := by
  unfold State.declare
  refine (need_inv ..).bind fun _ _ => (hs.deviceReadAs ..).bind fun p hp => ?_
  dsimp only
  split
  · exact tileFault_inv ..
  refine (hp.tilePages ..).bind fun q hq => ?_
  have h := hq.1
  split
  · rename_i e he
    have := hq.2
    rw [he] at this
    exact .error (IfSome.some_iff.1 this)
  split
  · exact tileFault_inv ..
  split
  · exact tileFault_inv ..
  · exact tileFault_inv ..
  split
  · exact tileFault_inv ..
  refine ((h.drainStores _).watch ..).bind fun _ _ => ?_
  have hc := foldl_inv (fun _ (q : Nat × BitVec 8) h => h.claimLine q.1) (h.drainStores q.1.cur)
  split
  · refine .ok (foldl_inv (fun _ _ h => h.homeWriteAt ..) ?_ _)
    exact hc _
  · exact .ok (hc _)

theorem State.Inv.tileAddr (hs : s.Inv) (cls va) : Ends (fun p => p.1.Inv) (s.tileAddr cls va) := hs.access ..

theorem execTfree_inv (hs : s.Inv) (rs1) : OutInv (execTfree rs1 s) := by
  unfold execTfree
  refine hs.done ((hs.tileAddr ..).bind fun ⟨t, x⟩ hp => ?_)
  dsimp only
  split
  · exact tileFault_inv ..
  · refine (State.Inv.watch hp ..).bind fun _ _ => ?_
    grind [Ends.ok_iff, drainStores, tilePush, tileRecall, State.inv_mk]

theorem execTacq_inv (hs : s.Inv) (rs1 scope excl) : OutInv (execTacq rs1 scope excl s) := by
  unfold execTacq
  refine hs.done ((hs.tileAddr ..).bind fun ⟨t, x⟩ hp => ?_)
  dsimp only
  split
  · exact tileFault_inv ..
  · exact (State.Inv.watch hp ..).bind fun _ _ => .ok (State.Inv.tileRequest hp ..)

theorem execTrel_inv (hs : s.Inv) (rs1 scope) : OutInv (execTrel rs1 scope s) := by
  unfold execTrel
  grind [Ends.ok_iff, Ends.error_iff, except_bind, done, tileAddr, watch, enter]

theorem execTfwd_inv (hs : s.Inv) (rel rs1 rs2) : OutInv (execTfwd rel rs1 rs2 s) := by
  unfold execTfwd
  grind [Ends.ok_iff, Ends.error_iff, except_bind, done, tileAddr, tileFault_inv, watch, enter]

theorem execTstat_inv (hs : s.Inv) (rd rs1) : OutInv (execTstat rd rs1 s) := by
  unfold execTstat
  grind [Ends.ok_iff, Ends.error_iff, except_bind, done, tileAddr, watch, setXr]

/-! ### Machine/Ordered -/

theorem State.Inv.fenceSets (hs : s.Inv) (pred succ) : (s.fenceSets pred succ).Inv := by
  unfold State.fenceSets
  grind [drainStores, settleAcc]

theorem State.Inv.rangePages (hs : s.Inv) (cls fuel va stop) : Ends (fun p => p.1.Inv ∧ IfSome Stop.Inv p.2.2) (s.rangePages cls fuel va stop) := by
  induction fuel generalizing s va with
  | zero =>
    unfold State.rangePages
    grind [Ends.ok_iff, Ends.error_iff, Stop.Inv, except_bind, IfSome.some_iff, IfSome.none, IfOk.ok_iff, IfOk.error, State.inv_mk, xlate, Cls.err_inv]
  | succ n' ih =>
    unfold State.rangePages
    grind [Ends.ok_iff, Ends.error_iff, Stop.Inv, except_bind, IfSome.some_iff, IfSome.none, IfOk.ok_iff, IfOk.error, State.inv_mk, xlate, Cls.err_inv]

theorem State.Inv.rangeOp (hs : s.Inv) (inv cls base len) : Ends State.Inv (s.rangeOp inv cls base len) := by
  unfold State.rangeOp
  grind [Ends.ok_iff, Ends.error_iff, Stop.Inv, except_bind, IfSome.some_iff, IfSome.none, State.inv_mk, trap_inv, rangePages, enter]

theorem execDisct_inv (hs : s.Inv) (rs1) : OutInv (execDisct rs1 s) := by
  unfold execDisct
  grind [Ends.ok_iff, done, enter]

/-! ### Machine/VecQ -/

theorem State.Inv.enqueueV (hs : s.Inv) (todo cost cross acc) : (s.enqueueV todo cost cross acc).Inv := hs
theorem State.Inv.enqueueE (hs : s.Inv) (w n cost) : (s.enqueueE w n cost).Inv := hs
theorem State.Inv.enqueueX (hs : s.Inv) (n cost) : (s.enqueueX n cost).Inv := hs
theorem State.Inv.awaitVector (hs : s.Inv) : s.awaitVector.Inv := hs.drainVector ..

theorem State.Inv.vecCheck (hs : s.Inv) (i fp rounds fs) : Ends (fun _ => True) (s.vecCheck i fp rounds fs) := by
  unfold State.vecCheck
  grind [illegal_inv, checkWindow]

theorem State.Inv.putElems (hs : s.Inv) (vd xs) : (s.putElems vd xs).Inv := (hs.setVr ..).modCtx ..
theorem State.Inv.vecMap (hs : s.Inv) (vd mk cost result) : (s.vecMap vd mk cost result).Inv := hs.putElems ..

theorem State.Inv.enqueueReply (hs : s.Inv) (i) : IfSome State.Inv (s.enqueueReply i) := by
  unfold State.enqueueReply
  grind [IfSome.some_iff, IfSome.none, enqueueX, enqueueV]

theorem State.Inv.engineReply (hs : s.Inv) (i) : (s.engineReply i).Inv := by
  unfold State.engineReply
  split
  · exact hs.modCtx ..
  · exact ((hs.enqueueReply i).getD hs).awaitVector

/-! ### Machine/Acc -/

theorem State.Inv.accDest (hs : s.Inv) (va) : Ends (fun p => p.1.Inv) (s.accDest va) := by
  have hx := hs.xlate (s.view s.cur) needW va
  unfold State.accDest
  refine (need_inv ..).bind fun _ _ => ?_
  dsimp only
  generalize s.xlate (s.view s.cur) needW va = q at hx ⊢
  cases hx with
  | error => exact .error trivial
  | ok h => exact (need_inv ..).bind fun _ _ => (need_inv ..).bind fun _ _ => (h.watch ..).bind fun _ _ => .ok h

theorem State.Inv.accumulate (hs : s.Inv) (form vs rs1 scale) : Ends State.Inv (s.accumulate form vs rs1 scale) := by
  unfold State.accumulate
  grind [Ends.ok_iff, Ends.error_iff, except_bind, checkWindow, accDest, enqueueV]

theorem execAccF_inv (hs : s.Inv) (vs rs1) : OutInv (execAccF vs rs1 s) := by
  unfold execAccF
  grind [done, illegal_inv, accumulate]

theorem execFlres_inv (hs : s.Inv) (rs1 rs2) : OutInv (execFlres rs1 rs2 s) := by
  unfold execFlres
  grind [Ends.ok_iff, done, settleAcc, flushRange]

/-! ### Machine/Sealed -/

theorem State.Inv.sealedFails (hs : s.Inv) (g i c j reason) : (s.sealedFails g i c j reason).Inv := by
  unfold State.sealedFails
  grind [writeSpan, setCopy, changeHandle, pumpCluster, putEvent]

theorem State.Inv.sessionNext (hs : s.Inv) (j) : (s.sessionNext j).Inv := hs

theorem State.Inv.sealedEnd (hs : s.Inv) (g i) : (s.sealedEnd g i).Inv := by
  unfold State.sealedEnd
  dsimp only
  split
  · exact hs
  split
  · exact hs
  split
  · exact hs
  split
  · exact hs.sealedFails ..
  split
  · exact hs.sealedFails ..
  rename_i c _ _ j _ _ _ _ _
  have hr := hs.readSpan g c.tid c.task c.srcPages (c.n / 128 + 4) c.src.toNat (c.n + 32)
  generalize s.readSpan g c.tid c.task c.srcPages (c.n / 128 + 4) c.src.toNat (c.n + 32) = r at hr ⊢
  obtain ⟨t, v⟩ := r
  cases v with
  | error e => exact (State.Inv.tick hr).sealedFails ..
  | ok v =>
    dsimp only
    split
    · exact State.Inv.sealedFails hr ..
    have hn : (t.sessionNext j).Inv := State.Inv.sessionNext hr j
    generalize t.sessionNext j = u at hn ⊢
    split
    · exact hn.sealedFails ..
    · refine State.Inv.pumpCluster ?_ g
      split
      · exact ((hn.writeSpan ..).setCopy ..).changeHandle ..
      · exact (hn.writeSpan ..).setCopy ..

/-! ### Machine/Copy -/

theorem State.Inv.watchAll (_ : s.Inv) (as) : Ends (fun _ => True) (s.watchAll as) := by
  unfold State.watchAll
  grind [Ends.ok_iff, Ends.error_iff, Stop.Inv, trap_inv]

theorem State.Inv.targetOf (hs : s.Inv) (ph w) : Ends (fun p => p.1.Inv ∧ IfSome Stop.Inv p.2.2) (s.targetOf ph w) := by
  unfold State.targetOf
  grind [Ends.ok_iff, Ends.error_iff, Stop.Inv, except_bind, IfSome.some_iff, IfSome.none, IfOk.ok_iff, IfOk.error, State.inv_mk,
    xlate,
    Cls.err_inv]

theorem State.Inv.targetTaken (hs : s.Inv) (t code) : (s.targetTaken t code).Inv := by
  unfold State.targetTaken
  grind [changeHandle]

theorem State.Inv.copyIssue (hs : s.Inv) (dc ph rd rs1 rs2 rs3) : Ends State.Inv (s.copyIssue dc ph rd rs1 rs2 rs3) := by
  unfold State.copyIssue
  dsimp only
  split
  · exact .error hs
  · refine (hs.copyScan ..).bind fun p hp => (hp.1.targetOf ..).bind fun q hq => (hq.1.sealedScan ..).bind fun r hr =>
      (raiseLate_inv ((hp.2.or hq.2).or hr.2)).bind fun _ _ => (need_inv ..).bind fun _ _ => ?_
    have h := hr.1
    split
    · exact trap_inv ..
    · refine (need_inv ..).bind fun _ _ => (need_inv ..).bind fun _ _ => (h.watchAll _).bind fun _ _ => ?_
      grind [Ends.ok_iff, Ends.error_iff, Stop.Inv, targetTaken, veil, modCluster, copyAdvance]

theorem execBhwait_inv (hs : s.Inv) (rd rs1 rs2) : OutInv (execBhwait rd rs1 rs2 s) := by
  unfold execBhwait
  grind [Ends.ok_iff, Ends.error_iff, Stop.Inv, done, trap_inv, setXr, zeroWaitMe, leave]

theorem execBhset_inv (hs : s.Inv) (rs1 rs2) : OutInv (execBhset rs1 rs2 s) := by
  unfold execBhset
  have h := hs.settleMe
  refine hs.done ?_
  dsimp only
  split
  · exact trap_inv ..
  split
  · exact trap_inv ..
  generalize s.settleMe = t at h ⊢
  grind [Ends.ok_iff, Ends.error_iff, Stop.Inv, changeHandle, raise]

theorem State.Inv.stgreqEntries (hs : s.Inv) (va n) : Ends (fun p => p.1.Inv) (s.stgreqEntries va n) := by
  induction n generalizing s va with
  | zero =>
    unfold State.stgreqEntries
    grind [Ends.ok_iff, Ends.error_iff, except_bind, deviceRead]
  | succ n' ih =>
    unfold State.stgreqEntries
    grind [Ends.ok_iff, Ends.error_iff, except_bind, deviceRead]

theorem State.Inv.stgreqPages (hs : s.Inv) (es) : Ends (fun p => p.1.Inv ∧ IfSome Stop.Inv p.2.2) (s.stgreqPages es) := by
  induction es generalizing s with
  | nil => exact .ok ⟨hs, .none⟩
  | cons e es ih =>
    unfold State.stgreqPages
    exact (hs.scanPages ..).bind fun p hp => (ih hp.1).bind fun q hq => .ok ⟨hq.1, hp.2.or hq.2⟩

theorem execStgreq_inv (hs : s.Inv) (rs1 rs2) : OutInv (execStgreq rs1 rs2 s) := by
  unfold execStgreq
  exact hs.done ((need_inv ..).bind fun _ _ => (hs.deviceRead ..).bind fun p hp => (State.Inv.pages hp ..).bind fun q hq =>
    (State.Inv.stgreqEntries hq ..).bind fun r hr => (State.Inv.stgreqPages hr _).bind fun u hu => (raiseLate_inv hu.2).bind fun _ _ =>
    (need_inv ..).bind fun _ _ => (hu.1.watch ..).bind fun _ _ => .ok (hu.1.modDie ..))

/-! ### Machine/TaskOps -/

theorem State.Inv.late (hs : s.Inv) (cause v) : Ends State.Inv (s.late cause v) := .error (hs.raise ..)

theorem State.Inv.watched (hs : s.Inv) (store va n) {r} (hr : Ends State.Inv r) : Ends State.Inv (s.watched store va n r) := by
  unfold State.watched
  grind [Ends.error_iff, except_bind, watch]

theorem State.Inv.spillBobbin (hs : s.Inv) (k) : Ends State.Inv (s.spillBobbin k) := by
  unfold State.spillBobbin
  refine (hs.pages ..).bind fun p hp => (need_inv ..).bind fun _ _ => .ok (State.Inv.modCore (foldl_inv (fun _ _ h => ?_) hp _) ..)
  dsimp only
  split
  · exact h.writeMem ..
  · exact h

theorem State.Inv.spawnTo (hs : s.Inv) (l t here) : (s.spawnTo l t here).Inv := by
  unfold State.spawnTo
  grind [newId, modLaunch, trimHorizon, declareStaging, pushEntry, enqueueReady]

theorem State.Inv.spawnRecord (hs : s.Inv) (rd r v) : Ends State.Inv (s.spawnRecord rd r v) := by
  unfold State.spawnRecord
  grind [Ends.ok_iff, late, setXr, spawnTo, spillBobbin]

theorem execSpawn_inv (hs : s.Inv) (rd rs1) : OutInv (execSpawn rd rs1 s) := by
  unfold execSpawn
  grind [Ends.ok_iff, Ends.error_iff, except_bind, done, deviceRead, need_inv, watched, spawnRecord, settleMe]

theorem execTnext_inv (hs : s.Inv) (rd) : OutInv (execTnext rd s) := by
  unfold execTnext
  grind [Ends.ok_iff, done, setXr, modCore, modCtx]

theorem State.Inv.homeObject (hs : s.Inv) (va n cause ok tval) : Ends (fun p => p.1.Inv) (s.homeObject va n cause ok tval) := by
  unfold State.homeObject
  grind [Ends.error_iff, except_bind, access, need_inv]

theorem State.Inv.armCounter (hs : s.Inv) (c rec_ x) : Ends State.Inv (s.armCounter c rec_ x) := by
  unfold State.armCounter
  grind [Ends.ok_iff, homeReadX, homeWriteX, late]

theorem execTarm_inv (hs : s.Inv) (rs1 rs2) : OutInv (execTarm rs1 rs2 s) := by
  unfold execTarm
  grind [Ends.ok_iff, Ends.error_iff, except_bind, done, homeObject, watched, armCounter, settleMe]

theorem State.Inv.pushLaunch (hs : s.Inv) (rd q rec_ pa) : Ends State.Inv (s.pushLaunch rd q rec_ pa) := by
  unfold State.pushLaunch
  grind [Ends.ok_iff, IfSome.some_iff, queueHeader, late, setXr, homeWrite, doorbellAt]

theorem execLaunch_inv (hs : s.Inv) (rd rs1 rs2) : OutInv (execLaunch rd rs1 rs2 s) := by
  unfold execLaunch
  grind [Ends.ok_iff, Ends.error_iff, except_bind, done, homeObject, watched, pushLaunch, settleMe]

theorem State.Inv.entryNamed (hs : s.Inv) (i p) {f : State → Nat → State} (hf : ∀ s a1, s.Inv → (f s a1).Inv) :
    Ends State.Inv (s.entryNamed i p f) := by
  unfold State.entryNamed
  grind [Ends.ok_iff, illegal_inv, trap_inv, settleMe, homeReadLines, late]

theorem execTresume_inv (hs : s.Inv) (rs1) : OutInv (execTresume rs1 s) := by
  unfold execTresume
  grind [done, entryNamed, resumeEntry]

theorem execTkill_inv (hs : s.Inv) (rs1) : OutInv (execTkill rs1 s) := by
  unfold execTkill
  grind [done, entryNamed, killEntry]

/-! ### Machine/CritPath -/

theorem State.Inv.deviceWrite (hs : s.Inv) (va n) : Ends (fun p => p.1.Inv) (s.deviceWrite va n) := by
  unfold State.deviceWrite
  refine (hs.pages ..).bind fun ⟨t, ps⟩ hp => ?_
  dsimp only
  split
  · exact trap_inv ..
  · refine (State.Inv.watch hp ..).bind fun _ _ => ?_
    split
    · exact State.Inv.mute hp ..
    · exact .ok hp

theorem State.Inv.putUnits (hs : s.Inv) (ps va n v) : (s.putUnits ps va n v).Inv := by
  induction n generalizing s va v with
  | zero =>
    unfold State.putUnits
    grind [writeMem]
  | succ n' ih =>
    unfold State.putUnits
    grind [writeMem]

theorem State.Inv.popEvent (hs : s.Inv) (rd store a) : Ends State.Inv (s.popEvent rd store a) := by
  unfold State.popEvent
  dsimp only
  split
  · exact .ok (hs.setXr ..)
  · refine Ends.bind (P := State.Inv) ?_ fun t ht => .ok ((ht.modCore ..).setXr ..)
    split
    · exact (need_inv ..).bind fun _ _ => (hs.deviceWrite ..).bind fun p hp => .ok ((State.Inv.drainStores hp _).putUnits ..)
    · exact .ok hs

theorem execEvpop_inv (hs : s.Inv) (rd rs1) : OutInv (execEvpop rd rs1 s) := by
  unfold execEvpop
  grind [done, illegal_inv, popEvent]

theorem execEvwait_inv (hs : s.Inv) (rd rs1) : OutInv (execEvwait rd rs1 s) := by
  unfold execEvwait
  grind [Ends.error_iff, Stop.Inv, done, illegal_inv, leave, popEvent, zeroWaitMe]

theorem State.Inv.edgesOf (hs : s.Inv) (d j n) : (s.edgesOf d j n).1.Inv := by
  induction n generalizing s j with
  | zero =>
    unfold State.edgesOf
    grind [homeRead]
  | succ n' ih =>
    unfold State.edgesOf
    grind [homeRead]

theorem State.Inv.allEdges (hs : s.Inv) (n) : (s.allEdges n).1.Inv := by
  induction n with
  | zero =>
    unfold State.allEdges
    grind [edgesOf]
  | succ n' ih =>
    unfold State.allEdges
    grind [edgesOf]

theorem execCpdump_inv (hs : s.Inv) (rd rs1 rs2) : OutInv (execCpdump rd rs1 rs2 s) := by
  unfold execCpdump
  grind [Ends.ok_iff, Ends.error_iff, Stop.Inv, except_bind, OutInv.next_iff, foldl_inv, State.inv_mk, done, need_inv, deviceWrite,
    setXr,
    drainStores, allEdges, putUnits]

/-! ### Machine/Helper -/

theorem execHstart_inv (hs : s.Inv) (rd rs1 rs2) : OutInv (execHstart rd rs1 rs2 s) := by
  unfold execHstart
  grind [Ends.ok_iff, done, illegal_inv, trap_inv, settleMe, setXr, newId, setCtx]

theorem State.Inv.hexitNow (hs : s.Inv) (cid v) : (s.hexitNow cid v).Inv := by
  unfold State.hexitNow
  grind [settle, ended, taskExit, endControl, endHelper]

theorem execHexit_inv (hs : s.Inv) (rs1) : OutInv (execHexit rs1 s) := by
  unfold execHexit
  grind [Ends.error_iff, Stop.Inv, done, hexitNow, zeroWaitMe, leave]

theorem execHjoin_inv (hs : s.Inv) (rd rs1) : OutInv (execHjoin rd rs1 s) := by
  unfold execHjoin
  grind [Ends.ok_iff, Ends.error_iff, Stop.Inv, done, setXr, zeroWaitMe, modCore, leave]

theorem State.Inv.falignRelease (hs : s.Inv) (cid) : (s.falignRelease cid).Inv := hs.wakeIf ..

theorem execFalign_inv (hs : s.Inv) (rs1) : OutInv (execFalign rs1 s) := by
  unfold execFalign
  grind [Ends.ok_iff, Ends.error_iff, Stop.Inv, done, falignRelease, leave]

theorem execLoopSet_inv (hs : s.Inv) (rs1 imm) : OutInv (execLoopSet rs1 imm s) := by
  unfold execLoopSet
  grind [Ends.ok_iff, done, modCtx, illegal_inv]

/-! ### Machine/Host -/

theorem State.Inv.answer (hs : s.Inv) (r) : (s.answer r).Inv := hs

theorem State.Inv.portWrite (hs : s.Inv) (port pa n v) : (s.portWrite port pa n v).Inv := by
  unfold State.portWrite
  grind [doorbellAt, cfgWrite]

theorem State.Inv.bar2 (hs : s.Inv) (port pa n v store ide) : (s.bar2 port pa n v store ide).Inv := by
  unfold State.bar2
  grind [answer, portWrite]

theorem State.Inv.bar0 (hs : s.Inv) (port off n v store) : (s.bar0 port off n v store).Inv := by
  unfold State.bar0
  refine .ite (hs.answer _) (.ite (hs.answer _) (.ite ?_ (.ite ?_ (hs.answer _))))
  · generalize 0x40E000000000 + (off - 0xF000) = pa
    exact .ite (hs.answer _) (.ite ((hs.cfgWrite ..).answer _) (hs.answer _))
  · exact State.Inv.answer (s := { s with host := { s.host with mailbox := _ } }) hs .none

theorem State.Inv.measured (hs : s.Inv) : s.measured.Inv := hs
theorem State.Inv.peerLink (hs : s.Inv) (p mute) : (s.peerLink p mute).Inv := hs
theorem State.Inv.installKey (hs : s.Inv) (slot key) : (s.installKey slot key).Inv := .ite hs hs

theorem State.Inv.outerWrite (hs : s.Inv) (code line m d) : (s.outerWrite code line m d).Inv := by
  unfold State.outerWrite
  have h := ((hs.loseReservations line none none ⟨0, code, s.now, 0, false⟩).homeOwn line)
  refine State.Inv.restorePhaser (State.Inv.streamWrite ?_ ..) ..
  exact ⟨wf_mmerge _ _ _ _ _ h.1, h.2⟩

theorem State.Inv.outerRead (hs : s.Inv) (line) : (s.outerRead line).Inv := by
  unfold State.outerRead
  grind [settleLine, recallDirty, applyPending, recallTiles, answer]

theorem State.Inv.holdLine (hs : s.Inv) (line port) : (s.holdLine line port).Inv := .ite hs hs

theorem State.Inv.cxlMem (hs : s.Inv) (agent a line store m d) : (s.cxlMem agent a line store m d).Inv := by
  unfold State.cxlMem
  grind [answer, outerWrite, holdLine, outerRead]

theorem State.Inv.snoopTimeout (hs : s.Inv) (line) : (s.snoopTimeout line).Inv := by
  unfold State.snoopTimeout
  grind [State.inv_mk, backInvalidate]

theorem State.Inv.alarm (hs : s.Inv) (raised) : (s.alarm raised).Inv := by
  unfold State.alarm
  grind [State.inv_mk]

theorem State.Inv.tdiLock (hs : s.Inv) (port lock) : (s.tdiLock port lock).Inv := .ite hs hs
theorem State.Inv.masterLoss (hs : s.Inv) : s.masterLoss.Inv := hs
theorem State.Inv.discipline (hs : s.Inv) (rate) : (s.discipline rate).Inv := hs
theorem State.Inv.powerGate (hs : s.Inv) (g) : (s.powerGate g).Inv := .ite hs hs
theorem State.Inv.powerWake (hs : s.Inv) (g) : (s.powerWake g).Inv := hs.wakeCluster ..
theorem State.Inv.setClock (hs : s.Inv) (d mhz stopped) : (s.setClock d mhz stopped).Inv := hs
theorem State.Inv.clockStep (hs : s.Inv) (d) : (s.clockStep d).Inv := .ite hs hs

theorem State.Inv.thermalStop (hs : s.Inv) (d raised) : (s.thermalStop d raised).Inv := by
  unfold State.thermalStop
  grind [alarm, setClock]

theorem State.Inv.moduleReset (hs : s.Inv) (b) : (s.moduleReset b).Inv := by
  have h := wf_filter s.mem (fun p => outsideMemory p.1) hs.1
  unfold State.moduleReset
  dsimp only
  split
  · exact ⟨h, rfl⟩
  · exact ⟨h, rfl⟩

/-! ### Machine/Message -/

theorem execMbeat_inv (hs : s.Inv) (rs1 rs2) : OutInv (execMbeat rs1 rs2 s) := by
  unfold execMbeat
  grind [Ends.ok_iff, done, trap_inv, modCtx]

theorem execMsend_inv (hs : s.Inv) (rs1 rs2) : OutInv (execMsend rs1 rs2 s) := by
  unfold execMsend
  grind [Ends.error_iff, Stop.Inv, done, trap_inv, settleMe, modCtx, leave]

theorem State.Inv.deliver (hs : s.Inv) (k i q p) : (s.deliver k i q p).Inv := by
  unfold State.deliver
  grind [foldl_inv, writeMem, modCore, wakeIf]

theorem State.Inv.packetArrives (hs : s.Inv) (cid) : (s.packetArrives cid).Inv := by
  unfold State.packetArrives
  grind [modCtx, deliver, modCluster, putEvent, raiseCtx]

theorem execMpost_inv (hs : s.Inv) (rd rs1) : OutInv (execMpost rd rs1 s) := by
  unfold execMpost
  refine hs.done ((need_inv ..).bind fun _ _ => (hs.access ..).bind fun ⟨t, x⟩ ht => ?_)
  have hl := State.Inv.loadBytes ht x 32
  dsimp only at hl ⊢
  generalize t.loadBytes x 32 = r at hl ⊢
  refine (hl.pages ..).bind fun ⟨u, ps⟩ hu => (need_inv ..).bind fun _ _ => ?_
  replace hu : u.Inv := hu
  have hk := fun c => hu.setCore (coreOf u.cur) c
  dsimp only
  split
  · exact Ends.error (e := .exc 25 _) trivial
  refine (hu.watch ..).bind fun _ _ => ?_
  split
  · exact .ok (hu.setXr ..)
  refine .ok (State.Inv.setXr ?_ ..)
  split
  · exact hk _
  · split
    · exact hk _
    · exact ((hk _).modCluster ..).deliver ..

theorem State.Inv.freeSlot (hs : s.Inv) (k i) : (s.freeSlot k i).Inv := hs

theorem execMrecv_inv (hs : s.Inv) (rd rs1) : OutInv (execMrecv rd rs1 s) := by
  unfold execMrecv
  grind [Ends.ok_iff, Ends.error_iff, Stop.Inv, done, trap_inv, setXr, freeSlot, zeroWaitMe, leave]

theorem execMcancel_inv (hs : s.Inv) (rd rs1) : OutInv (execMcancel rd rs1 s) := by
  unfold execMcancel
  grind [Ends.ok_iff, done, setXr, freeSlot]

/-! ### Machine/Queue -/

theorem State.Inv.queuePut (hs : s.Inv) (x size i e) : (s.queuePut x size i e).Inv := (hs.queueWrite ..).queueWrite ..
theorem State.Inv.flushed (hs : s.Inv) (g x k) : (s.flushed g x k).Inv := hs.mapCtxs _ fun _ => rfl

theorem State.Inv.queueAppend (hs : s.Inv) (x es) : (s.queueAppend x es).1.Inv := by
  unfold State.queueAppend
  grind [foldl_inv, queueWords, queueWrite, queuePut]

theorem State.Inv.batchArrives (hs : s.Inv) (g i n) : (s.batchArrives g i n).Inv := by
  unfold State.batchArrives
  grind [queueWords, queueAppend, modCluster, feedPops, flushed]

theorem State.Inv.peerBatch (hs : s.Inv) (p pa n data) : (s.peerBatch p pa n data).Inv := by
  unfold State.peerBatch
  grind [State.inv_mk, queueAppend, feedPops]

theorem State.Inv.batchTimeout (hs : s.Inv) (g i) : (s.batchTimeout g i).Inv := by
  unfold State.batchTimeout
  grind [modCluster]

theorem State.Inv.queueAt (hs : s.Inv) (q) : Ends (fun p => p.1.Inv) (s.queueAt q) := by
  unfold State.queueAt
  refine (hs.access ..).bind fun ⟨t, x⟩ hp => (need_inv ..).bind fun _ _ => ?_
  grind [Ends.ok_iff, mute, ownFirst, queueWords, trap_inv]

theorem State.Inv.leaveRoom (hs : s.Inv) (i x n) : (s.leaveRoom i x n).Inv := (hs.modCtx ..).modCtx ..

theorem execQpush_inv (hs : s.Inv) (rs1 rs2) : OutInv (execQpush rs1 rs2 s) := by
  unfold execQpush
  refine hs.done ((hs.queueAt _).bind fun ⟨t, x⟩ hp => (need_inv ..).bind fun _ _ => ?_)
  grind [Ends.ok_iff, Ends.error_iff, Stop.Inv, settleMe, leaveRoom, modCluster]

theorem execQpop_inv (hs : s.Inv) (rd rs1) : OutInv (execQpop rd rs1 s) := by
  unfold execQpop
  grind [Ends.ok_iff, Ends.error_iff, Stop.Inv, except_bind, OutInv.next_iff, State.inv_mk, done, queueAt, queueTake, setXr, zeroWaitMe, leave]

theorem execQtrypop_inv (hs : s.Inv) (rd rs1) : OutInv (execQtrypop rd rs1 s) := by
  unfold execQtrypop
  grind [Ends.ok_iff, Ends.error_iff, except_bind, done, queueAt, queueTake, setXr]

theorem execQflush_inv (hs : s.Inv) (rs1) : OutInv (execQflush rs1 s) := by
  unfold execQflush
  refine hs.done ((hs.queueAt _).bind fun ⟨t, x⟩ hp => ?_)
  grind [Ends.ok_iff, Ends.error_iff, Stop.Inv, batchArrives, leaveRoom]

/-! ### Machine/EvCore -/

theorem State.Inv.registerWrite (hs : s.Inv) (e) : (s.registerWrite e).Inv := by
  unfold State.registerWrite
  grind [csrWrite, cfgWrite]

theorem execQvtypeWrite_inv (hs : s.Inv) : OutInv (execQvtypeWrite s) := by
  unfold execQvtypeWrite
  grind [OutInv.next_iff, csrWrite]

theorem execQvwinWrite_inv (hs : s.Inv) : OutInv (execQvwinWrite s) := by
  unfold execQvwinWrite
  grind [OutInv.next_iff, csrWrite]

theorem execQvstatAccess_inv (hs : s.Inv) : OutInv (execQvstatAccess s) := by
  unfold execQvstatAccess
  grind [OutInv.next_iff, settleQvstat, csrWrite]

theorem execCspartWrite_inv (hs : s.Inv) : OutInv (execCspartWrite s) := by
  unfold execCspartWrite
  grind [OutInv.next_iff, cspartBegin]

theorem execDoorbell_inv (hs : s.Inv) : OutInv (execDoorbell s) := by
  unfold execDoorbell
  grind [OutInv.next_iff, doorbellAt]

theorem execPreempt_inv (hs : s.Inv) : OutInv (execPreempt s) := by
  unfold execPreempt
  grind [OutInv.next_iff, preemptWrite]

theorem execTtEnableWrite_inv (hs : s.Inv) : OutInv (execTtEnableWrite s) := by
  unfold execTtEnableWrite
  grind [OutInv.next_iff, ttEnableWr]

theorem execSessionWrite_inv (hs : s.Inv) : OutInv (execSessionWrite s) := by
  unfold execSessionWrite
  grind [OutInv.next_iff, installKey, sessionWr]

theorem execHostBar2Request_inv (hs : s.Inv) : OutInv (execHostBar2Request s) := by
  unfold execHostBar2Request
  grind [OutInv.next_iff, bar2, bar0, measured]

theorem State.Inv.endWait (hs : s.Inv) (cid w k) : (s.endWait cid w k).Inv := by
  unfold State.endWait
  grind [State.inv_mk, retireCtx, modCtx, hexitNow, finish, popEvent, freeSlot]

theorem State.Inv.reinsert (hs : s.Inv) (cid) : (s.reinsert cid).Inv := by
  unfold State.reinsert
  grind [edge, endWait, modCtx, retireCtx, falignRelease]

theorem State.Inv.wrsTimeout (hs : s.Inv) (cid) : (s.wrsTimeout cid).Inv := by
  unfold State.wrsTimeout
  grind [modCtx]

theorem State.Inv.falignExpiry (hs : s.Inv) (cid) : (s.falignExpiry cid).Inv := by
  unfold State.falignExpiry
  grind [modCtx]

theorem State.Inv.decrementAt (hs : s.Inv) (d i) : (s.decrementAt d i).Inv := by
  unfold State.decrementAt
  grind [modDie, decrement, taskGone]

theorem execDeferredPark_inv (hs : s.Inv) : OutInv (execDeferredPark s) := by
  unfold execDeferredPark
  grind [OutInv.next_iff, parkEvent]

/-! ### Machine/Matrix -/

theorem State.Inv.mxSend (hs : s.Inv) (r again) : Ends State.Inv (s.mxSend r again) := .error ((hs.modCtx ..).modCtx ..)

theorem State.Inv.mxPlain (hs : s.Inv) (t op again) : Ends State.Inv (s.mxPlain t op again) := by
  unfold State.mxPlain
  grind [trap_inv, mxSend]

theorem execMxcfg_inv (hs : s.Inv) (rs1 target) : OutInv (execMxcfg rs1 target s) := by
  unfold execMxcfg
  refine hs.done ((need_inv ..).bind fun _ _ => (hs.deviceRead ..).bind fun ⟨t, x, v⟩ hp => ?_)
  dsimp only
  split
  · exact trap_inv ..
  · exact (need_inv ..).bind fun _ _ => (need_inv ..).bind fun _ _ => (State.Inv.watch hp ..).bind fun _ _ => State.Inv.mxPlain hp ..

theorem State.Inv.mxAsk (hs : s.Inv) (t q) : Ends State.Inv (s.mxAsk t q) := by
  unfold State.mxAsk
  grind [trap_inv, mxSend]

theorem execMxdup_inv (hs : s.Inv) (rs1 target) : OutInv (execMxdup rs1 target s) := by
  unfold execMxdup
  grind [Ends.error_iff, except_bind, done, need_inv, mxAsk]

theorem State.Inv.mxPages (hs : s.Inv) (cls nd rs) : Ends (fun p => p.1.Inv ∧ IfSome Stop.Inv p.2.2) (s.mxPages cls nd rs) := by
  induction rs generalizing s with
  | nil => exact .ok ⟨hs, .none⟩
  | cons r rs ih =>
    unfold State.mxPages
    refine (hs.scanPages ..).bind fun ⟨t, ps, e⟩ ⟨ht, he⟩ => (ih ht).bind fun ⟨u, qs, e'⟩ ⟨hu, he'⟩ => .ok ⟨hu, ?_⟩
    dsimp only
    split
    · exact he
    · exact .some (Cls.err_inv ..)
    · exact he'

theorem State.Inv.mxWatch (hs : s.Inv) (n g cap q store va) : Ends (fun _ => True) (s.mxWatch n g cap q store va) := by
  unfold State.mxWatch
  grind [except_bind, need_inv, watch]

theorem State.Inv.mxLdIssue (hs : s.Inv) (n g cfg gen buf ea cap) : Ends State.Inv (s.mxLdIssue n g cfg gen buf ea cap) := by
  unfold State.mxLdIssue
  dsimp only
  split
  · exact trap_inv ..
  refine (hs.mxPages ..).bind fun ⟨t, ps, e⟩ ⟨ht, he⟩ => ?_
  cases he with
  | some he => exact .error he
  | none => exact (need_inv ..).bind fun _ _ => (ht.mxWatch ..).bind fun _ _ => ht.mxSend ..

theorem State.Inv.mxStIssue (hs : s.Inv) (n g cfg gen acc ea cap) : Ends State.Inv (s.mxStIssue n g cfg gen acc ea cap) := by
  unfold State.mxStIssue
  dsimp only
  split
  · exact trap_inv ..
  refine (hs.mxPages ..).bind fun ⟨t, ps, e⟩ ⟨ht, he⟩ => ?_
  cases he with
  | some he => exact .error he
  | none => exact (ht.mxWatch ..).bind fun _ _ => ht.mxSend ..

theorem State.Inv.mxMap (hs : s.Inv) (va n) : Ends (fun p => p.1.Inv) (s.mxMap va n) := by
  induction n generalizing s va with
  | zero =>
    unfold State.mxMap
    grind [Ends.ok_iff, Ends.error_iff, except_bind, deviceRead]
  | succ n' ih =>
    unfold State.mxMap
    grind [Ends.ok_iff, Ends.error_iff, except_bind, deviceRead]

theorem State.Inv.mxDupIssue (hs : s.Inv) (n g cfg gen ea cap) : Ends State.Inv (s.mxDupIssue n g cfg gen ea cap) := by
  unfold State.mxDupIssue
  exact (hs.pages ..).bind fun p hp => (State.Inv.mxMap hp ..).bind fun q hq => (need_inv ..).bind fun _ _ =>
    (State.Inv.mxWatch hq ..).bind fun _ _ => State.Inv.mxSend hq ..

theorem State.Inv.mxQueried (hs : s.Inv) (cid) : (s.mxQueried cid).Inv := by
  unfold State.mxQueried
  grind [State.inv_mk, raiseCtx, mxLdIssue, mxStIssue, mxDupIssue, finish]

theorem State.Inv.replyTo (hs : s.Inv) (cid) : (s.replyTo cid).Inv := hs.modCtx ..

theorem State.Inv.mxArrives (hs : s.Inv) (cid) : (s.mxArrives cid).Inv := by
  unfold State.mxArrives
  split
  · rename_i g cap q _
    dsimp only
    split
    · exact hs
    split
    · exact hs.raiseCtx ..
    split
    · exact hs.raiseCtx ..
    cases q.op with
    | sync => exact State.Inv.modCtx (hs.modCluster ..) ..
    | _ => exact State.Inv.replyTo (hs.modCluster ..) _
  · exact hs

theorem State.Inv.mxStart (hs : s.Inv) (g i) : (s.mxStart g i).Inv := .ite hs hs

theorem State.Inv.mxRow.plain (g q h ea r) (hs : s.Inv) (kr a) : ((State.mxRow.plain g q h ea r s kr a).1).Inv := by
  unfold State.mxRow.plain
  grind [readSpan]

theorem State.Inv.mxRow (hs : s.Inv) (g q h ea r) : (s.mxRow g q h ea r).1.Inv := by
  unfold State.mxRow
  grind [mxRow.plain]

theorem State.Inv.mxRows (hs : s.Inv) (g q h ea r n) : (s.mxRows g q h ea r n).1.Inv := by
  induction n generalizing s r with
  | zero =>
    unfold State.mxRows
    grind [mxRow]
  | succ n' ih =>
    unfold State.mxRows
    grind [mxRow]

theorem State.Inv.mxStore (hs : s.Inv) (g q d ea i n) : (s.mxStore g q d ea i n).1.Inv := by
  induction n generalizing s i with
  | zero =>
    unfold State.mxStore
    grind [modCluster, writeSpan]
  | succ n' ih =>
    unfold State.mxStore
    grind [modCluster, writeSpan]

theorem State.Inv.mxFails (hs : s.Inv) (g i q cause pa) : (s.mxFails g i q cause pa).Inv := (hs.modCluster ..).putEvent ..

theorem State.Inv.mxRun (hs : s.Inv) (g q) : (s.mxRun g q).1.Inv := by
  unfold State.mxRun
  grind [modCluster, mxRows, mxStore]

theorem State.Inv.mxComplete (hs : s.Inv) (g i) : (s.mxComplete g i).Inv := by
  unfold State.mxComplete
  grind [mxRun, mxFails, modCluster, replyTo]

theorem State.Inv.mxDeliver (hs : s.Inv) (cid) : (s.mxDeliver cid).Inv := by
  unfold State.mxDeliver
  grind [mxComplete, mxStart, mxArrives]

theorem State.Inv.mxSettle (hs : s.Inv) (g uses fuel) : (s.mxSettle g uses fuel).Inv := by
  induction fuel generalizing s with
  | zero =>
    unfold State.mxSettle
    grind [mxComplete, mxStart]
  | succ n' ih =>
    unfold State.mxSettle
    grind [mxComplete, mxStart]

/-! ### Machine/VecQuant -/

theorem State.Inv.quantCheck (hs : s.Inv) (i typeOk limit fs) : Ends (fun _ => True) (s.quantCheck i typeOk limit fs) := by
  unfold State.quantCheck
  grind [illegal_inv, checkWindow]

theorem State.Inv.putWide (hs : s.Inv) (vd w xs) : (s.putWide vd w xs).Inv := (hs.setVr ..).modCtx ..
theorem State.Inv.wideMap (hs : s.Inv) (vd mk w cost result) : (s.wideMap vd mk w cost result).Inv := hs.putWide ..

theorem execVcvt_inv (hs : s.Inv) (vd code vs2 mk) : OutInv (execVcvt vd code vs2 mk s) := by
  unfold execVcvt
  grind [Ends.ok_iff, Ends.error_iff, except_bind, done, quantCheck, wideMap]

theorem execVamax_inv (hs : s.Inv) (vd vs2 mk) : OutInv (execVamax vd vs2 mk s) := by
  unfold execVamax
  grind [Ends.ok_iff, Ends.error_iff, except_bind, done, quantCheck, enqueueX, putWide]

theorem execVscale_inv (hs : s.Inv) (vd fmt vs2 mk) : OutInv (execVscale vd fmt vs2 mk s) := by
  unfold execVscale
  grind [Ends.ok_iff, Ends.error_iff, except_bind, done, quantCheck, wideMap]

theorem execVqlns_inv (hs : s.Inv) (vd vs1 vs2 mk) : OutInv (execVqlns vd vs1 vs2 mk s) := by
  unfold execVqlns
  grind [Ends.ok_iff, Ends.error_iff, except_bind, done, quantCheck, wideMap]

theorem execVdqlns_inv (hs : s.Inv) (vd vs1 vs2 mk) : OutInv (execVdqlns vd vs1 vs2 mk s) := by
  unfold execVdqlns
  grind [Ends.ok_iff, Ends.error_iff, except_bind, done, quantCheck, wideMap]

theorem execVqfp8_inv (hs : s.Inv) (vd vs1 vs2 mk) : OutInv (execVqfp8 vd vs1 vs2 mk s) := by
  unfold execVqfp8
  grind [Ends.ok_iff, Ends.error_iff, except_bind, done, quantCheck, wideMap]

theorem execVdqfp8_inv (hs : s.Inv) (vd vs1 vs2 mk) : OutInv (execVdqfp8 vd vs1 vs2 mk s) := by
  unfold execVdqfp8
  grind [Ends.ok_iff, Ends.error_iff, except_bind, done, quantCheck, wideMap]

theorem execVqsplit_inv (hs : s.Inv) (vd rs1 vs2 mk) : OutInv (execVqsplit vd rs1 vs2 mk s) := by
  unfold execVqsplit
  grind [Ends.ok_iff, Ends.error_iff, except_bind, done, quantCheck, enqueueX, putWide]

/-! ### Machine/Stack -/

theorem State.Inv.stackPages (hs : s.Inv) (rs) : Ends (fun p => p.1.Inv ∧ IfSome Stop.Inv p.2.2) (s.stackPages rs) := by
  induction rs generalizing s with
  | nil => exact .ok ⟨hs, .none⟩
  | cons r rs ih =>
    unfold State.stackPages
    refine (hs.scanPages ..).bind fun ⟨t, ps, e⟩ ⟨ht, he⟩ => (ih ht).bind fun ⟨u, qs, e'⟩ ⟨hu, he'⟩ => .ok ⟨hu, ?_⟩
    dsimp only
    split
    · exact he
    · exact .some (Cls.err_inv ..)
    · exact he'

theorem State.Inv.stackSources (hs : s.Inv) (ps va n) : (s.stackSources ps va n).1.Inv := by
  induction n generalizing s va with
  | zero =>
    unfold State.stackSources
    grind [loadBytes]
  | succ n' ih =>
    unfold State.stackSources
    grind [loadBytes]

theorem State.Inv.stackIssue (hs : s.Inv) (op rs1 rs2) : Ends State.Inv (s.stackIssue op rs1 rs2) := by
  unfold State.stackIssue
  refine (need_inv ..).bind fun _ _ => (hs.access ..).bind fun ⟨t, dx⟩ ht => (need_inv ..).bind fun _ _ => ?_
  have hl := State.Inv.loadBytes ht dx 64
  dsimp only at hl ⊢
  generalize t.loadBytes dx 64 = r at hl ⊢
  generalize BitVec.ofNat 512 r.2 = v
  refine (hl.stackPages _).bind fun ⟨t1, lp, late⟩ ⟨ht1, hlate⟩ => ?_
  replace ht1 : t1.Inv := ht1
  dsimp only at hlate ⊢
  have hq : ∀ b : Bool, (if b then t1.stackSources lp (stackDesc v).w18 (stackDesc v).count else (t1, [])).1.Inv := fun b => by
    cases b with
    | true => exact ht1.stackSources ..
    | false => exact ht1
  replace hq := hq (decide (op = .red) && stackSized op v && late.isNone)
  generalize (if (decide (op = .red) && stackSized op v && late.isNone) = true then t1.stackSources lp _ _ else (t1, [])) = q at hq ⊢
  refine (hq.stackPages _).bind fun ⟨t2, ps, late2⟩ ⟨ht2, hlate2⟩ => (ht2.targetOf ..).bind fun ⟨t3, target, late3⟩ ⟨ht3, hlate3⟩ => ?_
  have hall := (hlate.or hlate2).or hlate3
  dsimp only at hall ⊢
  generalize (late.or late2).or late3 = e at hall ⊢
  cases hall with
  | some he => exact .error he
  | none =>
    refine (need_inv ..).bind fun _ _ => (need_inv ..).bind fun _ _ => (need_inv ..).bind fun _ _ => (need_inv ..).bind fun _ _ => ?_
    cases target with
    | none => exact trap_inv ..
    | some t =>
      refine (need_inv ..).bind fun _ _ => (ht3.watchAll _).bind fun _ _ => ?_
      exact .ok (ht3.targetTaken ..)

theorem State.Inv.engineRead (hs : s.Inv) (ps fuel va n) : (s.engineRead ps fuel va n).1.Inv := by
  induction fuel generalizing s va n with
  | zero =>
    unfold State.engineRead
    grind [homeReadX]
  | succ n' ih =>
    unfold State.engineRead
    grind [homeReadX]

theorem State.Inv.engineWrite (hs : s.Inv) (ps w fuel va n v) : (s.engineWrite ps w fuel va n v).Inv := by
  induction fuel generalizing s va n v with
  | zero =>
    unfold State.engineWrite
    grind [homeWriteX]
  | succ n' ih =>
    unfold State.engineWrite
    grind [homeWriteX]

theorem State.Inv.tableRow (hs : s.Inv) (c lead va n) : (s.tableRow c lead va n).1.Inv := by
  unfold State.tableRow
  grind [Ends.ok_iff, scanPages, engineRead]

theorem State.Inv.stackUnit (hs : s.Inv) (c lead u) : (s.stackUnit c lead u).1.Inv := by
  have hr : ∀ (s : State) (ps fuel va n), s.Inv → (s.engineRead ps fuel va n).1.Inv := fun _ ps f va n h => h.engineRead ps f va n
  unfold State.stackUnit
  -- a variable, so that the kernel does not evaluate it (as in `State.Inv.slotTake`)
  generalize State.engineRead = read at hr ⊢
  revert read
  refine id fun read hr => ?_
  cases c.op with
  | gath => grind [tableRow]
  | conv => grind
  | red =>
    refine List.foldlRecOn c.srcs (motive := fun q : State × List Nat => q.1.Inv) _ hs fun q hq a _ => ?_
    exact hr _ _ _ _ _ hq
  | gemv =>
    dsimp only
    refine List.foldlRecOn (List.range _) (motive := fun q : State × Nat × Flags => q.1.Inv) _ hs fun q hq a _ => ?_
    exact hr _ _ _ _ _ (hr _ _ _ _ _ hq)

theorem State.Inv.stackRun (hs : s.Inv) (lead n c) : (s.stackRun lead n c).1.Inv := by
  induction n generalizing s c with
  | zero =>
    unfold State.stackRun
    grind [foldl_inv, stackUnit, engineWrite, phaserDecrement]
  | succ n' ih =>
    unfold State.stackRun
    grind [foldl_inv, stackUnit, engineWrite, phaserDecrement]

theorem State.Inv.setStackCmd (hs : s.Inv) (lead i c) : (s.setStackCmd lead i c).Inv := hs

theorem State.Inv.stackFails (hs : s.Inv) (lead i c cause pa) : (s.stackFails lead i c cause pa).Inv := by
  unfold State.stackFails
  grind [setStackCmd, changeHandle, putEvent]

theorem State.Inv.stackTiles (hs : s.Inv) (c) : (s.stackTiles c).Inv := by
  unfold State.stackTiles
  grind [foldl_inv, tilePush, tileRecall]

theorem State.Inv.stackAdvance (hs : s.Inv) (lead i n) : (s.stackAdvance lead i n).Inv := by
  unfold State.stackAdvance
  grind [stackRun, stackTiles, stackFails, setStackCmd, homeWriteX, changeHandle, phaserDecrement]

theorem State.Inv.stackFinish (hs : s.Inv) (lead i) : (s.stackFinish lead i).Inv := by
  unfold State.stackFinish
  grind [stackAdvance]

/-! ### Machine/Translate -/

theorem State.Inv.finishCopies (hs : s.Inv) (g uses fuel) : (s.finishCopies g uses fuel).Inv := by
  induction fuel generalizing s with
  | zero =>
    unfold State.finishCopies
    grind [sealedEnd, copyAdvance]
  | succ n' ih =>
    unfold State.finishCopies
    grind [sealedEnd, copyAdvance]

theorem State.Inv.finishStack (hs : s.Inv) (lead uses fuel) : (s.finishStack lead uses fuel).Inv := by
  induction fuel generalizing s with
  | zero =>
    unfold State.finishStack
    grind [stackFinish]
  | succ n' ih =>
    unfold State.finishStack
    grind [stackFinish]

theorem State.Inv.finishStagings (hs : s.Inv) (d uses) : (s.finishStagings d uses).Inv := by
  unfold State.finishStagings
  grind [foldl_inv, stagingComplete]

theorem State.Inv.finishShadows (hs : s.Inv) (g uses) : (s.finishShadows g uses).Inv := by
  unfold State.finishShadows
  grind [foldl_inv, batchArrives]

theorem State.Inv.finishEngines (hs : s.Inv) (uses) : (s.finishEngines uses).Inv := by
  unfold State.finishEngines
  grind [foldl_inv, finishCopies, finishStack, mxDeliver, mxSettle, finishStagings]

theorem State.Inv.finishAccesses (hs : s.Inv) (cid uses) : (s.finishAccesses cid uses).Inv := by
  unfold State.finishAccesses
  grind [settle, flushWhere, decideSends, expireSends]

theorem State.Inv.dropXlats (hs : s.Inv) (icache scope g va asid) : (s.dropXlats icache scope g va asid).Inv := hs

theorem State.Inv.qsFence (hs : s.Inv) (icache scope rs1 rs2) : Ends State.Inv (s.qsFence icache scope rs1 rs2) := by
  unfold State.qsFence
  grind [Ends.ok_iff, Ends.error_iff, Stop.Inv, except_bind, foldl_inv, State.inv_mk, drainStores, dropXlats, finishAccesses,
    finishEngines,
    finishShadows]

theorem execQsfence_inv (hs : s.Inv) (icache scope rs1 rs2) : OutInv (execQsfence icache scope rs1 rs2 s) := by
  unfold execQsfence
  grind [done, illegal_inv, qsFence]

theorem execSfenceVma_inv (hs : s.Inv) (rs1 rs2) : OutInv (execSfenceVma rs1 rs2 s) := by
  unfold execSfenceVma
  grind [done, illegal_inv, qsFence]

theorem wf_copyLines (m : Memory) (a b n : Nat) (h : Memory.wf m = true) : Memory.wf (copyLines m a b n) = true := by
  induction n generalizing m a b with
  | zero => exact h
  | succ n ih => exact ih _ _ _ (wf_mwrite _ _ _ _ h)
theorem State.Inv.migrate (hs : s.Inv) (x m) : (s.migrate x m).Inv := by
  unfold State.migrate
  extract_lets lines s1 s2 s3 s4 g
  have h1 : s1.Inv := foldl_inv (fun _ _ h => ((h.recallTiles ..).applyPending _).backInvalidate _) hs _
  have h2 : s2.Inv := foldl_inv (fun _ _ h => h.homeOwn _) h1 _
  have h3 : s3.Inv := foldl_inv (fun _ _ h => h.homeOwn _) h2 _
  have h4 : s4.Inv := by
    refine .ite h1 ?_
    exact ⟨wf_copyLines _ _ _ _ h3.1, h3.2⟩
  clear_value s4
  have hr := h4.readMem g s4.me.tid s4.me.qtid (physXlat x.pteAddr) 8
  generalize s4.readMem g s4.me.tid s4.me.qtid (physXlat x.pteAddr) 8 = r at hr ⊢
  obtain ⟨t, p⟩ := r
  replace hr : t.Inv := hr
  dsimp -zeta only
  extract_lets p1 p2 off u asid
  have hu : u.Inv := .ite hr (hr.writeMem ..)
  exact ⟨hu.1, (risingFrom_map _ (by exact fun _ => rfl) 0 u.ctxs).trans hu.2⟩

theorem State.Inv.migratePage (hs : s.Inv) (va) : Ends (fun p => p.1.Inv) (s.migratePage va) := by
  unfold State.migratePage
  grind [Ends.ok_iff, Ends.error_iff, Stop.Inv, except_bind, IfOk.ok_iff, IfOk.error, State.inv_mk, xlate, Cls.err_inv]

theorem execPgmig_inv (hs : s.Inv) (rd rs1 rs2) : OutInv (execPgmig rd rs1 rs2 s) := by
  unfold execPgmig
  grind [Ends.ok_iff, Ends.error_iff, Stop.Inv, except_bind, OutInv.next_iff, State.inv_mk, done, illegal_inv, settleMe,
    migratePage,
    finishEngines, setXr, migrate, tick]

/-! ### Machine/EvUnits -/

theorem execStoreBufferEntryPerform_inv (hs : s.Inv) : OutInv (execStoreBufferEntryPerform s) := by
  unfold execStoreBufferEntryPerform
  grind [OutInv.next_iff, performEntry]

theorem execLaneGroupGrant_inv (hs : s.Inv) : OutInv (execLaneGroupGrant s) := by
  unfold execLaneGroupGrant
  grind [OutInv.next_iff, foldl_inv, headRoom, trimQueues, arbitrate]

theorem execHomeRequestArrival_inv (hs : s.Inv) : OutInv (execHomeRequestArrival s) := by
  unfold execHomeRequestArrival
  grind [OutInv.next_iff, demandArrival, requestArrival]

theorem execRemoteScratchpadAccess_inv (hs : s.Inv) : OutInv (execRemoteScratchpadAccess s) := by
  unfold execRemoteScratchpadAccess
  grind [OutInv.next_iff, performPosted]

theorem execAccSendArrival_inv (hs : s.Inv) : OutInv (execAccSendArrival s) := by
  unfold execAccSendArrival
  grind [OutInv.next_iff, decideAt, meetTiles, sendArrives]

theorem State.Inv.answerOf (hs : s.Inv) (i accepted) : (s.answerOf i accepted).Inv := by
  unfold State.answerOf
  grind [answerReturns]

theorem State.Inv.residualFlush (hs : s.Inv) (k i) : (s.residualFlush k i).Inv := by
  unfold State.residualFlush
  grind [flushEntry]

theorem State.Inv.tileServe (hs : s.Inv) (g pa excl tid task) : (s.tileServe g pa excl tid task).Inv := by
  unfold State.tileServe
  grind [tileRequest]

theorem execTileForwardStart_inv (hs : s.Inv) : OutInv (execTileForwardStart s) := by
  unfold execTileForwardStart
  grind [OutInv.next_iff, performEntry]

theorem execTilePushArrival_inv (hs : s.Inv) : OutInv (execTilePushArrival s) := by
  unfold execTilePushArrival
  grind [OutInv.next_iff, tilePush]

theorem State.Inv.copyBytes (hs : s.Inv) (g i n) : (s.copyBytes g i n).Inv := .ite (hs.copyAdvance ..) hs

theorem execPhaserBytesDecrement_inv (hs : s.Inv) : OutInv (execPhaserBytesDecrement s) := by
  unfold execPhaserBytesDecrement
  grind [OutInv.next_iff, stackAdvance, copyBytes]

theorem State.Inv.faultEnd (hs : s.Inv) (stack u i) : (s.faultEnd stack u i).Inv := by
  unfold State.faultEnd
  grind [stackRun, stackFinish, copyRun, copyAdvance]

theorem execSealedCopyEnd_inv (hs : s.Inv) : OutInv (execSealedCopyEnd s) := by
  unfold execSealedCopyEnd
  grind [OutInv.next_iff, sealedEnd]

theorem State.Inv.mxFaultEnd (hs : s.Inv) (g i) : (s.mxFaultEnd g i).Inv := by
  unfold State.mxFaultEnd
  grind [mxRun, mxComplete]

theorem execShuttleBatchArrival_inv (hs : s.Inv) : OutInv (execShuttleBatchArrival s) := by
  unfold execShuttleBatchArrival
  grind [OutInv.next_iff, peerBatch, batchArrives]

theorem State.Inv.ctxTimeout (hs : s.Inv) (cid) : (s.ctxTimeout cid).Inv := by
  unfold State.ctxTimeout
  grind [raiseCtx, modCtx, leaveSlots]

theorem State.Inv.copyTimeout (hs : s.Inv) (g i pa) : (s.copyTimeout g i pa).Inv := by
  unfold State.copyTimeout
  grind [copyFails, tick, sealedFails]

theorem State.Inv.stackTimeout (hs : s.Inv) (lead i pa) : (s.stackTimeout lead i pa).Inv := by
  unfold State.stackTimeout
  grind [stackFails]

theorem State.Inv.mxTimeout (hs : s.Inv) (g i pa) : (s.mxTimeout g i pa).Inv := by
  unfold State.mxTimeout
  grind [mxFails]

theorem State.Inv.postedExpires (hs : s.Inv) (k i done) : (s.postedExpires k i done).Inv := by
  unfold State.postedExpires
  grind [postedEnds]

theorem State.Inv.requestTimeout (hs : s.Inv) (e) : (s.requestTimeout e).Inv := by
  unfold State.requestTimeout
  grind [ctxTimeout, postedExpires, sendTimeout, copyTimeout, stackTimeout, mxTimeout, victimTimeout, storeExpires, peerLink]

/-! ### Machine/Fp -/

theorem execFpArithmetic_inv (hs : s.Inv) (op) : OutInv (execFpArithmetic op s) := by
  unfold execFpArithmetic
  grind [Ends.ok_iff, done, illegal_inv, modCtx]

/-! ### Machine/Integer -/

theorem State.Inv.transfer (hs : s.Inv) (target) : Ends State.Inv (s.transfer target) := by
  unfold State.transfer
  grind [Ends.error_iff, Stop.Inv, trap_inv]

theorem execBranch_inv (hs : s.Inv) (op rs1 rs2 imm) : OutInv (execBranch op rs1 rs2 imm s) := by
  unfold execBranch
  grind [Ends.ok_iff, done, transfer]

theorem execJump_inv (hs : s.Inv) (op) : OutInv (execJump op s) := by
  unfold execJump
  grind [Ends.error_iff, Stop.Inv, done, trap_inv, setXr]

/-! ### Machine/PhaserOps -/

theorem State.Inv.phaserAt (hs : s.Inv) (p) : Ends (fun p => p.1.Inv) (s.phaserAt p) := by
  unfold State.phaserAt
  exact (need_inv ..).bind fun _ _ => (hs.access ..).bind fun p hp => (need_inv ..).bind fun _ _ => .ok hp

theorem State.Inv.phaserRead (hs : s.Inv) (p x) : Ends (fun p => p.1.Inv) (s.phaserRead p x) := by
  unfold State.phaserRead
  grind [Ends.ok_iff, Ends.error_iff, Stop.Inv, phaser, ownFirst, raise]

theorem State.Inv.phaserMember (hs : s.Inv) (i up rd rs1 mode) : Ends State.Inv (s.phaserMember i up rd rs1 mode) := by
  unfold State.phaserMember
  dsimp only
  split
  · exact illegal_inv ..
  refine (hs.phaserAt _).bind fun p hp => (State.Inv.phaserRead hp ..).bind fun q hq => ?_
  split
  · exact State.Inv.late hq ..
  · exact .ok ((State.Inv.putPhaser hq ..).setXr ..)

theorem execPharv_inv (hs : s.Inv) (rd rs1 wait flush) : OutInv (execPharv rd rs1 wait flush s) := by
  unfold execPharv
  grind [Ends.ok_iff, Ends.error_iff, Stop.Inv, except_bind, OutInv.next_iff, State.inv_mk, done, phaserAt, flushRange, settleMe,
    phaserRead,
    late, setXr, putPhaser, zeroWaitMe, leave]

theorem execPhwait_inv (hs : s.Inv) (rs1 rs2) : OutInv (execPhwait rs1 rs2 s) := by
  unfold execPhwait
  grind [Ends.ok_iff, Ends.error_iff, Stop.Inv, except_bind, OutInv.next_iff, State.inv_mk, done, phaserAt, phaserRead, zeroWaitMe, leave]

theorem execPhbytes_inv (hs : s.Inv) (rs1 rs2) : OutInv (execPhbytes rs1 rs2 s) := by
  unfold execPhbytes
  grind [Ends.ok_iff, Ends.error_iff, except_bind, done, phaserAt, phaserRead, late, putPhaser]

/-! ### Machine/System -/

theorem execFence_inv (hs : s.Inv) (fm pred succ rd rs1) : OutInv (execFence fm pred succ rd rs1 s) := by
  unfold execFence
  grind [Ends.ok_iff, done, drainStores]

theorem execWfi_inv (hs : s.Inv) : OutInv (execWfi s) := by
  unfold execWfi
  grind [Ends.ok_iff, done, illegal_inv]

theorem execEbreak_inv (hs : s.Inv) : OutInv (execEbreak s) := by
  unfold execEbreak
  grind [Ends.error_iff, Stop.Inv, done, haltHit, modCtx, trap_inv]

theorem State.Inv.wrs (hs : s.Inv) (k limit) : Ends State.Inv (s.wrs k limit) := by
  unfold State.wrs
  grind [Ends.ok_iff, Ends.error_iff, Stop.Inv, zeroWaitMe, leave]

theorem execXret_inv (hs : s.Inv) (machine) : OutInv (execXret machine s) := by
  unfold execXret
  grind [Ends.error_iff, Stop.Inv, done, illegal_inv, modCtx]

/-! ### Machine/VecFp -/

theorem State.Inv.vecFp (hs : s.Inv) (i k vd vs2 mk fs a) : Ends State.Inv (s.vecFp i k vd vs2 mk fs a) := by
  unfold State.vecFp
  grind [Ends.ok_iff, Ends.error_iff, except_bind, vecCheck, vecMap]

theorem State.Inv.vecFpVv (hs : s.Inv) (i k vd vs1 vs2 mk) : Ends State.Inv (s.vecFpVv i k vd vs1 vs2 mk) := hs.vecFp ..
theorem State.Inv.vecFpVf (hs : s.Inv) (i k vd rs1 vs2 mk) : Ends State.Inv (s.vecFpVf i k vd rs1 vs2 mk) := hs.vecFp ..

/-! ### Machine/VecInt -/

theorem State.Inv.vecInt (hs : s.Inv) (k vd vs2 mk a) : (s.vecInt k vd vs2 mk a).Inv := by
  unfold State.vecInt
  grind [vecMap]

theorem State.Inv.vecIntVv (hs : s.Inv) (i k vd vs1 vs2 mk) : Ends State.Inv (s.vecIntVv i k vd vs1 vs2 mk) := by
  unfold State.vecIntVv
  grind [Ends.ok_iff, Ends.error_iff, except_bind, vecCheck, vecInt]

theorem State.Inv.vecIntVx (hs : s.Inv) (i k vd rs1 vs2 mk) : Ends State.Inv (s.vecIntVx i k vd rs1 vs2 mk) := by
  unfold State.vecIntVx
  grind [Ends.ok_iff, Ends.error_iff, except_bind, vecCheck, vecInt]

/-! ### Machine/VecMask -/

theorem State.Inv.maskMap (hs : s.Inv) (md mk bitAt) : (s.maskMap md mk bitAt).Inv := (hs.modCtx ..).enqueueE ..

theorem State.Inv.vecCmp (hs : s.Inv) (i k md vs1 vs2 mk) : Ends State.Inv (s.vecCmp i k md vs1 vs2 mk) := by
  unfold State.vecCmp
  grind [Ends.ok_iff, Ends.error_iff, except_bind, vecCheck, maskMap]

theorem State.Inv.vecFcmp (hs : s.Inv) (i k md vs1 vs2 mk) : Ends State.Inv (s.vecFcmp i k md vs1 vs2 mk) := by
  unfold State.vecFcmp
  grind [Ends.ok_iff, Ends.error_iff, except_bind, vecCheck, modCtx, maskMap]

theorem State.Inv.maskOp (hs : s.Inv) (i md mk bitAt) : Ends State.Inv (s.maskOp i md mk bitAt) := by
  unfold State.maskOp
  grind [Ends.ok_iff, Ends.error_iff, except_bind, vecCheck, maskMap]

theorem execVpopc_inv (hs : s.Inv) (rd vs2 mk) : OutInv (execVpopc rd vs2 mk s) := by
  unfold execVpopc
  grind [Ends.ok_iff, Ends.error_iff, except_bind, done, vecCheck, setXr, engineReply]

theorem execVfirst_inv (hs : s.Inv) (rd vs2 mk) : OutInv (execVfirst rd vs2 mk s) := by
  unfold execVfirst
  grind [Ends.ok_iff, Ends.error_iff, except_bind, done, vecCheck, setXr, engineReply]

theorem State.Inv.permMap (hs : s.Inv) (vd mk result) : (s.permMap vd mk result).Inv := hs.putElems ..

theorem execVperm_inv (hs : s.Inv) (vd vs1 vs2 mk) : OutInv (execVperm vd vs1 vs2 mk s) := by
  unfold execVperm
  grind [Ends.ok_iff, Ends.error_iff, except_bind, done, vecCheck, permMap]

theorem execVslideup_inv (hs : s.Inv) (vd rs1 vs2 mk) : OutInv (execVslideup vd rs1 vs2 mk s) := by
  unfold execVslideup
  grind [Ends.ok_iff, Ends.error_iff, except_bind, done, vecCheck, permMap]

theorem execVslidedn_inv (hs : s.Inv) (vd rs1 vs2 mk) : OutInv (execVslidedn vd rs1 vs2 mk s) := by
  unfold execVslidedn
  grind [Ends.ok_iff, Ends.error_iff, except_bind, done, vecCheck, permMap]

theorem execVbcast_inv (hs : s.Inv) (vd rs1 mk) : OutInv (execVbcast vd rs1 mk s) := by
  unfold execVbcast
  grind [Ends.ok_iff, Ends.error_iff, except_bind, done, vecCheck, vecMap]

theorem execVid_inv (hs : s.Inv) (vd mk) : OutInv (execVid vd mk s) := by
  unfold execVid
  grind [Ends.ok_iff, Ends.error_iff, except_bind, done, vecCheck, vecMap]

theorem execVcompress_inv (hs : s.Inv) (vd vs1 vs2 mk) : OutInv (execVcompress vd vs1 vs2 mk s) := by
  unfold execVcompress
  grind [Ends.ok_iff, Ends.error_iff, except_bind, done, vecCheck, permMap]

theorem State.Inv.vecClmul (hs : s.Inv) (i high vd vs1 vs2 mk) : Ends State.Inv (s.vecClmul i high vd vs1 vs2 mk) := by
  unfold State.vecClmul
  grind [Ends.ok_iff, Ends.error_iff, except_bind, vecCheck, vecMap]

theorem State.Inv.reduce (hs : s.Inv) (vd cost r) : (s.reduce vd cost r).Inv := .ite hs (hs.putElems ..)

theorem State.Inv.vecRed (hs : s.Inv) (i k vd vs1 vs2 mk) : Ends State.Inv (s.vecRed i k vd vs1 vs2 mk) := by
  unfold State.vecRed
  grind [Ends.ok_iff, Ends.error_iff, except_bind, vecCheck, reduce]

theorem State.Inv.vecFredMinMax (hs : s.Inv) (i mx vd vs1 vs2 mk) : Ends State.Inv (s.vecFredMinMax i mx vd vs1 vs2 mk) := by
  unfold State.vecFredMinMax
  grind [Ends.ok_iff, Ends.error_iff, except_bind, vecCheck, reduce]

theorem execVfredsum_inv (hs : s.Inv) (vd vs1 vs2 mk) : OutInv (execVfredsum vd vs1 vs2 mk s) := by
  unfold execVfredsum
  grind [Ends.ok_iff, Ends.error_iff, except_bind, done, vecCheck, reduce]

/-! ### Machine/VecMem -/

theorem State.Inv.chunkPages (hs : s.Inv) (cls nd cs) : Ends (fun p => p.1.Inv ∧ IfSome Stop.Inv p.2.2) (s.chunkPages cls nd cs) := by
  induction cs generalizing s with
  | nil =>
    unfold State.chunkPages
    grind [Ends.ok_iff, Ends.error_iff, Stop.Inv, except_bind, IfSome.some_iff, IfSome.none, IfOk.ok_iff, IfOk.error, State.inv_mk, xlate, Cls.err_inv]
  | cons a' l' ih =>
    unfold State.chunkPages
    grind [Ends.ok_iff, Ends.error_iff, Stop.Inv, except_bind, IfSome.some_iff, IfSome.none, IfOk.ok_iff, IfOk.error, State.inv_mk, xlate, Cls.err_inv]

theorem State.Inv.watchChunks (_ : s.Inv) (store cs) : Ends (fun _ => True) (s.watchChunks store cs) := by
  unfold State.watchChunks
  grind [Ends.ok_iff, Ends.error_iff, Stop.Inv, trap_inv]

theorem State.Inv.vecMemCheck (hs : s.Inv) (i f store v base els) : Ends (fun p => p.1.Inv) (s.vecMemCheck i f store v base els) := by
  unfold State.vecMemCheck
  extract_lets ix
  clear_value ix
  split
  · exact illegal_inv ..
  refine (hs.checkWindow _).bind fun _ _ => ?_
  dsimp only
  generalize List.flatMap _ els = cs
  split
  · exact trap_inv ..
  refine (hs.chunkPages ..).bind fun ⟨t, xs, e⟩ ⟨ht, he⟩ => ?_
  cases he with
  | some he => exact .error he
  | none => exact (ht.watchChunks ..).bind fun _ _ => .ok ht

theorem State.Inv.vecReport (hs : s.Inv) (fails) : (s.vecReport fails).Inv := by
  unfold State.vecReport
  grind [State.inv_mk, vecRecord]

theorem State.Inv.readChunks (hs : s.Inv) (cs) : (s.readChunks cs).1.Inv := by
  induction cs generalizing s with
  | nil =>
    unfold State.readChunks
    grind [loadBytes]
  | cons a' l' ih =>
    unfold State.readChunks
    grind [loadBytes]

theorem State.Inv.countBatch (hs : s.Inv) (s0 xs) : (s.countBatch s0 xs).Inv := by
  unfold State.countBatch
  grind [foldl_inv, countReads, modSlice]

theorem State.Inv.standElems (hs : s.Inv) (ks) : (s.standElems ks).Inv := by
  unfold State.standElems
  grind [foldl_inv, modSlice]

theorem State.Inv.vecLoad (hs : s.Inv) (i f cost vd base mk) : Ends State.Inv (s.vecLoad i f cost vd base mk) := by
  unfold State.vecLoad
  grind [Ends.ok_iff, Ends.error_iff, except_bind, vecMemCheck, readChunks, countBatch, putElems, enqueueE, vecReport]

theorem State.Inv.elemWrite (hs : s.Inv) (key i x n v) : (s.elemWrite key i x n v).Inv := by
  unfold State.elemWrite
  grind [modCore, restorePhaser, writeMem]

theorem State.Inv.storeChunk (hs : s.Inv) (key packed c x v) : (s.storeChunk key packed c x v).Inv := by
  unfold State.storeChunk
  grind [loadBytes, elemWrite]

theorem State.Inv.writeChunks (hs : s.Inv) (key packed value cs) : (s.writeChunks key packed value cs).1.Inv := by
  unfold State.writeChunks
  grind [foldl_inv, storeChunk]

theorem State.Inv.vecIssued (hs : s.Inv) (key fails) : (s.vecIssued key fails).Inv := .ite (hs.vecReport ..) hs

theorem State.Inv.vecStore (hs : s.Inv) (i f vs3 base els value) : Ends State.Inv (s.vecStore i f vs3 base els value) := by
  unfold State.vecStore
  grind [Ends.ok_iff, Ends.error_iff, except_bind, vecMemCheck, drainStores, writeChunks, vecIssued]

theorem execVst_inv (hs : s.Inv) (vs3 rs1 mk) : OutInv (execVst vs3 rs1 mk s) := hs.done ((hs.vecStore ..).map fun _ h => h.enqueueE ..)
theorem execVstSt_inv (hs : s.Inv) (vs3 rs1 rs2 mk) : OutInv (execVstSt vs3 rs1 rs2 mk s) := hs.done ((hs.vecStore ..).map fun _ h => h.enqueueE ..)
theorem execVstIx_inv (hs : s.Inv) (vs3 rs1 vs2 mk) : OutInv (execVstIx vs3 rs1 vs2 mk s) := hs.done ((hs.vecStore ..).map fun _ h => h.enqueueE ..)

theorem execVstBc_inv (hs : s.Inv) (vs3 rs1 mk) : OutInv (execVstBc vs3 rs1 mk s) := by
  unfold execVstBc
  grind [Ends.ok_iff, except_bind, done, vecStore, enqueueX]

theorem State.Inv.setWinReg (hs : s.Inv) (n v) : (s.setWinReg n v).Inv := hs

theorem execVmovi_inv (hs : s.Inv) (vd vs2) : OutInv (execVmovi vd vs2 s) := by
  unfold execVmovi
  grind [Ends.ok_iff, Ends.error_iff, except_bind, done, vecCheck, enqueueE, setVr]

theorem execVmoviw_inv (hs : s.Inv) (vs3 vs2) : OutInv (execVmoviw vs3 vs2 s) := by
  unfold execVmoviw
  grind [Ends.ok_iff, Ends.error_iff, Stop.Inv, except_bind, OutInv.next_iff, foldl_inv, State.inv_mk, done, vecCheck, enqueueE, setWinReg]

theorem State.Inv.checkIndex (hs : s.Inv) (f n) : Ends (fun _ => True) (s.checkIndex f n) := by
  unfold State.checkIndex
  grind [except_bind, checkWindow, trap_inv]

theorem execVrdx_inv (hs : s.Inv) (vd rs1) : OutInv (execVrdx vd rs1 s) := by
  unfold execVrdx
  grind [Ends.ok_iff, Ends.error_iff, except_bind, done, checkIndex, enqueueV, setVr]

theorem execVwrx_inv (hs : s.Inv) (vs3 rs1) : OutInv (execVwrx vs3 rs1 s) := by
  unfold execVwrx
  grind [Ends.ok_iff, Ends.error_iff, except_bind, done, checkIndex, enqueueV, setWinReg]

theorem execVsetl_inv (hs : s.Inv) (rd rs1 etype) : OutInv (execVsetl rd rs1 etype s) := by
  unfold execVsetl
  grind [Ends.ok_iff, Ends.error_iff, except_bind, done, need_inv, checkRoom, engineReply, modCtx]

theorem execVextract_inv (hs : s.Inv) (rd rs1 vs2) : OutInv (execVextract rd rs1 vs2 s) := by
  unfold execVextract
  grind [Ends.ok_iff, Ends.error_iff, except_bind, done, vecCheck, setXr, engineReply]

theorem execVinsert_inv (hs : s.Inv) (vd rs1 rs2) : OutInv (execVinsert vd rs1 rs2 s) := by
  unfold execVinsert
  grind [Ends.ok_iff, Ends.error_iff, except_bind, done, vecCheck, putElems, enqueueV]

end Sys2Proof.Machine
end

