-- ==== Sys2Proof/Proofs/KeepsInvariants/Step.lean ====
section
/-! Whatever `exec` is given, and so every step, keeps the invariants. -/

namespace Sys2Proof.Machine

open State.Inv

variable {s : State}

/-! ### Machine/Dispatch -/

theorem exec_inv (hs : s.Inv) (i) : OutInv (exec i s) := by
  cases i with
  | load k rd rs1 imm => exact execLoad_inv hs k rd rs1 imm
  | store k rs1 rs2 imm => exact execStore_inv hs k rs1 rs2 imm
  | lr dbl aq rl rd rs1 => exact execLr_inv hs dbl aq rl rd rs1
  | sc dbl aq rl rd rs1 rs2 => exact execSc_inv hs dbl aq rl rd rs1 rs2
  | amo op dbl aq rl rd rs1 rs2 => exact execAmo_inv hs op dbl aq rl rd rs1 rs2
  | integerDivide | mprobe | integerArithmetic => exact hs.done (.ok (hs.setXr ..))
  | csrAccess op isImm rd src csr => exact execCsrAccess_inv hs op isImm rd src csr
  | fence fm pred succ rd rs1 => exact execFence_inv hs fm pred succ rd rs1
  | fenceTso => exact hs.done (.ok (hs.drainStores ..))
  | fenceI => exact hs.done (.ok ((hs.drainStores ..).modCore ..))
  | wfi => exact execWfi_inv hs
  | ecall | illegalInstructionWord => exact hs.done (trap_inv ..)
  | ebreak => exact execEbreak_inv hs
  | sfenceVma rs1 rs2 => exact execSfenceVma_inv hs rs1 rs2
  | wrsNto | wrsSto => exact hs.done (hs.wrs ..)
  | ldo rd rs1 scope op w_ => exact execLdo_inv hs rd rs1 scope op w_
  | sto rs1 rs2 scope op w_ => exact execSto_inv hs rs1 rs2 scope op w_
  | wbr | invr | wbinvr => exact hs.done (hs.rangeOp ..)
  | disct rs1 => exact execDisct_inv hs rs1
  | fenceS => exact hs.done (.ok (hs.fenceSets ..))
  | qsfence icache scope rs1 rs2 => exact execQsfence_inv hs icache scope rs1 rs2
  | pgmig rd rs1 rs2 => exact execPgmig_inv hs rd rs1 rs2
  | tdecl => exact hs.done (hs.declare ..)
  | tfree rs1 => exact execTfree_inv hs rs1
  | tacq rs1 scope excl => exact execTacq_inv hs rs1 scope excl
  | trel rs1 scope => exact execTrel_inv hs rs1 scope
  | tfwd rel rs1 rs2 => exact execTfwd_inv hs rel rs1 rs2
  | tstat rd rs1 => exact execTstat_inv hs rd rs1
  | accF vs rs1 => exact execAccF_inv hs vs rs1
  | accX | accI => exact hs.done (hs.accumulate ..)
  | flres rs1 rs2 => exact execFlres_inv hs rs1 rs2
  | amos rd rs1 rs2 scope op => exact execAmos_inv hs rd rs1 rs2 scope op
  | cpy | cpyDc | cpyPh | cpyDcPh => exact hs.done (hs.copyIssue ..)
  | cpstep | cpmark | trace => exact hs.done (.ok (hs.enter ..))
  | bhwait rd rs1 rs2 => exact execBhwait_inv hs rd rs1 rs2
  | bhset rs1 rs2 => exact execBhset_inv hs rs1 rs2
  | stgreq rs1 rs2 => exact execStgreq_inv hs rs1 rs2
  | hsgath | hsred | hsconv | hsgemv => exact hs.done (hs.stackIssue ..)
  | hstart rd rs1 rs2 => exact execHstart_inv hs rd rs1 rs2
  | hexit rs1 => exact execHexit_inv hs rs1
  | hjoin rd rs1 => exact execHjoin_inv hs rd rs1
  | falign rs1 => exact execFalign_inv hs rs1
  | loopSet rs1 imm => exact execLoopSet_inv hs rs1 imm
  | loopClr => exact hs.done (.ok (hs.modCtx ..))
  | spawn rd rs1 => exact execSpawn_inv hs rd rs1
  | tnext rd => exact execTnext_inv hs rd
  | tarm rs1 rs2 => exact execTarm_inv hs rs1 rs2
  | launch rd rs1 rs2 => exact execLaunch_inv hs rd rs1 rs2
  | tresume rs1 => exact execTresume_inv hs rs1
  | tkill rs1 => exact execTkill_inv hs rs1
  | phreg | phdereg => exact hs.done (hs.phaserMember ..)
  | pharv rd rs1 wait flush => exact execPharv_inv hs rd rs1 wait flush
  | phwait rs1 rs2 => exact execPhwait_inv hs rs1 rs2
  | phbytes rs1 rs2 => exact execPhbytes_inv hs rs1 rs2
  | mbeat rs1 rs2 => exact execMbeat_inv hs rs1 rs2
  | msend rs1 rs2 => exact execMsend_inv hs rs1 rs2
  | mpost rd rs1 => exact execMpost_inv hs rd rs1
  | mrecv rd rs1 => exact execMrecv_inv hs rd rs1
  | mcancel rd rs1 => exact execMcancel_inv hs rd rs1
  | qpush rs1 rs2 => exact execQpush_inv hs rs1 rs2
  | qpop rd rs1 => exact execQpop_inv hs rd rs1
  | qtrypop rd rs1 => exact execQtrypop_inv hs rd rs1
  | qflush rs1 => exact execQflush_inv hs rs1
  | evpop rd rs1 => exact execEvpop_inv hs rd rs1
  | evwait rd rs1 => exact execEvwait_inv hs rd rs1
  | cpdump rd rs1 rs2 => exact execCpdump_inv hs rd rs1 rs2
  | vaddVv | vsubVv | vmulVv | vmulhVv | vmulhuVv | vminVv | vminuVv | vmaxVv | vmaxuVv | vandVv | vorVv | vxorVv | vsllVv | vsrlVv
  | vsraVv | vmergeVv => exact hs.done (hs.vecIntVv ..)
  | vaddVx | vsubVx | vmulVx | vmulhVx | vmulhuVx | vminVx | vminuVx | vmaxVx | vmaxuVx | vandVx | vorVx | vxorVx | vsllVx | vsrlVx
  | vsraVx | vmergeVx => exact hs.done (hs.vecIntVx ..)
  | vfaddVv | vfsubVv | vfmulVv | vfdivVv | vfminVv | vfmaxVv | vfmaVv | vfmsVv | vfnmaVv => exact hs.done (hs.vecFpVv ..)
  | vfsqrt | vfclass => exact hs.done (hs.vecFp ..)
  | vfaddVf | vfsubVf | vfmulVf | vfdivVf | vfminVf | vfmaxVf | vfmaVf | vfmsVf | vfnmaVf => exact hs.done (hs.vecFpVf ..)
  | vcmpEq | vcmpNe | vcmpLt | vcmpLtu | vcmpLe | vcmpLeu => exact hs.done (hs.vecCmp ..)
  | vfcmpEq | vfcmpLt | vfcmpLe | vfcmpUn => exact hs.done (hs.vecFcmp ..)
  | vmand | vmor | vmxor | vmnot => exact hs.done (hs.maskOp ..)
  | vpopc rd vs2 mk => exact execVpopc_inv hs rd vs2 mk
  | vfirst rd vs2 mk => exact execVfirst_inv hs rd vs2 mk
  | vperm vd vs1 vs2 mk => exact execVperm_inv hs vd vs1 vs2 mk
  | vslideup vd rs1 vs2 mk => exact execVslideup_inv hs vd rs1 vs2 mk
  | vslidedn vd rs1 vs2 mk => exact execVslidedn_inv hs vd rs1 vs2 mk
  | vbcast vd rs1 mk => exact execVbcast_inv hs vd rs1 mk
  | vcompress vd vs1 vs2 mk => exact execVcompress_inv hs vd vs1 vs2 mk
  | vid vd mk => exact execVid_inv hs vd mk
  | vclmul | vclmulh => exact hs.done (hs.vecClmul ..)
  | vcvt vd code vs2 mk => exact execVcvt_inv hs vd code vs2 mk
  | vamax vd vs2 mk => exact execVamax_inv hs vd vs2 mk
  | vscale vd fmt vs2 mk => exact execVscale_inv hs vd fmt vs2 mk
  | vqlns vd vs1 vs2 mk => exact execVqlns_inv hs vd vs1 vs2 mk
  | vdqlns vd vs1 vs2 mk => exact execVdqlns_inv hs vd vs1 vs2 mk
  | vqfp8 vd vs1 vs2 mk => exact execVqfp8_inv hs vd vs1 vs2 mk
  | vdqfp8 vd vs1 vs2 mk => exact execVdqfp8_inv hs vd vs1 vs2 mk
  | vqsplit vd rs1 vs2 mk => exact execVqsplit_inv hs vd rs1 vs2 mk
  | vredsum | vredmax | vredmin | vredmaxu | vredminu => exact hs.done (hs.vecRed ..)
  | vfredsum vd vs1 vs2 mk => exact execVfredsum_inv hs vd vs1 vs2 mk
  | vfredmax | vfredmin => exact hs.done (hs.vecFredMinMax ..)
  | vld | vldSt | vldIx | vldBc => exact hs.done (hs.vecLoad ..)
  | vst vs3 rs1 mk => exact execVst_inv hs vs3 rs1 mk
  | vstSt vs3 rs1 rs2 mk => exact execVstSt_inv hs vs3 rs1 rs2 mk
  | vstIx vs3 rs1 vs2 mk => exact execVstIx_inv hs vs3 rs1 vs2 mk
  | vstBc vs3 rs1 mk => exact execVstBc_inv hs vs3 rs1 mk
  | vmovi vd vs2 => exact execVmovi_inv hs vd vs2
  | vmoviw vs3 vs2 => exact execVmoviw_inv hs vs3 vs2
  | vrdx vd rs1 => exact execVrdx_inv hs vd rs1
  | vwrx vs3 rs1 => exact execVwrx_inv hs vs3 rs1
  | vsetl rd rs1 etype => exact execVsetl_inv hs rd rs1 etype
  | vextract rd rs1 vs2 => exact execVextract_inv hs rd rs1 vs2
  | vinsert vd rs1 rs2 => exact execVinsert_inv hs vd rs1 rs2
  | mxcfg rs1 target => exact execMxcfg_inv hs rs1 target
  | mxgrant | mxmac | mxmacs | mxzero | mxsync => exact hs.done (hs.mxPlain ..)
  | mxld | mxst => exact hs.done (hs.mxAsk ..)
  | mxdup rs1 target => exact execMxdup_inv hs rs1 target
  | branch op rs1 rs2 imm => exact execBranch_inv hs op rs1 rs2 imm
  | jump op => exact execJump_inv hs op
  | fpArithmetic op => exact execFpArithmetic_inv hs op
  | xret machine => exact execXret_inv hs machine
  | registerWrite => exact .next (hs.registerWrite ..)
  | qvtypeWrite => exact execQvtypeWrite_inv hs
  | qvwinWrite => exact execQvwinWrite_inv hs
  | qvstatAccess => exact execQvstatAccess_inv hs
  | cspartWrite => exact execCspartWrite_inv hs
  | cspartChangeEnd => exact .next (hs.cspartEnd ..)
  | qmquotaWrite | quotaReachSlice | sampctlWrite | quotaWindowRefill | ptpMasterLoss | ieee1588Discipline => exact .next hs
  | doorbell => exact execDoorbell_inv hs
  | preempt => exact execPreempt_inv hs
  | dbgHalt => exact .next (hs.dbgHaltCmd ..)
  | dbgFhalt => exact .next (hs.dbgFhaltCmd ..)
  | dbgResume => exact .next (hs.dbgResumeCmd ..)
  | dbgStep => exact .next (hs.dbgStepCmd ..)
  | dbgRead => exact .next (hs.dbgReadCmd ..)
  | dbgWrite => exact .next (hs.dbgWriteCmd ..)
  | dbgDump => exact .next (hs.dbgDumpCmd ..)
  | dbgAttach => exact .next (hs.dbgAttachCmd ..)
  | dbgDetach => exact .next (hs.dbgDetachCmd ..)
  | ttEnableWrite => exact execTtEnableWrite_inv hs
  | sessionWrite => exact execSessionWrite_inv hs
  | hostBar2Request => exact execHostBar2Request_inv hs
  | hostCxlMemAccess => exact .next (hs.cxlMem ..)
  | contextReinsertion => exact .next (hs.reinsert ..)
  | storeBufferEntryPerform => exact execStoreBufferEntryPerform_inv hs
  | laneGroupGrant => exact execLaneGroupGrant_inv hs
  | homeRequestArrival => exact execHomeRequestArrival_inv hs
  | missBufferSlotEntry => exact .next (hs.slotEntry ..)
  | writebackMerge => exact .next (hs.mergeVictim ..)
  | remoteScratchpadAccess => exact execRemoteScratchpadAccess_inv hs
  | accSendArrival => exact execAccSendArrival_inv hs
  | accApply => exact .next (hs.accApplyAt ..)
  | accRefusalReturn | accAcceptReturn => exact .next (hs.answerOf ..)
  | residualTimerFlush => exact .next (hs.residualFlush ..)
  | tileHomeRequest => exact .next (hs.tileServe ..)
  | tileForwardStart => exact execTileForwardStart_inv hs
  | tilePushArrival => exact execTilePushArrival_inv hs
  | copyComplete => exact .next (hs.copyBytes ..)
  | phaserBytesDecrement => exact execPhaserBytesDecrement_inv hs
  | copyFaultEnd => exact .next (hs.faultEnd ..)
  | stackCommandComplete => exact .next (hs.stackFinish ..)
  | mxConfigQuery => exact .next (hs.mxQueried ..)
  | mxCommandArrival => exact .next (hs.mxArrives ..)
  | mxCommandStart => exact .next (hs.mxStart ..)
  | mxCommandComplete => exact .next (hs.mxComplete ..)
  | mxCommandFault => exact .next (hs.mxFaultEnd ..)
  | packetArrival => exact .next (hs.packetArrives ..)
  | shuttleBatchTimeout => exact .next (hs.batchTimeout ..)
  | shuttleBatchArrival => exact execShuttleBatchArrival_inv hs
  | launchSlotTake => exact .next (hs.slotTake ..)
  | launchStart => exact .next (hs.launchStart ..)
  | taskDispatch => exact .next (hs.dispatchTo ..)
  | steal => exact .next (hs.stealEvent ..)
  | counterDecrement => exact .next (hs.decrementAt ..)
  | priorityDisplacement => exact .next (hs.displace ..)
  | stagingAdmit => exact .next (hs.stagingAdmit ..)
  | stagingEntryComplete => exact .next (hs.stagingComplete ..)
  | stagingDeadline => exact .next (hs.stagingDeadline ..)
  | stgreqAdmitTimeout => exact .next (hs.stgreqTimeout ..)
  | contextSave => exact .next (hs.contextSave ..)
  | contextRestore => exact .next (hs.contextRestore ..)
  | park => exact .next (hs.parkEvent ..)
  | deferredPark => exact execDeferredPark_inv hs
  | wrsTimeout => exact .next (hs.wrsTimeout ..)
  | falignBudgetExpiry => exact .next (hs.falignExpiry ..)
  | requestTimeout => exact .next (hs.requestTimeout ..)
  | snoopHostTimeout => exact .next (hs.snoopTimeout ..)
  | ttSlotFire => exact .next (hs.ttFire ..)
  | holdTimeout => exact .next (hs.holdTimeout ..)
  | samplingPulse => exact .next (hs.samplePulse ..)
  | compareEntry => exact .next (hs.compareAt ..)
  | sealedCopyEnd => exact execSealedCopyEnd_inv hs
  | clusterPowerGating => exact .next (hs.powerGate ..)
  | dieClockStep => exact .next (hs.clockStep ..)
  | dieThermalStop => exact .next (hs.thermalStop ..)
  | securityAlarm => exact .next (hs.alarm ..)
  | moduleReset => exact .next (hs.moduleReset ..)
  | powerGatingWake => exact .next (hs.powerWake ..)
  | tdiLock => exact .next (hs.tdiLock ..)

/-! ### Machine/Issue -/

theorem State.Inv.retireAway (hs : s.Inv) (cid i) : (s.retireAway cid i).1.Inv := by
  unfold State.retireAway
  grind [modCtx, leaveSlots]

theorem State.Inv.requestTurn (hs : s.Inv) (cid home) : (s.requestTurn cid home).1.Inv := by
  unfold State.requestTurn
  grind [State.inv_mk, enterSlot]

theorem State.Inv.slot (hs : s.Inv) (cid) : (s.slot cid).1.Inv := by
  unfold State.slot
  grind [State.inv_mk, haltNow, retireAway, requestTurn]

theorem State.Inv.barrel (hs : s.Inv) (k) : IfSome (fun p => p.1.Inv) (s.barrel k) := by
  unfold State.barrel
  cases s.nextSlot k with
  | none => exact .none
  | some j => exact .some ((hs.modCore k _).slot _)

theorem State.Inv.elsewhere (hs : s.Inv) : IfSome (fun p => p.1.Inv) s.elsewhere := IfSome.findSome hs.barrel _

theorem State.Inv.background (hs : s.Inv) : s.background.1.Inv := by
  have he := hs.elsewhere
  unfold State.background
  repeat' split
  all_goals grind [IfSome.some_iff, State.inv_mk]

theorem State.Inv.pass (hs : s.Inv) (ns cycles) : (s.pass ns cycles).Inv := hs
theorem State.Inv.tickClocks (hs : s.Inv) : s.tickClocks.Inv := hs

theorem State.Inv.turnOf (hs : s.Inv) (cid) : (s.turnOf cid).1.Inv := by
  unfold State.turnOf
  grind [slot, modCore]

theorem State.Inv.eventTurn (hs : s.Inv) (i a) : (s.eventTurn i a).1.Inv := by
  unfold State.eventTurn
  grind [State.inv_mk, turnOf]

theorem State.Inv.select (hs : s.Inv) : s.select.1.Inv := by
  unfold State.select
  split
  · grind [State.Inv.pass, turnOf, eventTurn, modCore, modCluster, State.inv_mk]
  · have hb := hs.tickClocks.barrel (coreOf s.tickClocks.cur)
    have hg := hb.getD hs.tickClocks.background
    grind [tickClocks, State.inv_mk]

theorem State.Inv.fetchBytes (hs : s.Inv) (x) : (s.fetchBytes x).1.Inv := by
  unfold State.fetchBytes
  grind [readMem, modCore]

theorem State.Inv.fetch (hs : s.Inv) : Ends (fun p => p.1.Inv) s.fetch := by
  unfold State.fetch
  grind [Ends.ok_iff, Ends.error_iff, Stop.Inv, trap_inv, accessV, mute, fetchBytes]

theorem State.Inv.leaveTurn (hs : s.Inv) (i v) : OutInv (s.leaveTurn i v) := by
  have h := (hs.enqueueReply i).getD hs
  unfold State.leaveTurn
  exact .next ((h.leave ..).modCtx ..)

theorem State.Inv.goAway (hs : s.Inv) (i) {r} (hr : OutInv r) : OutInv (s.goAway i r) := by
  unfold State.goAway
  grind [OutInv.next_iff, leaveTurn, standElems]

theorem State.Inv.issueTurn (hs : s.Inv) (i) {r} (hr : OutInv r) : OutInv (s.issueTurn i r) := by
  unfold State.issueTurn
  grind [OutInv.next_iff, leaveTurn]

/-! ### Machine/Step -/

theorem step_inv (hs : s.Inv) : OutInv (step s) := by
  have h := hs.select
  unfold step
  generalize s.select = r at h ⊢
  obtain ⟨t, turn⟩ := r
  replace h : t.Inv := h
  have hf := h.fetch
  cases turn with
  | none => exact .next h
  | event i =>
    dsimp only
    split
    · exact exec_inv h i
    · exact .next h
  | issue =>
    dsimp only
    generalize t.fetch = f at hf ⊢
    cases hf with
    | ok hu => exact State.Inv.issueTurn hu _ (exec_inv hu _)
    | error he => exact .next (h.finish (.error he))
  | away =>
    dsimp only
    generalize t.fetch = f at hf ⊢
    cases hf with
    | ok hu =>
      dsimp only
      split
      · exact State.Inv.issueTurn hu _ (exec_inv hu _)
      · exact State.Inv.goAway hu _ (exec_inv hu _)
    | error he => exact .next (h.finish (.error he))
  | retire i =>
    dsimp only
    split
    · exact h.issueTurn _ (exec_inv h i)
    · exact exec_inv h i

/-- Settles O60: `step_inv`, read for the state that a step goes on to. -/
theorem stepKeepsInvariants : Obligations.StepKeepsInvariants := by
  intro s t hs ht
  have h := step_inv hs
  rwa [ht, OutInv.next_iff] at h

end Sys2Proof.Machine
end

