-- ==== Sys2Proof/Proofs/RegisterEvents/Csrs.lean ====
section
/-! Writes of CSRs and of configuration words by whatever agent makes them (R400): the CSRs that a write from outside reaches through the same
function as a CSR instruction, and FQBASE, a word of a die's dispatcher block that is written by bytes. -/

namespace Sys2Proof.Machine

theorem mem_of_tfind {α : Type} {m : Table α} {k : Nat} {v : α} (h : tfind m k = some v) : (k, v) ∈ m := by
  induction m with
  | nil => cases h
  | cons p t ih =>
    obtain ⟨a, w⟩ := p
    simp only [tfind] at h
    grind

theorem tfind_filter_none {α : Type} {m : Table α} {k : Nat} {p : Nat × α → Bool} (h : ∀ v, p (k, v) = false) : tfind (m.filter p) k = none := by
  cases e : tfind (m.filter p) k with
  | none => rfl
  | some v =>
    have hm := (List.mem_filter.1 (mem_of_tfind e)).2
    rw [h v] at hm
    cases hm

theorem registerWrite_csr (s : State) (ha : s.ev.a = 0) (hl : (s.ctx s.ev.b).isLive = true) (hr : s.csrRead s.ev.b s.ev.n ≠ none) :
    exec .registerWrite s = .next (s.csrWrite s.ev.b s.ev.n s.ev.v) := by
  have hs : (s.csrRead s.ev.b s.ev.n).isSome = true := Option.isSome_iff_ne_none.mpr hr
  show Host.Outcome.next (s.registerWrite s.ev) = _
  simp [State.registerWrite, ha, hl, hs]

theorem csrWrite_qvtype (s : State) (cid : Nat) (v : Word) : s.csrWrite cid 0x800 v = s.writeQvtype cid v := rfl
theorem csrWrite_qvwin (s : State) (cid : Nat) (v : Word) : s.csrWrite cid 0x801 v = s.writeQvwin cid v := rfl

theorem exec_qvtypeWrite (s : State) (hl : (s.ctx s.ev.a).isLive = true) : exec .qvtypeWrite s = .next (s.writeQvtype s.ev.a s.ev.v) := by
  show Host.Outcome.next (if (s.ctx s.ev.a).isLive then s.csrWrite s.ev.a 0x800 s.ev.v else s) = _
  rw [if_pos hl, csrWrite_qvtype]

theorem exec_qvwinWrite (s : State) (hl : (s.ctx s.ev.a).isLive = true) : exec .qvwinWrite s = .next (s.writeQvwin s.ev.a s.ev.v) := by
  show Host.Outcome.next (if (s.ctx s.ev.a).isLive then s.csrWrite s.ev.a 0x801 s.ev.v else s) = _
  rw [if_pos hl, csrWrite_qvwin]

theorem qvtypeWrite_accepted (s : State) (cid e l : Nat) (v : Word) (he : e = (v.extractLsb' 0 5).toNat) (hv : l = (v.extractLsb' 16 11).toNat)
    (hc : etypeCode (BitVec.ofNat 5 e) = true) (hl : l ≤ 8192 / etypeWidth e) :
    s.writeQvtype cid v = s.modCtx cid fun c => { c with qvtype := BitVec.ofNat 64 (e + l * 2 ^ 16) } := by
  simp only [State.writeQvtype, bits_eq, ← he, ← hv, hc, hl, decide_true, Bool.and_self, if_true, word]

theorem qvtypeWrite_refused (s : State) (cid e l : Nat) (v : Word) (he : e = (v.extractLsb' 0 5).toNat) (hv : l = (v.extractLsb' 16 11).toNat)
    (h : etypeCode (BitVec.ofNat 5 e) = false ∨ 8192 / etypeWidth e < l) :
    s.writeQvtype cid v = s.modCtx cid fun c => { c with qvtype := 0x8000000000000000 } := by
  have hb : (etypeCode (BitVec.ofNat 5 e) && decide (l ≤ 8192 / etypeWidth e)) = false := by
    obtain h | h := h
    · simp [h]
    · simp [Nat.not_le.mpr h]
  simp only [State.writeQvtype, bits_eq, ← he, ← hv, hb]
  rfl

/-- A context that the table does not list has no window. -/
theorem ctx_of_all {s : State} {p : Nat × Ctx → Bool} (h : s.ctxs.all p = true) (j : Nat) : s.ctx j = Ctx.reset ∨ p (j, s.ctx j) = true := by
  unfold State.ctx
  cases e : tfind s.ctxs j with
  | none => exact .inl rfl
  | some c => exact .inr (List.all_eq_true.1 h _ (mem_of_tfind e))

theorem findBlock_spec {s : State} {g n b : Nat} (h : s.findBlock g n = some b) : b % 32 = 0 ∧ b + n ≤ 2048 ∧ s.blockFree g b n = true := by
  unfold State.findBlock at h
  have hf := List.find?_some h
  have hm := List.mem_of_find?_eq_some h
  simp only [List.mem_filter, List.mem_map, List.mem_range, decide_eq_true_eq] at hm
  obtain ⟨⟨i, -, rfl⟩, hb⟩ := hm
  exact ⟨Nat.mul_mod_left i 32, hb, hf⟩

theorem blockFree_apart {s : State} {g b n : Nat} (h : s.blockFree g b n = true) (j : Nat) (hj : clusterOf j = g) :
    (s.ctx j).winSize = 0 ∨ b + n ≤ (s.ctx j).winBase ∨ (s.ctx j).winBase + (s.ctx j).winSize ≤ b := by
  unfold State.blockFree at h
  obtain ⟨hc, -⟩ := Bool.and_eq_true_iff.1 h
  obtain hr | hp := ctx_of_all hc j
  · rw [hr]
    exact .inl rfl
  · simp only [hj, ne_eq, not_true_eq_false, decide_false, Bool.false_or, Bool.or_eq_true, decide_eq_true_eq] at hp
    omega

theorem openWindow_qvwin (s : State) (cid b n : Nat) : ((s.openWindow cid b n).ctx cid).qvwin = BitVec.ofNat 64 (b + n * 2 ^ 16) := by
  simp [State.openWindow]

/-- The registers of a new window read as zero (R141). -/
theorem openWindow_zero (s : State) (cid b n r : Nat) (hr : r < n) : (s.openWindow cid b n).vregAt (clusterOf cid) (b + r) = 0 := by
  have h : tfind ((s.cluster (clusterOf cid)).vreg.filter fun p => p.1 < b || b + n ≤ p.1) (b + r) = none :=
    tfind_filter_none fun v => by simp; omega
  simp [State.openWindow, State.vregAt, h]

theorem writeQvwin_release {s : State} {cid n : Nat} {v : Word} (hn : n = (v.extractLsb' 16 10).toNat) (h : n = 0) :
    s.writeQvwin cid v = s.modCtx cid fun c => { c with qvwin := 0 } := by
  simp only [State.writeQvwin, bits_eq, ← hn, h, if_true]

theorem writeQvwin_fails {s : State} {cid n : Nat} {v : Word} (hn : n = (v.extractLsb' 16 10).toNat)
    (h : n % 32 ≠ 0 ∨ 512 < n ∨ s.findBlock (clusterOf cid) n = none) (h0 : n ≠ 0) :
    s.writeQvwin cid v = s.modCtx cid fun c => { c with qvwin := c.qvwin ||| 0x8000000000000000 } := by
  simp only [State.writeQvwin, bits_eq, ← hn, if_neg h0]
  split
  · rename_i hs
    have hf : s.findBlock (clusterOf cid) n = none := (h.resolve_left (by omega)).resolve_left (by omega)
    simp only [hf]
    rfl
  · rfl

theorem writeQvwin_allocates {s : State} {cid n b : Nat} {v : Word} (hn : n = (v.extractLsb' 16 10).toNat) (h32 : n % 32 = 0) (h0 : n ≠ 0)
    (h512 : n ≤ 512) (hb : s.findBlock (clusterOf cid) n = some b) : s.writeQvwin cid v = s.openWindow cid b n := by
  have h : n % 32 = 0 ∧ 32 ≤ n ∧ n ≤ 512 := by omega
  simp only [State.writeQvwin, bits_eq, ← hn, if_neg h0, if_pos h, hb]

theorem exec_qvtypeWrite_stores (s : State) (e l : Nat) (ha : (s.ctx s.ev.a).isLive = true) (he : e = (s.ev.v.extractLsb' 0 5).toNat)
    (hl : l = (s.ev.v.extractLsb' 16 11).toNat) :
    (etypeCode (BitVec.ofNat 5 e) = true → l ≤ 8192 / etypeWidth e →
      exec .qvtypeWrite s = .next (s.modCtx s.ev.a fun c => { c with qvtype := BitVec.ofNat 64 (e + l * 2 ^ 16) })) ∧
    (etypeCode (BitVec.ofNat 5 e) = false ∨ 8192 / etypeWidth e < l →
      exec .qvtypeWrite s = .next (s.modCtx s.ev.a fun c => { c with qvtype := 0x8000000000000000 })) := by
  rw [exec_qvtypeWrite s ha]
  exact ⟨fun h1 h2 => congrArg Host.Outcome.next (qvtypeWrite_accepted s s.ev.a e l s.ev.v he hl h1 h2),
    fun h => congrArg Host.Outcome.next (qvtypeWrite_refused s s.ev.a e l s.ev.v he hl h)⟩

theorem exec_qvwinWrite_stores (s : State) (n : Nat) (ha : (s.ctx s.ev.a).isLive = true) (hn : n = (s.ev.v.extractLsb' 16 10).toNat) :
    (n = 0 → exec .qvwinWrite s = .next (s.modCtx s.ev.a fun c => { c with qvwin := 0 })) ∧
    (n % 32 ≠ 0 ∨ 512 < n ∨ s.findBlock (clusterOf s.ev.a) n = none → n ≠ 0 →
      exec .qvwinWrite s = .next (s.modCtx s.ev.a fun c => { c with qvwin := c.qvwin ||| 0x8000000000000000 })) ∧
    (∀ b, n % 32 = 0 → n ≠ 0 → n ≤ 512 → s.findBlock (clusterOf s.ev.a) n = some b → ∃ t : State, exec .qvwinWrite s = .next t ∧
      (t.ctx s.ev.a).qvwin = BitVec.ofNat 64 (b + n * 2 ^ 16) ∧ b % 32 = 0 ∧ b + n ≤ 2048 ∧
      (∀ r, r < n → t.vregAt (clusterOf s.ev.a) (b + r) = 0) ∧
      ∀ j, clusterOf j = clusterOf s.ev.a → (s.ctx j).winSize = 0 ∨ b + n ≤ (s.ctx j).winBase ∨ (s.ctx j).winBase + (s.ctx j).winSize ≤ b) := by
  rw [exec_qvwinWrite s ha]
  refine ⟨fun h0 => congrArg Host.Outcome.next (writeQvwin_release hn h0), fun h h0 => congrArg Host.Outcome.next (writeQvwin_fails hn h h0),
    fun b h32 h0 h512 hb => ?_⟩
  obtain ⟨hb32, hbn, hfree⟩ := findBlock_spec hb
  exact ⟨_, congrArg Host.Outcome.next (writeQvwin_allocates hn h32 h0 h512 hb), openWindow_qvwin .., hb32, hbn,
    openWindow_zero s s.ev.a b n, blockFree_apart hfree⟩

theorem exec_qvstatAccess (s : State) (hl : (s.ctx s.ev.a).isLive = true) : exec .qvstatAccess s = .next
    (if s.ev.flag then (s.drainVector s.ev.a drainFuel).modCtx s.ev.a fun c => { c with qvstat := s.ev.v &&& 0x7F } else s.drainVector s.ev.a drainFuel) := by
  show Host.Outcome.next (if (s.ctx s.ev.a).isLive then (if s.ev.flag then (s.settleQvstat s.ev.a 0x805).csrWrite s.ev.a 0x805 s.ev.v
    else s.settleQvstat s.ev.a 0x805) else s) = _
  rw [if_pos hl]
  rfl

/-- FQBASE's address of a live die is its dispatcher block's second word. -/
theorem cfgBlock_fqbase (s : State) (d : Nat) (hd : s.dieLive d = true) : s.cfgBlock (0x409000000008 + d * 0x10000) = some (.dispatcher d 8) := by
  have hlt : d < 16 := by
    simp only [State.dieLive, Bool.and_eq_true, decide_eq_true_eq] at hd
    exact hd.1
  have ho : 0x409000000008 + d * 0x10000 - cfgBase = 0x9000000000 + (8 + d * 0x10000) := by
    simp only [cfgBase]; omega
  have hs : (8 + d * 0x10000) >>> 16 = d := by
    rw [Nat.shiftRight_eq_div_pow]; omega
  have hm : (0x9000000000 + (8 + d * 0x10000)) % 0x10000 = 8 := by omega
  unfold State.cfgBlock
  simp only [ho]
  rw [if_neg (by simp only [cfgBase]; omega), if_neg (by omega), if_neg (by omega), if_pos (by omega), Nat.add_sub_cancel_left, hs, if_pos hd, hm]

theorem regionOf_fqbase (d : Nat) (hd : d < 16) : regionOf (0x409000000008 + d * 0x10000) = .cfg := by
  unfold regionOf
  rw [if_neg (by omega), if_neg (by simp only [scratchBase]; omega), if_neg (by simp only [hostBase]; omega), if_pos (by simp only [cfgBase]; omega)]

/-- A word of which the first four bytes are written. -/
theorem low_half_written (x v : Word) : ((x &&& ~~~byteSpan 0 4) ||| (v &&& byteSpan 0 4)).toNat = x.toNat / 2 ^ 32 * 2 ^ 32 + v.toNat % 2 ^ 32 := by
  have hm : ∀ i, i < 64 → (byteSpan 0 4).getLsbD i = decide (i < 32) := by decide
  have h : (x &&& ~~~byteSpan 0 4) ||| (v &&& byteSpan 0 4) = x.extractLsb' 32 32 ++ v.extractLsb' 0 32 := by
    refine BitVec.eq_of_getLsbD_eq fun i hi => ?_
    simp only [BitVec.getLsbD_or, BitVec.getLsbD_and, BitVec.getLsbD_not, hm i hi, BitVec.getLsbD_append, BitVec.getLsbD_extractLsb']
    by_cases hl : i < 32
    · simp [hl]
    · have h2 : 32 + (i - 32) = i := by omega
      simp [hl, hi, h2]; omega
  rw [h, BitVec.toNat_append, ← Nat.shiftLeft_add_eq_or_of_lt (BitVec.isLt _), Nat.shiftLeft_eq]
  simp only [BitVec.extractLsb'_toNat, Nat.shiftRight_eq_div_pow]
  omega

theorem whole_written (x v : Word) : (x &&& ~~~byteSpan 0 8) ||| (v &&& byteSpan 0 8) = v := by
  have h : byteSpan 0 8 = BitVec.allOnes 64 := by decide
  rw [h, BitVec.not_allOnes, BitVec.and_zero, BitVec.zero_or, BitVec.and_allOnes]

theorem registerWrite_fqbase (s : State) (d : Nat) (ha : s.ev.a = 1) (hd : s.dieLive d = true) (hb : s.ev.b = 0x409000000008 + d * 0x10000)
    (hn : s.ev.n = 8 ∨ s.ev.n = 4) : s.registerWrite s.ev = s.cfgPut (.dispatcher d 8)
      (((s.die d).fqbase &&& ~~~byteSpan 0 s.ev.n) ||| (s.ev.v &&& byteSpan 0 s.ev.n)) (byteSpan 0 s.ev.n) (s.ev.n == 8) := by
  have hc := cfgBlock_fqbase s d hd
  have hlt : d < 16 := by
    simp only [State.dieLive, Bool.and_eq_true, decide_eq_true_eq] at hd
    exact hd.1
  have hr := regionOf_fqbase d hlt
  have h8 : (0x409000000008 + d * 0x10000) % 8 = 0 := by omega
  have ho : s.accessOk .write s.ev.b s.ev.n = true := by
    unfold State.accessOk
    simp only [hb, hr, hc]
    obtain h | h := hn
    · simp [h]; omega
    · simp [h]; omega
  simp only [State.registerWrite, ha, if_neg (by decide : ¬ (1 = 0)), ho, Bool.and_true]
  have hbeq : (Region.cfg == Region.cfg) = true := by decide
  simp only [hb, hr, hbeq, if_true, State.cfgWrite, hc, h8, Nat.mul_zero, BitVec.shiftLeft_zero]
  rfl

theorem exec_registerWrite_fqbase (s : State) (d : Nat) (ha : s.ev.a = 1) (hd : s.dieLive d = true) (hb : s.ev.b = 0x409000000008 + d * 0x10000) :
    (s.ev.n = 8 → exec .registerWrite s = .next (s.modDie d fun x => { x with fqbase := BitVec.ofNat 64 (s.ev.v.toNat % 2 ^ 56 / 128 * 128) })) ∧
    (s.ev.n = 4 → exec .registerWrite s = .next (s.modDie d fun x =>
      { x with fqbase := BitVec.ofNat 64 ((x.fqbase.toNat / 2 ^ 32 % 2 ^ 24 * 2 ^ 32 + s.ev.v.toNat % 2 ^ 32) / 128 * 128) })) := by
  have hw : ∀ v m full, s.cfgPut (.dispatcher d 8) v m full = s.modDie d fun x => { x with fqbase := word (bits v 55 7 * 128) } := fun _ _ _ => rfl
  constructor
  · intro hn
    show Host.Outcome.next (s.registerWrite s.ev) = _
    have hv : bits s.ev.v 55 7 * 128 = s.ev.v.toNat % 2 ^ 56 / 128 * 128 := by
      simp only [bits, Nat.shiftRight_eq_div_pow]; omega
    rw [registerWrite_fqbase s d ha hd hb (.inl hn), hn, whole_written, hw, hv]
    simp only [State.modDie, word]
  · intro hn
    show Host.Outcome.next (s.registerWrite s.ev) = _
    have hv : bits (((s.die d).fqbase &&& ~~~byteSpan 0 4) ||| (s.ev.v &&& byteSpan 0 4)) 55 7 * 128 =
        ((s.die d).fqbase.toNat / 2 ^ 32 % 2 ^ 24 * 2 ^ 32 + s.ev.v.toNat % 2 ^ 32) / 128 * 128 := by
      simp only [bits, low_half_written, Nat.shiftRight_eq_div_pow]; omega
    rw [registerWrite_fqbase s d ha hd hb (.inr hn), hn, hw, hv]
    simp only [State.modDie, word]

end Sys2Proof.Machine
end

