-- ==== Sys2Proof/Proofs/RegisterEvents/Released.lean ====
section
/-! A change of SPWAYS spills save records and writes lines back; neither touches the list of released pattern entries, which decides whether the
cluster's copy engine has anything to start once the change has ended. Each operation on that way has one lemma that says so; where an operation
changes other fields only, its proof is `hs`. -/

namespace Sys2Proof.Machine

/-- The pattern entries that wait to run are `r`. -/
def State.HasReleased (s : State) (r : List Released) : Prop := s.released = r

theorem State.hasReleased_iff {s : State} {r : List Released} : s.HasReleased r ↔ s.released = r := Iff.rfl

theorem State.HasReleased.ite {p : Prop} [Decidable p] {a b : State} {r : List Released} (ha : a.HasReleased r) (hb : b.HasReleased r) :
    (if p then a else b).HasReleased r := by
  split
  · exact ha
  · exact hb

theorem State.HasReleased.foldl {α : Type} {f : State → α → State} {r : List Released} (hf : ∀ s a, s.HasReleased r → (f s a).HasReleased r)
    {s : State} (h : s.HasReleased r) (l : List α) : (l.foldl f s).HasReleased r := by
  induction l generalizing s with
  | nil => exact h
  | cons a l ih => exact ih (hf s a h)

open State.HasReleased
variable {s : State} {r : List Released}
theorem State.HasReleased.setCore (hs : s.HasReleased r) (k c) : (s.setCore k c).HasReleased r := hs
theorem State.HasReleased.modCore (hs : s.HasReleased r) (k g) : (s.modCore k g).HasReleased r := hs
theorem State.HasReleased.setCluster (hs : s.HasReleased r) (g c) : (s.setCluster g c).HasReleased r := hs
theorem State.HasReleased.modCluster (hs : s.HasReleased r) (g h) : (s.modCluster g h).HasReleased r := hs
theorem State.HasReleased.setSlice (hs : s.HasReleased r) (k x) : (s.setSlice k x).HasReleased r := hs
theorem State.HasReleased.modSlice (hs : s.HasReleased r) (k h) : (s.modSlice k h).HasReleased r := hs

theorem State.HasReleased.aliasWrite (hs : s.HasReleased r) (g k e y) : (s.aliasWrite g k e y).HasReleased r := by
  unfold State.aliasWrite
  grind [State.hasReleased_iff]

theorem State.HasReleased.aliasStore (hs : s.HasReleased r) (g k o n v) : (s.aliasStore g k o n v).HasReleased r := by
  induction n generalizing s o v with
  | zero =>
    unfold State.aliasStore
    grind [aliasWrite]
  | succ n' ih =>
    unfold State.aliasStore
    grind [aliasWrite]

theorem State.HasReleased.setTile (hs : s.HasReleased r) (t) : (s.setTile t).HasReleased r := hs
theorem State.HasReleased.countReads (hs : s.HasReleased r) (slice n) : (s.countReads slice n).HasReleased r := .ite hs hs
theorem State.HasReleased.countLine (hs : s.HasReleased r) (slice line) : (s.countLine slice line).HasReleased r := .ite hs hs
theorem State.HasReleased.loseIf (hs : s.HasReleased r) (p w) : (s.loseIf p w).HasReleased r := hs
theorem State.HasReleased.loseAt (hs : s.HasReleased r) (pa n keep w) : (s.loseAt pa n keep w).HasReleased r := hs.loseIf ..

theorem State.HasReleased.dropSectors (hs : s.HasReleased r) (g line m) : (s.dropSectors g line m).HasReleased r := by
  unfold State.dropSectors
  grind [modCluster]

theorem State.HasReleased.leaveSectors (hs : s.HasReleased r) (g line m w) : (s.leaveSectors g line m w).HasReleased r := by
  unfold State.leaveSectors
  grind [loseIf, dropSectors]

theorem State.HasReleased.sendVictim (hs : s.HasReleased r) (g line l) : (s.sendVictim g line l).HasReleased r := .ite hs hs

theorem State.HasReleased.mergeHome (hs : s.HasReleased r) (line l) : (s.mergeHome line l).HasReleased r :=
  State.HasReleased.countLine (s := { s with mem := mmerge s.mem (line * lineBytes) lineBytes l.dirty.toNat l.data.toNat }) hs _ _

theorem State.HasReleased.writeBack (hs : s.HasReleased r) (g line m) : (s.writeBack g line m).HasReleased r := by
  unfold State.writeBack
  grind [sendVictim, mergeHome, modCluster]

theorem State.HasReleased.landVictims (hs : s.HasReleased r) (own line) : (s.landVictims own line).HasReleased r := by
  unfold State.landVictims
  grind [State.HasReleased.foldl, State.hasReleased_iff, mergeHome]

theorem State.HasReleased.evictSectors (hs : s.HasReleased r) (g line m) : (s.evictSectors g line m).HasReleased r := by
  unfold State.evictSectors
  grind [leaveSectors, writeBack]

theorem State.HasReleased.recallAll (hs : s.HasReleased r) (home g line m) : (s.recallAll home g line m).HasReleased r := by
  unfold State.recallAll
  grind [State.HasReleased.foldl, evictSectors, landVictims]

theorem State.HasReleased.backInvalidate (hs : s.HasReleased r) (line) : (s.backInvalidate line).HasReleased r := .ite hs hs
theorem State.HasReleased.applyPending (hs : s.HasReleased r) (line) : (s.applyPending line).HasReleased r := hs

theorem State.HasReleased.tileDrop (hs : s.HasReleased r) (t g w) : (s.tileDrop t g w).HasReleased r := by
  unfold State.tileDrop
  grind [State.HasReleased.foldl, leaveSectors, writeBack]

theorem State.HasReleased.releaseFrom (hs : s.HasReleased r) (t g w) : (s.releaseFrom t g w).HasReleased r := hs.tileDrop ..

theorem State.HasReleased.tileRecall (hs : s.HasReleased r) (t w) : (s.tileRecall t w).HasReleased r := by
  unfold State.tileRecall
  grind [State.HasReleased.foldl, setTile, tileDrop]

theorem State.HasReleased.evictLine (hs : s.HasReleased r) (g line) : (s.evictLine g line).HasReleased r := by
  unfold State.evictLine
  grind [State.HasReleased.foldl, releaseFrom, sendVictim, leaveSectors]

theorem State.HasReleased.makeWay (hs : s.HasReleased r) (g line avoid) : (s.makeWay g line avoid).HasReleased r := by
  unfold State.makeWay
  grind [evictLine]

theorem State.HasReleased.putLine (hs : s.HasReleased r) (g line tid sw home cls avoid f) : (s.putLine g line tid sw home cls avoid f).HasReleased r :=
  hs.makeWay ..
theorem State.HasReleased.streamWrite (hs : s.HasReleased r) (line settle mask data task launch) : (s.streamWrite line settle mask data task launch).HasReleased r :=
  .ite hs hs

theorem State.HasReleased.settleLine (hs : s.HasReleased r) (line) : (s.settleLine line).HasReleased r := by
  unfold State.settleLine
  split
  · exact hs.streamWrite ..
  · exact hs

theorem State.HasReleased.placeTile (hs : s.HasReleased r) (t g tid fl) : (s.placeTile t g tid fl).HasReleased r := by
  unfold State.placeTile
  grind [State.HasReleased.foldl, putLine]

theorem State.HasReleased.tilePush (hs : s.HasReleased r) (t evicted) : (s.tilePush t evicted).HasReleased r := by
  unfold State.tilePush
  grind [State.HasReleased.foldl, placeTile, mergeHome, setTile, modCore]

theorem State.HasReleased.recallTiles (hs : s.HasReleased r) (home line m w) : (s.recallTiles home line m w).HasReleased r := by
  unfold State.recallTiles
  grind [State.HasReleased.foldl, tilePush, tileRecall]

theorem State.HasReleased.homeTake (hs : s.HasReleased r) (home line m task) : (s.homeTake home line m task).HasReleased r := by
  unfold State.homeTake
  grind [recallTiles, backInvalidate, recallAll, landVictims]

theorem State.HasReleased.homeOwnAt (hs : s.HasReleased r) (home line m task) : (s.homeOwnAt home line m task).HasReleased r :=
  ((hs.applyPending ..).homeTake ..).settleLine ..

theorem State.HasReleased.homeReadAt (hs : s.HasReleased r) (home pa n task) : (s.homeReadAt home pa n task).1.HasReleased r := by
  unfold State.homeReadAt
  grind [countLine, homeOwnAt]

theorem State.HasReleased.homeRead (hs : s.HasReleased r) (pa n) : (s.homeRead pa n).1.HasReleased r := hs.homeReadAt ..

theorem State.HasReleased.homeWriteAt (hs : s.HasReleased r) (home pa n v w launch) : (s.homeWriteAt home pa n v w launch).HasReleased r := by
  have hl := hs.loseAt pa n none w
  unfold State.homeWriteAt
  generalize s.loseAt pa n none w = u at hl ⊢
  have hc := (hl.homeOwnAt home (pa / lineBytes) (sectorsOf (pa % lineBytes) n) w.task).countLine (homeOr home (pa / lineBytes)) (pa / lineBytes)
  cases regionOf pa with
  | scratch a h off => exact .ite hl (hl.aliasStore ..)
  | _ =>
    refine State.HasReleased.streamWrite ?_ ..
    exact hc

theorem State.HasReleased.homeWrite (hs : s.HasReleased r) (pa n v w launch) : (s.homeWrite pa n v w launch).HasReleased r := hs.homeWriteAt ..

theorem State.HasReleased.homeWriteLines (hs : s.HasReleased r) (pa v w n) : (s.homeWriteLines pa v w n).HasReleased r := by
  induction n generalizing s pa v with
  | zero => exact hs
  | succ n ih => exact ih (hs.homeWrite ..) ..

theorem State.HasReleased.homeReadLines (hs : s.HasReleased r) (pa n) : (s.homeReadLines pa n).1.HasReleased r := by
  induction n generalizing s pa with
  | zero => exact hs
  | succ n ih =>
    have h1 := hs.homeRead pa 128
    unfold State.homeReadLines
    generalize s.homeRead pa 128 = q at h1 ⊢
    obtain ⟨t, v⟩ := q
    have h2 := ih h1 (pa + 128)
    show (match t.homeReadLines (pa + 128) n with | (u, w) => (u, v + w * 2 ^ 1024)).1.HasReleased r
    generalize t.homeReadLines (pa + 128) n = q at h2 ⊢
    obtain ⟨u, w⟩ := q
    show u.HasReleased r
    exact h2

theorem State.HasReleased.spill (hs : s.HasReleased r) (v) : (s.spill v).HasReleased r := by
  have h1 := hs.homeReadLines v.fixedAt 16
  unfold State.spill
  generalize s.homeReadLines v.fixedAt 16 = q at h1 ⊢
  obtain ⟨t, d⟩ := q
  have h2 := State.HasReleased.homeWriteLines h1 v.memAt d (t.byService v.cid) 16
  split
  · exact hs
  · dsimp only
    generalize t.homeWriteLines v.memAt d (t.byService v.cid) 16 = u at h2 ⊢
    cases v.fq with
    | none => exact h2
    | some p => exact h2.homeWrite (p + 8) 8 (u.reportPa v.memAt) (u.byService v.cid) 0

theorem State.HasReleased.spillAbove (hs : s.HasReleased r) (g size) : (s.spillAbove g size).HasReleased r := by
  unfold State.spillAbove
  grind [State.HasReleased.foldl, spill]

end Sys2Proof.Machine
end

