-- ==== Sys2Proof/Proofs/RegisterEvents/Cspart.lean ====
section
/-! CSPART begins a change of the ways of an L2 and ends it (R178). -/

namespace Sys2Proof.Machine

theorem exec_cspartWrite (s : State) (hl : s.clusterLive s.ev.a = true) (hb : (s.cluster s.ev.a).busy = false) : exec .cspartWrite s = .next
    (if min 8 (s.ev.v.toNat % 16) = (s.cluster s.ev.a).spways.toNat then s
      else s.modCluster s.ev.a fun c => { c with busy := true, nextWays := BitVec.ofNat 4 (min 8 (s.ev.v.toNat % 16)) }) := by
  have hn : (BitVec.ofNat 4 (min 8 (s.ev.v.toNat % 16)) = (s.cluster s.ev.a).spways) ↔ min 8 (s.ev.v.toNat % 16) = (s.cluster s.ev.a).spways.toNat := by
    rw [← BitVec.toNat_inj, BitVec.toNat_ofNat, Nat.mod_eq_of_lt (by omega)]
  show Host.Outcome.next (if s.clusterLive s.ev.a && !(s.cluster s.ev.a).busy then s.cspartBegin s.ev.a s.ev.v else s) = _
  rw [hl, hb]
  simp only [Bool.not_false, Bool.and_self, if_true, State.cspartBegin, bits, Nat.shiftRight_zero, Nat.reduceAdd, Nat.reduceSub, Nat.reducePow, hn]

/-- A cluster with nothing in the released list has nothing to start. -/
theorem pumpCluster_idle {s : State} {g : Nat} (h : ∀ r ∈ s.released, r.g ≠ g) : s.pumpCluster g = s := by
  have hn : s.released.findIdx? (·.g == g) = none := List.findIdx?_eq_none_iff.2 fun r hr => by simpa using h r hr
  unfold State.pumpCluster
  cases s.released.length with
  | zero => rfl
  | succ n =>
    unfold State.pumpReleased
    simp only [hn, ite_self]

/-- What a change of SPWAYS does before the ways change hands: records are spilled, the passing ways' lines written back (R178). -/
def State.waysEmptied (s : State) (g : Nat) : State :=
  let new := (s.cluster g).nextWays.toNat * 0x80000
  let u := if new < (s.cluster g).spSize then s.spillAbove g new else s
  if (s.cluster g).spSize < new then (u.cluster g).passing.foldl (fun s l => (s.evictLine g l).landVictims (some g) l) u else u

theorem State.waysEmptied_released (s : State) (g : Nat) : (s.waysEmptied g).released = s.released := by
  have hu : (if (s.cluster g).nextWays.toNat * 0x80000 < (s.cluster g).spSize
      then s.spillAbove g ((s.cluster g).nextWays.toNat * 0x80000) else s).HasReleased s.released :=
    .ite (State.HasReleased.spillAbove rfl ..) rfl
  unfold State.waysEmptied
  exact State.HasReleased.ite (HasReleased.foldl (fun _ _ h => (h.evictLine ..).landVictims ..) hu _) hu

/-- The ways have changed hands: those that did are cleared, and what waited at the bank units is presented again (R178). -/
def State.waysChanged (s : State) (g lo hi : Nat) : State :=
  let s := { s with mem := s.mem.filter fun p => p.1 < lo || hi ≤ p.1 }
  let s := s.modCluster g fun c => { c with spways := c.nextWays, busy := false }
  { s with ctxs := s.ctxs.map fun (cid, c) => (cid, c.presentAgain g) }

theorem State.waysChanged_zero (s : State) (g lo hi a : Nat) (hlo : lo ≤ a) (hhi : a < hi) : mget (s.waysChanged g lo hi).mem a = 0 := by
  have h : tfind (s.mem.filter fun p => p.1 < lo || hi ≤ p.1) a = none := tfind_filter_none fun v => by simp; omega
  show (tfind (s.mem.filter fun p => p.1 < lo || hi ≤ p.1) a).getD unlistedByte = 0
  rw [h]
  rfl

theorem State.waysChanged_cluster (s : State) (g lo hi : Nat) :
    (s.waysChanged g lo hi).cluster g = { s.cluster g with spways := (s.cluster g).nextWays, busy := false } :=
  State.cluster_modCluster_self { s with mem := s.mem.filter fun p => p.1 < lo || hi ≤ p.1 } g fun c => { c with spways := c.nextWays, busy := false }

theorem State.waysChanged_released (s : State) (g lo hi : Nat) : (s.waysChanged g lo hi).released = s.released := rfl

theorem cspartEnd_busy {s : State} {g : Nat} (hb : (s.cluster g).busy = true) :
    s.cspartEnd g = ((s.waysEmptied g).waysChanged g (scratchAddr g (min (s.cluster g).spSize ((s.cluster g).nextWays.toNat * 0x80000)))
      (scratchAddr g (max (s.cluster g).spSize ((s.cluster g).nextWays.toNat * 0x80000)))).pumpCluster g :=
  if_neg (by simp [hb])

theorem cspartEnd_eq {s : State} {g : Nat} (hb : (s.cluster g).busy = true) (hr : ∀ r ∈ s.released, r.g ≠ g) :
    s.cspartEnd g = (s.waysEmptied g).waysChanged g (scratchAddr g (min (s.cluster g).spSize ((s.cluster g).nextWays.toNat * 0x80000)))
      (scratchAddr g (max (s.cluster g).spSize ((s.cluster g).nextWays.toNat * 0x80000))) := by
  rw [cspartEnd_busy hb, pumpCluster_idle]
  rwa [State.waysChanged_released, State.waysEmptied_released]

theorem exec_cspartChangeEnd (s : State) (hb : (s.cluster s.ev.a).busy = true) (hr : ∀ r ∈ s.released, r.g ≠ s.ev.a) :
    ∃ t : State, exec .cspartChangeEnd s = .next t ∧ (t.cluster s.ev.a).busy = false ∧
    (t.cluster s.ev.a).spways = (t.cluster s.ev.a).nextWays ∧
    ∀ a, scratchBase + s.ev.a * 2 ^ 23 + min (s.cluster s.ev.a).spSize ((s.cluster s.ev.a).nextWays.toNat * 2 ^ 19) ≤ a →
      a < scratchBase + s.ev.a * 2 ^ 23 + max (s.cluster s.ev.a).spSize ((s.cluster s.ev.a).nextWays.toNat * 2 ^ 19) → mget t.mem a = 0 := by
  refine ⟨_, congrArg Host.Outcome.next (cspartEnd_eq hb hr), ?_, ?_, fun a hlo hhi => State.waysChanged_zero _ _ _ _ _ ?_ ?_⟩
  · rw [State.waysChanged_cluster]
  · rw [State.waysChanged_cluster]
  · rwa [scratchAddr, Nat.shiftLeft_eq]
  · rwa [scratchAddr, Nat.shiftLeft_eq]

end Sys2Proof.Machine
end

