-- ==== Sys2Proof/Proofs/RegisterEvents/Module.lean ====
section
/-! Writes of the module's registers: QMQUOTA, SAMPCTL, the enable word of a time-triggered entry, a session. -/

namespace Sys2Proof.Machine

theorem tfind_map_key {α : Type} (f : Nat → α) (l : List Nat) (k : Nat) : tfind (l.map fun i => (i, f i)) k = if k ∈ l then some (f k) else none := by
  induction l with
  | nil => rfl
  | cons a l ih =>
    simp only [List.map_cons, tfind, ih, List.mem_cons]
    grind

theorem tfind_map_val {α β : Type} (g : α → β) (m : Table α) (k : Nat) : tfind (m.map fun q => (q.1, g q.2)) k = (tfind m k).map g := by
  induction m with
  | nil => rfl
  | cons p t ih =>
    simp only [List.map_cons, tfind, ih]
    split <;> rfl

theorem ofNat_bits {n w : Nat} (x : BitVec n) (hi lo : Nat) (h : hi + 1 - lo = w) : BitVec.ofNat w (bits x hi lo) = x.extractLsb' lo w := by
  subst h
  rw [bits_eq, BitVec.ofNat_toNat, BitVec.setWidth_eq]

theorem exec_qmquotaWrite (s : State) : ∃ t : State, exec .qmquotaWrite s = .next t ∧
    t.qmquota = BitVec.ofNat 64 (max 1 (s.ev.v.toNat % 256) + max 16 (s.ev.v.toNat / 256 % 65536) * 256 + max 1 (s.ev.v.toNat / 2 ^ 24 % 16) * 2 ^ 24) ∧
    (∀ i, i < 64 → t.slice i = { s.slice i with unreached := (s.slice i).unreached ++ [(s.now, t.qmquota)] }) ∧
    t = { s with qmquota := t.qmquota, slices := t.slices } := by
  refine ⟨s.writeQmquota s.ev.v, rfl, ?_, fun i hi => ?_, rfl⟩
  · simp [State.writeQmquota, bits, word, Nat.shiftRight_eq_div_pow]
  · have hm : i ∈ List.range Config.sliceCount := List.mem_range.2 hi
    simp only [State.writeQmquota, State.slice, tfind_map_key, if_pos hm, Option.getD_some]

theorem exec_quotaReachSlice (s : State) (at_ : Nat) (v : Word) (rest : List (Nat × Word)) (h : (s.slice s.ev.a).unreached = (at_, v) :: rest) :
    exec .quotaReachSlice s = .next (s.setSlice s.ev.a { (s.slice s.ev.a).passed s.now with
      unreached := rest, nextQ := some (v.extractLsb' 0 8), w := v.extractLsb' 8 16, d := v.extractLsb' 24 4 }) := by
  show Host.Outcome.next (s.quotaReach s.ev.a) = _
  simp only [State.quotaReach, State.modSlice, Slice.reach, h, ofNat_bits v 7 0 rfl, ofNat_bits v 23 8 rfl, ofNat_bits v 27 24 rfl]

theorem exec_sampctlWrite (s : State) (p : BitVec 40) (hp : p = s.ev.v.extractLsb' 0 40) :
    exec .sampctlWrite s = .next { s with pulses := 0, sampctl := if p = 0 then 0 else BitVec.ofNat 40 (max 10000 p.toNat) } := by
  have hm : bits allOnes 39 0 ≠ 0 := by decide
  have hb : bits s.ev.v 39 0 = p.toNat := by rw [hp, bits_eq]
  show Host.Outcome.next (s.sampctlWr s.ev.v allOnes) = _
  simp only [State.sampctlWr, if_neg hm, hb]
  by_cases hz : p = 0
  · subst hz
    rfl
  · have hn : p.toNat ≠ 0 := fun h => hz (BitVec.eq_of_toNat_eq h)
    simp only [if_neg hz, if_neg hn]

/-- The entry that a write of a time-triggered entry's enable word stores (R312). -/
def State.ttStored (s : State) (i : Nat) (v m : Word) : TTEntry :=
  let e := s.ttEntry i
  let e := { e with en := bit v 0, ovr := if bits v 2 1 = 3 then 0 else BitVec.ofNat 2 (bits v 2 1)
                    die := BitVec.ofNat 4 (bits v 6 3), skips := BitVec.ofNat 40 (bits v 47 8) }
  { e with placed := if !e.en then [] else if bit m 0 then s.ttPlacement e else e.placed }

theorem ttEnableWr_eq (s : State) (i : Nat) (v m : Word) : s.ttEnableWr i v m = (s.setTT i (s.ttStored i v m)).ungate (s.ttStored i v m).placed := rfl

/-- Powering clusters changes no other cluster and nothing but clusters (R20). -/
theorem ungate_spec (gs : List Nat) (s : State) : s.ungate gs = { s with clusters := (s.ungate gs).clusters } ∧
    ∀ g, (s.ungate gs).cluster g = if g ∈ gs ∧ (s.cluster g).gated = true
      then { s.cluster g with gated := false, idleSince := s.now } else s.cluster g := by
  induction gs generalizing s with
  | nil => exact ⟨rfl, fun g => (if_neg (by simp)).symm⟩
  | cons a gs ih =>
    have hc : s.ungate (a :: gs) = State.ungate (if (s.cluster a).gated
        then s.modCluster a fun c => { c with gated := false, idleSince := s.now } else s) gs := rfl
    rw [hc]
    split
    · rename_i ha
      obtain ⟨he, hg⟩ := ih (s.modCluster a fun c => { c with gated := false, idleSince := s.now })
      refine ⟨he, fun g => ?_⟩
      rw [hg, State.modCluster, State.cluster_setCluster]
      by_cases e : g = a
      · subst e
        simp [ha]
      · simp [e, State.setCluster]
    · rename_i ha
      obtain ⟨he, hg⟩ := ih s
      refine ⟨he, fun g => ?_⟩
      rw [hg]
      by_cases e : g = a
      · subst e
        simp [ha]
      · simp [e]

theorem ttEntry_ungate (gs : List Nat) (s : State) (i : Nat) : (s.ungate gs).ttEntry i = s.ttEntry i := by
  rw [(ungate_spec gs s).1]
  rfl

theorem exec_ttEnableWrite (s : State) (ha : s.ev.a < 512) :
    ∃ t : State, exec .ttEnableWrite s = .next t ∧ t = { s with tt := t.tt, clusters := t.clusters } ∧
    (∀ g, t.cluster g = if g ∈ (t.ttEntry s.ev.a).placed ∧ (s.cluster g).gated = true then { s.cluster g with gated := false, idleSince := s.now }
      else s.cluster g) ∧ (∀ i, i ≠ s.ev.a → t.ttEntry i = s.ttEntry i) ∧
    (t.ttEntry s.ev.a).en = s.ev.v.getLsbD 0 ∧ (t.ttEntry s.ev.a).skips = s.ev.v.extractLsb' 8 40 ∧ (t.ttEntry s.ev.a).die = s.ev.v.extractLsb' 3 4 ∧
    (t.ttEntry s.ev.a).ovr = (if s.ev.v.extractLsb' 1 2 = 3 then 0 else s.ev.v.extractLsb' 1 2) ∧
    (t.ttEntry s.ev.a).record = (s.ttEntry s.ev.a).record ∧ (t.ttEntry s.ev.a).period = (s.ttEntry s.ev.a).period ∧
    (t.ttEntry s.ev.a).phase = (s.ttEntry s.ev.a).phase ∧ (t.ttEntry s.ev.a).satp = (s.ttEntry s.ev.a).satp := by
  obtain ⟨hu, hg⟩ := ungate_spec (s.ttStored s.ev.a s.ev.v allOnes).placed (s.setTT s.ev.a (s.ttStored s.ev.a s.ev.v allOnes))
  have hself : (s.ttEnableWr s.ev.a s.ev.v allOnes).ttEntry s.ev.a = s.ttStored s.ev.a s.ev.v allOnes := by
    rw [ttEnableWr_eq, ttEntry_ungate, State.ttEntry_setTT_same, if_pos rfl]
  have hovr : (bits s.ev.v 2 1 = 3) ↔ s.ev.v.extractLsb' 1 2 = 3 := by
    rw [bits_eq, ← BitVec.toNat_inj]
    rfl
  refine ⟨s.ttEnableWr s.ev.a s.ev.v allOnes, ?_, ?_, ?_, fun i hi => ?_, ?_⟩
  · show Host.Outcome.next (if s.ev.a < 512 then s.ttEnableWr s.ev.a s.ev.v allOnes else s) = _
    rw [if_pos ha]
  · rw [ttEnableWr_eq, hu]
    rfl
  · rw [hself]
    exact hg
  · rw [ttEnableWr_eq, ttEntry_ungate, State.ttEntry_setTT_same, if_neg hi]
  · rw [hself]
    simp only [State.ttStored, bit, hovr, ofNat_bits s.ev.v 47 8 rfl, ofNat_bits s.ev.v 6 3 rfl, ofNat_bits s.ev.v 2 1 rfl, and_self]

theorem exec_sessionWrite_key (s : State) (ha : s.ev.a < 64) (hf : s.ev.flag = true) : exec .sessionWrite s =
    .next { s with host := { s.host with keys := tput s.host.keys s.ev.a (s.ev.data.extractLsb' 0 256) } } := by
  have hk : BitVec.ofNat 256 s.ev.data.toNat = s.ev.data.extractLsb' 0 256   := BitVec.eq_of_toNat_eq (by simp)
  show Host.Outcome.next (if s.ev.flag then s.installKey s.ev.a (BitVec.ofNat 256 s.ev.data.toNat)
    else if s.ev.a < 64 then s.sessionWr s.ev.a (s.ev.b / 8) s.ev.v allOnes else s) = _
  rw [hk, if_pos hf]
  simp only [State.installKey, if_pos ha]

/-- A copy that a session seals, and that has not failed, fails when a word of the session is written (R389). -/
def CopyOp.unsealed (j : Nat) (c : CopyOp) : CopyOp := if c.sealedBy = some j && c.failed.isNone then { c with failed := some 4 } else c

/-- A cluster's copies, those that a session seals failed. -/
def Cluster.unsealed (j : Nat) (c : Cluster) : Cluster := { c with copies := c.copies.map (CopyOp.unsealed j) }

theorem cluster_unsealed (s : State) (j g : Nat) :
    ({ s with clusters := s.clusters.map fun q => (q.1, q.2.unsealed j) } : State).cluster g = (s.cluster g).unsealed j := by
  simp only [State.cluster, tfind_map_val (Cluster.unsealed j)]
  cases tfind s.clusters g <;> rfl

theorem sessionWr_owner (s : State) (j : Nat) (v m : Word) : s.sessionWr j 1 v m =
    { (s.setSession j { s.session j with owner := v, iv := 0 }) with
      clusters := s.clusters.map fun q => (q.1, q.2.unsealed j) } := rfl

theorem exec_sessionWrite_owner (s : State) (ha : s.ev.a < 64) (hf : s.ev.flag = false) (hb : s.ev.b = 8) :
    ∃ t : State, exec .sessionWrite s = .next t ∧ t = { s with sessions := t.sessions, clusters := t.clusters } ∧
      t.session s.ev.a = { s.session s.ev.a with owner := s.ev.v, iv := 0 } ∧ (∀ j, j ≠ s.ev.a → t.session j = s.session j) ∧
      ∀ (g : Nat) (f : CopyOp → CopyOp), (∀ c, f c = if c.sealedBy = some s.ev.a ∧ c.failed = none then { c with failed := some 4 } else c) →
        t.cluster g = { s.cluster g with copies := (s.cluster g).copies.map f } := by
  refine ⟨s.sessionWr s.ev.a 1 s.ev.v allOnes, ?_, rfl, ?_, fun j hj => ?_, fun g f hfn => ?_⟩
  · show Host.Outcome.next (if s.ev.flag then s.installKey s.ev.a (BitVec.ofNat 256 s.ev.data.toNat)
      else if s.ev.a < 64 then s.sessionWr s.ev.a (s.ev.b / 8) s.ev.v allOnes else s) = _
    rw [hf, hb, if_neg Bool.false_ne_true, if_pos ha]
  · rw [sessionWr_owner]
    exact (State.session_setSession_same ..).trans (if_pos rfl)
  · rw [sessionWr_owner]
    exact (State.session_setSession_same ..).trans (if_neg hj)
  · have he : f = CopyOp.unsealed s.ev.a := funext fun c => by simp [hfn, CopyOp.unsealed]
    rw [sessionWr_owner, he]
    exact cluster_unsealed s s.ev.a g

end Sys2Proof.Machine
end

