-- ==== Sys2Proof/Proofs/RegisterEvents/Requests.lean ====
section
/-! Doorbells and PREEMPT: registers whose write starts something (R310, R311). The last theorem settles O48. -/

namespace Sys2Proof.Machine

theorem exec_doorbell (s : State) (hd : s.dieLive s.ev.a = true) :
    exec .doorbell s = .next (s.doorbellAt s.ev.a (s.ev.v.toNat % 2 ^ 56) none (s.ev.b % 2)) := by
  show Host.Outcome.next (if s.dieLive s.ev.a then s.doorbellAt s.ev.a (bits s.ev.v 55 0) none (s.ev.b % 2) else s) = _
  rw [if_pos hd]
  rfl

theorem doorbellAt_invalid (s : State) (d hdr port : Nat) (hu : s.host.up = true) (hq : s.queueHeader hdr = none) :
    s.doorbellAt d hdr none port = s.putEvent (s.kcoreOf d) 0x0E 0 0 [BitVec.ofNat 64 hdr, 0x1FFFF] 0 (pcode 8 d) := by
  simp only [State.doorbellAt, hu, hq, Bool.not_true, Bool.false_eq_true, if_false]
  rfl

theorem doorbellAt_new (s u : State) (w : List Nat) (d hdr port : Nat) (hu : s.host.up = true) (hq : s.queueHeader hdr = some (u, w))
    (hc : u.replay.cmp = false) (hn : ∀ q ∈ (u.die (w.getD 1 0 / 2 ^ 32 % 16)).queues, q.header ≠ hdr) :
    s.doorbellAt d hdr none port = u.modDie (w.getD 1 0 / 2 ^ 32 % 16) fun x => { x with queues := x.queues ++ [⟨hdr, 0, 0, u.now, port, []⟩] } := by
  have ha : ((u.die (w.getD 1 0 / 2 ^ 32 % 16)).queues.any fun q => q.header == hdr) = false := by
    simpa using hn
  simp only [State.doorbellAt, hu, hq, hc, Bool.not_true, Bool.false_eq_true, if_false, Bool.false_and, Nat.shiftRight_eq_div_pow, State.modDie, ha]
  rfl

theorem exec_preempt (s : State) (hd : s.dieLive s.ev.a = true) : exec .preempt s = .next (s.preemptWrite s.ev.a s.ev.v) := by
  show Host.Outcome.next (if s.dieLive s.ev.a then s.preemptWrite s.ev.a s.ev.v else s) = _
  rw [if_pos hd]

/-- What a write of PREEMPT asks of the context that it names, where that is one of the die that can be asked at all (R310). -/
theorem preemptWrite_named (s : State) (d cid : Nat) (v : Word) (hc : cid = s.ownCtx d (v.toNat % 2 ^ 17)) (h1 : cid < 98304) (h2 : cid / 6144 = d)
    (h3 : cid % 12 ≠ 11) (h4 : (s.ctx cid).isLive = true) : s.preemptWrite d v =
      if (v.getLsbD 17 && (match s.launchAt (s.ctx cid).launch with
        | some l => l.gang != []
        | none => false)) = true
      then (s.gangContexts (s.ctx cid).launch).foldl (fun s k => s.askStop k ⟨v.getLsbD 18, true, none, false⟩) s
      else s.askStop cid ⟨v.getLsbD 18, false, none, false⟩ := by
  have hb : bits v 16 0 = v.toNat % 2 ^ 17 := rfl
  have hk : (decide (dieOf cid ≠ d) || decide (Config.coreCount * 12 ≤ cid) || decide (ctxNum cid = 11) || !(s.ctx cid).isLive) = false := by
    have : Config.coreCount * 12 = 98304 := rfl
    simp only [dieOf, ctxNum, h2, h3, h4, this, Bool.or_eq_false_iff]
    simp; omega
  unfold State.preemptWrite
  simp only [hb, ← hc, hk]
  rfl

theorem preemptWrite_dropped (s : State) (d cid : Nat) (v : Word) (hc : cid = s.ownCtx d (v.toNat % 2 ^ 17))
    (h : cid / 6144 ≠ d ∨ cid % 12 = 11 ∨ (s.ctx cid).isLive = false) : s.preemptWrite d v = s.dropRequest d := by
  have hb : bits v 16 0 = v.toNat % 2 ^ 17 := rfl
  have hk : (decide (dieOf cid ≠ d) || decide (Config.coreCount * 12 ≤ cid) || decide (ctxNum cid = 11) || !(s.ctx cid).isLive) = true := by
    obtain h | h | h := h
    · simp [dieOf, h]
    · simp [ctxNum, h]
    · simp [h]
  unfold State.preemptWrite
  simp only [hb, ← hc, hk, if_true]

theorem stoppable_iff (c : Ctx) : c.stoppable = true ↔ (c.status = .running ∨ c.status = .waiting) ∧ c.stop = none ∧ c.haltReq = false := by
  simp [Ctx.stoppable, and_assoc]

theorem askStop_eq (s : State) (k : Nat) (q : StopReq) : s.askStop k q =
    if ((s.ctx k).status = .running ∨ (s.ctx k).status = .waiting) ∧ (s.ctx k).stop = none ∧ (s.ctx k).haltReq = false
    then s.modCtx k fun c => { c with stop := some q } else s.modDie (dieOf k) fun x => { x with dropped := x.dropped + 1 } := by
  simp only [State.askStop, State.requestStop, State.dropRequest, stoppable_iff]

theorem exec_preempt_asks (s : State) (cid : Nat) (hd : s.dieLive s.ev.a = true) (hc : cid = s.ownCtx s.ev.a (s.ev.v.toNat % 2 ^ 17)) :
    (cid < 98304 → cid / 6144 = s.ev.a → cid % 12 ≠ 11 → (s.ctx cid).status = .running ∨ (s.ctx cid).status = .waiting → (s.ctx cid).stop = none →
      (s.ctx cid).haltReq = false → s.ev.v.getLsbD 17 = false →
      exec .preempt s = .next (s.modCtx cid fun c => { c with stop := some ⟨s.ev.v.getLsbD 18, false, none, false⟩ })) ∧
    (cid / 6144 ≠ s.ev.a ∨ cid % 12 = 11 ∨ (s.ctx cid).status = .idle ∨ (s.ctx cid).status = .reserved ∨
      (s.ev.v.getLsbD 17 = false ∧ ((s.ctx cid).status = .frozen ∨ (s.ctx cid).stop ≠ none)) →
      exec .preempt s = .next (s.modDie s.ev.a fun x => { x with dropped := x.dropped + 1 })) ∧
    (∀ l, cid < 98304 → cid / 6144 = s.ev.a → cid % 12 ≠ 11 → (s.ctx cid).isLive = true → s.ev.v.getLsbD 17 = true →
      s.launchAt (s.ctx cid).launch = some l → l.gang ≠ [] →
      exec .preempt s = .next ((s.gangContexts (s.ctx cid).launch).foldl (fun u k =>
        if ((u.ctx k).status = .running ∨ (u.ctx k).status = .waiting) ∧ (u.ctx k).stop = none ∧ (u.ctx k).haltReq = false then
          u.modCtx k fun c => { c with stop := some ⟨s.ev.v.getLsbD 18, true, none, false⟩ }
        else u.modDie (dieOf k) fun x => { x with dropped := x.dropped + 1 }) s)) := by
  rw [exec_preempt s hd]
  refine ⟨fun h1 h2 h3 hst hs hh h17 => ?_, fun h => ?_, fun l h1 h2 h3 h4 h17 hl hg => ?_⟩
  · have h4 : (s.ctx cid).isLive = true := by
      obtain h | h := hst <;> simp [Ctx.isLive, h]
    rw [preemptWrite_named s s.ev.a cid s.ev.v hc h1 h2 h3 h4, h17, Bool.false_and, if_neg Bool.false_ne_true, askStop_eq, if_pos ⟨hst, hs, hh⟩]
  · by_cases hn : cid / 6144 ≠ s.ev.a ∨ cid % 12 = 11 ∨ (s.ctx cid).isLive = false
    · rw [preemptWrite_dropped s s.ev.a cid s.ev.v hc hn]
      rfl
    · simp only [not_or, ne_eq, not_not, Bool.not_eq_false] at hn
      obtain ⟨h2, h3, h4⟩ := hn
      have hlt : s.ev.a < 16 := by
        simp only [State.dieLive, Bool.and_eq_true, decide_eq_true_eq] at hd
        exact hd.1
      obtain ⟨h17, hs⟩ : s.ev.v.getLsbD 17 = false ∧ ((s.ctx cid).status = .frozen ∨ (s.ctx cid).stop ≠ none) := by
        obtain h | h | h | h | h := h
        · exact absurd h2 h
        · exact absurd h h3
        · simp [Ctx.isLive, h] at h4
        · simp [Ctx.isLive, h] at h4
        · exact h
      have hr : ¬ (((s.ctx cid).status = .running ∨ (s.ctx cid).status = .waiting) ∧ (s.ctx cid).stop = none ∧ (s.ctx cid).haltReq = false) := by
        rintro ⟨hst, hn, -⟩
        obtain hf | hf := hs
        · simp [hf] at hst
        · exact hf hn
      rw [preemptWrite_named s s.ev.a cid s.ev.v hc (by omega) h2 h3 h4, h17, Bool.false_and, if_neg Bool.false_ne_true, askStop_eq, if_neg hr, dieOf, h2]
  · have hg' : (s.ev.v.getLsbD 17 && (match s.launchAt (s.ctx cid).launch with
        | some l => l.gang != []
        | none => false)) = true := by simp [h17, hl, hg]
    rw [preemptWrite_named s s.ev.a cid s.ev.v hc h1 h2 h3 h4, if_pos hg']
    simp only [askStop_eq]

/-- Settles O48: the writes one by one. -/
theorem registerEvents : Obligations.RegisterEvents :=
  ⟨registerWrite_csr,
   exec_registerWrite_fqbase,
   exec_qvtypeWrite_stores,
   exec_qvwinWrite_stores,
   fun s hl => ⟨_, rfl, exec_qvstatAccess s hl⟩,
   exec_cspartWrite,
   exec_cspartChangeEnd,
   exec_qmquotaWrite,
   exec_quotaReachSlice,
   exec_sampctlWrite,
   exec_ttEnableWrite,
   exec_sessionWrite_key,
   exec_sessionWrite_owner,
   fun s hu hd hq => (exec_doorbell s hd).trans (congrArg Host.Outcome.next (doorbellAt_invalid s s.ev.a _ _ hu hq)),
   fun s u w n hu hd hq hn hc hh => by
     subst hn
     exact (exec_doorbell s hd).trans (congrArg Host.Outcome.next (doorbellAt_new s u w s.ev.a _ _ hu hq hc hh)),
   exec_preempt_asks⟩

end Sys2Proof.Machine
end

