-- ==== Sys2Proof/Proofs/ContextEvents/Accessed.lean ====
section
/-! What an access of memory leaves as it was. Reads and writes at home (R206, R235) recall lines and tiles, merge dirty bytes, count requests and
end reservations; they reach no die, and of a context only its reservation and the wake that losing it gives. `s.Accessed t` says that `t` comes of
`s` by changes of that kind alone. Each operation on that way has one lemma that says so; the facts about dies and contexts follow by induction
over the changes. -/

namespace Sys2Proof.Machine

/-- `t` comes of `s` by changes of memory, of the units that hold its lines, and by lost reservations. -/
inductive State.Accessed (s : State) : State → Prop
  | refl : s.Accessed s
  | units {t : State} (h : s.Accessed t) (cores : Table Core) (clusters : Table Cluster) (slices : Table Slice) (mem : Memory) (tiles : List Tile)
      (replay : Replay) (host : HostSide) :
      s.Accessed { t with cores := cores, clusters := clusters, slices := slices, mem := mem, tiles := tiles, replay := replay, host := host }
  | lose {t : State} (h : s.Accessed t) (p : Nat → Reservation → Bool) (w : Wake) : s.Accessed (t.loseIf p w)

namespace State.Accessed

theorem dies_eq {s t : State} (h : s.Accessed t) : t.dies = s.dies := by
  induction h with
  | refl => rfl
  | units _ _ _ _ _ _ _ _ ih => exact ih
  | lose _ _ _ ih => exact ih

/-- A context keeps its status where it loses its reservation. -/
theorem status_loseIf (s : State) (p : Nat → Reservation → Bool) (w : Wake) (j : Nat) : ((s.loseIf p w).ctx j).status = (s.ctx j).status := by
  unfold State.ctx State.loseIf
  induction s.ctxs with
  | nil => rfl
  | cons q t ih =>
    simp only [List.map_cons, tfind]
    grind

theorem status_eq {s t : State} (h : s.Accessed t) (j : Nat) : (t.ctx j).status = (s.ctx j).status := by
  induction h with
  | refl => rfl
  | units _ _ _ _ _ _ _ _ ih => exact ih
  | lose _ p w ih => exact (status_loseIf _ p w j).trans ih

theorem ite {s : State} {p : Prop} [Decidable p] {a b : State} (ha : s.Accessed a) (hb : s.Accessed b) : s.Accessed (if p then a else b) := by
  split
  · exact ha
  · exact hb

theorem foldl {s : State} {α : Type} {f : State → α → State} (hf : ∀ t a, s.Accessed t → s.Accessed (f t a)) {t : State} (h : s.Accessed t)
    (l : List α) : s.Accessed (l.foldl f t) := by
  induction l generalizing t with
  | nil => exact h
  | cons a l ih => exact ih (hf t a h)

variable {s t : State}

theorem modCore (h : s.Accessed t) (k f) : s.Accessed (t.modCore k f) := h.units ..
theorem modCluster (h : s.Accessed t) (g f) : s.Accessed (t.modCluster g f) := h.units ..
theorem modSlice (h : s.Accessed t) (k f) : s.Accessed (t.modSlice k f) := h.units ..
theorem withMem (h : s.Accessed t) (m : Memory) : s.Accessed { t with mem := m } := h.units ..
theorem withClusters (h : s.Accessed t) (c : Table Cluster) : s.Accessed { t with clusters := c } := h.units ..
theorem setTile (h : s.Accessed t) (x) : s.Accessed (t.setTile x) := h.units ..

theorem aliasWrite (h : s.Accessed t) (g k e y) : s.Accessed (t.aliasWrite g k e y) := by
  unfold State.aliasWrite
  grind [withMem]

theorem aliasStore (h : s.Accessed t) (g k o n v) : s.Accessed (t.aliasStore g k o n v) := by
  induction n generalizing t o v with
  | zero => exact h
  | succ n ih => exact ih (h.aliasWrite ..) ..

theorem countReads (h : s.Accessed t) (slice n) : s.Accessed (t.countReads slice n) := .ite h (h.modSlice ..)
theorem countLine (h : s.Accessed t) (slice line) : s.Accessed (t.countLine slice line) := .ite (h.countReads ..) h
theorem loseAt (h : s.Accessed t) (pa n keep w) : s.Accessed (t.loseAt pa n keep w) := by
  unfold State.loseAt
  exact h.lose ..

theorem dropSectors (h : s.Accessed t) (g line m) : s.Accessed (t.dropSectors g line m) := by
  unfold State.dropSectors
  grind [modCluster]

theorem leaveSectors (h : s.Accessed t) (g line m w) : s.Accessed (t.leaveSectors g line m w) := by
  unfold State.leaveSectors
  grind [lose, dropSectors]

theorem sendVictim (h : s.Accessed t) (g line l) : s.Accessed (t.sendVictim g line l) := .ite h (h.modCluster ..)
theorem mergeHome (h : s.Accessed t) (line l) : s.Accessed (t.mergeHome line l) := (h.withMem _).countLine ..

theorem writeBack (h : s.Accessed t) (g line m) : s.Accessed (t.writeBack g line m) := by
  unfold State.writeBack
  grind [sendVictim, mergeHome, modCluster]

theorem landVictims (h : s.Accessed t) (own line) : s.Accessed (t.landVictims own line) :=
  .ite h (foldl (fun _ _ hu => hu.mergeHome ..) (h.withClusters _) _)

theorem evictSectors (h : s.Accessed t) (g line m) : s.Accessed (t.evictSectors g line m) := by
  unfold State.evictSectors
  grind [leaveSectors, writeBack]

theorem recallAll (h : s.Accessed t) (home g line m) : s.Accessed (t.recallAll home g line m) :=
  foldl (fun _ _ hu => .ite hu (hu.evictSectors ..)) (h.landVictims ..) _

theorem backInvalidate (h : s.Accessed t) (line) : s.Accessed (t.backInvalidate line) := .ite (h.units ..) h
theorem applyPending (h : s.Accessed t) (line) : s.Accessed (t.applyPending line) := h.units ..

theorem tileDrop (h : s.Accessed t) (x g w) : s.Accessed (t.tileDrop x g w) :=
  foldl (fun _ _ hu => (hu.writeBack ..).leaveSectors ..) h _

theorem tileRecall (h : s.Accessed t) (x w) : s.Accessed (t.tileRecall x w) := (foldl (fun _ _ hu => hu.tileDrop ..) h _).setTile _

theorem evictLine (h : s.Accessed t) (g line) : s.Accessed (t.evictLine g line) := by
  have hr : ∀ u x, s.Accessed u → s.Accessed (u.releaseFrom x g (u.lineLeft x.home)) := fun _ _ hu => (hu.tileDrop ..).setTile _
  unfold State.evictLine
  grind [foldl, sendVictim, leaveSectors]

theorem makeWay (h : s.Accessed t) (g line avoid) : s.Accessed (t.makeWay g line avoid) := by
  unfold State.makeWay
  grind [evictLine]

theorem putLine (h : s.Accessed t) (g line tid sw home cls avoid f) : s.Accessed (t.putLine g line tid sw home cls avoid f) :=
  (h.makeWay ..).modCluster ..

theorem streamWrite (h : s.Accessed t) (line settle mask data task launch) : s.Accessed (t.streamWrite line settle mask data task launch) :=
  .ite h (h.units ..)

theorem settleLine (h : s.Accessed t) (line) : s.Accessed (t.settleLine line) := by
  unfold State.settleLine
  split
  · exact (h.streamWrite ..).units ..
  · exact h

theorem placeTile (h : s.Accessed t) (x g tid fl) : s.Accessed (t.placeTile x g tid fl) := by
  unfold State.placeTile
  grind [foldl, putLine]

theorem tilePush (h : s.Accessed t) (x evicted) : s.Accessed (t.tilePush x evicted) :=
  .ite h (((ite (h.placeTile ..) (foldl (fun _ _ hu => hu.mergeHome ..) h _)).setTile _).modCore ..)

theorem recallTiles (h : s.Accessed t) (home line m w) : s.Accessed (t.recallTiles home line m w) := by
  unfold State.recallTiles
  grind [foldl, tilePush, tileRecall]

theorem homeTake (h : s.Accessed t) (home line m task) : s.Accessed (t.homeTake home line m task) :=
  (ite ((h.recallTiles ..).recallAll ..) ((h.recallTiles ..).landVictims ..)).backInvalidate _

theorem homeOwnAt (h : s.Accessed t) (home line m task) : s.Accessed (t.homeOwnAt home line m task) :=
  ((h.applyPending _).homeTake ..).settleLine _

theorem homeReadAt (h : s.Accessed t) (home pa n task) : s.Accessed (t.homeReadAt home pa n task).1 := by
  unfold State.homeReadAt
  grind [countLine, homeOwnAt]

theorem homeWriteAt (h : s.Accessed t) (home pa n v w launch) : s.Accessed (t.homeWriteAt home pa n v w launch) := by
  unfold State.homeWriteAt
  cases regionOf pa with
  | scratch a g off => exact .ite ((h.loseAt ..).withMem _) ((h.loseAt ..).aliasStore ..)
  | _ => exact ((((h.loseAt ..).homeOwnAt ..).countLine ..).withMem _).streamWrite ..

theorem homeReadLines (h : s.Accessed t) (pa n) : s.Accessed (t.homeReadLines pa n).1 := by
  induction n generalizing t pa with
  | zero => exact h
  | succ n ih =>
    have h1 : s.Accessed (t.homeRead pa 128).1 := h.homeReadAt ..
    unfold State.homeReadLines
    generalize t.homeRead pa 128 = q at h1 ⊢
    obtain ⟨u, v⟩ := q
    have h2 := ih h1 (pa + 128)
    show s.Accessed (match u.homeReadLines (pa + 128) n with | (w, x) => (w, v + x * 2 ^ 1024)).1
    generalize u.homeReadLines (pa + 128) n = q at h2 ⊢
    obtain ⟨w, x⟩ := q
    exact h2

end State.Accessed

end Sys2Proof.Machine
end

