-- ==== Sys2Proof/Proofs/ContextEvents/Waits.lean ====
section
/-! Waits that end without an instruction (R17, R98, R109): the context goes back to the rotation, and its instruction retires. -/

namespace Sys2Proof.Machine

theorem State.modCtx_modCtx (s : State) (cid : Nat) (f g : Ctx → Ctx) : (s.modCtx cid f).modCtx cid g = s.modCtx cid fun c => g (f c) := by
  simp [State.modCtx]

theorem Ctx.saveNow_of_no_stop {c : Ctx} (h : c.stop = none) : c.saveNow = false := by
  simp [Ctx.saveNow, h]

section
variable {s : State} {cid : Nat} {w : Wait} {k : Wake}

/-- A wait with a wake ends with its edge record, where its kind has one (R17). -/
theorem reinsert_woken (hst : (s.ctx cid).status = .waiting) (hd : (s.die (dieOf cid)).stopped = false) (hw : (s.ctx cid).wait = some w)
    (hk : (s.ctx cid).wake = some k) (hn : (s.ctx cid).stop = none) : s.reinsert cid =
      ((w.kind.rtype.elim s fun r => s.edge (dieOf cid) (s.ctx cid).qtid k r).modCtx cid Ctx.back).endWait cid w k := by
  simp only [State.reinsert, hst, hd, hw, hk, Ctx.saveNow_of_no_stop hn]
  cases w.kind.rtype <;> rfl

/-- The waits for a value, and PHWAIT, which takes none, retire as their context returns (R107, R108, R289, R342). -/
theorem endWait_retires (h : w.kind = .hjoin ∨ w.kind = .qpop ∨ w.kind = .bhwait ∨ w.kind = .phwait) :
    (s.modCtx cid Ctx.back).endWait cid w k =
      s.modCtx cid fun c => (if w.kind = .phwait then c.back else c.back.setX w.rd k.value).counted.advance := by
  unfold State.endWait
  obtain h | h | h | h := h
  all_goals simp only [h, reduceCtorEq, if_true, if_false, State.retireCtx, State.modCtx_modCtx]

theorem endWait_falign (h : w.kind = .falign) : (s.modCtx cid Ctx.back).endWait cid w k = s.modCtx cid fun c => c.back.counted.advance := by
  unfold State.endWait
  simp only [h, State.retireCtx, State.modCtx_modCtx]

theorem rtype_of_value (h : w.kind = .hjoin ∨ w.kind = .qpop ∨ w.kind = .bhwait ∨ w.kind = .phwait) : w.kind.rtype = some w.kind.code := by
  obtain h | h | h | h := h
  all_goals rw [h]; rfl
end

theorem exec_contextReinsertion_value (s u : State) (c : Ctx) (w : Wait) (k : Wake) (hc : c = s.ctx s.ev.a) (hst : c.status = .waiting)
    (hd : (s.die (dieOf s.ev.a)).stopped = false) (hw : c.wait = some w) (hk : c.wake = some k) (hn : c.stop = none)
    (h : w.kind = .hjoin ∨ w.kind = .qpop ∨ w.kind = .bhwait ∨ w.kind = .phwait) (hu : u = s.edge (dieOf s.ev.a) c.qtid k w.kind.code) :
    ∃ t, exec .contextReinsertion s = .next t ∧ OnlyCtx u t s.ev.a ∧
      ∀ d : Ctx, d = { u.ctx s.ev.a with status := .running, wait := none, wake := none, request := none } →
        (t.ctx s.ev.a) = (if w.kind = .phwait then d else d.setX w.rd k.value).counted.advance := by
  subst hc hu
  refine ⟨_, ?_, onlyCtx_modCtx _ s.ev.a fun c => (if w.kind = .phwait then c.back else c.back.setX w.rd k.value).counted.advance, ?_⟩
  · show Host.Outcome.next (s.reinsert s.ev.a) = _
    rw [reinsert_woken hst hd hw hk hn, rtype_of_value h, endWait_retires h]
    rfl
  · rintro _ rfl
    exact State.ctx_modCtx_self ..

/-- FALIGN's budget is looked at where the wait has a deadline (R109). -/
theorem falignExpiry_eq {s : State} {cid n : Nat} {w : Wait} (hw : (s.ctx cid).wait = some w) (hn : w.deadline = some n) : s.falignExpiry cid =
    if (s.ctx cid).status = .waiting && !(s.ctx cid).saveNow && w.kind = .falign && (s.ctx cid).wake.isNone && !(s.die (dieOf cid)).stopped &&
      n ≤ (s.cycle (dieOf cid)).toNat then s.modCtx cid fun c => { c with wake := some ⟨0, 0, s.now, 0, true⟩ } else s := by
  simp only [State.falignExpiry, hw, hn]

theorem exec_falignBudgetExpiry_ends (s : State) (w : Wait) (n : Nat) (hst : (s.ctx s.ev.a).status = .waiting) (hw : (s.ctx s.ev.a).wait = some w)
    (hf : w.kind = .falign) (hn : w.deadline = some n) (hs : (s.ctx s.ev.a).stop = none) (hk : (s.ctx s.ev.a).wake = none)
    (h : n ≤ (s.cycle (dieOf s.ev.a)).toNat) (hd : (s.die (dieOf s.ev.a)).stopped = false) :
    exec .falignBudgetExpiry s = .next (s.setCtx s.ev.a { s.ctx s.ev.a with wake := some ⟨0, 0, s.now, 0, true⟩ }) := by
  show Host.Outcome.next (s.falignExpiry s.ev.a) = _
  rw [falignExpiry_eq hw hn, if_pos (by simp [hst, hf, hk, hd, h, Ctx.saveNow_of_no_stop hs])]
  rfl

theorem exec_falignBudgetExpiry_early (s : State) (w : Wait) (n : Nat) (hw : (s.ctx s.ev.a).wait = some w) (hn : w.deadline = some n)
    (h : (s.cycle (dieOf s.ev.a)).toNat < n ∨ (s.die (dieOf s.ev.a)).stopped = true) : exec .falignBudgetExpiry s = .next s := by
  show Host.Outcome.next (s.falignExpiry s.ev.a) = _
  rw [falignExpiry_eq hw hn, if_neg]
  obtain h | h := h
  · simp [Nat.not_le.mpr h]
  · simp [h]

theorem exec_contextReinsertion_falign (s : State) (w : Wait) (k : Wake) (hst : (s.ctx s.ev.a).status = .waiting) (hw : (s.ctx s.ev.a).wait = some w)
    (hf : w.kind = .falign) (hs : (s.ctx s.ev.a).stop = none) (hk : (s.ctx s.ev.a).wake = some k) (hd : (s.die (dieOf s.ev.a)).stopped = false) :
    exec .contextReinsertion s = .next (s.setCtx s.ev.a (s.ctx s.ev.a).back.counted.advance) := by
  have hr : w.kind.rtype = none := by rw [hf]; rfl
  show Host.Outcome.next (s.reinsert s.ev.a) = _
  rw [reinsert_woken hst hd hw hk hs, hr, endWait_falign hf]
  rfl

theorem exec_falign_ends (s : State) (c : Ctx) (w : Wait) (n : Nat) (hc : c = s.ctx s.ev.a) (hst : c.status = .waiting) (hw : c.wait = some w)
    (hf : w.kind = .falign) (hn : w.deadline = some n) (hs : c.stop = none) :
    (∀ k, c.wake = some k → (s.die (dieOf s.ev.a)).stopped = false → exec .contextReinsertion s =
      .next (s.setCtx s.ev.a ({ c with status := .running, wait := none, wake := none, request := none } : Ctx).counted.advance)) ∧
    (c.wake = none → n ≤ (s.cycle (dieOf s.ev.a)).toNat → (s.die (dieOf s.ev.a)).stopped = false →
      exec .falignBudgetExpiry s = .next (s.setCtx s.ev.a { c with wake := some ⟨0, 0, s.now, 0, true⟩ })) ∧
    ((s.cycle (dieOf s.ev.a)).toNat < n ∨ (s.die (dieOf s.ev.a)).stopped = true → exec .falignBudgetExpiry s = .next s) := by
  subst hc
  exact ⟨fun k hk hd => exec_contextReinsertion_falign s w k hst hw hf hs hk hd,
    fun hk h hd => exec_falignBudgetExpiry_ends s w n hst hw hf hn hs hk h hd,
    fun h => exec_falignBudgetExpiry_early s w n hw hn h⟩

end Sys2Proof.Machine
end

