-- ==== Sys2Proof/Proofs/ContextEvents/Saves.lean ====
section
/-! Save records and fault-queue entries (R115, R116, R332): where a context is saved, what a save leaves of its slot, what a restore gives back, and
where a fault-queue entry goes. -/

namespace Sys2Proof.Machine

theorem ownPa_own (s : State) (d pa : Nat) : (s.replay.cmp = false ∨ d < 8 → s.ownPa d pa = pa) ∧
    (s.replay.cmp = true → 8 ≤ d → pa < 2 ^ 41 → s.ownPa d pa = pa + 2 ^ 41) := by
  unfold State.ownPa
  refine ⟨fun h => if_neg ?_, fun hc hd hp => ?_⟩
  · obtain h | h := h
    · simp [h]
    · simp [Nat.not_le.mpr h]
  · have hh : isHbm pa = true := decide_eq_true (by omega)
    rw [if_pos (by simp [hc, hd, hh]), aRelative, Nat.mod_eq_of_lt hp]

/-- The offset of a context's save slot in its cluster's scratchpad (R116). -/
def State.saveOffset (s : State) (cid : Nat) : Nat := ((s.core (coreOf cid)).qcsave.extractLsb' 0 12).toNat * 2048 + cid % 12 * 2048
/-- The memory address of a context's save slot (R116). -/
def State.saveMemory (s : State) (cid : Nat) : Nat :=
  s.ownPa (dieOf cid) (((s.core (coreOf cid)).qcsave.extractLsb' 20 36).toNat * 2 ^ 20 + cid % 12 * 2 ^ 20)

theorem saveSlots_eq (s : State) (cid : Nat) : s.saveSlots cid =
    if s.saveOffset cid + 2048 ≤ (s.cluster (clusterOf cid)).spSize ∧ s.saveMemory cid + 2 ^ 20 - 1 < 2 ^ 42
    then some (scratchAddr (clusterOf cid) (s.saveOffset cid), s.saveMemory cid) else none := by
  have hh : ∀ pa, isHbm pa = decide (pa < 2 ^ 42) := fun _ => rfl
  simp only [State.saveSlots, Core.spidx, Core.savebase, bits_eq, ctxNum, hh, ← Bool.decide_and, decide_eq_true_eq]
  rfl

/-- What a save gives (R116): nothing where the region is invalid, else a state whose slot the thread has left, and a record, listed there, that
names the context's slots. -/
inductive State.Saves (s : State) (cid : Nat) : Option (State × Saved) → Prop
  | invalid (h : s.saveSlots cid = none) : s.Saves cid none
  | saved (t : State) (v : Saved) (h : s.saveSlots cid = some (v.fixedAt, v.memAt)) (hv : v ∈ t.saved) (hc : v.cid = cid) (hq : v.fq = none) :
      s.Saves cid (some ((t.modCtx cid fun c => c.vacate (c.slotAfter cid)).slotFreed cid, v))

theorem saveContext_saves (s : State) (cid : Nat) : s.Saves cid (s.saveContext cid) := by
  -- the definition, and the slots that its match reads, become variables: the kernel would else evaluate the slots
  suffices h : ∀ f slots, f = State.saveContext → slots = s.saveSlots cid → s.Saves cid (f s cid) from h _ _ rfl rfl
  intro f slots hf hs
  delta State.saveContext at hf
  subst hf
  beta_reduce
  rw [← hs]
  cases slots with
  | none => exact .invalid hs.symm
  | some p => exact .saved _ _ hs.symm (List.mem_append_right _ (List.mem_singleton_self _)) rfl rfl

theorem saveContext_none (s : State) (cid : Nat) : s.saveContext cid = none ↔ s.saveSlots cid = none := by
  have hsv := saveContext_saves s cid
  generalize s.saveContext cid = o at hsv ⊢
  cases hsv with
  | invalid h => simp [h]
  | saved t v h => simp [h]

theorem saveContext_none_iff (s : State) (cid : Nat) : s.saveContext cid = none ↔
    (s.cluster (clusterOf cid)).spSize < ((s.core (coreOf cid)).qcsave.extractLsb' 0 12).toNat * 2048 + cid % 12 * 2048 + 2048 ∨
    2 ^ 42 ≤ s.ownPa (dieOf cid) (((s.core (coreOf cid)).qcsave.extractLsb' 20 36).toNat * 2 ^ 20 + cid % 12 * 2 ^ 20) + 2 ^ 20 - 1 := by
  rw [saveContext_none, saveSlots_eq]
  simp only [ite_eq_right_iff, reduceCtorEq, imp_false, not_and_or, not_le, not_lt]
  rfl

@[simp] theorem ctx_slotFreed (s : State) (cid j : Nat) : (s.slotFreed cid).ctx j = s.ctx j := by
  unfold State.slotFreed
  split <;> rfl

@[simp] theorem saved_slotFreed (s : State) (cid : Nat) : (s.slotFreed cid).saved = s.saved := by
  unfold State.slotFreed
  split <;> rfl

/-- A save names its slots, is listed, and leaves the slot without its thread (R95, R116). -/
theorem saveContext_some {s u : State} {cid : Nat} {v : Saved} (h : s.saveContext cid = some (u, v)) :
    s.saveSlots cid = some (v.fixedAt, v.memAt) ∧ v.cid = cid ∧ v.fq = none ∧ v ∈ u.saved ∧
    ∃ c : Ctx, u.ctx cid = c.vacate (c.slotAfter cid) := by
  have hsv := saveContext_saves s cid
  rw [h] at hsv
  cases hsv with
  | saved t v hs hv hc hq =>
    refine ⟨hs, hc, hq, ?_, t.ctx cid, ?_⟩
    · rwa [saved_slotFreed]
    · rw [ctx_slotFreed, State.ctx_modCtx_self]

theorem slotAfter_control (c : Ctx) {cid : Nat} (h : cid % 12 = 0) : c.slotAfter cid = .reserved := by
  simp [Ctx.slotAfter, ctxNum, h]

theorem slotAfter_cases (c : Ctx) (cid : Nat) : c.slotAfter cid = .reserved ∨ c.slotAfter cid = .idle := by
  unfold Ctx.slotAfter
  split
  · exact .inl rfl
  · exact .inr rfl

theorem saveContext_spec (s u : State) (cid : Nat) (v : Saved) (h : s.saveContext cid = some (u, v)) :
    v.cid = cid ∧ (u.ctx cid).winSize = 0 ∧ (u.ctx cid).wait = none ∧ (u.ctx cid).stop = none ∧
    (cid % 12 = 0 → (u.ctx cid).status = .reserved) ∧ ((u.ctx cid).status = .reserved ∨ (u.ctx cid).status = .idle) ∧ v ∈ u.saved ∧ v.fq = none ∧
    v.memAt = s.ownPa (dieOf cid) (((s.core (coreOf cid)).qcsave.extractLsb' 20 36).toNat * 2 ^ 20 + cid % 12 * 2 ^ 20) ∧
    v.fixedAt = scratchBase + clusterOf cid * 2 ^ 23 + ((s.core (coreOf cid)).qcsave.extractLsb' 0 12).toNat * 2048 + cid % 12 * 2048 := by
  obtain ⟨hs, hcid, hfq, hmem, c, hc⟩ := saveContext_some h
  rw [saveSlots_eq, Option.ite_none_right_eq_some] at hs
  obtain ⟨hfx, hmm⟩ := Prod.mk.inj (Option.some.inj hs.2)
  have hoff : scratchAddr (clusterOf cid) (s.saveOffset cid) = scratchBase + clusterOf cid * 2 ^ 23 +
      ((s.core (coreOf cid)).qcsave.extractLsb' 0 12).toNat * 2048 + cid % 12 * 2048 := by
    rw [scratchAddr, Nat.shiftLeft_eq, State.saveOffset, Nat.add_assoc _ (_ * 2048)]
  have hwin : (c.vacate (c.slotAfter cid)).winSize = 0 := by simp [Ctx.winSize, Ctx.vacate, bits]
  rw [hc]
  exact ⟨hcid, hwin, rfl, rfl, slotAfter_control c, slotAfter_cases c cid, hmem, hfq, hmm.symm, hfx.symm.trans hoff⟩

theorem savedAt_key (s : State) (v : Saved) : ((s.savedAt v.key).getD v).key = v.key := by
  unfold State.savedAt
  cases h : s.saved.find? fun u => u.key == v.key with
  | none => rfl
  | some u => simpa using List.find?_some h

theorem mem_dropSaved {s : State} {key : Nat} {u : Saved} (h : u ∈ (s.dropSaved key).saved) : u.key ≠ key := by
  simpa using (List.mem_filter.1 h).2

/-- A context is back: in the rotation, or in the wait that it was saved in (R116). -/
def State.Resumed (s : State) (cid : Nat) : Prop := (s.ctx cid).status = .running ∨ (s.ctx cid).status = .waiting

namespace State.Resumed
variable {s : State} {cid : Nat}

theorem of_status {t : State} (h : s.Resumed cid) (e : (t.ctx cid).status = (s.ctx cid).status) : t.Resumed cid := by
  unfold State.Resumed
  rwa [e]

theorem ite {p : Prop} [Decidable p] {t : State} (hs : s.Resumed cid) (ht : t.Resumed cid) : (if p then s else t).Resumed cid := by
  split
  · exact hs
  · exact ht

theorem modCtx (h : s.Resumed cid) {f : Ctx → Ctx} (hf : ∀ c, (f c).status = c.status) : (s.modCtx cid f).Resumed cid :=
  h.of_status (by rw [State.ctx_modCtx_self, hf])

theorem moveSlots (h : s.Resumed cid) (old new : Nat) : (s.moveSlots old new).Resumed cid := .ite h h

theorem openWindow (h : s.Resumed cid) (base n : Nat) : (s.openWindow cid base n).Resumed cid := by
  unfold State.openWindow
  refine modCtx ?_ fun _ => rfl
  exact h

theorem accessed {t : State} (h : s.Resumed cid) (ha : s.Accessed t) : t.Resumed cid := h.of_status (ha.status_eq cid)

theorem setVregs (h : s.Resumed cid) {g : Nat} {at_ : Nat → Nat} {val : Nat → VReg} (l : List Nat) :
    (l.foldl (fun s r => s.setVreg g (at_ r) (val r)) s).Resumed cid := by
  induction l generalizing s with
  | nil => exact h
  | cons r l ih => exact ih h

end State.Resumed

/-- A restored context is back, and its record is gone (R116, R310). -/
theorem restoreInto_resumed (s : State) (v : Saved) (cid : Nat) :
    IfSome (fun t => t.Resumed cid ∧ ∀ u ∈ t.saved, u.key ≠ v.key) (s.restoreInto v cid) := by
  have hr : ∀ (s : State) (pa n), s.Accessed (s.homeReadLines pa n).1 := fun _ pa n => State.Accessed.refl.homeReadLines pa n
  -- the definition, and what its matches read, become variables, as in `saveContext_saves`
  suffices H : ∀ f, f = State.restoreInto → IfSome (fun t => t.Resumed cid ∧ ∀ u ∈ t.saved, u.key ≠ v.key) (f s v cid) from H _ rfl
  intro f hf
  delta State.restoreInto at hf
  subst hf
  generalize State.homeReadLines = read at hr ⊢
  generalize Ctx.winSize = size
  revert read size
  refine id fun read hr size => ?_
  beta_reduce
  extract_lets s1 v1
  have hv : v1.key = v.key := savedAt_key s1 v
  generalize read s1 v1.fixedAt 16 = q
  obtain ⟨s2, fx⟩ := q
  dsimp -zeta only
  extract_lets c0 c1 n block run wait c2 s3
  have h3 : s3.Resumed cid := by
    have hc : (s3.ctx cid).status = if wait.isSome then .waiting else .running := by rw [State.ctx_setCtx_self]
    unfold State.Resumed
    rw [hc]
    split
    · exact .inr rfl
    · exact .inl rfl
  clear_value s3
  generalize block = o
  cases o with
  | none => exact .none
  | some base =>
    dsimp -zeta only
    extract_lets opened read4 s4 left s5
    have hopen : opened.Resumed cid := h3.openWindow base n
    have hread : read4.Resumed cid := by
      refine .modCtx (.accessed hopen (hr ..)) fun _ => ?_
      rfl
    have h4 : s4.Resumed cid := .ite h3 (hread.setVregs _)
    have hleft : left.Resumed cid := h4
    have h5 : s5.Resumed cid := by
      refine .ite (h4.moveSlots ..) (.modCtx hleft fun c => ?_)
      split
      · split <;> rfl
      · rfl
    exact .some ⟨h5, fun u hu => hv ▸ mem_dropSaved hu⟩

/-- An event changes its core's queue and wakes who waits for it, live or saved (R357). -/
theorem putEvent_frame (s : State) (core typ cause : Nat) (task : Word) (words : List Word) (prodTask : Word) (code : BitVec 32) :
    s.putEvent core typ cause task words prodTask code = { s with
      ctxs := (s.putEvent core typ cause task words prodTask code).ctxs, cores := (s.putEvent core typ cause task words prodTask code).cores
      saved := (s.putEvent core typ cause task words prodTask code).saved } := by
  unfold State.putEvent
  dsimp only
  split <;> rfl

section
variable (s : State) (core typ cause : Nat) (task : Word) (words : List Word) (prodTask : Word) (code : BitVec 32)
@[simp] theorem putEvent_dies : (s.putEvent core typ cause task words prodTask code).dies = s.dies := by rw [putEvent_frame]
@[simp] theorem putEvent_mem : (s.putEvent core typ cause task words prodTask code).mem = s.mem := by rw [putEvent_frame]
@[simp] theorem putEvent_released : (s.putEvent core typ cause task words prodTask code).released = s.released := by rw [putEvent_frame]
@[simp] theorem putEvent_clusters : (s.putEvent core typ cause task words prodTask code).clusters = s.clusters := by rw [putEvent_frame]
@[simp] theorem cluster_putEvent (g : Nat) : (s.putEvent core typ cause task words prodTask code).cluster g = s.cluster g := by
  simp only [State.cluster, putEvent_clusters]
@[simp] theorem handle_putEvent (g h : Nat) : (s.putEvent core typ cause task words prodTask code).handle g h = s.handle g h := by
  simp only [State.handle, cluster_putEvent]
end

/-- A fault-queue entry is written at the tail, which moves by one (R332; free-running indices: log entry 16). -/
theorem pushFault_tail (s : State) (d fx mm cause flags num core r : Nat) (id tval pc : Word) :
    (s.pushFault d id fx mm cause flags num tval pc core r).2 =
      s.ownPa d ((s.die d).fqbase.toNat + 128 * ((s.die d).fqtail.toNat % (s.die d).fqsize.toNat)) ∧
    ((s.pushFault d id fx mm cause flags num tval pc core r).1.die d).fqtail = (s.die d).fqtail + 1 := by
  refine ⟨rfl, ?_⟩
  unfold State.pushFault State.homeWrite
  dsimp only
  rw [State.die_modDie_self]
  unfold State.die
  rw [putEvent_dies, (State.Accessed.refl.homeWriteAt ..).dies_eq]

end Sys2Proof.Machine
end

