-- ==== Sys2Proof/Proofs/ContextEvents/Stops.lean ====
section
/-! Contexts that stop (R114, R310), come back (R310), or are parked (R332). -/

namespace Sys2Proof.Machine

section
variable {s : State} {cid : Nat} {q : StopReq}

/-- On a stopped die, and while a change of SPWAYS holds the context's stores, nothing is saved (R178; log entry 84). -/
theorem contextSave_held (hq : (s.ctx cid).stop = some q) (h : (s.die (dieOf cid)).stopped = true ∨ s.waysHold cid = true) :
    s.contextSave cid = s := by
  have hb : ((s.die (dieOf cid)).stopped || s.waysHold cid) = true := by
    obtain h | h := h
    · simp [h]
    · simp [h]
  simp only [State.contextSave, hq, hb, if_true]

/-- A context that a kill stops ends at a boundary (R313, R337). -/
theorem contextSave_kill (hq : (s.ctx cid).stop = some q) (hd : (s.die (dieOf cid)).stopped = false) (hk : q.kill = true) : s.contextSave cid =
    if s.waysHold cid = true then s else if (s.ctx cid).endable = true then s.endKilled cid else s := by
  simp only [State.contextSave, hq, hd, hk, Bool.false_or, if_true]

/-- Where a save finds its context (R114): at an instruction boundary, or in a wait that an instruction has left it in. -/
def Ctx.AtRest (c : Ctx) : Prop :=
  c.packet = none ∧ c.request = none ∧ (c.status = .running ∨ (c.status = .waiting ∧ ∃ w, c.wait = some w ∧ w.kind ≠ .reply))

theorem Ctx.AtRest.ready {c : Ctx} (h : c.AtRest) (hq : c.stop = some q) :
    ((c.status = .running && c.packet.isNone && c.request.isNone) || c.saveNow) = true := by
  obtain ⟨hp, hr, hs | ⟨hs, w, hw, hk⟩⟩ := h
  · simp [hp, hr, hs]
  · simp [Ctx.saveNow, hp, hr, hs, hw, hk, hq]

section
variable (hq : (s.ctx cid).stop = some q) (hk : q.kill = false) (hd : (s.die (dieOf cid)).stopped = false) (hw : s.waysHold cid = false)
  (hr : (s.ctx cid).AtRest)
include hq hk hd hw hr

theorem contextSave_hold (hh : q.hold = true) : s.contextSave cid = s.holdSave cid q := by
  simp only [State.contextSave, hq, hk, hd, hw, hr.ready hq, hh, Bool.or_self, Bool.not_true, Bool.false_eq_true, if_false, if_true]

theorem contextSave_dropped (hh : q.hold = false) (hs : s.saveContext cid = none) :
    s.contextSave cid = (s.dropRequest (dieOf cid)).modCtx cid fun c => { c with stop := none } := by
  simp only [State.contextSave, hq, hk, hd, hw, hr.ready hq, hh, hs, Bool.or_self, Bool.not_true, Bool.false_eq_true, if_false]

theorem contextSave_saved {u : State} {v : Saved} (hh : q.hold = false) (hs : s.saveContext cid = some (u, v)) :
    s.contextSave cid = u.afterSave v q := by
  simp only [State.contextSave, hq, hk, hd, hw, hr.ready hq, hh, hs, Bool.or_self, Bool.not_true, Bool.false_eq_true, if_false]
end
end

/-- A fault queue with as many entries as it has room for (R332), its tail not having passed the end of its count. -/
theorem fqFull_of_le {x : Die} (h : x.fqsize.toNat ≤ x.fqtail.toNat - x.fqhead.toNat) (hle : x.fqhead.toNat ≤ x.fqtail.toNat) : x.fqFull = true := by
  unfold Die.fqFull Die.fqCount
  rw [BitVec.toNat_sub_of_le hle]
  exact decide_eq_true h

/-- A dropped request is counted on the die, and the context goes on changed (R114, R116). -/
theorem dropRequest_modCtx (s : State) (d cid : Nat) (f : Ctx → Ctx) :
    (s.dropRequest d).modCtx cid f = (s.modDie d fun x => { x with dropped := x.dropped + 1 }).setCtx cid (f (s.ctx cid)) := rfl

theorem holdSave_full {s : State} {cid : Nat} (q : StopReq) (h : (s.die (dieOf cid)).fqFull = true) :
    s.holdSave cid q = s.modCtx cid fun c => { c with status := .frozen, held := some ⟨0, 0, s.now, true⟩ } := by
  -- the definition, and the save that it does not come to, become variables: the kernel would else evaluate the save
  suffices H : ∀ f, f = State.holdSave → 
      f s cid q = s.modCtx cid fun c => { c with status := .frozen, held := some ⟨0, 0, s.now, true⟩ } from H _ rfl
  intro f hf
  delta State.holdSave at hf
  subst hf
  generalize State.saveContext = save
  exact if_pos h

theorem exec_contextSave_stops (s : State) (c : Ctx) (q : StopReq) (hc : c = s.ctx s.ev.a) (hq : c.stop = some q) :
    ((s.die (dieOf s.ev.a)).stopped = true ∨ s.waysHold s.ev.a = true → exec .contextSave s = .next s) ∧
    ((s.die (dieOf s.ev.a)).stopped = false → s.waysHold s.ev.a = false → q.kill = true → c.endable = true →
      exec .contextSave s = .next (s.endKilled s.ev.a)) ∧
    ((s.die (dieOf s.ev.a)).stopped = false → q.kill = true → c.endable = false → exec .contextSave s = .next s) := by
  subst hc
  refine ⟨fun h => congrArg Host.Outcome.next (contextSave_held hq h), fun hd hw hk he => congrArg Host.Outcome.next ?_,
    fun hd hk he => congrArg Host.Outcome.next ?_⟩
  · rw [contextSave_kill hq hd hk, if_neg (ne_true_of_eq_false hw), if_pos he]
  · rw [contextSave_kill hq hd hk, if_neg (ne_true_of_eq_false he), ite_self]

theorem exec_contextSave_saves (s : State) (c : Ctx) (q : StopReq) (hc : c = s.ctx s.ev.a) (hq : c.stop = some q) (hk : q.kill = false)
    (hd : (s.die (dieOf s.ev.a)).stopped = false) (hw : s.waysHold s.ev.a = false) (hp : c.packet = none) (hr : c.request = none)
    (hs : c.status = .running ∨ (c.status = .waiting ∧ ∃ w, c.wait = some w ∧ w.kind ≠ .reply)) :
    (q.hold = false → s.saveContext s.ev.a = none → exec .contextSave s =
      .next ((s.modDie (dieOf s.ev.a) fun x => { x with dropped := x.dropped + 1 }).setCtx s.ev.a { c with stop := none })) ∧
    (∀ (u : State) (v : Saved), q.hold = false → s.saveContext s.ev.a = some (u, v) → exec .contextSave s = .next (u.afterSave v q)) ∧
    (q.hold = true →
      (s.die (dieOf s.ev.a)).fqsize.toNat ≤ (s.die (dieOf s.ev.a)).fqtail.toNat - (s.die (dieOf s.ev.a)).fqhead.toNat →
      (s.die (dieOf s.ev.a)).fqhead.toNat ≤ (s.die (dieOf s.ev.a)).fqtail.toNat →
      exec .contextSave s = .next (s.setCtx s.ev.a { c with status := .frozen, held := some ⟨0, 0, s.now, true⟩ })) := by
  subst hc
  have hrest : (s.ctx s.ev.a).AtRest := ⟨hp, hr, hs⟩
  refine ⟨fun hh hn => congrArg Host.Outcome.next ((contextSave_dropped hq hk hd hw hrest hh hn).trans (dropRequest_modCtx ..)),
    fun u v hh hv => congrArg Host.Outcome.next (contextSave_saved hq hk hd hw hrest hh hv), fun hh hf hle => congrArg Host.Outcome.next ?_⟩
  rw [contextSave_hold hq hk hd hw hrest hh, holdSave_full q (fqFull_of_le hf hle)]
  rfl

section
variable {s : State} {v : Saved} {i : Nat}

/-- A saved context that nothing asks for, that is to end, or whose die is stopped stays saved (R310; log entry 84). -/
theorem contextRestore_stays (hv : s.saved[i]? = some v) (h : v.wants = false ∨ v.ending ≠ none ∨ (s.die (dieOf v.cid)).stopped = true) :
    s.contextRestore i = s := by
  have hb : (!v.wants || v.ending.isSome || (s.die (dieOf v.cid)).stopped) = true := by
    obtain h | h | h := h
    · simp [h]
    · simp [Option.isSome_iff_ne_none.2 h]
    · simp [h]
  simp only [State.contextRestore, hv, hb, if_true]

theorem contextRestore_slot (hv : s.saved[i]? = some v) (hw : v.wants = true) (he : v.ending = none) (hd : (s.die (dieOf v.cid)).stopped = false)
    (hg : v.gang = false) (hr : s.slotReady v = true) : s.contextRestore i = (s.restoreAt v v.cid).getD s := by
  simp only [State.contextRestore, hv, hw, he, hd, hg, hr, Bool.not_true, Option.isSome_none, Bool.or_self, Bool.false_eq_true, if_false, if_true]
end

theorem exec_contextRestore_comes_back (s : State) (v : Saved) (hv : s.saved[s.ev.a]? = some v) :
    (v.wants = false → exec .contextRestore s = .next s) ∧
    (v.ending ≠ none → exec .contextRestore s = .next s) ∧ ((s.die (dieOf v.cid)).stopped = true → exec .contextRestore s = .next s) ∧
    (v.wants = true → v.ending = none → (s.die (dieOf v.cid)).stopped = false → v.gang = false → (s.ctx v.cid).status = .reserved →
      s.coreAvailable (coreOf v.cid) = true → v.resume = none → ∀ t, s.restoreInto v v.cid = some t →
        exec .contextRestore s = .next t ∧ ((t.ctx v.cid).status = .running ∨ (t.ctx v.cid).status = .waiting) ∧ ∀ u ∈ t.saved, u.key ≠ v.key) := by
  have hstay (h) : exec .contextRestore s = .next s := congrArg Host.Outcome.next (contextRestore_stays hv h)
  refine ⟨fun h => hstay (.inl h), fun h => hstay (.inr (.inl h)), fun h => hstay (.inr (.inr h)), fun hw he hd hg hst hav hres t ht => ?_⟩
  have hready : s.slotReady v = true := by simp [State.slotReady, hst, hav]
  have hat : s.restoreAt v v.cid = some t := by simp [State.restoreAt, ht, hres]
  have hback := restoreInto_resumed s v v.cid
  rw [ht, IfSome.some_iff] at hback
  refine ⟨congrArg Host.Outcome.next ?_, hback⟩
  rw [contextRestore_slot hv hw he hd hg hready, hat, Option.getD_some]

section
variable {s : State} {cid : Nat} {h : Held}

theorem parkEvent_kill (hh : (s.ctx cid).held = some h) (hw : s.waysHold cid = false) (hk : (s.ctx cid).stop.any (fun q => q.kill) = true) :
    s.parkEvent cid = s.endKilled cid := by
  simp only [State.parkEvent, hh, hw, hk, Bool.false_eq_true, if_false, if_true]

/-- A context without a task is parked, and no entry of a bobbin leaves with it (R332). -/
theorem parkEvent_parks (hh : (s.ctx cid).held = some h) (hw : s.waysHold cid = false) (hk : (s.ctx cid).stop.any (fun q => q.kill) = false)
    (hf : (s.ctx cid).status = .frozen) (hp : h.parking = true) (ht : (s.ctx cid).task = none) : s.parkEvent cid = s.parkContext cid := by
  simp only [State.parkEvent, hh, hw, hk, hf, hp, ht, Bool.false_eq_true, if_false, decide_true, Bool.and_self, if_true, ite_self]

/-- While the queue is full the context stands as it is: Frozen, its park pending (R332). -/
theorem parkContext_full (hh : (s.ctx cid).held = some h) (hq : (s.die (dieOf cid)).fqFull = true) (hf : (s.ctx cid).status = .frozen)
    (hp : h.parking = true) : s.parkContext cid = s.setCtx cid (s.ctx cid) := by
  have hc : { s.ctx cid with status := .frozen, held := some { h with parking := true } } = s.ctx cid := by
    rw [← hp, ← hf, ← hh]
  -- the definition and the save become variables, as in `holdSave_full`
  suffices H : ∀ f, f = State.parkContext → f s cid = s.setCtx cid (s.ctx cid) from H _ rfl
  intro f hf
  delta State.parkContext at hf
  subst hf
  generalize State.saveContext = save
  revert save
  refine id fun save => ?_
  simp only [hh, hq, if_true, State.modCtx, hc]

theorem parkContext_dropped (hh : (s.ctx cid).held = some h) (hq : (s.die (dieOf cid)).fqFull = false) (hs : s.saveContext cid = none) :
    s.parkContext cid = (s.dropRequest (dieOf cid)).modCtx cid fun c => { c with status := .running, held := none } := by
  simp only [State.parkContext, hh, hq, hs, Bool.false_eq_true, if_false]

theorem fqFlags_eq (cid : Nat) (c : Ctx) (held : Bool) :
    fqFlags cid c held = (if ctxNum cid = 0 then 2 else 0) + (if c.hstarted then 4 else 0) + (if held then 8 else 0) := by
  unfold fqFlags bnat
  grind

theorem parkContext_saved {u : State} {v : Saved} (hh : (s.ctx cid).held = some h) (hq : (s.die (dieOf cid)).fqFull = false)
    (ht : (s.ctx cid).task = none) (hs : s.saveContext cid = some (u, v)) {w : State} {p : Nat}
    (hp : u.pushFault (dieOf cid) (s.ctx cid).qtid v.fixedAt v.memAt h.cause (fqFlags cid (s.ctx cid) (s.ctx cid).stop.isSome) (ctxNum cid) h.stval
      (s.ctx cid).sepc (coreOf cid) 0 = (w, p)) :
    s.parkContext cid = w.modSaved v.key fun x => { x with fq := some p, gang := ((s.ctx cid).stop.map (·.gang)).getD false } := by
  simp only [State.parkContext, hh, hq, hs, ht, Option.map_none, Option.getD_none, hp, Bool.false_eq_true, if_false]
end

/-- A deferred park is a park, once the queue has room (R332). -/
theorem exec_deferredPark (s : State) : exec .deferredPark s = if (s.die (dieOf s.ev.a)).fqFull = true then .next s else exec .park s := by
  show Host.Outcome.next (if (s.die (dieOf s.ev.a)).fqFull then s else s.parkEvent s.ev.a) = _
  split <;> rfl

theorem exec_park_kill (s : State) (c : Ctx) (h : Held) (hc : c = s.ctx s.ev.a) (hh : c.held = some h) (hw : s.waysHold s.ev.a = false)
    (hk : c.stop.any (fun q => q.kill) = true) :
    exec .park s = .next (s.endKilled s.ev.a) ∧ ((s.die (dieOf s.ev.a)).fqFull = false → exec .deferredPark s = exec .park s) := by
  subst hc
  refine ⟨congrArg Host.Outcome.next (parkEvent_kill hh hw hk), fun hq => ?_⟩
  rw [exec_deferredPark, if_neg (ne_true_of_eq_false hq)]

theorem exec_park_parks (s : State) (c : Ctx) (h : Held) (hc : c = s.ctx s.ev.a) (hh : c.held = some h) (hw : s.waysHold s.ev.a = false)
    (hk : c.stop.any (fun q => q.kill) = false) (hf : c.status = .frozen) (hp : h.parking = true) (ht : c.task = none) :
    ((s.die (dieOf s.ev.a)).fqFull = false → (exec .deferredPark s = exec .park s ∧
      (s.saveContext s.ev.a = none → exec .park s =
        .next ((s.modDie (dieOf s.ev.a) fun x => { x with dropped := x.dropped + 1 }).setCtx s.ev.a { c with status := .running, held := none })) ∧
      ∀ (u w : State) (v : Saved) (p flags : Nat), s.saveContext s.ev.a = some (u, v) →
        flags = (if ctxNum s.ev.a = 0 then 2 else 0) + (if c.hstarted then 4 else 0) + (if c.stop.isSome then 8 else 0) →
        u.pushFault (dieOf s.ev.a) c.qtid v.fixedAt v.memAt h.cause flags (ctxNum s.ev.a) h.stval c.sepc (coreOf s.ev.a) 0 = (w, p) →
        exec .park s = .next (w.modSaved v.key fun x => { x with fq := some p, gang := (c.stop.map (·.gang)).getD false }))) ∧
    ((s.die (dieOf s.ev.a)).fqFull = true → exec .deferredPark s = .next s ∧ exec .park s = .next (s.setCtx s.ev.a c)) := by
  subst hc
  have hpark : exec .park s = .next (s.parkContext s.ev.a) := congrArg Host.Outcome.next (parkEvent_parks hh hw hk hf hp ht)
  refine ⟨fun hq => ⟨?_, fun hs => ?_, fun u w v p flags hs hfl hpush => ?_⟩, fun hq => ⟨?_, ?_⟩⟩
  · rw [exec_deferredPark, if_neg (ne_true_of_eq_false hq)]
  · rw [hpark, parkContext_dropped hh hq hs, dropRequest_modCtx]
  · rw [hfl, ← fqFlags_eq] at hpush
    rw [hpark, parkContext_saved hh hq ht hs hpush]
  · rw [exec_deferredPark, if_pos hq]
  · rw [hpark, parkContext_full hh hq hf hp]

end Sys2Proof.Machine
end

