-- ==== Sys2Proof/Proofs/ContextEvents/Timeouts.lean ====
section
/-! Requests that no home answers within TMO (R164, R196, R301): what each of the units that had sent one does. The last theorem settles O50. -/

namespace Sys2Proof.Machine

theorem tmo_eq (s : State) : s.tmo = (s.qmtmo.extractLsb' 0 40).toNat := bits_eq ..

theorem exec_requestTimeout (s : State) : exec .requestTimeout s = .next (s.requestTimeout s.ev) := rfl

/-! ### Contexts -/

theorem ctxTimeout_raises {s : State} {cid pa : Nat} {w : Wait} {r : Request} (hst : (s.ctx cid).status = .waiting) (hw : (s.ctx cid).wait = some w)
    (hr : (s.ctx cid).request = some r) (hp : r.timed = some pa) (ht : w.since + s.tmo ≤ s.now) (hd : (s.die (dieOf cid)).stopped = false) :
    s.ctxTimeout cid = ((s.leaveSlots cid).modCtx cid Ctx.back).raiseCtx cid 28 (word pa) := by
  simp only [State.ctxTimeout, hst, hw, hr, hp, ht, hd, Option.bind_some, decide_true, Bool.not_false, Bool.and_self, if_true]

theorem exec_requestTimeout_ctx (s : State) (c : Ctx) (w : Wait) (pa d : Nat) (hn : s.ev.n = 0) (hc : c = s.ctx s.ev.a) (hst : c.status = .waiting)
    (hw : c.wait = some w) (hr : c.request = some (.mute pa d) ∨ (∃ i sl, c.request = some (.access i (some pa) sl)))
    (ht : w.since + (s.qmtmo.extractLsb' 0 40).toNat ≤ s.now) (hd : (s.die (dieOf s.ev.a)).stopped = false) : exec .requestTimeout s =
      .next (((s.leaveSlots s.ev.a).setCtx s.ev.a { c with status := .running, wait := none, wake := none, request := none }).raiseCtx s.ev.a 28
        (BitVec.ofNat 64 pa)) := by
  subst hc
  rw [← tmo_eq] at ht
  have hreq : s.requestTimeout s.ev = s.ctxTimeout s.ev.a := by simp only [State.requestTimeout, hn]
  rw [exec_requestTimeout, hreq]
  obtain hr | ⟨i, sl, hr⟩ := hr
  · rw [ctxTimeout_raises hst hw hr rfl ht hd]
    rfl
  · rw [ctxTimeout_raises hst hw hr rfl ht hd]
    rfl

/-! ### Posted messages and sends -/

theorem requestTimeout_posted {s : State} {e : SBEntry} (hn : s.ev.n = 1) (hf : s.ev.flag = false) (he : (s.core s.ev.a).posted[s.ev.b]? = some e)
    (ht : e.since + s.tmo ≤ s.now) : s.requestTimeout s.ev = s.postedEnds s.ev.a s.ev.b false := by
  simp only [State.requestTimeout, hn, State.postedExpires, he, ht, hf, if_true, Bool.false_and]

section
variable {s : State} {k i : Nat} {e : SBEntry} {x : Xlat} {n : Nat} {v : Word}

/-- A posted store that was not performed is told of in an event of TYPE 0x07 (R196). -/
theorem postedEnds_store (he : (s.core k).posted[i]? = some e) (hk : e.kind = .store x n v) (hv : e.vec = none) :
    s.postedEnds k i false = (s.modCore k fun c => { c with posted := c.posted.eraseIdx i }).postedTimeout e.cid e.task x.pa := by
  simp only [State.postedEnds, he, hk, hv, Option.isSome_none, Bool.false_eq_true, if_false]

theorem postedEnds_element (he : (s.core k).posted[i]? = some e) (hk : e.kind = .store x n v) {key j : Nat} (hv : e.vec = some (key, j)) :
    s.postedEnds k i false = (s.modCore k fun c => { c with posted := c.posted.eraseIdx i }).elemDone k e (some (28, x.pa)) := by
  simp only [State.postedEnds, he, hk, hv, Option.isSome_some, if_true]

/-- The last element of a vector store that fails alone writes the store's record (R164). -/
theorem elemDone_last {q : VecStore} {key j cause pa : Nat} (hv : e.vec = some (key, j)) (hq : (s.core k).vecStores = [q]) (hkey : q.key = key)
    (hl : q.left = 1) (hf : q.fails = []) : s.elemDone k e (some (cause, pa)) =
      (s.modCore k fun c => { c with vecStores := [] }).putEvent (coreOf q.cid) 6 cause q.task [q.pc, word pa] q.task
        (pcode 9 (s.reportCluster (clusterOf q.cid))) := by
  subst hkey
  have hfind : [q].find? (fun v => v.key == q.key) = some q := by simp
  have hrest : [q].filter (fun u => u.key ≠ q.key) = [] := by simp
  simp only [State.elemDone, hv, hq, hfind, hrest, hl, hf, le_refl, if_true]
  rfl
end

theorem exec_requestTimeout_posted (s : State) (e : SBEntry) (x : Xlat) (n : Nat) (v : Word) (hn : s.ev.n = 1) (hf : s.ev.flag = false)
    (he : (s.core s.ev.a).posted[s.ev.b]? = some e) (hk : e.kind = .store x n v)
    (ht : e.since + (s.qmtmo.extractLsb' 0 40).toNat ≤ s.now) (u : State) (hu : u = (s.modCore s.ev.a fun k => { k with posted := k.posted.eraseIdx s.ev.b })) :
    (e.vec = none → exec .requestTimeout s =
      .next (u.putEvent (coreOf e.cid) 7 28 e.task [0, BitVec.ofNat 64 x.pa] e.task (pcode 11 (dieOf e.cid)))) ∧
    ∀ (i key : Nat) (q : VecStore), e.vec = some (key, i) → (s.core s.ev.a).vecStores = [q] → q.key = key → q.left = 1 → q.fails = [] →
      exec .requestTimeout s = .next ((u.modCore s.ev.a fun k => { k with vecStores := [] }).putEvent (coreOf q.cid) 6 28 q.task
        [q.pc, BitVec.ofNat 64 x.pa] q.task (pcode 9 (s.reportCluster (clusterOf q.cid)))) := by
  subst hu
  rw [← tmo_eq] at ht
  rw [exec_requestTimeout, requestTimeout_posted hn hf he ht]
  refine ⟨fun hv => ?_, fun i key q hv hq hkey hl hfl => ?_⟩
  · rw [postedEnds_store he hk hv]
    rfl
  · rw [postedEnds_element he hk hv, elemDone_last hv ((congrArg Core.vecStores (State.core_modCore_self ..)).trans hq) hkey hl hfl]
    rfl

theorem sendTimeout_forced {s : State} {i : Nat} {a : AccSend} (ha : s.sends[i]? = some a) (hf : a.forced = true) :
    s.sendTimeout i = ({ s with sends := s.sends.eraseIdx i } : State).postedTimeout a.cid a.task a.dst.pa := by
  simp only [State.sendTimeout, ha, hf, if_true]

theorem exec_requestTimeout_send (s : State) (a : AccSend) (hn : s.ev.n = 2) (ha : s.sends[s.ev.a]? = some a) (hf : a.forced = true)
    (ht : a.sent + (s.qmtmo.extractLsb' 0 40).toNat ≤ s.now) : exec .requestTimeout s =
    .next (({ s with sends := s.sends.eraseIdx s.ev.a } : State).putEvent (coreOf a.cid) 7 28 a.task [0, BitVec.ofNat 64 a.dst.pa]
      a.task (pcode 11 (dieOf a.cid))) := by
  rw [← tmo_eq] at ht
  have hreq : s.requestTimeout s.ev = s.sendTimeout s.ev.a := by
    simp only [State.requestTimeout, hn, ha, Option.any_some, ht, decide_true, if_true]
  rw [exec_requestTimeout, hreq, sendTimeout_forced ha hf]
  rfl

/-! ### Engines -/

theorem copyTimeout_fails {s : State} {g i pa : Nat} {c : CopyOp} (hc : (s.cluster g).copies[i]? = some c) (hs : c.sealedBy = none)
    (ht : s.timedOut c.since (c.reads ++ c.writes) pa = true) (hl : s.leaves g pa = true) : s.copyTimeout g i pa = s.copyFails g i c 28 pa := by
  simp only [State.copyTimeout, hc, hs, State.clusterTimedOut, ht, hl, Bool.and_self, Bool.not_true, Bool.false_eq_true, if_false]

theorem handle_changeHandle (s : State) (g h : Nat) (st : BitVec 2) (err : Bool) (task : Word) (code : BitVec 32) :
    (s.changeHandle g h st err task code).handle g h = ⟨st, err, task, code, s.now, if err then (s.handle g h).veil else []⟩ := by
  show (s.setHandle g h _).handle g h = _
  simp only [State.handle, State.setHandle, State.cluster_modCluster_self, tfind_tput_self, Option.getD_some]

theorem copies_changeHandle (s : State) (g h j : Nat) (st : BitVec 2) (err : Bool) (task : Word) (code : BitVec 32) :
    ((s.changeHandle g h st err task code).cluster j).copies = (s.cluster j).copies := by
  show ((s.setHandle g h _).cluster j).copies = _
  simp only [State.setHandle, State.modCluster, State.cluster_setCluster]
  split
  · rename_i e
    rw [e]
  · rfl

/-- A copy for a handle that fails is gone, its handle takes ERR, and the record goes to its owner (R16, R301). -/
theorem copyFails_handle {s : State} {g i h m cause pa : Nat} {w : Word} {c : CopyOp} (ht : c.target = .handle h m w) (hr : ∀ r ∈ s.released, r.g ≠ g) :
    s.copyFails g i c cause pa = ((s.setCopy g i none).changeHandle h m 1 true c.task (pcode 1 (s.reportCluster g))).putEvent c.owner 0x0A cause c.task
      [c.pc, word pa, c.target.asWord, word c.done] c.task (pcode 1 (s.reportCluster g)) := by
  simp only [State.copyFails, ht]
  rw [pumpCluster_idle]
  · rfl
  · rw [putEvent_released]
    exact hr

theorem exec_requestTimeout_copy (s : State) (c : CopyOp) (g h : Nat) (w : Word) (hn : s.ev.n = 3) (hc : (s.cluster s.ev.a).copies[s.ev.b]? = some c)
    (hs : c.sealedBy = none) (hg : c.target = .handle g h w) (ht : s.timedOut c.since (c.reads ++ c.writes) s.ev.c = true)
    (hl : s.leaves s.ev.a s.ev.c = true) (hr : ∀ r ∈ s.released, r.g ≠ s.ev.a) :
    ∃ t : State, exec .requestTimeout s = .next t ∧ (t.handle g h).st = 1 ∧ (t.handle g h).err = true ∧ t.mem = s.mem ∧
      (t.cluster s.ev.a).copies = (s.cluster s.ev.a).copies.eraseIdx s.ev.b := by
  have hreq : s.requestTimeout s.ev = s.copyTimeout s.ev.a s.ev.b s.ev.c := by simp only [State.requestTimeout, hn]
  rw [exec_requestTimeout, hreq, copyTimeout_fails hc hs ht hl, copyFails_handle hg hr]
  refine ⟨_, rfl, ?_, ?_, ?_, ?_⟩
  · rw [handle_putEvent, handle_changeHandle]
  · rw [handle_putEvent, handle_changeHandle]
  · rw [putEvent_mem]
    rfl
  · rw [cluster_putEvent, copies_changeHandle, State.setCopy, State.cluster_modCluster_self]

theorem exec_requestTimeout_stack (s : State) (c : StackCmd) (hn : s.ev.n = 4) (hc : (s.stackList s.ev.a)[s.ev.b]? = some c)
    (ht : s.timedOut c.since ((c.descAt :: c.pages ++ s.nextRow s.ev.a c).map fun x => (x.pa / 4096 * 4096, 4096)) s.ev.c = true) :
    exec .requestTimeout s = .next (s.stackFails s.ev.a s.ev.b c 28 s.ev.c) := by
  have hreq : s.requestTimeout s.ev = s.stackTimeout s.ev.a s.ev.b s.ev.c := by simp only [State.requestTimeout, hn]
  rw [exec_requestTimeout, hreq]
  simp only [State.stackTimeout, hc, pageRanges, ht, if_true]

theorem mxTimeout_fails {s : State} {g i pa : Nat} {q : MxCmd} (hq : (s.cluster g).mx.queue[i]? = some q) (hs : q.started = true)
    (hu : q.op.unit = some false) (ht : s.timedOut q.since (s.mxPieces q) pa = true) (hl : s.leaves g pa = true) :
    s.mxTimeout g i pa = s.mxFails g i q 28 pa := by
  simp only [State.mxTimeout, hq, hs, hu, State.clusterTimedOut, ht, hl, decide_true, Bool.and_self, if_true]

theorem exec_requestTimeout_mx (s : State) (q : MxCmd) (hn : s.ev.n = 5) (hq : (s.cluster s.ev.a).mx.queue[s.ev.b]? = some q) (hs : q.started = true)
    (ho : (∃ b ea, q.op = .ld b ea) ∨ (∃ d ea, q.op = .st d ea)) (ht : s.timedOut q.since (s.mxPieces q) s.ev.c = true)
    (hl : s.leaves s.ev.a s.ev.c = true) : ∃ t : State, exec .requestTimeout s = .next t ∧
      (t.cluster s.ev.a).mx.queue = (s.cluster s.ev.a).mx.queue.eraseIdx s.ev.b ∧
      (t.cluster s.ev.a).mx.acc = (s.cluster s.ev.a).mx.acc ∧ t.mem = s.mem := by
  have hu : q.op.unit = some false := by
    obtain ⟨b, ea, h⟩ | ⟨d, ea, h⟩ := ho
    · rw [h]; rfl
    · rw [h]; rfl
  have hreq : s.requestTimeout s.ev = s.mxTimeout s.ev.a s.ev.b s.ev.c := by simp only [State.requestTimeout, hn]
  rw [exec_requestTimeout, hreq, mxTimeout_fails hq hs hu ht hl, State.mxFails]
  refine ⟨_, rfl, ?_, ?_, ?_⟩
  · rw [cluster_putEvent, State.cluster_modCluster_self]
  · rw [cluster_putEvent, State.cluster_modCluster_self]
  · rw [putEvent_mem]
    rfl

/-- Settles O50: waits, saves and restores, parks, and timeouts, one by one. -/
theorem contextEvents : Obligations.ContextEvents :=
  ⟨exec_contextReinsertion_value,
   exec_falign_ends,
   exec_contextSave_stops,
   exec_contextSave_saves,
   saveContext_spec,
   saveContext_none_iff,
   ownPa_own,
   exec_contextRestore_comes_back,
   exec_park_kill,
   exec_park_parks,
   pushFault_tail,
   exec_requestTimeout_ctx,
   exec_requestTimeout_posted,
   exec_requestTimeout_send,
   exec_requestTimeout_copy,
   exec_requestTimeout_stack,
   exec_requestTimeout_mx⟩

end Sys2Proof.Machine
end

