-- ==== Sys2Proof/Proofs/AtomicUpdates.lean ====
section
/-! Atomic updates (R31, R101, R200): the value that each operation stores, the one update through which an AMO and an AMOS complete, and what an
update of scratchpad bytes leaves of memory. -/

namespace Sys2Proof.Machine

/-! ### The values stored -/

theorem amoValue_eq_amoExpected {w : Nat} (op : AmoOp) (old v : BitVec w) : amoValue op old v = amoExpected op old v := by
  cases op with
  | swap | xor | and | or => rfl
  | add => simp only [amoValue, amoExpected, BitVec.ofInt_add, BitVec.ofInt_toInt]
  | min | max => simp only [amoValue, amoExpected, BitVec.slt_iff_toInt_lt]
  | minu | maxu => simp only [amoValue, amoExpected, BitVec.ult_iff_lt, BitVec.lt_def]

/-- AMOS codes 0 to 8 are the nine base operations in an order of their own; code 9 is the compare-and-swap (R200). -/
theorem amosValue_codes (old v e : Word) :
    amosValue 0 old v e = some (amoExpected .swap old v, 0) ∧ amosValue 1 old v e = some (amoExpected .add old v, 0) ∧
    amosValue 2 old v e = some (amoExpected .and old v, 0) ∧ amosValue 3 old v e = some (amoExpected .or old v, 0) ∧
    amosValue 4 old v e = some (amoExpected .xor old v, 0) ∧ amosValue 5 old v e = some (amoExpected .min old v, 0) ∧
    amosValue 6 old v e = some (amoExpected .max old v, 0) ∧ amosValue 7 old v e = some (amoExpected .minu old v, 0) ∧
    amosValue 8 old v e = some (amoExpected .maxu old v, 0) ∧
    (amosValue 9 e v e = some (v, 0)) ∧ (old ≠ e → amosValue 9 old v e = none) := by
  simp only [← amoValue_eq_amoExpected]
  exact ⟨rfl, rfl, rfl, rfl, rfl, rfl, rfl, rfl, rfl, if_pos rfl, fun h => if_neg h⟩

/-! ### The instructions -/

/-- What a base AMO stores over the old value `b`, with `v` in rs2. -/
def amoStored (op : AmoOp) (dbl : Bool) (v : Word) (b : Nat) : Nat :=
  if dbl then (amoExpected op (BitVec.ofNat 64 b) v).toNat else (amoExpected op (BitVec.ofNat 32 b) (BitVec.ofNat 32 v.toNat)).toNat

theorem exec_amo_checked {s u : State} {x : Xlat} {n : Nat} {dbl : Bool} (hn : n = if dbl then 8 else 4) (op : AmoOp) (aq rl : Bool)
    (rd rs1 rs2 : Reg) (h : s.atomicCheck .store needRW true (s.xr rs1) n = .ok (u, x)) :
    ∃ v o t, (u.beforeAtomic rl x).atomicUpdate x n (fun b => some (amoStored op dbl (u.xr rs2) b)) = (v, o) ∧
      exec (.amo op dbl aq rl rd rs1 rs2) s = .next t ∧ Completed (v.setXr rd (extendLoad n o true)) t := by
  subst hn
  refine ⟨_, _, _, rfl, ?_, completed_retire _⟩
  show execAmo op dbl aq rl rd rs1 rs2 s = _
  simp only [execAmo, h, except_bind, State.done_ok, amoValue_eq_amoExpected]
  rfl

theorem exec_amos_checked {s u : State} {x : Xlat} (rd rs1 rs2 : Reg) (sc : BitVec 3) (op : BitVec 4)
    (h : s.atomicCheck .store needRW true (s.xr rs1) 8 = .ok (u, x)) :
    ∃ v o f t, (u.beforeAtomic true x).atomicUpdate x 8
          (fun b => (amosValue op.toNat (BitVec.ofNat 64 b) (u.xr rs2) (u.xr rd)).map fun r => r.1.toNat) = (v, o) ∧
      f = ((amosValue op.toNat (BitVec.ofNat 64 o) (u.xr rs2) (u.xr rd)).map (·.2)).getD 0 ∧
      exec (.amos rd rs1 rs2 sc op) s = .next t ∧ Completed (v.modCtx v.cur fun c => (c.setX rd (BitVec.ofNat 64 o)).orFflags f) t := by
  rcases hu : (u.beforeAtomic true x).atomicUpdate x 8
    (fun b => (amosValue op.toNat (BitVec.ofNat 64 b) (u.xr rs2) (u.xr rd)).map fun r => r.1.toNat) with ⟨v, o⟩
  refine ⟨v, o, _, _, hu, rfl, ?_, completed_retire _⟩
  show execAmos rd rs1 rs2 sc op s = _
  simp only [execAmos, h, except_bind, State.done_ok, word, hu]

/-- An atomic access that is not naturally aligned stops at its first check (R101). -/
theorem atomicCheck_misaligned (s : State) (cls : Cls) (nd : Need) (store : Bool) {va : Word} {n : Nat} (h : va.toNat % n ≠ 0) :
    s.atomicCheck cls nd store va n = .error (.exc 6 va) := by
  have hb : (va.toNat % n == 0) = false := beq_false_of_ne h
  simp only [State.atomicCheck, need, hb, trap, except_bind, Bool.false_eq_true, if_false]

theorem exec_amo_misaligned (s : State) (op : AmoOp) (dbl aq rl : Bool) (rd rs1 rs2 : Reg) (h : (s.xr rs1).toNat % (if dbl then 8 else 4) ≠ 0) :
    exec (.amo op dbl aq rl rd rs1 rs2) s = .next (s.raise 6 (s.xr rs1)) := by
  show execAmo op dbl aq rl rd rs1 rs2 s = _
  simp only [execAmo, atomicCheck_misaligned s .store needRW true h, except_bind, State.done_exc]

theorem exec_amos_misaligned (s : State) (rd rs1 rs2 : Reg) (sc : BitVec 3) (op : BitVec 4) (h : (s.xr rs1).toNat % 8 ≠ 0) :
    exec (.amos rd rs1 rs2 sc op) s = .next (s.raise 6 (s.xr rs1)) := by
  show execAmos rd rs1 rs2 sc op s = _
  simp only [execAmos, atomicCheck_misaligned s .store needRW true h, except_bind, State.done_exc]

/-! ### The update in a scratchpad -/

/-- What the loss of reservations does to each context (R102): its number and its wait stay, and a wake comes to a WRS alone (R103). -/
theorem loseIf_ctxs (s : State) (p : Nat → Reservation → Bool) (w : Wake) : ∃ f : Nat × Ctx → Nat × Ctx,
    s.loseIf p w = { s with ctxs := s.ctxs.map f } ∧ ∀ q, (f q).1 = q.1 ∧ (f q).2.wait = q.2.wait ∧
      ((f q).2.wake = q.2.wake ∨ ∃ wt, q.2.wait = some wt ∧ (wt.kind = .wrsNto ∨ wt.kind = .wrsSto)) := by
  refine ⟨_, rfl, fun ⟨i, c⟩ => ?_⟩
  rcases hr : c.reservation with _ | r
  · simp only [hr, true_or, and_self]
  · cases hp : p i r with
    | false => simp only [hr, hp, Bool.false_eq_true, if_false, true_or, and_self]
    | true =>
      rcases hw : c.wait with _ | wt
      · simp only [hr, hp, hw, if_true, true_or, and_self]
      · by_cases hk : (wt.kind = .wrsNto ∨ wt.kind = .wrsSto) ∧ c.wake = none
        · simp [hr, hp, hw, hk]
        · simp [hr, hp, hw, hk]

theorem phasersInUse_loseIf (s : State) (p : Nat → Reservation → Bool) (w : Wake) : (s.loseIf p w).phasersInUse = s.phasersInUse := by
  obtain ⟨f, hs, hf⟩ := loseIf_ctxs s p w
  simp only [hs, State.phasersInUse, List.filterMap_map, Function.comp_def, (hf _).2.1]

/-- A context that waits in a QPOP waits in it still, and no other begins to. -/
theorem popWaits_loseIf (s : State) (p : Nat → Reservation → Bool) (w : Wake) : (s.loseIf p w).popWaits = s.popWaits := by
  obtain ⟨f, hs, hf⟩ := loseIf_ctxs s p w
  simp only [hs, State.popWaits, List.filter_append, List.filter_filterMap, List.filterMap_map]
  congr 1
  refine List.filterMap_congr fun q _ => ?_
  obtain ⟨hid, hwait, hwake | ⟨wt, hwt, hk⟩⟩ := hf q
  · simp only [Function.comp_apply, hid, hwait, hwake]
  · have hq : wt.kind ≠ .qpop := by rcases hk with h | h <;> simp [h]
    simp only [Function.comp_apply, hid, hwait, hwt]
    cases (f q).2.wake <;> cases q.2.wake <;> simp [Option.filter, hq]

theorem phasersInUse_loseAt (s : State) (pa n : Nat) (keep : Option Nat) (w : Wake) : (s.loseAt pa n keep w).phasersInUse = s.phasersInUse :=
  phasersInUse_loseIf ..
theorem popWaits_loseAt (s : State) (pa n : Nat) (keep : Option Nat) (w : Wake) : (s.loseAt pa n keep w).popWaits = s.popWaits := popWaits_loseIf ..
theorem phasersInUse_withMem (s : State) (m : Memory) : ({ s with mem := m } : State).phasersInUse = s.phasersInUse := rfl
theorem popWaits_withMem (s : State) (m : Memory) : ({ s with mem := m } : State).popWaits = s.popWaits := rfl

/-- A home that knows of no object in use, and of no context in a QPOP, looks at nothing (log entry 28). -/
theorem restorePhaser_idle {s : State} (hp : s.phasersInUse = []) (hq : s.popWaits = []) (pa n : Nat) : s.restorePhaser pa n = s := by
  simp only [State.restorePhaser, hp, hq, List.filter_nil, List.foldl_nil]

/-- A write of raw scratchpad bytes ends reservations and changes those bytes, and nothing else. -/
theorem writeMem_scratch {s : State} {x : Xlat} {h off : Nat} (hr : regionOf x.pa = .scratch 0 h off) (g : Nat) (tid : BitVec 12) (n v : Nat)
    (keep : Option Nat) (w : Wake) (launch : Nat) :
    s.writeMem g tid x n v keep w launch = { s.loseAt x.pa n keep w with mem := mwrite s.mem (scratchAddr h off) n v } := by
  simp only [State.writeMem, hr, if_true, loseAt_mem]

/-- So a write of raw scratchpad bytes, where no home has an object to look at, is all that happens (log entry 28). -/
theorem restorePhaser_writeMem_scratch {s : State} {x : Xlat} {h off : Nat} (hr : regionOf x.pa = .scratch 0 h off) (hp : s.phasersInUse = [])
    (hq : s.popWaits = []) (g : Nat) (tid : BitVec 12) (n v : Nat) (keep : Option Nat) (w : Wake) (launch : Nat) :
    (s.writeMem g tid x n v keep w launch).restorePhaser x.pa n = s.writeMem g tid x n v keep w launch := by
  rw [writeMem_scratch hr]
  apply restorePhaser_idle
  · rw [phasersInUse_withMem, phasersInUse_loseAt, hp]
  · rw [popWaits_withMem, popWaits_loseAt, hq]

/-- The byte at any address after bytes are written (`mget_mwrite_inside`, `mget_mwrite_outside`). -/
theorem mget_mwrite (m : Memory) (a n v j : Nat) :
    mget (mwrite m a n v) j = if a ≤ j ∧ j < a + n then BitVec.ofNat 8 (v / 2 ^ (8 * (j - a))) else mget m j := by
  split
  · rename_i h
    obtain ⟨i, rfl⟩ := Nat.exists_eq_add_of_le h.1
    rw [mget_mwrite_inside m a n v i (by omega), Nat.add_sub_cancel_left, Nat.pow_mul]
  · exact mget_mwrite_outside m a n v j (by omega)

/-- An update of bytes of a scratchpad reads them, and memory is then as its one write leaves it (R31). -/
theorem atomicUpdate_scratch {s : State} {x : Xlat} {n g off : Nat} (f : Nat → Option Nat) (hr : regionOf x.pa = .scratch 0 g off)
    (ht : s.tilesAt (some x.slice) x.pa n = []) (hp : s.phasersInUse = []) (hq : s.popWaits = []) (hv : s.veils g (some s.me.qtid) = []) :
    (s.atomicUpdate x n f).2 = mread s.mem (scratchAddr g off) n ∧
    (s.atomicUpdate x n f).1.mem = match f (mread s.mem (scratchAddr g off) n) with
      | none => s.mem
      | some v => mwrite s.mem (scratchAddr g off) n v := by
  have hread := readMem_scratch s (clusterOf s.cur) g off s.me.tid s.me.qtid x n hr hv
  simp only [State.atomicUpdate, ht, bne_self_eq_false, Bool.false_eq_true, if_false, hread]
  cases hf : f (mread s.mem (scratchAddr g off) n) with
  | none => exact ⟨rfl, rfl⟩
  | some v =>
    refine ⟨rfl, ?_⟩
    simp only [restorePhaser_writeMem_scratch hr hp hq, writeMem_scratch_mem _ _ _ _ _ _ _ _ _ _ _ hr]

/-- Settles O14: the instructions by their check, the update by what it reads and writes in a scratchpad. -/
theorem atomicUpdates : Obligations.AtomicUpdates := by
  refine ⟨fun s u x op aq rl rd rs1 rs2 =>
      ⟨exec_amo_checked (dbl := true) rfl op aq rl rd rs1 rs2, exec_amo_checked (dbl := false) rfl op aq rl rd rs1 rs2⟩,
    fun s u x rd rs1 rs2 sc op => exec_amos_checked rd rs1 rs2 sc op, amosValue_codes, fun s x n g off f hr ht hp hq hv => ?_,
    exec_amo_misaligned, exec_amos_misaligned⟩
  obtain ⟨hread, hmem⟩ := atomicUpdate_scratch f hr ht hp hq hv
  refine ⟨hread, fun a => ?_⟩
  rw [hmem]
  cases f (mread s.mem (scratchAddr g off) n) with
  | none => rfl
  | some v => exact mget_mwrite ..

end Sys2Proof.Machine
end

