-- ==== Sys2Proof/Proofs/FencesComplete/Idle.lean ====
section
/-! The waits of a fence (R22, R98, R192, R304) where they find nothing to wait for: each of them then leaves the state as it is. -/

namespace Sys2Proof.Machine

variable {s : State}

/-! ### The buffers -/

theorem drainEntries_none {cid : Nat} (h : ∀ e ∈ (s.core (coreOf cid)).storeBuffer, e.cid ≠ cid) (fuel : Nat) :
    s.drainEntries cid fuel = s := by
  have hn : (s.core (coreOf cid)).storeBuffer.findIdx? (·.cid == cid) = none :=
    List.findIdx?_eq_none_iff.2 fun e he => beq_false_of_ne (h e he)
  cases fuel with
  | zero => rfl
  | succ n => simp only [State.drainEntries, hn]

theorem drainPosted_none {cid : Nat} (h : ∀ e ∈ (s.core (coreOf cid)).posted, e.cid ≠ cid) (fuel : Nat) : s.drainPosted cid fuel = s := by
  have hn : (s.core (coreOf cid)).posted.findIdx? (·.cid == cid) = none :=
    List.findIdx?_eq_none_iff.2 fun e he => beq_false_of_ne (h e he)
  cases fuel with
  | zero => rfl
  | succ n => simp only [State.drainPosted, hn]

/-- With nothing of a context in the buffers, its earlier stores are performed already (R99). -/
theorem drainStores_none {cid : Nat} (hb : ∀ e ∈ (s.core (coreOf cid)).storeBuffer, e.cid ≠ cid)
    (hp : ∀ e ∈ (s.core (coreOf cid)).posted, e.cid ≠ cid) : s.drainStores cid = s := by
  simp only [State.drainStores, drainEntries_none hb, drainPosted_none hp]

/-! ### No operation outstanding -/

/-- What `State.Quiet` says, unit by unit, whether the unit is listed or not. -/
structure State.Idle (s : State) : Prop where
  buffer (k : Nat) : (s.core k).storeBuffer = []
  posted (k : Nat) : (s.core k).posted = []
  vq (k : Nat) : (s.core k).vq = []
  hem (k : Nat) : (s.core k).hem = []
  sends : s.sends = []
  answers : s.answers = []
  forced : ∀ q ∈ s.slices, q.2.forcedWait = []
  copies (g : Nat) : (s.cluster g).copies = []
  shadows (g : Nat) : (s.cluster g).shadows = []
  queue (g : Nat) : (s.cluster g).mx.queue = []
  stack (k : Nat) : s.stackList k = []
  stagings (d : Nat) : (s.die d).stagings = []
  arriving : ∀ q ∈ s.ctxs, q.2.mxWaits (fun _ => true) = false

/-- What holds of the values that a table lists, and of the value of those that it does not, holds of every value read. -/
theorem getD_tfind {α : Type} {m : Table α} {d : α} {P : α → Prop} (hm : ∀ q ∈ m, P q.2) (hd : P d) (k : Nat) : P ((tfind m k).getD d) := by
  rcases h : tfind m k with _ | v
  · exact hd
  · exact hm _ (mem_of_tfind h)

theorem State.Quiet.idle (h : s.Quiet) : s.Idle := by
  obtain ⟨hcores, hsends, hanswers, hslices, hclusters, hstacks, hdies, hctxs⟩ := h
  have hcore := getD_tfind (P := fun c : Core => c.storeBuffer = [] ∧ c.posted = [] ∧ c.vq = [] ∧ c.hem = []) (d := Core.reset) hcores
    ⟨rfl, rfl, rfl, rfl⟩
  have hcluster := getD_tfind (P := fun c : Cluster => c.copies = [] ∧ c.shadows = [] ∧ c.mx.queue = []) (d := Cluster.reset) hclusters
    ⟨rfl, rfl, rfl⟩
  exact {
    buffer := fun k => (hcore k).1
    posted := fun k => (hcore k).2.1
    vq := fun k => (hcore k).2.2.1
    hem := fun k => (hcore k).2.2.2
    sends := hsends
    answers := hanswers
    forced := hslices
    copies := fun g => (hcluster g).1
    shadows := fun g => (hcluster g).2.1
    queue := fun g => (hcluster g).2.2
    stack := getD_tfind (P := fun l : List StackCmd => l = []) hstacks rfl
    stagings := getD_tfind (P := fun x : Die => x.stagings = []) hdies rfl
    arriving := hctxs }

theorem State.Idle.of_onlyTlbs {u : State} (h : s.Idle) (f : OnlyTlbs s u) : u.Idle where
  buffer k := by rw [f.core]; exact h.buffer k
  posted k := by rw [f.core]; exact h.posted k
  vq k := by rw [f.core]; exact h.vq k
  hem k := by rw [f.core]; exact h.hem k
  sends := by rw [f.1]; exact h.sends
  answers := by rw [f.1]; exact h.answers
  forced := by rw [f.1]; exact h.forced
  copies g := by rw [f.2 g]; exact h.copies g
  shadows g := by rw [f.2 g]; exact h.shadows g
  queue g := by rw [f.2 g]; exact h.queue g
  stack k := by rw [f.1]; exact h.stack k
  stagings d := by rw [f.die]; exact h.stagings d
  arriving := by rw [f.1]; exact h.arriving

/-- A command on its way that has captured a page that `uses` names has captured a page. -/
theorem Ctx.mxWaits_none {c : Ctx} (h : c.mxWaits (fun _ => true) = false) (uses : Xlat → Bool) : c.mxWaits uses = false := by
  unfold Ctx.mxWaits at h ⊢
  split
  · rename_i q hq
    simp only [hq, Bool.and_eq_false_iff, List.any_eq_false] at h ⊢
    exact h.imp_right fun hp x hx => absurd trivial (hp x hx)
  · rfl

namespace State.Idle

theorem drainStores (h : s.Idle) (cid : Nat) : s.drainStores cid = s :=
  drainStores_none (by simp [h.buffer]) (by simp [h.posted])

theorem decideSends (h : s.Idle) (k fuel : Nat) : s.decideSends k fuel = s := by
  have hslices : s.slices.find? (fun p => p.2.forcedWait.any fun a => coreOf a.cid == k) = none :=
    List.find?_eq_none.2 fun q hq => by simp [h.forced q hq]
  cases fuel with
  | zero => rfl
  | succ n => simp [State.decideSends, h.answers, h.sends, hslices]

theorem expireSends (h : s.Idle) (cid fuel : Nat) : s.expireSends cid fuel = s := by
  cases fuel with
  | zero => rfl
  | succ n => simp [State.expireSends, State.expireWhere, h.sends]

theorem drainVector (h : s.Idle) (cid fuel : Nat) : s.drainVector cid fuel = s := by
  cases fuel with
  | zero => rfl
  | succ n => simp [State.drainVector, h.vq]

theorem settle (h : s.Idle) (cid : Nat) : s.settle cid = s := by
  simp [State.settle, State.settleAcc, State.settleAcc.settleRounds, h.drainStores, h.drainVector, h.decideSends, h.expireSends, h.vq]

theorem finishAccesses (h : s.Idle) (cid : Nat) (uses : Xlat → Bool) : s.finishAccesses cid uses = s := by
  simp [State.finishAccesses, State.flushWhere, h.settle, h.hem, h.decideSends, h.expireSends]

theorem finishCopies (h : s.Idle) (g : Nat) (uses : Xlat → Bool) (fuel : Nat) : s.finishCopies g uses fuel = s := by
  cases fuel with
  | zero => rfl
  | succ n => simp [State.finishCopies, h.copies]

theorem finishStack (h : s.Idle) (lead : Nat) (uses : Xlat → Bool) (fuel : Nat) : s.finishStack lead uses fuel = s := by
  cases fuel with
  | zero => rfl
  | succ n => simp [State.finishStack, h.stack]

theorem mxSettle (h : s.Idle) (g : Nat) (uses : Xlat → Bool) (fuel : Nat) : s.mxSettle g uses fuel = s := by
  cases fuel with
  | zero => rfl
  | succ n => simp [State.mxSettle, h.queue]

theorem finishStagings (h : s.Idle) (d : Nat) (uses : Xlat → Bool) : s.finishStagings d uses = s := by
  simp [State.finishStagings, h.stagings]

theorem finishShadows (h : s.Idle) (g : Nat) (uses : Xlat → Bool) : s.finishShadows g uses = s := by
  simp [State.finishShadows, h.shadows]

theorem finishEngines (h : s.Idle) (uses : Xlat → Bool) : s.finishEngines uses = s := by
  have harriving : (s.ctxs.filter fun q => q.2.mxWaits uses) = [] :=
    List.filter_eq_nil_iff.2 fun q hq => by simp [Ctx.mxWaits_none (h.arriving q hq)]
  have hcopies (l : Table Cluster) : l.foldl (fun s q => s.finishCopies q.1 uses (q.2.copies.length + 1)) s = s :=
    List.foldl_fixed' (fun _ => h.finishCopies ..) l
  have hstacks (l : Table (List StackCmd)) : l.foldl (fun s q => s.finishStack q.1 uses (q.2.length + 1)) s = s :=
    List.foldl_fixed' (fun _ => h.finishStack ..) l
  have hqueues (l : Table Cluster) : l.foldl (fun s q => s.mxSettle q.1 uses (q.2.mx.queue.length + 1)) s = s :=
    List.foldl_fixed' (fun _ => h.mxSettle ..) l
  have hstagings (l : Table Die) : l.foldl (fun s q => s.finishStagings q.1 uses) s = s :=
    List.foldl_fixed' (fun _ => h.finishStagings ..) l
  simp only [State.finishEngines, hcopies, hstacks, harriving, List.foldl_nil, hqueues, hstagings]

theorem engineWork (h : s.Idle) (g : Nat) (uses : Xlat → Bool) : s.engineWork g uses = false := by
  simp only [State.engineWork, h.copies, h.queue, List.any_nil, Bool.or_self, Bool.false_or, List.any_eq_false]
  intro q hq
  simp [Ctx.mxWaits_none (h.arriving q hq)]

end State.Idle

end Sys2Proof.Machine
end

