-- ==== Sys2Proof/Proofs/FencesComplete/Fences.lean ====
section
/-! The base fences and WFI (R22, R103), and the translation fences with the drop of translations that they make (R191, R192). -/

namespace Sys2Proof.Machine

/-! ### Base fences and WFI -/

/-- W or O in the predecessor set of a FENCE. -/
theorem fencesWrites_iff (pr : BitVec 4) : pr &&& 5 ≠ 0 ↔ pr.getLsbD 0 = true ∨ pr.getLsbD 2 = true := by
  revert pr; decide

theorem exec_fence (s : State) (fm pr su : BitVec 4) (rd rs1 : Reg) : ∃ t, exec (.fence fm pr su rd rs1) s = .next t ∧
    Completed (if (pr.getLsbD 0 = true ∨ pr.getLsbD 2 = true) ∧ su ≠ 0 then s.drainStores s.cur else s) t := by
  refine ⟨_, ?_, completed_retire _⟩
  show execFence fm pr su rd rs1 s = _
  simp only [execFence, State.done_ok, Bool.and_eq_true, decide_eq_true_eq, fencesWrites_iff]

theorem exec_fenceTso (s : State) (rd rs1 : Reg) : ∃ t, exec (.fenceTso rd rs1) s = .next t ∧ Completed (s.drainStores s.cur) t :=
  ⟨_, rfl, completed_retire _⟩

theorem exec_fenceI (s : State) (i : BitVec 12) (rd rs1 : Reg) : ∃ t, exec (.fenceI i rd rs1) s = .next t ∧
    Completed ((s.drainStores s.cur).modCore (coreOf s.cur) fun c => { c with icache := [] }) t :=
  ⟨_, rfl, completed_retire _⟩

theorem exec_wfi_noop (s : State) (h : s.me.priv ≠ .u) : ∃ t, exec .wfi s = .next t ∧ Completed s t ∧ t.mem = s.mem := by
  refine ⟨s.retire, ?_, completed_retire s, rfl⟩
  show execWfi s = _
  rw [execWfi, if_neg h, State.done_ok]

theorem exec_wfi_illegal (s : State) (h : s.me.priv = .u) : exec .wfi s = .next (s.raise 2 0x10500073#64) := by
  show execWfi s = _
  rw [execWfi, if_pos h, State.done_illegal]
  rfl

/-! ### Translation fences -/

theorem exec_qsfence {s : State} (h : s.me.priv ≠ .u) (ic : Bool) (sc : BitVec 3) (a b : Reg) :
    exec (.qsfence ic sc a b) s = s.done (s.qsFence ic sc.toNat a b) := by
  show execQsfence ic sc a b s = _
  rw [execQsfence, if_neg h]

theorem exec_sfenceVma {s : State} (h : s.me.priv = .m ∨ (s.me.priv = .s ∧ s.me.mstatus.getLsbD 20 = false)) (a b : Reg) :
    exec (.sfenceVma a b) s = s.done (s.qsFence false 2 a b) := by
  show execSfenceVma a b s = _
  rw [execSfenceVma, if_neg]
  obtain h | ⟨h, ht⟩ := h
  · simp [h]
  · rw [h, bit, ht]
    decide

/-- A result that goes on completes the instruction, and one that is left stands as it is, to be presented again (log entry 8). -/
theorem done_completes {s u : State} {r : Res} (h : r = .ok u) : ∃ t, s.done r = .next t ∧ Completed u t :=
  ⟨u.retire, by rw [h, State.done_ok], completed_retire u⟩
theorem done_again {s u : State} {r : Res} (h : r = .error (.left u)) : s.done r = .next u := by rw [h, State.done_left]

/-- The scopes of R67 by cluster and die. -/
theorem inScope_iff (sc g h : Nat) : inScope sc g h = true ↔ (sc = 2 ∧ h = g) ∨ (sc = 3 ∧ h / 128 = g / 128) ∨ (sc ≠ 2 ∧ sc ≠ 3) := by
  unfold inScope dieOfCluster
  split
  · simp
  · simp
  · rename_i h2 h3
    exact iff_of_true rfl (.inr (.inr ⟨h2, h3⟩))

/-- The translations that a fence names (R192). -/
theorem dropped_iff (e : TlbEntry) (va asid : Option Nat) : e.dropped va asid = true ↔
    (∀ a, va = some a → e.va ≤ a ∧ a < e.va + 2 ^ e.lg) ∧ ∀ n, asid = some n → e.glob = false ∧ e.asid = n := by
  unfold TlbEntry.dropped
  rw [Bool.and_eq_true]
  refine and_congr ?_ ?_
  · cases va <;> simp
  · cases asid <;> simp

/-- A lookup in a table whose values have each been changed at its key. -/
theorem tfind_map_at {α β : Type} (g : Nat → α → β) (m : Table α) (k : Nat) :
    tfind (m.map fun q => (q.1, g q.1 q.2)) k = (tfind m k).map (g k) := by
  induction m with
  | nil => rfl
  | cons p t ih =>
    simp only [List.map_cons, tfind, ih]
    split
    · rename_i e
      rw [e, Option.map_some]
    · rfl

/-- Cluster `h` after the drop of a fence of cluster `g`: in scope it keeps the translations that the fence does not name. -/
def Cluster.afterDrop (sc g : Nat) (va asid : Option Nat) (h : Nat) (c : Cluster) : Cluster :=
  if inScope sc g h then { c with tlb := c.tlb.filter fun e => !e.dropped va asid } else c

/-- Core `k` after that drop: in scope its L1 I-cache is empty where the fence asks for it. -/
def Core.afterDrop (ic : Bool) (sc g k : Nat) (c : Core) : Core := if ic && inScope sc g (clusterOfCore k) then { c with icache := [] } else c

theorem cluster_dropXlats (s : State) (ic : Bool) (sc g : Nat) (va asid : Option Nat) (h : Nat) :
    (s.dropXlats ic sc g va asid).cluster h = (s.cluster h).afterDrop sc g va asid h := by
  have hmap : (s.dropXlats ic sc g va asid).clusters = s.clusters.map fun q => (q.1, q.2.afterDrop sc g va asid q.1) :=
    List.map_congr_left fun ⟨h, c⟩ _ => by dsimp only [Cluster.afterDrop]; split <;> rfl
  unfold State.cluster
  rw [hmap, tfind_map_at (Cluster.afterDrop sc g va asid)]
  cases tfind s.clusters h with
  | some c => rfl
  | none => exact (ite_self Cluster.reset).symm

theorem core_dropXlats (s : State) (ic : Bool) (sc g : Nat) (va asid : Option Nat) (k : Nat) :
    (s.dropXlats ic sc g va asid).core k = (s.core k).afterDrop ic sc g k := by
  have hmap : (s.dropXlats ic sc g va asid).cores = s.cores.map fun q => (q.1, q.2.afterDrop ic sc g q.1) :=
    List.map_congr_left fun ⟨k, c⟩ _ => by dsimp only [Core.afterDrop]; split <;> rfl
  unfold State.core
  rw [hmap, tfind_map_at (Core.afterDrop ic sc g)]
  cases tfind s.cores k with
  | some c => rfl
  | none => exact (ite_self Core.reset).symm

theorem dropXlats_spec (s : State) (ic : Bool) (sc g h : Nat) (va asid : Option Nat) (scope : Prop)
    (hscope : scope ↔ (sc = 2 ∧ h = g) ∨ (sc = 3 ∧ h / 128 = g / 128) ∨ (sc ≠ 2 ∧ sc ≠ 3)) :
    (scope → ∀ e ∈ ((s.dropXlats ic sc g va asid).cluster h).tlb,
      ¬ ((∀ a, va = some a → e.va ≤ a ∧ a < e.va + 2 ^ e.lg) ∧ ∀ n, asid = some n → e.glob = false ∧ e.asid = n)) ∧
    (scope → ic = true → ∀ k, k / 4 = h → ((s.dropXlats ic sc g va asid).core k).icache = []) ∧
    (¬ scope → (s.dropXlats ic sc g va asid).cluster h = s.cluster h ∧ ∀ k, k / 4 = h → (s.dropXlats ic sc g va asid).core k = s.core k) := by
  rw [hscope, ← inScope_iff, cluster_dropXlats, Cluster.afterDrop]
  refine ⟨fun hin e he => ?_, fun hin hic k hk => ?_, fun hout => ⟨if_neg hout, fun k hk => ?_⟩⟩
  · rw [if_pos hin] at he
    rw [← dropped_iff]
    simpa using (List.mem_filter.1 he).2
  · rw [core_dropXlats, Core.afterDrop, clusterOfCore, hk, hic, Bool.true_and, if_pos hin]
  · rw [core_dropXlats, Core.afterDrop, clusterOfCore, hk, if_neg]
    simp [hout]

/-- A drop of translations begins no operation. -/
theorem State.Quiet.dropXlats {s : State} (h : s.Quiet) (ic : Bool) (sc g : Nat) (va asid : Option Nat) :
    (s.dropXlats ic sc g va asid).Quiet := by
  obtain ⟨hcores, hsends, hanswers, hslices, hclusters, hrest⟩ := h
  refine ⟨fun q hq => ?_, hsends, hanswers, hslices, fun q hq => ?_, hrest⟩
  · obtain ⟨p, hp, rfl⟩ := List.mem_map.1 hq
    dsimp only
    split <;> exact hcores p hp
  · obtain ⟨p, hp, rfl⟩ := List.mem_map.1 hq
    dsimp only
    split <;> exact hclusters p hp

/-- With no operation outstanding a translation fence drops the translations, and has nothing to wait for (R192). -/
theorem qsFence_quiet {s : State} (h : s.Quiet) (ic : Bool) (sc : Nat) {a b : Reg} {va asid : Option Nat}
    (hva : va = if a = 0 then none else some (s.xr a).toNat) (hasid : asid = if b = 0 then none else some ((s.xr b).extractLsb' 0 16).toNat) :
    s.qsFence ic sc a b = .ok (s.dropXlats ic sc (clusterOf s.cur) va asid) := by
  have hasid' : asid = if b = 0 then none else some (bits (s.xr b) 15 0) := by rw [hasid, bits_eq]
  have hq := h.dropXlats ic sc (clusterOf s.cur) va asid
  obtain ⟨u, hu⟩ : ∃ u, s.dropXlats ic sc (clusterOf s.cur) va asid = u := ⟨_, rfl⟩
  rw [hu] at hq ⊢
  have hi := hq.idle
  have haccesses (l : Table Ctx) : l.foldl (fun s q => s.finishAccesses q.1 (Xlat.ofPage va)) u = u :=
    List.foldl_fixed' (f := fun (s : State) (q : Nat × Ctx) => s.finishAccesses q.1 (Xlat.ofPage va)) (fun _ => hi.finishAccesses ..) l
  have hshadows (l : Table Cluster) : l.foldl (fun s q => s.finishShadows q.1 (Xlat.ofPage va)) u = u :=
    List.foldl_fixed' (f := fun (s : State) (q : Nat × Cluster) => s.finishShadows q.1 (Xlat.ofPage va)) (fun _ => hi.finishShadows ..) l
  simp only [State.qsFence, ← hva, ← hasid', h.idle.drainStores, hu, haccesses, hi.finishEngines, hshadows, hi.engineWork]
  refine if_neg ?_
  obtain ⟨-, -, -, -, hclusters, -⟩ := hq
  simp only [List.any_eq_true, not_exists, not_and]
  intro q hmem
  simp [(hclusters q hmem).2.1]

end Sys2Proof.Machine
end

