-- ==== Sys2Proof/Proofs/FencesComplete/Migration.lean ====
section
/-! Page migration (R194): PGMIG returns a status that applies, or moves the page once no engine operation uses it (R304). -/

namespace Sys2Proof.Machine

/-- Whether a translation is of the page that a PGMIG has translated to `x`. -/
def Xlat.samePage (x y : Xlat) : Bool := decide (y.pa / 2 ^ x.lg = x.pa / 2 ^ x.lg)

/-- The move that a PGMIG with `v` in rs2 asks for: to a new frame, or to new home fields in the old one (R194). -/
def Xlat.moveTo (x : Xlat) (v : Word) : Move :=
  ⟨x.pa / 2 ^ x.lg * 2 ^ x.lg, 2 ^ x.lg,
    if v.extractLsb' 12 44 = 0 then x.pa / 2 ^ x.lg * 2 ^ x.lg else (v.extractLsb' 12 44).toNat * 4096, v.extractLsb' 0 4, v.extractLsb' 4 2⟩

section
variable {s u v : State} {x : Xlat} {rd a b : Reg} (hpriv : s.me.priv ≠ .u) (hu : u = s.settleMe)
  (hpage : u.migratePage (u.xr a).toNat = .ok (v, x))
include hpriv hu hpage

theorem exec_pgmig_refused (hr : v.migrateRefusals x (u.xr b) ≠ []) :
    ∃ (n : Nat) (t : State), n ∈ v.migrateRefusals x (u.xr b) ∧ exec (.pgmig rd a b) s = .next t ∧
      Completed (({ v with free := v.free + 1 } : State).setXr rd (BitVec.ofNat 64 n)) t := by
  obtain ⟨r, rs, hl⟩ := List.exists_cons_of_ne_nil hr
  have hlt : Config.freePick v.free % (rs.length + 1) < (r :: rs).length := Nat.mod_lt _ (Nat.succ_pos _)
  refine ⟨(r :: rs).getD (Config.freePick v.free % (rs.length + 1)) r, _, ?_, ?_, completed_retire _⟩
  · rw [hl, List.getD_eq_getElem _ _ hlt]
    exact List.getElem_mem hlt
  · show execPgmig rd a b s = _
    simp only [execPgmig, if_neg hpriv, ← hu, hpage, except_bind, hl, State.tick, State.done_ok, word]

theorem exec_pgmig_moves (hr : v.migrateRefusals x (u.xr b) = []) :
    exec (.pgmig rd a b) s = u.done (
      if (v.finishEngines x.samePage).clusters.any fun q => (v.finishEngines x.samePage).engineWork q.1 x.samePage
      then .error (.left (v.finishEngines x.samePage))
      else .ok (((v.finishEngines x.samePage).migrate x (x.moveTo (u.xr b))).setXr rd 0)) := by
  have hdst : (bits (u.xr b) 55 12 = 0) ↔ (u.xr b).extractLsb' 12 44 = 0 := by
    rw [bits_eq, ← BitVec.toNat_inj]; rfl
  have hm : x.moveTo (u.xr b) = ⟨x.pa / 2 ^ x.lg * 2 ^ x.lg, 2 ^ x.lg, if bits (u.xr b) 55 12 = 0 then x.pa / 2 ^ x.lg * 2 ^ x.lg
      else bits (u.xr b) 55 12 * 4096, BitVec.ofNat 4 (bits (u.xr b) 3 0), BitVec.ofNat 2 (bits (u.xr b) 5 4)⟩ := by
    simp only [hdst, ofNat_bits _ 3 0 rfl, ofNat_bits _ 5 4 rfl]
    rw [bits_eq]
    rfl
  show execPgmig rd a b s = _
  simp only [execPgmig, if_neg hpriv, ← hu, hpage, except_bind, hr, hm]
  rfl

end

theorem migrateRefusals_of_not_hbm (s : State) (x : Xlat) (v : Word) (h : x.mt ≠ .hbm) : s.migrateRefusals x v = [5] := if_pos h

/-- A page that PGMIG translates changes no more than the translations that clusters hold. -/
theorem migratePage_frame {s v : State} {va : Nat} {x : Xlat} (h : s.migratePage va = .ok (v, x)) : OnlyTlbs s v := by
  unfold State.migratePage at h
  split at h
  · cases h
  · split at h
    · cases h
    · rename_i hx
      cases h
      exact xlate_frame _ _ _ _ _ _ hx

/-- With no operation outstanding a PGMIG waits for nothing, before it translates or after. -/
theorem finishEngines_of_quiet {s u v : State} {va : Nat} {x : Xlat} (hq : s.Quiet) (hu : u = s.settleMe) (h : u.migratePage va = .ok (v, x))
    (uses : Xlat → Bool) : v.finishEngines uses = v := by
  have hsu : u = s := hu.trans (hq.idle.settle _)
  have hi : u.Idle := by rw [hsu]; exact hq.idle
  exact (hi.of_onlyTlbs (migratePage_frame h)).finishEngines uses

/-- After a migration no cluster that is listed holds a translation of the page's PTE (R194 step 7). -/
theorem mem_migrate_clusters {s : State} {x : Xlat} {m : Move} {q : Nat × Cluster} (hq : q ∈ (s.migrate x m).clusters) :
    ∀ e ∈ q.2.tlb, e.pteAddr ≠ x.pteAddr := by
  obtain ⟨p, -, rfl⟩ := List.mem_map.1 hq
  intro e he
  have hk := (List.mem_filter.1 he).2
  simp only [Bool.and_eq_true, bne_iff_ne] at hk
  exact hk.2

theorem migrate_tlb (s : State) (x : Xlat) (m : Move) (g : Nat) : ∀ e ∈ ((s.migrate x m).cluster g).tlb, e.pteAddr ≠ x.pteAddr :=
  getD_tfind (P := fun c : Cluster => ∀ e ∈ c.tlb, e.pteAddr ≠ x.pteAddr) (fun _ => mem_migrate_clusters)
    (fun _ he => absurd he List.not_mem_nil) g

/-- Settles O19: the base fences, the translation fences with the drop they make, and page migration, one by one. -/
theorem fencesComplete : Obligations.FencesComplete := by
  refine ⟨⟨exec_fence, exec_fenceTso, exec_fenceI, fun s hb hp => drainStores_none hb hp, exec_wfi_noop, exec_wfi_illegal⟩,
    ⟨fun s u ic sc a b hpriv => ?_, fun s u a b hpriv => ?_, fun s ic sc a b va asid hq hva hasid => ?_, dropXlats_spec⟩,
    ⟨fun s u v x rd a b hpriv hu hpage => ?_, migrateRefusals_of_not_hbm, migrate_tlb⟩⟩
  · rw [exec_qsfence hpriv]
    exact ⟨done_completes, done_again⟩
  · rw [exec_sfenceVma hpriv]
    exact ⟨done_completes, done_again⟩
  · refine ⟨fun hpriv => ?_, fun hpriv => ?_⟩
    · rw [exec_qsfence hpriv]
      exact done_completes (qsFence_quiet hq ic sc.toNat hva hasid)
    · rw [exec_sfenceVma hpriv]
      exact done_completes (qsFence_quiet hq false 2 hva hasid)
  · refine ⟨exec_pgmig_refused hpriv hu hpage, fun hr w m frame hframe hm hw => ?_⟩
    obtain rfl : frame = x.samePage := funext hframe
    obtain rfl : m = x.moveTo (u.xr b) := hm
    subst hw
    rw [exec_pgmig_moves hpriv hu hpage hr]
    refine ⟨fun hidle => ?_, fun hwork => ?_, fun hq => finishEngines_of_quiet hq hu hpage _⟩
    · rw [if_neg (by simpa using hidle)]
      exact done_completes rfl
    · rw [if_pos (by simpa using hwork)]
      exact done_again rfl

end Sys2Proof.Machine
end

