-- ==== Sys2Proof/Proofs/Encoding/Fields.lean ====
section
/-! The fields of a word (R64) and the ranges of bits that immediates and codes are made of: cutting what was put together gives the parts, and
putting the parts together gives what was cut. -/

namespace Sys2Proof

/-! ### Cutting a concatenation -/

theorem extract_mid {l m n : Nat} (x : BitVec l) (y : BitVec m) (z : BitVec n) : (x ++ y ++ z).extractLsb' n m = y := by
  rw [BitVec.extractLsb'_append_eq_of_le (Nat.le_refl n), Nat.sub_self, BitVec.extractLsb'_append_eq_right]
theorem extract_high {l m n k : Nat} (x : BitVec l) (y : BitVec m) (z : BitVec n) (h : k = m + n) : (x ++ y ++ z).extractLsb' k l = x := by
  rw [h, BitVec.extractLsb'_append_eq_of_le (Nat.le_add_left ..), Nat.add_sub_cancel, BitVec.extractLsb'_append_eq_left]
theorem bit_low {l : Nat} (x : BitVec l) (b : Bool) : (x ++ BitVec.ofBool b).getLsbD 0 = b := by
  rw [BitVec.getLsbD_append, if_pos Nat.one_pos, BitVec.getLsbD_ofBool]; simp
theorem bit_above {l m : Nat} (x : BitVec l) (b : Bool) (y : BitVec m) : (x ++ BitVec.ofBool b ++ y).getLsbD m = b := by
  rw [BitVec.getLsbD_append, if_neg (Nat.lt_irrefl m), Nat.sub_self, bit_low]

theorem extract_upper {v w len : Nat} (hi : BitVec v) (lo : BitVec w) (start : Nat) :
    (hi ++ lo).extractLsb' (start + w) len = hi.extractLsb' start len := by
  rw [BitVec.extractLsb'_append_eq_of_le (Nat.le_add_left w start), Nat.add_sub_cancel]
/-- Two adjacent ranges of bits, put together. -/
theorem extract_append_extract {w : Nat} (x : BitVec w) (start m n : Nat) :
    x.extractLsb' (start + n) m ++ x.extractLsb' start n = x.extractLsb' start (m + n) :=
  BitVec.extractLsb'_append_extractLsb'_eq_extractLsb' rfl

/-! ### Immediates: the value whose parts stand in the fields (R64) -/

theorem immI_fields (x : BitVec 12) (a : BitVec 5) (f3 : BitVec 3) (d : BitVec 5) (op : BitVec 7) :
    (Fields.mk (x.extractLsb' 5 7) (x.extractLsb' 0 5) a f3 d op).immI = x :=
  (extract_append_extract x 0 7 5).trans BitVec.extractLsb'_eq_self
theorem immS_fields (x : BitVec 12) (b a : BitVec 5) (f3 : BitVec 3) (op : BitVec 7) :
    (Fields.mk (x.extractLsb' 5 7) b a f3 (x.extractLsb' 0 5) op).immS = x :=
  (extract_append_extract x 0 7 5).trans BitVec.extractLsb'_eq_self
theorem immU_fields (x : BitVec 20) (d : BitVec 5) (op : BitVec 7) :
    (Fields.mk (x.extractLsb' 13 7) (x.extractLsb' 8 5) (x.extractLsb' 3 5) (x.extractLsb' 0 3) d op).immU = x := by
  have h := extract_append_extract x 0 17 3
  rw [← extract_append_extract x 3 12 5, ← extract_append_extract x 8 7 5] at h
  exact h.trans BitVec.extractLsb'_eq_self
/-- Bit 0 of an even offset, as a range of bits. -/
theorem even_of_bit0 {w : Nat} {x : BitVec w} (h : x.getLsbD 0 = false) : x.extractLsb' 0 1 = 0#1 := by
  refine BitVec.eq_of_getLsbD_eq fun i hi => ?_
  obtain rfl : i = 0 := by omega
  simp [h]
theorem immB_fields {x : BitVec 13} (h : x.getLsbD 0 = false) (b a : BitVec 5) (f3 : BitVec 3) (op : BitVec 7) :
    (Fields.mk (x.extractLsb' 12 1 ++ x.extractLsb' 5 6) b a f3 (x.extractLsb' 1 4 ++ x.extractLsb' 11 1) op).immB = x := by
  have e := extract_append_extract x 0 12 1
  rw [← extract_append_extract x 1 8 4, ← extract_append_extract x 5 2 6, ← extract_append_extract x 11 1 1, even_of_bit0 h] at e
  simp only [Fields.immB, BitVec.extractLsb'_append_eq_right, BitVec.extractLsb'_append_eq_left]
  exact e.trans BitVec.extractLsb'_eq_self
theorem immJ_fields {x : BitVec 21} (h : x.getLsbD 0 = false) (d : BitVec 5) (op : BitVec 7) :
    (Fields.mk (x.extractLsb' 20 1 ++ x.extractLsb' 5 6) (x.extractLsb' 1 4 ++ x.extractLsb' 11 1) (x.extractLsb' 15 5) (x.extractLsb' 12 3)
      d op).immJ = x := by
  have e := extract_append_extract x 0 20 1
  rw [← extract_append_extract x 1 16 4, ← extract_append_extract x 5 10 6, ← extract_append_extract x 11 9 1, ← extract_append_extract x 12 6 3,
    ← extract_append_extract x 15 1 5, even_of_bit0 h] at e
  simp only [Fields.immJ, BitVec.extractLsb'_append_eq_right, BitVec.extractLsb'_append_eq_left]
  exact e.trans BitVec.extractLsb'_eq_self

/-- The parts of a branch offset, cut out of it again. -/
theorem immB_parts (p q : BitVec 1) (r : BitVec 6) (s : BitVec 4) :
    (p ++ q ++ r ++ s ++ 0#1).extractLsb' 12 1 = p ∧ (p ++ q ++ r ++ s ++ 0#1).extractLsb' 11 1 = q ∧
    (p ++ q ++ r ++ s ++ 0#1).extractLsb' 5 6 = r ∧ (p ++ q ++ r ++ s ++ 0#1).extractLsb' 1 4 = s := by
  have hp : (p ++ q).extractLsb' 1 1 = p := BitVec.extractLsb'_append_eq_left
  have hq : (p ++ q).extractLsb' 0 1 = q := BitVec.extractLsb'_append_eq_right
  have hr : (p ++ q ++ r).extractLsb' 0 6 = r := BitVec.extractLsb'_append_eq_right
  have hs : (p ++ q ++ r ++ s).extractLsb' 0 4 = s := BitVec.extractLsb'_append_eq_right
  rw [← extract_upper _ r, ← extract_upper _ s, ← extract_upper _ 0#1] at hp hq
  rw [← extract_upper _ s, ← extract_upper _ 0#1] at hr
  rw [← extract_upper _ 0#1] at hs
  exact ⟨hp, hq, hr, hs⟩

/-- The parts of a jump offset, cut out of it again. -/
theorem immJ_parts (p q : BitVec 1) (y : BitVec 5) (z : BitVec 3) (r : BitVec 6) (s : BitVec 4) :
    (p ++ y ++ z ++ q ++ r ++ s ++ 0#1).extractLsb' 20 1 = p ∧ (p ++ y ++ z ++ q ++ r ++ s ++ 0#1).extractLsb' 15 5 = y ∧
    (p ++ y ++ z ++ q ++ r ++ s ++ 0#1).extractLsb' 12 3 = z ∧ (p ++ y ++ z ++ q ++ r ++ s ++ 0#1).extractLsb' 11 1 = q ∧
    (p ++ y ++ z ++ q ++ r ++ s ++ 0#1).extractLsb' 5 6 = r ∧ (p ++ y ++ z ++ q ++ r ++ s ++ 0#1).extractLsb' 1 4 = s := by
  have hp : (p ++ y).extractLsb' 5 1 = p := BitVec.extractLsb'_append_eq_left
  have hy : (p ++ y).extractLsb' 0 5 = y := BitVec.extractLsb'_append_eq_right
  have hz : (p ++ y ++ z).extractLsb' 0 3 = z := BitVec.extractLsb'_append_eq_right
  have hq : (p ++ y ++ z ++ q).extractLsb' 0 1 = q := BitVec.extractLsb'_append_eq_right
  have hr : (p ++ y ++ z ++ q ++ r).extractLsb' 0 6 = r := BitVec.extractLsb'_append_eq_right
  have hs : (p ++ y ++ z ++ q ++ r ++ s).extractLsb' 0 4 = s := BitVec.extractLsb'_append_eq_right
  rw [← extract_upper _ z, ← extract_upper _ q, ← extract_upper _ r, ← extract_upper _ s, ← extract_upper _ 0#1] at hp hy
  rw [← extract_upper _ q, ← extract_upper _ r, ← extract_upper _ s, ← extract_upper _ 0#1] at hz
  rw [← extract_upper _ r, ← extract_upper _ s, ← extract_upper _ 0#1] at hq
  rw [← extract_upper _ s, ← extract_upper _ 0#1] at hr
  rw [← extract_upper _ 0#1] at hs
  exact ⟨hp, hy, hz, hq, hr, hs⟩

/-- The parts of an upper immediate, cut out of it again. -/
theorem immU_parts (f7 : BitVec 7) (b a : BitVec 5) (f3 : BitVec 3) :
    (f7 ++ b ++ a ++ f3).extractLsb' 13 7 = f7 ∧ (f7 ++ b ++ a ++ f3).extractLsb' 8 5 = b ∧
    (f7 ++ b ++ a ++ f3).extractLsb' 3 5 = a ∧ (f7 ++ b ++ a ++ f3).extractLsb' 0 3 = f3 := by
  have h7 : (f7 ++ b).extractLsb' 5 7 = f7 := BitVec.extractLsb'_append_eq_left
  have hb : (f7 ++ b).extractLsb' 0 5 = b := BitVec.extractLsb'_append_eq_right
  have ha : (f7 ++ b ++ a).extractLsb' 0 5 = a := BitVec.extractLsb'_append_eq_right
  rw [← extract_upper _ a, ← extract_upper _ f3] at h7 hb
  rw [← extract_upper _ f3] at ha
  exact ⟨h7, hb, ha, BitVec.extractLsb'_append_eq_right⟩

/-! ### Words -/

theorem split_join (f : Fields) : split f.join = f := by
  obtain ⟨f7, b, a, f3, d, op⟩ := f
  have hb : (f7 ++ b).extractLsb' 0 5 = b := BitVec.extractLsb'_append_eq_right
  have h7 : (f7 ++ b).extractLsb' 5 7 = f7 := BitVec.extractLsb'_append_eq_left
  have ha : (f7 ++ b ++ a).extractLsb' 0 5 = a := BitVec.extractLsb'_append_eq_right
  have h3 : (f7 ++ b ++ a ++ f3).extractLsb' 0 3 = f3 := BitVec.extractLsb'_append_eq_right
  have hd : (f7 ++ b ++ a ++ f3 ++ d).extractLsb' 0 5 = d := BitVec.extractLsb'_append_eq_right
  have ho : (f7 ++ b ++ a ++ f3 ++ d ++ op).extractLsb' 0 7 = op := BitVec.extractLsb'_append_eq_right
  rw [← extract_upper _ a, ← extract_upper _ f3, ← extract_upper _ d, ← extract_upper _ op] at hb h7
  rw [← extract_upper _ f3, ← extract_upper _ d, ← extract_upper _ op] at ha
  rw [← extract_upper _ d, ← extract_upper _ op] at h3
  rw [← extract_upper _ op] at hd
  simp only [split, Fields.mk.injEq]
  exact ⟨h7, hb, ha, h3, hd, ho⟩

theorem join_split (w : BitVec 32) : (split w).join = w := by
  have h := extract_append_extract w 0 25 7
  rw [← extract_append_extract w 7 20 5, ← extract_append_extract w 12 17 3, ← extract_append_extract w 15 12 5,
    ← extract_append_extract w 20 7 5] at h
  exact h.trans BitVec.extractLsb'_eq_self

end Sys2Proof
end

