-- ==== Sys2Proof/Proofs/Encoding/DecodeAfterEncode.lean ====
section
/-! Every well-formed instruction that is no event has fields, and they decode to it: a case for each row of the encoding tables, the rows that one
sub-decoder reads together. The last theorem settles O2. -/

namespace Sys2Proof

/-- An instruction has fields, and they decode to it. -/
def Instr.Encodes (i : Instr) : Prop := ∃ f, encodeFields i = some f ∧ decodeFields f = .ok i

/-! ### The base rows -/

theorem withScope_of_code {s : BitVec 3} (h : scopeCode s = true) (i : Instr) : withScope s i = .ok i := if_pos h
theorem rounded_of_code {rm : BitVec 3} (h : rmCode rm = true) (o : FpOp) : rounded rm o = .ok (.fpArithmetic o) := if_pos h


/-- Where a field is what it was encoded from, so is the instruction decoded. -/
theorem ok_congr {α : Type} (c : α → Instr) {x y : α} (h : x = y) : (.ok (c x) : Except Reject Instr) = .ok (c y) := by rw [h]

theorem load_encodes (k : LoadKind) (rd rs1 : Reg) (imm : BitVec 12) : (Instr.load k rd rs1 imm).Encodes := by
  refine ⟨_, rfl, ?_⟩
  cases k with
  | _ => exact ok_congr (.load _ rd rs1) (immI_fields imm ..)

theorem store_encodes (k : StoreKind) (rs1 rs2 : Reg) (imm : BitVec 12) : (Instr.store k rs1 rs2 imm).Encodes := by
  refine ⟨_, rfl, ?_⟩
  cases k with
  | _ => exact ok_congr (.store _ rs1 rs2) (immS_fields imm ..)

theorem intImm_encodes (k : ImmOp) (d a : Reg) (x : BitVec 12) : (Instr.integerArithmetic (.imm k d a x)).Encodes := by
  refine ⟨_, rfl, ?_⟩
  cases k with
  | _ => exact ok_congr (.integerArithmetic ∘ .imm _ d a) (immI_fields x ..)

/-- A 6-bit shift amount lies across the boundary of the two upper fields. -/
theorem shamt_fields (t sh : BitVec 6) :
    (t ++ sh.extractLsb' 5 1).extractLsb' 0 1 ++ sh.extractLsb' 0 5 = sh ∧ (t ++ sh.extractLsb' 5 1).extractLsb' 1 6 = t := by
  rw [BitVec.extractLsb'_append_eq_right, BitVec.extractLsb'_append_eq_left]
  exact ⟨(extract_append_extract sh 0 1 5).trans BitVec.extractLsb'_eq_self, rfl⟩

theorem intShift_encodes (k : ShiftOp) (d a : Reg) (sh : BitVec 6) : (Instr.integerArithmetic (.shift k d a sh)).Encodes := by
  refine ⟨_, rfl, ?_⟩
  show decodeOpImm _ = _
  cases k with
  | _ =>
    simp only [encodeInt, decodeOpImm, shamt_fields]
    rfl

theorem integer_encodes (o : IntOp) : (Instr.integerArithmetic o).Encodes := by
  cases o with
  | imm k d a x => exact intImm_encodes k d a x
  | shift k d a sh => exact intShift_encodes k d a sh
  | addiw d a x => exact ⟨_, rfl, ok_congr (.integerArithmetic ∘ .addiw d a) (immI_fields x ..)⟩
  | shiftW k d a sh => exact ⟨_, rfl, by cases k <;> rfl⟩
  | reg k d a b => exact ⟨_, rfl, by cases k <;> rfl⟩
  | regW k d a b => exact ⟨_, rfl, by cases k <;> rfl⟩
  | mul k d a b => exact ⟨_, rfl, by cases k <;> rfl⟩
  | lui d x => exact ⟨_, rfl, ok_congr (.integerArithmetic ∘ .lui d) (immU_fields x ..)⟩
  | auipc d x => exact ⟨_, rfl, ok_congr (.integerArithmetic ∘ .auipc d) (immU_fields x ..)⟩

theorem csrAccess_encodes (o : CsrOp) (im : Bool) (d a : Reg) (x : BitVec 12) : (Instr.csrAccess o im d a x).Encodes := by
  refine ⟨_, rfl, ?_⟩
  cases o with
  | _ => cases im with
    | _ => exact ok_congr (.csrAccess _ _ d a) (immI_fields x ..)

/-- The operation, acquire and release fields of an atomic instruction. -/
theorem amo_fields (k : BitVec 5) (aq rl : Bool) :
    (k ++ BitVec.ofBool aq ++ BitVec.ofBool rl).extractLsb' 2 5 = k ∧ (k ++ BitVec.ofBool aq ++ BitVec.ofBool rl).getLsbD 1 = aq ∧
    (k ++ BitVec.ofBool aq ++ BitVec.ofBool rl).getLsbD 0 = rl :=
  ⟨extract_high _ _ _ rfl, bit_above k aq _, bit_low _ rl⟩

theorem lr_encodes (dbl aq rl : Bool) (d a : Reg) : (Instr.lr dbl aq rl d a).Encodes := by
  refine ⟨_, rfl, ?_⟩
  show decodeAmo _ = _
  simp only [decodeAmo, amo_fields]
  cases dbl with
  | _ => rfl
theorem sc_encodes (dbl aq rl : Bool) (d a b : Reg) : (Instr.sc dbl aq rl d a b).Encodes := by
  refine ⟨_, rfl, ?_⟩
  show decodeAmo _ = _
  simp only [decodeAmo, amo_fields]
  cases dbl with
  | _ => rfl
theorem amo_encodes (k : AmoOp) (dbl aq rl : Bool) (d a b : Reg) : (Instr.amo k dbl aq rl d a b).Encodes := by
  refine ⟨_, rfl, ?_⟩
  show decodeAmo _ = _
  simp only [decodeAmo, amo_fields]
  cases k with
  | _ => cases dbl with
    | _ => rfl

theorem decodeFields_misc (f7 : BitVec 7) (b a : BitVec 5) (f3 : BitVec 3) (d : BitVec 5) :
    decodeFields ⟨f7, b, a, f3, d, 0x0F⟩ = decodeMisc ⟨f7, b, a, f3, d, 0x0F⟩ := rfl

/-- The predecessor set of a FENCE lies across the boundary of the two upper fields. -/
theorem pred_fields (pr : BitVec 4) : pr.extractLsb' 1 3 ++ pr.extractLsb' 0 1 = pr :=
  (extract_append_extract pr 0 3 1).trans BitVec.extractLsb'_eq_self

theorem fence_encodes {fm pr su : BitVec 4} {d a : Reg} (h : (Instr.fence fm pr su d a).wf = true) : (Instr.fence fm pr su d a).Encodes := by
  refine ⟨_, rfl, ?_⟩
  rw [decodeFields_misc]
  simp only [decodeMisc, BitVec.extractLsb'_append_eq_right, BitVec.extractLsb'_append_eq_left, pred_fields]
  exact if_neg (by simpa [Instr.wf, or_assoc, imp_iff_not_or] using h)

theorem fenceTso_encodes (d a : Reg) : (Instr.fenceTso d a).Encodes := by
  refine ⟨_, rfl, ?_⟩
  rw [decodeFields_misc]
  simp only [decodeMisc]
  exact if_pos (by decide)

/-- The format fields of a scalar floating-point instruction. -/
theorem fp_fields (x : BitVec 5) (dbl : Bool) :
    (x ++ 0#1 ++ BitVec.ofBool dbl).extractLsb' 2 5 = x ∧ (x ++ 0#1 ++ BitVec.ofBool dbl).extractLsb' 1 1 = 0#1 ∧
    (x ++ 0#1 ++ BitVec.ofBool dbl).getLsbD 0 = dbl ∧ (x ++ 0#1 ++ BitVec.ofBool dbl).extractLsb' 0 2 = 0#1 ++ BitVec.ofBool dbl := by
  refine ⟨extract_high _ _ _ rfl, extract_mid .., bit_low _ dbl, ?_⟩
  cases dbl with
  | _ => revert x; decide

theorem branch_encodes (k : BranchOp) (a b : Reg) {x : BitVec 13} (h : x.getLsbD 0 = false) : (Instr.branch k a b x).Encodes := by
  refine ⟨_, rfl, ?_⟩
  cases k with
  | _ => exact ok_congr (.branch _ a b) (immB_fields h ..)

theorem fpArithmetic_encodes {o : FpOp} (h : (o.rm.map rmCode).getD true = true) : (Instr.fpArithmetic o).Encodes := by
  refine ⟨_, rfl, ?_⟩
  cases o with
  | fma k dbl rm d a b c =>
    have e := rounded_of_code (rm := rm) h (.fma k dbl rm d a b c)
    cases k with
    | _ =>
      show decodeFma _ _ = _
      simp only [encodeFp, decodeFma, fp_fields]
      cases dbl with
      | _ => exact e
  | arith k dbl rm d a b =>
    have e := rounded_of_code (rm := rm) h (.arith k dbl rm d a b)
    show decodeFp _ = _
    simp only [encodeFp, decodeFp, fp_fields]
    cases k with
    | _ => exact e
  | sqrt dbl rm d a =>
    have e := rounded_of_code (rm := rm) h (.sqrt dbl rm d a)
    show decodeFp _ = _
    simp only [encodeFp, decodeFp, fp_fields]
    exact e
  | toInt t dbl rm d a =>
    have e := rounded_of_code (rm := rm) h (.toInt t dbl rm d a)
    show decodeFp _ = _
    simp only [encodeFp, decodeFp, fp_fields]
    cases t with
    | _ => exact e
  | ofInt t dbl rm d a =>
    have e := rounded_of_code (rm := rm) h (.ofInt t dbl rm d a)
    show decodeFp _ = _
    simp only [encodeFp, decodeFp, fp_fields]
    cases t with
    | _ => exact e
  | cvt dbl rm d a =>
    have e := rounded_of_code (rm := rm) h (.cvt dbl rm d a)
    show decodeFp _ = _
    simp only [encodeFp, decodeFp, fp_fields]
    cases dbl with
    | _ => exact e
  | sgn k dbl d a b =>
    show decodeFp _ = _
    simp only [encodeFp, decodeFp, fp_fields]
    cases k with
    | _ => rfl
  | cmp k dbl d a b =>
    show decodeFp _ = _
    simp only [encodeFp, decodeFp, fp_fields]
    cases k with
    | _ => rfl
  | minmax mx dbl d a b =>
    show decodeFp _ = _
    simp only [encodeFp, decodeFp, fp_fields]
    cases mx with
    | _ => rfl
  | mvToX | mvFromX | fclass =>
    show decodeFp _ = _
    simp only [encodeFp, decodeFp, fp_fields]
    rfl

/-! ### The rows of the custom opcodes -/

/-- The operation and mask fields of a vector instruction (R69, R70). -/
theorem vector_fields (mk : BitVec 3) (c : BitVec 4) : (mk ++ c).extractLsb' 0 4 = c ∧ (mk ++ c).extractLsb' 4 3 = mk :=
  ⟨BitVec.extractLsb'_append_eq_right, BitVec.extractLsb'_append_eq_left⟩

/-- A 3-bit field of a 5-bit one, of which the upper two bits are zero. -/
theorem short_fields (x : BitVec 3) : (0x0#2 ++ x).extractLsb' 3 2 = 0#2 ∧ (0x0#2 ++ x).extractLsb' 0 3 = x :=
  ⟨BitVec.extractLsb'_append_eq_left, BitVec.extractLsb'_append_eq_right⟩

/-- The width, ordering and scope fields of LDO and STO (R66). -/
theorem ordered_fields (w o : BitVec 2) (s : BitVec 3) :
    (w ++ o ++ s).extractLsb' 5 2 = w ∧ (w ++ o ++ s).extractLsb' 3 2 = o ∧ (w ++ o ++ s).extractLsb' 0 3 = s :=
  ⟨extract_high _ _ _ rfl, extract_mid .., BitVec.extractLsb'_append_eq_right⟩

/-! Where the operation field is a code that the decoder compares, the decoder is named first. -/

section
variable (f7 : BitVec 7) (b a d : BitVec 5)

theorem decodeFields_ordered_ldo : decodeFields ⟨f7, b, a, 0, d, 0x0B⟩ = decodeOrdered ⟨f7, b, a, 0, d, 0x0B⟩ false := rfl
theorem decodeFields_ordered_sto : decodeFields ⟨f7, b, a, 1, d, 0x0B⟩ = decodeOrdered ⟨f7, b, a, 1, d, 0x0B⟩ true := rfl
theorem decodeFields_custom0_2 : decodeFields ⟨f7, b, a, 2, d, 0x0B⟩ = decodeCustom0_2 ⟨f7, b, a, 2, d, 0x0B⟩ := rfl
theorem decodeFields_custom0_3 : decodeFields ⟨f7, b, a, 3, d, 0x0B⟩ = decodeCustom0_3 ⟨f7, b, a, 3, d, 0x0B⟩ := rfl
theorem decodeFields_loop : decodeFields ⟨f7, b, a, 1, d, 0x2B⟩ = decodeLoop ⟨f7, b, a, 1, d, 0x2B⟩ := rfl
theorem decodeFields_custom1_3 : decodeFields ⟨f7, b, a, 3, d, 0x2B⟩ = decodeCustom1_3 ⟨f7, b, a, 3, d, 0x2B⟩ := rfl
theorem decodeFields_custom3_7 : decodeFields ⟨f7, b, a, 7, d, 0x7B⟩ = decodeCustom3_7 ⟨f7, b, a, 7, d, 0x7B⟩ := rfl

end

/-- The bit of TACQ that asks for M stands above its scope (R67). -/
theorem tacq_excl (excl : Bool) (s : BitVec 3) : (BitVec.ofBool excl ++ 0#1 ++ s).getLsbD 4 = excl := by
  rw [BitVec.getLsbD_append, if_neg (by decide), BitVec.getLsbD_append, if_neg (by decide), BitVec.getLsbD_ofBool]
  rfl

/-- A FENCE.S has none of the funct7 codes that stand beside it. -/
theorem fenceS_funct (s : BitVec 3) : 1#2 ++ s ++ 0#2 ∉ [0x00#7, 0x01#7, 0x02#7, 0x08#7, 0x40#7, 0x41#7] := by
  revert s; decide

theorem decodeCustom0_2_fenceS (s : BitVec 3) (b a : BitVec 5) (f3 : BitVec 3) (op : BitVec 7) :
    decodeCustom0_2 ⟨1#2 ++ s ++ 0#2, b, a, f3, 0, op⟩ = withScope s (.fenceS a b s) := by
  have hf := fenceS_funct s
  simp only [List.mem_cons, List.not_mem_nil, or_false, not_or] at hf
  obtain ⟨h0, h1, h2, h8, h64, h65⟩ := hf
  unfold decodeCustom0_2
  split
  case h_7 =>
    simp only [extract_mid, extract_high, BitVec.extractLsb'_append_eq_right]
    rfl
  all_goals contradiction

/-! ### Every row -/

theorem instr_encodes {i : Instr} (h : i.wf = true) (he : i.isEvent = false) : i.Encodes := by
  cases i with
  | load k rd rs1 imm => exact load_encodes k rd rs1 imm
  | store k rs1 rs2 imm => exact store_encodes k rs1 rs2 imm
  | lr dbl aq rl rd rs1 => exact lr_encodes dbl aq rl rd rs1
  | sc dbl aq rl rd rs1 rs2 => exact sc_encodes dbl aq rl rd rs1 rs2
  | amo op dbl aq rl rd rs1 rs2 => exact amo_encodes op dbl aq rl rd rs1 rs2
  | integerDivide op word rd rs1 rs2 => exact ⟨_, rfl, by cases op <;> cases word <;> rfl⟩
  | csrAccess op isImm rd src csr => exact csrAccess_encodes op isImm rd src csr
  | fence fm pred succ rd rs1 => exact fence_encodes h
  | fenceTso d a => exact fenceTso_encodes d a
  | fenceI x d a => exact ⟨_, rfl, ok_congr (.fenceI · d a) (immI_fields x ..)⟩
  | integerArithmetic o => exact integer_encodes o
  | branch k a b x => exact branch_encodes k a b (by simpa [Instr.wf] using h)
  | jump o =>
    cases o with
    | jal d x => exact ⟨_, rfl, ok_congr (.jump ∘ .jal d) (immJ_fields (by simpa [Instr.wf] using h) ..)⟩
    | jalr d a x => exact ⟨_, rfl, ok_congr (.jump ∘ .jalr d a) (immI_fields x ..)⟩
  | fpArithmetic o => exact fpArithmetic_encodes h
  | xret machine => exact ⟨_, rfl, by cases machine <;> rfl⟩
  | illegalInstructionWord w => cases h
  | wfi | ecall | ebreak | sfenceVma | wrsNto | wrsSto | wbr | invr | wbinvr | disct | pgmig | tdecl | tfree | tstat | accF | accX | accI
  | flres | cpstep | bhwait | bhset | stgreq | hsgath | hsred | hsconv | hsgemv | hstart | hexit | hjoin | falign | spawn | tnext | tarm | launch
  | tresume | tkill | phwait | phbytes | mbeat | msend | mpost | mrecv | mprobe | mcancel | qpush | qpop | qtrypop | qflush | evpop | evwait
  | cpmark | cpdump | trace | loopClr | vmovi | vmoviw | vrdx | vwrx | vextract | vinsert | mxcfg | mxgrant | mxdup | mxsync => exact ⟨_, rfl, rfl⟩
  | vaddVv | vsubVv | vmulVv | vmulhVv | vmulhuVv | vminVv | vminuVv | vmaxVv | vmaxuVv | vandVv | vorVv | vxorVv | vsllVv | vsrlVv
  | vsraVv | vmergeVv =>
    refine ⟨_, rfl, ?_⟩
    show decodeCustom2_0 _ = _
    simp only [decodeCustom2_0, vector_fields] <;> rfl
  | vaddVx | vsubVx | vmulVx | vmulhVx | vmulhuVx | vminVx | vminuVx | vmaxVx | vmaxuVx | vandVx | vorVx | vxorVx | vsllVx | vsrlVx
  | vsraVx | vmergeVx =>
    refine ⟨_, rfl, ?_⟩
    show decodeCustom2_1 _ = _
    simp only [decodeCustom2_1, vector_fields] <;> rfl
  | vfaddVv | vfsubVv | vfmulVv | vfdivVv | vfminVv | vfmaxVv | vfmaVv | vfmsVv | vfnmaVv | vfsqrt | vfclass =>
    refine ⟨_, rfl, ?_⟩
    show decodeCustom2_2 _ = _
    simp only [decodeCustom2_2, vector_fields] <;> rfl
  | vfaddVf | vfsubVf | vfmulVf | vfdivVf | vfminVf | vfmaxVf | vfmaVf | vfmsVf | vfnmaVf =>
    refine ⟨_, rfl, ?_⟩
    show decodeCustom2_3 _ = _
    simp only [decodeCustom2_3, vector_fields]
  | vcmpEq | vcmpNe | vcmpLt | vcmpLtu | vcmpLe | vcmpLeu | vfcmpEq | vfcmpLt | vfcmpLe | vfcmpUn | vmand | vmor | vmxor | vmnot | vpopc
  | vfirst =>
    refine ⟨_, rfl, ?_⟩
    show decodeCustom2_4 _ = _
    simp only [decodeCustom2_4, vector_fields, short_fields]
    rfl
  | vperm | vslideup | vslidedn | vbcast | vcompress | vid | vclmul | vclmulh =>
    refine ⟨_, rfl, ?_⟩
    show decodeCustom2_5 _ = _
    simp only [decodeCustom2_5, vector_fields] <;> rfl
  | vcvt | vscale =>
    refine ⟨_, rfl, ?_⟩
    show decodeCustom2_6 _ = _
    simp only [decodeCustom2_6, vector_fields]
    exact if_pos h
  | vamax | vqlns | vdqlns | vqfp8 | vdqfp8 | vqsplit =>
    refine ⟨_, rfl, ?_⟩
    show decodeCustom2_6 _ = _
    simp only [decodeCustom2_6, vector_fields] <;> rfl
  | vredsum | vredmax | vredmin | vredmaxu | vredminu | vfredsum | vfredmax | vfredmin =>
    refine ⟨_, rfl, ?_⟩
    show decodeCustom2_7 _ = _
    simp only [decodeCustom2_7, vector_fields]
  | vld | vldSt | vldIx | vldBc =>
    refine ⟨_, rfl, ?_⟩
    show decodeCustom3_0 _ = _
    simp only [decodeCustom3_0, vector_fields] <;> rfl
  | vst | vstSt | vstIx | vstBc =>
    refine ⟨_, rfl, ?_⟩
    show decodeCustom3_1 _ = _
    simp only [decodeCustom3_1, vector_fields] <;> rfl
  | vsetl => exact ⟨_, rfl, if_pos h⟩
  | mxld buf rs1 target =>
    refine ⟨_, rfl, ?_⟩
    refine (decodeFields_custom3_7 ..).trans ?_
    simp only [decodeCustom3_7, BitVec.extractLsb'_append_eq_right, BitVec.extractLsb'_append_eq_left]
    rfl
  | mxmac | mxmacs =>
    refine ⟨_, rfl, ?_⟩
    refine (decodeFields_custom3_7 ..).trans ?_
    simp only [decodeCustom3_7, short_fields, extract_mid, extract_high, BitVec.extractLsb'_append_eq_right]
    rfl
  | mxst | mxzero =>
    refine ⟨_, rfl, ?_⟩
    refine (decodeFields_custom3_7 ..).trans ?_
    simp only [decodeCustom3_7, short_fields]
    rfl
  | ldo rd rs1 s o w =>
    obtain ⟨hs, ho⟩ := Bool.and_eq_true_iff.1 h
    refine ⟨_, rfl, ?_⟩
    refine (decodeFields_ordered_ldo ..).trans ?_
    simp only [decodeOrdered, ordered_fields, ho, withScope_of_code hs]
    rfl
  | sto rs1 rs2 s o w =>
    obtain ⟨hs, ho⟩ := Bool.and_eq_true_iff.1 h
    refine ⟨_, rfl, ?_⟩
    refine (decodeFields_ordered_sto ..).trans ?_
    simp only [decodeOrdered, ordered_fields, ho, withScope_of_code hs]
    rfl
  | amos rd rs1 rs2 s o =>
    obtain ⟨hs, ho⟩ := Bool.and_eq_true_iff.1 h
    refine ⟨_, rfl, ?_⟩
    show decodeAmos _ = _
    simp only [decodeAmos, BitVec.extractLsb'_append_eq_right, BitVec.extractLsb'_append_eq_left, ho, withScope_of_code hs]
    rfl
  | cpy | cpyDc | cpyPh | cpyDcPh =>
    refine ⟨_, rfl, ?_⟩
    show decodeCpy _ = _
    simp only [decodeCpy, BitVec.extractLsb'_append_eq_right, BitVec.extractLsb'_append_eq_left] <;> rfl
  | fenceS rs1 rs2 s =>
    refine ⟨_, rfl, ?_⟩
    exact (decodeFields_custom0_2 ..).trans ((decodeCustom0_2_fenceS ..).trans (withScope_of_code h _))
  | qsfence ic s rs1 rs2 =>
    refine ⟨_, rfl, ?_⟩
    refine (decodeFields_custom0_2 ..).trans ?_
    simp only [decodeCustom0_2, extract_mid, extract_high, bit_low]
    exact if_pos h
  | tacq rs1 s excl =>
    refine ⟨_, rfl, ?_⟩
    refine (decodeFields_custom0_3 ..).trans ?_
    simp only [decodeCustom0_3, extract_mid, BitVec.extractLsb'_append_eq_right, withScope_of_code h, tacq_excl]
    rfl
  | trel rs1 s =>
    refine ⟨_, rfl, ?_⟩
    refine (decodeFields_custom0_3 ..).trans ?_
    simp only [decodeCustom0_3, short_fields, withScope_of_code h]
    rfl
  | tfwd rel rs1 rs2 =>
    refine ⟨_, rfl, ?_⟩
    refine (decodeFields_custom0_3 ..).trans ?_
    simp only [decodeCustom0_3, bit_low, BitVec.extractLsb'_append_eq_left]
    rfl
  | loopSet rs1 imm =>
    have hx : (imm == 0) = false := by simpa [Instr.wf] using h
    refine ⟨_, rfl, ?_⟩
    refine (decodeFields_loop ..).trans ?_
    simp only [decodeLoop, immI_fields, hx]
    rfl
  | phreg rd rs1 m | phdereg rd rs1 m =>
    have hm : (m == 0) = false := by simpa [Instr.wf] using h
    refine ⟨_, rfl, ?_⟩
    refine (decodeFields_custom1_3 ..).trans ?_
    simp only [decodeCustom1_3, BitVec.extractLsb'_append_eq_right, BitVec.extractLsb'_append_eq_left, hm]
    rfl
  | pharv rd rs1 wait flush =>
    refine ⟨_, rfl, ?_⟩
    refine (decodeFields_custom1_3 ..).trans ?_
    simp only [decodeCustom1_3, extract_high, bit_low, bit_above]
    rfl
  | _ => cases he

/-- Settles O2: `instr_encodes` for the fields, and a word is its fields joined. -/
theorem decodeAfterEncode : Obligations.DecodeAfterEncode := by
  intro i hwf hevent
  obtain ⟨f, hf, hd⟩ := instr_encodes hwf hevent
  refine ⟨f.join, ?_, ?_⟩
  · rw [encode, hf, Option.map_some]
  · rw [decode, split_join, hd]

end Sys2Proof
end

