-- ==== Sys2Proof/Proofs/Encoding/EncodeAfterDecode.lean ====
section
/-! What the decoder answers is faithful to the fields: the instruction is well formed and has exactly those fields. `Faithful` is kept by each check
that the decoder makes, and each sub-decoder is faithful branch by branch. The last theorem settles O3. -/

namespace Sys2Proof

-- One after another: the sub-decoders' many proofs, each waiting for its match's splitter, would together hold more threads than the memory allows.
set_option Elab.async false

/-- `r` is a faithful answer of the decoder for the fields `f`: an instruction that it gives is well formed and has exactly the fields `f`. -/
def Faithful (f : Fields) (r : Except Reject Instr) : Prop := ∀ i, r = .ok i → i.wf = true ∧ encodeFields i = some f

section
variable {f : Fields} {i : Instr} {r r' : Except Reject Instr}

theorem Faithful.ok (hw : i.wf = true) (hf : encodeFields i = some f) : Faithful f (.ok i) := by
  rintro j ⟨⟩
  exact ⟨hw, hf⟩
theorem Faithful.error (e : Reject) : Faithful f (.error e) := nofun
theorem Faithful.ite {p : Prop} [Decidable p] (h : p → Faithful f r) (h' : ¬p → Faithful f r') : Faithful f (if p then r else r') := by
  split
  · exact h ‹p›
  · exact h' ‹¬p›
/-- A rejection behind a check. -/
theorem Faithful.check {c : Bool} {e : Reject} (h : c = true → Faithful f r) : Faithful f (if c then r else .error e) := .ite h fun _ => .error e
theorem Faithful.mbz {c : Bool} (h : c = true → Faithful f r) : Faithful f (mbz c r) := .check h
theorem Faithful.withScope {s : BitVec 3} (h : scopeCode s = true → Faithful f (.ok i)) : Faithful f (withScope s i) := .check h
theorem Faithful.rounded {rm : BitVec 3} {o : FpOp} (h : rmCode rm = true → Faithful f (.ok (.fpArithmetic o))) : Faithful f (rounded rm o) :=
  .check h

/-- An answer that is faithful field by field. -/
theorem Faithful.fields {f7 f7' op op' : BitVec 7} {b b' a a' d d' : BitVec 5} {f3 f3' : BitVec 3} (hw : i.wf = true)
    (he : encodeFields i = some ⟨f7', b', a', f3', d', op'⟩) (h7 : f7' = f7 := by rfl) (hb : b' = b := by rfl) (ha : a' = a := by rfl)
    (h3 : f3' = f3 := by rfl) (hd : d' = d := by rfl) (ho : op' = op := by rfl) : Faithful ⟨f7, b, a, f3, d, op⟩ (.ok i) := by
  subst h7 hb ha h3 hd ho
  exact .ok hw he

section
variable {f7 op : BitVec 7} {b a d : BitVec 5} {f3 : BitVec 3}

theorem Faithful.mbz_d (h : Faithful ⟨f7, b, a, f3, 0, op⟩ r) : Faithful ⟨f7, b, a, f3, d, op⟩ (Sys2Proof.mbz (d == 0) r) :=
  .mbz fun hd => by rwa [eq_of_beq hd]
theorem Faithful.mbz_b (h : Faithful ⟨f7, 0, a, f3, d, op⟩ r) : Faithful ⟨f7, b, a, f3, d, op⟩ (Sys2Proof.mbz (b == 0) r) :=
  .mbz fun hb => by rwa [eq_of_beq hb]
theorem Faithful.mbz_db (h : Faithful ⟨f7, 0, a, f3, 0, op⟩ r) : Faithful ⟨f7, b, a, f3, d, op⟩ (Sys2Proof.mbz (d == 0 && b == 0) r) :=
  .mbz fun hz => by
    obtain ⟨hd, hb⟩ := Bool.and_eq_true_iff.1 hz
    rwa [eq_of_beq hd, eq_of_beq hb]

end
end

/-! ### Putting fields together -/

/-- A field whose lower part is known is the two parts put together. -/
theorem join_low {m n : Nat} {x : BitVec (m + n)} {c : BitVec n} (h : x.extractLsb' 0 n = c) : x.extractLsb' n m ++ c = x := by
  have e := extract_append_extract x 0 m n
  rw [Nat.zero_add, h] at e
  exact e.trans BitVec.extractLsb'_eq_self
/-- A field whose upper part is known is the two parts put together. -/
theorem join_high {m n : Nat} {x : BitVec (m + n)} {c : BitVec m} (h : x.extractLsb' n m = c) : c ++ x.extractLsb' 0 n = x := by
  rw [← h]
  exact join_low rfl
/-- A field whose upper part must be zero. -/
theorem join_mbz {m n : Nat} {x : BitVec (m + n)} (h : (x.extractLsb' n m == 0) = true) : 0#m ++ x.extractLsb' 0 n = x := join_high (eq_of_beq h)
/-- A must-be-zero field is zero. -/
theorem zero_eq {n : Nat} {x : BitVec n} (h : (x == 0) = true) : 0#n = x := (eq_of_beq h).symm
theorem mbz_and {p q : Bool} (h : (p && q) = true) : p = true ∧ q = true := Bool.and_eq_true_iff.1 h

theorem funct3_last {x : BitVec 3} (h : x ∉ [0#3, 1#3, 2#3, 3#3, 4#3, 5#3, 6#3]) : x = 7#3 := by revert x; decide
theorem funct4_last {x : BitVec 4} (h : x ∉ [0#4, 1#4, 2#4, 3#4, 4#4, 5#4, 6#4, 7#4, 8#4, 9#4, 10#4, 11#4, 12#4, 13#4, 14#4]) : x = 15#4 := by
  revert x; decide
theorem funct2_last {x : BitVec 2} (h : x ∉ [0#2, 1#2, 2#2]) : x = 3#2 := by revert x; decide

theorem vector_join {f7 : BitVec 7} {c : BitVec 4} (h : f7.extractLsb' 0 4 = c) : f7.extractLsb' 4 3 ++ c = f7 := join_low h
theorem amo_join {f7 : BitVec 7} {k : BitVec 5} (h : f7.extractLsb' 2 5 = k) :
    k ++ BitVec.ofBool (f7.getLsbD 1) ++ BitVec.ofBool (f7.getLsbD 0) = f7 := by
  subst h; revert f7; decide
theorem fp_join {f7 : BitVec 7} {x : BitVec 5} (h : ¬(f7.extractLsb' 1 1 == 1#1) = true) (hx : f7.extractLsb' 2 5 = x) :
    x ++ 0#1 ++ BitVec.ofBool (f7.getLsbD 0) = f7 := by
  subst hx; revert f7; decide
theorem qsfence_join {d : BitVec 5} (h : (d.extractLsb' 4 1 == 0) = true) : 0#1 ++ d.extractLsb' 1 3 ++ BitVec.ofBool (d.getLsbD 0) = d := by
  revert d; decide
theorem tacq_join {b : BitVec 5} (h : (b.extractLsb' 3 1 == 0) = true) : BitVec.ofBool (b.getLsbD 4) ++ 0#1 ++ b.extractLsb' 0 3 = b := by
  revert b; decide
theorem tfwd_join {d : BitVec 5} (h : (d.extractLsb' 1 4 == 0) = true) : 0#4 ++ BitVec.ofBool (d.getLsbD 0) = d := by
  revert d; decide
theorem pharv_join {b : BitVec 5} (h : (b.extractLsb' 2 3 == 0) = true) :
    0#3 ++ BitVec.ofBool (b.getLsbD 1) ++ BitVec.ofBool (b.getLsbD 0) = b := by
  revert b; decide
theorem mxmac_join {a : BitVec 5} (h : (a.extractLsb' 4 1 == 0) = true) : 0#1 ++ a.extractLsb' 2 2 ++ a.extractLsb' 0 2 = a := by
  revert a; decide
theorem fma_join {f7 : BitVec 7} {dbl : Bool} (h : f7.extractLsb' 0 2 = 0#1 ++ BitVec.ofBool dbl) :
    f7.extractLsb' 2 5 ++ 0#1 ++ BitVec.ofBool dbl = f7 := by
  revert f7; revert dbl; decide
theorem fpIntCode_of_fpInt {b : BitVec 5} {t : FpInt} (h : fpInt b = some t) : fpIntCode t = b := by
  unfold fpInt at h
  split at h <;> cases h <;> rfl

section
variable (f7 : BitVec 7) (b a d : BitVec 5) (f3 : BitVec 3)

/-! ### The base rows -/

theorem decodeLoad_faithful {op : BitVec 7} {fp : Bool} (ho : (if fp then 0x07 else 0x03) = op) :
    Faithful ⟨f7, b, a, f3, d, op⟩ (decodeLoad ⟨f7, b, a, f3, d, op⟩ fp) := by
  unfold decodeLoad
  dsimp only
  split
  case h_10 => exact .error _
  all_goals exact .fields rfl rfl BitVec.extractLsb'_append_eq_left BitVec.extractLsb'_append_eq_right (ho := ho)

theorem decodeStore_faithful {op : BitVec 7} {fp : Bool} (ho : (if fp then 0x27 else 0x23) = op) :
    Faithful ⟨f7, b, a, f3, d, op⟩ (decodeStore ⟨f7, b, a, f3, d, op⟩ fp) := by
  unfold decodeStore
  dsimp only
  split
  case h_7 => exact .error _
  all_goals exact .fields rfl rfl BitVec.extractLsb'_append_eq_left (hd := BitVec.extractLsb'_append_eq_right) (ho := ho)

/-- The predecessor and successor sets of a FENCE, put together. -/
theorem fence_join : f7.extractLsb' 3 4 ++ (f7.extractLsb' 0 3 ++ b.extractLsb' 4 1).extractLsb' 1 3 = f7 ∧
    (f7.extractLsb' 0 3 ++ b.extractLsb' 4 1).extractLsb' 0 1 ++ b.extractLsb' 0 4 = b := by
  rw [BitVec.extractLsb'_append_eq_left, BitVec.extractLsb'_append_eq_right]
  exact ⟨join_low rfl, join_low rfl⟩

theorem decodeMisc_faithful : Faithful ⟨f7, b, a, f3, d, 0x0F⟩ (decodeMisc ⟨f7, b, a, f3, d, 0x0F⟩) := by
  obtain ⟨h7, hb⟩ := fence_join f7 b
  unfold decodeMisc
  dsimp only
  split
  · refine .ite (fun h => ?_) fun h => .fields (by simpa [Instr.wf, or_assoc, imp_iff_not_or] using h) rfl h7 hb
    obtain ⟨h, hs⟩ := mbz_and h
    obtain ⟨hf, hp⟩ := mbz_and h
    rw [eq_of_beq hf, eq_of_beq hp] at h7
    rw [eq_of_beq hs, eq_of_beq hp] at hb
    exact .fields rfl rfl h7 hb
  · exact .fields rfl rfl BitVec.extractLsb'_append_eq_left BitVec.extractLsb'_append_eq_right
  · exact .error _

theorem shamt_join {t : BitVec 6} (h : (f7.extractLsb' 1 6 == t) = true) :
    t ++ (f7.extractLsb' 0 1 ++ b).extractLsb' 5 1 = f7 ∧ (f7.extractLsb' 0 1 ++ b).extractLsb' 0 5 = b := by
  rw [BitVec.extractLsb'_append_eq_left]
  exact ⟨join_high (eq_of_beq h), BitVec.extractLsb'_append_eq_right⟩

theorem decodeOpImm_faithful : Faithful ⟨f7, b, a, f3, d, 0x13⟩ (decodeOpImm ⟨f7, b, a, f3, d, 0x13⟩) := by
  unfold decodeOpImm
  dsimp only
  split
  case h_2 => exact .check fun h => .fields rfl rfl (shamt_join f7 b h).1 (shamt_join f7 b h).2
  case h_6 =>
    exact .ite (fun h => .fields rfl rfl (shamt_join f7 b h).1 (shamt_join f7 b h).2) fun _ =>
      .check fun h => .fields rfl rfl (shamt_join f7 b h).1 (shamt_join f7 b h).2
  case h_8 =>
    obtain rfl : f3 = 7#3 := funct3_last (by simp; tauto)
    exact .fields rfl rfl BitVec.extractLsb'_append_eq_left BitVec.extractLsb'_append_eq_right
  all_goals exact .fields rfl rfl BitVec.extractLsb'_append_eq_left BitVec.extractLsb'_append_eq_right

theorem decodeOpImm32_faithful : Faithful ⟨f7, b, a, f3, d, 0x1B⟩ (decodeOpImm32 ⟨f7, b, a, f3, d, 0x1B⟩) := by
  unfold decodeOpImm32
  dsimp only
  split
  · exact .fields rfl rfl BitVec.extractLsb'_append_eq_left BitVec.extractLsb'_append_eq_right
  · exact .check fun h => .fields rfl rfl (eq_of_beq h).symm
  · exact .ite (fun h => .fields rfl rfl (eq_of_beq h).symm) fun _ => .check fun h => .fields rfl rfl (eq_of_beq h).symm
  · exact .error _

theorem decodeOp_faithful : Faithful ⟨f7, b, a, f3, d, 0x33⟩ (decodeOp ⟨f7, b, a, f3, d, 0x33⟩) := by
  unfold decodeOp
  dsimp only
  split
  case h_19 => exact .error _
  all_goals exact .ok rfl rfl

theorem decodeOp32_faithful : Faithful ⟨f7, b, a, f3, d, 0x3B⟩ (decodeOp32 ⟨f7, b, a, f3, d, 0x3B⟩) := by
  unfold decodeOp32
  dsimp only
  split
  case h_11 => exact .error _
  all_goals exact .ok rfl rfl

theorem decodeAmo_faithful : Faithful ⟨f7, b, a, f3, d, 0x2F⟩ (decodeAmo ⟨f7, b, a, f3, d, 0x2F⟩) := by
  unfold decodeAmo
  dsimp only
  refine .check fun h3 => ?_
  have h3 : (if (f3 == 3#3) = true then 3 else 2) = f3 := by revert f3; decide
  split
  case h_1 hk => exact .check fun hb => .fields rfl rfl (amo_join hk) (zero_eq hb) (h3 := h3)
  case h_12 => exact .error _
  all_goals exact .fields rfl rfl (amo_join ‹_›) (h3 := h3)

theorem decodeFma_faithful {k : FpFma} {op : BitVec 7} (ho : (encodeFp (.fma k false 0 0 0 0 0)).op = op) :
    Faithful ⟨f7, b, a, f3, d, op⟩ (decodeFma ⟨f7, b, a, f3, d, op⟩ k) := by
  unfold decodeFma
  dsimp only
  split
  case h_1 h => exact .rounded fun hr => .fields hr rfl (fma_join (dbl := false) h) (ho := ho)
  case h_2 h => exact .rounded fun hr => .fields hr rfl (fma_join (dbl := true) h) (ho := ho)
  case h_3 => exact .error _

theorem decodeFp_faithful : Faithful ⟨f7, b, a, f3, d, 0x53⟩ (decodeFp ⟨f7, b, a, f3, d, 0x53⟩) := by
  unfold decodeFp
  dsimp only
  refine .ite (fun _ => .error _) fun h1 => ?_
  split
  case h_5 h => exact .check fun hb => .rounded fun hr => .fields hr rfl (fp_join h1 h) (zero_eq hb)
  case h_6 h | h_9 h =>
    split
    case h_4 => exact .error _
    all_goals exact .fields rfl rfl (fp_join h1 h)
  case h_7 h =>
    split
    case h_3 => exact .error _
    all_goals exact .fields rfl rfl (fp_join h1 h)
  case h_8 h =>
    have h7 := fp_join h1 h
    refine .ite (fun hd => ?_) fun hd => ?_
    · rw [hd] at h7
      exact .check fun hb => .rounded fun hr => .fields hr rfl h7 (zero_eq hb)
    · rw [eq_false_of_ne_true hd] at h7
      exact .check fun hb => .rounded fun hr => .fields hr rfl h7 (eq_of_beq hb).symm
  case h_10 h | h_11 h =>
    split
    case h_1 ht => exact .rounded fun hr => .fields hr rfl (fp_join h1 h) (fpIntCode_of_fpInt ht)
    case h_2 => exact .error _
  case h_12 h =>
    refine .check fun hb => ?_
    split
    case h_3 => exact .error _
    all_goals exact .fields rfl rfl (fp_join h1 h) (zero_eq hb)
  case h_13 h =>
    refine .check fun hz => ?_
    obtain ⟨hb, h3⟩ := mbz_and hz
    exact .fields rfl rfl (fp_join h1 h) (zero_eq hb) (h3 := zero_eq h3)
  case h_14 => exact .error _
  all_goals exact .rounded fun hr => .fields hr rfl (fp_join h1 ‹_›)

/-! ### Branches, jumps and upper immediates -/

theorem immB_even (op : BitVec 7) : (Fields.mk f7 b a f3 d op).immB.getLsbD 0 = false := by
  rw [Fields.immB, BitVec.getLsbD_append, if_pos (by decide)]
  rfl
theorem immJ_even (op : BitVec 7) : (Fields.mk f7 b a f3 d op).immJ.getLsbD 0 = false := by
  rw [Fields.immJ, BitVec.getLsbD_append, if_pos (by decide)]
  rfl

theorem lui_faithful : Faithful ⟨f7, b, a, f3, d, 0x37⟩ (.ok (.integerArithmetic (.lui d (Fields.mk f7 b a f3 d 0x37).immU))) := by
  obtain ⟨h7, hb, ha, h3⟩ := immU_parts f7 b a f3
  exact .fields rfl rfl h7 hb ha h3
theorem auipc_faithful : Faithful ⟨f7, b, a, f3, d, 0x17⟩ (.ok (.integerArithmetic (.auipc d (Fields.mk f7 b a f3 d 0x17).immU))) := by
  obtain ⟨h7, hb, ha, h3⟩ := immU_parts f7 b a f3
  exact .fields rfl rfl h7 hb ha h3

theorem decodeBranch_faithful : Faithful ⟨f7, b, a, f3, d, 0x63⟩ (decodeBranch ⟨f7, b, a, f3, d, 0x63⟩) := by
  obtain ⟨hp, hq, hr, hs⟩ := immB_parts (f7.extractLsb' 6 1) (d.extractLsb' 0 1) (f7.extractLsb' 0 6) (d.extractLsb' 1 4)
  have h7 : f7.extractLsb' 6 1 ++ f7.extractLsb' 0 6 = f7 := join_low rfl
  have hd : d.extractLsb' 1 4 ++ d.extractLsb' 0 1 = d := join_low rfl
  have hw (f3) : (!(Fields.mk f7 b a f3 d 0x63).immB.getLsbD 0) = true := by rw [immB_even]; rfl
  unfold decodeBranch
  dsimp only
  split
  case h_7 => exact .error _
  all_goals exact .fields (hw _) rfl ((congrArg₂ _ hp hr).trans h7) (hd := (congrArg₂ _ hs hq).trans hd)

theorem jal_faithful : Faithful ⟨f7, b, a, f3, d, 0x6F⟩ (.ok (.jump (.jal d (Fields.mk f7 b a f3 d 0x6F).immJ))) := by
  obtain ⟨hp, ha, h3, hq, hr, hs⟩ := immJ_parts (f7.extractLsb' 6 1) (b.extractLsb' 0 1) a f3 (f7.extractLsb' 0 6) (b.extractLsb' 1 4)
  have h7 : f7.extractLsb' 6 1 ++ f7.extractLsb' 0 6 = f7 := join_low rfl
  have hb : b.extractLsb' 1 4 ++ b.extractLsb' 0 1 = b := join_low rfl
  have hw : (!(Fields.mk f7 b a f3 d 0x6F).immJ.getLsbD 0) = true := by rw [immJ_even]; rfl
  exact .fields hw rfl ((congrArg₂ _ hp hr).trans h7) ((congrArg₂ _ hs hq).trans hb) ha h3
theorem jalr_faithful : Faithful ⟨f7, b, a, f3, d, 0x67⟩
    (if f3 == 0 then .ok (.jump (.jalr d a (Fields.mk f7 b a f3 d 0x67).immI)) else .error .unassigned) :=
  .check fun h => .fields rfl rfl BitVec.extractLsb'_append_eq_left BitVec.extractLsb'_append_eq_right (h3 := zero_eq h)

theorem decodeSystem_faithful : Faithful ⟨f7, b, a, f3, d, 0x73⟩ (decodeSystem ⟨f7, b, a, f3, d, 0x73⟩) := by
  unfold decodeSystem
  dsimp only
  split
  case h_1 =>
    refine .check fun hd => ?_
    split
    · exact .fields rfl rfl (hd := zero_eq hd)
    · refine .check fun ha => ?_
      split
      case h_5 => exact .error _
      all_goals exact .fields rfl rfl (ha := zero_eq ha) (hd := zero_eq hd)
    · refine .check fun ha => ?_
      split
      case h_3 => exact .error _
      all_goals exact .fields rfl rfl (ha := zero_eq ha) (hd := zero_eq hd)
    · refine .check fun h => ?_
      obtain ⟨ha, hb⟩ := mbz_and h
      exact .fields rfl rfl (hb := (eq_of_beq hb).symm) (ha := zero_eq ha) (hd := zero_eq hd)
    · exact .error _
  case h_8 => exact .error _
  all_goals exact .fields rfl rfl BitVec.extractLsb'_append_eq_left BitVec.extractLsb'_append_eq_right

/-! ### The rows of the custom opcodes -/

theorem decodeOrdered_faithful {st : Bool} (h3 : (if st then 1 else 0) = f3) :
    Faithful ⟨f7, b, a, f3, d, 0x0B⟩ (decodeOrdered ⟨f7, b, a, f3, d, 0x0B⟩ st) := by
  have h7 : f7.extractLsb' 5 2 ++ f7.extractLsb' 3 2 ++ f7.extractLsb' 0 3 = f7 := by
    rw [extract_append_extract f7 3 2 2]
    exact join_low rfl
  subst h3
  unfold decodeOrdered
  dsimp only
  cases st with
  | true => exact .mbz fun hd => .check fun ho => .withScope fun hs => .fields (Bool.and_eq_true_iff.2 ⟨hs, ho⟩) rfl h7 (hd := zero_eq hd)
  | false => exact .mbz fun hb => .check fun ho => .withScope fun hs => .fields (Bool.and_eq_true_iff.2 ⟨hs, ho⟩) rfl h7 (zero_eq hb)

theorem decodeCustom0_2_faithful : Faithful ⟨f7, b, a, 2, d, 0x0B⟩ (decodeCustom0_2 ⟨f7, b, a, 2, d, 0x0B⟩) := by
  unfold decodeCustom0_2
  dsimp only
  split
  case h_4 => exact .mbz_db (.ok rfl rfl)
  case h_5 => exact .mbz fun hz => .check fun hs => .fields hs rfl (hd := qsfence_join hz)
  case h_6 => exact .ok rfl rfl
  case h_7 =>
    refine .check fun h => .mbz_d (.withScope fun hs => .fields hs rfl ?_)
    obtain ⟨h5, h0⟩ := mbz_and h
    rw [← eq_of_beq h5, ← eq_of_beq h0, extract_append_extract f7 2 2 3]
    exact join_low rfl
  all_goals exact .mbz_d (.ok rfl rfl)

theorem decodeAmos_faithful : Faithful ⟨f7, b, a, 5, d, 0x0B⟩ (decodeAmos ⟨f7, b, a, 5, d, 0x0B⟩) :=
  .check fun ho => .withScope fun hs => .fields (Bool.and_eq_true_iff.2 ⟨hs, ho⟩) rfl (join_low rfl)

theorem decodeCpy_faithful : Faithful ⟨f7, b, a, 6, d, 0x0B⟩ (decodeCpy ⟨f7, b, a, 6, d, 0x0B⟩) := by
  unfold decodeCpy
  dsimp only
  split
  case h_4 => exact .fields rfl rfl (join_low (funct2_last (by simp; tauto)))
  all_goals exact .fields rfl rfl (join_low ‹_›)

theorem decodeLoop_faithful : Faithful ⟨f7, b, a, 1, d, 0x2B⟩ (decodeLoop ⟨f7, b, a, 1, d, 0x2B⟩) := by
  unfold decodeLoop
  dsimp only
  have h7 : (f7 ++ b).extractLsb' 5 7 = f7 := BitVec.extractLsb'_append_eq_left
  have hb : (f7 ++ b).extractLsb' 0 5 = b := BitVec.extractLsb'_append_eq_right
  refine .check fun hd => .ite (fun hx => .check fun ha => ?_) fun hx => .fields (by simpa [Instr.wf] using hx) rfl h7 hb (hd := zero_eq hd)
  have hx : f7 ++ b = 0 := eq_of_beq hx
  rw [hx] at h7 hb
  exact .fields rfl rfl h7 hb (zero_eq ha) (hd := zero_eq hd)

theorem decodeCustom0_3_faithful : Faithful ⟨f7, b, a, 3, d, 0x0B⟩ (decodeCustom0_3 ⟨f7, b, a, 3, d, 0x0B⟩) := by
  unfold decodeCustom0_3
  dsimp only
  split
  case h_1 | h_2 => exact .mbz_db (.ok rfl rfl)
  case h_3 =>
    refine .mbz fun hz => .withScope fun hs => ?_
    obtain ⟨hd, hb⟩ := mbz_and hz
    exact .fields hs rfl (hb := tacq_join hb) (hd := zero_eq hd)
  case h_4 =>
    refine .mbz fun hz => .withScope fun hs => ?_
    obtain ⟨hd, hb⟩ := mbz_and hz
    exact .fields hs rfl (hb := join_mbz hb) (hd := zero_eq hd)
  case h_5 => exact .mbz fun hd => .fields rfl rfl (hd := tfwd_join hd)
  case h_6 => exact .mbz_b (.ok rfl rfl)
  case h_7 => exact .error _

theorem decodeCustom0_4_faithful : Faithful ⟨f7, b, a, 4, d, 0x0B⟩ (decodeCustom0_4 ⟨f7, b, a, 4, d, 0x0B⟩) := by
  unfold decodeCustom0_4
  dsimp only
  split
  · exact .mbz_b (.ok rfl rfl)
  · exact .ok rfl rfl
  · exact .mbz_b (.ok rfl rfl)
  · exact .mbz_d (.ok rfl rfl)
  · exact .error _

theorem decodeCustom0_7_faithful : Faithful ⟨f7, b, a, 7, d, 0x0B⟩ (decodeCustom0_7 ⟨f7, b, a, 7, d, 0x0B⟩) := by
  unfold decodeCustom0_7
  dsimp only
  split
  case h_1 => exact .mbz_db (.ok rfl rfl)
  case h_2 => exact .ok rfl rfl
  case h_9 => exact .error _
  all_goals exact .mbz_d (.ok rfl rfl)

theorem decodeCustom1_0_faithful : Faithful ⟨f7, b, a, 0, d, 0x2B⟩ (decodeCustom1_0 ⟨f7, b, a, 0, d, 0x2B⟩) := by
  unfold decodeCustom1_0
  dsimp only
  split
  · exact .ok rfl rfl
  · exact .mbz_db (.ok rfl rfl)
  · exact .mbz_b (.ok rfl rfl)
  · exact .mbz_db (.ok rfl rfl)
  · exact .error _

theorem decodeCustom1_2_faithful : Faithful ⟨f7, b, a, 2, d, 0x2B⟩ (decodeCustom1_2 ⟨f7, b, a, 2, d, 0x2B⟩) := by
  unfold decodeCustom1_2
  dsimp only
  split
  · exact .mbz_b (.ok rfl rfl)
  · refine .mbz fun hz => ?_
    obtain ⟨ha, hb⟩ := mbz_and hz
    exact .fields rfl rfl (hb := zero_eq hb) (ha := zero_eq ha)
  · exact .mbz_d (.ok rfl rfl)
  · exact .ok rfl rfl
  · exact .mbz_db (.ok rfl rfl)
  · exact .mbz_db (.ok rfl rfl)
  · exact .error _

theorem decodeCustom1_3_faithful : Faithful ⟨f7, b, a, 3, d, 0x2B⟩ (decodeCustom1_3 ⟨f7, b, a, 3, d, 0x2B⟩) := by
  unfold decodeCustom1_3
  dsimp only
  split
  case h_1 | h_2 =>
    exact .mbz fun hb => .ite (fun _ => .error _) fun hm => .fields (by simpa [Instr.wf] using hm) rfl (hb := join_mbz hb)
  case h_3 => exact .mbz fun hb => .fields rfl rfl (hb := pharv_join hb)
  case h_4 | h_5 => exact .mbz_d (.ok rfl rfl)
  case h_6 => exact .error _

theorem decodeCustom1_4_faithful : Faithful ⟨f7, b, a, 4, d, 0x2B⟩ (decodeCustom1_4 ⟨f7, b, a, 4, d, 0x2B⟩) := by
  unfold decodeCustom1_4
  dsimp only
  split
  case h_1 | h_2 => exact .mbz_d (.ok rfl rfl)
  case h_7 => exact .error _
  all_goals exact .mbz_b (.ok rfl rfl)

theorem decodeCustom1_5_faithful : Faithful ⟨f7, b, a, 5, d, 0x2B⟩ (decodeCustom1_5 ⟨f7, b, a, 5, d, 0x2B⟩) := by
  unfold decodeCustom1_5
  dsimp only
  split
  · exact .mbz_d (.ok rfl rfl)
  · exact .mbz_b (.ok rfl rfl)
  · exact .mbz_b (.ok rfl rfl)
  · exact .mbz_db (.ok rfl rfl)
  · exact .error _

theorem decodeCustom1_6_faithful : Faithful ⟨f7, b, a, 6, d, 0x2B⟩ (decodeCustom1_6 ⟨f7, b, a, 6, d, 0x2B⟩) := by
  unfold decodeCustom1_6
  dsimp only
  split
  · exact .mbz_b (.ok rfl rfl)
  · exact .mbz_b (.ok rfl rfl)
  · exact .mbz_db (.ok rfl rfl)
  · exact .ok rfl rfl
  · exact .mbz_d (.ok rfl rfl)
  · exact .error _

theorem decodeCustom2_0_faithful : Faithful ⟨f7, b, a, 0, d, 0x5B⟩ (decodeCustom2_0 ⟨f7, b, a, 0, d, 0x5B⟩) := by
  unfold decodeCustom2_0
  dsimp only
  split
  case h_16 => exact .fields rfl rfl (vector_join (funct4_last (by simp; tauto)))
  all_goals exact .fields rfl rfl (vector_join ‹_›)

theorem decodeCustom2_1_faithful : Faithful ⟨f7, b, a, 1, d, 0x5B⟩ (decodeCustom2_1 ⟨f7, b, a, 1, d, 0x5B⟩) := by
  unfold decodeCustom2_1
  dsimp only
  split
  case h_16 => exact .fields rfl rfl (vector_join (funct4_last (by simp; tauto)))
  all_goals exact .fields rfl rfl (vector_join ‹_›)

theorem decodeCustom2_2_faithful : Faithful ⟨f7, b, a, 2, d, 0x5B⟩ (decodeCustom2_2 ⟨f7, b, a, 2, d, 0x5B⟩) := by
  unfold decodeCustom2_2
  dsimp only
  split
  case h_10 h | h_11 h => exact .mbz fun ha => .fields rfl rfl (vector_join h) (ha := zero_eq ha)
  case h_12 => exact .error _
  all_goals exact .fields rfl rfl (vector_join ‹_›)

theorem decodeCustom2_3_faithful : Faithful ⟨f7, b, a, 3, d, 0x5B⟩ (decodeCustom2_3 ⟨f7, b, a, 3, d, 0x5B⟩) := by
  unfold decodeCustom2_3
  dsimp only
  split
  case h_10 => exact .error _
  all_goals exact .fields rfl rfl (vector_join ‹_›)

theorem decodeCustom2_4_faithful : Faithful ⟨f7, b, a, 4, d, 0x5B⟩ (decodeCustom2_4 ⟨f7, b, a, 4, d, 0x5B⟩) := by
  unfold decodeCustom2_4
  dsimp only
  split
  case h_11 h | h_12 h | h_13 h =>
    refine .mbz fun hz => ?_
    obtain ⟨hz, hb⟩ := mbz_and hz
    obtain ⟨hd, ha⟩ := mbz_and hz
    exact .fields rfl rfl (vector_join h) (join_mbz hb) (join_mbz ha) (hd := join_mbz hd)
  case h_14 h =>
    refine .mbz fun hz => ?_
    obtain ⟨hz, hb⟩ := mbz_and hz
    obtain ⟨hd, ha⟩ := mbz_and hz
    exact .fields rfl rfl (vector_join h) (join_mbz hb) (zero_eq ha) (hd := join_mbz hd)
  case h_15 h =>
    refine .mbz fun hz => ?_
    obtain ⟨ha, hb⟩ := mbz_and hz
    exact .fields rfl rfl (vector_join h) (join_mbz hb) (zero_eq ha)
  case h_16 =>
    refine .mbz fun hz => ?_
    obtain ⟨ha, hb⟩ := mbz_and hz
    exact .fields rfl rfl (vector_join (funct4_last (by simp; tauto))) (join_mbz hb) (zero_eq ha)
  all_goals exact .mbz fun hd => .fields rfl rfl (vector_join ‹_›) (hd := join_mbz hd)

theorem decodeCustom2_5_faithful : Faithful ⟨f7, b, a, 5, d, 0x5B⟩ (decodeCustom2_5 ⟨f7, b, a, 5, d, 0x5B⟩) := by
  unfold decodeCustom2_5
  dsimp only
  split
  case h_4 h => exact .mbz_b (.fields rfl rfl (vector_join h))
  case h_6 h =>
    refine .mbz fun hz => ?_
    obtain ⟨ha, hb⟩ := mbz_and hz
    exact .fields rfl rfl (vector_join h) (zero_eq hb) (zero_eq ha)
  case h_9 => exact .error _
  all_goals exact .fields rfl rfl (vector_join ‹_›)

theorem decodeCustom2_6_faithful : Faithful ⟨f7, b, a, 6, d, 0x5B⟩ (decodeCustom2_6 ⟨f7, b, a, 6, d, 0x5B⟩) := by
  unfold decodeCustom2_6
  dsimp only
  split
  case h_1 h | h_3 h => exact .check fun hc => .fields hc rfl (vector_join h)
  case h_2 h => exact .mbz fun ha => .fields rfl rfl (vector_join h) (ha := zero_eq ha)
  case h_9 => exact .error _
  all_goals exact .fields rfl rfl (vector_join ‹_›)

theorem decodeCustom2_7_faithful : Faithful ⟨f7, b, a, 7, d, 0x5B⟩ (decodeCustom2_7 ⟨f7, b, a, 7, d, 0x5B⟩) := by
  unfold decodeCustom2_7
  dsimp only
  split
  case h_9 => exact .error _
  all_goals exact .fields rfl rfl (vector_join ‹_›)

theorem decodeCustom3_0_faithful : Faithful ⟨f7, b, a, 0, d, 0x7B⟩ (decodeCustom3_0 ⟨f7, b, a, 0, d, 0x7B⟩) := by
  unfold decodeCustom3_0
  dsimp only
  split
  case h_1 h | h_4 h => exact .mbz_b (.fields rfl rfl (vector_join h))
  case h_2 h | h_3 h => exact .fields rfl rfl (vector_join h)
  case h_5 => exact .error _

theorem decodeCustom3_1_faithful : Faithful ⟨f7, b, a, 1, d, 0x7B⟩ (decodeCustom3_1 ⟨f7, b, a, 1, d, 0x7B⟩) := by
  unfold decodeCustom3_1
  dsimp only
  split
  case h_1 h | h_4 h => exact .mbz_b (.fields rfl rfl (vector_join h))
  case h_2 h | h_3 h => exact .fields rfl rfl (vector_join h)
  case h_5 => exact .error _

theorem decodeCustom3_2_faithful : Faithful ⟨f7, b, a, 2, d, 0x7B⟩ (decodeCustom3_2 ⟨f7, b, a, 2, d, 0x7B⟩) := by
  unfold decodeCustom3_2
  dsimp only
  split
  case h_1 | h_2 => exact .mbz fun ha => .fields rfl rfl (ha := zero_eq ha)
  case h_3 | h_4 => exact .mbz_b (.ok rfl rfl)
  case h_5 => exact .error _

theorem decodeCustom3_3_faithful : Faithful ⟨f7, b, a, 3, d, 0x7B⟩ (decodeCustom3_3 ⟨f7, b, a, 3, d, 0x7B⟩) := by
  unfold decodeCustom3_3
  dsimp only
  split
  · exact .check fun he => .ok he rfl
  · exact .ok rfl rfl
  · exact .ok rfl rfl
  · exact .error _

theorem decodeCustom3_7_faithful : Faithful ⟨f7, b, a, 7, d, 0x7B⟩ (decodeCustom3_7 ⟨f7, b, a, 7, d, 0x7B⟩) := by
  unfold decodeCustom3_7
  dsimp only
  split
  case h_1 | h_8 => exact .mbz_d (.ok rfl rfl)
  case h_2 => exact .mbz_db (.ok rfl rfl)
  case h_3 | h_6 => exact .mbz fun hd => .fields rfl rfl (hd := join_mbz hd)
  case h_4 | h_5 =>
    refine .mbz fun hz => ?_
    obtain ⟨hd, ha⟩ := mbz_and hz
    exact .fields rfl rfl (ha := mxmac_join ha) (hd := join_mbz hd)
  case h_7 =>
    refine .mbz fun hz => ?_
    obtain ⟨hd, ha⟩ := mbz_and hz
    exact .fields rfl rfl (ha := zero_eq ha) (hd := join_mbz hd)
  case h_9 =>
    refine .mbz fun hz => ?_
    obtain ⟨hd, ha⟩ := mbz_and hz
    exact .fields rfl rfl (ha := zero_eq ha) (hd := zero_eq hd)
  case h_10 => exact .error _

/-! ### The whole decoder -/

theorem decodeCustom0_faithful : Faithful ⟨f7, b, a, f3, d, 0x0B⟩ (decodeCustom0 ⟨f7, b, a, f3, d, 0x0B⟩) := by
  unfold decodeCustom0
  dsimp only
  split
  · exact decodeOrdered_faithful f7 b a d 0 rfl
  · exact decodeOrdered_faithful f7 b a d 1 rfl
  · exact decodeCustom0_2_faithful f7 b a d
  · exact decodeCustom0_3_faithful f7 b a d
  · exact decodeCustom0_4_faithful f7 b a d
  · exact decodeAmos_faithful f7 b a d
  · exact decodeCpy_faithful f7 b a d
  · obtain rfl : f3 = 7#3 := funct3_last (by simp; tauto)
    exact decodeCustom0_7_faithful f7 b a d

theorem decodeCustom1_faithful : Faithful ⟨f7, b, a, f3, d, 0x2B⟩ (decodeCustom1 ⟨f7, b, a, f3, d, 0x2B⟩) := by
  unfold decodeCustom1
  dsimp only
  split
  · exact decodeCustom1_0_faithful f7 b a d
  · exact decodeLoop_faithful f7 b a d
  · exact decodeCustom1_2_faithful f7 b a d
  · exact decodeCustom1_3_faithful f7 b a d
  · exact decodeCustom1_4_faithful f7 b a d
  · exact decodeCustom1_5_faithful f7 b a d
  · exact decodeCustom1_6_faithful f7 b a d
  · exact .error _

theorem decodeCustom2_faithful : Faithful ⟨f7, b, a, f3, d, 0x5B⟩ (decodeCustom2 ⟨f7, b, a, f3, d, 0x5B⟩) := by
  unfold decodeCustom2
  dsimp only
  split
  · exact decodeCustom2_0_faithful f7 b a d
  · exact decodeCustom2_1_faithful f7 b a d
  · exact decodeCustom2_2_faithful f7 b a d
  · exact decodeCustom2_3_faithful f7 b a d
  · exact decodeCustom2_4_faithful f7 b a d
  · exact decodeCustom2_5_faithful f7 b a d
  · exact decodeCustom2_6_faithful f7 b a d
  · obtain rfl : f3 = 7#3 := funct3_last (by simp; tauto)
    exact decodeCustom2_7_faithful f7 b a d

theorem decodeCustom3_faithful : Faithful ⟨f7, b, a, f3, d, 0x7B⟩ (decodeCustom3 ⟨f7, b, a, f3, d, 0x7B⟩) := by
  unfold decodeCustom3
  dsimp only
  split
  · exact decodeCustom3_0_faithful f7 b a d
  · exact decodeCustom3_1_faithful f7 b a d
  · exact decodeCustom3_2_faithful f7 b a d
  · exact decodeCustom3_3_faithful f7 b a d
  · exact decodeCustom3_7_faithful f7 b a d
  · exact .error _

end

theorem decodeFields_faithful (f : Fields) : Faithful f (decodeFields f) := by
  obtain ⟨f7, b, a, f3, d, op⟩ := f
  unfold decodeFields
  dsimp only
  split
  · exact decodeLoad_faithful f7 b a d f3 rfl
  · exact decodeLoad_faithful f7 b a d f3 rfl
  · exact decodeCustom0_faithful f7 b a d f3
  · exact decodeMisc_faithful f7 b a d f3
  · exact decodeOpImm_faithful f7 b a d f3
  · exact auipc_faithful f7 b a d f3
  · exact decodeOpImm32_faithful f7 b a d f3
  · exact decodeStore_faithful f7 b a d f3 rfl
  · exact decodeStore_faithful f7 b a d f3 rfl
  · exact decodeCustom1_faithful f7 b a d f3
  · exact decodeAmo_faithful f7 b a d f3
  · exact decodeOp_faithful f7 b a d f3
  · exact lui_faithful f7 b a d f3
  · exact decodeOp32_faithful f7 b a d f3
  · exact decodeFma_faithful f7 b a d f3 rfl
  · exact decodeFma_faithful f7 b a d f3 rfl
  · exact decodeFma_faithful f7 b a d f3 rfl
  · exact decodeFma_faithful f7 b a d f3 rfl
  · exact decodeFp_faithful f7 b a d f3
  · exact decodeCustom2_faithful f7 b a d f3
  · exact decodeBranch_faithful f7 b a d f3
  · exact jalr_faithful f7 b a d f3
  · exact jal_faithful f7 b a d f3
  · exact decodeSystem_faithful f7 b a d f3
  · exact decodeCustom3_faithful f7 b a d f3
  · exact .ite (fun _ => .ite (fun _ => .error _) fun _ => .error _) fun _ => .error _

/-- Settles O3: `decodeFields_faithful` for the word's fields, and a word is its fields joined. -/
theorem encodeAfterDecode : Obligations.EncodeAfterDecode := by
  intro w i h
  obtain ⟨hwf, hf⟩ := decodeFields_faithful (split w) i h
  refine ⟨hwf, ?_⟩
  rw [encode, hf, Option.map_some, join_split]

end Sys2Proof
end


-- ==== Sys2Proof/Proofs/Encoding/Words.lean ====
section
/-! Words that are instructions and words that are none: the opcodes of R61, what a word that is none does, and the illegal instructions by mode
and by context. Settles O1 and O25. -/

namespace Sys2Proof.Machine

/-- Settles O1: the decoder evaluates each word. -/
theorem knownWordsDecode : Obligations.KnownWordsDecode := by
  unfold Obligations.KnownWordsDecode
  exact ⟨rfl, rfl, rfl, rfl, rfl, rfl, rfl, rfl, rfl, rfl⟩

theorem exec_tresume_user {s : State} (h : s.me.priv = .u) (a : Reg) : exec (.tresume a) s = .next (s.raise 2 (wordOf (.tresume a))) := by
  show execTresume a s = _
  rw [execTresume, State.entryNamed, if_pos h, State.done_illegal]

theorem exec_tkill_user {s : State} (h : s.me.priv = .u) (a : Reg) : exec (.tkill a) s = .next (s.raise 2 (wordOf (.tkill a))) := by
  show execTkill a s = _
  rw [execTkill, State.entryNamed, if_pos h, State.done_illegal]

theorem exec_qsfence_user {s : State} (h : s.me.priv = .u) (ic : Bool) (sc : BitVec 3) (a b : Reg) :
    exec (.qsfence ic sc a b) s = .next (s.raise 2 (wordOf (.qsfence ic sc a b))) := by
  show execQsfence ic sc a b s = _
  rw [execQsfence, if_pos h, State.done_illegal]

theorem exec_pgmig_user {s : State} (h : s.me.priv = .u) (d a b : Reg) :
    exec (.pgmig d a b) s = .next (s.raise 2 (wordOf (.pgmig d a b))) := by
  show execPgmig d a b s = _
  rw [execPgmig, if_pos h, State.done_illegal]

theorem exec_sfenceVma_illegal {s : State} (h : s.me.priv = .u ∨ (s.me.priv = .s ∧ s.me.mstatus.getLsbD 20 = true)) (a b : Reg) :
    exec (.sfenceVma a b) s = .next (s.raise 2 (wordOf (.sfenceVma a b))) := by
  have hi : (s.me.priv = .u || (s.me.priv = .s && bit s.me.mstatus 20)) = true := by simpa [bit] using h
  show execSfenceVma a b s = _
  rw [execSfenceVma, if_pos hi, State.done_illegal]

theorem exec_hstart_helper {s : State} (h : ctxNum s.cur ≠ 0) (d a b : Reg) :
    exec (.hstart d a b) s = .next (s.raise 2 (wordOf (.hstart d a b))) := by
  show execHstart d a b s = _
  rw [execHstart, if_pos h, State.done_illegal]

theorem exec_evpop_helper {s : State} (h : ctxNum s.cur ≠ 0) (d a : Reg) :
    exec (.evpop d a) s = .next (s.raise 2 (wordOf (.evpop d a))) := by
  show execEvpop d a s = _
  rw [execEvpop, if_pos h, State.done_illegal]

theorem exec_evwait_helper {s : State} (h : ctxNum s.cur ≠ 0) (d a : Reg) :
    exec (.evwait d a) s = .next (s.raise 2 (wordOf (.evwait d a))) := by
  show execEvwait d a s = _
  rw [execEvwait, if_pos h, State.done_illegal]

theorem exec_accF_compare {s : State} (h : s.replay.cmp = true) (a b : Reg) :
    exec (.accF a b) s = .next (s.raise 2 (wordOf (.accF a b))) := by
  show execAccF a b s = _
  rw [execAccF, if_pos h, State.done_illegal]

theorem exec_illegalInstructionWord (w : BitVec 32) (s : State) : exec (.illegalInstructionWord w) s = .next (s.raise 2 (w.setWidth 64)) := rfl

theorem decodeWord_of_undecodable {w : BitVec 32} (h : ∀ i, decode w ≠ .ok i) : decodeWord w = .illegalInstructionWord w := by
  unfold decodeWord
  split
  · rename_i i hi
    exact absurd hi (h i)
  · rfl

/-- An opcode that the decoder answers to ends in 11, and its bits [4:2] are not 111 (R61). -/
theorem decodeFields_opcode {f : Fields} {i : Instr} (h : decodeFields f = .ok i) : f.op.extractLsb' 0 2 = 3 ∧ f.op.extractLsb' 2 3 ≠ 7 := by
  unfold decodeFields at h
  split at h
  case h_26 =>
    split_ifs at h
  all_goals
    rename_i hop
    rw [hop]
    decide

theorem decode_opcode {w : BitVec 32} {i : Instr} (h : decode w = .ok i) : w.extractLsb' 0 2 = 3 ∧ w.extractLsb' 2 3 ≠ 7 := by
  have hf := decodeFields_opcode h
  have h0 : (split w).op.extractLsb' 0 2 = w.extractLsb' 0 2 := by simp [split]
  have h2 : (split w).op.extractLsb' 2 3 = w.extractLsb' 2 3 := by simp [split]
  rwa [h0, h2] at hf

/-- Settles O25: each check stands first in its meaning, and a word with such an opcode has no row in the decoder. -/
theorem illegalInstructions : Obligations.IllegalInstructions := by
  unfold Obligations.IllegalInstructions
  have hu : ∀ w : BitVec 32, w.extractLsb' 0 2 ≠ 3 ∨ w.extractLsb' 2 3 = 7 → ∀ i, decode w ≠ .ok i := by
    intro w hw i hi
    obtain ⟨h3, h7⟩ := decode_opcode hi
    exact hw.elim (absurd h3) (absurd · h7)
  refine ⟨fun s => ⟨?_, fun h ht => exec_sfenceVma_illegal (.inr ⟨h, ht⟩), ?_, exec_accF_compare⟩, ?_,
    exec_illegalInstructionWord, hu, ?_, ?_⟩
  · intro h
    exact ⟨exec_sfenceVma_illegal (.inl h), exec_qsfence_user h, exec_pgmig_user h, exec_tresume_user h, exec_tkill_user h⟩
  · intro h
    exact ⟨exec_hstart_helper h, exec_evpop_helper h, exec_evwait_helper h⟩
  · intro w s hw
    rw [decodeWord_of_undecodable hw, exec_illegalInstructionWord]
  · exact hu _ (.inl (by decide))
  · exact hu _ (.inr (by decide))

end Sys2Proof.Machine
end

