-- ==== Sys2Proof/Proofs/Scalar/StepNext.lean ====
section
/-! Every step answers a next state: every meaning does, and so does each turn of the scheduler. Settles O5. -/

namespace Sys2Proof.Machine

/-- Every meaning answers a next state: each ends through `done`, PGMIG in either of its cases. -/
theorem exec_next (s : State) (i : Instr) : ∃ t, exec i s = .next t := by
  cases i with
  | pgmig rd rs1 rs2 =>
    show ∃ t, execPgmig rd rs1 rs2 s = .next t
    unfold execPgmig
    split
    · exact State.done_next ..
    · exact State.done_next ..
  | _ => exact ⟨_, rfl⟩

theorem issueTurn_exec_next (s u : State) (i j : Instr) : ∃ t, s.issueTurn i (exec j u) = .next t := by
  obtain ⟨v, hv⟩ := exec_next u j
  rw [hv]
  exact issueTurn_next ..

theorem goAway_exec_next (s u : State) (i j : Instr) : ∃ t, s.goAway i (exec j u) = .next t := by
  obtain ⟨v, hv⟩ := exec_next u j
  rw [hv]
  exact goAway_next ..

/-- The turns of `select` in order: none, an event, an issue, a context that may leave, and one that retires. -/
theorem step_next (s : State) : ∃ t, step s = .next t := by
  unfold step
  split
  · exact ⟨_, rfl⟩
  · split
    · exact exec_next ..
    · exact ⟨_, rfl⟩
  · split
    · exact issueTurn_exec_next ..
    · exact ⟨_, rfl⟩
  · split
    · split
      · exact issueTurn_exec_next ..
      · exact goAway_exec_next ..
    · exact ⟨_, rfl⟩
  · split
    · exact issueTurn_exec_next ..
    · exact exec_next ..

/-- Settles O5, by the turns of the scheduler. -/
theorem stepAlwaysGoesOn : Obligations.StepAlwaysGoesOn := step_next

end Sys2Proof.Machine
end

