-- ==== Sys2Proof/Proofs/Scalar/Loads.lean ====
section
/-! Scalar loads and LDO once their checks are over, and where they end before. Settles O9. -/

namespace Sys2Proof.Machine

/-- What an integer load does after its checks. -/
theorem exec_load_int {s u : State} {x : Xlat} {k : LoadKind} {rs1 : Reg} {imm : BitVec 12} (rd : Reg) (hk : loadIsF k = false)
    (h : s.loadCheck (s.xr rs1 + imm.signExtend 64) (loadWidth k) = .ok (u, x)) :
    exec (.load k rd rs1 imm) s = .next
      ((u.scalarRead x (loadWidth k)).1.setXr rd (extendLoad (loadWidth k) (u.scalarRead x (loadWidth k)).2 (loadSigned k))).retire := by
  show execLoad k rd rs1 imm s = _
  simp [execLoad, imm12, hk, h, except_bind]

/-- What a load into an f register does after its checks. -/
theorem exec_load_fp {s u : State} {x : Xlat} {k : LoadKind} {rs1 : Reg} {imm : BitVec 12} (rd : Reg) (hk : loadIsF k = true)
    (hf : s.me.fsOff = false) (h : s.loadCheck (s.xr rs1 + imm.signExtend 64) (loadWidth k) = .ok (u, x)) :
    exec (.load k rd rs1 imm) s = .next (State.retire
      ((u.scalarRead x (loadWidth k)).1.modCtx (u.scalarRead x (loadWidth k)).1.cur fun c =>
        c.putF rd (if k = .fld then word (u.scalarRead x (loadWidth k)).2 else box32 (u.scalarRead x (loadWidth k)).2))) := by
  show execLoad k rd rs1 imm s = _
  simp [execLoad, imm12, hk, hf, h, except_bind]

theorem exec_load_fsOff {s : State} {k : LoadKind} (rd rs1 : Reg) (imm : BitVec 12) (hk : loadIsF k = true) (hf : s.me.fsOff = true) :
    exec (.load k rd rs1 imm) s = .next (s.raise 2 (wordOf (.load k rd rs1 imm))) := by
  show execLoad k rd rs1 imm s = _
  simp [execLoad, hk, hf]

/-- An access that crosses a line ends in cause 4 before its translation. -/
theorem loadCheck_crossing {s : State} {va : Word} {n : Nat} (h : 128 < va.toNat % 128 + n) : s.loadCheck va n = trap 4 va := by
  have ha : alignedOk va n = false := by simpa [alignedOk] using h
  simp [State.loadCheck, need, ha, trap, except_bind]

theorem exec_load_refused {s : State} {k : LoadKind} (rd : Reg) {rs1 : Reg} {imm : BitVec 12} {c : Nat} {v : Word}
    (hf : loadIsF k = true → s.me.fsOff = false) (h : s.loadCheck (s.xr rs1 + imm.signExtend 64) (loadWidth k) = trap c v) :
    exec (.load k rd rs1 imm) s = .next (s.raise c v) := by
  have hb : (loadIsF k && s.me.fsOff) = false := by simpa using hf
  show execLoad k rd rs1 imm s = _
  simp [execLoad, imm12, hb, h, trap, except_bind]

theorem exec_ldo {s u : State} {x : Xlat} {rs1 : Reg} {w : BitVec 2} (rd : Reg) (sc : BitVec 3) (o : BitVec 2)
    (h : s.loadCheck (s.xr rs1) (2 ^ w.toNat) = .ok (u, x)) :
    exec (.ldo rd rs1 sc o w) s = .next
      ((u.scalarRead x (2 ^ w.toNat)).1.setXr rd (extendLoad (2 ^ w.toNat) (u.scalarRead x (2 ^ w.toNat)).2 true)).retire := by
  show execLdo rd rs1 sc o w s = _
  simp [execLdo, h, except_bind]

/-- Settles O9: the bytes read go where the form says, and a check that fails ends the load. -/
theorem loadsComplete : Obligations.LoadsComplete := by
  unfold Obligations.LoadsComplete
  refine ⟨?_, ?_, fun _ _ => exec_load_fsOff, ?_, fun s k rd rs1 imm hf hx => exec_load_refused rd hf (loadCheck_crossing hx)⟩
  · intro s u x k rd rs1 imm hk h
    exact ⟨_, exec_load_int rd hk h, completed_retire _⟩
  · intro s u x rd rs1 imm dbl hf h
    cases dbl with
    | false => exact ⟨_, _, _, rfl, exec_load_fp (k := .flw) rd rfl hf h, completed_retire _⟩
    | true => exact ⟨_, _, _, rfl, exec_load_fp (k := .fld) rd rfl hf h, completed_retire _⟩
  · intro s u x rd rs1 sc o w h
    exact ⟨_, exec_ldo rd sc o h, completed_retire _⟩

end Sys2Proof.Machine
end

