-- ==== Sys2Proof/Proofs/Scalar/Hints.lean ====
section
/-! Hints: completion is of the state up to how its issuing context is stored, so that a write of x0 is none. Settles O56. -/

namespace Sys2Proof.Machine

theorem OnlyCtx.trans {s t u : State} {cid : Nat} (h : OnlyCtx s t cid) (k : OnlyCtx t u cid) : OnlyCtx s u cid := by
  obtain ⟨ht, hc⟩ := h
  obtain ⟨hu, hd⟩ := k
  refine ⟨?_, fun j hj => (hd j hj).trans (hc j hj)⟩
  rw [ht] at hu
  exact hu

/-- Completion is of the state up to how its issuing context is stored. -/
theorem Completed.of_same_me {s u t : State} (ho : OnlyCtx s u s.cur) (hm : u.me = s.me) (h : Completed u t) : Completed s t := by
  obtain ⟨hc, hf, hg⟩ := h
  have hcur : u.cur = s.cur := by rw [ho.1]
  rw [hcur] at hc
  rw [hm] at hf hg
  exact ⟨ho.trans hc, hf, hg⟩

theorem intValue_dest (s : State) (op : IntOp) : (s.intValue op).1 = intDest op := by cases op <;> rfl

theorem exec_integerArithmetic (s : State) (op : IntOp) :
    exec (.integerArithmetic op) s = .next (s.setXr (intDest op) (s.intValue op).2).retire := by
  show execIntegerArithmetic op s = _
  rw [← intValue_dest s op]
  rfl

/-- Completion changes neither mode, trap registers nor memory. -/
theorem Completed.no_trap {s t : State} (h : Completed s t) :
    t.me.priv = s.me.priv ∧ t.me.scause = s.me.scause ∧ t.me.mcause = s.me.mcause ∧ t.mem = s.mem := by
  obtain ⟨⟨ht, -⟩, hf, -⟩ := h
  rw [hf, ht]
  exact ⟨rfl, rfl, rfl, rfl⟩

theorem setXr_zero_completed {s t : State} {v : Word} (h : Completed (s.setXr 0 v) t) : Completed s t :=
  h.of_same_me (onlyCtx_setXr s 0 v) (State.me_setXr s 0 v)

/-- Settles O56: a write of x0 and a fence that waits for nothing leave the state as it is, but for the completion. -/
theorem hintsDoNothing : Obligations.HintsDoNothing := by
  unfold Obligations.HintsDoNothing
  refine ⟨?_, ?_⟩
  · intro s op hd
    have h : Completed s (s.setXr (intDest op) (s.intValue op).2).retire := by
      rw [hd]
      exact setXr_zero_completed (completed_retire _)
    exact ⟨_, exec_integerArithmetic s op, h, h.no_trap⟩
  · intro s fm pr su rd rs1 hint
    obtain ⟨t, hx, h⟩ := exec_fence s fm pr su rd rs1
    have hn : ¬ ((pr.getLsbD 0 = true ∨ pr.getLsbD 2 = true) ∧ su ≠ 0) := by
      rintro ⟨hp, hsu⟩
      obtain ⟨h0, h2⟩ | h0 := hint
      · simp only [h0, h2, Bool.false_eq_true, or_self] at hp
      · exact hsu h0
    rw [if_neg hn] at h
    obtain ⟨hp, hs, -, hm⟩ := h.no_trap
    exact ⟨t, hx, h, hp, hs, hm⟩

end Sys2Proof.Machine
end

