-- ==== Sys2Proof/Proofs/Scalar/EnvironmentCalls.lean ====
section
/-! ECALL and EBREAK: the entry of the S-mode handler from U mode, and the halt of a context that a debugger has claimed. Settles O23. -/

namespace Sys2Proof.Machine

theorem exec_ecall (s : State) :
    exec .ecall s = .next (s.raise (if s.me.priv = .u then 8 else if s.me.priv = .s then 9 else 11) 0) := by
  show execEcall s = _
  rw [execEcall, State.done_trap]
  cases s.me.priv <;> rfl

/-- An exception of U mode that is delegated, handled and has a handler enters it. -/
theorem me_raise_handled {s : State} {cause : Nat} {v : Word} (hu : s.me.priv = .u) (hm : s.me.medeleg.getLsbD cause = true)
    (hv : s.me.stvec ≠ 0) (hd : s.me.disposition cause = 0) :
    (s.raise cause v).me = s.me.trapped.enterS cause (s.shownTval cause v) := by
  have hg : (s.ctx s.cur).trapped.goesToM cause = false := by
    show (decide (s.me.priv = .m) || !s.me.medeleg.getLsbD cause) = false
    rw [hu, hm]; rfl
  have ha : (if (s.ctx s.cur).trapped.priv = .u then (s.ctx s.cur).trapped.disposition cause else 0) = 0 := by
    have : (s.ctx s.cur).trapped.disposition cause = 0 := hd
    simp [this]
  have hs : ¬ (s.ctx s.cur).trapped.stvec = 0 := hv
  rw [State.raise, State.raiseCtx]
  simp only [hg, ha, hs]
  simp [State.me]

theorem exec_ebreak (s : State) (h : s.me.claimed = false) : exec .ebreak s = .next (s.raise 3 s.me.pc) := by
  show execEbreak s = _
  rw [execEbreak, h]
  rfl

/-- A context with its open packet discarded. -/
def Ctx.packetDropped (c : Ctx) : Ctx := { c with packet := none }

/-- A context as a debugger's halt leaves it. -/
def Ctx.debugHalted (c : Ctx) : Ctx :=
  { c with status := .frozen, haltReq := false, stepReq := false, wait := none, wake := none, request := none }

/-- A match halts a context that has no open packet where it stands, and HITCTX and HIT name it (R373). -/
theorem haltHit_closed {s : State} {cid : Nat} (h : (s.ctx cid).packet = none) :
    (s.haltHit cid).ctx cid = (s.ctx cid).debugHalted ∧
    ((s.haltHit cid).die (dieOf cid)).hit = true ∧ ((s.haltHit cid).die (dieOf cid)).hitctx = BitVec.ofNat 17 (s.reportCtx cid) ∧
    (s.haltHit cid).mem = s.mem ∧ (s.haltHit cid).cur = s.cur := by
  have hp : ¬ (s.ctx cid).packet.isSome := by simp [h]
  simp only [State.haltHit, if_neg hp, State.die_modDie_self, true_and]
  exact ⟨State.ctx_modCtx_self (s.commandEnds cid) cid Ctx.debugHalted, rfl, rfl, rfl⟩

theorem exec_ebreak_claimed (s : State) (h : s.me.claimed = true) :
    exec .ebreak s = .next ((s.modCtx s.cur Ctx.packetDropped).haltHit s.cur) := by
  show execEbreak s = _
  rw [execEbreak, h]
  rfl

/-- Settles O23: the cause by the mode, the entry of the handler, and the halt with its packet discarded. -/
theorem environmentCalls : Obligations.EnvironmentCalls := by
  unfold Obligations.EnvironmentCalls
  refine ⟨exec_ecall, ?_, exec_ebreak, ?_⟩
  · intro s hu hm hv hq
    have hd : s.me.disposition 8 = 0 := by
      have := congrArg BitVec.toNat hq
      simpa [Ctx.disposition, bits, BitVec.extractLsb'_toNat] using this
    have he := exec_ecall s
    rw [if_pos hu] at he
    refine ⟨_, he, ?_⟩
    rw [me_raise_handled hu hm hv hd]
    refine ⟨rfl, rfl, rfl, rfl, ?_⟩
    simp [Ctx.enterS, State.shownTval]
  · intro s h
    refine ⟨_, exec_ebreak_claimed s h, ?_⟩
    have hc : (s.modCtx s.cur Ctx.packetDropped).ctx s.cur = s.me.packetDropped := State.ctx_modCtx_self ..
    obtain ⟨hme, hhit, hctx, hmem, hcur⟩ := haltHit_closed (congrArg Ctx.packet hc)
    rw [hc] at hme
    rw [State.me, hcur, State.modCtx_cur, hme]
    exact ⟨rfl, rfl, rfl, rfl, hhit, hctx, hmem⟩

end Sys2Proof.Machine
end

