-- ==== Sys2Proof/Proofs/Scalar/CsrAccesses.lean ====
section
/-! CSR_ACCESS: when an access is legal, and what it does then; minstret, whose write takes the place of the instruction's own count.
Settles O15. -/

namespace Sys2Proof.Machine

theorem bitVec_toNat_eq_iff {n a : Nat} (x : BitVec n) (h : a < 2 ^ n) : x.toNat = a ↔ x = BitVec.ofNat n a := by
  rw [← BitVec.toNat_inj, BitVec.toNat_ofNat, Nat.mod_eq_of_lt h]

theorem settleQvstat_toNat (s : State) (cid : Nat) (csr : BitVec 12) :
    s.settleQvstat cid csr.toNat = if csr = 0x805 then s.drainVector cid drainFuel else s := by
  simp only [State.settleQvstat, bitVec_toNat_eq_iff csr (a := 0x805) (by decide)]
  rfl

/-- Whether a CSR instruction writes (R74). -/
def csrWrites (op : CsrOp) (src : Reg) : Bool := op == .rw || src != 0

theorem csrWrites_iff (op : CsrOp) (src : Reg) : csrWrites op src = true ↔ op = .rw ∨ src ≠ 0 := by simp [csrWrites]

theorem exec_csrAccess_illegal {s : State} {op : CsrOp} {src : Reg} {csr : BitVec 12} (isImm : Bool) (rd : Reg)
    (h : s.csrLegal s.cur csr.toNat (csrWrites op src) = false) :
    exec (.csrAccess op isImm rd src csr) s = .next (s.raise 2 (wordOf (.csrAccess op isImm rd src csr))) := by
  show execCsrAccess op isImm rd src csr s = _
  rw [csrWrites] at h
  simp only [execCsrAccess, h, Bool.not_false, if_true, State.done_illegal]

/-- A legal access: `w` is the state in which the CSR is read, `old` what it reads as, and `new` the value for the CSR. -/
theorem exec_csrAccess_legal {s w : State} {op : CsrOp} {isImm : Bool} {src : Reg} {csr : BitVec 12} {old v new : Word} (rd : Reg)
    (h : s.csrLegal s.cur csr.toNat (csrWrites op src) = true) (hw : w = s.settleQvstat s.cur csr.toNat)
    (ho : w.csrRead w.cur csr.toNat = some old) (hv : v = if isImm then src.setWidth 64 else w.xr src) (hn : new = csrNew op old v) :
    exec (.csrAccess op isImm rd src csr) s = .next (((if csrWrites op src then w.csrWrite w.cur csr.toNat
      (if csr.toNat = 0xB02 && !w.me.mcountinhibit.getLsbD 2 then new - 1 else new) else w).setXr rd old).retire) := by
  subst hn hv hw
  show execCsrAccess op isImm rd src csr s = _
  rw [csrWrites] at h
  simp only [execCsrAccess, h, Bool.not_true, Bool.false_eq_true, if_false, State.done_ok, ho, Option.getD_some]
  rfl

theorem csrLegal_mode {s : State} {cid : Nat} {csr : BitVec 12} (writes : Bool) (h : (s.ctx cid).priv.code < (csr.extractLsb' 8 2).toNat) :
    s.csrLegal cid csr.toNat writes = false := by
  rw [BitVec.extractLsb'_toNat] at h
  have hm : decide (csr.toNat >>> 8 % 4 ≤ (s.ctx cid).priv.code) = false := decide_eq_false (Nat.not_le.2 h)
  simp [State.csrLegal, hm]

theorem csrLegal_readOnly {s : State} {cid : Nat} {csr : BitVec 12} (h : csr.extractLsb' 10 2 = 3) : s.csrLegal cid csr.toNat true = false := by
  have h3 : csr.toNat >>> 10 = 3 := by
    have := congrArg BitVec.toNat h
    rwa [BitVec.extractLsb'_toNat, Nat.mod_eq_of_lt (by have := csr.isLt; omega)] at this
  simp [State.csrLegal, h3]

theorem csrLegal_none {s : State} {cid a : Nat} (writes : Bool) (h : s.csrRead cid a = none) : s.csrLegal cid a writes = false := by
  simp [State.csrLegal, h]

theorem csrLegal_fsOff {s : State} {cid a : Nat} (writes : Bool) (hf : (s.ctx cid).fsOff = true) (h : a = 1 ∨ a = 2 ∨ a = 3) :
    s.csrLegal cid a writes = false := by
  have ha : (a = 1 || a = 2 || a = 3) = true := by simpa [or_assoc] using h
  simp [State.csrLegal, hf, ha]

/-- M mode reaches minstret, which is written as it is read. -/
theorem csrLegal_minstret {s : State} (writes : Bool) (h : s.me.priv = .m) : s.csrLegal s.cur 0xB02 writes = true := by
  have hp : (s.ctx s.cur).priv = .m := h
  have hr : s.csrRead s.cur 0xB02 = some s.me.instret := rfl
  simp [State.csrLegal, hr, hp, Priv.code, Ctx.counterOk]

theorem Ctx.setX_frame (c : Ctx) (r : Reg) (v : Word) : c.setX r v = { c with x := (c.setX r v).x } := by
  unfold Ctx.setX
  split <;> rfl

theorem Ctx.instret_setX (c : Ctx) (r : Reg) (v : Word) : (c.setX r v).instret = c.instret := by rw [Ctx.setX_frame]
theorem Ctx.mcountinhibit_setX (c : Ctx) (r : Reg) (v : Word) : (c.setX r v).mcountinhibit = c.mcountinhibit := by rw [Ctx.setX_frame]

theorem xr_of_completed {u t : State} (h : Completed u t) (r : Reg) : t.xr r = u.xr r := by
  obtain ⟨-, hf, -⟩ := h
  unfold State.xr
  rw [hf]
  rfl

/-- The count of an instruction takes the place of what a write of minstret held back (R103). -/
theorem counted_after_write (v : Word) (stopped : Bool) :
    (if stopped then (if !stopped then v - 1 else v) else (if !stopped then v - 1 else v) + 1) = v := by
  cases stopped
  · exact BitVec.sub_add_cancel v 1
  · rfl

theorem State.xr_setXr_self {s : State} {r : Reg} (v : Word) (h : r ≠ 0) : (s.setXr r v).xr r = v := by
  rw [State.xr, State.me_setXr, Ctx.getX_setX]
  exact if_pos ⟨rfl, h⟩

theorem me_csrWrite_minstret (s : State) (v : Word) : (s.csrWrite s.cur 0xB02 v).me = { s.me with instret := v } :=
  State.me_modCtx s fun c => { c with instret := v }

/-- minstret as an instruction that reads it, and writes it where it writes, leaves it. -/
theorem exec_minstret {s : State} {op : CsrOp} {isImm : Bool} {rd src : Reg} {v : Word} (hm : s.me.priv = .m)
    (hv : v = if isImm then src.setWidth 64 else s.xr src) : ∃ t, exec (.csrAccess op isImm rd src 0xB02) s = .next t ∧
      (rd ≠ 0 → t.xr rd = s.me.instret) ∧ t.me.instret = if csrWrites op src then csrNew op s.me.instret v else
        if s.me.mcountinhibit.getLsbD 2 then s.me.instret else s.me.instret + 1 := by
  have hx := exec_csrAccess_legal (csr := 0xB02) (old := s.me.instret) rd (csrLegal_minstret (csrWrites op src) hm) rfl rfl hv rfl
  have hc := completed_retire ((if csrWrites op src then s.csrWrite s.cur 0xB02
    (if !s.me.mcountinhibit.getLsbD 2 then csrNew op s.me.instret v - 1 else csrNew op s.me.instret v) else s).setXr rd s.me.instret)
  obtain ⟨-, -, hi, -⟩ := id hc
  rw [State.me_setXr, Ctx.mcountinhibit_setX, Ctx.instret_setX] at hi
  refine ⟨_, hx, fun h => (xr_of_completed hc rd).trans (State.xr_setXr_self _ h), hi.trans ?_⟩
  by_cases hw : csrWrites op src = true
  · simp only [hw, if_true, me_csrWrite_minstret, counted_after_write]
  · simp only [hw, Bool.false_eq_true, if_false]

/-- Settles O15: a legal access by what it reads and writes, minstret by the count it takes the place of, and each illegal access by `csrLegal`. -/
theorem csrAccesses : Obligations.CsrAccesses := by
  unfold Obligations.CsrAccesses
  refine ⟨?_, ?_, ?_⟩
  · intro s w op isImm rd src csr old v new h hw ho hv hn hb02
    rw [← settleQvstat_toNat] at hw
    have hb : ¬ csr.toNat = 0xB02 := by
      rw [bitVec_toNat_eq_iff csr (by decide)]
      exact hb02
    have hx := exec_csrAccess_legal rd h hw ho hv hn
    simp only [hb, decide_false, Bool.false_and, Bool.false_eq_true, if_false, csrWrites_iff] at hx
    exact ⟨_, hx, completed_retire _⟩
  · intro s op isImm rd src v hm hv
    obtain ⟨t, hx, hrd, hi⟩ := exec_minstret (op := op) (rd := rd) hm hv
    refine ⟨t, hx, hrd, ?_, ?_, ?_, ?_⟩
    · rintro rfl
      exact hi
    · rintro hs rfl
      rwa [if_pos ((csrWrites_iff _ _).2 (.inr hs))] at hi
    · rintro hs rfl
      rwa [if_pos ((csrWrites_iff _ _).2 (.inr hs))] at hi
    · intro hs ho
      rwa [if_neg (by simp [csrWrites_iff, hs, ho])] at hi
  · intro s op isImm rd src csr h
    refine exec_csrAccess_illegal isImm rd ?_
    obtain h | ⟨h, hw⟩ | h | ⟨hf, h⟩ := h
    · exact csrLegal_mode _ h
    · rw [(csrWrites_iff op src).2 hw]
      exact csrLegal_readOnly h
    · exact csrLegal_none _ h
    · refine csrLegal_fsOff _ hf ?_
      obtain rfl | rfl | rfl := h
      · exact .inl rfl
      · exact .inr (.inl rfl)
      · exact .inr (.inr rfl)

end Sys2Proof.Machine
end

