-- ==== Sys2Proof/Proofs/Scalar/FloatingPoint.lean ====
section
/-! The scalar F and D instructions that access no memory: when they have a result, what completing with it does, and the bits of moves and sign
injections. Settles O17 and O18. -/

namespace Sys2Proof.Machine

theorem Ctx.putF_orFflags (c : Ctx) (rd : Reg) (v : Word) (fl : Flags) : (c.putF rd v).orFflags fl =
    { c.setF rd v with fflags := c.fflags ||| fl.setWidth 5, mstatus := c.mstatus ||| 0x6000#64 } := by
  unfold Ctx.orFflags Ctx.putF Ctx.setF
  split_ifs with h
  · simp [h]
  · simp [BitVec.or_assoc]

theorem Ctx.setX_orFflags (c : Ctx) (rd : Reg) (v : Word) (fl : Flags) : (c.setX rd v).orFflags fl =
    { c.setX rd v with fflags := c.fflags ||| fl.setWidth 5, mstatus := if fl = 0 then c.mstatus else c.mstatus ||| 0x6000#64 } := by
  have hf : (c.setX rd v).fflags = c.fflags ∧ (c.setX rd v).mstatus = c.mstatus := by
    unfold Ctx.setX; split <;> exact ⟨rfl, rfl⟩
  obtain ⟨hf, hm⟩ := hf
  unfold Ctx.orFflags
  split_ifs with h
  · simp [h, ← hf, ← hm]
  · rw [hf, hm]

theorem exec_fp_f {s : State} {op : FpOp} {rd : Reg} {v : Word} {fl : Flags} (hf : s.me.fsOff = false)
    (h : s.me.fpResult op = some (.f rd v fl)) :
    exec (.fpArithmetic op) s = .next (s.modCtx s.cur fun c => (c.putF rd v).orFflags fl).retire := by
  show execFpArithmetic op s = _
  simp [execFpArithmetic, hf, h]

theorem exec_fp_x {s : State} {op : FpOp} {rd : Reg} {v : Word} {fl : Flags} (hf : s.me.fsOff = false)
    (h : s.me.fpResult op = some (.x rd v fl)) :
    exec (.fpArithmetic op) s = .next (s.modCtx s.cur fun c => (c.setX rd v).orFflags fl).retire := by
  show execFpArithmetic op s = _
  simp [execFpArithmetic, hf, h]

theorem exec_fp_illegal {s : State} {op : FpOp} (h : s.me.fsOff = true ∨ s.me.fpResult op = none) :
    exec (.fpArithmetic op) s = .next (s.raise 2 (wordOf (.fpArithmetic op))) := by
  show execFpArithmetic op s = _
  rw [execFpArithmetic]
  split_ifs with hf
  · rw [State.done_illegal]
  · rw [h.resolve_left hf, State.done_illegal]

/-- A rounding mode that names frm is frm. -/
theorem rmMode_dynamic (frm : BitVec 3) : rmMode 7 frm = if frm.toNat < 5 then some (rmOf frm.toNat) else none := rfl

theorem rmMode_static {r : BitVec 3} (frm : BitVec 3) (h : r.toNat < 5) : rmMode r frm = some (rmOf r.toNat) := by
  have h7 : r ≠ 7 := by rintro rfl; exact absurd h (by decide)
  rw [rmMode, if_neg h7]
  exact if_pos h

/-- A result is there exactly where the rounding mode, of an instruction that has one, is valid (R87). -/
theorem Ctx.fpResult_isSome (c : Ctx) (op : FpOp) : (c.fpResult op).isSome = (op.rm.all fun r => (rmMode r c.frm).isSome) := by
  cases op <;> simp [Ctx.fpResult, FpOp.rm]

/-- Settles O17: there is a result exactly where the rounding mode is valid, and it is written with its flags. -/
theorem floatingPointCompletes : Obligations.FloatingPointCompletes := by
  unfold Obligations.FloatingPointCompletes
  refine ⟨?_, ?_, fun s op h => exec_fp_illegal (.inl h), ?_, ?_⟩
  · intro s op rd v fl hf h
    have hc := completed_retire (s.modCtx s.cur fun c => (c.putF rd v).orFflags fl)
    refine ⟨_, exec_fp_f hf h, rfl, ?_⟩
    simp only [Ctx.putF_orFflags] at hc ⊢
    exact hc
  · intro s op rd v fl hf h
    have hc := completed_retire (s.modCtx s.cur fun c => (c.setX rd v).orFflags fl)
    refine ⟨_, exec_fp_x hf h, rfl, ?_⟩
    simp only [Ctx.setX_orFflags] at hc ⊢
    exact hc
  · intro s op _ hrm hfrm
    refine exec_fp_illegal (.inr ?_)
    rw [← Option.not_isSome_iff_eq_none, Ctx.fpResult_isSome, hrm, Option.all_some, rmMode_dynamic, if_neg (by omega)]
    decide
  · intro s op h
    rw [Ctx.fpResult_isSome]
    obtain h | ⟨r, h, hr⟩ | ⟨h, hfrm⟩ := h
    · rw [h]; rfl
    · rw [h, Option.all_some, rmMode_static _ hr]; rfl
    · rw [h, Option.all_some, rmMode_dynamic, if_pos hfrm]; rfl

/-! ### The bits of moves and sign injections -/

/-- Two fields put together, as a sum. -/
theorem toNat_append_add {m n : Nat} (x : BitVec m) (y : BitVec n) : (x ++ y).toNat = 2 ^ n * x.toNat + y.toNat := by
  rw [BitVec.toNat_append, Nat.shiftLeft_eq, Nat.mul_comm, ← Nat.two_pow_add_eq_or_of_lt y.isLt]

/-- The bits of a double with another sign: the sign bit above the others. -/
theorem sign_append (x : Word) (sg : BitVec 1) : word (x.toNat % 2 ^ 63 + sg.toNat * 2 ^ 63) = sg ++ x.extractLsb' 0 63 := by
  apply BitVec.eq_of_toNat_eq
  have hs := sg.isLt
  rw [toNat_append_add, BitVec.extractLsb'_toNat, Nat.shiftRight_zero, word, BitVec.toNat_ofNat]
  omega

/-- The sign that a sign injection gives to its first operand, from the two signs. -/
def injectedSign (k : FpSgn) (x y : BitVec 1) : BitVec 1 := match k with
  | .sgnj => y
  | .sgnjn => ~~~y
  | .sgnjx => x ^^^ y

theorem toNat_sign (x : Word) : (x.extractLsb' 63 1).toNat = x.toNat >>> 63 % 2 := BitVec.extractLsb'_toNat ..
theorem toNat_not_bit (x : BitVec 1) : (~~~x).toNat = 1 - x.toNat := by revert x; decide
theorem toNat_xor_bit (x y : BitVec 1) : (x ^^^ y).toNat = (x.toNat + y.toNat) % 2 := by revert x y; decide

theorem fpResult_sgn_double (c : Ctx) (k : FpSgn) (rd a b : Reg) : c.fpResult (.sgn k true rd a b) = some (.f rd
    (injectedSign k ((c.getF a).extractLsb' 63 1) ((c.getF b).extractLsb' 63 1) ++ (c.getF a).extractLsb' 0 63) 0) := by
  rw [← sign_append]
  cases k with
  | sgnj => rw [injectedSign, toNat_sign]; rfl
  | sgnjn => rw [injectedSign, toNat_not_bit, toNat_sign]; rfl
  | sgnjx => rw [injectedSign, toNat_xor_bit, toNat_sign, toNat_sign]; rfl

/-- A word in two halves. -/
theorem extract_high_toNat (x : Word) : (x.extractLsb' 32 32).toNat = x.toNat >>> 32 := by
  rw [BitVec.extractLsb'_toNat, Nat.mod_eq_of_lt]
  have := x.isLt
  omega

theorem box32_append (x : Word) : box32 x.toNat = 0xFFFFFFFF#32 ++ x.setWidth 32 := by
  apply BitVec.eq_of_toNat_eq
  rw [toNat_append_add, BitVec.toNat_setWidth, box32, word, BitVec.toNat_ofNat, BitVec.toNat_ofNat]
  omega

theorem unbox32_boxed {x : Word} (h : x.extractLsb' 32 32 = 0xFFFFFFFF#32) : unbox32 x = (x.setWidth 32).toNat := by
  rw [unbox32, if_pos (by rw [← extract_high_toNat, h]; rfl), BitVec.toNat_setWidth]

theorem unbox32_unboxed {x : Word} (h : x.extractLsb' 32 32 ≠ 0xFFFFFFFF#32) : unbox32 x = 0x7FC00000 := by
  rw [unbox32, if_neg, Fmt.nan]
  intro hx
  rw [← extract_high_toNat] at hx
  exact h (BitVec.eq_of_toNat_eq hx)

/-- Settles O18: each result is its fields put together. -/
theorem floatingPointBits : Obligations.FloatingPointBits := by
  unfold Obligations.FloatingPointBits
  intro c rd a b
  refine ⟨rfl, rfl, rfl, ?_, fpResult_sgn_double c .sgnj rd a b, fpResult_sgn_double c .sgnjn rd a b, fpResult_sgn_double c .sgnjx rd a b,
    unbox32_boxed, unbox32_unboxed⟩
  rw [← box32_append]
  rfl

end Sys2Proof.Machine
end

