-- ==== Sys2Proof/Proofs/Scalar/CsrValues.lean ====
section
/-! What CSRs read as, what a write stores, and what no write changes. Settles O16. -/

namespace Sys2Proof.Machine

/-! ### What CSRs read as -/

theorem csrRead_noCounter (s : State) (cid : Nat) {a : Nat}
    (h : (0xC03 ≤ a ∧ a ≤ 0xC1F) ∨ (0xB03 ≤ a ∧ a ≤ 0xB1F) ∨ (0x323 ≤ a ∧ a ≤ 0x33F)) :
    s.csrRead cid a = some 0 := by
  have h1 : ¬ a = 0x001 := by omega
  have h2 : ¬ a = 0x002 := by omega
  have h3 : ¬ a = 0x003 := by omega
  have hc : ¬ (a = 0xC00 || a = 0xB00) = true := by simp; omega
  have ht : ¬ (a = 0xC01 || a = 0xCC2) = true := by simp; omega
  have hi : ¬ (a = 0xC02 || a = 0xB02) = true := by simp; omega
  rw [State.csrRead, if_neg h1, if_neg h2, if_neg h3, if_neg hc, if_neg ht, if_neg hi, if_pos h]

theorem fcsr_eq (c : Ctx) : c.fcsr = (c.frm ++ c.fflags).setWidth 64 := by
  apply BitVec.eq_of_toNat_eq
  rw [BitVec.toNat_setWidth, toNat_append_add, Ctx.fcsr, BitVec.toNat_ofNat, Nat.add_comm, Nat.mul_comm]
  rfl

theorem csrRead_oddPmpcfg (s : State) (cid : Nat) {i : Nat} (h : i < 8) : s.csrRead cid (0x3A1 + 2 * i) = none := by
  interval_cases i <;> rfl

theorem csrRead_absent (s : State) (cid : Nat) : ∀ a, a ∈ [0x008, 0x009, 0x00A, 0x00F, 0xC20, 0xC21, 0xC22, 0x14D, 0x015, 0x600] →
    s.csrRead cid a = none := by
  simp only [List.forall_mem_cons, List.not_mem_nil, false_implies, implies_true, and_true]
  exact ⟨rfl, rfl, rfl, rfl, rfl, rfl, rfl, rfl, rfl, rfl⟩

/-! ### What no write changes -/

/-- `t` has the memory and the x registers of `s`. -/
def KeepsMemX (s t : State) : Prop := t.mem = s.mem ∧ ∀ j, (t.ctx j).x = (s.ctx j).x

theorem KeepsMemX.refl (s : State) : KeepsMemX s s := ⟨rfl, fun _ => rfl⟩

theorem KeepsMemX.modCtx (s : State) (cid : Nat) {f : Ctx → Ctx} (h : ∀ c, (f c).x = c.x) : KeepsMemX s (s.modCtx cid f) := by
  refine ⟨rfl, fun j => ?_⟩
  by_cases hj : j = cid
  · rw [hj, State.ctx_modCtx_self, h]
  · rw [State.ctx_modCtx_ne _ _ _ _ hj]

theorem KeepsMemX.writeQvwin (s : State) (cid : Nat) (v : Word) : KeepsMemX s (s.writeQvwin cid v) := by
  unfold State.writeQvwin
  dsimp only
  split_ifs
  · exact .modCtx _ _ fun _ => rfl
  · split
    · exact KeepsMemX.modCtx (s.modCluster _ _) _ fun _ => rfl
    · exact .modCtx _ _ fun _ => rfl
  · exact .modCtx _ _ fun _ => rfl

theorem Ctx.x_setPmpaddr (c : Ctx) (i : Nat) (v : Word) : (c.setPmpaddr i v).x = c.x := by
  unfold Ctx.setPmpaddr
  dsimp only
  split <;> rfl

theorem Ctx.x_setFcsr (c : Ctx) (v : Word) : (c.setFcsr v).x = c.x := rfl
theorem Ctx.x_setSatp (c : Ctx) (v : Word) : (if bits v 63 60 = 0 ∨ bits v 63 60 = 9 then { c with satp := v } else c).x = c.x := by
  split <;> rfl

/-- A CSR write changes no memory and no x register, whatever the address: each register's write is of its own place only. -/
theorem KeepsMemX.csrWrite (s : State) (cid a : Nat) (v : Word) : KeepsMemX s (s.csrWrite cid a v) := by
  have hsstatus : KeepsMemX s (s.modCtx cid fun c => c.setSstatus v) := .modCtx _ _ fun _ => rfl
  have hmstatus : KeepsMemX s (s.modCtx cid fun c => c.setMstatus v) := .modCtx _ _ fun _ => rfl
  have hpmpcfg (i : Nat) : KeepsMemX s (s.modCtx cid fun c => c.setPmpcfg i v) := .modCtx _ _ fun _ => rfl
  have hcore (f : Core → Core) : KeepsMemX s (s.modCore (coreOf cid) f) := .refl s
  have hcluster (f : Cluster → Cluster) : KeepsMemX s (s.modCluster (clusterOf cid) f) := .refl s
  have hquota : KeepsMemX s (s.writeQmquota v) := .refl s
  have hstage (q : Word) : KeepsMemX s { s with qmstage := q } := .refl s
  have htmo (q : Word) : KeepsMemX s { s with qmtmo := q } := .refl s
  have haging (q : Word) : KeepsMemX s { s with qmaging := q } := .refl s
  have hresid (q : Word) : KeepsMemX s { s with qmresid := q } := .refl s
  simp only [State.csrWrite, State.writeQvtype, State.writeQvstat, apply_ite (KeepsMemX s), KeepsMemX.refl, KeepsMemX.modCtx,
    KeepsMemX.writeQvwin, hsstatus, hmstatus, hpmpcfg, hcore, hcluster, hquota, hstage, htmo, haging, hresid, Ctx.x_setFcsr,
    Ctx.x_setPmpaddr, Ctx.x_setSatp, ite_self, implies_true]

/-! ### What a write stores -/

theorem etypeWidth_pos (e : Nat) : 0 < etypeWidth e := by
  unfold etypeWidth
  split <;> decide

/-- A mask of two fields, one at bit 0 and one at bit `k`, keeps these. -/
theorem and_two_fields (x : Nat) {n k m : Nat} (h : n ≤ k) : x &&& (2 ^ k * (2 ^ m - 1) + (2 ^ n - 1)) = 2 ^ k * (x >>> k % 2 ^ m) + x % 2 ^ n := by
  have hk : 2 ^ n ≤ 2 ^ k := Nat.pow_le_pow_right (by decide) h
  have hn : 0 < 2 ^ n := Nat.two_pow_pos n
  have hx := Nat.mod_lt x hn
  apply Nat.eq_of_testBit_eq
  intro i
  rw [Nat.testBit_and, Nat.testBit_two_pow_mul_add _ (by omega), Nat.testBit_two_pow_mul_add _ (by omega)]
  split_ifs with hi
  · rw [Nat.testBit_two_pow_sub_one, Nat.testBit_mod_two_pow, Bool.and_comm]
  · rw [Nat.testBit_two_pow_sub_one, Nat.testBit_mod_two_pow, Nat.testBit_shiftRight, Nat.add_sub_cancel' (by omega), Bool.and_comm]

theorem and_qvtypeMask (v : Word) : BitVec.ofNat 64 ((v.extractLsb' 0 5).toNat + (v.extractLsb' 16 11).toNat * 2 ^ 16) = v &&& 0x7FF001F#64 := by
  apply BitVec.eq_of_toNat_eq
  have hm : (0x7FF001F#64).toNat = 2 ^ 16 * (2 ^ 11 - 1) + (2 ^ 5 - 1) := rfl
  have he := (v.extractLsb' 0 5).isLt
  have hl := (v.extractLsb' 16 11).isLt
  rw [BitVec.toNat_and, hm, and_two_fields _ (by decide), BitVec.toNat_ofNat, Nat.mod_eq_of_lt (by omega), BitVec.extractLsb'_toNat,
    BitVec.extractLsb'_toNat, Nat.shiftRight_zero, Nat.mul_comm, Nat.add_comm]

theorem csrWrite_qvtype_stores (s : State) (cid : Nat) (v : Word) : ((s.csrWrite cid 0x800 v).ctx cid).qvtype =
      (if etypeCode (v.extractLsb' 0 5) = true ∧ (v.extractLsb' 16 11).toNat * etypeWidth (v.extractLsb' 0 5).toNat ≤ 8192
        then v &&& 0x7FF001F#64 else 0x8000000000000000#64) := by
  have hc : BitVec.ofNat 5 (v.extractLsb' 0 5).toNat = v.extractLsb' 0 5 := BitVec.ofNat_toNat ..
  simp only [csrWrite_qvtype, ← Nat.le_div_iff_mul_le (etypeWidth_pos _)]
  split_ifs with h
  · rw [qvtypeWrite_accepted s cid _ _ v rfl rfl (by rw [hc]; exact h.1) h.2, State.ctx_modCtx_self]
    exact and_qvtypeMask v
  · rw [not_and_or, Bool.not_eq_true, not_le] at h
    rw [qvtypeWrite_refused s cid _ _ v rfl rfl (by rwa [hc]), State.ctx_modCtx_self]
    rfl

/-- What a write of part of a register leaves and stores: a mask and its complement, field by field. -/
theorem csrWrite_qloop_stores (s : State) (cid : Nat) (v : Word) :
    ((s.csrWrite cid 0x806 v).ctx cid).qloop.extractLsb' 32 32 = (s.ctx cid).qloop.extractLsb' 32 32 ∧
      ((s.csrWrite cid 0x806 v).ctx cid).qloop.extractLsb' 0 32 = v.extractLsb' 0 32 := by
  have h : (s.csrWrite cid 0x806 v).ctx cid =
      { s.ctx cid with qloop := ((s.ctx cid).qloop &&& ~~~0xFFFFFFFF#64) ||| (v &&& 0xFFFFFFFF#64) } :=
    State.ctx_modCtx_self s cid fun c => { c with qloop := (c.qloop &&& ~~~0xFFFFFFFF#64) ||| (v &&& 0xFFFFFFFF#64) }
  have h0 : (~~~0xFFFFFFFF#64).extractLsb' 0 32 = 0#32 ∧ (0xFFFFFFFF#64).extractLsb' 0 32 = BitVec.allOnes 32 := by decide
  have h32 : (~~~0xFFFFFFFF#64).extractLsb' 32 32 = BitVec.allOnes 32 ∧ (0xFFFFFFFF#64).extractLsb' 32 32 = 0#32 := by decide
  simp only [h, BitVec.extractLsb'_or, BitVec.extractLsb'_and, h0, h32, BitVec.and_allOnes, BitVec.and_zero, BitVec.or_zero, BitVec.zero_or,
    and_self]

theorem csrWrite_qprio_stores (s : State) (cid : Nat) (v : Word) :
    ((s.csrWrite cid 0x807 v).ctx cid).qprio.extractLsb' 3 61 = (s.ctx cid).qprio.extractLsb' 3 61 ∧
    (((s.csrWrite cid 0x807 v).ctx cid).qprio.extractLsb' 0 3).toNat = min (v.extractLsb' 0 3).toNat (s.ctx cid).prioMax.toNat := by
  let m := min (bits v 2 0) (s.ctx cid).prioMax.toNat
  have h : (s.csrWrite cid 0x807 v).ctx cid = { s.ctx cid with qprio := ((s.ctx cid).qprio &&& ~~~7#64) ||| word m } :=
    State.ctx_modCtx_self s cid fun c => { c with qprio := (c.qprio &&& ~~~7#64) ||| word (min (bits v 2 0) c.prioMax.toNat) }
  have hb : bits v 2 0 = (v.extractLsb' 0 3).toNat := bits_eq ..
  have hm : m < 8 := Nat.lt_of_le_of_lt (Nat.min_le_left ..) (by rw [hb]; exact (v.extractLsb' 0 3).isLt)
  have h0 : (~~~7#64).extractLsb' 0 3 = 0#3 ∧ (~~~7#64).extractLsb' 3 61 = BitVec.allOnes 61 := by decide
  have hw : (word m).extractLsb' 3 61 = 0#61 ∧ ((word m).extractLsb' 0 3).toNat = m := by
    refine ⟨BitVec.eq_of_toNat_eq ?_, ?_⟩ <;> rw [BitVec.extractLsb'_toNat, word, BitVec.toNat_ofNat] <;> simp <;> omega
  rw [h]
  simp only [BitVec.extractLsb'_or, BitVec.extractLsb'_and, h0, hw, BitVec.and_allOnes, BitVec.and_zero, BitVec.or_zero, BitVec.zero_or, true_and]
  rw [← hb]

theorem csrWrite_satp_stores (s : State) (cid : Nat) (v : Word) :
    ((s.csrWrite cid 0x180 v).ctx cid).satp = (if v.extractLsb' 60 4 = 0 ∨ v.extractLsb' 60 4 = 9 then v else (s.ctx cid).satp) := by
  have h : (s.csrWrite cid 0x180 v).ctx cid = if bits v 63 60 = 0 ∨ bits v 63 60 = 9 then { s.ctx cid with satp := v } else s.ctx cid :=
    State.ctx_modCtx_self s cid fun c => if bits v 63 60 = 0 ∨ bits v 63 60 = 9 then { c with satp := v } else c
  have hb : bits v 63 60 = 0 ∨ bits v 63 60 = 9 ↔ v.extractLsb' 60 4 = 0 ∨ v.extractLsb' 60 4 = 9 := by
    rw [bits_eq, ← BitVec.toNat_inj, ← BitVec.toNat_inj]
    rfl
  simp only [h, hb]
  split_ifs <;> rfl

/-- A field of 8 bits as qmvwt stores it (R139). -/
def weightOf (v : Word) (i : Nat) : Nat := max 1 (bits v (8 * i + 7) (8 * i))

theorem bits_byte (v : Word) (i : Nat) : bits v (8 * i + 7) (8 * i) = (v.extractLsb' (8 * i) 8).toNat := by
  rw [bits_eq, Nat.add_assoc, Nat.add_sub_cancel_left]

theorem weightOf_eq (v : Word) (i : Nat) : BitVec.ofNat 8 (weightOf v i) = if v.extractLsb' (8 * i) 8 = 0 then 1 else v.extractLsb' (8 * i) 8 := by
  rw [weightOf, bits_byte]
  generalize v.extractLsb' (8 * i) 8 = b
  revert b
  decide

theorem weightOf_lt (v : Word) (i : Nat) : weightOf v i < 256 := by
  have h := (v.extractLsb' (8 * i) 8).isLt
  rw [weightOf, bits_byte]
  omega

theorem foldl_range_four (f : Nat → Nat) : (List.range 4).foldl (fun a i => a + f i) 0 = f 0 + f 1 + f 2 + f 3 := by
  rw [show List.range 4 = [0, 1, 2, 3] from rfl, List.foldl_cons, List.foldl_cons, List.foldl_cons, List.foldl_cons, List.foldl_nil, Nat.zero_add]

theorem writeQmvwt_eq (v : Word) :
    writeQmvwt v = word (weightOf v 0 * 2 ^ (8 * 0) + weightOf v 1 * 2 ^ (8 * 1) + weightOf v 2 * 2 ^ (8 * 2) + weightOf v 3 * 2 ^ (8 * 3)) :=
  congrArg word (foldl_range_four fun i => weightOf v i * 2 ^ (8 * i))

/-- A byte of four bytes put together. -/
theorem byte_of_four {w : Nat → Nat} (hw : ∀ i, w i < 256) {i : Nat} (h : i < 4) :
    (word (w 0 * 2 ^ (8 * 0) + w 1 * 2 ^ (8 * 1) + w 2 * 2 ^ (8 * 2) + w 3 * 2 ^ (8 * 3))).extractLsb' (8 * i) 8 = BitVec.ofNat 8 (w i) := by
  have h0 := hw 0
  have h1 := hw 1
  have h2 := hw 2
  have h3 := hw 3
  apply BitVec.eq_of_toNat_eq
  rw [BitVec.extractLsb'_toNat, word, BitVec.toNat_ofNat, BitVec.toNat_ofNat, Nat.shiftRight_eq_div_pow]
  interval_cases i <;> omega

/-- A weight of qmvwt as a write stores it (R139). -/
theorem writeQmvwt_weight (v : Word) {i : Nat} (h : i < 4) :
    (writeQmvwt v).extractLsb' (8 * i) 8 = if v.extractLsb' (8 * i) 8 = 0 then 1 else v.extractLsb' (8 * i) 8 := by
  rw [writeQmvwt_eq, byte_of_four (weightOf_lt v) h, weightOf_eq]

theorem csrWrite_readOnly (s : State) (cid : Nat) (v : Word) :
    ∀ a, a ∈ [0xCC0, 0xCC1, 0xCC2, 0xCC3, 0xCC4, 0xCC5, 0xC00, 0xC01, 0xC02, 0xB00, 0xF11, 0xF12, 0xF13, 0xF14, 0x301, 0x104, 0x144] →
      s.csrWrite cid a v = s := by
  simp only [List.forall_mem_cons, List.not_mem_nil, false_implies, implies_true, and_true]
  exact ⟨rfl, rfl, rfl, rfl, rfl, rfl, rfl, rfl, rfl, rfl, rfl, rfl, rfl, rfl, rfl, rfl, rfl⟩

theorem csrWrite_qvrot_stores (s : State) (cid : Nat) (v : Word) : ((s.csrWrite cid 0x802 v).ctx cid).qvrot = v &&& 0x1F8#64 :=
  congrArg Ctx.qvrot (State.ctx_modCtx_self s cid fun c => { c with qvrot := v &&& 0x1F8#64 })
theorem csrWrite_qvstat_stores (s : State) (cid : Nat) (v : Word) : ((s.csrWrite cid 0x805 v).ctx cid).qvstat = v &&& 0x7F#64 :=
  congrArg Ctx.qvstat (State.ctx_modCtx_self s cid fun c => { c with qvstat := v &&& 0x7F#64 })
theorem csrWrite_qtensid_stores (s : State) (cid : Nat) (v : Word) : ((s.csrWrite cid 0x804 v).ctx cid).qtensid = v &&& 0xFFF#64 :=
  congrArg Ctx.qtensid (State.ctx_modCtx_self s cid fun c => { c with qtensid := v &&& 0xFFF#64 })

theorem csrWrite_qmvwt_stores (s : State) (cid : Nat) (v : Word) {i : Nat} (h : i < 4) :
    ((s.csrWrite cid 0x7C0 v).cluster (clusterOf cid)).qmvwt.extractLsb' (8 * i) 8 =
      if v.extractLsb' (8 * i) 8 = 0 then 1 else v.extractLsb' (8 * i) 8 := by
  have hw : (s.csrWrite cid 0x7C0 v).cluster (clusterOf cid) = { s.cluster (clusterOf cid) with qmvwt := writeQmvwt v } :=
    State.cluster_modCluster_self s (clusterOf cid) fun g => { g with qmvwt := writeQmvwt v }
  rw [hw]
  exact writeQmvwt_weight v h

/-- Settles O16, register by register; what no write changes is `KeepsMemX`. -/
theorem csrValues : Obligations.CsrValues := by
  unfold Obligations.CsrValues
  refine ⟨fun s cid => ⟨rfl, rfl, rfl, rfl, rfl, ?_, rfl, rfl, rfl, rfl, rfl, rfl, rfl, rfl, rfl, ?_, fun i => csrRead_oddPmpcfg s cid,
    csrRead_absent s cid⟩, fun s cid v => ⟨csrWrite_qvtype_stores s cid v, csrWrite_qvrot_stores s cid v, csrWrite_qloop_stores s cid v,
    ?_, ?_, csrWrite_qvstat_stores s cid v, csrWrite_qtensid_stores s cid v, csrWrite_satp_stores s cid v,
    fun i => csrWrite_qmvwt_stores s cid v, csrWrite_readOnly s cid v, fun a => (KeepsMemX.csrWrite s cid a v).1,
    fun a => (KeepsMemX.csrWrite s cid a v).2⟩⟩
  · intro i h3 h32
    exact ⟨csrRead_noCounter s cid (by omega), csrRead_noCounter s cid (by omega), csrRead_noCounter s cid (by omega)⟩
  · exact congrArg some (fcsr_eq _)
  · exact (csrWrite_qprio_stores s cid v).1
  · exact (csrWrite_qprio_stores s cid v).2

end Sys2Proof.Machine
end

