-- ==== Sys2Proof/Proofs/CoreEngine/Integer.lean ====
section
/-! RV64I arithmetic, the RV64M instructions, branches and jumps: the model's words are the exact results cut to their width. Settles O6, O7 and O8. -/

namespace Sys2Proof.Machine

/-! ### Words of exact results -/

theorem ofInt_toInt_low32 (a : Word) : BitVec.ofInt 32 a.toInt = low32 a := BitVec.signExtend_eq_setWidth_of_le a (by decide)

theorem toNat_low32 (a : Word) : (low32 a).toNat = a.toNat % 2 ^ 32 := BitVec.toNat_setWidth ..

/-- A 32-bit result cut to its width and sign-extended. -/
theorem sext32_ofInt (v : Int) : sext32 (BitVec.ofInt 32 v) = BitVec.ofInt 64 (v.bmod (2 ^ 32)) := by
  show BitVec.ofInt 64 (BitVec.ofInt 32 v).toInt = _
  rw [BitVec.toInt_ofInt]

theorem shiftValue_sll {n : Nat} (a : BitVec n) (k : Nat) : shiftValue .sll a k = BitVec.ofNat n (a.toNat * 2 ^ k) := by
  apply BitVec.eq_of_toNat_eq
  simp [shiftValue, Nat.shiftLeft_eq]

theorem shiftValue_srl {n : Nat} (a : BitVec n) (k : Nat) : shiftValue .srl a k = BitVec.ofNat n (a.toNat / 2 ^ k) := by
  apply BitVec.eq_of_toNat_eq
  rw [BitVec.toNat_ofNat, Nat.mod_eq_of_lt (Nat.lt_of_le_of_lt (Nat.div_le_self ..) a.isLt)]
  simp [shiftValue, Nat.shiftRight_eq_div_pow]

theorem shiftValue_sra {n : Nat} (a : BitVec n) (k : Nat) : shiftValue .sra a k = BitVec.ofInt n (a.toInt / 2 ^ k) := by
  show BitVec.ofInt n (a.toInt >>> k) = _
  rw [Int.shiftRight_eq_div_pow, Nat.cast_pow, Nat.cast_ofNat]

theorem sext32_shiftValue_sra (a : Word) (k : Nat) :
    sext32 (shiftValue .sra (low32 a) k) = BitVec.ofInt 64 (((a.toNat % 2 ^ 32 : Nat) : Int).bmod (2 ^ 32) / 2 ^ k) := by
  show BitVec.ofInt 64 ((low32 a).sshiftRight k).toInt = _
  rw [BitVec.toInt_sshiftRight, BitVec.toInt_eq_toNat_bmod, toNat_low32, Int.shiftRight_eq_div_pow, Nat.cast_pow, Nat.cast_ofNat]

/-- A 32-bit shift to the left or a logical one to the right, of the exact result. -/
theorem sext32_ofNat (v : Nat) : sext32 (BitVec.ofNat 32 v) = BitVec.ofInt 64 ((v : Int).bmod (2 ^ 32)) := by
  rw [← sext32_ofInt, BitVec.ofInt_natCast]

theorem immU_eq (i : BitVec 20) : immU i = BitVec.ofInt 64 (i.toInt * 4096) := by
  have h : (BitVec.ofNat 32 (i.toNat * 4096)).toInt = i.toInt * 4096 := by
    simp only [BitVec.toInt_eq_toNat_cond, BitVec.toNat_ofNat]
    have := i.isLt
    split <;> split <;> omega
  rw [← h]
  rfl

theorem ofInt_sub {n : Nat} (a b : Int) : BitVec.ofInt n (a - b) = BitVec.ofInt n a - BitVec.ofInt n b := by
  rw [Int.sub_eq_add_neg, BitVec.ofInt_add, BitVec.ofInt_neg, BitVec.sub_eq_add_neg]

/-! ### The results of INTEGER_ARITHMETIC -/

/-- A sum of a register and a sign-extended immediate, cut to the register's width. -/
theorem ofInt_add_imm {n : Nat} (a : Word) (imm : BitVec n) : BitVec.ofInt 64 (a.toInt + imm.toInt) = a + imm.signExtend 64 := by
  rw [BitVec.ofInt_add, BitVec.ofInt_toInt]
  rfl

theorem immValue_eq (k : ImmOp) (rd r : Reg) (i : BitVec 12) (pc : Word) (x : Reg → Word) :
    immValue k (x r) (imm12 i) = intExpected pc x (.imm k rd r i) := by
  cases k with
  | addi => exact (ofInt_add_imm ..).symm
  | slti =>
    show (if (x r).slt (imm12 i) then (1 : Word) else 0) = if (x r).toInt < i.toInt then 1 else 0
    have hi : (imm12 i).toInt = i.toInt := BitVec.toInt_signExtend_of_le (by decide)
    simp only [BitVec.slt_iff_toInt_lt, hi]
  | sltiu =>
    show (if (x r).ult (imm12 i) then (1 : Word) else 0) = if (x r).toNat < (imm12 i).toNat then 1 else 0
    simp only [BitVec.ult_iff_lt, BitVec.lt_def]
  | xori | ori | andi => rfl

theorem regValue_eq (k : RegOp) (rd r q : Reg) (pc : Word) (x : Reg → Word) :
    regValue k (x r) (x q) = intExpected pc x (.reg k rd r q) := by
  cases k with
  | add =>
    show x r + x q = BitVec.ofInt 64 ((x r).toInt + (x q).toInt)
    rw [BitVec.ofInt_add, BitVec.ofInt_toInt, BitVec.ofInt_toInt]
  | sub =>
    show x r - x q = BitVec.ofInt 64 ((x r).toInt - (x q).toInt)
    rw [ofInt_sub, BitVec.ofInt_toInt, BitVec.ofInt_toInt]
  | sll => exact shiftValue_sll ..
  | srl => exact shiftValue_srl ..
  | sra => exact shiftValue_sra ..
  | slt =>
    show (if (x r).slt (x q) then (1 : Word) else 0) = if (x r).toInt < (x q).toInt then 1 else 0
    simp only [BitVec.slt_iff_toInt_lt]
  | sltu =>
    show (if (x r).ult (x q) then (1 : Word) else 0) = if (x r).toNat < (x q).toNat then 1 else 0
    simp only [BitVec.ult_iff_lt, BitVec.lt_def]
  | xor | or | and => rfl

theorem sext32_shiftValue_sll (a : Word) (k : Nat) :
    sext32 (shiftValue .sll (low32 a) k) = BitVec.ofInt 64 ((((a.toNat % 2 ^ 32 : Nat) : Int) * 2 ^ k).bmod (2 ^ 32)) := by
  rw [shiftValue_sll, sext32_ofNat, toNat_low32, Nat.cast_mul, Nat.cast_pow, Nat.cast_ofNat]

theorem sext32_shiftValue_srl (a : Word) (k : Nat) :
    sext32 (shiftValue .srl (low32 a) k) = BitVec.ofInt 64 (((a.toNat % 2 ^ 32 / 2 ^ k : Nat) : Int).bmod (2 ^ 32)) := by
  rw [shiftValue_srl, sext32_ofNat, toNat_low32]

theorem regValueW_eq (k : RegOpW) (rd r q : Reg) (pc : Word) (x : Reg → Word) :
    sext32 (regValueW k (low32 (x r)) (low32 (x q))) = intExpected pc x (.regW k rd r q) := by
  have hq := toNat_low32 (x q)
  cases k with
  | addw =>
    show sext32 (low32 (x r) + low32 (x q)) = BitVec.ofInt 64 (((x r).toInt + (x q).toInt).bmod (2 ^ 32))
    rw [← sext32_ofInt, BitVec.ofInt_add, ofInt_toInt_low32, ofInt_toInt_low32]
  | subw =>
    show sext32 (low32 (x r) - low32 (x q)) = BitVec.ofInt 64 (((x r).toInt - (x q).toInt).bmod (2 ^ 32))
    rw [← sext32_ofInt, ofInt_sub, ofInt_toInt_low32, ofInt_toInt_low32]
  | sllw =>
    show sext32 (shiftValue .sll (low32 (x r)) ((low32 (x q)).toNat % 32)) = _
    rw [sext32_shiftValue_sll, hq]
    rfl
  | srlw =>
    show sext32 (shiftValue .srl (low32 (x r)) ((low32 (x q)).toNat % 32)) = _
    rw [sext32_shiftValue_srl, hq]
    rfl
  | sraw =>
    show sext32 (shiftValue .sra (low32 (x r)) ((low32 (x q)).toNat % 32)) = _
    rw [sext32_shiftValue_sra, hq]
    rfl

theorem shiftValueW_eq (k : ShiftOp) (rd r : Reg) (n : BitVec 5) (pc : Word) (x : Reg → Word) :
    sext32 (shiftValue k (low32 (x r)) n.toNat) = intExpected pc x (.shiftW k rd r n) := by
  cases k with
  | sll => exact sext32_shiftValue_sll ..
  | srl => exact sext32_shiftValue_srl ..
  | sra => exact sext32_shiftValue_sra ..

theorem mulValue_eq (k : MulOp) (rd r q : Reg) (pc : Word) (x : Reg → Word) :
    mulValue k (x r) (x q) = intExpected pc x (.mul k rd r q) := by
  cases k with
  | mul =>
    show x r * x q = BitVec.ofInt 64 ((x r).toInt * (x q).toInt)
    rw [BitVec.ofInt_mul, BitVec.ofInt_toInt, BitVec.ofInt_toInt]
  | mulh | mulhsu | mulhu => rfl
  | mulw =>
    show sext32 (low32 (x r) * low32 (x q)) = BitVec.ofInt 64 (((x r).toInt * (x q).toInt).bmod (2 ^ 32))
    rw [← sext32_ofInt, BitVec.ofInt_mul, ofInt_toInt_low32, ofInt_toInt_low32]

theorem intValue_eq_intExpected (s : State) (op : IntOp) : (s.intValue op).2 = intExpected s.me.pc s.xr op := by
  cases op with
  | imm k rd r i => exact immValue_eq ..
  | shift k rd r n =>
    cases k with
    | sll => exact shiftValue_sll ..
    | srl => exact shiftValue_srl ..
    | sra => exact shiftValue_sra ..
  | addiw rd r i =>
    show sext32 (low32 (s.xr r) + low32 (imm12 i)) = BitVec.ofInt 64 (((s.xr r).toInt + i.toInt).bmod (2 ^ 32))
    have hi : low32 (imm12 i) = BitVec.ofInt 32 i.toInt := by
      rw [← ofInt_toInt_low32, imm12, BitVec.toInt_signExtend_of_le (by decide)]
    rw [← sext32_ofInt, BitVec.ofInt_add, ofInt_toInt_low32, hi]
  | shiftW k rd r n => exact shiftValueW_eq ..
  | reg k rd r q => exact regValue_eq ..
  | regW k rd r q => exact regValueW_eq ..
  | mul k rd r q => exact mulValue_eq ..
  | lui rd i => exact immU_eq i
  | auipc rd i =>
    show s.me.pc + immU i = BitVec.ofInt 64 (s.me.pc.toInt + i.toInt * 4096)
    rw [BitVec.ofInt_add, BitVec.ofInt_toInt, immU_eq]

theorem State.xr_setXr_ne {s : State} {r q : Reg} (v : Word) (h : q ≠ r) : (s.setXr r v).xr q = s.xr q := by
  rw [State.xr, State.me_setXr, Ctx.getX_setX]
  exact if_neg fun hq => h hq.1

/-- Completion keeps the x registers. -/
theorem Completed.x_eq {u t : State} (h : Completed u t) : t.me.x = u.me.x := by
  obtain ⟨-, hf, -⟩ := h
  rw [hf]

/-- Settles O6: the result by the operation, and what completion after one write of an x register leaves. -/
theorem integerResults : Obligations.IntegerResults := by
  unfold Obligations.IntegerResults
  intro s op
  have hx := exec_integerArithmetic s op
  rw [intValue_eq_intExpected] at hx
  have hc := completed_retire (s.setXr (intDest op) (intExpected s.me.pc s.xr op))
  refine ⟨_, hx, hc, fun r hr => (xr_of_completed hc r).trans (State.xr_setXr_ne _ hr), rfl,
    fun h0 => (xr_of_completed hc _).trans (State.xr_setXr_self _ h0), fun h0 => ?_, fun _ => rfl⟩
  rw [hc.x_eq, State.me_setXr, h0]
  rfl

/-! ### Divisions -/

theorem divValue_eq_divExpected {n : Nat} (op : DivOp) (a b : BitVec n) : divValue op a b = divExpected op a b := by
  have hb : b = 0 ↔ b.toNat = 0 := by rw [← BitVec.toNat_inj]; exact Iff.rfl
  have hones : BitVec.allOnes n = BitVec.ofInt n (-1) := by
    rw [BitVec.ofInt_neg]
    exact BitVec.neg_one_eq_allOnes.symm
  cases op with
  | div => simp only [divValue, divExpected, hb, hones]
  | divu => simp only [divValue, divExpected, hb, hones, BitVec.udiv_def]
  | rem => simp only [divValue, divExpected, hb, Int.tmod_def]
  | remu => simp only [divValue, divExpected, hb, BitVec.umod_def]

theorem exec_integerDivide (s : State) (op : DivOp) (rd rs1 rs2 : Reg) :
    exec (.integerDivide op false rd rs1 rs2) s = .next (s.setXr rd (divExpected op (s.xr rs1) (s.xr rs2))).retire := by
  rw [← divValue_eq_divExpected]
  rfl

theorem exec_integerDivideW (s : State) (op : DivOp) (rd rs1 rs2 : Reg) :
    exec (.integerDivide op true rd rs1 rs2) s = .next (s.setXr rd
      (BitVec.ofInt 64 (divExpected op (BitVec.ofNat 32 (s.xr rs1).toNat) (BitVec.ofNat 32 (s.xr rs2).toNat)).toInt)).retire := by
  rw [← divValue_eq_divExpected, BitVec.ofNat_toNat, BitVec.ofNat_toNat]
  rfl

/-- Settles O7: the results by the operation; a divider has no other effect. -/
theorem divideResults : Obligations.DivideResults := by
  unfold Obligations.DivideResults
  intro s op rd rs1 rs2
  exact ⟨⟨_, exec_integerDivide s op rd rs1 rs2, completed_retire _, fun _ => rfl⟩,
    ⟨_, exec_integerDivideW s op rd rs1 rs2, completed_retire _, fun _ => rfl⟩⟩

/-! ### Branches and jumps -/

theorem branchTaken_iff (k : BranchOp) (a b : Word) : branchTaken k a b = true ↔ branchExpected k a b := by
  cases k with
  | beq => simp [branchTaken, branchExpected, BitVec.toNat_inj]
  | bne => simp [branchTaken, branchExpected, BitVec.toNat_inj]
  | blt => simp [branchTaken, branchExpected, BitVec.slt_iff_toInt_lt]
  | bge => simp [branchTaken, branchExpected, BitVec.slt_eq_decide]
  | bltu => simp [branchTaken, branchExpected, BitVec.ult_eq_decide]
  | bgeu => simp [branchTaken, branchExpected, BitVec.ult_eq_decide]

/-- Clearing bit 0 rounds down to a multiple of 2. -/
theorem clear_bit0 (a : Word) : BitVec.ofNat 64 (a.toNat / 2 * 2) = a &&& ~~~1#64 := by
  have hm : ∀ i, i < 64 → (~~~1#64).getLsbD i = decide (i ≠ 0) := by decide
  have hs : a &&& ~~~1#64 = a >>> 1 <<< 1 := by
    refine BitVec.eq_of_getLsbD_eq fun i hi => ?_
    rw [BitVec.getLsbD_and, hm i hi, BitVec.getLsbD_shiftLeft, BitVec.getLsbD_ushiftRight]
    cases i with
    | zero => simp
    | succ j => simp [hi, Nat.add_comm 1 j]
  apply BitVec.eq_of_toNat_eq
  rw [hs]
  simp [Nat.shiftLeft_eq, Nat.shiftRight_eq_div_pow]

theorem exec_branch_not_taken {s : State} {op : BranchOp} {rs1 rs2 : Reg} (imm : BitVec 13) (h : ¬ branchExpected op (s.xr rs1) (s.xr rs2)) :
    exec (.branch op rs1 rs2 imm) s = .next s.retire := by
  show execBranch op rs1 rs2 imm s = _
  rw [execBranch, if_neg (by rwa [branchTaken_iff]), State.done_ok]

theorem exec_branch_taken {s : State} {op : BranchOp} {rs1 rs2 : Reg} (imm : BitVec 13) (h : branchExpected op (s.xr rs1) (s.xr rs2)) :
    exec (.branch op rs1 rs2 imm) s = s.done (s.transfer (s.me.pc + imm.signExtend 64)) := by
  show execBranch op rs1 rs2 imm s = _
  rw [execBranch, if_pos ((branchTaken_iff ..).2 h)]

/-- A transfer of control from `s`, where `u` is what the transfer carries: it is made to a multiple of 4, and is else cause 0 (R61). -/
theorem done_transfer (s u : State) (to_ : Word) :
    (to_.toNat % 4 = 0 → ∃ t, s.done (if to_.toNat % 4 ≠ 0 then trap 0 to_ else .error (.jump u to_)) = .next t ∧ Redirected u t to_) ∧
    (to_.toNat % 4 ≠ 0 → s.done (if to_.toNat % 4 ≠ 0 then trap 0 to_ else .error (.jump u to_)) = .next (s.raise 0 to_)) := by
  refine ⟨fun h => ⟨_, ?_, redirected_retireTo u to_⟩, fun h => ?_⟩
  · rw [if_neg (not_not.2 h), State.done_jump]
  · rw [if_pos h, State.done_trap]

/-- Settles O8: a branch by whether it is taken, and every transfer by its target. -/
theorem branchesAndJumps : Obligations.BranchesAndJumps := by
  unfold Obligations.BranchesAndJumps
  rintro s _ rfl
  refine ⟨fun op rs1 rs2 imm h => ⟨_, exec_branch_not_taken imm h, completed_retire s⟩, ?_, ?_, ?_⟩
  · rintro op rs1 rs2 imm _ h rfl
    rw [ofInt_add_imm, exec_branch_taken imm h]
    exact done_transfer s s _
  · rintro rd imm _ rfl
    rw [ofInt_add_imm]
    exact done_transfer s (s.setXr rd (s.me.pc + 4)) _
  · rintro rd rs1 imm _ _ rfl rfl
    rw [ofInt_add_imm, clear_bit0]
    exact done_transfer s (s.setXr rd (s.me.pc + 4)) _

end Sys2Proof.Machine
end

