-- ==== Sys2Proof/Proofs/CoreEngine/Stores.lean ====
section
/-! Scalar stores and STO, LR and SC once their checks are over, and where they end before; and what performing a buffered store writes.
Settles O11, O12 and O13. -/

namespace Sys2Proof.Machine

/-! ### Entering the store buffer -/

/-- The low bytes of a word. -/
theorem and_byteMask (v : Word) {n : Nat} (h : n ≤ 8) : v &&& State.scalarWrite.byteMask n = BitVec.ofNat 64 (v.toNat % 2 ^ (8 * n)) := by
  have hp : 2 ^ (8 * n) ≤ 2 ^ 64 := Nat.pow_le_pow_right (by decide) (by omega)
  have hpos : 0 < 2 ^ (8 * n) := Nat.two_pow_pos _
  apply BitVec.eq_of_toNat_eq
  rw [BitVec.toNat_and, State.scalarWrite.byteMask, word, BitVec.toNat_ofNat, BitVec.toNat_ofNat, Nat.mod_eq_of_lt (by omega),
    Nat.and_two_pow_sub_one_eq_mod, Nat.mod_eq_of_lt (Nat.lt_of_lt_of_le (Nat.mod_lt _ hpos) hp)]

theorem storeWidth_le (k : StoreKind) : storeWidth k ≤ 8 := by cases k <;> decide

theorem width_le (w : BitVec 2) : 2 ^ w.toNat ≤ 8 := by revert w; decide

/-- With room in the buffer, an entry stands behind those that are there (R99). -/
theorem enter_of_room {s : State} (h : (s.core (coreOf s.cur)).storeBuffer.length < 16) (kind : SBKind) (rel : Bool) :
    s.enter kind rel = s.modCore (coreOf s.cur) fun k => { k with storeBuffer := k.storeBuffer ++
      [⟨s.cur, rel, kind, s.me.pc, s.me.qtid, BitVec.ofNat 12 s.me.qtensid.toNat, s.now, none⟩] } := by
  have hr : s.makeRoom (coreOf s.cur) = s := if_pos h
  rw [State.enter, hr]

/-- A scalar write to memory that is neither configuration space nor I/O enters the buffer (R99), a release after the context's earlier events. -/
theorem scalarWrite_buffered {u : State} {x : Xlat} (n : Nat) (d : Word) (rel : Bool) (hc : regionOf x.pa ≠ .cfg) (hi : x.mt ≠ .io) :
    u.scalarWrite x n d rel = (if rel then u.settleMe else u).enter (.store x n (d &&& State.scalarWrite.byteMask n)) rel := by
  simp only [State.scalarWrite, hc, hi, if_false, decide_false, Bool.false_and, Bool.false_eq_true]

/-- What a scalar store or STO leaves, with `v` the state in which it enters the buffer: its entry behind the others, and memory and the other
registers as they were. -/
theorem scalarWrite_enters {u v : State} {x : Xlat} {n : Nat} (d : Word) {rel : Bool} (hn : n ≤ 8) (hv : v = if rel then u.settleMe else u)
    (hc : regionOf x.pa ≠ .cfg) (hi : x.mt ≠ .io) (hroom : (v.core (coreOf v.cur)).storeBuffer.length < 16) :
    ∃ e : SBEntry, ((u.scalarWrite x n d rel).retire.core (coreOf v.cur)).storeBuffer = (v.core (coreOf v.cur)).storeBuffer ++ [e] ∧
      e.cid = v.cur ∧ e.rel = rel ∧ e.kind = .store x n (BitVec.ofNat 64 (d.toNat % 2 ^ (8 * n))) ∧ (u.scalarWrite x n d rel).retire.mem = v.mem ∧
      (u.scalarWrite x n d rel).me = v.me ∧ (u.scalarWrite x n d rel).cur = v.cur := by
  have he := enter_of_room hroom (.store x n (BitVec.ofNat 64 (d.toNat % 2 ^ (8 * n)))) rel
  rw [scalarWrite_buffered n d rel hc hi, and_byteMask d hn, ← hv, he]
  refine ⟨⟨v.cur, rel, .store x n (BitVec.ofNat 64 (d.toNat % 2 ^ (8 * n))), v.me.pc, v.me.qtid, BitVec.ofNat 12 v.me.qtensid.toNat, v.now, none⟩,
    ?_, rfl, rfl, rfl, rfl, rfl, rfl⟩
  rw [State.retire, State.retireCtx, State.core_modCtx, State.core_modCore_self]

/-- A store to configuration space is performed at once (R400). -/
theorem scalarWrite_cfg {u : State} {x : Xlat} (n : Nat) (d : Word) (h : regionOf x.pa = .cfg) :
    u.scalarWrite x n d false = u.cfgWrite x.pa n d := by
  simp only [State.scalarWrite, h, if_true, Bool.false_eq_true, if_false]

/-- A store to I/O memory is performed at once (R37). -/
theorem scalarWrite_io {u : State} {x : Xlat} (n : Nat) (d : Word) (hc : regionOf x.pa ≠ .cfg) (hi : x.mt = .io) (hs : u.silent x.pa = false) :
    u.scalarWrite x n d false =
      (u.writeMem (clusterOf u.cur) u.me.tid x n d.toNat (some u.cur) (u.byCtx u.cur) u.me.launch).restorePhaser x.pa n := by
  simp only [State.scalarWrite, hc, hi, hs, if_false, decide_true, Bool.not_false, Bool.and_self, if_true, Bool.false_eq_true]

/-- I/O memory takes the bytes that are written to it, and no cache comes between. -/
theorem mget_writeMem_io {x : Xlat} (s : State) (g n v launch : Nat) {off : Nat} (tid : BitVec 12) (keep : Option Nat) (w : Wake)
    (hr : ∀ a h o, regionOf x.pa ≠ .scratch a h o) (hi : x.mt = .io) (ho : off < n) :
    mget (s.writeMem g tid x n v keep w launch).mem (x.pa + off) = BitVec.ofNat 8 (v / 2 ^ (8 * off)) := by
  have hc : (s.loseAt x.pa n keep w).cached x = false := by simp only [State.cached, hi]
  have hm : (s.writeMem g tid x n v keep w launch).mem = mwrite
      (((s.loseAt x.pa n keep w).recallAll none none (x.pa / lineBytes) 255).backInvalidate (x.pa / lineBytes)).mem x.pa n v := by
    unfold State.writeMem
    split
    · rename_i a h o hs
      exact absurd hs (hr a h o)
    · simp only [hc, Bool.false_eq_true, if_false]
  rw [hm, mget_mwrite, if_pos (by omega), Nat.add_sub_cancel_left]

/-! ### The instructions -/

theorem exec_store_checked {s u : State} {x : Xlat} {k : StoreKind} {rs1 : Reg} {imm : BitVec 12} (rs2 : Reg)
    (hf : storeIsF k = true → s.me.fsOff = false) (h : s.storeCheck (s.xr rs1 + imm.signExtend 64) (storeWidth k) = .ok (u, x)) :
    exec (.store k rs1 rs2 imm) s =
      .next (u.scalarWrite x (storeWidth k) (if storeIsF k then u.me.getF rs2 else u.xr rs2) false).retire := by
  have hb : (storeIsF k && s.me.fsOff) = false := by simpa using hf
  show execStore k rs1 rs2 imm s = _
  simp only [execStore, imm12, hb, h, except_bind, Bool.false_eq_true, if_false, State.done_ok]

theorem exec_store_refused {s : State} {k : StoreKind} {rs1 : Reg} {imm : BitVec 12} {c : Nat} {v : Word} (rs2 : Reg)
    (hf : storeIsF k = true → s.me.fsOff = false) (h : s.storeCheck (s.xr rs1 + imm.signExtend 64) (storeWidth k) = trap c v) :
    exec (.store k rs1 rs2 imm) s = .next (s.raise c v) := by
  have hb : (storeIsF k && s.me.fsOff) = false := by simpa using hf
  show execStore k rs1 rs2 imm s = _
  simp only [execStore, imm12, hb, h, trap, except_bind, Bool.false_eq_true, if_false, State.done_exc]

theorem exec_store_fsOff {s : State} {k : StoreKind} (rs1 rs2 : Reg) (imm : BitVec 12) (hk : storeIsF k = true) (hf : s.me.fsOff = true) :
    exec (.store k rs1 rs2 imm) s = .next (s.raise 2 (wordOf (.store k rs1 rs2 imm))) := by
  show execStore k rs1 rs2 imm s = _
  simp only [execStore, hk, hf, Bool.and_self, if_true, State.done_illegal]

/-- A store that crosses a line ends in cause 6 before its translation. -/
theorem storeCheck_crossing {s : State} {va : Word} {n : Nat} (h : 128 < va.toNat % 128 + n) : s.storeCheck va n = trap 6 va := by
  have ha : alignedOk va n = false := by simpa [alignedOk] using h
  simp only [State.storeCheck, need, ha, trap, except_bind, Bool.false_eq_true, if_false]

theorem exec_sto_checked {s u : State} {x : Xlat} {rs1 : Reg} {w : BitVec 2} (rs2 : Reg) (sc : BitVec 3) (o : BitVec 2)
    (h : s.storeCheck (s.xr rs1) (2 ^ w.toNat) = .ok (u, x)) :
    exec (.sto rs1 rs2 sc o w) s = .next (u.scalarWrite x (2 ^ w.toNat) (u.xr rs2) (o != 0)).retire := by
  show execSto rs1 rs2 sc o w s = _
  simp only [execSto, h, except_bind, State.done_ok]

/-- A buffered scalar store, with what its entry holds of the context that issued it. -/
theorem exec_store_enters {s u : State} {x : Xlat} {k : StoreKind} {rs1 : Reg} {imm : BitVec 12} (rs2 : Reg)
    (hf : storeIsF k = true → s.me.fsOff = false) (h : s.storeCheck (s.xr rs1 + imm.signExtend 64) (storeWidth k) = .ok (u, x))
    (hc : regionOf x.pa ≠ .cfg) (hi : x.mt ≠ .io) (hroom : (u.core (coreOf u.cur)).storeBuffer.length < 16) :
    ∃ (t : State) (e : SBEntry), exec (.store k rs1 rs2 imm) s = .next t ∧
      (t.core (coreOf s.cur)).storeBuffer = (u.core (coreOf s.cur)).storeBuffer ++ [e] ∧
      e.cid = s.cur ∧ e.rel = false ∧ t.mem = s.mem ∧ t.me.x = s.me.x ∧ t.me.f = s.me.f ∧
      e.kind = .store x (storeWidth k) (BitVec.ofNat 64 ((if storeIsF k then s.me.getF rs2 else s.xr rs2).toNat % 2 ^ (8 * storeWidth k))) := by
  have hu := storeCheck_frame _ _ _ _ _ h
  have hx := exec_store_checked rs2 hf h
  rw [hu.me, hu.xr] at hx
  obtain ⟨e, hbuf, hcid, hrel, hkind, hmem, hme, -⟩ := scalarWrite_enters (x := x) (if storeIsF k then s.me.getF rs2 else s.xr rs2)
    (storeWidth_le k) (rel := false) rfl hc hi hroom
  have hcomp := completed_retire (u.scalarWrite x (storeWidth k) (if storeIsF k then s.me.getF rs2 else s.xr rs2) false)
  obtain ⟨-, hf', -⟩ := id hcomp
  simp only [Bool.false_eq_true, if_false] at hbuf hcid hmem hme
  rw [hu.cur] at hbuf hcid
  exact ⟨_, e, hx, hbuf, hcid, hrel, hmem.trans hu.mem, by rw [hf', hme, hu.me], by rw [hf', hme, hu.me], hkind⟩

/-- Settles O11: what a checked store does by where its bytes lie, and where a store ends before. -/
theorem storesEnterTheBuffer : Obligations.StoresEnterTheBuffer := by
  unfold Obligations.StoresEnterTheBuffer
  refine ⟨?_, fun s x g n v launch off tid keep w hr hi ho => mget_writeMem_io s g n v launch tid keep w hr hi ho, ?_,
    fun s k rs1 rs2 imm hf hx => exec_store_refused rs2 hf (storeCheck_crossing hx), fun s k => exec_store_fsOff⟩
  · intro s u x k rs1 rs2 imm hf h
    have hx := exec_store_checked rs2 hf h
    refine ⟨⟨_, hx, completed_retire _⟩, exec_store_enters rs2 hf h, fun hr => ?_, ?_⟩
    · rw [scalarWrite_cfg _ _ hr] at hx
      exact ⟨_, hx, completed_retire _⟩
    · rintro _ _ hc hi hs rfl rfl
      rw [scalarWrite_io _ _ hc hi hs] at hx
      exact ⟨_, hx, completed_retire _⟩
  · intro s u x rs1 rs2 sc o w h
    have hx := exec_sto_checked rs2 sc o h
    refine ⟨⟨_, hx, completed_retire _⟩, fun v hv hc hi hroom => ?_⟩
    have hv' : v = if (o != 0) then u.settleMe else u := by
      rw [hv]
      by_cases ho : o = 0 <;> simp [ho]
    obtain ⟨e, hbuf, hcid, hrel, hkind, hmem, -, -⟩ := scalarWrite_enters (x := x) (u.xr rs2) (width_le w) hv' hc hi hroom
    exact ⟨_, e, hx, hbuf, hcid, hrel, hkind, hmem⟩

/-! ### Performing a buffered store -/

/-- Settles O12: the entry leaves the buffer, and its bytes are written where they lie. -/
theorem performedStoreWritesItsBytes : Obligations.PerformedStoreWritesItsBytes := by
  unfold Obligations.PerformedStoreWritesItsBytes
  intro s cid n since x d pc task tid off vec he hmay hr hstop hp hq
  have hsilent : (s.dropEntry s.ev.a s.ev.b).silent x.pa = false := by
    simp only [State.silent, hr]
    exact hstop
  have hlocal : remoteScratch (clusterOf cid) x = false := by simp [remoteScratch, hr]
  have hx : exec .storeBufferEntryPerform s = .next ((s.dropEntry s.ev.a s.ev.b).writeMem (clusterOf cid) tid x n d.toNat (some cid)
      ((s.dropEntry s.ev.a s.ev.b).byCtx cid) ((s.dropEntry s.ev.a s.ev.b).ctx cid).launch) := by
    show execStoreBufferEntryPerform s = _
    rw [execStoreBufferEntryPerform, if_pos hmay, State.performEntry]
    simp only [he, Bool.false_eq_true, if_false, hsilent, hlocal, Bool.or_self]
    exact congrArg Host.Outcome.next (restorePhaser_writeMem_scratch (s := s.dropEntry s.ev.a s.ev.b) hr hp hq ..)
  rw [writeMem_scratch hr] at hx
  refine ⟨_, hx, fun j hj => ?_, fun a ha => mget_mwrite_outside _ _ _ _ _ ha, ?_⟩
  · show mget (mwrite _ _ _ _) _ = _
    rw [mget_mwrite_inside _ _ _ _ _ hj, Nat.pow_mul]
  · show ((s.dropEntry s.ev.a s.ev.b).core s.ev.a).storeBuffer = _
    rw [State.dropEntry, State.core_modCore_self]

/-! ### LR and SC -/

theorem exec_lr_checked {s u y : State} {x : Xlat} {n : Nat} {dbl : Bool} (hn : n = if dbl then 8 else 4) (aq rl : Bool) (rd rs1 : Reg)
    (h : s.atomicCheck .load needR false (s.xr rs1) n = .ok (u, x))
    (hy : y = (u.beforeAtomic rl x).tileAccess (clusterOf (u.beforeAtomic rl x).cur) x n x.writable (u.beforeAtomic rl x).me.tid
      (u.beforeAtomic rl x).me.qtid) :
    ∃ v w t, y.readMem (clusterOf y.cur) y.me.tid y.me.qtid x n = (v, w) ∧ exec (.lr dbl aq rl rd rs1) s = .next t ∧
      Completed (v.modCtx v.cur fun c => { c.setX rd (extendLoad n w true) with reservation := some ⟨x.pa, n⟩ }) t := by
  subst hn hy
  refine ⟨_, _, _, rfl, ?_, completed_retire _⟩
  show execLr dbl aq rl rd rs1 s = _
  simp only [execLr, h, except_bind, State.done_ok]
  rfl

theorem exec_sc_checked {s u w v : State} {x : Xlat} {n : Nat} {dbl : Bool} (hn : n = if dbl then 8 else 4) (aq rl : Bool) (rd rs1 rs2 : Reg)
    (h : s.atomicCheck .store needW true (s.xr rs1) n = .ok (u, x)) (hw : w = u.beforeAtomic rl x)
    (hv : v = w.modCtx w.cur fun c => { c with reservation := none }) :
    exec (.sc dbl aq rl rd rs1 rs2) s = s.done (.ok (if w.me.reservation = some ⟨x.pa, n⟩ then
      ((v.writeMem (clusterOf v.cur) v.me.tid x n ((u.xr rs2).toNat % 2 ^ (8 * n)) none (v.byCtx v.cur) v.me.launch).restorePhaser x.pa n).setXr rd 0
      else v.setXr rd 1)) := by
  subst hn hv hw
  show execSc dbl aq rl rd rs1 rs2 s = _
  simp only [execSc, h, except_bind, beq_iff_eq]
  exact congrArg s.done (apply_ite Except.ok ..).symm

theorem exec_lr_misaligned (s : State) (dbl aq rl : Bool) (rd rs1 : Reg) (h : (s.xr rs1).toNat % (if dbl then 8 else 4) ≠ 0) :
    exec (.lr dbl aq rl rd rs1) s = .next (s.raise 6 (s.xr rs1)) := by
  show execLr dbl aq rl rd rs1 s = _
  simp only [execLr, atomicCheck_misaligned s .load needR false h, except_bind, State.done_exc]

theorem exec_sc_misaligned (s : State) (dbl aq rl : Bool) (rd rs1 rs2 : Reg) (h : (s.xr rs1).toNat % (if dbl then 8 else 4) ≠ 0) :
    exec (.sc dbl aq rl rd rs1 rs2) s = .next (s.raise 6 (s.xr rs1)) := by
  show execSc dbl aq rl rd rs1 rs2 s = _
  simp only [execSc, atomicCheck_misaligned s .store needW true h, except_bind, State.done_exc]

/-- Settles O13: LR and SC after their checks, SC by whether its reservation stands, and the check that a misaligned one fails. -/
theorem loadReservedStoreConditional : Obligations.LoadReservedStoreConditional := by
  unfold Obligations.LoadReservedStoreConditional
  refine ⟨?_, ?_, fun s dbl aq rl rd rs1 rs2 h => ⟨exec_lr_misaligned s dbl aq rl rd rs1 h, exec_sc_misaligned s dbl aq rl rd rs1 rs2 h⟩⟩
  · intro s u x dbl aq rl rd rs1 h
    obtain ⟨v, w, t, hr, hx, hc⟩ := exec_lr_checked rfl aq rl rd rs1 h rfl
    exact ⟨_, v, w, t, rfl, hr, hx, hc⟩
  · intro s u x dbl aq rl rd rs1 rs2 h
    have hx := exec_sc_checked rfl aq rl rd rs1 rs2 h rfl rfl
    have hbits : 8 * (if dbl then 8 else 4) = if dbl then 64 else 32 := by cases dbl <;> rfl
    rw [hbits] at hx
    refine ⟨_, _, _, rfl, rfl, hx, fun hn => ?_, fun hs => ?_⟩
    · rw [if_neg hn]
      exact completed_retire _
    · rw [if_pos hs]
      exact completed_retire _

end Sys2Proof.Machine
end

