-- ==== Sys2Proof/Proofs/CoreEngine/Traps.lean ====
section
/-! Parked and held exceptions, the returns from a trap, and the waits for the loss of a reservation. Settles O22, O24 and O26. -/

namespace Sys2Proof.Machine

/-! ### Park and hold -/

/-- The disposition that an exception of a context takes where S mode would take it (R113, R128). -/
def Ctx.dispositionTaken (c : Ctx) (cause : Nat) : Nat :=
  if (if c.priv = .u then c.disposition cause else 0) = 0 ∧ c.stvec = 0 then 1 else if c.priv = .u then c.disposition cause else 0

theorem Ctx.dispositionTaken_ne_zero {c : Ctx} {cause : Nat} (h : c.stvec = 0 ∨ (c.priv = .u ∧ c.disposition cause ≠ 0)) :
    c.dispositionTaken cause ≠ 0 := by
  unfold Ctx.dispositionTaken
  by_cases hu : c.priv = .u
  · by_cases hd : c.disposition cause = 0
    · have hv : c.stvec = 0 := h.resolve_right fun q => q.2 hd
      simp [hu, hd, hv]
    · simp [hu, hd]
  · have hv : c.stvec = 0 := h.resolve_right fun q => hu q.1
    simp [hu, hv]

/-- It is a park where qfdisp says so, and where there is no handler and qfdisp asks for no other disposition. -/
theorem Ctx.dispositionTaken_eq_one {c : Ctx} {cause : Nat} : c.dispositionTaken cause = 1 ↔
    (c.priv = .u ∧ c.disposition cause = 1) ∨ (c.stvec = 0 ∧ (c.priv = .u → c.disposition cause = 0)) := by
  unfold Ctx.dispositionTaken
  by_cases hu : c.priv = .u
  · by_cases hd : c.disposition cause = 0 <;> by_cases hv : c.stvec = 0 <;> simp [hu, hd, hv]
  · by_cases hv : c.stvec = 0 <;> simp [hu, hv]

/-- The state in which a parked or held exception freezes its context: a request to stop that is no kill is dropped and counted (R114). -/
def State.stopDropped (s : State) (cid : Nat) : State := if (s.ctx cid).stop.any (!·.kill) then s.dropRequest (dieOf cid) else s

theorem raise_frozen {s : State} {cause : Nat} (v : Word) (hm : s.me.priv ≠ .m) (hd : s.me.medeleg.getLsbD cause = true)
    (h : s.me.stvec = 0 ∨ (s.me.priv = .u ∧ s.me.disposition cause ≠ 0)) :
    s.raise cause v = ((s.stopDropped s.cur).commandEnds s.cur).setCtx s.cur
      (s.me.trapped.freeze cause (s.shownTval cause v) s.now (s.me.dispositionTaken cause = 1)) := by
  have hg : s.me.trapped.goesToM cause = false := by
    show (decide (s.me.priv = .m) || !s.me.medeleg.getLsbD cause) = false
    simp [hm, hd]
  have hnow : (s.stopDropped s.cur).now = s.now := by unfold State.stopDropped; split <;> rfl
  show s.raiseCtx s.cur cause v = _
  rw [← hnow]
  have hne : ¬ s.me.dispositionTaken cause = 0 := Ctx.dispositionTaken_ne_zero h
  unfold State.raiseCtx
  exact (if_neg (Bool.eq_false_iff.1 hg)).trans (if_neg hne)

theorem dropped_stopDropped (s : State) (cid : Nat) : (((s.stopDropped cid).commandEnds cid).die (dieOf cid)).dropped =
    (s.die (dieOf cid)).dropped + if (s.ctx cid).stop.any (fun q => !q.kill) then 1 else 0 := by
  rw [State.commandEnds, State.die_modDie_self, State.stopDropped]
  split
  · rw [State.dropRequest, State.die_modDie_self]
  · exact (BitVec.add_zero _).symm

theorem stopDropped_frame (s : State) (cid : Nat) : ((s.stopDropped cid).commandEnds cid) =
    { s with dies := ((s.stopDropped cid).commandEnds cid).dies } := by
  unfold State.stopDropped
  split <;> rfl

/-- In compare mode the address of a refusal or a timeout is B's own, and every other stval is the exception's (R381). -/
theorem shownTval_eq {s : State} {cause : Nat} (v : Word) (h : s.replay.cmp = false ∨ (cause ≠ 25 ∧ cause ≠ 28)) : s.shownTval cause v = v := by
  unfold State.shownTval
  refine if_neg ?_
  obtain h | ⟨h25, h28⟩ := h
  · simp [h]
  · simp [h25, h28]

theorem reset_disposition (c : Nat) : Ctx.reset.disposition c = if c ≤ 7 ∨ (24 ≤ c ∧ c ≤ 31) ∨ (48 ≤ c ∧ c ≤ 50) then 1 else 0 := by
  by_cases h : c < 51
  · revert c
    decide
  · rw [if_neg (by omega)]
    unfold Ctx.disposition
    rw [if_neg (by omega), if_neg (by omega), if_neg (by omega)]

/-- Settles O22: the frozen context by `raise_frozen`, and the dispositions after reset one by one. -/
theorem parkAndHold : Obligations.ParkAndHold := by
  unfold Obligations.ParkAndHold
  refine ⟨fun s cause v hm hd h => ?_, reset_disposition⟩
  have hr := raise_frozen v hm hd h
  have hframe := stopDropped_frame s s.cur
  have hcur : (s.raise cause v).cur = s.cur := by rw [hr, hframe]; rfl
  have hme : (s.raise cause v).me = s.me.trapped.freeze cause (s.shownTval cause v) s.now (s.me.dispositionTaken cause = 1) := by
    rw [State.me, hcur, hr, State.ctx_setCtx_self]
  dsimp only
  rw [hme]
  refine ⟨rfl, rfl, rfl, rfl, rfl, rfl, rfl, rfl, rfl, rfl, rfl, shownTval_eq v, ⟨_, rfl, rfl, rfl, ?_⟩, fun j hj => ?_, ?_, ?_⟩
  · rw [decide_eq_true_eq]
    exact Ctx.dispositionTaken_eq_one
  · rw [hr, State.ctx_setCtx, if_neg hj, hframe]
    rfl
  · rw [hr, hframe]
    rfl
  · rw [hr, State.die_setCtx]
    exact dropped_stopDropped s s.cur

/-! ### Returns from a trap -/

/-- What a return from a trap leaves: the change that it makes of its context, and the pc that it sets. -/
theorem retireTo_modCtx (s : State) (f : Ctx → Ctx) (pc : Word) :
    (s.modCtx s.cur f).retireTo pc = s.modCtx s.cur fun c => { (f c).counted with pc := pc } := State.modCtx_modCtx ..

theorem exec_xret {s : State} {m : Bool} (h : s.me.xretOk m = true) : exec (.xret m) s = .next (s.modCtx s.cur fun c =>
    { (if m then c.mret else c.sret).counted with pc := if m then s.me.mepc else s.me.sepc }) := by
  show execXret m s = _
  cases m with
  | false =>
    simp only [execXret, h, Bool.not_true, Bool.false_eq_true, if_false, State.done_jump, retireTo_modCtx]
  | true =>
    simp only [execXret, h, Bool.not_true, Bool.false_eq_true, if_false, if_true, State.done_jump, retireTo_modCtx]

theorem exec_xret_illegal {s : State} {m : Bool} (h : s.me.xretOk m = false) : exec (.xret m) s = .next (s.raise 2 (wordOf (.xret m))) := by
  show execXret m s = _
  simp only [execXret, h, Bool.not_false, if_true, State.done_illegal]

theorem xretOk_machine (c : Ctx) (m : Bool) (h : c.priv = .m) : c.xretOk m = true := by
  simp only [Ctx.xretOk, h]

theorem xretOk_supervisor {c : Ctx} (h : c.priv = .s) (ht : c.mstatus.getLsbD 22 = false) : c.xretOk false = true := by
  simp only [Ctx.xretOk, h, bit, ht, Bool.not_false, Bool.and_self]

theorem xretOk_elsewhere {c : Ctx} {m : Bool} (h : c.priv = .u ∨ (c.priv = .s ∧ (m = true ∨ c.mstatus.getLsbD 22 = true))) :
    c.xretOk m = false := by
  obtain h | ⟨h, hm | ht⟩ := h
  · simp only [Ctx.xretOk, h]
  · simp only [Ctx.xretOk, h, hm, Bool.not_true, Bool.false_and]
  · simp only [Ctx.xretOk, h, bit, ht, Bool.not_true, Bool.and_false]

/-- A bit of a word, by arithmetic. -/
theorem div_mod_two_eq {n : Nat} (x : BitVec n) (i : Nat) : x.toNat / 2 ^ i % 2 = (x.getLsbD i).toNat := by
  rw [BitVec.getLsbD, Nat.testBit_eq_decide_div_mod_eq]
  have := Nat.mod_two_eq_zero_or_one (x.toNat / 2 ^ i)
  obtain h | h := this <;> simp [h]

/-- The bits of mstatus that SRET sets (R112). -/
theorem sret_mstatus (c : Ctx) : c.sret.mstatus.getLsbD 1 = c.mstatus.getLsbD 5 ∧ c.sret.mstatus.getLsbD 5 = true ∧
    c.sret.mstatus.getLsbD 8 = false := by
  have hb := div_mod_two_eq c.mstatus 5
  simp only [Ctx.sret, show (32 : Nat) = 2 ^ 5 from rfl, hb]
  cases c.mstatus.getLsbD 5 <;> simp [word]

theorem sret_priv (c : Ctx) : c.sret.priv = if c.mstatus.getLsbD 8 then .s else .u := by
  have hb := div_mod_two_eq c.mstatus 8
  simp only [Ctx.sret, show (256 : Nat) = 2 ^ 8 from rfl, hb]
  cases c.mstatus.getLsbD 8 <;> rfl

/-- The bits of mstatus that MRET sets. -/
theorem mret_mstatus (c : Ctx) : c.mret.mstatus.getLsbD 3 = c.mstatus.getLsbD 7 ∧ c.mret.mstatus.getLsbD 7 = true ∧
    c.mret.mstatus.extractLsb' 11 2 = 0 := by
  have hb := div_mod_two_eq c.mstatus 7
  obtain ⟨m, hm, h3, h11, h12⟩ : ∃ m : Word, c.mret.mstatus = (c.mstatus &&& ~~~m) |||
      BitVec.ofNat 64 ((c.mstatus.getLsbD 7).toNat * 8 + 128) ∧ m[3] = true ∧ m[11] = true ∧ m[12] = true := by
    refine ⟨if c.mret.priv = .m then 0x1888#64 else 0x21888#64, by rw [← hb]; rfl, ?_⟩
    split <;> simp
  rw [hm]
  refine ⟨?_, ?_, BitVec.eq_of_getLsbD_eq fun i hi => ?_⟩
  · cases c.mstatus.getLsbD 7 <;> simp [h3]
  · cases c.mstatus.getLsbD 7 <;> simp
  · rw [BitVec.getLsbD_extractLsb']
    obtain rfl | rfl : i = 0 ∨ i = 1 := by omega
    all_goals cases c.mstatus.getLsbD 7 <;> simp [h11, h12]

theorem mret_priv (c : Ctx) : c.mret.priv = if c.mstatus.extractLsb' 11 2 = 3 then .m else if c.mstatus.extractLsb' 11 2 = 0 then .u else .s := by
  have hb : c.mstatus.toNat / 2048 % 4 = (c.mstatus.extractLsb' 11 2).toNat := by
    rw [BitVec.extractLsb'_toNat, Nat.shiftRight_eq_div_pow]
  simp only [Ctx.mret, hb]
  generalize c.mstatus.extractLsb' 11 2 = f
  revert f
  decide

/-- Settles O24: the two returns by the bits that they set, and every other mode by `xretOk`. -/
theorem trapReturns : Obligations.TrapReturns := by
  unfold Obligations.TrapReturns
  refine ⟨fun s h => ?_, fun s h => ?_, fun s m h => exec_xret_illegal (xretOk_elsewhere h)⟩
  · have hok : s.me.xretOk false = true := h.elim (xretOk_machine _ _) fun hs => xretOk_supervisor hs.1 hs.2
    obtain ⟨h1, h5, h8⟩ := sret_mstatus s.me
    refine ⟨_, exec_xret hok, onlyCtx_modCtx .., ?_⟩
    rw [State.me, State.modCtx_cur, State.ctx_modCtx_self]
    exact ⟨rfl, sret_priv s.me, h1, h5, h8, rfl, rfl, rfl, rfl, rfl⟩
  · obtain ⟨h3, h7, h11⟩ := mret_mstatus s.me
    refine ⟨_, exec_xret (xretOk_machine _ _ h), onlyCtx_modCtx .., ?_⟩
    rw [State.me, State.modCtx_cur, State.ctx_modCtx_self]
    exact ⟨rfl, mret_priv s.me, h3, h7, h11, rfl, rfl, rfl⟩

/-! ### Waits for the loss of a reservation -/

theorem done_wrs_none {s : State} (k : WaitKind) (limit : Nat) (h : s.me.reservation = none) :
    ∃ t, s.done (s.wrs k limit) = .next t ∧ Completed (s.modDie (dieOf s.cur) fun d => { d with zerowait := d.zerowait + 1 }) t := by
  refine ⟨_, ?_, completed_retire _⟩
  rw [State.wrs, h]
  rfl

theorem done_wrs_some {s : State} {r : Reservation} (k : WaitKind) (limit : Nat) (h : s.me.reservation = some r) :
    ∃ t, s.done (s.wrs k limit) = .next t ∧ Waits s t k ∧ ∃ w, t.me.wait = some w ∧ w.deadline = some (s.now + limit) := by
  have hw := waits_leave s k (word r.pa) 0 0 Xlat.none (some (s.now + limit))
  refine ⟨_, ?_, hw, ⟨k, word r.pa, 0, 0, Xlat.none, s.now, some (s.now + limit)⟩, congrArg Ctx.wait (State.me_modCtx s _), rfl⟩
  rw [State.wrs, h]
  rfl

theorem wrsTimeout_eq {s : State} {cid d : Nat} {w : Wait} (hst : (s.ctx cid).status = .waiting) (hw : (s.ctx cid).wait = some w)
    (hk : (s.ctx cid).wake = none) (hn : (s.ctx cid).saveNow = false) (h : w.kind = .wrsNto ∨ w.kind = .wrsSto) (hd : w.deadline = some d) :
    s.wrsTimeout cid = if d ≤ s.now then
      s.modCtx cid fun c => { c with wake := some ⟨0, pcode 6 (s.reportCore (coreOf cid)), d, 0, true⟩ } else s := by
  simp only [State.wrsTimeout, hw, hd, hst, hk, hn, decide_true, Bool.not_false, Option.isNone_none, Bool.true_and, Bool.and_true]
  obtain h | h := h <;> simp [h]

/-- A WRS that a wake ends retires in its context's slot, with its edge record (R17). -/
theorem reinsert_wrs {s : State} {cid : Nat} {w : Wait} {k : Wake} (hst : (s.ctx cid).status = .waiting) (hw : (s.ctx cid).wait = some w)
    (hk : (s.ctx cid).wake = some k) (hn : (s.ctx cid).saveNow = false) (hd : (s.die (dieOf cid)).stopped = false)
    (h : w.kind = .wrsNto ∨ w.kind = .wrsSto) :
    s.reinsert cid = ((s.edge (dieOf cid) (s.ctx cid).qtid k w.kind.code).modCtx cid Ctx.back).retireCtx cid := by
  have hr : w.kind.rtype = some w.kind.code := by obtain h | h := h <;> rw [h] <;> rfl
  have hc : ((s.ctx cid).status ≠ .waiting || (s.die (dieOf cid)).stopped || (s.ctx cid).saveNow) = false := by simp [hst, hd, hn]
  simp only [State.reinsert, hc, hw, hk, hr, State.endWait]
  obtain h | h := h <;> rw [h] <;> rfl

/-- Settles O26: WRS by whether its context holds a reservation, the timeout by its deadline, and the end by the wake. -/
theorem reservationWaits : Obligations.ReservationWaits := by
  unfold Obligations.ReservationWaits
  refine ⟨fun s h => ⟨done_wrs_none .wrsNto s.tmo h, done_wrs_none .wrsSto 1000 h⟩, fun s r h => ⟨?_, done_wrs_some .wrsSto 1000 h⟩, ?_, ?_⟩
  · have ht : s.tmo = (s.qmtmo.extractLsb' 0 40).toNat := bits_eq ..
    rw [← ht]
    exact done_wrs_some .wrsNto s.tmo h
  · intro s w d hst hw hk hn h hd
    have he := wrsTimeout_eq hst hw hk hn h hd
    refine ⟨fun hle => ?_, fun hlt => ?_⟩
    · rw [if_pos hle] at he
      exact congrArg Host.Outcome.next he
    · rw [if_neg (Nat.not_le.2 hlt)] at he
      exact congrArg Host.Outcome.next he
  · intro s w k hst hw hk hn hd h
    exact ⟨_, rfl, congrArg Host.Outcome.next (reinsert_wrs hst hw hk hn hd h)⟩

end Sys2Proof.Machine
end

