-- ==== Sys2Proof/Proofs/CoreEngine/Helpers.lean ====
section
/-! Helpers (R106 to R109) and the loop (R111). Settles O33 and O34. -/

namespace Sys2Proof.Machine

/-! ### LOOP.SET and LOOP.CLR -/

/-- A loop that starts at the next word does not end at the instruction that sets it. -/
theorem not_atLoopEnd_of_next {c : Ctx} (h : c.loopStart = c.pc + 4) : ¬ c.AtLoopEnd := by
  rintro ⟨-, -, hpc⟩
  have hl := (c.qloop.extractLsb' 32 12).isLt
  rw [h] at hpc
  bv_omega

theorem not_atLoopEnd_of_unarmed {c : Ctx} (h : c.qloop.getLsbD 63 = false) : ¬ c.AtLoopEnd := by
  rintro ⟨ha, -⟩
  exact Bool.false_ne_true (h.symm.trans ha)

/-- Where no pass of a loop ends, completion goes on at the next word and leaves the loop as it is. -/
theorem Completed.next {u t : State} (h : Completed u t) (hl : ¬ u.me.AtLoopEnd) : t.me.pc = u.me.pc + 4 ∧ t.me.qloop = u.me.qloop := by
  obtain ⟨-, -, -, -, -, -, -, hn⟩ := h
  exact hn hl

/-- qloop as LOOP.SET leaves it (R110, R111). -/
theorem loopArm_eq (c : Ctx) (n imm : Nat) : c.loopArm n imm =
    { c with qloop := BitVec.ofNat 64 (min n (2 ^ 32 - 1) + (imm - 1) * 2 ^ 32 + 2 ^ 63 +
        match c.priv with
        | .u => 0
        | .s => 2 ^ 62
        | .m => if Config.freeLoopMode then 2 ^ 62 else 0), loopStart := c.pc + 4 } := by
  have hm : bnat (loopMode c.priv) * 2 ^ 62 = match c.priv with
      | .u => 0
      | .s => 2 ^ 62
      | .m => if Config.freeLoopMode then 2 ^ 62 else 0 := by
    cases c.priv with
    | u => rfl
    | s => rfl
    | m => cases h : Config.freeLoopMode <;> simp [loopMode, h, bnat]
  rw [Ctx.loopArm, hm, word]
  congr 2
  omega

theorem loopArm_pc (c : Ctx) (n imm : Nat) : (c.loopArm n imm).pc = c.pc := by rw [loopArm_eq]

theorem loopArm_loopStart (c : Ctx) (n imm : Nat) : (c.loopArm n imm).loopStart = c.pc + 4 := by rw [loopArm_eq]

theorem exec_loopSet_arms {s : State} {a : Reg} {imm : BitVec 12} (hi : imm ≠ 0) (ha : s.xr a ≠ 0) :
    exec (.loopSet a imm) s = .next (s.setCtx s.cur (s.me.loopArm (s.xr a).toNat imm.toNat)).retire := by
  have hn : (s.xr a).toNat ≠ 0 := fun h0 => ha (BitVec.eq_of_toNat_eq h0)
  show execLoopSet a imm s = _
  rw [execLoopSet, if_neg hi, State.done_ok]
  simp only [if_neg hn]
  rfl

theorem exec_loopSet_zero {s : State} {a : Reg} {imm : BitVec 12} (hi : imm ≠ 0) (ha : s.xr a = 0) :
    exec (.loopSet a imm) s = .next (s.modCtx s.cur Ctx.loopClear).retire := by
  show execLoopSet a imm s = _
  rw [execLoopSet, if_neg hi, State.done_ok, ha]
  rfl

theorem exec_loopClr (s : State) : exec .loopClr s = .next (s.modCtx s.cur Ctx.loopClear).retire := rfl

theorem exec_loopSet_illegal (s : State) {a : Reg} (h : a ≠ 0) : exec (.loopSet a 0) s = .next (s.raise 2 (wordOf (.loopSet a 0))) := by
  show execLoopSet a 0 s = _
  rw [execLoopSet, if_pos rfl, if_neg h, State.done_illegal]

/-- ARMED, COUNT and LEN of a cleared loop. -/
theorem loopClear_fields (q : Word) : (q &&& 0x4000000000000000#64).getLsbD 63 = false ∧ (q &&& 0x4000000000000000#64).extractLsb' 0 44 = 0 := by
  have hm : ∀ i, i < 44 → (0x4000000000000000#64).getLsbD i = false := by decide
  refine ⟨by simp, BitVec.eq_of_getLsbD_eq fun i hi => ?_⟩
  rw [BitVec.getLsbD_extractLsb', BitVec.getLsbD_and, Nat.zero_add, hm i hi]
  simp

/-- Settles O34: the loop armed or cleared, and that neither ends a pass at its own instruction. -/
theorem loopControl : Obligations.LoopControl := by
  unfold Obligations.LoopControl
  refine ⟨fun s a imm d hi hd => ⟨fun ha => ?_, fun ha => ⟨_, exec_loopSet_zero hi ha, completed_retire _⟩⟩, fun s => ?_,
    fun s a => exec_loopSet_illegal s⟩
  · obtain rfl : d = s.me.loopArm (s.xr a).toNat imm.toNat := hd.trans (loopArm_eq ..).symm
    have hc := completed_retire (s.setCtx s.cur (s.me.loopArm (s.xr a).toNat imm.toNat))
    have hn := hc.next (by rw [State.me_setCtx]; exact not_atLoopEnd_of_next (by rw [loopArm_loopStart, loopArm_pc]))
    rw [State.me_setCtx, loopArm_pc] at hn
    exact ⟨_, exec_loopSet_arms hi ha, hc, hn⟩
  · obtain ⟨h63, h44⟩ := loopClear_fields s.me.qloop
    have hc := completed_retire (s.modCtx s.cur Ctx.loopClear)
    have hme : (s.modCtx s.cur Ctx.loopClear).me = s.me.loopClear := State.me_modCtx ..
    obtain ⟨hpc, hq⟩ := hc.next (by rw [hme]; exact not_atLoopEnd_of_unarmed h63)
    rw [hme] at hpc hq
    refine ⟨_, exec_loopClr s, hc, ?_, ?_, hpc⟩
    · rw [hq]
      exact h63
    · rw [hq]
      exact h44

/-! ### HSTART -/

theorem find_helper_none {p : Nat → Bool} (h : ∀ j, 1 ≤ j → j ≤ 10 → p j = false) : ((List.range 10).map (· + 1)).find? p = none := by
  simp only [List.find?_eq_none, List.mem_map, List.mem_range]
  rintro _ ⟨i, hi, rfl⟩
  simp [h (i + 1) (by omega) (by omega)]

theorem find_helper_some {p : Nat → Bool} {j : Nat} (h1 : 1 ≤ j) (h10 : j ≤ 10) (hp : p j = true) (hl : ∀ i, 1 ≤ i → i < j → p i = false) :
    ((List.range 10).map (· + 1)).find? p = some j := by
  obtain ⟨i, rfl⟩ := Nat.exists_eq_add_of_le' h1
  have h : (List.range 10).find? (p ∘ (· + 1)) = some i :=
    List.find?_range_eq_some.2 ⟨hp, List.mem_range.2 (by omega), fun m hm => by simp [hl (m + 1) (by omega) (by omega)]⟩
  rw [List.find?_map, h, Option.map_some]

theorem Ctx.getX_helper (c c0 : Ctx) (id pc arg : Word) (bps : Vector Breakpoint 4) (r : Reg) :
    (c.helper c0 id pc arg bps).getX r = if r = 10 then arg else 0 := by
  show ((Ctx.setX _ 10 arg).getX r) = _
  rw [Ctx.getX_setX]
  by_cases h : r = 10
  · rw [if_pos h, if_pos ⟨h, by rw [h]; decide⟩]
  · rw [if_neg h, if_neg fun q => h q.1]
    simp [Ctx.getX, Ctx.newThread, Ctx.reset]

theorem Ctx.getF_helper (c c0 : Ctx) (id pc arg : Word) (bps : Vector Breakpoint 4) (r : Reg) : (c.helper c0 id pc arg bps).getF r = 0 := by
  simp [Ctx.getF, Ctx.helper, Ctx.setX, Ctx.newThread, Ctx.reset]

theorem exec_hstart_misaligned {s : State} {a : Reg} (rd b : Reg) (h0 : ctxNum s.cur = 0) (ha : (s.xr a).toNat % 4 ≠ 0) :
    exec (.hstart rd a b) s = .next (s.raise 0 (s.xr a)) := by
  have hb : bits (s.xr a) 1 0 ≠ 0 := ha
  show execHstart rd a b s = _
  rw [execHstart, if_neg (not_not.2 h0), if_pos hb, State.done_trap]

theorem exec_hstart_full {s u : State} {a : Reg} (rd b : Reg) (h0 : ctxNum s.cur = 0) (ha : (s.xr a).toNat % 4 = 0) (hu : s.settleMe = u)
    (hf : ((List.range 10).map (· + 1)).find? (u.helperFree (coreOf u.cur)) = none) :
    exec (.hstart rd a b) s = .next (u.setXr rd 0).retire := by
  have hb : ¬ bits (s.xr a) 1 0 ≠ 0 := not_not.2 ha
  have hx : exec (.hstart rd a b) s = execHstart rd a b s := rfl
  rw [hx, execHstart, if_neg (not_not.2 h0), if_neg hb, hu]
  simp only [hf, State.done_ok]

/-- The helper's slot takes a first state (R106), and rd its number. -/
theorem exec_hstart_starts {s u : State} {a : Reg} {j : Nat} (rd b : Reg) (h0 : ctxNum s.cur = 0) (ha : (s.xr a).toNat % 4 = 0)
    (hu : s.settleMe = u) (hf : ((List.range 10).map (· + 1)).find? (u.helperFree (coreOf u.cur)) = some j) :
    ∃ (c : Ctx) (id : Word) (bps : Vector Breakpoint 4), exec (.hstart rd a b) s = .next
      (((u.newId u.me.launch (dieOf u.cur)).1.setCtx (coreOf u.cur * 12 + j) (c.helper u.me id (s.xr a) (s.xr b) bps)).setXr rd
        (BitVec.ofNat 64 j)).retire := by
  have hb : ¬ bits (s.xr a) 1 0 ≠ 0 := not_not.2 ha
  have hx : exec (.hstart rd a b) s = execHstart rd a b s := rfl
  let n := u.newId u.me.launch (dieOf u.cur)
  let cid := coreOf u.cur * 12 + j
  refine ⟨n.1.ctx cid, word (bits u.me.qtid 63 32 * 2 ^ 32 + bits n.2 31 0), n.1.launchBps (dieOf cid) (bits u.me.qtid 51 32), ?_⟩
  rw [hx, execHstart, if_neg (not_not.2 h0), if_neg hb, hu]
  simp only [hf, State.done_ok]
  rfl

/-! ### HEXIT -/

/-- A wake changes no status. -/
theorem status_wakeIf (s : State) (p : Nat → Wait → Bool) (w : Wake) (j : Nat) : ((s.wakeIf p w).ctx j).status = (s.ctx j).status := by
  unfold State.ctx State.wakeIf
  induction s.ctxs with
  | nil => rfl
  | cons q t ih =>
    simp only [List.map_cons, tfind]
    grind

theorem status_endContext (s : State) (cid : Nat) : ((s.endContext cid).ctx cid).status = .idle := by
  unfold State.endContext State.commandEnds
  simp only [State.ctx_modCluster, State.ctx_modDie, ctx_slotFreed, State.ctx_modCtx_self]
  rfl

theorem status_writeLatch (s : State) (cid : Nat) (v : Word) (w : Wake) (j : Nat) : ((s.writeLatch cid v w).ctx j).status = (s.ctx j).status := by
  unfold State.writeLatch
  dsimp only
  split
  · exact status_wakeIf ..
  · rw [State.ctx_modCore]
    exact status_wakeIf ..

theorem status_wakeHexit (s : State) (k : Nat) (w : Wake) (j : Nat) : ((s.wakeHexit k w).ctx j).status = (s.ctx j).status := by
  unfold State.wakeHexit
  split
  · exact status_wakeIf ..
  · rfl

theorem status_endHelper (s : State) (cid : Nat) (v : Word) (w : Wake) : ((s.endHelper cid v w).ctx cid).status = .idle := by
  rw [State.endHelper, status_wakeHexit, status_writeLatch, status_endContext]

theorem exec_hexit_helper {s u : State} (a : Reg) (hu : s.settle s.cur = u) (h0 : ctxNum s.cur ≠ 0) (ht : (u.ctx s.cur).task = none) :
    exec (.hexit a) s = .next ((u.endHelper s.cur (s.xr a) (u.byCtx s.cur)).ended (coreOf s.cur) (u.ctx s.cur).launch) := by
  have hx : exec (.hexit a) s = execHexit a s := rfl
  rw [hx, execHexit, if_pos h0, State.done_left, State.hexitNow, hu]
  simp only [ht, if_neg h0]

theorem exec_hexit_task {s u : State} (a : Reg) {e : TaskEntry} (hu : s.settle s.cur = u) (h0 : ctxNum s.cur ≠ 0)
    (ht : (u.ctx s.cur).task = some e) :
    exec (.hexit a) s = .next ((u.taskExit s.cur e).ended (coreOf s.cur) (u.ctx s.cur).launch) := by
  have hx : exec (.hexit a) s = execHexit a s := rfl
  rw [hx, execHexit, if_pos h0, State.done_left, State.hexitNow, hu]
  simp only [ht]

/-- Nothing goes on at an end that neither a kill nor a stop of the launch waits for. -/
theorem ended_idle {v : State} {k key : Nat} (hs : ∀ q ∈ v.saved, q.ending = none ∨ coreOf q.cid ≠ k)
    (hl : ∀ l, v.launchAt key = some l → l.stopping = false) : v.ended k key = v := by
  have hk : v.saved.find? (fun q => q.ending.isSome && coreOf q.cid == k) = none := by
    refine List.find?_eq_none.2 fun q hq => ?_
    obtain h | h := hs q hq <;> simp [h]
  have hf : v.finishKill k = v := by simp only [State.finishKill, hk]
  simp only [State.ended, hf]
  cases hv : v.launchAt key with
  | none => rfl
  | some l => simp only [hl l hv, Bool.false_eq_true, if_false]

theorem exec_hexit_control {s : State} (a : Reg) (h0 : ctxNum s.cur = 0) (hg : s.helpersGone (coreOf s.cur) = true) :
    exec (.hexit a) s = .next ((s.modDie (dieOf s.cur) fun d => { d with zerowait := d.zerowait + 1 }).hexitNow s.cur (s.xr a)) := by
  show execHexit a s = _
  rw [execHexit, if_neg (not_not.2 h0), if_pos hg, State.done_left]
  rfl

theorem exec_hexit_waits {s : State} (a : Reg) (h0 : ctxNum s.cur = 0) (hg : s.helpersGone (coreOf s.cur) = false) :
    ∃ t, exec (.hexit a) s = .next t ∧ Waits s t .hexit := by
  refine ⟨_, ?_, waits_leave s .hexit (s.xr a) 0 0 Xlat.none none⟩
  show execHexit a s = _
  rw [execHexit, if_neg (not_not.2 h0), if_neg (by simp [hg]), State.done_left]

/-! ### HJOIN and FALIGN -/

section
variable {s : State} {a : Reg} {n : Nat} (rd : Reg)

theorem exec_hjoin_none (hn : (s.xr a).toNat = 0 ∨ 10 < (s.xr a).toNat) : exec (.hjoin rd a) s = .next (s.zeroWaitMe.setXr rd 0).retire := by
  show execHjoin rd a s = _
  rw [execHjoin, if_pos hn, State.done_ok]

theorem exec_hjoin_latch {x : Word} (h1 : 1 ≤ (s.xr a).toNat) (h10 : (s.xr a).toNat ≤ 10)
    (hx : tfind (s.core (coreOf s.cur)).latches (s.xr a).toNat = some x) : exec (.hjoin rd a) s = .next
      ((s.zeroWaitMe.modCore (coreOf s.cur) fun k => { k with latches := tdel k.latches (s.xr a).toNat }).setXr rd x).retire := by
  show execHjoin rd a s = _
  rw [execHjoin, if_neg (by omega)]
  simp only [hx, State.done_ok]

/-- Without a latch HJOIN looks at the slot: HSTART's helper, live or saved, is still to end. -/
theorem exec_hjoin_slot (h1 : 1 ≤ (s.xr a).toNat) (h10 : (s.xr a).toNat ≤ 10)
    (hx : tfind (s.core (coreOf s.cur)).latches (s.xr a).toNat = none) : exec (.hjoin rd a) s =
      s.done (if (s.ctx (coreOf s.cur * 12 + (s.xr a).toNat)).hstarted || (s.ctx (coreOf s.cur * 12 + (s.xr a).toNat)).status = .reserved then
        .error (.left (s.leave .hjoin (s.xr a) 0 rd Xlat.none none)) else .ok (s.zeroWaitMe.setXr rd 0)) := by
  show execHjoin rd a s = _
  rw [execHjoin, if_neg (by omega)]
  simp only [hx]
end

theorem exec_hjoin {s u : State} {c : Ctx} {n : Nat} (rd a : Reg) (hn : n = (s.xr a).toNat) (hc : c = s.ctx (coreOf s.cur * 12 + n))
    (hu : u = s.zeroWaitMe) :
    (n = 0 ∨ 10 < n → ∃ t, exec (.hjoin rd a) s = .next t ∧ Completed (u.setXr rd 0) t) ∧
    (1 ≤ n → n ≤ 10 → ∀ x, tfind (s.core (coreOf s.cur)).latches n = some x → ∃ t, exec (.hjoin rd a) s = .next t ∧
      Completed ((u.modCore (coreOf s.cur) fun k => { k with latches := tdel k.latches n }).setXr rd x) t) ∧
    (1 ≤ n → n ≤ 10 → tfind (s.core (coreOf s.cur)).latches n = none →
      (c.hstarted = true ∨ c.status = .reserved → ∃ t, exec (.hjoin rd a) s = .next t ∧ Waits s t .hjoin) ∧
      (c.hstarted = false → c.status ≠ .reserved → ∃ t, exec (.hjoin rd a) s = .next t ∧ Completed (u.setXr rd 0) t)) := by
  subst hn hc hu
  refine ⟨fun h => ⟨_, exec_hjoin_none rd h, completed_retire _⟩, fun h1 h10 x hx => ⟨_, exec_hjoin_latch rd h1 h10 hx, completed_retire _⟩,
    fun h1 h10 hx => ?_⟩
  rw [exec_hjoin_slot rd h1 h10 hx]
  refine ⟨fun h => ?_, fun hs hr => ?_⟩
  · rw [if_pos (by simpa using h), State.done_left]
    exact ⟨_, rfl, waits_leave ..⟩
  · rw [if_neg (by simp [hs, hr]), State.done_ok]
    exact ⟨_, rfl, completed_retire _⟩

theorem exec_falign (s : State) (a : Reg) : (s.xr a = 0 → ∃ t, exec (.falign a) s = .next t ∧ Completed s t) ∧
    (s.xr a ≠ 0 → s.aligned s.cur = true → ∃ t, exec (.falign a) s = .next t ∧ Completed (s.falignRelease s.cur) t) ∧
    (s.xr a ≠ 0 → s.aligned s.cur = false → ∃ t, exec (.falign a) s = .next t ∧ Waits s t .falign ∧
      t.me.wait.bind (·.deadline) = some ((s.cycle (dieOf s.cur)).toNat + min (s.xr a).toNat 65535)) := by
  have hx : exec (.falign a) s = execFalign a s := rfl
  have hb : min (s.xr a).toNat 65535 = 0 ↔ s.xr a = 0 := by
    rw [← BitVec.toNat_inj]
    simp
  rw [hx, execFalign]
  refine ⟨fun h => ?_, fun h ha => ?_, fun h ha => ?_⟩
  · rw [if_pos (hb.2 h), State.done_ok]
    exact ⟨_, rfl, completed_retire _⟩
  · rw [if_neg (mt hb.1 h), if_pos ha, State.done_ok]
    exact ⟨_, rfl, completed_retire _⟩
  · rw [if_neg (mt hb.1 h), if_neg (by simp [ha]), State.done_left]
    refine ⟨_, rfl, waits_leave .., ?_⟩
    rw [State.me, State.leave, State.modCtx_cur, State.ctx_modCtx_self]
    rfl

/-- Settles O33: each instruction by the state of the slots, the latches and the launch that it looks at. -/
theorem helpersComplete : Obligations.HelpersComplete := by
  unfold Obligations.HelpersComplete
  refine ⟨fun s u rd a b h0 ha hu => ⟨fun hn => ?_, fun j h1 h10 hj hl => ?_⟩, fun s rd a b h0 ha => exec_hstart_misaligned rd b h0 ha, ?_,
    fun s u a e hu h0 ht => exec_hexit_task a hu.symm h0 ht, fun v k key => ended_idle,
    fun s a h0 => ⟨exec_hexit_control a h0, exec_hexit_waits a h0⟩, fun s u rd a n c hn hc hu => exec_hjoin rd a hn hc hu, exec_falign⟩
  · exact ⟨_, exec_hstart_full rd b h0 ha hu.symm (find_helper_none hn), completed_retire _⟩
  · obtain ⟨c, id, bps, hx⟩ := exec_hstart_starts rd b h0 ha hu.symm (find_helper_some h1 h10 hj hl)
    exact ⟨_, _, _, rfl, hx, completed_retire _, rfl, rfl, rfl, by rw [Ctx.getX_helper]; exact if_pos rfl,
      fun r hr => by rw [Ctx.getX_helper]; exact if_neg hr, fun r => Ctx.getF_helper .., rfl, rfl, rfl, rfl, rfl, rfl⟩
  · rintro s u _ a hu h0 ht rfl
    exact ⟨exec_hexit_helper a hu.symm h0 ht, status_endHelper ..⟩

end Sys2Proof.Machine
end

