-- ==== Sys2Proof/Proofs/CoreEngine/Turns.lean ====
section
/-! A turn of the schedule that a context issues in, the fetch, and what a step makes of the decoded instruction (R97, R98, R181). Settles O4. -/

namespace Sys2Proof.Machine

/-! ### Whose turn it is -/

/-- A running context without a request to stop or halt does not end at a boundary. -/
theorem boundary_of_free {c : Ctx} (hs : c.stop = none) (hh : c.haltReq = false) : c.boundary = false := by
  simp [Ctx.boundary, hs, hh]

theorem slot_issues {s : State} {cid : Nat} (hd : (s.die (dieOf cid)).stopped = false) (hr : (s.ctx cid).status = .running)
    (hb : (s.ctx cid).boundary = false) (hq : (s.ctx cid).request = none) : s.slot cid = ({ s with cur := cid }, .issue) := by
  have hd' : (({ s with cur := cid } : State).die (dieOf cid)).stopped = false := hd
  simp only [State.slot, hd', hr, hb, hq, Bool.false_eq_true, if_false]

theorem slot_retires {s : State} {cid : Nat} {i : Instr} {pa home : Option Nat} (hd : (s.die (dieOf cid)).stopped = false)
    (hr : (s.ctx cid).status = .running) (hb : (s.ctx cid).boundary = false) (hq : (s.ctx cid).request = some (.access i pa home)) :
    s.slot cid = ({ s with cur := cid } : State).retireAway cid i := by
  have hd' : (({ s with cur := cid } : State).die (dieOf cid)).stopped = false := hd
  simp only [State.slot, hd', hr, hb, hq, Bool.false_eq_true, if_false]

/-- The rotation of a core reaches the context of its next slot where something happens in that slot (R97). -/
theorem reaches_of_turn {s : State} {cid : Nat} (ht : (s.core (coreOf cid)).turn = ctxNum cid) (ha : s.acts cid = true) : s.reaches cid = true := by
  have h12 : ctxNum cid < 12 := Nat.mod_lt _ (by decide)
  have hrot : (rotation (ctxNum cid)).takeWhile (· ≠ ctxNum cid) = [] := by
    have hm : (ctxNum cid + 0) % 12 = ctxNum cid := Nat.mod_eq_of_lt h12
    rw [rotation, List.range_succ_eq_map, List.map_cons, hm, List.takeWhile_cons_of_neg (by simp)]
  simp only [State.reaches, ha, ht, hrot, List.all_nil, Bool.and_self]

/-- The context of its core's next slot acts, and the rotation goes on to the slot after it (R97). -/
theorem turnOf_of_turn {w : State} {cid : Nat} (ht : (w.core (coreOf cid)).turn = ctxNum cid) (ha : (w.slot cid).2 ≠ .none) :
    w.turnOf cid = (w.modCore (coreOf cid) fun c => { c with turn := (ctxNum cid + 1) % 12 }).slot cid := by
  have hacts : w.acts cid = true := by simp [State.acts, ha]
  rw [State.turnOf, if_pos (reaches_of_turn ht hacts)]

/-- The context of the next slot issues at its turn. -/
theorem turnOf_issues {w : State} {cid : Nat} (ht : (w.core (coreOf cid)).turn = ctxNum cid) (hd : (w.die (dieOf cid)).stopped = false)
    (hr : (w.ctx cid).status = .running) (hb : (w.ctx cid).boundary = false) (hq : (w.ctx cid).request = none) :
    w.turnOf cid = ({ w.modCore (coreOf cid) (fun c => { c with turn := (ctxNum cid + 1) % 12 }) with cur := cid }, .issue) :=
  (turnOf_of_turn ht (by rw [slot_issues hd hr hb hq]; exact nofun)).trans (slot_issues hd hr hb hq)

/-- Where the reply has come, the instruction that had left the rotation retires. -/
theorem turnOf_retires {w : State} {cid : Nat} {i : Instr} {pa home : Option Nat} (ht : (w.core (coreOf cid)).turn = ctxNum cid)
    (hd : (w.die (dieOf cid)).stopped = false) (hr : (w.ctx cid).status = .running) (hb : (w.ctx cid).boundary = false)
    (hq : (w.ctx cid).request = some (.access i pa home)) : w.turnOf cid =
      ({ w.modCore (coreOf cid) (fun c => { c with turn := (ctxNum cid + 1) % 12 }) with cur := cid } : State).retireAway cid i :=
  (turnOf_of_turn ht (by rw [slot_retires hd hr hb hq]; exact nofun)).trans (slot_retires hd hr hb hq)

/-- A turn that the schedule gives to a context. -/
theorem select_ctx {s : State} {ns cy cid : Nat} {rest : List Turn} (h : s.agenda = ⟨ns, cy, .ctx cid⟩ :: rest) :
    s.select = (({ s with agenda := rest } : State).pass ns cy).turnOf cid := by
  simp only [State.select, h]

/-- The instruction of a turn whose context is to leave the rotation does so in place of completing (R98). -/
def Pick.leaving (p : Pick) : Pick := if p = .issue then .away else p

theorem select_ctxAway {s : State} {ns cy cid : Nat} {rest : List Turn} (h : s.agenda = ⟨ns, cy, .ctxAway cid⟩ :: rest) :
    s.select = ((({ s with agenda := rest } : State).pass ns cy).turnOf cid).map id Pick.leaving := by
  simp only [State.select, h]
  obtain ⟨t, p⟩ := (({ s with agenda := rest } : State).pass ns cy).turnOf cid
  cases p <;> rfl

theorem step_retire {s t : State} {i : Instr} (hs : s.select = (t, .retire i)) (hw : t.heldByWays i = false) : step s = exec i t := by
  simp only [step, hs, hw, Bool.false_eq_true, if_false]

/-- A turn of a context that the rotation reaches: it issues, may leave the rotation, or retires what had left it. -/
theorem select_of_turn {s w u : State} {ns cy cid : Nat} {a : Actor} {rest : List Turn} (hg : s.agenda = ⟨ns, cy, a⟩ :: rest)
    (ha : a = .ctx cid ∨ a = .ctxAway cid) (hw : w = ({ s with agenda := rest } : State).pass ns cy)
    (ht : (s.core (coreOf cid)).turn = ctxNum cid) (hr : (s.ctx cid).status = .running) (hs : (s.ctx cid).stop = none)
    (hh : (s.ctx cid).haltReq = false) (hd : (s.die (dieOf cid)).stopped = false)
    (hu : u = { w.modCore (coreOf cid) (fun c => { c with turn := (ctxNum cid + 1) % 12 }) with cur := cid }) :
    ((s.ctx cid).request = none → s.select = (u, if a = .ctx cid then .issue else .away)) ∧
    ∀ i pa home, (s.ctx cid).request = some (.access i pa home) → s.select = u.retireAway cid i := by
  subst hw hu
  have hb := boundary_of_free hs hh
  refine ⟨fun hq => ?_, fun i pa home hq => ?_⟩
  · have hturn := turnOf_issues (w := ({ s with agenda := rest } : State).pass ns cy) ht hd hr hb hq
    obtain rfl | rfl := ha
    · rw [select_ctx hg, hturn, if_pos rfl]
    · rw [select_ctxAway hg, hturn, if_neg (by simp)]
      rfl
  · have hturn := turnOf_retires (w := ({ s with agenda := rest } : State).pass ns cy) ht hd hr hb hq
    obtain rfl | rfl := ha
    · rw [select_ctx hg, hturn]
    · rw [select_ctxAway hg, hturn]
      rfl

theorem turnOf_unreached {w : State} {cid : Nat} (h : w.reaches cid = false) : w.turnOf cid = (w, .none) := by
  rw [State.turnOf, h]
  rfl

/-- An event of the schedule whose place is no context's slot happens at its turn. -/
theorem step_event {s : State} {ns cy : Nat} {i : Instr} {a : EventArgs} {rest : List Turn} (hg : s.agenda = ⟨ns, cy, .event i a⟩ :: rest)
    (hn : ∀ e, e ∈ [Instr.contextReinsertion, .packetArrival, .mxConfigQuery, .mxCommandArrival] → i ≠ e) (hi : i.isEvent = true) :
    step s = exec i { ({ s with agenda := rest } : State).pass ns cy with ev := a } := by
  have hsel : s.select = ({ ({ s with agenda := rest } : State).pass ns cy with ev := a }, .event i) := by
    simp only [State.select, hg, State.eventTurn]
    split
    all_goals simp_all
  simp only [step, hsel, hi, if_true]

/-! ### The fetch -/

theorem fetch_ok {t u : State} {x : Xlat} (hb : t.me.execHit = none)
    (ha : t.accessV ⟨clusterOf t.cur, t.me.satp, t.me.priv, t.me.sum, t.me.mxr, some t.cur⟩ .fetch needX .fetch t.me.pc.toNat 4 = .ok (u, x))
    (hc : regionOf x.pa ≠ .cfg) (hs : u.selvedgeOk (clusterOf u.cur) .fetch x.pa 4 = true) (hw : (u.cluster (clusterOf u.cur)).busy = false)
    (hm : u.silent x.pa = false) : t.fetch = .ok ((u.fetchBytes x).1, decodeWord (u.fetchBytes x).2) := by
  simp only [State.fetch, hb, ha, hc, hs, hw, hm, if_false, Bool.not_true, Bool.false_and, Bool.false_eq_true]

/-- A byte of a little-endian read of memory. -/
theorem mread_byte (m : Memory) (a n : Nat) {j : Nat} (h : j < n) : mread m a n / 2 ^ (8 * j) % 256 = (mget m (a + j)).toNat := by
  induction n generalizing a j with
  | zero => exact absurd h (Nat.not_lt_zero j)
  | succ k ih =>
    have hb := (mget m a).isLt
    cases j with
    | zero =>
      simp only [mread, Nat.mul_zero, pow_zero, Nat.div_one, Nat.add_zero]
      omega
    | succ i =>
      have hd : ((mget m a).toNat + 256 * mread m (a + 1) k) / 256 = mread m (a + 1) k := by omega
      rw [mread, Nat.mul_succ, Nat.add_comm (8 * i) 8, pow_add, ← Nat.div_div_eq_div_mul, show 2 ^ 8 = 256 from rfl, hd, ih (a + 1) (by omega),
        Nat.add_right_comm, Nat.add_assoc]

/-- A fetch from scratchpad of which no sealed copy hides a byte gives the bytes there and changes nothing (R61, R390). -/
theorem fetchBytes_scratch {u : State} {x : Xlat} {g off : Nat} (hr : regionOf x.pa = .scratch 0 g off) (hx : x.mt = .scratch)
    (hi : tfind (u.core (coreOf u.cur)).icache (x.pa / 128) = none) (hv : u.veils g (some u.me.qtid) = []) :
    u.fetchBytes x = (u, BitVec.ofNat 32 (mread u.mem (scratchAddr g off) 4)) := by
  have hi' : tfind (u.core (coreOf u.cur)).icache (x.pa / lineBytes) = none := hi
  have hu : (decide (x.mt = .scratch) || decide (x.mt = .io)) = true := by simp [hx]
  rw [State.fetchBytes]
  simp only [hi', hu, if_true, readMem_scratch u (clusterOf u.cur) g off u.me.tid u.me.qtid x 4 hr hv]

theorem extract_mread_byte (m : Memory) (a : Nat) {j : Nat} (h : j < 4) :
    (BitVec.ofNat 32 (mread m a 4)).extractLsb' (8 * j) 8 = mget m (a + j) := by
  apply BitVec.eq_of_toNat_eq
  have hp : 2 ^ 32 = 2 ^ (8 * j) * 2 ^ (32 - 8 * j) := by rw [← pow_add]; congr 1; omega
  have hq : (256 : Nat) ∣ 2 ^ (32 - 8 * j) := by
    rw [show (256 : Nat) = 2 ^ 8 from rfl]
    exact Nat.pow_dvd_pow 2 (by omega)
  rw [BitVec.extractLsb'_toNat, BitVec.toNat_ofNat, Nat.shiftRight_eq_div_pow, hp, Nat.mod_mul_right_div_self, ← mread_byte m a 4 h,
    show (2 : Nat) ^ 8 = 256 from rfl, Nat.mod_mod_of_dvd _ hq]

/-! ### What becomes of the decoded instruction -/

theorem enqueueReply_none (s : State) {i : Instr} (h : engineReplies i = false) : s.enqueueReply i = none := by
  unfold State.enqueueReply
  split
  · exact Bool.noConfusion h
  · exact Bool.noConfusion h
  · exact Bool.noConfusion h
  · exact Bool.noConfusion h
  · rfl

/-- The issuing context waits for the reply to an instruction, with the request that it makes and the vector type that it leaves. -/
def State.away (y : State) (i : Instr) (type : Word) : State :=
  (y.leave .reply (word (bnat (awayOf i == some .amo))) (word (bnat (waitsFirst i))) 0 Xlat.none none).modCtx y.cur fun c =>
    { c with request := some (y.requestOf i), qvtype := type }

theorem away_me (y : State) (i : Instr) (type : Word) : ∃ w : Wait, w.kind = .reply ∧
    (y.away i type).me = { y.me with status := .waiting, wait := some w, wake := none, request := some (y.requestOf i), qvtype := type } := by
  refine ⟨⟨.reply, word (bnat (awayOf i == some .amo)), word (bnat (waitsFirst i)), 0, Xlat.none, y.now, none⟩, rfl, ?_⟩
  rw [State.away, State.leave, State.modCtx_modCtx]
  exact State.me_modCtx ..

theorem onlyCtx_away (y : State) (i : Instr) (type : Word) : OnlyCtx y (y.away i type) y.cur :=
  (onlyCtx_modCtx y y.cur _).trans (onlyCtx_modCtx _ y.cur _)

/-- Only VSETL leaves another vector type (R156). -/
theorem leaveTurn_eq (v t : State) (i : Instr) : ∃ type : Word, v.leaveTurn i t = .next (((v.enqueueReply i).getD v).away i type) ∧
    ((∀ rd a e, i ≠ .vsetl rd a e) → type = ((v.enqueueReply i).getD v).me.qvtype) := by
  refine ⟨_, rfl, fun h => ?_⟩
  split
  · exact absurd rfl (h _ _ _)
  · rfl

/-- What an instruction that leaves the rotation leaves of its context: it waits, its pc at the instruction, with its request. -/
theorem leaveTurn_leaves (v t : State) (i : Instr) : ∃ y z : State, y = (v.enqueueReply i).getD v ∧ v.leaveTurn i t = .next z ∧ OnlyCtx y z y.cur ∧
    z.me.wake = none ∧ (∃ w, z.me.wait = some w ∧ w.kind = .reply) ∧ ((∀ rd a e, i ≠ .vsetl rd a e) → z.me.qvtype = y.me.qvtype) ∧
    (engineReplies i = false → y = v) ∧
    z.me = { y.me with status := .waiting, wait := z.me.wait, wake := none, request := some (y.requestOf i), qvtype := z.me.qvtype } := by
  obtain ⟨type, hx, htype⟩ := leaveTurn_eq v t i
  obtain ⟨w, hk, hme⟩ := away_me ((v.enqueueReply i).getD v) i type
  refine ⟨_, _, rfl, hx, onlyCtx_away .., ?_⟩
  rw [hme]
  exact ⟨rfl, ⟨w, rfl, hk⟩, htype, fun h => by rw [enqueueReply_none v h]; rfl, rfl⟩

theorem step_issue {s t v : State} {i : Instr} (hs : s.select = (t, .issue)) (hf : t.fetch = .ok (v, i)) :
    step s = v.issueTurn i (exec i v) := by
  simp only [step, hs, hf]

theorem step_away {s t v : State} {i : Instr} (hs : s.select = (t, .away)) (hf : t.fetch = .ok (v, i)) (hw : v.heldByWays i = false) :
    step s = v.goAway i (exec i v) := by
  simp only [step, hs, hf, hw, Bool.false_eq_true, if_false]

theorem issueTurn_leaves {v t : State} {i : Instr} (hw : v.heldByWays i = false) (hs : v.slotless i = true) (hc : v.completes t i = true) :
    v.issueTurn i (.next t) = v.leaveTurn i t := by
  simp only [State.issueTurn, hw, hs, hc, Bool.false_eq_true, if_false, Bool.and_self, if_true]

theorem goAway_leaves {v t : State} {i : Instr} (hm : v.mayGo i = true) (hc : v.completes t i = true) :
    v.goAway i (.next t) = v.leaveTurn i t := by
  simp only [State.goAway, hm, hc, Bool.and_self, if_true]

theorem issueTurn_not_completed {v t : State} {i : Instr} (hw : v.heldByWays i = false) (hc : v.completes t i = false) :
    v.issueTurn i (.next t) = .next t := by
  simp only [State.issueTurn, hw, hc, Bool.false_eq_true, if_false, Bool.and_false]

theorem goAway_not_completed {v t : State} {i : Instr} (hc : v.completes t i = false) : v.goAway i (.next t) = .next t := by
  simp only [State.goAway, hc, Bool.false_eq_true, if_false, Bool.and_false]

/-- Settles O4: the turn by `select_of_turn`, the fetch, and what the instruction comes to by whether it completes. -/
theorem stepRunsDecoded : Obligations.StepRunsDecoded := by
  unfold Obligations.StepRunsDecoded
  refine ⟨?_, ?_, ?_, fun s ns cy i a rest => step_event⟩
  · intro s w ns cy cid a rest hg ha hw
    refine ⟨fun h => ?_, fun ht hr hs hh hd u hu => ?_⟩
    · subst hw
      obtain rfl | rfl := ha
      · rw [select_ctx hg, turnOf_unreached h]
      · rw [select_ctxAway hg, turnOf_unreached h]
        rfl
    · obtain ⟨hissue, hretire⟩ := select_of_turn hg ha hw ht hr hs hh hd hu
      refine ⟨hissue, fun i pa home t hq ht hf => step_retire ((hretire i pa home hq).trans ?_) hf⟩
      rw [ht, State.retireAway]
  · rintro s t u v p x i hs hb ha hc hsel hbusy hm rfl rfl hways
    have hf := fetch_ok hb ha hc hsel hbusy hm
    refine ⟨?_, fun r hx => ⟨fun hn => ?_, fun hcomp hmay hslot => ?_⟩⟩
    · rintro rfl hslot
      rw [step_issue hs hf, issueTurn_of_free _ _ _ hways hslot]
    · rintro (rfl | rfl)
      · rw [step_issue hs hf, hx, issueTurn_not_completed hways hn]
      · rw [step_away hs hf hways, hx, goAway_not_completed hn]
    · rintro (rfl | rfl)
      · rw [step_issue hs hf, hx, issueTurn_leaves hways (hslot rfl) hcomp]
        exact leaveTurn_leaves ..
      · rw [step_away hs hf hways, hx, goAway_leaves (hmay rfl) hcomp]
        exact leaveTurn_leaves ..
  · intro u x g off hr hx hi hv
    rw [fetchBytes_scratch hr hx hi hv]
    exact ⟨rfl, fun j hj => extract_mread_byte _ _ hj⟩

end Sys2Proof.Machine
end

