-- ==== Sys2Proof/Proofs/CoreEngine/RequestSlots.lean ====
section
/-! Store-buffer turns, and the request slots of the home slices (R99, R181). -/

namespace Sys2Proof.Machine

/-! ### The turn of a store-buffer entry -/

theorem exec_storeBufferEntryPerform_may {s : State} (h : s.mayPerform s.ev.a s.ev.b = true) :
    exec .storeBufferEntryPerform s = .next (s.performEntry s.ev.a s.ev.b) := by
  show execStoreBufferEntryPerform s = _
  rw [execStoreBufferEntryPerform, if_pos h]

theorem exec_storeBufferEntryPerform_held {s : State} (h : s.mayPerform s.ev.a s.ev.b = false) : exec .storeBufferEntryPerform s = .next s := by
  show execStoreBufferEntryPerform s = _
  rw [execStoreBufferEntryPerform, h]
  rfl

theorem exec_tileForwardStart_held {s : State} (h : s.mayPerform s.ev.a s.ev.b = false) : exec .tileForwardStart s = .next s := by
  show execTileForwardStart s = _
  rw [execTileForwardStart, h]
  rfl

/-- Nothing stands before the oldest entry of a buffer, and nothing posted before it, so that only its own needs can hold it. -/
theorem mayPerform_oldest {s : State} {k : Nat} {e : SBEntry} (he : (s.core k).storeBuffer.head? = some e) (hp : (s.core k).posted = [])
    (hw : (s.cluster (k / 4)).busy = false) (hd : (s.die (k / 512)).stopped = false)
    (hs : ∀ x n d, e.kind = .store x n d → s.slotsFull (clusterOf e.cid) x n = false)
    (hv : ∀ ls, e.kind = .written ls → s.writesTo (clusterOf e.cid) ls = none) : s.mayPerform k 0 = true := by
  have h0 : (s.core k).storeBuffer[0]? = some e := by rw [← List.head?_eq_getElem?, he]
  have hpass : s.mayPass (s.core k).storeBuffer 0 = true := by
    simp only [State.mayPass, h0, List.take_zero, List.all_nil]
  have hneed : (match e.kind with
      | .store x n _ => !s.slotsFull (clusterOf e.cid) x n
      | .written ls => (s.writesTo (clusterOf e.cid) ls).isNone
      | _ => true) = true := by
    split
    · rename_i x n d h
      rw [hs x n d h]
      rfl
    · rename_i ls h
      rw [hv ls h]
      rfl
    · rfl
  simp only [State.mayPerform, hpass, clusterOfCore, dieOfCore, hw, hd, h0, hp, List.all_nil, Bool.not_false, Bool.true_and]
  exact hneed

/-! ### A request reaches its home slice -/

section
variable {s : State} {sl : Nat} {k : Slice} {r : SlotReq}

theorem slotFor_demand (h : r.fill = none) : s.slotFor k r = decide (k.held.length < 16) := by
  rw [State.slotFor, h, Option.isNone_none, Bool.true_or, Bool.and_true]
  rfl

/-- Staging takes at most S of the slots (R181). -/
theorem slotFor_fill (h : r.fill ≠ none) : s.slotFor k r =
    (decide (k.held.length < 16) && decide ((k.held.filter fun r => r.fill.isSome).length < (s.qmstage.extractLsb' 16 4).toNat)) := by
  have hn : r.fill.isNone = false := Option.isNone_eq_false_iff.2 (Option.isSome_iff_ne_none.2 h)
  rw [State.slotFor, hn, bits_eq]
  rfl

theorem enterSlot_takes (hk : k = s.slice sl) (h : s.slotFor k r = true) : s.enterSlot sl r = some (s.setSlice sl { k with
    held := k.held ++ [r], peak := if k.peak.toNat < k.held.length + 1 then BitVec.ofNat 5 (k.held.length + 1) else k.peak }) := by
  subst hk
  exact if_pos h

theorem enterSlot_waits (hk : k = s.slice sl) (h : s.slotFor k r = false) (hm : s.missUsed r.g < 64) : s.enterSlot sl r = some (s.setSlice sl { k with
    waiting := k.waiting ++ [r], waits := if 16 ≤ k.held.length then k.waits + 1 else k.waits }) := by
  subst hk
  exact (if_neg (Bool.eq_false_iff.1 h)).trans (if_neg (Nat.not_le.2 hm))

theorem enterSlot_not_arrived (hk : k = s.slice sl) (h : s.slotFor k r = false) (hm : 64 ≤ s.missUsed r.g) : s.enterSlot sl r = none := by
  subst hk
  exact (if_neg (Bool.eq_false_iff.1 h)).trans (if_pos hm)
end

section
variable {s : State}

theorem exec_homeRequestArrival_fill {f : Xlat × BitVec 12 × Bool} (hf : s.ev.flag = false) (hi : (s.cluster s.ev.a).fills[s.ev.b]? = some f) :
    exec .homeRequestArrival s = .next ((s.enterSlot f.1.slice ⟨s.ev.a, 0, some f, false⟩).elim s fun t =>
      (t.modCluster s.ev.a fun c => { c with fills := c.fills.eraseIdx s.ev.b }).pumpCluster s.ev.a) := by
  show execHomeRequestArrival s = _
  simp only [execHomeRequestArrival, hf, Bool.false_eq_true, if_false, State.requestArrival, hi]
  cases s.enterSlot f.1.slice ⟨s.ev.a, 0, some f, false⟩ <;> rfl

/-- A fill that has reached its slice leaves its cluster's list; with nothing released there, nothing starts in its place. -/
theorem exec_homeRequestArrival_enters {f : Xlat × BitVec 12 × Bool} {k : Slice} (hf : s.ev.flag = false)
    (hi : (s.cluster s.ev.a).fills[s.ev.b]? = some f) (hr : ∀ r ∈ s.released, r.g ≠ s.ev.a)
    (h : s.enterSlot f.1.slice ⟨s.ev.a, 0, some f, false⟩ = some (s.setSlice f.1.slice k)) : exec .homeRequestArrival s =
      .next ((s.setSlice f.1.slice k).modCluster s.ev.a fun c => { c with fills := c.fills.eraseIdx s.ev.b }) := by
  rw [exec_homeRequestArrival_fill hf hi, h]
  exact congrArg Host.Outcome.next (pumpCluster_idle hr)

theorem exec_homeRequestArrival_fill_none {f : Xlat × BitVec 12 × Bool} (hf : s.ev.flag = false)
    (hi : (s.cluster s.ev.a).fills[s.ev.b]? = some f) (h : s.enterSlot f.1.slice ⟨s.ev.a, 0, some f, false⟩ = none) :
    exec .homeRequestArrival s = .next s := by
  rw [exec_homeRequestArrival_fill hf hi, h, Option.elim_none]

theorem exec_homeRequestArrival_demand {i : Instr} {pa : Option Nat} {sl : Nat} (hf : s.ev.flag = true)
    (hq : (s.ctx s.ev.a).request = some (.access i pa (some sl))) (hh : s.atHome s.ev.a = false) :
    exec .homeRequestArrival s = .next ((s.enterSlot sl ⟨clusterOf s.ev.a, s.ev.a, none, false⟩).getD s) := by
  show execHomeRequestArrival s = _
  simp only [execHomeRequestArrival, hf, if_true, State.demandArrival, hq, hh, Bool.false_eq_true, if_false]

/-- A staging fill at its home slice: a slot within S, the miss buffer, or not yet arrived. -/
theorem exec_homeRequestArrival_staging {f : Xlat × BitVec 12 × Bool} {k : Slice} {st : Nat} (hf : s.ev.flag = false)
    (hi : (s.cluster s.ev.a).fills[s.ev.b]? = some f) (hk : k = s.slice f.1.slice) (hst : st = (k.held.filter fun r => r.fill.isSome).length)
    (hr : ∀ r ∈ s.released, r.g ≠ s.ev.a) :
    (k.held.length < 16 → st < (s.qmstage.extractLsb' 16 4).toNat → exec .homeRequestArrival s = .next ((s.setSlice f.1.slice { k with
      held := k.held ++ [⟨s.ev.a, 0, some f, false⟩], peak := if k.peak.toNat < k.held.length + 1 then BitVec.ofNat 5 (k.held.length + 1) else k.peak }).modCluster
        s.ev.a fun c => { c with fills := c.fills.eraseIdx s.ev.b })) ∧
    (16 ≤ k.held.length ∨ (s.qmstage.extractLsb' 16 4).toNat ≤ st →
      (s.missUsed s.ev.a < 64 → exec .homeRequestArrival s = .next ((s.setSlice f.1.slice { k with
        waiting := k.waiting ++ [⟨s.ev.a, 0, some f, false⟩], waits := if 16 ≤ k.held.length then k.waits + 1 else k.waits }).modCluster
          s.ev.a fun c => { c with fills := c.fills.eraseIdx s.ev.b })) ∧
      (64 ≤ s.missUsed s.ev.a → exec .homeRequestArrival s = .next s)) := by
  have hslot := slotFor_fill (s := s) (k := k) (r := ⟨s.ev.a, 0, some f, false⟩) (Option.some_ne_none f)
  rw [← hst] at hslot
  refine ⟨fun h16 hS => ?_, fun h => ?_⟩
  · exact exec_homeRequestArrival_enters hf hi hr (enterSlot_takes hk (by rw [hslot, decide_eq_true h16, decide_eq_true hS]; rfl))
  · have hno : s.slotFor k ⟨s.ev.a, 0, some f, false⟩ = false := by
      rw [hslot, Bool.and_eq_false_iff]
      exact h.imp (by simp) (by simp)
    exact ⟨fun hm => exec_homeRequestArrival_enters hf hi hr (enterSlot_waits hk hno hm),
      fun hm => exec_homeRequestArrival_fill_none hf hi (enterSlot_not_arrived hk hno hm)⟩

/-- A demand request at its home slice. -/
theorem exec_homeRequestArrival_access {i : Instr} {pa : Option Nat} {sl : Nat} {k : Slice} (hf : s.ev.flag = true)
    (hq : (s.ctx s.ev.a).request = some (.access i pa (some sl))) (hh : s.atHome s.ev.a = false) (hk : k = s.slice sl) :
    (k.held.length < 16 → exec .homeRequestArrival s = .next (s.setSlice sl { k with
      held := k.held ++ [⟨clusterOf s.ev.a, s.ev.a, none, false⟩], peak := if k.peak.toNat < k.held.length + 1 then BitVec.ofNat 5 (k.held.length + 1) else k.peak })) ∧
    (16 ≤ k.held.length → s.missUsed (clusterOf s.ev.a) < 64 → exec .homeRequestArrival s = .next (s.setSlice sl { k with
      waiting := k.waiting ++ [⟨clusterOf s.ev.a, s.ev.a, none, false⟩], waits := k.waits + 1 })) ∧
    (16 ≤ k.held.length → 64 ≤ s.missUsed (clusterOf s.ev.a) → exec .homeRequestArrival s = .next s) := by
  have hslot := slotFor_demand (s := s) (k := k) (r := ⟨clusterOf s.ev.a, s.ev.a, none, false⟩) rfl
  rw [exec_homeRequestArrival_demand hf hq hh]
  refine ⟨fun h16 => ?_, fun h16 hm => ?_, fun h16 hm => ?_⟩
  · rw [enterSlot_takes hk (by simp [hslot, h16]), Option.getD_some]
  · rw [enterSlot_waits hk (by simp [hslot, h16]) hm, Option.getD_some, if_pos h16]
  · rw [enterSlot_not_arrived hk (by simp [hslot, h16]) hm, Option.getD_none]
end

/-! ### A slot frees -/

/-- The oldest waiting request of a slice that may enter takes a slot, demand before staging (R181). -/
def State.admitOldest (s : State) (sl : Nat) : State :=
  match ((s.slice sl).waiting.findIdx? fun r => r.fill.isNone && s.slotFor (s.slice sl) r).or ((s.slice sl).waiting.findIdx? (s.slotFor (s.slice sl))) with
  | some i => (match (s.slice sl).waiting[i]? with
    | some r => s.setSlice sl { s.slice sl with held := (s.slice sl).held ++ [r], waiting := (s.slice sl).waiting.eraseIdx i }
    | none => s)
  | none => s

section
variable {s : State} {sl : Nat}

/-- With no fill and no element read in the slots, none is served. -/
theorem slotEntry_idle (h : ∀ q ∈ (s.slice sl).held, q.fill = none ∧ q.elem = false) : s.slotEntry sl = s.admitOldest sl := by
  have hf : (s.slice sl).held.find? (fun r => r.fill.isSome || r.elem) = none := List.find?_eq_none.2 fun q hq => by
    obtain ⟨h1, h2⟩ := h q hq
    simp [h1, h2]
  simp only [State.slotEntry, hf]
  rfl

/-- The oldest fill or element read of a slice is the first behind demand requests, and leaves the slots. -/
theorem held_serves {k : Slice} {l m : List SlotReq} {r : SlotReq} (hk : k.held = l ++ r :: m)
    (hl : ∀ q ∈ l, q.fill = none ∧ q.elem = false) (hr : r.fill.isSome = true ∨ r.elem = true) :
    k.held.find? (fun r => r.fill.isSome || r.elem) = some r ∧ k.held.erase r = l ++ m := by
  have hn : r ∉ l := fun hm => by
    obtain ⟨h1, h2⟩ := hl r hm
    simp [h1, h2] at hr
  have hf : l.find? (fun r => r.fill.isSome || r.elem) = none := List.find?_eq_none.2 fun q hq => by
    obtain ⟨h1, h2⟩ := hl q hq
    simp [h1, h2]
  rw [hk]
  refine ⟨?_, ?_⟩
  · rw [List.find?_append, hf, List.find?_cons_of_pos (by simpa using hr)]
    rfl
  · rw [List.erase_append_right _ hn, List.erase_cons_head]

/-- Its fill is performed; an element read has nothing left to do. -/
theorem slotEntry_serves {l m : List SlotReq} {r : SlotReq} (hk : (s.slice sl).held = l ++ r :: m)
    (hl : ∀ q ∈ l, q.fill = none ∧ q.elem = false) (hr : r.fill.isSome = true ∨ r.elem = true) : s.slotEntry sl =
      (match r.fill with
       | some (x, tid, ex) => (s.setSlice sl { s.slice sl with held := l ++ m }).stageFill r.g x tid ex
       | none => s.setSlice sl { s.slice sl with held := l ++ m }).admitOldest sl := by
  obtain ⟨hfind, herase⟩ := held_serves hk hl hr
  simp only [State.slotEntry, hfind, herase]
  rfl

theorem admitOldest_none (h : (s.slice sl).waiting = []) : s.admitOldest sl = s := by
  simp only [State.admitOldest, h, List.findIdx?_nil, Option.or_none]

theorem admitOldest_full (h : 16 ≤ (s.slice sl).held.length) : s.admitOldest sl = s := by
  have hno : s.slotFor (s.slice sl) = fun _ => false := by
    funext r
    have h16 : decide ((s.slice sl).held.length < Config.requestSlots) = false := decide_eq_false (Nat.not_lt.2 h)
    rw [State.slotFor, h16, Bool.false_and]
  have hn : (s.slice sl).waiting.findIdx? (fun _ => false) = none := List.findIdx?_eq_none_iff.2 fun _ _ => rfl
  simp only [State.admitOldest, hno, Bool.and_false, hn, Option.or_none]

theorem findIdx?_append_cons {α : Type} {p : α → Bool} {l r : List α} {w : α} (hl : ∀ q ∈ l, p q = false) (hw : p w = true) :
    (l ++ w :: r).findIdx? p = some l.length := by
  rw [List.findIdx?_append, List.findIdx?_eq_none_iff.2 hl, List.findIdx?_cons, if_pos hw]
  simp

theorem admitOldest_takes {l r : List SlotReq} {w : SlotReq} (hw : (s.slice sl).waiting = l ++ w :: r)
    (h : ((l ++ w :: r).findIdx? fun r => r.fill.isNone && s.slotFor (s.slice sl) r).or ((l ++ w :: r).findIdx? (s.slotFor (s.slice sl))) = some l.length) :
    s.admitOldest sl = s.setSlice sl { s.slice sl with held := (s.slice sl).held ++ [w], waiting := l ++ r } := by
  have hi : (l ++ w :: r)[l.length]? = some w := by simp
  have he : (l ++ w :: r).eraseIdx l.length = l ++ r := by
    rw [List.eraseIdx_append_of_length_le (Nat.le_refl _), Nat.sub_self, List.eraseIdx_cons_zero]
  simp only [State.admitOldest, hw, h, hi, he]

/-- A demand request goes before the fills that wait before it. -/
theorem admitOldest_demand {l r : List SlotReq} {w : SlotReq} (hw : (s.slice sl).waiting = l ++ w :: r) (h16 : (s.slice sl).held.length < 16)
    (hf : w.fill = none) (hl : ∀ q ∈ l, q.fill ≠ none) :
    s.admitOldest sl = s.setSlice sl { s.slice sl with held := (s.slice sl).held ++ [w], waiting := l ++ r } := by
  refine admitOldest_takes hw ?_
  rw [findIdx?_append_cons (fun q hq => by simp [hl q hq]) (by simp [hf, slotFor_demand hf, h16]), Option.some_or]

/-- Where only fills wait, the oldest enters, within S. -/
theorem admitOldest_fill {r : List SlotReq} {w : SlotReq} (hw : (s.slice sl).waiting = w :: r) (h16 : (s.slice sl).held.length < 16)
    (hn : ∀ q ∈ (s.slice sl).held, q.fill = none) (hf : ∀ q ∈ (s.slice sl).waiting, q.fill ≠ none) (hS : 0 < (s.qmstage.extractLsb' 16 4).toNat) :
    s.admitOldest sl = s.setSlice sl { s.slice sl with held := (s.slice sl).held ++ [w], waiting := r } := by
  have hstaged : (s.slice sl).held.filter (fun r => r.fill.isSome) = [] := List.filter_eq_nil_iff.2 fun q hq => by simp [hn q hq]
  have hslot : s.slotFor (s.slice sl) w = true := by
    rw [slotFor_fill (hf w (by simp [hw])), hstaged, decide_eq_true h16, List.length_nil, decide_eq_true hS]
    rfl
  have hnone : (w :: r).findIdx? (fun q => q.fill.isNone && s.slotFor (s.slice sl) q) = none :=
    List.findIdx?_eq_none_iff.2 fun q hq => by simp [hf q (hw ▸ hq)]
  refine admitOldest_takes (l := []) hw ?_
  rw [List.nil_append, hnone, Option.none_or]
  exact findIdx?_append_cons (l := []) (fun _ hq => absurd hq List.not_mem_nil) hslot
end

theorem exec_missBufferSlotEntry (s : State) : exec .missBufferSlotEntry s = .next (s.slotEntry s.ev.a) := rfl

theorem exec_missBufferSlotEntry_admits {s : State} {k : Slice} {l r : List SlotReq} {w : SlotReq} (hk : k = s.slice s.ev.a)
    (h : ∀ q ∈ k.held, q.fill = none ∧ q.elem = false) :
    (k.waiting = [] ∨ 16 ≤ k.held.length → exec .missBufferSlotEntry s = .next s) ∧
    (k.waiting = l ++ w :: r → k.held.length < 16 →
      (w.fill = none → (∀ q ∈ l, q.fill ≠ none) → exec .missBufferSlotEntry s = .next (s.setSlice s.ev.a { k with held := k.held ++ [w], waiting := l ++ r })) ∧
      ((∀ q ∈ k.waiting, q.fill ≠ none) → l = [] → 0 < (s.qmstage.extractLsb' 16 4).toNat →
        exec .missBufferSlotEntry s = .next (s.setSlice s.ev.a { k with held := k.held ++ [w], waiting := r }))) := by
  subst hk
  rw [exec_missBufferSlotEntry, slotEntry_idle h]
  refine ⟨fun hn => ?_, fun hw h16 => ⟨fun hf hl => ?_, fun hf hl hS => ?_⟩⟩
  · rw [hn.elim admitOldest_none admitOldest_full]
  · rw [admitOldest_demand hw h16 hf hl]
  · subst hl
    rw [admitOldest_fill hw h16 (fun q hq => (h q hq).1) hf hS]

theorem exec_missBufferSlotEntry_fills {s u : State} {k : Slice} {l m : List SlotReq} {r : SlotReq} {x : Xlat} {tid : BitVec 12} {ex : Bool}
    (hk : k = s.slice s.ev.a) (hh : k.held = l ++ r :: m) (hl : ∀ q ∈ l, q.fill = none ∧ q.elem = false) (hf : r.fill = some (x, tid, ex))
    (hu : u = (s.setSlice s.ev.a { k with held := l ++ m }).stageFill r.g x tid ex) (hn : (u.slice s.ev.a).waiting = []) :
    exec .missBufferSlotEntry s = .next u := by
  subst hk
  rw [exec_missBufferSlotEntry, slotEntry_serves hh hl (.inl (by rw [hf]; rfl))]
  simp only [hf]
  rw [← hu, admitOldest_none hn]

theorem exec_missBufferSlotEntry_element {s : State} {k : Slice} {l m : List SlotReq} {r : SlotReq}
    (hk : k = s.slice s.ev.a) (hh : k.held = l ++ r :: m) (hl : ∀ q ∈ l, q.fill = none ∧ q.elem = false) (hf : r.fill = none)
    (he : r.elem = true) (hn : k.waiting = []) : exec .missBufferSlotEntry s = .next (s.setSlice s.ev.a { k with held := l ++ m }) := by
  subst hk
  rw [exec_missBufferSlotEntry, slotEntry_serves hh hl (.inr he)]
  simp only [hf]
  rw [admitOldest_none]
  rw [State.slice_setSlice, if_pos rfl]
  exact hn

end Sys2Proof.Machine
end

