-- ==== Sys2Proof/Proofs/CoreEngine/LaneGroups.lean ====
section
/-! The lane groups' arbiter (R137, R138): what a grant leaves of the queues and of the groups. -/

namespace Sys2Proof.Machine

/-! ### The queues of a cluster's cores -/

theorem core_modCore (s : State) (i j : Nat) (f : Core → Core) : (s.modCore i f).core j = if j = i then f (s.core i) else s.core j :=
  State.core_setCore ..

/-- A core of the cluster without the entries that have left its queue by now; every other core is as it was. -/
theorem core_trimQueues (s : State) (g k : Nat) : (s.trimQueues g).core k =
    if k / 4 = g then { s.core k with vq := leaveQueue s.arith (s.core k).vq } else s.core k := by
  have hr : List.range 4 = [0, 1, 2, 3] := rfl
  simp only [State.trimQueues, hr, List.foldl_cons, List.foldl_nil, core_modCore, State.modCore_arith]
  by_cases h : k / 4 = g
  · rw [if_pos h]
    obtain h | h | h | h : k = g * 4 + 0 ∨ k = g * 4 + 1 ∨ k = g * 4 + 2 ∨ k = g * 4 + 3 := by omega
    all_goals simp [h]
  · simp only [if_neg h]
    rw [if_neg (by omega), if_neg (by omega), if_neg (by omega), if_neg (by omega)]

theorem trimQueues_frame (s : State) (g : Nat) : s.trimQueues g = { s with cores := (s.trimQueues g).cores } := rfl
theorem cluster_trimQueues (s : State) (g h : Nat) : (s.trimQueues g).cluster h = s.cluster h := rfl

/-- With a hem entry free, no residual is flushed for room (R240). -/
theorem headRoom_of_room {s : State} {k : Nat} (h : (s.core k).hem.length < 16) : s.headRoom k = s := by
  have hroom : s.hemRoom k 16 = s := if_pos h
  unfold State.headRoom
  split
  · rfl
  · split
    · split
      · rfl
      · exact hroom
    · rfl

theorem headRooms_of_room {s : State} (h : ∀ m, m < 4 → (s.core (s.ev.a * 4 + m)).hem.length < 16) :
    (List.range 4).foldl (fun s j => s.headRoom (s.ev.a * 4 + j)) s = s := by
  have hr : List.range 4 = [0, 1, 2, 3] := rfl
  rw [hr]
  simp only [List.foldl_cons, List.foldl_nil, headRoom_of_room (h 0 (by decide)), headRoom_of_room (h 1 (by decide)),
    headRoom_of_room (h 2 (by decide)), headRoom_of_room (h 3 (by decide))]

/-- A grant of a cluster whose cores have hem entries free. -/
theorem exec_laneGroupGrant {s : State} (h : ∀ m, m < 4 → (s.core (s.ev.a * 4 + m)).hem.length < 16) :
    exec .laneGroupGrant s = .next ((s.arbitrate s.ev.a s.ev.b 600).trimQueues s.ev.a) := by
  show execLaneGroupGrant s = _
  simp only [execLaneGroupGrant, headRooms_of_room h]
  rfl

/-! ### The groups -/

/-- Lane group `l` of a cluster. -/
def Cluster.laneGroup (c : Cluster) (l : Nat) : LaneGroup := c.groups.toList.getD l LaneGroup.reset

theorem laneGroup_mapIdx (c : Cluster) (f : Nat → LaneGroup → LaneGroup) {l : Nat} (h : l < 8) :
    ({ c with groups := c.groups.mapIdx f } : Cluster).laneGroup l = f l (c.laneGroup l) := by
  simp [Cluster.laneGroup, List.getD_eq_getElem?_getD, h]

theorem LaneGroup.def_setDef {x : LaneGroup} {k : Nat} (v : Nat) (h : k < 4) : (x.setDef k v).def_ k = v := by
  obtain rfl | rfl | rfl | rfl : k = 0 ∨ k = 1 ∨ k = 2 ∨ k = 3 := by omega
  all_goals rfl

/-- The cluster with its lane group `j` replaced. -/
def State.putGroup (s : State) (g j : Nat) (y : LaneGroup) : State :=
  s.modCluster g fun c => { c with groups := c.groups.mapIdx fun m z => if m = j then y else z }

/-- The arbiter grants the portion of the core it stands at where that core's deficit covers it (R138). -/
theorem arbitrate_grants {s : State} {g j i cost : Nat} {x : LaneGroup} (n : Nat) (hx : x = (s.cluster g).laneGroup j) (hbusy : x.busy ≤ s.arith)
    (hptr : x.ptr < 4) (hfresh : x.fresh = false) (hready : s.readyPortion (g * 4 + x.ptr) j = some (i, cost)) (hcost : cost ≤ x.def_ x.ptr) :
    s.arbitrate g j (n + 1) = (s.putGroup g j (x.setDef x.ptr (x.def_ x.ptr - cost))).startPortion g j (g * 4 + x.ptr) i := by
  subst hx
  have hfree : s.groupFree g j = true := decide_eq_true hbusy
  have hsome : ((List.range 4).all fun m => (s.readyPortion (g * 4 + m) j).isNone) = false :=
    List.all_eq_false.2 ⟨_, List.mem_range.2 hptr, by rw [hready]; simp⟩
  rw [State.arbitrate, hfree, hsome, Bool.not_true, Bool.or_self, if_neg Bool.false_ne_true]
  simp only [Cluster.laneGroup] at hfresh hready hcost ⊢
  simp only [hready, hfresh, Bool.false_eq_true, if_false, hcost, if_true]
  rfl

/-- With no portion ready, or while the group is held, it grants nothing. -/
theorem arbitrate_nothing {s : State} {g j : Nat} (n : Nat) (h : (∀ m, m < 4 → s.readyPortion (g * 4 + m) j = none) ∨
    s.arith < ((s.cluster g).groups.toList.getD j LaneGroup.reset).busy) : s.arbitrate g j n = s := by
  cases n with
  | zero => rfl
  | succ n =>
    rw [State.arbitrate, if_pos]
    obtain h | h := h
    · have hall : ((List.range 4).all fun m => (s.readyPortion (g * 4 + m) j).isNone) = true :=
        List.all_eq_true.2 fun m hm => by rw [h m (List.mem_range.1 hm)]; rfl
      rw [hall, Bool.or_true]
    · have hfree : s.groupFree g j = false := decide_eq_false (Nat.not_le.2 h)
      rw [hfree]
      rfl

/-- How long a portion of `e` on group `j` holds group `n` (R137): its own for its cost, and a cross-lane one each other as that frees. -/
def portionBusy (arith j : Nat) (e : VEntry) (n : Nat) (x : LaneGroup) : Nat :=
  if n = j then arith + e.cost else if e.cross then max x.busy arith + e.cost else x.busy

/-- When the portions of `e` that have started have all finished. -/
def portionEnds (arith j : Nat) (e : VEntry) (gs : List LaneGroup) : Nat :=
  (gs.mapIdx fun n x => if n = j || e.cross then portionBusy arith j e n x else 0).foldl max e.ends

/-- What the start of a portion that is no accumulate's leaves (R137): its bit cleared and its end noted, and the groups that it holds. -/
def State.portionStarted (s : State) (g j k i : Nat) (e : VEntry) : State :=
  (s.modCore k fun c => { c with
      vq := c.vq.set i { e with todo := e.todo &&& ~~~(1#8 <<< j), ends := portionEnds s.arith j e (s.cluster g).groups.toList } }).modCluster
    g fun c => { c with groups := c.groups.mapIdx fun n x => { x with busy := portionBusy s.arith j e n x } }

section
variable {s : State} {g j k i : Nat} {e : VEntry}

theorem startPortion_eq (he : (s.core k).vq[i]? = some e) (ha : e.acc = none) : s.startPortion g j k i = s.portionStarted g j k i e := by
  obtain ⟨cid, todo, ends, cost, cross, acc, base, size⟩ := e
  obtain rfl : acc = none := ha
  simp only [State.startPortion, he]
  rfl

theorem vq_portionStarted (m : Nat) : ((s.portionStarted g j k i e).core m).vq = if m = k then
    (s.core k).vq.set i { e with todo := e.todo &&& ~~~(1#8 <<< j), ends := portionEnds s.arith j e (s.cluster g).groups.toList }
      else (s.core m).vq := by
  rw [State.portionStarted, State.core_modCluster, core_modCore]
  split <;> rfl

theorem laneGroup_portionStarted {l : Nat} (h : l < 8) : ((s.portionStarted g j k i e).cluster g).laneGroup l =
    { (s.cluster g).laneGroup l with busy := portionBusy s.arith j e l ((s.cluster g).laneGroup l) } := by
  rw [State.portionStarted, State.cluster_modCluster_self, laneGroup_mapIdx _ _ h]
  rfl

theorem laneGroup_putGroup {y : LaneGroup} {l : Nat} (h : l < 8) :
    ((s.putGroup g j y).cluster g).laneGroup l = if l = j then y else (s.cluster g).laneGroup l := by
  rw [State.putGroup, State.cluster_modCluster_self, laneGroup_mapIdx _ _ h]
end

theorem le_foldl_max (l : List Nat) (a : Nat) : a ≤ l.foldl max a ∧ ∀ x ∈ l, x ≤ l.foldl max a := by
  induction l generalizing a with
  | nil => simp
  | cons y l ih =>
    obtain ⟨h1, h2⟩ := ih (max a y)
    simp only [List.foldl_cons, List.mem_cons, forall_eq_or_imp]
    exact ⟨by omega, by omega, h2⟩

theorem foldl_max_le {l : List Nat} {a b : Nat} (ha : a ≤ b) (h : ∀ x ∈ l, x ≤ b) : l.foldl max a ≤ b := by
  induction l generalizing a with
  | nil => exact ha
  | cons y l ih => exact ih (max_le ha (h y (by simp))) fun x hx => h x (List.mem_cons_of_mem y hx)

section
variable {arith j : Nat} {e : VEntry} {gs : List LaneGroup}

/-- A portion that is started counts in the end of its instruction. -/
theorem le_portionEnds (hj : j < gs.length) : e.ends ≤ portionEnds arith j e gs ∧ arith + e.cost ≤ portionEnds arith j e gs := by
  obtain ⟨h1, h2⟩ := le_foldl_max (gs.mapIdx fun n x => if n = j || e.cross then portionBusy arith j e n x else 0) e.ends
  refine ⟨h1, h2 _ (List.mem_mapIdx.2 ⟨j, hj, ?_⟩)⟩
  simp [portionBusy]

/-- One that crosses no lanes holds only its own group. -/
theorem portionEnds_of_not_cross (hj : j < gs.length) (hc : e.cross = false) : portionEnds arith j e gs = max e.ends (arith + e.cost) := by
  obtain ⟨h1, h2⟩ := le_portionEnds (arith := arith) (e := e) hj
  refine Nat.le_antisymm (foldl_max_le (le_max_left ..) fun x hx => ?_) (max_le h1 h2)
  obtain ⟨n, hn, rfl⟩ := List.mem_mapIdx.1 hx
  by_cases h : n = j
  · simp [h, portionBusy]
  · simp [h, hc]
end

theorem exec_laneGroupGrant_grants {s : State} {g j k i cost : Nat} {x : LaneGroup} {e : VEntry} (hg : g = s.ev.a) (hj : j = s.ev.b) (hj8 : j < 8)
    (hx : x = (s.cluster g).groups.toList.getD j LaneGroup.reset) (hroom : ∀ m, m < 4 → (s.core (g * 4 + m)).hem.length < 16)
    (hbusy : x.busy ≤ s.arith) (hk : k = g * 4 + x.ptr) (hptr : x.ptr < 4) (hfresh : x.fresh = false) (hready : s.readyPortion k j = some (i, cost))
    (hcost : cost ≤ x.def_ x.ptr) (he : (s.core k).vq[i]? = some e) (ha : e.acc = none) :
    ∃ (t : State) (n : Nat), exec .laneGroupGrant s = .next t ∧
      (t.core k).vq = leaveQueue s.arith ((s.core k).vq.set i { e with todo := e.todo &&& ~~~(1#8 <<< j), ends := n }) ∧
      (e.cross = false → n = max e.ends (s.arith + e.cost)) ∧ (e.cross = true → e.ends ≤ n ∧ s.arith + e.cost ≤ n) ∧
      (∀ m, m < 4 → g * 4 + m ≠ k → (t.core (g * 4 + m)).vq = leaveQueue s.arith (s.core (g * 4 + m)).vq) ∧
      ((t.cluster g).groups.toList.getD j LaneGroup.reset).def_ x.ptr = x.def_ x.ptr - cost ∧
      ((t.cluster g).groups.toList.getD j LaneGroup.reset).busy = s.arith + e.cost ∧
      (∀ l, l < 8 → l ≠ j → ((t.cluster g).groups.toList.getD l LaneGroup.reset).busy =
        if e.cross then max ((s.cluster g).groups.toList.getD l LaneGroup.reset).busy s.arith + e.cost
        else ((s.cluster g).groups.toList.getD l LaneGroup.reset).busy) ∧ t.mem = s.mem := by
  subst hk
  let p := s.putGroup g j (x.setDef x.ptr (x.def_ x.ptr - cost))
  let q := p.portionStarted g j (g * 4 + x.ptr) i e
  have hxs : exec .laneGroupGrant s = .next (q.trimQueues g) := by
    subst hg hj
    rw [exec_laneGroupGrant hroom, arbitrate_grants 599 hx hbusy hptr hfresh hready hcost]
    exact congrArg (fun u : State => Host.Outcome.next (u.trimQueues s.ev.a)) (startPortion_eq (s := p) he ha)
  have hlen : j < (p.cluster g).groups.toList.length := by simpa using hj8
  have hvq : ∀ m, m < 4 → ((q.trimQueues g).core (g * 4 + m)).vq = leaveQueue s.arith (q.core (g * 4 + m)).vq := fun m hm => by
    rw [core_trimQueues, if_pos (by omega)]
    rfl
  have hgroup : ∀ l, l < 8 → ((q.trimQueues g).cluster g).laneGroup l =
      { (p.cluster g).laneGroup l with busy := portionBusy s.arith j e l ((p.cluster g).laneGroup l) } := fun l hl => by
    rw [cluster_trimQueues]
    exact laneGroup_portionStarted hl
  refine ⟨_, portionEnds s.arith j e (p.cluster g).groups.toList, hxs, ?_, portionEnds_of_not_cross hlen, fun _ => le_portionEnds hlen,
    fun m hm hne => ?_, ?_, ?_, fun l hl hne => ?_, rfl⟩
  · rw [hvq _ hptr, vq_portionStarted, if_pos rfl]
    rfl
  · rw [hvq m hm, vq_portionStarted, if_neg hne]
    rfl
  · refine (congrArg (LaneGroup.def_ · x.ptr) (hgroup j hj8)).trans ?_
    rw [laneGroup_putGroup hj8, if_pos rfl]
    exact LaneGroup.def_setDef _ hptr
  · refine (congrArg LaneGroup.busy (hgroup j hj8)).trans ?_
    exact if_pos rfl
  · refine (congrArg LaneGroup.busy (hgroup l hl)).trans ?_
    rw [laneGroup_putGroup hl, if_neg hne]
    exact if_neg hne

/-- A group that grants nothing changes nothing, where no entry has left its queue. -/
theorem exec_laneGroupGrant_nothing {s : State} (h : (∀ m, m < 4 → s.readyPortion (s.ev.a * 4 + m) s.ev.b = none) ∨
      s.arith < ((s.cluster s.ev.a).groups.toList.getD s.ev.b LaneGroup.reset).busy)
    (hroom : ∀ m, m < 4 → (s.core (s.ev.a * 4 + m)).hem.length < 16)
    (hq : ∀ m, m < 4 → (s.core (s.ev.a * 4 + m)).vq = leaveQueue s.arith (s.core (s.ev.a * 4 + m)).vq) :
    ∃ t : State, exec .laneGroupGrant s = .next t ∧ t = { s with cores := t.cores } ∧ ∀ k, t.core k = s.core k := by
  refine ⟨_, exec_laneGroupGrant hroom, ?_, fun k => ?_⟩
  · rw [arbitrate_nothing 600 h]
    exact trimQueues_frame ..
  · rw [arbitrate_nothing 600 h, core_trimQueues]
    split
    · rename_i hk
      have hm := hq (k % 4) (Nat.mod_lt k (by decide))
      have hkm : s.ev.a * 4 + k % 4 = k := by omega
      rw [hkm] at hm
      rw [← hm]
    · rfl

end Sys2Proof.Machine
end

