-- ==== Sys2Proof/Proofs/CoreEngine/LinesAndTiles.lean ====
section
/-! Lines on their way home, posted messages, and the tile directory's events (R102, R180, R190, R213, R222, R223, R399). -/

namespace Sys2Proof.Machine

/-! ### Lines that leave an L2, and their dirty bytes -/

/-- The byte at any address after the bytes that a mask selects are merged. -/
theorem mget_mmerge (m : Memory) (a n mask v j : Nat) : mget (mmerge m a n mask v) j =
    if (a ≤ j ∧ j < a + n) ∧ mask.testBit (j - a) = true then BitVec.ofNat 8 (v / 2 ^ (8 * (j - a))) else mget m j := by
  induction n generalizing m a mask v with
  | zero => rw [if_neg (by omega), mmerge]
  | succ k ih =>
    rw [mmerge, ih]
    by_cases hj : j = a
    · subst hj
      have h0 : mask.testBit 0 = decide (mask % 2 = 1) := Nat.testBit_zero mask
      rw [if_neg (by omega), Nat.sub_self, h0]
      by_cases hm : mask % 2 = 1
      · simp [hm, mget_mset]
      · simp [hm]
    · have hset : mget (if mask % 2 = 1 then mset m a (BitVec.ofNat 8 v) else m) j = mget m j := by
        split
        · rw [mget_mset, if_neg hj]
        · rfl
      rw [hset]
      by_cases hin : a + 1 ≤ j ∧ j < a + 1 + k
      · obtain ⟨i, rfl⟩ := Nat.exists_eq_add_of_le hin.1
        have hi : a + 1 + i - a = i + 1 := by omega
        have hdiv : v / 256 / 2 ^ (8 * i) = v / 2 ^ (8 * (i + 1)) := by
          rw [Nat.div_div_eq_div_mul, Nat.mul_succ, Nat.add_comm (8 * i) 8, pow_add, show (2 : Nat) ^ 8 = 256 from rfl]
        simp only [Nat.add_sub_cancel_left, hi, hdiv, Nat.testBit_succ]
        exact if_congr (by constructor <;> rintro ⟨h, hb⟩ <;> exact ⟨by omega, hb⟩) rfl rfl
      · rw [if_neg fun h => hin h.1, if_neg fun h => hin (by omega)]

theorem mem_countLine (s : State) (slice line : Nat) : (s.countLine slice line).mem = s.mem := by
  unfold State.countLine State.countReads
  split_ifs <;> rfl

theorem cluster_countLine (s : State) (slice line g : Nat) : (s.countLine slice line).cluster g = s.cluster g := by
  unfold State.countLine State.countReads
  split_ifs <;> rfl

/-- The dirty bytes of a line merge at home (R180), and no other byte changes. -/
theorem mget_mergeHome (s : State) (line : Nat) (l : L2Line) :
    (∀ i, i < 128 → mget (s.mergeHome line l).mem (line * 128 + i) =
      if l.dirty.getLsbD i then lineByte l.data i else mget s.mem (line * 128 + i)) ∧
    ∀ a, a < line * 128 ∨ line * 128 + 128 ≤ a → mget (s.mergeHome line l).mem a = mget s.mem a := by
  have hm : (s.mergeHome line l).mem = mmerge s.mem (line * lineBytes) lineBytes l.dirty.toNat l.data.toNat := mem_countLine ..
  have h128 : lineBytes = 128 := rfl
  rw [hm, h128]
  refine ⟨fun i hi => ?_, fun a ha => ?_⟩
  · have hbyte : BitVec.ofNat 8 (l.data.toNat / 2 ^ (8 * i)) = lineByte l.data i := by
      apply BitVec.eq_of_toNat_eq
      rw [lineByte, BitVec.extractLsb'_toNat, BitVec.toNat_ofNat, Nat.shiftRight_eq_div_pow]
    rw [mget_mmerge, Nat.add_sub_cancel_left, hbyte]
    refine if_congr ?_ rfl rfl
    rw [BitVec.getLsbD]
    exact and_iff_right ⟨by omega, by omega⟩
  · rw [mget_mmerge, if_neg (by omega)]

theorem exec_writebackMerge {s : State} {v : Victim} (hv : (s.cluster s.ev.a).victims[s.ev.b]? = some v) :
    ∃ t : State, exec .writebackMerge s = .next t ∧
    (s.silent (v.line * 128) = true → t = s) ∧ (s.silent (v.line * 128) = false → (t.cluster s.ev.a).victims = (s.cluster s.ev.a).victims.eraseIdx s.ev.b ∧
      (∀ i, i < 128 → mget t.mem (v.line * 128 + i) = if v.l.dirty.getLsbD i then lineByte v.l.data i else mget s.mem (v.line * 128 + i)) ∧
      ∀ a, a < v.line * 128 ∨ v.line * 128 + 128 ≤ a → mget t.mem a = mget s.mem a) := by
  have hx : exec .writebackMerge s = .next (if s.silent (v.line * 128) then s
      else (s.modCluster s.ev.a fun c => { c with victims := c.victims.eraseIdx s.ev.b }).mergeHome v.line v.l) := by
    show execWritebackMerge s = _
    simp only [execWritebackMerge, State.mergeVictim, hv]
    rfl
  refine ⟨_, hx, fun h => if_pos h, fun h => ?_⟩
  rw [h, if_neg Bool.false_ne_true]
  refine ⟨?_, mget_mergeHome (s.modCluster s.ev.a fun c => { c with victims := c.victims.eraseIdx s.ev.b }) v.line v.l⟩
  refine (congrArg Cluster.victims (cluster_countLine _ _ _ _)).trans ?_
  show ((s.modCluster s.ev.a fun c => { c with victims := c.victims.eraseIdx s.ev.b }).cluster s.ev.a).victims = _
  rw [State.cluster_modCluster_self]

/-- A sum of distinct powers of two below `2 ^ m`, and positive where one is taken. -/
theorem foldl_pow_range (c : Nat → Prop) [DecidablePred c] (m : Nat) :
    (List.range m).foldl (fun a k => if c k then a + 2 ^ k else a) 0 < 2 ^ m ∧
    ∀ k, k < m → c k → 0 < (List.range m).foldl (fun a k => if c k then a + 2 ^ k else a) 0 := by
  induction m with
  | zero => simp
  | succ n ih =>
    obtain ⟨hlt, hpos⟩ := ih
    rw [List.range_succ, List.foldl_append]
    simp only [List.foldl_cons, List.foldl_nil]
    have hn : 0 < 2 ^ n := Nat.two_pow_pos n
    refine ⟨by rw [pow_succ]; split <;> omega, fun k hk hc => ?_⟩
    by_cases hkn : k = n
    · subst hkn
      rw [if_pos hc]
      omega
    · have := hpos k (by omega) hc
      split <;> omega

/-- Bytes of a line lie in a sector of it. -/
theorem sectorsOf_ne_zero {o n : Nat} (ho : o < 128) (hn : 0 < n) : sectorsOf o n ≠ 0 := by
  obtain ⟨hlt, hpos⟩ := foldl_pow_range (fun k => 16 * k < o + n ∧ o < 16 * k + 16) 8
  have hp := hpos (o / 16) (by omega) (by omega)
  intro h
  have h0 := congrArg BitVec.toNat h
  rw [sectorsOf, BitVec.toNat_ofNat, Nat.mod_eq_of_lt hlt] at h0
  exact absurd h0 (Nat.ne_of_gt hp)

/-- A context keeps its reservation but where it loses it. -/
theorem reservation_loseIf (s : State) (p : Nat → Reservation → Bool) (w : Wake) (j : Nat) :
    ((s.loseIf p w).ctx j).reservation = (s.ctx j).reservation.filter fun r => !p j r := by
  unfold State.ctx State.loseIf
  induction s.ctxs with
  | nil => rfl
  | cons q t ih =>
    simp only [List.map_cons, tfind]
    grind

/-- A line that leaves an L2 whole is no longer there, and what was reserved of it is lost. -/
theorem leaveSectors_all {s : State} {g line : Nat} {l : L2Line} (w : Wake) (hl : tfind (s.cluster g).l2 line = some l) :
    s.leaveSectors g line 255 w = (s.modCluster g fun c => { c with l2 := tdel c.l2 line }).loseIf (fun cid r =>
      clusterOf cid = g ∧ r.pa / lineBytes = line ∧ sectorsOf (r.pa % lineBytes) r.size &&& (255 &&& l.valid) ≠ 0) w := by
  have hv : l.valid &&& ~~~(255 : BitVec 8) = 0 := by simp
  simp only [State.leaveSectors, hl, State.dropSectors, hv, if_true]

theorem evictLine_of_no_tile {s : State} {g line : Nat} {l : L2Line} (hl : tfind (s.cluster g).l2 line = some l)
    (ht : ∀ q ∈ s.tiles, q.mask line = 0) : s.evictLine g line = (s.leaveSectors g line 255 (s.lineLeft l.home)).sendVictim g line l := by
  have hf : s.tiles.filter (fun t => t.mask line ≠ 0 && t.holders.contains g && t.st ≠ .f) = [] :=
    List.filter_eq_nil_iff.2 fun q hq => by simp [ht q hq]
  simp only [State.evictLine, hf, List.foldl_nil, hl]

theorem ctx_sendVictim (s : State) (g line : Nat) (l : L2Line) (j : Nat) : (s.sendVictim g line l).ctx j = s.ctx j := by
  unfold State.sendVictim
  split <;> rfl

theorem l2_sendVictim (s : State) (g line : Nat) (l : L2Line) : ((s.sendVictim g line l).cluster g).l2 = (s.cluster g).l2 := by
  unfold State.sendVictim
  split
  · rfl
  · rw [State.cluster_modCluster_self]

theorem evictLine_leaves {s t : State} {g line : Nat} {l : L2Line} (hl : tfind (s.cluster g).l2 line = some l)
    (hm : ∀ q ∈ s.tiles, q.mask line = 0) (ht : t = s.evictLine g line) :
    tfind (t.cluster g).l2 line = none ∧ t.mem = s.mem ∧
    (l.dirty = 0 → (t.cluster g).victims = (s.cluster g).victims) ∧
    (l.dirty ≠ 0 → ∃ v : Victim, (t.cluster g).victims = (s.cluster g).victims ++ [v] ∧ v.line = line ∧ v.l = l) ∧
    (l.valid = 255 → ∀ cid r, clusterOf cid = g → (t.ctx cid).reservation = some r → r.pa / 128 = line → r.size = 0) := by
  subst ht
  have hcl : ∀ w, (s.leaveSectors g line 255 w).cluster g = { s.cluster g with l2 := tdel (s.cluster g).l2 line } := fun w => by
    rw [leaveSectors_all w hl]
    exact State.cluster_modCluster_self s g fun c => { c with l2 := tdel c.l2 line }
  rw [evictLine_of_no_tile hl hm]
  refine ⟨?_, ?_, fun hd => ?_, fun hd => ?_, fun hv cid r hg hr hline => ?_⟩
  · rw [l2_sendVictim, hcl, tfind_tdel_self]
  · rw [sendVictim_mem, leaveSectors_all _ hl]
    rfl
  · rw [sendVictim_clean _ _ _ _ hd, hcl]
  · rw [sendVictim_eq _ _ _ _ hd, State.cluster_modCluster_self, hcl]
    exact ⟨_, rfl, rfl, rfl⟩
  · rw [ctx_sendVictim, leaveSectors_all _ hl, reservation_loseIf] at hr
    obtain ⟨-, hkeep⟩ := Option.filter_eq_some_iff.1 hr
    by_contra hsize
    have hsec : sectorsOf (r.pa % lineBytes) r.size ≠ 0 := sectorsOf_ne_zero (Nat.mod_lt _ (by decide)) (Nat.pos_of_ne_zero hsize)
    have hline' : r.pa / lineBytes = line := hline
    have hmask : sectorsOf (r.pa % lineBytes) r.size &&& (255 &&& l.valid) = sectorsOf (r.pa % lineBytes) r.size := by
      rw [hv]
      exact BitVec.and_allOnes
    exact hsec (hmask.symm.trans (by simpa [hg, hline'] using hkeep))

/-! ### Posted messages -/

theorem exec_remoteScratchpadAccess {s : State} {cid h off n : Nat} {rel : Bool} {x : Xlat} {d pc task : Word} {tid : BitVec 12} {since : Nat}
    (he : (s.core s.ev.a).posted[s.ev.b]? = some ⟨cid, rel, .store x n d, pc, task, tid, since, none⟩) (hr : regionOf x.pa = .scratch 0 h off) :
    (s.mayLand s.ev.a s.ev.b = true → ∃ t : State, exec .remoteScratchpadAccess s = .next t ∧
      (t.core s.ev.a).posted = (s.core s.ev.a).posted.eraseIdx s.ev.b ∧
      (∀ j, j < n → mget t.mem (scratchAddr h off + j) = BitVec.ofNat 8 (d.toNat / 2 ^ (8 * j))) ∧
      ∀ a, a < scratchAddr h off ∨ scratchAddr h off + n ≤ a → mget t.mem a = mget s.mem a) ∧
    (s.mayLand s.ev.a s.ev.b = false → exec .remoteScratchpadAccess s = .next s) := by
  have hx : exec .remoteScratchpadAccess s = .next (if s.mayLand s.ev.a s.ev.b then s.performPosted s.ev.a s.ev.b else s) := rfl
  rw [hx]
  refine ⟨fun hm => ?_, fun hm => by rw [hm]; rfl⟩
  let u := s.modCore s.ev.a fun c => { c with posted := c.posted.eraseIdx s.ev.b }
  have hp : s.performPosted s.ev.a s.ev.b = u.writeMem (clusterOf cid) tid x n d.toNat (some cid) (u.byCtx cid) (u.ctx cid).launch := by
    simp only [State.performPosted, he, State.elemDone]
    rfl
  rw [if_pos hm, hp, writeMem_scratch hr]
  refine ⟨_, rfl, ?_, fun j hj => ?_, fun a ha => mget_mwrite_outside _ _ _ _ _ ha⟩
  · show (u.core s.ev.a).posted = _
    rw [State.core_modCore_self]
  · show mget (mwrite _ _ _ _) _ = _
    rw [mget_mwrite_inside _ _ _ _ _ hj, Nat.pow_mul]

/-! ### Requests and forwards of tiles -/

theorem exec_tileHomeRequest {s : State} {q : Tile} (hq : s.tileAt s.ev.b = some q) (hl : s.clusterLive s.ev.a = true) :
    exec .tileHomeRequest s = .next (s.tileRequest q s.ev.a s.ev.flag (BitVec.ofNat 12 s.ev.n) s.ev.v) := by
  show execTileHomeRequest s = _
  simp only [execTileHomeRequest, State.tileServe, hq, hl, if_true]

theorem tileAt_pa {s : State} {pa : Nat} {q : Tile} (h : s.tileAt pa = some q) : q.pa = pa := by
  simpa using List.find?_some h

/-- The only holder of a tile in M has all that it can ask for. -/
theorem tileRequest_held {s : State} {q : Tile} {pa g : Nat} (excl : Bool) (tid : BitVec 12) (task : Word) (hq : s.tileAt pa = some q)
    (hh : q.holders = [g]) (hm : q.st = .m) : s.tileRequest q g excl tid task = s := by
  have hpush : s.tilePush q false = s := if_pos (by rw [hm]; decide)
  have hat : s.tileAt q.pa = some q := by rw [tileAt_pa hq, hq]
  simp only [State.tileRequest, hpush, hat, hh, hm]
  simp

section
variable {s u : State} {k i cid pa home dst : Nat} {rel : Bool} {va pc task : Word} {tid : BitVec 12} {since : Nat} {vec : Option (Nat × Nat)}

/-- The turn of a TFWD entry that has not started: a release first waits for the context's earlier events. -/
theorem performEntry_tfwd (he : (s.core k).storeBuffer[i]? = some ⟨cid, rel, .tfwd pa home va dst false, pc, task, tid, since, vec⟩)
    (hu : u = if rel then (s.settleAcc cid).drainPosted cid (s.core k).posted.length else s) : s.performEntry k i = u.startForward k i := by
  subst hu
  simp only [State.performEntry, he, Bool.false_eq_true, if_false]

theorem exec_tileForwardStart {s u : State} (hm : s.mayPerform s.ev.a s.ev.b = true)
    (he : (s.core s.ev.a).storeBuffer[s.ev.b]? = some ⟨cid, rel, .tfwd pa home va dst false, pc, task, tid, since, vec⟩)
    (hu : u = if rel then (s.settleAcc cid).drainPosted cid (s.core s.ev.a).posted.length else s) :
    exec .tileForwardStart s = .next (u.startForward s.ev.a s.ev.b) := by
  have hf : s.isForward s.ev.a s.ev.b = true := by simp only [State.isForward, he]
  show execTileForwardStart s = _
  rw [execTileForwardStart, hm, hf, Bool.and_self, if_pos rfl, performEntry_tfwd he hu]

variable (he : (u.core k).storeBuffer[i]? = some ⟨cid, rel, .tfwd pa home va dst false, pc, task, tid, since, vec⟩)
include he

theorem startForward_own (hd : clusterOfCore dst = clusterOf cid) :
    u.startForward k i = u.modCore k fun c => { c with storeBuffer := c.storeBuffer.eraseIdx i } := by
  simp only [State.startForward, he, hd, if_true]
  rfl

theorem startForward_no_tile (hd : clusterOfCore dst ≠ clusterOf cid) (hq : u.tileAt pa = none) : u.startForward k i =
    (u.modCore k fun c => { c with storeBuffer := c.storeBuffer.eraseIdx i }).putEvent k 8 0 task [pc, va] task (pcode 10 home) := by
  simp only [State.startForward, he, hd, if_false, hq]
  rfl

/-- The only holder in E or M forwards; its sectors travel. -/
theorem startForward_forwards {q : Tile} {v : State} {fl : Table L2Line} (hd : clusterOfCore dst ≠ clusterOf cid) (hq : u.tileAt pa = some q)
    (hs : q.st = .e ∨ q.st = .m) (hh : q.holders = [clusterOf cid]) (hv : u.takeTile q (clusterOf cid) (u.sliceWake task q.home) = (v, fl)) :
    u.startForward k i = (v.setTile { q with st := .f, dst := clusterOfCore dst, fwdCore := k, fwdTask := task, fwdTid := tid, flight := fl }).modCore
      k fun c => { c with storeBuffer := c.storeBuffer.set i ⟨cid, rel, .tfwd pa home va dst true, pc, task, tid, since, vec⟩ } := by
  have hc : ((decide (q.st = .e) || decide (q.st = .m)) && decide (q.holders = [clusterOf cid])) = true := by simp [hs, hh]
  simp only [State.startForward, he, hd, if_false, hq, hc, if_true, hv]

theorem startForward_refused {q : Tile} (hd : clusterOfCore dst ≠ clusterOf cid) (hq : u.tileAt pa = some q)
    (hs : q.st = .h ∨ q.st = .s ∨ q.st = .f ∨ q.holders ≠ [clusterOf cid]) : u.startForward k i =
    (u.modCore k fun c => { c with storeBuffer := c.storeBuffer.eraseIdx i }).putEvent k 8 0 task [pc, va] task (pcode 10 q.home) := by
  have hc : ((decide (q.st = .e) || decide (q.st = .m)) && decide (q.holders = [clusterOf cid])) = false := by
    obtain h | h | h | h := hs <;> simp [h]
  simp only [State.startForward, he, hd, if_false, hq, hc, Bool.false_eq_true]
  rfl
end

/-! ### A push arrives -/

/-- The bases by which the tiles are named. -/
def State.tileBases (s : State) : List Nat := s.tiles.map (·.pa)

theorem mem_tileBases {s : State} {pa : Nat} {q : Tile} (h : s.tileAt pa = some q) : pa ∈ s.tileBases :=
  List.mem_map.2 ⟨q, List.mem_of_find?_eq_some h, tileAt_pa h⟩

theorem tileBases_setTile (s : State) (t : Tile) : (s.setTile t).tileBases = s.tileBases := by
  simp only [State.tileBases, State.setTile, List.map_map]
  refine List.map_congr_left fun u _ => ?_
  by_cases h : u.pa = t.pa <;> simp [h]

/-- A tile that replaces one of its base is found there. -/
theorem tileAt_setTile {s : State} {t : Tile} (h : t.pa ∈ s.tileBases) : (s.setTile t).tileAt t.pa = some t := by
  obtain ⟨q, hq, hpa⟩ := List.mem_map.1 h
  unfold State.tileAt State.setTile
  rw [List.find?_map]
  have hc : ((fun u : Tile => decide (u.pa = t.pa)) ∘ fun u => if u.pa = t.pa then t else u) = fun u => decide (u.pa = t.pa) := by
    funext u
    by_cases hu : u.pa = t.pa <;> simp [hu]
  rw [hc]
  cases hf : s.tiles.find? (fun u => decide (u.pa = t.pa)) with
  | none => exact absurd hpa (by simpa using List.find?_eq_none.1 hf q hq)
  | some r =>
    have hr : r.pa = t.pa := by simpa using List.find?_some hf
    simp [hr]

theorem foldl_keeps {α β : Type} {m : State → β} {f : State → α → State} (hf : ∀ t a, m (f t a) = m t) (l : List α) (s : State) :
    m (l.foldl f s) = m s := by
  induction l generalizing s with
  | nil => rfl
  | cons a l ih => exact (ih (f s a)).trans (hf s a)

theorem tiles_countLine (s : State) (slice line : Nat) : (s.countLine slice line).tiles = s.tiles := by
  unfold State.countLine State.countReads
  split_ifs <;> rfl

theorem tiles_mergeHome (s : State) (line : Nat) (l : L2Line) : (s.mergeHome line l).tiles = s.tiles := tiles_countLine ..

theorem tiles_sendVictim (s : State) (g line : Nat) (l : L2Line) : (s.sendVictim g line l).tiles = s.tiles := by
  unfold State.sendVictim
  split <;> rfl

theorem tiles_leaveSectors (s : State) (g line : Nat) (m : BitVec 8) (w : Wake) : (s.leaveSectors g line m w).tiles = s.tiles := by
  unfold State.leaveSectors State.dropSectors
  split <;> rfl

theorem tiles_writeBack (s : State) (g line : Nat) (m : BitVec 8) : (s.writeBack g line m).tiles = s.tiles := by
  unfold State.writeBack
  split
  · rfl
  · dsimp only
    split
    · rfl
    · rw [State.modCluster_tiles]
      split
      · exact tiles_sendVictim ..
      · exact tiles_mergeHome ..

theorem tileBases_releaseFrom (s : State) (t : Tile) (g : Nat) (w : Wake) : (s.releaseFrom t g w).tileBases = s.tileBases := by
  have hd : (s.tileDrop t g w).tiles = s.tiles := foldl_keeps (fun u p => (tiles_leaveSectors ..).trans (tiles_writeBack ..)) _ _
  rw [State.releaseFrom, tileBases_setTile, State.tileBases, hd]
  rfl

theorem tileBases_evictLine (s : State) (g line : Nat) : (s.evictLine g line).tileBases = s.tileBases := by
  have hr : ∀ ts : List Tile, (ts.foldl (fun s t => s.releaseFrom t g (s.lineLeft t.home)) s).tileBases = s.tileBases := fun ts =>
    foldl_keeps (fun u t => tileBases_releaseFrom ..) ts s
  unfold State.evictLine
  dsimp only
  split
  · exact hr _
  · rw [State.tileBases, tiles_sendVictim, tiles_leaveSectors]
    exact hr _

theorem tileBases_putLine (s : State) (g line : Nat) (tid : BitVec 12) (sw : Bool) (home : Nat) (cls : BitVec 2) (avoid : List Nat)
    (f : L2Line → L2Line) : (s.putLine g line tid sw home cls avoid f).tileBases = s.tileBases := by
  show (s.makeWay g line avoid).tileBases = _
  unfold State.makeWay
  split
  · rfl
  · split
    · exact tileBases_evictLine ..
    · rfl

/-- Placing a tile's sectors may release other tiles, and takes none off the directory. -/
theorem tileBases_placeTile (s : State) (t : Tile) (g : Nat) (tid : BitVec 12) (fl : Table L2Line) : (s.placeTile t g tid fl).tileBases = s.tileBases := by
  refine foldl_keeps (fun u p => ?_) t.sectors s
  obtain ⟨line, m⟩ := p
  dsimp only
  split
  · rfl
  · exact tileBases_putLine ..

theorem exec_tilePushArrival {s : State} {q : Tile} (hq : s.tileAt s.ev.b = some q) : exec .tilePushArrival s = .next (s.tilePush q s.ev.flag) := by
  show execTilePushArrival s = _
  simp only [execTilePushArrival, hq]

/-- Whether the destination of a push can take it (R223, R230). -/
def State.pushTakes (s : State) (t : Tile) (evicted : Bool) : Bool :=
  !s.declines t t.dst && !(evicted && decide ((s.cluster t.dst).ways ≤ (s.cluster t.dst).l2.length + t.sectors.length))

/-- The TFWD entry of a forward that has ended leaves its buffer (R231). -/
def State.forwardDone (s : State) (t : Tile) : State :=
  s.modCore t.fwdCore fun k => { k with storeBuffer := k.storeBuffer.filter fun e => match e.kind with
    | .tfwd pa _ _ _ true => pa ≠ t.pa
    | _ => true }

theorem tilePush_takes {s : State} {t : Tile} {evicted : Bool} (hf : t.st = .f) (h : s.pushTakes t evicted = true) : s.tilePush t evicted =
    ((s.placeTile t t.dst t.fwdTid t.flight).setTile { t with st := .m, holders := [t.dst], flight := [] }).forwardDone t := by
  rw [State.pushTakes] at h
  simp only [State.tilePush, hf, ne_eq, not_true_eq_false, if_false, h, if_true]
  rfl

theorem tilePush_refused {s : State} {t : Tile} {evicted : Bool} (hf : t.st = .f) (h : s.pushTakes t evicted = false) : s.tilePush t evicted =
    ((t.flight.foldl (fun s p => s.mergeHome p.1 p.2) s).setTile { t with st := .h, holders := [], dst := 0, flight := [] }).forwardDone t := by
  rw [State.pushTakes] at h
  simp only [State.tilePush, hf, ne_eq, not_true_eq_false, if_false, h, Bool.false_eq_true]
  rfl

theorem exec_tilePushArrival_ends {s : State} {q : Tile} (hq : s.tileAt s.ev.b = some q) (hf : q.st = .f) : ∃ t : State, exec .tilePushArrival s = .next t ∧
    (s.declines q q.dst = false → s.ev.flag = false ∨ (s.cluster q.dst).l2.length + q.sectors.length < (s.cluster q.dst).ways →
      t.tileAt s.ev.b = some { q with st := .m, holders := [q.dst], flight := [] } ∧
      t.tiles = ((s.placeTile q q.dst q.fwdTid q.flight).setTile { q with st := .m, holders := [q.dst], flight := [] }).tiles) ∧
    (s.declines q q.dst = true ∨ (s.ev.flag = true ∧ (s.cluster q.dst).ways ≤ (s.cluster q.dst).l2.length + q.sectors.length) →
      t.tileAt s.ev.b = some { q with st := .h, holders := [], dst := 0, flight := [] } ∧
      t.mem = (q.flight.foldl (fun u p => u.mergeHome p.1 p.2) s).mem) := by
  have hpa := tileAt_pa hq
  have hmem := mem_tileBases hq
  rw [← hpa] at hmem ⊢
  refine ⟨_, exec_tilePushArrival hq, fun hd hw => ?_, fun h => ?_⟩
  · have ht : s.pushTakes q s.ev.flag = true := by
      rw [State.pushTakes, hd]
      obtain hw | hw := hw
      · rw [hw]
        rfl
      · rw [decide_eq_false (Nat.not_le.2 hw), Bool.and_false]
        rfl
    rw [tilePush_takes hf ht]
    refine ⟨tileAt_setTile (t := { q with st := .m, holders := [q.dst], flight := [] }) ?_, rfl⟩
    rw [tileBases_placeTile]
    exact hmem
  · have ht : s.pushTakes q s.ev.flag = false := by
      rw [State.pushTakes]
      obtain hd | ⟨hw, hl⟩ := h
      · rw [hd]
        rfl
      · rw [hw, decide_eq_true hl, Bool.and_self, Bool.not_true, Bool.and_false]
    rw [tilePush_refused hf ht]
    refine ⟨tileAt_setTile (t := { q with st := .h, holders := [], dst := 0, flight := [] }) ?_, rfl⟩
    have hb : (q.flight.foldl (fun s p => s.mergeHome p.1 p.2) s).tileBases = s.tileBases :=
      foldl_keeps (fun u p => congrArg (List.map (·.pa)) (tiles_mergeHome ..)) q.flight s
    rw [hb]
    exact hmem

/-! ### A host that answers no snoop -/

theorem exec_snoopHostTimeout_eq (s : State) : exec .snoopHostTimeout s = .next (s.snoopTimeout s.ev.b) := rfl

theorem exec_snoopHostTimeout {s : State} {ps : List (Nat × Nat)} (hp : ps = s.host.hostLines.filter (fun p => p.1 == s.ev.b)) :
    (ps ≠ [] → ∃ t : State, exec .snoopHostTimeout s = .next t ∧ (∀ p ∈ t.host.hostLines, p.1 ≠ s.ev.b) ∧
      t.now = s.now + (s.qmtmo.extractLsb' 0 40).toNat ∧ t.host.reported = s.host.reported ++ ps.map (fun p => p.2) ∧ t.mem = s.mem) ∧
    (ps = [] → exec .snoopHostTimeout s = .next s) := by
  rw [exec_snoopHostTimeout_eq]
  refine ⟨fun hn => ?_, fun hn => ?_⟩
  · obtain ⟨p, ps', rfl⟩ := List.exists_cons_of_ne_nil hn
    have hany : (s.host.hostLines.any fun p => p.1 == s.ev.b) = true := by
      have hm : p ∈ s.host.hostLines.filter (fun p => p.1 == s.ev.b) := hp ▸ List.mem_cons_self
      exact List.any_eq_true.2 ⟨p, List.mem_of_mem_filter hm, (List.mem_filter.1 hm).2⟩
    have hback : s.backInvalidate s.ev.b =
        { s with host := { s.host with hostLines := s.host.hostLines.filter fun p => p.1 ≠ s.ev.b } } := if_pos hany
    have htmo : s.tmo = (s.qmtmo.extractLsb' 0 40).toNat := bits_eq ..
    rw [← htmo]
    simp only [State.snoopTimeout, ← hp, hback]
    exact ⟨_, rfl, fun r hr => by simpa using (List.mem_filter.1 hr).2, rfl, rfl, rfl⟩
  · rw [hn] at hp
    simp only [State.snoopTimeout, ← hp]

end Sys2Proof.Machine
end

