-- ==== Sys2Proof/Proofs/CoreEngine/MemoryEvents.lean ====
section
/-! The events of the store buffers, lane groups, home slices and tiles, each by the lemma about it. Settles O52. -/

namespace Sys2Proof.Machine

theorem storeBufferEvents (s : State) : (s.mayPerform s.ev.a s.ev.b = true → exec .storeBufferEntryPerform s = .next (s.performEntry s.ev.a s.ev.b)) ∧
    (s.mayPerform s.ev.a s.ev.b = false → exec .storeBufferEntryPerform s = .next s ∧ exec .tileForwardStart s = .next s) ∧
    (∀ e, s.ev.b = 0 → (s.core s.ev.a).storeBuffer.head? = some e → (s.core s.ev.a).posted = [] → (s.cluster (s.ev.a / 4)).busy = false →
      (s.die (s.ev.a / 512)).stopped = false → (∀ x n d, e.kind = .store x n d → s.slotsFull (clusterOf e.cid) x n = false) →
      (∀ ls, e.kind = .written ls → s.writesTo (clusterOf e.cid) ls = none) → s.mayPerform s.ev.a s.ev.b = true) :=
  ⟨exec_storeBufferEntryPerform_may, fun h => ⟨exec_storeBufferEntryPerform_held h, exec_tileForwardStart_held h⟩,
    fun _ hb he hp hw hd hs hv => by
      rw [hb]
      exact mayPerform_oldest he hp hw hd hs hv⟩

/-- Settles O52. -/
theorem memoryEvents : Obligations.MemoryEvents := by
  unfold Obligations.MemoryEvents
  refine ⟨⟨storeBufferEvents, ?_, fun s => exec_laneGroupGrant_nothing, ?_, ?_, ?_, ?_, ?_⟩, ⟨?_, ?_, ?_⟩, ⟨?_, ?_, ?_, ?_⟩⟩
  · intro s g j k i cost x e hg hj hj8 hx hroom hbusy hk hptr hfresh hready hcost he ha
    exact exec_laneGroupGrant_grants hg hj hj8 hx hroom hbusy hk hptr hfresh hready hcost he ha
  · intro s f k st hf hi hk hst hr
    exact exec_homeRequestArrival_staging hf hi hk hst hr
  · intro s i pa sl k hf hq hh hk
    exact exec_homeRequestArrival_access hf hq hh hk
  · intro s k l r w hk h
    exact exec_missBufferSlotEntry_admits hk h
  · intro s u k l m r x tid ex hk hh hl hf hu hn
    exact exec_missBufferSlotEntry_fills hk hh hl hf hu hn
  · intro s k l m r hk hh hl hf he hn
    exact exec_missBufferSlotEntry_element hk hh hl hf he hn
  · intro s v hv
    exact exec_writebackMerge hv
  · intro s t g line l hl hm ht
    exact evictLine_leaves hl hm ht
  · intro s cid h off n rel x d pc task tid since he hr
    exact exec_remoteScratchpadAccess he hr
  · intro s q hq hl
    have hx := exec_tileHomeRequest hq hl
    refine ⟨hx, fun hh hm => ?_⟩
    rw [hx, tileRequest_held _ _ _ hq hh hm]
  · intro s u cid pa home dst rel va pc task tid since vec hm he hu hs
    rw [exec_tileForwardStart hm he hu]
    refine ⟨fun hd => ?_, fun hd hq => ?_, fun hd q hq => ⟨fun v fl hst hh hv => ?_, fun hst => ?_⟩⟩
    · rw [startForward_own hs hd]
    · rw [startForward_no_tile hs hd hq]
    · rw [startForward_forwards hs hd hq hst hh hv]
    · rw [startForward_refused hs hd hq hst]
  · intro s q hq hf
    exact exec_tilePushArrival_ends hq hf
  · intro s ps hp
    exact exec_snoopHostTimeout hp

end Sys2Proof.Machine
end

