-- ==== Sys2Proof/Proofs/VectorEngine/Elements.lean ====
section
/-! What every vector instruction shares (R134, R143, R146, R147): the issue checks by their outcome, the elements that a write of a register leaves,
and the flags of the active elements. -/

namespace Sys2Proof.Machine

/-! ### The issue checks -/

section
variable {s : State} {fp rounds : Bool} {fs : List Reg} (i : Instr)

theorem etypeFmt_isNone_iff (e : Nat) : (etypeFmt e).isNone = true ↔ e < 8 ∨ 11 < e := by
  unfold etypeFmt
  split
  · simp
  · simp
  · simp
  · simp
  · next h8 h9 h10 h11 =>
    have h8 : e ≠ 8 := h8
    have h9 : e ≠ 9 := h9
    have h10 : e ≠ 10 := h10
    have h11 : e ≠ 11 := h11
    simp only [Option.isNone_none, true_iff]
    omega

/-- Where a list of fields lies in the window, its first field does. -/
theorem windowFault_head {c : Ctx} {f : Reg} (h : c.windowFault (f :: fs) = none) : c.windowFault [f] = none := by
  unfold Ctx.windowFault at h ⊢
  split at h
  · cases h
  · simp_all

theorem vecCheck_ok (h : s.VecOk fp rounds fs) : s.vecCheck i fp rounds fs = .ok () := by
  obtain ⟨hv, he, hr, hw, hq⟩ := h
  have hvill : s.me.vill = false := hv
  have hfp : (fp && (etypeFmt s.me.etype).isNone) = false := by
    cases fp with
    | false => rfl
    | true =>
      obtain ⟨h8, h11⟩ := he rfl
      rw [Bool.true_and, ← Bool.not_eq_true, etypeFmt_isNone_iff]
      omega
  have hrm : (rounds && decide (4 < s.me.frm.toNat)) = false := by
    cases rounds with
    | false => rfl
    | true => simpa using hr rfl
  simp [State.vecCheck, State.checkWindow, State.checkRoom, hvill, hfp, hrm, hw, hq]

theorem vecCheck_vill (fp rounds : Bool) (fs : List Reg) (h : s.me.qvtype.getLsbD 63 = true) : s.vecCheck i fp rounds fs = illegal i := by
  have hvill : s.me.vill = true := h
  simp [State.vecCheck, hvill]

theorem vecCheck_notFloat (rounds : Bool) (fs : List Reg) (h : s.me.etype < 8 ∨ 11 < s.me.etype) : s.vecCheck i true rounds fs = illegal i := by
  simp [State.vecCheck, (etypeFmt_isNone_iff _).2 h]

theorem vecCheck_badRounding (fp : Bool) (fs : List Reg) (h : 4 < s.me.frm.toNat) : s.vecCheck i fp true fs = illegal i := by
  simp [State.vecCheck, h]

/-- An operation that needs no floating-point type and does not round comes to the check of the window (R143). -/
theorem vecCheck_window (fs : List Reg) (h : s.me.qvtype.getLsbD 63 = false) : s.vecCheck i false false fs = s.checkWindow fs := by
  have hvill : s.me.vill = false := h
  simp [State.vecCheck, hvill]

theorem checkWindow_none (fs : List Reg) (h : s.me.winSize = 0) : s.checkWindow fs = trap 30 0 := by
  simp [State.checkWindow, Ctx.windowFault, h, word]

theorem checkWindow_outside (f : Reg) (fs : List Reg) (h0 : s.me.winSize ≠ 0) (h : s.me.winSize ≤ s.me.rot + f.toNat) :
    s.checkWindow (f :: fs) = trap 30 (word (s.me.rot + f.toNat)) := by
  simp [State.checkWindow, Ctx.windowFault, h0, h]

/-- A full queue presents the instruction again, but for one that returns with the engine's answer (R135). -/
theorem checkRoom_full (h : s.vecFull = true) (hr : s.me.request = none) : s.checkRoom = .error (.left s) := by
  simp [State.checkRoom, h, Ctx.returning, hr]

theorem checkRoom_ok (h : s.vecFull = false) : s.checkRoom = .ok () := by
  simp [State.checkRoom, h]

theorem checkWindow_full (h : s.me.windowFault fs = none) (hq : s.vecFull = true) (hr : s.me.request = none) :
    s.checkWindow fs = .error (.left s) := by
  simp [State.checkWindow, h, checkRoom_full hq hr]

theorem checkWindow_ok (h : s.me.windowFault fs = none) (hq : s.vecFull = false) : s.checkWindow fs = .ok () := by
  simp [State.checkWindow, h, checkRoom_ok hq]

theorem State.VecOk.window (h : s.VecOk fp rounds fs) : s.me.windowFault fs = none := by
  obtain ⟨-, -, -, hw, -⟩ := h
  exact hw

/-- The other checks do not look at the fields. -/
theorem State.VecOk.fields {fs' : List Reg} (h : s.VecOk fp rounds fs) (hw : s.me.windowFault fs' = none) : s.VecOk fp rounds fs' := by
  obtain ⟨hv, he, hr, -, hq⟩ := h
  exact ⟨hv, he, hr, hw, hq⟩

end

/-! ### Elements and their widths -/

theorem etypeWidth_ge (e : Nat) : 8 ≤ etypeWidth e := by
  unfold etypeWidth
  split <;> decide

theorem State.vw_ge (s : State) : 8 ≤ s.vw := etypeWidth_ge _
theorem State.vw_pos (s : State) : 0 < s.vw := lt_of_lt_of_le (by decide) s.vw_ge

theorem elemIn_lt {e x w : Nat} (h : x < 2 ^ w) : elemIn e x < 2 ^ w := by
  unfold elemIn
  split
  · exact lt_of_le_of_lt (Nat.mod_le ..) h
  · exact h

theorem velem_lt (v : VReg) (w i : Nat) : velem v w i < 2 ^ w := Nat.mod_lt _ (by positivity)

theorem State.ve_lt (s : State) (f : Reg) (i : Nat) : s.ve f i < 2 ^ s.vw := elemIn_lt (velem_lt ..)

/-- An element as it is read is an element as it is written. -/
theorem State.asElem_ve (s : State) (f : Reg) (i : Nat) : s.asElem (s.ve f i) = s.ve f i := by
  unfold State.asElem State.ve elemIn
  split
  · exact Nat.mod_mod ..
  · exact Nat.mod_mod ..

@[simp] theorem State.asElem_zero (s : State) : s.asElem 0 = 0 := by
  unfold State.asElem
  split <;> exact Nat.zero_mod _

/-- Cutting a value to the element's width first makes no difference. -/
theorem State.asElem_mod (s : State) (v : Nat) : s.asElem (v % 2 ^ s.vw) = s.asElem v := by
  unfold State.asElem
  split
  · next h =>
    have hw : s.vw = 8 := by rw [State.vw, h]; rfl
    rw [hw]
    omega
  · exact Nat.mod_mod ..

theorem State.active_iff (s : State) (mk : BitVec 3) (i : Nat) : s.Active mk i = true ↔ i < s.me.vl ∧ (s.me.mask mk).getLsbD i = true := by
  simp [State.Active]

theorem State.active_of_lt {s : State} {i : Nat} (mk : BitVec 3) (h : i < s.me.vl) : s.Active mk i = (s.me.mask mk).getLsbD i := by
  simp [State.Active, h]

theorem State.lt_of_active {s : State} {mk : BitVec 3} {i : Nat} (h : s.Active mk i = true) : i < s.me.vl := ((s.active_iff mk i).1 h).1

theorem Ctx.mask_zero (c : Ctx) : c.mask 0 = BitVec.allOnes 1024 := if_pos rfl

/-- With mk = 0 every element below VL is active (R144). -/
theorem State.active_zero {s : State} {i : Nat} (h : i < 1024) : s.Active 0 i = decide (i < s.me.vl) := by
  rw [State.Active, Ctx.mask_zero, BitVec.getLsbD_allOnes, decide_eq_true h, Bool.and_true]

/-- An element that a register has room for is one of 1,024. -/
theorem elem_lt_1024 {s : State} {i : Nat} (h : s.vw * (i + 1) ≤ 8192) : i < 1024 := by
  have := Nat.mul_le_mul_right (i + 1) s.vw_ge
  omega

/-! ### Flags -/

theorem getLsbD_foldl_or {α : Type} (f : α → Flags) (xs : List α) (a : Flags) (j : Nat) :
    (xs.foldl (fun a x => a ||| f x) a).getLsbD j = true ↔ a.getLsbD j = true ∨ ∃ x, x ∈ xs ∧ (f x).getLsbD j = true := by
  induction xs generalizing a with
  | nil => simp
  | cons x xs ih => simp [ih, or_assoc]

/-- The OR, in order, of the flags of those elements below n where `on` holds. -/
theorem flagsOf_foldl (n : Nat) (on : Nat → Bool) (r : Nat → Flags) :
    FlagsOf n on r (((List.range n).foldl (fun a i => a ||| if on i then r i else 0) 0).setWidth 64) := by
  intro j
  rw [BitVec.getLsbD_setWidth, Bool.and_eq_true, getLsbD_foldl_or (fun i => if on i then r i else 0)]
  have hz : ∀ b : Bool, ∀ f : Flags, (if b then f else 0).getLsbD j = true ↔ b = true ∧ f.getLsbD j = true := by
    intro b f
    cases b <;> simp
  have h0 : (0 : Flags).getLsbD j = false := BitVec.getLsbD_zero
  simp only [h0, Bool.false_eq_true, false_or, List.mem_range, hz, decide_eq_true_eq]
  refine ⟨And.right, fun h => ⟨?_, h⟩⟩
  obtain ⟨i, -, -, hi⟩ := h
  have := BitVec.lt_of_getLsbD hi
  omega

theorem elemFlags_eq (xs : List (Option (Nat × Flags))) : elemFlags xs = xs.foldl (fun a o => a ||| (o.elim 0 Prod.snd)) 0 := by
  unfold elemFlags
  congr 1
  funext a o
  cases o <;> simp

/-- The flags of the elements that a frame writes (R147). -/
theorem flagsOf_elemFlags (n : Nat) (on : Nat → Bool) (r : Nat → Nat × Flags) :
    FlagsOf n on (fun i => (r i).2) ((elemFlags ((List.range n).map fun i => if on i then some (r i) else none)).setWidth 64) := by
  have h := flagsOf_foldl n on fun i => (r i).2
  rw [elemFlags_eq, List.foldl_map]
  have hf : (fun (a : Flags) i => a ||| (if on i then some (r i) else none).elim 0 Prod.snd) = fun a i => a ||| if on i then (r i).2 else 0 := by
    funext a i
    cases on i <;> rfl
  rwa [hf]

/-- Where no element raises a flag there is none. -/
theorem FlagsOf.eq_zero {n : Nat} {on : Nat → Bool} {r : Nat → Flags} {fl : BitVec 64} (h : FlagsOf n on r fl) (hr : ∀ i, r i = 0) : fl = 0 := by
  refine BitVec.eq_of_getLsbD_eq fun j _ => ?_
  have h0 : (0 : BitVec 64).getLsbD j = false := BitVec.getLsbD_zero
  rw [h0, ← Bool.not_eq_true, h j]
  rintro ⟨i, -, -, hi⟩
  rw [hr] at hi
  exact Bool.false_ne_true (BitVec.getLsbD_zero.symm.trans hi)

/-! ### Writing elements -/

theorem ElementsWritten.congr {s u : State} {vd : Reg} {w n : Nat} {val val' : Nat → Option Nat} {fl : BitVec 64}
    (h : ElementsWritten s u vd w n val fl) (hv : ∀ i, i < n → w * (i + 1) ≤ 8192 → val i = val' i) : ElementsWritten s u vd w n val' fl := by
  obtain ⟨hs, hj, hme, hg, he, ha, hr⟩ := h
  exact ⟨hs, hj, hme, hg, fun i hi hw => by rw [he i hi hw, hv i hi hw], ha, hr⟩

/-- Elements written from a function of their number, those for which it gives one. -/
theorem elementsWritten_range (s : State) (vd : Reg) (n : Nat) (f : Nat → Option (Nat × Flags)) :
    ElementsWritten s (s.putElems vd ((List.range n).map f)) vd s.vw n (fun i => (f i).map fun p => s.asElem p.1)
      ((elemFlags ((List.range n).map f)).setWidth 64) := by
  have h := elementsWritten_putElems s vd ((List.range n).map f)
  rw [List.length_map, List.length_range] at h
  refine h.congr fun i hi _ => ?_
  simp [hi]
  rfl

/-- As `elementsWritten_range`, where no element raises a flag. -/
theorem elementsWritten_noFlags (s : State) (vd : Reg) (n : Nat) (f : Nat → Option Nat) :
    ElementsWritten s (s.putElems vd ((List.range n).map fun i => (f i).map (·, 0))) vd s.vw n (fun i => (f i).map s.asElem) 0 := by
  have h := elementsWritten_range s vd n fun i => (f i).map (·, 0)
  have hz : elemFlags ((List.range n).map fun i => (f i).map (·, (0 : Flags))) = 0 := by
    rw [elemFlags_eq]
    refine List.foldlRecOn (motive := (· = 0)) _ _ rfl fun a ha o ho => ?_
    obtain ⟨i, -, rfl⟩ := List.mem_map.1 ho
    rw [ha]
    cases f i <;> exact BitVec.or_zero
  rw [hz] at h
  refine h.congr fun i _ _ => ?_
  rw [Option.map_map]
  rfl

/-- The frame of R147: the active elements written, their flags, and the entry in the queue. -/
theorem vecMap_written (s : State) (vd : Reg) (mk : BitVec 3) (cost : Nat) (r : Nat → Nat × Flags) :
    ∃ (u : State) (fl : BitVec 64), FlagsOf s.me.vl (s.Active mk) (fun i => (r i).2) fl ∧
      ElementsWritten s u vd s.vw s.me.vl (fun i => if s.Active mk i then some (s.asElem (r i).1) else none) fl ∧
      s.vecMap vd mk cost r = u.enqueueE s.vw s.me.vl cost := by
  have hx : s.vecMap vd mk cost r =
      (s.putElems vd ((List.range s.me.vl).map fun i => if s.Active mk i then some (r i) else none)).enqueueE s.vw s.me.vl cost := by
    rw [vecMap_eq]
    congr 2
    refine List.map_congr_left fun i hi => ?_
    rw [State.active_of_lt mk (List.mem_range.1 hi)]
  refine ⟨_, _, flagsOf_elemFlags s.me.vl (s.Active mk) r, (elementsWritten_range s vd s.me.vl _).congr fun i _ _ => ?_, hx⟩
  cases s.Active mk i <;> rfl

/-- As `vecMap_written`, for results without flags. -/
theorem vecMap_written_noFlags (s : State) (vd : Reg) (mk : BitVec 3) (cost : Nat) (r : Nat → Nat) :
    ∃ u : State, ElementsWritten s u vd s.vw s.me.vl (fun i => if s.Active mk i then some (s.asElem (r i)) else none) 0 ∧
      s.vecMap vd mk cost (fun i => (r i, 0)) = u.enqueueE s.vw s.me.vl cost := by
  obtain ⟨u, fl, hf, hw, hx⟩ := vecMap_written s vd mk cost fun i => (r i, 0)
  obtain rfl := hf.eq_zero fun _ => rfl
  exact ⟨u, hw, hx⟩

end Sys2Proof.Machine
end

