-- ==== Sys2Proof/Proofs/VectorEngine/Numbers.lean ====
section
/-! The exact reading of the model's numbers (R86, R148): signed readings and wraps of w-bit numbers are those of bit vectors, and each integer
result is the exact one cut to the element's width. -/

namespace Sys2Proof.Machine

theorem signedOf_eq_toInt {w a : Nat} (hw : 0 < w) (h : a < 2 ^ w) : signedOf w a = (BitVec.ofNat w a).toInt := by
  obtain ⟨n, rfl⟩ := Nat.exists_eq_add_of_lt hw
  rw [signedOf, BitVec.toInt_eq_toNat_cond, BitVec.toNat_ofNat, Nat.mod_eq_of_lt h]
  have h2 : 2 ^ (0 + n + 1) = 2 * 2 ^ n := by rw [Nat.zero_add, pow_succ, Nat.mul_comm]
  have h1 : 0 + n + 1 - 1 = n := by omega
  rw [h1, h2]
  by_cases ha : a < 2 ^ n
  · rw [if_pos ha, if_pos (by omega)]
  · rw [if_neg ha, if_neg (by omega)]

theorem wrapInt_eq (w : Nat) (i : Int) : wrapInt w i = (BitVec.ofInt w i).toNat := by
  rw [wrapInt, BitVec.toNat_ofInt]

theorem toNat_ofNat_lt {w a : Nat} (ha : a < 2 ^ w) : (BitVec.ofNat w a).toNat = a := by rw [BitVec.toNat_ofNat, Nat.mod_eq_of_lt ha]

/-- Each integer operation's number is the exact result, cut to the element's width (R148). -/
theorem vintValue_eq {w a b : Nat} (k : VInt) (hw : 0 < w) (ha : a < 2 ^ w) (hb : b < 2 ^ w) :
    vintValue k w a b = (vintExpected k (BitVec.ofNat w a) (BitVec.ofNat w b)).toNat := by
  have sa := signedOf_eq_toInt hw ha
  have sb := signedOf_eq_toInt hw hb
  have na := toNat_ofNat_lt ha
  have nb := toNat_ofNat_lt hb
  cases k with
  | add => simp [vintValue, vintExpected, BitVec.ofInt_add]
  | sub => simp [vintValue, vintExpected, sa, sb, wrapInt_eq]
  | mul => simp [vintValue, vintExpected, BitVec.ofInt_mul]
  | mulh => simp only [vintValue, vintExpected, sa, sb, wrapInt_eq, Nat.cast_pow, Nat.cast_ofNat]
  | mulhu =>
    have hlt : a * b / 2 ^ w < 2 ^ w := Nat.div_lt_of_lt_mul (Nat.mul_lt_mul'' ha hb)
    simp only [vintValue, vintExpected, na, nb, toNat_ofNat_lt hlt]
  | min => simp only [vintValue, vintExpected, sa, sb, apply_ite BitVec.toNat, na, nb]
  | minu => simp only [vintValue, vintExpected, na, nb, apply_ite BitVec.toNat, min_def_lt]
  | max => simp only [vintValue, vintExpected, sa, sb, apply_ite BitVec.toNat, na, nb]
  | maxu => simp only [vintValue, vintExpected, na, nb, apply_ite BitVec.toNat, max_def_lt]
  | and => simp only [vintValue, vintExpected, BitVec.toNat_and, na, nb]
  | or => simp only [vintValue, vintExpected, BitVec.toNat_or, na, nb]
  | xor => simp only [vintValue, vintExpected, BitVec.toNat_xor, na, nb]
  | sll => simp only [vintValue, vintExpected, na, nb, Nat.shiftLeft_eq, BitVec.toNat_ofNat]
  | srl =>
    have hlt : b / 2 ^ (a % w) < 2 ^ w := lt_of_le_of_lt (Nat.div_le_self ..) hb
    simp only [vintValue, vintExpected, na, nb, Nat.shiftRight_eq_div_pow, toNat_ofNat_lt hlt]
  | sra => simp only [vintValue, vintExpected, sb, na, wrapInt_eq, Nat.cast_pow, Nat.cast_ofNat]
  | merge => simp only [vintValue, vintExpected, na]

end Sys2Proof.Machine
end

