-- ==== Sys2Proof/Proofs/VectorEngine/Integer.lean ====
section
/-! The vector integer operations (R148), one proof for the sixteen of each form. Settles O39. -/

namespace Sys2Proof.Machine

theorem exec_vintVv (s : State) (k : VInt) (vd vs1 vs2 : Reg) (mk : BitVec 3) :
    exec (vintVv k vd vs1 vs2 mk) s = s.done (s.vecIntVv (vintVv k vd vs1 vs2 mk) k vd vs1 vs2 mk) := by
  cases k <;> rfl

theorem exec_vintVx (s : State) (k : VInt) (vd rs1 vs2 : Reg) (mk : BitVec 3) :
    exec (vintVx k vd rs1 vs2 mk) s = s.done (s.vecIntVx (vintVx k vd rs1 vs2 mk) k vd rs1 vs2 mk) := by
  cases k <;> rfl

theorem vintCost_eq (k : VInt) (w : Nat) : vintCost k w = vintCostExpected k w := by
  cases k <;> simp [vintCost, vintCostExpected]

/-- Every integer operation but VMERGE works in the frame of R147. -/
theorem vecInt_of_ne {k : VInt} (hk : k ≠ .merge) (s : State) (vd vs2 : Reg) (mk : BitVec 3) (a : Nat → Nat) :
    s.vecInt k vd vs2 mk a = s.vecMap vd mk (vintCost k s.vw) fun i => (vintValue k s.vw (a i) (s.ve vs2 i), 0) := by
  cases k with
  | merge => exact absurd rfl hk
  | _ => rfl

/-- The elements that an integer operation writes: VMERGE, whose mask chooses between its operands, every one below VL. -/
theorem vecInt_written {s : State} (k : VInt) (vd vs2 : Reg) (mk : BitVec 3) {a : Nat → Nat} (ha : ∀ i, a i < 2 ^ s.vw) :
    ∃ u : State, ElementsWritten s u vd s.vw s.me.vl (fun i => if s.Active (if k = .merge then 0 else mk) i then
        some (s.asElem (vintExpected k (BitVec.ofNat s.vw (if k = .merge ∧ s.Active mk i = false then s.ve vs2 i else a i))
          (BitVec.ofNat s.vw (s.ve vs2 i))).toNat) else none) 0 ∧
      s.vecInt k vd vs2 mk a = u.enqueueE s.vw s.me.vl (vintCostExpected k s.vw) := by
  by_cases hk : k = .merge
  · subst hk
    obtain ⟨u, hu, hx⟩ := vecMap_written_noFlags s vd 0 1 fun i => if (s.me.mask mk).getLsbD i then a i else s.ve vs2 i
    refine ⟨u, hu.congr fun i hi _ => ?_, hx⟩
    have hr : (if (s.me.mask mk).getLsbD i then a i else s.ve vs2 i) =
        (vintExpected .merge (BitVec.ofNat s.vw (if s.Active mk i = false then s.ve vs2 i else a i)) (BitVec.ofNat s.vw (s.ve vs2 i))).toNat := by
      rw [State.active_of_lt mk hi]
      cases (s.me.mask mk).getLsbD i
      · exact (toNat_ofNat_lt (s.ve_lt vs2 i)).symm
      · exact (toNat_ofNat_lt (ha i)).symm
    simp only [true_and, if_true, hr]
  · obtain ⟨u, hu, hx⟩ := vecMap_written_noFlags s vd mk (vintCost k s.vw) fun i => vintValue k s.vw (a i) (s.ve vs2 i)
    refine ⟨u, hu.congr fun i _ _ => ?_, ?_⟩
    · simp only [hk, if_false, false_and, vintValue_eq k s.vw_pos (ha i) (s.ve_lt vs2 i)]
    · rw [vecInt_of_ne hk, hx, vintCost_eq]

/-- Settles O39: the outcomes of the issue checks, and the elements that each form writes. -/
theorem vectorIntegerResults : Obligations.VectorIntegerResults := by
  unfold Obligations.VectorIntegerResults
  refine ⟨fun s k vd vs1 vs2 mk m r h hm hr => ?_, fun s k vd rs1 vs2 mk m r h hm hr => ?_, fun s k vd vs1 vs2 mk => ⟨fun hv => ?_, fun hv h0 => ?_,
    fun hv hw hq hreq => ?_, fun hv h0 hout => ?_⟩⟩
  · obtain ⟨u, hu, hx⟩ := vecInt_written k vd vs2 mk (s.ve_lt vs1)
    refine ⟨u, _, hu.congr fun i _ _ => ?_, ?_, completed_retire _⟩
    · rw [hm, hr]
    · rw [exec_vintVv, State.vecIntVv, vecCheck_ok _ h, ← hx]
      rfl
  · obtain ⟨u, hu, hx⟩ := vecInt_written (s := s) k vd vs2 mk (a := fun _ => s.xScalar rs1) fun _ => Nat.mod_lt _ (by positivity)
    refine ⟨u, _, hu.congr fun i _ _ => ?_, ?_, completed_retire _⟩
    · have hcut : BitVec.ofNat s.vw (s.xScalar rs1) = BitVec.ofNat s.vw (s.xr rs1).toNat := by
        rw [State.xScalar, ← BitVec.toNat_inj]
        simp
      rw [hm, hr, apply_ite (BitVec.ofNat s.vw), apply_ite (BitVec.ofNat s.vw), hcut]
    · rw [exec_vintVx, State.vecIntVx, vecCheck_ok _ h, ← hx]
      rfl
  · rw [exec_vintVv, State.vecIntVv, vecCheck_vill _ _ _ _ hv]
    exact State.done_illegal ..
  · rw [exec_vintVv, State.vecIntVv, vecCheck_window _ _ hv, checkWindow_none _ h0]
    exact State.done_trap ..
  · rw [exec_vintVv, State.vecIntVv, vecCheck_window _ _ hv, checkWindow_full hw hq hreq]
    exact State.done_left ..
  · rw [exec_vintVv, State.vecIntVv, vecCheck_window _ _ hv, checkWindow_outside _ _ h0 hout]
    exact State.done_trap ..

end Sys2Proof.Machine
end

