-- ==== Sys2Proof/Proofs/VectorEngine/Float.lean ====
section
/-! The vector floating-point operations (R149), one proof for the eleven with vector operands and one for the nine with an f register. Settles O40. -/

namespace Sys2Proof.Machine

/-- The vector registers that a form with vector operands names, in the order of R143. -/
def vfpFields (k : VFp) (vd vs1 vs2 : Reg) : List Reg := if k = .sqrt ∨ k = .fclass then [vd, vs2] else [vd, vs1, vs2]

theorem vfpRounds_eq (k : VFp) : k.rounds = decide (k ≠ .min ∧ k ≠ .max ∧ k ≠ .fclass) := by cases k <;> rfl

theorem vfpValue_eq (k : VFp) (F : Fmt) (rm : RM) (a b d : Nat) : vfpValue k F rm a b d = vfpExpected k F rm a b d := by cases k <;> rfl

/-- The operand that VFSQRT and VFCLASS do not have makes no difference. -/
theorem vfpValue_oneSource {k : VFp} (hk : k = .sqrt ∨ k = .fclass) (F : Fmt) (rm : RM) (a a' b d : Nat) :
    vfpValue k F rm a b d = vfpValue k F rm a' b d := by
  obtain rfl | rfl := hk <;> rfl

theorem vfmt_eq (s : State) : (etypeFmt s.me.etype).getD .f32 = s.vfmt := by
  unfold etypeFmt State.vfmt
  generalize s.me.etype = e
  split <;> simp

theorem vfmt_f64_iff (s : State) : s.vfmt = .f64 ↔ s.me.etype = 11 := by
  unfold State.vfmt
  generalize s.me.etype = e
  split <;> simp_all

theorem vfpCost_eq (s : State) (k : VFp) :
    vfpCost k s.vfmt = if k = .div ∨ k = .sqrt then (if s.me.etype = 11 then 16 else 8) else 1 := by
  simp only [← vfmt_f64_iff]
  cases k <;> simp [vfpCost]

theorem exec_vfpVv (s : State) (k : VFp) (vd vs1 vs2 : Reg) (mk : BitVec 3) :
    exec (vfpVv k vd vs1 vs2 mk) s = s.done (s.vecFp (vfpVv k vd vs1 vs2 mk) k vd vs2 mk (vfpFields k vd vs1 vs2)
      (if k = .sqrt ∨ k = .fclass then fun _ => 0 else s.ve vs1)) := by
  cases k <;> rfl

theorem exec_vfpVf {k : VFp} {i : Instr} {vd rs1 vs2 : Reg} {mk : BitVec 3} (s : State) (h : vfpVf k vd rs1 vs2 mk = some i) :
    exec i s = s.done (s.vecFp i k vd vs2 mk [vd, vs2] fun _ => s.fScalar rs1) := by
  cases k with
  | sqrt | fclass => cases h
  | _ =>
    obtain rfl := Option.some.inj h
    rfl

theorem vfpVf_ne_sqrt {k : VFp} {i : Instr} {vd rs1 vs2 : Reg} {mk : BitVec 3} (h : vfpVf k vd rs1 vs2 mk = some i) : k ≠ .sqrt := by
  rintro rfl
  cases h

/-- Where its checks pass, an operation writes its results and flags through the frame of R147. -/
theorem vecFp_written {s : State} (i : Instr) (k : VFp) (vd vs2 : Reg) (mk : BitVec 3) {fs : List Reg} (a : Nat → Nat)
    (h : s.VecOk true (k ≠ .min ∧ k ≠ .max ∧ k ≠ .fclass) fs) {r : Nat → Nat × Flags}
    (hr : ∀ j, r j = vfpExpected k s.vfmt (rmOf s.me.frm.toNat) (a j) (s.ve vs2 j) (s.ve vd j)) :
    ∃ (u : State) (fl : BitVec 64), FlagsOf s.me.vl (s.Active mk) (fun j => (r j).2) fl ∧
      ElementsWritten s u vd s.vw s.me.vl (fun j => if s.Active mk j then some (s.asElem (r j).1) else none) fl ∧
      s.vecFp i k vd vs2 mk fs a =
        .ok (u.enqueueE s.vw s.me.vl (if k = .div ∨ k = .sqrt then (if s.me.etype = 11 then 16 else 8) else 1)) := by
  obtain ⟨u, fl, hf, hw, hx⟩ := vecMap_written s vd mk (vfpCost k s.vfmt) r
  refine ⟨u, fl, hf, hw, ?_⟩
  rw [← vfpRounds_eq] at h
  rw [← vfpCost_eq, ← hx, State.vecFp, vecCheck_ok i h]
  simp only [vfmt_eq, vfpValue_eq, ← hr]
  rfl

/-- Settles O40: `vecFp_written` with either first operand, and the two illegal cases. -/
theorem vectorFloatResults : Obligations.VectorFloatResults := by
  unfold Obligations.VectorFloatResults
  refine ⟨fun s k vd vs1 vs2 mk r h hr => ?_, fun s k i vd rs1 vs2 mk r hi h hr => ?_, fun s k vd vs1 vs2 mk h => ?_,
    fun s k vd vs1 vs2 mk h hmin hmax hclass => ?_⟩
  · obtain ⟨u, fl, hf, hw, hx⟩ := vecFp_written (vfpVv k vd vs1 vs2 mk) k vd vs2 mk (if k = .sqrt ∨ k = .fclass then fun _ => 0 else s.ve vs1) h
      (r := r) fun j => by
        rw [hr, ← vfpValue_eq, ← vfpValue_eq]
        split
        · next hk => exact vfpValue_oneSource hk ..
        · rfl
    exact ⟨u, _, fl, hf, hw, by rw [exec_vfpVv, vfpFields, hx, State.done_ok], completed_retire _⟩
  · obtain ⟨u, fl, hf, hw, hx⟩ := vecFp_written i k vd vs2 mk (fun _ => s.fScalar rs1) h hr
    simp only [vfpVf_ne_sqrt hi, or_false] at hx
    exact ⟨u, _, fl, hf, hw, by rw [exec_vfpVf s hi, hx, State.done_ok], completed_retire _⟩
  · rw [exec_vfpVv, State.vecFp, vecCheck_notFloat _ _ _ h]
    exact State.done_illegal ..
  · have hk : k.rounds = true := by
      rw [vfpRounds_eq]
      exact decide_eq_true ⟨hmin, hmax, hclass⟩
    rw [exec_vfpVv, State.vecFp, hk, vecCheck_badRounding _ _ _ h]
    exact State.done_illegal ..

end Sys2Proof.Machine
end

