-- ==== Sys2Proof/Proofs/VectorEngine/Masks.lean ====
section
/-! Vector compares, mask logic, and the counts over a mask (R150). Settles O41. -/

namespace Sys2Proof.Machine

/-! ### Mask writes -/

theorem testBit_sum_two_pow (n : Nat) (on : Nat → Bool) (i : Nat) :
    (((List.range n).filter on).map fun j => 2 ^ j).sum.testBit i = (decide (i < n) && on i) := by
  rw [Bool.eq_iff_iff, ← Nat.mem_bitIndices, Nat.bitIndices_sum_map_two_pow ((List.sortedLT_range n).pairwise.filter _).sortedLT]
  simp

/-- A mask write replaces the bits below n where `on` holds (R150). -/
theorem getLsbD_maskMerge (old : BitVec 1024) (n : Nat) (on bitAt : Nat → Bool) {i : Nat} (h : i < 1024) :
    (maskMerge old n on bitAt).getLsbD i = if decide (i < n) && on i then bitAt i else old.getLsbD i := by
  simp only [maskMerge, List.filter_filter, BitVec.getLsbD_or, BitVec.getLsbD_and, BitVec.getLsbD_not, BitVec.getLsbD_ofNat, testBit_sum_two_pow, h,
    decide_true, Bool.true_and]
  cases decide (i < n) <;> cases on i <;> simp

/-- The mask that an instruction writes over the active elements. -/
def State.maskOut (s : State) (md mk : BitVec 3) (bitAt : Nat → Bool) : BitVec 1024 :=
  maskMerge (s.me.mask md) s.me.vl (fun i => (s.me.mask mk).getLsbD i) bitAt

theorem maskWritten_maskOut (s : State) (md mk : BitVec 3) {bitAt : Nat → Bool} {b : Nat → Prop} (hb : ∀ i, bitAt i = true ↔ b i) :
    MaskWritten s mk (s.me.mask md) (s.maskOut md mk bitAt) b := by
  intro i hi
  have h : (s.maskOut md mk bitAt).getLsbD i = if s.Active mk i then bitAt i else (s.me.mask md).getLsbD i := getLsbD_maskMerge _ _ _ _ hi
  rw [h]
  exact ⟨fun ha => by rw [if_pos ha, hb], fun ha => by rw [ha]; rfl⟩

theorem maskMap_eq (s : State) (md mk : BitVec 3) (bitAt : Nat → Bool) :
    s.maskMap md mk bitAt = (s.setCtx s.cur (s.me.setMask md (s.maskOut md mk bitAt))).enqueueE s.vw s.me.vl 1 := rfl

/-! ### Compares -/

/-- The comparison that an integer compare makes of two elements (R150). -/
theorem vcmpValue_iff (k : VCmp) {w a b : Nat} (hw : 0 < w) (ha : a < 2 ^ w) (hb : b < 2 ^ w) : vcmpValue k w a b = true ↔
    match k with
    | .eq => a = b
    | .ne => a ≠ b
    | .lt => (BitVec.ofNat w a).toInt < (BitVec.ofNat w b).toInt
    | .ltu => a < b
    | .le => (BitVec.ofNat w a).toInt ≤ (BitVec.ofNat w b).toInt
    | .leu => a ≤ b := by
  rw [← signedOf_eq_toInt hw ha, ← signedOf_eq_toInt hw hb]
  cases k <;> simp [vcmpValue]

theorem vecCmp_ok {s : State} (i : Instr) (k : VCmp) (md : BitVec 3) {vs1 vs2 : Reg} (mk : BitVec 3) (h : s.VecOk false false [vs1, vs2]) :
    s.vecCmp i k md vs1 vs2 mk = .ok (s.maskMap md mk fun j => vcmpValue k s.vw (s.ve vs1 j) (s.ve vs2 j)) := by
  rw [State.vecCmp, vecCheck_ok i h]
  rfl

/-- A floating-point compare writes its mask, and adds the flags of the active elements. -/
theorem vecFcmp_written {s : State} (k : FCmp) (md : BitVec 3) {vs1 vs2 : Reg} (mk : BitVec 3) (h : s.VecOk true false [vs1, vs2]) :
    ∃ fl : BitVec 64, FlagsOf s.me.vl (s.Active mk) (fun j => (fCompare s.vfmt k (s.ve vs1 j) (s.ve vs2 j)).2) fl ∧
      ∀ i, s.vecFcmp i k md vs1 vs2 mk = .ok ((s.maskMap md mk fun j => (fCompare s.vfmt k (s.ve vs1 j) (s.ve vs2 j)).1).modCtx s.cur
        fun c => { c with qvstat := c.qvstat ||| fl }) := by
  refine ⟨_, flagsOf_foldl s.me.vl (s.Active mk) fun j => (fCompare s.vfmt k (s.ve vs1 j) (s.ve vs2 j)).2, fun i => ?_⟩
  have hfold : (List.range s.me.vl).foldl (fun (f : Flags) j => if (s.me.mask mk).getLsbD j then
      f ||| (fCompare s.vfmt k (s.ve vs1 j) (s.ve vs2 j)).2 else f) 0 =
      (List.range s.me.vl).foldl (fun f j => f ||| if s.Active mk j then (fCompare s.vfmt k (s.ve vs1 j) (s.ve vs2 j)).2 else 0) 0 := by
    refine List.foldl_ext _ _ _ fun f j hj => ?_
    rw [State.active_of_lt mk (List.mem_range.1 hj)]
    cases (s.me.mask mk).getLsbD j
    · exact BitVec.or_zero.symm
    · rfl
  rw [← hfold, State.vecFcmp, vecCheck_ok i h, vfmt_eq]
  rfl

/-! ### Mask logic and counts -/

theorem maskOp_ok {s : State} (i : Instr) (md mk : BitVec 3) (bitAt : Nat → Bool) (h : s.VecOk false false []) :
    s.maskOp i md mk bitAt = .ok (s.maskMap md mk bitAt) := by
  rw [State.maskOp, vecCheck_ok i h]
  rfl

/-- The elements that a count looks at are the active ones whose bit is set. -/
theorem maskHits_eq (s : State) (m2 mk : BitVec 3) :
    s.maskHits m2 mk = (List.range s.me.vl).filter fun i => s.Active mk i && (s.me.mask m2).getLsbD i := by
  refine List.filter_congr fun i hi => ?_
  rw [State.active_of_lt mk (List.mem_range.1 hi), Bool.and_comm]

theorem maskHits_head_some {s : State} {m2 mk : BitVec 3} {i : Nat} (ha : s.Active mk i = true) (hb : (s.me.mask m2).getLsbD i = true)
    (hl : ∀ j, j < i → s.Active mk j = true → (s.me.mask m2).getLsbD j = false) : (s.maskHits m2 mk).head? = some i := by
  rw [maskHits_eq, List.head?_filter, List.find?_range_eq_some]
  refine ⟨by rw [ha, hb]; rfl, List.mem_range.2 (State.lt_of_active ha), fun j hj => ?_⟩
  cases hj' : s.Active mk j
  · rfl
  · rw [hl j hj hj']
    rfl

theorem maskHits_head_none {s : State} {m2 mk : BitVec 3} (h : ∀ j, s.Active mk j = true → (s.me.mask m2).getLsbD j = false) :
    (s.maskHits m2 mk).head? = none := by
  rw [maskHits_eq, List.head?_filter, List.find?_eq_none]
  intro j _
  cases hj : s.Active mk j
  · exact Bool.false_ne_true
  · rw [h j hj]
    exact Bool.false_ne_true

theorem exec_vpopc {s : State} (rd : Reg) (m2 mk : BitVec 3) (h : s.VecOk false false []) : exec (.vpopc rd m2 mk) s =
    .next ((s.engineReply (.vpopc rd m2 mk)).setXr rd
      (BitVec.ofNat 64 ((List.range s.me.vl).countP fun i => s.Active mk i && (s.me.mask m2).getLsbD i))).retire := by
  show execVpopc rd m2 mk s = _
  rw [execVpopc, vecCheck_ok _ h, List.countP_eq_length_filter, ← maskHits_eq]
  rfl

theorem exec_vfirst {s : State} (rd : Reg) (m2 mk : BitVec 3) (h : s.VecOk false false []) : exec (.vfirst rd m2 mk) s =
    .next ((s.engineReply (.vfirst rd m2 mk)).setXr rd ((s.maskHits m2 mk).head?.elim (BitVec.allOnes 64) (BitVec.ofNat 64))).retire := by
  show execVfirst rd m2 mk s = _
  rw [execVfirst, vecCheck_ok _ h]
  cases hh : (s.maskHits m2 mk).head? <;> rfl

/-- Settles O41: the compares and the mask operations by the bit that each writes, the counts by the elements that they look at. -/
theorem vectorMasks : Obligations.VectorMasks := by
  unfold Obligations.VectorMasks
  refine ⟨fun s k md mk vs1 vs2 h => ?_, fun s k md mk vs1 vs2 h => ?_, fun s md m1 m2 mk h i hi => ?_, fun s u rd m2 mk h hu => ?_⟩
  · refine ⟨_, _, maskWritten_maskOut s md mk fun i => vcmpValue_iff k s.vw_pos (s.ve_lt vs1 i) (s.ve_lt vs2 i), ?_, completed_retire _⟩
    cases k <;> exact congrArg s.done (vecCmp_ok _ _ md mk h)
  · obtain ⟨fl, hf, hx⟩ := vecFcmp_written k md mk h
    refine ⟨_, fl, _, maskWritten_maskOut s md mk fun i => Iff.rfl, hf, ?_, completed_retire _⟩
    cases k <;> exact congrArg s.done (hx _)
  · obtain rfl | rfl | rfl | rfl := hi <;>
      exact ⟨_, _, maskWritten_maskOut s md mk fun j => by simp, congrArg s.done (maskOp_ok _ md mk _ h), completed_retire _⟩
  · subst hu
    refine ⟨⟨_, exec_vpopc rd m2 mk h, completed_retire _⟩, fun i ha hb hl => ⟨_, ?_, completed_retire _⟩, fun hn => ⟨_, ?_, completed_retire _⟩⟩
    · rw [exec_vfirst rd m2 mk h, maskHits_head_some ha hb hl]
      rfl
    · rw [exec_vfirst rd m2 mk h, maskHits_head_none hn]
      rfl

end Sys2Proof.Machine
end

