-- ==== Sys2Proof/Proofs/VectorEngine/Permutes.lean ====
section
/-! Permutes, slides, broadcast, carry-less products and VCOMPRESS (R151). Settles O42. -/

namespace Sys2Proof.Machine

section
variable {s : State} {i : Instr} {fs : List Reg} {vd : Reg} {mk : BitVec 3} (h : s.VecOk false false fs)
include h

/-- A cross-lane instruction that writes those active elements for which a result is given, where its checks pass. -/
theorem exec_permMap {f val : Nat → Option Nat} (hx : exec i s = s.done (s.vecCheck i false false fs >>= fun _ => .ok (s.permMap vd mk f)))
    (hv : ∀ j, j < s.me.vl → s.vw * (j + 1) ≤ 8192 → (if s.Active mk j then (f j).map s.asElem else none) = val j) :
    ∃ u t : State, ElementsWritten s u vd s.vw s.me.vl val 0 ∧ exec i s = .next t ∧ Completed (u.enqueueX s.me.vl 2) t := by
  have hw := elementsWritten_noFlags s vd s.me.vl fun j => if (s.me.mask mk).getLsbD j then f j else none
  have he : (fun j => (if (s.me.mask mk).getLsbD j then f j else none).map (·, (0 : Flags))) =
      fun j => if (s.me.mask mk).getLsbD j then (f j).map (·, 0) else none := by
    funext j
    cases (s.me.mask mk).getLsbD j <;> rfl
  rw [he] at hw
  refine ⟨_, _, hw.congr fun j hj hfit => ?_, hx.trans ?_, completed_retire _⟩
  · rw [← hv j hj hfit, State.active_of_lt mk hj]
    cases (s.me.mask mk).getLsbD j <;> rfl
  · rw [vecCheck_ok i h]
    rfl

/-- An element-wise instruction without flags, where its checks pass. -/
theorem exec_vecMap {cost : Nat} {r val : Nat → Nat}
    (hx : exec i s = s.done (s.vecCheck i false false fs >>= fun _ => .ok (s.vecMap vd mk cost fun j => (r j, 0))))
    (hv : ∀ j, s.asElem (r j) = val j) :
    ∃ u t : State, ElementsWritten s u vd s.vw s.me.vl (fun j => if s.Active mk j then some (val j) else none) 0 ∧ exec i s = .next t ∧
      Completed (u.enqueueE s.vw s.me.vl cost) t := by
  obtain ⟨u, hw, hm⟩ := vecMap_written_noFlags s vd mk cost r
  refine ⟨u, _, hw.congr fun j _ _ => ?_, hx.trans ?_, completed_retire _⟩
  · rw [hv]
  · rw [vecCheck_ok i h, ← hm]
    rfl

end

/-! ### The carry-less product -/

/-- A number of bits of which those with p + q = n are set in both operands is odd: bit n of the product. -/
theorem testBit_clmul_fold (a b n k : Nat) :
    ((List.range k).foldl (fun acc i => if a >>> i % 2 = 1 then acc ^^^ (b <<< i) else acc) 0).testBit n =
      ((List.range k).countP (fun q => a.testBit q && decide (q ≤ n) && b.testBit (n - q)) % 2 == 1) := by
  induction k with
  | zero => simp
  | succ k ih =>
    rw [List.range_succ, List.foldl_append, List.countP_append]
    have hbit : a >>> k % 2 = 1 ↔ a.testBit k = true := by
      rw [Nat.testBit_eq_decide_div_mod_eq, Nat.shiftRight_eq_div_pow, decide_eq_true_iff]
    simp only [List.foldl_cons, List.foldl_nil, List.countP_singleton, hbit, apply_ite (Nat.testBit · n), Nat.testBit_xor, ih, Nat.testBit_shiftLeft]
    generalize (List.range k).countP _ = c
    have hodd : ((c + 1) % 2 == 1) = !(c % 2 == 1) := by
      rw [Bool.eq_iff_iff]
      simp
      omega
    cases a.testBit k <;> cases decide (k ≤ n) <;> cases b.testBit (n - k) <;> simp [hodd]

/-- Counting below two bounds is counting below the smaller one. -/
theorem countP_range_and (p : Nat → Bool) (m k : Nat) :
    (List.range m).countP (fun q => decide (q < k) && p q) = (List.range (min m k)).countP p := by
  induction m with
  | zero => simp
  | succ m ih =>
    rw [List.range_succ, List.countP_append, ih, List.countP_singleton]
    by_cases h : m < k
    · rw [Nat.min_eq_left (by omega), Nat.min_eq_left (by omega), List.range_succ, List.countP_append, List.countP_singleton]
      simp [h]
    · rw [Nat.min_eq_right (by omega), Nat.min_eq_right (by omega)]
      simp [h]

/-- Bit n of the carry-less product (R151): the parity of the pairs of bits whose places add to n. -/
theorem testBit_clmulNat {w a b : Nat} (hb : b < 2 ^ w) (n : Nat) : (clmulNat w a b).testBit n =
    ((List.range (n + 1)).countP (fun q => decide (q < w) && a.testBit q && decide (n - q < w) && b.testBit (n - q)) % 2 == 1) := by
  have hin : ∀ q, (decide (n - q < w) && b.testBit (n - q)) = b.testBit (n - q) := by
    intro q
    by_cases h : n - q < w
    · simp [h]
    · simp [Nat.testBit_lt_two_pow (lt_of_lt_of_le hb (Nat.pow_le_pow_right (by decide) (Nat.not_lt.1 h)))]
  have hleft : ∀ q, (a.testBit q && decide (q ≤ n) && b.testBit (n - q)) = (decide (q < n + 1) && (a.testBit q && b.testBit (n - q))) := by
    intro q
    simp only [Nat.lt_succ_iff]
    cases a.testBit q <;> simp
  simp only [clmulNat, testBit_clmul_fold, hleft, Bool.and_assoc, hin, countP_range_and, Nat.min_comm w]

/-! ### VCOMPRESS -/

/-- Among the numbers below n that satisfy `p`, in their order, `j` stands behind those that are smaller. -/
theorem getElem?_filter_range {p : Nat → Bool} {n j : Nat} (hj : j < n) (hp : p j = true) :
    ((List.range n).filter p)[(List.range j).countP p]? = some j := by
  obtain ⟨d, rfl⟩ := Nat.exists_eq_add_of_lt hj
  rw [Nat.add_assoc, List.range_add, List.filter_append, List.countP_eq_length_filter, List.getElem?_append_right (Nat.le_refl _), Nat.sub_self,
    Nat.add_comm d 1, List.range_add]
  simp [hp]

/-- The elements that VCOMPRESS gives: the selected ones of vs2, then those of vs1. -/
def State.compressed (s : State) (vs1 vs2 : Reg) (mk : BitVec 3) (i : Nat) : Nat :=
  ((((List.range s.me.vl).filter (s.Active mk)).map (s.ve vs2))[i]?).getD (s.ve vs1 i)

theorem compressed_selected {s : State} (vs1 vs2 : Reg) {mk : BitVec 3} {j : Nat} (h : s.Active mk j = true) :
    s.compressed vs1 vs2 mk ((List.range j).countP (s.Active mk)) = s.ve vs2 j := by
  rw [State.compressed, List.getElem?_map, getElem?_filter_range (State.lt_of_active h) h]
  rfl

theorem compressed_beyond {s : State} (vs1 vs2 : Reg) {mk : BitVec 3} {i : Nat} (h : (List.range s.me.vl).countP (s.Active mk) ≤ i) :
    s.compressed vs1 vs2 mk i = s.ve vs1 i := by
  rw [State.compressed, List.getElem?_eq_none]
  · rfl
  · rwa [List.length_map, ← List.countP_eq_length_filter]

theorem asElem_compressed (s : State) (vs1 vs2 : Reg) (mk : BitVec 3) (i : Nat) :
    s.asElem (s.compressed vs1 vs2 mk i) = s.compressed vs1 vs2 mk i := by
  unfold State.compressed
  rw [List.getElem?_map]
  cases ((List.range s.me.vl).filter (s.Active mk))[i]? <;> exact s.asElem_ve ..

theorem filter_active (s : State) (mk : BitVec 3) :
    ((List.range s.me.vl).filter fun j => (s.me.mask mk).getLsbD j) = (List.range s.me.vl).filter (s.Active mk) :=
  List.filter_congr fun _ hi => (State.active_of_lt mk (List.mem_range.1 hi)).symm

/-- VCOMPRESS writes every element below VL (R151). -/
theorem exec_vcompress {s : State} (vd vs1 vs2 : Reg) (mk : BitVec 3) (h : s.VecOk false false [vd, vs1, vs2]) :
    ∃ u t : State, ElementsWritten s u vd s.vw s.me.vl (fun i => some (s.compressed vs1 vs2 mk i)) 0 ∧ exec (.vcompress vd vs1 vs2 mk) s = .next t ∧
      Completed (u.enqueueX s.me.vl 2) t := by
  refine exec_permMap h (mk := 0) (f := fun i => some (s.compressed vs1 vs2 mk i)) ?_ fun i hi hw => ?_
  · have hm : (fun i => some (match (((List.range s.me.vl).filter fun j => (s.me.mask mk).getLsbD j).map (s.ve vs2))[i]? with
        | some v => v
        | none => s.ve vs1 i)) = fun i => some (s.compressed vs1 vs2 mk i) := by
      funext i
      rw [filter_active, State.compressed]
      cases (((List.range s.me.vl).filter (s.Active mk)).map (s.ve vs2))[i]? <;> rfl
    rw [← hm]
    rfl
  · rw [State.active_zero (elem_lt_1024 hw), decide_eq_true hi, if_pos rfl, Option.map_some, asElem_compressed]

/-! ### VPERM, the slides, VBCAST and VID -/

section
variable {s : State} {vd vs1 vs2 : Reg} (rs1 : Reg) (mk : BitVec 3)

theorem exec_vperm (h : s.VecOk false false [vd, vs1, vs2]) :
    ∃ u t : State, ElementsWritten s u vd s.vw s.me.vl (fun i => if s.Active mk i then
        some (if s.ve vs1 i < 8192 / s.vw then s.ve vs2 (s.ve vs1 i) else 0) else none) 0 ∧
      exec (.vperm vd vs1 vs2 mk) s = .next t ∧ Completed (u.enqueueX s.me.vl 2) t := by
  refine exec_permMap h rfl fun i _ _ => ?_
  rw [Option.map_some, apply_ite s.asElem, State.asElem_ve, State.asElem_zero]
  rfl

theorem exec_vslideup (h : s.VecOk false false [vd, vs2]) :
    ∃ u t : State, ElementsWritten s u vd s.vw s.me.vl (fun i => if s.Active mk i = true ∧ (s.xr rs1).toNat ≤ i then
        some (s.ve vs2 (i - (s.xr rs1).toNat)) else none) 0 ∧
      exec (.vslideup vd rs1 vs2 mk) s = .next t ∧ Completed (u.enqueueX s.me.vl 2) t := by
  refine exec_permMap h rfl fun i _ _ => ?_
  rw [apply_ite (Option.map s.asElem), Option.map_some, State.asElem_ve, Option.map_none, ite_and]

theorem exec_vslidedn (h : s.VecOk false false [vd, vs2]) :
    ∃ u t : State, ElementsWritten s u vd s.vw s.me.vl (fun i => if s.Active mk i then
        some (if i + (s.xr rs1).toNat < 8192 / s.vw then s.ve vs2 (i + (s.xr rs1).toNat) else 0) else none) 0 ∧
      exec (.vslidedn vd rs1 vs2 mk) s = .next t ∧ Completed (u.enqueueX s.me.vl 2) t := by
  refine exec_permMap h rfl fun i _ _ => ?_
  rw [Option.map_some, apply_ite s.asElem, State.asElem_ve, State.asElem_zero]
  rfl

theorem exec_vbcast (h : s.VecOk false false [vd]) :
    ∃ u t : State, ElementsWritten s u vd s.vw s.me.vl (fun i => if s.Active mk i then some (s.asElem (s.xr rs1).toNat) else none) 0 ∧
      exec (.vbcast vd rs1 mk) s = .next t ∧ Completed (u.enqueueE s.vw s.me.vl 1) t :=
  exec_vecMap h rfl fun _ => s.asElem_mod _

theorem exec_vid (h : s.VecOk false false [vd]) :
    ∃ u t : State, ElementsWritten s u vd s.vw s.me.vl (fun i => if s.Active mk i then some (s.asElem i) else none) 0 ∧
      exec (.vid vd mk) s = .next t ∧ Completed (u.enqueueE s.vw s.me.vl 1) t :=
  exec_vecMap h rfl fun _ => rfl

end

/-- Settles O42: each permute by the result that it gives an element. -/
theorem vectorPermutes : Obligations.VectorPermutes := by
  unfold Obligations.VectorPermutes
  refine ⟨fun s vd vs1 vs2 rs1 mk h hwin => ?_, fun s vd vs1 vs2 mk p h hp => ⟨?_, ?_⟩, fun s vd vs1 vs2 mk n h hn => ?_⟩
  · have h3 : s.VecOk false false [vd, vs1, vs2] := h.fields hwin
    have h1 : s.VecOk false false [vd] := h.fields (windowFault_head h.window)
    exact ⟨exec_vperm mk h3, exec_vslideup rs1 mk h, exec_vslidedn rs1 mk h, exec_vbcast rs1 mk h1, exec_vid mk h1⟩
  · obtain ⟨u, t, hu, ht⟩ := exec_vecMap h (i := .vclmul vd vs1 vs2 mk) rfl fun _ => rfl
    exact ⟨u, t, _, fun i n _ => by rw [hp, ← testBit_clmulNat (s.ve_lt vs2 i)]; rfl, hu, ht⟩
  · obtain ⟨u, t, hu, ht⟩ := exec_vecMap h (i := .vclmulh vd vs1 vs2 mk) rfl fun _ => rfl
    refine ⟨u, t, _, fun i n _ => ?_, hu, ht⟩
    rw [hp, ← testBit_clmulNat (s.ve_lt vs2 i)]
    exact Nat.testBit_shiftRight ..
  · subst hn
    obtain ⟨u, t, hu, ht⟩ := exec_vcompress vd vs1 vs2 mk h
    exact ⟨u, t, _, hu, fun j hj => compressed_selected vs1 vs2 hj, fun i hi _ => compressed_beyond vs1 vs2 hi, ht⟩

end Sys2Proof.Machine
end

