-- ==== Sys2Proof/Proofs/VectorEngine/Reductions.lean ====
section
/-! Reductions (R152): the integer ones as a sum or as an extremum of their operands, the floating-point ones in order (R80) or by the tree of R91.
Settles O44. -/

namespace Sys2Proof.Machine

/-! ### Folds that pick one of their operands -/

/-- A fold that goes over to the next operand where its key is larger ends with one of them, and with the largest key. -/
theorem foldl_pick {β : Type} [LinearOrder β] (key : Nat → β) {step : Nat → Nat → Nat} (hs : ∀ a b, step a b = if key a < key b then b else a)
    (xs : List Nat) (a : Nat) : xs.foldl step a ∈ a :: xs ∧ ∀ x, x ∈ a :: xs → key x ≤ key (xs.foldl step a) := by
  induction xs generalizing a with
  | nil => simp
  | cons b xs ih =>
    obtain ⟨hmem, hle⟩ := ih (step a b)
    have hstep : step a b = a ∨ step a b = b := by
      rw [hs]
      split
      · exact .inr rfl
      · exact .inl rfl
    have ha : key a ≤ key (step a b) ∧ key b ≤ key (step a b) := by
      rw [hs]
      split
      · next h => exact ⟨h.le, le_rfl⟩
      · next h => exact ⟨le_rfl, not_lt.1 h⟩
    have htop := hle _ List.mem_cons_self
    refine ⟨?_, fun x hx => ?_⟩
    · obtain h | h := List.mem_cons.1 hmem
      · rw [List.foldl_cons, h]
        obtain e | e := hstep <;> simp [e]
      · exact List.mem_cons_of_mem _ (List.mem_cons_of_mem _ h)
    · obtain rfl | hx := List.mem_cons.1 hx
      · exact ha.1.trans htop
      · obtain rfl | hx := List.mem_cons.1 hx
        · exact ha.2.trans htop
        · exact hle x (List.mem_cons_of_mem _ hx)

theorem foldl_sum_mod (m : Nat) (xs : List Nat) {a : Nat} (h : a < m) : xs.foldl (fun a b => (a + b) % m) a = (a :: xs).sum % m := by
  induction xs generalizing a with
  | nil => simp [Nat.mod_eq_of_lt h]
  | cons b xs ih =>
    rw [List.foldl_cons, ih (Nat.mod_lt _ (by omega)), List.sum_cons, List.sum_cons, List.sum_cons, Nat.mod_add_mod, Nat.add_assoc]

/-! ### Writing the result -/

theorem activeElems_eq (s : State) (vs2 : Reg) (mk : BitVec 3) :
    s.activeElems vs2 mk = ((List.range s.me.vl).filter (s.Active mk)).map (s.ve vs2) := by
  rw [← filter_active]
  rfl

/-- A reduction writes element 0 and its flags, and nothing with VL = 0 (R152). -/
theorem reduce_written (s : State) (vd : Reg) (cost : Nat) (r : Nat × Flags) :
    ∃ u : State, (s.me.vl ≠ 0 → ElementsWritten s u vd s.vw 1 (fun _ => some (s.asElem r.1)) (r.2.setWidth 64)) ∧ (s.me.vl = 0 → u = s) ∧
      s.reduce vd cost r = u.enqueueX s.me.vl cost := by
  refine ⟨_, fun h => ?_, fun h => if_pos h, rfl⟩
  rw [if_neg h]
  have hw := elementsWritten_range s vd 1 fun _ => some r
  have hf : elemFlags [some r] = r.2 := BitVec.zero_or
  rwa [show (List.range 1).map (fun _ => some r) = [some r] from rfl, hf] at hw

/-! ### The integer reductions -/

/-- The exact result of an integer reduction of the operands `xs`, which has element 0 of vs1 first. -/
def VRed.Reduces (k : VRed) (w : Nat) (xs : List Nat) (r : Nat) : Prop := match k with
  | .sum => r = xs.sum % 2 ^ w
  | .max => r ∈ xs ∧ ∀ x, x ∈ xs → (BitVec.ofNat w x).toInt ≤ (BitVec.ofNat w r).toInt
  | .min => r ∈ xs ∧ ∀ x, x ∈ xs → (BitVec.ofNat w r).toInt ≤ (BitVec.ofNat w x).toInt
  | .maxu => r ∈ xs ∧ ∀ x, x ∈ xs → x ≤ r
  | .minu => r ∈ xs ∧ ∀ x, x ∈ xs → r ≤ x

theorem foldl_vredStep {w a : Nat} {xs : List Nat} (k : VRed) (hw : 0 < w) (h : ∀ x, x ∈ a :: xs → x < 2 ^ w) :
    k.Reduces w (a :: xs) (xs.foldl (vredStep k w) a) := by
  have hs : ∀ x, x ∈ a :: xs → signedOf w x = (BitVec.ofNat w x).toInt := fun x hx => signedOf_eq_toInt hw (h x hx)
  cases k with
  | sum => exact foldl_sum_mod _ xs (h a List.mem_cons_self)
  | max =>
    obtain ⟨hm, hle⟩ := foldl_pick (signedOf w) (step := vredStep .max w) (fun _ _ => rfl) xs a
    exact ⟨hm, fun x hx => by rw [← hs x hx, ← hs _ hm]; exact hle x hx⟩
  | min =>
    obtain ⟨hm, hle⟩ := foldl_pick (fun x => - signedOf w x) (step := vredStep .min w) (fun _ _ => by simp only [neg_lt_neg_iff]; rfl) xs a
    exact ⟨hm, fun x hx => by rw [← hs x hx, ← hs _ hm]; exact neg_le_neg_iff.1 (hle x hx)⟩
  | maxu => exact foldl_pick id (step := vredStep .maxu w) (fun _ _ => max_def_lt ..) xs a
  | minu =>
    have hmin : ∀ x y, vredStep .minu w x y = if OrderDual.toDual x < OrderDual.toDual y then y else x := fun x y => by
      simp only [OrderDual.toDual_lt_toDual]
      exact (min_comm x y).trans (min_def_lt ..)
    obtain ⟨hm, hle⟩ := foldl_pick OrderDual.toDual hmin xs a
    exact ⟨hm, fun x hx => OrderDual.toDual_le_toDual.1 (hle x hx)⟩

theorem vecRed_written {s : State} (k : VRed) {vd vs1 vs2 : Reg} (mk : BitVec 3) (h : s.VecOk false false [vd, vs1, vs2]) :
    ∃ (u : State) (r : Nat), (s.me.vl ≠ 0 → ElementsWritten s u vd s.vw 1 (fun _ => some (s.asElem r)) 0) ∧ (s.me.vl = 0 → u = s) ∧
      k.Reduces s.vw (s.ve vs1 0 :: ((List.range s.me.vl).filter (s.Active mk)).map (s.ve vs2)) r ∧
      ∀ i, s.done (s.vecRed i k vd vs1 vs2 mk) = .next (u.enqueueX s.me.vl 4).retire := by
  obtain ⟨u, hw, h0, hx⟩ := reduce_written s vd 4 ((s.activeElems vs2 mk).foldl (vredStep k s.vw) (s.ve vs1 0), 0)
  refine ⟨u, _, hw, h0, ?_, fun i => ?_⟩
  · rw [activeElems_eq]
    refine foldl_vredStep k s.vw_pos fun x hx => ?_
    obtain rfl | hx := List.mem_cons.1 hx
    · exact s.ve_lt ..
    · obtain ⟨i, -, rfl⟩ := List.mem_map.1 hx
      exact s.ve_lt ..
  · rw [State.vecRed, vecCheck_ok i h, ← hx]
    rfl

/-! ### The floating-point reductions -/

section
variable {s : State} {vd vs1 vs2 : Reg} {mk : BitVec 3} (h : s.VecOk true false [vd, vs1, vs2])
include h

/-- VFREDMAX and VFREDMIN go over the active elements in order, by the scalar rule of R80. -/
theorem vecFredMinMax_ok (i : Instr) (mx : Bool) : s.vecFredMinMax i mx vd vs1 vs2 mk = .ok (s.reduce vd 8
    ((((List.range s.me.vl).filter (s.Active mk)).map (s.ve vs2)).foldl
      (fun p b => ((fMinMax s.vfmt mx p.1 b).1, p.2 ||| (fMinMax s.vfmt mx p.1 b).2)) (s.ve vs1 0, 0))) := by
  rw [State.vecFredMinMax, vecCheck_ok i h, vfmt_eq, activeElems_eq]
  rfl

/-- VFREDSUM adds the tree of R91 to element 0 of vs1, or gives that element where no element is active. -/
theorem exec_vfredsum : exec (.vfredsum vd vs1 vs2 mk) s = s.done (.ok (s.reduce vd 8
    (if ((List.range s.me.vl).filter (s.Active mk)).map (s.ve vs2) = [] then (s.ve vs1 0, 0) else
      ((fAdd s.vfmt .rne (s.ve vs1 0) (sumTree s.vfmt 11 (s.treeLeaves s.vfmt vs2 mk)).1).1,
        (sumTree s.vfmt 11 (s.treeLeaves s.vfmt vs2 mk)).2 ||| (fAdd s.vfmt .rne (s.ve vs1 0) (sumTree s.vfmt 11 (s.treeLeaves s.vfmt vs2 mk)).1).2)))) := by
  show execVfredsum vd vs1 vs2 mk s = _
  rw [execVfredsum, vecCheck_ok _ h, vfmt_eq, activeElems_eq]
  split <;> rfl
end

/-- Settles O44: each reduction writes its result by `reduce_written`. -/
theorem vectorReductions : Obligations.VectorReductions := by
  unfold Obligations.VectorReductions
  refine ⟨fun s k vd vs1 vs2 mk xs h hxs => ?_, fun s i vd vs1 vs2 mk xs r h hxs hi => ?_⟩
  · subst hxs
    obtain ⟨u, r, hw, h0, hr, hx⟩ := vecRed_written k mk h
    refine ⟨u, _, r, hw, h0, ?_, ?_, completed_retire _⟩
    · cases k <;> exact hr
    · cases k <;> exact hx _
  · subst hxs
    obtain ⟨u, hw, h0, hx⟩ := reduce_written s vd 8 r
    refine ⟨u, _, hw, h0, ?_, completed_retire _⟩
    rw [← hx]
    obtain ⟨rfl, rfl⟩ | ⟨rfl, rfl⟩ | ⟨rfl, hnone, hsome⟩ := hi
    · exact congrArg s.done (vecFredMinMax_ok h _ true)
    · exact congrArg s.done (vecFredMinMax_ok h _ false)
    · rw [exec_vfredsum h]
      split
      · next he => rw [hnone he, State.done_ok]
      · next hne =>
        obtain ⟨y, rfl, rfl⟩ := hsome hne
        exact State.done_ok ..

end Sys2Proof.Machine
end

