-- ==== Sys2Proof/Proofs/VectorEngine/Moves.lean ====
section
/-! VSETL, the moves between window registers, VEXTRACT and VINSERT (R145, R167 to R169). Settles O46. -/

namespace Sys2Proof.Machine

/-! ### VSETL, VRDX and VWRX -/

theorem need_true {b : Bool} (cause : Nat) (v : Word) (h : b = true) : need b cause v = .ok () := by rw [h]; rfl
theorem need_false {b : Bool} (cause : Nat) (v : Word) (h : b = false) : need b cause v = trap cause v := by rw [h]; rfl

section
variable {s : State} (rd a e : Reg)

theorem exec_vsetl_noWindow (h : s.me.winSize = 0) : exec (.vsetl rd a e) s = .next (s.raise 30 0) := by
  show execVsetl rd a e s = _
  rw [execVsetl, need_false _ _ (by simp [h])]
  exact State.done_trap ..

theorem exec_vsetl_full (h : s.me.winSize ≠ 0) (hq : s.vecFull = true) (hr : s.me.request = none) : exec (.vsetl rd a e) s = .next s := by
  show execVsetl rd a e s = _
  rw [execVsetl, need_true _ _ (by simp [h]), checkRoom_full hq hr]
  exact State.done_left ..

theorem exec_vsetl {v : State} (h : s.me.winSize ≠ 0) (hq : s.vecFull = false) (hv : s.engineReply (.vsetl rd a e) = v) :
    exec (.vsetl rd a e) s = .next (v.modCtx v.cur fun c =>
      { c with qvtype := word (e.toNat + (if a = 0 then 8192 / etypeWidth e.toNat else min (s.xr a).toNat (8192 / etypeWidth e.toNat)) * 2 ^ 16) }.setX rd
        (word (if a = 0 then 8192 / etypeWidth e.toNat else min (s.xr a).toNat (8192 / etypeWidth e.toNat)))).retire := by
  subst hv
  show execVsetl rd a e s = _
  rw [execVsetl, need_true _ _ (by simp [h]), checkRoom_ok hq]
  rfl
end

section
variable {s : State} {vd a : Reg} (hw : s.me.windowFault [vd] = none) (hq : s.vecFull = false)
include hw hq

theorem checkIndex_ok (h : (s.xr a).toNat < s.me.winSize) : s.checkIndex vd (s.xr a) = .ok () := by
  rw [State.checkIndex, checkWindow_ok hw hq]
  exact if_neg (Nat.not_le.2 h)

theorem checkIndex_outside (h : s.me.winSize ≤ (s.xr a).toNat) : s.checkIndex vd (s.xr a) = trap 30 (s.xr a) := by
  rw [State.checkIndex, checkWindow_ok hw hq]
  exact if_pos h

theorem exec_vrdx (h : (s.xr a).toNat < s.me.winSize) :
    exec (.vrdx vd a) s = .next ((s.setVr vd (s.winReg (s.xr a).toNat)).enqueueV 255 1 false none).retire := by
  show execVrdx vd a s = _
  rw [execVrdx, checkIndex_ok hw hq h]
  rfl

theorem exec_vwrx (h : (s.xr a).toNat < s.me.winSize) :
    exec (.vwrx vd a) s = .next ((s.setWinReg (s.xr a).toNat (s.vr vd)).enqueueV 255 1 false none).retire := by
  show execVwrx vd a s = _
  rw [execVwrx, checkIndex_ok hw hq h]
  rfl

theorem exec_vrdx_vwrx_outside (h : s.me.winSize ≤ (s.xr a).toNat) :
    exec (.vrdx vd a) s = .next (s.raise 30 (s.xr a)) ∧ exec (.vwrx vd a) s = .next (s.raise 30 (s.xr a)) := by
  constructor
  · show execVrdx vd a s = _
    rw [execVrdx, checkIndex_outside hw hq h]
    exact State.done_trap ..
  · show execVwrx vd a s = _
    rw [execVwrx, checkIndex_outside hw hq h]
    exact State.done_trap ..
end

/-! ### VMOVI -/

/-- Elements of any width written to a v register. -/
theorem elementsWritten_setVr (s : State) (vd : Reg) (w n : Nat) (f : Nat → Option Nat) :
    ElementsWritten s (s.setVr vd (vmerge (s.vr vd) w ((List.range n).map f))) vd w n (fun i => (f i).map (· % 2 ^ w)) 0 := by
  have hn : ((List.range n).map f).length = n := by rw [List.length_map, List.length_range]
  refine ⟨rfl, fun _ _ => rfl, ?_, fun g => ?_, fun i hi hw => ?_, fun j hj => ?_, fun g j hne => ?_⟩
  · have h0 : s.me.qvstat ||| (0 : BitVec 64) = s.me.qvstat := BitVec.or_zero
    exact congrArg (fun q => { s.me with qvstat := q }) h0.symm
  · rw [State.setVr, State.setVreg]
    by_cases hg : g = clusterOf s.cur
    · rw [hg, State.cluster_modCluster_self]
    · rw [State.cluster_modCluster_ne _ _ _ _ hg]
  · rw [State.vr_setVr, velem_vmerge _ _ _ _ (by rwa [hn]) hw, List.getElem_map, List.getElem_range]
    dsimp only
    cases f i
    · exact Nat.mod_eq_of_lt (velem_lt ..)
    · rfl
  · rw [State.vr_setVr, vmerge_above _ _ _ _ (by rwa [hn])]
  · rw [State.setVr, State.vregAt_setVreg, if_neg]
    rintro ⟨rfl, rfl⟩
    exact hne rfl

/-- What VMOVI reads for a lane (R167). -/
def State.laneRead (s : State) (ix : VReg) (l : Nat) : Nat := if laneOf ix l < s.me.winSize then laneOf (s.winReg (laneOf ix l)) l else 0

theorem laneRead_lt (s : State) (ix : VReg) (l : Nat) : s.laneRead ix l < 2 ^ 64 := by
  unfold State.laneRead
  split
  · exact velem_lt ..
  · positivity

theorem exec_vmovi {s : State} {vd vs2 : Reg} (h : s.VecOk false false [vd, vs2]) :
    ∃ u t : State, ElementsWritten s u vd 64 s.lanes (fun l => some (s.laneRead (s.vr vs2) l)) 0 ∧
      exec (.vmovi vd vs2) s = .next t ∧ Completed (u.enqueueE 64 s.lanes 2) t := by
  have hw := elementsWritten_setVr s vd 64 s.lanes fun l => some (s.laneRead (s.vr vs2) l)
  refine ⟨_, _, hw.congr fun l _ _ => ?_, ?_, completed_retire _⟩
  · rw [Option.map_some, Nat.mod_eq_of_lt (laneRead_lt ..)]
  · show execVmovi vd vs2 s = _
    rw [execVmovi, vecCheck_ok _ h]
    rfl

/-! ### VMOVIW -/

/-- Lane `l` replaced, every other bit as it was. -/
theorem testBit_replaceLane (n l x p : Nat) (hx : x < 2 ^ 64) :
    (n - n >>> (64 * l) % 2 ^ 64 * 2 ^ (64 * l) + x * 2 ^ (64 * l)).testBit p =
      if 64 * l ≤ p ∧ p < 64 * l + 64 then x.testBit (p - 64 * l) else n.testBit p := by
  have hlo : n % 2 ^ (64 * l) < 2 ^ (64 * l) := Nat.mod_lt _ (by positivity)
  have hn : n = 2 ^ (64 * l) * (n / 2 ^ (64 * l)) + n % 2 ^ (64 * l) := (Nat.div_add_mod ..).symm
  have hq := Nat.div_add_mod (n / 2 ^ (64 * l)) (2 ^ 64)
  rw [Nat.shiftRight_eq_div_pow]
  have hnew : n - n / 2 ^ (64 * l) % 2 ^ 64 * 2 ^ (64 * l) + x * 2 ^ (64 * l) =
      2 ^ (64 * l) * (2 ^ 64 * (n / 2 ^ (64 * l) / 2 ^ 64) + x) + n % 2 ^ (64 * l) := by
    have : n / 2 ^ (64 * l) % 2 ^ 64 * 2 ^ (64 * l) + 2 ^ (64 * l) * (2 ^ 64 * (n / 2 ^ (64 * l) / 2 ^ 64)) + n % 2 ^ (64 * l) = n := by
      conv_rhs => rw [hn, ← hq]
      ring
    rw [Nat.mul_add, Nat.mul_comm x]
    omega
  rw [hnew, Nat.testBit_two_pow_mul_add _ hlo]
  by_cases hp : p < 64 * l
  · rw [if_pos hp, if_neg (by omega), Nat.testBit_mod_two_pow]
    simp [hp]
  · rw [if_neg hp, Nat.testBit_two_pow_mul_add _ hx]
    by_cases hp' : p - 64 * l < 64
    · rw [if_pos hp', if_pos (by omega)]
    · rw [if_neg hp', if_neg (by omega), Nat.testBit_div_two_pow, Nat.testBit_div_two_pow]
      congr 1
      omega

theorem testBit_velem (v : VReg) (w i b : Nat) : (velem v w i).testBit b = (decide (b < w) && v.getLsbD (w * i + b)) := by
  rw [velem, Nat.testBit_mod_two_pow, Nat.testBit_shiftRight]
  rfl

theorem velem_setLane (v : VReg) {l j : Nat} (x : Nat) (hj : j < 128) :
    velem (setLane v l x) 64 j = if j = l then x % 2 ^ 64 else velem v 64 j := by
  refine Nat.eq_of_testBit_eq fun b => ?_
  rw [testBit_velem, setLane, laneOf, velem, BitVec.getLsbD_ofNat, testBit_replaceLane _ _ _ _ (Nat.mod_lt _ (by positivity))]
  by_cases hb : b < 64
  · have hlt : 64 * j + b < 8192 := by omega
    by_cases hjl : j = l
    · subst hjl
      rw [if_pos (by omega), if_pos rfl, Nat.add_sub_cancel_left]
      simp [hb, hlt]
    · rw [if_neg (by omega), if_neg hjl, testBit_velem]
      simp [hb, hlt, BitVec.getLsbD]
  · have hr : (if j = l then x % 2 ^ 64 else velem v 64 j) < 2 ^ 64 := by
      split
      · exact Nat.mod_lt _ (by positivity)
      · exact velem_lt ..
    rw [Nat.testBit_lt_two_pow (lt_of_lt_of_le hr (Nat.pow_le_pow_right (by decide) (Nat.not_lt.1 hb)))]
    simp [hb]

/-- `u` is `s` with the lanes below `k` of `d` moved to the window registers that the lanes of `ix` name (R167). -/
def LanesMoved (s u : State) (ix d : VReg) (k : Nat) : Prop :=
  u = { s with clusters := u.clusters } ∧ (∀ g, u.cluster g = { s.cluster g with vreg := (u.cluster g).vreg }) ∧
  ∀ g m l, l < 128 → velem (u.vregAt g m) 64 l =
    if g = clusterOf s.cur ∧ l < k ∧ laneOf ix l < s.me.winSize ∧ m = s.me.winBase + laneOf ix l then laneOf d l else velem (s.vregAt g m) 64 l

/-- One lane of VMOVIW. -/
def State.moveLane (s : State) (ix d : VReg) (l : Nat) : State :=
  if laneOf ix l < s.me.winSize then s.setWinReg (laneOf ix l) (setLane (s.winReg (laneOf ix l)) l (laneOf d l)) else s

theorem LanesMoved.moveLane {s u : State} {ix d : VReg} {k : Nat} (h : LanesMoved s u ix d k) : LanesMoved s (u.moveLane ix d k) ix d (k + 1) := by
  obtain ⟨hu, hg, hv⟩ := h
  have hcur : u.cur = s.cur := by rw [hu]
  have hme : u.me = s.me := by rw [hu]; rfl
  have hlt : ∀ l, l < k + 1 ↔ l < k ∨ l = k := fun l => by omega
  unfold State.moveLane
  rw [hme]
  by_cases hn : laneOf ix k < s.me.winSize
  · rw [if_pos hn]
    refine ⟨?_, fun g => ?_, fun g m l hl => ?_⟩
    · exact congrArg (fun w : State =>
        { w with clusters := (u.setWinReg (laneOf ix k) (setLane (u.winReg (laneOf ix k)) k (laneOf d k))).clusters }) hu
    · rw [State.setWinReg, State.setVreg]
      by_cases hgc : g = clusterOf u.cur
      · rw [hgc, State.cluster_modCluster_self, hg]
      · rw [State.cluster_modCluster_ne _ _ _ _ hgc]
        exact hg g
    · rw [State.setWinReg, State.vregAt_setVreg, State.winReg, hcur, hme]
      by_cases hgm : g = clusterOf s.cur ∧ m = s.me.winBase + laneOf ix k
      · obtain ⟨rfl, rfl⟩ := hgm
        rw [if_pos ⟨rfl, rfl⟩]
        by_cases hlk : l = k
        · subst hlk
          rw [velem_setLane _ _ hl, if_pos rfl, if_pos ⟨rfl, by omega, hn, rfl⟩]
          exact Nat.mod_eq_of_lt (velem_lt ..)
        · rw [velem_setLane _ _ hl, if_neg hlk, hv _ _ _ hl]
          simp [hlt, hlk]
      · rw [if_neg hgm, hv _ _ _ hl]
        have hk : l = k → ¬ (g = clusterOf s.cur ∧ m = s.me.winBase + laneOf ix l) := by
          rintro rfl
          exact hgm
        refine if_congr ?_ rfl rfl
        rw [hlt]
        tauto
  · rw [if_neg hn]
    refine ⟨hu, hg, fun g m l hl => (hv g m l hl).trans (if_congr ?_ rfl rfl)⟩
    rw [hlt]
    have hk : l = k → ¬ laneOf ix l < s.me.winSize := by
      rintro rfl
      exact hn
    tauto

theorem lanesMoved_foldl (s : State) (ix d : VReg) (k : Nat) :
    LanesMoved s ((List.range k).foldl (fun u l => u.moveLane ix d l) s) ix d k := by
  induction k with
  | zero => exact ⟨rfl, fun _ => rfl, fun g m l _ => (if_neg (by omega)).symm⟩
  | succ k ih =>
    rw [List.range_succ, List.foldl_append]
    exact ih.moveLane

theorem exec_vmoviw {s : State} {vd vs2 : Reg} (h : s.VecOk false false [vd, vs2]) :
    ∃ u t : State, LanesMoved s u (s.vr vs2) (s.vr vd) s.lanes ∧
      exec (.vmoviw vd vs2) s = .next t ∧ Completed (u.enqueueE 64 s.lanes 2) t := by
  refine ⟨_, _, lanesMoved_foldl s (s.vr vs2) (s.vr vd) s.lanes, ?_, completed_retire _⟩
  show execVmoviw vd vs2 s = _
  rw [execVmoviw, vecCheck_ok _ h]
  rfl

/-! ### VEXTRACT and VINSERT -/

/-- The value that VEXTRACT gives of an element (R169). -/
def State.extracted (s : State) (vs2 : Reg) (j : Nat) : Word :=
  if j < 8192 / s.vw then (if s.me.etype = 14 then BitVec.ofNat 64 (velem (s.vr vs2) 8 j % 64) else
    (BitVec.ofNat s.vw (velem (s.vr vs2) s.vw j)).signExtend 64) else 0

theorem extracted_eq (s : State) (vs2 : Reg) (j : Nat) : s.extracted vs2 j =
    if j < s.vlmax then (if s.me.etype = 14 then word (s.ve vs2 j) else BitVec.ofInt 64 (signedOf s.vw (s.ve vs2 j))) else 0 := by
  unfold State.extracted State.vlmax
  by_cases h : s.me.etype = 14
  · have hw : s.vw = 8 := by rw [State.vw, h]; rfl
    have he : s.ve vs2 j = velem (s.vr vs2) 8 j % 64 := by rw [State.ve, elemIn, if_pos h, hw]
    rw [if_pos h, if_pos h, he]
    rfl
  · have he : s.ve vs2 j = velem (s.vr vs2) s.vw j := by rw [State.ve, elemIn, if_neg h]
    rw [if_neg h, if_neg h, signedOf_eq_toInt s.vw_pos (s.ve_lt ..), he]
    rfl

theorem exec_vextract {s u : State} (rd a : Reg) {vs2 : Reg} (h : s.VecOk false false [vs2]) (hu : s.engineReply (.vextract rd a vs2) = u) :
    exec (.vextract rd a vs2) s = .next (u.setXr rd (s.extracted vs2 (s.xr a).toNat)).retire := by
  subst hu
  show execVextract rd a vs2 s = _
  rw [execVextract, vecCheck_ok _ h, extracted_eq]
  rfl

section
variable {s : State} {vd : Reg} (a b : Reg) (h : s.VecOk false false [vd])
include h

theorem exec_vinsert (hj : (s.xr b).toNat < 8192 / s.vw) :
    ∃ u t : State, ElementsWritten s u vd s.vw ((s.xr b).toNat + 1) (fun i => if i = (s.xr b).toNat then some (s.asElem (s.xr a).toNat) else none) 0 ∧
      exec (.vinsert vd a b) s = .next t ∧ Completed (u.enqueueV (1#8 <<< (s.vw * (s.xr b).toNat / 1024)) 1 false none) t := by
  have hw := elementsWritten_noFlags s vd ((s.xr b).toNat + 1) fun i => if i = (s.xr b).toNat then some ((s.xr a).toNat % 2 ^ s.vw) else none
  simp only [apply_ite (Option.map _), Option.map_some, Option.map_none, State.asElem_mod] at hw
  refine ⟨_, _, hw, ?_, completed_retire _⟩
  show execVinsert vd a b s = _
  have hg : s.elemGroup (s.xr b).toNat = 1#8 <<< (s.vw * (s.xr b).toNat / 1024) := if_pos hj
  rw [execVinsert, vecCheck_ok _ h, ← hg]
  have hin : (s.xr b).toNat < s.vlmax := hj
  simp only [if_pos hin]
  rfl

theorem exec_vinsert_beyond (hj : 8192 / s.vw ≤ (s.xr b).toNat) : exec (.vinsert vd a b) s = .next (s.enqueueV 1 1 false none).retire := by
  show execVinsert vd a b s = _
  have hout : ¬ (s.xr b).toNat < s.vlmax := Nat.not_lt.2 hj
  have hg : s.elemGroup (s.xr b).toNat = 1 := if_neg hout
  rw [execVinsert, vecCheck_ok _ h]
  simp only [if_neg hout, hg]
  rfl
end

/-- Settles O46, instruction by instruction. -/
theorem vectorMoves : Obligations.VectorMoves := by
  unfold Obligations.VectorMoves
  refine ⟨fun s v rd a e n hn hv => ⟨exec_vsetl_full rd a e, fun h hq => ⟨_, exec_vsetl rd a e h hq hv.symm, ?_⟩, exec_vsetl_noWindow rd a e⟩,
    fun s vd a hw hq => ⟨fun h => ⟨⟨_, exec_vrdx hw hq h, completed_retire _⟩, _, exec_vwrx hw hq h, completed_retire _⟩, exec_vrdx_vwrx_outside hw hq⟩,
    fun s vd vs2 n ix h hn hix => ⟨?_, ?_⟩, fun s u rd a vs2 j v h hj hu hv => ?_, fun s vd a b j h hj => ?_⟩
  · subst hn
    exact completed_retire _
  · obtain ⟨u, t, hw, ht⟩ := exec_vmovi h
    subst hn
    exact ⟨u, t, hw.congr fun l _ _ => by rw [hix]; rfl, ht⟩
  · obtain ⟨u, t, ⟨hu, hg, hl⟩, ht⟩ := exec_vmoviw h
    subst hn
    exact ⟨u, t, hu, hg, fun g m l h128 => by rw [hl g m l h128, hix]; rfl, ht⟩
  · subst hj hu hv
    exact ⟨_, exec_vextract rd a h rfl, completed_retire _⟩
  · subst hj
    exact ⟨exec_vinsert a b h, fun hout => ⟨_, exec_vinsert_beyond a b h hout, completed_retire _⟩⟩

end Sys2Proof.Machine
end

