-- ==== Sys2Proof/Proofs/VectorEngine/Rotation.lean ====
section
/-! The rotation offset (R142): qvrot as a CSR, and the register of the window that a v field names. Settles O57. -/

namespace Sys2Proof.Machine

/-- Bits 8 to 3 of a value, in place. -/
theorem and_rotMask_eq (v : Word) : v &&& 0x1F8#64 = BitVec.ofNat 64 (v.toNat % 512 / 8 * 8) := by
  have hm : ∀ i, i < 64 → (0x1F8#64).getLsbD i = (decide (3 ≤ i) && decide (i < 9)) := by decide
  refine BitVec.eq_of_getLsbD_eq fun i hi => ?_
  have hr : (v.toNat % 2 ^ 9 / 2 ^ 3 * 2 ^ 3).testBit i = (decide (3 ≤ i) && (decide (i < 9) && v.toNat.testBit i)) := by
    rw [Nat.testBit_mul_two_pow, Nat.testBit_div_two_pow, Nat.testBit_mod_two_pow]
    by_cases h3 : 3 ≤ i
    · rw [Nat.sub_add_cancel h3]
    · simp [h3]
  rw [BitVec.getLsbD_and, hm i hi, BitVec.getLsbD_ofNat, decide_eq_true hi, Bool.true_and]
  refine Eq.trans ?_ hr.symm
  rw [Bool.and_comm, Bool.and_assoc]
  rfl

theorem csrLegal_qvrot (s : State) (cid : Nat) (w : Bool) : s.csrLegal cid 0x802 w = true := by
  have hr : s.csrRead cid 0x802 = some (s.ctx cid).qvrot := rfl
  cases w <;> simp [State.csrLegal, hr, Ctx.counterOk]

theorem csrWrite_qvrot (s : State) (cid : Nat) (v : Word) :
    s.csrWrite cid 0x802 v = s.modCtx cid fun c => { c with qvrot := BitVec.ofNat 64 (v.toNat % 512 / 8 * 8) } := by
  rw [← and_rotMask_eq]
  rfl

theorem winBase_add_rot (s : State) (f : Reg) : s.me.winBase + s.me.rot + f.toNat =
    (s.me.qvwin.extractLsb' 0 11).toNat + (s.me.qvrot.extractLsb' 0 9).toNat + f.toNat := by
  rw [Ctx.winBase, Ctx.rot, bits_eq, bits_eq]

/-- A CSRRW of qvrot reads the old offset and stores the new one. -/
theorem exec_csrrw_qvrot (s : State) (rd rs1 : Reg) : exec (.csrAccess .rw false rd rs1 0x802) s = .next
    (((s.modCtx s.cur fun c => { c with qvrot := BitVec.ofNat 64 ((s.xr rs1).toNat % 512 / 8 * 8) }).setXr rd s.me.qvrot).retire) := by
  have hs : s = s.settleQvstat s.cur (0x802 : BitVec 12).toNat := by
    rw [settleQvstat_toNat]
    rfl
  have hx := exec_csrAccess_legal (v := s.xr rs1) (new := s.xr rs1) (old := s.me.qvrot) (isImm := false) rd
    (csrLegal_qvrot s s.cur (csrWrites .rw rs1)) hs rfl rfl rfl
  have ha : (0x802 : BitVec 12).toNat = 0x802 := rfl
  have hb : ¬ (0x802 : Nat) = 0xB02 := by decide
  rw [hx, ← csrWrite_qvrot, ha]
  simp only [hb, decide_false, Bool.false_and, Bool.false_eq_true, if_false, csrWrites_iff, true_or, if_true]

/-- Settles O57. -/
theorem rotationOffset : Obligations.RotationOffset := by
  unfold Obligations.RotationOffset
  refine ⟨csrLegal_qvrot, csrWrite_qvrot, fun _ _ => rfl, rfl, fun s f => ?_, fun s f v g n => ?_,
    fun s rd rs1 => ⟨_, exec_csrrw_qvrot s rd rs1, completed_retire _, rfl, rfl⟩⟩
  · rw [State.vr, winBase_add_rot]
    rfl
  · rw [State.setVr, State.vregAt_setVreg, winBase_add_rot]
    rfl

end Sys2Proof.Machine
end

