-- ==== Sys2Proof/Proofs/VectorEngine/Settled.lean ====
section
/-! Settling a context's events (R98) performs what stands in the buffers, the queues and the units, and the issuing context stays the same. One
lemma for each operation on that way says so, in the order of the operations. -/

namespace Sys2Proof.Machine

theorem IfOk.bind {ε α β : Type} {P : α → Prop} {Q : β → Prop} {x : Except ε α} {f : α → Except ε β} (hx : IfOk P x)
    (hf : ∀ a, P a → IfOk Q (f a)) : IfOk Q (x >>= f) := by
  cases hx with
  | ok h => exact hf _ h
  | error => exact .error

namespace State

theorem foldl_cur {α : Type} {f : State → α → State} (hf : ∀ s a, (f s a).cur = s.cur) (s : State) (l : List α) :
    (l.foldl f s).cur = s.cur := by
  induction l generalizing s with
  | nil => rfl
  | cons a l ih => exact (ih (f s a)).trans (hf s a)

theorem Accessed.cur_eq {s t : State} (h : s.Accessed t) : t.cur = s.cur := by
  induction h with
  | refl => rfl
  | units _ _ _ _ _ _ _ _ ih => exact ih
  | lose _ _ _ ih => exact ih

theorem aliasStore_cur (s : State) (g k o n v) : (s.aliasStore g k o n v).cur = s.cur := (Accessed.refl.aliasStore _ _ _ _ _).cur_eq
theorem setTile_cur (s : State) (t) : (s.setTile t).cur = s.cur := (Accessed.refl.setTile _).cur_eq
theorem countReads_cur (s : State) (slice n) : (s.countReads slice n).cur = s.cur := (Accessed.refl.countReads _ _).cur_eq
theorem countLine_cur (s : State) (slice line) : (s.countLine slice line).cur = s.cur := (Accessed.refl.countLine _ _).cur_eq
theorem loseReservations_cur (s : State) (line keep only w) : (s.loseReservations line keep only w).cur = s.cur := rfl
theorem loseAt_cur (s : State) (pa n keep w) : (s.loseAt pa n keep w).cur = s.cur := (Accessed.refl.loseAt _ _ _ _).cur_eq
theorem leaveSectors_cur (s : State) (g line m w) : (s.leaveSectors g line m w).cur = s.cur := (Accessed.refl.leaveSectors _ _ _ _).cur_eq
theorem mergeHome_cur (s : State) (line l) : (s.mergeHome line l).cur = s.cur := (Accessed.refl.mergeHome _ _).cur_eq
theorem writeBack_cur (s : State) (g line m) : (s.writeBack g line m).cur = s.cur := (Accessed.refl.writeBack _ _ _).cur_eq
theorem landVictims_cur (s : State) (own line) : (s.landVictims own line).cur = s.cur := (Accessed.refl.landVictims _ _).cur_eq

theorem mergeVictim_cur (s : State) (g i) : (s.mergeVictim g i).cur = s.cur := by
  unfold mergeVictim
  grind [mergeHome_cur, modCluster_cur]

theorem evictSectors_cur (s : State) (g line m) : (s.evictSectors g line m).cur = s.cur := (Accessed.refl.evictSectors _ _ _).cur_eq

theorem recallDirty_cur (s : State) (home g line m) : (s.recallDirty home g line m).cur = s.cur := by
  unfold recallDirty
  grind [foldl_cur, writeBack_cur, landVictims_cur]

theorem recallAll_cur (s : State) (home g line m) : (s.recallAll home g line m).cur = s.cur := (Accessed.refl.recallAll _ _ _ _).cur_eq
theorem backInvalidate_cur (s : State) (line) : (s.backInvalidate line).cur = s.cur := (Accessed.refl.backInvalidate _).cur_eq
theorem applyPending_cur (s : State) (line) : (s.applyPending line).cur = s.cur := (Accessed.refl.applyPending _).cur_eq
theorem tileDrop_cur (s : State) (t g w) : (s.tileDrop t g w).cur = s.cur := (Accessed.refl.tileDrop _ _ _).cur_eq
theorem releaseFrom_cur (s : State) (t g w) : (s.releaseFrom t g w).cur = s.cur := tileDrop_cur ..
theorem tileRecall_cur (s : State) (t w) : (s.tileRecall t w).cur = s.cur := (Accessed.refl.tileRecall _ _).cur_eq

theorem putLine_cur (s : State) (g line tid sw home cls avoid f) : (s.putLine g line tid sw home cls avoid f).cur = s.cur :=
  (Accessed.refl.putLine _ _ _ _ _ _ _ _).cur_eq

theorem fill_cur (s : State) (g line m tid sw home cls avoid) : (s.fill g line m tid sw home cls avoid).cur = s.cur := by
  unfold fill
  grind [putLine_cur]

theorem touch_cur (s : State) (g line) : (s.touch g line).cur = s.cur := by
  unfold touch
  grind [modCluster_cur]

theorem streamWrite_cur (s : State) (line settle mask data task launch) : (s.streamWrite line settle mask data task launch).cur = s.cur :=
  (Accessed.refl.streamWrite _ _ _ _ _ _).cur_eq

theorem settleLine_cur (s : State) (line) : (s.settleLine line).cur = s.cur := (Accessed.refl.settleLine _).cur_eq

theorem tileFill_cur (s : State) (t g tid) : (s.tileFill t g tid).cur = s.cur := by
  unfold tileFill
  grind [foldl_cur, fill_cur, settleLine_cur, applyPending_cur]

theorem takeTile_cur (s : State) (t g w) : (s.takeTile t g w).1.cur = s.cur := by
  unfold takeTile
  refine List.foldlRecOn t.sectors (motive := fun q : State × Table L2Line => q.1.cur = s.cur) _ rfl fun q hq a _ => ?_
  grind [leaveSectors_cur]

theorem placeTile_cur (s : State) (t g tid fl) : (s.placeTile t g tid fl).cur = s.cur := (Accessed.refl.placeTile _ _ _ _).cur_eq
theorem tilePush_cur (s : State) (t evicted) : (s.tilePush t evicted).cur = s.cur := (Accessed.refl.tilePush _ _).cur_eq

theorem tileRequest_cur (s : State) (t0 g excl tid task) : (s.tileRequest t0 g excl tid task).cur = s.cur := by
  have hb : ∀ (s : State) (l : List Nat), (l.foldl (fun s line => s.backInvalidate line) s).cur = s.cur :=
    foldl_cur fun _ _ => backInvalidate_cur ..
  have hw : ∀ (s : State) (h : Nat) (m : Table (BitVec 8)), (m.foldl (fun s p => s.writeBack h p.1 p.2) s).cur = s.cur :=
    fun s _ m => foldl_cur (fun _ _ => writeBack_cur ..) s m
  unfold tileRequest
  grind [tilePush_cur, setTile_cur, countReads_cur, tileRecall_cur, tileDrop_cur, takeTile_cur, placeTile_cur, tileFill_cur, writeBack_cur,
    backInvalidate_cur, foldl_cur]

theorem tileAccess_cur (s : State) (g x n excl tid task) : (s.tileAccess g x n excl tid task).cur = s.cur := by
  unfold tileAccess
  grind [foldl_cur, tileRequest_cur]

theorem acquireLine_cur (s : State) (g x excl tid) : (s.acquireLine g x excl tid).cur = s.cur := by
  unfold acquireLine
  grind [landVictims_cur, backInvalidate_cur, recallAll_cur, recallDirty_cur, countLine_cur, fill_cur, settleLine_cur, applyPending_cur]

theorem writeMem_cur (s : State) (g tid x n v keep w launch) : (s.writeMem g tid x n v keep w launch).cur = s.cur := by
  unfold writeMem
  grind [loseAt_cur, aliasStore_cur, settleLine_cur, touch_cur, tileAccess_cur, acquireLine_cur, modCluster_cur, streamWrite_cur, writeBack_cur,
    recallAll_cur, backInvalidate_cur]

theorem homeTake_cur (s : State) (home line m task) : (s.homeTake home line m task).cur = s.cur := (Accessed.refl.homeTake _ _ _ _).cur_eq
theorem homeReadAt_cur (s : State) (home pa n task) : (s.homeReadAt home pa n task).1.cur = s.cur := (Accessed.refl.homeReadAt _ _ _ _).cur_eq
theorem homeReadX_cur (s : State) (x off n) : (s.homeReadX x off n).1.cur = s.cur := homeReadAt_cur ..

theorem homeWriteAt_cur (s : State) (home pa n v w launch) : (s.homeWriteAt home pa n v w launch).cur = s.cur :=
  (Accessed.refl.homeWriteAt _ _ _ _ _ _).cur_eq

theorem homeWrite_cur (s : State) (pa n v w launch) : (s.homeWrite pa n v w launch).cur = s.cur := homeWriteAt_cur ..
theorem homeWriteX_cur (s : State) (x off n v w launch) : (s.homeWriteX x off n v w launch).cur = s.cur := homeWriteAt_cur ..

theorem putRecord_cur (s : State) (d w0 w1 w2 w3) : (s.putRecord d w0 w1 w2 w3).cur = s.cur := by
  unfold putRecord
  grind [homeWrite_cur, modDie_cur]

theorem wakeIf_cur (s : State) (p w) : (s.wakeIf p w).cur = s.cur := rfl

theorem putEvent_cur (s : State) (core typ cause task words prodTask code) : (s.putEvent core typ cause task words prodTask code).cur = s.cur := by
  unfold putEvent
  grind [setCore_cur, wakeIf_cur]

theorem xlate_cur (s : State) (v need va) : IfOk (fun p => p.1.cur = s.cur) (s.xlate v need va) := by
  cases h : s.xlate v need va with
  | ok p => exact .ok (xlate_frame s p.1 v need va p.2 h).cur
  | error e => exact .error

theorem scanPages_cur (s : State) (v cls need noIo fuel va stop) :
    IfOk (fun p => p.1.cur = s.cur) (s.scanPages v cls need noIo fuel va stop) := by
  induction fuel generalizing s va with
  | zero => exact .ok rfl
  | succ n ih =>
    have hx := s.xlate_cur v need va
    unfold scanPages
    split
    · exact .ok rfl
    generalize s.xlate v need va = x at hx ⊢
    cases hx with
    | error =>
      rename_i e
      cases e with
      | page => exact .error
      | access => exact (ih ..).bind fun _ hp => .ok hp
    | ok hx =>
      dsimp only
      split
      · exact .error
      · exact (ih ..).bind fun _ hp => .ok (hp.trans hx)

theorem modHem_cur (s : State) (k f) : (s.modHem k f).cur = s.cur := rfl

theorem flushEntry_cur (s : State) (k e) : (s.flushEntry k e).cur = s.cur := by
  unfold flushEntry
  grind [modHem_cur]

theorem hemRoom_cur (s : State) (k fuel) : (s.hemRoom k fuel).cur = s.cur := by
  induction fuel generalizing s with
  | zero => rfl
  | succ n ih =>
    unfold hemRoom
    grind [flushEntry_cur]

theorem accPortion_cur (s : State) (cid o) : IfSome (fun t => t.cur = s.cur) (s.accPortion cid o) := by
  unfold accPortion
  grind [IfSome.some_iff, IfSome.none, modHem_cur, hemRoom_cur]

theorem refill_cur (s : State) (i) : (s.refill i).cur = s.cur := rfl

theorem applySend_cur (s : State) (a) : (s.applySend a).1.cur = s.cur := by
  unfold applySend
  grind [loseReservations_cur, homeTake_cur]

theorem sendAnswer_cur (s : State) (ok a) : (s.sendAnswer ok a).cur = s.cur := by
  unfold sendAnswer
  split <;> rfl

theorem acceptSend_cur (s : State) (i a) : (s.acceptSend i a).cur = s.cur := (sendAnswer_cur ..).trans (applySend_cur ..)

theorem promote_cur (s : State) (i fuel) : (s.promote i fuel).cur = s.cur := by
  induction fuel generalizing s with
  | zero => rfl
  | succ n ih =>
    unfold promote
    grind [acceptSend_cur, setSlice_cur]

theorem decideAt_cur (s : State) (i a) : (s.decideAt i a).cur = s.cur := by
  unfold decideAt
  grind [countLine_cur, promote_cur, refill_cur, acceptSend_cur, setSlice_cur, sendAnswer_cur]

theorem meetTiles_cur (s : State) (a) : (s.meetTiles a).cur = s.cur := by
  unfold meetTiles
  grind [foldl_cur, tilePush_cur, tileRecall_cur]

theorem sendArrives_cur (s : State) (idx refuses) : (s.sendArrives idx refuses).cur = s.cur := by
  unfold sendArrives
  grind [meetTiles_cur, sendAnswer_cur, applySend_cur, decideAt_cur]

theorem accApplyAt_cur (s : State) (i) : (s.accApplyAt i).cur = s.cur := by
  unfold accApplyAt
  grind [promote_cur, setSlice_cur]

theorem refusalReturns_cur (s : State) (a) : (s.refusalReturns a).cur = s.cur := by
  unfold refusalReturns
  grind [modCore_cur, modHem_cur, flushEntry_cur]

theorem acceptanceReturns_cur (s : State) (a) : (s.acceptanceReturns a).cur = s.cur := rfl

theorem answerReturns_cur (s : State) (idx) : (s.answerReturns idx).cur = s.cur := by
  unfold answerReturns
  grind [acceptanceReturns_cur, refusalReturns_cur]

theorem decideSends_cur (s : State) (k fuel) : (s.decideSends k fuel).cur = s.cur := by
  induction fuel generalizing s with
  | zero => rfl
  | succ n ih =>
    unfold decideSends
    grind [answerReturns_cur, sendArrives_cur, accApplyAt_cur]

theorem trimQueues_cur (s : State) (g) : (s.trimQueues g).cur = s.cur := rfl

theorem startPortion_cur (s : State) (g j k i) : (s.startPortion g j k i).cur = s.cur := by
  unfold startPortion
  grind [IfSome.getD, accPortion_cur, modCore_cur, modCluster_cur]

theorem arbitrate_cur (s : State) (g j fuel) : (s.arbitrate g j fuel).cur = s.cur := by
  induction fuel generalizing s with
  | zero => rfl
  | succ n ih =>
    unfold arbitrate
    grind [modCluster_cur, startPortion_cur]

theorem headRoom_cur (s : State) (k) : (s.headRoom k).cur = s.cur := by
  unfold headRoom
  grind [hemRoom_cur]

theorem vectorRound_cur (s : State) (g) : (s.vectorRound g).cur = s.cur := by
  unfold vectorRound
  grind [foldl_cur, headRoom_cur, trimQueues_cur, arbitrate_cur]

theorem drainVector_cur (s : State) (cid fuel) : (s.drainVector cid fuel).cur = s.cur := by
  induction fuel generalizing s with
  | zero => rfl
  | succ n ih =>
    unfold drainVector
    grind [vectorRound_cur, decideSends_cur]

theorem postedTimeout_cur (s : State) (cid task pa) : (s.postedTimeout cid task pa).cur = s.cur := putEvent_cur ..

theorem sendTimeout_cur (s : State) (idx) : (s.sendTimeout idx).cur = s.cur := by
  unfold sendTimeout
  grind [acceptanceReturns_cur, postedTimeout_cur]

theorem expireWhere_cur (s : State) (p fuel) : (s.expireWhere p fuel).cur = s.cur := by
  induction fuel generalizing s with
  | zero => rfl
  | succ n ih =>
    unfold expireWhere
    grind [sendTimeout_cur]

theorem expireSends_cur (s : State) (cid fuel) : (s.expireSends cid fuel).cur = s.cur := expireWhere_cur ..

theorem settleRounds_cur (s : State) (cid fuel) : (settleAcc.settleRounds s cid fuel).cur = s.cur := by
  induction fuel generalizing s with
  | zero => rfl
  | succ n ih =>
    unfold settleAcc.settleRounds
    grind [drainVector_cur, decideSends_cur, expireSends_cur, expireWhere_cur]

theorem settleAcc_cur (s : State) (cid) : (s.settleAcc cid).cur = s.cur := settleRounds_cur ..
theorem changeHandle_cur (s : State) (g h st err task code) : (s.changeHandle g h st err task code).cur = s.cur := rfl
theorem phaser_cur (s : State) (x) : (s.phaser x).1.cur = s.cur := homeReadX_cur ..

theorem putPhaser_cur (s : State) (x p completed w) : (s.putPhaser x p completed w).cur = s.cur := by
  unfold putPhaser
  grind [homeWriteX_cur, wakeIf_cur]

theorem queueRead_cur (s : State) (x off n) : (s.queueRead x off n).1.cur = s.cur := homeReadX_cur ..
theorem queueWrite_cur (s : State) (x off n v w) : (s.queueWrite x off n v w).cur = s.cur := homeWriteX_cur ..
theorem queueWords_cur (s : State) (x) : (s.queueWords x).1.cur = s.cur := queueRead_cur ..

theorem queueTake_cur (s : State) (x w) : (s.queueTake x w).1.cur = s.cur := by
  unfold queueTake
  grind [queueWords_cur, queueRead_cur, queueWrite_cur]

theorem feedPops_cur (s : State) (x n) : (s.feedPops x n).cur = s.cur := by
  induction n generalizing s with
  | zero => rfl
  | succ n ih =>
    unfold feedPops
    grind [queueTake_cur, wakeIf_cur]

theorem restorePhaser_cur (s : State) (pa n) : (s.restorePhaser pa n).cur = s.cur := by
  unfold restorePhaser
  grind [foldl_cur, phaser_cur, putPhaser_cur, feedPops_cur]

theorem copyScan_cur (s : State) (v dc dst src n) : IfOk (fun p => p.1.cur = s.cur) (s.copyScan v dc dst src n) :=
  (scanPages_cur ..).bind fun _ hp => (scanPages_cur ..).bind fun _ hq => .ok (hq.trans hp)

theorem sealedScan_cur (s : State) (v sp dc src n) : IfOk (fun p => p.1.cur = s.cur) (s.sealedScan v sp dc src n) := by
  unfold sealedScan
  extract_lets at_ j
  split
  · exact (scanPages_cur ..).bind fun _ hp => .ok hp
  · exact .ok rfl

theorem veil_cur (s : State) (j t dp dst n) : (s.veil j t dp dst n).cur = s.cur := by
  unfold veil
  grind [setHandle_cur]

theorem releaseEntry_cur (s : State) (key g l ws) : (s.releaseEntry key g l ws).cur = s.cur := by
  unfold releaseEntry
  extract_lets src dst n h task code base fail d v checked
  have hf : ∀ pa, (fail s pa).cur = s.cur := fun _ => putEvent_cur ..
  have hc : IfOk (fun p => p.1.cur = s.cur) checked :=
    (copyScan_cur ..).bind fun _ hp => (sealedScan_cur ..).bind fun _ hq => .of_bind fun _ => .ok (hq.trans hp)
  clear_value fail checked
  grind [IfOk.ok_iff, changeHandle_cur, veil_cur, modCluster_cur]

theorem releasePattern_cur (s : State) (key) : (s.releasePattern key).cur = s.cur := by
  unfold releasePattern
  grind [setLaunch_cur]

theorem pumpReleased_cur (s : State) (g fuel) : (s.pumpReleased g fuel).cur = s.cur := by
  induction fuel generalizing s with
  | zero => rfl
  | succ n ih =>
    unfold pumpReleased
    grind [releaseEntry_cur]

theorem pumpCluster_cur (s : State) (g) : (s.pumpCluster g).cur = s.cur := pumpReleased_cur ..

theorem patternStep_cur (s : State) (key c) : (s.patternStep key c).cur = s.cur := by
  unfold patternStep
  grind [pumpCluster_cur, releasePattern_cur, setLaunch_cur]

theorem rangePiece_cur (s : State) (g inv x n) : (s.rangePiece g inv x n).cur = s.cur := by
  unfold rangePiece
  grind [foldl_cur, evictSectors_cur, landVictims_cur, modCore_cur, writeBack_cur]

theorem discardLine_cur (s : State) (g line) : (s.discardLine g line).cur = s.cur := by
  unfold discardLine
  grind [foldl_cur, leaveSectors_cur, releaseFrom_cur]

theorem discard_cur (s : State) (t) : (s.discard t).cur = s.cur := by
  unfold discard
  grind [foldl_cur, tilePush_cur, leaveSectors_cur, setTile_cur, discardLine_cur]

theorem releaseTile_cur (s : State) (g pa task) : (s.releaseTile g pa task).cur = s.cur := by
  unfold releaseTile
  grind [releaseFrom_cur]

theorem traceRecord_cur (s : State) (cid task w0 w1) : (s.traceRecord cid task w0 w1).cur = s.cur := putRecord_cur ..

theorem stepMark_cur (s : State) (cid task step) : (s.stepMark cid task step).cur = s.cur := by
  unfold stepMark
  grind [foldl_cur, putRecord_cur, modDie_cur]

theorem dropEntry_cur (s : State) (k i) : (s.dropEntry k i).cur = s.cur := rfl

theorem startForward_cur (s : State) (k i) : (s.startForward k i).cur = s.cur := by
  unfold startForward
  grind [dropEntry_cur, takeTile_cur, setTile_cur, modCore_cur, putEvent_cur]

theorem vecRecord_cur (s : State) (cid task pc fails) : (s.vecRecord cid task pc fails).cur = s.cur := by
  unfold vecRecord
  grind [putEvent_cur]

theorem elemDone_cur (s : State) (k e fail) : (s.elemDone k e fail).cur = s.cur := by
  unfold elemDone
  grind [vecRecord_cur, modCore_cur]

theorem performPosted_cur (s : State) (k i) : (s.performPosted k i).cur = s.cur := by
  unfold performPosted
  grind [modCore_cur, elemDone_cur, writeMem_cur]

theorem victimTimeout_cur (s : State) (g i done) : (s.victimTimeout g i done).cur = s.cur := by
  unfold victimTimeout
  grind [postedTimeout_cur, mergeVictim_cur, modCluster_cur]

theorem expireVictims_cur (s : State) (g ls fuel) : (s.expireVictims g ls fuel).cur = s.cur := by
  induction fuel generalizing s with
  | zero => rfl
  | succ n ih =>
    unfold expireVictims
    grind [victimTimeout_cur]

theorem postedEnds_cur (s : State) (k i performed) : (s.postedEnds k i performed).cur = s.cur := by
  unfold postedEnds
  grind [modCore_cur, elemDone_cur, postedTimeout_cur, performPosted_cur]

theorem drainPosted_cur (s : State) (cid fuel) : (s.drainPosted cid fuel).cur = s.cur := by
  induction fuel generalizing s with
  | zero => rfl
  | succ n ih =>
    unfold drainPosted
    grind [performPosted_cur, postedEnds_cur]

theorem performEntry_cur (s : State) (k i) : (s.performEntry k i).cur = s.cur := by
  unfold performEntry
  split
  · rfl
  rename_i e _
  extract_lets g t
  have ht : t.cur = s.cur := by grind [drainPosted_cur, settleAcc_cur]
  clear_value t
  rw [← ht]
  cases e.kind with
  | store x n d => grind [modCore_cur, dropEntry_cur, restorePhaser_cur, writeMem_cur]
  | range inv ps => grind [dropEntry_cur, modCore_cur, foldl_cur, rangePiece_cur]
  | written ls => exact expireVictims_cur ..
  | disct t => exact discard_cur ..
  | trel pa => exact releaseTile_cur ..
  | tfwd pa a b c started => grind [tilePush_cur, dropEntry_cur, startForward_cur]
  | cpstep l c => exact patternStep_cur ..
  | cpmark st => exact stepMark_cur ..
  | trace a b => exact traceRecord_cur ..

theorem drainEntries_cur (s : State) (cid fuel) : (s.drainEntries cid fuel).cur = s.cur := by
  induction fuel generalizing s with
  | zero => rfl
  | succ n ih =>
    unfold drainEntries
    grind [performEntry_cur]

theorem drainStores_cur (s : State) (cid) : (s.drainStores cid).cur = s.cur := (drainPosted_cur ..).trans (drainEntries_cur ..)
theorem settle_cur (s : State) (cid) : (s.settle cid).cur = s.cur := (settleAcc_cur ..).trans (drainStores_cur ..)

theorem settleMe_cur (s : State) : s.settleMe.cur = s.cur := settle_cur ..

end State

end Sys2Proof.Machine
end

