-- ==== Sys2Proof/Proofs/VectorEngine/MaskStarts.lean ====
section
/-! Mask registers (R144): what a thread starts with, and the two bits of a mask operand's field that are 0 in every instruction. -/

namespace Sys2Proof.Machine

/-! ### A first state's masks -/

theorem Ctx.mask_of_masksReset {c : Ctx} (h : c.masks = masksReset) : c.mask 1 = BitVec.allOnes 1024 ∧ ∀ m, 2 ≤ m → c.mask m = 0 := by
  have hm : ∀ m, m ≠ 0 → c.mask m = masksReset.toList.getD (m.toNat - 1) 0 := fun m hm => by rw [Ctx.mask, if_neg hm, h]
  have hl : masksReset.toList = BitVec.allOnes 1024 :: List.replicate 6 0 := rfl
  have hk : ∀ m : BitVec 3, 2 ≤ m → m ≠ 0 ∧ m.toNat - 1 = m.toNat - 2 + 1 := by decide
  refine ⟨hm 1 (by decide), fun m h2 => ?_⟩
  obtain ⟨h0, he⟩ := hk m h2
  rw [hm m h0, he, hl, List.getD_cons_succ, List.getD_eq_getElem?_getD, List.getElem?_getD_replicate_default_eq]

theorem Ctx.masks_setX (c : Ctx) (r : Reg) (v : Word) : (c.setX r v).masks = c.masks := by rw [Ctx.setX_frame]

theorem Ctx.masks_startRegs (c : Ctx) (a0 a1 a2 sp gp tp : Word) : (c.startRegs a0 a1 a2 sp gp tp).masks = c.masks := by
  simp only [Ctx.startRegs, Ctx.masks_setX]

theorem Ctx.masks_helper (c c0 : Ctx) (id pc arg : Word) (bps : Vector Breakpoint 4) : (c.helper c0 id pc arg bps).masks = masksReset :=
  Ctx.masks_setX ..

theorem State.masks_launchThread (s : State) (cid key : Nat) (l : Launch) (id : Word) (prio : Nat) :
    (s.launchThread cid key l id prio).masks = masksReset := rfl

/-! ### The starts of a launch, a task and a helper -/

/-- A context keeps its masks where it loses its reservation. -/
theorem State.masks_loseIf (s : State) (p : Nat → Reservation → Bool) (w : Wake) (j : Nat) : ((s.loseIf p w).ctx j).masks = (s.ctx j).masks := by
  unfold State.ctx State.loseIf
  induction s.ctxs with
  | nil => rfl
  | cons q t ih =>
    simp only [List.map_cons, tfind]
    grind

theorem State.Accessed.masks_eq {s t : State} (h : s.Accessed t) (j : Nat) : (t.ctx j).masks = (s.ctx j).masks := by
  induction h with
  | refl => rfl
  | units _ _ _ _ _ _ _ _ ih => exact ih
  | lose _ p w ih => exact (State.masks_loseIf _ p w j).trans ih

theorem State.masks_putRecord (s : State) (d : Nat) (w0 w1 w2 w3 : Word) (j : Nat) :
    ((s.putRecord d w0 w1 w2 w3).ctx j).masks = (s.ctx j).masks := by
  unfold State.putRecord
  extract_lets x cap full a
  split
  · rfl
  · exact (Accessed.refl.homeWriteAt ..).masks_eq j

theorem State.masks_edge (s : State) (d : Nat) (waiter : Word) (w : Wake) (rtype j : Nat) :
    ((s.edge d waiter w rtype).ctx j).masks = (s.ctx j).masks := State.masks_putRecord ..

theorem State.masks_startControl (s : State) (key : Nat) (l : Launch) (r lag : Nat) :
    ((s.startControl key l r lag).ctx (controlOf (l.first + r))).masks = masksReset := by
  unfold State.startControl
  extract_lets k cid id stg u c u1 u2
  have hc : (u2.ctx cid).masks = c.masks := by
    simp only [u2, State.ctx_modCluster, u1, State.ctx_setCtx_self]
  have hm : c.masks = masksReset := (Ctx.masks_startRegs ..).trans (State.masks_launchThread ..)
  clear_value u2 c
  exact (State.masks_edge ..).trans (hc.trans hm)

/-- A task's first start, of a task that is not its launch's root. -/
theorem State.masks_startTask {s : State} {t : TaskEntry} {l : Launch} {n : Nat} (cid eff : Nat) (hl : s.launchAt t.launch = some l)
    (hn : t.stack.or l.freeStack = some n) (hs : t.saved = none) (hid : t.id.extractLsb' 0 32 ≠ 0) :
    ((s.startTask t cid eff).ctx cid).masks = masksReset := by
  have hroot : (bits t.id 31 0 == 0) = false := by
    have h : bits t.id 31 0 ≠ 0 := fun h => hid (BitVec.eq_of_toNat_eq h)
    simpa using h
  unfold State.startTask
  rw [hl, Option.bind_some, hn]
  split
  · contradiction
  · contradiction
  extract_lets k l2 root l3 u own stg lat t1 u1 u2 u3 t2 u4 c sp c1 u5
  have hr : root = false := by simp only [root, hroot, Bool.and_false]
  have hb : t2.saved = none := hs
  have hm : c1.masks = masksReset := (Ctx.masks_startRegs ..).trans (State.masks_launchThread ..)
  have h5 : (u5.ctx cid).masks = c1.masks := by
    clear_value u4 c1
    simp only [u5, hb, Option.bind_none, State.ctx_setCtx_self]
  clear_value u5 c1
  rw [hr, if_neg Bool.false_ne_true, h5, hm]

theorem State.modLaunch_cur (s : State) (k : Nat) (f : Launch → Launch) : (s.modLaunch k f).cur = s.cur := by
  unfold State.modLaunch
  split <;> rfl

theorem State.newId_cur (s : State) (key die : Nat) : (s.newId key die).1.cur = s.cur := by
  unfold State.newId
  split
  · rfl
  · exact State.foldl_cur (fun _ _ => modLaunch_cur ..) ..

/-- A result in an x register and the retirement are the issuing context's. -/
theorem State.ctx_setXr_retire_ne {s : State} {j : Nat} (r : Reg) (v : Word) (h : j ≠ s.cur) : (s.setXr r v).retire.ctx j = s.ctx j :=
  (State.ctx_modCtx_ne _ _ _ _ h).trans (State.ctx_modCtx_ne _ _ _ _ h)

theorem find_helper_bounds {p : Nat → Bool} {i : Nat} (h : ((List.range 10).map (· + 1)).find? p = some i) : 1 ≤ i ∧ i ≤ 10 := by
  obtain ⟨k, hk, rfl⟩ := List.mem_map.1 (List.mem_of_find?_eq_some h)
  have := List.mem_range.1 hk
  omega

/-- The helper that HSTART starts, of whose slot rd gets the number. -/
theorem masks_hstart {s t : State} {rd a b : Reg} {j : Nat} (hx : exec (.hstart rd a b) s = .next t) (h0 : s.cur % 12 = 0)
    (ha : (s.xr a).toNat % 4 = 0) (hrd : rd ≠ 0) (hj : t.xr rd = BitVec.ofNat 64 j) (h1 : 1 ≤ j) (h10 : j ≤ 10) :
    (t.ctx (s.cur + j)).masks = masksReset := by
  cases hf : ((List.range 10).map (· + 1)).find? (s.settleMe.helperFree (coreOf s.settleMe.cur)) with
  | none =>
    obtain rfl := Host.Outcome.next.inj ((exec_hstart_full rd b h0 ha rfl hf).symm.trans hx)
    rw [xr_of_completed (completed_retire _), State.xr_setXr_self 0 hrd] at hj
    exact absurd (congrArg BitVec.toNat hj) (by simp; omega)
  | some i =>
    obtain ⟨c, id, bps, hx'⟩ := exec_hstart_starts rd b h0 ha rfl hf
    obtain ⟨hi1, hi10⟩ := find_helper_bounds hf
    have hcur := s.settleMe_cur
    have hslot : coreOf s.settleMe.cur * 12 = s.cur := by rw [hcur, coreOf]; omega
    have hv := (State.newId_cur s.settleMe s.settleMe.me.launch (dieOf s.settleMe.cur)).trans hcur
    rw [hslot] at hx'
    generalize (s.settleMe.newId s.settleMe.me.launch (dieOf s.settleMe.cur)).1 = v at hx' hv
    generalize s.settleMe.me = c0 at hx'
    obtain rfl := Host.Outcome.next.inj (hx'.symm.trans hx)
    rw [xr_of_completed (completed_retire _), State.xr_setXr_self _ hrd] at hj
    have hij := congrArg BitVec.toNat hj
    rw [toNat_ofNat_lt (by omega), toNat_ofNat_lt (by omega)] at hij
    subst hij
    have hne : s.cur + i ≠ (v.setCtx (s.cur + i) (c.helper c0 id (s.xr a) (s.xr b) bps)).cur := by rw [State.setCtx_cur, hv]; omega
    rw [State.ctx_setXr_retire_ne _ _ hne, State.ctx_setCtx_self]
    exact Ctx.masks_helper ..

/-! ### The field of a mask operand -/

theorem maskField_high {w : BitVec 32} {n : Nat} {m : BitVec 3} (h : some (0#2 ++ m) = some (w.extractLsb' n 5)) :
    w.extractLsb' (n + 3) 2 = 0 := by
  have hs : w.extractLsb' (n + 3) 2 = (w.extractLsb' n 5).extractLsb' 3 2 := by
    refine BitVec.eq_of_getLsbD_eq fun k hk => ?_
    rw [BitVec.getLsbD_extractLsb', BitVec.getLsbD_extractLsb', BitVec.getLsbD_extractLsb', Nat.add_assoc n 3 k]
    simp [show 3 + k < 5 by omega]
  rw [hs, ← Option.some.inj h]
  exact BitVec.extractLsb'_append_eq_left

/-- The fields of a decoded instruction are the word's. -/
theorem fields_of_decode {w : BitVec 32} {i : Instr} (h : decode w = .ok i) : encodeFields i = some (split w) :=
  (decodeFields_faithful (split w) i h).2

/-- A mask destination's field has bits 4 and 3 zero, and so have a first and a second mask operand's. -/
theorem maskFields_high {w : BitVec 32} {i : Instr} (hi : decode w = .ok i) :
    (∀ m : BitVec 3, (encodeFields i).map Fields.d = some (0#2 ++ m) → w.extractLsb' 10 2 = 0) ∧
    (∀ m : BitVec 3, (encodeFields i).map Fields.a = some (0#2 ++ m) → w.extractLsb' 18 2 = 0) ∧
    (∀ m : BitVec 3, (encodeFields i).map Fields.b = some (0#2 ++ m) → w.extractLsb' 23 2 = 0) := by
  rw [fields_of_decode hi]
  exact ⟨fun _ h => maskField_high h.symm, fun _ h => maskField_high h.symm, fun _ h => maskField_high h.symm⟩

/-- Settles O58: every start's masks are those of reset, the fields of mask operands are those of the encoding, and activity is read off its
definition. -/
theorem maskRegisters : Obligations.MaskRegisters := by
  unfold Obligations.MaskRegisters
  refine ⟨Ctx.mask_zero, fun _ _ => if_pos rfl, fun c hc => Ctx.mask_of_masksReset ?_, fun w i vd vs1 vs2 mk a b hi => ?_, fun s mk i =>
    ⟨s.active_iff mk i, fun h => by rw [State.active_zero h, decide_eq_true_iff]⟩⟩
  · rcases hc with rfl | ⟨d, rfl⟩ | ⟨s, key, r, lag, l, rfl⟩ | ⟨s, t, cid, eff, n, l, hl, hn, hs, hid, rfl⟩ |
      ⟨s, t, rd, rs1, rs2, j, hx, h0, ha, hrd, hj, h1, h10, rfl⟩
    · rfl
    · rfl
    · rw [Nat.mul_comm]
      exact State.masks_startControl ..
    · exact State.masks_startTask cid eff hl hn hs hid
    · exact masks_hstart hx h0 ha hrd hj h1 h10
  · obtain ⟨hd, ha, hb⟩ := maskFields_high hi
    refine ⟨?_, ?_, ?_, ?_⟩
    · rintro (rfl | rfl | rfl) <;> exact ⟨hd _ rfl, ha _ rfl, hb _ rfl⟩
    · rintro rfl
      exact ⟨hd _ rfl, hb _ rfl⟩
    · rintro (rfl | rfl) <;> exact hb _ rfl
    · rintro (rfl | rfl | rfl | rfl | rfl | rfl | rfl | rfl | rfl | rfl) <;> exact hd _ rfl

end Sys2Proof.Machine
end
